-- ==== Sys2Proof/Word.lean ====
section
/-! DEFINITION. The word types of the Tiryel T9: what the spec treats as bits (R3, R13, R51, R73, R233). -/

namespace Sys2Proof

/-- One byte. -/
abbrev Byte := BitVec 8
/-- A g register, a token, an instruction word, an address as a program forms it (R29, R134). -/
abbrev W64 := BitVec 64
/-- One strip lane, one semaphore-free 32-bit quantity (R99). -/
abbrev W32 := BitVec 32
/-- The 768 bytes of one channel beat or one strip register: 192 lanes of 32 bits, lane 0 lowest (R51, R99). -/
abbrev Beat := BitVec 6144
/-- One operand slot of the matrix engine: 32 rows of 192 bytes, row 0 lowest (R233). -/
abbrev SlotImage := BitVec 49152
/-- One accumulator: 1,024 elements of 32 bits, element (i, j) at index 32 i + j (R233, R245). -/
abbrev AccImage := BitVec 32768
/-- A SHA-384 digest (R90). -/
abbrev Digest := BitVec 384
/-- A record of 64 bytes: descriptors, packets, command records (R166, R176, R182, R254, R282). -/
abbrev Rec64 := BitVec 512

/-- The engines of R25 that an engine field may name; 0 (none) and 7 (reserved) have no constructor. -/
inductive Engine where
  | seq | str | ast | est | pst | mxe
deriving DecidableEq, Repr

/-- The engine id of R25. -/
def Engine.id : Engine → Nat
  | .seq => 1 | .str => 2 | .ast => 3 | .est => 4 | .pst => 5 | .mxe => 6

/-- The engine an id of R25 names; none for 0, 7 and above. -/
def Engine.ofId : Nat → Option Engine
  | 1 => some .seq | 2 => some .str | 3 => some .ast | 4 => some .est | 5 => some .pst | 6 => some .mxe
  | _ => none

/-- The three strips (R25 ids 3, 4, 5). -/
inductive StripId where
  | ast | est | pst
deriving DecidableEq, Repr

/-- The engine a strip is. -/
def StripId.engine : StripId → Engine
  | .ast => .ast | .est => .est | .pst => .pst

end Sys2Proof
end

