-- ==== Sys2Proof/Syntax.lean ====
section
/-! DEFINITION. The instructions and steps of the part: one constructor of Instr for each row of spec/opcode_table.json.
Sequencer words carry the fields of R61-R67, strip words those of R73, control tokens those of R238; a step that is no
word carries what names the resource it acts on, or what the outside supplies with it. -/

namespace Sys2Proof

/-- The predicate mode of a sequencer word (R61); mode 11 is illegal. -/
inductive Pred where
  | always | onTrue | onFalse
deriving DecidableEq, Repr

/-- The kind of a target (R61): which operand slot of the receiving instruction. -/
inductive TKind where
  | left | right | pred
deriving DecidableEq, Repr

/-- A target: an operand slot of instruction slot 0-127 (R61, R62). -/
structure Target where
  kind : TKind
  slot : BitVec 7
deriving DecidableEq, Repr

/-- The common fields of a sequencer word (R61); a target of kind 00 is none. -/
structure Head where
  pred : Pred
  t0 : Option Target
  t1 : Option Target
deriving DecidableEq, Repr

/-- Access sizes of R63, in bytes 1, 2, 4, 8. -/
inductive Size where
  | b1 | b2 | b4 | b8
deriving DecidableEq, Repr

/-- FENCE scopes (R147). -/
inductive Scope where
  | tile | cluster | die | package | system
deriving DecidableEq, Repr

/-- The special registers of R71. -/
inductive SReg where
  | ltid | ninst | ctx | fmode | fflags | hvec | cause | info | epc | cycle | feat | wto
deriving DecidableEq, Repr

/-- The special registers that an MTS writes with no behaviour of its own (R122, R130). -/
inductive PlainSReg where
  | hvec | wto
deriving DecidableEq, Repr

/-- The engine a TOKP or TOKW names: 2-6 (R67). -/
inductive Partner where
  | str | ast | est | pst | mxe
deriving DecidableEq, Repr

/-- TLBI kinds 0-2 (R357). -/
inductive InvKind where
  | page | path | all
deriving DecidableEq, Repr

/-- CTXQ items 0-5 and 7 (R276); item 6 is the row CTXQ_CLEAR_FLAGS. -/
inductive CtxItem where
  | place | allotment | permits | epoch | policy | flags | audit
deriving DecidableEq, Repr

/-- The operations of the atomics (R156). -/
inductive AtomicOp where
  | add | swp | cas | and | or | xor | min | max | minu | maxu
deriving DecidableEq, Repr

/-- A strip word without its opcode (R73). -/
structure SWord where
  pop : BitVec 3
  push : BitVec 3
  rm : BitVec 3
  ty : BitVec 4
  d : BitVec 6
  a : BitVec 6
  b : BitVec 6
  c : BitVec 6
  imm : BitVec 19
deriving DecidableEq, Repr

/-- A control token without its operation (R238). -/
structure MTok where
  fa : BitVec 4
  fb : BitVec 4
  sa : BitVec 4
  sb : BitVec 4
  acc : BitVec 3
  ra : BitVec 5
  rb : BitVec 5
  rnd : BitVec 1
  kcnt : BitVec 5
  pop : BitVec 3
  push : BitVec 3
  nsrc : BitVec 1
  nch : BitVec 4
  dch : BitVec 4
  ofmt : BitVec 4
  sat : BitVec 1
  lenfault : BitVec 1
  tag : BitVec 4
deriving DecidableEq, Repr

/-- The directions of R181, in the order N, E, S, W of R182. -/
inductive Dir where
  | n | e | s | w
deriving DecidableEq, Repr

/-- The classes of R380 that a tile takes. -/
inductive FClass where
  | f | x | c | t | a
deriving DecidableEq, Repr

/-- A fault that a tile takes: its code and class (R379, R380), the engine id of sr.cause (0 for none), sr.info, the
sr.epc value of R380 or R383, and the page fault record content of R355 when translation raised it. -/
structure FaultArg where
  code : BitVec 8
  cls : FClass
  engine : BitVec 3
  info : W64
  epc : W64
  page : Option (BitVec 192)
deriving DecidableEq, Repr

/-- Why a fault escalates (R391). -/
inductive EscReason where
  | noHandler | inHandler | queueFull
deriving DecidableEq, Repr

/-- A record of a bounce channel (R273): the counter it was sealed under, its header, its payload as sealed, and its GCM tag. -/
structure BounceRec where
  counter : W64
  header : List Byte
  body : List Byte
  tag : BitVec 128
deriving DecidableEq, Repr

/-- What a bounce channel does (R273): the device receives a record of the host, or seals a header and a payload of the tenant for it. -/
inductive BounceArg where
  | receive (r : BounceRec)
  | send (header payload : List Byte)
deriving DecidableEq, Repr

/-- The SEAL message of R261. -/
structure SealMsg where
  expected : Digest
  queueKeys : List (BitVec 256)
  bounceKeys : List (BitVec 256)
  auditVa : W64
  signature : BitVec 768
deriving DecidableEq, Repr

/-- One group as received: 64 data flits and the control flit of R363. -/
structure LinkGroup where
  data : List (BitVec 1024)
  ctl : BitVec 1024
deriving DecidableEq, Repr

/-- What Hazel learns of a peer context that qualifies for a session (R365). -/
structure PeerOffer where
  package : Digest
  namesUs : Bool
  active : Bool
  busy : Bool
  send : Bool
  receive : Bool
  port : Nat
deriving DecidableEq, Repr

/-- One unit on its way (R52, R369): its bits, the tag and end bit that travel with it; void for the end of a frame that holds no
unit (R175, R310). -/
structure LinkUnit where
  bits : BitVec 144
  tag : Byte
  last : Bool
  void : Bool
deriving DecidableEq, Repr

/-- The sensors of R275, each with its reading: millivolts, picoseconds, MHz, degrees Celsius. -/
inductive Sensor where
  | voltage (mv : Nat) | clock (ps : Nat) | missingEdge | oscillator (mhz : Nat) | temperature (c : Int)
deriving DecidableEq, Repr

/-- Where an error is found (R394): a patrol scrub reads HBM and slices; sram stands for the other SRAM of a physical tile, which is checked as it is
read. -/
inductive ScrubLoc where
  | hbm (word : Nat) | slice (inst : Nat) (tile : Nat) (word : Nat) | sram (phys : Nat)
deriving DecidableEq, Repr

/-- What the 10 ms readback of a plot finds (R395). -/
inductive ReadbackResult where
  | clean | correctable | uncorrectable
deriving DecidableEq, Repr

/-- What bring-up finds (R400): whether every firmware image verified, and the digest of the one that runs. -/
structure BootResult where
  verified : Bool
  digest : Digest
deriving DecidableEq, Repr

/-- One constructor for each row of spec/opcode_table.json: the words of the sequencer and of the strips first, then the steps
that are no such word. -/
inductive Instr where
  /-- READ (R114). Sends the value that a g register held after the previous commit. -/
  | read (h : Head) (g : BitVec 5)
  /-- WRITE (R114). Sets a g register at commit from its left operand. -/
  | write (h : Head) (g : BitVec 5)
  /-- NULL (R114). Sends a null token and settles void every LSID of its settle mask. -/
  | null (h : Head) (settle : BitVec 32)
  /-- MOV (R114). Sends its left operand. -/
  | mov (h : Head)
  /-- MOVI (R114). Sends a sign-extended 36-bit immediate. -/
  | movi (h : Head) (imm : BitVec 36)
  /-- MOVHI (R114). Sends the immediate above bits 31:0 of its operand. -/
  | movhi (h : Head) (imm : BitVec 32)
  /-- ADRB (R114). Sends the header address plus a signed offset in 16-byte units. -/
  | adrb (h : Head) (exit : BitVec 3) (off : BitVec 33)
  /-- BR (R115). Branches to the header plus a signed offset at commit. -/
  | br (h : Head) (exit : BitVec 3) (off : BitVec 33)
  /-- BRR (R115). Branches to the address in its left operand at commit. -/
  | brr (h : Head)
  /-- CALL (R115). Branches relative and sends the return address. -/
  | call (h : Head) (exit : BitVec 3) (off : BitVec 33)
  /-- CALLR (R115). Branches to a register address and sends the return address. -/
  | callr (h : Head)
  /-- HALT (R117). Ends the tile's part in the instance after its released engine work retires. -/
  | halt (h : Head)
  /-- YIELD (R118). Commits as BR and offers the tile to Hazel's schedule at the block boundary. -/
  | yield (h : Head) (exit : BitVec 3) (off : BitVec 33)
  /-- ADD (R119). Sends the wrapped sum of two operands. -/
  | add (h : Head)
  /-- ADDI (R119). Sends the wrapped sum of an operand and an immediate. -/
  | addi (h : Head) (imm : BitVec 32)
  /-- SUB (R119). Sends the wrapped difference of two operands. -/
  | sub (h : Head)
  /-- SUBI (R119). Sends the wrapped difference of an operand and an immediate. -/
  | subi (h : Head) (imm : BitVec 32)
  /-- MUL (R119). Sends the low 64 bits of a product. -/
  | mul (h : Head)
  /-- MULI (R119). Sends the low 64 bits of a product with an immediate. -/
  | muli (h : Head) (imm : BitVec 32)
  /-- MULH (R119). Sends the high 64 bits of a signed product. -/
  | mulh (h : Head)
  /-- MULHU (R119). Sends the high 64 bits of an unsigned product. -/
  | mulhu (h : Head)
  /-- DIV (R120). Sends the signed quotient, and faults on a divisor of zero. -/
  | div (h : Head)
  /-- DIVU (R120). Sends the unsigned quotient, and faults on a divisor of zero. -/
  | divu (h : Head)
  /-- REM (R120). Sends the signed remainder, and faults on a divisor of zero. -/
  | rem (h : Head)
  /-- REMU (R120). Sends the unsigned remainder, and faults on a divisor of zero. -/
  | remu (h : Head)
  /-- AND (R119). Sends the bitwise AND of two operands. -/
  | andW (h : Head)
  /-- ANDI (R119). Sends the bitwise AND of an operand and the sign-extended immediate. -/
  | andi (h : Head) (imm : BitVec 32)
  /-- OR (R119). Sends the bitwise OR of two operands. -/
  | orW (h : Head)
  /-- ORI (R119). Sends the bitwise OR of an operand and the immediate. -/
  | ori (h : Head) (imm : BitVec 32)
  /-- XOR (R119). Sends the bitwise XOR of two operands. -/
  | xorW (h : Head)
  /-- XORI (R119). Sends the bitwise XOR of an operand and the immediate. -/
  | xori (h : Head) (imm : BitVec 32)
  /-- SHL (R119). Shifts left by bits 5:0 of the right operand. -/
  | shl (h : Head)
  /-- SHLI (R119). Shifts left by an immediate count. -/
  | shli (h : Head) (n : BitVec 6)
  /-- SHR (R119). Shifts right logically by bits 5:0 of the right operand. -/
  | shr (h : Head)
  /-- SRA (R119). Shifts right arithmetically by bits 5:0 of the right operand. -/
  | sra (h : Head)
  /-- SHRI (R119). Shifts right logically by an immediate count. -/
  | shri (h : Head) (n : BitVec 6)
  /-- SRAI (R119). Shifts right arithmetically by an immediate count. -/
  | srai (h : Head) (n : BitVec 6)
  /-- EXT (R119). Extracts a bit field, zero-extended. -/
  | ext (h : Head) (lb : BitVec 6) (wm : BitVec 6)
  /-- EXTS (R119). Extracts a bit field, sign-extended. -/
  | exts (h : Head) (lb : BitVec 6) (wm : BitVec 6)
  /-- CLZ (R119). Sends the count of leading zero bits. -/
  | clz (h : Head)
  /-- POPC (R119). Sends the count of one bits. -/
  | popc (h : Head)
  /-- MIN (R119). Sends the signed minimum of two operands. -/
  | min (h : Head)
  /-- MINU (R119). Sends the unsigned minimum of two operands. -/
  | minu (h : Head)
  /-- MAX (R119). Sends the signed maximum of two operands. -/
  | max (h : Head)
  /-- MAXU (R119). Sends the unsigned maximum of two operands. -/
  | maxu (h : Head)
  /-- SEXTB (R119). Sign-extends bits 7:0. -/
  | sextb (h : Head)
  /-- SEXTH (R119). Sign-extends bits 15:0. -/
  | sexth (h : Head)
  /-- SEXTW (R119). Sign-extends bits 31:0. -/
  | sextw (h : Head)
  /-- LEA (R119). Sends a plus b shifted left by a scale. -/
  | lea (h : Head) (sc : BitVec 2)
  /-- TEQ (R121). Sends 1 when the two operands are equal. -/
  | teq (h : Head)
  /-- TEQI (R121). Sends 1 when the operand equals the immediate. -/
  | teqi (h : Head) (imm : BitVec 32)
  /-- TNE (R121). Sends 1 when the two operands differ. -/
  | tne (h : Head)
  /-- TNEI (R121). Sends 1 when the operand differs from the immediate. -/
  | tnei (h : Head) (imm : BitVec 32)
  /-- TLT (R121). Signed less-than test. -/
  | tlt (h : Head)
  /-- TLTU (R121). Unsigned less-than test. -/
  | tltu (h : Head)
  /-- TLTI (R121). Signed less-than test against an immediate. -/
  | tlti (h : Head) (imm : BitVec 32)
  /-- TLTIU (R121). Unsigned less-than test against an immediate. -/
  | tltiu (h : Head) (imm : BitVec 32)
  /-- TLE (R121). Signed less-or-equal test. -/
  | tle (h : Head)
  /-- TLEU (R121). Unsigned less-or-equal test. -/
  | tleu (h : Head)
  /-- TLEI (R121). Signed less-or-equal test against an immediate. -/
  | tlei (h : Head) (imm : BitVec 32)
  /-- TLEIU (R121). Unsigned less-or-equal test against an immediate. -/
  | tleiu (h : Head) (imm : BitVec 32)
  /-- TGT (R121). Signed greater-than test. -/
  | tgt (h : Head)
  /-- TGTU (R121). Unsigned greater-than test. -/
  | tgtu (h : Head)
  /-- TGTI (R121). Signed greater-than test against an immediate. -/
  | tgti (h : Head) (imm : BitVec 32)
  /-- TGTIU (R121). Unsigned greater-than test against an immediate. -/
  | tgtiu (h : Head) (imm : BitVec 32)
  /-- TGE (R121). Signed greater-or-equal test. -/
  | tge (h : Head)
  /-- TGEU (R121). Unsigned greater-or-equal test. -/
  | tgeu (h : Head)
  /-- TGEI (R121). Signed greater-or-equal test against an immediate. -/
  | tgei (h : Head) (imm : BitVec 32)
  /-- TGEIU (R121). Unsigned greater-or-equal test against an immediate. -/
  | tgeiu (h : Head) (imm : BitVec 32)
  /-- TBIT (R121). Sends bit n of the operand. -/
  | tbit (h : Head) (n : BitVec 6)
  /-- MFS (R129). Sends the value of a special register. -/
  | mfs (h : Head) (r : SReg)
  /-- MTS (R130). Writes a special register with no behaviour of its own at commit, after its firing checks. -/
  | mts (h : Head) (ls : BitVec 5) (r : PlainSReg)
  /-- MTS_FMODE (R123). Writes sr.fmode; RUNs released after it in LSID order capture the new mode. -/
  | mtsFmode (h : Head) (ls : BitVec 5)
  /-- MTS_FFLAGS (R124). Clears sticky flags in sr.fflags by AND, including the matching lane flags. -/
  | mtsFflags (h : Head) (ls : BitVec 5)
  /-- MTS_EPC (R130). Writes sr.epc in handler mode, and faults with PERMISSION outside it. -/
  | mtsEpc (h : Head) (ls : BitVec 5)
  /-- TRAP (R131). Commits its block and then enters the tenant handler with code TRAP. -/
  | trap (h : Head) (code : BitVec 16)
  /-- HRET (R132). Leaves handler mode and continues at sr.epc. -/
  | hret (h : Head)
  /-- LD (R152). Loads 1 to 8 bytes, zero-extended. -/
  | ld (h : Head) (ls : BitVec 5) (sz : Size) (off : BitVec 24)
  /-- LDS (R152). Loads 1 to 8 bytes, sign-extended. -/
  | lds (h : Head) (ls : BitVec 5) (sz : Size) (off : BitVec 24)
  /-- ST (R152). Stores 1 to 8 bytes at commit. -/
  | st (h : Head) (ls : BitVec 5) (sz : Size) (off : BitVec 24)
  /-- LDF (R153). Waits until a granule is full, then loads from it. -/
  | ldf (h : Head) (ls : BitVec 5) (sz : Size) (off : BitVec 24)
  /-- STF (R153). Stores at commit and marks the granule full. -/
  | stf (h : Head) (ls : BitVec 5) (sz : Size) (off : BitVec 24)
  /-- EMPTY (R153). Marks a granule empty at commit. -/
  | empty (h : Head) (ls : BitVec 5) (off : BitVec 24)
  /-- LDF_TAKE (R154). Waits for a full granule, then at commit reads it into a g register and marks it empty. -/
  | ldfTake (h : Head) (ls : BitVec 5) (sz : Size) (g : BitVec 5) (off : BitVec 24)
  /-- WAITA (R157). At commit, compares a word with a comparand and parks on the granule while they are equal. -/
  | waita (h : Head) (ls : BitVec 5) (g : BitVec 5) (off : BitVec 24)
  /-- AADD (R156). Atomic add at the home; the old value goes to a g register. -/
  | aadd (h : Head) (ls : BitVec 5) (wide : Bool) (g : BitVec 5) (off : BitVec 24)
  /-- ASWP (R156). Atomic swap. -/
  | aswp (h : Head) (ls : BitVec 5) (wide : Bool) (g : BitVec 5) (off : BitVec 24)
  /-- ACAS (R156). Atomic compare-and-swap against a g register comparand. -/
  | acas (h : Head) (ls : BitVec 5) (wide : Bool) (g : BitVec 5) (off : BitVec 24)
  /-- AAND (R156). Atomic AND. -/
  | aand (h : Head) (ls : BitVec 5) (wide : Bool) (g : BitVec 5) (off : BitVec 24)
  /-- AOR (R156). Atomic OR. -/
  | aor (h : Head) (ls : BitVec 5) (wide : Bool) (g : BitVec 5) (off : BitVec 24)
  /-- AXOR (R156). Atomic XOR. -/
  | axor (h : Head) (ls : BitVec 5) (wide : Bool) (g : BitVec 5) (off : BitVec 24)
  /-- AMIN (R156). Atomic signed minimum. -/
  | amin (h : Head) (ls : BitVec 5) (wide : Bool) (g : BitVec 5) (off : BitVec 24)
  /-- AMAX (R156). Atomic signed maximum. -/
  | amax (h : Head) (ls : BitVec 5) (wide : Bool) (g : BitVec 5) (off : BitVec 24)
  /-- AMINU (R156). Atomic unsigned minimum. -/
  | aminu (h : Head) (ls : BitVec 5) (wide : Bool) (g : BitVec 5) (off : BitVec 24)
  /-- AMAXU (R156). Atomic unsigned maximum. -/
  | amaxu (h : Head) (ls : BitVec 5) (wide : Bool) (g : BitVec 5) (off : BitVec 24)
  /-- FENCE (R160). Orders the block's loads, and later blocks, behind earlier stores within a scope. -/
  | fence (h : Head) (scope : Scope)
  /-- SBAR (R161). Holds the named streams and orders their accesses against the block. -/
  | sbar (h : Head) (mask : BitVec 16)
  /-- SDEF (R184). Reads a stream descriptor and queues it for a stream. -/
  | sdef (h : Head) (ls : BitVec 5) (st : BitVec 4) (off : BitVec 24)
  /-- SGO (R184). Queues a start for a stream. -/
  | sgo (h : Head) (ls : BitVec 5) (st : BitVec 4)
  /-- SSTOP (R164). Discards a stream's queued commands and stops it if it is Running. -/
  | sstop (h : Head) (ls : BitVec 5) (st : BitVec 4)
  /-- CPY (R184). Reads a copy packet and sends it to the cluster's copy engine. -/
  | cpy (h : Head) (ls : BitVec 5) (off : BitVec 24)
  /-- HALO (R183). Reads a HALO descriptor and starts copying boundary rows to its neighbours. -/
  | halo (h : Head) (ls : BitVec 5) (off : BitVec 24)
  /-- VCFMT (R174). Writes a stream-port VC entry. -/
  | vcfmt (h : Head) (ls : BitVec 5) (port : BitVec 2) (vc : BitVec 5)
  /-- VCSCL (R174). Writes a port scale register. -/
  | vcscl (h : Head) (ls : BitVec 5) (port : BitVec 2) (reg : BitVec 3)
  /-- RUN (R187). Releases strip code to the queue of AST, EST or PST, capturing sr.fmode. -/
  | run (h : Head) (ls : BitVec 5) (e : StripId) (cnt : BitVec 12) (rep : BitVec 12)
  /-- CHR (R185). Reads a word of a channel entry, which is removed at commit. -/
  | chr (h : Head) (ls : BitVec 5) (ch : BitVec 4) (word : BitVec 7)
  /-- CHW (R185). Pushes a one-word beat to a channel at commit. -/
  | chw (h : Head) (ls : BitVec 5) (ch : BitVec 4) (tag : BitVec 8) (last : Bool)
  /-- TOKP (R184). Pushes a token from SEQ to an engine at commit. -/
  | tokp (h : Head) (ls : BitVec 5) (e : Partner)
  /-- TOKW (R184). Pops a token from an engine to SEQ, removed at commit. -/
  | tokw (h : Head) (ls : BitVec 5) (e : Partner)
  /-- OCLAIM (R236). Claims a Free operand slot, which then reads as zero. -/
  | oclaim (h : Head) (ls : BitVec 5) (slot : BitVec 4)
  /-- ORELEASE (R236). Frees an operand slot once earlier users finish. -/
  | orelease (h : Head) (ls : BitVec 5) (slot : BitVec 4)
  /-- OFILL (R236). Starts a fill of an operand slot from 6,144 bytes of memory. -/
  | ofill (h : Head) (ls : BitVec 5) (slot : BitVec 4) (off : BitVec 24)
  /-- MXQ (R236). Appends a control token to the MXE token queue. -/
  | mxq (h : Head) (ls : BitVec 5)
  /-- SEMA (R327). Waits for and takes a count from a semaphore at commit. -/
  | sema (h : Head) (ls : BitVec 5) (g : BitVec 5) (sem : BitVec 6) (cnt : BitVec 16)
  /-- SEMP (R328). Posts an increment to a semaphore of a logical tile. -/
  | semp (h : Head) (ls : BitVec 5) (sem : BitVec 6) (cnt : BitVec 16)
  /-- SEMT (R329). Sends a semaphore's value. -/
  | semt (h : Head) (sem : BitVec 6)
  /-- BARA (R335). Arrives at a group barrier and receives the phase joined. -/
  | bara (h : Head) (ls : BitVec 5) (g : BitVec 5) (gid : BitVec 8)
  /-- BARW (R336). Waits until the barrier phase differs from a given phase. -/
  | barw (h : Head) (ls : BitVec 5) (gid : BitVec 8)
  /-- BAR (R337). Arrives at a barrier and parks until it advances. -/
  | bar (h : Head) (ls : BitVec 5) (gid : BitVec 8)
  /-- BARC (R338). Sets the barrier's expected count. -/
  | barc (h : Head) (ls : BitVec 5) (gid : BitVec 8)
  /-- GSID (R323). Sends the group id in a group slot. -/
  | gsid (h : Head) (n : BitVec 2)
  /-- GSIZE (R323). Sends a group's size. -/
  | gsize (h : Head) (gid : BitVec 8)
  /-- GRANK (R323). Sends the tile's rank in a group. -/
  | grank (h : Head) (gid : BitVec 8)
  /-- GMEMB (R323). Sends the tile id of the member of a given rank. -/
  | gmemb (h : Head) (gid : BitVec 8)
  /-- ENQ (R290). Reads a 64-byte packet and enqueues it on a queue of the context. -/
  | enq (h : Head) (ls : BitVec 5) (q : BitVec 4) (off : BitVec 24)
  /-- QSTAT (R291). Sends a queue's status word. -/
  | qstat (h : Head) (q : BitVec 4)
  /-- TLBI (R357). Invalidates cached translations package-wide and waits for completion. -/
  | tlbi (h : Head) (ls : BitVec 5) (kind : InvKind)
  /-- PMIG (R359). Moves, pins or unpins a 64 KiB page. -/
  | pmig (h : Head) (ls : BitVec 5)
  /-- LNKST (R377). Sends an Omide port's status. -/
  | lnkst (h : Head) (port : BitVec 5)
  /-- CTXQ (R276). Sends a context item such as placement, allotment, permits, epoch or audit counts. -/
  | ctxq (h : Head) (item : CtxItem)
  /-- CTXQ_CLEAR_FLAGS (R276). Item 6: sends the transfer flags and clears the ones shown at the end of the perform phase. -/
  | ctxqClearFlags (h : Head)
  /-- IDLE (R197). Occupies n schedule cycles, with an optional pop and push. -/
  | idle (e : StripId) (w : SWord)
  /-- AST_ADD (R200). A-strip add. -/
  | astAdd (w : SWord)
  /-- AST_SUB (R200). A-strip subtract. -/
  | astSub (w : SWord)
  /-- AST_MUL (R200). A-strip multiply. -/
  | astMul (w : SWord)
  /-- AST_FMA (R200). Fused A times B plus C. -/
  | astFma (w : SWord)
  /-- AST_FMS (R200). Fused A times B minus C. -/
  | astFms (w : SWord)
  /-- AST_FNMA (R200). Fused C minus A times B. -/
  | astFnma (w : SWord)
  /-- AST_MIN (R201). Element minimum. -/
  | astMin (w : SWord)
  /-- AST_MAX (R201). Element maximum. -/
  | astMax (w : SWord)
  /-- AST_ABS (R200). Absolute value. -/
  | astAbs (w : SWord)
  /-- AST_NEG (R200). Negation. -/
  | astNeg (w : SWord)
  /-- AST_CMPEQ (R202). Equal compare, writing a mask. -/
  | astCmpeq (w : SWord)
  /-- AST_CMPNE (R202). Not-equal compare, writing a mask. -/
  | astCmpne (w : SWord)
  /-- AST_CMPLT (R202). Less-than compare, writing a mask. -/
  | astCmplt (w : SWord)
  /-- AST_CMPLE (R202). Less-or-equal compare, writing a mask. -/
  | astCmple (w : SWord)
  /-- AST_SEL (R200). Selects A or B by a mask. -/
  | astSel (w : SWord)
  /-- AST_MOV (R200). Lane move. -/
  | astMov (w : SWord)
  /-- AST_AND (R200). Lane AND. -/
  | astAnd (w : SWord)
  /-- AST_OR (R200). Lane OR. -/
  | astOr (w : SWord)
  /-- AST_XOR (R200). Lane XOR. -/
  | astXor (w : SWord)
  /-- AST_NOT (R200). Lane NOT. -/
  | astNot (w : SWord)
  /-- AST_SHL (R200). Element shift left. -/
  | astShl (w : SWord)
  /-- AST_SHR (R200). Element logical shift right. -/
  | astShr (w : SWord)
  /-- AST_SRA (R200). Element arithmetic shift right. -/
  | astSra (w : SWord)
  /-- AST_MULH (R200). High half of an element product. -/
  | astMulh (w : SWord)
  /-- AST_MADD (R200). Integer multiply-add. -/
  | astMadd (w : SWord)
  /-- AST_ADDS (R200). Saturating add. -/
  | astAdds (w : SWord)
  /-- AST_SUBS (R200). Saturating subtract. -/
  | astSubs (w : SWord)
  /-- AST_CLAMP (R201). Clamps A between B and C. -/
  | astClamp (w : SWord)
  /-- AST_RINT (R203). Rounds to an integral value in the same format. -/
  | astRint (w : SWord)
  /-- AST_CLASS (R203). Writes the class bit of each element. -/
  | astClass (w : SWord)
  /-- AST_COPYSIGN (R200). Replaces the sign of A with that of B. -/
  | astCopysign (w : SWord)
  /-- AST_SCALE (R200). Multiplies A by 2 to the power B. -/
  | astScale (w : SWord)
  /-- AST_ABSD (R200). Absolute difference. -/
  | astAbsd (w : SWord)
  /-- AST_AVG (R200). Rounded-up integer average. -/
  | astAvg (w : SWord)
  /-- AST_CLZ (R200). Element leading-zero count. -/
  | astClz (w : SWord)
  /-- AST_POPC (R200). Element one-bit count. -/
  | astPopc (w : SWord)
  /-- AST_FLAGR (R204). Reads the A-strip lane flags. -/
  | astFlagr (w : SWord)
  /-- AST_FLAGC (R204). Clears the selected A-strip lane flags. -/
  | astFlagc (w : SWord)
  /-- EST_EXP (R214). Correctly rounded e to the power A. -/
  | estExp (w : SWord)
  /-- EST_EXP2 (R214). Correctly rounded 2 to the power A. -/
  | estExp2 (w : SWord)
  /-- EST_EXP10 (R214). Correctly rounded 10 to the power A. -/
  | estExp10 (w : SWord)
  /-- EST_EXPM1 (R214). Correctly rounded e to the power A, minus 1. -/
  | estExpm1 (w : SWord)
  /-- EST_LOG (R214). Correctly rounded natural logarithm. -/
  | estLog (w : SWord)
  /-- EST_LOG2 (R214). Correctly rounded base-2 logarithm. -/
  | estLog2 (w : SWord)
  /-- EST_LOG10 (R214). Correctly rounded base-10 logarithm. -/
  | estLog10 (w : SWord)
  /-- EST_LOG1P (R214). Correctly rounded ln(1 + A). -/
  | estLog1p (w : SWord)
  /-- EST_SIN (R214). Correctly rounded sine. -/
  | estSin (w : SWord)
  /-- EST_COS (R214). Correctly rounded cosine. -/
  | estCos (w : SWord)
  /-- EST_TAN (R214). Correctly rounded tangent. -/
  | estTan (w : SWord)
  /-- EST_SINPI (R214). Correctly rounded sin(pi A). -/
  | estSinpi (w : SWord)
  /-- EST_COSPI (R214). Correctly rounded cos(pi A). -/
  | estCospi (w : SWord)
  /-- EST_ASIN (R214). Correctly rounded arcsine. -/
  | estAsin (w : SWord)
  /-- EST_ACOS (R214). Correctly rounded arccosine. -/
  | estAcos (w : SWord)
  /-- EST_ATAN (R214). Correctly rounded arctangent. -/
  | estAtan (w : SWord)
  /-- EST_ATAN2 (R214). Correctly rounded angle of the point (B, A). -/
  | estAtan2 (w : SWord)
  /-- EST_SINH (R214). Correctly rounded hyperbolic sine. -/
  | estSinh (w : SWord)
  /-- EST_COSH (R214). Correctly rounded hyperbolic cosine. -/
  | estCosh (w : SWord)
  /-- EST_TANH (R214). Correctly rounded hyperbolic tangent. -/
  | estTanh (w : SWord)
  /-- EST_ERF (R214). Correctly rounded error function. -/
  | estErf (w : SWord)
  /-- EST_ERFC (R214). Correctly rounded complementary error function. -/
  | estErfc (w : SWord)
  /-- EST_SIGMOID (R214). Correctly rounded logistic function. -/
  | estSigmoid (w : SWord)
  /-- EST_POW (R214). Correctly rounded A to the power B. -/
  | estPow (w : SWord)
  /-- EST_CBRT (R214). Correctly rounded cube root. -/
  | estCbrt (w : SWord)
  /-- EST_HYPOT (R214). Correctly rounded hypotenuse. -/
  | estHypot (w : SWord)
  /-- EST_RSQRT (R214). Correctly rounded reciprocal square root. -/
  | estRsqrt (w : SWord)
  /-- EST_SQRT (R214). Correctly rounded square root. -/
  | estSqrt (w : SWord)
  /-- EST_RCP (R214). Correctly rounded reciprocal. -/
  | estRcp (w : SWord)
  /-- EST_DIV (R214). Correctly rounded quotient. -/
  | estDiv (w : SWord)
  /-- EST_EXP_A (R229). Approximate EXP by the fixed algorithm. -/
  | estExpA (w : SWord)
  /-- EST_EXP2_A (R229). Approximate EXP2. -/
  | estExp2A (w : SWord)
  /-- EST_EXP10_A (R229). Approximate EXP10. -/
  | estExp10A (w : SWord)
  /-- EST_LOG_A (R229). Approximate LOG. -/
  | estLogA (w : SWord)
  /-- EST_LOG2_A (R229). Approximate LOG2. -/
  | estLog2A (w : SWord)
  /-- EST_SIGMOID_A (R229). Approximate SIGMOID. -/
  | estSigmoidA (w : SWord)
  /-- EST_RSQRT_A (R229). Approximate RSQRT. -/
  | estRsqrtA (w : SWord)
  /-- EST_SQRT_A (R229). Approximate SQRT. -/
  | estSqrtA (w : SWord)
  /-- EST_RCP_A (R229). Approximate RCP. -/
  | estRcpA (w : SWord)
  /-- EST_DIV_A (R229). Approximate DIV. -/
  | estDivA (w : SWord)
  /-- EST_HARDR (R226). Reads the four hard counters and their sum, optionally clearing them. -/
  | estHardr (w : SWord)
  /-- EST_FLAGR (R227). Reads the E-strip lane flags. -/
  | estFlagr (w : SWord)
  /-- EST_FLAGC (R227). Clears the selected E-strip lane flags. -/
  | estFlagc (w : SWord)
  /-- PST_PERMB (R205). Byte permute within 64-byte windows. -/
  | pstPermb (w : SWord)
  /-- PST_SHUF (R205). Element gather by index. -/
  | pstShuf (w : SWord)
  /-- PST_ROTL (R205). Rotates a pool of A and B. -/
  | pstRotl (w : SWord)
  /-- PST_BCAST (R205). Broadcasts one element. -/
  | pstBcast (w : SWord)
  /-- PST_ZIP (R205). Interleaves halves of A and B. -/
  | pstZip (w : SWord)
  /-- PST_UNZIP (R205). De-interleaves a pool of A and B. -/
  | pstUnzip (w : SWord)
  /-- PST_CVT (R206). Converts a window of elements between formats. -/
  | pstCvt (w : SWord)
  /-- PST_PACKB (R207). Narrows elements to half width. -/
  | pstPackb (w : SWord)
  /-- PST_UNPACKB (R207). Widens elements to twice their width. -/
  | pstUnpackb (w : SWord)
  /-- PST_SCAN (R208). Prefix add, minimum or maximum with a seed. -/
  | pstScan (w : SWord)
  /-- PST_REDUCE (R208). Reduction to element 0 with a seed. -/
  | pstReduce (w : SWord)
  /-- PST_COMPACT (R205). Packs the selected elements to the front. -/
  | pstCompact (w : SWord)
  /-- PST_EXPAND (R205). Spreads elements to the selected positions. -/
  | pstExpand (w : SWord)
  /-- PST_INTERSECT (R205). Membership test of A's elements in B. -/
  | pstIntersect (w : SWord)
  /-- PST_STEER (R209). Sends a beat to one of two destinations by a control. -/
  | pstSteer (w : SWord)
  /-- PST_MERGE (R209). Takes a beat from one of two inputs by a control. -/
  | pstMerge (w : SWord)
  /-- PST_SEGSCAN (R208). Segmented prefix operation. -/
  | pstSegscan (w : SWord)
  /-- PST_IOTA (R205). Writes an arithmetic sequence. -/
  | pstIota (w : SWord)
  /-- PST_MASKGEN (R205). Writes a prefix mask. -/
  | pstMaskgen (w : SWord)
  /-- PST_POPCM (R205). Counts the non-zero elements. -/
  | pstPopcm (w : SWord)
  /-- PST_TRN (R205). Transposes elements within a beat. -/
  | pstTrn (w : SWord)
  /-- PST_INSL (R205). Inserts one element into B. -/
  | pstInsl (w : SWord)
  /-- PST_EXTL (R205). Extracts one element. -/
  | pstExtl (w : SWord)
  /-- PST_SPLIT (R209). Compacts A by a mask into two destinations. -/
  | pstSplit (w : SWord)
  /-- PST_TAGS (R205). Sets the tag of the pushed beat. -/
  | pstTags (w : SWord)
  /-- PST_MARKE (R205). Sets the end bit of the pushed beat. -/
  | pstMarke (w : SWord)
  /-- PST_TAGT (R210). Passes a beat and checks its tag, faulting on a mismatch. -/
  | pstTagt (w : SWord)
  /-- COLD_RESET (R400). Bring-up verifies firmware, trains, scrubs, arms sensors and brings up links. -/
  | coldReset (pass : BootResult)
  /-- BLOCK_FETCH (R27). The sequencer fetches a block at next and checks its alignment, translation, header, masks and words before any instruction fires. -/
  | blockFetch
  /-- BLOCK_ISSUE (R29). A fetched block issues, and the instructions that require no operand slot fire. -/
  | blockIssue
  /-- BLOCK_COMMIT (R37). Once R36 holds and the wait phase ends, the block's check and perform phases release stores, commands, pops and g register writes in LSID order. -/
  | blockCommit
  /-- BLOCK_MALFORMED_DETECT (R36). Within 64 tile cycles of the last firing, the sequencer finds that a block can neither fire further nor commit. -/
  | blockMalformedDetect
  /-- SERIALISE_ISSUE (R45). A block whose serialise bit is 1 issues once all engine work released earlier has retired. -/
  | serialiseIssue
  /-- RUN_CHECK (R188). At the head of its queue, a RUN's code and constants are read into the code store and every word is checked. -/
  | runCheck (e : StripId)
  /-- STRIP_RESULT_DUE (R194). L schedule cycles after issue, a strip word writes or pushes its result, raises its flags and pushes its token. -/
  | stripResultDue (e : StripId)
  /-- STRIP_WORD_ISSUE (R192). A strip issues its next word once its POP token and channel entries are ready. -/
  | stripWordIssue (e : StripId)
  /-- SECOND_PHASE_ROUND (R224). The second-phase units round the hard elements while the schedule clock stops for 48 times h tile cycles, then the due cycle proceeds. -/
  | secondPhaseRound
  /-- MXE_TOKEN_TAKE (R241). The MXE takes the next control token from the queue or a channel beat and checks it. -/
  | mxeTokenTake
  /-- MMA (R243). Adds A times B transposed to an accumulator. -/
  | mma (k : MTok)
  /-- MMAZ (R243). Sets an accumulator to A times B transposed. -/
  | mmaz (k : MTok)
  /-- MMAN (R243). Subtracts A times B transposed from an accumulator. -/
  | mman (k : MTok)
  /-- ACCZ (R244). Sets an accumulator to zero. -/
  | accz (k : MTok)
  /-- ACCOUT (R245). Converts accumulator rows and pushes them as one frame. -/
  | accout (k : MTok)
  /-- ACCIN (R245). Loads accumulator rows from a channel frame. -/
  | accin (k : MTok)
  /-- MXE_OPERATION_RETIRE (R243). An MXE operation's accumulator writes fall due after its occupancy, and it pushes and raises its flags. -/
  | mxeOperationRetire
  /-- ACCOUT_BEAT_PUSH (R245). ACCOUT pushes beat b at issue plus 4 plus b. -/
  | accoutBeatPush
  /-- FILL_COMPLETE (R237). A fill finishes writing its 6,144 bytes into an operand slot, or faults. -/
  | fillComplete (slot : BitVec 4)
  /-- STREAM_COMMAND_TAKE (R164). A stream that is not Running takes its next queued SDEF or SGO. -/
  | streamCommandTake (st : BitVec 4)
  /-- STREAM_UNIT (R168). A Running stream issues its next unit access. -/
  | streamUnit (st : BitVec 4)
  /-- STREAM_FRAME_END (R169). After a frame's accesses are performed, the stream sets end bits or full bits and pushes its token. -/
  | streamFrameEnd (st : BitVec 4)
  /-- STREAM_COMPLETION (R169). After the last frame, the stream adds to its semaphore and returns to Defined. -/
  | streamCompletion (st : BitVec 4)
  /-- STREAM_STOP_DONE (R164). A stopped stream returns to Defined once its issued accesses are performed. -/
  | streamStopDone (st : BitVec 4)
  /-- GATHER_ROW (R170). The gather engines read index k and deliver its row. -/
  | gatherRow (st : BitVec 4)
  /-- VC_DEMAND_GRANT (R172). An inbound VC grants demand as its linked channel frees room. -/
  | vcDemandGrant (port : BitVec 2) (vc : BitVec 5)
  /-- VC_UNIT_SEND (R172). An outbound VC sends units against outstanding demand. -/
  | vcUnitSend (port : BitVec 2) (vc : BitVec 5)
  /-- VC_UNIT_RECEIVE (R173). An inbound VC converts arriving units and packs them into beats. -/
  | vcUnitReceive (port : BitVec 2) (vc : BitVec 5)
  /-- ROUTER_FILTER_FRAME (R175). A router filter converts, zero-removes or transposes a frame. -/
  | routerFilterFrame (port : BitVec 2) (vc : BitVec 5)
  /-- COPY_PACKET_START (R179). A copy engine starts the next startable packet by priority and round-robin. -/
  | copyPacketStart (eng : Nat)
  /-- CPY_COPY (R177). Copy packet op COPY moves rows bit for bit. -/
  | cpyCopy (eng : Nat)
  /-- CPY_CONV (R177). Copy packet op CONV converts rows with scale and rounding. -/
  | cpyConv (eng : Nat)
  /-- CPY_FILL (R177). Copy packet op FILL writes a pattern. -/
  | cpyFill (eng : Nat)
  /-- CPY_MCAST (R177). Copy packet op MCAST copies into every member of a group. -/
  | cpyMcast (eng : Nat)
  /-- COPY_COMPLETION (R178). For each destination tile, the packet marks granules full and adds to the semaphore. -/
  | copyCompletion (eng : Nat)
  /-- COPY_PRIORITY_AGE (R179). A waiting packet rises one priority level every 4 ms. -/
  | copyPriorityAge (eng : Nat)
  /-- COPY_PACKET_FRAME (R180). A copy engine receives a packet as one frame of 8 f64 units on dst port 0. -/
  | copyPacketFrame (eng : Nat)
  /-- PERMIT_UNIT (R180). A unit on dst port 1 adds 1 to a permit counter. -/
  | permitUnit (eng : Nat)
  /-- HALO_DIRECTION_COMPLETE (R183). A HALO direction's writes are performed; it marks full and adds to the receiver's semaphore. -/
  | haloDirectionComplete (dir : Dir)
  /-- HALO_SENDER_COMPLETE (R183). Every read of every direction is performed, and the sender's semaphore receives 1. -/
  | haloSenderComplete
  /-- BARRIER_ARRIVAL (R333). The barrier table counts an arrival and advances the phase at the target. -/
  | barrierArrival
  /-- BARRIER_COUNT_UPDATE (R338). The barrier table receives a BARC and may advance at once. -/
  | barrierCountUpdate
  /-- BARRIER_ADVANCE_NOTICE (R333). An advance notice reaches a member, waking BARW or BAR. -/
  | barrierAdvanceNotice
  /-- SLICE_BANK_SERVE (R139). A bank serves the request of the current wheel slot. -/
  | sliceBankServe
  /-- RESERVATION_RETRY (R140). A check phase without all reservations after 32 tile cycles releases them and repeats. -/
  | reservationRetry
  /-- TAKE_HEAD_TIMEOUT (R155). A head tile that does not take within 64 tile cycles moves to the tail. -/
  | takeHeadTimeout (granule : Nat)
  /-- TAKE_LIST_GRANT (R155). A granule becomes full and the home grants the take to the head of its list. -/
  | takeListGrant (granule : Nat)
  /-- WAITA_WAKE (R159). An access changes a watched granule, and wake-ups go out in registration order. -/
  | waitaWake
  /-- WAITA_TIMEOUT (R158). A parked WAITA runs for its timeout and wakes with reason 3. -/
  | waitaTimeout
  /-- BANK_REASSIGN (R141). Hazel closes, drains, wakes, scrubs and retags a bank for a new owner. -/
  | bankReassign (phys : Nat) (bank : BitVec 4) (tag : BitVec 8)
  /-- PAGE_WALK (R345). A walker reads the three-level first stage through the second stage. -/
  | pageWalk (va : W64)
  /-- SHADOW_SERVICE (R388). The shadow context services a minor fault and completes the access, or raises it as major. -/
  | shadowService
  /-- TLBI_COMPLETE (R357). Every agent has dropped the named entries and performed accesses that used them. -/
  | tlbiComplete
  /-- MIGRATE (R359). A released PMIG swaps the leaf, copies the page and swaps the leaf again. -/
  | migrate
  /-- FRAME_MOVE (R351). Hazel moves a second-stage frame and invalidates cached results. -/
  | frameMove (tag : BitVec 8) (unit : Nat) (frame : Nat)
  /-- FAULT_TAKE (R381). A tile takes a fault: it sets sr.cause, sr.info and sr.epc and enters the handler, or escalates. -/
  | faultTake (f : FaultArg)
  /-- FAULT_DELIVERY (R383). At a delivery point, one pending class A fault is taken. -/
  | faultDelivery
  /-- ESCALATE (R390). Hazel stops the region, scans it out, writes the escalation record and retires the instance. -/
  | escalate (f : FaultArg) (reason : EscReason)
  /-- DEADLOCK_DECLARE (R57). After 4,096 tile cycles without movement, the detector declares DEADLOCK, writes the report and delivers the fault. -/
  | deadlockDeclare (tag : BitVec 8)
  /-- TILE_PREEMPT (R41). The tile is pre-empted at a moment of R41, and its engines stop at their pre-emption points. -/
  | tilePreempt
  /-- TILE_CLAIM_SAVE (R266). An incoming context claims a tile, whose resident state is saved and slice scrubbed. -/
  | tileClaimSave (phys : Nat) (tag : BitVec 8)
  /-- TILE_RESUME (R267). A tile's state is restored in place or on a free tile, and it continues. -/
  | tileResume (phys : Nat)
  /-- SLICE_EXPIRY (R258). A contending context's slice elapses, and Hazel pre-empts it for the waiting context with the largest deficit. -/
  | sliceExpiry (tag : BitVec 8)
  /-- CREATE_CONTEXT (R256). Creates a Building context with a new tag, handle and keys. -/
  | createContext (cmd : Rec64)
  /-- LOAD_POLICY (R256). Binds a signed policy to a Building context. -/
  | loadPolicy (cmd : Rec64)
  /-- GRANT (R256). Reserves, scrubs and tags tiles, plots and HBM, and writes the initial first stage. -/
  | grant (cmd : Rec64)
  /-- SCHEDULE (R256). Sets a context's share and slice. -/
  | schedule (cmd : Rec64)
  /-- PAUSE (R264). Stops the context's tiles and plot sets. -/
  | pause (cmd : Rec64)
  /-- PAUSE_COMPLETE (R264). Every tile and plot set has stopped, and the context is Paused. -/
  | pauseComplete (tag : BitVec 8)
  /-- RESUME (R256). Moves a Sealed or Paused context to Running. -/
  | resume (cmd : Rec64)
  /-- EVICT (R268). Pauses, attests a target, and sends a sealed checkpoint. -/
  | evict (cmd : Rec64)
  /-- EVICT_COMPLETE (R268). The checkpoint is sent, resources are freed, and the context is Evicted. -/
  | evictComplete (tag : BitVec 8)
  /-- RESTORE (R269). Reads back and checks a checkpoint. -/
  | restore (cmd : Rec64)
  /-- RESTORE_COMPLETE (R269). The resources are re-placed, and the context is Paused. -/
  | restoreComplete (tag : BitVec 8) (ok : Bool)
  /-- DESTROY (R270). Stops, aborts, erases keys and scrubs the context. -/
  | destroy (cmd : Rec64)
  /-- RESET_VF (R270). Destroys the context bound to a VF. -/
  | resetVf (cmd : Rec64)
  /-- FUNCTION_LEVEL_RESET (R270). A PCIe function-level reset of a VF destroys its context. -/
  | functionLevelReset (vf : BitVec 8)
  /-- SCRUB_COMPLETE (R270). Scrubbing ends, and a Destroyed context becomes Empty. -/
  | scrubComplete (tag : BitVec 8)
  /-- READ_COUNTER (R271). Returns a package or context counter, subject to the allow-list. -/
  | readCounter (cmd : Rec64)
  /-- MASK_FEATURE (R274). Replaces the feature mask and sr.feat on every tile of the context. -/
  | maskFeature (cmd : Rec64)
  /-- SUBMIT (R281). Sets a queue's tail. -/
  | submit (cmd : Rec64)
  /-- ATTEST (R261). Returns the signed measurement, state and nonce. -/
  | attest (tag : BitVec 8) (nonce : BitVec 256)
  /-- SEAL (R261). Checks the measurement, installs keys and moves the context to Sealed. -/
  | seal (tag : BitVec 8) (m : SealMsg)
  /-- KEY_UPDATE (R261). SPDM key update of the bounce-channel keys. -/
  | keyUpdate (tag : BitVec 8) (chan : BitVec 2)
  /-- BOUNCE_RECORD (R273). The device accepts a bounce-channel record or rejects it for its counter. -/
  | bounceRecord (tag : BitVec 8) (chan : BitVec 2) (m : BounceArg)
  /-- HUSK_BEAT (R263). A Husk engine seals or opens a beat, discarding one whose tag fails. -/
  | huskBeat (route : BitVec 32) (ok : Bool)
  /-- QUEUE_RECORD_DECODE (R280). The decoder opens the record at head and accepts or rejects it. -/
  | queueRecordDecode (tag : BitVec 8) (q : BitVec 4)
  /-- QUEUE_ARBITRATE (R287). Hazel starts the head of the Ready queue with the lowest effective level. -/
  | queueArbitrate (tag : BitVec 8)
  /-- LAUNCH (R283). Starts a kernel instance. -/
  | launch (tag : BitVec 8) (q : BitVec 4) (pkt : Rec64)
  /-- LOADK (R293). Verifies, lowers and loads an object, or adds a reference. -/
  | loadk (tag : BitVec 8) (q : BitVec 4) (pkt : Rec64)
  /-- UNLOADK (R293). Drops the queue's kernel reference. -/
  | unloadk (tag : BitVec 8) (q : BitVec 4) (pkt : Rec64)
  /-- WAITMARK (R283). Starts when a mark reaches a value. -/
  | waitmark (tag : BitVec 8) (q : BitVec 4) (pkt : Rec64)
  /-- WAITMARK_RECHECK (R285). Hazel re-reads a waiting mark at least every 10 microseconds. -/
  | waitmarkRecheck (tag : BitVec 8) (q : BitVec 4)
  /-- SETMARK (R283). Adds a value to a mark. -/
  | setmark (tag : BitVec 8) (q : BitVec 4) (pkt : Rec64)
  /-- QUEUE_COPY (R283). Performs a copy packet. -/
  | queueCopy (tag : BitVec 8) (q : BitVec 4) (pkt : Rec64)
  /-- QBARRIER (R283). Starts after every earlier packet of the queue ends. -/
  | qbarrier (tag : BitVec 8) (q : BitVec 4) (pkt : Rec64)
  /-- QUEUE_NOP (R283). Completes at its start. -/
  | queueNop (tag : BitVec 8) (q : BitVec 4) (pkt : Rec64)
  /-- MARK_ADD (R286). A completing packet adds to its mark at system scope. -/
  | markAdd (tag : BitVec 8) (q : BitVec 4)
  /-- QUEUE_LEVEL_AGE (R287). Each 4 ms Ready lowers a queue's effective level. -/
  | queueLevelAge (tag : BitVec 8) (q : BitVec 4)
  /-- PRELOAD (R288). Hazel preloads a waiting LAUNCH onto free tiles. -/
  | preload (tag : BitVec 8) (q : BitVec 4)
  /-- BUDGET_OVERRUN (R289). A tile exhausts its budget, and the instance is pre-empted. -/
  | budgetOverrun
  /-- INSTANCE_PLACE (R304). The allocator and Acorn place an instance and set its initial state. -/
  | instancePlace
  /-- INSTANCE_START (R295). Every tile fetches its entry block. -/
  | instanceStart
  /-- TILE_FINISH (R117). A halted tile's engine work has retired, and the tile reports finished. -/
  | tileFinish
  /-- INSTANCE_RETIRE (R308). Every node finishes, and the LAUNCH completes. -/
  | instanceRetire
  /-- FABRIC_NODE_FINISH (R308). A fabric node finishes once its inputs close. -/
  | fabricNodeFinish (node : Nat)
  /-- WAVEFRONT_RECONFIGURE (R309). A resource of a draining instance is reconfigured for the next one. -/
  | wavefrontReconfigure
  /-- PLOT_SET_PLACE (R306). Acorn places a plot set and assigns its clock generator. -/
  | plotSetPlace (node : Nat)
  /-- HOT_SWAP (R307). Acorn replaces a plot set make-before-break. -/
  | hotSwap (node : Nat) (plot : Nat)
  /-- LIB_STEER (R311). A STEER firing sends data to the selected output. -/
  | libSteer (node : Nat)
  /-- LIB_MERGE (R311). A MERGE firing forwards the selected input. -/
  | libMerge (node : Nat)
  /-- PACKZ (R312). Emits a mask frame and a data frame. -/
  | packz (node : Nat)
  /-- UNPACKZ (R312). Rebuilds a frame from a mask and data. -/
  | unpackz (node : Nat)
  /-- SORTK (R312). Emits the k largest units and their indices. -/
  | sortk (node : Nat)
  /-- ROUTE (R312). Sends a data frame to the top-scoring outputs. -/
  | route (node : Nat)
  /-- SAMPLE (R312). Samples an index from weights. -/
  | sample (node : Nat)
  /-- CODEC (R312). Converts units with a scale. -/
  | codec (node : Nat)
  /-- SEQGEN (R312). Emits a control token per unit. -/
  | seqgen (node : Nat)
  /-- JOIN (R312). Emits one permit unit when every input holds a unit. -/
  | join (node : Nat)
  /-- PARTNER_DETECT (R361). A partner on all 4 lanes moves a port to Training. -/
  | partnerDetect (port : Nat) (switch : Bool)
  /-- PORT_ATTEST (R362). Training completes, and Hazel's SPDM exchange attests the partner and derives link keys. -/
  | portAttest (port : Nat) (peer : Option Digest)
  /-- CREDIT_ADVERTISEMENT (R361). The partner's credit advertisement moves the port to Up. -/
  | creditAdvertisement (port : Nat)
  /-- PORT_DRAIN_REQUEST (R361). Idpor takes a port out of service. -/
  | portDrainRequest (port : Nat)
  /-- PORT_DRAIN_END (R361). Begun groups complete, and the port goes Down. -/
  | portDrainEnd (port : Nat)
  /-- PORT_REENABLE (R361). Idpor re-enables an Isolated port. -/
  | portReenable (port : Nat)
  /-- LINK_GROUP_RECEIVE (R364). A receiver checks a group's CRC and tag, acknowledging, discarding or isolating. -/
  | linkGroupReceive (port : Nat) (g : LinkGroup)
  /-- LINK_RETRY_LIMIT (R361). 16 consecutive failed retries move a port to Down. -/
  | linkRetryLimit (port : Nat)
  /-- LINK_KEY_UPDATE (R362). The link key is updated before a sequence reaches 2 to the 32. -/
  | linkKeyUpdate (port : Nat)
  /-- LINK_FLIT_SEND (R367). A port sends a control flit or the next class's flit round-robin. -/
  | linkFlitSend (port : Nat)
  /-- SWITCH_INDEX_ASSIGN (R376). The switch assigns each reachable package an index. -/
  | switchIndexAssign (port : Nat) (peer : Digest) (index : BitVec 16)
  /-- SESSION_OPEN (R365). Hazel opens a session when the policies, states and ports allow. -/
  | sessionOpen (tag : BitVec 8) (i : BitVec 5) (peer : PeerOffer)
  /-- SESSION_ABORT (R374). A session is aborted, and outstanding accesses take PEER_LOST. -/
  | sessionAbort (tag : BitVec 8) (i : BitVec 5)
  /-- SESSION_PORT_TIMEOUT (R374). No Up port reaches the peer for 100 ms. -/
  | sessionPortTimeout (tag : BitVec 8) (i : BitVec 5)
  /-- LINK_STREAM_UNITS (R369). A message of stream units reaches the peer tile's VC. -/
  | linkStreamUnits (tag : BitVec 8) (i : BitVec 5) (vc : BitVec 5) (tile : BitVec 16) (fmt : BitVec 4) (units : List LinkUnit)
  /-- LINK_DEMAND_GRANT (R369). A demand grant message. -/
  | linkDemandGrant (tag : BitVec 8) (i : BitVec 5) (vc : BitVec 5) (tile : BitVec 16) (n : Nat)
  /-- LINK_READ_REQUEST (R370). A read request performed at the peer. -/
  | linkReadRequest (tag : BitVec 8) (i : BitVec 5) (va : W64) (sz : Size)
  /-- LINK_READ_RESPONSE (R369). A read response completes a remote load. -/
  | linkReadResponse (tag : BitVec 8) (i : BitVec 5) (data : W64)
  /-- LINK_WRITE (R370). A write performed at the peer. -/
  | linkWrite (tag : BitVec 8) (i : BitVec 5) (va : W64) (sz : Size) (data : W64)
  /-- LINK_ATOMIC (R370). An atomic performed at the peer home. -/
  | linkAtomic (tag : BitVec 8) (i : BitVec 5) (va : W64) (op : AtomicOp) (wide : Bool) (b : W64) (c : W64)
  /-- LINK_ATOMIC_RESULT (R369). An atomic result returns. -/
  | linkAtomicResult (tag : BitVec 8) (i : BitVec 5) (data : W64)
  /-- LINK_WRITE_COMPLETION (R371). The completion of a remote write arrives. -/
  | linkWriteCompletion (tag : BitVec 8) (i : BitVec 5)
  /-- LINK_FAULT_REPLY (R372). A fault reply faults the access or the storing tile. -/
  | linkFaultReply (tag : BitVec 8) (i : BitVec 5) (write : Bool) (code : BitVec 8)
  /-- LINK_ABORT (R374). An ABORT message ends a session. -/
  | linkAbort (tag : BitVec 8) (i : BitVec 5)
  /-- SENSOR_TRIP (R275). An environmental sensor trips, erasing keys and locking the package. -/
  | sensorTrip (x : Sensor)
  /-- POWER_SAMPLE (R397). Every 100 microseconds the power manager samples and adjusts island frequencies. -/
  | powerSample (watts : Nat)
  /-- ISLAND_FREQUENCY_CHANGE (R19). An island's frequency changes between two tile cycles. -/
  | islandFrequencyChange (island : Nat) (steps : Nat)
  /-- PATROL_SCRUB (R394). A word is read and corrected in an idle wheel slot. -/
  | patrolScrub (loc : ScrubLoc) (wrong : Nat)
  /-- CONFIG_READBACK (R395). Every 10 ms a plot's configuration is checked, rewritten or quarantined. -/
  | configReadback (plot : Nat) (r : ReadbackResult)
  /-- TILE_MAP_OUT (R396). Hazel maps out a tile after a second uncorrectable error or at Idpor's request. -/
  | tileMapOut (phys : Nat) (byIdpor : Bool)
  /-- FIRMWARE_STAGE (R399). Idpor stages firmware, which Hazel verifies and applies. -/
  | firmwareStage (hazel : Bool) (digest : Digest) (verified : Bool)
  /-- HBM_ACCESS_PERFORMED (R151). A load, store or atomic reaches its HBM controller home and is performed there, returning data to the requester. -/
  | hbmAccessPerformed
  /-- PCIE_COMPLETION (R352). A PCIe completion for a host-memory request arrives, performing the access or reporting Unsupported Request or Completer Abort as a stage-2 fault. -/
  | pcieCompletion (ok : Bool)
  /-- TENANT_PLOT_SET_FIRING (R310). A tenant plot set fires once each input it needs holds a unit and each output it writes has demand. -/
  | tenantPlotSetFiring (node : Nat)
deriving DecidableEq, Repr

end Sys2Proof
end

