-- ==== Sys2Proof/Decode.lean ====
section
/-! DEFINITION. The encodings of the part (R59-R82, R238-R240): the shape of every instruction, the field rules a word must
keep, the decoder of sequencer words, strip words and control tokens, which rejects by name, and the encoder. -/

namespace Sys2Proof

/-- What a sequencer word is for the rules of a block: opcode, required operand slots (R64), whether it sends a token, whether
it is a branch (R65), its LSID (R67), whether it is a load (R68), the g register its commit-time result names (R69). -/
structure SeqMeta where
  op : BitVec 8
  left : Bool
  right : Bool
  send : Bool
  branch : Bool
  ls : Option (BitVec 5)
  load : Bool
  g : Option (BitVec 5)
deriving DecidableEq, Repr

/-- The four shapes of an Instr: a sequencer word, a strip word, a control token, or a step that is no word. -/
inductive Shape where
  | seq (h : Head) (m : SeqMeta)
  | strip (e : StripId) (op : BitVec 8) (w : SWord)
  | token (op : BitVec 4) (k : MTok)
  | step
deriving DecidableEq, Repr

/-- Why bits are no instruction (R82): bytes that end inside a word, the opcode, predicate mode 11, a target field, a sub-op,
immediate, size, aux, offset or reserved bit, or a value that a field rule forbids. -/
inductive DecodeError where
  | short | opcode | predicate | target | field | rule
deriving DecidableEq, Repr

/-- The fields common to every sequencer word (R61), and the 36 format-specific bits. -/
structure SeqFields where
  op : BitVec 8
  pm : BitVec 2
  t0 : BitVec 9
  t1 : BitVec 9
  f : BitVec 36
deriving DecidableEq, Repr

/-- The shape of an instruction. -/
def Instr.shape : Instr → Shape
  | .read h _ => .seq h ⟨0x01#8, false, false, true, false, none, false, none⟩
  | .write h _ => .seq h ⟨0x02#8, true, false, false, false, none, false, none⟩
  | .null h _ => .seq h ⟨0x03#8, false, false, true, false, none, false, none⟩
  | .mov h => .seq h ⟨0x04#8, true, false, true, false, none, false, none⟩
  | .movi h _ => .seq h ⟨0x05#8, false, false, true, false, none, false, none⟩
  | .movhi h _ => .seq h ⟨0x06#8, true, false, true, false, none, false, none⟩
  | .adrb h _ _ => .seq h ⟨0x07#8, false, false, true, false, none, false, none⟩
  | .br h _ _ => .seq h ⟨0x08#8, false, false, false, true, none, false, none⟩
  | .brr h => .seq h ⟨0x09#8, true, false, false, true, none, false, none⟩
  | .call h _ _ => .seq h ⟨0x0A#8, false, false, true, true, none, false, none⟩
  | .callr h => .seq h ⟨0x0B#8, true, false, true, true, none, false, none⟩
  | .halt h => .seq h ⟨0x0C#8, false, false, false, true, none, false, none⟩
  | .yield h _ _ => .seq h ⟨0x0D#8, false, false, false, true, none, false, none⟩
  | .add h => .seq h ⟨0x10#8, true, true, true, false, none, false, none⟩
  | .addi h _ => .seq h ⟨0x11#8, true, false, true, false, none, false, none⟩
  | .sub h => .seq h ⟨0x12#8, true, true, true, false, none, false, none⟩
  | .subi h _ => .seq h ⟨0x13#8, true, false, true, false, none, false, none⟩
  | .mul h => .seq h ⟨0x14#8, true, true, true, false, none, false, none⟩
  | .muli h _ => .seq h ⟨0x15#8, true, false, true, false, none, false, none⟩
  | .mulh h => .seq h ⟨0x16#8, true, true, true, false, none, false, none⟩
  | .mulhu h => .seq h ⟨0x16#8, true, true, true, false, none, false, none⟩
  | .div h => .seq h ⟨0x17#8, true, true, true, false, none, false, none⟩
  | .divu h => .seq h ⟨0x17#8, true, true, true, false, none, false, none⟩
  | .rem h => .seq h ⟨0x18#8, true, true, true, false, none, false, none⟩
  | .remu h => .seq h ⟨0x18#8, true, true, true, false, none, false, none⟩
  | .andW h => .seq h ⟨0x19#8, true, true, true, false, none, false, none⟩
  | .andi h _ => .seq h ⟨0x1A#8, true, false, true, false, none, false, none⟩
  | .orW h => .seq h ⟨0x1B#8, true, true, true, false, none, false, none⟩
  | .ori h _ => .seq h ⟨0x1C#8, true, false, true, false, none, false, none⟩
  | .xorW h => .seq h ⟨0x1D#8, true, true, true, false, none, false, none⟩
  | .xori h _ => .seq h ⟨0x1E#8, true, false, true, false, none, false, none⟩
  | .shl h => .seq h ⟨0x1F#8, true, true, true, false, none, false, none⟩
  | .shli h _ => .seq h ⟨0x20#8, true, false, true, false, none, false, none⟩
  | .shr h => .seq h ⟨0x21#8, true, true, true, false, none, false, none⟩
  | .sra h => .seq h ⟨0x21#8, true, true, true, false, none, false, none⟩
  | .shri h _ => .seq h ⟨0x22#8, true, false, true, false, none, false, none⟩
  | .srai h _ => .seq h ⟨0x22#8, true, false, true, false, none, false, none⟩
  | .ext h _ _ => .seq h ⟨0x23#8, true, false, true, false, none, false, none⟩
  | .exts h _ _ => .seq h ⟨0x23#8, true, false, true, false, none, false, none⟩
  | .clz h => .seq h ⟨0x24#8, true, false, true, false, none, false, none⟩
  | .popc h => .seq h ⟨0x25#8, true, false, true, false, none, false, none⟩
  | .min h => .seq h ⟨0x26#8, true, true, true, false, none, false, none⟩
  | .minu h => .seq h ⟨0x26#8, true, true, true, false, none, false, none⟩
  | .max h => .seq h ⟨0x27#8, true, true, true, false, none, false, none⟩
  | .maxu h => .seq h ⟨0x27#8, true, true, true, false, none, false, none⟩
  | .sextb h => .seq h ⟨0x28#8, true, false, true, false, none, false, none⟩
  | .sexth h => .seq h ⟨0x28#8, true, false, true, false, none, false, none⟩
  | .sextw h => .seq h ⟨0x28#8, true, false, true, false, none, false, none⟩
  | .lea h _ => .seq h ⟨0x29#8, true, true, true, false, none, false, none⟩
  | .teq h => .seq h ⟨0x30#8, true, true, true, false, none, false, none⟩
  | .teqi h _ => .seq h ⟨0x31#8, true, false, true, false, none, false, none⟩
  | .tne h => .seq h ⟨0x32#8, true, true, true, false, none, false, none⟩
  | .tnei h _ => .seq h ⟨0x33#8, true, false, true, false, none, false, none⟩
  | .tlt h => .seq h ⟨0x34#8, true, true, true, false, none, false, none⟩
  | .tltu h => .seq h ⟨0x34#8, true, true, true, false, none, false, none⟩
  | .tlti h _ => .seq h ⟨0x35#8, true, false, true, false, none, false, none⟩
  | .tltiu h _ => .seq h ⟨0x35#8, true, false, true, false, none, false, none⟩
  | .tle h => .seq h ⟨0x36#8, true, true, true, false, none, false, none⟩
  | .tleu h => .seq h ⟨0x36#8, true, true, true, false, none, false, none⟩
  | .tlei h _ => .seq h ⟨0x37#8, true, false, true, false, none, false, none⟩
  | .tleiu h _ => .seq h ⟨0x37#8, true, false, true, false, none, false, none⟩
  | .tgt h => .seq h ⟨0x38#8, true, true, true, false, none, false, none⟩
  | .tgtu h => .seq h ⟨0x38#8, true, true, true, false, none, false, none⟩
  | .tgti h _ => .seq h ⟨0x39#8, true, false, true, false, none, false, none⟩
  | .tgtiu h _ => .seq h ⟨0x39#8, true, false, true, false, none, false, none⟩
  | .tge h => .seq h ⟨0x3A#8, true, true, true, false, none, false, none⟩
  | .tgeu h => .seq h ⟨0x3A#8, true, true, true, false, none, false, none⟩
  | .tgei h _ => .seq h ⟨0x3B#8, true, false, true, false, none, false, none⟩
  | .tgeiu h _ => .seq h ⟨0x3B#8, true, false, true, false, none, false, none⟩
  | .tbit h _ => .seq h ⟨0x3C#8, true, false, true, false, none, false, none⟩
  | .mfs h _ => .seq h ⟨0xA0#8, false, false, true, false, none, false, none⟩
  | .mts h ls _ => .seq h ⟨0xA1#8, true, false, false, false, some ls, false, none⟩
  | .mtsFmode h ls => .seq h ⟨0xA1#8, true, false, false, false, some ls, false, none⟩
  | .mtsFflags h ls => .seq h ⟨0xA1#8, true, false, false, false, some ls, false, none⟩
  | .mtsEpc h ls => .seq h ⟨0xA1#8, true, false, false, false, some ls, false, none⟩
  | .trap h _ => .seq h ⟨0xA2#8, false, false, false, false, none, false, none⟩
  | .hret h => .seq h ⟨0xA3#8, false, false, false, true, none, false, none⟩
  | .ld h ls _ _ => .seq h ⟨0x40#8, true, false, true, false, some ls, true, none⟩
  | .lds h ls _ _ => .seq h ⟨0x41#8, true, false, true, false, some ls, true, none⟩
  | .st h ls _ _ => .seq h ⟨0x42#8, true, true, false, false, some ls, false, none⟩
  | .ldf h ls _ _ => .seq h ⟨0x43#8, true, false, true, false, some ls, true, none⟩
  | .stf h ls _ _ => .seq h ⟨0x45#8, true, true, false, false, some ls, false, none⟩
  | .empty h ls _ => .seq h ⟨0x46#8, true, false, false, false, some ls, false, none⟩
  | .ldfTake h ls _ g _ => .seq h ⟨0x44#8, true, false, false, false, some ls, false, some g⟩
  | .waita h ls g _ => .seq h ⟨0x47#8, true, true, false, false, some ls, false, some g⟩
  | .aadd h ls _ g _ => .seq h ⟨0x48#8, true, true, false, false, some ls, false, some g⟩
  | .aswp h ls _ g _ => .seq h ⟨0x49#8, true, true, false, false, some ls, false, some g⟩
  | .acas h ls _ g _ => .seq h ⟨0x4A#8, true, true, false, false, some ls, false, some g⟩
  | .aand h ls _ g _ => .seq h ⟨0x4B#8, true, true, false, false, some ls, false, some g⟩
  | .aor h ls _ g _ => .seq h ⟨0x4C#8, true, true, false, false, some ls, false, some g⟩
  | .axor h ls _ g _ => .seq h ⟨0x4D#8, true, true, false, false, some ls, false, some g⟩
  | .amin h ls _ g _ => .seq h ⟨0x4E#8, true, true, false, false, some ls, false, some g⟩
  | .amax h ls _ g _ => .seq h ⟨0x4F#8, true, true, false, false, some ls, false, some g⟩
  | .aminu h ls _ g _ => .seq h ⟨0x50#8, true, true, false, false, some ls, false, some g⟩
  | .amaxu h ls _ g _ => .seq h ⟨0x51#8, true, true, false, false, some ls, false, some g⟩
  | .fence h _ => .seq h ⟨0x52#8, false, false, false, false, none, false, none⟩
  | .sbar h _ => .seq h ⟨0x53#8, false, false, false, false, none, false, none⟩
  | .sdef h ls _ _ => .seq h ⟨0x60#8, true, false, false, false, some ls, false, none⟩
  | .sgo h ls _ => .seq h ⟨0x61#8, false, false, false, false, some ls, false, none⟩
  | .sstop h ls _ => .seq h ⟨0x62#8, false, false, false, false, some ls, false, none⟩
  | .cpy h ls _ => .seq h ⟨0x63#8, true, false, false, false, some ls, false, none⟩
  | .halo h ls _ => .seq h ⟨0x64#8, true, false, false, false, some ls, false, none⟩
  | .vcfmt h ls _ _ => .seq h ⟨0x65#8, true, false, false, false, some ls, false, none⟩
  | .vcscl h ls _ _ => .seq h ⟨0x66#8, true, false, false, false, some ls, false, none⟩
  | .run h ls _ _ _ => .seq h ⟨0x70#8, true, false, false, false, some ls, false, none⟩
  | .chr h ls _ _ => .seq h ⟨0x71#8, false, false, true, false, some ls, false, none⟩
  | .chw h ls _ _ _ => .seq h ⟨0x72#8, true, false, false, false, some ls, false, none⟩
  | .tokp h ls _ => .seq h ⟨0x73#8, false, false, false, false, some ls, false, none⟩
  | .tokw h ls _ => .seq h ⟨0x74#8, false, false, false, false, some ls, false, none⟩
  | .oclaim h ls _ => .seq h ⟨0x78#8, false, false, false, false, some ls, false, none⟩
  | .orelease h ls _ => .seq h ⟨0x79#8, false, false, false, false, some ls, false, none⟩
  | .ofill h ls _ _ => .seq h ⟨0x7A#8, true, false, false, false, some ls, false, none⟩
  | .mxq h ls => .seq h ⟨0x7B#8, true, false, false, false, some ls, false, none⟩
  | .sema h ls g _ _ => .seq h ⟨0x80#8, false, false, false, false, some ls, false, some g⟩
  | .semp h ls _ _ => .seq h ⟨0x81#8, true, false, false, false, some ls, false, none⟩
  | .semt h _ => .seq h ⟨0x82#8, false, false, true, false, none, false, none⟩
  | .bara h ls g _ => .seq h ⟨0x83#8, false, false, false, false, some ls, false, some g⟩
  | .barw h ls _ => .seq h ⟨0x84#8, true, false, false, false, some ls, false, none⟩
  | .bar h ls _ => .seq h ⟨0x85#8, false, false, false, false, some ls, false, none⟩
  | .barc h ls _ => .seq h ⟨0x86#8, true, false, false, false, some ls, false, none⟩
  | .gsid h _ => .seq h ⟨0x88#8, false, false, true, false, none, false, none⟩
  | .gsize h _ => .seq h ⟨0x89#8, false, false, true, false, none, false, none⟩
  | .grank h _ => .seq h ⟨0x8A#8, false, false, true, false, none, false, none⟩
  | .gmemb h _ => .seq h ⟨0x8B#8, true, false, true, false, none, false, none⟩
  | .enq h ls _ _ => .seq h ⟨0x90#8, true, false, false, false, some ls, false, none⟩
  | .qstat h _ => .seq h ⟨0x91#8, false, false, true, false, none, false, none⟩
  | .tlbi h ls _ => .seq h ⟨0x98#8, true, false, false, false, some ls, false, none⟩
  | .pmig h ls => .seq h ⟨0x99#8, true, true, false, false, some ls, false, none⟩
  | .lnkst h _ => .seq h ⟨0x9A#8, false, false, true, false, none, false, none⟩
  | .ctxq h _ => .seq h ⟨0x9B#8, false, false, true, false, none, false, none⟩
  | .ctxqClearFlags h => .seq h ⟨0x9B#8, false, false, true, false, none, false, none⟩
  | .idle e w => .strip e 0x01#8 w
  | .astAdd w => .strip .ast 0x02#8 w
  | .astSub w => .strip .ast 0x03#8 w
  | .astMul w => .strip .ast 0x04#8 w
  | .astFma w => .strip .ast 0x05#8 w
  | .astFms w => .strip .ast 0x06#8 w
  | .astFnma w => .strip .ast 0x07#8 w
  | .astMin w => .strip .ast 0x08#8 w
  | .astMax w => .strip .ast 0x09#8 w
  | .astAbs w => .strip .ast 0x0A#8 w
  | .astNeg w => .strip .ast 0x0B#8 w
  | .astCmpeq w => .strip .ast 0x0C#8 w
  | .astCmpne w => .strip .ast 0x0D#8 w
  | .astCmplt w => .strip .ast 0x0E#8 w
  | .astCmple w => .strip .ast 0x0F#8 w
  | .astSel w => .strip .ast 0x10#8 w
  | .astMov w => .strip .ast 0x11#8 w
  | .astAnd w => .strip .ast 0x12#8 w
  | .astOr w => .strip .ast 0x13#8 w
  | .astXor w => .strip .ast 0x14#8 w
  | .astNot w => .strip .ast 0x15#8 w
  | .astShl w => .strip .ast 0x16#8 w
  | .astShr w => .strip .ast 0x17#8 w
  | .astSra w => .strip .ast 0x18#8 w
  | .astMulh w => .strip .ast 0x19#8 w
  | .astMadd w => .strip .ast 0x1A#8 w
  | .astAdds w => .strip .ast 0x1B#8 w
  | .astSubs w => .strip .ast 0x1C#8 w
  | .astClamp w => .strip .ast 0x1D#8 w
  | .astRint w => .strip .ast 0x1E#8 w
  | .astClass w => .strip .ast 0x1F#8 w
  | .astCopysign w => .strip .ast 0x20#8 w
  | .astScale w => .strip .ast 0x21#8 w
  | .astAbsd w => .strip .ast 0x22#8 w
  | .astAvg w => .strip .ast 0x23#8 w
  | .astClz w => .strip .ast 0x24#8 w
  | .astPopc w => .strip .ast 0x25#8 w
  | .astFlagr w => .strip .ast 0x26#8 w
  | .astFlagc w => .strip .ast 0x27#8 w
  | .estExp w => .strip .est 0x02#8 w
  | .estExp2 w => .strip .est 0x03#8 w
  | .estExp10 w => .strip .est 0x04#8 w
  | .estExpm1 w => .strip .est 0x05#8 w
  | .estLog w => .strip .est 0x06#8 w
  | .estLog2 w => .strip .est 0x07#8 w
  | .estLog10 w => .strip .est 0x08#8 w
  | .estLog1p w => .strip .est 0x09#8 w
  | .estSin w => .strip .est 0x0A#8 w
  | .estCos w => .strip .est 0x0B#8 w
  | .estTan w => .strip .est 0x0C#8 w
  | .estSinpi w => .strip .est 0x0D#8 w
  | .estCospi w => .strip .est 0x0E#8 w
  | .estAsin w => .strip .est 0x0F#8 w
  | .estAcos w => .strip .est 0x10#8 w
  | .estAtan w => .strip .est 0x11#8 w
  | .estAtan2 w => .strip .est 0x12#8 w
  | .estSinh w => .strip .est 0x13#8 w
  | .estCosh w => .strip .est 0x14#8 w
  | .estTanh w => .strip .est 0x15#8 w
  | .estErf w => .strip .est 0x16#8 w
  | .estErfc w => .strip .est 0x17#8 w
  | .estSigmoid w => .strip .est 0x18#8 w
  | .estPow w => .strip .est 0x19#8 w
  | .estCbrt w => .strip .est 0x1A#8 w
  | .estHypot w => .strip .est 0x1B#8 w
  | .estRsqrt w => .strip .est 0x1C#8 w
  | .estSqrt w => .strip .est 0x1D#8 w
  | .estRcp w => .strip .est 0x1E#8 w
  | .estDiv w => .strip .est 0x1F#8 w
  | .estExpA w => .strip .est 0x02#8 w
  | .estExp2A w => .strip .est 0x03#8 w
  | .estExp10A w => .strip .est 0x04#8 w
  | .estLogA w => .strip .est 0x06#8 w
  | .estLog2A w => .strip .est 0x07#8 w
  | .estSigmoidA w => .strip .est 0x18#8 w
  | .estRsqrtA w => .strip .est 0x1C#8 w
  | .estSqrtA w => .strip .est 0x1D#8 w
  | .estRcpA w => .strip .est 0x1E#8 w
  | .estDivA w => .strip .est 0x1F#8 w
  | .estHardr w => .strip .est 0x20#8 w
  | .estFlagr w => .strip .est 0x21#8 w
  | .estFlagc w => .strip .est 0x22#8 w
  | .pstPermb w => .strip .pst 0x02#8 w
  | .pstShuf w => .strip .pst 0x03#8 w
  | .pstRotl w => .strip .pst 0x04#8 w
  | .pstBcast w => .strip .pst 0x05#8 w
  | .pstZip w => .strip .pst 0x06#8 w
  | .pstUnzip w => .strip .pst 0x07#8 w
  | .pstCvt w => .strip .pst 0x08#8 w
  | .pstPackb w => .strip .pst 0x09#8 w
  | .pstUnpackb w => .strip .pst 0x0A#8 w
  | .pstScan w => .strip .pst 0x0B#8 w
  | .pstReduce w => .strip .pst 0x0C#8 w
  | .pstCompact w => .strip .pst 0x0D#8 w
  | .pstExpand w => .strip .pst 0x0E#8 w
  | .pstIntersect w => .strip .pst 0x0F#8 w
  | .pstSteer w => .strip .pst 0x10#8 w
  | .pstMerge w => .strip .pst 0x11#8 w
  | .pstSegscan w => .strip .pst 0x12#8 w
  | .pstIota w => .strip .pst 0x13#8 w
  | .pstMaskgen w => .strip .pst 0x14#8 w
  | .pstPopcm w => .strip .pst 0x15#8 w
  | .pstTrn w => .strip .pst 0x16#8 w
  | .pstInsl w => .strip .pst 0x17#8 w
  | .pstExtl w => .strip .pst 0x18#8 w
  | .pstSplit w => .strip .pst 0x19#8 w
  | .pstTags w => .strip .pst 0x1A#8 w
  | .pstMarke w => .strip .pst 0x1B#8 w
  | .pstTagt w => .strip .pst 0x1C#8 w
  | .coldReset _ => .step
  | .blockFetch => .step
  | .blockIssue => .step
  | .blockCommit => .step
  | .blockMalformedDetect => .step
  | .serialiseIssue => .step
  | .runCheck _ => .step
  | .stripResultDue _ => .step
  | .stripWordIssue _ => .step
  | .secondPhaseRound => .step
  | .mxeTokenTake => .step
  | .mma k => .token 1#4 k
  | .mmaz k => .token 2#4 k
  | .mman k => .token 3#4 k
  | .accz k => .token 4#4 k
  | .accout k => .token 5#4 k
  | .accin k => .token 6#4 k
  | .mxeOperationRetire => .step
  | .accoutBeatPush => .step
  | .fillComplete _ => .step
  | .streamCommandTake _ => .step
  | .streamUnit _ => .step
  | .streamFrameEnd _ => .step
  | .streamCompletion _ => .step
  | .streamStopDone _ => .step
  | .gatherRow _ => .step
  | .vcDemandGrant _ _ => .step
  | .vcUnitSend _ _ => .step
  | .vcUnitReceive _ _ => .step
  | .routerFilterFrame _ _ => .step
  | .copyPacketStart _ => .step
  | .cpyCopy _ => .step
  | .cpyConv _ => .step
  | .cpyFill _ => .step
  | .cpyMcast _ => .step
  | .copyCompletion _ => .step
  | .copyPriorityAge _ => .step
  | .copyPacketFrame _ => .step
  | .permitUnit _ => .step
  | .haloDirectionComplete _ => .step
  | .haloSenderComplete => .step
  | .barrierArrival => .step
  | .barrierCountUpdate => .step
  | .barrierAdvanceNotice => .step
  | .sliceBankServe => .step
  | .reservationRetry => .step
  | .takeHeadTimeout _ => .step
  | .takeListGrant _ => .step
  | .waitaWake => .step
  | .waitaTimeout => .step
  | .bankReassign _ _ _ => .step
  | .pageWalk _ => .step
  | .shadowService => .step
  | .tlbiComplete => .step
  | .migrate => .step
  | .frameMove _ _ _ => .step
  | .faultTake _ => .step
  | .faultDelivery => .step
  | .escalate _ _ => .step
  | .deadlockDeclare _ => .step
  | .tilePreempt => .step
  | .tileClaimSave _ _ => .step
  | .tileResume _ => .step
  | .sliceExpiry _ => .step
  | .createContext _ => .step
  | .loadPolicy _ => .step
  | .grant _ => .step
  | .schedule _ => .step
  | .pause _ => .step
  | .pauseComplete _ => .step
  | .resume _ => .step
  | .evict _ => .step
  | .evictComplete _ => .step
  | .restore _ => .step
  | .restoreComplete _ _ => .step
  | .destroy _ => .step
  | .resetVf _ => .step
  | .functionLevelReset _ => .step
  | .scrubComplete _ => .step
  | .readCounter _ => .step
  | .maskFeature _ => .step
  | .submit _ => .step
  | .attest _ _ => .step
  | .seal _ _ => .step
  | .keyUpdate _ _ => .step
  | .bounceRecord _ _ _ => .step
  | .huskBeat _ _ => .step
  | .queueRecordDecode _ _ => .step
  | .queueArbitrate _ => .step
  | .launch _ _ _ => .step
  | .loadk _ _ _ => .step
  | .unloadk _ _ _ => .step
  | .waitmark _ _ _ => .step
  | .waitmarkRecheck _ _ => .step
  | .setmark _ _ _ => .step
  | .queueCopy _ _ _ => .step
  | .qbarrier _ _ _ => .step
  | .queueNop _ _ _ => .step
  | .markAdd _ _ => .step
  | .queueLevelAge _ _ => .step
  | .preload _ _ => .step
  | .budgetOverrun => .step
  | .instancePlace => .step
  | .instanceStart => .step
  | .tileFinish => .step
  | .instanceRetire => .step
  | .fabricNodeFinish _ => .step
  | .wavefrontReconfigure => .step
  | .plotSetPlace _ => .step
  | .hotSwap _ _ => .step
  | .libSteer _ => .step
  | .libMerge _ => .step
  | .packz _ => .step
  | .unpackz _ => .step
  | .sortk _ => .step
  | .route _ => .step
  | .sample _ => .step
  | .codec _ => .step
  | .seqgen _ => .step
  | .join _ => .step
  | .partnerDetect _ _ => .step
  | .portAttest _ _ => .step
  | .creditAdvertisement _ => .step
  | .portDrainRequest _ => .step
  | .portDrainEnd _ => .step
  | .portReenable _ => .step
  | .linkGroupReceive _ _ => .step
  | .linkRetryLimit _ => .step
  | .linkKeyUpdate _ => .step
  | .linkFlitSend _ => .step
  | .switchIndexAssign _ _ _ => .step
  | .sessionOpen _ _ _ => .step
  | .sessionAbort _ _ => .step
  | .sessionPortTimeout _ _ => .step
  | .linkStreamUnits _ _ _ _ _ _ => .step
  | .linkDemandGrant _ _ _ _ _ => .step
  | .linkReadRequest _ _ _ _ => .step
  | .linkReadResponse _ _ _ => .step
  | .linkWrite _ _ _ _ _ => .step
  | .linkAtomic _ _ _ _ _ _ _ => .step
  | .linkAtomicResult _ _ _ => .step
  | .linkWriteCompletion _ _ => .step
  | .linkFaultReply _ _ _ _ => .step
  | .linkAbort _ _ => .step
  | .sensorTrip _ => .step
  | .powerSample _ => .step
  | .islandFrequencyChange _ _ => .step
  | .patrolScrub _ _ => .step
  | .configReadback _ _ => .step
  | .tileMapOut _ _ => .step
  | .firmwareStage _ _ _ => .step
  | .hbmAccessPerformed => .step
  | .pcieCompletion _ => .step
  | .tenantPlotSetFiring _ => .step

/-! ### Codes of the enumerated fields -/

/-- Predicate modes of R61. -/
def Pred.code : Pred → BitVec 2
  | .always => 0 | .onTrue => 1 | .onFalse => 2
/-- The predicate mode of a code; none for 11, which is illegal (R61). -/
def Pred.ofCode (c : BitVec 2) : Option Pred :=
  match c.toNat with | 0 => some .always | 1 => some .onTrue | 2 => some .onFalse | _ => none
/-- Target kinds of R61. -/
def TKind.code : TKind → BitVec 2
  | .left => 1 | .right => 2 | .pred => 3
/-- A target field (R61, R62): kind above slot; none is kind 00 with slot 0. -/
def targetCode : Option Target → BitVec 9
  | none => 0
  | some t => t.kind.code ++ t.slot
/-- The target of a field; none (outer) when kind 00 has a slot (R62). -/
def targetOfCode (c : BitVec 9) : Option (Option Target) :=
  match (c.extractLsb' 7 2).toNat with
  | 0 => if c.extractLsb' 0 7 = 0#7 then some none else none
  | 1 => some (some ⟨.left, c.extractLsb' 0 7⟩)
  | 2 => some (some ⟨.right, c.extractLsb' 0 7⟩)
  | _ => some (some ⟨.pred, c.extractLsb' 0 7⟩)
/-- Size codes of R63. -/
def Size.code : Size → BitVec 2
  | .b1 => 0 | .b2 => 1 | .b4 => 2 | .b8 => 3
/-- The size of a code. -/
def Size.ofCode (c : BitVec 2) : Option Size :=
  match c.toNat with | 0 => some .b1 | 1 => some .b2 | 2 => some .b4 | _ => some .b8
/-- The bytes of a size (R63). -/
def Size.bytes : Size → Nat
  | .b1 => 1 | .b2 => 2 | .b4 => 4 | .b8 => 8
/-- FENCE sub-ops of R66. -/
def Scope.code : Scope → BitVec 4
  | .tile => 0 | .cluster => 1 | .die => 2 | .package => 3 | .system => 4
/-- The scope of a FENCE sub-op; none above 4. -/
def Scope.ofCode (c : BitVec 4) : Option Scope :=
  match c.toNat with
  | 0 => some .tile | 1 => some .cluster | 2 => some .die | 3 => some .package | 4 => some .system | _ => none
/-- Special register numbers of R71. -/
def SReg.code : SReg → BitVec 12
  | .ltid => 0
  | .ninst => 1
  | .ctx => 2
  | .fmode => 3
  | .fflags => 4
  | .hvec => 5
  | .cause => 6
  | .info => 7
  | .epc => 8
  | .cycle => 9
  | .feat => 10
  | .wto => 11
/-- The special register of a number; none when unassigned (R71). -/
def SReg.ofCode (c : BitVec 12) : Option SReg :=
  match c.toNat with
  | 0 => some .ltid
  | 1 => some .ninst
  | 2 => some .ctx
  | 3 => some .fmode
  | 4 => some .fflags
  | 5 => some .hvec
  | 6 => some .cause
  | 7 => some .info
  | 8 => some .epc
  | 9 => some .cycle
  | 10 => some .feat
  | 11 => some .wto
  | _ => none
/-- The numbers of the registers that an MTS row of its own does not cover (R71, R130). -/
def PlainSReg.code : PlainSReg → BitVec 12
  | .hvec => 5 | .wto => 11
/-- The plain writable register of a number. -/
def PlainSReg.ofCode (c : BitVec 12) : Option PlainSReg :=
  match c.toNat with | 5 => some .hvec | 11 => some .wto | _ => none
/-- RUN's engine field: 3, 4 or 5 (R67). -/
def StripId.code : StripId → BitVec 5
  | .ast => 3 | .est => 4 | .pst => 5
/-- The strip of a RUN's engine field. -/
def StripId.ofCode (c : BitVec 5) : Option StripId :=
  match c.toNat with | 3 => some .ast | 4 => some .est | 5 => some .pst | _ => none
/-- TOKP's and TOKW's engine field: 2-6 (R67). -/
def Partner.code : Partner → BitVec 5
  | .str => 2 | .ast => 3 | .est => 4 | .pst => 5 | .mxe => 6
/-- The partner engine of a field. -/
def Partner.ofCode (c : BitVec 5) : Option Partner :=
  match c.toNat with
  | 2 => some .str | 3 => some .ast | 4 => some .est | 5 => some .pst | 6 => some .mxe | _ => none
/-- TLBI kinds (R67, R357). -/
def InvKind.code : InvKind → BitVec 2
  | .page => 0 | .path => 1 | .all => 2
/-- The kind of a TLBI field. -/
def InvKind.ofCode (c : BitVec 2) : Option InvKind :=
  match c.toNat with | 0 => some .page | 1 => some .path | 2 => some .all | _ => none
/-- CTXQ items (R276). -/
def CtxItem.code : CtxItem → BitVec 4
  | .place => 0 | .allotment => 1 | .permits => 2 | .epoch => 3 | .policy => 4 | .flags => 5 | .audit => 7
/-- The CTXQ item of a field that reads and clears nothing. -/
def CtxItem.ofCode (c : BitVec 4) : Option CtxItem :=
  match c.toNat with
  | 0 => some .place | 1 => some .allotment | 2 => some .permits | 3 => some .epoch | 4 => some .policy
  | 5 => some .flags | 7 => some .audit | _ => none

/-! ### The rules a word keeps beyond the layout of its fields -/

/-- Whether a format code lies in class F, S, I or W of R199. -/
def isF (t : BitVec 4) : Bool := (0x0407#16).getLsbD t.toNat
/-- Class S of R199. -/
def isS (t : BitVec 4) : Bool := (0x1900#16).getLsbD t.toNat
/-- Class I of R199. -/
def isI (t : BitVec 4) : Bool := (0xF900#16).getLsbD t.toNat
/-- The integer format codes of R94, i4 among them. -/
def isInteger (t : BitVec 4) : Bool := (0xFB00#16).getLsbD t.toNat
/-- The block format codes of R94. -/
def isBlock (t : BitVec 4) : Bool := (0x00E0#16).getLsbD t.toNat

/-- Elements of a format in a beat (R99, R100, R193). -/
def perBeat (t : BitVec 4) : Nat :=
  match t.toNat with
  | 0 => 192 | 1 => 384 | 2 => 384 | 3 => 768 | 4 => 768 | 5 => 672 | 6 => 1024 | 7 => 1536
  | 8 => 768 | 9 => 1536 | 10 => 96 | 11 => 192 | 12 => 384 | 13 => 768 | 14 => 192 | _ => 384

/-- The rule of a strip instruction: types it accepts (bit t for code t), whether D, A, B and C are used, and whether it takes
a rounding mode for every type (the E-strip functions), for a type of class F, or never. -/
structure StripRule where
  types : BitVec 16
  d : Bool
  a : Bool
  b : Bool
  c : Bool
  rounds : Option Bool
deriving DecidableEq, Repr

/-- A-strip rules (R199, R200, R204). -/
def astRule (op : Nat) : Option StripRule :=
  match op with
  | 0x02 => some ⟨0xFD07#16, true, true, true, false, some false⟩
  | 0x03 => some ⟨0xFD07#16, true, true, true, false, some false⟩
  | 0x04 => some ⟨0xFD07#16, true, true, true, false, some false⟩
  | 0x05 => some ⟨0x0407#16, true, true, true, true, some false⟩
  | 0x06 => some ⟨0x0407#16, true, true, true, true, some false⟩
  | 0x07 => some ⟨0x0407#16, true, true, true, true, some false⟩
  | 0x08 => some ⟨0xFD07#16, true, true, true, false, none⟩
  | 0x09 => some ⟨0xFD07#16, true, true, true, false, none⟩
  | 0x0A => some ⟨0x1D07#16, true, true, false, false, none⟩
  | 0x0B => some ⟨0x1D07#16, true, true, false, false, none⟩
  | 0x0C => some ⟨0xFD07#16, true, true, true, false, none⟩
  | 0x0D => some ⟨0xFD07#16, true, true, true, false, none⟩
  | 0x0E => some ⟨0xFD07#16, true, true, true, false, none⟩
  | 0x0F => some ⟨0xFD07#16, true, true, true, false, none⟩
  | 0x10 => some ⟨0xFF1F#16, true, true, true, true, none⟩
  | 0x11 => some ⟨0x0800#16, true, true, false, false, none⟩
  | 0x12 => some ⟨0x0800#16, true, true, true, false, none⟩
  | 0x13 => some ⟨0x0800#16, true, true, true, false, none⟩
  | 0x14 => some ⟨0x0800#16, true, true, true, false, none⟩
  | 0x15 => some ⟨0x0800#16, true, true, false, false, none⟩
  | 0x16 => some ⟨0xF900#16, true, true, true, false, none⟩
  | 0x17 => some ⟨0xF900#16, true, true, true, false, none⟩
  | 0x18 => some ⟨0xF900#16, true, true, true, false, none⟩
  | 0x19 => some ⟨0xF900#16, true, true, true, false, none⟩
  | 0x1A => some ⟨0xF900#16, true, true, true, true, none⟩
  | 0x1B => some ⟨0xF900#16, true, true, true, false, none⟩
  | 0x1C => some ⟨0xF900#16, true, true, true, false, none⟩
  | 0x1D => some ⟨0xFD07#16, true, true, true, true, none⟩
  | 0x1E => some ⟨0x0407#16, true, true, false, false, some false⟩
  | 0x1F => some ⟨0x0407#16, true, true, false, false, none⟩
  | 0x20 => some ⟨0x0407#16, true, true, true, false, none⟩
  | 0x21 => some ⟨0x0407#16, true, true, true, false, some false⟩
  | 0x22 => some ⟨0xFD07#16, true, true, true, false, some false⟩
  | 0x23 => some ⟨0xF900#16, true, true, true, false, none⟩
  | 0x24 => some ⟨0xF900#16, true, true, false, false, none⟩
  | 0x25 => some ⟨0xF900#16, true, true, false, false, none⟩
  | 0x26 => some ⟨0x0800#16, true, false, false, false, none⟩
  | 0x27 => some ⟨0x0800#16, false, false, false, false, none⟩
  | _ => none

/-- E-strip rules (R212, R213, R226, R227). -/
def estRule (op : Nat) : Option StripRule :=
  match op with
  | 0x02 => some ⟨0x041F#16, true, true, false, false, some true⟩
  | 0x03 => some ⟨0x041F#16, true, true, false, false, some true⟩
  | 0x04 => some ⟨0x041F#16, true, true, false, false, some true⟩
  | 0x05 => some ⟨0x041F#16, true, true, false, false, some true⟩
  | 0x06 => some ⟨0x041F#16, true, true, false, false, some true⟩
  | 0x07 => some ⟨0x041F#16, true, true, false, false, some true⟩
  | 0x08 => some ⟨0x041F#16, true, true, false, false, some true⟩
  | 0x09 => some ⟨0x041F#16, true, true, false, false, some true⟩
  | 0x0A => some ⟨0x041F#16, true, true, false, false, some true⟩
  | 0x0B => some ⟨0x041F#16, true, true, false, false, some true⟩
  | 0x0C => some ⟨0x041F#16, true, true, false, false, some true⟩
  | 0x0D => some ⟨0x041F#16, true, true, false, false, some true⟩
  | 0x0E => some ⟨0x041F#16, true, true, false, false, some true⟩
  | 0x0F => some ⟨0x041F#16, true, true, false, false, some true⟩
  | 0x10 => some ⟨0x041F#16, true, true, false, false, some true⟩
  | 0x11 => some ⟨0x041F#16, true, true, false, false, some true⟩
  | 0x12 => some ⟨0x041F#16, true, true, true, false, some true⟩
  | 0x13 => some ⟨0x041F#16, true, true, false, false, some true⟩
  | 0x14 => some ⟨0x041F#16, true, true, false, false, some true⟩
  | 0x15 => some ⟨0x041F#16, true, true, false, false, some true⟩
  | 0x16 => some ⟨0x041F#16, true, true, false, false, some true⟩
  | 0x17 => some ⟨0x041F#16, true, true, false, false, some true⟩
  | 0x18 => some ⟨0x041F#16, true, true, false, false, some true⟩
  | 0x19 => some ⟨0x041F#16, true, true, true, false, some true⟩
  | 0x1A => some ⟨0x041F#16, true, true, false, false, some true⟩
  | 0x1B => some ⟨0x041F#16, true, true, true, false, some true⟩
  | 0x1C => some ⟨0x041F#16, true, true, false, false, some true⟩
  | 0x1D => some ⟨0x041F#16, true, true, false, false, some true⟩
  | 0x1E => some ⟨0x041F#16, true, true, false, false, some true⟩
  | 0x1F => some ⟨0x041F#16, true, true, true, false, some true⟩
  | 0x20 => some ⟨0x0800#16, true, false, false, false, none⟩
  | 0x21 => some ⟨0x0800#16, true, false, false, false, none⟩
  | 0x22 => some ⟨0x0800#16, false, false, false, false, none⟩
  | _ => none

/-- P-strip rules (R199, R205, R206). -/
def pstRule (op : Nat) : Option StripRule :=
  match op with
  | 0x02 => some ⟨0x2000#16, true, true, true, true, none⟩
  | 0x03 => some ⟨0xDC07#16, true, true, true, false, none⟩
  | 0x04 => some ⟨0xFF1F#16, true, true, true, false, none⟩
  | 0x05 => some ⟨0xFF1F#16, true, true, false, false, none⟩
  | 0x06 => some ⟨0xFF1F#16, true, true, true, false, none⟩
  | 0x07 => some ⟨0xFF1F#16, true, true, true, false, none⟩
  | 0x08 => some ⟨0xFFFF#16, true, true, true, false, some true⟩
  | 0x09 => some ⟨0xD900#16, true, true, true, false, none⟩
  | 0x0A => some ⟨0xB300#16, true, true, false, false, none⟩
  | 0x0B => some ⟨0xFD07#16, true, true, true, false, some false⟩
  | 0x0C => some ⟨0xFD07#16, true, true, true, false, some false⟩
  | 0x0D => some ⟨0xFF1F#16, true, true, true, false, none⟩
  | 0x0E => some ⟨0xFF1F#16, true, true, true, false, none⟩
  | 0x0F => some ⟨0xC000#16, true, true, true, false, none⟩
  | 0x10 => some ⟨0x0800#16, true, true, true, true, none⟩
  | 0x11 => some ⟨0x0800#16, true, true, true, true, none⟩
  | 0x12 => some ⟨0xFD07#16, true, true, true, true, some false⟩
  | 0x13 => some ⟨0xF900#16, true, true, true, false, none⟩
  | 0x14 => some ⟨0xF900#16, true, true, false, false, none⟩
  | 0x15 => some ⟨0xD800#16, true, true, false, false, none⟩
  | 0x16 => some ⟨0xFF1F#16, true, true, false, false, none⟩
  | 0x17 => some ⟨0xFF1F#16, true, true, true, false, none⟩
  | 0x18 => some ⟨0xFF1F#16, true, true, false, false, none⟩
  | 0x19 => some ⟨0xFF1F#16, true, true, true, true, none⟩
  | 0x1A => some ⟨0x0800#16, true, true, false, false, none⟩
  | 0x1B => some ⟨0x0800#16, true, true, false, false, none⟩
  | 0x1C => some ⟨0x0800#16, true, true, false, false, none⟩
  | _ => none

/-- The rule of a strip opcode; none for IDLE and for unassigned codes (R78-R80). -/
def stripRule : StripId → Nat → Option StripRule
  | .ast, op => astRule op
  | .est, op => estRule op
  | .pst, op => pstRule op

/-- The functions that have an approximate family (R212). -/
def approxOps : List Nat := [0x02, 0x03, 0x04, 0x06, 0x07, 0x18, 0x1C, 0x1D, 0x1E, 0x1F]

/-- The immediate of a CVT (R206): source in 3:0, window position in 7:4, sat in 8. -/
def cvtImmOk (w : SWord) : Bool :=
  let src := w.imm.extractLsb' 0 4
  let p := (w.imm.extractLsb' 4 4).toNat
  let ns := perBeat src
  let nd := perBeat w.ty
  let m := Nat.min ns nd
  (w.imm.extractLsb' 9 10 == 0) && (src != w.ty)
    && (!w.imm.getLsbD 8 || w.ty == 3 || w.ty == 4 || (isInteger src && isInteger w.ty))
    && decide (p < (Nat.max ns nd + m - 1) / m) && (decide (ns < nd) || w.b == 32)

/-- Whether the immediate of a strip word keeps its instruction's rule (R76, R204-R210, R226). -/
def stripImmOk (e : StripId) (op : Nat) (w : SWord) : Bool :=
  let i := w.imm.toNat
  let n := perBeat w.ty
  match e, op with
  | .ast, 0x27 => decide (i < 32)
  | .ast, _ => i == 0
  | .est, 0x20 => decide (i < 2)
  | .est, 0x21 => i == 0
  | .est, 0x22 => decide (i < 32)
  | .est, _ => i == 0 || (i == 1 && approxOps.contains op && w.ty != 10)
  | .pst, 0x04 => decide (i ≤ n)
  | .pst, 0x05 => decide (i < n)
  | .pst, 0x06 => decide (i < 2)
  | .pst, 0x07 => decide (i < 2)
  | .pst, 0x08 => cvtImmOk w
  | .pst, 0x09 => decide (i < 2)
  | .pst, 0x0A => decide (i < 2)
  | .pst, 0x0B => decide (i < 8) && i % 4 != 3
  | .pst, 0x0C => decide (i < 3)
  | .pst, 0x12 => decide (i < 8) && i % 4 != 3
  | .pst, 0x16 => decide (0 < i) && decide (i ≤ n) && n % i == 0
  | .pst, 0x17 => decide (i < n)
  | .pst, 0x18 => decide (i < n)
  | .pst, 0x1A => decide (i < 256)
  | .pst, 0x1B => decide (i < 2)
  | .pst, 0x1C => decide (i < 65536)
  | .pst, _ => i == 0

/-- An operand field of a strip word (R74): 32 when unused, at most 32 when used. -/
def operandOk (used : Bool) (c : BitVec 6) : Bool := if used then decide (c.toNat ≤ 32) else c == 32

/-- A destination field (R74, R209): no k register. -/
def destOk (c : BitVec 6) : Bool := !(decide (8 ≤ c.toNat) && decide (c.toNat < 16))

/-- POP and PUSH of a strip word (R73, R26): not 7 and not the strip itself. -/
def tokenFieldOk (e : StripId) (p : BitVec 3) : Bool := p != 7 && p.toNat != e.engine.id

/-- For type f64 a k operand is even (R193). -/
def kPairOk (ty : BitVec 4) (c : BitVec 6) : Bool :=
  !(ty == 10 && decide (8 ≤ c.toNat) && decide (c.toNat < 16) && c.getLsbD 0)

/-- Rounding (R73, R75, R199, R212): 110 and 111 are illegal; a word that does not round has 000; CVT between two integer
formats has 000. -/
def stripRoundOk (e : StripId) (op : Nat) (r : StripRule) (w : SWord) : Bool :=
  decide (w.rm.toNat < 6) && (w.rm == 0 ||
    (match r.rounds with
     | none => false
     | some false => isF w.ty
     | some true => !(e == .pst && op == 0x08 && isInteger w.ty && isInteger (w.imm.extractLsb' 0 4))))

/-- The RUN check of a strip word (R77, R82), apart from the feature test. -/
def stripOk (e : StripId) (op : BitVec 8) (w : SWord) : Bool :=
  tokenFieldOk e w.pop && tokenFieldOk e w.push &&
  (if op == 1 then
    w.ty == 0 && w.rm == 0 && w.d == 32 && w.a == 32 && w.b == 32 && w.c == 32 && w.imm != 0
  else match stripRule e op.toNat with
    | none => false
    | some r =>
      let two := e == .pst && (op == 0x10 || op == 0x19)
      r.types.getLsbD w.ty.toNat && stripRoundOk e op.toNat r w && destOk w.d
        && operandOk r.d w.d && operandOk r.a w.a && operandOk r.b w.b && operandOk r.c w.c
        && kPairOk w.ty w.a && kPairOk w.ty w.b && kPairOk w.ty w.c
        && (!(two || (e == .pst && op == 0x11)) || destOk w.c)
        && !(two && w.d == w.c && decide (16 ≤ w.d.toNat) && decide (w.d.toNat < 32))
        && stripImmOk e op.toNat w)

/-- The class of an operand format of R240: class number, largest KCNT, schedule cycles per group, whether it accumulates in
i32. -/
def mxClass (f : BitVec 4) : Option (Nat × Nat × Nat × Bool) :=
  match f.toNat with
  | 3 => some (0, 12, 2, false) | 4 => some (0, 12, 2, false)
  | 8 => some (1, 12, 2, true) | 13 => some (1, 12, 2, true)
  | 1 => some (2, 6, 4, false) | 2 => some (2, 6, 4, false)
  | 5 => some (3, 10, 2, false) | 6 => some (4, 16, 2, false) | 7 => some (5, 24, 1, false)
  | 9 => some (6, 24, 1, true) | 0 => some (7, 3, 16, false)
  | _ => none

/-- Whether ACCOUT's sat bit may be 1 (R245). -/
def accoutSatOk (fa ofmt : BitVec 4) : Bool :=
  (fa == 0 && (ofmt == 3 || ofmt == 4))
    || (fa == 11 && (ofmt == 12 || ofmt == 8 || ofmt == 9 || ofmt == 14 || ofmt == 15 || ofmt == 13))

/-- The field rules of a control token (R239, R240, R247). -/
def tokenOk (op : BitVec 4) (k : MTok) : Bool :=
  decide (k.pop.toNat < 6) && decide (k.push.toNat < 6) &&
  (match op.toNat with
   | 4 => k.fa == 0 && k.fb == 0 && k.sa == 0 && k.sb == 0 && k.ra == 0 && k.rb == 0 && k.rnd == 0 && k.kcnt == 0
          && k.dch == 0 && k.ofmt == 0 && k.sat == 0 && k.lenfault == 0 && k.tag == 0
   | 5 => (k.fa == 0 || k.fa == 11) && k.fb == 0 && k.sa == 0 && k.sb == 0 && k.rb == 0 && k.kcnt == 0
          && k.ofmt != 10 && (k.sat == 0 || accoutSatOk k.fa k.ofmt) && k.lenfault == 0
   | 6 => (k.fa == 0 || k.fa == 11) && k.fb == 0 && k.sa == 0 && k.sb == 0 && k.rb == 0 && k.rnd == 0 && k.kcnt == 0
          && k.ofmt == 0 && k.sat == 0 && k.tag == 0
   | 1 | 2 | 3 =>
     k.dch == 0 && k.ofmt == 0 && k.sat == 0 && k.lenfault == 0 && k.tag == 0 &&
     (match mxClass k.fa, mxClass k.fb with
      | some (ca, n, _, i), some (cb, _, _, _) =>
        ca == cb && decide (1 ≤ k.kcnt.toNat) && decide (k.kcnt.toNat ≤ n) && (!i || k.rnd == 0)
      | _, _ => false)
   | _ => false)

/-- The rules of R62, R64 and R67 that a sequencer word alone decides: targets only on an instruction that sends, two targets
that differ, a predicate that is no predicate target of itself being a rule of its block. -/
def headOk (h : Head) (m : SeqMeta) : Bool :=
  (m.send || (h.t0.isNone && h.t1.isNone)) && (h.t0.isNone || h.t0 != h.t1)

/-- The ranges of R66 and R67 that a field's width does not give. -/
def rangeOk : Instr → Bool
  | .ext _ lb wm => decide (lb.toNat + wm.toNat < 64)
  | .exts _ lb wm => decide (lb.toNat + wm.toNat < 64)
  | .lnkst _ p => decide (p.toNat < 24)
  | .sema _ _ _ _ cnt => cnt != 0
  | .semp _ _ _ cnt => cnt != 0
  | .chr _ _ _ word => decide (word.toNat < 96)
  | .read _ _ => true
  | .write _ _ => true
  | .null _ _ => true
  | .mov _ => true
  | .movi _ _ => true
  | .movhi _ _ => true
  | .adrb _ _ _ => true
  | .br _ _ _ => true
  | .brr _ => true
  | .call _ _ _ => true
  | .callr _ => true
  | .halt _ => true
  | .yield _ _ _ => true
  | .add _ => true
  | .addi _ _ => true
  | .sub _ => true
  | .subi _ _ => true
  | .mul _ => true
  | .muli _ _ => true
  | .mulh _ => true
  | .mulhu _ => true
  | .div _ => true
  | .divu _ => true
  | .rem _ => true
  | .remu _ => true
  | .andW _ => true
  | .andi _ _ => true
  | .orW _ => true
  | .ori _ _ => true
  | .xorW _ => true
  | .xori _ _ => true
  | .shl _ => true
  | .shli _ _ => true
  | .shr _ => true
  | .sra _ => true
  | .shri _ _ => true
  | .srai _ _ => true
  | .clz _ => true
  | .popc _ => true
  | .min _ => true
  | .minu _ => true
  | .max _ => true
  | .maxu _ => true
  | .sextb _ => true
  | .sexth _ => true
  | .sextw _ => true
  | .lea _ _ => true
  | .teq _ => true
  | .teqi _ _ => true
  | .tne _ => true
  | .tnei _ _ => true
  | .tlt _ => true
  | .tltu _ => true
  | .tlti _ _ => true
  | .tltiu _ _ => true
  | .tle _ => true
  | .tleu _ => true
  | .tlei _ _ => true
  | .tleiu _ _ => true
  | .tgt _ => true
  | .tgtu _ => true
  | .tgti _ _ => true
  | .tgtiu _ _ => true
  | .tge _ => true
  | .tgeu _ => true
  | .tgei _ _ => true
  | .tgeiu _ _ => true
  | .tbit _ _ => true
  | .mfs _ _ => true
  | .mts _ _ _ => true
  | .mtsFmode _ _ => true
  | .mtsFflags _ _ => true
  | .mtsEpc _ _ => true
  | .trap _ _ => true
  | .hret _ => true
  | .ld _ _ _ _ => true
  | .lds _ _ _ _ => true
  | .st _ _ _ _ => true
  | .ldf _ _ _ _ => true
  | .stf _ _ _ _ => true
  | .empty _ _ _ => true
  | .ldfTake _ _ _ _ _ => true
  | .waita _ _ _ _ => true
  | .aadd _ _ _ _ _ => true
  | .aswp _ _ _ _ _ => true
  | .acas _ _ _ _ _ => true
  | .aand _ _ _ _ _ => true
  | .aor _ _ _ _ _ => true
  | .axor _ _ _ _ _ => true
  | .amin _ _ _ _ _ => true
  | .amax _ _ _ _ _ => true
  | .aminu _ _ _ _ _ => true
  | .amaxu _ _ _ _ _ => true
  | .fence _ _ => true
  | .sbar _ _ => true
  | .sdef _ _ _ _ => true
  | .sgo _ _ _ => true
  | .sstop _ _ _ => true
  | .cpy _ _ _ => true
  | .halo _ _ _ => true
  | .vcfmt _ _ _ _ => true
  | .vcscl _ _ _ _ => true
  | .run _ _ _ _ _ => true
  | .chw _ _ _ _ _ => true
  | .tokp _ _ _ => true
  | .tokw _ _ _ => true
  | .oclaim _ _ _ => true
  | .orelease _ _ _ => true
  | .ofill _ _ _ _ => true
  | .mxq _ _ => true
  | .semt _ _ => true
  | .bara _ _ _ _ => true
  | .barw _ _ _ => true
  | .bar _ _ _ => true
  | .barc _ _ _ => true
  | .gsid _ _ => true
  | .gsize _ _ => true
  | .grank _ _ => true
  | .gmemb _ _ => true
  | .enq _ _ _ _ => true
  | .qstat _ _ => true
  | .tlbi _ _ _ => true
  | .pmig _ _ => true
  | .ctxq _ _ => true
  | .ctxqClearFlags _ => true
  | .idle _ _ => true
  | .astAdd _ => true
  | .astSub _ => true
  | .astMul _ => true
  | .astFma _ => true
  | .astFms _ => true
  | .astFnma _ => true
  | .astMin _ => true
  | .astMax _ => true
  | .astAbs _ => true
  | .astNeg _ => true
  | .astCmpeq _ => true
  | .astCmpne _ => true
  | .astCmplt _ => true
  | .astCmple _ => true
  | .astSel _ => true
  | .astMov _ => true
  | .astAnd _ => true
  | .astOr _ => true
  | .astXor _ => true
  | .astNot _ => true
  | .astShl _ => true
  | .astShr _ => true
  | .astSra _ => true
  | .astMulh _ => true
  | .astMadd _ => true
  | .astAdds _ => true
  | .astSubs _ => true
  | .astClamp _ => true
  | .astRint _ => true
  | .astClass _ => true
  | .astCopysign _ => true
  | .astScale _ => true
  | .astAbsd _ => true
  | .astAvg _ => true
  | .astClz _ => true
  | .astPopc _ => true
  | .astFlagr _ => true
  | .astFlagc _ => true
  | .estExp w => !w.imm.getLsbD 0
  | .estExp2 w => !w.imm.getLsbD 0
  | .estExp10 w => !w.imm.getLsbD 0
  | .estExpm1 _ => true
  | .estLog w => !w.imm.getLsbD 0
  | .estLog2 w => !w.imm.getLsbD 0
  | .estLog10 _ => true
  | .estLog1p _ => true
  | .estSin _ => true
  | .estCos _ => true
  | .estTan _ => true
  | .estSinpi _ => true
  | .estCospi _ => true
  | .estAsin _ => true
  | .estAcos _ => true
  | .estAtan _ => true
  | .estAtan2 _ => true
  | .estSinh _ => true
  | .estCosh _ => true
  | .estTanh _ => true
  | .estErf _ => true
  | .estErfc _ => true
  | .estSigmoid w => !w.imm.getLsbD 0
  | .estPow _ => true
  | .estCbrt _ => true
  | .estHypot _ => true
  | .estRsqrt w => !w.imm.getLsbD 0
  | .estSqrt w => !w.imm.getLsbD 0
  | .estRcp w => !w.imm.getLsbD 0
  | .estDiv w => !w.imm.getLsbD 0
  | .estExpA w => w.imm.getLsbD 0
  | .estExp2A w => w.imm.getLsbD 0
  | .estExp10A w => w.imm.getLsbD 0
  | .estLogA w => w.imm.getLsbD 0
  | .estLog2A w => w.imm.getLsbD 0
  | .estSigmoidA w => w.imm.getLsbD 0
  | .estRsqrtA w => w.imm.getLsbD 0
  | .estSqrtA w => w.imm.getLsbD 0
  | .estRcpA w => w.imm.getLsbD 0
  | .estDivA w => w.imm.getLsbD 0
  | .estHardr _ => true
  | .estFlagr _ => true
  | .estFlagc _ => true
  | .pstPermb _ => true
  | .pstShuf _ => true
  | .pstRotl _ => true
  | .pstBcast _ => true
  | .pstZip _ => true
  | .pstUnzip _ => true
  | .pstCvt _ => true
  | .pstPackb _ => true
  | .pstUnpackb _ => true
  | .pstScan _ => true
  | .pstReduce _ => true
  | .pstCompact _ => true
  | .pstExpand _ => true
  | .pstIntersect _ => true
  | .pstSteer _ => true
  | .pstMerge _ => true
  | .pstSegscan _ => true
  | .pstIota _ => true
  | .pstMaskgen _ => true
  | .pstPopcm _ => true
  | .pstTrn _ => true
  | .pstInsl _ => true
  | .pstExtl _ => true
  | .pstSplit _ => true
  | .pstTags _ => true
  | .pstMarke _ => true
  | .pstTagt _ => true
  | .coldReset _ => true
  | .blockFetch => true
  | .blockIssue => true
  | .blockCommit => true
  | .blockMalformedDetect => true
  | .serialiseIssue => true
  | .runCheck _ => true
  | .stripResultDue _ => true
  | .stripWordIssue _ => true
  | .secondPhaseRound => true
  | .mxeTokenTake => true
  | .mma _ => true
  | .mmaz _ => true
  | .mman _ => true
  | .accz _ => true
  | .accout _ => true
  | .accin _ => true
  | .mxeOperationRetire => true
  | .accoutBeatPush => true
  | .fillComplete _ => true
  | .streamCommandTake _ => true
  | .streamUnit _ => true
  | .streamFrameEnd _ => true
  | .streamCompletion _ => true
  | .streamStopDone _ => true
  | .gatherRow _ => true
  | .vcDemandGrant _ _ => true
  | .vcUnitSend _ _ => true
  | .vcUnitReceive _ _ => true
  | .routerFilterFrame _ _ => true
  | .copyPacketStart _ => true
  | .cpyCopy _ => true
  | .cpyConv _ => true
  | .cpyFill _ => true
  | .cpyMcast _ => true
  | .copyCompletion _ => true
  | .copyPriorityAge _ => true
  | .copyPacketFrame _ => true
  | .permitUnit _ => true
  | .haloDirectionComplete _ => true
  | .haloSenderComplete => true
  | .barrierArrival => true
  | .barrierCountUpdate => true
  | .barrierAdvanceNotice => true
  | .sliceBankServe => true
  | .reservationRetry => true
  | .takeHeadTimeout _ => true
  | .takeListGrant _ => true
  | .waitaWake => true
  | .waitaTimeout => true
  | .bankReassign _ _ _ => true
  | .pageWalk _ => true
  | .shadowService => true
  | .tlbiComplete => true
  | .migrate => true
  | .frameMove _ _ _ => true
  | .faultTake _ => true
  | .faultDelivery => true
  | .escalate _ _ => true
  | .deadlockDeclare _ => true
  | .tilePreempt => true
  | .tileClaimSave _ _ => true
  | .tileResume _ => true
  | .sliceExpiry _ => true
  | .createContext _ => true
  | .loadPolicy _ => true
  | .grant _ => true
  | .schedule _ => true
  | .pause _ => true
  | .pauseComplete _ => true
  | .resume _ => true
  | .evict _ => true
  | .evictComplete _ => true
  | .restore _ => true
  | .restoreComplete _ _ => true
  | .destroy _ => true
  | .resetVf _ => true
  | .functionLevelReset _ => true
  | .scrubComplete _ => true
  | .readCounter _ => true
  | .maskFeature _ => true
  | .submit _ => true
  | .attest _ _ => true
  | .seal _ _ => true
  | .keyUpdate _ _ => true
  | .bounceRecord _ _ _ => true
  | .huskBeat _ _ => true
  | .queueRecordDecode _ _ => true
  | .queueArbitrate _ => true
  | .launch _ _ _ => true
  | .loadk _ _ _ => true
  | .unloadk _ _ _ => true
  | .waitmark _ _ _ => true
  | .waitmarkRecheck _ _ => true
  | .setmark _ _ _ => true
  | .queueCopy _ _ _ => true
  | .qbarrier _ _ _ => true
  | .queueNop _ _ _ => true
  | .markAdd _ _ => true
  | .queueLevelAge _ _ => true
  | .preload _ _ => true
  | .budgetOverrun => true
  | .instancePlace => true
  | .instanceStart => true
  | .tileFinish => true
  | .instanceRetire => true
  | .fabricNodeFinish _ => true
  | .wavefrontReconfigure => true
  | .plotSetPlace _ => true
  | .hotSwap _ _ => true
  | .libSteer _ => true
  | .libMerge _ => true
  | .packz _ => true
  | .unpackz _ => true
  | .sortk _ => true
  | .route _ => true
  | .sample _ => true
  | .codec _ => true
  | .seqgen _ => true
  | .join _ => true
  | .partnerDetect _ _ => true
  | .portAttest _ _ => true
  | .creditAdvertisement _ => true
  | .portDrainRequest _ => true
  | .portDrainEnd _ => true
  | .portReenable _ => true
  | .linkGroupReceive _ _ => true
  | .linkRetryLimit _ => true
  | .linkKeyUpdate _ => true
  | .linkFlitSend _ => true
  | .switchIndexAssign _ _ _ => true
  | .sessionOpen _ _ _ => true
  | .sessionAbort _ _ => true
  | .sessionPortTimeout _ _ => true
  | .linkStreamUnits _ _ _ _ _ _ => true
  | .linkDemandGrant _ _ _ _ _ => true
  | .linkReadRequest _ _ _ _ => true
  | .linkReadResponse _ _ _ => true
  | .linkWrite _ _ _ _ _ => true
  | .linkAtomic _ _ _ _ _ _ _ => true
  | .linkAtomicResult _ _ _ => true
  | .linkWriteCompletion _ _ => true
  | .linkFaultReply _ _ _ _ => true
  | .linkAbort _ _ => true
  | .sensorTrip _ => true
  | .powerSample _ => true
  | .islandFrequencyChange _ _ => true
  | .patrolScrub _ _ => true
  | .configReadback _ _ => true
  | .tileMapOut _ _ => true
  | .firmwareStage _ _ _ => true
  | .hbmAccessPerformed => true
  | .pcieCompletion _ => true
  | .tenantPlotSetFiring _ => true

/-- The shape rules of a word. -/
def Shape.ok : Shape → Bool
  | .seq h m => headOk h m
  | .strip e op w => stripOk e op w
  | .token op k => tokenOk op k
  | .step => true

/-- The field rules of an instruction (R61-R82, R238-R240). -/
def fieldsOk (i : Instr) : Bool := rangeOk i && i.shape.ok

/-! ### The decoder -/

/-- The first answer of a list. -/
def firstSome : List (Option Instr) → Option Instr
  | [] => none
  | some i :: _ => some i
  | none :: l => firstSome l

/-- A sequencer word cut into its fields (R61). -/
def SeqFields.ofWord (w : W64) : SeqFields :=
  ⟨w.extractLsb' 56 8, w.extractLsb' 54 2, w.extractLsb' 45 9, w.extractLsb' 36 9, w.extractLsb' 0 36⟩

/-- The format-specific bits of R63, by opcode (R66, R67, R70). -/
def decodeFields (op : BitVec 8) (h : Head) (f : BitVec 36) : Option Instr :=
  match op.toNat with
  | 0x01 => if f.extractLsb' 0 31 = 0#31 then some (.read h (f.extractLsb' 31 5)) else none
  | 0x02 => if f.extractLsb' 0 31 = 0#31 then some (.write h (f.extractLsb' 31 5)) else none
  | 0x03 => if f.extractLsb' 32 4 = 0#4 then some (.null h (f.extractLsb' 0 32)) else none
  | 0x04 => if f.extractLsb' 32 4 = 0#4 ∧ f.extractLsb' 0 32 = 0#32 then some (.mov h) else none
  | 0x05 => some (.movi h (f.extractLsb' 0 36))
  | 0x06 => if f.extractLsb' 32 4 = 0#4 then some (.movhi h (f.extractLsb' 0 32)) else none
  | 0x07 => some (.adrb h (f.extractLsb' 33 3) (f.extractLsb' 0 33))
  | 0x08 => some (.br h (f.extractLsb' 33 3) (f.extractLsb' 0 33))
  | 0x09 => if f.extractLsb' 32 4 = 0#4 ∧ f.extractLsb' 0 32 = 0#32 then some (.brr h) else none
  | 0x0A => some (.call h (f.extractLsb' 33 3) (f.extractLsb' 0 33))
  | 0x0B => if f.extractLsb' 32 4 = 0#4 ∧ f.extractLsb' 0 32 = 0#32 then some (.callr h) else none
  | 0x0C => if f.extractLsb' 32 4 = 0#4 ∧ f.extractLsb' 0 32 = 0#32 then some (.halt h) else none
  | 0x0D => some (.yield h (f.extractLsb' 33 3) (f.extractLsb' 0 33))
  | 0x10 => if f.extractLsb' 32 4 = 0#4 ∧ f.extractLsb' 0 32 = 0#32 then some (.add h) else none
  | 0x11 => if f.extractLsb' 32 4 = 0#4 then some (.addi h (f.extractLsb' 0 32)) else none
  | 0x12 => if f.extractLsb' 32 4 = 0#4 ∧ f.extractLsb' 0 32 = 0#32 then some (.sub h) else none
  | 0x13 => if f.extractLsb' 32 4 = 0#4 then some (.subi h (f.extractLsb' 0 32)) else none
  | 0x14 => if f.extractLsb' 32 4 = 0#4 ∧ f.extractLsb' 0 32 = 0#32 then some (.mul h) else none
  | 0x15 => if f.extractLsb' 32 4 = 0#4 then some (.muli h (f.extractLsb' 0 32)) else none
  | 0x16 => firstSome [if f.extractLsb' 32 4 = 0#4 ∧ f.extractLsb' 0 32 = 0#32 then some (.mulh h) else none, if f.extractLsb' 32 4 = 1#4 ∧ f.extractLsb' 0 32 = 0#32 then some (.mulhu h) else none]
  | 0x17 => firstSome [if f.extractLsb' 32 4 = 0#4 ∧ f.extractLsb' 0 32 = 0#32 then some (.div h) else none, if f.extractLsb' 32 4 = 1#4 ∧ f.extractLsb' 0 32 = 0#32 then some (.divu h) else none]
  | 0x18 => firstSome [if f.extractLsb' 32 4 = 0#4 ∧ f.extractLsb' 0 32 = 0#32 then some (.rem h) else none, if f.extractLsb' 32 4 = 1#4 ∧ f.extractLsb' 0 32 = 0#32 then some (.remu h) else none]
  | 0x19 => if f.extractLsb' 32 4 = 0#4 ∧ f.extractLsb' 0 32 = 0#32 then some (.andW h) else none
  | 0x1A => if f.extractLsb' 32 4 = 0#4 then some (.andi h (f.extractLsb' 0 32)) else none
  | 0x1B => if f.extractLsb' 32 4 = 0#4 ∧ f.extractLsb' 0 32 = 0#32 then some (.orW h) else none
  | 0x1C => if f.extractLsb' 32 4 = 0#4 then some (.ori h (f.extractLsb' 0 32)) else none
  | 0x1D => if f.extractLsb' 32 4 = 0#4 ∧ f.extractLsb' 0 32 = 0#32 then some (.xorW h) else none
  | 0x1E => if f.extractLsb' 32 4 = 0#4 then some (.xori h (f.extractLsb' 0 32)) else none
  | 0x1F => if f.extractLsb' 32 4 = 0#4 ∧ f.extractLsb' 0 32 = 0#32 then some (.shl h) else none
  | 0x20 => if f.extractLsb' 32 4 = 0#4 ∧ f.extractLsb' 6 26 = 0#26 then some (.shli h (f.extractLsb' 0 6)) else none
  | 0x21 => firstSome [if f.extractLsb' 32 4 = 0#4 ∧ f.extractLsb' 0 32 = 0#32 then some (.shr h) else none, if f.extractLsb' 32 4 = 1#4 ∧ f.extractLsb' 0 32 = 0#32 then some (.sra h) else none]
  | 0x22 => firstSome [if f.extractLsb' 32 4 = 0#4 ∧ f.extractLsb' 6 26 = 0#26 then some (.shri h (f.extractLsb' 0 6)) else none, if f.extractLsb' 32 4 = 1#4 ∧ f.extractLsb' 6 26 = 0#26 then some (.srai h (f.extractLsb' 0 6)) else none]
  | 0x23 => firstSome [if f.extractLsb' 32 4 = 0#4 ∧ f.extractLsb' 14 18 = 0#18 ∧ f.extractLsb' 6 2 = 0#2 then some (.ext h (f.extractLsb' 0 6) (f.extractLsb' 8 6)) else none, if f.extractLsb' 32 4 = 1#4 ∧ f.extractLsb' 14 18 = 0#18 ∧ f.extractLsb' 6 2 = 0#2 then some (.exts h (f.extractLsb' 0 6) (f.extractLsb' 8 6)) else none]
  | 0x24 => if f.extractLsb' 32 4 = 0#4 ∧ f.extractLsb' 0 32 = 0#32 then some (.clz h) else none
  | 0x25 => if f.extractLsb' 32 4 = 0#4 ∧ f.extractLsb' 0 32 = 0#32 then some (.popc h) else none
  | 0x26 => firstSome [if f.extractLsb' 32 4 = 0#4 ∧ f.extractLsb' 0 32 = 0#32 then some (.min h) else none, if f.extractLsb' 32 4 = 1#4 ∧ f.extractLsb' 0 32 = 0#32 then some (.minu h) else none]
  | 0x27 => firstSome [if f.extractLsb' 32 4 = 0#4 ∧ f.extractLsb' 0 32 = 0#32 then some (.max h) else none, if f.extractLsb' 32 4 = 1#4 ∧ f.extractLsb' 0 32 = 0#32 then some (.maxu h) else none]
  | 0x28 => firstSome [if f.extractLsb' 32 4 = 0#4 ∧ f.extractLsb' 0 32 = 0#32 then some (.sextb h) else none, if f.extractLsb' 32 4 = 1#4 ∧ f.extractLsb' 0 32 = 0#32 then some (.sexth h) else none, if f.extractLsb' 32 4 = 2#4 ∧ f.extractLsb' 0 32 = 0#32 then some (.sextw h) else none]
  | 0x29 => if f.extractLsb' 32 4 = 0#4 ∧ f.extractLsb' 2 30 = 0#30 then some (.lea h (f.extractLsb' 0 2)) else none
  | 0x30 => if f.extractLsb' 32 4 = 0#4 ∧ f.extractLsb' 0 32 = 0#32 then some (.teq h) else none
  | 0x31 => if f.extractLsb' 32 4 = 0#4 then some (.teqi h (f.extractLsb' 0 32)) else none
  | 0x32 => if f.extractLsb' 32 4 = 0#4 ∧ f.extractLsb' 0 32 = 0#32 then some (.tne h) else none
  | 0x33 => if f.extractLsb' 32 4 = 0#4 then some (.tnei h (f.extractLsb' 0 32)) else none
  | 0x34 => firstSome [if f.extractLsb' 32 4 = 0#4 ∧ f.extractLsb' 0 32 = 0#32 then some (.tlt h) else none, if f.extractLsb' 32 4 = 1#4 ∧ f.extractLsb' 0 32 = 0#32 then some (.tltu h) else none]
  | 0x35 => firstSome [if f.extractLsb' 32 4 = 0#4 then some (.tlti h (f.extractLsb' 0 32)) else none, if f.extractLsb' 32 4 = 1#4 then some (.tltiu h (f.extractLsb' 0 32)) else none]
  | 0x36 => firstSome [if f.extractLsb' 32 4 = 0#4 ∧ f.extractLsb' 0 32 = 0#32 then some (.tle h) else none, if f.extractLsb' 32 4 = 1#4 ∧ f.extractLsb' 0 32 = 0#32 then some (.tleu h) else none]
  | 0x37 => firstSome [if f.extractLsb' 32 4 = 0#4 then some (.tlei h (f.extractLsb' 0 32)) else none, if f.extractLsb' 32 4 = 1#4 then some (.tleiu h (f.extractLsb' 0 32)) else none]
  | 0x38 => firstSome [if f.extractLsb' 32 4 = 0#4 ∧ f.extractLsb' 0 32 = 0#32 then some (.tgt h) else none, if f.extractLsb' 32 4 = 1#4 ∧ f.extractLsb' 0 32 = 0#32 then some (.tgtu h) else none]
  | 0x39 => firstSome [if f.extractLsb' 32 4 = 0#4 then some (.tgti h (f.extractLsb' 0 32)) else none, if f.extractLsb' 32 4 = 1#4 then some (.tgtiu h (f.extractLsb' 0 32)) else none]
  | 0x3A => firstSome [if f.extractLsb' 32 4 = 0#4 ∧ f.extractLsb' 0 32 = 0#32 then some (.tge h) else none, if f.extractLsb' 32 4 = 1#4 ∧ f.extractLsb' 0 32 = 0#32 then some (.tgeu h) else none]
  | 0x3B => firstSome [if f.extractLsb' 32 4 = 0#4 then some (.tgei h (f.extractLsb' 0 32)) else none, if f.extractLsb' 32 4 = 1#4 then some (.tgeiu h (f.extractLsb' 0 32)) else none]
  | 0x3C => if f.extractLsb' 32 4 = 0#4 ∧ f.extractLsb' 6 26 = 0#26 then some (.tbit h (f.extractLsb' 0 6)) else none
  | 0x40 => if f.extractLsb' 24 5 = 0#5 then (Size.ofCode (f.extractLsb' 29 2)).bind fun sz => some (.ld h (f.extractLsb' 31 5) sz (f.extractLsb' 0 24)) else none
  | 0x41 => if f.extractLsb' 24 5 = 0#5 then (Size.ofCode (f.extractLsb' 29 2)).bind fun sz => some (.lds h (f.extractLsb' 31 5) sz (f.extractLsb' 0 24)) else none
  | 0x42 => if f.extractLsb' 24 5 = 0#5 then (Size.ofCode (f.extractLsb' 29 2)).bind fun sz => some (.st h (f.extractLsb' 31 5) sz (f.extractLsb' 0 24)) else none
  | 0x43 => if f.extractLsb' 24 5 = 0#5 then (Size.ofCode (f.extractLsb' 29 2)).bind fun sz => some (.ldf h (f.extractLsb' 31 5) sz (f.extractLsb' 0 24)) else none
  | 0x44 => (Size.ofCode (f.extractLsb' 29 2)).bind fun sz => some (.ldfTake h (f.extractLsb' 31 5) sz (f.extractLsb' 24 5) (f.extractLsb' 0 24))
  | 0x45 => if f.extractLsb' 24 5 = 0#5 then (Size.ofCode (f.extractLsb' 29 2)).bind fun sz => some (.stf h (f.extractLsb' 31 5) sz (f.extractLsb' 0 24)) else none
  | 0x46 => if f.extractLsb' 29 2 = 0#2 ∧ f.extractLsb' 24 5 = 0#5 then some (.empty h (f.extractLsb' 31 5) (f.extractLsb' 0 24)) else none
  | 0x47 => if f.extractLsb' 29 2 = 3#2 then some (.waita h (f.extractLsb' 31 5) (f.extractLsb' 24 5) (f.extractLsb' 0 24)) else none
  | 0x48 => if f.extractLsb' 30 1 = 1#1 then some (.aadd h (f.extractLsb' 31 5) (f.getLsbD 29) (f.extractLsb' 24 5) (f.extractLsb' 0 24)) else none
  | 0x49 => if f.extractLsb' 30 1 = 1#1 then some (.aswp h (f.extractLsb' 31 5) (f.getLsbD 29) (f.extractLsb' 24 5) (f.extractLsb' 0 24)) else none
  | 0x4A => if f.extractLsb' 30 1 = 1#1 then some (.acas h (f.extractLsb' 31 5) (f.getLsbD 29) (f.extractLsb' 24 5) (f.extractLsb' 0 24)) else none
  | 0x4B => if f.extractLsb' 30 1 = 1#1 then some (.aand h (f.extractLsb' 31 5) (f.getLsbD 29) (f.extractLsb' 24 5) (f.extractLsb' 0 24)) else none
  | 0x4C => if f.extractLsb' 30 1 = 1#1 then some (.aor h (f.extractLsb' 31 5) (f.getLsbD 29) (f.extractLsb' 24 5) (f.extractLsb' 0 24)) else none
  | 0x4D => if f.extractLsb' 30 1 = 1#1 then some (.axor h (f.extractLsb' 31 5) (f.getLsbD 29) (f.extractLsb' 24 5) (f.extractLsb' 0 24)) else none
  | 0x4E => if f.extractLsb' 30 1 = 1#1 then some (.amin h (f.extractLsb' 31 5) (f.getLsbD 29) (f.extractLsb' 24 5) (f.extractLsb' 0 24)) else none
  | 0x4F => if f.extractLsb' 30 1 = 1#1 then some (.amax h (f.extractLsb' 31 5) (f.getLsbD 29) (f.extractLsb' 24 5) (f.extractLsb' 0 24)) else none
  | 0x50 => if f.extractLsb' 30 1 = 1#1 then some (.aminu h (f.extractLsb' 31 5) (f.getLsbD 29) (f.extractLsb' 24 5) (f.extractLsb' 0 24)) else none
  | 0x51 => if f.extractLsb' 30 1 = 1#1 then some (.amaxu h (f.extractLsb' 31 5) (f.getLsbD 29) (f.extractLsb' 24 5) (f.extractLsb' 0 24)) else none
  | 0x52 => if f.extractLsb' 0 32 = 0#32 then (Scope.ofCode (f.extractLsb' 32 4)).bind fun scope => some (.fence h scope) else none
  | 0x53 => if f.extractLsb' 32 4 = 0#4 ∧ f.extractLsb' 16 16 = 0#16 then some (.sbar h (f.extractLsb' 0 16)) else none
  | 0x60 => if f.extractLsb' 29 2 = 0#2 ∧ f.extractLsb' 28 1 = 0#1 then some (.sdef h (f.extractLsb' 31 5) (f.extractLsb' 24 4) (f.extractLsb' 0 24)) else none
  | 0x61 => if f.extractLsb' 29 2 = 0#2 ∧ f.extractLsb' 28 1 = 0#1 ∧ f.extractLsb' 0 24 = 0#24 then some (.sgo h (f.extractLsb' 31 5) (f.extractLsb' 24 4)) else none
  | 0x62 => if f.extractLsb' 29 2 = 0#2 ∧ f.extractLsb' 28 1 = 0#1 ∧ f.extractLsb' 0 24 = 0#24 then some (.sstop h (f.extractLsb' 31 5) (f.extractLsb' 24 4)) else none
  | 0x63 => if f.extractLsb' 29 2 = 0#2 ∧ f.extractLsb' 24 5 = 0#5 then some (.cpy h (f.extractLsb' 31 5) (f.extractLsb' 0 24)) else none
  | 0x64 => if f.extractLsb' 29 2 = 0#2 ∧ f.extractLsb' 24 5 = 0#5 then some (.halo h (f.extractLsb' 31 5) (f.extractLsb' 0 24)) else none
  | 0x65 => if f.extractLsb' 29 2 = 0#2 ∧ f.extractLsb' 24 5 = 0#5 ∧ f.extractLsb' 7 17 = 0#17 then some (.vcfmt h (f.extractLsb' 31 5) (f.extractLsb' 5 2) (f.extractLsb' 0 5)) else none
  | 0x66 => if f.extractLsb' 29 2 = 0#2 ∧ f.extractLsb' 24 5 = 0#5 ∧ f.extractLsb' 5 19 = 0#19 then some (.vcscl h (f.extractLsb' 31 5) (f.extractLsb' 3 2) (f.extractLsb' 0 3)) else none
  | 0x70 => if f.extractLsb' 29 2 = 0#2 then (StripId.ofCode (f.extractLsb' 24 5)).bind fun e => some (.run h (f.extractLsb' 31 5) e (f.extractLsb' 12 12) (f.extractLsb' 0 12)) else none
  | 0x71 => if f.extractLsb' 29 2 = 0#2 ∧ f.extractLsb' 28 1 = 0#1 ∧ f.extractLsb' 7 17 = 0#17 then some (.chr h (f.extractLsb' 31 5) (f.extractLsb' 24 4) (f.extractLsb' 0 7)) else none
  | 0x72 => if f.extractLsb' 29 2 = 0#2 ∧ f.extractLsb' 28 1 = 0#1 ∧ f.extractLsb' 9 15 = 0#15 then some (.chw h (f.extractLsb' 31 5) (f.extractLsb' 24 4) (f.extractLsb' 0 8) (f.getLsbD 8)) else none
  | 0x73 => if f.extractLsb' 29 2 = 0#2 ∧ f.extractLsb' 0 24 = 0#24 then (Partner.ofCode (f.extractLsb' 24 5)).bind fun e => some (.tokp h (f.extractLsb' 31 5) e) else none
  | 0x74 => if f.extractLsb' 29 2 = 0#2 ∧ f.extractLsb' 0 24 = 0#24 then (Partner.ofCode (f.extractLsb' 24 5)).bind fun e => some (.tokw h (f.extractLsb' 31 5) e) else none
  | 0x78 => if f.extractLsb' 29 2 = 0#2 ∧ f.extractLsb' 28 1 = 0#1 ∧ f.extractLsb' 0 24 = 0#24 then some (.oclaim h (f.extractLsb' 31 5) (f.extractLsb' 24 4)) else none
  | 0x79 => if f.extractLsb' 29 2 = 0#2 ∧ f.extractLsb' 28 1 = 0#1 ∧ f.extractLsb' 0 24 = 0#24 then some (.orelease h (f.extractLsb' 31 5) (f.extractLsb' 24 4)) else none
  | 0x7A => if f.extractLsb' 29 2 = 0#2 ∧ f.extractLsb' 28 1 = 0#1 then some (.ofill h (f.extractLsb' 31 5) (f.extractLsb' 24 4) (f.extractLsb' 0 24)) else none
  | 0x7B => if f.extractLsb' 29 2 = 0#2 ∧ f.extractLsb' 24 5 = 0#5 ∧ f.extractLsb' 0 24 = 0#24 then some (.mxq h (f.extractLsb' 31 5)) else none
  | 0x80 => if f.extractLsb' 29 2 = 0#2 ∧ f.extractLsb' 22 2 = 0#2 then some (.sema h (f.extractLsb' 31 5) (f.extractLsb' 24 5) (f.extractLsb' 0 6) (f.extractLsb' 6 16)) else none
  | 0x81 => if f.extractLsb' 29 2 = 0#2 ∧ f.extractLsb' 24 5 = 0#5 ∧ f.extractLsb' 22 2 = 0#2 then some (.semp h (f.extractLsb' 31 5) (f.extractLsb' 0 6) (f.extractLsb' 6 16)) else none
  | 0x82 => if f.extractLsb' 32 4 = 0#4 ∧ f.extractLsb' 6 26 = 0#26 then some (.semt h (f.extractLsb' 0 6)) else none
  | 0x83 => if f.extractLsb' 29 2 = 0#2 ∧ f.extractLsb' 8 16 = 0#16 then some (.bara h (f.extractLsb' 31 5) (f.extractLsb' 24 5) (f.extractLsb' 0 8)) else none
  | 0x84 => if f.extractLsb' 29 2 = 0#2 ∧ f.extractLsb' 24 5 = 0#5 ∧ f.extractLsb' 8 16 = 0#16 then some (.barw h (f.extractLsb' 31 5) (f.extractLsb' 0 8)) else none
  | 0x85 => if f.extractLsb' 29 2 = 0#2 ∧ f.extractLsb' 24 5 = 0#5 ∧ f.extractLsb' 8 16 = 0#16 then some (.bar h (f.extractLsb' 31 5) (f.extractLsb' 0 8)) else none
  | 0x86 => if f.extractLsb' 29 2 = 0#2 ∧ f.extractLsb' 24 5 = 0#5 ∧ f.extractLsb' 8 16 = 0#16 then some (.barc h (f.extractLsb' 31 5) (f.extractLsb' 0 8)) else none
  | 0x88 => if f.extractLsb' 32 4 = 0#4 ∧ f.extractLsb' 2 30 = 0#30 then some (.gsid h (f.extractLsb' 0 2)) else none
  | 0x89 => if f.extractLsb' 32 4 = 0#4 ∧ f.extractLsb' 8 24 = 0#24 then some (.gsize h (f.extractLsb' 0 8)) else none
  | 0x8A => if f.extractLsb' 32 4 = 0#4 ∧ f.extractLsb' 8 24 = 0#24 then some (.grank h (f.extractLsb' 0 8)) else none
  | 0x8B => if f.extractLsb' 32 4 = 0#4 ∧ f.extractLsb' 8 24 = 0#24 then some (.gmemb h (f.extractLsb' 0 8)) else none
  | 0x90 => if f.extractLsb' 29 2 = 0#2 ∧ f.extractLsb' 28 1 = 0#1 then some (.enq h (f.extractLsb' 31 5) (f.extractLsb' 24 4) (f.extractLsb' 0 24)) else none
  | 0x91 => if f.extractLsb' 32 4 = 0#4 ∧ f.extractLsb' 4 28 = 0#28 then some (.qstat h (f.extractLsb' 0 4)) else none
  | 0x98 => if f.extractLsb' 29 2 = 0#2 ∧ f.extractLsb' 24 5 = 0#5 ∧ f.extractLsb' 2 22 = 0#22 then (InvKind.ofCode (f.extractLsb' 0 2)).bind fun kind => some (.tlbi h (f.extractLsb' 31 5) kind) else none
  | 0x99 => if f.extractLsb' 29 2 = 0#2 ∧ f.extractLsb' 24 5 = 0#5 ∧ f.extractLsb' 0 24 = 0#24 then some (.pmig h (f.extractLsb' 31 5)) else none
  | 0x9A => if f.extractLsb' 32 4 = 0#4 ∧ f.extractLsb' 5 27 = 0#27 then some (.lnkst h (f.extractLsb' 0 5)) else none
  | 0x9B => firstSome [if f.extractLsb' 32 4 = 0#4 ∧ f.extractLsb' 4 28 = 0#28 then (CtxItem.ofCode (f.extractLsb' 0 4)).bind fun item => some (.ctxq h item) else none, if f.extractLsb' 32 4 = 0#4 ∧ f.extractLsb' 4 28 = 0#28 ∧ f.extractLsb' 0 4 = 6#4 then some (.ctxqClearFlags h) else none]
  | 0xA0 => if f.extractLsb' 32 4 = 0#4 ∧ f.extractLsb' 12 20 = 0#20 then (SReg.ofCode (f.extractLsb' 0 12)).bind fun r => some (.mfs h r) else none
  | 0xA1 => firstSome [if f.extractLsb' 29 2 = 0#2 ∧ f.extractLsb' 24 5 = 0#5 ∧ f.extractLsb' 12 12 = 0#12 then (PlainSReg.ofCode (f.extractLsb' 0 12)).bind fun r => some (.mts h (f.extractLsb' 31 5) r) else none, if f.extractLsb' 29 2 = 0#2 ∧ f.extractLsb' 24 5 = 0#5 ∧ f.extractLsb' 12 12 = 0#12 ∧ f.extractLsb' 0 12 = 3#12 then some (.mtsFmode h (f.extractLsb' 31 5)) else none, if f.extractLsb' 29 2 = 0#2 ∧ f.extractLsb' 24 5 = 0#5 ∧ f.extractLsb' 12 12 = 0#12 ∧ f.extractLsb' 0 12 = 4#12 then some (.mtsFflags h (f.extractLsb' 31 5)) else none, if f.extractLsb' 29 2 = 0#2 ∧ f.extractLsb' 24 5 = 0#5 ∧ f.extractLsb' 12 12 = 0#12 ∧ f.extractLsb' 0 12 = 8#12 then some (.mtsEpc h (f.extractLsb' 31 5)) else none]
  | 0xA2 => if f.extractLsb' 32 4 = 0#4 ∧ f.extractLsb' 16 16 = 0#16 then some (.trap h (f.extractLsb' 0 16)) else none
  | 0xA3 => if f.extractLsb' 32 4 = 0#4 ∧ f.extractLsb' 0 32 = 0#32 then some (.hret h) else none
  | _ => none

/-- Whether the sequencer map assigns an opcode (R70). -/
def assignedOp (op : BitVec 8) : Bool :=
  match op.toNat with
  | 0x01 => true
  | 0x02 => true
  | 0x03 => true
  | 0x04 => true
  | 0x05 => true
  | 0x06 => true
  | 0x07 => true
  | 0x08 => true
  | 0x09 => true
  | 0x0A => true
  | 0x0B => true
  | 0x0C => true
  | 0x0D => true
  | 0x10 => true
  | 0x11 => true
  | 0x12 => true
  | 0x13 => true
  | 0x14 => true
  | 0x15 => true
  | 0x16 => true
  | 0x17 => true
  | 0x18 => true
  | 0x19 => true
  | 0x1A => true
  | 0x1B => true
  | 0x1C => true
  | 0x1D => true
  | 0x1E => true
  | 0x1F => true
  | 0x20 => true
  | 0x21 => true
  | 0x22 => true
  | 0x23 => true
  | 0x24 => true
  | 0x25 => true
  | 0x26 => true
  | 0x27 => true
  | 0x28 => true
  | 0x29 => true
  | 0x30 => true
  | 0x31 => true
  | 0x32 => true
  | 0x33 => true
  | 0x34 => true
  | 0x35 => true
  | 0x36 => true
  | 0x37 => true
  | 0x38 => true
  | 0x39 => true
  | 0x3A => true
  | 0x3B => true
  | 0x3C => true
  | 0x40 => true
  | 0x41 => true
  | 0x42 => true
  | 0x43 => true
  | 0x44 => true
  | 0x45 => true
  | 0x46 => true
  | 0x47 => true
  | 0x48 => true
  | 0x49 => true
  | 0x4A => true
  | 0x4B => true
  | 0x4C => true
  | 0x4D => true
  | 0x4E => true
  | 0x4F => true
  | 0x50 => true
  | 0x51 => true
  | 0x52 => true
  | 0x53 => true
  | 0x60 => true
  | 0x61 => true
  | 0x62 => true
  | 0x63 => true
  | 0x64 => true
  | 0x65 => true
  | 0x66 => true
  | 0x70 => true
  | 0x71 => true
  | 0x72 => true
  | 0x73 => true
  | 0x74 => true
  | 0x78 => true
  | 0x79 => true
  | 0x7A => true
  | 0x7B => true
  | 0x80 => true
  | 0x81 => true
  | 0x82 => true
  | 0x83 => true
  | 0x84 => true
  | 0x85 => true
  | 0x86 => true
  | 0x88 => true
  | 0x89 => true
  | 0x8A => true
  | 0x8B => true
  | 0x90 => true
  | 0x91 => true
  | 0x98 => true
  | 0x99 => true
  | 0x9A => true
  | 0x9B => true
  | 0xA0 => true
  | 0xA1 => true
  | 0xA2 => true
  | 0xA3 => true
  | _ => false

/-- A sequencer word from its fields, rejecting by name (R82). -/
def decodeSeqFields (x : SeqFields) : Except DecodeError Instr :=
  if assignedOp x.op then
    match Pred.ofCode x.pm with
    | none => .error .predicate
    | some p =>
      match targetOfCode x.t0, targetOfCode x.t1 with
      | some t0, some t1 =>
        match decodeFields x.op ⟨p, t0, t1⟩ x.f with
        | none => .error .field
        | some i => if fieldsOk i then .ok i else .error .rule
      | _, _ => .error .target
  else .error .opcode

/-- The decoder of sequencer words. -/
def decodeSeq (w : W64) : Except DecodeError Instr := decodeSeqFields (SeqFields.ofWord w)

/-- The 56 bits of a strip word below its opcode (R73). -/
def SWord.ofWord (w : W64) : SWord :=
  ⟨w.extractLsb' 53 3, w.extractLsb' 50 3, w.extractLsb' 47 3, w.extractLsb' 43 4, w.extractLsb' 37 6,
   w.extractLsb' 31 6, w.extractLsb' 25 6, w.extractLsb' 19 6, w.extractLsb' 0 19⟩

/-- A-strip opcodes (R78). -/
def astInstr (op : Nat) (w : SWord) : Option Instr :=
  match op with
  | 0x01 => some (.idle .ast w)
  | 0x02 => some (.astAdd w)
  | 0x03 => some (.astSub w)
  | 0x04 => some (.astMul w)
  | 0x05 => some (.astFma w)
  | 0x06 => some (.astFms w)
  | 0x07 => some (.astFnma w)
  | 0x08 => some (.astMin w)
  | 0x09 => some (.astMax w)
  | 0x0A => some (.astAbs w)
  | 0x0B => some (.astNeg w)
  | 0x0C => some (.astCmpeq w)
  | 0x0D => some (.astCmpne w)
  | 0x0E => some (.astCmplt w)
  | 0x0F => some (.astCmple w)
  | 0x10 => some (.astSel w)
  | 0x11 => some (.astMov w)
  | 0x12 => some (.astAnd w)
  | 0x13 => some (.astOr w)
  | 0x14 => some (.astXor w)
  | 0x15 => some (.astNot w)
  | 0x16 => some (.astShl w)
  | 0x17 => some (.astShr w)
  | 0x18 => some (.astSra w)
  | 0x19 => some (.astMulh w)
  | 0x1A => some (.astMadd w)
  | 0x1B => some (.astAdds w)
  | 0x1C => some (.astSubs w)
  | 0x1D => some (.astClamp w)
  | 0x1E => some (.astRint w)
  | 0x1F => some (.astClass w)
  | 0x20 => some (.astCopysign w)
  | 0x21 => some (.astScale w)
  | 0x22 => some (.astAbsd w)
  | 0x23 => some (.astAvg w)
  | 0x24 => some (.astClz w)
  | 0x25 => some (.astPopc w)
  | 0x26 => some (.astFlagr w)
  | 0x27 => some (.astFlagc w)
  | _ => none

/-- E-strip opcodes (R79); immediate bit 0 is the approximate family (R76). -/
def estInstr (op : Nat) (w : SWord) : Option Instr :=
  match op with
  | 0x01 => some (.idle .est w)
  | 0x02 => some (if w.imm.getLsbD 0 then .estExpA w else .estExp w)
  | 0x03 => some (if w.imm.getLsbD 0 then .estExp2A w else .estExp2 w)
  | 0x04 => some (if w.imm.getLsbD 0 then .estExp10A w else .estExp10 w)
  | 0x05 => some (.estExpm1 w)
  | 0x06 => some (if w.imm.getLsbD 0 then .estLogA w else .estLog w)
  | 0x07 => some (if w.imm.getLsbD 0 then .estLog2A w else .estLog2 w)
  | 0x08 => some (.estLog10 w)
  | 0x09 => some (.estLog1p w)
  | 0x0A => some (.estSin w)
  | 0x0B => some (.estCos w)
  | 0x0C => some (.estTan w)
  | 0x0D => some (.estSinpi w)
  | 0x0E => some (.estCospi w)
  | 0x0F => some (.estAsin w)
  | 0x10 => some (.estAcos w)
  | 0x11 => some (.estAtan w)
  | 0x12 => some (.estAtan2 w)
  | 0x13 => some (.estSinh w)
  | 0x14 => some (.estCosh w)
  | 0x15 => some (.estTanh w)
  | 0x16 => some (.estErf w)
  | 0x17 => some (.estErfc w)
  | 0x18 => some (if w.imm.getLsbD 0 then .estSigmoidA w else .estSigmoid w)
  | 0x19 => some (.estPow w)
  | 0x1A => some (.estCbrt w)
  | 0x1B => some (.estHypot w)
  | 0x1C => some (if w.imm.getLsbD 0 then .estRsqrtA w else .estRsqrt w)
  | 0x1D => some (if w.imm.getLsbD 0 then .estSqrtA w else .estSqrt w)
  | 0x1E => some (if w.imm.getLsbD 0 then .estRcpA w else .estRcp w)
  | 0x1F => some (if w.imm.getLsbD 0 then .estDivA w else .estDiv w)
  | 0x20 => some (.estHardr w)
  | 0x21 => some (.estFlagr w)
  | 0x22 => some (.estFlagc w)
  | _ => none

/-- P-strip opcodes (R80). -/
def pstInstr (op : Nat) (w : SWord) : Option Instr :=
  match op with
  | 0x01 => some (.idle .pst w)
  | 0x02 => some (.pstPermb w)
  | 0x03 => some (.pstShuf w)
  | 0x04 => some (.pstRotl w)
  | 0x05 => some (.pstBcast w)
  | 0x06 => some (.pstZip w)
  | 0x07 => some (.pstUnzip w)
  | 0x08 => some (.pstCvt w)
  | 0x09 => some (.pstPackb w)
  | 0x0A => some (.pstUnpackb w)
  | 0x0B => some (.pstScan w)
  | 0x0C => some (.pstReduce w)
  | 0x0D => some (.pstCompact w)
  | 0x0E => some (.pstExpand w)
  | 0x0F => some (.pstIntersect w)
  | 0x10 => some (.pstSteer w)
  | 0x11 => some (.pstMerge w)
  | 0x12 => some (.pstSegscan w)
  | 0x13 => some (.pstIota w)
  | 0x14 => some (.pstMaskgen w)
  | 0x15 => some (.pstPopcm w)
  | 0x16 => some (.pstTrn w)
  | 0x17 => some (.pstInsl w)
  | 0x18 => some (.pstExtl w)
  | 0x19 => some (.pstSplit w)
  | 0x1A => some (.pstTags w)
  | 0x1B => some (.pstMarke w)
  | 0x1C => some (.pstTagt w)
  | _ => none

/-- The instruction of a strip opcode. -/
def stripInstr : StripId → Nat → SWord → Option Instr
  | .ast, op, w => astInstr op w
  | .est, op, w => estInstr op w
  | .pst, op, w => pstInstr op w

/-- The decoder of strip words, by the strip that runs them (R77). -/
def decodeStrip (e : StripId) (x : W64) : Except DecodeError Instr :=
  match stripInstr e (x.extractLsb' 56 8).toNat (SWord.ofWord x) with
  | none => .error .opcode
  | some i => if fieldsOk i then .ok i else .error .rule

/-- The 60 bits of a control token below its operation (R238). -/
def MTok.ofWord (w : W64) : MTok :=
  { fa := w.extractLsb' 56 4, fb := w.extractLsb' 52 4, sa := w.extractLsb' 48 4, sb := w.extractLsb' 44 4,
    acc := w.extractLsb' 41 3, ra := w.extractLsb' 36 5, rb := w.extractLsb' 31 5, rnd := w.extractLsb' 30 1,
    kcnt := w.extractLsb' 25 5, pop := w.extractLsb' 22 3, push := w.extractLsb' 19 3, nsrc := w.extractLsb' 18 1,
    nch := w.extractLsb' 14 4, dch := w.extractLsb' 10 4, ofmt := w.extractLsb' 6 4, sat := w.extractLsb' 5 1,
    lenfault := w.extractLsb' 4 1, tag := w.extractLsb' 0 4 }

/-- The decoder of control tokens (R81, R247): the operation, 1 MMA, 2 MMAZ, 3 MMAN, 4 ACCZ, 5 ACCOUT, 6 ACCIN, and its
fields. -/
def decodeToken (w : W64) : Except DecodeError (BitVec 4 × MTok) :=
  let op := w.extractLsb' 60 4
  if op == 0 || decide (6 < op.toNat) then .error .opcode
  else if tokenOk op (MTok.ofWord w) then .ok (op, MTok.ofWord w) else .error .rule

/-! ### Bytes -/

/-- The number that bytes give, the first lowest (R3). -/
def ofBytes : List Byte → Nat
  | [] => 0
  | b :: l => b.toNat + 256 * ofBytes l

/-- The n bytes of a number, lowest first (R3). -/
def toBytes : Nat → Nat → List Byte
  | 0, _ => []
  | n + 1, v => BitVec.ofNat 8 (v % 256) :: toBytes n (v / 256)

/-- The sequencer's decoder over bytes: the first 8 bytes are one word, little-endian (R3, R60). -/
def decode (bs : List Byte) : Except DecodeError (Instr × List Byte) :=
  if bs.length < 8 then .error .short
  else (decodeSeq (BitVec.ofNat 64 (ofBytes (bs.take 8)))).map fun i => (i, bs.drop 8)

/-- The instruction read from a word of nbits bits of the opcode table's numbering: the bits above nbits are 0, the bytes are
laid out little-endian (R3), and the sequencer's decoder reads them. -/
def decodeTableWord (nbits w : Nat) : Option Instr :=
  match decode (toBytes 8 (w % 2 ^ nbits)) with
  | .ok (i, _) => some i
  | .error _ => none

/-! ### The encoder -/

/-- The format-specific bits of a sequencer word (R63, R66, R67). -/
def encodeFields : Instr → BitVec 36
  | .read _ g => g ++ 0#31
  | .write _ g => g ++ 0#31
  | .null _ settle => 0#4 ++ settle
  | .mov _ => 0#4 ++ 0#32
  | .movi _ imm => imm
  | .movhi _ imm => 0#4 ++ imm
  | .adrb _ exit off => exit ++ off
  | .br _ exit off => exit ++ off
  | .brr _ => 0#4 ++ 0#32
  | .call _ exit off => exit ++ off
  | .callr _ => 0#4 ++ 0#32
  | .halt _ => 0#4 ++ 0#32
  | .yield _ exit off => exit ++ off
  | .add _ => 0#4 ++ 0#32
  | .addi _ imm => 0#4 ++ imm
  | .sub _ => 0#4 ++ 0#32
  | .subi _ imm => 0#4 ++ imm
  | .mul _ => 0#4 ++ 0#32
  | .muli _ imm => 0#4 ++ imm
  | .mulh _ => 0#4 ++ 0#32
  | .mulhu _ => 1#4 ++ 0#32
  | .div _ => 0#4 ++ 0#32
  | .divu _ => 1#4 ++ 0#32
  | .rem _ => 0#4 ++ 0#32
  | .remu _ => 1#4 ++ 0#32
  | .andW _ => 0#4 ++ 0#32
  | .andi _ imm => 0#4 ++ imm
  | .orW _ => 0#4 ++ 0#32
  | .ori _ imm => 0#4 ++ imm
  | .xorW _ => 0#4 ++ 0#32
  | .xori _ imm => 0#4 ++ imm
  | .shl _ => 0#4 ++ 0#32
  | .shli _ n => 0#4 ++ 0#26 ++ n
  | .shr _ => 0#4 ++ 0#32
  | .sra _ => 1#4 ++ 0#32
  | .shri _ n => 0#4 ++ 0#26 ++ n
  | .srai _ n => 1#4 ++ 0#26 ++ n
  | .ext _ lb wm => 0#4 ++ 0#18 ++ wm ++ 0#2 ++ lb
  | .exts _ lb wm => 1#4 ++ 0#18 ++ wm ++ 0#2 ++ lb
  | .clz _ => 0#4 ++ 0#32
  | .popc _ => 0#4 ++ 0#32
  | .min _ => 0#4 ++ 0#32
  | .minu _ => 1#4 ++ 0#32
  | .max _ => 0#4 ++ 0#32
  | .maxu _ => 1#4 ++ 0#32
  | .sextb _ => 0#4 ++ 0#32
  | .sexth _ => 1#4 ++ 0#32
  | .sextw _ => 2#4 ++ 0#32
  | .lea _ sc => 0#4 ++ 0#30 ++ sc
  | .teq _ => 0#4 ++ 0#32
  | .teqi _ imm => 0#4 ++ imm
  | .tne _ => 0#4 ++ 0#32
  | .tnei _ imm => 0#4 ++ imm
  | .tlt _ => 0#4 ++ 0#32
  | .tltu _ => 1#4 ++ 0#32
  | .tlti _ imm => 0#4 ++ imm
  | .tltiu _ imm => 1#4 ++ imm
  | .tle _ => 0#4 ++ 0#32
  | .tleu _ => 1#4 ++ 0#32
  | .tlei _ imm => 0#4 ++ imm
  | .tleiu _ imm => 1#4 ++ imm
  | .tgt _ => 0#4 ++ 0#32
  | .tgtu _ => 1#4 ++ 0#32
  | .tgti _ imm => 0#4 ++ imm
  | .tgtiu _ imm => 1#4 ++ imm
  | .tge _ => 0#4 ++ 0#32
  | .tgeu _ => 1#4 ++ 0#32
  | .tgei _ imm => 0#4 ++ imm
  | .tgeiu _ imm => 1#4 ++ imm
  | .tbit _ n => 0#4 ++ 0#26 ++ n
  | .mfs _ r => 0#4 ++ 0#20 ++ r.code
  | .mts _ ls r => ls ++ 0#2 ++ 0#5 ++ 0#12 ++ r.code
  | .mtsFmode _ ls => ls ++ 0#2 ++ 0#5 ++ 0#12 ++ 3#12
  | .mtsFflags _ ls => ls ++ 0#2 ++ 0#5 ++ 0#12 ++ 4#12
  | .mtsEpc _ ls => ls ++ 0#2 ++ 0#5 ++ 0#12 ++ 8#12
  | .trap _ code => 0#4 ++ 0#16 ++ code
  | .hret _ => 0#4 ++ 0#32
  | .ld _ ls sz off => ls ++ sz.code ++ 0#5 ++ off
  | .lds _ ls sz off => ls ++ sz.code ++ 0#5 ++ off
  | .st _ ls sz off => ls ++ sz.code ++ 0#5 ++ off
  | .ldf _ ls sz off => ls ++ sz.code ++ 0#5 ++ off
  | .stf _ ls sz off => ls ++ sz.code ++ 0#5 ++ off
  | .empty _ ls off => ls ++ 0#2 ++ 0#5 ++ off
  | .ldfTake _ ls sz g off => ls ++ sz.code ++ g ++ off
  | .waita _ ls g off => ls ++ 3#2 ++ g ++ off
  | .aadd _ ls wide g off => ls ++ 1#1 ++ BitVec.ofBool wide ++ g ++ off
  | .aswp _ ls wide g off => ls ++ 1#1 ++ BitVec.ofBool wide ++ g ++ off
  | .acas _ ls wide g off => ls ++ 1#1 ++ BitVec.ofBool wide ++ g ++ off
  | .aand _ ls wide g off => ls ++ 1#1 ++ BitVec.ofBool wide ++ g ++ off
  | .aor _ ls wide g off => ls ++ 1#1 ++ BitVec.ofBool wide ++ g ++ off
  | .axor _ ls wide g off => ls ++ 1#1 ++ BitVec.ofBool wide ++ g ++ off
  | .amin _ ls wide g off => ls ++ 1#1 ++ BitVec.ofBool wide ++ g ++ off
  | .amax _ ls wide g off => ls ++ 1#1 ++ BitVec.ofBool wide ++ g ++ off
  | .aminu _ ls wide g off => ls ++ 1#1 ++ BitVec.ofBool wide ++ g ++ off
  | .amaxu _ ls wide g off => ls ++ 1#1 ++ BitVec.ofBool wide ++ g ++ off
  | .fence _ scope => scope.code ++ 0#32
  | .sbar _ mask => 0#4 ++ 0#16 ++ mask
  | .sdef _ ls st off => ls ++ 0#2 ++ 0#1 ++ st ++ off
  | .sgo _ ls st => ls ++ 0#2 ++ 0#1 ++ st ++ 0#24
  | .sstop _ ls st => ls ++ 0#2 ++ 0#1 ++ st ++ 0#24
  | .cpy _ ls off => ls ++ 0#2 ++ 0#5 ++ off
  | .halo _ ls off => ls ++ 0#2 ++ 0#5 ++ off
  | .vcfmt _ ls port vc => ls ++ 0#2 ++ 0#5 ++ 0#17 ++ port ++ vc
  | .vcscl _ ls port reg => ls ++ 0#2 ++ 0#5 ++ 0#19 ++ port ++ reg
  | .run _ ls e cnt rep => ls ++ 0#2 ++ e.code ++ cnt ++ rep
  | .chr _ ls ch word => ls ++ 0#2 ++ 0#1 ++ ch ++ 0#17 ++ word
  | .chw _ ls ch tag last => ls ++ 0#2 ++ 0#1 ++ ch ++ 0#15 ++ BitVec.ofBool last ++ tag
  | .tokp _ ls e => ls ++ 0#2 ++ e.code ++ 0#24
  | .tokw _ ls e => ls ++ 0#2 ++ e.code ++ 0#24
  | .oclaim _ ls slot => ls ++ 0#2 ++ 0#1 ++ slot ++ 0#24
  | .orelease _ ls slot => ls ++ 0#2 ++ 0#1 ++ slot ++ 0#24
  | .ofill _ ls slot off => ls ++ 0#2 ++ 0#1 ++ slot ++ off
  | .mxq _ ls => ls ++ 0#2 ++ 0#5 ++ 0#24
  | .sema _ ls g sem cnt => ls ++ 0#2 ++ g ++ 0#2 ++ cnt ++ sem
  | .semp _ ls sem cnt => ls ++ 0#2 ++ 0#5 ++ 0#2 ++ cnt ++ sem
  | .semt _ sem => 0#4 ++ 0#26 ++ sem
  | .bara _ ls g gid => ls ++ 0#2 ++ g ++ 0#16 ++ gid
  | .barw _ ls gid => ls ++ 0#2 ++ 0#5 ++ 0#16 ++ gid
  | .bar _ ls gid => ls ++ 0#2 ++ 0#5 ++ 0#16 ++ gid
  | .barc _ ls gid => ls ++ 0#2 ++ 0#5 ++ 0#16 ++ gid
  | .gsid _ n => 0#4 ++ 0#30 ++ n
  | .gsize _ gid => 0#4 ++ 0#24 ++ gid
  | .grank _ gid => 0#4 ++ 0#24 ++ gid
  | .gmemb _ gid => 0#4 ++ 0#24 ++ gid
  | .enq _ ls q off => ls ++ 0#2 ++ 0#1 ++ q ++ off
  | .qstat _ q => 0#4 ++ 0#28 ++ q
  | .tlbi _ ls kind => ls ++ 0#2 ++ 0#5 ++ 0#22 ++ kind.code
  | .pmig _ ls => ls ++ 0#2 ++ 0#5 ++ 0#24
  | .lnkst _ port => 0#4 ++ 0#27 ++ port
  | .ctxq _ item => 0#4 ++ 0#28 ++ item.code
  | .ctxqClearFlags _ => 0#4 ++ 0#28 ++ 6#4
  | .idle _ _ => 0#36
  | .astAdd _ => 0#36
  | .astSub _ => 0#36
  | .astMul _ => 0#36
  | .astFma _ => 0#36
  | .astFms _ => 0#36
  | .astFnma _ => 0#36
  | .astMin _ => 0#36
  | .astMax _ => 0#36
  | .astAbs _ => 0#36
  | .astNeg _ => 0#36
  | .astCmpeq _ => 0#36
  | .astCmpne _ => 0#36
  | .astCmplt _ => 0#36
  | .astCmple _ => 0#36
  | .astSel _ => 0#36
  | .astMov _ => 0#36
  | .astAnd _ => 0#36
  | .astOr _ => 0#36
  | .astXor _ => 0#36
  | .astNot _ => 0#36
  | .astShl _ => 0#36
  | .astShr _ => 0#36
  | .astSra _ => 0#36
  | .astMulh _ => 0#36
  | .astMadd _ => 0#36
  | .astAdds _ => 0#36
  | .astSubs _ => 0#36
  | .astClamp _ => 0#36
  | .astRint _ => 0#36
  | .astClass _ => 0#36
  | .astCopysign _ => 0#36
  | .astScale _ => 0#36
  | .astAbsd _ => 0#36
  | .astAvg _ => 0#36
  | .astClz _ => 0#36
  | .astPopc _ => 0#36
  | .astFlagr _ => 0#36
  | .astFlagc _ => 0#36
  | .estExp _ => 0#36
  | .estExp2 _ => 0#36
  | .estExp10 _ => 0#36
  | .estExpm1 _ => 0#36
  | .estLog _ => 0#36
  | .estLog2 _ => 0#36
  | .estLog10 _ => 0#36
  | .estLog1p _ => 0#36
  | .estSin _ => 0#36
  | .estCos _ => 0#36
  | .estTan _ => 0#36
  | .estSinpi _ => 0#36
  | .estCospi _ => 0#36
  | .estAsin _ => 0#36
  | .estAcos _ => 0#36
  | .estAtan _ => 0#36
  | .estAtan2 _ => 0#36
  | .estSinh _ => 0#36
  | .estCosh _ => 0#36
  | .estTanh _ => 0#36
  | .estErf _ => 0#36
  | .estErfc _ => 0#36
  | .estSigmoid _ => 0#36
  | .estPow _ => 0#36
  | .estCbrt _ => 0#36
  | .estHypot _ => 0#36
  | .estRsqrt _ => 0#36
  | .estSqrt _ => 0#36
  | .estRcp _ => 0#36
  | .estDiv _ => 0#36
  | .estExpA _ => 0#36
  | .estExp2A _ => 0#36
  | .estExp10A _ => 0#36
  | .estLogA _ => 0#36
  | .estLog2A _ => 0#36
  | .estSigmoidA _ => 0#36
  | .estRsqrtA _ => 0#36
  | .estSqrtA _ => 0#36
  | .estRcpA _ => 0#36
  | .estDivA _ => 0#36
  | .estHardr _ => 0#36
  | .estFlagr _ => 0#36
  | .estFlagc _ => 0#36
  | .pstPermb _ => 0#36
  | .pstShuf _ => 0#36
  | .pstRotl _ => 0#36
  | .pstBcast _ => 0#36
  | .pstZip _ => 0#36
  | .pstUnzip _ => 0#36
  | .pstCvt _ => 0#36
  | .pstPackb _ => 0#36
  | .pstUnpackb _ => 0#36
  | .pstScan _ => 0#36
  | .pstReduce _ => 0#36
  | .pstCompact _ => 0#36
  | .pstExpand _ => 0#36
  | .pstIntersect _ => 0#36
  | .pstSteer _ => 0#36
  | .pstMerge _ => 0#36
  | .pstSegscan _ => 0#36
  | .pstIota _ => 0#36
  | .pstMaskgen _ => 0#36
  | .pstPopcm _ => 0#36
  | .pstTrn _ => 0#36
  | .pstInsl _ => 0#36
  | .pstExtl _ => 0#36
  | .pstSplit _ => 0#36
  | .pstTags _ => 0#36
  | .pstMarke _ => 0#36
  | .pstTagt _ => 0#36
  | .coldReset _ => 0#36
  | .blockFetch => 0#36
  | .blockIssue => 0#36
  | .blockCommit => 0#36
  | .blockMalformedDetect => 0#36
  | .serialiseIssue => 0#36
  | .runCheck _ => 0#36
  | .stripResultDue _ => 0#36
  | .stripWordIssue _ => 0#36
  | .secondPhaseRound => 0#36
  | .mxeTokenTake => 0#36
  | .mma _ => 0#36
  | .mmaz _ => 0#36
  | .mman _ => 0#36
  | .accz _ => 0#36
  | .accout _ => 0#36
  | .accin _ => 0#36
  | .mxeOperationRetire => 0#36
  | .accoutBeatPush => 0#36
  | .fillComplete _ => 0#36
  | .streamCommandTake _ => 0#36
  | .streamUnit _ => 0#36
  | .streamFrameEnd _ => 0#36
  | .streamCompletion _ => 0#36
  | .streamStopDone _ => 0#36
  | .gatherRow _ => 0#36
  | .vcDemandGrant _ _ => 0#36
  | .vcUnitSend _ _ => 0#36
  | .vcUnitReceive _ _ => 0#36
  | .routerFilterFrame _ _ => 0#36
  | .copyPacketStart _ => 0#36
  | .cpyCopy _ => 0#36
  | .cpyConv _ => 0#36
  | .cpyFill _ => 0#36
  | .cpyMcast _ => 0#36
  | .copyCompletion _ => 0#36
  | .copyPriorityAge _ => 0#36
  | .copyPacketFrame _ => 0#36
  | .permitUnit _ => 0#36
  | .haloDirectionComplete _ => 0#36
  | .haloSenderComplete => 0#36
  | .barrierArrival => 0#36
  | .barrierCountUpdate => 0#36
  | .barrierAdvanceNotice => 0#36
  | .sliceBankServe => 0#36
  | .reservationRetry => 0#36
  | .takeHeadTimeout _ => 0#36
  | .takeListGrant _ => 0#36
  | .waitaWake => 0#36
  | .waitaTimeout => 0#36
  | .bankReassign _ _ _ => 0#36
  | .pageWalk _ => 0#36
  | .shadowService => 0#36
  | .tlbiComplete => 0#36
  | .migrate => 0#36
  | .frameMove _ _ _ => 0#36
  | .faultTake _ => 0#36
  | .faultDelivery => 0#36
  | .escalate _ _ => 0#36
  | .deadlockDeclare _ => 0#36
  | .tilePreempt => 0#36
  | .tileClaimSave _ _ => 0#36
  | .tileResume _ => 0#36
  | .sliceExpiry _ => 0#36
  | .createContext _ => 0#36
  | .loadPolicy _ => 0#36
  | .grant _ => 0#36
  | .schedule _ => 0#36
  | .pause _ => 0#36
  | .pauseComplete _ => 0#36
  | .resume _ => 0#36
  | .evict _ => 0#36
  | .evictComplete _ => 0#36
  | .restore _ => 0#36
  | .restoreComplete _ _ => 0#36
  | .destroy _ => 0#36
  | .resetVf _ => 0#36
  | .functionLevelReset _ => 0#36
  | .scrubComplete _ => 0#36
  | .readCounter _ => 0#36
  | .maskFeature _ => 0#36
  | .submit _ => 0#36
  | .attest _ _ => 0#36
  | .seal _ _ => 0#36
  | .keyUpdate _ _ => 0#36
  | .bounceRecord _ _ _ => 0#36
  | .huskBeat _ _ => 0#36
  | .queueRecordDecode _ _ => 0#36
  | .queueArbitrate _ => 0#36
  | .launch _ _ _ => 0#36
  | .loadk _ _ _ => 0#36
  | .unloadk _ _ _ => 0#36
  | .waitmark _ _ _ => 0#36
  | .waitmarkRecheck _ _ => 0#36
  | .setmark _ _ _ => 0#36
  | .queueCopy _ _ _ => 0#36
  | .qbarrier _ _ _ => 0#36
  | .queueNop _ _ _ => 0#36
  | .markAdd _ _ => 0#36
  | .queueLevelAge _ _ => 0#36
  | .preload _ _ => 0#36
  | .budgetOverrun => 0#36
  | .instancePlace => 0#36
  | .instanceStart => 0#36
  | .tileFinish => 0#36
  | .instanceRetire => 0#36
  | .fabricNodeFinish _ => 0#36
  | .wavefrontReconfigure => 0#36
  | .plotSetPlace _ => 0#36
  | .hotSwap _ _ => 0#36
  | .libSteer _ => 0#36
  | .libMerge _ => 0#36
  | .packz _ => 0#36
  | .unpackz _ => 0#36
  | .sortk _ => 0#36
  | .route _ => 0#36
  | .sample _ => 0#36
  | .codec _ => 0#36
  | .seqgen _ => 0#36
  | .join _ => 0#36
  | .partnerDetect _ _ => 0#36
  | .portAttest _ _ => 0#36
  | .creditAdvertisement _ => 0#36
  | .portDrainRequest _ => 0#36
  | .portDrainEnd _ => 0#36
  | .portReenable _ => 0#36
  | .linkGroupReceive _ _ => 0#36
  | .linkRetryLimit _ => 0#36
  | .linkKeyUpdate _ => 0#36
  | .linkFlitSend _ => 0#36
  | .switchIndexAssign _ _ _ => 0#36
  | .sessionOpen _ _ _ => 0#36
  | .sessionAbort _ _ => 0#36
  | .sessionPortTimeout _ _ => 0#36
  | .linkStreamUnits _ _ _ _ _ _ => 0#36
  | .linkDemandGrant _ _ _ _ _ => 0#36
  | .linkReadRequest _ _ _ _ => 0#36
  | .linkReadResponse _ _ _ => 0#36
  | .linkWrite _ _ _ _ _ => 0#36
  | .linkAtomic _ _ _ _ _ _ _ => 0#36
  | .linkAtomicResult _ _ _ => 0#36
  | .linkWriteCompletion _ _ => 0#36
  | .linkFaultReply _ _ _ _ => 0#36
  | .linkAbort _ _ => 0#36
  | .sensorTrip _ => 0#36
  | .powerSample _ => 0#36
  | .islandFrequencyChange _ _ => 0#36
  | .patrolScrub _ _ => 0#36
  | .configReadback _ _ => 0#36
  | .tileMapOut _ _ => 0#36
  | .firmwareStage _ _ _ => 0#36
  | .hbmAccessPerformed => 0#36
  | .pcieCompletion _ => 0#36
  | .tenantPlotSetFiring _ => 0#36

/-- A sequencer word from its fields (R61). -/
def SeqFields.toWord (x : SeqFields) : W64 := x.op ++ x.pm ++ x.t0 ++ x.t1 ++ x.f

/-- A strip word (R73). -/
def SWord.toWord (op : BitVec 8) (w : SWord) : W64 :=
  op ++ w.pop ++ w.push ++ w.rm ++ w.ty ++ w.d ++ w.a ++ w.b ++ w.c ++ w.imm

/-- A control token (R238). -/
def MTok.toWord (op : BitVec 4) (k : MTok) : W64 :=
  op ++ k.fa ++ k.fb ++ k.sa ++ k.sb ++ k.acc ++ k.ra ++ k.rb ++ k.rnd ++ k.kcnt ++ k.pop ++ k.push ++ k.nsrc ++ k.nch
    ++ k.dch ++ k.ofmt ++ k.sat ++ k.lenfault ++ k.tag

/-- The fields of a sequencer word (R61). -/
def seqFields (i : Instr) (h : Head) (m : SeqMeta) : SeqFields :=
  ⟨m.op, h.pred.code, targetCode h.t0, targetCode h.t1, encodeFields i⟩

/-- The word of an instruction; a step that is no word encodes as 0, which is no word of any map (R82). -/
def encode (i : Instr) : W64 :=
  match i.shape with
  | .seq h m => (seqFields i h m).toWord
  | .strip _ op w => w.toWord op
  | .token op k => k.toWord op
  | .step => 0

end Sys2Proof
end

