-- ==== Sys2Proof/Config.lean ====
section
/-! DEFINITION. What the spec leaves open or leaves to a device, as constants with no body. Each is named in a log entry. -/

namespace Sys2Proof.Config

/-- Whether a fetch takes the word that the block cache keeps, by step and by the words that follow (R43, log 34). -/
opaque useKept : Nat → Nat → Bool
/-- Cycles of a clock that pass in a step (log 4): the spec fixes no duration of a step. The clocks are the islands (0 to 15), the fabric's
clock generators (16 to 47), and one for what stands on no tile (48). -/
opaque cycles : Nat → Nat → BitVec 64
/-- The part of the fast value of the E-strip that R222 does not give: whether an element that lies within the bounds of
R222 is hard, by opcode, type, mode and operands (log 13). -/
opaque hard : BitVec 8 → BitVec 4 → BitVec 3 → BitVec 64 → BitVec 64 → Bool
/-- Which of the accesses that the copies of an engine, or the HALOs of a tile, may make next is made, by step: the spec orders neither the
accesses of one packet nor those of packets of different FIFOs (R177-R179, R186, log 15). -/
opaque copyPick : Nat → Nat
/-- Which of the reads that a RUN check or a fill may make next is made, by step: the spec does not order them (R188, R237, log 83). -/
opaque readPick : Nat → Nat
/-- The copy-engine input to which a fabric operator's output leads that no edge of its graph carries: the engine of its die, whether to a
permit counter or to the packet input, and the counter; by the kernel's digest, the node and the port (R180, log 15). -/
opaque fabricEngine : BitVec 384 → BitVec 16 → Nat → Option (Fin 6 × Option (BitVec 5))
/-- The entry of a contiguous group whose entry a translation uses: index 0-31 (R347, log 16). -/
opaque groupEntry : Nat → BitVec 5
/-- Whether an indirect stream reads a further index before its next unit, by step (R168, log 21). -/
opaque readAhead : Nat → Bool
/-- sr.info of a fault for which the spec gives no content, by the step in which it arises (log 20). -/
opaque openInfo : Nat → BitVec 64
/-- A unit for which the spec gives no value, by step: a data unit that UNPACKZ lacks, the tag of a JOIN unit (R312, log 20). -/
opaque openUnit : Nat → BitVec 144
/-- The high halves of the units of an ACCOUT frame in i4, by step: the spec makes each element a unit, which has room for two (R162, R245,
log 20). -/
opaque openHalves : Nat → BitVec 4096
/-- The rank of a unit of a format for which SORTK and ROUTE have no order: i4 pairs and block formats (R312, log 20). -/
opaque unitRank : BitVec 4 → BitVec 144 → Nat
/-- What the bitstream of a tenant plot set does with its inputs (R298, R310, log 17): the digest of its image, the count of its
firings, the first unit of every input that holds one, and the bytes of its plots' block RAM that are not 0, by plot and offset, give the
inputs it takes a unit of, the units it emits by port, whether a frame is then in hand, and the bytes it writes into its block RAM, by plot
and offset; none where an input that it needs holds no unit. -/
opaque tenantFire : BitVec 384 → Nat → List (Nat × LinkUnit) → List (List (Nat × BitVec 8)) →
  Option (List Nat × List (Nat × LinkUnit) × Bool × List (Nat × Nat × BitVec 8))
/-- Ticks of the PCIe reference clock that pass in a step (R258, log 4). -/
opaque refTicks : Nat → BitVec 64
/-- The limits of the draw of a part made of a count of dies other than four, above which and below which it is stepped (R2, R397, log 69). -/
opaque partDraw : Nat → Nat × Nat
/-- Whether a die passes its self-test in a cold reset, by step and die (R396, R400, log 17). -/
opaque selfTest : Nat → Nat → Bool
/-- Ticks of the PCIe reference clock in 100 µs (R258, log 4). -/
opaque refPeriod : Nat
/-- The rounding of a CONV packet with rounding 000 that no tile released, so that no sr.fmode is captured: a mode code less
1, by step (R176, log 15). -/
opaque openMode : Nat → Fin 5
/-- The 64-bit handle drawn as the n-th since a cold reset (R255, log 11). -/
opaque handle : Nat → BitVec 64
/-- The n-th key Hazel draws (R262, log 11). -/
opaque drawnKey : Nat → BitVec 256
/-- AES-GCM opening: key, 96-bit IV, authenticated data, ciphertext and tag give the plaintext, or none when the tag
fails (R273, R280, R363, log 9). -/
opaque gcmOpen : BitVec 256 → BitVec 96 → List (BitVec 8) → List (BitVec 8) → BitVec 128 → Option (List (BitVec 8))
/-- AES-GCM sealing: key, 96-bit IV, authenticated data and plaintext give the ciphertext and the tag (R273, log 9). -/
opaque gcmSeal : BitVec 256 → BitVec 96 → List (BitVec 8) → List (BitVec 8) → List (BitVec 8) × BitVec 128
/-- The 32-bit channel and direction number of a bounce channel (true: from the device) (R273, log 9). -/
opaque bounceNumber : BitVec 2 → Bool → BitVec 32
/-- ECDSA over the 384-bit Brainpool curve with SHA-384: the SHA-384 of the public key recovered from a signature and a
digest, or none when no key verifies (R90, R259, R300, log 9). -/
opaque signerOf : BitVec 384 → BitVec 768 → Option (BitVec 384)
/-- The tenant public key that a policy's bytes carry, as its SHA-384 (R259, log 10). -/
opaque policyTenant : List (BitVec 8) → BitVec 384
/-- The fields of a policy read from its bytes; the spec gives no byte layout (R259, log 10). The numbers are, in order:
tiles, plots, HBM units, features, counter allow-list, queue priority bound, share ceiling, frequency floor in MHz. -/
opaque policyNumbers : List (BitVec 8) → List Nat
/-- The digest lists of a policy read from its bytes: checkpoint targets, plot-set signers, kernel signers (log 10). -/
opaque policyDigests : List (BitVec 8) → List (List (BitVec 384))
/-- The link-peer entries of a policy: identity, send, receive; none where absent (log 10). -/
opaque policyPeers : List (BitVec 8) → List (Option (BitVec 384 × Bool × Bool))
/-- Whether Hazel's SPDM attestation of the checkpoint target with this identity succeeds, at a step (R256, R268, log 9). -/
opaque targetAttests : BitVec 384 → Nat → Bool
/-- The key digest of Aeleo's library key (R298, log 9). -/
opaque libraryKey : BitVec 384
/-- The signature with the package identity key over a measurement, a state (numbered as the states of a context stand in its type) and
a nonce (R261, log 9). -/
opaque attestSign : BitVec 384 → Nat → BitVec 256 → BitVec 768
/-- The digest of a SEAL message that its signature covers (R261, log 9). -/
opaque sealDigest : SealMsg → BitVec 384
/-- A measurement asked for before there is a policy and a grant, for which the spec gives no value, by step (R261, log 20). -/
opaque openDigest : Nat → BitVec 384
/-- The physical tiles and plots (4,096 and their index) through which the route from one of them to another passes (R263, log 17). -/
opaque routeThrough : Nat → Nat → List Nat
/-- The number of the route between two of them, where it is sealed (R263, log 17). -/
opaque huskRoute : Nat → Nat → BitVec 32
/-- The records of 1 MiB of a checkpoint that hold the save area, the queues and the link sessions, whose layout the spec does not give, by step
(R268, log 65). -/
opaque savedRecords : Nat → List (List (BitVec 8))
/-- Which of the contexts that have the session open with the package a message is of, where its header leaves more than one: Hazel knows it from
what it exchanges with its peer, which the spec does not give; by step and message (R365, R369, log 81). -/
opaque peerContext : Nat → Nat → Nat
/-- The length in flits, less 1, of a message of a kind with these operands (R369, log 80). -/
opaque msgLen : Nat → List (BitVec 64) → Fin 64
/-- Bits 63:21 of the header of a message, which depend on the kind (R369, log 80). -/
opaque msgBits : Nat → List (BitVec 64) → BitVec 43
/-- The k-th flit of a message; that of the first flit stands above its header (R369, log 80). -/
opaque msgData : Nat → List (BitVec 64) → Nat → BitVec 1024
/-- The link key of a peer package, by the count of its key updates and the direction (true: received) (R362, log 9). -/
opaque linkKey : BitVec 384 → Nat → Bool → BitVec 256
/-- The direction identifier of a direction of a port, by peer (true: received) (R363, log 9). -/
opaque linkDirection : Nat → BitVec 384 → Bool → BitVec 32
/-- The identity digest of this package (R362, log 9). -/
opaque packageId : BitVec 384

end Sys2Proof.Config
end

