-- ==== Sys2Proof/Machine/State.lean ====
section
/-! DEFINITION. The state of one Tiryel T9 package as the spec gives it, as plain data, and the state after a cold reset.
Field docstrings name the rule of spec/ that gives the field. -/

namespace Sys2Proof.Machine

/-- Why the machine stops. -/
inductive Fault where
  /-- Raised by a meaning that acts on the tile in focus when no tile is in focus (no instance is placed, or the focus
  names none): the part has no sequencer there to execute the word. Safe. -/
  | noTile
deriving DecidableEq, Repr

/-- Why a step has no meaning. -/
inductive Refusal where
  /-- Raised only by an arm of exec for an instruction whose meaning is not written. Safe. -/
  | notModelled (mnemonic : String)
deriving DecidableEq, Repr

/-- A byte-addressed memory: the listed bytes, by strictly rising address, none of them 0; every other byte reads 0
(R400 step 3, R304). -/
structure Mem where
  cells : List Host.Cell
deriving DecidableEq, Repr

/-- A beat of a channel with its sideband (R51). -/
structure ChanEntry where
  data : Beat
  tag : Byte
  last : Bool
deriving DecidableEq, Repr

/-- One internal channel (R51): bound producer and consumer (engine ids of R25, 0 unused), the VC it is linked to (R297),
its entries from the head, and whether it is surplus (R196). -/
structure Channel where
  producer : BitVec 3
  consumer : BitVec 3
  link : Option (BitVec 2 × BitVec 5)
  entries : List ChanEntry
  surplus : Bool
deriving DecidableEq, Repr

/-- A token in an operand slot (R29). -/
inductive Tok where
  | value (v : W64)
  | null
deriving DecidableEq, Repr

/-- The operand slots of one instruction slot, and whether it has fired. -/
structure SlotSt where
  left : Option Tok
  right : Option Tok
  pred : Option Tok
  fired : Bool
deriving DecidableEq, Repr

/-- The home of a location (R134): a logical tile's slice, HBM by device physical address, host memory, or the memory of
a peer reached by a session (R370). -/
inductive Loc where
  | slice (tile : Nat) (off : Nat)
  | hbm (pa : Nat)
  | host (h : Nat)
  | remote (sess : BitVec 5) (va : W64)
deriving DecidableEq, Repr

/-- What a side-effecting instruction that fired normally releases at commit (R37); barAt is a BAR whose arrival the barrier table
has answered with the phase joined (R337). -/
inductive Eff where
  | store (loc : Loc) (n : Nat) (data : W64)
  | storeFull (loc : Loc) (n : Nat) (data : W64)
  | empty (loc : Loc)
  | take (loc : Loc) (n : Nat) (g : BitVec 5)
  | atomic (op : AtomicOp) (loc : Loc) (n : Nat) (b : W64) (c : W64) (g : BitVec 5)
  | waita (loc : Loc) (cmp : W64) (g : BitVec 5)
  | sema (g : BitVec 5) (sem : BitVec 6) (cnt : BitVec 16)
  | semp (tile : Nat) (sem : BitVec 6) (cnt : BitVec 16)
  | bara (gid : BitVec 8) (g : BitVec 5)
  | bar (gid : BitVec 8)
  | barAt (gid : BitVec 8) (p : W32)
  | barw (gid : BitVec 8) (p : W32)
  | barc (gid : BitVec 8) (n : Nat)
  | mts (r : PlainSReg) (v : W64)
  | mtsFmode (v : W64)
  | mtsFflags (v : W64)
  | mtsEpc (v : W64)
  | sdef (st : BitVec 4) (va : W64)
  | sgo (st : BitVec 4)
  | sstop (st : BitVec 4)
  | cpy (va : W64)
  | halo (va : W64)
  | vcfmt (port : BitVec 2) (vc : BitVec 5) (v : W64)
  | vcscl (port : BitVec 2) (reg : BitVec 3) (v : W64)
  | run (e : StripId) (addr : W64) (kload : Bool) (cnt : Nat) (rep : Nat)
  | chr (ch : BitVec 4)
  | chw (ch : BitVec 4) (v : W64) (tag : Byte) (last : Bool)
  | tokp (e : Partner)
  | tokw (e : Partner)
  | oclaim (slot : BitVec 4)
  | orelease (slot : BitVec 4)
  | ofill (slot : BitVec 4) (va : W64)
  | mxq (tok : W64)
  | enq (q : BitVec 4) (va : W64)
  | tlbi (kind : InvKind) (va : W64)
  | pmig (va : W64) (d : W64) (leafIpa : Nat)
deriving DecidableEq, Repr

/-- A side-effecting instruction that fired normally: its LSID, its slot, its effect, the address it formed, and the IPA to which that led
when it fired, for the page fault record of a store that the host refuses (R355). -/
structure Fired where
  ls : BitVec 5
  slot : Nat
  eff : Eff
  va : W64
  ipa : W64
deriving DecidableEq, Repr

/-- The branch that fired (R65, R115, R132). -/
inductive Branch where
  | to (va : W64)
  | yield (va : W64)
  | halt
  | hret
deriving DecidableEq, Repr

/-- A block in execution (R27-R41): its header, words and operand slots, what has been settled so far, the LSIDs of the loads that have
fired, with where each that fired normally read, whether its check phase holds some reservations and not all (R140), and, once its
check phase has passed, the effects its perform phase has still to release. -/
structure Block where
  header : W64
  hdr : BitVec 128
  words : List W64
  slots : List SlotSt
  issued : Bool
  settled : List (BitVec 5 × Bool)
  loads : List (BitVec 5 × Option Loc)
  effs : List Fired
  writes : List (BitVec 5 × Option W64)
  branch : Option Branch
  trap : Option (BitVec 16)
  fence : Option Scope
  sbar : BitVec 16
  clearFlags : BitVec 5
  checking : Bool
  perform : Option (List Fired)
deriving DecidableEq, Repr

/-- What the sequencer is parked on (R40, R157, R337): a WAITA with the home and slice offset of
its word, the g register of its reason, its timeout
and how long it has waited, and the wake that has arrived; or a BAR with its group and the phase joined. -/
inductive Park where
  | waita (tile : Nat) (off : Nat) (g : BitVec 5) (limit : Nat) (waited : Nat) (wake : Option (BitVec 3))
  | bar (gid : BitVec 8) (phase : W32)
deriving DecidableEq, Repr

/-- A pending fault of class A (R383). -/
structure PFault where
  code : Byte
  engine : BitVec 3
  info : W64
  page : Option (BitVec 192)
deriving DecidableEq, Repr

/-- The pending faults of a tile (R383). -/
structure Pend where
  streams : List (BitVec 4 × PFault)
  strq : List PFault
  ast : Option PFault
  est : Option PFault
  pst : Option PFault
  mxe : Option PFault
  eng0 : List PFault
deriving DecidableEq, Repr

/-- The sequencer of a tile (R27-R45, R117): the address it fetches next, the block in execution, the tile cycle in hand: the slots that
were ready when it began and are still to be tried, with how many of them may still issue (R44, log 23), the park, the park that a fault left in force
while its handler runs (R385), whether its HALT
committed, whether it has reported finished, whether it has started, the wait of a TLBI (R357), the FENCE of the last
committed block (R160), the pending faults and the engine (with the fault's code) whose fault the handler serves (R386). -/
structure Seq where
  next : W64
  block : Option Block
  turn : Option (List Nat × Nat)
  park : Option Park
  outer : Option Park
  halted : Bool
  finished : Bool
  started : Bool
  invWait : Bool
  fence : Option Scope
  pend : Pend
  service : Option (BitVec 3 × Byte)
deriving DecidableEq, Repr

/-- The special registers of R122 that are plain words; sr.fflags is composed of the engines' flags (R124) and
sr.ltid and sr.ninst follow from the tile's place in its instance. -/
structure SRegs where
  ctx : W64
  fmode : W64
  hvec : W64
  cause : W64
  info : W64
  epc : W64
  cycle : W64
  feat : W64
  wto : W64
deriving DecidableEq, Repr

/-- A RUN released and not yet started (R187, R188): code address, kload, word and repeat counts, captured sr.fmode, the words that its check
has read so far, by VA, the code and constants of a check that has passed (the kept copies are the code store of R190), and the fault of a
check that failed. -/
structure RunReq where
  addr : W64
  kload : Bool
  cnt : Nat
  rep : Nat
  mode : W64
  part : List (W64 × W64)
  checked : Option (List W64 × BitVec 256)
  bad : Option PFault
deriving DecidableEq, Repr

/-- The RUN in progress (R189): its address, words, pass left, position, captured mode. -/
structure Run where
  base : W64
  words : List W64
  left : Nat
  pos : Nat
  mode : W64
deriving DecidableEq, Repr

/-- How the value of a word in flight is found in its due cycle (R194, R204, R226). -/
inductive FlightKind where
  | value | flagr | hardr (clr : Bool)
deriving DecidableEq, Repr

/-- One output of a word: destination operand code, beat, tag and end bit (R74, R195). -/
structure Out where
  dst : BitVec 6
  data : Beat
  tag : Byte
  last : Bool
deriving DecidableEq, Repr

/-- A strip word in flight (R194): the schedule cycle in which it is due, its outputs, the flags it raises per lane, the
FIFO it pushes, its address, hard elements per quarter and whether the second phase has rounded them (R224), whether it met a
length mismatch (R196), the tags of a failed TAGT (R210), and whether its type is f64. -/
structure Flight where
  due : Nat
  kind : FlightKind
  outs : List Out
  flags : BitVec 960
  push : BitVec 3
  addr : W64
  hard : List Nat
  rounded : Bool
  mode : W64
  lenmis : Bool
  tagt : Option (Byte × Byte)
  wide : Bool
deriving DecidableEq, Repr

/-- A strip (R190): v and k registers, lane flags (5 bits a lane, lane 0 lowest), pending RUNs, the RUN in progress, the
schedule cycle in which its issue slot frees, the word selected for this schedule cycle with its address and captured mode, the
words in flight in issue order, the hard counters (E-strip, R226), and whether a fault stops it (R198, R386). -/
structure Strip where
  v : Vector Beat 8
  k : Vector W32 8
  flags : BitVec 960
  queue : List RunReq
  run : Option Run
  free : Nat
  cur : Option (W64 × W64 × W64)
  flight : List Flight
  hard : Vector W32 4
  stopped : Bool
  checkFault : Bool
deriving DecidableEq, Repr

/-- The logical state of an operand slot (R234). -/
inductive SlotLogic where
  | free | claimed | loaded
deriving DecidableEq, Repr

/-- An operand slot (R233, R234), whether its last fill failed, and the words that the fill in hand has written (R237). -/
structure OpSlot where
  logic : SlotLogic
  image : SlotImage
  failed : Bool
  filled : List Nat
deriving DecidableEq, Repr

/-- A control token with its order point (R235) and which slots were Loaded there. -/
structure QTok where
  tok : W64
  ord : Nat
  loaded : BitVec 16
deriving DecidableEq, Repr

/-- Slot work released and not yet done (R235): claims, releases and fills. -/
inductive MxWork where
  | claim (slot : BitVec 4)
  | release (slot : BitVec 4)
  | fill (slot : BitVec 4) (va : W64)
deriving DecidableEq, Repr

/-- The token the MXE holds before its issue (R242, R245): where it came from (none: the queue), and for an ACCIN whether it has
popped its FIFO and how many beats it has taken. -/
structure Held where
  q : QTok
  src : Option (BitVec 4)
  popped : Bool
  taken : Nat
deriving DecidableEq, Repr

/-- Something that falls due of a token that has issued (R243-R245): the schedule cycle, the token, an accumulator to write, a beat
to push, the flags and saturation to raise, and whether the token retires with it. -/
structure MxDue where
  due : Nat
  q : QTok
  acc : Option (BitVec 3 × AccImage)
  beat : Option (BitVec 4 × ChanEntry)
  flags : BitVec 5
  sat : Bool
  retire : Bool
deriving DecidableEq, Repr

/-- The matrix engine (R233-R248): slots, accumulators, token queue, current source (none: the queue), the tokens left in
a taken beat, the held token, what is due of issued tokens, the schedule cycle in which the last occupancy ends, slot work in order,
the order counter, flags and saturation flag (R112), stopped by a fault. -/
structure Mxe where
  slots : Vector OpSlot 16
  accs : Vector AccImage 8
  queue : List QTok
  src : Option (BitVec 4)
  beat : List W64
  held : Option Held
  pipe : List MxDue
  nextAt : Nat
  work : List (Nat × MxWork)
  ord : Nat
  flags : BitVec 5
  sat : Bool
  stopped : Bool
deriving DecidableEq, Repr

/-- How far the schedule cycle in hand has come (R48): it may still be stopped as a whole; results are being delivered; words issue. -/
inductive SchedPhase where
  | start | due | issue
deriving DecidableEq, Repr

/-- The states of a stream (R163). -/
inductive StrState where
  | empty | defined | running | faulted
deriving DecidableEq, Repr

/-- A queued stream command (R164); bad is an SDEF whose descriptor could not be read (R184). -/
inductive StrCmd where
  | sdef (d : Rec64)
  | sgo
  | bad (f : PFault)
deriving DecidableEq, Repr

/-- Where a Running stream stands (R168-R170): units issued, the node, its number and the unit within it (linked), the indices read and
not used up (indirect, gather), the gather parameter block, the units of a gather's row that are fetched and not yet in a beat, whether the
frame's pop is done, units of the beat in hand, beats of the frame taken and whether the last carried an end bit, slice granules the frame
wrote (or, reading, the walk found full), whether it discards beats to the next end, and what remains to do: the end of a frame, its token,
the completion. -/
structure Walk where
  n : Nat
  node : W64
  num : Nat
  j : Nat
  ahead : List W64
  gather : Option Rec64
  row : List (BitVec 144)
  popped : Bool
  beat : List (BitVec 144)
  beats : Nat
  sawEnd : Bool
  wrote : List (Nat × Nat)
  skip : Bool
  frameDone : Bool
  tokenDue : Bool
  walkDone : Bool
deriving DecidableEq, Repr

/-- A stream context (R163, R164). -/
structure Stream where
  st : StrState
  queue : List StrCmd
  desc : Rec64
  walk : Walk
  stopping : Bool
deriving DecidableEq, Repr

/-- A stream port VC (R171-R174), outbound or inbound: its entry; the entry and scale value current for the outbound frame
crossing it; units of that frame taken from beats; beats of a stream endpoint; units waiting to be sent, held for a filter, and
ready with their format; demand granted and not used (inbound); units arrived with their format; units converted and not yet packed; the
entry and scale value current for the inbound frame, the position in it, the units of the beat in assembly, their tag (outbound:
the frame's tag), and source units that do not yet make a whole converted unit. -/
structure Vc where
  entry : W64
  cur : Option (W64 × W32)
  sent : Nat
  feed : List ChanEntry
  pend : List LinkUnit
  filt : List LinkUnit
  ready : List (BitVec 4 × LinkUnit)
  granted : Nat
  arrived : List (BitVec 4 × LinkUnit)
  made : List LinkUnit
  inCur : Option (W64 × W32)
  pos : Nat
  pack : List (BitVec 144)
  packTag : Byte
  conv : List LinkUnit
deriving DecidableEq, Repr

/-- An installed router filter entry (R175, R297). -/
structure Filter where
  port : BitVec 2
  vc : BitVec 5
  entry : BitVec 7
  kind : BitVec 2
  fmt : BitVec 4
  sat : Bool
deriving DecidableEq, Repr

/-- A watch of a parked WAITA at a granule (R157, R159). -/
structure Watch where
  granule : Nat
  tile : Nat
deriving DecidableEq, Repr

/-- An entry of a take list (R155): the granule, the tile, and the tile cycles since the home granted it the take. -/
structure Take where
  granule : Nat
  tile : Nat
  granted : Option Nat
deriving DecidableEq, Repr

/-- A store committed and not yet performed at its home (R144): kind of release and location; of a plain one, the VA as formed and, to host
memory, the IPA. -/
inductive PStore where
  | plain (loc : Loc) (n : Nat) (data : W64) (va ipa : W64)
  | full (loc : Loc) (n : Nat) (data : W64)
  | empty (loc : Loc)
deriving DecidableEq, Repr

/-- How far a copy has come (R177, R178): the units still to be read, by number; what the units that have been read write; the aligned 8 B
words still to be written, by VA; the granules that it writes whole and has written in part, by VA, with their homes; and, where it marks
granules full, those it has written to and those of them that it has marked. -/
structure CopyJob where
  unread : List Nat
  got : List (Nat × List Byte)
  unwritten : List W64
  part : List (W64 × Loc)
  wrote : List (Nat × Nat)
  marked : List (Nat × Nat)
deriving DecidableEq, Repr

/-- A HALO released (R183): its descriptor and the VA it was read from; once it has begun, how far each direction that is not complete has
come; and whether its sender's completion has taken place. -/
structure Halo where
  desc : Rec64
  va : W64
  left : Option (List (Dir × CopyJob))
  sent : Bool
deriving DecidableEq, Repr

/-- An increment held for a saved tile (R324): semaphore, amount, source for R326. -/
structure Inc where
  sem : BitVec 6
  add : BitVec 16
  source : BitVec 16
deriving DecidableEq, Repr

/-- Whether a tile runs, or holds resident state, or is saved (R264, R266). -/
inductive Place where
  | running | resident | saved
deriving DecidableEq, Repr

/-- A tile of an instance, by its logical id; since is the step at which it last stopped (R266), spot what CTXQ item 0 gives until its next
resume (R276), kept is what its block cache holds of words outside its own slice (R43, R44); served is how many ticks of the reference
clock it has run since it was last placed, none once Hazel's schedule has stopped it (R258). -/
structure Tile where
  phys : Nat
  place : Place
  since : Nat
  resumes : Nat
  spot : W64
  node : BitVec 16
  coarse : Bool
  slice : Mem
  full : List Nat
  bad : List Nat
  watches : List Watch
  wakes : List Watch
  takes : List Take
  reserved : List (Loc × Nat)
  sbuf : List PStore
  kept : List (Loc × W64)
  g : Vector W64 32
  sr : SRegs
  lenmis : Bool
  xflags : BitVec 5
  sem : Vector (BitVec 16) 64
  heldInc : List Inc
  fifo : Vector (BitVec 4) 30
  chan : Vector Channel 16
  vc : Vector Vc 128
  scale : Vector W32 32
  filters : List Filter
  gslot : Vector W64 4
  seq : Seq
  cyc : Nat
  phase : SchedPhase
  ast : Strip
  est : Strip
  pst : Strip
  mxe : Mxe
  stream : Vector Stream 16
  halos : List Halo
  phases : List (BitVec 8 × W32)
  pageSeq : W64
  runCycles : Nat
  served : Option Nat
deriving DecidableEq, Repr

/-- The state of one barrier (R332). -/
structure Bar where
  phase : W32
  count : Nat
  arrived : List Nat
  expected : Nat
deriving DecidableEq, Repr

/-- An update on its way to the barrier table (R333, R338). -/
inductive BarMsg where
  | arrive (gid : BitVec 8) (tile : Nat)
  | count (gid : BitVec 8) (tile : Nat) (n : Nat)
deriving DecidableEq, Repr

/-- A node record of the graph (R91) with the first logical id of a tile operator (R304). -/
structure Node where
  id : BitVec 16
  fabric : Bool
  rows : Nat
  cols : Nat
  entry : Nat
  first : Nat
deriving DecidableEq, Repr

/-- An edge record of the graph (R91). -/
structure Edge where
  src : BitVec 16
  srcPort : Byte
  dst : BitVec 16
  dstPort : Byte
  fmt : BitVec 4
  frame : Nat
  depth : Nat
  init : Nat
  initData : BitVec 32
deriving DecidableEq, Repr

/-- A plot set that a FABRIC entry names (R298): library id (0 for a tenant plot set), parameters, ports, plots, highest
clock, stateful, the digest of its image, and the image, which Acorn verifies again as it loads it (R20). -/
structure PlotSet where
  library : Byte
  image : Digest
  bits : List Byte
  params : BitVec 384
  ports : Nat
  plots : Nat
  fmax : Nat
  stateful : Bool
deriving DecidableEq, Repr

/-- A fabric input (R310): its edge format, units arrived with their formats, demand granted and not used, and whether it discards to the next end. -/
structure FabIn where
  fmt : BitVec 4
  units : List (BitVec 4 × LinkUnit)
  granted : Nat
  window : Nat
  surplus : Bool
deriving DecidableEq, Repr

/-- A fabric operator of an instance (R298, R310-R312): inputs by port, units emitted and not yet sent by port, the units that it
holds (a STEER by output, others by input), frame bookkeeping, frames done, the block RAM of its plots (R13, R14), plots it stands on, whether it
stands, is stopped for an error, is stopping or stopped for a pause or a pre-emption (the fabric cycles since then, R265) and since
which step, how long it has run as a tile's served says, has finished. What a plot set that stands on no plots holds lies in its context's save area. -/
structure FabNode where
  id : BitVec 16
  set : PlotSet
  ins : List (Nat × FabIn)
  outs : List (Nat × BitVec 4 × LinkUnit)
  heldUnits : List (Nat × BitVec 4 × LinkUnit)
  took : List Nat
  inFrame : Bool
  frames : Nat
  ram : List Mem
  plots : List Nat
  gen : Option Nat
  placed : Bool
  stopped : Bool
  pre : Option Nat
  since : Nat
  served : Option Nat
  finished : Bool
deriving DecidableEq, Repr

/-- The states of an instance (R295); submitted: the LAUNCH waits for placement; placing: the allocator has placed its tiles, and Acorn not
yet all its plot sets. -/
inductive InstState where
  | submitted | placing | placed | running | draining | retired
deriving DecidableEq, Repr

/-- A kernel under a kernel reference (R293, R294): digest, the kernel id that the verifier reports (R89), the queues that hold references, and what verification read. -/
structure Kernel where
  digest : Digest
  id : W64
  refs : List (BitVec 4)
  nodes : List Node
  edges : List Edge
  sets : List PlotSet
  groups : List (BitVec 8 × List Nat)
  run : List Byte
  base : Nat
  const : List Byte
deriving DecidableEq, Repr

/-- A kernel instance (R295, R317, R331, R332); ord is the order of its LAUNCH among the packets of its queue that have started, escalated
whether a fault of it has escalated, so that its engine work is discarded (R390). -/
structure Inst where
  tag : Byte
  queue : BitVec 4
  kernel : Kernel
  launch : W32
  budget : Nat
  ord : Nat
  args : List W64
  st : InstState
  tiles : List Tile
  nodes : List FabNode
  groups : List (BitVec 8 × List Nat)
  bars : List (BitVec 8 × Bar)
  barMsgs : List BarMsg
  notices : List (BitVec 8 × Nat × W32)
  permits : List (Nat × Nat × Nat)
  escalated : Bool
deriving DecidableEq, Repr

/-- The states of a context (R252). -/
inductive CtxState where
  | building | sealed | running | paused | evicted | destroyed
deriving DecidableEq, Repr

/-- A tenant's policy (R259). -/
structure Policy where
  digest : Digest
  tenant : Digest
  tiles : Nat
  plots : Nat
  hbm : Nat
  features : Byte
  allow : W64
  targets : List Digest
  peers : List (Option (Digest × Bool × Bool))
  plotSigners : List Digest
  kernelSigners : List Digest
  bound : Nat
  share : Nat
  floor : Nat
deriving DecidableEq, Repr

/-- What GRANT reserved (R256): tiles, plots, HBM in units of 2 MiB. -/
structure Grant where
  tiles : Nat
  plots : Nat
  hbm : Nat
deriving DecidableEq, Repr

/-- A packet that has started and not ended (R284, R285); one that reads has still to read what it names. since is the step in which it started;
image what a LOADK reads, piece by piece, with the bytes of those that have been read (R294). -/
structure Started where
  pkt : Rec64
  ord : Nat
  reads : Bool
  since : Nat
  image : Option (List (Loc × Size × Option (List Byte)))
deriving DecidableEq, Repr

/-- A queue of a context (R277-R291); a packet in its buffer stands with the count of LAUNCH packets that the context had accepted
at its acceptance (R125), and one that has started with its order. ready is the ticks of the reference clock for which it has been Ready with
its head, age the whole periods of 4 ms in them (R287); held whether the mark of the WAITMARK at its head has been seen to hold (R292). -/
structure Queue where
  enabled : Bool
  ring : Vector (BitVec 1024) 64
  head : BitVec 16
  tail : BitVec 16
  buf : List (Rec64 × W32)
  counter : W64
  completed : Nat
  rejects : Nat
  errors : Nat
  lasterr : Byte
  started : List Started
  marks : List (BitVec 16 × W64)
  ready : Nat
  age : Nat
  held : Bool
  ord : Nat
deriving DecidableEq, Repr

/-- The audit ring of a context (R272, R257). -/
structure Audit where
  va : Option W64
  index : W64
  seq : W64
  dropped : Nat
  held : List (BitVec 256)
deriving DecidableEq, Repr

/-- What a link message carries (R369): the kinds 0x1 to 0xA in order. -/
inductive MsgBody where
  | units (vc : BitVec 5) (tile : BitVec 16) (fmt : BitVec 4) (us : List LinkUnit)
  | grant (vc : BitVec 5) (tile : BitVec 16) (n : Nat)
  | read (va : W64) (sz : Size)
  | readResponse (v : W64)
  | write (va : W64) (sz : Size) (v : W64)
  | atomic (va : W64) (op : AtomicOp) (wide : Bool) (b : W64) (c : W64)
  | atomicResult (v : W64)
  | completion
  | fault (code : Byte)
  | abort
deriving DecidableEq, Repr

/-- An access to a peer package that awaits its answer (R370): the instance and tile it is for, who there made it (a slot of the
block, a stream, a fill, a descriptor read, a store, a copy engine, by the codes of Ask), and its peer VA. -/
structure Ask where
  inst : Nat
  tile : Nat
  who : Nat
  va : W64
deriving DecidableEq, Repr

/-- What a peer answered to a read or an atomic (R369, R372). -/
inductive Answer where
  | data (v : W64)
  | failed (code : Byte)
deriving DecidableEq, Repr

/-- A link session of a context (R365-R374): whether it is open, its directions, the peer package, the port that carries
it, its VC class (0 where it may not send), messages that wait to be sent, the flits that are
left of the one it has begun, reads and atomics outstanding in order (none: the asker was discarded), the answers that have come, stores outstanding in
order, the peer's demand by its tile and VC that is not used, and the demand of this side told to the peer that no unit has used, by tile and VC
(R373). -/
structure Session where
  opened : Bool
  send : Bool
  receive : Bool
  peer : Digest
  port : Nat
  cls : Byte
  outq : List MsgBody
  part : List (BitVec 1024)
  asked : List (Option Ask)
  got : List (Ask × Answer)
  stores : List Ask
  demand : List ((BitVec 16 × BitVec 5) × Nat)
  told : List ((BitVec 16 × BitVec 5) × Nat)
deriving DecidableEq, Repr

/-- A bounce channel (R273): its key, the counters of the records sealed and accepted, its status word, the records that it has sealed, and
the header and payload of those that it has accepted. -/
structure Bounce where
  key : Option (BitVec 256)
  sent : W64
  accepted : W64
  status : Byte
  outbox : List BounceRec
  inbox : List (List Byte × List Byte)
deriving DecidableEq, Repr

/-- A cached translation of the context (R353): page base, size in bytes, leaf, level. -/
structure Tlb where
  base : Nat
  size : Nat
  leaf : W64
  level : Nat
deriving DecidableEq, Repr

/-- How far a PMIG has come (R359): released; the swap of its leaf is under way; its leaf is Migrating; its page is copied, or not, and the leaf's last value is due. -/
inductive MigPhase where
  | released
  | swapping (old new : W64)
  | migrating (old : W64)
  | copied (mig final : W64)
deriving DecidableEq, Repr

/-- A PMIG at work (R359): the tile that released it, its operands, the IPA of the leaf, and how far it has come. -/
structure Mig where
  inst : Nat
  tile : Nat
  va : W64
  d : W64
  leafIpa : Nat
  phase : MigPhase
deriving DecidableEq, Repr

/-- A command of the context that takes time (R253): what it is, with its record. -/
inductive CtxOp where
  | pause (cmd : Rec64)
  | evict (cmd : Rec64)
  | restore (cmd : Rec64)
deriving DecidableEq, Repr

/-- A checkpoint at a target (R268): epoch, the key of its records, and its content: the allotment, the save area, which holds the state of
every tile and plot set by instance, the queues, and the link sessions; and the records of 1 MiB that were sent, as they were sealed. -/
structure Checkpoint where
  target : Digest
  epoch : W64
  key : BitVec 256
  grant : Grant
  bytes : List Host.Cell
  badWords : List Nat
  insts : List (Nat × Inst)
  queues : Vector Queue 16
  sessions : Vector Session 32
  records : List (List Byte × BitVec 128)
deriving DecidableEq, Repr

/-- The keys of a context (R262); every one is none once erased. -/
structure Keys where
  hbm : Option (BitVec 256)
  save : Option (BitVec 256)
  husk : Option (BitVec 256)
  queues : List (BitVec 256)
  checkpoint : Option (BitVec 256)
deriving DecidableEq, Repr

/-- What a walker read of an entry at a peer that may not be kept, or whose read the peer refused (R353, R356). -/
inductive Seen where
  | entry (e : W64)
  | refused (code : Byte)
deriving DecidableEq, Repr

/-- What Hazel writes into the memory of a context at paged VAs, in the order its accesses reach there: the page fault record of a tile
(R355), an escalation record (R391), the report (R314), a record of the audit ring (R272). -/
inductive PostKind where
  | page (inst : Nat) (tile : Nat)
  | escalation (r : BitVec 512)
  | report
  | audit (va : W64) (r : BitVec 256)
deriving DecidableEq, Repr

/-- One access of such a write: bytes written, or a word read on which what follows depends. -/
inductive PostOp where
  | write (va : W64) (bs : List Byte)
  | read (va : W64)
deriving DecidableEq, Repr

/-- A write of Hazel that waits, and its accesses still to be made. -/
structure Post where
  kind : PostKind
  ops : List PostOp
deriving DecidableEq, Repr

/-- A DEADLOCK report that was begun (R313): the instances to which DEADLOCK goes once it has ended, the records that it holds, and, once it
has ended, whether it was written. -/
structure Report where
  insts : List Nat
  records : Nat
  ended : Option Bool
deriving DecidableEq, Repr

/-- A context (R250). frames are the frames of its allotment in order, saveFrames those of its save area, which lies outside every allotment;
sealedAt is the step of its SEAL (R365); schedNext is a SCHEDULE that waits for the next slice (R258); tables holds first-stage entries read from remote packages and kept as R353 allows, by the IPA of the
entry; seen the other entries read there, each with the step of its reading; posts Hazel's writes into its memory that wait, and report
a DEADLOCK report whose DEADLOCK is still to be delivered; verified holds the kernel ids that the verifier has reported, by reference
(R89); huskDead the sealed routes that carry nothing further, husk the beats that have crossed a sealed route, by direction, and
huskWire the last of them as it went, its ciphertext and its GCM tag (R263). -/
structure Context where
  tag : Byte
  vf : Byte
  handle : W64
  st : CtxState
  policy : Option Policy
  grant : Option Grant
  frames : List Nat
  saveFrames : List Nat
  feat : W64
  keys : Keys
  sealedAt : Nat
  epoch : W64
  share : Nat
  slice : Nat
  schedNext : Option (Nat × Nat)
  deficit : Int
  queues : Vector Queue 16
  lastServed : List (Nat × Nat)
  krefs : List (Nat × Kernel)
  launches : W32
  audit : Audit
  denied : List (Byte × Nat)
  counters : Vector W64 9
  bounce : Vector Bounce 4
  sessions : Vector Session 32
  tlb : List Tlb
  tables : List (Nat × W64)
  seen : List (Nat × Seen × Nat)
  posts : List Post
  report : Option Report
  invals : List (Nat × Nat × InvKind × W64)
  migs : List Mig
  op : Option CtxOp
  heldCmds : List Rec64
  checkpoint : Option Checkpoint
  quiet : Nat
  declared : Bool
  verified : List (Nat × W64)
  huskDead : List W32
  husk : List ((W32 × Bool) × W64)
  huskWire : List ((W32 × Bool) × List Byte × BitVec 128)
deriving DecidableEq, Repr

/-- What Hazel answers inside a context's SPDM session (R261): to ATTEST the measurement, the state, the nonce and the signature; to SEAL a
status. -/
inductive Reply where
  | attest (measurement : Digest) (st : CtxState) (nonce : BitVec 256) (signature : BitVec 768)
  | seal (status : Byte)
deriving DecidableEq, Repr

/-- The source of a copy packet (R179). -/
inductive CpSrc where
  | tile (phys : Nat)
  | node (plot : Nat)
  | queue (tag : Byte)
deriving DecidableEq, Repr

/-- A copy packet at an engine (R176-R179): source, instance, releasing tile, packet, captured rounding, level, the policy's bound,
arrival order, the ticks of the reference clock that it has waited since its arrival or last rise; for a queue COPY, the queue and the started packet's order. -/
structure CpPkt where
  src : CpSrc
  inst : Nat
  tile : Nat
  pkt : Rec64
  mode : BitVec 3
  level : Nat
  bound : Nat
  ord : Nat
  waited : Nat
  queue : Option (BitVec 4 × Nat)
deriving DecidableEq, Repr

/-- A packet that a copy engine performs: how far it has come, and its destination tiles still to complete. -/
structure CpActive where
  p : CpPkt
  job : CopyJob
  dests : List Nat
deriving DecidableEq, Repr

/-- A unit at the packet input of a copy engine (R180): its source, its instance, and the VC or port of the source that sent it. -/
structure CpIn where
  src : CpSrc
  inst : Nat
  vc : Nat
  unit : LinkUnit
deriving DecidableEq, Repr

/-- A copy engine (R179, R180): packets that have not started, the source last served per level, the packets in progress, at most one of
each source and level, units received at the packet input and at the permit counters, each with its source and instance (R180). -/
structure CpEngine where
  waiting : List CpPkt
  last : List (Nat × CpSrc)
  active : List CpActive
  inbox : List CpIn
  permitIn : List (CpSrc × Nat × BitVec 5)
  ord : Nat
deriving DecidableEq, Repr

/-- A physical tile (R11, R135, R396), with the banks that are closed to their owner (R141), and the LAUNCH for which it is preloaded, by queue
and order (R288). -/
structure Phys where
  tag : Byte
  banks : Vector Byte 16
  closed : List Nat
  mappedOut : Bool
  errors : Nat
  preload : Option (BitVec 4 × Nat)
deriving DecidableEq, Repr

/-- A physical plot (R11, R12, R395). -/
structure Plot where
  tag : Byte
  quarantined : Bool
deriving DecidableEq, Repr

/-- The states of a port (R361). -/
inductive PortState where
  | down | training | attested | up | draining | isolated
deriving DecidableEq, Repr

/-- A data flit: its class, the context and session it is of (none: idle, or Hazel's), and its bits before encryption (R363, R369). -/
structure Flit where
  cls : Byte
  owner : Option (BitVec 8 × BitVec 5)
  bits : BitVec 1024
deriving DecidableEq, Repr

/-- A group sent: the package it is for, its sequence, the returns of its control flit, and its 64 data flits (R363). -/
structure OutGroup where
  peer : Digest
  seq : W64
  returns : List (BitVec 32)
  flits : List Flit
deriving DecidableEq, Repr

/-- An Omide port (R361-R367): state, switch, attested packages, switch indices, groups sent again since last Up; whether the first group not
acknowledged has been sent again, and how many such retries of it have failed; by package the next group sequence sent and expected, and the
sequence at the last key update; groups sent and not acknowledged; flits per class that are sent and not returned; the class last served; the
group in hand with the package it is for; flits of Hazel's class to be sent, each with its package; by package and class the flits received of
a message that has not come whole; credits to be returned; packages to which an acknowledgement is due; the messages whose sending has begun;
and the groups put on the wire. -/
structure Port where
  st : PortState
  switch : Bool
  peers : List Digest
  indices : List (Digest × BitVec 16)
  retries : Nat
  retrying : Bool
  failed : Nat
  sendSeq : List (Digest × W64)
  recvSeq : List (Digest × W64)
  keyed : List (Digest × W64)
  unacked : List OutGroup
  credits : List (Byte × Nat)
  lastClass : Byte
  dest : Digest
  group : List Flit
  control : List (Digest × Flit)
  inbox : List ((Digest × Byte) × List (BitVec 1024))
  returns : List (Digest × Byte × Nat)
  acks : List Digest
  sent : List (BitVec 8 × BitVec 5 × MsgBody)
  wire : List LinkGroup
deriving DecidableEq, Repr

/-- A message that has come whole and is not yet taken (R369): the context and session it is of, the package it came from, the port whose buffer
holds it (none: the port has left Up since, and counts its credits afresh), its class, and its flits. -/
structure Arrival where
  tag : Byte
  session : BitVec 5
  peer : Digest
  port : Option Nat
  cls : Byte
  flits : List (BitVec 1024)
deriving DecidableEq, Repr

/-- How far bring-up has come (R400). -/
inductive Boot where
  | cold | ready
deriving DecidableEq, Repr

/-- What the host writes: bytes of its memory, what its IOMMU makes of a 4 KiB page for a function, another page or none (R352; a VF by its
number, the physical function as 256), a command record (R254), a slot of a queue's
record ring through the VF BAR (R277). -/
inductive HostWrite where
  | memory (addr : Nat) (bytes : List Byte)
  | iommu (fn : Nat) (page : Nat) (goal : Option Nat)
  | command (cmd : Rec64)
  | record (tag : Byte) (queue : BitVec 4) (slot : Fin 64) (rec : BitVec 1024)
deriving DecidableEq, Repr

/-- Which agent moves next: a tile's sequencer, a tile's schedule clock, the head of the command ring, a write of the host, Hazel changing
the interleave of a tile's slice (R141), or a named step. -/
inductive Move where
  | seq (inst : Nat) (tile : Nat)
  | sched (inst : Nat) (tile : Nat)
  | host
  | write (w : HostWrite)
  | interleave (inst : Nat) (tile : Nat) (coarse : Bool)
  | ev (inst : Nat) (tile : Nat) (i : Instr)
deriving DecidableEq, Repr

/-- The instance, logical tile and instruction slot that a meaning without a name of its own acts on (log 2). -/
structure Focus where
  inst : Nat
  tile : Nat
  slot : Nat
deriving DecidableEq, Repr

/-- The whole package: an AE-TY9-P, or a part made of other counts of compute dies and of HBM frames of 2 MiB (R1, R2, R10). Die d carries
tiles 384d to 384d + 383, plots 128d to 128d + 127, copy engines and ports 6d to 6d + 5, clock generators 8d to 8d + 7, and islands 4d
to 4d + 3 (R11); an engine, port, generator or island beyond them is not there. linkGens counts the key updates of each peer package (R362);
aborts are the ABORTs that no port has allowed yet, each with the port of its session (R374); arrivals the messages that have come and are
not taken, as they came (R369); classOf the context of which the messages of a session in a class of a package over a port are (R365); junction
is the junction temperature last sensed, in °C (R398). -/
structure State where
  dies : Nat
  hbmFrames : Nat
  now : Nat
  agenda : List Move
  focus : Focus
  boot : Boot
  locked : Bool
  armed : Bool
  fwDigest : Digest
  fwStaged : Option Digest
  hbm : Mem
  hbmBad : List Nat
  frames : List (Nat × Byte)
  host : Mem
  iommu : List ((Nat × Nat) × Option Nat)
  phys : List (Nat × Phys)
  plots : List (Nat × Plot)
  gens : Vector Nat 32
  islands : Vector Nat 16
  power : Nat
  junction : Int
  floorBreaches : Nat
  cmdRing : List Rec64
  complRing : List (BitVec 128)
  drawn : Nat
  handles : List W64
  keysDrawn : Nat
  ctxs : List Context
  insts : List Inst
  copy : Vector CpEngine 24
  ports : Vector Port 24
  linkGens : List (Digest × Nat)
  aborts : List (Byte × BitVec 5 × Digest × Nat)
  arrivals : List Arrival
  classOf : List ((Nat × Digest × Byte × BitVec 5) × Byte)
  replies : List (Byte × Reply)
deriving DecidableEq, Repr

/-- A copy engine that holds nothing and has served no source since a cold reset (R179). -/
def CpEngine.idle : CpEngine :=
  { waiting := [], last := [], active := [], inbox := [], permitIn := [], ord := 0 }

/-- A port after a cold reset: Down (R361). -/
def Port.down : Port :=
  { st := .down, switch := false, peers := [], indices := [], retries := 0, retrying := false, failed := 0, sendSeq := [], recvSeq := [],
    keyed := [], unacked := [], credits := [], lastClass := 0, dest := 0, group := [], control := [], inbox := [], returns := [], acks := [], sent := [], wire := [] }

/-- An AE-TY9-P at a cold reset, before bring-up (R400): no context, no instance, every owner tag 0x00, memory zero, every
port Down; island frequencies at the nominal 1.8 GHz and generators at 800 MHz are DESIGN CHOICE (log 8). -/
def State.reset : State :=
  { dies := 4, hbmFrames := 262144, now := 0, agenda := [], focus := ⟨0, 0, 0⟩, boot := .cold, locked := false, armed := false, fwDigest := 0,
    fwStaged := none, hbm := ⟨[]⟩, hbmBad := [], frames := [], host := ⟨[]⟩, iommu := [], phys := [], plots := [],
    gens := Vector.replicate 32 800, islands := Vector.replicate 16 36, power := 0, junction := 0, floorBreaches := 0, cmdRing := [],
    complRing := [], drawn := 0, handles := [], keysDrawn := 0, ctxs := [], insts := [], copy := Vector.replicate 24 CpEngine.idle,
    ports := Vector.replicate 24 Port.down, linkGens := [], aborts := [], arrivals := [], classOf := [], replies := [] }

/-- An AE-TY9-D at a cold reset: one die, and no HBM (R1, R2). -/
def State.resetDie : State := { State.reset with dies := 1, hbmFrames := 0 }

end Sys2Proof.Machine
end

