-- ==== Sys2Proof/Machine/Mem.lean ====
section
/-! DEFINITION. Byte memories in canonical form, bytes and words, and small list operations. -/

namespace Sys2Proof.Machine

/-- The result of a meaning. -/
abbrev Res := Host.Outcome State Fault Refusal

/-- Bits lo to lo + n - 1 of a bit vector as a number. -/
def fld {w : Nat} (x : BitVec w) (lo n : Nat) : Nat := (x.toNat / 2 ^ lo) % 2 ^ n

/-- The byte at an address in sorted cells; 0 where none is listed (log 7). -/
def cellGet : List Host.Cell → Nat → Byte
  | [], _ => 0
  | (b, v) :: l, a => if a = b then v else if a < b then 0 else cellGet l a

/-- The n bytes from an address on. -/
def cellRead : Nat → Nat → List Host.Cell → List Byte
  | 0, _, _ => []
  | n + 1, a, l =>
    let l := l.dropWhile fun c => decide (c.1 < a)
    match l with
    | (b, v) :: _ => (if b = a then v else 0) :: cellRead n (a + 1) l
    | [] => 0 :: cellRead n (a + 1) l

/-- The cells of bytes at consecutive addresses, those that are 0 left out. -/
def mkCells : Nat → List Byte → List Host.Cell
  | _, [] => []
  | a, v :: l => if v = 0 then mkCells (a + 1) l else (a, v) :: mkCells (a + 1) l

/-- Cells with bytes written from an address on. -/
def cellWrite (l : List Host.Cell) (a : Nat) (bs : List Byte) : List Host.Cell :=
  l.filter (fun c => decide (c.1 < a)) ++ mkCells a bs ++ l.filter (fun c => decide (a + bs.length ≤ c.1))

/-- Whether cells are in canonical form: addresses strictly rising and above a bound, no byte 0. -/
def cellsWf : Option Nat → List Host.Cell → Bool
  | _, [] => true
  | lo, (a, v) :: l =>
    (match lo with | none => true | some b => decide (b < a)) && v != 0 && cellsWf (some a) l

/-- Canonical form of a memory. -/
def Mem.wf (m : Mem) : Bool := cellsWf none m.cells

/-- The byte at an address. -/
def Mem.get (m : Mem) (a : Nat) : Byte := cellGet m.cells a

/-- The n bytes from an address on. -/
def Mem.read (m : Mem) (a n : Nat) : List Byte := cellRead n a m.cells

/-- Writing bytes from an address on. -/
def Mem.write (m : Mem) (a : Nat) (bs : List Byte) : Mem := ⟨cellWrite m.cells a bs⟩

/-- A memory with every byte of a range 0 (R141, R270). -/
def Mem.clear (m : Mem) (a n : Nat) : Mem :=
  ⟨m.cells.filter (fun c => decide (c.1 < a)) ++ m.cells.filter (fun c => decide (a + n ≤ c.1))⟩

/-- The word of 8 bytes or fewer that bytes give, little-endian (R3). -/
def wordOf (bs : List Byte) : W64 := BitVec.ofNat 64 (ofBytes bs)

/-- The n lowest bytes of a word (R3). -/
def bytesOf (n : Nat) (v : W64) : List Byte := toBytes n v.toNat

/-- The n bytes of a vector, lowest first (R3). -/
def vecBytes {w : Nat} (n : Nat) (v : BitVec w) : List Byte := toBytes n v.toNat

/-- A number put into a strictly rising list. -/
def insertNat (a : Nat) : List Nat → List Nat
  | [] => [a]
  | b :: l => if a < b then a :: b :: l else if a = b then b :: l else b :: insertNat a l

/-- Replacing the element of a list at an index. -/
def setAt {α : Type} (l : List α) (i : Nat) (a : α) : List α := l.set i a

/-- The value under a key. -/
def lookupKey {κ α : Type} [BEq κ] (k : κ) (l : List (κ × α)) : Option α := (l.find? fun p => p.1 == k).map (·.2)

/-- Putting a value under a key: replaced in place, or appended. -/
def putKey {κ α : Type} [BEq κ] (k : κ) (a : α) (l : List (κ × α)) : List (κ × α) :=
  if l.any (fun p => p.1 == k) then l.map fun p => if p.1 == k then (k, a) else p else l ++ [(k, a)]

/-- Removing a key. -/
def dropKey {κ α : Type} [BEq κ] (k : κ) (l : List (κ × α)) : List (κ × α) := l.filter fun p => !(p.1 == k)

/-- One of the pieces of work that a choice falls on, by step. -/
def pickOf {α : Type} (n : Nat) (l : List α) : Option α := l[n % l.length]?

/-- Reading a vector at an index that may lie beyond it. -/
def vget {α : Type} {n : Nat} (v : Vector α n) (i : Nat) (d : α) : α := v[i]?.getD d

/-- Changing a vector at an index; nothing when it lies beyond. -/
def vmod {α : Type} {n : Nat} (v : Vector α n) (i : Nat) (f : α → α) : Vector α n :=
  match v[i]? with
  | none => v
  | some a => v.setIfInBounds i (f a)

/-- A number of 63 bits at most as a word. -/
def w64 (n : Nat) : W64 := BitVec.ofNat 64 n

end Sys2Proof.Machine
end

