-- ==== Sys2Proof/Machine/Ops.lean ====
section
/-! DEFINITION. The shared operations over the state: tiles and contexts, locations and their homes, watches and full/empty
bits, translation, the address check, taking a fault, escalation, and the return from a handler. -/

namespace Sys2Proof.Machine

/-! ### Tiles, instances, contexts -/

/-- The index that stands for no instance, of what a queue's packet, or Hazel itself, does. -/
def noInst : Nat := 2 ^ 32

/-- The instance at an index. -/
def State.inst? (s : State) (i : Nat) : Option Inst := s.insts[i]?

/-- The logical tile t of the instance at index i. -/
def State.tile? (s : State) (i t : Nat) : Option Tile := (s.inst? i).bind fun x => x.tiles[t]?

/-- Changing an instance. -/
def State.modInst (s : State) (i : Nat) (f : Inst → Inst) : State := { s with insts := s.insts.modify i f }

/-- Changing a tile. -/
def State.modTile (s : State) (i t : Nat) (f : Tile → Tile) : State :=
  s.modInst i fun x => { x with tiles := x.tiles.modify t f }

/-- The context that holds an owner tag (R250). -/
def State.ctx? (s : State) (tag : Byte) : Option Context := s.ctxs.find? fun c => c.tag == tag

/-- Whether a context runs, and is not stopping (R252, R253). -/
def Context.active (c : Context) : Bool := c.st == .running && c.op.isNone

/-- Changing the context that holds an owner tag. -/
def State.modCtx (s : State) (tag : Byte) (f : Context → Context) : State :=
  { s with ctxs := s.ctxs.map fun c => if c.tag == tag then f c else c }

/-- A physical tile that nothing has changed since a cold reset: free, its banks free (R11, R400). -/
def Phys.idle : Phys := { tag := 0, banks := Vector.replicate 16 0, closed := [], mappedOut := false, errors := 0, preload := none }

/-- The physical tiles of the package (R10). -/
def State.tileCount (s : State) : Nat := 384 * s.dies

/-- The plots of the package (R10). -/
def State.plotCount (s : State) : Nat := 128 * s.dies

/-- The copy engines of the package, as many as its ports (R10). -/
def State.engineCount (s : State) : Nat := 6 * s.dies

/-- The island of a physical tile (R11). -/
def islandOf (phys : Nat) : Nat := phys / 384 * 4 + phys % 384 / 192

/-- The physical tile at an index. -/
def State.physAt (s : State) (p : Nat) : Phys := (lookupKey p s.phys).getD Phys.idle

/-- Changing a physical tile. -/
def State.modPhys (s : State) (p : Nat) (f : Phys → Phys) : State :=
  { s with phys := putKey p (f (s.physAt p)) s.phys }

/-- A plot that nothing has changed since a cold reset. -/
def Plot.idle : Plot := { tag := 0, quarantined := false }

/-- The plot at an index. -/
def State.plotAt (s : State) (p : Nat) : Plot := (lookupKey p s.plots).getD Plot.idle

/-- Changing a plot. -/
def State.modPlot (s : State) (p : Nat) (f : Plot → Plot) : State :=
  { s with plots := putKey p (f (s.plotAt p)) s.plots }

/-- A context counter of R271, by its id. -/
def State.count (s : State) (tag : Byte) (id n : Nat) : State :=
  s.modCtx tag fun c => { c with counters := vmod c.counters (id - 16) fun v => v + w64 n }

/-- The bytes of a context's HBM allotment (R256). -/
def Context.allotment (c : Context) : Nat := match c.grant with | some g => g.hbm * 0x200000 | none => 0

/-- A meaning on the tile in focus; the machine stops when no tile is there. -/
def State.onTile (s : State) (k : Inst → Tile → Res) : Res :=
  match s.inst? s.focus.inst with
  | none => .fault .noTile
  | some x => match x.tiles[s.focus.tile]? with
    | none => .fault .noTile
    | some t => k x t

/-- Changing a session of a context. -/
def Context.modSession (c : Context) (i : BitVec 5) (f : Session → Session) : Context :=
  { c with sessions := vmod c.sessions i.toNat f }

/-- Changing the tile in focus. -/
def State.modFocus (s : State) (f : Tile → Tile) : State := s.modTile s.focus.inst s.focus.tile f

/-! ### Slices (R138, R142, R159) -/

/-- The size of a slice (R135). -/
def sliceSize : Nat := 0x128000

/-- The bank of a slice offset (R138). -/
def bankOf (coarse : Bool) (o : Nat) : Nat := if coarse then o / 75776 else o / 64 % 16

/-- Moving the watches of granules to the wake-ups, in order of registration (R158, R159). -/
def Tile.wake (t : Tile) (gs : List Nat) : Tile :=
  { t with
    wakes := t.wakes ++ t.watches.filter fun w => gs.contains w.granule
    watches := t.watches.filter fun w => !gs.contains w.granule }

/-- The granules that n bytes from an offset touch. -/
def granulesOf (o n : Nat) : List Nat :=
  if n = 0 then [] else (List.range ((o + n - 1) / 64 - o / 64 + 1)).map fun k => o / 64 + k

/-- Check bits after a write (R136, R146): each whole 8-byte word of the range gets new check bits. -/
def healWords (bad : List Nat) (o n : Nat) : List Nat :=
  if bad.isEmpty then bad else bad.filter fun w => !(decide (o ≤ 8 * w) && decide (8 * w + 8 ≤ o + n))

/-- Whether n bytes from an offset meet an uncorrectable word. -/
def badWord (bad : List Nat) (o n : Nat) : Bool := bad.any fun w => decide (o < 8 * w + 8) && decide (8 * w < o + n)

/-- Bytes written to a slice, with the wake-ups of R158. -/
def Tile.writeSlice (t : Tile) (o : Nat) (bs : List Byte) : Tile :=
  { t with slice := t.slice.write o bs, bad := healWords t.bad o bs.length }.wake (granulesOf o bs.length)

/-- Setting or clearing a granule's full/empty bit, with the wake-ups of R158; with a granule that becomes full the 64 tile cycles
of its take list's head begin afresh (R155). -/
def Tile.setFull (t : Tile) (g : Nat) (full : Bool) : Tile :=
  { t with
    full := if full then insertNat g t.full else t.full.filter (fun x => x != g)
    takes := if full && !t.full.contains g then
        t.takes.map fun (k : Take) => if k.granule == g then { k with granted := none } else k
      else t.takes }.wake [g]

/-- Whether a granule is full. -/
def Tile.isFull (t : Tile) (g : Nat) : Bool := t.full.contains g

/-! ### Locations (R134, R145) -/

/-- The space of a location and its address there. -/
def Loc.place : Loc → Nat × Nat × Nat
  | .slice t o => (0, t, o)
  | .hbm p => (1, 0, p)
  | .host h => (2, 0, h)
  | .remote i v => (3, i.toNat, v.toNat)

/-- A location n bytes further on in the same page, slice or session. -/
def Loc.plus (l : Loc) (n : Nat) : Loc :=
  match l with
  | .slice t o => .slice t (o + n)
  | .hbm p => .hbm (p + n)
  | .host h => .host (h + n)
  | .remote i v => .remote i (v + w64 n)

/-- The granule of a location, in the space of its home (R150). -/
def Loc.granuleBase : Loc → Loc
  | .slice t o => .slice t (o / 64 * 64)
  | .hbm p => .hbm (p / 64 * 64)
  | .host h => .host (h / 64 * 64)
  | .remote i v => .remote i (v &&& ~~~(63 : W64))

/-- Whether a copy has written a granule in part that it writes whole. -/
def CopyJob.holds (j : CopyJob) (l : Loc) : Bool := j.part.any fun p => p.2 == l.granuleBase

/-- The context that a packet belongs to. -/
def State.cpTag (s : State) (p : CpPkt) : Byte :=
  match p.src with
  | .queue t => t
  | _ => match s.inst? p.inst with | some x => x.tag | none => 0

/-- Whether a copy or a HALO is in the middle of a granule that it writes whole, for a tile of the instance at index i: its loads from there
wait, so that they find the granule from before the packet or from after it, never some of each (R146, R150, R183, R186). -/
def State.midCopy (s : State) (i : Nat) (l : Loc) : Bool :=
  let tag := match s.inst? i with | some x => x.tag | none => 0
  let sees (p : CpPkt) : Bool := match l with
    | .slice _ _ => p.inst == i
    | .remote _ _ => s.cpTag p == tag
    | _ => true
  (s.copy.toList.any fun e => e.active.any fun a => sees a.p && a.job.holds l)
    || (match s.inst? i with
      | some x => x.tiles.any fun t => t.halos.any fun h => h.left.any fun js => js.any fun j => j.2.holds l
      | none => false)

/-- Bytes at a home; a remote location holds none here. -/
def State.readLoc (s : State) (i : Nat) (l : Loc) (n : Nat) : List Byte :=
  match l with
  | .slice t o => match s.tile? i t with | some x => x.slice.read o n | none => List.replicate n 0
  | .hbm p => s.hbm.read p n
  | .host h => s.host.read h n
  | .remote _ _ => List.replicate n 0

/-- Whether the data at a home is uncorrectable (R136, R395). -/
def State.badLoc (s : State) (i : Nat) (l : Loc) (n : Nat) : Bool :=
  match l with
  | .slice t o => match s.tile? i t with | some x => badWord x.bad o n | none => false
  | .hbm p => badWord s.hbmBad p n
  | _ => false

/-- Bytes written at their home. -/
def State.writeLoc (s : State) (i : Nat) (l : Loc) (bs : List Byte) : State :=
  match l with
  | .slice t o => s.modTile i t fun x => x.writeSlice o bs
  | .hbm p => { s with hbm := s.hbm.write p bs, hbmBad := healWords s.hbmBad p bs.length }
  | .host h => { s with host := s.host.write h bs }
  | .remote _ _ => s

/-- Bytes of one store over bytes read: those of a range (R34, R144). -/
def overlay (p : Nat × Nat × Nat) (n : Nat) (q : Nat × Nat × Nat) (data : List Byte) (bs : List Byte) : List Byte :=
  if p.1 = q.1 ∧ p.2.1 = q.2.1 then
    bs.zipIdx.map fun (b, k) =>
      let a := p.2.2 + k
      if q.2.2 ≤ a ∧ a < q.2.2 + data.length ∧ k < n then data.getD (a - q.2.2) b else b
  else bs

/-- The location, size and bytes of a committed store that is not yet performed. -/
def PStore.bytes : PStore → Option (Loc × List Byte)
  | .plain l n d _ _ => some (l, bytesOf n d)
  | .full l n d => some (l, bytesOf n d)
  | .empty _ => none

/-- Whether the store buffer holds a store to bytes of a range. -/
def sbufOverlaps (sb : List PStore) (l : Loc) (n : Nat) : Bool :=
  sb.any fun p => match p.bytes with
    | none => false
    | some (k, bs) =>
      let a := l.place
      let b := k.place
      a.1 == b.1 && a.2.1 == b.2.1 && decide (a.2.2 < b.2.2 + bs.length) && decide (b.2.2 < a.2.2 + n)

/-- What a tile reads at a location: its own stores that are not yet performed over the bytes at the home (R144). -/
def State.readOwn (s : State) (i : Nat) (t : Tile) (l : Loc) (n : Nat) : List Byte :=
  t.sbuf.foldl (fun bs p => match p.bytes with
    | none => bs
    | some (k, d) => overlay l.place n k.place d bs) (s.readLoc i l n)

/-! ### Translation (R343-R353) -/

/-- What an access needs of a leaf (R348); that of a gather engine needs what a read does, and reaches no remote package (R170, R349); so does
that of a LOADK to its object, which is read in the moment it starts: also of a page on its move, of which no store changes a byte (R294, R360;
log 43). -/
inductive AccKind where
  | read | write | atomic | fetch | gather | object
deriving DecidableEq, Repr

/-- Whether an access writes, for sr.info and the page fault record (R137, R355). -/
def AccKind.isWrite : AccKind → Bool
  | .write | .atomic => true
  | .read | .fetch | .gather | .object => false

/-- The outcome of a translation or an address check: a location, a minor fault (R354), or a fault with its code and, when
translation raised it, the content of the page fault record (R355) without code and engine: ipa, level, walk, stage. -/
inductive Acc where
  | loc (l : Loc)
  | minor
  | fault (code : Byte) (page : Option (W64 × Nat × Bool × Nat))
deriving DecidableEq, Repr

/-- Fault codes of R379. -/
def cIllegal : Byte := 0x01
/-- FEATURE_MASKED. -/
def cMasked : Byte := 0x02
/-- BLOCK_MALFORMED. -/
def cMalformed : Byte := 0x03
/-- BLOCK_HEADER_INVALID. -/
def cHeader : Byte := 0x04
/-- MISALIGNED. -/
def cMisaligned : Byte := 0x05
/-- SLICE_RANGE. -/
def cSliceRange : Byte := 0x06
/-- OWNER_MISMATCH. -/
def cOwner : Byte := 0x07
/-- TRANSLATION. -/
def cTranslation : Byte := 0x08
/-- PERMISSION. -/
def cPermission : Byte := 0x09
/-- MEM_UNCORRECTABLE. -/
def cUncorrectable : Byte := 0x0A
/-- ARITH_TRAP. -/
def cArith : Byte := 0x0B
/-- SEMAPHORE_OVERFLOW. -/
def cSemaphore : Byte := 0x0C
/-- CHANNEL_PROTOCOL. -/
def cChannel : Byte := 0x0D
/-- STREAM_LENGTH_MISMATCH. -/
def cLength : Byte := 0x0E
/-- OPERAND_SLOT_STATE. -/
def cSlotState : Byte := 0x0F
/-- LINK_PERMIT. -/
def cLinkPermit : Byte := 0x10
/-- PEER_LOST. -/
def cPeerLost : Byte := 0x11
/-- DEADLOCK. -/
def cDeadlock : Byte := 0x12
/-- TRAP. -/
def cTrap : Byte := 0x14
/-- INTEGER_DIVIDE_BY_ZERO. -/
def cDivZero : Byte := 0x15

/-- A first-stage entry's state field (R346). -/
def entryState (e : W64) : Nat := fld e 2 3

/-- A malformed first-stage entry of type 01, 10 or 11 (R346, R349). -/
def entryMalformed (e : W64) (lvl : Nat) : Bool :=
  let typ := fld e 0 2
  let rsv := fld e 60 4 != 0 || fld e 52 5 != 0 || fld e 6 10 != 0
  let st := entryState e
  let remoteOrHbm := decide (fld e 50 2 < 2)
  rsv || typ == 3 ||
  (if typ == 1 then lvl == 3 || fld e 57 3 != 0 || fld e 5 1 != 0 || st != 0
   else
    lvl == 1 || st == 0 || st == 6 || st == 7 || (st == 1 && !remoteOrHbm) || (st == 2 && remoteOrHbm)
      || (lvl == 2 && (fld e 16 13 != 0 || fld e 5 1 != 0)))

/-- What the host's IOMMU makes of a page for a function (R352): another page, or none where it refuses; a page that it was told nothing
of stays as it is (log 16). -/
def State.iommuOf (s : State) (fn page : Nat) : Option Nat := (lookupKey (fn, page) s.iommu).getD (some page)

/-- The second stage for an IPA (R344, R351, R352, R370): the location, or a fault at stage 2, or a link permission fault. A fetch and a
gather that reach a remote package have a page fault record with the IPA, stage 2: the model's choice, as R355 names none (log 16). -/
def State.stage2 (s : State) (c : Context) (k : AccKind) (ipa : Nat) (walk : Bool) (lvl : Nat) : Acc :=
  let fail : Acc := .fault cTranslation (some (w64 (if walk then ipa / 65536 * 65536 else ipa), (if walk then lvl else 0), walk, 2))
  match ipa / 2 ^ 50 with
  | 0 =>
    if ipa < c.allotment then
      match c.frames[ipa / 0x200000]? with
      | some f => .loc (.hbm (f * 0x200000 + ipa % 0x200000))
      | none => fail
    else fail
  | 1 =>
    let closed : Acc := .fault cLinkPermit (if walk then some (w64 (ipa / 65536 * 65536), lvl, true, 2) else none)
    if (k == .fetch || k == .gather) && !walk then .fault cPermission (some (w64 ipa, 0, false, 2))
    else
      let i := ipa / 2 ^ 44 % 32
      match c.sessions[i]? with
      | none => closed
      | some x =>
        if ipa / 2 ^ 49 % 2 = 1 || !x.opened || !x.send || ((k != .write || walk) && !x.receive) then closed
        else .loc (.remote (BitVec.ofNat 5 i) (w64 (ipa % 2 ^ 44)))
  | _ => match s.iommuOf c.vf.toNat ((ipa - 2 ^ 51) / 4096) with
    | none => fail
    | some p => .loc (.host (p * 4096 + ipa % 4096))

/-- Whether a location is another package's. -/
def Loc.isRemote : Loc → Bool
  | .remote _ _ => true
  | _ => false

/-- Whether two ranges of one space share a byte. -/
def overlaps (p : Nat × Nat × Nat) (n : Nat) (q : Nat × Nat × Nat) (m : Nat) : Bool :=
  p.1 == q.1 && p.2.1 == q.2.1 && decide (p.2.2 < q.2.2 + m) && decide (q.2.2 < p.2.2 + n)

/-- A logical tile id that no tile has: an access of an engine, or of no tile, gives way to every reservation (R140). -/
def noTile : Nat := 65536

/-- Whether a tile other than tile t of the instance at index i has reserved bytes of a location (R140). -/
def State.reservedElsewhere (s : State) (i t : Nat) (l : Loc) (n : Nat) : Bool :=
  s.insts.zipIdx.any fun (x, i') =>
    x.tiles.zipIdx.any fun (y, t') =>
      !(i == i' && t == t') && y.reserved.any fun r =>
        overlaps l.place n r.1.place r.2 && (l.place.1 != 0 || i == i')

/-- A table entry read: at its home; or, in a remote package, one that is kept, or one that the walk in hand has read there and that may not
be kept (R345, R353, R356). -/
def State.readEntry (s : State) (c : Context) (ipa lvl : Nat) : Except Acc W64 :=
  match s.stage2 c .read ipa true lvl with
  | .loc (.remote _ _) => match lookupKey ipa c.tables with
    | some e => .ok e
    | none => match lookupKey ipa c.seen with
      | some (.entry e, n) => if s.now ≤ n + 1 then .ok e else .error .minor
      | some (.refused code, n) =>
        if s.now ≤ n + 1 then .error (.fault code (some (w64 (ipa / 65536 * 65536), lvl, true, 2))) else .error .minor
      | none => .error .minor
  | .loc l =>
    if s.reservedElsewhere noInst 0 l 8 then .error .minor
    else if s.badLoc 0 l 8 then .error (.fault cUncorrectable none) else .ok (wordOf (s.readLoc 0 l 8))
  | a => .error a

/-- Whether a table entry read at a peer may be kept (R353): a valid table entry, or a leaf that is neither Migrating nor Faulted. -/
def entryKeeps (e : W64) (lvl : Nat) : Bool :=
  fld e 0 2 != 0 && !entryMalformed e lvl && (fld e 0 2 == 1 || (entryState e != 3 && entryState e != 5))

/-- The asker's code of a walker that reads an entry of a level; the IPA of the entry stands in the place of its tile. -/
def whoWalk (lvl : Nat) : Nat := 240 + lvl

/-- The read of a walker, of the entry of a level at an IPA which lies at a peer VA. -/
def walkAsk (lvl ea : Nat) (v : W64) : Ask := ⟨noInst, ea, whoWalk lvl, v⟩

/-- Whether an asker is a walker. -/
def Ask.isWalk (q : Ask) : Bool := q.inst == noInst && decide (240 ≤ q.who) && decide (q.who < 244)

/-- What a walker's read of a peer has brought (R353, R356): an entry that may be kept is; any other, and a refusal, serve the walks of the
next step alone. -/
def State.walkAnswer (s : State) (tag : Byte) (q : Ask) (a : Answer) : State :=
  s.modCtx tag fun c => match a with
    | .data d =>
      if entryKeeps d (q.who - 240) then { c with tables := putKey q.tile d c.tables } else { c with seen := putKey q.tile (.entry d, s.now) c.seen }
    | .failed code => { c with seen := putKey q.tile (.refused code, s.now) c.seen }

/-- What a walk finds: a leaf, its level and the IPA of its entry. -/
structure Leaf where
  e : W64
  level : Nat
  entryIpa : Nat
deriving DecidableEq, Repr

/-- The levels of the walk (R345): level, lowest VA bit, index bits. -/
def walkLevels : List (Nat × Nat × Nat) := [(1, 42, 13), (2, 29, 13), (3, 16, 13)]

/-- The walk of R345 from the table at t, through the levels left. -/
def State.walkFrom (s : State) (c : Context) (va : Nat) : List (Nat × Nat × Nat) → Nat → Except Acc Leaf
  | [], _ => .error (.fault cTranslation (some (0, 3, false, 1)))
  | (lvl, lo, n) :: ls, t =>
    let idx := va / 2 ^ lo % 2 ^ n
    let ea := t + 8 * idx
    match s.readEntry c ea lvl with
    | .error a => .error a
    | .ok e =>
      if fld e 0 2 = 0 || entryMalformed e lvl then .error (.fault cTranslation (some (0, lvl, false, 1)))
      else if fld e 0 2 = 2 then
        if fld e 5 1 = 1 then
          -- any entry of the group may serve (R347, log 16); one that is no member of a group does not
          let k := idx / 32 * 32 + (Config.groupEntry s.now).toNat
          match s.readEntry c (t + 8 * k) lvl with
          | .error .minor => .ok ⟨e, lvl, ea⟩
          | .error a => .error a
          | .ok g =>
            if fld g 0 2 = 0 || entryMalformed g lvl then .error (.fault cTranslation (some (0, lvl, false, 1)))
            else if fld g 5 1 = 1 then .ok ⟨g, lvl, t + 8 * k⟩
            else .ok ⟨e, lvl, ea⟩
        else .ok ⟨e, lvl, ea⟩
      else s.walkFrom c va ls (fld e 16 36 * 65536)

/-- The walk of a paged VA (R343, R345). -/
def State.walk (s : State) (c : Context) (va : W64) : Except Acc Leaf :=
  if fld va 44 10 != 0 then .error (.fault cTranslation (some (0, 0, false, 1)))
  else if c.allotment = 0 then .error (.fault cTranslation (some (0, 1, false, 1)))
  else s.walkFrom c va.toNat walkLevels (c.allotment - 0x10000)

/-- The IPA that a leaf gives a VA (R345, R347). -/
def Leaf.ipa (f : Leaf) (va : W64) : Nat :=
  if f.level = 2 then fld f.e 29 23 * 2 ^ 29 + fld va 0 29
  else if fld f.e 5 1 = 1 then fld f.e 21 31 * 2 ^ 21 + fld va 0 21
  else fld f.e 16 36 * 65536 + fld va 0 16

/-- Whether a leaf has the permissions an access needs (R348). -/
def leafPermits (e : W64) : AccKind → Bool
  | .read | .gather | .object => e.getLsbD 57
  | .write => e.getLsbD 58
  | .atomic => e.getLsbD 57 && e.getLsbD 58
  | .fetch => e.getLsbD 59

/-- A leaf met by an access (R348, R349): the state decides first, then the permissions, then the second stage. -/
def State.useLeaf (s : State) (c : Context) (k : AccKind) (va : W64) (f : Leaf) : Acc :=
  match entryState f.e with
  | 5 => .fault cUncorrectable none
  | st =>
    if st == 3 && k != .object then .minor
    else if leafPermits f.e k then s.stage2 c k (f.ipa va) false 0
    else .fault cPermission (some (0, f.level, false, 1))

/-- A cached translation that covers a VA (R353). -/
def Context.cached (c : Context) (va : W64) : Option Leaf :=
  (c.tlb.find? fun e => decide (e.base ≤ va.toNat) && decide (va.toNat < e.base + e.size)).map fun e => ⟨e.leaf, e.level, 0⟩

/-- The leaf of a VA with bits 63:54 zero: a cached translation where the device keeps one, else what a walk finds. -/
def State.leafOf (s : State) (c : Context) (va : W64) : Except Acc Leaf :=
  match c.cached va with
  | some f => .ok f
  | none => s.walk c va

/-- Translate(va, access) for a VA with bits 63:54 zero (R93, R136). -/
def State.translate (s : State) (c : Context) (k : AccKind) (va : W64) : Acc :=
  match s.leafOf c va with
  | .error a => a
  | .ok f => s.useLeaf c k va f

/-- The IPA of a store to host memory at a VA, as it is translated; of other effects it is not needed (R352, R355). -/
def State.storeIpa (s : State) (tag : Byte) (e : Eff) (va : W64) : W64 :=
  match e, s.ctx? tag with
  | .store (.host _) _ _, some c => match s.leafOf c va with | .ok f => w64 (f.ipa va) | .error _ => 0
  | _, _ => 0

/-- The PERMISSION of an atomic that host memory does not take (R151), with a page fault record for its IPA, stage 2 (R355; the model's choice
of its fields, log 16). -/
def State.hostRefusal (s : State) (c : Context) (va : W64) : Acc :=
  .fault cPermission (some (match s.leafOf c va with | .ok f => w64 (f.ipa va) | .error _ => 0, 0, false, 2))

/-! ### The address check (R136) -/

/-- What R136 needs to know of an access: its kind, its size, whether it is slice-only, and for an atomic whether host memory
takes it (R151). -/
structure AccReq where
  kind : AccKind
  size : Nat
  sliceOnly : Bool
  hostOk : Bool
deriving DecidableEq, Repr

/-- A plain access of a kind and size. -/
def AccReq.plain (k : AccKind) (n : Nat) : AccReq := ⟨k, n, false, true⟩

/-- The context of an instance. -/
def State.ctxOf (s : State) (i : Nat) : Option Context := (s.inst? i).bind fun x => s.ctx? x.tag

/-- The checks of R136 in order, for a tile of the instance at index i. -/
def State.check (s : State) (i : Nat) (r : AccReq) (va : W64) : Acc :=
  match s.inst? i with
  | none => .minor
  | some x =>
    if fld va 55 9 != 0 then .fault cTranslation (some (0, 0, false, 1))
    else if va.toNat % r.size != 0 then .fault cMisaligned none
    else if va.getLsbD 54 then
      let t := fld va 21 33
      let o := fld va 0 21
      if x.tiles.length ≤ t || sliceSize ≤ o then .fault cSliceRange none
      else match x.tiles[t]? with
        | none => .fault cSliceRange none
        | some tt =>
          if vget (s.physAt tt.phys).banks (bankOf tt.coarse o) 0 != x.tag then .fault cOwner none
          else .loc (.slice t o)
    else if r.sliceOnly then .fault cPermission none
    else match s.ctx? x.tag with
      | none => .fault cTranslation (some (0, 1, false, 1))
      | some c => match s.translate c r.kind va with
        | .loc (.host h) => if r.kind == .atomic && !r.hostOk then s.hostRefusal c va else .loc (.host h)
        | a => a

/-- The checks of R136 for an access of a tile's sequencer, which a bank that is closed to its owner faults (R141). -/
def State.seqCheck (s : State) (i : Nat) (r : AccReq) (va : W64) : Acc :=
  match s.check i r va with
  | .loc (.slice t o) => match s.tile? i t with
    | some y => if (s.physAt y.phys).closed.contains (bankOf y.coarse o) then .fault cOwner none else .loc (.slice t o)
    | none => .loc (.slice t o)
  | a => a

/-- The checks of R136 for a packet of no instance, a queue's COPY (R283): it has no tile map, so the slice window is out of range. -/
def State.checkTag (s : State) (i : Nat) (tag : Byte) (r : AccReq) (va : W64) : Acc :=
  match s.inst? i with
  | some _ => s.check i r va
  | none =>
    if fld va 55 9 != 0 then .fault cTranslation (some (0, 0, false, 1))
    else if va.toNat % r.size != 0 then .fault cMisaligned none
    else if va.getLsbD 54 then .fault cSliceRange none
    else if r.sliceOnly then .fault cPermission none
    else match s.ctx? tag with
      | none => .fault cTranslation (some (0, 1, false, 1))
      | some c => s.translate c r.kind va

/-- sr.info of R137. -/
def accInfo (slot : Nat) (write : Bool) (va : W64) : W64 :=
  w64 (slot * 2 ^ 57 + (if write then 2 ^ 56 else 0) + (if fld va 55 9 != 0 then 2 ^ 55 else 0) + fld va 0 55)

/-- The content of a page fault record below its sequence (R355): ipa, va and the word with code, engine, level, write, walk,
stage. -/
def pageContent (p : W64 × Nat × Bool × Nat) (code : Byte) (engine : BitVec 3) (write : Bool) (va : W64) : BitVec 192 :=
  let m := w64 (code.toNat * 2 ^ 16 + engine.toNat * 2 ^ 13 + p.2.1 * 2 ^ 11 + (if write then 2 ^ 10 else 0)
    + (if p.2.2.1 then 2 ^ 9 else 0) + p.2.2.2)
  p.1 ++ va ++ m

/-! ### Accesses to peers (R369-R371) -/

/-- Whether stores to peers that an asker made are not yet complete (R371). -/
def State.storesOut (s : State) (tag : Byte) (i t who : Nat) : Bool :=
  match s.ctx? tag with
  | none => false
  | some c => c.sessions.toList.any fun x => x.stores.any fun q => q.inst == i && q.tile == t && q.who == who

/-- A message put on a session of a context (R369). -/
def State.sendMsg (s : State) (tag : Byte) (i : BitVec 5) (m : MsgBody) : State :=
  s.modCtx tag fun c => c.modSession i fun x => { x with outq := x.outq ++ [m] }

/-- The session of a context at an index. -/
def State.session? (s : State) (tag : Byte) (i : BitVec 5) : Option Session := (s.ctx? tag).bind fun c => c.sessions[i.toNat]?

/-- An access to a peer that wants an answer (R370): the answer where it has come; else none, with the message sent where it was
not. A session that is no longer open answers PEER_LOST (R374). -/
def State.askPeer (s : State) (tag : Byte) (i : BitVec 5) (q : Ask) (m : MsgBody) : Option Answer × State :=
  match s.session? tag i with
  | none => (none, s)
  | some x => match lookupKey q x.got with
    | some a => (some a, s)
    | none =>
      if !x.opened then (some (.failed cPeerLost), s)
      else if x.asked.contains (some q) then (none, s)
      else (none, (s.sendMsg tag i m).modCtx tag fun c => c.modSession i fun x => { x with asked := x.asked ++ [some q] })

/-- An answer that has been used. -/
def State.tookPeer (s : State) (tag : Byte) (i : BitVec 5) (q : Ask) : State :=
  s.modCtx tag fun c => c.modSession i fun x => { x with got := dropKey q x.got }

/-- A store to a peer, whose completion is awaited (R371). -/
def State.storePeer (s : State) (tag : Byte) (i : BitVec 5) (q : Ask) (sz : Size) (v : W64) : State :=
  (s.sendMsg tag i (.write q.va sz v)).modCtx tag fun c => c.modSession i fun x => { x with stores := x.stores ++ [q] }

/-- The size of n bytes. -/
def sizeOf : Nat → Size
  | 1 => .b1 | 2 => .b2 | 4 => .b4 | _ => .b8

/-- Replies that reach nobody: those that a tile's askers of a range of codes still await, and those that have come. -/
def Session.dropAsked (x : Session) (i t lo n : Nat) : Session :=
  let mine (a : Ask) : Bool := a.inst == i && a.tile == t && decide (lo ≤ a.who) && decide (a.who < lo + n)
  { x with
    asked := x.asked.map fun a => if a.any mine then none else a
    got := x.got.filter fun a => !mine a.1 }

/-- The same over every session of the context. -/
def Context.dropAskers (c : Context) (i t lo n : Nat) : Context :=
  { c with sessions := c.sessions.map fun x => x.dropAsked i t lo n }

/-! ### What Hazel writes into the memory of a context (R272, R314, R355, R391) -/

/-- Bytes cut into pieces of 8. -/
def pieces8 : Nat → List Byte → List (List Byte)
  | 0, _ => []
  | n + 1, l => if l.isEmpty then [] else l.take 8 :: pieces8 n (l.drop 8)

/-- The codes of such writes in an Ask: 254, or 255 for those of the audit ring, which wait for none of the others. -/
def PostKind.who : PostKind → Nat
  | .audit _ _ => 255
  | _ => 254

/-- Bytes with the addresses of their pieces, and what the translation of each gives. -/
def State.postAccs (s : State) (c : Context) (k : AccKind) : W64 → List (List Byte) → List (W64 × List Byte × Acc)
  | _, [] => []
  | va, p :: ps =>
    (va, p, if fld va 54 10 != 0 then .fault cTranslation none else s.translate c k va) :: s.postAccs c k (va + w64 p.length) ps

/-- The pieces of some bytes from a VA on: of 8 where it is aligned. -/
def postPieces (va : W64) (bs : List Byte) : List (List Byte) :=
  if va.toNat % 8 = 0 then pieces8 (bs.length + 1) bs else bs.map fun b => [b]

/-- What an access gives: it is made; it must wait; or it fails. -/
inductive PostRes (α : Type) where
  | done (s : State) (a : α)
  | wait (s : State)
  | failed (s : State)

/-- Whether a reservation holds the access of a piece (R140). -/
def State.accHeld (s : State) (a : W64 × List Byte × Acc) : Bool :=
  match a.2.2 with
  | .loc l => !l.isRemote && s.reservedElsewhere noInst 0 l a.2.1.length
  | _ => false

/-- Bytes written at a VA of a context, once none of their accesses must wait; none is written where one fails. -/
def State.postWrite (s : State) (c : Context) (who : Nat) (va : W64) (bs : List Byte) : PostRes Unit :=
  let as := s.postAccs c .write va (postPieces va bs)
  if as.any fun a => match a.2.2 with | .fault _ _ => true | _ => false then .failed s
  else if as.any fun a => a.2.2 == .minor || s.accHeld a then .wait s
  else .done (as.foldl (fun s a => match a.2.2 with
    | .loc (.remote k v) => s.storePeer c.tag k ⟨noInst, 0, who, v⟩ (sizeOf a.2.1.length) (wordOf a.2.1)
    | .loc l => s.writeLoc noInst l a.2.1
    | _ => s) s) ()

/-- The bytes that pieces hold, each read at its home. -/
def State.postBytes (s : State) (tag : Byte) (who : Nat) : List (W64 × List Byte × Acc) → PostRes (List Byte)
  | [] => .done s []
  | a :: as =>
    let n := a.2.1.length
    let here : PostRes (List Byte) := match a.2.2 with
      | .fault _ _ => .failed s
      | .minor => .wait s
      | .loc (.remote k v) => match s.askPeer tag k ⟨noInst, 0, who, v⟩ (.read v (sizeOf n)) with
        | (none, s) => .wait s
        | (some (.failed _), s) => .failed s
        | (some (.data d), s) => .done s (bytesOf n d)
      | .loc l => if s.accHeld a then .wait s else .done s (s.readLoc noInst l n)
    match here with
    | .done s bs => (match s.postBytes tag who as with
      | .done s cs => .done s (bs ++ cs)
      | r => r)
    | r => r

/-- Whether a session may receive, so that it may carry a read or an atomic to its peer (R370). -/
def Context.receives (c : Context) (k : BitVec 5) : Bool := match c.sessions[k.toNat]? with | some x => x.receive | none => false

/-- The word at a VA of a context that such a write depends on: a count needs what the writes need (R348), and at a peer a session that may receive
(R370); the read index of the audit ring is read. -/
def State.postRead (s : State) (c : Context) (kind : PostKind) (va : W64) : PostRes W64 :=
  let k : AccKind := match kind with | .audit _ _ => .read | _ => .write
  let back (a : W64 × List Byte × Acc) : W64 × List Byte × Acc := match a.2.2 with
    | .loc (.remote i _) => if c.receives i then a else (a.1, a.2.1, .fault cLinkPermit none)
    | _ => a
  match s.postBytes c.tag kind.who ((s.postAccs c k va (postPieces va (List.replicate 8 0))).map back) with
  | .done s bs => .done (s.modCtx c.tag fun c => c.dropAskers noInst 0 kind.who 1) (wordOf bs)
  | .wait s => .wait s
  | .failed s => .failed (s.modCtx c.tag fun c => c.dropAskers noInst 0 kind.who 1)

/-- What is written once the word has been read: an escalation record and the count after it (R391); the count of the report (R314); a record of
the audit ring and the index after it, where the ring has room (R272). -/
def PostKind.after (c : Context) (n : W64) : PostKind → Option (List PostOp)
  | .page _ _ => some []
  | .escalation r => some [.write (w64 (0xA0040 + 64 * (n.toNat % 64))) (vecBytes 64 r), .write 0xA0000 (vecBytes 8 (n + 1))]
  | .report => some [.write 0x80000 (vecBytes 8 (n + 1))]
  | .audit va r =>
    if 256 ≤ (c.audit.index - n).toNat then none
    else some [.write (va + 32 * w64 (c.audit.index.toNat % 256)) (vecBytes 32 r), .write (va + 8192) (vecBytes 8 (c.audit.index + 1))]

/-- How far such a write has come: it has ended, well or not; or accesses are left. -/
inductive PostEnd where
  | ended (ok : Bool)
  | left (ops : List PostOp)

/-- Whether a peer has refused a store of such a write. -/
def State.postRefused (s : State) (tag : Byte) (who : Nat) : Bool :=
  match s.ctx? tag with
  | none => true
  | some c => c.sessions.toList.any fun x => x.got.any fun a => a.1.inst == noInst && a.1.who == who && (match a.2 with
    | .failed _ => true
    | .data _ => false)

/-- The accesses of such a write made in order, each after those before it are performed, until one must wait or fails; at most n. -/
def State.runPost (tag : Byte) (kind : PostKind) : Nat → List PostOp → State → State × PostEnd
  | 0, ops, s => (s, .left ops)
  | n + 1, ops, s =>
    if s.storesOut tag noInst 0 kind.who then (s, .left ops)
    else if s.postRefused tag kind.who then (s.modCtx tag fun c => c.dropAskers noInst 0 kind.who 1, .ended false)
    else match s.ctx? tag, ops with
      | none, _ => (s, .ended false)
      | _, [] => (s, .ended true)
      | some c, .write va bs :: rest => (match s.postWrite c kind.who va bs with
        | .done s _ => State.runPost tag kind n rest s
        | .wait s => (s, .left ops)
        | .failed s => (s, .ended false))
      | some c, .read va :: rest => (match s.postRead c kind va with
        | .done s v => (match kind.after c v with
          | some more => State.runPost tag kind n (rest ++ more) s
          | none => (s, .ended false))
        | .wait s => (s, .left ops)
        | .failed s => (s, .ended false))

/-- What the end of such a write leaves: a record of the audit ring counts in the index, or as dropped; whether the report was written is
kept for the fault that follows it. -/
def State.postEnd (s : State) (tag : Byte) (ok : Bool) : PostKind → State
  | .page _ _ => s
  | .escalation _ => s
  | .report => s.modCtx tag fun c => { c with report := c.report.map fun r => { r with ended := some ok } }
  | .audit _ _ => s.modCtx tag fun c =>
    { c with audit := if ok then { c.audit with index := c.audit.index + 1 } else { c.audit with dropped := c.audit.dropped + 1 } }

/-- The accesses that such a write can make at most. -/
def postFuel : Nat := 8

/-- Something that Hazel writes into the memory of a context: at once, or behind what waits there before it. An evicted context has no
memory: it waits for its return. -/
def State.post (s : State) (tag : Byte) (kind : PostKind) (ops : List PostOp) : State :=
  match s.ctx? tag with
  | none => s
  | some c =>
    let put (s : State) (ops : List PostOp) : State := s.modCtx tag fun c => { c with posts := c.posts ++ [⟨kind, ops⟩] }
    if c.st == .evicted || c.posts.any (fun p => p.kind.who == kind.who) then put s ops
    else match State.runPost tag kind postFuel ops s with
      | (s, .ended ok) => s.postEnd tag ok kind
      | (s, .left ops) => put s ops

/-- The first write that waits, of a code, goes on, and those behind it once it has ended; at most n. -/
def State.flushPosts (tag : Byte) (who : Nat) : Nat → State → State
  | 0, s => s
  | n + 1, s =>
    match (s.ctx? tag).bind fun c => if c.st == .evicted then none else c.posts.find? fun p => p.kind.who == who with
    | none => s
    | some p =>
      let rest (q : List Post) (s : State) : State := s.modCtx tag fun c =>
        { c with posts := (c.posts.filter fun p => p.kind.who != who) ++ q ++ (c.posts.filter fun p => p.kind.who == who).tail }
      match State.runPost tag p.kind postFuel p.ops s with
      | (s, .ended ok) => State.flushPosts tag who n ((rest [] s).postEnd tag ok p.kind)
      | (s, .left ops) => rest [{ p with ops := ops }] s

/-- What Hazel still has to write into the memories of contexts goes on. -/
def State.flush (s : State) : State :=
  s.ctxs.foldl (fun s c =>
    if c.posts.isEmpty then s
    else State.flushPosts c.tag 255 c.posts.length (State.flushPosts c.tag 254 c.posts.length s)) s

/-- Whether the page fault record of a tile is still to be written (R355). -/
def State.recordDue (s : State) (tag : Byte) (i t : Nat) : Bool :=
  match s.ctx? tag with
  | none => false
  | some c => c.posts.any fun p => p.kind == .page i t

/-! ### Faults of a tile (R379-R386, R390, R391) -/

/-- The page fault record of R355, written to 0x9_0000 + 32 × the logical tile id; a record whose write fails is dropped, and its
sequence is used all the same. -/
def State.pageRecord (s : State) (i t : Nat) (p : BitVec 192) : State :=
  match s.inst? i, s.tile? i t with
  | some y, some x =>
    let n := x.pageSeq + 1
    let rec192 : BitVec 256 := p.extractLsb' 128 64 ++ p.extractLsb' 64 64 ++ n ++ p.extractLsb' 0 64
    (s.modTile i t fun x => { x with pageSeq := n }).post y.tag (.page i t) [.write (w64 (0x90000 + 32 * t)) (vecBytes 32 rec192)]
  | _, _ => s

/-- The page fault record of a fault, where it has one. -/
def State.pageRecord? (s : State) (i t : Nat) : Option (BitVec 192) → State
  | none => s
  | some p => s.pageRecord i t p

/-- The escalation record of R391, at the place that the count at 0xA_0000 gives, and the count after it; dropped when a write fails. -/
def State.escRecord (s : State) (i t : Nat) (f : FaultArg) (reason : Nat) : State :=
  match s.inst? i, s.tile? i t with
  | some y, some x =>
    let cause : W64 := w64 (2 ^ 31 + f.engine.toNat * 2 ^ 16 + f.code.toNat)
    s.post y.tag (.escalation (f.epc ++ f.info ++ cause ++ x.sr.ctx ++ BitVec.ofNat 224 0 ++ BitVec.ofNat 16 t
      ++ BitVec.ofNat 8 0 ++ BitVec.ofNat 8 reason)) [.read 0xA0000]
  | _, _ => s

/-- A strip with no work (R390 step 4). -/
def Strip.drop (x : Strip) : Strip :=
  { x with queue := [], run := none, flight := [], cur := none, stopped := false, checkFault := false }

/-- A stream stopped and empty (R390 step 2). -/
def Stream.drop (x : Stream) : Stream := { x with st := .empty, queue := [], stopping := false }

/-- A VC with nothing on its way (R390 step 2). -/
def Vc.drop (v : Vc) : Vc :=
  { v with sent := 0, feed := [], pend := [], filt := [], ready := [], arrived := [], made := [], pos := 0, pack := [], conv := [] }

/-- No pending fault. -/
def Pend.empty : Pend := { streams := [], strq := [], ast := none, est := none, pst := none, mxe := none, eng0 := [] }

/-- A block in its check or perform phase, whose commit nothing takes back (R41). -/
def Block.committing (b : Block) : Bool := b.checking || b.perform.isSome

/-- A tile whose part in the instance has ended with its engine work discarded (R390 step 4); a block in its check or perform phase
still completes its commit (R390 step 1). -/
def Tile.endNow (t : Tile) : Tile :=
  let kept := t.seq.block.filter Block.committing
  { t with
    seq := { t.seq with block := kept, park := none, outer := none, halted := true, finished := true, service := none, pend := .empty }
    ast := t.ast.drop
    est := t.est.drop
    pst := t.pst.drop
    mxe := { t.mxe with
      queue := [], beat := [], held := none, pipe := [], work := [], stopped := false
      slots := t.mxe.slots.map fun x => { x with filled := [] } }
    stream := t.stream.map Stream.drop
    chan := t.chan.map fun c => { c with entries := [] }
    vc := t.vc.map Vc.drop
    halos := []
    reserved := if kept.isSome then t.reserved else [] }

/-- A copy engine without the packets of an instance, and without what is on its way to it (R390). -/
def CpEngine.dropInst (e : CpEngine) (i : Nat) : CpEngine :=
  { e with
    waiting := e.waiting.filter fun p => p.inst != i
    active := e.active.filter fun a => a.p.inst != i
    inbox := e.inbox.filter fun u => u.inst != i
    permitIn := e.permitIn.filter fun u => u.2.1 != i }

/-- The replies that a tile's block still awaits from peers reach no slot once the block is discarded (R41): those of its loads and
atomics, and of the checks of its atomics. -/
def Context.dropAsked (c : Context) (i t : Nat) : Context := (c.dropAskers i t 0 128).dropAskers i t 1024 32

/-- Escalation of a fault that a tile raised (R390, R391): the record, the count, and the end of every tile and fabric node of the
instance; the instance drains. A fault in a region that already escalates is discarded. -/
def State.escalate (s : State) (i t : Nat) (f : FaultArg) (reason : Nat) : State :=
  match s.inst? i with
  | none => s
  | some x =>
    if x.st == .retired || x.tiles.all (fun y => y.seq.finished) then s
    else
      let s := s.escRecord i t f reason
      let s := s.count x.tag 0x16 1
      let s := s.modCtx x.tag fun c => (x.tiles.zipIdx).foldl (fun c y =>
        if y.1.seq.block.any Block.committing then c else c.dropAsked i y.2) c
      let s := s.modInst i fun x =>
        { x with
          tiles := x.tiles.map Tile.endNow
          nodes := x.nodes.map fun n => { n with finished := true, stopped := true }
          st := .draining
          escalated := true }
      { s with copy := s.copy.map fun e => e.dropInst i }

/-- Discarding the block of a tile (R41): nothing of it remains, its reservations end, and the tile fetches it again from an
address. -/
def State.discardBlock (s : State) (i t : Nat) (next : W64) : State :=
  match s.inst? i with
  | none => s
  | some x =>
    (s.modCtx x.tag fun c => c.dropAsked i t).modTile i t fun y =>
      { y with seq := { y.seq with next := next, block := none }, reserved := [] }

/-- Taking a fault on a tile (R381): the page fault record, escalation when there is no handler or the tile is in one, else
sr.cause, sr.info and sr.epc, the count, and sr.hvec as the next address in handler mode; the block is discarded (R41). A fault of
a tile that has finished is discarded (R390). -/
def State.takeFault (s : State) (i t : Nat) (f : FaultArg) : State :=
  match s.inst? i, s.tile? i t with
  | some x, some y =>
    if y.seq.finished then s.discardBlock i t y.seq.next else
    let s := s.pageRecord? i t f.page
    if y.sr.hvec = 0 then (s.discardBlock i t y.seq.next).escalate i t f 1
    else if y.sr.cause.getLsbD 31 then (s.discardBlock i t y.seq.next).escalate i t f 2
    else
      let s := (s.count x.tag 0x16 1).discardBlock i t y.sr.hvec
      s.modTile i t fun y =>
        { y with
          sr := { y.sr with cause := w64 (2 ^ 31 + f.engine.toNat * 2 ^ 16 + f.code.toNat), info := f.info, epc := f.epc }
          seq := { y.seq with park := none, outer := y.seq.park } }
  | _, _ => s

/-- Whether any fault is pending (R383). -/
def Pend.any (p : Pend) : Bool :=
  !p.streams.isEmpty || !p.strq.isEmpty || p.ast.isSome || p.est.isSome || p.pst.isSome || p.mxe.isSome || !p.eng0.isEmpty

/-- The address that a committed block leaves in next, 0 where it is a HALT's, whose tile then waits to end (R65, R383). -/
def Tile.nextOf (t : Tile) (b : Block) : W64 :=
  match b.branch with
  | some (.to va) => va
  | some (.yield va) => va
  | some .hret => t.sr.epc
  | _ => 0

/-- The sr.epc value that R383 gives for the sequencer's state: a block in its check or perform phase completes its commit. -/
def Tile.epcNow (t : Tile) : W64 :=
  if t.seq.halted then 0 else match t.seq.block with
    | some b => if b.committing then t.nextOf b else b.header
    | none => t.seq.next

/-- A fault of class A becomes pending on a tile (R383): a stream's own place, the STR queue, an engine's place, or the engine 0
queue; a 17th in a queue escalates (R382). -/
def State.pendFault (s : State) (i t : Nat) (stream : Option (BitVec 4)) (f : PFault) : State :=
  match s.tile? i t with
  | none => s
  | some y =>
    let p := y.seq.pend
    let put (g : Pend → Pend) : State := s.modTile i t fun y => { y with seq := { y.seq with pend := g y.seq.pend } }
    let esc17 : State :=
      (s.pageRecord? i t f.page).escalate i t ⟨f.code, .a, f.engine, f.info, y.epcNow, f.page⟩ 3
    if y.seq.finished then s
    else match f.engine.toNat, stream with
      | 2, some st => put fun p => { p with streams := p.streams.filter (fun q => q.1 != st) ++ [(st, f)] }
      | 2, none => if p.strq.length < 16 then put fun p => { p with strq := p.strq ++ [f] } else esc17
      | 3, _ => put fun p => { p with ast := some f }
      | 4, _ => put fun p => { p with est := some f }
      | 5, _ => put fun p => { p with pst := some f }
      | 6, _ => put fun p => { p with mxe := some f }
      | _, _ => if p.eng0.length < 16 then put fun p => { p with eng0 := p.eng0 ++ [f] } else esc17

/-- A pending fault of an access: sr.info and the page fault record as R137 and R355 give. -/
def accPFault (engine : BitVec 3) (code : Byte) (page : Option (W64 × Nat × Bool × Nat)) (write : Bool) (va : W64) : PFault :=
  { code := code, engine := engine, info := accInfo 0 write va,
    page := page.map fun p => pageContent p code engine write va }

/-- The pending fault that a delivery point takes (R383): streams in ascending order, the STR queue, engines 3 to 6, engine 0. -/
def Pend.pick (p : Pend) : Option (PFault × Pend) :=
  match (List.range 16).findSome? fun k => p.streams.find? fun q => q.1 == BitVec.ofNat 4 k with
  | some (k, f) => some (f, { p with streams := p.streams.filter fun q => q.1 != k })
  | none => match p.strq with
    | f :: l => some (f, { p with strq := l })
    | [] => match p.ast with
      | some f => some (f, { p with ast := none })
      | none => match p.est with
        | some f => some (f, { p with est := none })
        | none => match p.pst with
          | some f => some (f, { p with pst := none })
          | none => match p.mxe with
            | some f => some (f, { p with mxe := none })
            | none => match p.eng0 with
              | f :: l => some (f, { p with eng0 := l })
              | [] => none

/-! ### Slot work of the matrix engine (R235) -/

/-- The PUSH field of a token. -/
def tokPush (k : W64) : Nat := fld k 19 3
/-- The POP field of a token. -/
def tokPop (k : W64) : Nat := fld k 22 3

/-- The slots a token names (R235). -/
def tokSlots (k : W64) : List Nat :=
  let op := fld k 60 4
  if 1 ≤ op ∧ op ≤ 3 then [fld k 48 4, fld k 44 4] else []

/-- Whether a token that names a slot and is ordered before a point has not retired (R235). -/
def Mxe.earlier (m : Mxe) (slot ord : Nat) : Bool :=
  let hit (q : QTok) : Bool := decide (q.ord < ord) && (tokSlots q.tok).contains slot
  m.queue.any hit || (match m.held with | some h => hit h.q | none => false) || m.pipe.any fun d => d.retire && hit d.q

/-- The slot of a piece of slot work. -/
def MxWork.slot : MxWork → Nat
  | .claim k => k.toNat
  | .release k => k.toNat
  | .fill k _ => k.toNat

/-- The claims and releases that nothing ordered before them holds back any more (R235): a claim zeroes its slot. -/
def Mxe.settleWork : Nat → Mxe → Mxe
  | 0, m => m
  | n + 1, m =>
    match m.work.find? fun w =>
      (match w.2 with | .fill _ _ => false | _ => true) && !m.earlier w.2.slot w.1
        && !m.work.any fun v => v.2.slot == w.2.slot && decide (v.1 < w.1) with
    | none => m
    | some w =>
      let m := { m with work := m.work.filter fun v => v.1 != w.1 }
      Mxe.settleWork n (match w.2 with
        | .claim k => { m with slots := vmod m.slots k.toNat fun x => { x with image := 0, failed := false } }
        | _ => m)

/-- The slot work that can be done at once is done. -/
def Mxe.settle (m : Mxe) : Mxe := Mxe.settleWork m.work.length m

/-- Whether a tile stands at a delivery point (R383): a fault pending, not in handler mode, no block past its wait phase. -/
def Tile.deliverable (t : Tile) : Bool := t.seq.pend.any && !t.sr.cause.getLsbD 31 && !t.seq.finished

/-- What an engine does once the handler of its fault has ended (R386, R247): a RUN check fault discards the RUN at the head; a
wrong binding abandons the rest of the RUN; a token fault discards the token; every other fault only ends the stop. -/
def Strip.afterFault (x : Strip) (code : Byte) : Strip :=
  if x.checkFault then { x with queue := x.queue.tail, checkFault := false, stopped := false }
  else if code == cChannel && x.cur.isSome then
    -- the word that was not issued stands in cur; its RUN retires
    { x with cur := none, run := none, queue := if x.run.isSome then x.queue else x.queue.tail, stopped := false }
  else { x with cur := none, stopped := false }

/-- The MXE after the handler of its fault (R235, R247, R386): a held token is discarded, its source goes on, and the slot work that waited
for it is done; after a CHANNEL_PROTOCOL at take the queue is the source. -/
def Mxe.afterFault (m : Mxe) (code : Byte) : Mxe :=
  match m.held with
  | some h => ({ m with held := none, src := h.src, stopped := false } : Mxe).settle
  | none => if code == cChannel then { m with src := none, beat := [], stopped := false } else { m with stopped := false }

/-- The end of a handler for the engines (R386). -/
def Tile.endService (t : Tile) : Tile :=
  match t.seq.service with
  | none => t
  | some (e, code) =>
    let t := { t with seq := { t.seq with service := none } }
    match e.toNat with
    | 3 => { t with ast := t.ast.afterFault code }
    | 4 => { t with est := t.est.afterFault code }
    | 5 => { t with pst := t.pst.afterFault code }
    | 6 => { t with mxe := t.mxe.afterFault code }
    | _ => t

/-- The return from a handler at commit (R132, R384, R385, R386): handler mode ends, next is sr.epc, the engine resumes, and a park
that the fault left in force is entered again, or, when its WAITA has woken meanwhile, passed with the reason. -/
def Tile.handlerReturn (t : Tile) : Tile :=
  let t := t.endService
  let t := { t with
    sr := { t.sr with cause := t.sr.cause &&& ~~~(0x80000000#64) }
    seq := { t.seq with next := t.sr.epc, park := t.seq.outer, outer := none } }
  match t.seq.park with
  | some (.waita _ _ g _ _ (some r)) => { t with g := vmod t.g g.toNat fun _ => r.setWidth 64, seq := { t.seq with park := none } }
  | _ => t

end Sys2Proof.Machine
end

