-- ==== Sys2Proof/Machine/Format.lean ====
section
/-! DEFINITION. Number formats, rounding, conversion and their flags (R94-R112), on exact values: a finite value is
(-1)^s × m × 2^e, and a value to be rounded is (-1)^s × (num ÷ den) × 2^e. -/

namespace Sys2Proof.Machine

/-- A value of a format (R96, R102): a NaN with whether it is signalling, an infinity, or a finite value. -/
inductive FVal where
  | nan (signalling : Bool)
  | inf (s : Bool)
  | fin (s : Bool) (m : Nat) (e : Int)
deriving DecidableEq, Repr

/-! ### Flags (R108) -/

/-- No flag. -/
def fNone : BitVec 5 := 0
/-- invalid. -/
def fInvalid : BitVec 5 := 1
/-- divide-by-zero. -/
def fDivZero : BitVec 5 := 2
/-- overflow. -/
def fOverflow : BitVec 5 := 4
/-- underflow. -/
def fUnderflow : BitVec 5 := 8
/-- inexact. -/
def fInexact : BitVec 5 := 16

/-! ### Formats -/

/-- The element width of a format in bits (R94); for a block format, the size of a block. -/
def fmtWidth (t : BitVec 4) : Nat :=
  match t.toNat with
  | 0 => 32 | 1 => 16 | 2 => 16 | 3 => 8 | 4 => 8 | 5 => 144 | 6 => 96 | 7 => 64
  | 8 => 8 | 9 => 4 | 10 => 64 | 11 => 32 | 12 => 16 | 13 => 8 | 14 => 32 | _ => 16

/-- Whether a format is a binary float (R94). -/
def isFloat (t : BitVec 4) : Bool := (0x041F#16).getLsbD t.toNat

/-- The exponent width of a binary float (R95). -/
def expBits (t : BitVec 4) : Nat :=
  match t.toNat with
  | 0 => 8 | 1 => 8 | 2 => 5 | 3 => 4 | 4 => 5 | _ => 11

/-- The fraction width p of a binary float (R95). -/
def fracBits (t : BitVec 4) : Nat :=
  match t.toNat with
  | 0 => 23 | 1 => 7 | 2 => 10 | 3 => 3 | 4 => 2 | _ => 52

/-- The bias of a binary float (R95). -/
def fmtBias (t : BitVec 4) : Nat := 2 ^ (expBits t - 1) - 1

/-- emin of a binary float (R95). -/
def fmtEmin (t : BitVec 4) : Int := 1 - (fmtBias t : Int)

/-- emax of a binary float (R95); 8 for e4m3. -/
def fmtEmax (t : BitVec 4) : Int := if t == 3 then 8 else (fmtBias t : Int)

/-- The bits of the largest finite magnitude (R95): 0x7E for e4m3. -/
def largestBits (t : BitVec 4) : Nat :=
  if t == 3 then 0x7E else (2 ^ expBits t - 1) * 2 ^ fracBits t - 1

/-- The significand of the largest finite magnitude, in units of 2^(emax - p) (R95). -/
def largestSig (t : BitVec 4) : Nat := if t == 3 then 14 else 2 ^ (fracBits t + 1) - 1

/-- The bits of +∞; e4m3 has none and gives its default NaN 0x7F (R95, R106). -/
def infBits (t : BitVec 4) : Nat :=
  if t == 3 then 0x7F else (2 ^ expBits t - 1) * 2 ^ fracBits t

/-- The default NaN (R95). -/
def defaultNaN (t : BitVec 4) : Nat :=
  if t == 3 then 0x7F else (2 ^ expBits t - 1) * 2 ^ fracBits t + 2 ^ (fracBits t - 1)

/-- The sign bit of a format. -/
def signBit (t : BitVec 4) : Nat := 2 ^ (fmtWidth t - 1)

/-- A magnitude with a sign. -/
def withSign (t : BitVec 4) (s : Bool) (m : Nat) : Nat := if s then m + signBit t else m

/-- The value of an encoding of a binary float (R96, R97). -/
def floatVal (t : BitVec 4) (x : Nat) : FVal :=
  let p := fracBits t
  let w := expBits t
  let s := decide (signBit t ≤ x % (2 * signBit t))
  let e := x / 2 ^ p % 2 ^ w
  let f := x % 2 ^ p
  if t == 3 then
    if e = 15 ∧ f = 7 then .nan false
    else if e = 0 then .fin s f (fmtEmin t - p) else .fin s (2 ^ p + f) ((e : Int) - fmtBias t - p)
  else if e = 2 ^ w - 1 then
    if f = 0 then .inf s else .nan (decide (f < 2 ^ (p - 1)))
  else if e = 0 then .fin s f (fmtEmin t - p)
  else .fin s (2 ^ p + f) ((e : Int) - fmtBias t - p)

/-- The minimum of an integer format (R98). -/
def intMin (t : BitVec 4) : Int :=
  match t.toNat with
  | 9 => -8 | 8 => -128 | 12 => -32768 | 11 => -2147483648 | _ => 0

/-- The maximum of an integer format (R98). -/
def intMax (t : BitVec 4) : Int :=
  match t.toNat with
  | 9 => 7 | 8 => 127 | 12 => 32767 | 11 => 2147483647 | 13 => 255 | 15 => 65535 | _ => 4294967295

/-- Whether an integer format is signed (R94). -/
def isSigned (t : BitVec 4) : Bool := (0x1B00#16).getLsbD t.toNat

/-- The value of an integer encoding (R98). -/
def intVal (t : BitVec 4) (x : Nat) : Int :=
  let y := x % 2 ^ fmtWidth t
  if isSigned t && decide (2 ^ (fmtWidth t - 1) ≤ y) then (y : Int) - (2 ^ fmtWidth t : Nat) else y

/-- Wrap(w, v) (R93). -/
def wrapTo (w : Nat) (v : Int) : Nat := (v % (2 ^ w : Nat)).toNat

/-- Saturate(fmt, v) (R98). -/
def saturate (t : BitVec 4) (v : Int) : Int :=
  if v < intMin t then intMin t else if intMax t < v then intMax t else v

/-- The value of an encoding of a format that is not a block format. -/
def scalarVal (t : BitVec 4) (x : Nat) : FVal :=
  if isFloat t then floatVal t x
  else
    let v := intVal t x
    .fin (decide (v < 0)) v.natAbs 0

/-! ### Elements of beats and of bit strings (R99, R100) -/

/-- The first n elements of width w of a bit string, lowest first. -/
def elems (w : Nat) : Nat → Nat → List Nat
  | 0, _ => []
  | n + 1, x => x % 2 ^ w :: elems w n (x / 2 ^ w)

/-- The bit string of elements of width w, lowest first. -/
def ofElems (w : Nat) : List Nat → Nat
  | [] => 0
  | x :: l => x % 2 ^ w + 2 ^ w * ofElems w l

/-- The elements of a beat (R99); for a block format, its blocks (R100). -/
def beatElems (t : BitVec 4) (b : Beat) : List Nat :=
  elems (fmtWidth t) (if isBlock t then perBeat t / 16 else perBeat t) b.toNat

/-- The beat of its elements, or blocks, padded with zero. -/
def ofBeatElems (t : BitVec 4) (l : List Nat) : Beat := BitVec.ofNat 6144 (ofElems (fmtWidth t) l)

/-! ### Rounding (R104, R105) -/

/-- num ÷ den × 2^k as a fraction. -/
def scaleRat (num den : Nat) (k : Int) : Nat × Nat :=
  if 0 ≤ k then (num * 2 ^ k.toNat, den) else (num, den * 2 ^ (-k).toNat)

/-- RoundInt(num ÷ den, mode, s) (R104); a code that is no mode rounds as RTZ and is never used. -/
def roundInt (mode : BitVec 3) (s : Bool) (num den : Nat) : Nat :=
  let q := num / den
  let r := num % den
  match mode.toNat with
  | 1 => if 2 * r < den then q else if den < 2 * r then q + 1 else if q % 2 = 0 then q else q + 1
  | 3 => if r = 0 ∨ s then q else q + 1
  | 4 => if r = 0 ∨ !s then q else q + 1
  | 5 => if 2 * r < den then q else q + 1
  | _ => q

/-- floor(log2(num ÷ den)), for positive num and den. -/
def floorLog2 (num den : Nat) : Int :=
  let k : Int := (num.log2 : Int) - (den.log2 : Int)
  let (n, d) := scaleRat num den (-k)
  if n < d then k - 1 else k

/-- OverflowResult of R104, with the infinite results of e4m3 as R106 gives. -/
def overflowResult (t : BitVec 4) (mode : BitVec 3) (s : Bool) : Nat :=
  let big := withSign t s (largestBits t)
  let inf := if t == 3 then 0x7F else withSign t s (infBits t)
  match mode.toNat with
  | 2 => big
  | 3 => if s then big else inf
  | 4 => if s then inf else big
  | _ => inf

/-- A magnitude far below or far above every boundary of the format stands for one that rounds alike, so that no shift is
long. -/
def clampExp (t : BitVec 4) (num den : Nat) (e : Int) : Nat × Nat × Int :=
  let l := floorLog2 num den + e
  if l < fmtEmin t - fracBits t - 4 then (1, 1, fmtEmin t - fracBits t - 4)
  else if fmtEmax t + 2 < l then (1, 1, fmtEmax t + 2)
  else (num, den, e)

/-- RoundTo(fmt, mode, v) for v = (-1)^s × (num ÷ den) × 2^e (R104): the encoding and the flags. -/
def roundTo (t : BitVec 4) (mode : BitVec 3) (s : Bool) (num den : Nat) (e : Int) : Nat × BitVec 5 :=
  if num = 0 then (withSign t s 0, fNone)
  else
    let (num, den, e) := clampExp t num den e
    let p : Int := fracBits t
    let l := floorLog2 num den + e
    let (n1, d1) := scaleRat num den (e - (l - p))
    let ru := roundInt mode s n1 d1
    let tiny := decide (l < fmtEmin t) && !(l + 1 == fmtEmin t && ru == 2 ^ (fracBits t + 1))
    let qe := (if l < fmtEmin t then fmtEmin t else l) - p
    let (n2, d2) := scaleRat num den (e - qe)
    let r := roundInt mode s n2 d2
    let (rb, lb) := scaleRat r 1 (qe - (fmtEmax t - p))
    if largestSig t * lb < rb then (overflowResult t mode s, fOverflow ||| fInexact)
    else
      let bits := (qe - (fmtEmin t - p)).toNat * 2 ^ fracBits t + r
      let inexact := r * d2 != n2
      (withSign t s bits, if inexact then (if tiny then fInexact ||| fUnderflow else fInexact) else fNone)

/-- RoundTo of a dyadic m × 2^e; a zero takes sign z. -/
def roundDy (t : BitVec 4) (mode : BitVec 3) (z : Bool) (m : Int) (e : Int) : Nat × BitVec 5 :=
  if m = 0 then (withSign t z 0, fNone) else roundTo t mode (decide (m < 0)) m.natAbs 1 e

/-! ### Exact dyadic arithmetic -/

/-- The sum of m₁ × 2^e₁ and m₂ × 2^e₂. -/
def dyAdd (a b : Int × Int) : Int × Int :=
  if a.2 ≤ b.2 then (a.1 + b.1 * (2 ^ (b.2 - a.2).toNat : Nat), a.2)
  else (a.1 * (2 ^ (a.2 - b.2).toNat : Nat) + b.1, b.2)

/-- The signed significand and exponent of a finite value. -/
def dyOf (s : Bool) (m : Nat) (e : Int) : Int × Int := (if s then -(m : Int) else m, e)

/-- The sum of finite values. -/
def dySum (l : List (Int × Int)) : Int × Int := l.foldl dyAdd (0, 0)

/-! ### Conversion (R106, R107) -/

/-- RoundTo of a finite value into a float, with the saturating variant of R106, which e4m3 and e5m2 have. -/
def finToFloat (t : BitVec 4) (mode : BitVec 3) (sat : Bool) (s : Bool) (num den : Nat) (e : Int) : Nat × BitVec 5 :=
  let (x, f) := roundTo t mode s num den e
  if sat && (t == 3 || t == 4) && (f &&& fOverflow != 0) then (withSign t s (largestBits t), f) else (x, f)

/-- A value that is no integer-to-integer conversion into a format that is no block format (R106, R107). -/
def valTo (t : BitVec 4) (mode : BitVec 3) (sat : Bool) (v : FVal) : Nat × BitVec 5 :=
  if isFloat t then
    match v with
    | .nan sg => (defaultNaN t, if sg then fInvalid else fNone)
    | .inf s =>
      if sat && (t == 3 || t == 4) then (withSign t s (largestBits t), fInvalid)
      else if t == 3 then (0x7F, fInvalid) else (withSign t s (infBits t), fNone)
    | .fin s m e => finToFloat t mode sat s m 1 e
  else
    match v with
    | .nan _ => (0, fInvalid)
    | .inf s => (wrapTo (fmtWidth t) (if s then intMin t else intMax t), fInvalid)
    | .fin s m e =>
      -- beyond 2^40 every integer format saturates, so a long shift is never formed
      if m ≠ 0 ∧ 40 < (m.log2 : Int) + e then (wrapTo (fmtWidth t) (if s then intMin t else intMax t), fInvalid)
      else
        let e' := if (m.log2 : Int) + e < -8 then -(m.log2 : Int) - 8 else e
        let (n, d) := scaleRat m 1 e'
        let k := roundInt mode s n d
        let v : Int := if s then -(k : Int) else k
        if v < intMin t ∨ intMax t < v then (wrapTo (fmtWidth t) (saturate t v), fInvalid)
        else (wrapTo (fmtWidth t) v, if k * d != n then fInexact else fNone)

/-- Conversion of one element between formats that are no block formats (R107); sat is the saturating variant. -/
def cvtScalar (src dst : BitVec 4) (mode : BitVec 3) (sat : Bool) (x : Nat) : Nat × BitVec 5 :=
  if isInteger src && isInteger dst then
    let v := intVal src x
    (wrapTo (fmtWidth dst) (if sat then saturate dst v else v), fNone)
  else valTo dst mode (sat && !isInteger dst) (scalarVal src x)

/-! ### Block formats (R101-R103) -/

/-- Mantissa bits m of a block format (R101). -/
def blockM (t : BitVec 4) : Nat :=
  match t.toNat with
  | 5 => 7 | 6 => 4 | _ => 2

/-- The 16 values of a block (R101, R102). -/
def blockVals (t : BitVec 4) (x : Nat) : List FVal :=
  let m := blockM t
  let E := x % 256
  (List.range 16).map fun i =>
    if E = 255 then .nan false
    else
      let d : Nat := x / 2 ^ (8 + 2 * (i / 4)) % 4
      let f : Nat := x / 2 ^ (16 + (m + 1) * i) % 2 ^ (m + 1)
      .fin (decide (2 ^ m ≤ f)) (f % 2 ^ m) ((E : Int) - 127 - d - (m - 1))

/-- floor(log2|x|) of a finite non-zero value. -/
def log2Val : FVal → Option Int
  | .fin _ m e => if m = 0 then none else some ((m.log2 : Int) + e)
  | _ => none

/-- The largest of some numbers. -/
def maxInt? : List Int → Option Int
  | [] => none
  | x :: l => match maxInt? l with
    | none => some x
    | some y => some (if x < y then y else x)

/-- Conversion of 16 values into a block (R103): the block and the flags. -/
def toBlock (t : BitVec 4) (xs : List FVal) : Nat × BitVec 5 :=
  let m := blockM t
  if xs.any (fun v => match v with | .fin _ _ _ => false | _ => true) then
    (255, if xs.any (fun v => match v with | .inf _ => true | .nan sg => sg | _ => false) then fInvalid else fNone)
  else
    let eb := (maxInt? (xs.filterMap log2Val)).getD (-127)
    let E0 := eb + 127
    let clampLow := decide (E0 < 0)
    let f0 := if 254 < E0 then fOverflow else fNone
    let E : Int := if 254 < E0 then 254 else if E0 < 0 then 0 else E0
    let ds : List Nat := (List.range 4).map fun j =>
      match maxInt? (((xs.drop (4 * j)).take 4).filterMap log2Val) with
      | none => 3
      | some eq =>
        let v := E - 127 - eq
        if v < 0 then 0 else if 3 < v then 3 else v.toNat
    let parts : List (Nat × BitVec 5) := (List.range 16).map fun i =>
      match xs.getD i (.fin false 0 0) with
      | .fin s mm e =>
        let q : Int := E - 127 - (ds.getD (i / 4) 0 : Int) - (m - 1)
        -- far below one half of the quantum the mantissa is 0 all the same
        let e' := if mm ≠ 0 ∧ (mm.log2 : Int) + e - q < -4 then q - 4 - mm.log2 else e
        let (n, d) := scaleRat mm 1 (e' - q)
        let M0 := roundInt 1 s n d
        let M := if 2 ^ m ≤ M0 then 2 ^ m - 1 else M0
        let fl := if M * d != n then (if clampLow then fInexact ||| fUnderflow else fInexact) else fNone
        (M + (if s then 2 ^ m else 0), fl)
      | _ => (0, fNone)
    let x := E.toNat + 256 * ofElems 2 ds + 65536 * ofElems (m + 1) (parts.map (·.1))
    (x, parts.foldl (fun a p => a ||| p.2) f0)

/-! ### Elements of any format as values -/

/-- The values of a format's elements in a list of its units: one per unit, or 16 per block. -/
def unitVals (t : BitVec 4) (units : List Nat) : List FVal :=
  if isBlock t then units.flatMap (blockVals t) else units.map (scalarVal t)

/-- Whether two formats are integers, so that a conversion between them wraps or saturates (R107). -/
def intPair (src dst : BitVec 4) : Bool := isInteger src && isInteger dst

/-- A finite value times a scale that is a finite float: exact (R107 with a scale; R173, R177). Infinities and NaNs of the scale
follow R97 and R108. The sign of a zero is that of the product; an integer 0, which has no sign, counts as positive, so that a negative scale
gives -0 (DESIGN CHOICE, log 77). -/
def scaleVal (v : FVal) (k : FVal) : FVal × BitVec 5 :=
  match v, k with
  | .nan a, .nan b => (.nan false, if a || b then fInvalid else fNone)
  | .nan a, _ => (.nan false, if a then fInvalid else fNone)
  | _, .nan b => (.nan false, if b then fInvalid else fNone)
  | .inf a, .inf b => (.inf (a != b), fNone)
  | .inf a, .fin b m _ => if m = 0 then (.nan false, fInvalid) else (.inf (a != b), fNone)
  | .fin a m _, .inf b => if m = 0 then (.nan false, fInvalid) else (.inf (a != b), fNone)
  | .fin a m e, .fin b n f => (.fin (a != b) (m * n) (e + f), fNone)

end Sys2Proof.Machine
end

