-- ==== Sys2Proof/Machine/Elementary.lean ====
section
/-! DEFINITION. The elementary functions of the E-strip (R212-R222): special values, exact cases, and the correctly rounded
value found from enclosures of growing precision (log 12). An enclosure at precision P is a pair of integers in units of
2^-P with the real number between them. -/

namespace Sys2Proof.Machine

/-- An enclosure: lo ≤ x × 2^P ≤ hi. -/
structure Iv where
  lo : Int
  hi : Int
deriving DecidableEq, Repr

/-- An enclosure with a scale: lo × 2^e ≤ x ≤ hi × 2^e. -/
structure Enc where
  lo : Int
  hi : Int
  e : Int
deriving DecidableEq, Repr

/-- Division by 2^k rounded up. -/
def shiftUp (x : Int) (k : Nat) : Int := -((-x) / (2 ^ k : Nat))

/-- Division by a positive number rounded up. -/
def divUp (x : Int) (d : Int) : Int := -((-x) / d)

/-- The integer square root, by Newton's method from above. -/
def isqrtLoop (n : Nat) : Nat → Nat → Nat
  | 0, x => x
  | f + 1, x =>
    let y := (x + n / x) / 2
    if x ≤ y then x else isqrtLoop n f y

/-- floor(√n). -/
def isqrt (n : Nat) : Nat := if n = 0 then 0 else isqrtLoop n (n.log2 + 8) (2 ^ (n.log2 / 2 + 1))

/-- The smaller of two integers. -/
def imin (a b : Int) : Int := if a ≤ b then a else b
/-- The larger of two integers. -/
def imax (a b : Int) : Int := if a ≤ b then b else a

/-- Sum of enclosures. -/
def Iv.add (a b : Iv) : Iv := ⟨a.lo + b.lo, a.hi + b.hi⟩
/-- Difference of enclosures. -/
def Iv.sub (a b : Iv) : Iv := ⟨a.lo - b.hi, a.hi - b.lo⟩
/-- Negation of an enclosure. -/
def Iv.neg (a : Iv) : Iv := ⟨-a.hi, -a.lo⟩
/-- An enclosure times an integer. -/
def Iv.scale (a : Iv) (k : Int) : Iv := if 0 ≤ k then ⟨a.lo * k, a.hi * k⟩ else ⟨a.hi * k, a.lo * k⟩
/-- An enclosure divided by a positive integer. -/
def Iv.divNat (a : Iv) (n : Nat) : Iv := ⟨a.lo / (n : Int), divUp a.hi n⟩
/-- Product of enclosures at precision P. -/
def Iv.mul (P : Nat) (a b : Iv) : Iv :=
  if 0 ≤ a.lo ∧ 0 ≤ b.lo then ⟨a.lo * b.lo / (2 ^ P : Nat), shiftUp (a.hi * b.hi) P⟩
  else
    let p := a.lo * b.lo
    let q := a.lo * b.hi
    let r := a.hi * b.lo
    let s := a.hi * b.hi
    ⟨imin (imin p q) (imin r s) / (2 ^ P : Nat), shiftUp (imax (imax p q) (imax r s)) P⟩
/-- The inverse of an enclosure of positive numbers. -/
def Iv.inv (P : Nat) (a : Iv) : Iv := ⟨(2 ^ (2 * P) : Nat) / a.hi, divUp (2 ^ (2 * P) : Nat) a.lo⟩
/-- The square root of an enclosure of numbers not below 0. -/
def Iv.sqrt (P : Nat) (a : Iv) : Iv := ⟨isqrt (a.lo.toNat * 2 ^ P), isqrt (a.hi.toNat * 2 ^ P) + 1⟩
/-- 1 at precision P. -/
def Iv.one (P : Nat) : Iv := ⟨(2 ^ P : Nat), (2 ^ P : Nat)⟩
/-- Widening by k units on each side. -/
def Iv.widen (a : Iv) (k : Int) : Iv := ⟨a.lo - k, a.hi + k⟩
/-- From precision Q to precision P, for P not above Q. -/
def Iv.lower (Q P : Nat) (a : Iv) : Iv := ⟨a.lo / (2 ^ (Q - P) : Nat), shiftUp a.hi (Q - P)⟩
/-- An enclosure times 2^n. -/
def Iv.shift (a : Iv) (n : Int) : Iv :=
  if 0 ≤ n then ⟨a.lo * (2 ^ n.toNat : Nat), a.hi * (2 ^ n.toNat : Nat)⟩
  else ⟨a.lo / (2 ^ (-n).toNat : Nat), shiftUp a.hi (-n).toNat⟩
/-- The enclosure of m × 2^e. -/
def ivDy (P : Nat) (m : Int) (e : Int) : Iv := Iv.shift ⟨m, m⟩ (e + P)
/-- The enclosure of num ÷ den × 2^e, den positive. -/
def ivRat (P : Nat) (num : Int) (den : Nat) (e : Int) : Iv :=
  if 0 ≤ e + P then
    let n := num * (2 ^ (e + P).toNat : Nat)
    ⟨n / (den : Int), divUp n den⟩
  else
    let d : Int := den * (2 ^ (-(e + P)).toNat : Nat)
    ⟨num / d, divUp num d⟩
/-- The scaled enclosure of an enclosure. -/
def Iv.enc (P : Nat) (a : Iv) (n : Int) : Enc := ⟨a.lo, a.hi, n - P⟩

/-! ### Constants -/

/-- Σ (±1)^k ÷ ((2k+1) n^(2k+1)), truncated term by term: the sum and the number of terms. -/
def invSeries (n2 : Nat) (alt : Bool) : Nat → Nat → Nat → Int → Int × Nat
  | 0, k, _, s => (s, k)
  | f + 1, k, pw, s =>
    if pw = 0 then (s, k)
    else
      let t : Int := pw / (2 * k + 1)
      invSeries n2 alt f (k + 1) (pw / n2) (if alt && k % 2 == 1 then s - t else s + t)

/-- artanh(1 ÷ n), or arctan(1 ÷ n), at precision P. -/
def invFn (P n : Nat) (alt : Bool) : Iv :=
  let (s, k) := invSeries (n * n) alt (P + 2) 0 (2 ^ P / n) 0
  Iv.widen ⟨s, s⟩ (2 * k + 4)

/-- ln 2. -/
def ivLn2 (P : Nat) : Iv :=
  ((Iv.scale (invFn P 26 false) 18).sub (Iv.scale (invFn P 4801 false) 2)).add (Iv.scale (invFn P 8749 false) 8)

/-- π. -/
def ivPi (P : Nat) : Iv := (Iv.scale (invFn P 5 true) 16).sub (Iv.scale (invFn P 239 true) 4)

/-! ### Series -/

/-- Σ x^n ÷ n! from the term in hand. -/
def expLoop (P : Nat) (x : Iv) : Nat → Nat → Iv → Iv → Iv
  | 0, _, _, s => s
  | f + 1, n, t, s =>
    let t := (Iv.mul P t x).divNat n
    let s := s.add t
    if -2 ≤ t.lo ∧ t.hi ≤ 2 ∧ 2 ≤ n then s.widen 8 else expLoop P x f (n + 1) t s

/-- e^x for |x| ≤ 1. -/
def expSmall (P : Nat) (x : Iv) : Iv := expLoop P x (P + 16) 1 (Iv.one P) (Iv.one P)

/-- e^x as an enclosure of [1, 2) or so and a power of two. -/
def ivExp (P : Nat) (x : Iv) : Iv × Int :=
  let l := ivLn2 P
  let n := x.lo / l.hi
  (expSmall P (x.sub (Iv.scale l n)), n)

/-- Σ z^(2k+1) ÷ (2k+1), with alternating signs for arctan. -/
def oddLoop (P : Nat) (z2 : Iv) (alt : Bool) : Nat → Nat → Iv → Iv → Iv
  | 0, _, _, s => s
  | f + 1, k, pw, s =>
    let pw := Iv.mul P pw z2
    let t := pw.divNat (2 * k + 1)
    let s := if alt && k % 2 == 1 then s.sub t else s.add t
    if -2 ≤ pw.lo ∧ pw.hi ≤ 2 then s.widen 8 else oddLoop P z2 alt f (k + 1) pw s

/-- ln(m × 2^e), m positive: k ln 2 + 2 artanh((y - 1) ÷ (y + 1)) with y in (2/3, 4/3]. -/
def ivLog (P : Nat) (m : Nat) (e : Int) : Iv :=
  let b := m.log2
  let up := decide (2 ^ (b + 2) < 3 * m)
  let d : Nat := if up then 2 ^ (b + 1) else 2 ^ b
  let k : Int := b + e + (if up then 1 else 0)
  let z := ivRat P ((m : Int) - d) (m + d) 0
  let s := oddLoop P (Iv.mul P z z) false (P + 16) 1 z z
  (Iv.scale (ivLn2 P) k).add (Iv.scale s 2)

/-- arctan z for z in [0, 1]. -/
def ivAtan (P : Nat) (z : Iv) : Iv :=
  let half (z : Iv) : Iv :=
    Iv.mul P z (Iv.inv P ((Iv.one P).add (Iv.sqrt P ((Iv.one P).add (Iv.mul P z z)))))
  let w := half (half z)
  let w := if w.lo < 0 then ⟨0, w.hi⟩ else w
  Iv.scale (oddLoop P (Iv.mul P w w) true (P + 16) 1 w w) 4

/-- arctan(num ÷ den) for positive numbers. -/
def ivAtanRat (P num den : Nat) : Iv :=
  if num ≤ den then ivAtan P (ivRat P num den 0)
  else (ivPi P).divNat 2 |>.sub (ivAtan P (ivRat P den num 0))

/-- arctan √(num ÷ den). -/
def ivAtanSqrt (P num den : Nat) : Iv :=
  if num ≤ den then ivAtan P (Iv.sqrt P (ivRat P num den 0))
  else (ivPi P).divNat 2 |>.sub (ivAtan P (Iv.sqrt P (ivRat P den num 0)))

/-- The series of sin and cos from the term in hand: t ← -t x² ÷ (n (n + 1)). -/
def trigLoop (P : Nat) (x2 : Iv) : Nat → Nat → Iv → Iv → Iv
  | 0, _, _, s => s
  | f + 1, n, t, s =>
    let t := ((Iv.mul P t x2).divNat (n * (n + 1))).neg
    let s := s.add t
    if -2 ≤ t.lo ∧ t.hi ≤ 2 then s.widen 8 else trigLoop P x2 f (n + 2) t s

/-- sin x for |x| ≤ 1. -/
def sinSmall (P : Nat) (x : Iv) : Iv := trigLoop P (Iv.mul P x x) (P + 16) 2 x x
/-- cos x for |x| ≤ 1. -/
def cosSmall (P : Nat) (x : Iv) : Iv := trigLoop P (Iv.mul P x x) (P + 16) 1 (Iv.one P) (Iv.one P)

/-- x = k π/2 + r for x = m × 2^e not below 0: k mod 4 and r. -/
def reduceTrig (P m : Nat) (e : Int) : Nat × Iv :=
  let l : Int := m.log2 + e
  let Q := P + (if 0 < l then l.toNat else 0) + 8
  let h := (ivPi Q).divNat 2
  let x := ivDy Q m e
  let k := (2 * x.lo + h.lo) / (2 * h.lo)
  ((k % 4).toNat, Iv.lower Q P (x.sub (Iv.scale h k)))

/-- sin of k π/2 + r. -/
def sinQ (P k : Nat) (r : Iv) : Iv :=
  match k with
  | 0 => sinSmall P r
  | 1 => cosSmall P r
  | 2 => (sinSmall P r).neg
  | _ => (cosSmall P r).neg

/-- The terms of Σ x (2x²)^k ÷ (2k+1)!!, for erf. -/
def erfLoop (P : Nat) (y : Iv) : Nat → Nat → Iv → Iv → Iv
  | 0, _, _, s => s
  | f + 1, k, t, s =>
    let t := (Iv.mul P t y).divNat (2 * k + 1)
    let s := s.add t
    if t.hi ≤ 2 ∧ y.hi < (2 ^ P : Nat) * (k : Int) then s.widen 8 else erfLoop P y f (k + 1) t s

/-- erf x for 0 < x ≤ 32: 2 ÷ √π × e^(-x²) × Σ. -/
def ivErf (P m : Nat) (e : Int) : Iv :=
  let x := ivDy P m e
  let y := ivDy P (2 * m * m) (2 * e)
  let s := erfLoop P y (8 * P + 8192) 1 x x
  let (ex, n) := ivExp P (ivDy P (-(m * m : Nat)) (2 * e))
  let c := Iv.inv P (Iv.sqrt P (ivPi P))
  Iv.scale ((Iv.mul P (Iv.mul P s c) ex).shift n) 2

/-! ### The functions -/

/-- A value far above every finite value of every format. -/
def encHuge : Enc := ⟨1, 1, 6000⟩
/-- A positive value far below every positive value of every format. -/
def encTiny : Enc := ⟨1, 1, -6000⟩
/-- A value just below 1, closer than any boundary. -/
def encBelow1 : Enc := ⟨(2 ^ 4000 - 1 : Nat), (2 ^ 4000 - 1 : Nat), -4000⟩
/-- A value just below 2. -/
def encBelow2 : Enc := ⟨(2 ^ 4000 - 1 : Nat), (2 ^ 4000 - 1 : Nat), -3999⟩
/-- The negation of an enclosure. -/
def Enc.neg (a : Enc) : Enc := ⟨-a.hi, -a.lo, a.e⟩
/-- An enclosure with the sign of an odd function's operand. -/
def Enc.signed (a : Enc) (s : Bool) : Enc := if s then a.neg else a
/-- No information: the next precision decides. -/
def encNone : Enc := ⟨-1, 1, 6000⟩

/-- floor(log2 x) of m × 2^e. -/
def log2Dy (m : Nat) (e : Int) : Int := m.log2 + e

/-- e^x for x = (-1)^s × m × 2^e. -/
def encExp (P : Nat) (s : Bool) (m : Nat) (e : Int) : Enc :=
  if 13 ≤ log2Dy m e then (if s then encTiny else encHuge)
  else
    let (v, n) := ivExp P (ivDy P (if s then -(m : Int) else m) e)
    v.enc P n

/-- 2^x for x = m × 2^e of sign s, not an integer. -/
def encExp2 (P : Nat) (s : Bool) (m : Nat) (e : Int) : Enc :=
  if 13 ≤ log2Dy m e then (if s then encTiny else encHuge)
  else
    let x : Int := if s then -(m : Int) else m
    let n := x / (2 ^ (-e).toNat : Nat)
    let f := Iv.mul P (ivDy P (x - n * (2 ^ (-e).toNat : Nat)) e) (ivLn2 P)
    (expSmall P f).enc P n

/-- 10^x. -/
def encExp10 (P : Nat) (s : Bool) (m : Nat) (e : Int) : Enc :=
  if 13 ≤ log2Dy m e then (if s then encTiny else encHuge)
  else
    let Q := P + 16
    let (v, n) := ivExp Q (Iv.mul Q (ivDy Q (if s then -(m : Int) else m) e) (ivLog Q 10 0))
    v.enc Q n

/-- e^|x| at precision P, for |x| below 2^11. -/
def expAbs (P : Nat) (m : Nat) (e : Int) : Iv :=
  let (v, n) := ivExp P (ivDy P m e)
  v.shift n

/-- The quotient of enclosures; no information when the divisor may be 0. -/
def encDiv (P : Nat) (a b : Iv) : Enc :=
  if 0 < b.lo then (Iv.mul P a (Iv.inv P b)).enc P 0
  else if b.hi < 0 then (Iv.mul P a (Iv.inv P b.neg)).neg.enc P 0
  else encNone

/-- The unary function of an E-strip opcode (R212) at a finite non-zero operand that no special row and no exact case
decides. -/
def encUnary (op : Nat) (P : Nat) (s : Bool) (m : Nat) (e : Int) : Enc :=
  let big := decide (11 ≤ log2Dy m e)
  match op with
  | 0x02 => encExp P s m e
  | 0x03 => encExp2 P s m e
  | 0x04 => encExp10 P s m e
  | 0x05 =>
    if big then (if s then encBelow1.neg else encHuge)
    else
      let (v, n) := ivExp P (ivDy P (if s then -(m : Int) else m) e)
      ((v.shift n).sub (Iv.one P)).enc P 0
  | 0x06 => (ivLog P m e).enc P 0
  | 0x07 => encDiv P (ivLog P m e) (ivLn2 P)
  | 0x08 => encDiv P (ivLog P m e) (ivLog P 10 0)
  | 0x09 =>
    let (m1, e1) := dyAdd (1, 0) (if s then -(m : Int) else m, e)
    (ivLog P m1.toNat e1).enc P 0
  | 0x0A =>
    let (k, r) := reduceTrig P m e
    ((sinQ P k r).enc P 0).signed s
  | 0x0B =>
    let (k, r) := reduceTrig P m e
    (sinQ P ((k + 1) % 4) r).enc P 0
  | 0x0C =>
    let (k, r) := reduceTrig P m e
    (encDiv P (sinQ P k r) (sinQ P ((k + 1) % 4) r)).signed s
  | 0x0D | 0x0E =>
    -- 2|x| = k + f with |f| ≤ 1/2, exactly; the angle is (k + f) π/2. x is no integer here, so e is negative.
    let d := 2 ^ (-e).toNat
    let k := (4 * m + d) / (2 * d)
    let f : Int := 2 * (m : Int) - k * d
    let r := Iv.mul P ((ivPi P).divNat 2) (ivDy P f e)
    if op = 0x0D then ((sinQ P (k % 4) r).enc P 0).signed s else (sinQ P ((k + 1) % 4) r).enc P 0
  | 0x0F =>
    let d := 2 ^ (-e).toNat
    if m * m * 2 ≤ d * d then
      let z := Iv.mul P (ivDy P m e) (Iv.inv P (Iv.sqrt P (ivRat P (d * d - m * m : Nat) (d * d) 0)))
      ((ivAtan P z).enc P 0).signed s
    else
      (((ivPi P).divNat 2).sub (Iv.scale (ivAtanSqrt P (d - m) (d + m)) 2) |>.enc P 0).signed s
  | 0x10 =>
    let d := 2 ^ (-e).toNat
    if s then (if m = d then (ivPi P).enc P 0
      else ((ivPi P).sub (Iv.scale (ivAtanSqrt P (d - m) (d + m)) 2)).enc P 0)
    else (Iv.scale (ivAtanSqrt P (d - m) (d + m)) 2).enc P 0
  | 0x11 =>
    let (n, d) := scaleRat m 1 e
    ((ivAtanRat P n d).enc P 0).signed s
  | 0x13 =>
    if big then encHuge.signed s
    else
      let x := expAbs P m e
      (((x.sub (Iv.inv P x))).enc P (-1)).signed s
  | 0x14 =>
    if big then encHuge
    else
      let x := expAbs P m e
      (x.add (Iv.inv P x)).enc P (-1)
  | 0x15 =>
    if big then encBelow1.signed s
    else
      let x := expAbs P (2 * m) e
      (((Iv.one P).sub (Iv.scale (Iv.inv P (x.add (Iv.one P))) 2)).enc P 0).signed s
  | 0x16 => if 5 ≤ log2Dy m e then encBelow1.signed s else ((ivErf P m e).enc P 0).signed s
  | 0x17 =>
    if 5 ≤ log2Dy m e then (if s then encBelow2 else encTiny)
    else if s then ((Iv.one P).add (ivErf P m e)).enc P 0 else ((Iv.one P).sub (ivErf P m e)).enc P 0
  | 0x18 =>
    if big then (if s then encTiny else encBelow1)
    else
      let q := Iv.inv P ((expAbs P m e).add (Iv.one P))
      if s then q.enc P 0 else ((Iv.one P).sub q).enc P 0
  | _ => encNone

/-- The cube root of a positive number: floor of the real root of n, by Newton's method from above. -/
def icbrtLoop (n : Nat) : Nat → Nat → Nat
  | 0, x => x
  | f + 1, x =>
    let y := (2 * x + n / (x * x)) / 3
    if x ≤ y then x else icbrtLoop n f y

/-- floor of the cube root. -/
def icbrt (n : Nat) : Nat := if n = 0 then 0 else icbrtLoop n (n.log2 + 16) (2 ^ (n.log2 / 3 + 1))

/-- m × 2^e with e brought to a multiple of k. -/
def alignExp (k : Nat) (m : Nat) (e : Int) : Nat × Int :=
  let r := (e % (k : Int)).toNat
  (m * 2 ^ r, (e - r) / (k : Int))

/-- √ or ∛ of m × 2^e as an enclosure. -/
def encRoot (k P m : Nat) (e : Int) : Enc :=
  let (m, h) := alignExp k m e
  let x := m * 2 ^ (k * P)
  let r := if k = 2 then isqrt x else icbrt x
  ⟨r, r + 1, h - P⟩

/-- |a|^b for positive a ≠ 1 and non-zero b (R217), from b × ln a. -/
def encPow (P : Nat) (ma : Nat) (ea : Int) (sb : Bool) (mb : Nat) (eb : Int) : Enc :=
  let l := ivLog 256 ma ea
  -- |ln a| is at least 2^-60 for every type, so 256 bits give its magnitude
  let big := imax l.hi (-l.lo)
  let lg : Int := big.toNat.log2 - 256 + log2Dy mb eb
  let neg := decide (l.hi < 0)
  if 14 < lg then (if neg == sb then encHuge else encTiny)
  else
    let Q := P + 16 + (if 0 < log2Dy mb eb then (log2Dy mb eb).toNat else 0)
    let L := ivLog Q ma ea
    let T := (Iv.scale L (if sb then -(mb : Int) else mb)).shift eb
    let (v, n) := ivExp Q T
    v.enc Q n

/-- The binary functions that are not rational: ATAN2 and POW (of |a|), and roots by their opcode. -/
def encFn (op : Nat) (P : Nat) (a b : FVal) : Enc :=
  match a, b with
  | .fin sa ma ea, .fin sb mb eb =>
    match op with
    | 0x12 =>
      let (n, d) := scaleRat ma mb (ea - eb)
      let t := ivAtanRat P n d
      ((if sb then (ivPi P).sub t else t).enc P 0).signed sa
    | 0x19 => (encPow P ma ea sb mb eb).signed (sa && eb ≤ 0 && mb / 2 ^ (-eb).toNat % 2 == 1 || sa && eb == 0 && mb % 2 == 1)
    | 0x1A => (encRoot 3 P ma ea).signed sa
    | 0x1B =>
      let (m, e) := dyAdd ((ma * ma : Nat), 2 * ea) ((mb * mb : Nat), 2 * eb)
      encRoot 2 P m.toNat e
    | 0x1C =>
      -- 1 ÷ √a = √(a) ÷ a: the root of 1 ÷ a to P bits
      let (m, h) := alignExp 2 ma ea
      let x := 2 ^ (2 * P + 2 * m.log2) / m
      let r := isqrt x
      ⟨r, r + 2, -h - P - m.log2⟩
    | 0x1D => encRoot 2 P ma ea
    | _ => encUnary op P sa ma ea
  | _, _ => encNone

/-! ### Exact cases (R220) -/

/-- m × 2^e with m odd. -/
def oddLoop2 : Nat → Nat → Int → Nat × Int
  | 0, m, e => (m, e)
  | f + 1, m, e => if m % 2 = 0 then oddLoop2 f (m / 2) (e + 1) else (m, e)

/-- The odd part of m × 2^e. -/
def oddPart (m : Nat) (e : Int) : Nat × Int := if m = 0 then (0, 0) else oddLoop2 (m.log2 + 1) m e

/-- The exact 2^k-th root of an odd m, by k exact square roots. -/
def rootPow2 : Nat → Nat → Option Nat
  | 0, m => some m
  | k + 1, m => let r := isqrt m; if r * r = m then rootPow2 k r else none

/-- Whether 10^k = n for some k below f. -/
def log10Exact : Nat → Nat → Nat → Option Nat
  | 0, _, _ => none
  | f + 1, k, n => if n = 1 then some k else if n % 10 = 0 then log10Exact f (k + 1) (n / 10) else none

/-- The exact rational value of a function, (sign, numerator, denominator, exponent), where it is rational and may be
representable or a midpoint: R220's cases, and every quotient. -/
def exactFn (op : Nat) (a b : FVal) : Option (Bool × Nat × Nat × Int) :=
  match a, b with
  | .fin sa ma ea, .fin sb mb eb =>
    match op with
    | 0x03 =>
      if 13 ≤ log2Dy ma ea then none
      else if 0 ≤ ea then some (false, 1, 1, (if sa then -1 else 1) * (ma * 2 ^ ea.toNat : Nat))
      else if ma % 2 ^ (-ea).toNat = 0 then some (false, 1, 1, (if sa then -1 else 1) * (ma / 2 ^ (-ea).toNat : Nat))
      else none
    | 0x04 =>
      if 10 ≤ log2Dy ma ea then none
      else
        let k := if 0 ≤ ea then some (ma * 2 ^ ea.toNat)
          else if ma % 2 ^ (-ea).toNat = 0 then some (ma / 2 ^ (-ea).toNat) else none
        k.map fun k => if sa then (false, 1, 10 ^ k, 0) else (false, 10 ^ k, 1, 0)
    | 0x07 =>
      let (m, e) := oddPart ma ea
      if m = 1 then some (decide (e < 0), e.natAbs, 1, 0) else none
    | 0x08 =>
      let (m, e) := oddPart ma ea
      if 0 ≤ e ∧ e < 400 then (log10Exact 400 0 (m * 2 ^ e.toNat)).map fun k => (false, k, 1, 0) else none
    | 0x0D =>
      let (m, e) := oddPart ma ea
      if e = -1 then some (sa != decide (m % 4 = 3), 1, 1, 0) else none
    | 0x0E =>
      let (_, e) := oddPart ma ea
      if 0 ≤ e then some (decide (e = 0), 1, 1, 0) else none
    | 0x19 =>
      let (m, e) := oddPart ma ea
      let (n, k) := oddPart mb eb
      let odd := sa && k == 0
      -- b = n × 2^k; a root of order 2^-k must exist for k < 0
      if 0 ≤ k then
        if 13 ≤ log2Dy mb eb then none
        else
          let b := n * 2 ^ k.toNat
          if m = 1 then some (odd, 1, 1, (if sb then -1 else 1) * (e * b))
          else if !sb && decide (m.log2 * b < 80) then some (odd, m ^ b, 1, e * b) else none
      else if k < -11 then none
      else
        let q := 2 ^ (-k).toNat
        if e % (q : Int) ≠ 0 then none
        else match rootPow2 (-k).toNat m with
          | none => none
          | some r =>
            if 13 ≤ n.log2 then none
            else if r = 1 then some (false, 1, 1, (if sb then -1 else 1) * (e / (q : Int) * n))
            else if !sb && decide (r.log2 * n < 80) then some (false, r ^ n, 1, e / (q : Int) * n) else none
    | 0x1A =>
      let (m, h) := alignExp 3 ma ea
      let r := icbrt m
      if r * r * r = m then some (sa, r, 1, h) else none
    | 0x1B =>
      let (x, e) := dyAdd ((ma * ma : Nat), 2 * ea) ((mb * mb : Nat), 2 * eb)
      let (m, h) := alignExp 2 x.toNat e
      let r := isqrt m
      if r * r = m then some (false, r, 1, h) else none
    | 0x1C =>
      let (m, h) := alignExp 2 ma ea
      let r := isqrt m
      if r * r = m then some (false, 1, r, -h) else none
    | 0x1D =>
      let (m, h) := alignExp 2 ma ea
      let r := isqrt m
      if r * r = m then some (false, r, 1, h) else none
    | 0x1E => some (sa, 1, ma, -ea)
    | 0x1F => some (sa != sb, ma, mb, ea - eb)
    | _ => none
  | _, _ => none

/-! ### Special values (R215-R218) -/

/-- NaN with invalid. -/
def spNaN (t : BitVec 4) : Nat × BitVec 5 := (defaultNaN t, fInvalid)
/-- An exact infinity with a row's flag; in e4m3 it is 0x7F and raises invalid (R218). -/
def spInf (t : BitVec 4) (s : Bool) (f : BitVec 5) : Nat × BitVec 5 :=
  if t == 3 then (0x7F, f ||| fInvalid) else (withSign t s (infBits t), f)
/-- A signed zero. -/
def spZero (t : BitVec 4) (s : Bool) : Nat × BitVec 5 := (withSign t s 0, fNone)
/-- A dyadic exact result. -/
def spDy (t : BitVec 4) (s : Bool) (m : Nat) (e : Int) : Nat × BitVec 5 := ((roundTo t 1 s m 1 e).1, fNone)
/-- RoundTo of num ÷ den × π with sign s, inexact (R215). -/
def spPi (t : BitVec 4) (mode : BitVec 3) (s : Bool) (num den : Nat) : Nat × BitVec 5 :=
  roundTo t mode s (((ivPi 256).lo.toNat * num)) den (-256)

/-- Whether a finite value is an integer, and whether it is odd. -/
def intKind (m : Nat) (e : Int) : Bool × Bool :=
  let (x, k) := oddPart m e
  (decide (x = 0 ∨ 0 ≤ k), decide (x ≠ 0 ∧ k = 0))

/-- The comparison of a finite magnitude with 1. -/
def cmp1 (m : Nat) (e : Int) : Ordering :=
  if m = 0 then .lt
  else
    let (x, k) := oddPart m e
    if x = 1 ∧ k = 0 then .eq else if 0 ≤ log2Dy x k then .gt else .lt

/-- Special values of the unary functions (R216). -/
def specialUnary (op : Nat) (t : BitVec 4) (mode : BitVec 3) (a : FVal) : Option (Nat × BitVec 5) :=
  match a with
  | .nan sg => some (defaultNaN t, if sg then fInvalid else fNone)
  | .inf s =>
    match op with
    | 0x02 | 0x03 | 0x04 => some (if s then spZero t false else spInf t false fNone)
    | 0x05 => some (if s then spDy t true 1 0 else spInf t false fNone)
    | 0x06 | 0x07 | 0x08 | 0x09 => some (if s then spNaN t else spInf t false fNone)
    | 0x0A | 0x0B | 0x0C | 0x0D | 0x0E | 0x0F | 0x10 => some (spNaN t)
    | 0x11 => some (spPi t mode s 1 2)
    | 0x13 => some (spInf t s fNone)
    | 0x14 => some (spInf t false fNone)
    | 0x15 | 0x16 => some (spDy t s 1 0)
    | 0x17 => some (if s then spDy t false 2 0 else spZero t false)
    | 0x18 => some (if s then spZero t false else spDy t false 1 0)
    | 0x1A => some (spInf t s fNone)
    | 0x1C => some (if s then spNaN t else spZero t false)
    | 0x1D => some (if s then spNaN t else spInf t false fNone)
    | 0x1E => some (spZero t s)
    | _ => none
  | .fin s m e =>
    if m = 0 then
      match op with
      | 0x02 | 0x03 | 0x04 | 0x0B | 0x0E | 0x14 | 0x17 => some (spDy t false 1 0)
      | 0x05 | 0x09 | 0x0A | 0x0C | 0x0D | 0x0F | 0x11 | 0x13 | 0x15 | 0x16 | 0x1A | 0x1D => some (spZero t s)
      | 0x06 | 0x07 | 0x08 => some (spInf t true fDivZero)
      | 0x10 => some (spPi t mode false 1 2)
      | 0x18 => some (spDy t false 1 (-1))
      | 0x1C | 0x1E => some (spInf t s fDivZero)
      | _ => none
    else
      match op with
      | 0x06 | 0x07 | 0x08 =>
        if s then some (spNaN t) else if cmp1 m e = .eq then some (spZero t false) else none
      | 0x09 =>
        if s then match cmp1 m e with
          | .eq => some (spInf t true fDivZero)
          | .gt => some (spNaN t)
          | .lt => none
        else none
      | 0x0D => if (intKind m e).1 then some (spZero t s) else none
      | 0x0E =>
        let (_, k) := oddPart m e
        if k = -1 then some (spZero t false) else none
      | 0x0F => if cmp1 m e = .gt then some (spNaN t) else none
      | 0x10 =>
        match cmp1 m e with
        | .gt => some (spNaN t)
        | .eq => if s then none else some (spZero t false)
        | .lt => none
      | 0x1C | 0x1D => if s then some (spNaN t) else none
      | _ => none

/-- Whether a value is a NaN, and whether it is signalling. -/
def nanKind : FVal → Option Bool
  | .nan sg => some sg
  | _ => none

/-- Special values of the binary functions (R217), rows from top to bottom. -/
def specialBinary (op : Nat) (t : BitVec 4) (mode : BitVec 3) (a b : FVal) : Option (Nat × BitVec 5) :=
  if nanKind a == some true || nanKind b == some true then some (defaultNaN t, fInvalid)
  else
    let qnan := (nanKind a).isSome || (nanKind b).isSome
    match op with
    | 0x1F =>
      match a, b with
      | .inf _, .inf _ => some (spNaN t)
      | .inf sa, .fin sb _ _ => some (spInf t (sa != sb) fNone)
      | .fin sa _ _, .inf sb => some (spZero t (sa != sb))
      | .fin sa ma _, .fin sb mb _ =>
        if mb = 0 then (if ma = 0 then some (spNaN t) else some (spInf t (sa != sb) fDivZero))
        else if ma = 0 then some (spZero t (sa != sb)) else none
      | _, _ => some (defaultNaN t, fNone)
    | 0x1B =>
      match a, b with
      | .inf _, _ => some (spInf t false fNone)
      | _, .inf _ => some (spInf t false fNone)
      | .fin _ ma _, .fin _ mb _ => if ma = 0 ∧ mb = 0 then some (spZero t false) else none
      | _, _ => some (defaultNaN t, fNone)
    | 0x12 =>
      match a, b with
      | .fin sa ma _, .fin sb mb _ =>
        if ma = 0 then some (if sb then spPi t mode sa 1 1 else spZero t sa)
        else if mb = 0 then some (spPi t mode sa 1 2) else none
      | .fin sa _ _, .inf sb => some (if sb then spPi t mode sa 1 1 else spZero t sa)
      | .inf sa, .fin _ _ _ => some (spPi t mode sa 1 2)
      | .inf sa, .inf sb => some (if sb then spPi t mode sa 3 4 else spPi t mode sa 1 4)
      | _, _ => some (defaultNaN t, fNone)
    | _ =>
      -- POW
      let bZero := match b with | .fin _ m _ => decide (m = 0) | _ => false
      let aOne := match a with | .fin s m e => !s && cmp1 m e == .eq | _ => false
      if bZero || aOne then some (spDy t false 1 0)
      else if qnan then some (defaultNaN t, fNone)
      else
        match a, b with
        | .fin sa ma ea, .fin sb mb eb =>
          let (int, odd) := intKind mb eb
          if ma = 0 then
            some (if sb then spInf t (odd && sa) fDivZero else spZero t (odd && sa))
          else if sa && !int then some (spNaN t)
          else if sa && cmp1 ma ea == .eq then some (spDy t odd 1 0)
          else none
        | .fin _ ma ea, .inf sb =>
          if ma = 0 then some (if sb then spInf t false fNone else spZero t false)
          else match cmp1 ma ea with
            | .eq => some (spDy t false 1 0)
            | .lt => some (if sb then spInf t false fNone else spZero t false)
            | .gt => some (if sb then spZero t false else spInf t false fNone)
        | .inf sa, .fin sb mb eb =>
          let odd := (intKind mb eb).2
          some (if sb then spZero t (sa && odd) else spInf t (sa && odd) fNone)
        | .inf _, .inf sb => some (if sb then spZero t false else spInf t false fNone)
        | _, _ => some (defaultNaN t, fNone)

/-! ### The delivered element -/

/-- Whether an opcode takes two operands (R212). -/
def isBinaryFn (op : Nat) : Bool := op == 0x12 || op == 0x19 || op == 0x1B || op == 0x1F

/-- Guard bits G of the fast value (R221). -/
def guardG (t : BitVec 4) : Int := if t == 10 then 70 else 40

/-- Whether num ÷ den × 2^e lies within 2u of a boundary of R222, strictly: the position in units of the last place of the
type, against the midpoints above representable values for RNE and RNA and the representable values for the other modes. -/
def nearBoundary (t : BitVec 4) (mode : BitVec 3) (num den : Nat) (e : Int) : Bool :=
  if num = 0 then false
  else
    let l := floorLog2 num den + e
    if l < fmtEmin t - fracBits t - 100 ∨ fmtEmax t < l then false
    else
      let qe := (if l < fmtEmin t then fmtEmin t else l) - fracBits t
      let (n, d) := scaleRat num den (e - qe)
      -- distance of n ÷ d from the nearest boundary, as x ÷ (2 d)
      let r := n % d
      let mid := mode == 1 || mode == 5
      let x := if mid then (if 2 * r < d then d - 2 * r else 2 * r - d)
        else (if 2 * r < d then 2 * r else 2 * (d - r))
      -- the value at or below the boundary, which the last binade must hold
      let k := if mid || decide (2 * r < d) then n / d else n / d + 1
      -- 2u in units of the last place is 2^(l - G + 2 - qe)
      let (a, b) := scaleRat 1 1 (l - guardG t + 2 - qe)
      decide (x * b < 2 * d * a) && (l != fmtEmax t || decide (k ≤ largestSig t))

/-- Whether a rational value is representable or a midpoint of the type (R220). -/
def exactOrMid (t : BitVec 4) (num den : Nat) (e : Int) : Bool :=
  if num = 0 then true
  else
    let l := floorLog2 num den + e
    if l < fmtEmin t - fracBits t - 100 ∨ fmtEmax t + 100 < l then false
    else
      let qe := (if l < fmtEmin t then fmtEmin t else l) - fracBits t
      let (n, d) := scaleRat num den (e - qe)
      2 * n % d == 0

/-- RoundTo of an end of an enclosure. -/
def roundEnd (t : BitVec 4) (mode : BitVec 3) (x : Int) (e : Int) : Nat × BitVec 5 :=
  roundTo t mode (decide (x < 0)) x.natAbs 1 e

/-- The rounded value, its flags and whether it is a candidate for a hard element, from enclosures of doubling precision until
both ends agree (log 12). -/
def refine (op : Nat) (t : BitVec 4) (mode : BitVec 3) (a b : FVal) : Nat → Nat → Nat × BitVec 5 × Bool
  | 0, P =>
    let x := encFn op P a b
    let r := roundEnd t mode x.lo x.e
    (r.1, r.2, false)
  | f + 1, P =>
    let x := encFn op P a b
    let r := roundEnd t mode x.lo x.e
    let same := decide (0 < x.lo ∨ x.hi < 0) && r == roundEnd t mode x.hi x.e
      && nearBoundary t mode x.lo.natAbs 1 x.e == nearBoundary t mode x.hi.natAbs 1 x.e
    if same then (r.1, r.2, nearBoundary t mode x.lo.natAbs 1 x.e)
    else refine op t mode a b f (2 * P)

/-- One element of a function word of R212 outside the approximate family: bits, flags, and whether the bounds of R222 let it be
hard. -/
def fnElem (op : Nat) (t : BitVec 4) (mode : BitVec 3) (xa xb : Nat) : Nat × BitVec 5 × Bool :=
  let a := floatVal t xa
  let b := if isBinaryFn op then floatVal t xb else .fin false 1 0
  let sp := if isBinaryFn op then specialBinary op t mode a b else specialUnary op t mode a
  match sp with
  | some (x, f) =>
    -- a result written as a real multiple of π is inexact, which RoundTo has found
    (x, f, false)
  | none =>
    let table := !isBinaryFn op && (t == 3 || t == 4)
    match exactFn op a b with
    | some (s, n, d, e) =>
      let (x, f) := roundTo t mode s n d e
      (x, f, !table && !exactOrMid t n d e && nearBoundary t mode n d e)
    | none =>
      let (x, f, h) := refine op t mode a b 8 128
      (x, f, !table && h)

end Sys2Proof.Machine
end

