-- ==== Sys2Proof/Machine/Approx.lean ====
section
/-! DEFINITION. The approximate family of the E-strip, by the algorithm of R228 and R229. -/

namespace Sys2Proof.Machine

/-- T[j] = Nint(2^(j ÷ 64) × 2^30) (R228). -/
def tabT : List Nat :=
  [1073741824, 1085434106, 1097253708, 1109202018, 1121280436, 1133490379, 1145833280, 1158310587,
     1170923762, 1183674286, 1196563654, 1209593378, 1222764986, 1236080024, 1249540052, 1263146652]
    ++ [1276901417, 1290805962, 1304861917, 1319070932, 1333434672, 1347954824, 1362633090, 1377471191,
     1392470869, 1407633882, 1422962010, 1438457051, 1454120821, 1469955159, 1485961921, 1502142985]
    ++ [1518500250, 1535035634, 1551751076, 1568648537, 1585730000, 1602997467, 1620452965, 1638098541,
     1655936265, 1673968228, 1692196547, 1710623359, 1729250827, 1748081133, 1767116489, 1786359126]
    ++ [1805811301, 1825475297, 1845353420, 1865448001, 1885761398, 1906295993, 1927054196, 1948038440,
     1969251188, 1990694927, 2012372174, 2034285470, 2056437387, 2078830522, 2101467502, 2124350982]

/-- L[j] = Nint(log2(1 + j ÷ 64) × 2^30) (R228). -/
def tabL : List Nat :=
  [0, 24017256, 47667823, 70962728, 93912511, 116527248, 138816582, 160789745,
     182455581, 203822568, 224898839, 245692198, 266210141, 286459867, 306448299, 326182095]
    ++ [345667660, 364911162, 383918542, 402695523, 421247625, 439580170, 457698295, 475606957,
     493310944, 510814882, 528123241, 545240343, 562170370, 578917365, 595485245, 611877800]
    ++ [628098702, 644151509, 660039669, 675766525, 691335320, 706749198, 722011213, 737124328,
     752091421, 766915285, 781598637, 796144114, 810554283, 824831638, 838978604, 852997541]
    ++ [866890747, 880660455, 894308843, 907838029, 921250079, 934547002, 947730758, 960803257,
     973766362, 986621888, 999371606, 1012017244, 1024560487, 1037002979, 1049346328, 1061592099]

/-- R[j] = Nint(2^30 ÷ (1 + j ÷ 64)) (R228). -/
def tabR : List Nat :=
  [1073741824, 1057222719, 1041204193, 1025663832, 1010580540, 995934445, 981706811, 967879954,
     954437177, 941362695, 928641578, 916259690, 904203641, 892460737, 881018933, 869866794]
    ++ [858993459, 848388602, 838042399, 827945503, 818089009, 808464432, 799063683, 789879043,
     780903145, 772128952, 763549742, 755159085, 746950834, 738919105, 731058263, 723362913]
    ++ [715827883, 708448214, 701219150, 694136129, 687194767, 680390859, 673720360, 667179386,
     660764199, 654471207, 648296950, 642238100, 636291451, 630453915, 624722516, 619094385]
    ++ [613566757, 608136962, 602802428, 597560667, 592409282, 587345955, 582368447, 577474594,
     572662306, 567929560, 563274399, 558694933, 554189329, 549755814, 545392673, 541098242]

/-- Q0[j] = Nint(2^30 ÷ √(1 + j ÷ 64)) (R228). -/
def tabQ0 : List Nat :=
  [1073741824, 1065450257, 1057347856, 1049427536, 1041682578, 1034106604, 1026693558, 1019437682,
     1012333500, 1005375799, 998559613, 991880210, 985333074, 978913898, 972618566, 966443148]
    ++ [960383883, 954437177, 948599586, 942867814, 937238702, 931709222, 926276469, 920937655,
     915690104, 910531246, 905458609, 900469818, 895562589, 890734723, 885984104, 881308694]
    ++ [876706528, 872175715, 867714429, 863320910, 858993459, 854730438, 850530263, 846391405,
     842312387, 838291779, 834328203, 830420321, 826566842, 822766514, 819018128, 815320510]
    ++ [811672525, 808073073, 804521086, 801015531, 797555404, 794139734, 790767575, 787438013,
     784150157, 780903145, 777696137, 774528319, 771398898, 768307107, 765252196, 762233438]

/-- Q1[j] = Nint(2^30 ÷ √(2 + j ÷ 32)) (R228). -/
def tabQ1 : List Nat :=
  [759250125, 753387102, 747657839, 742057327, 736580814, 731223792, 725981977, 720851298,
     715827883, 710908045, 706088274, 701365222, 696735698, 692196655, 687745184, 683378504]
    ++ [679093957, 674889000, 670761200, 666708225, 662727842, 658817909, 654976372, 651201261,
     647490682, 643842818, 640255922, 636728315, 633258380, 629844563, 626485368, 623179354]
    ++ [619925131, 616721362, 613566757, 610460069, 607400100, 604385689, 601415717, 598489102,
     595604800, 592761802, 589959130, 587195840, 584471019, 581783781, 579133272, 576518662]
    ++ [573939147, 571393950, 568882316, 566403514, 563956835, 561541591, 559157115, 556802759,
     554477894, 552181909, 549914212, 547674226, 545461392, 543275165, 541115017, 538980433]

/-- C1 = Nint(ln(2) × 2^30) (R228). -/
def cC1 : Nat := 744261118
/-- C2 = Nint(ln(2)^2 ÷ 2 × 2^30) (R228). -/
def cC2 : Nat := 257941248
/-- C3 = Nint(ln(2)^3 ÷ 6 × 2^30) (R228). -/
def cC3 : Nat := 59597083
/-- LE = Nint(log2(e) × 2^30) (R228). -/
def cLE : Nat := 1549082005
/-- LT = Nint(log2(10) × 2^30) (R228). -/
def cLT : Nat := 3566893132
/-- K3 = Nint(2^30 ÷ 3) (R228). -/
def cK3 : Nat := 357913941

/-- Nint(m × 2^e) with the sign of s (R228). -/
def nint (s : Bool) (m : Nat) (e : Int) : Int :=
  let e' := if m ≠ 0 ∧ (m.log2 : Int) + e < -8 then -(m.log2 : Int) - 8 else e
  let (n, d) := scaleRat m 1 e'
  let k := roundInt 1 s n d
  if s then -(k : Int) else k

/-- Exp2Core (R228): a magnitude and an exponent of two. -/
def exp2Core (x : Int) : Nat × Int :=
  if 128 * 2 ^ 24 ≤ x then (1, 128)
  else if x < -(152 * 2 ^ 24) then (1, -153)
  else
    let n := x / (2 ^ 24 : Nat)
    let f := (x - n * (2 ^ 24 : Nat)).toNat
    let j := f / 2 ^ 18
    let d := f % 2 ^ 18
    let P := 2 ^ 30 + cC1 * d / 2 ^ 24 + cC2 * (d * d / 2 ^ 24) / 2 ^ 24 + cC3 * (d * d * d / 2 ^ 48) / 2 ^ 24
    (tabT.getD j 0 * P / 2 ^ 30, n - 30)

/-- What Split of R228 finds: e, j, W, W2, W3. -/
structure SplitParts where
  e : Int
  j : Nat
  W : Nat
  W2 : Nat
  W3 : Nat
deriving DecidableEq, Repr

/-- Split(m × 2^e) for positive m (R228). -/
def splitCore (m : Nat) (e : Int) : SplitParts :=
  let b := m.log2
  let f := (m - 2 ^ b) * 2 ^ 24 / 2 ^ b
  let j := f / 2 ^ 18
  let d := f % 2 ^ 18
  let W := d * tabR.getD j 0 / 2 ^ 24
  let W2 := W * W / 2 ^ 30
  ⟨b + e, j, W, W2, W2 * W / 2 ^ 30⟩

/-- LogCore (R228): log2(x) × 2^30. -/
def logCore (m : Nat) (e : Int) : Int :=
  let s := splitCore m e
  let S := s.W - s.W2 / 2 + s.W3 * cK3 / 2 ^ 30
  s.e * (2 ^ 30 : Nat) + tabL.getD s.j 0 + (S * cLE / 2 ^ 30 : Nat)

/-- RcpCore (R228). -/
def rcpCore (m : Nat) (e : Int) : Nat × Int :=
  let s := splitCore m e
  (tabR.getD s.j 0 * (2 ^ 30 - s.W + s.W2 - s.W3) / 2 ^ 30, -s.e - 30)

/-- RsqCore (R228). -/
def rsqCore (m : Nat) (e : Int) : Nat × Int :=
  let s := splitCore m e
  let p := s.e % 2
  let hh := (s.e - p) / 2
  let U := 2 ^ 30 - s.W / 2 + 3 * s.W2 / 8 - 5 * s.W3 / 16
  let Q := if p = 0 then tabQ0.getD s.j 0 else tabQ1.getD s.j 0
  (Q * U / 2 ^ 30, -hh - 30)

/-- The real r of R229 for finite non-zero operands that no special row decides: sign, significand, exponent. -/
def approxR (op : Nat) (sa : Bool) (ma : Nat) (ea : Int) (sb : Bool) (mb : Nat) (eb : Int) : Bool × Nat × Int :=
  -- an operand of 2^40 and more is beyond both limits of Exp2Core
  let big := decide (40 < log2Dy ma ea)
  let ec (s : Bool) (k : Nat) (j : Int) : Nat × Int :=
    exp2Core (if big then (if s then -(2 ^ 60) else 2 ^ 60) else nint s (ma * k) (ea + j))
  match op with
  | 0x02 => let r := ec sa cLE (-6); (false, r.1, r.2)
  | 0x03 => let r := ec sa 1 24; (false, r.1, r.2)
  | 0x04 => let r := ec sa cLT (-6); (false, r.1, r.2)
  | 0x06 => let v := logCore ma ea; (decide (v < 0), v.natAbs * cC1, -60)
  | 0x07 => let v := logCore ma ea; (decide (v < 0), v.natAbs, -30)
  | 0x18 =>
    let x := ec (!sa) cLE (-6)
    let s := dyAdd (1, 0) (x.1, x.2)
    let r := rcpCore s.1.toNat s.2
    (false, r.1, r.2)
  | 0x1C => let r := rsqCore ma ea; (false, r.1, r.2)
  | 0x1D => let r := rsqCore ma ea; (false, ma * r.1, ea + r.2)
  | 0x1E => let r := rcpCore ma ea; (sa, r.1, r.2)
  | _ => let r := rcpCore mb eb; (sa != sb, ma * r.1, ea + r.2)

/-- One element of an approximate word (R229): the special values of R215-R218, else RoundTo of r; an r of 0 gives +0. -/
def approxElem (op : Nat) (t : BitVec 4) (mode : BitVec 3) (xa xb : Nat) : Nat × BitVec 5 :=
  let a := floatVal t xa
  let b := if isBinaryFn op then floatVal t xb else .fin false 1 0
  let sp := if isBinaryFn op then specialBinary op t mode a b else specialUnary op t mode a
  match sp with
  | some r => r
  | none =>
    match a, b with
    | .fin sa ma ea, .fin sb mb eb =>
      let (s, m, e) := approxR op sa ma ea sb mb eb
      if m = 0 then (0, fNone) else roundTo t mode s m 1 e
    | _, _ => (0, fNone)

end Sys2Proof.Machine
end

