-- ==== Sys2Proof/Machine/StripOps.lean ====
section
/-! DEFINITION. What one strip word computes from its operand beats (R200-R210, R212-R229): result bits and lane flags. -/

namespace Sys2Proof.Machine

/-- Bits and flags of a result element. -/
abbrev Elem := Nat × BitVec 5

/-- A result with no flag. -/
def quiet (x : Nat) : Elem := (x, fNone)

/-! ### Lane flags (R198) -/

/-- OR of a list of flags. -/
def orFlags (l : List (BitVec 5)) : BitVec 5 := l.foldl (· ||| ·) 0

/-- The flags of n lanes from k elements a lane. -/
def groupFlags (k : Nat) : Nat → List (BitVec 5) → List (BitVec 5)
  | 0, _ => []
  | n + 1, l => orFlags (l.take k) :: groupFlags k n (l.drop k)

/-- The 192 × 5 lane flags of flags per element of width w (R198): an f64 element raises its flags in both lanes. -/
def laneFlags (w : Nat) (l : List (BitVec 5)) : BitVec 960 :=
  let lanes := if w = 64 then l.flatMap (fun f => [f, f]) else groupFlags (32 / w) 192 l
  BitVec.ofNat 960 (ofElems 5 (lanes.map BitVec.toNat))

/-- The lane flags of blocks: those of a block in every lane that holds one of its bytes (R198). -/
def blockLaneFlags (bytes : Nat) (l : List (BitVec 5)) : BitVec 960 :=
  let lane (i : Nat) : Nat :=
    let first := 4 * i / bytes
    let last := (4 * i + 3) / bytes
    (l.getD first 0 ||| l.getD last 0).toNat
  BitVec.ofNat 960 (ofElems 5 ((List.range 192).map lane))

/-- The OR of all lanes: the strip summary of R124. -/
def flagSummary (f : BitVec 960) : BitVec 5 := orFlags ((elems 5 192 f.toNat).map (BitVec.ofNat 5))

/-! ### Floating-point arithmetic of the A-strip (R97, R105, R200-R203) -/

/-- Invalid for signalling operands (R97). -/
def snanFlags (l : List FVal) : BitVec 5 := if l.any (fun v => v == .nan true) then fInvalid else fNone

/-- The sign of an exact zero sum of two terms (R105): the common sign, else + except under RDN. -/
def zeroSign (mode : BitVec 3) (a b : Bool) : Bool := if a == b then a else mode == 4

/-- R(A + B) (R200). -/
def fAdd (t : BitVec 4) (mode : BitVec 3) (a b : FVal) : Elem :=
  match a, b with
  | .fin sa ma ea, .fin sb mb eb =>
    let (m, e) := dyAdd (dyOf sa ma ea) (dyOf sb mb eb)
    roundDy t mode (zeroSign mode sa sb) m e
  | .inf sa, .inf sb => if sa == sb then (withSign t sa (infBits t), fNone) else (defaultNaN t, fInvalid)
  | .inf sa, .fin _ _ _ => (withSign t sa (infBits t), fNone)
  | .fin _ _ _, .inf sb => (withSign t sb (infBits t), fNone)
  | _, _ => (defaultNaN t, snanFlags [a, b])

/-- A value with its sign inverted. -/
def fNeg : FVal → FVal
  | .nan sg => .nan sg
  | .inf s => .inf (!s)
  | .fin s m e => .fin (!s) m e

/-- The exact product of two values that are no NaN; none for 0 × ∞. -/
def fProd : FVal → FVal → Option FVal
  | .fin sa ma ea, .fin sb mb eb => some (.fin (sa != sb) (ma * mb) (ea + eb))
  | .inf sa, .inf sb => some (.inf (sa != sb))
  | .inf sa, .fin sb mb _ => if mb = 0 then none else some (.inf (sa != sb))
  | .fin sa ma _, .inf sb => if ma = 0 then none else some (.inf (sa != sb))
  | _, _ => none

/-- R(A × B) (R200). -/
def fMul (t : BitVec 4) (mode : BitVec 3) (a b : FVal) : Elem :=
  if (nanKind a).isSome || (nanKind b).isSome then (defaultNaN t, snanFlags [a, b])
  else match fProd a b with
    | some (.fin s m e) => roundTo t mode s m 1 e
    | some (.inf s) => (withSign t s (infBits t), fNone)
    | _ => (defaultNaN t, fInvalid)

/-- R(A × B + C) with one rounding; 0 × ∞ raises invalid whatever C holds (R200). -/
def fFma (t : BitVec 4) (mode : BitVec 3) (a b c : FVal) : Elem :=
  if (nanKind a).isSome || (nanKind b).isSome then (defaultNaN t, snanFlags [a, b, c])
  else match fProd a b with
    | none => (defaultNaN t, fInvalid)
    | some p => fAdd t mode p c

/-- A value with its product's sign inverted: the first factor's. -/
def fFnma (t : BitVec 4) (mode : BitVec 3) (a b c : FVal) : Elem := fFma t mode (fNeg a) b c

/-- The order of two values that are no NaN; zeros are equal. -/
def fCmp : FVal → FVal → Ordering
  | .fin sa ma ea, .fin sb mb eb =>
    let d := (dyAdd (dyOf sa ma ea) (dyOf (!sb) mb eb)).1
    if d < 0 then .lt else if d = 0 then .eq else .gt
  | .inf sa, .inf sb => if sa == sb then .eq else if sa then .lt else .gt
  | .inf sa, _ => if sa then .lt else .gt
  | _, .inf sb => if sb then .gt else .lt
  | _, _ => .eq

/-- The sign of a value that is no NaN. -/
def fSign : FVal → Bool
  | .fin s _ _ => s
  | .inf s => s
  | .nan _ => false

/-- Whether a is below b, with -0 below +0 (R201). -/
def fBelow (a b : FVal) : Bool :=
  match fCmp a b with
  | .lt => true
  | .eq => fSign a && !fSign b
  | .gt => false

/-- MIN and MAX of class F (R201), bits in and bits out. -/
def fMinMax (t : BitVec 4) (max : Bool) (xa xb : Nat) : Elem :=
  let a := floatVal t xa
  let b := floatVal t xb
  let fl := snanFlags [a, b]
  match (nanKind a).isSome, (nanKind b).isSome with
  | true, true => (defaultNaN t, fl)
  | true, false => (xb, fl)
  | false, true => (xa, fl)
  | false, false => (if fBelow a b == max then xb else xa, fNone)

/-- MIN and MAX of class I (R201). -/
def iMinMax (t : BitVec 4) (max : Bool) (xa xb : Nat) : Nat :=
  if decide (intVal t xa < intVal t xb) == max then xb else xa

/-- MIN and MAX (R201). -/
def minMax (t : BitVec 4) (max : Bool) (xa xb : Nat) : Elem :=
  if isF t then fMinMax t max xa xb else quiet (iMinMax t max xa xb)

/-- The relations of R202: 0 equal, 1 not equal, 2 less, 3 less or equal. -/
def cmpElem (t : BitVec 4) (rel : Nat) (xa xb : Nat) : Elem :=
  let ones := 2 ^ fmtWidth t - 1
  let mask (c : Bool) : Nat := if c then ones else 0
  if isF t then
    let a := floatVal t xa
    let b := floatVal t xb
    if (nanKind a).isSome || (nanKind b).isSome then
      (mask (rel == 1), if 2 ≤ rel then fInvalid else snanFlags [a, b])
    else
      let o := fCmp a b
      quiet (mask (match rel with
        | 0 => o == .eq | 1 => o != .eq | 2 => o == .lt | _ => o != .gt))
  else
    let a := intVal t xa
    let b := intVal t xb
    quiet (mask (match rel with
      | 0 => decide (a = b) | 1 => decide (a ≠ b) | 2 => decide (a < b) | _ => decide (a ≤ b)))

/-- RINT (R203). -/
def rintElem (t : BitVec 4) (mode : BitVec 3) (x : Nat) : Elem :=
  match floatVal t x with
  | .nan sg => (defaultNaN t, if sg then fInvalid else fNone)
  | .inf _ => quiet x
  | .fin s m e =>
    if m = 0 ∨ 0 ≤ e then quiet x
    else
      let d := 2 ^ (-e).toNat
      let k := roundInt mode s m d
      ((roundTo t 1 s k 1 0).1, if k * d = m then fNone else fInexact)

/-- CLASS (R203). -/
def classElem (t : BitVec 4) (x : Nat) : Nat :=
  match floatVal t x with
  | .nan sg => if sg then 1 else 2
  | .inf s => if s then 4 else 512
  | .fin s m _ =>
    if m = 0 then (if s then 32 else 64)
    else if m < 2 ^ fracBits t then (if s then 16 else 128) else (if s then 8 else 256)

/-- SCALE (R200): k is B's element as a signed integer of the width. -/
def scaleElem (t : BitVec 4) (mode : BitVec 3) (xa xb : Nat) : Elem :=
  let w := fmtWidth t
  let k : Int := if 2 ^ (w - 1) ≤ xb then (xb : Int) - (2 ^ w : Nat) else xb
  match floatVal t xa with
  | .nan sg => (defaultNaN t, if sg then fInvalid else fNone)
  | .inf _ => quiet xa
  | .fin s m e => if m = 0 then quiet xa else roundTo t mode s m 1 (e + k)

/-- ABSD (R200). -/
def absdElem (t : BitVec 4) (mode : BitVec 3) (xa xb : Nat) : Elem :=
  if isF t then
    match floatVal t xa, fNeg (floatVal t xb) with
    | .fin sa ma ea, .fin sb mb eb =>
      let (m, e) := dyAdd (dyOf sa ma ea) (dyOf sb mb eb)
      if m = 0 then quiet 0 else roundTo t mode false m.natAbs 1 e
    | .inf sa, .inf sb => if sa == sb then quiet (infBits t) else (defaultNaN t, fInvalid)
    | .inf _, .fin _ _ _ => quiet (infBits t)
    | .fin _ _ _, .inf _ => quiet (infBits t)
    | a, b => (defaultNaN t, snanFlags [a, b])
  else quiet (intVal t xa - intVal t xb).natAbs

/-- The number of zero bits above the highest 1 of a w-bit element; w when it is zero. -/
def clzNat (w x : Nat) : Nat := if x = 0 then w else w - 1 - x.log2

/-- The number of 1 bits among the low n bits. -/
def popcNat : Nat → Nat → Nat
  | 0, _ => 0
  | n + 1, x => x % 2 + popcNat n (x / 2)

/-- Bitwise AND, OR, XOR and NOT of elements. -/
def notElem (w x : Nat) : Nat := 2 ^ w - 1 - x

/-- One result element of an A-strip word that works element by element (R200-R203), by opcode. -/
def aElem (op : Nat) (t : BitVec 4) (mode : BitVec 3) (x y z : Nat) : Elem :=
  let w := fmtWidth t
  let fl := isF t
  let a := floatVal t x
  let b := floatVal t y
  let c := floatVal t z
  let iw (v : Int) : Elem := quiet (wrapTo w v)
  match op with
  | 0x02 => if fl then fAdd t mode a b else iw (intVal t x + intVal t y)
  | 0x03 => if fl then fAdd t mode a (fNeg b) else iw (intVal t x - intVal t y)
  | 0x04 => if fl then fMul t mode a b else iw (intVal t x * intVal t y)
  | 0x05 => fFma t mode a b c
  | 0x06 => fFma t mode a b (fNeg c)
  | 0x07 => fFnma t mode a b c
  | 0x08 => minMax t false x y
  | 0x09 => minMax t true x y
  | 0x0A => if fl then quiet (x % 2 ^ (w - 1)) else iw (intVal t x).natAbs
  | 0x0B => if fl then quiet ((x + 2 ^ (w - 1)) % 2 ^ w) else iw (-(intVal t x))
  | 0x0C => cmpElem t 0 x y
  | 0x0D => cmpElem t 1 x y
  | 0x0E => cmpElem t 2 x y
  | 0x0F => cmpElem t 3 x y
  | 0x10 => quiet (if z = 0 then y else x)
  | 0x11 => quiet x
  | 0x12 => quiet (x &&& y)
  | 0x13 => quiet (x ||| y)
  | 0x14 => quiet (x ^^^ y)
  | 0x15 => quiet (notElem w x)
  | 0x16 => quiet (if w ≤ y then 0 else x * 2 ^ y % 2 ^ w)
  | 0x17 => quiet (if w ≤ y then 0 else x / 2 ^ y)
  | 0x18 =>
    let s : Int := if 2 ^ (w - 1) ≤ x then (x : Int) - (2 ^ w : Nat) else x
    iw (s / (2 ^ (if w ≤ y then w else y) : Nat))
  | 0x19 => quiet (wrapTo w (intVal t x * intVal t y / (2 ^ w : Nat)))
  | 0x1A => iw (intVal t x * intVal t y + intVal t z)
  | 0x1B => iw (saturate t (intVal t x + intVal t y))
  | 0x1C => iw (saturate t (intVal t x - intVal t y))
  | 0x1D =>
    let (m, f1) := minMax t true x y
    let (r, f2) := minMax t false m z
    (r, f1 ||| f2)
  | 0x1E => rintElem t mode x
  | 0x1F => quiet (classElem t x)
  | 0x20 => quiet (x % 2 ^ (w - 1) + y / 2 ^ (w - 1) * 2 ^ (w - 1))
  | 0x21 => scaleElem t mode x y
  | 0x22 => absdElem t mode x y
  | 0x23 => iw ((intVal t x + intVal t y + 1) / 2)
  | 0x24 => quiet (clzNat w x)
  | 0x25 => quiet (popcNat w x)
  | _ => quiet 0

/-- Element-wise application of a function of three operands. -/
def zip3 (f : Nat → Nat → Nat → Elem) : List Nat → List Nat → List Nat → List Elem
  | x :: l, y :: m, z :: n => f x y z :: zip3 f l m n
  | _, _, _ => []

/-- The result beat and lane flags of an A-strip word (R200). -/
def aWord (op : Nat) (t : BitVec 4) (mode : BitVec 3) (a b c : Beat) : Beat × BitVec 960 :=
  let r := zip3 (aElem op t mode) (beatElems t a) (beatElems t b) (beatElems t c)
  (ofBeatElems t (r.map (·.1)), laneFlags (fmtWidth t) (r.map (·.2)))

/-! ### P-strip moves (R205, R207, R209) -/

/-- The P-strip results that are moves of elements, by opcode. -/
def pMove (op : Nat) (t : BitVec 4) (imm : Nat) (a b : Beat) (c : Beat) : Beat :=
  let n := perBeat t
  let w := fmtWidth t
  let x := beatElems t a
  let y := beatElems t b
  let z := beatElems t c
  let pool := x ++ y
  let ones := 2 ^ w - 1
  let el (l : List Nat) (j : Nat) : Nat := l.getD j 0
  let gen (f : Nat → Nat) : Beat := ofBeatElems t ((List.range n).map f)
  match op with
  | 0x02 => gen fun j =>
      let s := el z j
      if 128 ≤ s then 0 else if s < 64 then el x (64 * (j / 64) + s) else el y (64 * (j / 64) + s - 64)
  | 0x03 => gen fun j => if n ≤ el y j then 0 else el x (el y j)
  | 0x04 => gen fun j => el pool (j + imm)
  | 0x05 => gen fun _ => el x imm
  | 0x06 => gen fun j => el (if j % 2 = 0 then x else y) (imm * n / 2 + j / 2)
  | 0x07 => gen fun j => el pool (2 * j + imm)
  | 0x0D => ofBeatElems t ((x.zip y).filterMap fun p => if p.2 = 0 then none else some p.1)
  | 0x0E =>
    let rec go : List Nat → List Nat → List Nat
      | [], _ => []
      | m :: ms, src => if m = 0 then 0 :: go ms src else src.headD 0 :: go ms src.tail
    ofBeatElems t (go y x)
  | 0x0F =>
    let keys := y.filter (fun v => v != ones)
    ofBeatElems t (x.map fun v => if v != ones && keys.contains v then ones else 0)
  | 0x13 => gen fun j => wrapTo w (intVal t (el x 0) + j * intVal t (el y 0))
  | 0x14 => gen fun j => if j < el x 0 then ones else 0
  | 0x15 => ofBeatElems t [(x.filter (fun v => v != 0)).length]
  | 0x16 =>
    let rows := n / imm
    gen fun j => el x (j % rows * imm + j / rows)
  | 0x17 => gen fun j => if j = imm then el x 0 else el y j
  | 0x18 => ofBeatElems t [el x imm]
  | _ => a

/-- The elements of A whose element of B is zero, for the second output of SPLIT (R209). -/
def splitZero (t : BitVec 4) (a b : Beat) : Beat :=
  ofBeatElems t (((beatElems t a).zip (beatElems t b)).filterMap fun p => if p.2 = 0 then some p.1 else none)

/-- The format of half the width (R207). -/
def narrowFmt (t : BitVec 4) : BitVec 4 :=
  match t.toNat with
  | 8 => 9 | 12 => 8 | 15 => 13 | 11 => 12 | _ => 15

/-- The format of twice the width (R207). -/
def widenFmt (t : BitVec 4) : BitVec 4 :=
  match t.toNat with
  | 9 => 8 | 8 => 12 | 13 => 15 | 12 => 11 | _ => 14

/-- PACKB (R207). -/
def packb (t : BitVec 4) (sat : Bool) (a b : Beat) : Beat :=
  let u := narrowFmt t
  let nar (x : Nat) : Nat := let v := intVal t x; wrapTo (fmtWidth u) (if sat then saturate u v else v)
  ofBeatElems u ((beatElems t a ++ beatElems t b).map nar)

/-- UNPACKB (R207). -/
def unpackb (t : BitVec 4) (h : Nat) (a : Beat) : Beat :=
  let u := widenFmt t
  let n := perBeat t
  ofBeatElems u ((((beatElems t a).drop (h * n / 2)).take (n / 2)).map fun x => wrapTo (fmtWidth u) (intVal t x))

/-! ### CVT (R206) -/

/-- Groups of 16. -/
def chunks16 : Nat → List FVal → List (List FVal)
  | 0, _ => []
  | n + 1, l => if l.isEmpty then [] else l.take 16 :: chunks16 n (l.drop 16)

/-- The conversions of a list of source elements into the units of the destination (R107, R103): units are elements, or blocks of
16. -/
def cvtList (src dst : BitVec 4) (mode : BitVec 3) (sat : Bool) (units : List Nat) (drop take : Nat) : List Elem :=
  if isBlock dst then
    let vs := ((unitVals src units).drop drop).take take
    let pad := vs ++ List.replicate (take - vs.length) (.fin false 0 0)
    (chunks16 (take / 16 + 1) pad).map (toBlock dst)
  else if isBlock src then
    let vs := ((unitVals src units).drop drop).take take
    vs.map (valTo dst mode (sat && !isInteger dst)) ++ List.replicate (take - vs.length) (0, fNone)
  else
    let xs := (units.drop drop).take take
    xs.map (cvtScalar src dst mode sat) ++ List.replicate (take - xs.length) (0, fNone)

/-- CVT (R206): D and its lane flags. -/
def cvtWord (t : BitVec 4) (mode : BitVec 3) (imm : BitVec 19) (a b : Beat) : Beat × BitVec 960 :=
  let src := imm.extractLsb' 0 4
  let p := (imm.extractLsb' 4 4).toNat
  let sat := imm.getLsbD 8
  let ns := perBeat src
  let nd := perBeat t
  let u := if isBlock t then 16 else 1
  let units := beatElems src a
  let out : List Elem :=
    if ns < nd then
      -- the window holds elements p W to p W + W - 1; those at or beyond N_d are dropped
      let w := Nat.min ns (nd - p * ns)
      let conv := cvtList src t mode sat units 0 w
      let base := (beatElems t b).map quiet
      base.take (p * ns / u) ++ conv ++ base.drop ((p * ns + w) / u)
    else cvtList src t mode sat units (p * nd) nd
  let flags := if isBlock t then blockLaneFlags (fmtWidth t / 8) (out.map (·.2)) else laneFlags (fmtWidth t) (out.map (·.2))
  (ofBeatElems t (out.map (·.1)), flags)

/-! ### SCAN, REDUCE and SEGSCAN (R208) -/

/-- The terms combined so far: how many, the first and whether it is the seed, NaN, signalling NaN, infinities, the exact sum,
whether every term is -0, the least or greatest number. -/
structure ScanAcc where
  n : Nat
  first : Nat
  seed : Bool
  nan : Bool
  snan : Bool
  pinf : Bool
  ninf : Bool
  sum : Int × Int
  negz : Bool
  best : Option Nat
deriving DecidableEq, Repr

/-- No term. -/
def ScanAcc.empty : ScanAcc := ⟨0, 0, false, false, false, false, false, (0, 0), true, none⟩

/-- One more term. -/
def ScanAcc.push (t : BitVec 4) (op : Nat) (seed : Bool) (s : ScanAcc) (x : Nat) : ScanAcc :=
  let v := scalarVal t x
  let s := if s.n = 0 then { s with first := x, seed := seed } else s
  let s := { s with n := s.n + 1 }
  match v with
  | .nan sg => { s with nan := true, snan := s.snan || sg, negz := false }
  | .inf g =>
    let s := { s with pinf := s.pinf || !g, ninf := s.ninf || g, negz := false }
    { s with best := some (match s.best with | none => x | some y => (minMax t (op == 2) y x).1) }
  | .fin g m e =>
    { s with
      sum := if op = 0 then dyAdd s.sum (dyOf g m e) else s.sum
      negz := s.negz && g && m == 0
      best := if op = 0 then s.best
        else some (match s.best with | none => x | some y => (minMax t (op == 2) y x).1) }

/-- The identity of an operation (R208). -/
def scanIdentity (t : BitVec 4) (op : Nat) : Nat :=
  match op with
  | 0 => 0
  | 1 => if isF t then infBits t else wrapTo (fmtWidth t) (intMax t)
  | _ => if isF t then withSign t true (infBits t) else wrapTo (fmtWidth t) (intMin t)

/-- The combination of the terms (R208). -/
def ScanAcc.result (t : BitVec 4) (op : Nat) (mode : BitVec 3) (s : ScanAcc) : Elem :=
  if s.n = 0 then quiet (scanIdentity t op)
  else if !isF t then
    if op = 0 then quiet (wrapTo (fmtWidth t) (s.sum.1 * (2 ^ s.sum.2.toNat : Nat))) else quiet (s.best.getD 0)
  else if s.n = 1 ∧ s.seed then
    (if s.nan then (defaultNaN t, if s.snan then fInvalid else fNone) else quiet s.first)
  else if op = 0 then
    if s.nan then (defaultNaN t, if s.snan || (s.pinf && s.ninf) then fInvalid else fNone)
    else if s.pinf && s.ninf then (defaultNaN t, fInvalid)
    else if s.pinf then quiet (infBits t)
    else if s.ninf then quiet (withSign t true (infBits t))
    else roundDy t mode s.negz s.sum.1 s.sum.2
  else
    (s.best.getD (defaultNaN t), if s.snan then fInvalid else fNone)

/-- The results of SCAN and SEGSCAN element by element: terms so far, and for each element whether a segment begins. -/
def scanLoop (t : BitVec 4) (op : Nat) (mode : BitVec 3) (excl : Bool) : ScanAcc → List Nat → List Nat → List Elem
  | s, x :: xs, h :: hs =>
    let base := if h = 0 then s else .empty
    let next := base.push t op false x
    (if excl then base.result t op mode else next.result t op mode) :: scanLoop t op mode excl next xs hs
  | _, _, _ => []

/-- SCAN, REDUCE and SEGSCAN: D and the lane flags. -/
def scanWord (opc : Nat) (t : BitVec 4) (mode : BitVec 3) (imm : Nat) (a b c : Beat) : Beat × BitVec 960 :=
  let op := imm % 4
  let excl := decide (4 ≤ imm)
  let xs := beatElems t a
  let seed := ScanAcc.empty.push t op true ((beatElems t b).headD 0)
  let out : List Elem :=
    match opc with
    | 0x0C => [(xs.foldl (fun s x => s.push t op false x) seed).result t op mode]
    | 0x0B => scanLoop t op mode excl seed xs (xs.map fun _ => 0)
    | _ => scanLoop t op mode excl seed xs (beatElems t c)
  let fl := out.map (·.2)
  let flags := if opc = 0x0C then BitVec.ofNat 960 (orFlags fl).toNat else laneFlags (fmtWidth t) fl
  (ofBeatElems t (out.map (·.1)), flags)

/-- The result beat and lane flags of a P-strip word other than STEER, MERGE, SPLIT (R205-R210). -/
def pWord (op : Nat) (t : BitVec 4) (mode : BitVec 3) (imm : BitVec 19) (a b c : Beat) : Beat × BitVec 960 :=
  match op with
  | 0x08 => cvtWord t mode imm a b
  | 0x09 => (packb t (imm.getLsbD 0) a b, 0)
  | 0x0A => (unpackb t imm.toNat a, 0)
  | 0x0B | 0x0C | 0x12 => scanWord op t mode imm.toNat a b c
  | _ => (pMove op t imm.toNat a b c, 0)

/-! ### E-strip words (R212-R229) -/

/-- Whether an element of a function word is hard: never outside the bounds of R222; R406 fixes EXP.f32 of -2^-25; within the
bounds the rest is Config.hard (log 13). -/
def hardElem (op : Nat) (t : BitVec 4) (mode : BitVec 3) (x y : Nat) (near : Bool) : Bool :=
  if op = 0x02 ∧ t = 0 ∧ x = 0xB3000000 then mode == 1 || mode == 5
  else near && Config.hard (BitVec.ofNat 8 op) t mode (BitVec.ofNat 64 x) (BitVec.ofNat 64 y)

/-- The quarter of an element: the quarter of its lane (R223). -/
def quarterOf (w j : Nat) : Nat := if w = 64 then 2 * j / 48 else j / (32 / w) / 48

/-- Hard elements per quarter. -/
def hardCounts (w : Nat) (h : List Bool) : List Nat :=
  let idx := (List.range h.length).zip h
  (List.range 4).map fun q => (idx.filter fun p => p.2 && quarterOf w p.1 == q).length

/-- The result, lane flags and hard elements per quarter of a function word outside the approximate family. -/
def eWord (op : Nat) (t : BitVec 4) (mode : BitVec 3) (a b : Beat) : Beat × BitVec 960 × List Nat :=
  let w := fmtWidth t
  let ps := (beatElems t a).zip (beatElems t b)
  let r := ps.map fun p => (p, fnElem op t mode p.1 p.2)
  (ofBeatElems t (r.map (·.2.1)), laneFlags w (r.map (·.2.2.1)),
   hardCounts w (r.map fun q => hardElem op t mode q.1.1 (if isBinaryFn op then q.1.2 else 0) q.2.2.2))

/-- The result and lane flags of an approximate word (R229). -/
def eApproxWord (op : Nat) (t : BitVec 4) (mode : BitVec 3) (a b : Beat) : Beat × BitVec 960 :=
  let r := ((beatElems t a).zip (beatElems t b)).map fun p => approxElem op t mode p.1 p.2
  (ofBeatElems t (r.map (·.1)), laneFlags (fmtWidth t) (r.map (·.2)))

/-! ### Latencies (R194, R200, R205, R212, R226, R227) -/

/-- L of an A-strip opcode. -/
def aLatency (op : Nat) (t : BitVec 4) : Nat :=
  let l := match op with
    | 0x02 | 0x03 | 0x22 => if isF t then 8 else 2
    | 0x04 => if isF t then 8 else 4
    | 0x05 | 0x06 | 0x07 | 0x1E | 0x21 => 8
    | 0x19 | 0x1A => 4
    | 0x26 => 16
    | _ => 2
  if t == 10 then 2 * l else l

/-- L of an E-strip opcode. -/
def eLatency (op : Nat) (approx : Bool) (t : BitVec 4) : Nat :=
  let l := match op with
    | 0x20 | 0x21 => 16
    | 0x22 => 2
    | _ => if approx then 12 else 24
  if t == 10 then 2 * l else l

/-- L of a P-strip opcode. -/
def pLatency (op : Nat) (t : BitVec 4) : Nat :=
  let l := match op with
    | 0x08 => 8
    | 0x0B | 0x0C | 0x12 => 24
    | 0x0F => 4
    | _ => 2
  if t == 10 then 2 * l else l

end Sys2Proof.Machine
end

