-- ==== Sys2Proof/Machine/Flags.lean ====
section
/-! DEFINITION. sr.fflags, composed of the engines' own flags, and the special registers (R108, R122-R128). -/

namespace Sys2Proof.Machine

/-- The low 48 bits of sr.wto (R122). -/
def SRegs.timeout (r : SRegs) : Nat := fld r.wto 0 48

/-- Whether the tile is in handler mode (R126). -/
def Tile.handler (t : Tile) : Bool := t.sr.cause.getLsbD 31

/-- sr.fflags (R124): the summaries of the three strips, the MXE flags, mxsat and lenmis. -/
def Tile.fflags (t : Tile) : W64 :=
  w64 ((flagSummary t.ast.flags).toNat + 2 ^ 5 * (flagSummary t.est.flags).toNat + 2 ^ 10 * (flagSummary t.pst.flags).toNat
    + 2 ^ 15 * t.mxe.flags.toNat + (if t.mxe.sat then 2 ^ 20 else 0) + (if t.lenmis then 2 ^ 21 else 0))

/-- Lane flags with only the named flags kept in every lane. -/
def keepLanes (keep : BitVec 5) (f : BitVec 960) : BitVec 960 :=
  f &&& BitVec.ofNat 960 (ofElems 5 (List.replicate 192 keep.toNat))

/-- sr.fflags ← sr.fflags & v (R124): a cleared bit of a strip summary clears that flag in every lane. -/
def Tile.clearFflags (t : Tile) (v : W64) : Tile :=
  { t with
    ast := { t.ast with flags := keepLanes (v.extractLsb' 0 5) t.ast.flags }
    est := { t.est with flags := keepLanes (v.extractLsb' 5 5) t.est.flags }
    pst := { t.pst with flags := keepLanes (v.extractLsb' 10 5) t.pst.flags }
    mxe := { t.mxe with flags := t.mxe.flags &&& v.extractLsb' 15 5, sat := t.mxe.sat && v.getLsbD 20 }
    lenmis := t.lenmis && v.getLsbD 21 }

/-- The value of a special register (R122, R129): sr.ltid and sr.ninst follow from the tile's place. -/
def Tile.sreg (t : Tile) (x : Inst) (ltid : Nat) : SReg → W64
  | .ltid => w64 ltid
  | .ninst => w64 x.tiles.length
  | .ctx => t.sr.ctx
  | .fmode => t.sr.fmode
  | .fflags => t.fflags
  | .hvec => t.sr.hvec
  | .cause => t.sr.cause
  | .info => t.sr.info
  | .epc => t.sr.epc
  | .cycle => t.sr.cycle
  | .feat => t.sr.feat
  | .wto => t.sr.wto

/-- A g register (R33). -/
def Tile.greg (t : Tile) (g : BitVec 5) : W64 := t.g[g.toNat]'g.isLt

/-- A g register set. -/
def Tile.setG (t : Tile) (g : BitVec 5) (v : W64) : Tile := { t with g := t.g.set g.toNat v g.isLt }

/-- The reserved bits and the mode code of a value for sr.fmode (R123, R130). -/
def fmodeOk (v : W64) : Bool :=
  fld v 17 47 == 0 && fld v 13 3 == 0 && fld v 3 5 == 0 && fld v 0 3 != 0 && decide (fld v 0 3 < 6)

end Sys2Proof.Machine
end

