-- ==== Sys2Proof/Machine/Operands.lean ====
section
/-! DEFINITION. Operand slots and the firing of a sequencer word (R29-R36, R64): when it fires, what it reads, what a null does,
and what a normal firing records in the block. -/

namespace Sys2Proof.Machine

/-- What a firing instruction sees: the state, its tile, its block and slot, its fields and its operands. -/
structure Fire where
  s : State
  x : Inst
  t : Tile
  b : Block
  slot : Nat
  h : Head
  m : SeqMeta
  left : W64
  right : W64

/-- What the operand slots of an instruction let it do (R29): wait (a token is missing, the predicate does not match, or it has
fired), fire null, or fire with its operands. -/
inductive Ready where
  | wait
  | null
  | go (left right : W64)
deriving DecidableEq, Repr

/-- The value of a slot that is required or not: none waits, some none is a null. -/
def operand (required : Bool) (tok : Option Tok) : Option (Option W64) :=
  if required then
    match tok with
    | none => none
    | some .null => some none
    | some (.value v) => some (some v)
  else some (some 0)

/-- Readiness of a slot (R29): the predicate is required in modes 01 and 10; a value that does not match never fires. -/
def readiness (h : Head) (m : SeqMeta) (st : SlotSt) : Ready :=
  if st.fired then .wait
  else
    match operand (h.pred != .always) st.pred, operand m.left st.left, operand m.right st.right with
    | some p, some l, some r =>
      let matched := match h.pred, p with
        | .always, _ => true
        | _, none => true
        | .onTrue, some v => v.getLsbD 0
        | .onFalse, some v => !v.getLsbD 0
      if !matched then .wait
      else match p, l, r with
        | some _, some a, some b => .go a b
        | _, _, _ => .null
    | _, _, _ => .wait

/-- A slot with nothing in it. -/
def SlotSt.empty : SlotSt := { left := none, right := none, pred := none, fired := false }

/-- The operand slot a target names. -/
def SlotSt.at (st : SlotSt) : TKind → Option Tok
  | .left => st.left
  | .right => st.right
  | .pred => st.pred

/-- A token put into the operand slot a target names. -/
def SlotSt.put (st : SlotSt) (tok : Tok) : TKind → SlotSt
  | .left => { st with left := some tok }
  | .right => { st with right := some tok }
  | .pred => { st with pred := some tok }

/-- A token arrives at a target (R30); none when the slot already holds one (R32). -/
def Block.deliver (b : Block) (tok : Tok) : Option Target → Option Block
  | none => some b
  | some g =>
    match b.slots[g.slot.toNat]? with
    | none => some b
    | some st =>
      if (st.at g.kind).isSome then none
      else some { b with slots := b.slots.set g.slot.toNat (st.put tok g.kind) }

/-- A token sent to both targets (R30). -/
def Block.send (b : Block) (h : Head) (tok : Tok) : Option Block :=
  match b.deliver tok h.t0 with
  | none => none
  | some b => b.deliver tok h.t1

/-- An LSID settled, void or by a normal firing (R31, R36); none when it is settled already (R32). -/
def Block.settle (b : Block) (void : Bool) (ls : BitVec 5) : Option Block :=
  if b.settled.any (fun p => p.1 == ls) then none else some { b with settled := b.settled ++ [(ls, void)] }

/-- A load with an LSID has fired, where it read when it fired normally; none when a load of the block that carries the LSID has fired
already (R32). -/
def Block.loaded (b : Block) (ls : BitVec 5) (loc : Option Loc) : Option Block :=
  if b.loads.any (fun p => p.1 == ls) then none else some { b with loads := b.loads ++ [(ls, loc)] }

/-- What a firing does with the LSID of its word, where it has one: that of a load has fired, any other is settled (R31, R32, R36). -/
def Block.settle? (b : Block) (void : Bool) (m : SeqMeta) (loc : Option Loc) : Option Block :=
  match m.ls with
  | none => some b
  | some ls => if m.load then b.loaded ls loc else b.settle void ls

/-- A register receives a value or a null (R32, R36); none when it has received one. -/
def Block.receive (b : Block) (g : BitVec 5) (v : Option W64) : Option Block :=
  if b.writes.any (fun p => p.1 == g) then none else some { b with writes := b.writes ++ [(g, v)] }

/-- The LSIDs of a settle mask. -/
def maskLsids (mask : BitVec 32) : List (BitVec 5) :=
  (List.range 32).filterMap fun k => if mask.getLsbD k then some (BitVec.ofNat 5 k) else none

/-- The LSIDs of a settle mask settled void (R31). -/
def Block.settleMask (b : Block) (mask : BitVec 32) : Option Block :=
  (maskLsids mask).foldl (fun b ls => match b with | none => none | some b => b.settle true ls) (some b)

/-- The store mask of a header (R59). -/
def Block.storeMask (b : Block) : BitVec 32 := b.hdr.extractLsb' 16 32
/-- The write mask of a header. -/
def Block.writeMask (b : Block) : BitVec 32 := b.hdr.extractLsb' 48 32
/-- The serialise bit of a header. -/
def Block.serialise (b : Block) : Bool := b.hdr.getLsbD 8

/-- The bytes that a block occupies (R60). -/
def Block.size (b : Block) : Nat := 16 + 8 * b.words.length

/-- What a normal firing does to its block: what it sends, its side effect with the address it formed, a branch, a trap mark, a
register write, a fence, streams held, a settle mask, transfer flags to clear, where a load read. -/
structure Act where
  send : Option W64 := none
  loc : Option Loc := none
  eff : Option (Eff × W64) := none
  branch : Option Branch := none
  trap : Option (BitVec 16) := none
  write : Option (BitVec 5 × W64) := none
  fence : Option Scope := none
  sbar : BitVec 16 := 0
  null : Option (BitVec 32) := none
  clear : BitVec 5 := 0

/-- The wider of two fence scopes (R160). -/
def wider (a : Option Scope) (b : Option Scope) : Option Scope :=
  match a, b with
  | none, y => y
  | x, none => x
  | some x, some y => if x.code.toNat < y.code.toNat then some y else some x

/-- Whether a WAITA has fired normally in the block. -/
def Block.hasWaita (b : Block) : Bool := b.effs.any fun e => match e.eff with | .waita _ _ _ => true | _ => false

/-- Whether a BAR has fired normally in the block. -/
def Block.hasBar (b : Block) : Bool := b.effs.any fun e => match e.eff with | .bar _ => true | _ => false

/-- The group that an effect arrives at (R340). -/
def Eff.arrival : Eff → Option (BitVec 8)
  | .bara gid _ => some gid
  | .bar gid => some gid
  | _ => none

/-- Whether an effect is a WAITA's. -/
def isWaita : Option (Eff × W64) → Bool
  | some (.waita _ _ _, _) => true
  | _ => false

/-- Whether an effect is a BAR's. -/
def isBar : Option (Eff × W64) → Bool
  | some (.bar _, _) => true
  | _ => false

/-- The rules of R32, R131 and R340 on a second branch, a second WAITA, a second TRAP, a TRAP beside a HALT or a WAITA, a BAR
beside a BAR, a WAITA, a HALT or a TRAP, and two arrivals on one group. -/
def Block.oneOnly (b : Block) (a : Act) : Bool :=
  let halt := b.branch == some .halt
  let joins := match a.eff with | some (e, _) => e.arrival | none => none
  !(a.branch.isSome && b.branch.isSome)
    && !(isWaita a.eff && (b.hasWaita || b.trap.isSome || b.hasBar))
    && !(a.trap.isSome && (b.trap.isSome || halt || b.hasWaita || b.hasBar))
    && !(a.branch == some .halt && (b.trap.isSome || b.hasBar))
    && !(isBar a.eff && (b.hasBar || b.hasWaita || halt || b.trap.isSome))
    && !(joins.isSome && b.effs.any fun e => e.eff.arrival == joins)

/-- The record of a normal firing (R30-R32): none when it makes the block malformed. -/
def Fire.record (f : Fire) (a : Act) : Option Block :=
  let b := f.b
  if !b.oneOnly a then none
  else
    let b := { b with
      slots := b.slots.modify f.slot fun st => { st with fired := true }
      branch := if a.branch.isSome then a.branch else b.branch
      trap := if a.trap.isSome then a.trap else b.trap
      fence := wider b.fence a.fence
      sbar := b.sbar ||| a.sbar
      clearFlags := b.clearFlags ||| a.clear }
    let b := match a.eff, f.m.ls with
      | some (e, va), some ls => { b with effs := b.effs ++ [({ ls := ls, slot := f.slot, eff := e, va := va, ipa := f.s.storeIpa f.x.tag e va } : Fired)] }
      | _, _ => b
    (b.settle? false f.m a.loc).bind fun b =>
    (match a.write with
      | some (g, v) => b.receive g (some v)
      | none => match f.m.g with
        | some g => b.receive g none
        | none => some b).bind fun b =>
    (match a.null with
      | some mask => (b.settleMask mask).bind fun b => b.send f.h .null
      | none => match a.send with
        | some v => b.send f.h (.value v)
        | none => some b)

/-- The state with the block of the tile in focus replaced. -/
def Fire.withBlock (f : Fire) (b : Block) : State :=
  f.s.modFocus fun t => { t with seq := { t.seq with block := some b } }

/-- A fault that the firing instruction raises, of class X (R380). -/
def Fire.fault (f : Fire) (code : Byte) (info : W64) (page : Option (BitVec 192)) : Res :=
  .next (f.s.takeFault f.s.focus.inst f.s.focus.tile ⟨code, .x, 1, info, f.b.header, page⟩)

/-- BLOCK_MALFORMED raised by the firing instruction (R32, R387). -/
def Fire.malformed (f : Fire) : Res := f.fault cMalformed (w64 f.slot) none

/-- A normal firing (R29, R30, R32). -/
def Fire.done (f : Fire) (a : Act) : Res :=
  match f.record a with
  | none => f.malformed
  | some b => .next (f.withBlock b)

/-- A null firing (R31): nothing of the effect, a null token to each target, the LSID settled void, a WRITE's or a commit-time
operation's register settled with a null. -/
def Fire.nullFire (f : Fire) (wr : Option (BitVec 5)) : Res :=
  let b := { f.b with slots := f.b.slots.modify f.slot fun st => { st with fired := true } }
  let g := match wr with | some g => some g | none => f.m.g
  let r := (b.settle? true f.m none).bind fun b =>
    (match g with | some g => b.receive g none | none => some b).bind fun b =>
    if f.m.send then b.send f.h .null else some b
  match r with
  | none => f.malformed
  | some b => .next (f.withBlock b)

/-- The firing of the sequencer word in focus (R29): nothing while its block is not issued or a required token is missing; a null
firing; else the meaning. wr is the register of a WRITE. -/
def fireWord (i : Instr) (s : State) (wr : Option (BitVec 5)) (k : Fire → Res) : Res :=
  match i.shape with
  | .seq h m => s.onTile fun x t =>
    match t.seq.block with
    | none => .next s
    | some b =>
      if !b.issued then .next s
      else
        match b.slots[s.focus.slot]? with
        | none => .next s
        | some st =>
          let f : Fire := { s := s, x := x, t := t, b := b, slot := s.focus.slot, h := h, m := m, left := 0, right := 0 }
          match readiness h m st with
          | .wait => .next s
          | .null => f.nullFire wr
          | .go a c => k { f with left := a, right := c }
  | _ => .next s

/-- The firing of a word whose whole effect is to send a function of its operands (R113, R119, R121). -/
def fireValue (i : Instr) (s : State) (v : W64 → W64 → W64) : Res :=
  fireWord i s none fun f => f.done { send := some (v f.left f.right) }

/-- A truth value as a token (R121). -/
def boolW (c : Bool) : W64 := if c then 1 else 0

/-- The bits of a header address that name the header's block: the base of every B-format place (R115). -/
def placeOf (header : W64) (off : BitVec 33) : W64 := header + (off.signExtend 64) <<< 4

/-- The address of an M-format access (R136). -/
def Fire.addr (f : Fire) (off : BitVec 24) : W64 := f.left + off.signExtend 64

/-- The check of R136 for the firing instruction: the location reaches the meaning; a minor fault withholds the access and the
instruction waits (R389); a fault is raised with sr.info of R137 and, from translation, the page fault record of R355. -/
def Fire.checked (f : Fire) (r : AccReq) (va : W64) (write : Bool) (k : Loc → Res) : Res :=
  match f.s.seqCheck f.s.focus.inst r va with
  | .loc l => k l
  | .minor => .next f.s
  | .fault code page => f.fault code (accInfo f.slot write va) (page.map fun p => pageContent p code 1 write va)

/-- The offset, the size and whether it is a store, of a side-effecting instruction with a memory address (R34, R67). -/
def memAccess : Instr → Option (BitVec 24 × Nat × Bool)
  | .st _ _ sz off => some (off, sz.bytes, true)
  | .stf _ _ sz off => some (off, sz.bytes, true)
  | .empty _ _ off => some (off, 64, false)
  | .ldfTake _ _ sz _ off => some (off, sz.bytes, false)
  | .waita _ _ _ off => some (off, 8, false)
  | .aadd _ _ w _ off => some (off, if w then 8 else 4, false)
  | .aswp _ _ w _ off => some (off, if w then 8 else 4, false)
  | .acas _ _ w _ off => some (off, if w then 8 else 4, false)
  | .aand _ _ w _ off => some (off, if w then 8 else 4, false)
  | .aor _ _ w _ off => some (off, if w then 8 else 4, false)
  | .axor _ _ w _ off => some (off, if w then 8 else 4, false)
  | .amin _ _ w _ off => some (off, if w then 8 else 4, false)
  | .amax _ _ w _ off => some (off, if w then 8 else 4, false)
  | .aminu _ _ w _ off => some (off, if w then 8 else 4, false)
  | .amaxu _ _ w _ off => some (off, if w then 8 else 4, false)
  | .sdef _ _ _ off => some (off, 64, false)
  | .cpy _ _ off => some (off, 64, false)
  | .halo _ _ off => some (off, 64, false)
  | .ofill _ _ _ off => some (off, 6144, false)
  | .enq _ _ _ off => some (off, 64, false)
  | _ => none

/-- A slot of a block that has not fired, with its word. -/
abbrev Waiting := Head × SeqMeta × Instr × SlotSt

/-- The slots of a block that have not fired, with their words. -/
def Block.notFired (b : Block) : List Waiting :=
  (b.words.zip b.slots).filterMap fun (w, st) =>
    match decodeSeq w with
    | .error _ => none
    | .ok i => match i.shape with
      | .seq h m => if st.fired then none else some (h, m, i, st)
      | _ => none

/-- Whether the predicate of a slot excludes it in this execution of its block (R29). -/
def excluded (q : Waiting) : Bool :=
  match q.1.pred, q.2.2.2.pred with
  | .onTrue, some (.value v) => !v.getLsbD 0
  | .onFalse, some (.value v) => v.getLsbD 0
  | _, _ => false

/-- The slots of a block that have not fired and may still fire. -/
def Block.unfired (b : Block) : List Waiting := b.notFired.filter fun q => !excluded q

/-- Whether a side-effecting instruction that has not fired has a memory address that is known (R34). -/
def addressKnown (q : Waiting) : Bool :=
  match memAccess q.2.2.1, q.2.2.2.left with
  | some _, some (.value _) => true
  | _, _ => false

/-- What a store that has not fired, and whose address is known, means for a load of n bytes at a location: nothing; a wait, since the
two share bytes and its data is not there; or a wait for its own translation (R34, R354). -/
inductive Overlap where
  | apart | shared | unknown
deriving DecidableEq, Repr

/-- That relation for the tile of an instance. -/
def State.overlap (s : State) (i : Nat) (l : Loc) (n : Nat) (q : Waiting) : Overlap :=
  match memAccess q.2.2.1, q.2.2.2.left with
  | some (off, m, true), some (.value v) => match s.seqCheck i ⟨.write, m, false, true⟩ (v + off.signExtend 64) with
    | .loc k => if overlaps l.place n k.place m then .shared else .apart
    | .minor => .unknown
    | .fault _ _ => .apart
  | _, _ => .apart

/-- The side-effecting instructions below an LSID that are not settled, by LSID: those of each that have not fired (R34). -/
def Block.lowerOpen (b : Block) (ls : BitVec 5) : List (List Waiting) :=
  (List.range ls.toNat).filterMap fun k =>
    if !b.storeMask.getLsbD k || (b.settled.any fun p => p.1 == BitVec.ofNat 5 k) then none
    else some (b.notFired.filter fun q => q.2.1.ls == some (BitVec.ofNat 5 k) && !q.2.1.load)

/-- Whether a load must wait for another instruction of its block to fire (R34): a side-effecting instruction with a lower LSID has
neither a known address nor is void, or is a store of bytes of the load whose data is not there. -/
def State.lowerHolds (s : State) (i : Nat) (b : Block) (ls : BitVec 5) (l : Loc) (n : Nat) : Bool :=
  (b.lowerOpen ls).any fun qs =>
    !qs.any addressKnown || qs.any fun q => !excluded q && (!addressKnown q || s.overlap i l n q == .shared)

/-- Whether every side-effecting instruction with a lower LSID has a known address or is void, and none is a store of the load's bytes
that is still to fire (R34). -/
def Fire.lowerKnown (f : Fire) (l : Loc) (n : Nat) : Bool :=
  match f.m.ls with
  | none => true
  | some ls => !f.s.lowerHolds f.s.focus.inst f.b ls l n
    && !(f.b.lowerOpen ls).any fun qs => qs.any fun q => !excluded q && f.s.overlap f.s.focus.inst l n q == .unknown

/-- The offset and the size of a load, and whether it is slice-only (R152, R153). -/
def loadAccess : Instr → Option (BitVec 24 × Nat × Bool)
  | .ld _ _ sz off => some (off, sz.bytes, false)
  | .lds _ _ sz off => some (off, sz.bytes, false)
  | .ldf _ _ sz off => some (off, sz.bytes, true)
  | _ => none

/-- Whether a slot that holds its tokens can fire only after another instruction of its block: a load that R34 holds back. -/
def State.stuckLoad (s : State) (i : Nat) (b : Block) (q : Waiting) : Bool :=
  match q.2.1.ls, loadAccess q.2.2.1, readiness q.1 q.2.1 q.2.2.2 with
  | some ls, some (off, n, only), .go v _ => match s.seqCheck i ⟨.read, n, only, true⟩ (v + off.signExtend 64) with
    | .loc l => s.lowerHolds i b ls l n
    | _ => false
  | _, _, _ => false

/-- Whether an instruction of a block may fire with no other firing first. -/
def State.mayFire (s : State) (i : Nat) (b : Block) (q : Waiting) : Bool :=
  readiness q.1 q.2.1 q.2.2.2 != .wait && !s.stuckLoad i b q

/-- Whether a load stands behind a load of its block with a lower LSID (R144; log 24): behind one that may fire now, and behind any
while an instruction that is no load may fire. -/
def Fire.behindLoad (f : Fire) : Bool :=
  match f.m.ls with
  | none => false
  | some ls =>
    let lower := f.b.unfired.filter fun q => q.2.1.load && (match q.2.1.ls with
      | some k => decide (k.toNat < ls.toNat)
      | none => false)
    !lower.isEmpty && (lower.any (f.s.mayFire f.s.focus.inst f.b)
      || f.b.unfired.any fun q => !q.2.1.load && readiness q.1 q.2.1 q.2.2.2 != .wait)

/-- The bytes a location has below an LSID of the block: those of the block's own stores with lower LSIDs, the highest last, over
what the tile reads there (R34, R144). -/
def forwardBytes (effs : List Fired) (ls : Nat) (l : Loc) (n : Nat) (bs : List Byte) : List Byte :=
  let below := (List.range ls).flatMap fun k => effs.filter fun e => e.ls.toNat == k
  below.foldl (fun bs e => match e.eff with
    | .store k m d => overlay l.place n k.place (bytesOf m d) bs
    | .storeFull k m d => overlay l.place n k.place (bytesOf m d) bs
    | _ => bs) bs

/-- Whether the granule of a slice location is full. -/
def State.fullAt (s : State) (i : Nat) : Loc → Bool
  | .slice t o => match s.tile? i t with | some y => y.isFull (o / 64) | none => false
  | _ => false

/-- The granule of a slice location. -/
def Loc.granule : Loc → Option (Nat × Nat)
  | .slice t o => some (t, o / 64)
  | _ => none

/-- Whether the granule of a slice location is full for a tile, which its own STF and EMPTY precede that are committed and not yet
performed (R143, R144). -/
def State.fullFor (s : State) (i : Nat) (t : Tile) (l : Loc) : Bool :=
  t.sbuf.foldl (fun full p => match p with
    | .full k _ _ => full || (k.granule == l.granule && l.granule.isSome)
    | .empty k => full && k.granule != l.granule
    | .plain _ _ _ _ _ => full) (s.fullAt i l)

/-- Whether every byte of a location comes from a tile's own stores: those committed and not yet performed, and those of its block
with a lower LSID (R34, R136, R144). -/
def ownBytes (sb : List PStore) (effs : List Fired) (ls : Nat) (l : Loc) (n : Nat) : Bool :=
  let own : List (Loc × Nat) := (sb.filterMap fun p => p.bytes.map fun k => (k.1, k.2.length)) ++ effs.filterMap fun e =>
    if ls ≤ e.ls.toNat then none
    else match e.eff with
      | .store k m _ => some (k, m)
      | .storeFull k m _ => some (k, m)
      | _ => none
  (List.range n).all fun k => own.any fun q => overlaps (l.plus k).place 1 q.1.place q.2

/-! ### What holds an access back (R140, R144, R160) -/

/-- The bytes that an access at HBM adds to a context's counters (R271). -/
def State.hbmBytes (s : State) (tag : Byte) (write : Bool) (l : Loc) (n : Nat) : State :=
  match l with
  | .hbm _ => s.count tag (if write then 0x13 else 0x12) n
  | _ => s

/-- Whether a location lies in the memory of a FENCE scope, for the physical tile p of an instance (R147). -/
def Inst.inScope (x : Inst) (p : Nat) (own : Nat) : Scope → Loc → Bool
  | .system, _ => true
  | .package, .slice _ _ => true
  | .package, .hbm _ => true
  | .die, .hbm a => a / 2 ^ 37 == p / 384
  | .tile, .slice t _ => t == own
  | .cluster, .slice t _ => match x.tiles[t]? with | some y => y.phys / 64 == p / 64 | none => false
  | .die, .slice t _ => match x.tiles[t]? with | some y => y.phys / 384 == p / 384 | none => false
  | _, _ => false

/-- The location of a committed store. -/
def PStore.loc : PStore → Loc
  | .plain l _ _ _ _ => l
  | .full l _ _ => l
  | .empty l => l

/-- The VA of a committed store as formed; that of a slice-only one is not needed. -/
def PStore.va : PStore → W64
  | .plain _ _ _ v _ => v
  | _ => 0

/-- Whether a store to memory within a scope is committed and not yet performed. -/
def fencePending (x : Inst) (t : Tile) (own : Nat) : Option Scope → Bool
  | none => false
  | some sc => t.sbuf.any fun p => x.inScope t.phys own sc p.loc

/-- Whether an access to a peer that an asker has issued is not yet performed: a store, or a read with no answer yet (R161, R164). -/
def State.accessesOut (s : State) (tag : Byte) (i t who : Nat) : Bool :=
  s.storesOut tag i t who || (match s.ctx? tag with
    | none => false
    | some c => c.sessions.toList.any fun x => x.asked.any fun a => a.any fun q => q.inst == i && q.tile == t && q.who == who)

/-- Whether a stream of a mask has issued an access that is not performed (R161). -/
def State.maskedOut (s : State) (tag : Byte) (i t : Nat) (mask : BitVec 16) : Bool :=
  mask != 0 && (List.range 16).any fun k => mask.getLsbD k && s.accessesOut tag i t (128 + k)

/-- The semaphores can give what some SEMAs of a block take in all (R327). -/
def Tile.semasReady (t : Tile) (effs : List Fired) : Bool :=
  (List.range 64).all fun k =>
    decide ((effs.map fun e => match e.eff with
      | .sema _ sem cnt => if sem.toNat = k then cnt.toNat else 0
      | _ => 0).sum ≤ (vget t.sem k 0).toNat)

/-- The effects of a block below the LSID of a word. -/
def Block.below (b : Block) (ls : Option (BitVec 5)) : List Fired :=
  b.effs.filter fun e => match ls with | some k => decide (e.ls.toNat < k.toNat) | none => false

/-- Whether the firing instruction's access must wait: for a FENCE of this block or of the block before it, for the streams of an
SBAR of its block, for the count of a SEMA of its block with a lower LSID (R330), or for a reservation of another tile. -/
def Fire.held (f : Fire) (l : Loc) (n : Nat) : Bool :=
  fencePending f.x f.t f.s.focus.tile f.b.fence || fencePending f.x f.t f.s.focus.tile f.t.seq.fence
    || !f.t.semasReady (f.b.below f.m.ls)
    || f.s.maskedOut f.x.tag f.s.focus.inst f.s.focus.tile f.b.sbar
    || f.s.reservedElsewhere f.s.focus.inst f.s.focus.tile l n

/-- The code of a stream in an Ask. -/
def whoStream (st : BitVec 4) : Nat := 128 + st.toNat
/-- The code of an operand slot's fill in an Ask. -/
def whoFill (k : BitVec 4) : Nat := 144 + k.toNat
/-- The code of the read of a descriptor or packet released with an LSID in an Ask. -/
def whoDesc (ls : BitVec 5) : Nat := 160 + ls.toNat
/-- The code of a tile's committed stores in an Ask. -/
def whoStore : Nat := 192
/-- The code of the packets of a level at a copy engine in an Ask; that of a compare and swap by which they write part of a byte is 4
more. -/
def whoCopy (eng level : Nat) : Nat := 256 + 8 * eng + level
/-- The code of a HALO's direction in an Ask; that of a part of a byte does not arise. -/
def whoHalo : Nat := 193
/-- The code of the check of an atomic with an LSID in an Ask. -/
def whoCheck (ls : BitVec 5) : Nat := 1024 + ls.toNat

/-- The tile whose reservations do not hold back the accesses that an asker's code names (R140): a tile's own sequencer reads the
descriptors of its commands under its own reservations; every engine gives way to them. -/
def whoTile (t who : Nat) : Nat := if 160 ≤ who && who < 192 then t else noTile

/-- The content of the page fault record of a fault reply (R372): stage 2, the IPA, walk 0. -/
def replyPage (i : BitVec 5) (va : W64) : W64 × Nat × Bool × Nat :=
  (w64 (2 ^ 50 + i.toNat * 2 ^ 44 + fld va 0 44), 0, false, 2)

end Sys2Proof.Machine
end

