-- ==== Sys2Proof/Machine/QueueOps.lean ====
section
/-! DEFINITION. The fields of queue packets, the states and levels of a queue, and the end of a packet (R277-R287). -/

namespace Sys2Proof.Machine

/-- Ticks of the reference clock in 4 ms (R179, R287). -/
def agePeriod : Nat := 40 * Config.refPeriod

/-- The code of a packet (R282). -/
def pkCode (p : Rec64) : Nat := fld p 0 8
/-- The mset bit. -/
def pkMset (p : Rec64) : Bool := p.getLsbD 8
/-- The mark number. -/
def pkMark (p : Rec64) : BitVec 16 := p.extractLsb' 16 16
/-- The kernel reference. -/
def pkKref (p : Rec64) : Nat := fld p 32 16
/-- The budget in units of 65,536 tile cycles. -/
def pkBudget (p : Rec64) : Nat := fld p 48 16
/-- Word k of a packet. -/
def pkWord (p : Rec64) (k : Nat) : W64 := p.extractLsb' (64 * k) 64

/-- Changing a queue of a context. -/
def State.modQueue (s : State) (tag : Byte) (q : BitVec 4) (f : Queue → Queue) : State :=
  s.modCtx tag fun c => { c with queues := vmod c.queues q.toNat f }

/-- A queue of a context. -/
def Context.queue? (c : Context) (q : BitVec 4) : Option Queue := c.queues[q.toNat]?

/-- The policy's queue priority bound (R259). -/
def Context.bound (c : Context) : Nat := match c.policy with | some p => p.bound | none => 0

/-- The base level of a queue (R277). -/
def Context.baseLevel (c : Context) (q : BitVec 4) : Nat := Nat.max (q.toNat / 4) c.bound

/-- The effective level of a queue that is Ready (R287). -/
def Context.effectiveLevel (c : Context) (q : BitVec 4) (x : Queue) : Nat :=
  let b := c.baseLevel q
  if b = 0 then 0 else Nat.max (b - x.age) (Nat.max 1 c.bound)

/-- What a packet adds to its mark when it completes (R283). -/
def markAmount (p : Rec64) : W64 := if pkCode p = 5 then pkWord p 1 else 1

/-- A packet that has completed (R284): it is no longer started, it counts, and its mark add is due. -/
def State.completePacket (s : State) (tag : Byte) (q : BitVec 4) (ord : Nat) : State :=
  s.modQueue tag q fun x =>
    match x.started.find? fun p => p.ord == ord with
    | none => x
    | some p =>
      { x with
        started := x.started.filter fun p => p.ord != ord
        completed := (x.completed + 1) % 2 ^ 24
        marks := if pkMset p.pkt then x.marks ++ [(pkMark p.pkt, markAmount p.pkt)] else x.marks }

/-- A packet that has been read and goes on without its memory (R285). -/
def State.packetRead (s : State) (tag : Byte) (q : BitVec 4) (ord : Nat) : State :=
  s.modQueue tag q fun x => { x with started := x.started.map fun p => if p.ord == ord then { p with reads := false } else p }

/-- An error recorded in a queue (R284). -/
def Queue.erred (x : Queue) (code : Byte) : Queue := { x with errors := Nat.min 255 (x.errors + 1), lasterr := code }

/-- A packet that has erred (R284): it adds nothing to its mark. -/
def State.errPacket (s : State) (tag : Byte) (q : BitVec 4) (ord : Nat) (code : Byte) : State :=
  s.modQueue tag q fun x => { x with started := x.started.filter fun p => p.ord != ord }.erred code

/-- The entries of a queue's packet buffer that a block has reserved (R290): those of its ENQs, from its wait phase to their release. -/
def Block.enqsHeld (b : Block) (q : BitVec 4) : Nat :=
  let mine (e : Fired) : Bool := match e.eff with | .enq k _ => k == q | _ => false
  match b.perform with
  | some l => l.countP mine
  | none => if b.checking then b.effs.countP mine else 0

/-- The entries of a queue's packet buffer that blocks have reserved. -/
def State.enqsHeld (s : State) (tag : Byte) (q : BitVec 4) : Nat :=
  (s.insts.map fun x => if x.tag == tag then
    (x.tiles.map fun t => match t.seq.block with | some b => b.enqsHeld q | none => 0).sum else 0).sum

/-- A packet accepted by a queue (R280, R290): none while its buffer is full. A LAUNCH counts in the context's launches (R125). -/
def State.acceptPacket (s : State) (tag : Byte) (q : BitVec 4) (pkt : Rec64) : Option State :=
  match s.ctx? tag with
  | none => none
  | some c => match c.queue? q with
    | none => none
    | some x =>
      if 64 ≤ x.buf.length then none
      else
        let n := if pkCode pkt = 1 then c.launches + 1 else c.launches
        some ((s.modQueue tag q fun x => { x with buf := x.buf ++ [(pkt, n)] }).modCtx tag fun c => { c with launches := n })

end Sys2Proof.Machine
end

