-- ==== Sys2Proof/Machine/Matrix.lean ====
section
/-! DEFINITION. What the matrix engine computes (R110-R112, R233, R243, R245). -/

namespace Sys2Proof.Machine

/-- The rounding mode of a token's rnd bit (R238): RNE or RTZ. -/
def tokenMode (r : BitVec 1) : BitVec 3 := if r == 0 then 1 else 2

/-- The 192 bytes of row r of a slot (R233). -/
def slotRow (s : SlotImage) (r : Nat) : Nat := s.toNat / 2 ^ (1536 * r) % 2 ^ 1536

/-- The 16 values of group g of a row (R111, R233). -/
def rowGroup (f : BitVec 4) (row : Nat) (g : Nat) : List FVal :=
  if isBlock f then blockVals f (row / 2 ^ (fmtWidth f * g) % 2 ^ fmtWidth f)
  else (elems (fmtWidth f) 16 (row / 2 ^ (fmtWidth f * 16 * g))).map (scalarVal f)

/-- The first n groups of a row. -/
def rowGroups (f : BitVec 4) (n : Nat) (row : Nat) : List (List FVal) := (List.range n).map (rowGroup f row)

/-- The signed product of two values, none for 0 × ∞; the sign of MMAN is inverted (R111). -/
def signedProd (neg : Bool) (a b : FVal) : Option FVal := (fProd a b).map fun p => if neg then fNeg p else p

/-- One group of R111 on a float accumulator: the new accumulator and the flags. -/
def floatGroup (mode : BitVec 3) (neg : Bool) (c : Nat) (as bs : List FVal) : Elem :=
  let cv := floatVal 0 c
  let isNaN (v : FVal) : Bool := (nanKind v).isSome
  if isNaN cv || as.any isNaN || bs.any isNaN then (0x7FC00000, snanFlags (as ++ bs))
  else
    let ps := (as.zip bs).map fun p => signedProd neg p.1 p.2
    let vals := cv :: ps.filterMap id
    let pinf := vals.contains (.inf false)
    let ninf := vals.contains (.inf true)
    if ps.contains none || (pinf && ninf) then (0x7FC00000, fInvalid)
    else if pinf then quiet 0x7F800000
    else if ninf then quiet 0xFF800000
    else
      let dy : List (Int × Int) := vals.map fun v => match v with | .fin s m e => dyOf s m e | _ => (0, 0)
      let (m, e) := dySum dy
      roundDy 0 mode (vals.all fun v => match v with | .fin s k _ => s && k == 0 | _ => false) m e

/-- One group of R111 on an integer accumulator: the clamped sum and whether it was clamped. -/
def intGroup (neg : Bool) (c : Nat) (as bs : List FVal) : Nat × Bool :=
  let iv (v : FVal) : Int := match v with | .fin s m _ => (if s then -(m : Int) else m) | _ => 0
  let p : Int := ((as.zip bs).map fun q => iv q.1 * iv q.2).foldl (· + ·) 0
  let t := intVal 11 c + (if neg then -p else p)
  (wrapTo 32 (saturate 11 t), saturate 11 t != t)

/-- One element of R111: the accumulator, the flags, the saturation flag. -/
def mmaElem (int : Bool) (mode : BitVec 3) (neg : Bool) :
    Nat × BitVec 5 × Bool → List (List FVal) → List (List FVal) → Nat × BitVec 5 × Bool
  | (c, f, s), a :: as, b :: bs =>
    if int then
      let (c', k) := intGroup neg c a b
      mmaElem int mode neg (c', f, s || k) as bs
    else
      let (c', g) := floatGroup mode neg c a b
      mmaElem int mode neg (c', f ||| g, s) as bs
  | r, _, _ => r

/-- The elements of an accumulator, row by row. -/
def accElems (a : AccImage) : List Nat := elems 32 1024 a.toNat

/-- The accumulator of its elements. -/
def ofAccElems (l : List Nat) : AccImage := BitVec.ofNat 32768 (ofElems 32 l)

/-- MMA (1), MMAZ (2), MMAN (3) (R111, R243): the accumulator, the flags, the saturation flag. Elements beyond the token's rows
keep their value. -/
def mmaOp (op : BitVec 4) (k : MTok) (a b : SlotImage) (acc : AccImage) : AccImage × BitVec 5 × Bool :=
  let n := k.kcnt.toNat
  let ra := k.ra.toNat + 1
  let rb := k.rb.toNat + 1
  let as := (List.range ra).map fun i => rowGroups k.fa n (slotRow a i)
  let bs := (List.range rb).map fun j => rowGroups k.fb n (slotRow b j)
  let int := match mxClass k.fa with | some (_, _, _, i) => i | none => false
  let r := (accElems acc).zipIdx.map fun (c, x) =>
    let i := x / 32
    let j := x % 32
    if i < ra ∧ j < rb then
      mmaElem int (tokenMode k.rnd) (op == 3) (if op == 2 then 0 else c, fNone, false) (as.getD i []) (bs.getD j [])
    else (c, fNone, false)
  (ofAccElems (r.map (·.1)), orFlags (r.map (·.2.1)), r.any (·.2.2))

/-- The schedule cycles of an operation of R243. -/
def mmaCycles (k : MTok) : Nat :=
  match mxClass k.fa with
  | some (_, _, c, _) => k.kcnt.toNat * c
  | none => 1

/-- The format whose elements are as wide as the units of a format: a unit of i4 is a byte (R162). -/
def unitFmt (t : BitVec 4) : BitVec 4 := if t == 9 then 8 else t

/-- Units of a format in a beat (R100, R162). -/
def beatUnits (t : BitVec 4) : Nat := if isBlock t then perBeat t / 16 else perBeat (unitFmt t)

/-- The beats of a list of units of a format, packed in order (R162). -/
def packBeats (t : BitVec 4) : Nat → List Nat → List Beat
  | 0, _ => []
  | n + 1, l => ofBeatElems (unitFmt t) (l.take (beatUnits t)) :: packBeats t n (l.drop (beatUnits t))

/-- The units that ACCOUT sends and the flags of their conversion (R245). -/
def accoutUnits (k : MTok) (acc : AccImage) : List Elem :=
  let xs := (accElems acc).take (32 * (k.ra.toNat + 1))
  if k.fa == k.ofmt then xs.map quiet
  else cvtList k.fa k.ofmt (tokenMode k.rnd) (k.sat == 1) xs 0 xs.length

/-- The beats of an ACCOUT and the flags (R245). Each element of i4 is one unit, a byte that holds it in its low half; hi gives the high
halves, for which the spec gives no value (log 20). -/
def accoutBeats (k : MTok) (acc : AccImage) (hi : BitVec 4096) : List Beat × BitVec 5 :=
  let us := accoutUnits k acc
  let b := beatUnits k.ofmt
  let vs := if k.ofmt == 9 then us.zipIdx.map fun (u, j) => u.1 + 16 * (hi.extractLsb' (4 * j) 4).toNat else us.map (·.1)
  (packBeats k.ofmt ((us.length + b - 1) / b) vs, orFlags (us.map (·.2)))

/-- An accumulator with a beat's units written from element n on, within the rows of an ACCIN (R245). -/
def accinWrite (acc : AccImage) (n limit : Nat) (b : Beat) : AccImage :=
  let us := elems 32 192 b.toNat
  ofAccElems ((accElems acc).zipIdx.map fun (c, x) => if n ≤ x ∧ x < limit ∧ x < n + 192 then us.getD (x - n) 0 else c)

end Sys2Proof.Machine
end

