-- ==== Sys2Proof/Machine/Units.lean ====
section
/-! DEFINITION. Units and beats (R162), conversion of units (R107, R173), and the memory accesses of engines (R136, R165). -/

namespace Sys2Proof.Machine

/-! ### Units and beats (R162) -/

/-- Bytes of a unit of a format. -/
def unitBytes (t : BitVec 4) : Nat := if t == 9 then 1 else fmtWidth t / 8

/-- Units in a beat. -/
def unitsPerBeat (t : BitVec 4) : Nat := 768 / unitBytes t

/-- The first n units of a beat. -/
def beatUnitBits (t : BitVec 4) (n : Nat) (b : Beat) : List (BitVec 144) :=
  (elems (8 * unitBytes t) n b.toNat).map (BitVec.ofNat 144)

/-- A beat of units, the lowest positions first, zero above. -/
def beatOfUnits (t : BitVec 4) (us : List (BitVec 144)) : Beat :=
  BitVec.ofNat 6144 (ofElems (8 * unitBytes t) (us.map (·.toNat)))

/-- The elements of units: two of each i4 unit, one block or element of any other (R100, R162). -/
def unitElems (t : BitVec 4) (us : List (BitVec 144)) : List Nat :=
  if t == 9 then us.flatMap fun u => [u.toNat % 16, u.toNat / 16 % 16] else us.map fun u => u.toNat % 2 ^ fmtWidth t

/-- Pairs of i4 elements joined into units. -/
def pairUp : List Nat → List Nat
  | a :: b :: l => (a + 16 * b) :: pairUp l
  | [a] => [a]
  | [] => []

/-- The units of elements (R162). -/
def elemUnits (t : BitVec 4) (xs : List Nat) : List (BitVec 144) :=
  (if t == 9 then pairUp xs else xs).map (BitVec.ofNat 144)

/-- The value of a scale register or field. -/
def f32Val (x : W32) : FVal := floatVal 0 x.toNat

/-- Conversion of elements by RoundTo(dst, mode, Exact(x) × S) under R107: the elements, or blocks, of the destination, and the
flags. -/
def convElems (src dst : BitVec 4) (mode : BitVec 3) (sat : Bool) (k : W32) (xs : List Nat) : List Nat × BitVec 5 :=
  let out : List Elem :=
    if intPair src dst && k == 0x3F800000 then xs.map (cvtScalar src dst mode sat)
    else
      let vs := (unitVals src xs).map fun v => scaleVal v (f32Val k)
      if isBlock dst then
        let n := (vs.length + 15) / 16
        let pad := vs.map (·.1) ++ List.replicate (16 * n - vs.length) (.fin false 0 0)
        (chunks16 (n + 1) pad).map (toBlock dst) ++ [(0, orFlags (vs.map (·.2)))]
      else vs.map fun v =>
        let r := valTo dst mode (sat && !isInteger dst) v.1
        (r.1, r.2 ||| v.2)
  let xs := out.map (·.1)
  let blocks := isBlock dst && !(intPair src dst && k == 0x3F800000)
  (if blocks then xs.dropLast else xs, orFlags (out.map (·.2)))

/-- Source units that make a whole number of destination units together. -/
def convGroup (src dst : BitVec 4) : Nat :=
  let per := if isBlock src then 16 else if src == 9 then 2 else 1
  let need := if isBlock dst then 16 else if dst == 9 then 2 else 1
  if need ≤ per then 1 else need / per

/-! ### Memory accesses of engines (R136, R165) -/

/-- The largest naturally aligned access at an address within n bytes. -/
def pieceAt (va : Nat) (n : Nat) : Size :=
  if va % 8 = 0 ∧ 8 ≤ n then .b8 else if va % 4 = 0 ∧ 4 ≤ n then .b4 else if va % 2 = 0 ∧ 2 ≤ n then .b2 else .b1

/-- A range cut into naturally aligned accesses. -/
def piecesOf : Nat → W64 → Nat → List (W64 × Size)
  | 0, _, _ => []
  | _ + 1, _, 0 => []
  | k + 1, va, n => let z := pieceAt va.toNat n; (va, z) :: piecesOf k (va + w64 z.bytes) (n - z.bytes)

/-- A range of an engine's access after its checks: where its pieces lie; or it must wait; or a pending fault. -/
inductive EAcc where
  | ok (ps : List (Loc × Size))
  | wait
  | bad (f : PFault)

/-- The checks of R136 on every piece of a range, for an engine. -/
def State.checkPieces (s : State) (i : Nat) (tag : Byte) (engine : BitVec 3) (kind : AccKind) (sliceOnly : Bool) :
    List (W64 × Size) → EAcc
  | [] => .ok []
  | (va, z) :: l =>
    match s.checkTag i tag ⟨kind, z.bytes, sliceOnly, true⟩ va with
    | .minor => .wait
    | .fault code page => .bad (accPFault engine code page kind.isWrite va)
    | .loc p => match s.checkPieces i tag engine kind sliceOnly l with
      | .ok ps => .ok ((p, z) :: ps)
      | r => r

/-- The checks of R136 on a range of n bytes; align is the alignment the whole range needs. -/
def State.checkRange (s : State) (i : Nat) (tag : Byte) (engine : BitVec 3) (kind : AccKind) (sliceOnly : Bool) (va : W64)
    (n align : Nat) : EAcc :=
  if fld va 55 9 == 0 && va.toNat % align != 0 then .bad (accPFault engine cMisaligned none kind.isWrite va)
  else s.checkPieces i tag engine kind sliceOnly (piecesOf n va n)

/-- What an engine's read gives: bytes; or it must wait (for a reservation or a peer); or it failed. -/
inductive ERead where
  | bytes (bs : List Byte)
  | wait
  | failed (code : Byte) (peer : Option (BitVec 5 × W64))

/-- The bytes of checked pieces for the tile, or engine, that who names; reads of a peer are sent and awaited. -/
def State.readPieces (s : State) (i t who : Nat) (tag : Byte) : List (Loc × Size) → ERead × State
  | [] => (.bytes [], s)
  | (l, z) :: ps =>
    let here : ERead × State :=
      match l with
      | .remote k v => match s.askPeer tag k ⟨i, t, who, v⟩ (.read v z) with
        | (none, s) => (.wait, s)
        | (some (.failed c), s) => (.failed c (some (k, v)), s)
        | (some (.data d), s) => (.bytes (bytesOf z.bytes d), s)
      | _ =>
        if s.reservedElsewhere i (whoTile t who) l z.bytes then (.wait, s)
        else if s.badLoc i l z.bytes then (.failed cUncorrectable none, s)
        else (.bytes (s.readLoc i l z.bytes), s.hbmBytes tag false l z.bytes)
    match here with
    | (.bytes bs, s) => match s.readPieces i t who tag ps with
      | (.bytes cs, s) => (.bytes (bs ++ cs), s)
      | r => r
    | (.wait, s) => match s.readPieces i t who tag ps with
      | (.failed c p, s) => (.failed c p, s)
      | (_, s) => (.wait, s)
    | r => r

/-- Whether the read of a checked piece can go on now: no reservation holds it, and it is not one that awaits a peer's answer. -/
def State.readFree (s : State) (i t who : Nat) (tag : Byte) (p : Loc × Size) : Bool :=
  match p.1 with
  | .remote k v => match s.session? tag k with
    | none => true
    | some x => (lookupKey (⟨i, t, who, v⟩ : Ask) x.got).isSome || !x.asked.contains (some ⟨i, t, who, v⟩)
  | l => !s.reservedElsewhere i (whoTile t who) l p.2.bytes

/-- Whether stores that an asker made at a peer are not yet complete, where checked pieces lie elsewhere: an access there would overtake them,
while those at the same peer follow them on their session (R148, R369). -/
def State.overtakes (s : State) (tag : Byte) (i t who : Nat) (ps : List (Loc × Size)) : Bool :=
  match s.ctx? tag with
  | none => false
  | some c => (c.sessions.toList.zipIdx).any fun (x, k) =>
    (x.stores.any fun q => q.inst == i && q.tile == t && q.who == who)
      && !ps.all fun p => match p.1 with | .remote n _ => n.toNat == k | _ => false

/-- The answers of peers that an asker has used, or will never use. -/
def State.tookAll (s : State) (i t who : Nat) (tag : Byte) : State := s.modCtx tag fun c => c.dropAskers i t who 1

/-- The answers of peers to the reads of checked pieces, used. -/
def State.tookPieces (s : State) (i t who : Nat) (tag : Byte) (ps : List (Loc × Size)) : State :=
  ps.foldl (fun s p => match p.1 with
    | .remote k v => s.tookPeer tag k ⟨i, t, who, v⟩
    | _ => s) s

/-- Whether a write of checked pieces must wait for a reservation. -/
def State.writeHeld (s : State) (i : Nat) (ps : List (Loc × Size)) : Bool :=
  ps.any fun p => s.reservedElsewhere i noTile p.1 p.2.bytes

/-- The VA in sr.info of a fault that belongs to no access: the spec gives none (log 20). -/
def State.openVa (s : State) : W64 := ((Config.openInfo s.now).extractLsb' 0 55).setWidth 64

/-- sr.info in the layout of R137 for a fault that belongs to no access (R379; log 20). -/
def State.openVaInfo (s : State) : W64 := accInfo 0 false s.openVa

/-- The needed alignment of a row or array of a format. -/
def unitAlign (t : BitVec 4) : Nat := if isBlock t then 1 else unitBytes t

/-- Bytes written to checked pieces; stores to a peer are sent. -/
def State.writePieces (s : State) (i t who : Nat) (tag : Byte) : List (Loc × Size) → List Byte → State
  | [], _ => s
  | (l, z) :: ps, bs =>
    let here := bs.take z.bytes
    let s := match l with
      | .remote k v => s.storePeer tag k ⟨i, t, who, v⟩ z (wordOf here)
      | _ => (s.writeLoc i l here).hbmBytes tag true l z.bytes
    s.writePieces i t who tag ps (bs.drop z.bytes)

/-- The slice granules that checked pieces touch, as tile and granule. -/
def granulesIn (ps : List (Loc × Size)) : List (Nat × Nat) :=
  ps.filterMap fun p => match p.1 with | .slice t o => some (t, o / 64) | _ => none

/-- The fault of a read that failed (R137, R355, R372). -/
def readPFault (engine : BitVec 3) (code : Byte) (peer : Option (BitVec 5 × W64)) (va : W64) : PFault :=
  { code := code, engine := engine,
    info := match peer with
      | some p => if code == cPeerLost then w64 p.1.toNat else accInfo 0 false va
      | none => accInfo 0 false va
    page := if code == cPeerLost then none
      else peer.map fun p => pageContent (replyPage p.1 p.2) code engine false va }

/-- Whether no reservation holds back the mark of a granule (R140). -/
def State.markFree (s : State) (i : Nat) (g : Nat × Nat) : Bool := !s.reservedElsewhere i noTile (.slice g.1 (64 * g.2)) 64

/-- Marking granules full (R142, R178). -/
def State.markFull (s : State) (i : Nat) (gs : List (Nat × Nat)) : State :=
  gs.foldl (fun s g => s.modTile i g.1 fun y => y.setFull g.2 true) s

end Sys2Proof.Machine
end

