-- ==== Sys2Proof/Machine/Ports.lean ====
section
/-! DEFINITION. Stream ports and virtual channels, router filters, and the instructions that write VC entries and scale registers
(R52, R171-R175, R184, R308, R373). -/

namespace Sys2Proof.Machine

/-! ### VC entries (R171) -/

/-- The index of a VC. -/
def vcIdx (port : BitVec 2) (vc : BitVec 5) : Nat := port.toNat * 32 + vc.toNat

/-- The format of an entry. -/
def vcFmt (e : W64) : BitVec 4 := e.extractLsb' 60 4
/-- Whether an entry is outbound. -/
def vcOut (e : W64) : Bool := e.getLsbD 59
/-- The sat bit. -/
def vcSat (e : W64) : Bool := e.getLsbD 58
/-- The scale register. -/
def vcScale (e : W64) : Nat := fld e 55 3
/-- The router filter entry, 0 for none. -/
def vcFilter (e : W64) : BitVec 7 := e.extractLsb' 48 7
/-- The route kind. -/
def vcRoute (e : W64) : Nat := fld e 46 2
/-- The destination. -/
def vcDest (e : W64) : BitVec 16 := e.extractLsb' 30 16
/-- The destination VC. -/
def vcDvc (e : W64) : BitVec 5 := e.extractLsb' 25 5
/-- The destination port. -/
def vcDport (e : W64) : BitVec 2 := e.extractLsb' 23 2
/-- The demand window. -/
def vcWindow (e : W64) : Nat := fld e 17 6 + 1
/-- Units per frame. -/
def vcFrame (e : W64) : Nat := fld e 1 16
/-- The valid bit. -/
def vcValid (e : W64) : Bool := e.getLsbD 0

/-- A VC that holds nothing, with an entry of zeros. -/
def Vc.empty : Vc :=
  { entry := 0, cur := none, sent := 0, feed := [], pend := [], filt := [], ready := [], granted := 0, arrived := [], made := [], inCur := none,
    pos := 0, pack := [], packTag := 0, conv := [] }

/-- A VC of a tile. -/
def Tile.vcAt (t : Tile) (port : BitVec 2) (vc : BitVec 5) : Vc := vget t.vc (vcIdx port vc) Vc.empty

/-- Changing a VC of a tile. -/
def Tile.modVc (t : Tile) (port : BitVec 2) (vc : BitVec 5) (f : Vc → Vc) : Tile := { t with vc := vmod t.vc (vcIdx port vc) f }

/-- The field ranges of an entry (R171, R180, R184): those of a frame bind a valid entry. -/
def vcEntryOk (e : W64) : Bool :=
  let r := vcRoute e
  (!vcValid e || vcFrame e != 0) &&
  if vcOut e then
    fld e 17 6 == 0 && !((r == 1 || r == 3) && vcDport e != 0)
      && !(r == 2 && (decide (1 < (vcDport e).toNat) || (vcDport e == 0 && vcDvc e != 0) || decide (5 < (vcDest e).toNat)))
      && !(r == 3 && decide ((vcDvc e).toNat < 16))
  else vcFilter e == 0 && r == 0 && vcDest e == 0 && vcDvc e == 0 && vcDport e == 0

/-- The router filter an entry names, where the placed image installed it for the VC (R175, R184). -/
def Tile.filterOf (t : Tile) (port : BitVec 2) (vc : BitVec 5) (e : W64) : Option Filter :=
  t.filters.find? fun f => f.port == port && f.vc == vc && f.entry == vcFilter e

/-- Whether an entry names the session, tile and VC that a valid outbound entry of another VC of the context names (R373). -/
def State.sessionVcTaken (s : State) (tag : Byte) (i t : Nat) (port : BitVec 2) (vc : BitVec 5) (e : W64) : Bool :=
  s.insts.zipIdx.any fun (x, i') => x.tag == tag && x.st != .retired && x.tiles.zipIdx.any fun (y, t') =>
    y.vc.toList.zipIdx.any fun (v, k) =>
      !(i == i' && t == t' && k == vcIdx port vc) && vcValid v.entry && vcOut v.entry && vcRoute v.entry == 3
        && vcDest v.entry == vcDest e && vcDvc v.entry == vcDvc e

/-- The fault of a VCFMT (R180, R184, R373), where it has one. -/
def State.vcfmtFault (s : State) (x : Inst) (t : Tile) (port : BitVec 2) (vc : BitVec 5) (e : W64) : Option Byte :=
  if !vcEntryOk e then some cIllegal
  else if vcOut e && vcFilter e != 0 && (t.filterOf port vc e).isNone then some cIllegal
  else if !vcOut e then none
  else match vcRoute e with
    | 0 => if x.tiles.length ≤ (vcDest e).toNat then some cPermission else none
    | 1 => if x.nodes.any (fun n => n.id == vcDest e) then none else some cPermission
    | 2 => none
    | _ => match s.session? x.tag ((vcDest e).extractLsb' 0 5) with
      | none => some cLinkPermit
      | some k =>
        if !k.opened || !k.send then some cLinkPermit
        else if vcValid e && s.sessionVcTaken x.tag s.focus.inst s.focus.tile port vc e then some cChannel
        else none

/-- VCFMT: its checks when it fires; the entry at commit (R174, R184). It forms no address: the VA in the sr.info of its fault is free (log
20). -/
def execVcfmt (h : Head) (ls : BitVec 5) (port : BitVec 2) (vc : BitVec 5) (s : State) : Res :=
  fireWord (.vcfmt h ls port vc) s none fun f =>
    match s.vcfmtFault f.x f.t port vc f.left with
    | some c => f.fault c (accInfo f.slot false s.openVa) none
    | none => f.done { eff := some (.vcfmt port vc f.left, 0) }

/-- Whether a value may stand in a scale register: a finite f32 that is not zero (R184). -/
def scaleOk (v : W64) : Bool := fld v 32 32 == 0 && fld v 23 8 != 255 && fld v 0 31 != 0

/-- VCSCL: its check when it fires; the register at commit. The VA in the sr.info of its fault is free (log 20). -/
def execVcscl (h : Head) (ls : BitVec 5) (port : BitVec 2) (reg : BitVec 3) (s : State) : Res :=
  fireWord (.vcscl h ls port reg) s none fun f =>
    if scaleOk f.left then f.done { eff := some (.vcscl port reg f.left, 0) }
    else f.fault cIllegal (accInfo f.slot false s.openVa) none

/-- The value of a port's scale register. -/
def Tile.scaleAt (t : Tile) (port : BitVec 2) (e : W64) : W32 := vget t.scale (port.toNat * 8 + vcScale e) 0

/-! ### The outbound side (R172, R174) -/

/-- The channel that the placed image links to a VC, on the side of STR that the direction needs (R297). -/
def Tile.linkedChan (t : Tile) (port : BitVec 2) (vc : BitVec 5) (out : Bool) : Option Nat :=
  (List.range 16).find? fun k => match t.chan[k]? with
    | some c => c.link == some (port, vc) && (if out then c.consumer == 2 else c.producer == 2)
    | none => false

/-- A channel that holds nothing and is bound to nothing. -/
def Channel.empty : Channel := { producer := 0, consumer := 0, link := none, entries := [], surplus := false }

/-- A channel of a tile. -/
def Tile.chanAt (t : Tile) (k : Nat) : Channel := vget t.chan k Channel.empty

/-- Changing a channel of a tile. -/
def Tile.modChan (t : Tile) (k : Nat) (f : Channel → Channel) : Tile := { t with chan := vmod t.chan k f }

/-- The units of a beat of an outbound frame whose first n units are sent: without padding, the end mark where the beat or the frame
ends (R172). -/
def beatToUnits (e : W64) (sent : Nat) (b : ChanEntry) : List LinkUnit :=
  let k := Nat.min (unitsPerBeat (vcFmt e)) (vcFrame e - sent)
  let us := beatUnitBits (vcFmt e) k b.data
  us.zipIdx.map fun (u, j) => ⟨u, b.tag, j + 1 == k && (b.last || k == vcFrame e - sent), false⟩

/-- An outbound VC takes a beat (R172, R174): the entry and scale value of the frame are those at its first unit. -/
def Tile.vcTake (t : Tile) (port : BitVec 2) (vc : BitVec 5) (b : ChanEntry) : Tile :=
  t.modVc port vc fun v =>
    let cur := if v.sent = 0 then some (v.entry, t.scaleAt port v.entry) else v.cur
    let e := match cur with | some c => c.1 | none => v.entry
    let us := beatToUnits e v.sent b
    let ended := us.any (·.last)
    { v with
      cur := cur
      pend := v.pend ++ us
      packTag := if v.sent = 0 then b.tag else v.packTag
      sent := if ended then 0 else v.sent + us.length }

/-- A unit at an inbound VC (R52): it consumes one unit of demand; a finished tile discards it (R308). -/
def State.unitToTile (s : State) (i t : Nat) (port : BitVec 2) (vc : BitVec 5) (fmt : BitVec 4) (u : LinkUnit) : Option State :=
  match s.tile? i t with
  | none => none
  | some y =>
    if y.seq.finished then some s
    else
      let v := y.vcAt port vc
      if v.granted = 0 then none
      else some (s.modTile i t fun y =>
        y.modVc port vc fun v => { v with granted := v.granted - 1, arrived := v.arrived ++ [(fmt, u)] })

/-- A unit at a fabric input (R310): the rest of a surplus frame is discarded up to and including its end. -/
def FabIn.accept (p : FabIn) (fmt : BitVec 4) (u : LinkUnit) : FabIn :=
  if p.surplus then { p with surplus := !u.last } else { p with units := p.units ++ [(fmt, u)] }

/-- A unit at a fabric input of an instance; none while it has no demand. A finished node's units are discarded. -/
def State.unitToNode (s : State) (i : Nat) (node : BitVec 16) (port : Nat) (fmt : BitVec 4) (u : LinkUnit) : Option State :=
  match (s.inst? i).bind fun x => x.nodes.find? fun n => n.id == node with
  | none => none
  | some n =>
    if n.finished then some s
    else match lookupKey port n.ins with
      | none => none
      | some p =>
        if p.window ≤ p.units.length then none
        else some (s.modInst i fun x =>
          { x with nodes := x.nodes.map fun n =>
            if n.id == node then { n with ins := putKey port (p.accept fmt u) n.ins } else n })

/-- A unit at a copy engine (R180): the packet input, or the permit counter that is named. The input has demand while the packets of the
source that have not started, with the frames of it that wait to become packets, are fewer than 16 (R179), and for a frame of each of its
VCs (R171). -/
def State.unitToEngine (s : State) (eng : Nat) (src : CpSrc) (i vc : Nat) (permit : Option (BitVec 5)) (u : LinkUnit) : Option State :=
  match s.copy[eng]?, permit with
  | none, _ => none
  | some e, none =>
    let mine := e.inbox.filter fun p => p.src == src
    if 16 ≤ (e.waiting.filter fun p => p.src == src).length + (mine.filter fun p => p.unit.last).length
        || 65536 ≤ (mine.filter fun p => p.vc == vc).length then none
    else some { s with copy := vmod s.copy eng fun e => { e with inbox := e.inbox ++ [⟨src, i, vc, u⟩] } }
  | some _, some v => some { s with copy := vmod s.copy eng fun e => { e with permitIn := e.permitIn ++ [(src, i, v)] } }

/-- The edge that leaves a tile by a VC (R299). -/
def Inst.edgeFrom (x : Inst) (node : BitVec 16) (port : BitVec 2) (vc : BitVec 5) : Option Edge :=
  x.kernel.edges.find? fun e => e.src == node && e.srcPort.toNat == vcIdx port vc

/-- The fabric port that a tile's VC leads to: that of its edge, one port per tile in position order, or the destination VC of an
entry that a program set (R171, R299). -/
def Inst.fabricPort (x : Inst) (y : Tile) (ltid : Nat) (port : BitVec 2) (vc : BitVec 5) (e : W64) : Nat :=
  match x.edgeFrom y.node port vc, x.kernel.nodes.find? fun n => n.id == y.node with
  | some ed, some n => if ed.dst == vcDest e then ed.dstPort.toNat + (ltid - n.first) else (vcDvc e).toNat
  | _, _ => (vcDvc e).toNat

/-- The place of a tile of an instance for routes, and of a fabric operator, which is that of the first of its plots (R263). -/
def Inst.tilePlace (x : Inst) (t : Nat) : Option Nat := (x.tiles[t]?).map (·.phys)
/-- The place of a fabric operator. -/
def Inst.nodePlace (x : Inst) (id : BitVec 16) : Option Nat :=
  (x.nodes.find? fun n => n.id == id).bind fun n => (n.plots.head?).map fun p => 4096 + p

/-- The owner tag of a place: a physical tile, or a plot at 4,096 and its index. -/
def State.placeTag (s : State) (p : Nat) : Byte := if p < 4096 then (s.physAt p).tag else (s.plotAt (p - 4096)).tag

/-- The number of the route between two places of a context where it is sealed: it passes through a tile or router that carries the owner tag
of another context (R263). One that carries the tag 0x00, which is no owner's, seals nothing: the model's reading (log 17). -/
def State.sealedRoute (s : State) (tag : Byte) (src dst : Nat) : Option (BitVec 32) :=
  if (Config.routeThrough src dst).any fun p => s.placeTag p != 0 && s.placeTag p != tag then some (Config.huskRoute src dst) else none

/-- Whether the route between two places is a sealed one of the context that carries nothing further (R263). -/
def State.routeDead (s : State) (tag : Byte) (src : Nat) (dst : Option Nat) : Bool :=
  match s.ctx? tag, dst.bind (s.sealedRoute tag src) with
  | some c, some r => c.huskDead.contains r
  | _, _ => false

/-- The IV of the next beat on a sealed route, in a direction: the route number, then the count of its beats (R263). -/
def Context.huskIv (c : Context) (r : BitVec 32) (up : Bool) : BitVec 96 := (lookupKey (r, up) c.husk).getD 0 ++ r

/-- A beat sealed under the Husk key for a route: its unit encrypted, its tag and end bit authenticated (R263). -/
def Context.huskSeal (c : Context) (r : BitVec 32) (up : Bool) (u : LinkUnit) : Context :=
  { c with
    husk := putKey (r, up) ((lookupKey (r, up) c.husk).getD 0 + 1) c.husk
    huskWire := match c.keys.husk with
      | some key => putKey (r, up) (Config.gcmSeal key (c.huskIv r up) [u.tag, if u.last then 1 else 0] (vecBytes 18 u.bits)) c.huskWire
      | none => c.huskWire }

/-- A beat that crosses from one place to another: on a sealed route the Husk engine seals it where it leaves its region, and it is opened where
it re-enters, so that it reaches its consumer unchanged (R263). -/
def State.huskCross (s : State) (tag : Byte) (src : Nat) (dst : Option Nat) (u : LinkUnit) : State :=
  match dst, dst.bind (s.sealedRoute tag src) with
  | some d, some r => s.modCtx tag fun c => c.huskSeal r (decide (src < d)) u
  | _, _ => s

/-- Whether an inbound entry takes units from inside the package: those of VCs 16 to 31 of port 3 take them only from sessions (R373). -/
def localVc (port : BitVec 2) (vc : BitVec 5) : Bool := !(port == 3 && decide (16 ≤ vc.toNat))

/-- A unit sent on its route, against demand (R171, R172, R263, R373). -/
def State.routeUnit (s : State) (i t : Nat) (x : Inst) (y : Tile) (port : BitVec 2) (vc : BitVec 5) (e : W64) (fmt : BitVec 4)
    (u : LinkUnit) : Option State :=
  match vcRoute e with
  | 0 =>
    let goal := x.tilePlace (vcDest e).toNat
    if s.routeDead x.tag y.phys goal || !localVc (vcDport e) (vcDvc e) then none
    else (s.unitToTile i (vcDest e).toNat (vcDport e) (vcDvc e) fmt u).map fun s => s.huskCross x.tag y.phys goal u
  | 1 =>
    let goal := x.nodePlace (vcDest e)
    if s.routeDead x.tag y.phys goal then none
    else (s.unitToNode i (vcDest e) (x.fabricPort y t port vc e) fmt u).map fun s => s.huskCross x.tag y.phys goal u
  | 2 => s.unitToEngine (y.phys / 384 * 6 + (vcDest e).toNat) (.tile y.phys) i (vcIdx port vc)
      (if vcDport e = 0 then none else some (vcDvc e)) u
  | _ =>
    let k := (vcDest e).extractLsb' 0 5
    match s.session? x.tag k with
    | none => none
    | some se =>
      let key := ((vcDest e) >>> 5, vcDvc e)
      let n := (lookupKey key se.demand).getD 0
      if se.opened && se.send && n != 0 then
        some ((s.sendMsg x.tag k (.units (vcDvc e) ((vcDest e) >>> 5) fmt [u])).modCtx x.tag fun c =>
          c.modSession k fun se => { se with demand := putKey key (n - 1) se.demand })
      else none

/-- PEER_LOST of an engine, for a session (R374). -/
def lostFault (k : BitVec 5) (engine : BitVec 3) : PFault :=
  { code := cPeerLost, engine := engine, info := w64 k.toNat, page := none }

/-- Whether an outbound entry names a session (R373). -/
def vcNames (k : BitVec 5) (e : W64) : Bool := vcOut e && vcRoute e == 3 && (vcDest e).extractLsb' 0 5 == k

/-- An outbound VC that names an aborted session stops: its entry is no longer valid, and what it has not sent is discarded; its tile takes
PEER_LOST with engine 2, in its STR queue (R374, R383). -/
def State.loseVc (s : State) (i ti : Nat) (k : BitVec 5) (j : Nat) : State :=
  match s.tile? i ti with
  | none => s
  | some t =>
    let v := vget t.vc j Vc.empty
    let busy := !(v.ready.isEmpty && v.pend.isEmpty && v.filt.isEmpty && v.sent == 0)
    if (vcValid v.entry && vcNames k v.entry) || (busy && v.cur.any fun c => vcNames k c.1) then
      let s := s.modTile i ti fun t => { t with vc := vmod t.vc j fun v =>
        { v.drop with entry := if vcNames k v.entry then v.entry &&& ~~~(1#64) else v.entry, cur := none, granted := v.granted } }
      s.pendFault i ti none (lostFault k 2)
    else s

/-- The session on which a unit of an outbound entry would go, where it is not open or may not send: the entry was written in a block that
fired before the session was aborted, and its first unit finds it gone (R378). -/
def State.vcLost (s : State) (tag : Byte) (e : W64) : Option (BitVec 5) :=
  let k := (vcDest e).extractLsb' 0 5
  let open_ := match s.session? tag k with | some x => x.opened && x.send | none => false
  if vcNames k e && !open_ then some k else none

/-- VC_UNIT_SEND: a unit that is ready leaves against demand; else units that wait pass to the filter or become ready; else the VC
takes the next beat of its channel or stream. -/
def execVcUnitSend (port : BitVec 2) (vc : BitVec 5) (s : State) : Res :=
  s.onTile fun x t =>
    let v := t.vcAt port vc
    if t.place != .running then .next s
    else match v.ready, v.cur with
      | (fmt, u) :: rest, some c =>
        match s.routeUnit s.focus.inst s.focus.tile x t port vc c.1 fmt u with
        | none => .next (match s.vcLost x.tag c.1 with
          | some k => s.loseVc s.focus.inst s.focus.tile k (vcIdx port vc)
          | none => s)
        | some s => .next (s.modFocus fun t => t.modVc port vc fun v => { v with ready := rest })
      | _, _ =>
        if !v.pend.isEmpty then
          let e := match v.cur with | some c => c.1 | none => v.entry
          .next (s.modFocus fun t => t.modVc port vc fun v =>
            if vcFilter e = 0 then { v with ready := v.pend.map fun u => (vcFmt e, u), pend := [] }
            else { v with filt := v.filt ++ v.pend, pend := [] })
        else if v.filt.any (·.last) || (v.sent == 0 && !(vcValid v.entry && vcOut v.entry)) then .next s
        else match t.linkedChan port vc true with
          | some k => match (t.chanAt k).entries with
            | [] => .next s
            | b :: rest =>
              .next (s.modFocus fun t => (t.modChan k fun c => { c with entries := rest }).vcTake port vc b)
          | none => match v.feed with
            | [] => .next s
            | b :: rest =>
              .next (s.modFocus fun t => (t.modVc port vc fun v => { v with feed := rest }).vcTake port vc b)

/-! ### Router filters (R175) -/

/-- Whether a unit is zero: +0 and −0 are, NaNs are not. -/
def unitZero (t : BitVec 4) (u : BitVec 144) : Bool :=
  (unitVals t (unitElems t [u])).all fun v => match v with | .fin _ m _ => m == 0 | _ => false

/-- Bits as words of 32, bit 0 of each first. -/
def maskWords : Nat → List Bool → List (BitVec 144)
  | 0, _ => []
  | n + 1, l =>
    if l.isEmpty then []
    else BitVec.ofNat 144 (ofElems 1 ((l.take 32).map fun b => if b then 1 else 0)) :: maskWords n (l.drop 32)

/-- Units as one frame with a tag; an empty frame is carried as one mark without a unit. -/
def frameUnits (fmt : BitVec 4) (tag : Byte) (us : List (BitVec 144)) : List (BitVec 4 × LinkUnit) :=
  if us.isEmpty then [(fmt, ⟨0, tag, true, true⟩)]
  else us.zipIdx.map fun (u, k) => (fmt, ⟨u, tag, k + 1 == us.length, false⟩)

/-- Zero removal: the mask frame and the data frame (R175). -/
def zeroRemoval (fmt : BitVec 4) (tag : Byte) (us : List (BitVec 144)) : List (BitVec 4 × LinkUnit) :=
  let keep := us.map fun u => !unitZero fmt u
  frameUnits 0xE tag (maskWords (us.length + 1) keep) ++ frameUnits fmt tag (us.filter fun u => !unitZero fmt u)

/-- Runs of 256 units, each read as 16 × 16 row-major and emitted column-major. -/
def transposeRuns : Nat → List (BitVec 144) → List (BitVec 144)
  | 0, _ => []
  | n + 1, us =>
    if us.isEmpty then []
    else ((List.range 256).map fun k => (us.take 256).getD (k % 16 * 16 + k / 16) 0) ++ transposeRuns n (us.drop 256)

/-- ROUTER_FILTER_FRAME: the filter of the frame that crosses an outbound VC acts on the units it holds: convert on whole groups,
zero removal and transpose on a whole frame. The engine in sr.cause of a transpose's length mismatch, which the spec does not name, is the
model's choice: 2 (log 20). -/
def execRouterFilterFrame (port : BitVec 2) (vc : BitVec 5) (s : State) : Res :=
  s.onTile fun _ t =>
    let v := t.vcAt port vc
    match v.cur with
    | none => .next s
    | some (e, k) => match t.filterOf port vc e with
      | none => .next s
      | some f =>
        let whole := v.filt.any (·.last)
        let us := (v.filt.filter fun u => !u.void).map (·.bits)
        let put (out : List (BitVec 4 × LinkUnit)) (rest : List LinkUnit) (flags : BitVec 5) : State :=
          s.modFocus fun t => ({ t with xflags := t.xflags ||| flags }).modVc port vc fun v =>
            { v with ready := v.ready ++ out, filt := rest }
        match f.kind.toNat with
        | 1 =>
          let g := convGroup (vcFmt e) f.fmt
          let n := if whole then us.length else us.length / g * g
          if n = 0 && !whole then .next s
          else
            let r := convElems (vcFmt e) f.fmt 1 f.sat k (unitElems (vcFmt e) (us.take n))
            let out := elemUnits f.fmt r.1
            if whole then .next (put (frameUnits f.fmt v.packTag out) [] r.2)
            else .next (put (out.map fun u => (f.fmt, ⟨u, v.packTag, false, false⟩)) (v.filt.drop n) r.2)
        | 2 => if whole then .next (put (zeroRemoval (vcFmt e) v.packTag us) [] 0) else .next s
        | 3 =>
          if !whole then .next s
          else if us.length % 256 != 0 then
            .next ((put [] [] 0).pendFault s.focus.inst s.focus.tile none
              { code := cLength, engine := 2, info := Config.openInfo s.now, page := none })
          else .next (put (frameUnits (vcFmt e) v.packTag (transposeRuns (us.length + 1) us)) [] 0)
        | _ => .next s

/-! ### The inbound side (R172, R173) -/

/-- Room for beats in what an inbound VC feeds: its linked channel, or its stream. -/
def Tile.inRoom (t : Tile) (port : BitVec 2) (vc : BitVec 5) : Nat :=
  2 - (match t.linkedChan port vc false with
    | some k => (t.chanAt k).entries.length
    | none => (t.vcAt port vc).feed.length)

/-- The instance to which a peer's units go, for a tile and a VC (R373): of the Running instances that hold a valid inbound entry there, the
one with the lowest launch count. -/
def State.unitTarget (s : State) (tag : Byte) (tile : Nat) (vc : BitVec 5) : Option Nat :=
  let fits := (s.insts.zipIdx).filter fun (x, _) => x.tag == tag && x.st == .running && (match x.tiles[tile]? with
    | some t => vcValid (t.vcAt 3 vc).entry && !vcOut (t.vcAt 3 vc).entry
    | none => false)
  (fits.foldl (fun (b : Option (Inst × Nat)) a => match b with
    | none => some a
    | some c => if a.1.launch.toNat < c.1.launch.toNat then some a else some c) none).map (·.2)

/-- The demand of the inbound VC of a tile of the target told to the peers whose sessions may feed it, so far as they have not been told
(R52, R369, R373). -/
def State.grantPeers (s : State) (tag : Byte) (vc : BitVec 5) (tile granted : Nat) : State :=
  let key := (BitVec.ofNat 16 tile, vc)
  (List.range 32).foldl (fun s k => match s.session? tag (BitVec.ofNat 5 k) with
    | some x =>
      let n := granted - (lookupKey key x.told).getD 0
      if x.opened && x.receive && n != 0 then
        (s.sendMsg tag (BitVec.ofNat 5 k) (.grant vc key.1 n)).modCtx tag fun c => c.modSession (BitVec.ofNat 5 k) fun x =>
          { x with told := putKey key granted x.told }
      else s
    | none => s) s

/-- Units of an inbound VC for which there is room in some beats, each whole beat or end of a frame taking one, when the beat in assembly
holds some units and the frame stands at a position (R162, R172). -/
def unitRoom (per frame : Nat) : Nat → Nat → Nat → Nat
  | 0, _, _ => 0
  | beats + 1, held, pos =>
    let n := Nat.min (per - held) (frame - pos)
    n + unitRoom per frame beats 0 (if frame ≤ pos + n then 0 else pos + n)

/-- The units that what an inbound VC feeds has room for, by the frame field in force; a finished tile takes every unit and discards it. -/
def Tile.vcRoom (t : Tile) (port : BitVec 2) (vc : BitVec 5) : Nat :=
  let v := t.vcAt port vc
  let e := if v.pos = 0 then v.entry else match v.inCur with | some c => c.1 | none => v.entry
  if t.seq.finished then vcWindow v.entry
  else unitRoom (unitsPerBeat (vcFmt e)) (vcFrame e) (t.inRoom port vc) v.pack.length v.pos - v.made.length

/-- The units of a format that one unit of another gives at most (R100, R173). -/
def unitSpread (src dst : BitVec 4) : Nat :=
  if isBlock dst then 1
  else if isBlock src then (if dst == 9 then 8 else 16)
  else if src == 9 && dst != 9 then 2 else 1

/-- The formats in which units may come to an inbound VC of a tile: those of the entries of the instance's tiles that lead there, with what
their filters make of them, and of the graph's edges to it; from a session any (R171, R175, R299, R373). -/
def Inst.feedFmts (x : Inst) (ltid : Nat) (y : Tile) (port : BitVec 2) (vc : BitVec 5) : List (BitVec 4) :=
  if !localVc port vc then [5]
  else
    let leads (e : W64) : Bool := vcValid e && vcOut e && vcRoute e == 0 && (vcDest e).toNat == ltid && vcDport e == port && vcDvc e == vc
    (x.tiles.flatMap fun z => (z.vc.toList.zipIdx).flatMap fun (v, k) =>
      ([v.entry] ++ (v.cur.map (·.1)).toList).flatMap fun e =>
        if leads e then
          vcFmt e :: ((z.filterOf (BitVec.ofNat 2 (k / 32)) (BitVec.ofNat 5 (k % 32)) e).map (·.fmt)).toList
        else [])
      ++ (x.kernel.edges.filter fun d => d.dst == y.node && d.dstPort.toNat == vcIdx port vc).map (·.fmt)

/-- The demand of an inbound VC as its units arrive (R172): each may give several units of the VC's own format. Where even one would give more
than there is room for at any time, one is let in once what the VC feeds holds nothing (log 22). -/
def Inst.vcDemand (x : Inst) (ltid : Nat) (t : Tile) (port : BitVec 2) (vc : BitVec 5) : Nat :=
  let v := t.vcAt port vc
  let spread := ((x.feedFmts ltid t port vc).map fun f => unitSpread f (vcFmt v.entry)).foldl Nat.max 1
  let n := t.vcRoom port vc / spread
  let empty := t.inRoom port vc == 2 && v.pack.isEmpty && v.made.isEmpty && v.conv.isEmpty
  Nat.min (vcWindow v.entry) (if t.seq.finished then vcWindow v.entry else if n == 0 && empty then 1 else n)

/-- VC_DEMAND_GRANT: an inbound VC grants demand up to its window, for the units that what it feeds has room for. A VC that takes units from
sessions tells its peers, where its instance is their target: also what was granted before a session opened, or before the instance became
the target (R373). -/
def execVcDemandGrant (port : BitVec 2) (vc : BitVec 5) (s : State) : Res :=
  s.onTile fun x t =>
    let v := t.vcAt port vc
    let n := x.vcDemand s.focus.tile t port vc - (v.granted + v.arrived.length)
    if !vcValid v.entry || vcOut v.entry then .next s
    else
      let s := s.modFocus fun t => t.modVc port vc fun v => { v with granted := v.granted + n }
      .next (if !localVc port vc && s.unitTarget x.tag s.focus.tile vc == some s.focus.inst then
        s.grantPeers x.tag vc s.focus.tile (v.granted + n) else s)

/-- What packing units into beats has made so far: the VC, whole beats, and whether an end came early. -/
structure Packing where
  v : Vc
  beats : List ChanEntry
  early : Bool

/-- A beat closed (R162). -/
def Packing.close (p : Packing) (fmt : BitVec 4) (last : Bool) : Packing :=
  { p with
    v := { p.v with pack := [], pos := if last then 0 else p.v.pos }
    beats := p.beats ++ [⟨beatOfUnits fmt p.v.pack, p.v.packTag, last⟩] }

/-- A converted unit packed (R162, R172): the frame ends at its frame field, or at an end mark that comes early. The end of an empty frame
at position 0 is no end bit that arrives where none is expected: the model's choice, as the spec does not say (log 20). -/
def Packing.add (p : Packing) (fmt : BitVec 4) (frame : Nat) (u : LinkUnit) : Packing :=
  if u.void then
    { ({ p with v := { p.v with packTag := if p.v.pack.isEmpty then u.tag else p.v.packTag } }).close fmt true with
      early := p.early || p.v.pos != 0 }
  else
    let v := { p.v with
      packTag := if p.v.pack.isEmpty then u.tag else p.v.packTag
      pack := p.v.pack ++ [u.bits]
      pos := p.v.pos + 1 }
    let p := { p with v := v, early := p.early || (u.last && decide (v.pos < frame)) }
    if u.last || frame ≤ v.pos then p.close fmt true
    else if v.pack.length = unitsPerBeat fmt then p.close fmt false
    else p

/-- The units that an arriving unit completes after conversion (R173), the source units kept, and the flags. -/
def convertArrival (src dst : BitVec 4) (sat : Bool) (k : W32) (held : List LinkUnit) (u : LinkUnit) :
    List LinkUnit × List LinkUnit × BitVec 5 :=
  if src == dst then ([u], [], fNone)
  else
    let us := held ++ (if u.void then [] else [u])
    if us.length < convGroup src dst && !u.last then ([], us, fNone)
    else
      let r := convElems src dst 1 sat k (unitElems src (us.map (·.bits)))
      let out := elemUnits dst r.1
      if out.isEmpty then ([⟨0, u.tag, u.last, true⟩], [], r.2)
      else (out.zipIdx.map (fun (b, j) => ⟨b, u.tag, u.last && j + 1 == out.length, false⟩), [], r.2)

/-- A length mismatch on a tile (R124, R172): lenmis, and the fault where sr.fmode asks for it. -/
def State.lengthMismatch (s : State) (i t : Nat) (engine : BitVec 3) (info : W64) : State :=
  let s := s.modTile i t fun y => { y with lenmis := true }
  match s.tile? i t with
  | none => s
  | some y =>
    if y.sr.fmode.getLsbD 16 then s.pendFault i t none { code := cLength, engine := engine, info := info, page := none } else s

/-- An inbound VC packs the next unit that it has converted; a beat goes to its channel or stream, once there is room for it. -/
def State.vcPack (s : State) (t : Tile) (port : BitVec 2) (vc : BitVec 5) (cur : W64 × W32) (u : LinkUnit) : State :=
  let v := t.vcAt port vc
  let p := ({ v := { v with made := v.made.tail }, beats := [], early := false } : Packing).add (vcFmt cur.1) (vcFrame cur.1) u
  if t.inRoom port vc < p.beats.length then s
  else
    let s := s.modFocus fun t =>
      let t := t.modVc port vc fun _ => p.v
      match t.linkedChan port vc false with
      | some k => t.modChan k fun c => { c with entries := c.entries ++ p.beats }
      | none => t.modVc port vc fun v => { v with feed := v.feed ++ p.beats }
    if p.early then s.lengthMismatch s.focus.inst s.focus.tile 2 (w64 (vcIdx port vc)) else s

/-- VC_UNIT_RECEIVE: an inbound VC packs the next unit that it has converted, or converts the next that has arrived. A frame begins, and takes
the entry and the scale value current then, when its first unit is converted: the spec says only that it begins after the release (R174;
DESIGN CHOICE, log 84). The units of a finished tile are discarded (R308). -/
def execVcUnitReceive (port : BitVec 2) (vc : BitVec 5) (s : State) : Res :=
  s.onTile fun _ t =>
    let v := t.vcAt port vc
    let cur := if v.pos = 0 && v.conv.isEmpty then (v.entry, t.scaleAt port v.entry)
      else v.inCur.getD (v.entry, t.scaleAt port v.entry)
    if t.seq.finished then .next (s.modFocus fun t => t.modVc port vc fun v => { v with arrived := v.arrived.tail, made := [] })
    else if t.place != .running then .next s
    else match v.made, v.arrived with
      | u :: _, _ => .next (s.vcPack t port vc (v.inCur.getD cur) u)
      | [], [] => .next s
      | [], (src, u) :: rest =>
        let r := convertArrival src (vcFmt cur.1) (vcSat cur.1) cur.2 v.conv u
        .next (s.modFocus fun t => ({ t with xflags := t.xflags ||| r.2.2 }).modVc port vc fun v =>
          { v with arrived := rest, made := r.1, conv := r.2.1, inCur := some cur })

end Sys2Proof.Machine
end

