-- ==== Sys2Proof/Machine/Sync.lean ====
section
/-! DEFINITION. Groups, semaphores and barriers (R317-R342). -/

namespace Sys2Proof.Machine

/-! ### Groups (R317-R323) -/

/-- The member set of a group, in ascending logical tile id (R317, R320). -/
def Inst.members (x : Inst) (gid : BitVec 8) : List Nat := (lookupKey gid x.groups).getD []

/-- The all-ones result of R323. -/
def allOnes : W64 := 0xFFFFFFFFFFFFFFFF

/-- The rank of a tile in a member set. -/
def rankOf (ms : List Nat) (t : Nat) : W64 := match ms.idxOf? t with | some k => w64 k | none => allOnes

/-- GSID: the id in a group slot. -/
def execGsid (h : Head) (n : BitVec 2) (s : State) : Res :=
  fireWord (.gsid h n) s none fun f => f.done { send := some (vget f.t.gslot n.toNat allOnes) }

/-- GSIZE: the number of members. -/
def execGsize (h : Head) (gid : BitVec 8) (s : State) : Res :=
  fireWord (.gsize h gid) s none fun f => f.done { send := some (w64 (f.x.members gid).length) }

/-- GRANK: the tile's rank, or all ones. -/
def execGrank (h : Head) (gid : BitVec 8) (s : State) : Res :=
  fireWord (.grank h gid) s none fun f => f.done { send := some (rankOf (f.x.members gid) s.focus.tile) }

/-- GMEMB: the member of a rank, or all ones. -/
def execGmemb (h : Head) (gid : BitVec 8) (s : State) : Res :=
  fireWord (.gmemb h gid) s none fun f =>
    f.done { send := some (match (f.x.members gid)[f.left.toNat]? with | some m => w64 m | none => allOnes) }

/-! ### Semaphores (R324-R330) -/

/-- sr.info of SEMAPHORE_OVERFLOW (R326). -/
def semInfo (sem : BitVec 6) (add source : BitVec 16) : W64 :=
  w64 (add.toNat * 2 ^ 32 + source.toNat * 2 ^ 16 + sem.toNat)

/-- An increment at the semaphore of a tile that runs or is resident (R325, R326). -/
def State.semApply (s : State) (i t : Nat) (sem : BitVec 6) (add source : BitVec 16) : State :=
  match s.tile? i t with
  | none => s
  | some y =>
    if (vget y.sem sem.toNat 0).toNat + add.toNat > 65535 then
      s.pendFault i t none { code := cSemaphore, engine := 0, info := semInfo sem add source, page := none }
    else s.modTile i t fun y => { y with sem := vmod y.sem sem.toNat fun v => v + add }

/-- An increment of a semaphore (R324): held while the tile's state is saved. -/
def State.semAdd (s : State) (i t : Nat) (sem : BitVec 6) (add source : BitVec 16) : State :=
  match s.tile? i t with
  | none => s
  | some y =>
    if y.place == .saved then s.modTile i t fun y => { y with heldInc := y.heldInc ++ [⟨sem, add, source⟩] }
    else s.semApply i t sem add source

/-- SEMA: the count is taken at commit, once the semaphore holds it (R327). -/
def execSema (h : Head) (ls : BitVec 5) (g : BitVec 5) (sem : BitVec 6) (cnt : BitVec 16) (s : State) : Res :=
  fireWord (.sema h ls g sem cnt) s none fun f => f.done { eff := some (.sema g sem cnt, 0) }

/-- SEMP: PERMISSION for a tile beyond the instance; the increment is sent at commit (R328). -/
def execSemp (h : Head) (ls : BitVec 5) (sem : BitVec 6) (cnt : BitVec 16) (s : State) : Res :=
  fireWord (.semp h ls sem cnt) s none fun f =>
    if f.x.tiles.length ≤ f.left.toNat then f.fault cPermission (w64 (f.slot * 2 ^ 57 + fld f.left 0 32)) none
    else f.done { eff := some (.semp f.left.toNat sem cnt, 0) }

/-- SEMT: the semaphore's value as it stands. -/
def execSemt (h : Head) (sem : BitVec 6) (s : State) : Res :=
  fireWord (.semt h sem) s none fun f => f.done { send := some ((vget f.t.sem sem.toNat 0).setWidth 64) }

/-! ### Barriers (R332-R342) -/

/-- A barrier as placement leaves it (R332). -/
def Bar.start : Bar := { phase := 0, count := 0, arrived := [], expected := 0 }

/-- The barrier of a group. -/
def Inst.bar (x : Inst) (gid : BitVec 8) : Bar := (lookupKey gid x.bars).getD Bar.start

/-- The phase of a group's barrier as a tile knows it (R336). -/
def Tile.phaseOf (t : Tile) (gid : BitVec 8) : W32 := (lookupKey gid t.phases).getD 0

/-- A barrier instruction when it fires: PERMISSION for a tile that is no member (R322, R334). -/
def fireBarrier (i : Instr) (s : State) (gid : BitVec 8) (k : Fire → Res) : Res :=
  fireWord i s none fun f =>
    if (f.x.members gid).contains s.focus.tile then k f
    else f.fault cPermission (w64 (f.slot * 2 ^ 57 + gid.toNat)) none

/-- BARA: arrives at commit and receives the phase joined (R335). -/
def execBara (h : Head) (ls : BitVec 5) (g : BitVec 5) (gid : BitVec 8) (s : State) : Res :=
  fireBarrier (.bara h ls g gid) s gid fun f => f.done { eff := some (.bara gid g, 0) }

/-- BARW: waits, unsettled, until the phase known at the tile differs from its operand (R336). -/
def execBarw (h : Head) (ls : BitVec 5) (gid : BitVec 8) (s : State) : Res :=
  fireBarrier (.barw h ls gid) s gid fun f =>
    let p := f.left.extractLsb' 0 32
    if f.t.phaseOf gid = p then .next s else f.done { eff := some (.barw gid p, 0) }

/-- BAR: arrives at commit and parks until the phase moves on (R337). -/
def execBar (h : Head) (ls : BitVec 5) (gid : BitVec 8) (s : State) : Res :=
  fireBarrier (.bar h ls gid) s gid fun f => f.done { eff := some (.bar gid, 0) }

/-- BARC: ILLEGAL_ENCODING for a count above the group's size; the expected count changes at the table (R338). -/
def execBarc (h : Head) (ls : BitVec 5) (gid : BitVec 8) (s : State) : Res :=
  fireBarrier (.barc h ls gid) s gid fun f =>
    if (f.x.members gid).length < f.left.toNat then f.fault cIllegal (w64 (f.slot * 2 ^ 57 + gid.toNat)) none
    else f.done { eff := some (.barc gid f.left.toNat, 0) }

/-- The target of a barrier (R333). -/
def Inst.barTarget (x : Inst) (gid : BitVec 8) (b : Bar) : Nat :=
  if b.expected = 0 then (x.members gid).length else b.expected

/-- Advance() of R333: the next phase, nobody arrived, and a notice to every member in ascending rank. -/
def Inst.barAdvance (x : Inst) (gid : BitVec 8) (b : Bar) : Inst :=
  let p := b.phase + 1
  { x with
    bars := putKey gid { b with phase := p, count := 0, arrived := [] } x.bars
    notices := x.notices ++ (x.members gid).map fun m => (gid, m, p) }

/-- An arrival performed at the barrier table (R333). -/
def Inst.barArrive (x : Inst) (gid : BitVec 8) (t : Nat) : Inst :=
  let b := x.bar gid
  let b := { b with arrived := insertNat t b.arrived, count := b.count + 1 }
  if x.barTarget gid b ≤ b.count then x.barAdvance gid b else { x with bars := putKey gid b x.bars }

/-- A BARC performed at the barrier table (R338). -/
def Inst.barCount (x : Inst) (gid : BitVec 8) (n : Nat) : Inst :=
  let b := { x.bar gid with expected := n }
  if 1 ≤ b.count && x.barTarget gid b ≤ b.count then x.barAdvance gid b else { x with bars := putKey gid b x.bars }

/-- The tile that sent an update. -/
def BarMsg.tile : BarMsg → Nat
  | .arrive _ t => t
  | .count _ t _ => t

/-- The first update of a tile taken from those on their way, which keep each tile's program order (R333). -/
def takeBarMsg (t : Nat) : List BarMsg → Option (BarMsg × List BarMsg)
  | [] => none
  | m :: l =>
    if m.tile = t then some (m, l)
    else match takeBarMsg t l with
      | none => none
      | some (n, l) => some (n, m :: l)

/-- The answer to an arrival at the tile that sent it (R335, R337): its block's perform phase goes on, with the phase joined in the
g register of a BARA, or kept for the park of a BAR. -/
def Tile.barAnswer (t : Tile) (p : W32) : Tile :=
  match t.seq.block with
  | none => t
  | some b => match b.perform with
    | some (e :: l) =>
      let put (l : List Fired) (t : Tile) : Tile :=
        { t with seq := { t.seq with block := some { b with perform := some l } } }
      match e.eff with
      | .bara _ g => put l (t.setG g (p.setWidth 64))
      | .bar gid => put (l ++ [{ e with eff := .barAt gid p }]) t
      | _ => t
    | _ => t

/-- BARRIER_COUNT_UPDATE: the table performs the first update on its way from the tile in focus, when that is a BARC. -/
def execBarrierCountUpdate (s : State) : Res :=
  match s.inst? s.focus.inst with
  | none => .next s
  | some x => match takeBarMsg s.focus.tile x.barMsgs with
    | some (.count gid _ n, l) => .next (s.modInst s.focus.inst fun x => { x with barMsgs := l }.barCount gid n)
    | _ => .next s

/-- The first notice for a tile taken from those on their way. -/
def takeNotice (t : Nat) : List (BitVec 8 × Nat × W32) → Option ((BitVec 8 × W32) × List (BitVec 8 × Nat × W32))
  | [] => none
  | n :: l =>
    if n.2.1 = t then some ((n.1, n.2.2), l)
    else match takeNotice t l with
      | none => none
      | some (m, l) => some (m, n :: l)

/-- A notice at a tile: the phase it knows, and the end of a BAR's park that waits for it (R333, R337). -/
def Tile.notice (t : Tile) (gid : BitVec 8) (p : W32) : Tile :=
  let t := { t with phases := putKey gid p t.phases }
  let pass : Option Park → Option Park
    | some (.bar g q) => if g = gid ∧ q ≠ p then none else some (.bar g q)
    | x => x
  { t with seq := { t.seq with park := pass t.seq.park, outer := pass t.seq.outer } }

/-- BARRIER_ARRIVAL: the table performs the first update on its way from the tile in focus, when that is an arrival. The answer tells the tile
the phase that it has joined, and so overtakes the notices of that phase and of those before it (R336, R339). -/
def execBarrierArrival (s : State) : Res :=
  match s.inst? s.focus.inst with
  | none => .next s
  | some x => match takeBarMsg s.focus.tile x.barMsgs with
    | some (.arrive gid t, l) =>
      let p := (x.bar gid).phase
      .next ((s.modInst s.focus.inst fun x =>
        { x with barMsgs := l, notices := x.notices.filter fun n => !(n.1 == gid && n.2.1 == s.focus.tile) }.barArrive gid t).modFocus fun y =>
          (y.notice gid p).barAnswer p)
    | _ => .next s

/-- BARRIER_ADVANCE_NOTICE: the first notice on its way to the tile in focus arrives. -/
def execBarrierAdvanceNotice (s : State) : Res :=
  match s.inst? s.focus.inst with
  | none => .next s
  | some x => match takeNotice s.focus.tile x.notices with
    | some ((gid, p), l) =>
      .next ((s.modInst s.focus.inst fun x => { x with notices := l }).modFocus fun t => t.notice gid p)
    | none => .next s

end Sys2Proof.Machine
end

