-- ==== Sys2Proof/Machine/Streams.lean ====
section
/-! DEFINITION. The stream unit: SDEF, SGO and SSTOP, the walk of a stream, its frames and completion, and gather (R163-R170). -/

namespace Sys2Proof.Machine

/-! ### The descriptor (R166, R167) -/

/-- Affine 0, indirect 1, linked 2, gather 3. -/
def sdKind (d : Rec64) : Nat := fld d 62 2
/-- Whether the direction is memory to endpoint. -/
def sdRead (d : Rec64) : Bool := !d.getLsbD 61
/-- The fe bit. -/
def sdFe (d : Rec64) : Bool := d.getLsbD 60
/-- The format. -/
def sdFmt (d : Rec64) : BitVec 4 := d.extractLsb' 56 4
/-- Whether the endpoint is a port VC. -/
def sdPortEnd (d : Rec64) : Bool := d.getLsbD 55
/-- The channel of the endpoint. -/
def sdChan (d : Rec64) : Nat := fld d 48 4
/-- The port of the endpoint. -/
def sdPort (d : Rec64) : BitVec 2 := d.extractLsb' 53 2
/-- The VC of the endpoint. -/
def sdVc (d : Rec64) : BitVec 5 := d.extractLsb' 48 5
/-- The push engine, 0 for none. -/
def sdPush (d : Rec64) : Nat := fld d 45 3
/-- The pop engine, 0 for none. -/
def sdPop (d : Rec64) : Nat := fld d 42 3
/-- Units per frame. -/
def sdFrame (d : Rec64) : Nat := fld d 18 24
/-- The base address. -/
def sdBase (d : Rec64) : W64 := d.extractLsb' 64 64
/-- count0, count1 and count2. -/
def sdCount (d : Rec64) (k : Nat) : Nat := fld d (128 + 20 * k) 20
/-- The byte strides, signed. -/
def sdStride (d : Rec64) : Nat → W64
  | 0 => (d.extractLsb' 192 32).signExtend 64
  | 1 => (d.extractLsb' 224 32).signExtend 64
  | _ => (d.extractLsb' 256 48).signExtend 64
/-- The aux address. -/
def sdAux (d : Rec64) : W64 := d.extractLsb' 320 64
/-- The kind word. -/
def sdWord (d : Rec64) : W64 := d.extractLsb' 384 64
/-- The tag. -/
def sdTag (d : Rec64) : Byte := d.extractLsb' 448 8

/-- The index formats of R167 and R170. -/
def indexFmt (t : BitVec 4) : Bool := t == 0xB || t == 0xC || t == 0xE || t == 0xF

/-- The engines a descriptor may push or pop. -/
def partnerOk (e : Nat) : Bool := e != 2 && e != 7

/-- The reserved bits and field ranges of a descriptor (R166, R167). -/
def sdOk (d : Rec64) : Bool :=
  fld d 456 56 == 0 && fld d 304 16 == 0 && fld d 188 4 == 0 && fld d 16 1 == 0 && fld d 0 10 == 0
    && partnerOk (sdPush d) && partnerOk (sdPop d) && sdFrame d != 0 && (sdRead d || sdTag d == 0)
    && (sdPortEnd d || fld d 52 3 == 0)
    && (match sdKind d with
      | 0 => sdWord d == 0 && sdAux d == 0
      | 1 => indexFmt ((sdWord d).extractLsb' 60 4) && fld (sdWord d) 0 60 == 0
      | 2 => sdAux d == 0 && fld (sdWord d) 16 3 == 0 && fld (sdWord d) 0 16 != 0
      | _ => sdWord d == 0 && sdRead d && fld d 192 112 == 0 && fld d 128 60 == 0)
    && (sdKind d == 3 || ((List.range 3).all fun k => sdCount d k != 0))

/-- The check of R165 when SGO takes a stream to Running: the code of its fault, where it has one. -/
def Tile.sdFault (t : Tile) (d : Rec64) : Option Byte :=
  if !sdOk d then some cIllegal
  else if sdPortEnd d then
    let e := (t.vcAt (sdPort d) (sdVc d)).entry
    if vcValid e && vcOut e == sdRead d && vcFrame e == sdFrame d then none else some cChannel
  else none

/-! ### Instructions (R184) -/

/-- SDEF: its address is checked when it fires; the descriptor is read at release. -/
def execSdef (h : Head) (ls : BitVec 5) (st : BitVec 4) (off : BitVec 24) (s : State) : Res :=
  fireWord (.sdef h ls st off) s none fun f =>
    let va := f.addr off
    f.checked (.plain .read 64) va false fun _ => f.done { eff := some (.sdef st va, va) }

/-- SGO: queues a start at commit. -/
def execSgo (h : Head) (ls : BitVec 5) (st : BitVec 4) (s : State) : Res :=
  fireWord (.sgo h ls st) s none fun f => f.done { eff := some (.sgo st, 0) }

/-- SSTOP: stops the stream at commit (R164). -/
def execSstop (h : Head) (ls : BitVec 5) (st : BitVec 4) (s : State) : Res :=
  fireWord (.sstop h ls st) s none fun f => f.done { eff := some (.sstop st, 0) }

/-! ### Streams of a tile -/

/-- A walk at its first unit. -/
def Walk.start (d : Rec64) : Walk :=
  { n := 0, node := sdBase d, num := 0, j := 0, ahead := [], gather := none, row := [], popped := false, beat := [], beats := 0, sawEnd := false, wrote := [],
    skip := false, frameDone := false, tokenDue := false, walkDone := false }

/-- A stream at placement (R163). -/
def Stream.start : Stream := { st := .empty, queue := [], desc := 0, walk := Walk.start 0, stopping := false }

/-- A stream of a tile. -/
def Tile.streamAt (t : Tile) (st : BitVec 4) : Stream := vget t.stream st.toNat Stream.start

/-- Changing a stream of a tile. -/
def Tile.modStream (t : Tile) (st : BitVec 4) (f : Stream → Stream) : Tile := { t with stream := vmod t.stream st.toNat f }

/-- Changing a stream of the tile in focus. -/
def State.modFocusStream (s : State) (st : BitVec 4) (f : Stream → Stream) : State := s.modFocus fun t => t.modStream st f

/-- Changing where a stream of the tile in focus stands. -/
def State.modWalk (s : State) (st : BitVec 4) (f : Walk → Walk) : State :=
  s.modFocusStream st fun x => { x with walk := f x.walk }

/-- A fault of a stream (R165): it becomes Faulted, and the fault is pending in the stream's own place (R383). -/
def State.streamFault (s : State) (st : BitVec 4) (f : PFault) : State :=
  (s.modFocusStream st fun x => { x with st := .faulted, walk := { x.walk with beat := [] } }).pendFault
    s.focus.inst s.focus.tile (some st) f

/-- A fault of a stream without an access (R379): a length mismatch names the stream; ILLEGAL_ENCODING is laid out as R137; for the
others no sr.info is given (log 20). -/
def State.streamCode (s : State) (st : BitVec 4) (code : Byte) : State :=
  let info := if code == cLength then w64 st.toNat else if code == cIllegal then s.openVaInfo else Config.openInfo s.now
  s.streamFault st { code := code, engine := 2, info := info, page := none }

/-- Whether an SBAR of the block in execution holds a stream (R161): also one that was not running when the SBAR fired and starts before
the block ends (DESIGN CHOICE, log 75). -/
def Tile.streamHeld (t : Tile) (st : BitVec 4) : Bool :=
  match t.seq.block with | some b => b.sbar.getLsbD st.toNat | none => false

/-- STREAM_COMMAND_TAKE: a stream that is not Running takes its next command (R163, R164); one that is Faulted waits until its fault is
taken (R383). -/
def execStreamCommandTake (st : BitVec 4) (s : State) : Res :=
  s.onTile fun k t =>
    let x := t.streamAt st
    let waits := t.place != .running || x.st == .running || x.walk.skip
      || (x.st == .faulted && t.seq.pend.streams.any fun p => p.1 == st)
    match x.queue with
    | [] => .next s
    | c :: rest =>
      if waits then .next s
      else
        let s := s.modFocusStream st fun x => { x with queue := rest }
        match c with
        | .sdef d => .next (s.modFocusStream st fun x => { x with st := .defined, desc := d })
        | .bad f => .next (s.streamFault st f)
        | .sgo =>
          if x.st != .defined then .next (s.streamCode st cIllegal)
          else match t.sdFault x.desc with
            | some code => .next (s.streamCode st code)
            | none =>
              let s := s.tookAll s.focus.inst s.focus.tile (whoStream st) k.tag
              .next (s.modFocusStream st fun x => { x with st := .running, walk := Walk.start x.desc })

/-! ### Token FIFOs (R46, R297) -/

/-- The index of the FIFO from engine e to engine x (R297). -/
def fifoIdx (e x : Nat) : Nat := 5 * (e - 1) + (if x < e then x - 1 else x - 2)

/-- The count of a FIFO. -/
def Tile.fifoAt (t : Tile) (e x : Nat) : Nat := (vget t.fifo (fifoIdx e x) 0).toNat

/-- A token pushed. -/
def Tile.fifoPush (t : Tile) (e x : Nat) : Tile := { t with fifo := vmod t.fifo (fifoIdx e x) (· + 1) }

/-- A token popped. -/
def Tile.fifoPop (t : Tile) (e x : Nat) : Tile := { t with fifo := vmod t.fifo (fifoIdx e x) (· - 1) }

/-! ### The walk (R168, R169) -/

/-- Units in all that a walk delivers; none for linked, which ends at a null pointer. -/
def Stream.total (x : Stream) : Option Nat :=
  match sdKind x.desc with
  | 2 => none
  | 3 => x.walk.gather.map fun g => fld g 224 32 * (fld g 128 32 / unitBytes (sdFmt x.desc))
  | _ => some (sdCount x.desc 0 * sdCount x.desc 1 * sdCount x.desc 2)

/-- The units of a row of a gather (R170). -/
def Stream.rowUnits (x : Stream) : Option Nat :=
  if sdKind x.desc = 3 then x.walk.gather.map fun g => fld g 128 32 / unitBytes (sdFmt x.desc) else none

/-- The size of the frame in hand: the frame field, or the remainder for the last frame. -/
def Stream.frameSize (x : Stream) : Nat :=
  let f := sdFrame x.desc
  match x.total with
  | none => f
  | some n => Nat.min f (n - x.walk.n / f * f)

/-- Whether the next unit begins a frame. -/
def Stream.atFrame (x : Stream) : Bool := x.walk.n % sdFrame x.desc == 0

/-- A stream after n + 1 units: the frame ends at its size, the walk at its last unit. -/
def Stream.counted (x : Stream) : Walk :=
  let w := x.walk
  let n := w.n + 1
  { w with
    n := n
    j := w.j + 1
    ahead := if sdKind x.desc = 1 || x.rowUnits.any (fun k => n % k == 0) then w.ahead.tail else w.ahead
    frameDone := n % sdFrame x.desc == 0 || x.total == some n
    walkDone := x.total == some n }

/-- What a micro-step of a walk gives: an address, nothing this time with a new state, or a fault. -/
inductive Addr where
  | at (va : W64)
  | later (s : State)
  | fault (f : PFault)

/-- Whether a read stream with fe = 1 must wait for a granule that it has not yet found full (R166). -/
def State.feWaits (s : State) (k : Stream) (ps : List (Loc × Size)) : Bool :=
  sdFe k.desc && sdRead k.desc
    && (granulesIn ps).any fun g => !k.walk.wrote.contains g && !(s.fullAt s.focus.inst (.slice g.1 (64 * g.2)))

/-- The granules that a walk has written, or found full, with those of an access. -/
def Walk.met (w : Walk) (ps : List (Loc × Size)) : List (Nat × Nat) :=
  w.wrote ++ (granulesIn ps).filter fun g => !w.wrote.contains g

/-- The fault of a gather engine's access: the engine in its page fault record is 0 (R355). -/
def gatherFault (f : PFault) : PFault := { f with page := f.page.map fun p => p &&& ~~~(0xE000 : BitVec 192) }

/-- Index(n) of an index array (R168, R170): an engine's read of 2 or 4 bytes, with the state in which it is read. -/
def State.readIndex (s : State) (x : Inst) (st : BitVec 4) (k : Stream) (fmt : BitVec 4) (va : W64) (paged : Bool) :
    Except Addr (W64 × State) :=
  let n := unitBytes fmt
  if paged && va.getLsbD 54 then .error (.fault (accPFault 2 cPermission none false va))
  else match s.checkRange s.focus.inst x.tag 2 (if paged then .gather else .read) (sdFe k.desc) va n n with
    | .wait => .error (.later s)
    | .bad f => .error (.fault (if paged then gatherFault f else f))
    | .ok ps =>
      if s.feWaits k ps then .error (.later s)
      else
        match s.readPieces s.focus.inst s.focus.tile (whoStream st) x.tag ps with
        | (.wait, s) => .error (.later s)
        | (.failed c p, _) => .error (.fault (readPFault 2 c p va))
        | (.bytes bs, s) =>
          let v := wordOf bs
          let s := (s.tookAll s.focus.inst s.focus.tile (whoStream st) x.tag).modWalk st fun w =>
            if sdFe k.desc && sdRead k.desc then { w with wrote := w.met ps } else w
          .ok (if fmt == 0xB then (v.extractLsb' 0 32).signExtend 64
            else if fmt == 0xC then (v.extractLsb' 0 16).signExtend 64 else v, s)

/-- The index that an indirect stream reads next, up to 64 ahead of its units (R168): the state with it; none when it reads none now, or
when one that is not needed yet cannot be read. -/
def State.indexAhead (s : State) (x : Inst) (st : BitVec 4) (k : Stream) : Option Addr :=
  let d := k.desc
  let n := k.walk.ahead.length
  let f := (sdWord d).extractLsb' 60 4
  if sdKind d != 1 || n == 64 || (k.total.any fun m => decide (m ≤ k.walk.n + n)) || (n != 0 && !Config.readAhead s.now) then none
  else match s.readIndex x st k f (sdAux d + w64 ((k.walk.n + n) * unitBytes f)) false with
    | .ok (v, s) => some (.later (s.modWalk st fun w => { w with ahead := w.ahead ++ [v] }))
    | .error a => if n = 0 then some a else none

/-- The address of the next unit of an affine, indirect or linked walk (R168). -/
def State.unitAddr (s : State) (x : Inst) (st : BitVec 4) (k : Stream) : Addr :=
  let d := k.desc
  let w := k.walk
  if sdKind d = 2 then .at (w.node + w64 (w.j * unitBytes (sdFmt d)))
  else
    let i0 := w.n % sdCount d 0
    let i1 := w.n / sdCount d 0 % sdCount d 1
    let i2 := w.n / sdCount d 0 / sdCount d 1
    let rest := sdBase d + w64 i2 * sdStride d 2 + w64 i1 * sdStride d 1
    if sdKind d = 0 then .at (rest + w64 i0 * sdStride d 0)
    else match s.indexAhead x st k with
      | some a => a
      | none => .at (rest + w.ahead.headD 0 * sdStride d 0)

/-- A beat delivered to the endpoint of a read stream: none while there is no room; a wrong binding faults, with an sr.info for which the spec
gives no content (log 20). -/
def State.deliverBeat (s : State) (t : Tile) (st : BitVec 4) (d : Rec64) (b : ChanEntry) : Option State :=
  if sdPortEnd d then
    if 2 ≤ (t.vcAt (sdPort d) (sdVc d)).feed.length then none
    else some (s.modFocus fun t => t.modVc (sdPort d) (sdVc d) fun v => { v with feed := v.feed ++ [b] })
  else
    let c := t.chanAt (sdChan d)
    if c.producer != 2 then some (s.streamFault st { code := cChannel, engine := 2, info := Config.openInfo s.now, page := none })
    else if 2 ≤ c.entries.length then none
    else some (s.modFocus fun t => t.modChan (sdChan d) fun c => { c with entries := c.entries ++ [b] })

/-- The beat in hand of a read stream. -/
def Stream.beatOut (x : Stream) (last : Bool) : ChanEntry :=
  ⟨beatOfUnits (sdFmt x.desc) x.walk.beat, sdTag x.desc, last⟩

/-- The next beat of a write stream's endpoint, and the state without it; a wrong binding faults. -/
def State.takeBeat (s : State) (t : Tile) (d : Rec64) : Except State (Option (ChanEntry × State)) :=
  if sdPortEnd d then
    match (t.vcAt (sdPort d) (sdVc d)).feed with
    | [] => .ok none
    | b :: l => .ok (some (b, s.modFocus fun t => t.modVc (sdPort d) (sdVc d) fun v => { v with feed := l }))
  else
    let c := t.chanAt (sdChan d)
    if c.consumer != 2 then .error s
    else match c.entries with
      | [] => .ok none
      | b :: l => .ok (some (b, s.modFocus fun t => t.modChan (sdChan d) fun c => { c with entries := l }))

/-- The length mismatch of a write stream (R169): Faulted, and beats up to and including the next end are discarded. -/
def State.streamLength (s : State) (st : BitVec 4) (skip : Bool) : State :=
  (s.streamCode st cLength).modWalk st fun w => { w with skip := skip, beat := [] }

/-- A write stream takes the next beat of its frame (R169): the end bit belongs on exactly the last beat of the frame. The frame of a
linked walk may end at any beat, which its null pointer tells (log 21). -/
def State.writeTake (s : State) (t : Tile) (st : BitVec 4) (x : Stream) : State :=
  if sdKind x.desc == 2 && x.walk.sawEnd && !x.atFrame then s.streamLength st false
  else match s.takeBeat t x.desc with
    | .error s => s.streamFault st { code := cChannel, engine := 2, info := Config.openInfo s.now, page := none }
    | .ok none => s
    | .ok (some (b, s)) =>
      let per := unitsPerBeat (sdFmt x.desc)
      let f := x.frameSize
      let k := (if x.atFrame then 0 else x.walk.beats) + 1
      let final := k == (f + per - 1) / per
      if b.last != final && !(sdKind x.desc == 2 && b.last) then s.streamLength st (!b.last)
      else s.modWalk st fun w =>
        { w with beats := k, sawEnd := b.last, beat := beatUnitBits (sdFmt x.desc) (Nat.min per (f - w.n % sdFrame x.desc)) b.data }

/-- One unit of a read stream at an address. -/
def State.readUnit (s : State) (x : Inst) (st : BitVec 4) (k : Stream) (va : W64) : State :=
  let d := k.desc
  match s.checkRange s.focus.inst x.tag 2 .read (sdFe d) va (unitBytes (sdFmt d)) (unitAlign (sdFmt d)) with
  | .wait => s
  | .bad f => s.streamFault st f
  | .ok ps =>
    if s.feWaits k ps then s
    else match s.readPieces s.focus.inst s.focus.tile (whoStream st) x.tag ps with
      | (.wait, s) => s
      | (.failed c p, s) => s.streamFault st (readPFault 2 c p va)
      | (.bytes bs, s) =>
        let s := s.tookAll s.focus.inst s.focus.tile (whoStream st) x.tag
        s.modFocusStream st fun k =>
          let w := k.counted
          { k with walk := { w with
              beat := w.beat ++ [BitVec.ofNat 144 (ofBytes bs)]
              wrote := if sdFe d then w.met ps else w.wrote } }

/-- One unit of a write stream at an address. -/
def State.writeUnit (s : State) (x : Inst) (st : BitVec 4) (k : Stream) (va : W64) (u : BitVec 144) (rest : List (BitVec 144)) :
    State :=
  let d := k.desc
  let n := unitBytes (sdFmt d)
  match s.checkRange s.focus.inst x.tag 2 .write (sdFe d) va n (unitAlign (sdFmt d)) with
  | .wait => s
  | .bad f => s.streamFault st f
  | .ok ps =>
    if s.writeHeld s.focus.inst ps || s.overtakes x.tag s.focus.inst s.focus.tile (whoStream st) ps then s
    else
      let s := s.tookAll s.focus.inst s.focus.tile (whoStream st) x.tag
      let s := s.writePieces s.focus.inst s.focus.tile (whoStream st) x.tag ps (toBytes n u.toNat)
      s.modFocusStream st fun k =>
        let w := k.counted
        { k with walk := { w with
            beat := rest
            wrote := w.met ps } }

/-- The pointer of a linked walk after its node's last unit (R168). -/
def State.linkStep (s : State) (x : Inst) (st : BitVec 4) (k : Stream) : State :=
  let d := k.desc
  let w := sdWord d
  let va := k.walk.node + (w.extractLsb' 16 16).signExtend 64
  match s.checkRange s.focus.inst x.tag 2 .read (sdFe d) va 8 8 with
  | .wait => s
  | .bad f => s.streamFault st f
  | .ok ps => if s.feWaits k ps || s.overtakes x.tag s.focus.inst s.focus.tile (whoStream st) ps then s
    else match s.readPieces s.focus.inst s.focus.tile (whoStream st) x.tag ps with
    | (.wait, s) => s
    | (.failed c p, s) => s.streamFault st (readPFault 2 c p va)
    | (.bytes bs, s) =>
      let s := (s.tookAll s.focus.inst s.focus.tile (whoStream st) x.tag).modWalk st fun w =>
        if sdFe d && sdRead d then { w with wrote := w.met ps } else w
      let p := wordOf bs
      let num := k.walk.num + 1
      if p = 0 ∨ num = sdCount d 0 * sdCount d 1 * sdCount d 2 then
        let partly := !k.atFrame
        if partly && !sdRead d && !k.walk.sawEnd then s.streamLength st true
        else s.modWalk st fun w => { w with walkDone := true, frameDone := partly }
      else s.modWalk st fun v => { v with node := p + (w.extractLsb' 32 32).signExtend 64, num := num, j := 0 }

/-- The pop before a frame (R169): none while the FIFO is empty. -/
def State.framePop (s : State) (t : Tile) (st : BitVec 4) (d : Rec64) : State :=
  let e := sdPop d
  if e = 0 then s.modWalk st fun w => { w with popped := true }
  else if t.fifoAt e 2 = 0 then s
  else (s.modFocus fun t => t.fifoPop e 2).modWalk st fun w => { w with popped := true }

/-- What a stream does before its next unit: the beats it discards, the pop of a frame, a full beat, or a beat to take; none when the
next unit's access is due. -/
def State.beforeUnit (s : State) (t : Tile) (st : BitVec 4) (x : Stream) : Option State :=
  let per := unitsPerBeat (sdFmt x.desc)
  if !x.walk.popped then some (s.framePop t st x.desc)
  else if sdRead x.desc && x.walk.beat.length == per then
    some (match s.deliverBeat t st x.desc (x.beatOut false) with
      | none => s
      | some s => s.modWalk st fun w => { w with beat := [] })
  else if !sdRead x.desc && x.walk.beat.isEmpty then some (s.writeTake t st x)
  else none

/-- Whether a stream may issue an access: Running, its tile running, not stopped, not held by an SBAR, nothing of a frame's end due. -/
def Tile.streamReady (t : Tile) (st : BitVec 4) : Bool :=
  let x := t.streamAt st
  t.place == .running && x.st == .running && !x.stopping && !t.streamHeld st && !x.walk.frameDone && !x.walk.tokenDue
    && !x.walk.walkDone

/-- The beats that a stream discards up to and including the next end (R169). -/
def State.skipBeat (s : State) (t : Tile) (st : BitVec 4) (x : Stream) : State :=
  match s.takeBeat t x.desc with
  | .ok (some (b, s)) => s.modWalk st fun w => { w with skip := !b.last }
  | _ => s

/-- STREAM_UNIT: a Running affine, indirect or linked stream does what comes next in its walk (R168). -/
def execStreamUnit (st : BitVec 4) (s : State) : Res :=
  s.onTile fun x t =>
    let k := t.streamAt st
    if k.walk.skip then .next (if t.place == .running then s.skipBeat t st k else s)
    else if !t.streamReady st || sdKind k.desc == 3 then .next s
    else if sdKind k.desc == 2 && k.walk.j == fld (sdWord k.desc) 0 16 then .next (s.linkStep x st k)
    else match s.beforeUnit t st k with
      | some s => .next s
      | none => match s.unitAddr x st k with
        | .later s => .next s
        | .fault f => .next (s.streamFault st f)
        | .at va =>
          if sdRead k.desc then .next (s.readUnit x st k va)
          else match k.walk.beat with
            | [] => .next s
            | u :: rest => .next (s.writeUnit x st k va u rest)

/-- STREAM_FRAME_END: once the frame's accesses are performed, the last beat is pushed with its end bit, or the granules are marked
full; then the token is pushed (R169). -/
def execStreamFrameEnd (st : BitVec 4) (s : State) : Res :=
  s.onTile fun x t =>
    let k := t.streamAt st
    let d := k.desc
    if t.place != .running || k.st != .running || k.stopping then .next s
    else if k.walk.frameDone then
      if s.storesOut x.tag s.focus.inst s.focus.tile (whoStream st) || (!sdRead d && sdFe d && !k.walk.wrote.all (s.markFree s.focus.inst)) then .next s
      else
        let s? := if sdRead d then s.deliverBeat t st d (k.beatOut true)
          else some (if sdFe d then s.markFull s.focus.inst k.walk.wrote else s)
        match s? with
        | none => .next s
        | some s => .next (s.modWalk st fun w =>
          { w with
            beat := []
            beats := 0
            sawEnd := false
            wrote := if sdRead d then w.wrote else []
            frameDone := false
            tokenDue := sdPush d != 0
            popped := false })
    else if k.walk.tokenDue then
      if t.fifoAt 2 (sdPush d) = 15 then .next s
      else .next ((s.modFocus fun t => t.fifoPush 2 (sdPush d)).modWalk st fun w => { w with tokenDue := false })
    else .next s

/-- STREAM_COMPLETION: after the last frame the semaphore, and only then Defined (R169). -/
def execStreamCompletion (st : BitVec 4) (s : State) : Res :=
  s.onTile fun _ t =>
    let k := t.streamAt st
    if t.place != .running || k.st != .running || k.stopping || !k.walk.walkDone || k.walk.frameDone || k.walk.tokenDue then .next s
    else
      let i := s.focus.inst
      let n := s.focus.tile
      let s := if k.desc.getLsbD 17 then s.semAdd i n (k.desc.extractLsb' 10 6) 1 (BitVec.ofNat 16 n) else s
      .next (s.modFocusStream st fun x => { x with st := .defined })

/-- The first access of an asker that a peer has refused, or that was lost with its session: its code, session and address. -/
def State.askFailed (s : State) (tag : Byte) (i t who : Nat) : Option (Byte × BitVec 5 × W64) :=
  match s.ctx? tag with
  | none => none
  | some c => (c.sessions.toList.zipIdx).findSome? fun (y, k) => y.got.findSome? fun q =>
    if q.1.inst == i && q.1.tile == t && q.1.who == who then
      (match q.2 with | .failed code => some (code, BitVec.ofNat 5 k, q.1.va) | .data _ => none)
    else none

/-- STREAM_STOP_DONE: a stopped stream returns to Defined once every access that it has issued is performed (R164), reads of a peer among
them; one that a peer has refused is the stream's fault (R163, R165). -/
def execStreamStopDone (st : BitVec 4) (s : State) : Res :=
  s.onTile fun x t =>
    let k := t.streamAt st
    if !k.stopping || s.accessesOut x.tag s.focus.inst s.focus.tile (whoStream st) then .next s
    else
      let u := (s.tookAll s.focus.inst s.focus.tile (whoStream st) x.tag).modFocusStream st fun x =>
        { x with st := .defined, stopping := false, walk := Walk.start x.desc }
      .next (match s.askFailed x.tag s.focus.inst s.focus.tile (whoStream st) with
        | some (code, i, va) => u.streamFault st (readPFault 2 code (some (i, va)) va)
        | none => u)

/-! ### Gather (R170) -/

/-- The reserved bits and field ranges of a gather parameter block, for a unit of n bytes. -/
def gatherOk (g : Rec64) (n : Nat) : Bool :=
  fld g 256 256 == 0 && fld g 192 28 == 0 && fld g 224 32 != 0 && indexFmt (g.extractLsb' 220 4)
    && fld g 128 32 != 0 && decide (fld g 128 32 ≤ 1048576) && fld g 128 32 % n == 0

/-- The gather parameter block read at the aux address. -/
def State.gatherBlock (s : State) (x : Inst) (st : BitVec 4) (k : Stream) : State :=
  let va := sdAux k.desc
  match s.checkRange s.focus.inst x.tag 2 .read (sdFe k.desc) va 64 64 with
  | .wait => s
  | .bad f => s.streamFault st f
  | .ok ps => if s.feWaits k ps then s else match s.readPieces s.focus.inst s.focus.tile (whoStream st) x.tag ps with
    | (.wait, s) => s
    | (.failed c p, s) => s.streamFault st (readPFault 2 c p va)
    | (.bytes bs, s) =>
      let s := s.tookAll s.focus.inst s.focus.tile (whoStream st) x.tag
      let g : Rec64 := BitVec.ofNat 512 (ofBytes bs)
      if gatherOk g (unitBytes (sdFmt k.desc)) then s.modWalk st fun w => { w with gather := some g }
      else s.streamCode st cIllegal

/-- The address of the unit that the gather engines fetch next of the row in hand (R170): none while no index is issued, and once the row is
fetched; where each frame pops a token, no unit of a frame is fetched before the frame is reached (R169). -/
def Stream.fetchVa (k : Stream) : Option W64 :=
  match k.walk.gather, k.walk.ahead with
  | some g, v :: _ =>
    let n := unitBytes (sdFmt k.desc)
    let per := fld g 128 32 / n
    let at? := k.walk.n % per + k.walk.row.length
    let later := sdPop k.desc != 0 && decide (k.frameSize ≤ k.walk.n % sdFrame k.desc + k.walk.row.length)
    if per ≤ at? || later then none
    else some (g.extractLsb' 64 64 + v * (g.extractLsb' 160 32).setWidth 64 + w64 (at? * n))
  | _, _ => none

/-- Whether the gather engines may fetch for a stream: the rows of indices that are issued go on while its tile stops (R392). -/
def Tile.gatherGoes (t : Tile) (st : BitVec 4) : Bool :=
  let x := t.streamAt st
  t.place != .saved && x.st == .running && sdKind x.desc == 3 && !x.stopping && !t.streamHeld st

/-- The checks on a unit of a gather's row. -/
def State.checkRow (s : State) (i : Nat) (x : Inst) (k : Stream) (va : W64) : EAcc :=
  match s.checkRange i x.tag 2 .gather (sdFe k.desc) va (unitBytes (sdFmt k.desc)) (unitAlign (sdFmt k.desc)) with
  | .ok ps =>
    if ps.any fun p => match p.1 with | .slice _ _ => true | _ => false then .bad (accPFault 2 cPermission none false va) else .ok ps
  | .bad f => .bad (gatherFault f)
  | .wait => .wait

/-- Whether a row of an issued index is still to be fetched, by accesses that need not wait (R392). -/
def State.rowDue (s : State) (i : Nat) (x : Inst) (t : Tile) : Bool :=
  (List.range 16).any fun k =>
    let st := BitVec.ofNat 4 k
    t.gatherGoes st && (t.streamAt st).fetchVa.any fun va => match s.checkRow i x (t.streamAt st) va with
      | .ok ps => !(ps.any fun p => s.reservedElsewhere i noTile p.1 p.2.bytes)
      | .bad _ => true
      | .wait => false

/-- A unit of a row fetched; a fault's sr.info carries the number of the index instead of the VA (R170). -/
def State.fetchUnit (s : State) (x : Inst) (st : BitVec 4) (k : Stream) (va : W64) : State :=
  let fault (s : State) (f : PFault) : State := s.streamFault st { f with info := w64 k.walk.num }
  match s.checkRow s.focus.inst x k va with
  | .wait => s
  | .bad f => fault s f
  | .ok ps => match s.readPieces s.focus.inst s.focus.tile (whoStream st) x.tag ps with
    | (.wait, s) => s
    | (.failed c p, s) => fault s (readPFault 2 c p va)
    | (.bytes bs, s) => s.modWalk st fun w => { w with row := w.row ++ [BitVec.ofNat 144 (ofBytes bs)] }

/-- The index of the row that a gather comes to, read by its engines. -/
def State.gatherIndex (s : State) (x : Inst) (st : BitVec 4) (k : Stream) (g : Rec64) : State :=
  let row := k.walk.n / (fld g 128 32 / unitBytes (sdFmt k.desc))
  let f := g.extractLsb' 220 4
  match s.readIndex x st { k with walk := { k.walk with num := row } } f (g.extractLsb' 0 64 + w64 (row * unitBytes f)) true with
  | .error (.later s) => s
  | .error (.fault p) => s.streamFault st { p with info := w64 row }
  | .error (.at _) => s
  | .ok (v, s) => s.modWalk st fun w => { w with num := row, ahead := [v] }

/-- GATHER_ROW: the gather engines read index k once, fetch its row, and deliver it unit by unit, in ascending k (R170). -/
def execGatherRow (st : BitVec 4) (s : State) : Res :=
  s.onTile fun x t =>
    let k := t.streamAt st
    match k.fetchVa with
    | some va => .next (if t.gatherGoes st then s.fetchUnit x st k va else s)
    | none =>
      if !t.streamReady st || sdKind k.desc != 3 then .next s
      else match k.walk.gather with
        | none => .next (s.gatherBlock x st k)
        | some g => match s.beforeUnit t st k with
          | some s => .next s
          | none => match k.walk.row with
            | u :: us => .next (s.modFocusStream st fun k =>
                let w := k.counted
                { k with walk := { w with beat := w.beat ++ [u], row := us } })
            | [] => .next (s.gatherIndex x st k g)

end Sys2Proof.Machine
end

