-- ==== Sys2Proof/Machine/Copies.lean ====
section
/-! DEFINITION. Copy engines and their packets, HALO, and the sequencer's own accesses to channels and token FIFOs (R176-R185). -/

namespace Sys2Proof.Machine

/-! ### Instructions (R183-R185) -/

/-- CPY: its address is checked when it fires; the packet is read at release. -/
def execCpy (h : Head) (ls : BitVec 5) (off : BitVec 24) (s : State) : Res :=
  fireWord (.cpy h ls off) s none fun f =>
    let va := f.addr off
    f.checked (.plain .read 64) va false fun _ => f.done { eff := some (.cpy va, va) }

/-- HALO: its address is checked when it fires; the descriptor is read at release. -/
def execHalo (h : Head) (ls : BitVec 5) (off : BitVec 24) (s : State) : Res :=
  fireWord (.halo h ls off) s none fun f =>
    let va := f.addr off
    f.checked (.plain .read 64) va false fun _ => f.done { eff := some (.halo va, va) }

/-- sr.info of a sequencer's CHANNEL_PROTOCOL (R379). -/
def chanInfo (slot : Nat) (ch : BitVec 4) : W64 := w64 (slot * 2 ^ 57 + ch.toNat)

/-- CHR: the k-th of a channel in a block reads its k-th entry, once it is there (R35, R185). -/
def execChr (h : Head) (ls : BitVec 5) (ch : BitVec 4) (word : BitVec 7) (s : State) : Res :=
  fireWord (.chr h ls ch word) s none fun f =>
    let c := f.t.chanAt ch.toNat
    if c.consumer != 1 then f.fault cChannel (chanInfo f.slot ch) none
    else
      let k := f.b.effs.countP fun e => e.eff == .chr ch
      match c.entries[k]? with
      | none => .next s
      | some e => f.done { eff := some (.chr ch, 0), send := some (e.data.extractLsb' (64 * word.toNat) 64) }

/-- CHW: one beat at commit, its word 0 the left value (R185). -/
def execChw (h : Head) (ls : BitVec 5) (ch : BitVec 4) (tag : BitVec 8) (last : Bool) (s : State) : Res :=
  fireWord (.chw h ls ch tag last) s none fun f =>
    if (f.t.chanAt ch.toNat).producer != 1 then f.fault cChannel (chanInfo f.slot ch) none
    else f.done { eff := some (.chw ch f.left tag last, 0) }

/-- TOKP: a token from SEQ to the engine at commit. -/
def execTokp (h : Head) (ls : BitVec 5) (e : Partner) (s : State) : Res :=
  fireWord (.tokp h ls e) s none fun f => f.done { eff := some (.tokp e, 0) }

/-- The engine id of a partner (R25). -/
def partnerId : Partner → Nat
  | .str => 2 | .ast => 3 | .est => 4 | .pst => 5 | .mxe => 6

/-- TOKW: the k-th of a FIFO in a block waits until it holds k tokens; it is removed at commit (R35). -/
def execTokw (h : Head) (ls : BitVec 5) (e : Partner) (s : State) : Res :=
  fireWord (.tokw h ls e) s none fun f =>
    let k := f.b.effs.countP fun x => x.eff == .tokw e
    if f.t.fifoAt (partnerId e) 1 ≤ k then .next s else f.done { eff := some (.tokw e, 0) }

/-! ### Copy packets (R176) -/

/-- The op of a packet. -/
def cpOp (x : Rec64) : Nat := fld x 60 4
/-- The source format. -/
def cpSrcFmt (x : Rec64) : BitVec 4 := x.extractLsb' 56 4
/-- The destination format. -/
def cpDstFmt (x : Rec64) : BitVec 4 := x.extractLsb' 52 4
/-- Elements per row. -/
def cpLen (x : Rec64) : Nat := fld x 192 20
/-- Rows. -/
def cpRows (x : Rec64) : Nat := fld x 212 24
/-- The sem bit. -/
def cpSem (x : Rec64) : Bool := x.getLsbD 361
/-- The fe bit. -/
def cpFe (x : Rec64) : Bool := x.getLsbD 360
/-- The add field. -/
def cpAdd (x : Rec64) : BitVec 16 := x.extractLsb' 344 16
/-- The tile field. -/
def cpTile (x : Rec64) : Nat := fld x 368 16
/-- The permit bit. -/
def cpPermit (x : Rec64) : Bool := x.getLsbD 447
/-- The permit counter. -/
def cpCounter (x : Rec64) : Nat := fld x 439 5
/-- The members of an MCAST's group (R177, R322). -/
def cpMembers (x? : Option Inst) (x : Rec64) : List Nat :=
  match x? with | some i => i.members (x.extractLsb' 184 8) | none => []

/-- Whether a packet has a bad field (R176, R177), in an instance or, for a queue's COPY, in none. -/
def cpBad (x? : Option Inst) (x : Rec64) : Bool :=
  let op := cpOp x
  let n := match x? with | some i => i.tiles.length | none => 0
  let block := isBlock (cpSrcFmt x) || isBlock (cpDstFmt x)
  fld x 448 62 != 0 || fld x 444 3 != 0 || fld x 384 55 != 0 || fld x 320 24 != 0 || fld x 236 20 != 0 || fld x 32 16 != 0
    || op == 0 || decide (4 < op) || cpRows x == 0 || cpLen x == 0 || (block && cpLen x % 16 != 0)
    || (op != 2 && (cpSrcFmt x != cpDstFmt x || fld x 48 4 != 0 || fld x 0 32 != 0))
    || (op == 2 && (decide (5 < fld x 48 3) || !scaleOk (w64 (fld x 0 32))))
    || (if cpSem x then cpAdd x == 0 else cpAdd x != 0)
    || (op == 4 && (cpTile x != 0 || fld x 149 35 != 0 || (cpMembers x? x).isEmpty))
    || (op != 4 && cpSem x && decide (n ≤ cpTile x))
    || (x?.isNone && cpPermit x)

/-- Bytes of a row of n elements (R177). -/
def rowBytes (t : BitVec 4) (n : Nat) : Nat :=
  if isBlock t then n / 16 * unitBytes t else if t == 9 then (n + 1) / 2 else n * unitBytes t

/-- The elements, or blocks, of a row. -/
def rowElems (t : BitVec 4) (n : Nat) (bs : List Byte) : List Nat :=
  elems (fmtWidth t) (if isBlock t then n / 16 else n) (ofBytes bs)

/-! ### Copy engines (R179) -/

/-- The place of a source in the round-robin order of R179. -/
def CpSrc.key : CpSrc → Nat
  | .tile p => p
  | .node p => 4096 + p
  | .queue t => 8192 + t.toNat

/-- Whether a fault of the instance at an index has escalated, so that its engine work is discarded (R390). -/
def State.cut (s : State) (i : Nat) : Bool := match s.inst? i with | some x => x.escalated | none => false

/-- A packet enters its FIFO at a copy engine, at its priority or the policy's bound (R179), unless its instance has escalated. -/
def State.cpEnqueue (s : State) (eng : Nat) (src : CpSrc) (tag : Byte) (i t : Nat) (pkt : Rec64) (mode : BitVec 3)
    (queue : Option (BitVec 4 × Nat)) : State :=
  let bound := match s.ctx? tag with | some c => c.bound | none => 0
  if s.cut i then s
  else { s with copy := vmod s.copy eng fun e =>
    { e with
      waiting := e.waiting ++ [{ src := src, inst := i, tile := t, pkt := pkt, mode := mode, level := Nat.max (fld pkt 510 2) bound,
                                 bound := bound, ord := e.ord, waited := 0, queue := queue }]
      ord := e.ord + 1 } }

/-- Changing a copy engine. -/
def State.modCopy (s : State) (eng : Nat) (f : CpEngine → CpEngine) : State := { s with copy := vmod s.copy eng f }

/-- A fault of a packet (R177): to the releasing tile, to the tile that a fabric packet names, or to the queue of a COPY. A fabric packet
whose tile field names no tile of the instance faults tile 0, as the spec names none (DESIGN CHOICE, log 15). -/
def State.copyFault (s : State) (p : CpPkt) (f : PFault) : State :=
  match p.src, p.queue with
  | .queue tag, some (q, ord) => s.errPacket tag q ord f.code
  | .node _, _ =>
    let n := match s.inst? p.inst with | some x => x.tiles.length | none => 0
    s.pendFault p.inst (if cpTile p.pkt < n then cpTile p.pkt else 0) none f
  | _, _ => s.pendFault p.inst p.tile none f

/-- The count of a permit counter. -/
def Inst.permitAt (x : Inst) (eng c : Nat) : Nat :=
  match x.permits.find? fun p => p.1 == eng && p.2.1 == c with | some p => p.2.2 | none => 0

/-- Setting a permit counter. -/
def Inst.setPermit (x : Inst) (eng c n : Nat) : Inst :=
  { x with permits := (x.permits.filter fun p => !(p.1 == eng && p.2.1 == c)) ++ [(eng, c, n)] }

/-- Whether a packet may start: its context runs, its tile runs, and its permit counter is not zero. -/
def State.cpStartable (s : State) (eng : Nat) (p : CpPkt) : Bool :=
  let runs := match s.ctx? (s.cpTag p) with | some c => c.active | none => false
  let here := match p.src with
    | .tile _ => (match s.tile? p.inst p.tile with | some t => t.place == .running | none => false)
    | _ => true
  let permit := !cpPermit p.pkt || (match s.inst? p.inst with
    | some x => x.permitAt eng (cpCounter p.pkt) != 0
    | none => true)
  runs && here && permit

/-- The packets at the heads of their FIFOs, one for each source and level: the earliest of a FIFO that has none in progress. -/
def CpEngine.heads (e : CpEngine) : List CpPkt :=
  e.waiting.filter fun p => !(e.waiting.any fun q => q.src == p.src && q.level == p.level && decide (q.ord < p.ord))
    && !e.active.any fun a => a.p.src == p.src && a.p.level == p.level

/-- The packet with the least of a measure. -/
def leastPkt (f : CpPkt → Nat) : List CpPkt → Option CpPkt
  | [] => none
  | p :: l => match leastPkt f l with
    | none => some p
    | some q => if f q < f p then some q else some p

/-- The packet an engine serves next (R179): the highest priority, and there the source after the one last served. -/
def CpEngine.pick (e : CpEngine) (ps : List CpPkt) : Option CpPkt :=
  match leastPkt (·.level) ps with
  | none => none
  | some b =>
    let l := ps.filter fun p => p.level == b.level
    match lookupKey b.level e.last with
    | none => leastPkt (·.src.key) l
    | some k => match leastPkt (·.src.key) (l.filter fun p => decide (k.key < p.src.key)) with
      | some p => some p
      | none => leastPkt (·.src.key) l

/-- COPY_PRIORITY_AGE: a packet below priority 1 and the policy's bound that has waited for 4 ms since its arrival or last rise rises one
level (R179). -/
def execCopyPriorityAge (eng : Nat) (s : State) : Res :=
  match s.copy[eng]? with
  | none => .next s
  | some e =>
    match leastPkt (·.ord) (e.waiting.filter fun p => decide (Nat.max 1 p.bound < p.level) && decide (agePeriod ≤ p.waited)) with
    | none => .next s
    | some p =>
      .next (s.modCopy eng fun e =>
        { e with
          waiting := e.waiting.map fun q => if q.ord == p.ord then { q with level := q.level - 1, waited := q.waited - agePeriod } else q })

/-! ### Copying by units and words (R177, R178) -/

/-- A unit of a copy: the row starts it belongs to, where it is read and written, its bytes there, its elements, and whether it ends in the
low nibble of its last byte. -/
structure CopyUnit where
  srcRow : W64
  dstRow : W64
  src : W64
  srcN : Nat
  dst : W64
  dstN : Nat
  len : Nat
  half : Bool

/-- A copy as its engine performs it: whose accesses they are, its alignments, whether its destinations lie in the slice window, its units,
and what a unit's bytes become, with the flags raised. -/
structure CopyTask where
  inst : Nat
  tile : Nat
  who : Nat
  tag : Byte
  fe : Bool
  srcAlign : Nat
  dstAlign : Nat
  units : List CopyUnit
  data : Nat → List Byte → List Byte × BitVec 5

/-- What an access of a copy gives: it is made, and gives bytes and flags; it must wait; or a fault. -/
inductive CopyStep where
  | done (s : State) (bs : List Byte) (flags : BitVec 5)
  | wait (s : State)
  | bad (s : State) (f : PFault)

/-- Whether a unit writes the byte at an address. -/
def CopyUnit.covers (u : CopyUnit) (a : W64) : Bool := decide ((a - u.dst).toNat < u.dstN)

/-- The aligned words that a unit writes to. -/
def CopyUnit.words (u : CopyUnit) : List W64 :=
  (List.range ((fld u.dst 0 3 + u.dstN + 7) / 8)).map fun q => (u.dst &&& ~~~(7 : W64)) + w64 (8 * q)

/-- Whether a unit writes to a word. -/
def CopyUnit.inWord (u : CopyUnit) (w : W64) : Bool := (List.range 8).any fun j => u.covers (w + w64 j)

/-- The logical tile and granule of an address in the slice window (R135). -/
def vaGranule (va : W64) : Nat × Nat := (fld va 21 33, fld va 6 15)

/-- The aligned words that a unit reads from. -/
def CopyUnit.srcWords (u : CopyUnit) : List W64 :=
  if u.srcN = 0 then []
  else (List.range ((fld u.src 0 3 + u.srcN + 7) / 8)).map fun q => (u.src &&& ~~~(7 : W64)) + w64 (8 * q)

/-- A copy that begins: every unit still to be read and every word to be written. -/
def CopyTask.job (k : CopyTask) : CopyJob :=
  { unread := List.range k.units.length, got := [], unwritten := (k.units.flatMap CopyUnit.words).eraseDups, part := [], wrote := [],
    marked := [] }

/-- The VA of the granule of an address. -/
def vaGranuleBase (w : W64) : W64 := w &&& ~~~(63 : W64)

/-- The words of the granule of an address. -/
def granuleWords (w : W64) : List W64 := (List.range 8).map fun q => vaGranuleBase w + w64 (8 * q)

/-- Whether a copy writes every bit of the granule of an address (R150). -/
def CopyTask.whole (k : CopyTask) (w : W64) : Bool :=
  (List.range 64).all fun b =>
    let a := vaGranuleBase w + w64 b
    k.units.any fun u => u.covers a && !(u.half && (a - u.dst).toNat + 1 == u.dstN)

/-- The units of a copy that write to a word, each with what it writes where it has been read. -/
def CopyTask.over (k : CopyTask) (j : CopyJob) (w : W64) : List (CopyUnit × Option (List Byte)) :=
  (k.units.zipIdx.filter fun u => u.1.inWord w).map fun u => (u.1, lookupKey u.2 j.got)

/-- Whether all that a copy writes to a word has been read, so that the word changes once; of a granule that it writes whole, all that it
writes there, so that nothing holds up the writes once the first is made (R150). -/
def CopyTask.ready (k : CopyTask) (j : CopyJob) (w : W64) : Bool :=
  (if k.whole w then granuleWords w else [w]).all fun v => (k.over j v).all fun u => u.2.isSome

/-- Whether a unit may be read: one that lies in several words only before the copy has written any of them, or after it has written all that
it writes there, so that the unit has its value from before the packet or one that the packet wrote (R177). -/
def CopyTask.mayRead (k : CopyTask) (j : CopyJob) (u : CopyUnit) : Bool :=
  let ws := u.srcWords.filter fun w => k.units.any fun v => v.inWord w
  decide (u.srcWords.length ≤ 1) || ws.all j.unwritten.contains || !ws.any j.unwritten.contains

/-- Whether a word may be written: all for it has been read, and what the copy writes to the other words of a unit that lies in several and is
still to be read can follow. -/
def CopyTask.mayWrite (k : CopyTask) (j : CopyJob) (w : W64) : Bool :=
  k.ready j w && j.unread.all fun n => match k.units[n]? with
    | none => true
    | some u => decide (u.srcWords.length ≤ 1) || !u.srcWords.contains w
        || u.srcWords.all fun v => !j.unwritten.contains v || k.ready j v

/-- The accesses a copy may make next: the read of a unit, or the write of a word. -/
def CopyTask.next (k : CopyTask) (j : CopyJob) : List (Nat ⊕ W64) :=
  (j.unread.filter fun n => (k.units[n]?).all (k.mayRead j)).map .inl ++ (j.unwritten.filter (k.mayWrite j)).map .inr

/-- The checks of R136 on a range of a row, with the alignment of the row's start. -/
def State.checkUnit (s : State) (k : CopyTask) (kind : AccKind) (align : Nat) (row va : W64) (n : Nat) : EAcc :=
  if fld row 55 9 == 0 && row.toNat % align != 0 then .bad (accPFault 0 cMisaligned none kind.isWrite row)
  else s.checkRange k.inst k.tag 0 kind (kind.isWrite && k.fe) va n 1

/-- The read of a unit. -/
def State.copyRead (s : State) (k : CopyTask) (u : CopyUnit) : CopyStep :=
  match s.checkUnit k .read k.srcAlign u.srcRow u.src u.srcN with
  | .bad f => .bad s f
  | .wait => .wait s
  | .ok sp => match s.readPieces k.inst k.tile k.who k.tag sp with
    | (.failed c q, s) => .bad s (readPFault 0 c q u.src)
    | (.wait, s) => .wait s
    | (.bytes bs, s) => .done (s.tookPieces k.inst k.tile k.who k.tag sp) (k.data u.len bs).1 (k.data u.len bs).2

/-- What units write to a byte: which of its bits, and their values; the later unit's over the earlier's. -/
def unitsByte (us : List (CopyUnit × List Byte)) (a : W64) : Byte × Byte :=
  us.foldl (fun m u =>
    let j := (a - u.1.dst).toNat
    let b := u.2.getD j 0
    if !u.1.covers a then m
    else if u.1.half && j + 1 == u.1.dstN then (m.1 ||| 0x0F, (m.2 &&& 0xF0) ||| (b &&& 0x0F))
    else (0xFF, b)) (0, 0)

/-- The bytes of a word that units write, cut into runs without a gap: where each begins, and the bits and values of its bytes. -/
def wordRuns (us : List (CopyUnit × List Byte)) (w : W64) : List (W64 × List (Byte × Byte)) :=
  (List.range 8).foldr (fun j rs =>
    let a := w + w64 j
    let m := unitsByte us a
    if m.1 == 0 then rs
    else match rs with
      | (b, l) :: rest => if b == a + 1 then (a, m :: l) :: rest else (a, [m]) :: rs
      | [] => [(a, [m])]) []

/-- The pieces of a word's runs after their checks. -/
def State.checkRuns (s : State) (k : CopyTask) (row : W64) : List (W64 × List (Byte × Byte)) → EAcc
  | [] => .ok []
  | (a, l) :: rs => match s.checkUnit k .write k.dstAlign row a l.length with
    | .ok ps => (match s.checkRuns k row rs with
      | .ok qs => .ok (ps ++ qs)
      | r => r)
    | r => r

/-- A word at a peer of which a byte is written in part: the word is read there, and replaced by a compare and swap, until none other has
written it between (R177; log 15). -/
def State.copySwap (s : State) (k : CopyTask) (i : BitVec 5) (v : W64) (ms : List (Byte × Byte)) (va : W64) : CopyStep :=
  let q : Ask := ⟨k.inst, k.tile, k.who, v⟩
  match s.askPeer k.tag i q (.read v .b8) with
  | (none, s) => .wait s
  | (some (.failed c), s) => .bad s (readPFault 0 c (some (i, v)) va)
  | (some (.data d), s) =>
    let new := wordOf ((bytesOf 8 d).zipWith (fun b m => (b &&& ~~~m.1) ||| (m.2 &&& m.1)) ms)
    match s.askPeer k.tag i { q with who := k.who + 4 } (.atomic v .cas true new d) with
    | (none, s) => .wait s
    | (some (.failed c), s) => .bad s (readPFault 0 c (some (i, v)) va)
    | (some (.data o), s) =>
      let s := (s.tookPeer k.tag i q).tookPeer k.tag i { q with who := k.who + 4 }
      if o == d then .done s [] 0 else .wait s

/-- The write of a word: every byte that the copy writes there, at once. -/
def State.copyWrite (s : State) (k : CopyTask) (us : List (CopyUnit × List Byte)) (w : W64) : CopyStep :=
  let rs := wordRuns us w
  let row := match us with | u :: _ => u.1.dstRow | [] => w
  match s.checkRuns k row rs with
  | .bad f => .bad s f
  | .wait => .wait s
  | .ok ps =>
    let part := rs.any fun r => r.2.any fun m => m.1 != 0xFF
    let far : Option (BitVec 5 × W64) := ps.findSome? fun p => match p.1 with | .remote i v => some (i, v) | _ => none
    match part, far with
    | true, some (i, v) => s.copySwap k i (v &&& ~~~(7 : W64)) ((List.range 8).map fun j => unitsByte us (w + w64 j)) w
    | _, _ =>
      if s.writeHeld k.inst ps then .wait s
      else
        let old := ps.flatMap fun p => s.readLoc k.inst p.1 p.2.bytes
        let new := (rs.flatMap (·.2)).zipWith (fun m b => (b &&& ~~~m.1) ||| (m.2 &&& m.1)) old
        .done (s.writePieces k.inst k.tile k.who k.tag ps new) [] 0

/-- The granule in which a word that a copy writes lies, at its home. -/
def State.copyHome (s : State) (k : CopyTask) (us : List (CopyUnit × List Byte)) (w : W64) : Option Loc :=
  match s.checkRuns k (match us with | u :: _ => u.1.dstRow | [] => w) (wordRuns us w) with
  | .ok (p :: _) => some p.1.granuleBase
  | _ => none

/-- The granules that a copy writes whole and has written in part, after a word of one that lies at a home is written. -/
def CopyTask.partAfter (k : CopyTask) (j : CopyJob) (w : W64) (home : Option Loc) : List (W64 × Loc) :=
  let g := vaGranuleBase w
  let others := j.part.filter fun p => p.1 != g
  if k.whole w && j.unwritten.any (fun v => v != w && vaGranuleBase v == g) then others ++ (home.map fun l => (g, l)).toList else others

/-- An access of a copy made: what it gives, with the job after it. -/
def State.copyAct (s : State) (k : CopyTask) (j : CopyJob) : Nat ⊕ W64 → CopyStep × CopyJob
  | .inl n => match k.units[n]? with
    | none => (.wait s, j)
    | some u =>
      let r := s.copyRead k u
      (r, match r with
        | .done _ bs _ => { j with unread := j.unread.filter fun m => m != n, got := j.got ++ [(n, bs)] }
        | _ => j)
  | .inr w =>
    let us := (k.over j w).filterMap fun u => u.2.map fun b => (u.1, b)
    let r := s.copyWrite k us w
    (r, match r with
      | .done _ _ _ =>
        { j with
          part := k.partAfter j w (s.copyHome k us w)
          unwritten := j.unwritten.filter fun v => v != w
          wrote := if k.fe && !j.wrote.contains (vaGranule w) then j.wrote ++ [vaGranule w] else j.wrote }
      | _ => j)

/-- The granules that a copy may mark full: those it wrote to, with no write to them left (R142). -/
def CopyJob.marks (j : CopyJob) : List (Nat × Nat) :=
  j.wrote.filter fun g => !j.marked.contains g && !j.unwritten.any fun w => vaGranule w == g

/-- Whether every write of a copy to a tile, or to any where none is named, is made and every granule of it there is marked. -/
def CopyJob.doneAt (j : CopyJob) (d : Option Nat) : Bool :=
  let here (g : Nat × Nat) : Bool := match d with | some t => g.1 == t | none => true
  (j.unwritten.all fun w => !here (vaGranule w)) && j.wrote.all fun g => !here g || j.marked.contains g

/-! ### Performing a packet (R177) -/

/-- Elements of a unit: a block's, the two of an i4 byte, or one. -/
def cpGroup (x : Rec64) : Nat :=
  if isBlock (cpSrcFmt x) || isBlock (cpDstFmt x) then 16 else if cpSrcFmt x == 9 || cpDstFmt x == 9 then 2 else 1

/-- The bytes that a unit writes, and the flags of its conversion. -/
def cpUnitData (x : Rec64) (mode : BitVec 3) (len : Nat) (bs : List Byte) : List Byte × BitVec 5 :=
  let n := rowBytes (cpDstFmt x) len
  match cpOp x with
  | 3 => ((List.range n).map fun k => (vecBytes 8 (x.extractLsb' 64 64)).getD (k % 8) 0, 0)
  | 2 =>
    let r := convElems (cpSrcFmt x) (cpDstFmt x) mode (x.getLsbD 51) (x.extractLsb' 0 32) (rowElems (cpSrcFmt x) len bs)
    (toBytes n (ofElems (fmtWidth (cpDstFmt x)) r.1), r.2)
  | _ => (bs, 0)

/-- The units of a row; a FILL reads nothing. -/
def rowUnits (x : Rec64) (src dst : W64) : List CopyUnit :=
  let g := cpGroup x
  let n := cpLen x
  (List.range ((n + g - 1) / g)).map fun k =>
    let len := Nat.min g (n - k * g)
    { srcRow := src
      dstRow := dst
      src := src + w64 (rowBytes (cpSrcFmt x) (k * g))
      srcN := if cpOp x == 3 then 0 else rowBytes (cpSrcFmt x) len
      dst := dst + w64 (rowBytes (cpDstFmt x) (k * g))
      dstN := rowBytes (cpDstFmt x) len
      len := len
      half := cpDstFmt x == 9 && len % 2 == 1 }

/-- The base VA of a tile's slice window (R135). -/
def windowBase (t : Nat) : W64 := w64 (2 ^ 54 + t * 0x200000)

/-- The rows of a packet as source and destination addresses; an MCAST's for each member in turn. -/
def cpAddrs (x? : Option Inst) (x : Rec64) : List (W64 × W64) :=
  let row (d : W64) (k : Nat) : W64 × W64 :=
    (x.extractLsb' 64 64 + w64 k * (x.extractLsb' 288 32).signExtend 64, d + w64 k * (x.extractLsb' 256 32).signExtend 64)
  if cpOp x = 4 then
    (cpMembers x? x).flatMap fun m => (List.range (cpRows x)).map (row (windowBase m + w64 (fld x 128 21)))
  else (List.range (cpRows x)).map (row (x.extractLsb' 128 64))

/-- A packet as its engine performs it. -/
def State.cpTask (s : State) (eng : Nat) (p : CpPkt) : CopyTask :=
  let x := p.pkt
  { inst := p.inst
    tile := p.tile
    who := whoCopy eng p.level
    tag := s.cpTag p
    fe := cpFe x
    srcAlign := if cpOp x == 3 then 1 else unitAlign (cpSrcFmt x)
    dstAlign := unitAlign (cpDstFmt x)
    units := (cpAddrs (s.inst? p.inst) x).flatMap fun r => rowUnits x r.1 r.2
    data := cpUnitData x (if fld x 48 3 = 0 then p.mode else x.extractLsb' 48 3) }

/-- A packet that starts. -/
def State.cpBegin (s : State) (eng : Nat) (p : CpPkt) : CpActive :=
  { p := p
    job := (s.cpTask eng p).job
    dests := if cpOp p.pkt = 4 then cpMembers (s.inst? p.inst) p.pkt else [cpTile p.pkt] }

/-- The packet of a FIFO in progress replaced. -/
def State.putCopy (s : State) (eng : Nat) (a : CpActive) : State :=
  s.modCopy eng fun e => { e with active := e.active.map fun b => if b.p.ord == a.p.ord then a else b }

/-- A packet in progress that is over; what its engine awaited for it from peers reaches no one. -/
def State.endCopy (s : State) (eng : Nat) (a : CpActive) : State :=
  ((s.modCopy eng fun e => { e with active := e.active.filter fun b => b.p.ord != a.p.ord }).tookAll a.p.inst a.p.tile
    (whoCopy eng a.p.level) (s.cpTag a.p)).tookAll a.p.inst a.p.tile (whoCopy eng a.p.level + 4) (s.cpTag a.p)

/-- The accesses that the packets of an op in progress at an engine may make next. -/
def State.cpActs (s : State) (eng op : Nat) (e : CpEngine) : List (CpActive × (Nat ⊕ W64)) :=
  e.active.flatMap fun a => if cpOp a.p.pkt == op then ((s.cpTask eng a.p).next a.job).map fun q => (a, q) else []

/-- One access of a packet of an op at an engine, the one that the step's choice falls on: a unit read, or a word written; a fault stops its
packet, whose performed writes stay. The flags of a CONV go to its releasing tile (R177); those of a packet of a fabric node, which no tile
released, to tile 0 of the instance, and those of a queue's COPY to none: the model's choice (DESIGN CHOICE, log 15). -/
def State.cpRun (s : State) (eng op : Nat) : Res :=
  match s.copy[eng]? with
  | none => .next s
  | some e =>
    match pickOf (Config.copyPick s.now) (s.cpActs eng op e) with
    | none => .next s
    | some (a, q) => match s.copyAct (s.cpTask eng a.p) a.job q with
      | (.wait s, _) => .next s
      | (.bad s f, _) => .next ((s.endCopy eng a).copyFault a.p f)
      | (.done s _ flags, j) =>
        let home := match a.p.src with | .tile _ => a.p.tile | _ => 0
        .next ((s.putCopy eng { a with job := j }).modTile a.p.inst home fun t => { t with xflags := t.xflags ||| flags })

/-- COPY_PACKET_START: the engine starts the packet of R179, takes its permit, and stops one with a bad field (R177, R180). Packets of
other FIFOs may be in progress: one that waits holds up its own FIFO only (R389). -/
def execCopyPacketStart (eng : Nat) (s : State) : Res :=
  match s.copy[eng]? with
  | none => .next s
  | some e =>
    match e.pick (e.heads.filter (s.cpStartable eng)) with
    | none => .next s
    | some p =>
      let s := s.modCopy eng fun e =>
        { e with waiting := e.waiting.filter fun q => q.ord != p.ord, last := putKey p.level p.src e.last }
      let s := if cpPermit p.pkt then
          s.modInst p.inst fun x => x.setPermit eng (cpCounter p.pkt) (x.permitAt eng (cpCounter p.pkt) - 1)
        else s
      if cpBad (s.inst? p.inst) p.pkt then
        .next (s.copyFault p { code := cIllegal, engine := 0, info := s.openVaInfo, page := none })
      else .next (s.modCopy eng fun e => { e with active := e.active ++ [s.cpBegin eng p] })

/-- CPY_COPY: op COPY moves the rows bit for bit. -/
def execCpyCopy (eng : Nat) (s : State) : Res := s.cpRun eng 1

/-- CPY_CONV: op CONV converts the rows. -/
def execCpyConv (eng : Nat) (s : State) : Res := s.cpRun eng 2

/-- CPY_FILL: op FILL writes the pattern. -/
def execCpyFill (eng : Nat) (s : State) : Res := s.cpRun eng 3

/-- CPY_MCAST: op MCAST copies into every member of the group. -/
def execCpyMcast (eng : Nat) (s : State) : Res := s.cpRun eng 4

/-- The source that R326 names for a packet's increment. -/
def CpPkt.source (p : CpPkt) : BitVec 16 := match p.src with | .tile _ => BitVec.ofNat 16 p.tile | _ => 0xFFFF

/-- What remains of a packet beside its accesses: a granule to be marked full, a destination tile to complete, its end. -/
inductive CopyEnd where
  | mark (g : Nat × Nat)
  | dest (d : Nat)
  | over
deriving DecidableEq, Repr

/-- The completions of a packet that may take place (R178): each granule once its bytes are written; then each destination tile, whatever
the others have come to; then its end. -/
def State.cpEnds (s : State) (eng : Nat) (a : CpActive) : List CopyEnd :=
  let mcast := cpOp a.p.pkt == 4
  let out := s.storesOut (s.cpTag a.p) a.p.inst a.p.tile (whoCopy eng a.p.level)
  let dests := a.dests.filter fun d => !out && a.job.doneAt (if mcast then some d else none)
  (a.job.marks.filter (s.markFree a.p.inst)).map .mark ++ dests.map .dest ++ (if a.dests.isEmpty && a.job.unwritten.isEmpty then [.over] else [])

/-- The completions that the packets in progress at an engine may have. -/
def State.cpDues (s : State) (eng : Nat) (e : CpEngine) : List (CpActive × CopyEnd) :=
  e.active.flatMap fun a => (s.cpEnds eng a).map fun q => (a, q)

/-- COPY_COMPLETION: one of the completions that may take place: a granule becomes full; a destination tile's semaphore receives its add
(R178); the packet is over. -/
def execCopyCompletion (eng : Nat) (s : State) : Res :=
  match s.copy[eng]? with
  | none => .next s
  | some e =>
    match pickOf (Config.copyPick s.now) (s.cpDues eng e) with
    | none => .next s
    | some (a, .mark g) =>
      .next ((s.putCopy eng { a with job := { a.job with marked := a.job.marked ++ [g] } }).markFull a.p.inst [g])
    | some (a, .dest d) =>
      let s := if cpSem a.p.pkt then s.semAdd a.p.inst d (a.p.pkt.extractLsb' 362 6) (cpAdd a.p.pkt) a.p.source else s
      .next (s.putCopy eng { a with dests := a.dests.filter fun k => k != d })
    | some (a, .over) =>
      let s := s.endCopy eng a
      match a.p.src, a.p.queue with
      | .queue tag, some (q, ord) => .next (s.completePacket tag q ord)
      | _, _ => .next s

/-! ### Packets and permits from VCs (R180) -/

/-- The units of the first frame that one VC of a source brought, and the inbox without them. -/
def takeFrame (u : CpIn) : List CpIn → Option (List LinkUnit × List CpIn)
  | [] => none
  | v :: l =>
    if v.src == u.src && v.inst == u.inst && v.vc == u.vc then
      if v.unit.last then some ([v.unit], l) else (takeFrame u l).map fun r => (v.unit :: r.1, r.2)
    else (takeFrame u l).map fun r => (r.1, v :: r.2)

/-- Whether an engine holds fewer packets of a source that have not started than R179 allows. -/
def CpEngine.room (e : CpEngine) (src : CpSrc) : Bool := decide ((e.waiting.filter fun p => p.src == src).length < 16)

/-- COPY_PACKET_FRAME: a whole frame at the packet input is one packet of 8 units, once there is room for a packet of its source (R179);
any other is discarded, with CHANNEL_PROTOCOL on the home tile. What a unit of a format other than f64 gives, and the rounding that a CONV
packet of a tile's VC captures, are the model's choice (log 15): the unit modulo 2^64, and sr.fmode when the frame is taken. -/
def execCopyPacketFrame (eng : Nat) (s : State) : Res :=
  match s.copy[eng]? with
  | none => .next s
  | some e =>
    match e.inbox.find? fun u => u.unit.last && e.room u.src with
    | none => .next s
    | some u => match takeFrame u e.inbox with
      | none => .next s
      | some (us, rest) =>
        let s := s.modCopy eng fun e => { e with inbox := rest }
        let us := us.filter fun u => !u.void
        if s.cut u.inst then .next s
        else if us.length = 8 then
          let pkt : Rec64 := BitVec.ofNat 512 (ofElems 64 (us.map fun u => u.bits.toNat % 2 ^ 64))
          let tag := match s.inst? u.inst with | some x => x.tag | none => 0
          let t := match u.src, s.inst? u.inst with
            | .tile ph, some x => (x.tiles.findIdx? fun y => y.phys == ph).getD 0
            | .node n, _ => noTile + n
            | _, _ => 0
          let mode := match u.src, s.tile? u.inst t with
            | .tile _, some y => y.sr.fmode.extractLsb' 0 3
            | _, _ => BitVec.ofNat 3 ((Config.openMode s.now).val + 1)
          .next (s.cpEnqueue eng u.src tag u.inst t pkt mode none)
        else .next (s.pendFault u.inst 0 none { code := cChannel, engine := 0, info := Config.openInfo s.now, page := none })

/-- PERMIT_UNIT: a unit at dst port 1 adds 1 to the counter of its VC; one that would pass 65,535 raises SEMAPHORE_OVERFLOW on the
sending tile, or on the home tile of a JOIN's instance, with the layout of R326 for an increment of the counter by 1 (log 15). -/
def execPermitUnit (eng : Nat) (s : State) : Res :=
  match s.copy[eng]? with
  | none => .next s
  | some e =>
    match e.permitIn with
    | [] => .next s
    | (src, i, v) :: rest =>
      let s := s.modCopy eng fun e => { e with permitIn := rest }
      match s.inst? i with
      | none => .next s
      | some x =>
        let n := x.permitAt eng v.toNat
        if x.escalated then .next s
        else if n < 65535 then .next (s.modInst i fun x => x.setPermit eng v.toNat (n + 1))
        else
          let t := match src with | .tile ph => (x.tiles.findIdx? fun y => y.phys == ph).getD 0 | _ => 0
          let from? := match src with | .tile _ => t | _ => 0xFFFF
          .next (s.pendFault i t none
            { code := cSemaphore, engine := 0, info := w64 (2 ^ 32 + from? * 2 ^ 16 + v.toNat), page := none })

/-! ### HALO (R181-R183) -/

/-- The place of a direction in a HALO descriptor. -/
def dirIdx : Dir → Nat
  | .n => 0 | .e => 1 | .s => 2 | .w => 3

/-- The neighbour of a tile in its node (R181). -/
def Inst.neighbour (x : Inst) (y : Tile) (ltid : Nat) (d : Dir) : Option Nat :=
  match x.kernel.nodes.find? fun n => n.id == y.node with
  | none => none
  | some n =>
    let r := (ltid - n.first) / n.cols
    let c := (ltid - n.first) % n.cols
    match d with
    | .n => if r = 0 then none else some (ltid - n.cols)
    | .e => if c + 1 = n.cols then none else some (ltid + 1)
    | .s => if r + 1 = n.rows then none else some (ltid + n.cols)
    | .w => if c = 0 then none else some (ltid - 1)

/-- The word of a direction. -/
def haloWord (d : Rec64) (k : Dir) : W64 := d.extractLsb' (128 + 64 * dirIdx k) 64

/-- The rules of R183 on a HALO descriptor. -/
def haloOk (d : Rec64) : Bool :=
  let dirs : List Dir := [.n, .e, .s, .w]
  fld d 384 128 == 0 && fld d 0 29 == 0
    && (dirs.all fun k =>
      let w := haloWord d k
      fld w 21 11 == 0 && fld w 53 11 == 0 && fld w 0 3 == 0 && fld w 32 3 == 0)
    && (d.getLsbD 59 == (fld d 37 16 != 0))

/-- The directions that a HALO copies: those of its mask that have a neighbour. -/
def Halo.dirs (x : Inst) (y : Tile) (ltid : Nat) (h : Halo) : List Dir :=
  ([.n, .e, .s, .w] : List Dir).filter fun k => h.desc.getLsbD (60 + dirIdx k) && (x.neighbour y ltid k).isSome

/-- Rows of a HALO. -/
def haloRows (d : Rec64) : Nat := fld d 116 12 + 1
/-- Bytes of a row of a HALO. -/
def haloSize (d : Rec64) : Nat := 8 * (fld d 104 12 + 1)

/-- A direction of a HALO as a copy of 8 B units from the tile's slice to its neighbour's. -/
def haloTask (i : Nat) (tag : Byte) (ltid nb : Nat) (d : Rec64) (dir : Dir) : CopyTask :=
  let src (k : Nat) : W64 := windowBase ltid + w64 (fld (haloWord d dir) 0 21 + k * (8 * fld d 84 20))
  let dst (k : Nat) : W64 := windowBase nb + w64 (fld (haloWord d dir) 32 21 + k * (8 * fld d 64 20))
  { inst := i
    tile := ltid
    who := whoHalo
    tag := tag
    fe := d.getLsbD 36
    srcAlign := 8
    dstAlign := 8
    units := (List.range (haloRows d)).flatMap fun k => (List.range (haloSize d / 8)).map fun j =>
      { srcRow := src k, dstRow := dst k, src := src k + w64 (8 * j), srcN := 8, dst := dst k + w64 (8 * j), dstN := 8, len := 1,
        half := false }
    data := fun _ bs => (bs, 0) }

/-- How far the directions of a HALO have come: at its beginning, all are to be copied. -/
def Halo.jobs (x : Inst) (y : Tile) (i ltid : Nat) (h : Halo) : List (Dir × CopyJob) :=
  h.left.getD ((h.dirs x y ltid).map fun k => (k, (haloTask i x.tag ltid ((x.neighbour y ltid k).getD 0) h.desc k).job))

/-- A HALO of the tile in focus replaced, or gone where none is given. -/
def State.putHalo (s : State) (k : Nat) (h : Option Halo) : State :=
  s.modFocus fun t => { t with halos := t.halos.take k ++ h.toList ++ t.halos.drop (k + 1) }

/-- A HALO that ends with a fault of engine 0 (R183). -/
def State.haloFault (s : State) (k : Nat) (f : PFault) : State :=
  (s.putHalo k none).pendFault s.focus.inst s.focus.tile none f

/-- The fault of a HALO whose descriptor is illegal (R183). -/
def haloIllegal (h : Halo) : PFault := { code := cIllegal, engine := 0, info := accInfo 0 false h.va, page := none }

/-- The SLICE_RANGE of a direction whose source or destination range leaves the slice (R183). The VA in sr.info is that of the range's first
byte, which the spec does not say (DESIGN CHOICE, log 20). -/
def haloRange (d : Rec64) (dir : Dir) (ltid nb : Nat) : Option PFault :=
  let so := fld (haloWord d dir) 0 21
  let dO := fld (haloWord d dir) 32 21
  let bad (tile o : Nat) (write : Bool) : PFault :=
    { code := cSliceRange, engine := 0, info := accInfo 0 write (windowBase tile + w64 o), page := none }
  if sliceSize < so + (haloRows d - 1) * (8 * fld d 84 20) + haloSize d then some (bad ltid so false)
  else if sliceSize < dO + (haloRows d - 1) * (8 * fld d 64 20) + haloSize d then some (bad nb dO true)
  else none

/-- A direction of a HALO after its job. -/
def putDir (dir : Dir) (j : Option CopyJob) (l : List (Dir × CopyJob)) : List (Dir × CopyJob) :=
  l.filterMap fun p => if p.1 == dir then j.map fun j => (dir, j) else some p

/-- What a direction of a HALO may do next: an access, the mark of a granule, or its completion. -/
def haloActs (s : State) (k : CopyTask) (j : CopyJob) : List ((Nat ⊕ W64) ⊕ CopyEnd) :=
  (k.next j).map .inl ++ (j.marks.filter (s.markFree k.inst)).map (fun g => .inr (.mark g)) ++ (if j.doneAt none then [.inr .over] else [])

/-- One act of a direction of a HALO: a unit read or a word written; a granule marked full; or, once every write is performed and every
granule marked, its completion, which adds to the receiver's semaphore. The HALO is over with the last, once its sender's completion has
taken place. -/
def State.haloStep (s : State) (x : Inst) (t : Tile) (n : Nat) (h : Halo) (dir : Dir) : Res :=
  let ltid := s.focus.tile
  let jobs := h.jobs x t s.focus.inst ltid
  match x.neighbour t ltid dir, lookupKey dir jobs with
  | some nb, some j =>
    let task := haloTask s.focus.inst x.tag ltid nb h.desc dir
    let put (s : State) (j : Option CopyJob) : State :=
      let left := putDir dir j jobs
      s.putHalo n (if left.isEmpty && h.sent then none else some { h with left := some left })
    match haloRange h.desc dir ltid nb, pickOf (Config.copyPick (s.now + 1)) (haloActs s task j) with
    | some f, _ => .next (s.haloFault n f)
    | none, none => .next s
    | none, some (.inl q) => (match s.copyAct task j q with
      | (.wait s, _) => .next s
      | (.bad s f, _) => .next (s.haloFault n f)
      | (.done s _ _, j) => .next (put s (some j)))
    | none, some (.inr (.mark g)) => .next ((put s (some { j with marked := j.marked ++ [g] })).markFull s.focus.inst [g])
    | none, some (.inr _) =>
      let s := put s none
      .next (if h.desc.getLsbD 59 then
          s.semAdd s.focus.inst nb (h.desc.extractLsb' 53 6) (h.desc.extractLsb' 37 16) (BitVec.ofNat 16 ltid)
        else s)
  | _, _ => .next s

/-- Whether the HALOs of a tile may begin: it runs, and its context does. -/
def State.haloRuns (s : State) (x : Inst) (t : Tile) : Bool :=
  t.place == .running && (match s.ctx? x.tag with | some c => c.active | none => false)

/-- The HALOs of the tile in focus, each with its place, that have a direction left to copy, or an illegal descriptor to find. -/
def State.halosFor (s : State) (x : Inst) (t : Tile) (dir : Dir) : List (Halo × Nat) :=
  t.halos.zipIdx.filter fun h => (h.1.left.isSome || s.haloRuns x t)
    && ((h.1.left.isNone && !haloOk h.1.desc) || (h.1.jobs x t s.focus.inst s.focus.tile).any fun j => j.1 == dir)

/-- The HALOs of the tile in focus, each with its place, of which every read is performed and whose sender has not been told. -/
def State.halosRead (s : State) (x : Inst) (t : Tile) : List (Halo × Nat) :=
  t.halos.zipIdx.filter fun h => !h.1.sent && (h.1.left.isSome || s.haloRuns x t)
    && (h.1.jobs x t s.focus.inst s.focus.tile).all fun j => j.2.unread.isEmpty

/-- HALO_DIRECTION_COMPLETE: one act of a direction of a HALO that has it left; the first checks the descriptor. The spec orders neither
the directions of a HALO nor the HALOs of a tile. -/
def execHaloDirectionComplete (dir : Dir) (s : State) : Res :=
  s.onTile fun x t =>
    match pickOf (Config.copyPick s.now) (s.halosFor x t dir) with
    | none => .next s
    | some (h, n) =>
      if h.left.isNone && !haloOk h.desc then .next (s.haloFault n (haloIllegal h)) else s.haloStep x t n h dir

/-- HALO_SENDER_COMPLETE: once every read of every direction of a HALO is performed, its sender's semaphore receives 1 where ssem asks for
it (R183); the HALO is over where its directions are. -/
def execHaloSenderComplete (s : State) : Res :=
  s.onTile fun x t =>
    match pickOf (Config.copyPick s.now) (s.halosRead x t) with
    | none => .next s
    | some (h, n) =>
      if h.left.isNone && !haloOk h.desc then .next (s.haloFault n (haloIllegal h))
      else
        let left := h.jobs x t s.focus.inst s.focus.tile
        let s := s.putHalo n (if left.isEmpty then none else some { h with left := some left, sent := true })
        .next (if h.desc.getLsbD 35 then
            s.semAdd s.focus.inst s.focus.tile (h.desc.extractLsb' 29 6) 1 (BitVec.ofNat 16 s.focus.tile)
          else s)

end Sys2Proof.Machine
end

