-- ==== Sys2Proof/Machine/Tokens.lean ====
section
/-! DEFINITION. Control tokens of the matrix engine: where they come from, their check, and their take (R235, R241, R242, R245, R247). -/

namespace Sys2Proof.Machine

/-- The slots that are Loaded, as a bitmap. -/
def Mxe.loadedMap (m : Mxe) : BitVec 16 :=
  BitVec.ofNat 16 (ofElems 1 (m.slots.toList.map fun x => if x.logic == .loaded then 1 else 0))

/-- The fault of a token at its take (R247): its encoding first, then its features (R72). -/
def tokenFault (feat : W64) (tok : W64) : Option Byte :=
  match decodeToken tok with
  | .error _ => some cIllegal
  | .ok (_, k) =>
    if !feat.getLsbD 0 || (!feat.getLsbD 3 && (isBlock k.fa || isBlock k.fb || isBlock k.ofmt)) then some cMasked else none

/-- The tokens of a beat: its words up to the first that is zero (R241). -/
def beatTokens (b : Beat) : List W64 := ((elems 64 96 b.toNat).map w64).takeWhile (· != 0)

/-- The entry that an engine can pop: none while the channel is empty or surplus (R196). -/
def Channel.head (c : Channel) : Option ChanEntry := if c.surplus then none else c.entries.head?

/-- A channel without the rest of a surplus frame, as far as it has come (R196, R245). -/
def Channel.drain : Nat → Channel → Channel
  | 0, c => c
  | n + 1, c =>
    if !c.surplus then c
    else match c.entries with
      | [] => c
      | b :: l => Channel.drain n { c with entries := l, surplus := !b.last }

/-- What the MXE can take: nothing; nothing, with the tile without the rest of a surplus frame; a channel bound otherwise; or a token with
its order point, whether it is the last from its source's beat, and the tile without it. -/
inductive Take? where
  | nothing
  | drained (t : Tile)
  | unbound (ch : BitVec 4)
  | token (tok : W64) (q : Option QTok) (last : Bool) (t : Tile)

/-- The next token of the current source (R241); an ACCIN is taken only once every earlier token has retired (R245). -/
def Tile.nextToken (t : Tile) : Take? :=
  let m := t.mxe
  let waits (tok : W64) : Bool := fld tok 60 4 == 6 && !m.pipe.isEmpty
  match m.beat with
  | tok :: l => if waits tok then .nothing else .token tok none l.isEmpty { t with mxe := { m with beat := l } }
  | [] => match m.src with
    | none => match m.queue with
      | [] => .nothing
      | q :: l => if waits q.tok then .nothing else .token q.tok (some q) true { t with mxe := { m with queue := l } }
    | some ch =>
      let c := (t.chanAt ch.toNat).drain 4
      if c.consumer != 6 then .unbound ch
      else match c.head with
        | none =>
          if c.entries.length = (t.chanAt ch.toNat).entries.length then .nothing else .drained (t.modChan ch.toNat fun _ => c)
        | some b =>
          let t := t.modChan ch.toNat fun _ => { c with entries := c.entries.tail }
          match beatTokens b.data with
          | [] => .token 0 none true t
          | tok :: l => if waits tok then .nothing else .token tok none l.isEmpty { t with mxe := { t.mxe with beat := l } }

/-- Whether the MXE would take a token now. -/
def Tile.canTake (t : Tile) : Bool :=
  t.mxe.held.isNone && decide (t.mxe.nextAt ≤ t.cyc) && !t.mxe.stopped
    && (match t.nextToken with | .nothing => false | _ => true)

/-- The MXE that has taken a token from its source (R241, R242). -/
def Mxe.hold (m : Mxe) (old : Mxe) (tok : W64) (q : QTok) (last : Bool) : Mxe :=
  { m with
    src := if last then (if tok.getLsbD 18 then some (tok.extractLsb' 14 4) else none) else m.src
    held := some { q := q, src := old.src, popped := false, taken := 0 } }

/-- The order point of a token that is taken, and the MXE with it: one from a channel gets its own at its take (R235). -/
def Mxe.orderTake (m : Mxe) (tok : W64) (q? : Option QTok) : QTok × Mxe :=
  match q? with
  | some q => (q, m)
  | none => ({ tok := tok, ord := m.ord, loaded := m.loadedMap }, { m with ord := m.ord + 1 })

/-- The tile once the MXE has taken the token that it takes in the schedule cycle in hand; one that faults is not held. -/
def Tile.afterTake (t : Tile) : Tile :=
  if !t.canTake then t
  else match t.nextToken with
    | .token tok q? last u =>
      if (tokenFault t.sr.feat tok).isSome then t
      else
        let r := u.mxe.orderTake tok q?
        { u with mxe := r.2.hold t.mxe tok r.1 last }
    | _ => t

/-- The beats of the frame of an ACCIN (R245). -/
def accinBeats (k : MTok) : Nat := (32 * (k.ra.toNat + 1) + 191) / 192

/-- Whether the beat that an ACCIN would take ends it while the FIFO of its PUSH is full, which stops the schedule clock (R48). -/
def Tile.accinStops (t : Tile) (k : MTok) (h : Held) : Bool :=
  match ((t.chanAt k.dch.toNat).drain 4).head with
  | none => false
  | some b => (h.taken + 1 == accinBeats k || b.last) && tokPush h.q.tok != 0 && t.fifoAt 6 (tokPush h.q.tok) == 15

end Sys2Proof.Machine
end

