-- ==== Sys2Proof/Machine/Strips.lean ====
section
/-! DEFINITION. The strips and the schedule clock: what a word pops and reads, what falls due, the causes that stop a schedule cycle,
RUN and its check (R46-R50, R77, R187-R198, R224-R226). -/

namespace Sys2Proof.Machine

/-! ### RUN (R187) -/

/-- RUN: MISALIGNED for a run value with bits 2:1 set, with the whole run value as the address in sr.info (DESIGN CHOICE, log 76); the
execute check of its code address; the RUN is queued at commit. -/
def execRun (h : Head) (ls : BitVec 5) (e : StripId) (cnt : BitVec 12) (rep : BitVec 12) (s : State) : Res :=
  fireWord (.run h ls e cnt rep) s none fun f =>
    let v := f.left
    let a := v &&& ~~~(7#64)
    if fld v 1 2 != 0 then f.fault cMisaligned (accInfo f.slot false v) none
    else f.checked (.plain .fetch 8) a false fun _ =>
      f.done { eff := some (.run e a (v.getLsbD 0) (cnt.toNat + 1) (rep.toNat + 1), a) }

/-! ### A strip of a tile -/

/-- The engine id of a strip. -/
def stripId (e : StripId) : Nat := e.engine.id

/-- A strip of a tile. -/
def Tile.strip (t : Tile) : StripId → Strip
  | .ast => t.ast
  | .est => t.est
  | .pst => t.pst

/-- Changing a strip of a tile. -/
def Tile.modStrip (t : Tile) (e : StripId) (f : Strip → Strip) : Tile :=
  match e with
  | .ast => { t with ast := f t.ast }
  | .est => { t with est := f t.est }
  | .pst => { t with pst := f t.pst }

/-- Whether every RUN of a strip has retired (R189). -/
def Strip.retired (x : Strip) : Bool := x.queue.isEmpty && x.run.isNone && x.cur.isNone && x.flight.isEmpty

/-- The word that a strip would issue in a schedule cycle, with its address and captured mode (R188, R189): none while its issue slot
is held, while a fault stops it, and after a length mismatch that will fault (R196). -/
def Strip.nextWord (x : Strip) (cyc : Nat) : Option (W64 × W64 × W64) :=
  if x.stopped || x.cur.isSome || x.flight.any (·.lenmis) || decide (cyc < x.free) then none
  else match x.run with
    | some r => (r.words[r.pos]?).map fun w => (w, r.base + w64 (8 * r.pos), r.mode)
    | none => match x.queue with
      | [] => none
      | q :: _ => match q.checked with
        | none => none
        | some (ws, _) => ws.head?.map fun w => (w, (if q.kload then q.addr + 32 else q.addr), q.mode)

/-- The opcode of a strip word. -/
def wordOp (w : W64) : Nat := (w.extractLsb' 56 8).toNat

/-! ### Operands (R193, R209) -/

/-- The channel an operand code names. -/
def codeChan (c : BitVec 6) : Option Nat := if 16 ≤ c.toNat ∧ c.toNat < 32 then some (c.toNat - 16) else none

/-- Whether a word sends to two destinations: STEER and SPLIT. -/
def twoDest (e : StripId) (op : Nat) : Bool := e == .pst && (op == 0x10 || op == 0x19)

/-- Whether a word is a MERGE. -/
def isMerge (e : StripId) (op : Nat) : Bool := e == .pst && op == 0x11

/-- The source operand codes of a word, in field order; those of a MERGE are chosen by its control. -/
def srcCodes (e : StripId) (op : Nat) (w : SWord) : List (BitVec 6) :=
  match stripRule e op with
  | none => []
  | some r => (if r.a then [w.a] else []) ++ (if r.b then [w.b] else []) ++ (if r.c && !twoDest e op then [w.c] else [])

/-- The destination operand codes of a word. -/
def dstCodes (e : StripId) (op : Nat) (w : SWord) : List (BitVec 6) :=
  match stripRule e op with
  | none => []
  | some r => (if r.d then [w.d] else []) ++ (if twoDest e op then [w.c] else [])

/-- The channels a word pops, and the first of them that has no entry. -/
structure Pops where
  chans : List Nat
  short : Option Nat

/-- The pops of operand codes; one channel in two fields is popped once (R74). -/
def Tile.popChans (t : Tile) : List (BitVec 6) → List Nat → Pops
  | [], l => ⟨l, none⟩
  | c :: cs, l => match codeChan c with
    | none => t.popChans cs l
    | some k =>
      if l.contains k then t.popChans cs l
      else match (t.chanAt k).head with
        | none => ⟨l, some k⟩
        | some _ => t.popChans cs (l ++ [k])

/-- The value of a k operand: in every lane, or a pair in every element of type f64 (R193). -/
def Strip.kBeat (x : Strip) (ty : BitVec 4) (j : Nat) : Beat :=
  if ty == 10 then
    BitVec.ofNat 6144 (ofElems 64 (List.replicate 96 ((vget x.k j 0).toNat + 2 ^ 32 * (vget x.k (j + 1) 0).toNat)))
  else BitVec.ofNat 6144 (ofElems 32 (List.replicate 192 (vget x.k j 0).toNat))

/-- A source operand (R193): a beat with its tag and end bit. -/
def Tile.operandOf (t : Tile) (x : Strip) (ty : BitVec 4) (c : BitVec 6) : ChanEntry :=
  match codeChan c with
  | some k => (t.chanAt k).head.getD ⟨0, 0, false⟩
  | none =>
    if c.toNat < 8 then ⟨vget x.v c.toNat 0, 0, false⟩
    else if c.toNat < 16 then ⟨x.kBeat ty (c.toNat - 8), 0, false⟩
    else ⟨0, 0, false⟩

/-- The constants that a RUN loads as it starts, over those of its strip (R188). -/
def RunReq.consts (q : RunReq) (old : Vector W32 8) : Vector W32 8 :=
  match q.checked with
  | some (_, k) => if q.kload then Vector.ofFn fun j => BitVec.ofNat 32 (fld k (32 * j.val) 32) else old
  | none => old

/-- A strip with the k registers that its next word reads: those of the RUN that starts with it (R188). -/
def Strip.started (x : Strip) : Strip :=
  match x.cur, x.run, x.queue with
  | none, none, q :: _ => { x with k := q.consts x.k }
  | _, _, _ => x

/-- The control of a STEER or MERGE (R209). -/
def Tile.control (t : Tile) (e : StripId) (w : SWord) : Bool := (t.operandOf (t.strip e).started w.ty w.b).data.getLsbD 0

/-- The input that a MERGE selects (R209). -/
def Tile.mergeSel (t : Tile) (e : StripId) (w : SWord) : BitVec 6 := if t.control e w then w.a else w.c

/-- The pops of a word (R192, R209). -/
def Tile.plan (t : Tile) (e : StripId) (op : Nat) (w : SWord) : Pops :=
  if isMerge e op then
    let p := t.popChans [w.b] []
    if p.short.isSome then p else t.popChans [t.mergeSel e w] p.chans
  else t.popChans (srcCodes e op w) []

/-! ### Results that fall due (R194, R198, R226) -/

/-- The lane flags as FLAGR writes them (R204). -/
def flagBeat (f : BitVec 960) : Beat := BitVec.ofNat 6144 (ofElems 32 (elems 5 192 f.toNat))

/-- The counters as HARDR writes them (R226). -/
def hardBeat (h : Vector W32 4) : Beat :=
  let l := h.toList.map (·.toNat)
  BitVec.ofNat 6144 (ofElems 32 (l ++ [l.foldl (· + ·) 0 % 2 ^ 32]))

/-- The outputs of a word in its due cycle: FLAGR and HARDR read the state before it. -/
def Flight.outputs (x : Strip) (f : Flight) : List Out :=
  match f.kind with
  | .value => f.outs
  | .flagr => f.outs.map fun o => { o with data := flagBeat x.flags }
  | .hardr _ => f.outs.map fun o => { o with data := hardBeat x.hard }

/-- An output written, pushed or discarded. -/
def Tile.putOut (t : Tile) (e : StripId) (o : Out) : Tile :=
  match codeChan o.dst with
  | some k => t.modChan k fun c => { c with entries := c.entries ++ [⟨o.data, o.tag, o.last⟩] }
  | none => if o.dst.toNat < 8 then t.modStrip e fun x => { x with v := vmod x.v o.dst.toNat fun _ => o.data } else t

/-- A hard counter increased; it stops at all ones. -/
def hardAdd (c : W32) (n : Nat) : W32 := BitVec.ofNat 32 (Nat.min (2 ^ 32 - 1) (c.toNat + n))

/-- A word delivered. -/
def Tile.deliverFlight (t : Tile) (e : StripId) (f : Flight × List Out) : Tile :=
  let t := f.2.foldl (fun t o => t.putOut e o) t
  let t := t.modStrip e fun x =>
    { x with
      flags := x.flags ||| f.1.flags
      hard := f.1.hard.zipIdx.foldl (fun h n => vmod h n.2 fun c => hardAdd c n.1) x.hard }
  if f.1.push = 0 then t else t.fifoPush (stripId e) f.1.push.toNat

/-- The words of a strip due in the schedule cycle in hand, in issue order. -/
def Tile.dueOf (t : Tile) (e : StripId) : List Flight := (t.strip e).flight.filter fun f => decide (f.due ≤ t.cyc)

/-- Every word of a strip that is due delivered. -/
def Tile.deliverDue (t : Tile) (e : StripId) : Tile :=
  let x := t.strip e
  let fs := (t.dueOf e).map fun f => (f, f.outputs x)
  let clr := fs.any fun f => f.1.kind == .hardr true
  let cyc := t.cyc
  let t := t.modStrip e fun x =>
    { x with
      flight := x.flight.filter fun f => !decide (f.due ≤ cyc)
      hard := if clr then Vector.replicate 4 0 else x.hard }
  fs.foldl (fun t f => t.deliverFlight e f) t

/-- The fault that a delivered word raises (R196, R198, R210). -/
def Flight.fault? (e : StripId) (f : Flight) : Option PFault :=
  let put (code : Byte) (info : W64) : Option PFault :=
    some { code := code, engine := BitVec.ofNat 3 (stripId e), info := info, page := none }
  if f.lenmis then put cLength f.addr
  else match f.tagt with
    | some (t, x) => put cChannel (w64 (t.toNat * 256 + x.toNat))
    | none => if flagSummary f.flags &&& f.mode.extractLsb' 8 5 != 0 then put cArith f.addr else none

/-! ### The matrix engine's due results (R243-R245) -/

/-- What is due of the MXE in the schedule cycle in hand. -/
def Tile.mxDue (t : Tile) : List MxDue := t.mxe.pipe.filter fun d => decide (d.due ≤ t.cyc)

/-- One due item of the MXE delivered. -/
def Tile.mxDeliver (t : Tile) (d : MxDue) : Tile :=
  let t := { t with mxe := { t.mxe with
    accs := match d.acc with | some (k, a) => vmod t.mxe.accs k.toNat fun _ => a | none => t.mxe.accs
    flags := t.mxe.flags ||| d.flags
    sat := t.mxe.sat || d.sat } }
  let t := match d.beat with
    | some (c, b) => t.modChan c.toNat fun c => { c with entries := c.entries ++ [b] }
    | none => t
  if d.retire && tokPush d.q.tok != 0 then t.fifoPush 6 (tokPush d.q.tok) else t

/-- The MXE's due items of one kind, beats or retirements, delivered. -/
def Tile.mxDeliverDue (t : Tile) (beats : Bool) : Tile :=
  let ds := t.mxDue.filter fun d => d.beat.isSome == beats
  let cyc := t.cyc
  let t := { t with mxe := { t.mxe with
    pipe := t.mxe.pipe.filter fun d => !(decide (d.due ≤ cyc) && d.beat.isSome == beats) } }
  let t := ds.foldl (fun t d => t.mxDeliver d) t
  { t with mxe := t.mxe.settle }

/-! ### The schedule clock (R48) -/

/-- The tile as it stands once everything due in the schedule cycle is delivered. -/
def Tile.afterDue (t : Tile) : Tile :=
  ((((t.deliverDue .ast).deliverDue .est).deliverDue .pst).mxDeliverDue true).mxDeliverDue false

/-- Whether anything is due in the schedule cycle in hand. -/
def Tile.duesLeft (t : Tile) : Bool :=
  !(t.dueOf .ast).isEmpty || !(t.dueOf .est).isEmpty || !(t.dueOf .pst).isEmpty || !t.mxDue.isEmpty

/-- The token FIFOs that due results push, as engine pairs. -/
def Tile.duePushes (t : Tile) : List (Nat × Nat) :=
  (([.ast, .est, .pst] : List StripId).flatMap fun e =>
    (t.dueOf e).filterMap fun f => if f.push = 0 then none else some (stripId e, f.push.toNat))
  ++ (t.mxDue.filterMap fun d => if d.retire && tokPush d.q.tok != 0 then some (6, tokPush d.q.tok) else none)

/-- Whether every due result has room as the schedule cycle begins (R48, R194): two entries in a channel, 15 tokens in a FIFO. A pop of the
same schedule cycle makes no room (log 22). -/
def Tile.dueRoom (t : Tile) : Bool :=
  let u := t.afterDue
  (List.range 16).all (fun k =>
    decide ((u.chanAt k).entries.length ≤ 2) || (u.chanAt k).entries.length == (t.chanAt k).entries.length)
  && t.duePushes.all fun p => decide (t.fifoAt p.1 p.2 + t.duePushes.count p ≤ 15)

/-- The destinations that a word pushes when it issues now (R209): a STEER whose control is there only the one that it selects. -/
def Tile.dstNow (t : Tile) (e : StripId) (op : Nat) (w : SWord) : List (BitVec 6) :=
  if e == .pst && op == 0x10 then
    match codeChan w.b with
    | some k => match (t.chanAt k).head with
      | some b => if b.data.getLsbD 0 then [w.d] else [w.c]
      | none => []
    | none => if t.control e w then [w.d] else [w.c]
  else dstCodes e op w

/-- Whether the word that a strip would issue pops or pushes a channel that is bound otherwise (R51). -/
def Tile.wrongBinding (t : Tile) (e : StripId) (w : W64) : Bool :=
  let op := wordOp w
  let x := SWord.ofWord w
  let p := t.plan e op x
  let pops := p.chans ++ (match p.short with | some k => [k] | none => [])
  (x.pop == 0 || t.fifoAt x.pop.toNat (stripId e) != 0)
    && (pops.any (fun k => (t.chanAt k).consumer.toNat != stripId e)
        || (t.dstNow e op x).any fun c => match codeChan c with
            | some k => (t.chanAt k).producer.toNat != stripId e
            | none => false)

/-- Whether the word that a strip would issue can issue (R192): its POP token, its channels, and for an IDLE of one cycle room for its
PUSH (R197). -/
def Tile.wordReady (t : Tile) (e : StripId) (w : W64) : Bool :=
  let op := wordOp w
  let x := SWord.ofWord w
  (x.pop == 0 || t.fifoAt x.pop.toNat (stripId e) != 0) && (t.plan e op x).short.isNone && !t.wrongBinding e w
    && !(op == 1 && x.imm == 1 && x.push != 0 && t.fifoAt (stripId e) x.push.toNat == 15)

/-- Whether a strip has no word to issue in the schedule cycle or can issue it. -/
def Tile.stripClear (t : Tile) (e : StripId) : Bool :=
  match (t.strip e).nextWord t.cyc with
  | none => true
  | some (w, _, _) => t.wordReady e w

/-- Whether the MXE holds a token (R242). -/
def Mxe.busy (m : Mxe) : Bool := m.held.isSome || m.pipe.any (·.retire)

/-- Whether a fill of a slot ordered before a point is pending (R235). -/
def Mxe.fillPending (m : Mxe) (slot ord : Nat) : Bool :=
  m.work.any fun w => decide (w.1 < ord) && (match w.2 with | .fill k _ => k.toNat == slot | _ => false)

/-- Whether a fill that could read now waits for a translation (R237). -/
def State.fillMinor (s : State) (x : Inst) (t : Tile) : Bool :=
  t.mxe.work.any fun w => match w.2 with
    | .fill k va =>
      !t.mxe.earlier k.toNat w.1 && !(t.mxe.work.any fun v => v.2.slot == k.toNat && decide (v.1 < w.1))
        && (match s.checkRange s.focus.inst x.tag 2 .read false va 6144 64 with | .wait => true | _ => false)
    | _ => false

/-- Whether an ACCIN that the MXE holds would end now with a PUSH into a full FIFO. -/
def Tile.accinHeld (t : Tile) (h : Held) : Bool :=
  match decodeToken h.q.tok with
  | .ok (op, k) => op == 6 && (t.chanAt k.dch.toNat).consumer == 6 && t.accinStops k h
  | .error _ => false

/-- Whether no cause of R48 holds for the MXE. -/
def State.mxClear (s : State) (x : Inst) (t : Tile) : Bool :=
  (match t.mxe.held with
    | none => true
    | some h =>
      (tokPop h.q.tok == 0 || h.popped || t.fifoAt (tokPop h.q.tok) 6 != 0)
        && ((tokSlots h.q.tok).all fun k => !t.mxe.fillPending k h.q.ord) && !t.accinHeld h)
    && !(t.mxe.busy && s.fillMinor x t)

/-- Whether an engine of the schedule clock is under fault service (R386). -/
def Tile.anyStopped (t : Tile) : Bool := t.ast.stopped || t.est.stopped || t.pst.stopped || t.mxe.stopped

/-- Whether no cause of R48 holds for what is to issue. Readiness is judged before any word of the cycle issues, so that a token which an IDLE
of one cycle pushes in its issue cycle (R197) is popped by no word of that same cycle: the model's choice, which the spec leaves open
(DESIGN CHOICE, log 53). -/
def State.issueClear (s : State) (x : Inst) (t : Tile) : Bool :=
  !t.anyStopped && t.stripClear .ast && t.stripClear .est && t.stripClear .pst && s.mxClear x t

/-- Words of the E-strip that fall due with hard elements that the second phase has not rounded (R224). -/
def Tile.hardDue (t : Tile) : List Flight := (t.dueOf .est).filter fun f => !f.rounded && f.hard.any (· != 0)

/-- Whether a result that falls due in the schedule cycle in hand faults its strip, which then issues nothing more (R196, R198). -/
def Tile.dueFaults (t : Tile) (e : StripId) : Bool := (t.dueOf e).any fun f => (f.fault? e).isSome

/-- Whether no cause of R48 but the second phase holds in a schedule cycle that has not begun: for what falls due in it, then for the words that
would issue, and for the token that the MXE holds or takes in it. -/
def State.startClear (s : State) (x : Inst) (t : Tile) : Bool :=
  let u := t.afterDue
  !t.anyStopped && t.dueRoom && (t.dueFaults .ast || u.stripClear .ast) && (t.dueFaults .est || u.stripClear .est)
    && (t.dueFaults .pst || u.stripClear .pst) && s.mxClear x u.afterTake

/-- Whether the schedule cycle in hand goes on: it has begun, or nothing stops it. -/
def State.cycleRuns (s : State) (x : Inst) (t : Tile) : Bool :=
  t.place == .running && (t.phase != .start || (s.startClear x t && t.hardDue.isEmpty))

/-- STRIP_RESULT_DUE: every word of the strip that is due in the schedule cycle is delivered, in issue order; the first that faults
stops the strip (R194, R198, R386). Of several that fault in one cycle the first in issue order is reported alone, and of one word a length
mismatch before a tag mismatch before a trap: the spec leaves both open (DESIGN CHOICE, log 53). -/
def execStripResultDue (e : StripId) (s : State) : Res :=
  s.onTile fun x t =>
    let fs := t.dueOf e
    if fs.isEmpty || !s.cycleRuns x t then .next s
    else
      let s := s.modFocus fun t => { t.deliverDue e with phase := .due }
      .next (match fs.findSome? (Flight.fault? e) with
        | none => s
        | some f =>
          (s.modFocus fun t => t.modStrip e fun x => { x with stopped := true }).pendFault s.focus.inst s.focus.tile none f)

/-- SECOND_PHASE_ROUND: the second-phase units round the hard elements of the words that fall due, and the schedule clock stops for 48
tile cycles for each of the most in any quarter, or 96 for f64 (R223, R224). -/
def execSecondPhaseRound (s : State) : Res :=
  s.onTile fun x t =>
    if t.place != .running || t.phase != .start || !s.startClear x t || t.hardDue.isEmpty then .next s
    else
      let per (q : Nat) : Nat := (t.hardDue.map fun f => f.hard.getD q 0 * (if f.wide then 96 else 48)).foldl (· + ·) 0
      let n := (List.range 4).foldl (fun m q => Nat.max m (per q)) 0
      .next ((s.count x.tag 0x10 n).modFocus fun t =>
        { t with
          sr := { t.sr with cycle := t.sr.cycle + w64 n }
          runCycles := t.runCycles + n
          est := { t.est with flight := t.est.flight.map fun f => if f.due ≤ t.cyc then { f with rounded := true } else f } })

/-! ### Issue (R189, R192, R196) -/

/-- A strip that takes its next word: the RUN at the head starts with its constants, the position moves on, and a RUN whose last word
this is has none left. -/
def Strip.takeWord (x : Strip) (w : W64 × W64 × W64) : Strip :=
  let x : Strip := match x.run, x.queue with
    | none, q :: l => match q.checked with
      | some (ws, _) =>
        { x with
          k := q.consts x.k
          queue := l
          run := some { base := if q.kload then q.addr + 32 else q.addr, words := ws, left := q.rep, pos := 0, mode := q.mode } }
      | none => x
    | _, _ => x
  { x with
    cur := some w
    run := x.run.bind fun r =>
      if r.pos + 1 < r.words.length then some { r with pos := r.pos + 1 }
      else if 1 < r.left then some { r with pos := 0, left := r.left - 1 }
      else none }

/-- Whether the next word of a strip pops or pushes a channel bound otherwise, once what falls due in the schedule cycle is delivered (R51,
R194, R209): the control and the tokens that decide it are those that the word would issue with. -/
def Tile.bindFault (t : Tile) (e : StripId) (w : W64) : Bool := t.dueRoom && !t.dueFaults e && t.afterDue.wrongBinding e w

/-- The surplus channel that a strip's next word would pop, where it holds a beat to be discarded (R196). -/
def Tile.drainChan (t : Tile) (e : StripId) (w : W64) : Option Nat :=
  (t.afterDue.plan e (wordOp w) (SWord.ofWord w)).short.filter fun k => (t.chanAt k).surplus && !(t.chanAt k).entries.isEmpty

/-- STRIP_WORD_ISSUE: a strip selects its next word when nothing stops the schedule cycle (R192). A word that would pop or push a
channel bound otherwise faults (R51, R386). A surplus channel loses a beat once the strip's next word would pop it, several in one schedule
cycle where they are there: the spec says only that it does so before its next pop (R196; DESIGN CHOICE, log 53). -/
def execStripWordIssue (e : StripId) (s : State) : Res :=
  s.onTile fun x t =>
    match (t.strip e).nextWord t.cyc with
    | none => .next s
    | some w =>
      if t.place != .running then .next s
      else if t.bindFault e w.1 then
        .next ((s.modFocus fun t => t.modStrip e fun y => { y with cur := some w, stopped := true }).pendFault
          s.focus.inst s.focus.tile none
          { code := cChannel, engine := BitVec.ofNat 3 (stripId e), info := w.2.1, page := none })
      else
        match t.drainChan e w.1 with
        | some k => .next (s.modFocus fun t => t.modChan k fun c =>
            { c with entries := c.entries.tail, surplus := !(match c.entries.head? with | some b => b.last | none => false) })
        | none =>
          let clear := s.cycleRuns x t && !t.duesLeft && (t.phase == .issue || s.issueClear x t) && t.wordReady e w.1
          if clear then .next (s.modFocus fun t => { t.modStrip e (fun y => y.takeWord w) with phase := .issue })
          else .next s

/-- What a word sees as it issues: its mode, its operands, and the tag and end bit of its result (R195). -/
structure WordIn where
  mode : BitVec 3
  a : ChanEntry
  b : ChanEntry
  c : ChanEntry
  tag : Byte
  last : Bool

/-- What a word has made when it issues. -/
structure WordOut where
  kind : FlightKind := .value
  outs : List Out
  flags : BitVec 960 := 0
  hard : List Nat := []
  tagt : Option (Byte × Byte) := none
  clear : Option (BitVec 5) := none

/-- The tag of a result (R195): that of the first field that names a channel. -/
def Tile.resultTag (t : Tile) (cs : List (BitVec 6)) : Byte :=
  match cs.find? fun c => (codeChan c).isSome with
  | some c => match codeChan c with
    | some k => match (t.chanAt k).head with | some b => b.tag | none => 0
    | none => 0
  | none => 0

/-- The pops of a word, and the channels that a length mismatch makes surplus (R196). -/
def Tile.popFor (t : Tile) (e : StripId) (w : SWord) (chans : List Nat) (mis : Bool) : Tile :=
  let t := chans.foldl (fun t k => t.modChan k fun c =>
    { c with entries := c.entries.tail, surplus := mis && !(match c.entries.head? with | some b => b.last | none => true) }) t
  let t := if w.pop = 0 then t else t.fifoPop w.pop.toNat (stripId e)
  { t with lenmis := t.lenmis || mis }

/-- The issue of the word selected on a strip (R192-R198): its POP and its channels are popped at once, its operands read, and its
result is due after its latency. -/
def State.issueWord (s : State) (e : StripId) (op : Nat) (latency : Nat) (w : SWord) (k : WordIn → WordOut) : Res :=
  s.onTile fun _ t =>
    let x := t.strip e
    match x.cur with
    | none => .next s
    | some (_, addr, md) =>
      let p := t.plan e op w
      if x.stopped || t.place != .running || p.short.isSome || (w.pop != 0 && t.fifoAt w.pop.toNat (stripId e) == 0) then .next s
      else
        let heads := p.chans.filterMap fun k => (t.chanAt k).head
        let mis := heads.any (·.last) && heads.any fun b => !b.last
        let mode := if w.rm = 0 then md.extractLsb' 0 3 else w.rm
        let sel := if isMerge e op then t.mergeSel e w else w.a
        let r := k { mode := mode, a := t.operandOf x w.ty sel, b := t.operandOf x w.ty w.b, c := t.operandOf x w.ty w.c,
                     tag := t.resultTag (if isMerge e op then [sel] else srcCodes e op w), last := heads.any (·.last) }
        let f : Flight := { due := t.cyc + latency, kind := r.kind, outs := r.outs, flags := r.flags, push := w.push, addr := addr,
                            hard := r.hard, rounded := false, mode := md, lenmis := mis && md.getLsbD 16, tagt := r.tagt,
                            wide := w.ty == 10 }
        .next (s.modFocus fun t =>
          (t.popFor e w p.chans mis).modStrip e fun x =>
            { x with
              cur := none
              free := t.cyc + (if w.ty == 10 then 2 else 1)
              flags := match r.clear with | some m => keepLanes (~~~m) x.flags | none => x.flags
              flight := x.flight ++ [f] })

/-- IDLE: it pops, occupies n schedule cycles, and pushes in the last of them (R197). -/
def execIdle (e : StripId) (w : SWord) (s : State) : Res :=
  s.onTile fun _ t =>
    let x := t.strip e
    match x.cur with
    | none => .next s
    | some (_, addr, md) =>
      if x.stopped || t.place != .running || (w.pop != 0 && t.fifoAt w.pop.toNat (stripId e) == 0) then .next s
      else
        let n := w.imm.toNat
        let f : Flight := { due := t.cyc + (n - 1), kind := .value, outs := [], flags := 0, push := w.push, addr := addr, hard := [],
                            rounded := false, mode := md, lenmis := false, tagt := none, wide := false }
        .next (s.modFocus fun t =>
          let t := if w.pop = 0 then t else t.fifoPop w.pop.toNat (stripId e)
          let t := t.modStrip e fun x =>
            { x with cur := none, free := t.cyc + n, flight := if n ≤ 1 then x.flight else x.flight ++ [f] }
          -- an IDLE of one cycle retires in its issue cycle
          if n ≤ 1 && w.push != 0 then t.fifoPush (stripId e) w.push.toNat else t)

/-! ### The RUN check (R77, R188) -/

/-- Whether a strip word names a masked feature (R72): of the approximate family is every E-strip word with immediate bit 0 set. -/
def stripMasked (feat : W64) (e : StripId) (w : SWord) : Bool :=
  (w.ty == 10 && !feat.getLsbD 2) || (isBlock w.ty && !feat.getLsbD 3)
    || (e == .est && w.imm.getLsbD 0 && !feat.getLsbD 1)

/-- The fault of a strip word at the RUN check: its encoding first, then its features (R213). -/
def wordFault (feat : W64) (e : StripId) (w : W64) : Option Byte :=
  match decodeStrip e w with
  | .error _ => some cIllegal
  | .ok _ => if stripMasked feat e (SWord.ofWord w) then some cMasked else none

/-- What an 8-byte read of a RUN check gives: a word, with where it lies; a wait; or the fault of the read. -/
inductive CheckRead where
  | word (w : W64) (l : Loc)
  | wait
  | bad (f : PFault)
deriving DecidableEq, Repr

/-- A read of a RUN check after its execute check. -/
def State.checkRead (s : State) (e : StripId) (t : Tile) (va : W64) : CheckRead :=
  let eng := BitVec.ofNat 3 (stripId e)
  match s.check s.focus.inst ⟨.fetch, 8, false, true⟩ va with
  | .minor => .wait
  | .fault code page => .bad (accPFault eng code page false va)
  | .loc l =>
    if s.reservedElsewhere s.focus.inst noTile l 8 then .wait
    else if s.badLoc s.focus.inst l 8 then .bad (accPFault eng cUncorrectable none false va)
    else .word (wordOf (s.readOwn s.focus.inst t l 8)) l

/-- The addresses that the check of a RUN reads: its constants, then its code. -/
def RunReq.reads (q : RunReq) : List W64 :=
  (List.range ((if q.kload then 4 else 0) + q.cnt)).map fun k => q.addr + w64 (8 * k)

/-- The code of a RUN stands behind its constants. -/
def RunReq.code (q : RunReq) : W64 := if q.kload then q.addr + 32 else q.addr

/-- What the check of a RUN has read. -/
def RunReq.words (q : RunReq) : List W64 := q.reads.map fun va => (lookupKey va q.part).getD 0

/-- The reads that the check of a RUN has still to make. -/
def RunReq.unread (q : RunReq) : List W64 := q.reads.filter fun va => (lookupKey va q.part).isNone

/-- The first failing word of a RUN. -/
def firstBad (feat : W64) (e : StripId) : W64 → List W64 → Option (Byte × W64)
  | _, [] => none
  | va, w :: ws => match wordFault feat e w with
    | some c => some (c, va)
    | none => firstBad feat e (va + 8) ws

/-- The RUN at the head of a strip's queue changed. -/
def Strip.modHead (x : Strip) (f : RunReq → RunReq) : Strip :=
  { x with queue := match x.queue with | q :: l => f q :: l | [] => [] }

/-- The check of a RUN of which every word has been read (R77): the fault of its first failing word, or the code and the constants that the
strip keeps. -/
def RunReq.verdict (q : RunReq) (feat : W64) (e : StripId) : RunReq :=
  let n := if q.kload then 4 else 0
  let ws := q.words.drop n
  match firstBad feat e q.code ws with
  | some (c, va) => { q with part := [], bad := some { code := c, engine := BitVec.ofNat 3 (stripId e), info := va, page := none } }
  | none => { q with part := [], checked := some (ws, BitVec.ofNat 256 (ofElems 64 ((q.words.take n).map (·.toNat)))) }

/-- RUN_CHECK: one read of the check of the RUN at the head of the strip's queue, the one that the step's choice falls on, or, once all are
made, the check of its words: every read comes before the check of the words, so that a read which fails is reported before an earlier word
that is no instruction (DESIGN CHOICE, log 76). Between two reads other agents move, so that each word is old or new (R211). A failing check
faults once the RUN before it has retired (R188); the strip is idle meanwhile. -/
def execRunCheck (e : StripId) (s : State) : Res :=
  s.onTile fun i t =>
    let x := t.strip e
    let put (s : State) (f : RunReq → RunReq) : State := s.modFocus fun t => t.modStrip e fun y => y.modHead f
    match x.queue with
    | [] => .next s
    | q :: _ =>
      if t.place != .running || x.checkFault || q.checked.isSome then .next s
      else match q.bad with
        | some f =>
          if x.run.isSome || x.cur.isSome || !x.flight.isEmpty || x.stopped then .next s
          else .next ((s.modFocus fun t => t.modStrip e fun y => { y with checkFault := true }).pendFault
            s.focus.inst s.focus.tile none f)
        | none =>
          if q.unread.isEmpty then .next (put s fun q => q.verdict t.sr.feat e)
          else match pickOf (Config.readPick s.now) (q.unread.filter fun va => s.checkRead e t va != .wait) with
            | none => .next s
            | some va => match s.checkRead e t va with
              | .wait => .next s
              | .bad f => .next (put s fun q => { q with part := [], bad := some f })
              | .word w l => .next (put (s.hbmBytes i.tag false l 8) fun q => { q with part := q.part ++ [(va, w)] })

end Sys2Proof.Machine
end

