-- ==== Sys2Proof/Machine/Mxe.lean ====
section
/-! DEFINITION. The matrix engine: slot instructions, MXQ, where tokens come from, its operations and fills (R233-R248). -/

namespace Sys2Proof.Machine

/-! ### Instructions (R236) -/

/-- OCLAIM: the slot's state is checked and changed at commit. -/
def execOclaim (h : Head) (ls : BitVec 5) (slot : BitVec 4) (s : State) : Res :=
  fireWord (.oclaim h ls slot) s none fun f => f.done { eff := some (.oclaim slot, 0) }

/-- ORELEASE: the slot's state is checked and changed at commit. -/
def execOrelease (h : Head) (ls : BitVec 5) (slot : BitVec 4) (s : State) : Res :=
  fireWord (.orelease h ls slot) s none fun f => f.done { eff := some (.orelease slot, 0) }

/-- The checks of an OFILL: each 64 bytes of its range. -/
def Fire.checkFill (f : Fire) (k : Res) : Nat → W64 → Res
  | 0, _ => k
  | n + 1, va => f.checked (.plain .read 64) va false fun _ => f.checkFill k n (va + 64)

/-- OFILL: every byte of its source is checked when it fires; the fill is released at commit. -/
def execOfill (h : Head) (ls : BitVec 5) (slot : BitVec 4) (off : BitVec 24) (s : State) : Res :=
  fireWord (.ofill h ls slot off) s none fun f =>
    let va := f.addr off
    f.checkFill (f.done { eff := some (.ofill slot va, va) }) 96 va

/-- MXQ: the token is queued at commit, unchecked. -/
def execMxq (h : Head) (ls : BitVec 5) (s : State) : Res :=
  fireWord (.mxq h ls) s none fun f => f.done { eff := some (.mxq f.left, 0) }

/-! ### Slot states and order points (R234, R235) -/

/-- The logical state of a slot. -/
def Mxe.logicAt (m : Mxe) (k : BitVec 4) : SlotLogic := m.slots[k.toNat].logic

/-- The logical state that an instruction takes a slot to, or none for a fault (R234). -/
def slotNext : MxWork → SlotLogic → Option SlotLogic
  | .claim _, .free => some .claimed
  | .release _, .claimed => some .free
  | .release _, .loaded => some .free
  | .fill _ _, .claimed => some .loaded
  | .fill _ _, .loaded => some .loaded
  | _, _ => none

/-- Slot work released: its order point, and the logical state it takes the slot to. -/
def Mxe.release (m : Mxe) (w : MxWork) : Mxe :=
  let m := { m with
    work := m.work ++ [(m.ord, w)]
    ord := m.ord + 1
    slots := vmod m.slots w.slot fun x => { x with logic := (slotNext w x.logic).getD x.logic } }
  m.settle

/-- A token released by MXQ: its order point, and the slots Loaded there. -/
def Mxe.enqueue (m : Mxe) (tok : W64) : Mxe :=
  { m with queue := m.queue ++ [{ tok := tok, ord := m.ord, loaded := m.loadedMap }], ord := m.ord + 1 }

/-! ### Taking a token (R241, R242, R247) -/

/-- A pending fault of the MXE, which stops it (R386). -/
def State.mxFault (s : State) (code : Byte) (info : W64) : State :=
  (s.modFocus fun t => { t with mxe := { t.mxe with stopped := true } }).pendFault s.focus.inst s.focus.tile none
    { code := code, engine := 6, info := info, page := none }

/-- MXE_TOKEN_TAKE: the MXE takes and checks the next token, once the occupancy of the last has ended (R242). -/
def execMxeTokenTake (s : State) : Res :=
  s.onTile fun x t =>
    if !t.canTake || t.duesLeft || t.phase == .issue || !s.cycleRuns x t then .next s
    else
      let s := s.modFocus fun t => { t with phase := .due }
      match t.nextToken with
      | .nothing => .next s
      | .drained u => .next (s.modFocus fun _ => { u with phase := .due })
      | .unbound ch => .next (s.mxFault cChannel (w64 ch.toNat))
      | .token tok q? last u =>
        let (q, m) := u.mxe.orderTake tok q?
        let put (m : Mxe) : State := s.modFocus fun _ => { u with mxe := m, phase := .due }
        match tokenFault t.sr.feat tok with
        | some code => .next ((put m.settle).mxFault code tok)
        | none =>
          .next (put (m.hold t.mxe tok q last))

/-! ### Operations (R243-R245) -/

/-- The issue of the token that the MXE holds, when nothing stops the schedule cycle. -/
def State.issueToken (s : State) (k : Tile → Held → State) : Res :=
  s.onTile fun x t =>
    match t.mxe.held with
    | none => .next s
    | some h =>
      if t.mxe.stopped || decide (t.cyc < t.mxe.nextAt) || !s.cycleRuns x t || t.duesLeft || !(t.phase == .issue || s.issueClear x t)
          || !s.mxClear x t then .next s
      else .next (k t h)

/-- A token that has issued: its POP, what is due of it, and the end of its occupancy. -/
def Tile.tokenIssued (t : Tile) (h : Held) (dues : List MxDue) (occ : Nat) : Tile :=
  let t := if tokPop h.q.tok = 0 || h.popped then t else t.fifoPop (tokPop h.q.tok) 6
  { t with phase := .issue, mxe := { t.mxe with held := none, pipe := t.mxe.pipe ++ dues, nextAt := t.cyc + occ } }

/-- MMA, MMAZ and MMAN: OPERAND_SLOT_STATE unless both slots were Loaded at the order point and their last fill succeeded; the
accumulator is due after the occupancy. -/
def mmaWord (op : BitVec 4) (k : MTok) (s : State) : Res :=
  s.issueToken fun t h =>
    let bad (i : BitVec 4) : Bool := !h.q.loaded.getLsbD i.toNat || t.mxe.slots[i.toNat].failed
    if bad k.sa || bad k.sb then s.mxFault cSlotState h.q.tok
    else
      let r := mmaOp op k t.mxe.slots[k.sa.toNat].image t.mxe.slots[k.sb.toNat].image (vget t.mxe.accs k.acc.toNat 0)
      let c := mmaCycles k
      s.modFocus fun t =>
        t.tokenIssued h [{ due := t.cyc + c, q := h.q, acc := some (k.acc, r.1), beat := none, flags := r.2.1, sat := r.2.2,
                           retire := true }] c

/-- MMA: C + A·Bᵀ. -/
def execMma (k : MTok) (s : State) : Res := mmaWord 1 k s

/-- MMAZ: A·Bᵀ. -/
def execMmaz (k : MTok) (s : State) : Res := mmaWord 2 k s

/-- MMAN: C − A·Bᵀ. -/
def execMman (k : MTok) (s : State) : Res := mmaWord 3 k s

/-- ACCZ: the accumulator is zero one schedule cycle after issue (R244). -/
def execAccz (k : MTok) (s : State) : Res :=
  s.issueToken fun _ h => s.modFocus fun t =>
    t.tokenIssued h [{ due := t.cyc + 1, q := h.q, acc := some (k.acc, 0), beat := none, flags := 0, sat := false, retire := true }] 1

/-- ACCOUT: the rows are read and converted at issue; beat b is due at issue + 4 + b; the token retires with the last (R245). -/
def execAccout (k : MTok) (s : State) : Res :=
  s.issueToken fun t h =>
    if (t.chanAt k.dch.toNat).producer != 6 then s.mxFault cChannel h.q.tok
    else
      let r := accoutBeats k (vget t.mxe.accs k.acc.toNat 0) (Config.openHalves s.now)
      let n := r.1.length
      s.modFocus fun t =>
        let due (b : Nat) (beat : Option (BitVec 4 × ChanEntry)) : MxDue :=
          { due := t.cyc + 4 + b, q := h.q, acc := none, beat := beat, flags := if beat.isSome then 0 else r.2, sat := false,
            retire := beat.isNone }
        t.tokenIssued h ((r.1.zipIdx.map fun (d, b) => due b (some (k.dch, ⟨d, k.tag.setWidth 8, b + 1 == n⟩))) ++ [due (n - 1) none]) n

/-- ACCIN: its POP, then at most one beat of its frame a schedule cycle; it issues with the last, checks the end bit, and retires at once
with its PUSH, for which its FIFO must have room (R48, R245). -/
def execAccin (k : MTok) (s : State) : Res :=
  s.issueToken fun t h =>
    if (t.chanAt k.dch.toNat).consumer != 6 then s.mxFault cChannel h.q.tok
    else if t.accinStops k h then s
    else
      let s := s.modFocus fun t =>
        let t := if tokPop h.q.tok = 0 || h.popped then t else t.fifoPop (tokPop h.q.tok) 6
        { t with mxe := { t.mxe with held := some { h with popped := true } }, phase := .issue }
      let c := (t.chanAt k.dch.toNat).drain 4
      match c.head with
      | none => s.modFocus fun t => { t.modChan k.dch.toNat (fun _ => c) with mxe := { t.mxe with nextAt := t.cyc + 1 } }
      | some b =>
        let limit := 32 * (k.ra.toNat + 1)
        let n := h.taken + 1
        let final := n == accinBeats k
        let s := s.modFocus fun t =>
          let t := t.modChan k.dch.toNat fun _ => { c with entries := c.entries.tail, surplus := final && !b.last }
          let m := t.mxe
          { t with mxe := { m with
              accs := vmod m.accs k.acc.toNat fun a => accinWrite a (192 * h.taken) limit b.data
              held := some { h with popped := true, taken := n }
              nextAt := t.cyc + 1 } }
        if !final && !b.last then s
        else
          let mis := !(final && b.last)
          let s := s.modFocus fun t =>
            let t := t.tokenIssued { h with popped := true } [] 1
            let t := if tokPush h.q.tok = 0 then t else t.fifoPush 6 (tokPush h.q.tok)
            { t with lenmis := t.lenmis || mis, mxe := t.mxe.settle }
          if mis && k.lenfault == 1 then s.mxFault cLength h.q.tok else s

/-- MXE_OPERATION_RETIRE: what is due of the MXE but beats: accumulators, flags, PUSH (R243). -/
def execMxeOperationRetire (s : State) : Res :=
  s.onTile fun x t =>
    if !(t.mxDue.any fun d => d.beat.isNone) || !s.cycleRuns x t then .next s
    else .next (s.modFocus fun t => { t.mxDeliverDue false with phase := .due })

/-- ACCOUT_BEAT_PUSH: the beats of ACCOUT that are due (R245). -/
def execAccoutBeatPush (s : State) : Res :=
  s.onTile fun x t =>
    if !(t.mxDue.any fun d => d.beat.isSome) || !s.cycleRuns x t then .next s
    else .next (s.modFocus fun t => { t.mxDeliverDue true with phase := .due })

/-! ### Fills (R237) -/

/-- The first piece of work of a slot, when it is a fill that nothing earlier holds back. -/
def Mxe.fillReady (m : Mxe) (slot : BitVec 4) : Option (Nat × W64) :=
  match m.work.find? fun w => w.2.slot == slot.toNat with
  | some (o, .fill _ va) => if m.earlier slot.toNat o then none else some (o, va)
  | _ => none

/-- The fill of a slot that has ended, with all its words written or with a fault; what it wrote stays. -/
def Tile.fillEnd (t : Tile) (slot : BitVec 4) (ord : Nat) (failed : Bool) : Tile :=
  let m := { t.mxe with
    work := t.mxe.work.filter fun w => w.1 != ord
    slots := vmod t.mxe.slots slot.toNat fun x => { x with failed := failed, filled := [] } }
  { t with mxe := m.settle }

/-- A slot with one of its 768 words written by its fill. -/
def OpSlot.put (x : OpSlot) (k : Nat) (w : W64) : OpSlot :=
  { x with
    image := (x.image &&& ~~~((w64 (2 ^ 64 - 1)).setWidth 49152 <<< (64 * k))) ||| (w.setWidth 49152 <<< (64 * k))
    filled := x.filled ++ [k] }

/-- The words that the fill of a slot has still to read. -/
def OpSlot.unread (x : OpSlot) : List Nat := (List.range 768).filter fun k => !x.filled.contains k

/-- Whether the read of a word of a fill can go on now. -/
def State.fillFree (s : State) (x : Inst) (slot : BitVec 4) (va : W64) : Bool :=
  match s.checkRange s.focus.inst x.tag 2 .read false va 8 8 with
  | .wait => false
  | .bad _ => true
  | .ok ps => ps.all (s.readFree s.focus.inst s.focus.tile (whoFill slot) x.tag)

/-- FILL_COMPLETE: once nothing ordered before it holds it back, the fill of a slot reads one of its words, the one that the step's choice
falls on, and writes it to the slot; it faults; or it ends with all its words written (R235, R237). -/
def execFillComplete (slot : BitVec 4) (s : State) : Res :=
  s.onTile fun x t =>
    if t.place != .running then .next s
    else match t.mxe.fillReady slot with
      | none => .next s
      | some (ord, va) =>
        let who := whoFill slot
        let fail (s : State) (f : PFault) : Res :=
          .next (((s.tookAll s.focus.inst s.focus.tile who x.tag).modFocus fun t => t.fillEnd slot ord true).pendFault
            s.focus.inst s.focus.tile none f)
        let left := t.mxe.slots[slot.toNat].unread
        if left.isEmpty then .next (s.modFocus fun t => t.fillEnd slot ord false)
        else match pickOf (Config.readPick s.now) (left.filter fun k => s.fillFree x slot (va + w64 (8 * k))) with
          | none => .next s
          | some k => match s.checkRange s.focus.inst x.tag 2 .read false (va + w64 (8 * k)) 8 8 with
            | .wait => .next s
            | .bad f => fail s f
            | .ok ps => match s.readPieces s.focus.inst s.focus.tile who x.tag ps with
              | (.wait, s) => .next s
              | (.failed c p, s) => fail s (readPFault 2 c p (va + w64 (8 * k)))
              | (.bytes bs, s) =>
                .next ((s.tookPieces s.focus.inst s.focus.tile who x.tag ps).modFocus fun t =>
                  { t with mxe := { t.mxe with slots := vmod t.mxe.slots slot.toNat fun y => y.put k (wordOf bs) } })

end Sys2Proof.Machine
end

