-- ==== Sys2Proof/Machine/Fetch.lean ====
section
/-! DEFINITION. Fetching, checking and issuing a block, and finding one that can never commit (R27, R28, R36, R45, R59, R60). -/

namespace Sys2Proof.Machine

/-! ### The checks of a block (R27, R28) -/

/-- Whether a target is one that its receiver takes (R27, R62): a slot of the block, not the sender's own, and an operand or predicate
that the instruction there requires. Where the word of that slot is itself no instruction, the rules do not say whether its sender breaks them
too; the model does not hold it against the sender, so that sr.info names the other slot (DESIGN CHOICE, log 76). -/
def targetTaken (is : List (Option Instr)) (own : Nat) : Option Target → Bool
  | none => true
  | some g =>
    decide (g.slot.toNat < is.length) && g.slot.toNat != own &&
      (match (is[g.slot.toNat]?).join with
        | none => true
        | some i => match i.shape, g.kind with
          | .seq _ m, .left => m.left
          | .seq _ m, .right => m.right
          | .seq h _, .pred => h.pred != .always
          | _, _ => false)

/-- The bit of sr.feat that a sequencer opcode needs (R72). -/
def opFeature (op : Nat) : Option Nat :=
  if 0x78 ≤ op ∧ op ≤ 0x7B then some 0
  else if op = 0x64 then some 4
  else if op = 0x90 then some 5
  else if op = 0x99 then some 6
  else if op = 0x9A then some 7
  else none

/-- The fault of one word of a block, where it has one. -/
def wordFetchFault (feat : W64) (is : List (Option Instr)) (slot : Nat) : Option Instr → Option Byte
  | none => some cIllegal
  | some i => match i.shape with
    | .seq h m =>
      if !(targetTaken is slot h.t0 && targetTaken is slot h.t1) then some cIllegal
      else match opFeature m.op.toNat with
        | some b => if feat.getLsbD b then none else some cMasked
        | none => none
    | _ => some cIllegal

/-- The first word that fails, in ascending slot order, with its fault. -/
def firstBadWord (feat : W64) (is : List (Option Instr)) : Option (Byte × Nat) :=
  (is.zipIdx).findSome? fun (i, k) => (wordFetchFault feat is k i).map fun c => (c, k)

/-- A set of small numbers as a mask. -/
def maskOf (l : List (BitVec 5)) : BitVec 32 := l.foldl (fun m g => m ||| (1#32 <<< g.toNat)) 0

/-- The LSIDs that side-effecting instructions carry (side) or that loads carry. -/
def lsidsOf (side : Bool) (is : List Instr) : List (BitVec 5) :=
  is.filterMap fun i => match i.shape with
    | .seq _ m => if m.load == side then none else m.ls
    | _ => none

/-- Whether the masks of a header fit the words of its block (R27, R59). -/
def masksFit (hdr : BitVec 128) (is : List Instr) : Bool :=
  let reads := maskOf (is.filterMap fun i => match i with | .read _ g => some g | _ => none)
  let writes := maskOf (is.filterMap fun i => match i with | .write _ g => some g | _ => none)
  let side := maskOf (lsidsOf true is)
  let loads := maskOf (lsidsOf false is)
  let commitG := maskOf (is.filterMap fun i => match i.shape with | .seq _ m => m.g | _ => none)
  let settle := (is.filterMap fun i => match i with | .null _ m => some m | _ => none).foldl (· ||| ·) 0
  hdr.extractLsb' 80 32 == reads && hdr.extractLsb' 48 32 == writes && hdr.extractLsb' 16 32 == side
    && (side &&& loads) == 0 && (writes &&& commitG) == 0 && (settle &&& ~~~side) == 0

/-- Whether the marker is right and the reserved fields of a header are zero (R59). -/
def headerOk (hdr : BitVec 128) : Bool := fld hdr 0 4 == 0xA && fld hdr 9 7 == 0 && fld hdr 112 16 == 0

/-- The slots of a block with this header (R60). -/
def slotCount (hdr : BitVec 128) : Nat := 8 * (fld hdr 4 4 + 1)

/-- A block that has been fetched and not issued. -/
def Block.fetched (va : W64) (hdr : BitVec 128) (ws : List W64) : Block :=
  { header := va, hdr := hdr, words := ws, slots := ws.map fun _ => SlotSt.empty, issued := false, settled := [], effs := [],
    loads := [], writes := [], branch := none, trap := none, fence := none, sbar := 0, clearFlags := 0, checking := false, perform := none }

/-! ### Fetching (R27, R43, R116) -/

/-- Whether a location lies in a tile's own slice, with which its block cache is coherent (R43). -/
def Loc.ownSlice (ti : Nat) : Loc → Bool
  | .slice k _ => k == ti
  | _ => false

/-- Whether the last committed block executed a FENCE that makes new code fetchable (R43, R160). -/
def Seq.refetches (q : Seq) : Bool := q.fence == some .package || q.fence == some .system

/-- The word that the block cache of a tile gives for a location at a step: one that it keeps, where no store of its own and no FENCE has made
it stale (R43, log 34). -/
def Tile.keptWord (t : Tile) (now k : Nat) (l : Loc) : Option W64 :=
  match t.kept.find? fun p => p.1 == l with
  | none => none
  | some p => if t.seq.refetches || sbufOverlaps t.sbuf l 8 || !Config.useKept now k then none else some p.2

/-- The words of a block that the block cache of a tile keeps after its fetch, before those it kept: at most 8 KiB (R44). -/
def State.keepBlock (s : State) (i ti : Nat) (t : Tile) (va : W64) (ws : List W64) : List (Loc × W64) :=
  let new := ws.zipIdx.filterMap fun (w, k) => match s.check i ⟨.fetch, 8, false, true⟩ (va + w64 (8 * k)) with
    | .loc l => if l.ownSlice ti then none else some (l, w)
    | _ => none
  let old := if t.seq.refetches then [] else t.kept.filter fun p => !(new.any fun q => q.1 == p.1)
  (new ++ old).take 1024

/-- What the fetch of some words gives: the words; or the access must wait; or a fault with sr.info and a page fault record. -/
inductive FetchRead where
  | words (ws : List W64)
  | wait
  | fault (code : Byte) (info : W64) (page : Option (BitVec 192))

/-- n words read for the fetch of a tile, in ascending address order: the bytes at their homes with the tile's own stores over them
(R43). -/
def State.fetchWords (s : State) (i ti : Nat) (t : Tile) : Nat → W64 → FetchRead
  | 0, _ => .words []
  | n + 1, va =>
    match s.seqCheck i ⟨.fetch, 8, false, true⟩ va with
    | .minor => .wait
    | .fault code page => .fault code (accInfo 0 false va) (page.map fun p => pageContent p code 1 false va)
    | .loc l =>
      let kept := t.keptWord s.now n l
      if kept.isNone && s.reservedElsewhere i ti l 8 then .wait
      else if kept.isNone && s.badLoc i l 8 && !ownBytes t.sbuf [] 0 l 8 then .fault cUncorrectable (accInfo 0 false va) none
      else match s.fetchWords i ti t n (va + 8) with
        | .words ws => .words (kept.getD (wordOf (s.readOwn i t l 8)) :: ws)
        | r => r

/-- The bytes that the fetch of n words reads from HBM, counted (R271): those of words that the block cache does not give. -/
def State.countFetch (s : State) (i ti : Nat) (t : Tile) (tag : Byte) (n : Nat) (va : W64) : State :=
  (List.range n).foldl (fun s k => match s.seqCheck i ⟨.fetch, 8, false, true⟩ (va + w64 (8 * k)) with
    | .loc l => if (t.keptWord s.now (n - 1 - k) l).isSome then s else s.hbmBytes tag false l 8
    | _ => s) s

/-- A fault of a fetch (class F). -/
def State.fetchFault (s : State) (va : W64) (code : Byte) (info : W64) (page : Option (BitVec 192)) : Res :=
  .next (s.takeFault s.focus.inst s.focus.tile ⟨code, .f, 1, info, va, page⟩)

/-- The words and masks of a block whose bytes have been read (R28 points 5 and 6). -/
def State.fetchChecked (s : State) (feat : W64) (va : W64) (hdr : BitVec 128) (ws : List W64) (kept : List (Loc × W64)) : Res :=
  let is := ws.map fun w => match decodeSeq w with | .ok i => some i | .error _ => none
  match firstBadWord feat is with
  | some (code, slot) => s.fetchFault va code (w64 slot) none
  | none =>
    if masksFit hdr (is.filterMap id) then
      .next (s.modFocus fun t => { t with kept := kept, seq := { t.seq with block := some (Block.fetched va hdr ws), turn := none } })
    else s.fetchFault va cHeader 0 none

/-- The fetch of the block at an address (R28). -/
def State.fetchAt (s : State) (tag : Byte) (t : Tile) (va : W64) : Res :=
  if fld va 55 9 != 0 then s.fetchFault va cTranslation (accInfo 0 false va) (some (pageContent (0, 0, false, 1) cTranslation 1 false va))
  else if fld va 0 4 != 0 then s.fetchFault va cMisaligned 0 none
  else match s.fetchWords s.focus.inst s.focus.tile t 2 va with
    | .wait => .next s
    | .fault c info page => s.fetchFault va c info page
    | .words hs =>
      let s := s.countFetch s.focus.inst s.focus.tile t tag 2 va
      let hdr : BitVec 128 := hs.getD 1 0 ++ hs.getD 0 0
      if !headerOk hdr then s.fetchFault va cHeader 0 none
      else match s.fetchWords s.focus.inst s.focus.tile t (slotCount hdr) (va + 16) with
        | .wait => .next s
        | .fault c info page => s.fetchFault va c info page
        | .words ws => (s.countFetch s.focus.inst s.focus.tile t tag (slotCount hdr) (va + 16)).fetchChecked t.sr.feat va hdr ws (s.keepBlock s.focus.inst s.focus.tile t va (hs ++ ws))

/-- Whether the sequencer of a tile may fetch its next block: it runs, stands between blocks, and is not parked, waiting for an
invalidation (R357), at an end (R117) or at a delivery point with a fault pending (R383). -/
def Tile.mayFetch (t : Tile) : Bool :=
  t.place == .running && t.seq.started && !t.seq.finished && t.seq.block.isNone && t.seq.park.isNone && !t.seq.invWait
    && (!t.seq.halted || t.handler) && !t.deliverable

/-- BLOCK_FETCH: the block at next is read and checked before any of its instructions fires; a handler's waits for the page fault record
of its fault (R355). -/
def execBlockFetch (s : State) : Res :=
  s.onTile fun x t =>
    if t.mayFetch && !s.recordDue x.tag s.focus.inst s.focus.tile then s.fetchAt x.tag t t.seq.next else .next s

/-! ### Issue (R29, R45) -/

/-- The scope of the FENCEs of a block that no predicate guards: they fire at block issue, before any load can (R160). -/
def Block.fenceAtIssue (b : Block) : Option Scope :=
  b.words.foldl (fun m w => match decodeSeq w with
    | .ok (.fence h scope) => if h.pred == .always then wider m (some scope) else m
    | _ => m) b.fence

/-- A block that issues. -/
def Block.start (b : Block) : Block := { b with issued := true, fence := b.fenceAtIssue }

/-- The block of the tile in focus issued. -/
def State.issueBlock (s : State) (b : Block) : Res :=
  .next (s.modFocus fun t => { t with seq := { t.seq with block := some b.start, turn := none } })

/-- BLOCK_ISSUE: a fetched block that does not serialise issues; from then on its instructions fire as their tokens are there. -/
def execBlockIssue (s : State) : Res :=
  s.onTile fun _ t => match t.seq.block with
    | none => .next s
    | some b =>
      if b.issued || b.serialise || t.place != .running || t.deliverable then .next s
      else s.issueBlock b

/-- Whether the MXE has retired all that was released to it (R45). A token taken from a channel counts too, which the list of R45 does not
name and does not leave out: the model's choice (DESIGN CHOICE, log 22). -/
def Mxe.retired (m : Mxe) : Bool :=
  m.queue.isEmpty && m.beat.isEmpty && m.held.isNone && m.pipe.isEmpty && m.work.isEmpty

/-- Whether a stream the tile started has ended. -/
def Stream.retired (x : Stream) : Bool := x.st != .running && x.queue.isEmpty

/-- Whether a copy engine holds a packet that a tile released. -/
def CpEngine.holds (e : CpEngine) (i t : Nat) : Bool :=
  let mine (p : CpPkt) : Bool := p.inst == i && p.tile == t && p.queue.isNone
  e.waiting.any mine || e.active.any fun a => mine a.p

/-- Whether all engine work that a tile has released has retired, with its completion effects (R45, R117). -/
def State.workRetired (s : State) (i ti : Nat) (t : Tile) : Bool :=
  t.ast.retired && t.est.retired && t.pst.retired && t.mxe.retired && t.stream.toList.all Stream.retired && t.halos.isEmpty
    && s.copy.toList.all (fun e => !e.holds i ti)
    && (match s.inst? i with
      | none => true
      | some x => match s.ctx? x.tag with
        | none => true
        | some c => !(c.migs.any fun m => m.inst == i && m.tile == ti) && c.sessions.toList.all fun k => k.stores.all fun q => !(q.inst == i && q.tile == ti && q.who != whoStore))

/-- SERIALISE_ISSUE: a block with its serialise bit issues once the tile's earlier engine work has retired. -/
def execSerialiseIssue (s : State) : Res :=
  s.onTile fun _ t => match t.seq.block with
    | none => .next s
    | some b =>
      if b.issued || !b.serialise || t.place != .running || t.deliverable
        || !s.workRetired s.focus.inst s.focus.tile t then .next s
      else s.issueBlock b

/-! ### Blocks that cannot commit (R36) -/

/-- The readiness of a slot of a block. -/
def Block.readyAt (b : Block) (k : Nat) : Ready :=
  match b.words[k]?, b.slots[k]? with
  | some w, some st => match decodeSeq w with
    | .ok i => match i.shape with
      | .seq h m => readiness h m st
      | _ => .wait
    | .error _ => .wait
  | _, _ => .wait

/-- The slots whose instructions hold all their tokens and have not fired, in ascending order (R44). -/
def Block.readySlots (b : Block) : List Nat := (List.range b.words.length).filter fun j => b.readyAt j != .wait

/-- Whether no instruction of a block can fire any more (R36): those that hold their tokens are loads which R34 holds back for ever. -/
def State.nothingFires (s : State) (i : Nat) (b : Block) : Bool := !b.unfired.any (s.mayFire i b)

/-- The conditions of R36. -/
def Block.settledAll (b : Block) : Bool :=
  (maskLsids b.storeMask).all (fun ls => b.settled.any fun p => p.1 == ls)
    && (maskLsids b.writeMask).all (fun g => b.writes.any fun p => p.1 == g)
    && b.branch.isSome

/-- BLOCK_MALFORMED_DETECT: nothing of the block can fire, nothing is outstanding, and R36 does not hold. -/
def execBlockMalformedDetect (s : State) : Res :=
  s.onTile fun _ t => match t.seq.block with
    | none => .next s
    | some b =>
      if !b.issued || b.settledAll || !s.nothingFires s.focus.inst b || t.place != .running then .next s
      else .next (s.takeFault s.focus.inst s.focus.tile ⟨cMalformed, .x, 1, 128, b.header, none⟩)

end Sys2Proof.Machine
end

