-- ==== Sys2Proof/Machine/Share.lean ====
section
/-! DEFINITION. Physical tiles and plots shared between contexts: which context wants those that others hold, and stopping a tile or a plot
set (R41, R258, R264-R266). -/

namespace Sys2Proof.Machine

/-! ### What contexts hold and want (R258, R266) -/

/-- The index that stands for no physical tile, of a finished tile whose place another instance has taken (R309). -/
def noPhys : Nat := 4096

/-- The physical tiles that a context holds: those under its tag, neither preloaded nor mapped out. -/
def State.heldBy (s : State) (tag : Byte) : Nat := s.phys.countP fun p => p.2.tag == tag && p.2.preload.isNone && !p.2.mappedOut

/-- The physical tiles that may be allocated and that no context holds: tag 0x00, or only preloaded (R288). -/
def State.freeTiles (s : State) : Nat :=
  s.tileCount - s.phys.countP fun p => decide (p.1 < s.tileCount) && ((p.2.tag != 0 && p.2.preload.isNone) || p.2.mappedOut)

/-- Those of them that carry tag 0x00. -/
def State.idleTiles (s : State) : Nat :=
  s.tileCount - s.phys.countP fun p => decide (p.1 < s.tileCount) && (p.2.tag != 0 || p.2.mappedOut)

/-- The plots that carry tag 0x00 and may be allocated. -/
def State.idlePlots (s : State) : Nat :=
  s.plotCount - s.plots.countP fun p => decide (p.1 < s.plotCount) && (p.2.tag != 0 || p.2.quarantined)

/-- How many physical tiles a context lacks of its grant. -/
def State.tilesShort (s : State) (c : Context) : Nat :=
  match c.grant with | some g => g.tiles - s.heldBy c.tag | none => 0

/-- How many plots a context lacks of its grant. -/
def State.plotsShort (s : State) (c : Context) : Nat :=
  match c.grant with | some g => g.plots - s.plots.countP (fun p => p.2.tag == c.tag && !p.2.quarantined) | none => 0

/-- The kernel reference of the LAUNCH at the head of a queue. -/
def Queue.launchWaits (x : Queue) : Option Nat := match x.buf with | p :: _ => if pkCode p.1 = 1 then some (pkKref p.1) else none | [] => none

/-- The plots of each fabric operator of a kernel. -/
def Kernel.setSizes (k : Kernel) : List Nat := (k.nodes.filter (·.fabric)).filterMap fun n => (k.sets[n.entry]?).map (·.plots)

/-- The free granted plots of a context (R306). -/
def State.freePlots (s : State) (tag : Byte) : List Nat :=
  let used := (s.insts.filter fun x => x.st != .retired).flatMap fun x => x.nodes.flatMap (·.plots)
  (List.range s.plotCount).filter fun p => (s.plotAt p).tag == tag && !(s.plotAt p).quarantined && !used.contains p

/-- The plots of a die that no context holds. -/
def State.idleOn (s : State) (d : Nat) : List Nat :=
  ((List.range 128).map fun k => 128 * d + k).filter fun p => (s.plotAt p).tag == 0 && !(s.plotAt p).quarantined

/-- Whether a context is incoming (R266): it runs, holds fewer tiles than its grant, and needs one for a saved tile, for an instance,
or for a LAUNCH at the head of a queue. -/
def State.wantsTile (s : State) (c : Context) : Bool :=
  c.active && s.tilesShort c != 0
    && (s.insts.any (fun x => x.tag == c.tag && x.st != .retired && (x.st == .submitted || x.tiles.any fun t => t.place == .saved))
        || c.queues.toList.any fun q => q.launchWaits.isSome)

/-- The sizes of the plot sets of a context that are to be placed: of its instances, and of the LAUNCHes at the heads of its queues. -/
def State.setsWanted (s : State) (c : Context) : List Nat :=
  ((s.insts.filter fun x => x.tag == c.tag && x.st != .retired).flatMap fun x =>
      if x.st == .submitted then x.kernel.setSizes else (x.nodes.filter fun n => !n.placed && !n.finished).map fun n => n.set.plots)
    ++ c.queues.toList.flatMap fun q => match q.launchWaits.bind fun k => lookupKey k c.krefs with
      | some k => k.setSizes
      | none => []

/-- The same of plots. -/
def State.wantsPlot (s : State) (c : Context) : Bool :=
  c.active && s.plotsShort c != 0 && !(s.setsWanted c).isEmpty

/-- Whether a context needs a tile that another holds (R258). -/
def State.waitsForTile (s : State) (c : Context) : Bool := s.wantsTile c && s.freeTiles == 0

/-- Whether a plot set of so many plots goes on one die on what a context holds free and what no context holds. -/
def State.setFits (s : State) (c : Context) (n : Nat) : Bool :=
  (List.range s.dies).any fun d =>
    decide (n ≤ ((s.freePlots c.tag).filter fun p => p / 128 == d).length + Nat.min (s.idleOn d).length (s.plotsShort c))

/-- Whether a context needs a plot that another holds (R258). -/
def State.waitsForPlot (s : State) (c : Context) : Bool := s.wantsPlot c && (s.setsWanted c).any fun n => !s.setFits c n

/-- Whether a context contends (R258): what it needs is held by other contexts. -/
def State.contends (s : State) (c : Context) : Bool := s.waitsForTile c || s.waitsForPlot c

/-- Of some contexts, the one with the largest deficit, ties to the lower tag. -/
def mostOwed (l : List Context) : Option Context :=
  l.foldl (fun best c => match best with
    | none => some c
    | some b => if b.deficit < c.deficit ∨ b.deficit = c.deficit ∧ c.tag.toNat < b.tag.toNat then some c else some b) none

/-- The waiting context with the largest deficit, other than one. -/
def State.rival (s : State) (tag : Byte) : Option Context := mostOwed (s.ctxs.filter fun c => c.tag != tag && s.contends c)

/-- The context other than one that waits for tiles, with the largest deficit. -/
def State.tileWaiter (s : State) (tag : Byte) : Option Context := mostOwed (s.ctxs.filter fun c => c.tag != tag && s.waitsForTile c)

/-- The same of plots. -/
def State.plotWaiter (s : State) (tag : Byte) : Option Context := mostOwed (s.ctxs.filter fun c => c.tag != tag && s.waitsForPlot c)

/-- Whether a context may be placed on what others hold: no waiting context comes before it. -/
def State.comesFirst (s : State) (c : Context) : Bool :=
  !s.contends c || (match mostOwed (s.ctxs.filter s.contends) with | some b => b.tag == c.tag | none => true)

/-- Whether the slice of a context has elapsed on what has run for some ticks since it was last placed (R258). -/
def Context.sliceOver (c : Context) (served : Option Nat) : Bool := served.any fun n => decide (c.slice * Config.refPeriod ≤ n)

/-- The pre-empted tiles of a context whose state is resident, by instance and logical id. -/
def State.residents (s : State) (tag : Byte) : List (Nat × Nat) :=
  (s.insts.zipIdx).flatMap fun (x, i) =>
    if x.tag == tag && x.st != .retired then
      (x.tiles.zipIdx).filterMap fun (t, k) => if t.place == .resident && t.phys != noPhys then some (i, k) else none
    else []

/-- Whether a tile or a plot set that the schedule has stopped stays stopped: a context still waits for it (R258). -/
def givesWay (served : Option Nat) (waiter : Option Context) : Bool := served.isNone && waiter.isSome

/-! ### Stopping tiles and plot sets (R41, R264, R265) -/

/-- A tile stopped at a moment of R41: its block is discarded, and its state stays resident; none while a commit has begun. -/
def State.stopTile (s : State) (i ti : Nat) : Option State :=
  match s.tile? i ti with
  | none => none
  | some t =>
    if t.place != .running || t.seq.block.any Block.committing then none
    else
      let now := s.now
      let s := match t.seq.block with | some b => s.discardBlock i ti b.header | none => s
      some (s.modTile i ti fun t => { t with place := .resident, since := now })

/-- A pre-emption by Hazel's schedule, which counts (R258, R271). -/
def State.preemptTile (s : State) (i ti : Nat) : Option State :=
  match s.inst? i, s.stopTile i ti with
  | some x, some s => some ((s.modTile i ti fun t => { t with served := none }).count x.tag 0x18 1)
  | _, _ => none

/-- A tile pre-empted where it can be. -/
def State.tryPreempt (s : State) (i ti : Nat) : State := (s.preemptTile i ti).getD s

/-- A plot set that is to stop (R265). -/
def FabNode.halt (now : Nat) (n : FabNode) : FabNode :=
  if n.pre.isSome || n.finished || !n.placed then n else { n with pre := some 0, since := now }

/-- The plot sets of an instance that are to stop. -/
def State.haltSets (s : State) (i : Nat) : State :=
  s.modInst i fun x => { x with nodes := x.nodes.map (FabNode.halt s.now) }

/-- The plot sets of a context that are to stop. -/
def State.haltAll (s : State) (tag : Byte) : State :=
  { s with insts := s.insts.map fun (x : Inst) => if x.tag == tag then { x with nodes := x.nodes.map (FabNode.halt s.now) } else x }

end Sys2Proof.Machine
end

