-- ==== Sys2Proof/Machine/Commit.lean ====
section
/-! DEFINITION. Committing a block: its wait, check and perform phases (R37-R40, R140, R144, R151, R154-R157), and the stores that a
tile has committed. -/

namespace Sys2Proof.Machine

/-! ### Committed stores (R144) -/

/-- A tile whose block cache keeps no word of some bytes that the tile itself has written (R43). -/
def Tile.unkeep (t : Tile) (l : Loc) (n : Nat) : Tile := { t with kept := t.kept.filter fun p => !overlaps p.1.place 8 l.place n }

/-- A committed store performed at its home, with the wake-ups and the full/empty bit it gives (R142, R153, R158); the tile's block cache
is coherent with it (R43). -/
def State.performStore (s : State) (i ti : Nat) (tag : Byte) (p : PStore) : State :=
  match p with
  | .plain l n d _ _ => ((s.writeLoc i l (bytesOf n d)).hbmBytes tag true l n).modTile i ti fun t => t.unkeep l n
  | .full l n d =>
    let s := (s.writeLoc i l (bytesOf n d)).modTile i ti fun t => t.unkeep l n
    match l with
    | .slice t o => s.modTile i t fun y => y.setFull (o / 64) true
    | _ => s
  | .empty l => match l with
    | .slice t o => s.modTile i t fun y => y.setFull (o / 64) false
    | _ => s.modTile i ti id

/-- The committed stores of a tile to the peer of a session that was aborted are lost: the tile takes PEER_LOST once, with engine 0
(R374). -/
def State.loseStores (s : State) (i ti : Nat) (k : BitVec 5) : State :=
  match s.tile? i ti with
  | none => s
  | some t =>
    let goes (p : PStore) : Bool := match p.loc with | .remote j _ => j == k | _ => false
    if t.sbuf.any goes then
      (s.modTile i ti fun t => { t with sbuf := t.sbuf.filter fun p => !goes p }).pendFault i ti none
        { code := cPeerLost, engine := 0, info := w64 k.toNat, page := none }
    else s

/-- The store at the head of a tile's committed stores is sent to its peer, where it goes to one and has not been sent (R370, R371);
one that finds its session aborted is lost. The number bounds the sessions that may be lost so. -/
def State.sendHeads : Nat → State → Nat → Nat → State
  | 0, s, _, _ => s
  | n + 1, s, i, ti =>
    match s.inst? i, s.tile? i ti with
    | some x, some t => match t.sbuf with
      | .plain (.remote k v) m d _ _ :: _ =>
        let q : Ask := ⟨i, ti, whoStore, v⟩
        match s.session? x.tag k with
        | none => s
        | some se =>
          if !se.opened then sendHeads n (s.loseStores i ti k) i ti
          else if se.stores.any (fun a => a.inst == i && a.tile == ti && a.who == whoStore) then s
          else s.storePeer x.tag k q (sizeOf m) d
      | _ => s
    | _, _ => s

/-- The same for as many sessions as a context has. -/
def State.sendHead (s : State) (i ti : Nat) : State := State.sendHeads 33 s i ti

/-- Replacing the committed stores of a tile. -/
def State.setSbuf (s : State) (i ti : Nat) (l : List PStore) : State := (s.modTile i ti fun t => { t with sbuf := l }).sendHead i ti

/-- A store released to memory. -/
def State.pushStore (s : State) (i ti : Nat) (p : PStore) : State :=
  (s.modTile i ti fun t => { t with sbuf := t.sbuf ++ [p] }).sendHead i ti

/-- The bytes that a committed store touches at its home: the granule of an EMPTY. -/
def PStore.extent : PStore → Nat
  | .plain _ n _ _ _ => n
  | .full _ n _ => n
  | .empty _ => 64

/-- A tile's committed stores performed in order as far as nothing holds them back: whether all are, and the state. own: what needs them
waits for no store to a peer (R371), but those of the package keep their places behind such stores (R144; log 85). -/
def State.drain (own : Bool) (i ti : Nat) : Nat → State → Bool × State
  | 0, s => (true, s)
  | n + 1, s =>
    match s.inst? i, s.tile? i ti with
    | some x, some t => match t.sbuf with
      | [] => (true, s)
      | p :: rest =>
        if own && t.sbuf.all (·.loc.isRemote) then (true, s)
        else if p.loc.isRemote || s.reservedElsewhere i ti p.loc p.extent then (false, s.sendHead i ti)
        else State.drain own i ti n ((s.performStore i ti x.tag p).setSbuf i ti rest)
    | _, _ => (true, s)

/-- Draining all that a tile holds. -/
def State.drainAll (s : State) (own : Bool) (i ti : Nat) : Bool × State :=
  State.drain own i ti (match s.tile? i ti with | some t => t.sbuf.length + 1 | none => 0) s

/-! ### The effects of a block in LSID order (R37) -/

/-- The effects of a block in ascending LSID. -/
def Block.inOrder (b : Block) : List Fired := (List.range 32).flatMap fun k => b.effs.filter fun e => e.ls.toNat == k

/-- Whether an effect is a commit-time operation at a memory location, for which the stores before it must be performed (R151). -/
def Eff.atHome : Eff → Bool
  | .atomic _ _ _ _ _ _ => true
  | .waita _ _ _ => true
  | .take _ _ _ => true
  | _ => false

/-- Which stores an effect's release waits for (R149, R151, R330, R371): none; the tile's own package's; or all. -/
inductive After where
  | nothing | localStores | stores
deriving DecidableEq, Repr

/-- The stores that must be performed before an effect is released. -/
def Eff.after : Eff → After
  | .take _ _ _ => .stores
  | .atomic _ _ _ _ _ _ => .stores
  | .sdef _ _ => .stores
  | .sgo _ => .stores
  | .cpy _ => .stores
  | .halo _ => .stores
  | .run _ _ _ _ _ => .stores
  | .ofill _ _ => .stores
  | .enq _ _ => .stores
  | .tlbi _ _ => .stores
  | .pmig _ _ _ => .stores
  | .semp _ _ _ => .localStores
  | .bara _ _ => .localStores
  | .bar _ => .localStores
  | .barc _ _ => .localStores
  | _ => .nothing

/-- Whether an effect is a store's. -/
def Eff.isStore : Eff → Bool
  | .store _ _ _ => true
  | .storeFull _ _ _ => true
  | .empty _ => true
  | _ => false

/-- A location rounded down to n bytes. -/
def Loc.align (l : Loc) (n : Nat) : Loc :=
  match l with
  | .slice t o => .slice t (o / n * n)
  | .hbm p => .hbm (p / n * n)
  | .host h => .host (h / n * n)
  | .remote i v => .remote i v

/-- The bytes that an effect reserves (R140): the word of an atomic or a WAITA, the granule of an LDF.TAKE; and the bytes of a store
that is performed before one of them (log 19). -/
def Eff.reserves : Eff → Option (Loc × Nat)
  | .atomic _ l _ _ _ _ => if l.isRemote then none else some (l.align 8, 8)
  | .waita l _ _ => some (l.align 8, 8)
  | .take l _ _ => some (l.align 64, 64)
  | .store l n _ => if l.isRemote then none else some (l, n)
  | .storeFull l _ _ => some (l.align 64, 64)
  | .empty l => some (l.align 64, 64)
  | _ => none

/-- The reservations that effects in the order of their performance need: those of the commit-time operations among them, and of the
stores that one of these follows. waits: a WAITA follows them all (R40). -/
def reservationsOf (waits : Bool) : List Fired → List (Loc × Nat)
  | [] => []
  | e :: l =>
    (if e.eff.atHome || waits || l.any (fun k => k.eff.atHome) then e.eff.reserves.toList else []) ++ reservationsOf waits l

/-- The reservations that the effects left of a block need. -/
def reservationsLeft (l : List Fired) : List (Loc × Nat) :=
  reservationsOf (l.any fun e => match e.eff with | .waita _ _ _ => true | _ => false) l

/-- The reservations that a block needs. -/
def Block.reservations (b : Block) : List (Loc × Nat) := reservationsLeft b.inOrder

/-! ### Wait phase (R37) -/

/-- A stream's queue has room for the commands of the block, of which an SSTOP empties it (R164). -/
def Tile.streamRoom (t : Tile) (effs : List Fired) (k : BitVec 4) : Bool :=
  (effs.foldl (fun (n : Nat × Bool) e => match e.eff with
    | .sdef st _ => if st = k then (n.1 + 1, n.2 && decide (n.1 + 1 ≤ 4)) else n
    | .sgo st => if st = k then (n.1 + 1, n.2 && decide (n.1 + 1 ≤ 4)) else n
    | .sstop st => if st = k then (0, n.2) else n
    | _ => n) ((t.streamAt k).queue.length, true)).2

/-- How many effects of a block satisfy a test. -/
def countEff (effs : List Fired) (f : Eff → Bool) : Nat := effs.countP fun e => f e.eff

/-- The queues and FIFOs that the block's releases enter have room (R37, R46, R51, R187, R236). -/
def Tile.roomFor (t : Tile) (effs : List Fired) : Bool :=
  ((List.range 16).all fun k => t.streamRoom effs (BitVec.ofNat 4 k))
    && (([.str, .ast, .est, .pst, .mxe] : List Partner).all fun p =>
      let n := countEff effs fun e => e == .tokp p
      n == 0 || decide (t.fifoAt 1 (partnerId p) + n ≤ 15))
    && ((List.range 16).all fun k =>
      let n := countEff effs fun e => match e with | .chw ch _ _ _ => ch.toNat == k | _ => false
      n == 0 || decide ((t.chanAt k).entries.length + n ≤ 2))
    && (([.ast, .est, .pst] : List StripId).all fun s =>
      let n := countEff effs fun e => match e with | .run r _ _ _ _ => r == s | _ => false
      n == 0 || decide ((t.strip s).queue.length + n ≤ 4))
    && (let n := countEff effs fun e => match e with | .mxq _ => true | _ => false
        n == 0 || decide (t.mxe.queue.length + n ≤ 8))

/-- The copy engine of a physical tile's cluster (R11). -/
def copyOf (phys : Nat) : Nat := phys / 64

/-- The tile's packets that have not started, with those of the block, stay within 16 (R179). -/
def State.copyRoom (s : State) (t : Tile) (effs : List Fired) : Bool :=
  let n := countEff effs fun e => match e with | .cpy _ => true | _ => false
  n == 0 || (match s.copy[copyOf t.phys]? with
    | none => true
    | some e => decide ((e.waiting.filter fun p => p.src == .tile t.phys).length + n ≤ 16))

/-- The packet buffers of the queues that the block's ENQs name have entries for them that nothing has reserved (R290). -/
def State.enqRoom (s : State) (tag : Byte) (effs : List Fired) : Bool :=
  (List.range 16).all fun k =>
    let n := countEff effs fun e => match e with | .enq q _ => q.toNat == k | _ => false
    n == 0 || (match (s.ctx? tag).bind fun c => c.queues[k]? with
      | some q => decide (q.buf.length + s.enqsHeld tag (BitVec.ofNat 4 k) + n ≤ 64)
      | none => true)

/-- The tile has not arrived in the current phase of a group that the block arrives at (R335, R337). -/
def Inst.mayArrive (x : Inst) (ti : Nat) (effs : List Fired) : Bool :=
  effs.all fun e => match e.eff.arrival with
    | some gid => !(x.bar gid).arrived.contains ti && !(x.barMsgs.any fun m => match m with
      | .arrive g t => g == gid && t == ti
      | _ => false)
    | none => true

/-- The wait phase of R37, with the fences of R160 and the streams of R161. -/
def State.waitPhase (s : State) (x : Inst) (t : Tile) (b : Block) : Bool :=
  t.semasReady b.effs && t.roomFor b.inOrder && s.copyRoom t b.effs
    && s.enqRoom x.tag b.effs
    && x.mayArrive s.focus.tile b.effs
    && !(!b.effs.isEmpty && fencePending x t s.focus.tile t.seq.fence)
    && !(!b.effs.isEmpty && s.maskedOut x.tag s.focus.inst s.focus.tile b.sbar)

/-! ### Check phase (R37, R39, R154-R156, R236) -/

/-- How the check of an effect fails: a fault with its sr.info, or a replay on a granule. -/
inductive CheckFail where
  | fault (code : Byte) (info : W64)
  | replay (tile : Nat) (granule : Nat)

/-- Whether a lower LSID replaced the 8-byte word of a location with its check bits (R136). -/
def healedBelow (below : List Fired) (l : Loc) : Bool :=
  below.any fun e => match e.eff with
    | .store k 8 _ => k == l.align 8
    | .storeFull k 8 _ => k == l.align 8
    | _ => false

/-- An uncorrectable old value (R37, R136). -/
def State.badOld (s : State) (i : Nat) (below : List Fired) (e : Fired) (l : Loc) (n : Nat) (write : Bool) : Option CheckFail :=
  if !l.isRemote && s.badLoc i l n && !healedBelow below l then
    some (.fault cUncorrectable (accInfo e.slot write e.va))
  else none

/-- Whether the bank of a granule holds its 64 take entries (R155). -/
def Tile.takesFull (y : Tile) (g : Nat) : Bool :=
  decide (64 ≤ (y.takes.filter fun k => bankOf y.coarse (64 * k.granule) == bankOf y.coarse (64 * g)).length)

/-- The check of an LDF.TAKE (R154, R155): malformed beside another on its granule or after an EMPTY of it; satisfied by an STF of a
lower LSID; else the granule is full, and the take list is empty or headed by the tile, or the tile is not on it and finds the bank's 64
entries in use (log 73). -/
def State.checkTake (s : State) (i ti : Nat) (below : List Fired) (e : Fired) (l : Loc) (n : Nat) : Option CheckFail :=
  match l.granule with
  | none => none
  | some (ht, g) =>
    if below.any (fun k => match k.eff with
        | .take m _ _ => m.granule == some (ht, g)
        | .empty m => m.granule == some (ht, g)
        | _ => false) then some (.fault cMalformed (w64 e.slot))
    else
      let stf := below.any fun k => match k.eff with | .storeFull m _ _ => m.granule == some (ht, g) | _ => false
      let ok := stf || (match s.tile? i ht with
        | none => false
        | some y => y.isFull g && (match y.takes.filter fun k => k.granule == g with
          | [] => true
          | k :: l => k.tile == ti || (y.takesFull g && !l.any fun k => k.tile == ti)))
      if ok then s.badOld i below e l n true else some (.replay ht g)

/-- The logical state of an operand slot as lower LSIDs leave it. -/
def slotBelow (m : Mxe) (below : List Fired) (k : BitVec 4) : SlotLogic :=
  below.foldl (fun st e => match e.eff with
    | .oclaim j => if j = k then (slotNext (.claim j) st).getD st else st
    | .orelease j => if j = k then (slotNext (.release j) st).getD st else st
    | .ofill j va => if j = k then (slotNext (.fill j va) st).getD st else st
    | _ => st) (m.logicAt k)

/-- The check of slot work (R236). -/
def checkSlot (m : Mxe) (below : List Fired) (e : Fired) (k : BitVec 4) (w : MxWork) : Option CheckFail :=
  match slotNext w (slotBelow m below k) with
  | some _ => none
  | none => some (.fault cSlotState (w64 (e.slot * 2 ^ 57 + k.toNat)))

/-- The check of one effect at its home. -/
def State.checkEff (s : State) (i ti : Nat) (t : Tile) (below : List Fired) (e : Fired) : Option CheckFail :=
  match e.eff with
  | .atomic _ l n _ _ _ => s.badOld i below e l n true
  | .waita l _ _ => s.badOld i below e l 8 false
  | .take l n _ => s.checkTake i ti below e l n
  | .oclaim k => checkSlot t.mxe below e k (.claim k)
  | .orelease k => checkSlot t.mxe below e k (.release k)
  | .ofill k va => checkSlot t.mxe below e k (.fill k va)
  | _ => none

/-- The first failure of the check phase in LSID order. -/
def State.checkEffs (s : State) (i ti : Nat) (t : Tile) : List Fired → List Fired → Option CheckFail
  | _, [] => none
  | below, e :: l =>
    match s.checkEff i ti t below e with
    | some f => some f
    | none => s.checkEffs i ti t (below ++ [e]) l

/-- Joining the take list of a granule (R155): the tile once, and at most 64 entries in a bank. -/
def Tile.joinTakes (y : Tile) (g ti : Nat) : Tile :=
  if y.takes.any (fun k => k.granule == g && k.tile == ti) || y.takesFull g then y
  else { y with takes := y.takes ++ [⟨g, ti, none⟩] }

/-- A block that replays (R39, R155): it is discarded and issued again, and its tile joins the take list. -/
def State.replay (s : State) (i ti : Nat) (b : Block) (ht g : Nat) : State :=
  (s.modTile i ht fun y => y.joinTakes g ti).discardBlock i ti b.header

/-- Whether an effect is an atomic at a peer. -/
def Eff.atPeer : Eff → Bool
  | .atomic _ (.remote _ _) _ _ _ _ => true
  | _ => false

/-- Whether the only atomic at a peer of a block comes before every other access that its commit performs: then it is performed by its
check, which nothing of the block precedes (R371, R372; log 74). -/
def soleAtPeer (l : List Fired) : Bool :=
  (l.countP fun e => e.eff.atPeer) == 1 && (match l.find? fun e => e.eff.after != .nothing || e.eff.reserves.isSome || e.eff.isStore with
    | some e => e.eff.atPeer
    | none => false)

/-- What a peer has answered to the checks of a block's atomics so far (R370, R372). -/
inductive PeerCheck where
  | clear
  | wait
  | failed (code : Byte) (e : Fired) (sess : BitVec 5) (va : W64)

/-- An atomic of n bytes that leaves every value as it is, and is allowed where this one is (R151): the check of one at a peer, which so meets the
permissions and the home of the atomic itself (R37, R370, R372; log 74). -/
def atomicProbe (op : AtomicOp) (n : Nat) (v : W64) : MsgBody :=
  let w := 8 * n
  match op with
  | .add | .swp | .cas => .atomic v .add (n == 8) 0 0
  | .and => .atomic v .and (n == 8) (w64 (2 ^ w - 1)) 0
  | .or => .atomic v .or (n == 8) 0 0
  | .xor => .atomic v .xor (n == 8) 0 0
  | .min => .atomic v .min (n == 8) (w64 (2 ^ (w - 1) - 1)) 0
  | .max => .atomic v .max (n == 8) (w64 (2 ^ (w - 1))) 0
  | .minu => .atomic v .minu (n == 8) (w64 (2 ^ w - 1)) 0
  | .maxu => .atomic v .maxu (n == 8) 0 0

/-- The checks of the atomics of a block at peers, asked in LSID order: sole asks for the atomic itself, else an atomic that changes nothing is
(log 74). -/
def State.askChecks (s : State) (i ti : Nat) (tag : Byte) (sole : Bool) : List Fired → PeerCheck × State
  | [] => (.clear, s)
  | e :: l => match e.eff with
    | .atomic op (.remote k v) n b c _ =>
      let q : Ask := ⟨i, ti, if sole then e.slot else whoCheck e.ls, v⟩
      match s.askPeer tag k q (if sole then .atomic v op (n == 8) b c else atomicProbe op n v) with
      | (none, s) => (.wait, s)
      | (some (.failed code), s) => (.failed code e k v, s.tookPeer tag k q)
      | (some (.data _), s) => s.askChecks i ti tag sole l
    | _ => s.askChecks i ti tag sole l

/-! ### Perform phase (R37, R151) -/

/-- The value that an atomic writes, or none for an ACAS that differs (R156). -/
def atomicNew (op : AtomicOp) (n : Nat) (old b c : W64) : Option W64 :=
  let w := 8 * n
  let m : W64 := w64 (2 ^ w - 1)
  let o := old &&& m
  let b := b &&& m
  let sgn (v : W64) : Int := if v.getLsbD (w - 1) then (v.toNat : Int) - 2 ^ w else v.toNat
  match op with
  | .add => some ((o + b) &&& m)
  | .swp => some b
  | .cas => if o = c &&& m then some b else none
  | .and => some (o &&& b)
  | .or => some (o ||| b)
  | .xor => some (o ^^^ b)
  | .min => some (if sgn o ≤ sgn b then o else b)
  | .max => some (if sgn o ≤ sgn b then b else o)
  | .minu => some (if o.toNat ≤ b.toNat then o else b)
  | .maxu => some (if o.toNat ≤ b.toNat then b else o)

/-- An atomic performed at a home of this package (R151, R156): the old value, and the state. -/
def State.atomicAt (s : State) (i : Nat) (op : AtomicOp) (l : Loc) (n : Nat) (b c : W64) : W64 × State :=
  let old := wordOf (s.readLoc i l n)
  (old, match atomicNew op n old b c with
    | some v => s.writeLoc i l (bytesOf n v)
    | none => s)

/-- The read of a 64-byte descriptor or packet at its release (R149, R184). -/
inductive DescRead where
  | data (d : Rec64) (s : State)
  | wait (s : State)
  | bad (f : PFault) (s : State)

/-- That read, for the command with this LSID. -/
def State.readDesc (s : State) (i ti : Nat) (tag : Byte) (engine : BitVec 3) (e : Fired) : DescRead :=
  -- the tile's own reservations hold back none of its command's accesses
  match (s.modTile i ti fun t => { t with reserved := [] }).checkRange i tag engine .read false e.va 64 64 with
  | .wait => .wait s
  | .bad f => .bad { f with info := accInfo e.slot false e.va } s
  | .ok ps => match s.readPieces i ti (whoDesc e.ls) tag ps with
    | (.wait, s) => .wait s
    | (.failed c p, s) => .bad { readPFault engine c p e.va with
        info := if c == cPeerLost then (readPFault engine c p e.va).info else accInfo e.slot false e.va }
        (s.tookAll i ti (whoDesc e.ls) tag)
    | (.bytes bs, s) => .data (BitVec.ofNat 512 (ofBytes bs)) (s.tookAll i ti (whoDesc e.ls) tag)

/-- The release of an effect whose stores before it are performed, and which reads no descriptor. -/
def State.releasePlain (s : State) (i ti : Nat) (tag : Byte) (e : Fired) : State :=
  let mod (f : Tile → Tile) : State := s.modTile i ti f
  let modSr (f : SRegs → SRegs) : State := mod fun t => { t with sr := f t.sr }
  match e.eff with
  | .store l n d => s.pushStore i ti (.plain l n d e.va e.ipa)
  | .storeFull l n d => s.pushStore i ti (.full l n d)
  | .empty l => s.pushStore i ti (.empty l)
  | .take l n g =>
    let v := wordOf (s.readLoc i l n)
    match l.granule with
    | none => s
    | some (ht, k) =>
      (s.modTile i ht fun y =>
        let y := y.setFull k false
        { y with takes := (y.takes.filter fun a => !(a.granule == k && a.tile == ti)).map fun a =>
            if a.granule == k then { a with granted := none } else a }).modTile i ti fun t => t.setG g v
  | .atomic op l n b c g =>
    let r := s.atomicAt i op l n b c
    ((r.2.hbmBytes tag false l n).hbmBytes tag true l n).modTile i ti fun t => (t.unkeep l n).setG g r.1
  | .sema g sem cnt =>
    mod fun t => ({ t with sem := vmod t.sem sem.toNat fun v => v - cnt }).setG g ((vget t.sem sem.toNat 0).setWidth 64)
  | .semp t sem cnt => s.semAdd i t sem cnt (BitVec.ofNat 16 ti)
  | .barc gid n => s.modInst i fun x => { x with barMsgs := x.barMsgs ++ [.count gid ti n] }
  | .mts .hvec v => modSr fun r => { r with hvec := v }
  | .mts .wto v => modSr fun r => { r with wto := v }
  | .mtsFmode v => modSr fun r => { r with fmode := v }
  | .mtsFflags v => mod fun t => t.clearFflags v
  | .mtsEpc v => modSr fun r => { r with epc := v }
  | .sgo st => mod fun t => t.modStream st fun x => { x with queue := x.queue ++ [.sgo] }
  | .sstop st => mod fun t => t.modStream st fun x =>
      { x with queue := [], stopping := x.stopping || x.st == .running }
  | .vcfmt port vc v => mod fun t => t.modVc port vc fun y => { y with entry := v }
  | .vcscl port reg v =>
    mod fun t => { t with scale := vmod t.scale (port.toNat * 8 + reg.toNat) fun _ => v.extractLsb' 0 32 }
  | .run st addr kload cnt rep =>
    mod fun t => t.modStrip st fun x =>
      { x with queue := x.queue ++ [{ addr := addr, kload := kload, cnt := cnt, rep := rep, mode := t.sr.fmode,
                                      part := [], checked := none, bad := none }] }
  | .chr ch => mod fun t => t.modChan ch.toNat fun c => { c with entries := c.entries.tail }
  | .chw ch v tag last =>
    mod fun t => t.modChan ch.toNat fun c => { c with entries := c.entries ++ [⟨v.setWidth 6144, tag, last⟩] }
  | .tokp p => mod fun t => t.fifoPush 1 (partnerId p)
  | .tokw p => mod fun t => t.fifoPop (partnerId p) 1
  | .oclaim k => mod fun t => { t with mxe := t.mxe.release (.claim k) }
  | .orelease k => mod fun t => { t with mxe := t.mxe.release (.release k) }
  | .ofill k va => mod fun t => { t with mxe := t.mxe.release (.fill k va) }
  | .mxq tok => mod fun t => { t with mxe := t.mxe.enqueue tok }
  | .tlbi kind va =>
    (mod fun t => { t with seq := { t.seq with invWait := true } }).modCtx tag fun c =>
      { c with invals := c.invals ++ [(i, ti, kind, va)] }
  | .pmig va d p => s.modCtx tag fun c =>
      { c with migs := c.migs ++ [{ inst := i, tile := ti, va := va, d := d, leafIpa := p, phase := .released }] }
  | _ => s

/-- The release of a command that reads its descriptor or packet (R184, R290): whether it is done, and the state. An SDEF whose read fails
queues its fault in the place of the descriptor, so that the stream takes it in its turn, and an SSTOP discards it with the other
commands (DESIGN CHOICE, log 78). -/
def State.releaseDesc (s : State) (i ti : Nat) (x : Inst) (t : Tile) (e : Fired) : Bool × State :=
  let engine : BitVec 3 := match e.eff with | .sdef _ _ => 2 | _ => 0
  match s.readDesc i ti x.tag engine e with
  | .wait s => (false, s)
  | .bad f s => match e.eff with
    | .sdef st _ => (true, s.modTile i ti fun t => t.modStream st fun y => { y with queue := y.queue ++ [.bad f] })
    | _ => (true, s.pendFault i ti none f)
  | .data d s => match e.eff with
    | .sdef st _ => (true, s.modTile i ti fun t => t.modStream st fun y => { y with queue := y.queue ++ [.sdef d] })
    | .cpy _ => (true, s.cpEnqueue (copyOf t.phys) (.tile t.phys) x.tag i ti d (t.sr.fmode.extractLsb' 0 3) none)
    | .halo va => (true, s.modTile i ti fun t => { t with halos := t.halos ++ [{ desc := d, va := va, left := none, sent := false }] })
    | .enq q _ => match s.acceptPacket x.tag q d with
      | some s => (true, s)
      | none => (false, s)
    | _ => (true, s)

/-- The stores before an effect performed as it needs: whether they are, and the state. -/
def State.drainFor (s : State) (i ti : Nat) : After → Bool × State
  | .nothing => (true, s)
  | .localStores => s.drainAll true i ti
  | .stores => s.drainAll false i ti

/-- The arrival of a tile at a group sent to the table, where it is not on its way already (R333). -/
def State.arriveOnce (s : State) (i ti : Nat) (x : Inst) (gid : BitVec 8) : State :=
  if x.barMsgs.any (fun m => match m with | .arrive g t => g == gid && t == ti | _ => false) then s
  else s.modInst i fun x => { x with barMsgs := x.barMsgs ++ [.arrive gid ti] }

/-- An atomic performed at a peer (R370, R371): asked once, and done with the answer; one that the peer refuses although its check passed
is not performed, and its tile takes the reply's code with engine 0, as of a store (R372; log 74). -/
def State.atomicPeer (s : State) (i ti : Nat) (tag : Byte) (e : Fired) (op : AtomicOp) (k : BitVec 5) (v : W64) (n : Nat) (b c : W64)
    (g : BitVec 5) : Bool × State :=
  let q : Ask := ⟨i, ti, e.slot, v⟩
  match s.askPeer tag k q (.atomic v op (n == 8) b c) with
  | (none, s) => (false, s)
  | (some (.data d), s) => (true, (s.tookPeer tag k q).modTile i ti fun t => t.setG g d)
  | (some (.failed code), s) => (true, (s.tookPeer tag k q).pendFault i ti none
      { code := code, engine := 0, info := if code == cPeerLost then w64 k.toNat else accInfo 0 true e.va,
        page := if code == cPeerLost then none else some (pageContent (replyPage k v) code 0 true e.va) })

/-- One effect released (R37): whether it is done, and the state. A barrier arrival is sent once, and its answer ends it. -/
def State.releaseEff (s : State) (i ti : Nat) (e : Fired) : Bool × State :=
  match s.drainFor i ti e.eff.after with
  | (false, s) => (false, s)
  | (true, s) =>
    match s.inst? i, s.tile? i ti with
    | some x, some t =>
      match e.eff with
      | .bara gid _ => (false, s.arriveOnce i ti x gid)
      | .bar gid => (false, s.arriveOnce i ti x gid)
      | .atomic op (.remote k v) n b c g => s.atomicPeer i ti x.tag e op k v n b c g
      | .sdef _ _ => s.releaseDesc i ti x t e
      | .cpy _ => s.releaseDesc i ti x t e
      | .halo _ => s.releaseDesc i ti x t e
      | .enq _ _ => s.releaseDesc i ti x t e
      | _ => (true, s.releasePlain i ti x.tag e)
    | _, _ => (true, s)

/-- The effects left to release, released in order until one must wait. -/
def State.releaseAll (i ti : Nat) : List Fired → State → List Fired × State
  | [], s => ([], s)
  | e :: l, s => match e.eff with
    | .barAt _ _ =>
      let r := State.releaseAll i ti l s
      (r.1 ++ [e], r.2)
    | .waita _ _ _ =>
      let r := State.releaseAll i ti l s
      (r.1 ++ [e], r.2)
    | _ => match s.releaseEff i ti e with
      | (true, s) => State.releaseAll i ti l s
      | (false, s) => (e :: l, s)

/-- Whether nothing is left but a park. -/
def onlyPark (l : List Fired) : Bool :=
  l.all fun e => match e.eff with | .barAt _ _ => true | .waita _ _ _ => true | _ => false

/-! ### The end of a commit -/

/-- The park that a block ends in (R40, R157, R337): the comparison and the watch of a WAITA as one step at the home; a BAR parks
while the phase known at the tile is the one it joined. -/
def State.parkEff (s : State) (i ti : Nat) (e : Fired) : State :=
  match e.eff with
  | .waita (.slice ht o) cmp g =>
    if wordOf (s.readLoc i (.slice ht o) 8) != cmp then s.modTile i ti fun t => t.setG g 1
    else match s.tile? i ht, s.tile? i ti with
      | some y, some t =>
        if 64 ≤ (y.watches.filter fun w => bankOf y.coarse (64 * w.granule) == bankOf y.coarse o).length then
          s.modTile i ti fun t => t.setG g 0
        else
          (s.modTile i ht fun y => { y with watches := y.watches ++ [⟨o / 64, ti⟩] }).modTile i ti fun u =>
            { u with seq := { u.seq with park := some (.waita ht o g t.sr.timeout 0 none) } }
      | _, _ => s
  | .barAt gid p => s.modTile i ti fun t =>
      if t.phaseOf gid = p then { t with seq := { t.seq with park := some (.bar gid p) } } else t
  | _ => s

/-- The branch of a committed block (R65, R116, R117, R132). -/
def Tile.takeBranch (t : Tile) (b : Block) : Tile :=
  match b.branch with
  | some (.to va) => { t with seq := { t.seq with next := va } }
  | some (.yield va) => { t with seq := { t.seq with next := va } }
  | some .hret => t.handlerReturn
  | some .halt =>
    -- a HALT in handler mode ends the tile and discards the fault state
    let t := if t.handler then
        let t := t.endService
        { t with sr := { t.sr with cause := t.sr.cause &&& ~~~(0x80000000#64) }, seq := { t.seq with outer := none } }
      else t
    { t with seq := { t.seq with halted := true } }
  | none => t

/-- The g registers of the write mask (R37). -/
def Tile.writeBlock (t : Tile) (b : Block) : Tile :=
  b.writes.foldl (fun t w => match w.2 with
    | some v => if b.writeMask.getLsbD w.1.toNat then t.setG w.1 v else t
    | none => t) t

/-- The FENCE that the accesses of later blocks wait for after a block commits (R160): the block's own; and, while stores that an earlier
one waits for are not performed, that one too: only a block with no effect commits meanwhile. -/
def State.fenceAfter (s : State) (i ti : Nat) (b : Block) : Option Scope :=
  match s.inst? i, s.tile? i ti with
  | some x, some t => if b.effs.isEmpty && fencePending x t ti t.seq.fence then wider b.fence t.seq.fence else b.fence
  | _, _ => b.fence

/-- The end of a commit, once every effect is released: the g registers, next, the park, and the trap (R37, R40, R131); a YIELD gives
way to a context that waits for the tile (R118). -/
def State.finishCommit (s : State) (i ti : Nat) (tag : Byte) (b : Block) (parks : List Fired) : State :=
  let s := (s.modTile i ti fun t =>
    let t := (t.writeBlock b).takeBranch b
    { t with
      xflags := t.xflags &&& ~~~b.clearFlags
      reserved := []
      seq := { t.seq with block := none, fence := s.fenceAfter i ti b, turn := none } }).count tag 0x11 1
  let s := parks.foldl (fun s e => s.parkEff i ti e) s
  match b.trap, s.tile? i ti with
  | _, none => s
  | some code, some t => if t.seq.finished then s.modTile i ti Tile.endNow
    else s.takeFault i ti ⟨cTrap, .t, 1, code.setWidth 64, t.seq.next, none⟩
  | none, some t => if t.seq.finished then s.modTile i ti Tile.endNow
    else match b.branch with
      | some (.yield _) => if (s.tileWaiter tag).isSome then s.tryPreempt i ti else s
      | _ => s

/-- The perform phase of a block (R37): what is left to release; then, when the stores that a park or an SBAR needs are performed, the
end of the commit. -/
def State.performPhase (s : State) (i ti : Nat) (tag : Byte) (l : List Fired) : State :=
  let r := State.releaseAll i ti l s
  let keep (s : State) : State := s.modTile i ti fun t =>
    { t with
      reserved := reservationsLeft r.1
      seq := { t.seq with block := t.seq.block.map fun b => { b with perform := some r.1 } } }
  if !onlyPark r.1 then keep r.2
  else match (r.2.tile? i ti).bind (·.seq.block) with
    | none => r.2
    | some b =>
      let need := b.sbar != 0 || !r.1.isEmpty
      match if need then r.2.drainAll false i ti else (true, r.2) with
      | (false, s) => keep s
      | (true, s) => s.finishCommit i ti tag b r.1

/-- The block of a tile with its reservations. -/
def State.holdBlock (s : State) (i ti : Nat) (ls : List (Loc × Nat)) (checking : Bool) : State :=
  s.modTile i ti fun t =>
    { t with reserved := ls, seq := { t.seq with block := t.seq.block.map fun b => { b with checking := checking } } }

/-- The check phase of R37, after the wait phase: every reservation or some; the checks in LSID order, and those at peers. -/
def State.checkPhase (s : State) (i ti : Nat) (x : Inst) (b : Block) : State :=
  let want := b.reservations
  let got := want.filter fun r => !s.reservedElsewhere i ti r.1 r.2
  if got.length != want.length then s.holdBlock i ti got true
  else
    let s := s.holdBlock i ti want b.checking
    match s.tile? i ti with
    | none => s
    | some t =>
      let l := b.inOrder
      match s.checkEffs i ti t [] l with
      | some (.fault code info) => s.takeFault i ti ⟨code, .c, 1, info, b.header, none⟩
      | some (.replay ht g) => s.replay i ti b ht g
      | none =>
        match s.askChecks i ti x.tag (soleAtPeer l) l with
        | (.clear, s) => (if l.any (·.eff.atPeer) then s.modCtx x.tag fun c => c.dropAskers i ti 1024 32 else s).performPhase i ti x.tag l
        | (.failed code e k v, s) =>
          s.takeFault i ti ⟨code, .c, 1, if code == cPeerLost then w64 k.toNat else accInfo e.slot true e.va, b.header,
            if code == cPeerLost then none else some (pageContent (replyPage k v) code 1 true e.va)⟩
        | (.wait, s) => s.holdBlock i ti want true

/-- BLOCK_COMMIT: a block whose conditions of R36 hold passes its wait phase, its check phase and its perform phase as far as nothing
holds it back. -/
def execBlockCommit (s : State) : Res :=
  s.onTile fun x t => match t.seq.block with
    | none => .next s
    | some b =>
      match b.perform with
      | some l => .next (s.performPhase s.focus.inst s.focus.tile x.tag l)
      | none =>
        if !b.issued || !b.settledAll || t.place != .running || (t.deliverable && !b.checking) then .next s
        else if !b.checking && !s.waitPhase x t b then .next s
        else if b.effs.any (fun e => e.eff.atHome) then
          match s.drainAll false s.focus.inst s.focus.tile with
          | (false, s) => .next s
          | (true, s) => .next (s.checkPhase s.focus.inst s.focus.tile x b)
        else .next (s.checkPhase s.focus.inst s.focus.tile x b)

end Sys2Proof.Machine
end

