-- ==== Sys2Proof/Machine/Kernel.lean ====
section
/-! DEFINITION. Uldal objects: their parts (R89-R91, R297-R299, R318) and their verification (R300, R301). -/

namespace Sys2Proof.Machine

/-! ### Parts of an object (R89, R90) -/

/-- Bytes off to off + n - 1. -/
def cut (bs : List Byte) (off n : Nat) : List Byte := (bs.drop off).take n

/-- Those bytes as a number (R3). -/
def num (bs : List Byte) (off n : Nat) : Nat := ofBytes (cut bs off n)

/-- A section of an object. -/
structure Section where
  type : Nat
  off : Nat
  size : Nat
deriving DecidableEq, Repr

/-- The section table (R90); none where an entry breaks its rules. -/
def sectionTable (bs : List Byte) : Nat → Nat → Option (List Section)
  | 0, _ => some []
  | n + 1, pos =>
    let x : Section := ⟨num bs pos 4, num bs (pos + 8) 4, num bs (pos + 12) 4⟩
    if x.type = 0 ∨ 9 < x.type ∨ num bs (pos + 4) 4 ≠ 0 ∨ x.off % 16 ≠ 0 ∨ bs.length < x.off + x.size then none
    else (sectionTable bs n (pos + 16)).map fun l => x :: l

/-- Whether two sections do not overlap. One of size 0 whose offset lies strictly inside another overlaps it, though the two share no byte: the
spec does not say (R90; DESIGN CHOICE, log 87). -/
def apart (a b : Section) : Bool := decide (a.off + a.size ≤ b.off) || decide (b.off + b.size ≤ a.off)

/-- Whether every two of a list satisfy a test. -/
def pairwise {α : Type} (f : α → α → Bool) : List α → Bool
  | [] => true
  | a :: l => l.all (f a) && pairwise f l

/-- A section by its type. -/
def sectionOf (l : List Section) (ty : Nat) : Option Section := l.find? fun x => x.type == ty

/-- The bytes of a section; none of one that is absent. -/
def sectionBytes (bs : List Byte) (l : List Section) (ty : Nat) : List Byte :=
  match sectionOf l ty with
  | some x => cut bs x.off x.size
  | none => []

/-- Check 3 of R300: the header, the section table and the place of the signature section. -/
def objectSections (bs : List Byte) : Option (List Section) :=
  let n := num bs 16 2
  if bs.length < 64 ∨ num bs 0 4 ≠ 0x47444C55 ∨ num bs 4 2 ≠ 1 ∨ num bs 6 1 ≠ 1 ∨ num bs 7 1 ≠ 0 ∨ num bs 26 38 ≠ 0
      ∨ n < 3 ∨ 32 < n ∨ bs.length < 64 + 16 * n then none
  else match sectionTable bs n 64 with
    | none => none
    | some l =>
      let head : Section := ⟨0, 0, 64 + 16 * n⟩
      let once := pairwise (fun a b => a.type != b.type) l
      let present := (sectionOf l 1).isSome && (sectionOf l 2).isSome
      let sig := match sectionOf l 9 with
        | some x => x.size == 144 && x.off + 144 == bs.length
        | none => false
      if once && present && sig && pairwise apart (head :: l) then some l else none

/-! ### The graph (R91, R297-R299) -/

/-- A node record, with the first logical id that R304 gives the next tile operator; none where its fields break R91. -/
def nodeRecord (bs : List Byte) (pos first : Nat) : Option Node :=
  let kind := num bs (pos + 2) 1
  let rows := num bs (pos + 8) 2
  let cols := num bs (pos + 10) 2
  let tileOk := decide (1 ≤ rows ∧ rows ≤ 64 ∧ 1 ≤ cols ∧ cols ≤ 64)
  if 1 < kind ∨ num bs (pos + 3) 5 ≠ 0 ∨ (if kind = 0 then !tileOk else (rows != 0 || cols != 0)) then none
  else some { id := BitVec.ofNat 16 (num bs pos 2), fabric := kind == 1, rows := rows, cols := cols, entry := num bs (pos + 12) 4,
              first := if kind = 1 then 0 else first }

/-- The node records in order. -/
def nodeRecords (bs : List Byte) : Nat → Nat → Nat → Option (List Node)
  | 0, _, _ => some []
  | n + 1, pos, first =>
    match nodeRecord bs pos first with
    | none => none
    | some x => (nodeRecords bs n (pos + 16) (first + x.rows * x.cols)).map fun l => x :: l

/-- An edge record; none where its fields break R91. -/
def edgeRecord (bs : List Byte) (pos : Nat) : Option Edge :=
  let depth := num bs (pos + 12) 2
  let init := num bs (pos + 14) 2
  let frame := num bs (pos + 8) 4
  if num bs (pos + 20) 12 ≠ 0 ∨ num bs (pos + 6) 2 % 4096 ≠ 0 ∨ frame = 0 ∨ depth = 0 ∨ 64 < depth ∨ depth < init then none
  else some { src := BitVec.ofNat 16 (num bs pos 2), srcPort := BitVec.ofNat 8 (num bs (pos + 2) 1),
              dst := BitVec.ofNat 16 (num bs (pos + 3) 2), dstPort := BitVec.ofNat 8 (num bs (pos + 5) 1),
              fmt := BitVec.ofNat 4 (num bs (pos + 7) 1 / 16), frame := frame, depth := depth, init := init,
              initData := BitVec.ofNat 32 (num bs (pos + 16) 4) }

/-- The edge records in order. -/
def edgeRecords (bs : List Byte) : Nat → Nat → Option (List Edge)
  | 0, _ => some []
  | n + 1, pos => match edgeRecord bs pos with
    | none => none
    | some x => (edgeRecords bs n (pos + 32)).map fun l => x :: l

/-- The GRAPH section. -/
def graphOf (g : List Byte) : Option (List Node × List Edge) :=
  let n := num g 0 4
  let m := num g 4 4
  if g.length ≠ 16 + 16 * n + 32 * m ∨ num g 8 8 ≠ 0 then none
  else match nodeRecords g n 16 0, edgeRecords g m (16 + 16 * n) with
    | some a, some b => some (a, b)
    | _, _ => none

/-- An entry of the FABRIC section with its image: digest and signer named by the entry, the plot set, and for a tenant plot set the
digest of the image and its signature. -/
structure FabricEntry where
  digest : Digest
  signer : Digest
  set : PlotSet
  imageDigest : Digest
  signature : BitVec 768

/-- The parameters of a library operator within their ranges (R311, R312): par reads n bits from header bit k. -/
def libraryOk (lib : Nat) (hdr : BitVec 512) : Bool :=
  let par (k n : Nat) : Nat := fld hdr k n
  let zeroFrom (k : Nat) : Bool := decide (fld hdr k (512 - k) = 0)
  match lib with
  | 1 => zeroFrom 129
  | 2 => zeroFrom 129
  | 3 => zeroFrom 128
  | 4 => zeroFrom 160 && par 128 32 != 0
  | 5 => zeroFrom 136
  | 6 => zeroFrom 137
  | 7 => zeroFrom 192
  | 8 => zeroFrom 192 && par 133 27 == 0
  | 9 => zeroFrom 204
  | 10 => zeroFrom 132 && par 128 4 != 0
  | _ => false

/-- The number of input and output ports of a library operator (R311, R312). -/
def libraryPorts (lib : Nat) (params : BitVec 384) : Nat × Nat :=
  match lib with
  | 1 => (2, 2)
  | 2 => (3, 1)
  | 5 => (1, 2)
  | 6 => (2, fld params 0 6 + 2)
  | 10 => (fld params 0 4 + 1, 1)
  | _ => (1, 1)

/-- A plot-set header with its image and the digest of the image (R298); none where its fields break it. -/
def plotSetOf (bits : List Byte) (image : Digest) (hdr : BitVec 512) : Option PlotSet :=
  let lib := fld hdr 72 8
  let bytes := fld hdr 0 32
  let plots := fld hdr 32 16
  let ports := fld hdr 48 16
  let fmax := fld hdr 64 8
  if fld hdr 81 47 ≠ 0 ∨ 10 < lib then none
  else if lib = 0 then
    if fld hdr 128 384 ≠ 0 ∨ fmax < 10 ∨ 80 < fmax ∨ ports = 0 ∨ 256 < ports ∨ plots = 0 ∨ 128 < plots ∨ bytes % 16 ≠ 0 then none
    else some { library := 0, image := image, bits := bits, params := 0, ports := ports, plots := plots, fmax := 10 * fmax, stateful := hdr.getLsbD 80 }
  else if bytes ≠ 0 ∨ plots ≠ 0 ∨ ports ≠ 0 ∨ fmax ≠ 0 ∨ !libraryOk lib hdr then none
  else some { library := BitVec.ofNat 8 lib, image := image, bits := bits, params := hdr.extractLsb' 128 384, ports := 0, plots := 1, fmax := 800,
              stateful := true }

/-- Whether bytes are all zero. -/
def allZero (l : List Byte) : Bool := l.all (· == 0)

/-- The entries of a FABRIC section with their images, which stand one after another from a position, each 16-byte aligned. -/
def fabricEntries (f : List Byte) : Nat → Nat → Nat → Option (List FabricEntry)
  | 0, _, pos => if allZero (f.drop pos) && decide (pos ≤ f.length) then some [] else none
  | n + 1, k, pos =>
    let e := 16 + 112 * k
    let pos := (pos + 15) / 16 * 16
    let hdr : BitVec 512 := BitVec.ofNat 512 (num f pos 64)
    let bytes := fld hdr 0 32
    let image := sha384 (cut f pos (64 + bytes))
    match plotSetOf (cut f pos (64 + bytes)) image hdr with
    | none => none
    | some set =>
      let tenant := set.library == 0
      let stop := pos + 64 + bytes + (if tenant then 96 else 0)
      if f.length < stop ∨ num f (e + 96) 16 ≠ 0 then none
      else
        let x : FabricEntry :=
          { digest := BitVec.ofNat 384 (num f e 48), signer := BitVec.ofNat 384 (num f (e + 48) 48), set := set,
            imageDigest := image,
            signature := if tenant then BitVec.ofNat 768 (num f (pos + 64 + bytes) 96) else 0 }
        (fabricEntries f n (k + 1) stop).map fun l => x :: l

/-- The FABRIC section; an object without one has no entry. -/
def fabricOf (f : List Byte) : Option (List FabricEntry) :=
  if f.isEmpty then some []
  else
    let n := num f 0 4
    if f.length < 16 + 112 * n ∨ num f 4 12 ≠ 0 then none else fabricEntries f n 0 (16 + 112 * n)

/-- The ranges of a GROUP record. -/
def groupRanges (g : List Byte) : Nat → Nat → List (Nat × Nat)
  | 0, _ => []
  | n + 1, pos => (num g pos 2, num g (pos + 2) 2) :: groupRanges g n (pos + 4)

/-- The records of a GROUP section (R318) with their member sets; none where one breaks the rules for an instance of a number of
tiles. -/
def groupRecords (tiles : Nat) : Nat → List Byte → Option (List (BitVec 8 × List Nat))
  | 0, g => if g.isEmpty then some [] else none
  | fuel + 1, g =>
    if g.isEmpty then some []
    else
      let gid := num g 0 2
      let n := num g 2 2
      let rs := groupRanges g n 4
      if g.length < 4 + 4 * n ∨ 255 < gid ∨ n = 0 ∨ rs.any (fun r => decide (r.2 < r.1) || decide (tiles ≤ r.2)) then none
      else
        let ms := (List.range tiles).filter fun t => rs.any fun r => decide (r.1 ≤ t) && decide (t ≤ r.2)
        (groupRecords tiles fuel (g.drop (4 + 4 * n))).map fun l => (BitVec.ofNat 8 gid, ms) :: l

/-- The GROUP section. -/
def groupsOf (tiles : Nat) (g : List Byte) : Option (List (BitVec 8 × List Nat)) :=
  match groupRecords tiles (g.length + 1) g with
  | none => none
  | some l =>
    if pairwise (fun a b => a.1 != b.1) l
        && (List.range tiles).all (fun t => decide ((l.filter fun x => x.2.contains t).length ≤ 4)) then some l
    else none

/-- A section put into a list in ascending order of offset and then of size. -/
def putSection (x : Section) : List Section → List Section
  | [] => [x]
  | y :: l => if x.off < y.off ∨ x.off = y.off ∧ x.size ≤ y.size then x :: y :: l else y :: putSection x l

/-- Whether each section of a list but the last ends, rounded up to 16, where the next begins. -/
def contiguous : List Section → Bool
  | [] => true
  | x :: l => (match l with | [] => true | y :: _ => y.off == (x.off + x.size + 15) / 16 * 16) && contiguous l

/-- The load run (R300, R304): BLOCKS, STRIP, DATA and CONST one after another; its offset and length, or none. -/
def loadRun (l : List Section) : Option (Nat × Nat) :=
  let xs := (([2, 3, 4, 5] : List Nat).filterMap fun ty => sectionOf l ty).foldl (fun l x => putSection x l) []
  let lo := (xs.headD ⟨0, 0, 0⟩).off
  let hi := xs.foldl (fun m x => Nat.max m (x.off + x.size)) 0
  if contiguous xs && decide (hi - lo ≤ 0x127000) then some (lo, hi - lo) else none

/-- The operator descriptor of a tile operator's entry in BLOCKS (R297). -/
def descriptorOf (blocks : List Byte) (entry : Nat) : BitVec 512 := BitVec.ofNat 512 (num blocks (entry - 64) 64)

/-- Producer and consumer of a channel in a descriptor. -/
def descBinding (d : BitVec 512) (c : Nat) : Nat × Nat := (fld d (6 * c) 3, fld d (6 * c + 3) 3)

/-- The VC that a channel is linked to in a descriptor. -/
def descLink (d : BitVec 512) (c : Nat) : Option (BitVec 2 × BitVec 5) :=
  let x := fld d (96 + 8 * c) 8
  if x / 128 = 0 then none else some (BitVec.ofNat 2 (x / 32 % 4), BitVec.ofNat 5 (x % 32))

/-- Whether an edge of the graph sets a VC of a node as outbound, or as inbound. -/
def vcEdge (es : List Edge) (node : BitVec 16) (out : Bool) (v : BitVec 2 × BitVec 5) : Option Edge :=
  es.find? fun e => (if out then e.src == node && e.srcPort.toNat == vcIdx v.1 v.2 else e.dst == node && e.dstPort.toNat == vcIdx v.1 v.2)

/-- The rules of R297 on a descriptor. -/
def descriptorOk (es : List Edge) (node : BitVec 16) (d : BitVec 512) : Bool :=
  fld d 345 39 == 0
    && (List.range 16).all (fun c =>
      let b := descBinding d c
      (b == (0, 0) || (decide (1 ≤ b.1 ∧ b.1 ≤ 6) && decide (1 ≤ b.2 ∧ b.2 ≤ 6)))
        && (match descLink d c with
          | none => true
          | some v =>
            (b.1 == 2 || b.2 == 2) && ((vcEdge es node true v).isNone || b.2 == 2) && ((vcEdge es node false v).isNone || b.1 == 2)))
    && (List.range 4).all fun f =>
      let x := fld d (384 + 32 * f) 32
      x / 2 ^ 23 == 0 && x / 2 ^ 7 % 4 == 0 && (x / 2 ^ 9 % 4 == 0 || x % 128 != 0)

/-- The ports that a node offers: input and output. -/
def Node.portLimit (n : Node) (fs : List FabricEntry) : Nat × Nat :=
  if n.fabric then match fs[n.entry]? with
    | some f => if f.set.library == 0 then (f.set.ports, f.set.ports) else libraryPorts f.set.library.toNat f.set.params
    | none => (0, 0)
  else (128, 128)

/-- The rules of R299 and R300 on an edge. -/
def edgeOk (ns : List Node) (fs : List FabricEntry) (constSize : Nat) (e : Edge) : Bool :=
  match ns.find? (fun n => n.id == e.src), ns.find? fun n => n.id == e.dst with
  | some a, some b =>
    let wide (n o : Node) : Nat := if n.fabric && !o.fabric then o.rows * o.cols else 1
    decide (e.srcPort.toNat + wide a b ≤ (a.portLimit fs).2) && decide (e.dstPort.toNat + wide b a ≤ (b.portLimit fs).1)
      && (a.fabric || b.fabric || (a.rows == b.rows && a.cols == b.cols))
      && (a.fabric && b.fabric || decide (e.frame ≤ 65535))
      && (e.initData == 0xFFFFFFFF || decide (e.initData.toNat + e.init * unitBytes e.fmt ≤ constSize))
  | _, _ => false

/-! ### The initial-token rule (R301) -/

/-- The vertices that no arc enters from one that is left, taken away as often as there are vertices. -/
def peel (arcs : List (BitVec 16 × BitVec 16)) : Nat → List (BitVec 16) → List (BitVec 16)
  | 0, l => l
  | n + 1, l => peel arcs n (l.filter fun v => arcs.any fun a => a.2 == v && l.contains a.1)

/-- Whether the arcs have no directed cycle. -/
def acyclic (vs : List (BitVec 16)) (arcs : List (BitVec 16 × BitVec 16)) : Bool := (peel arcs vs.length vs).isEmpty

/-! ### Verification (R300) -/

/-- Verification of an object's bytes from check 3 on, for a context: the code of its refusal, or the kernel with no reference yet. -/
def verifyObject (c : Context) (bs : List Byte) : Except Byte Kernel :=
  match objectSections bs with
  | none => .error cIllegal
  | some l =>
    let sigAt := bs.length - 144
    let signer : Digest := BitVec.ofNat 384 (num bs (sigAt + 96) 48)
    let kernelSigners := match c.policy with | some p => p.kernelSigners | none => []
    let plotSigners := match c.policy with | some p => p.plotSigners | none => []
    if Config.signerOf (sha384 (bs.take sigAt)) (BitVec.ofNat 768 (num bs sigAt 96)) ≠ some signer
        ∨ !kernelSigners.contains signer then .error cPermission
    else if w64 (num bs 8 8) &&& ~~~c.feat != 0 then .error cMasked
    else
      let blocks := sectionBytes bs l 2
      let konst := sectionBytes bs l 5
      match graphOf (sectionBytes bs l 1), fabricOf (sectionBytes bs l 6), loadRun l, sectionOf l 2 with
      | some (ns, es), some fs, some (b, size), some blockSec =>
        let tiles := (ns.map fun n => n.rows * n.cols).sum
        match groupsOf tiles (sectionBytes bs l 7) with
        | none => .error cIllegal
        | some groups =>
          let nodesOk := ns.all fun n =>
            if n.fabric then decide (n.entry < fs.length)
            else n.entry % 16 == 0 && decide (64 ≤ n.entry) && decide (n.entry < blocks.length)
              && descriptorOk es n.id (descriptorOf blocks n.entry)
          if tiles = 0 ∨ !(pairwise (fun a b => a.id != b.id) ns) ∨ !nodesOk ∨ !(es.all (edgeOk ns fs konst.length)) then
            .error cIllegal
          else if !(fs.all fun f => f.digest == f.imageDigest &&
              (if f.set.library == 0 then
                Config.signerOf f.imageDigest f.signature == some f.signer && plotSigners.contains f.signer
              else f.signer == Config.libraryKey)) then .error cPermission
          else
            let sets := fs.map (·.set)
            let plots := (ns.map fun n => if n.fabric then match sets[n.entry]? with | some p => p.plots | none => 0 else 0).sum
            let ok := match c.grant with | some g => decide (tiles ≤ g.tiles ∧ plots ≤ g.plots) | none => false
            if !ok then .error cPermission
            else if !acyclic (ns.map (·.id)) ((es.filter fun e => e.init == 0).map fun e => (e.src, e.dst)) then .error cDeadlock
            else .ok { digest := sha384 bs, id := w64 (num bs 18 8), refs := [], nodes := ns, edges := es, sets := sets, groups := groups,
                       run := cut bs b size, base := blockSec.off - b, const := konst }
      | _, _, _, _ => .error cIllegal

end Sys2Proof.Machine
end

