-- ==== Sys2Proof/Machine/Place.lean ====
section
/-! DEFINITION. Placing an instance: physical tiles and plots, what placement leaves in every tile and node, and the start, the
finish and the retirement of an instance (R295, R297, R299, R302, R304-R309, R317, R321). -/

namespace Sys2Proof.Machine

/-! ### What placement leaves in a tile (R122, R133, R190, R304) -/

/-- A strip at placement (R190, R226). -/
def Strip.start : Strip :=
  { v := Vector.replicate 8 0, k := Vector.replicate 8 0, flags := 0, queue := [], run := none, free := 0, cur := none, flight := [],
    hard := Vector.replicate 4 0, stopped := false, checkFault := false }

/-- The matrix engine at placement (R233, R241). -/
def Mxe.start : Mxe :=
  { slots := Vector.replicate 16 { logic := .free, image := 0, failed := false, filled := [] }, accs := Vector.replicate 8 0, queue := [],
    src := none, beat := [], held := none, pipe := [], nextAt := 0, work := [], ord := 0, flags := 0, sat := false, stopped := false }

/-- The sequencer of a tile whose entry block is at an address. -/
def Seq.start (entry : W64) : Seq :=
  { next := entry, block := none, turn := none, park := none, outer := none, halted := false, finished := false, started := false,
    invWait := false, fence := none, pend := .empty, service := none }

/-- The special registers at placement (R122). -/
def SRegs.start (ctx feat : W64) : SRegs :=
  { ctx := ctx, fmode := 1, hvec := 0, cause := 0, info := 0, epc := 0, cycle := 0, feat := feat, wto := 0 }

/-- A tile with the values of placement that follow from no object: its physical tile, its logical id, its entry, sr.ctx, sr.feat. -/
def Tile.blank (phys ltid : Nat) (entry ctx feat : W64) : Tile :=
  { phys := phys, place := .running, since := 0, resumes := 0, spot := 0, node := 0, coarse := false, slice := ⟨[]⟩, full := [], bad := [], watches := [],
    wakes := [], takes := [], reserved := [], sbuf := [], kept := [],
    g := (Vector.replicate 32 0).set 30 (windowBase ltid + 0x128000),
    sr := SRegs.start ctx feat, lenmis := false, xflags := 0, sem := Vector.replicate 64 0, heldInc := [],
    fifo := Vector.replicate 30 0, chan := Vector.replicate 16 Channel.empty, vc := Vector.replicate 128 Vc.empty,
    scale := Vector.replicate 32 0x3F800000, filters := [], gslot := Vector.replicate 4 allOnes, seq := Seq.start entry, cyc := 0,
    phase := .start, ast := Strip.start, est := Strip.start, pst := Strip.start, mxe := Mxe.start,
    stream := Vector.replicate 16 Stream.start, halos := [], phases := [], pageSeq := 0, runCycles := 0, served := some 0 }

/-- The used filter entries of a descriptor (R297). -/
def descFilters (d : BitVec 512) : List Filter :=
  (List.range 4).filterMap fun f =>
    let x : BitVec 32 := d.extractLsb' (384 + 32 * f) 32
    if fld x 9 2 = 0 then none
    else some { port := x.extractLsb' 21 2, vc := x.extractLsb' 16 5, entry := x.extractLsb' 0 7, kind := x.extractLsb' 9 2,
                fmt := x.extractLsb' 11 4, sat := x.getLsbD 15 }

/-- The operator descriptor of a node, from the load run (R297). -/
def Kernel.descriptor (k : Kernel) (n : Node) : BitVec 512 := descriptorOf (k.run.drop k.base) n.entry

/-- The filter that a node's descriptor installs for a VC. -/
def Kernel.filterFor (k : Kernel) (n : Node) (port : BitVec 2) (vc : BitVec 5) : Option Filter :=
  (descFilters (k.descriptor n)).find? fun f => f.port == port && f.vc == vc

/-- A node of the graph by its id. -/
def Kernel.node? (k : Kernel) (id : BitVec 16) : Option Node := k.nodes.find? fun n => n.id == id

/-- The VC entry that an edge sets on the tile at a position of its source (R171, R299). -/
def Kernel.outEntry (k : Kernel) (n : Node) (pos : Nat) (e : Edge) : W64 :=
  let port : BitVec 2 := e.srcPort.extractLsb' 5 2
  let vc : BitVec 5 := e.srcPort.extractLsb' 0 5
  let filter := match k.filterFor n port vc with | some f => f.entry.toNat | none => 0
  let route := match k.node? e.dst with
    | some d => if d.fabric then 2 ^ 46 + e.dst.toNat * 2 ^ 30
      else (d.first + pos) * 2 ^ 30 + (e.dstPort.toNat % 32) * 2 ^ 25 + (e.dstPort.toNat / 32) * 2 ^ 23
    | none => 0
  w64 (e.fmt.toNat * 2 ^ 60 + 2 ^ 59 + filter * 2 ^ 48 + route + e.frame % 2 ^ 16 * 2 + 1)

/-- The format in which an edge delivers (R299): that of a convert filter on its route, else its own. -/
def Kernel.edgeOut (k : Kernel) (e : Edge) : BitVec 4 :=
  match k.node? e.src with
  | some n =>
    if n.fabric then e.fmt
    else match k.filterFor n (e.srcPort.extractLsb' 5 2) (e.srcPort.extractLsb' 0 5) with
      | some f => if f.kind == 1 then f.fmt else e.fmt
      | none => e.fmt
  | none => e.fmt

/-- The VC entry that an edge sets on every tile of its destination. -/
def Kernel.inEntry (k : Kernel) (e : Edge) : W64 :=
  w64 ((k.edgeOut e).toNat * 2 ^ 60 + (e.depth - 1) * 2 ^ 17 + e.frame % 2 ^ 16 * 2 + 1)

/-- The initial units of an edge (R302). -/
def Kernel.initUnits (k : Kernel) (e : Edge) : List LinkUnit :=
  (List.range e.init).map fun j =>
    let n := unitBytes e.fmt
    let v := if e.initData == 0xFFFFFFFF then 0 else num k.const (e.initData.toNat + j * n) n
    ⟨BitVec.ofNat 144 v, 0, (j + 1) % e.frame == 0, false⟩

/-- The VCs of the tile at a position of a node: the edges' entries, initial units and demand (R299, R302). VC 16 to 31 of port 3 take units
from sessions alone (R373), so an edge gives them none. -/
def Kernel.placeVcs (k : Kernel) (n : Node) (pos : Nat) (vcs : Vector Vc 128) : Vector Vc 128 :=
  k.edges.foldl (fun vcs e =>
    let vcs := if e.src == n.id then vmod vcs e.srcPort.toNat fun v => { v with entry := k.outEntry n pos e } else vcs
    if e.dst == n.id then vmod vcs e.dstPort.toNat fun v =>
      if 112 ≤ e.dstPort.toNat then { v with entry := k.inEntry e, granted := e.depth }
      else { v with entry := k.inEntry e, arrived := (k.initUnits e).map fun u => (e.fmt, u), granted := e.depth - e.init }
    else vcs) vcs

/-- The channels of a descriptor (R297). -/
def placeChannels (d : BitVec 512) : Vector Channel 16 :=
  Vector.ofFn fun c : Fin 16 =>
    { Channel.empty with
      producer := BitVec.ofNat 3 (descBinding d c.val).1
      consumer := BitVec.ofNat 3 (descBinding d c.val).2
      link := descLink d c.val }

/-- A tile as placement leaves it (R304). -/
def Kernel.placeTile (k : Kernel) (n : Node) (pos phys : Nat) (args : List W64) (ctx feat : W64) : Tile :=
  let ltid := n.first + pos
  let d := k.descriptor n
  let t := Tile.blank phys ltid (windowBase ltid + w64 (0x1000 + k.base + n.entry)) ctx feat
  let gids := (k.groups.filter fun g => g.2.contains ltid).map (·.1.toNat)
  { t with
    node := n.id
    coarse := d.getLsbD 344
    slice := ⟨mkCells 0x1000 k.run⟩
    full := granulesOf 0x1000 k.run.length
    g := args.zipIdx.foldl (fun g (v, j) => vmod g (j + 1) fun _ => v) t.g
    fifo := Vector.ofFn fun j : Fin 30 => d.extractLsb' (224 + 4 * j.val) 4
    chan := placeChannels d
    vc := k.placeVcs n pos t.vc
    filters := descFilters d
    gslot := ((gids.foldl (fun l g => insertNat g l) []).zipIdx).foldl (fun v (g, j) => vmod v j fun _ => w64 g) t.gslot }

/-- A fabric operator as placement leaves it, not yet on plots (R302, R306). -/
def Kernel.placeNode (k : Kernel) (n : Node) (set : PlotSet) : FabNode :=
  let ins := k.edges.foldl (fun l e =>
    if e.dst == n.id then
      let wide := match k.node? e.src with | some a => if a.fabric then 1 else a.rows * a.cols | none => 1
      (List.range wide).foldl (fun l j =>
        putKey (e.dstPort.toNat + j)
          { fmt := k.edgeOut e, units := (k.initUnits e).map fun u => (e.fmt, u), granted := e.depth - e.init, window := e.depth, surplus := false } l) l
    else l) []
  { id := n.id, set := set, ins := ins, outs := [], heldUnits := [], took := [], inFrame := false, frames := 0,
    ram := List.replicate set.plots ⟨[]⟩, plots := [], gen := none, placed := false, stopped := false, pre := none, since := 0, served := some 0,
    finished := false }

/-! ### Physical tiles (R305) -/

/-- The physical tiles on which tiles of instances stand. -/
def State.usedPhys (s : State) : List Nat :=
  (s.insts.filter fun x => x.st != .retired).flatMap fun x => (x.tiles.filter fun t => t.place != .saved).map (·.phys)

/-- The free granted tiles of a context. -/
def State.freePhys (s : State) (tag : Byte) : List Nat :=
  let used := s.usedPhys
  (List.range s.tileCount).filter fun p =>
    let x := s.physAt p
    x.tag == tag && !x.mappedOut && x.preload.isNone && !used.contains p

/-- The tiles on which the LAUNCH of a queue with an order is preloaded (R288). -/
def State.preloadedFor (s : State) (tag : Byte) (q : BitVec 4) (ord : Nat) : List Nat :=
  (s.phys.filter fun p => p.2.tag == tag && p.2.preload == some (q, ord)).map (·.1)

/-- How many preloaded tiles a LAUNCH may start on beyond its context's free ones (R288, R289): as many as the context lacks of its grant, or
holds the state of a pre-empted tile on, which is saved for them (log 36). -/
def State.preloadRoom (s : State) (tag : Byte) (q : BitVec 4) (ord : Nat) : Nat :=
  match s.ctx? tag with
  | none => 0
  | some c => Nat.min (s.preloadedFor tag q ord).length (s.tilesShort c + (s.residents tag).length)

/-- A free rectangle within one cluster (R305). -/
def freeRect (free : List Nat) (rows cols : Nat) : Option (List Nat) :=
  if 8 < rows ∨ 8 < cols then none
  else (List.range 24).findSome? fun cl => (List.range (9 - rows)).findSome? fun r0 => (List.range (9 - cols)).findSome? fun c0 =>
    let l := (List.range (rows * cols)).map fun j => cl * 64 + (r0 + j / cols) * 8 + c0 + j % cols
    if l.all free.contains then some l else none

/-- The physical tiles of tile operators in order; none where there are too few. -/
def allocTiles : List Node → List Nat → Option (List (Node × List Nat))
  | [], _ => some []
  | n :: l, free =>
    let k := n.rows * n.cols
    let here := match freeRect free n.rows n.cols with
      | some r => r
      | none => free.take k
    if here.length < k then none
    else (allocTiles l (free.filter fun p => !here.contains p)).map fun r => (n, here) :: r

/-- The tile operators of a graph. -/
def Kernel.tileNodes (k : Kernel) : List Node := k.nodes.filter fun n => !n.fabric

/-- The tiles that an instance of a kernel needs. -/
def Kernel.tilesNeeded (k : Kernel) : Nat := (k.tileNodes.map fun n => n.rows * n.cols).sum

/-- The plots that an instance of a kernel needs. -/
def Kernel.plotsNeeded (k : Kernel) : Nat :=
  k.setSizes.sum

/-- The finished tiles of the draining instances of a queue that still stand on physical tiles (R309). -/
def State.drainingTiles (s : State) (tag : Byte) (q : BitVec 4) : Nat :=
  (s.insts.map fun x =>
    if x.tag == tag && x.queue == q && x.st == .draining then
      (x.tiles.filter fun t => t.seq.finished && t.phys != noPhys).length else 0).sum

/-- The plots of finished nodes of the draining instances of a queue. -/
def State.drainingPlots (s : State) (tag : Byte) (q : BitVec 4) : Nat :=
  (s.insts.map fun x =>
    if x.tag == tag && x.queue == q && x.st == .draining then
      ((x.nodes.filter (·.finished)).map fun n => n.plots.length).sum else 0).sum

/-- Whether the allocator can place the instance of a LAUNCH of a queue with an order (R285, R288, R305): the tiles and plots of instances that
wait for their placement are spoken for. -/
def State.canPlace (s : State) (tag : Byte) (q : BitVec 4) (ord : Nat) (k : Kernel) : Bool :=
  let waiting := s.insts.filter fun x => x.tag == tag && x.st == .submitted
  let unplaced := s.insts.filter fun x => x.tag == tag && x.st != .submitted && x.st != .retired
  let spokenT := (waiting.map fun x => x.kernel.tilesNeeded).sum
  let spokenP := (waiting.map fun x => x.kernel.plotsNeeded).sum
    + (unplaced.map fun x => ((x.nodes.filter fun n => !n.placed && !n.finished).map fun n => n.set.plots).sum).sum
  decide (k.tilesNeeded + spokenT ≤ (s.freePhys tag).length + s.drainingTiles tag q + s.preloadRoom tag q ord)
    && decide (k.plotsNeeded + spokenP ≤ (s.freePlots tag).length + s.drainingPlots tag q)

/-! ### Placement and start (R295, R304) -/

/-- An instance of a kernel as a LAUNCH submits it. -/
def Inst.submitted (tag : Byte) (q : BitVec 4) (k : Kernel) (launch : W32) (budget ord : Nat) (args : List W64) : Inst :=
  { tag := tag, queue := q, kernel := k, launch := launch, budget := budget, ord := ord, args := args, st := .submitted, tiles := [],
    nodes := [], groups := k.groups, bars := [], barMsgs := [], notices := [], permits := [], escalated := false }

/-- sr.ctx (R125). -/
def Inst.srCtx (x : Inst) : W64 := x.launch ++ (BitVec.ofNat 20 0 ++ x.queue ++ x.tag)

/-- The number of a tile's cluster or die among those of its instance, in the order of the lowest logical id (R276). -/
def placeIndex (l : List Nat) (x : Nat) : Nat := (l.eraseDups.idxOf? x).getD 0

/-- What CTXQ item 0 gives of a physical tile as the tiles of the instance stand; one that is saved stands in no cluster or die (R276). -/
def Inst.placement (x : Inst) (phys : Nat) : W64 :=
  let ps := (x.tiles.map (·.phys)).filter fun p => p != noPhys
  let cl := ps.map fun p => p / 64
  let di := ps.map fun p => p / 384
  w64 ((placeIndex cl (phys / 64)) + (placeIndex di (phys / 384)) * 2 ^ 16 + (cl.count (phys / 64)) * 2 ^ 32
    + (di.count (phys / 384)) * 2 ^ 48)

/-- An instance whose tiles all see where they stand. -/
def Inst.seePlace (x : Inst) : Inst := { x with tiles := x.tiles.map fun t => { t with spot := x.placement t.phys } }

/-- An instance on the physical tiles of an allocation; it is Placed once its plot sets stand too (R295). -/
def Inst.place (x : Inst) (feat : W64) (alloc : List (Node × List Nat)) : Inst :=
  Inst.seePlace { x with
    st := if x.kernel.nodes.any (·.fabric) then .placing else .placed
    tiles := alloc.flatMap fun (n, ps) => ps.zipIdx.map fun (p, j) => x.kernel.placeTile n j p x.args x.srCtx feat
    nodes := x.kernel.nodes.filterMap fun n =>
      if n.fabric then (x.kernel.sets[n.entry]?).map fun s => x.kernel.placeNode n s else none }

/-- Whether the context of an instance runs: a paused instance keeps its state and its resources (R295). -/
def State.instActive (s : State) (x : Inst) : Bool := match s.ctx? x.tag with | some c => c.active | none => false

/-- INSTANCE_START: once every plot set stands, every tile fetches its entry block from the same cycle on. -/
def execInstanceStart (s : State) : Res :=
  match s.inst? s.focus.inst with
  | none => .next s
  | some x =>
    if x.st != .placed || !(x.nodes.all (·.placed)) || !s.instActive x then .next s
    else .next (s.modInst s.focus.inst fun x =>
      { x with st := .running, tiles := x.tiles.map fun t => { t with seq := { t.seq with started := true } } })

/-! ### The end of an instance (R117, R295, R308, R309) -/

/-- TILE_FINISH: a tile whose HALT has committed, with no fault to deliver, no handler and no work of its engines left, has finished;
after the last tile the instance drains. -/
def execTileFinish (s : State) : Res :=
  s.onTile fun x t =>
    if !t.seq.halted || t.seq.finished || t.handler || t.seq.block.isSome || t.seq.pend.any || t.seq.invWait || !t.sbuf.isEmpty
        || t.place != .running || !s.workRetired s.focus.inst s.focus.tile t then .next s
    else
      let last := (x.tiles.zipIdx).all fun (y, k) => k == s.focus.tile || y.seq.finished
      .next ((s.modFocus fun t => { t with seq := { t.seq with finished := true } }).modInst s.focus.inst fun x =>
        if last then { x with st := .draining } else x)

/-- INSTANCE_RETIRE: once every tile and node has finished, the instance is over, its LAUNCH completes, and its tiles and plots are
the context's again. -/
def execInstanceRetire (s : State) : Res :=
  match s.inst? s.focus.inst with
  | none => .next s
  | some x =>
    if x.st != .draining || !(x.tiles.all fun t => t.seq.finished && t.seq.block.isNone && t.sbuf.isEmpty) || !(x.nodes.all (·.finished))
        || !s.instActive x then .next s
    else
      let s := s.modCtx x.tag fun c => (List.range x.tiles.length).foldl (fun c k => c.dropAskers s.focus.inst k 0 1056) c
      let s := s.modInst s.focus.inst fun x =>
        { x with st := .retired, tiles := [], nodes := [], permits := [], bars := [], barMsgs := [], notices := [] }
      .next (s.completePacket x.tag x.queue x.ord)

/-- Whether the old kernel's units have left the outbound VCs of a tile, and the channels linked to them (R309). -/
def Tile.sentAll (t : Tile) : Bool :=
  (t.vc.toList.all fun v => v.feed.isEmpty && v.pend.isEmpty && v.filt.isEmpty && v.ready.isEmpty)
    && (List.range 128).all fun j => match t.linkedChan (BitVec.ofNat 2 (j / 32)) (BitVec.ofNat 5 (j % 32)) true with
      | some k => (t.chanAt k).entries.isEmpty
      | none => true

/-- WAVEFRONT_RECONFIGURE: while the next instance of its queue waits for placement, the physical tile of a finished tile in focus whose
units have left, and the plots of the finished nodes whose units have, of a draining instance that is not paused are free for it. -/
def execWavefrontReconfigure (s : State) : Res :=
  match s.inst? s.focus.inst with
  | none => .next s
  | some x =>
    if x.st != .draining || !s.instActive x || !(s.insts.any fun y => y.tag == x.tag && y.queue == x.queue && (y.st == .submitted || y.st == .placing || y.st == .placed)) then
      .next s
    else .next (s.modInst s.focus.inst fun x =>
      { x with
        tiles := x.tiles.modify s.focus.tile fun t => if t.seq.finished && t.sentAll then { t with phys := noPhys } else t
        nodes := x.nodes.map fun n => if n.finished && n.outs.isEmpty then { n with plots := [], gen := none } else n })

/-! ### Plot sets (R306, R307) -/

/-- The nodes of instances that stand on plots of a clock generator, by their highest clock. -/
def State.genUsers (s : State) (g : Nat) : List Nat :=
  (s.insts.filter fun x => x.st != .retired).flatMap fun x => (x.nodes.filter fun n => n.gen == some g).map fun n => n.set.fmax

/-- The highest frequency of a generator: that of the plot sets which use it. -/
def State.genTop (s : State) (g : Nat) : Nat := (s.genUsers g).foldl Nat.min 800

/-- The frequency of a generator. -/
def State.genAt (s : State) (g : Nat) : Nat := vget s.gens g 800

/-- All nodes on a generator moved to another. -/
def State.moveGen (s : State) (a b : Nat) : State :=
  { s with insts := s.insts.map fun x =>
    { x with nodes := x.nodes.map fun n => if n.gen == some a then { n with gen := some b } else n } }

/-- Setting a generator. -/
def State.setGen (s : State) (g f : Nat) : State := { s with gens := vmod s.gens g fun _ => f }

/-- After a step, a generator whose slowest plot set has left it runs at the highest frequency of those which still use it (R306), unless the power
manager holds it lower. -/
def State.retune (old new : State) : State :=
  { new with gens := Vector.ofFn fun g : Fin 32 =>
      let f := vget new.gens g.val 800
      if f == old.genAt g.val && f == old.genTop g.val && !(new.genUsers g.val).isEmpty then Nat.max f (new.genTop g.val) else f }

/-- The nearest two of the used frequencies of a die: those with the smallest difference. -/
def nearestPair (l : List (Nat × Nat)) : Option ((Nat × Nat) × (Nat × Nat)) :=
  let ps := l.zipIdx.flatMap fun (a, i) => (l.drop (i + 1)).map fun b => (a, b)
  let d (p : (Nat × Nat) × (Nat × Nat)) : Nat := Nat.max p.1.2 p.2.2 - Nat.min p.1.2 p.2.2
  ps.foldl (fun best p => match best with
    | none => some p
    | some q => if d p < d q then some p else some q) none

/-- A generator of a die for a plot set with a highest clock (R306): one that runs at it, one that nothing uses, or, when the die needs
more than 8 frequencies, the two nearest are merged at the lower. -/
def State.assignGen (s : State) (die f : Nat) : Nat × State :=
  let gs := (List.range 8).map fun k => die * 8 + k
  match gs.find? fun g => !(s.genUsers g).isEmpty && s.genAt g == f with
  | some g => (g, s)
  | none => match gs.find? fun g => (s.genUsers g).isEmpty with
    | some g => (g, s.setGen g f)
    | none =>
      -- index 32 stands for the new frequency
      match nearestPair ((gs.map fun g => (g, s.genAt g)) ++ [(32, f)]) with
      | some (a, b) =>
        let low := Nat.min a.2 b.2
        if b.1 = 32 then (a.1, s.setGen a.1 low)
        else (b.1, ((s.moveGen b.1 a.1).setGen a.1 low).setGen b.1 f)
      | none => (die * 8, s)

/-- Changing a fabric node of an instance by its place in the list. -/
def State.modNode (s : State) (i k : Nat) (f : FabNode → FabNode) : State :=
  s.modInst i fun x => { x with nodes := x.nodes.modify k f }

/-- A fabric node of the instance in focus. -/
def State.node? (s : State) (k : Nat) : Option (Inst × FabNode) :=
  match s.inst? s.focus.inst with
  | none => none
  | some x => (x.nodes[k]?).map fun n => (x, n)

/-- A plot set that an error of its configuration has stopped loses what it holds when it is swapped (R401). -/
def FabNode.lose (n : FabNode) : FabNode :=
  if n.stopped then { n with outs := [], heldUnits := [], took := [], inFrame := false, ram := n.ram.map fun _ => ⟨[]⟩,
                             ins := n.ins.map fun p => (p.1, { p.2 with units := [] }) }
  else n

/-- HOT_SWAP: a plot set at a frame boundary moves to other free granted plots, of the die of the one named; its values, its block RAM and its
order stay as they are, unless an error of its configuration has stopped it, and its old plots are free. Acorn verifies the image again as it
loads it (R20). -/
def execHotSwap (node : Nat) (plot : Nat) (s : State) : Res :=
  match s.node? node with
  | none => .next s
  | some (x, n) =>
    let free := (s.freePlots x.tag).filter fun p => p / 128 == plot / 128
    if !n.placed || (n.inFrame && !n.stopped) || n.finished || !free.contains plot || free.length < n.set.plots || sha384 n.set.bits != n.set.image then .next s
    else
      let r := (s.modNode s.focus.inst node fun n => { n with gen := none }).assignGen (plot / 128) n.set.fmax
      .next (r.2.modNode s.focus.inst node fun n =>
        { n.lose with plots := (plot :: free.filter fun p => p != plot).take n.set.plots, gen := some r.1 })

end Sys2Proof.Machine
end

