-- ==== Sys2Proof/Machine/Fabric.lean ====
section
/-! DEFINITION. Fabric operators: sending what they emit, the library operators, and their end (R265, R298, R308, R310-R312). -/

namespace Sys2Proof.Machine

/-! ### Inputs and outputs of a fabric operator (R310) -/

/-- A unit with the format in which it travels. -/
abbrev FUnit := BitVec 4 × LinkUnit

/-- The first unit of an input. -/
def FabNode.head? (n : FabNode) (p : Nat) : Option FUnit := (lookupKey p n.ins).bind fun x => x.units.head?

/-- Changing an input. -/
def FabNode.modIn (n : FabNode) (p : Nat) (f : FabIn → FabIn) : FabNode :=
  { n with ins := n.ins.map fun x => if x.1 == p then (x.1, f x.2) else x }

/-- The first unit of an input taken. -/
def FabNode.pop (n : FabNode) (p : Nat) : FabNode := n.modIn p fun x => { x with units := x.units.tail }

/-- Units up to and including the first end, which are discarded; none where no end has come yet. -/
def dropToEnd : List FUnit → Option (List FUnit)
  | [] => none
  | u :: l => if u.2.last then some l else dropToEnd l

/-- An input whose units are surplus up to and including its next end (R310). -/
def FabNode.dropFrame (n : FabNode) (p : Nat) : FabNode :=
  n.modIn p fun x => match dropToEnd x.units with
    | some l => { x with units := l }
    | none => { x with units := [], surplus := true }

/-- Bits lo to lo + k - 1 of the parameters, numbered from header bit 128. -/
def FabNode.par (n : FabNode) (lo k : Nat) : Nat := fld n.set.params lo k

/-- What a firing gives: the node after it, the units it emits by port, conversion flags, and whether it met a length mismatch. -/
structure Firing where
  node : FabNode
  outs : List (Nat × FUnit)
  flags : BitVec 5 := 0
  mis : Bool := false

/-- The end of a frame that holds no unit. -/
def emptyEnd (tag : Byte) : LinkUnit := ⟨0, tag, true, true⟩

/-- The edge that leaves a fabric operator by a port, with the position of the port in it (R299). -/
def Kernel.fabEdge (k : Kernel) (id : BitVec 16) (p : Nat) : Option (Edge × Node × Nat) :=
  k.edges.findSome? fun e => match k.node? e.dst with
    | none => none
    | some d =>
      let n := if d.fabric then 1 else d.rows * d.cols
      if e.src == id && decide (e.srcPort.toNat ≤ p) && decide (p < e.srcPort.toNat + n) then some (e, d, p - e.srcPort.toNat) else none

/-- The copy engine to which a port of a fabric operator on a plot leads, with the permit counter where it is one, that no edge of its graph
carries: the spec gives no record of a graph that names it (R180, log 15). -/
def Kernel.fabEngine (k : Kernel) (id : BitVec 16) (p plot : Nat) : Option (Nat × Option (BitVec 5)) :=
  (Config.fabricEngine k.digest id p).map fun r => (plot / 128 * 6 + r.1.val, r.2)

/-- One unit sent by a port of a fabric operator that stands on a plot, against demand; what leads nowhere is dropped. -/
def State.fabSend (s : State) (i : Nat) (k : Kernel) (id : BitVec 16) (plot p : Nat) (u : FUnit) : Option State :=
  match k.fabEdge id p with
  | none => (match k.fabEngine id p plot with
    | none => some s
    | some (eng, permit) => s.unitToEngine eng (.node plot) i (65536 * id.toNat + p) permit u.2)
  | some (e, d, pos) => match s.inst? i with
    | none => none
    | some x =>
      let goal := if d.fabric then x.nodePlace e.dst else x.tilePlace (d.first + pos)
      if s.routeDead x.tag (4096 + plot) goal || (!d.fabric && !localVc (e.dstPort.extractLsb' 5 2) (e.dstPort.extractLsb' 0 5)) then none
      else (if d.fabric then s.unitToNode i e.dst (e.dstPort.toNat + pos) u.1 u.2
        else s.unitToTile i (d.first + pos) (e.dstPort.extractLsb' 5 2) (e.dstPort.extractLsb' 0 5) u.1 u.2).map fun s =>
          s.huskCross x.tag (4096 + plot) goal u.2

/-- Emitted units sent in order, those of a port that has no demand kept: what is left, and the state. -/
def State.fabSendAll (i : Nat) (k : Kernel) (id : BitVec 16) (plot : Nat) : List (Nat × FUnit) → List Nat → State → List (Nat × FUnit) × State
  | [], _, s => ([], s)
  | (p, u) :: l, shut, s =>
    if shut.contains p then
      let r := State.fabSendAll i k id plot l shut s
      ((p, u) :: r.1, r.2)
    else match s.fabSend i k id plot p u with
      | some s => State.fabSendAll i k id plot l shut s
      | none =>
        let r := State.fabSendAll i k id plot l (p :: shut) s
        ((p, u) :: r.1, r.2)

/-- What a fabric operator has emitted sent as far as demand allows. -/
def State.fabFlush (s : State) (i node : Nat) (x : Inst) (n : FabNode) : State :=
  let r := State.fabSendAll i x.kernel n.id (n.plots.headD 0) n.outs [] s
  r.2.modNode i node fun n => { n with outs := r.1 }

/-- Whether a fabric operator runs (R265, R295, R395): its instance and its context do; once it is to stop, only a frame that it has begun, and
what it has emitted, go on, for up to 4,096 cycles of the fabric; once it has finished, what it has emitted still leaves (R308). -/
def State.nodeRuns (s : State) (x : Inst) (n : FabNode) : Bool :=
  n.placed && (!n.finished || (!n.stopped && !n.outs.isEmpty)) && (x.st == .running || x.st == .draining)
    && (match s.ctx? x.tag with | some c => c.st == .running | none => false)
    && (if n.stopped || n.pre.isSome then (n.inFrame || !n.outs.isEmpty) && decide (n.pre.getD 0 < 4096) else true)

/-- What a firing of a fabric operator that holds nothing emitted leads to: each output that it writes has demand for a unit; none where it
cannot fire. -/
def State.fabEmit (s : State) (i node : Nat) (x : Inst) (r : Firing) : Option State :=
  let n' := { r.node with outs := r.outs }
  let s' := (s.modNode i node fun _ => n').fabFlush i node x n'
  let left := match (s'.inst? i).bind fun y => y.nodes[node]? with | some m => m.outs | none => []
  let ports := (r.outs.map (·.1)).eraseDups
  if ports.any fun p => (left.countP fun o => o.1 == p) == (r.outs.countP fun o => o.1 == p) then none
  else
    let s' := s'.modTile i 0 fun t => { t with xflags := t.xflags ||| r.flags }
    some (if r.mis then s'.lengthMismatch i 0 0 (w64 r.node.id.toNat) else s')

/-- What a fabric operator does next (R310): the units of an earlier firing leave first; none where nothing moves. -/
def State.fabGo (s : State) (i node : Nat) (x : Inst) (n : FabNode) (fire : Option Firing) : Option State :=
  if !n.outs.isEmpty then
    let s' := s.fabFlush i node x n
    match (s'.inst? i).bind fun y => y.nodes[node]? with
    | some m => if m.outs.length < n.outs.length then some s' else none
    | none => none
  else fire.bind (s.fabEmit i node x)

/-- A firing of a library operator of the instance in focus (R310). -/
def State.fabFire (s : State) (node lib : Nat) (fire : FabNode → Option Firing) : Res :=
  match s.node? node with
  | none => .next s
  | some (x, n) =>
    if n.set.library.toNat != lib || !s.nodeRuns x n then .next s
    else .next ((s.fabGo s.focus.inst node x n (fire n)).getD s)

/-! ### STEER and MERGE (R311) -/

/-- STEER of units. -/
def steerUnits (n : FabNode) : Option Firing :=
  match n.head? 0, n.head? 1 with
  | some (f, d), some (_, c) =>
    let none? := d.void || c.void
    let sel := if c.bits.getLsbD 0 then 0 else 1
    let n1 := if none? && !d.void then n else n.pop 0
    let n1 := if none? && !c.void then n1 else n1.pop 1
    let sent := if none? then [] else match lookupKey sel n.heldUnits with | some h => [(sel, h)] | none => []
    let held := if none? then n.heldUnits else putKey sel (f, { d with last := false }) n.heldUnits
    let dEnd := if none? then d.void else d.last
    let cEnd := if none? then c.void else c.last
    if !(dEnd || cEnd) then some { node := { n1 with heldUnits := held, inFrame := true }, outs := sent }
    else
      let ends := [0, 1].map fun o => match lookupKey o held with
        | some (g, u) => (o, (g, { u with last := true }))
        | none => (o, (f, emptyEnd d.tag))
      let n2 := if dEnd && !cEnd then n1.dropFrame 1 else if cEnd && !dEnd then n1.dropFrame 0 else n1
      some { node := { n2 with heldUnits := [], inFrame := false }, outs := sent ++ ends, mis := dEnd != cEnd }
  | _, _ => none

/-- A frame forwarded whole from an input to an output: its next unit. -/
def forwardUnit (n : FabNode) (input out : Nat) (sel : List Nat) : Option Firing :=
  match n.head? input with
  | none => none
  | some u =>
    let n := n.pop input
    some { node := if u.2.last then { n with inFrame := false, took := [] } else { n with inFrame := true, took := sel }
           outs := [(out, u)] }

/-- STEER of frames: one control unit per data frame. -/
def steerFrames (n : FabNode) : Option Firing :=
  match n.inFrame, n.took with
  | true, o :: _ => forwardUnit n 0 o [o]
  | _, _ => match n.head? 1 with
    | none => none
    | some (_, c) =>
      if c.void then some { node := n.pop 1, outs := [] }
      else
        let o := if c.bits.getLsbD 0 then 0 else 1
        if (n.head? 0).isNone then none else forwardUnit (n.pop 1) 0 o [o]

/-- STEER. -/
def steerFire (n : FabNode) : Option Firing := if n.par 0 1 = 0 then steerUnits n else steerFrames n

/-- Whether MERGE has taken a unit of a data input's frame in the control frame. -/
def FabNode.hasTaken (n : FabNode) (j : Nat) : Bool := n.took.contains j
/-- Whether a data input's frame has ended in the control frame. -/
def FabNode.hasEnded (n : FabNode) (j : Nat) : Bool := n.took.contains (10 + j)
/-- Whether the control frame has become surplus: marked 20 in took. -/
def FabNode.skips (n : FabNode) : Bool := n.took.contains 20

/-- The end of a control frame of MERGE: each data input's frame is completed; the node, and whether one did not end there. -/
def mergeClose (n : FabNode) : Option (FabNode × Bool) :=
  if [1, 2].any (fun j => !n.hasTaken j && (n.head? j).isNone) then none
  else
    let r := [1, 2].foldl (fun (a : FabNode × Bool) j =>
      if n.hasTaken j then (if n.hasEnded j then a else (a.1.dropFrame j, true))
      else match n.head? j with
        | some (_, u) => if u.void then (a.1.pop j, a.2) else (a.1.dropFrame j, true)
        | none => a) (n, false)
    some ({ r.1 with took := [], inFrame := false }, r.2)

/-- MERGE of units. -/
def mergeUnits (n : FabNode) : Option Firing :=
  match n.head? 0 with
  | none => none
  | some (_, c) =>
    let fmt := match lookupKey 1 n.ins with | some p => p.fmt | none => 0
    if n.skips && !c.last then some { node := n.pop 0, outs := [] }
    else if n.skips || c.void then
      (mergeClose (n.pop 0)).map fun r => { node := r.1, outs := [(0, (fmt, emptyEnd c.tag))], mis := r.2 }
    else
      let j := if c.bits.getLsbD 0 then 1 else 2
      let bad (n : FabNode) : Firing := { node := { n with took := 20 :: n.took, inFrame := true }, outs := [], mis := true }
      if n.hasEnded j then some (bad n)
      else match n.head? j with
        | none => none
        | some (f, u) =>
          let n1 := { n.pop j with took := j :: (if u.last then (10 + j) :: n.took else n.took), inFrame := true }
          if u.void then some (bad n1)
          else if !c.last then some { node := n1.pop 0, outs := [(0, (f, { u with last := false }))] }
          else (mergeClose (n1.pop 0)).map fun r => { node := r.1, outs := [(0, (f, { u with last := true }))], mis := r.2 }

/-- MERGE of frames: one control unit per frame. -/
def mergeFrames (n : FabNode) : Option Firing :=
  match n.inFrame, n.took with
  | true, j :: _ => forwardUnit n j 0 [j]
  | _, _ => match n.head? 0 with
    | none => none
    | some (_, c) =>
      if c.void then some { node := n.pop 0, outs := [] }
      else
        let j := if c.bits.getLsbD 0 then 1 else 2
        if (n.head? j).isNone then none else forwardUnit (n.pop 0) j 0 [j]

/-- MERGE. -/
def mergeFire (n : FabNode) : Option Firing := if n.par 0 1 = 0 then mergeUnits n else mergeFrames n

/-! ### Operators on whole frames (R312) -/

/-- The units that a node holds under a key, in order. -/
def FabNode.kept (n : FabNode) (k : Nat) : List FUnit := (n.heldUnits.filter fun h => h.1 == k).map (·.2)

/-- The next unit of an input taken into what the node holds under a key; the format, the tag and the units of the frame where it ends
there. -/
def FabNode.gatherUnit (n : FabNode) (input key : Nat) : Option (FabNode × Option (BitVec 4 × Byte × List (BitVec 144))) :=
  match n.head? input with
  | none => none
  | some u =>
    let held := n.kept key ++ [u]
    let n := n.pop input
    if u.2.last then
      let first := held.headD u
      some ({ n with heldUnits := n.heldUnits.filter fun h => h.1 != key },
        some (first.1, first.2.tag, (held.filter fun h => !h.2.void).map (·.2.bits)))
    else some ({ n with heldUnits := n.heldUnits ++ [(key, u)], inFrame := true }, none)

/-- Units as a frame on an output. -/
def frameOn (out : Nat) (fmt : BitVec 4) (tag : Byte) (us : List (BitVec 144)) : List (Nat × FUnit) :=
  (frameUnits fmt tag us).map fun u => (out, u)

/-- PACKZ. -/
def packzFire (n : FabNode) : Option Firing :=
  (n.gatherUnit 0 0).map fun r => match r.2 with
    | none => { node := r.1, outs := [] }
    | some (f, tag, us) => { node := { r.1 with inFrame := false }, outs := (zeroRemoval f tag us).map fun u => (0, u) }

/-- f units rebuilt from mask bits and data units; a data unit that is missing has no stated value. -/
def unpackUnits (missing : BitVec 144) : List Bool → List (BitVec 144) → List (BitVec 144)
  | [], _ => []
  | false :: m, us => 0 :: unpackUnits missing m us
  | true :: m, [] => missing :: unpackUnits missing m []
  | true :: m, u :: us => u :: unpackUnits missing m us

/-- UNPACKZ: the mask frame, then the data frame. -/
def unpackzFire (missing : BitVec 144) (n : FabNode) : Option Firing :=
  if n.took.isEmpty then
    (n.gatherUnit 0 0).map fun r => match r.2 with
      | none => { node := r.1, outs := [] }
      | some (f, tag, us) =>
        -- the mask is kept until its data frame has come
        { node := { r.1 with took := [1], inFrame := true, heldUnits := us.map fun b => (2, (f, ⟨b, tag, false, false⟩)) }, outs := [] }
  else
    (n.gatherUnit 0 1).map fun r => match r.2 with
      | none => { node := r.1, outs := [] }
      | some (f, tag, us) =>
        let mask := (r.1.kept 2).map (·.2.bits)
        let len := n.par 0 32
        let bits := (List.range len).map fun j => (mask.getD (j / 32) 0).getLsbD (j % 32)
        { node := { r.1 with took := [], inFrame := false, heldUnits := [] }
          outs := frameOn 0 f tag (unpackUnits missing bits us)
          mis := us.length != bits.count true }

/-- Whether unit a ranks before unit b: larger first, NaNs last, ordered by R201 for floats and by the type for integers. -/
def ranksBefore (f : BitVec 4) (a b : BitVec 144) : Bool :=
  if isBlock f || f == 9 then decide (Config.unitRank f b < Config.unitRank f a)
  else
    let x := scalarVal f a.toNat
    let y := scalarVal f b.toNat
    match (nanKind x).isSome, (nanKind y).isSome with
    | true, _ => false
    | false, true => true
    | false, false => fBelow y x

/-- A unit with its index put into a ranking, behind those it does not rank before. -/
def rankInsert (f : BitVec 4) (a : BitVec 144 × Nat) : List (BitVec 144 × Nat) → List (BitVec 144 × Nat)
  | [] => [a]
  | b :: l => if ranksBefore f a.1 b.1 then a :: b :: l else b :: rankInsert f a l

/-- The ranking of units, ties by lower index. -/
def rankUnits (f : BitVec 4) (us : List (BitVec 144)) : List (BitVec 144 × Nat) :=
  us.zipIdx.foldl (fun l a => rankInsert f a l) []

/-- SORTK. -/
def sortkFire (n : FabNode) : Option Firing :=
  (n.gatherUnit 0 0).map fun r => match r.2 with
    | none => { node := r.1, outs := [] }
    | some (f, tag, us) =>
      let top := (rankUnits f us).take (n.par 0 8 + 1)
      { node := { r.1 with inFrame := false }
        outs := frameOn 0 f tag (top.map (·.1)) ++ frameOn 1 0xE tag (top.map fun a => BitVec.ofNat 144 a.2) }

/-- ROUTE: the score frame of E units, then the data frame to the outputs of the largest scores. -/
def routeFire (n : FabNode) : Option Firing :=
  let e := n.par 0 6 + 1
  let m := n.par 6 3 + 1
  if n.took.isEmpty then
    match n.head? 0 with
    | none => none
    | some u =>
      let long := (n.kept 0).length + 1 == e && !u.2.last
      let n0 := if long then n.modIn 0 fun p => { p with units := (u.1, { u.2 with last := true }) :: p.units.tail } else n
      (n0.gatherUnit 0 0).map fun r => match r.2 with
        | none => { node := r.1, outs := [] }
        | some (f, tag, us) =>
          let top := ((rankUnits f us).take m).map (·.2)
          let n1 := if long then r.1.dropFrame 0 else r.1
          { node := { n1 with took := 64 :: top, inFrame := true }
            outs := frameOn e 0xE tag (top.map (BitVec.ofNat 144))
            mis := long || us.length != e }
  else match n.head? 1 with
    | none => none
    | some u =>
      let outs := (n.took.filter fun o => o != 64).map fun o => (o, u)
      let n := n.pop 1
      some { node := if u.2.last then { n with took := [], inFrame := false } else n, outs := outs }

/-- A finite f32 that is not negative, as a whole number of units of 2^-149; none for every other weight of SAMPLE. -/
def weightOf (u : BitVec 144) : Option Nat :=
  match floatVal 0 u.toNat with
  | .fin s m e => if s && m != 0 then none else some (m * 2 ^ (e + 149).toNat)
  | _ => none

/-- The first index whose prefix sum of weights exceeds u ÷ 2^24 of the total. -/
def sampleIndex (u total : Nat) : List Nat → Nat → Nat → Option Nat
  | [], _, _ => none
  | w :: l, sum, i => if u * total < (sum + w) * 2 ^ 24 then some i else sampleIndex u total l (sum + w) (i + 1)

/-- SAMPLE's result for a frame of weights. -/
def sampleOf (seed : W64) (frame : Nat) (us : List (BitVec 144)) : Nat :=
  let ws := us.map weightOf
  let total := (ws.map fun w => w.getD 0).foldl (· + ·) 0
  if ws.any (·.isNone) || total == 0 then 0xFFFFFFFF
  else
    let u := (sha384 (toBytes 8 seed.toNat ++ toBytes 8 frame)).toNat % 2 ^ 24
    (sampleIndex u total (ws.map fun w => w.getD 0) 0 0).getD 0xFFFFFFFF

/-- SAMPLE. -/
def sampleFire (n : FabNode) : Option Firing :=
  (n.gatherUnit 0 0).map fun r => match r.2 with
    | none => { node := r.1, outs := [] }
    | some (_, tag, us) =>
      { node := { r.1 with inFrame := false, frames := n.frames + 1 }
        outs := frameOn 0 0xE tag [BitVec.ofNat 144 (sampleOf (n.set.params.extractLsb' 0 64) n.frames us)] }

/-! ### Operators on units (R312) -/

/-- CODEC: conversion as R173, in whole groups. -/
def codecFire (n : FabNode) : Option Firing :=
  match n.head? 0 with
  | none => none
  | some (f, u) =>
    let dst : BitVec 4 := n.set.params.extractLsb' 0 4
    let r := convertArrival f dst (n.set.params.getLsbD 4) (n.set.params.extractLsb' 32 32) ((n.kept 0).map (·.2)) u
    some { node := { n.pop 0 with heldUnits := r.2.1.map (fun k => (0, (f, k))), inFrame := !u.last }
           outs := r.1.map fun k => (0, (dst, k))
           flags := r.2.2 }

/-- SEQGEN: one token per unit. -/
def seqgenFire (n : FabNode) : Option Firing :=
  match n.head? 0 with
  | none => none
  | some (_, u) =>
    let x := u.bits.toNat % 2 ^ 32 % 2 ^ (n.par 70 6 + 1)
    let tok : W64 := n.set.params.extractLsb' 0 64 ||| (w64 x <<< n.par 64 6)
    some { node := { n.pop 0 with inFrame := !u.last }
           outs := [(0, (10, if u.void then u else { u with bits := tok.setWidth 144 }))] }

/-- JOIN: one unit of every input gives a unit of value 1; the tag is not given (log 20). -/
def joinFire (tag : Byte) (n : FabNode) : Option Firing :=
  let ports := List.range (n.par 0 4 + 1)
  let voids := ports.filter fun p => match n.head? p with | some (_, u) => u.void | none => false
  if !voids.isEmpty then some { node := voids.foldl (fun n p => n.pop p) n, outs := [] }
  else if ports.all fun p => (n.head? p).isSome then
    some { node := ports.foldl (fun n p => n.pop p) n, outs := [(0, (0xE, ⟨1, tag, true, false⟩))] }
  else none

/-! ### The steps -/

/-- LIB_STEER. -/
def execLibSteer (node : Nat) (s : State) : Res := s.fabFire node 1 steerFire
/-- LIB_MERGE. -/
def execLibMerge (node : Nat) (s : State) : Res := s.fabFire node 2 mergeFire
/-- PACKZ. -/
def execPackz (node : Nat) (s : State) : Res := s.fabFire node 3 packzFire
/-- UNPACKZ. -/
def execUnpackz (node : Nat) (s : State) : Res := s.fabFire node 4 (unpackzFire (Config.openUnit s.now))
/-- SORTK. -/
def execSortk (node : Nat) (s : State) : Res := s.fabFire node 5 sortkFire
/-- ROUTE. -/
def execRoute (node : Nat) (s : State) : Res := s.fabFire node 6 routeFire
/-- SAMPLE. -/
def execSample (node : Nat) (s : State) : Res := s.fabFire node 7 sampleFire
/-- CODEC. -/
def execCodec (node : Nat) (s : State) : Res := s.fabFire node 8 codecFire
/-- SEQGEN. -/
def execSeqgen (node : Nat) (s : State) : Res := s.fabFire node 9 seqgenFire
/-- JOIN. -/
def execJoin (node : Nat) (s : State) : Res := s.fabFire node 10 (joinFire ((Config.openUnit s.now).setWidth 8))

/-- Bytes written into the block RAM of the plots of a plot set: 64 KiB a plot, and no other's (R13, R14). -/
def writeRam (ram : List Mem) (ws : List (Nat × Nat × Byte)) : List Mem :=
  ws.foldl (fun r w => if w.2.1 < 65536 then r.modify w.1 fun m => m.write w.2.1 [w.2.2] else r) ram

/-- A tenant plot set: its bitstream says what it takes, emits and keeps in its block RAM (log 17); units travel in the formats of its edges. -/
def tenantFireOf (k : Kernel) (n : FabNode) : Option Firing :=
  let heads := n.ins.filterMap fun p => (p.2.units.head?).map fun u => (p.1, u.2)
  (Config.tenantFire n.set.image n.frames heads (n.ram.map (·.cells))).map fun r =>
    let fmt (p : Nat) : BitVec 4 := match k.fabEdge n.id p with | some (e, _) => e.fmt | none => 0
    { node := { r.1.foldl (fun n p => n.pop p) n with frames := n.frames + 1, inFrame := r.2.2.1, ram := writeRam n.ram r.2.2.2 }
      outs := r.2.1.map fun o => (o.1, (fmt o.1, o.2)) }

/-- TENANT_PLOT_SET_FIRING. -/
def execTenantPlotSetFiring (node : Nat) (s : State) : Res :=
  match s.inst? s.focus.inst with
  | none => .next s
  | some x => s.fabFire node 0 (tenantFireOf x.kernel)

/-! ### The end of a fabric operator (R308) -/

/-- The firing that a fabric operator makes at a step of what it holds. -/
def FabNode.firing (now : Nat) (k : Kernel) (n : FabNode) : Option Firing :=
  match n.set.library.toNat with
  | 1 => steerFire n
  | 2 => mergeFire n
  | 3 => packzFire n
  | 4 => unpackzFire (Config.openUnit now) n
  | 5 => sortkFire n
  | 6 => routeFire n
  | 7 => sampleFire n
  | 8 => codecFire n
  | 9 => seqgenFire n
  | 10 => joinFire ((Config.openUnit now).setWidth 8) n
  | _ => tenantFireOf k n

/-- Whether a fabric operator holds a full set of the operands that it needs to fire. -/
def FabNode.fires (k : Kernel) (n : FabNode) : Bool := (n.firing 0 k).isSome

/-- Whether a plot set has stopped (R265): it stands on no plots or has finished; or it is to stop, and holds no frame that it has begun and
nothing emitted, or nothing more of it moves, or its 4,096 cycles of the fabric are over. -/
def State.setStopped (s : State) (i node : Nat) (x : Inst) (n : FabNode) : Bool :=
  !n.placed || n.finished || (match n.pre with
    | none => false
    | some k => (!n.inFrame && n.outs.isEmpty) || decide (4096 ≤ k) || (s.fabGo i node x n (n.firing s.now x.kernel)).isNone)

/-- The fabric operators that a fabric operator sends to. -/
def Inst.fabNext (x : Inst) (id : BitVec 16) : List (BitVec 16) :=
  (x.kernel.edges.filter fun e => e.src == id && x.nodes.any fun n => n.id == e.dst).map (·.dst)

/-- The fabric operators reached from a list in at most n steps. -/
def Inst.fabReach (x : Inst) : Nat → List (BitVec 16) → List (BitVec 16)
  | 0, l => l
  | n + 1, l => x.fabReach n (l ++ l.flatMap x.fabNext).eraseDups

/-- The strongly connected set of fabric operators in which one lies. -/
def Inst.fabSet (x : Inst) (id : BitVec 16) : List (BitVec 16) :=
  let ids := x.nodes.map (·.id)
  let from? (a : BitVec 16) : List (BitVec 16) := x.fabReach ids.length (x.fabNext a)
  ids.filter fun a => a == id || ((from? id).contains a && (from? a).contains id)

/-- Whether a tile has sent all that it will ever send by a VC: it has finished, and nothing waits there. -/
def Tile.vcDone (t : Tile) (port : BitVec 2) (vc : BitVec 5) : Bool :=
  let v := t.vcAt port vc
  t.seq.finished && v.ready.isEmpty && v.pend.isEmpty && v.feed.isEmpty && v.filt.isEmpty
    && (match t.linkedChan port vc true with | some k => (t.chanAt k).entries.isEmpty | none => true)

/-- Whether the producer of an edge has finished and nothing is left to come from it. -/
def Inst.producerDone (x : Inst) (e : Edge) : Bool :=
  match x.kernel.node? e.src with
  | none => true
  | some n =>
    if n.fabric then x.nodes.all fun m => m.id != e.src || m.finished
    else (List.range (n.rows * n.cols)).all fun p => match x.tiles[n.first + p]? with
      | none => true
      | some t => t.vcDone (e.srcPort.extractLsb' 5 2) (e.srcPort.extractLsb' 0 5)

/-- Whether a fabric operator holds units. -/
def FabNode.holds (n : FabNode) : Bool := !n.heldUnits.isEmpty || n.ins.any fun p => !p.2.units.isEmpty

/-- Whether a fabric operator that finishes holds a half-matched operand (R308): units on an input whose partner holds none, or, of a ROUTE, the
scores of a frame whose data has not come. -/
def FabNode.halfMatched (n : FabNode) : Bool :=
  (n.ins.any (fun p => !p.2.units.isEmpty) && n.ins.any fun p => p.2.units.isEmpty)
    || (n.set.library == 6 && (!n.heldUnits.isEmpty || !n.took.isEmpty))

/-- Whether what a fabric operator has emitted can still leave: units that have demand, and those which do not lead to another fabric operator,
where demand comes in the end. -/
def State.outsLeave (s : State) (i : Nat) (x : Inst) (n : FabNode) : Bool :=
  !n.stopped && n.outs.any fun o => match x.kernel.fabEdge n.id o.1 with
    | some (_, d, _) => !d.fabric || (s.fabSend i x.kernel n.id (n.plots.headD 0) o.1 o.2).isSome
    | none => true

/-- Whether an edge brings nothing more: its producer has finished, and no unit of it can still leave. -/
def State.edgeClosed (s : State) (i : Nat) (x : Inst) (e : Edge) : Bool :=
  x.producerDone e && x.nodes.all fun m => m.id != e.src || !s.outsLeave i x m

/-- A fabric operator that has finished; what it has emitted to another that still runs is left on its edges, which close with that one. -/
def FabNode.finish (n : FabNode) : FabNode :=
  { n with finished := true, heldUnits := [], outs := if n.stopped then [] else n.outs, inFrame := false, ins := n.ins.map fun p => (p.1, { p.2 with units := [] }) }

/-- FABRIC_NODE_FINISH: the strongly connected set of a fabric operator finishes together, once every edge that enters it from outside
has no more to bring and none of it holds a full set of operands; half-matched operands are a length mismatch. A paused instance keeps its
state (R295). -/
def execFabricNodeFinish (node : Nat) (s : State) : Res :=
  match s.node? node with
  | none => .next s
  | some (x, n) =>
    let set := x.fabSet n.id
    let mine := x.nodes.filter fun m => set.contains m.id
    let closed := x.kernel.edges.all fun e => !set.contains e.dst || set.contains e.src || s.edgeClosed s.focus.inst x e
    if n.finished || x.st != .draining || !s.instActive x || !closed || mine.any (fun m => m.fires x.kernel)
        || mine.any (s.outsLeave s.focus.inst x) then
      .next s
    else
      let s' := s.modInst s.focus.inst fun x =>
        { x with nodes := x.nodes.map fun m => if set.contains m.id then m.finish else m }
      .next ((mine.filter FabNode.halfMatched).foldl (fun s m => s.lengthMismatch s.focus.inst 0 0 (w64 m.id.toNat)) s')

end Sys2Proof.Machine
end

