-- ==== Sys2Proof/Machine/Queues.lean ====
section
/-! DEFINITION. Queues: host records, packets, when they start and end, marks, arbitration, preloading, ENQ and QSTAT (R277-R292). -/

namespace Sys2Proof.Machine

/-! ### Marks (R282, R286) -/

/-- The VA of a mark. -/
def markVa (n : Nat) : W64 := w64 (8 * n)

/-- A mark read, or what keeps it from being read: a fault code, or the access must wait. -/
inductive MarkRead where
  | value (v : W64)
  | wait
  | failed (code : Byte)
deriving DecidableEq, Repr

/-- The code of a failing access to a mark: R284 knows TRANSLATION, PERMISSION and MEM_UNCORRECTABLE; one that a session or a peer refuses is a
PERMISSION (DESIGN CHOICE, log 36). -/
def markCode (c : Byte) : Byte := if c == cTranslation || c == cUncorrectable then c else cPermission

/-- The codes of mark reads and mark adds at peers in an Ask. -/
def whoMark : Nat := 249
/-- That of mark adds. -/
def whoMarkAdd : Nat := 248

/-- An access to a peer for a mark of a queue. -/
def markAsk (q : BitVec 4) (who : Nat) (va : W64) : Ask := ⟨noInst, q.toNat, who, va⟩

/-- The location of a mark for an access. -/
def State.markAcc (s : State) (c : Context) (k : AccKind) (n : Nat) : Except MarkRead Loc :=
  match s.translate c k (markVa n) with
  | .minor => .error .wait
  | .fault code _ => .error (.failed (markCode code))
  | .loc l =>
    if s.reservedElsewhere noInst 0 l 8 then .error .wait
    else if s.badLoc noInst l 8 then .error (.failed cUncorrectable)
    else .ok l

/-- Reading a mark for a queue; one at a peer is there once the peer has answered (R370). -/
def State.readMark (s : State) (c : Context) (q : BitVec 4) (n : Nat) : MarkRead :=
  match s.markAcc c .read n with
  | .ok (.remote k v) => match (c.sessions[k.toNat]?).bind fun x => lookupKey (markAsk q whoMark v) x.got with
    | some (.data d) => .value d
    | some (.failed code) => .failed (markCode code)
    | none => .wait
  | .ok l => .value (wordOf (s.readLoc noInst l 8))
  | .error r => r

/-- A mark at a peer asked for, afresh where an answer has been used. -/
def State.askMark (s : State) (c : Context) (q : BitVec 4) (n : Nat) : State :=
  match s.markAcc c .read n with
  | .ok (.remote k v) =>
    ((s.modCtx c.tag fun c => c.modSession k fun x => { x with got := dropKey (markAsk q whoMark v) x.got }).askPeer c.tag k
      (markAsk q whoMark v) (.read v .b8)).2
  | _ => s

/-- MARK_ADD: the first mark add of a queue that is due: an AADD of 8 bytes, for which the page needs wr (R348), at a peer as an atomic there
(R370); one that fails is recorded in the queue (R284, R286). An evicted context has no memory: its mark adds wait. -/
def execMarkAdd (tag : BitVec 8) (q : BitVec 4) (s : State) : Res :=
  match s.ctx? tag with
  | none => .next s
  | some c => match (c.queue? q).map (·.marks) with
    | some ((m, a) :: rest) =>
      let drop (s : State) : State := s.modQueue tag q fun x => { x with marks := rest }
      let fail (code : Byte) (s : State) : State := s.modQueue tag q fun x => { x with marks := rest }.erred (markCode code)
      if c.st == .evicted || c.st == .destroyed then .next s
      else match s.markAcc c .write m.toNat with
        | .ok (.remote k v) => if !c.receives k then .next (fail cLinkPermit s) else
          match s.askPeer tag k (markAsk q whoMarkAdd v) (.atomic v .add true a 0) with
          | (none, s) => .next s
          | (some (.data _), s) => .next (drop (s.tookPeer tag k (markAsk q whoMarkAdd v)))
          | (some (.failed code), s) => .next (fail code (s.tookPeer tag k (markAsk q whoMarkAdd v)))
        | .ok l => .next ((drop s).atomicAt noInst .add l 8 a 0).2
        | .error (.failed code) => .next (fail code s)
        | .error _ => .next s
    | _ => .next s

/-! ### Packets: their fields and the errors of R284 -/

/-- Words k to 7 of a packet are zero. -/
def pkZeroFrom (p : Rec64) (k : Nat) : Bool := decide (fld p (64 * k) (512 - 64 * k) = 0)

/-- The reserved and unused fields of a packet (R282, R283). -/
def pkOk (p : Rec64) : Bool :=
  let code := pkCode p
  fld p 9 7 == 0
    && (code == 1 || pkBudget p == 0)
    && (if code == 1 || code == 2 || code == 3 then decide (pkKref p < 1024) else pkKref p == 0)
    && (match code with
      | 1 => true
      | 2 => fld p 160 32 == 0 && pkZeroFrom p 3
      | 3 => pkZeroFrom p 1
      | 4 => fld p 80 48 == 0 && pkZeroFrom p 3
      | 5 => pkZeroFrom p 2 && pkMset p
      | 6 => pkZeroFrom p 2
      | 7 => pkZeroFrom p 1
      | 8 => pkZeroFrom p 1
      | _ => false)

/-- The kernel under a reference, when a queue holds it. -/
def Context.kernelFor (c : Context) (q : BitVec 4) (k : Nat) : Option Kernel :=
  match lookupKey k c.krefs with
  | some x => if x.refs.contains q then some x else none
  | none => none

/-! ### Starting (R285, R287) -/

/-- The copy engine for a context's queue COPY: that of the lowest cluster in which the context has a tile (log 15). -/
def State.queueEngine (s : State) (tag : Byte) : Nat :=
  match (List.range s.tileCount).find? fun p => (s.physAt p).tag == tag with
  | some p => copyOf p
  | none => 0

/-- Whether a copy engine has room for another packet of a context's queues (R179). -/
def State.queueCopyRoom (s : State) (tag : Byte) : Bool :=
  match s.copy[s.queueEngine tag]? with
  | some e => decide ((e.waiting.filter fun p => p.src == .queue tag).length < 16)
  | none => false

/-- Whether the head packet of a queue can start (R285); one that errs can, but a WAITMARK whose mark cannot be read never starts (R284), and one
whose mark has been seen to hold can, whatever the mark comes to since (R292). -/
def State.startable (s : State) (c : Context) (q : BitVec 4) (x : Queue) (p : Rec64) : Bool :=
  if !pkOk p then true
  else match pkCode p with
    | 1 => match c.kernelFor q (pkKref p) with
      | none => !(x.started.any fun a => pkCode a.pkt == 2 && pkKref a.pkt == pkKref p)
      | some k => s.canPlace c.tag q x.ord k
    | 3 => !(x.started.any fun a => pkCode a.pkt == 1)
    | 4 => x.held
    | 5 => x.started.isEmpty
    | 7 => x.started.isEmpty
    | _ => true

/-- The state of a queue (R278): Disabled 0, Empty 1, Ready 2, Waiting 3, Released 4. -/
def State.queueState (s : State) (c : Context) (q : BitVec 4) (x : Queue) : Nat :=
  if c.st == .destroyed then 4
  else if !x.enabled then 0
  else match x.buf with
    | [] => 1
    | (p, _) :: _ => if c.active && s.startable c q x p then 2 else 3

/-- The queue whose head starts next (R287): of the Ready queues, the lowest effective level, round robin within it. -/
def State.chooseQueue (s : State) (c : Context) : Option (BitVec 4) :=
  let ready := (List.range 16).filterMap fun k => match c.queues[k]? with
    | some x => if s.queueState c (BitVec.ofNat 4 k) x == 2 then some (k, c.effectiveLevel (BitVec.ofNat 4 k) x) else none
    | none => none
  match ready with
  | [] => none
  | r :: rs =>
    let lvl := rs.foldl (fun m a => Nat.min m a.2) r.2
    let ks := (ready.filter fun a => a.2 == lvl).map (·.1)
    let start := match lookupKey lvl c.lastServed with | some k => k + 1 | none => 0
    match ks.find? fun k => decide (start ≤ k) with
    | some k => some (BitVec.ofNat 4 k)
    | none => (ks.head?).map fun k => BitVec.ofNat 4 k

/-- The head packet of a queue started (R285, R287): it leaves the buffer, its order, and what arbitration remembers; a LOADK and a COPY have
still to read. -/
def State.takeHeadPacket (s : State) (c : Context) (q : BitVec 4) (x : Queue) (p : Rec64) : State :=
  (s.modQueue c.tag q fun y =>
    { y with
      buf := y.buf.tail, started := y.started ++ [⟨p, y.ord, pkCode p == 2 || pkCode p == 6, s.now, none⟩], ord := y.ord + 1, ready := 0, age := 0,
      held := false }).modCtx c.tag fun d =>
      { d with lastServed := putKey (c.effectiveLevel q x) q.toNat d.lastServed }

/-- What a packet event needs: the queue is the one that arbitration chooses, and the packet of this code stands at its head. -/
def State.onHead (s : State) (tag : Byte) (q : BitVec 4) (code : Nat) (pkt : Option Rec64)
    (k : Context → Queue → Rec64 → W32 → Nat → State → State) : Res :=
  match s.ctx? tag with
  | none => .next s
  | some c => match c.queue? q with
    | none => .next s
    | some x => match x.buf with
      | [] => .next s
      | (p, n) :: _ =>
        if pkCode p != code || pkt.any (fun a => a != p) || s.chooseQueue c != some q then .next s
        else if !pkOk p then .next ((s.takeHeadPacket c q x p).errPacket tag q x.ord cIllegal)
        else .next (k c x p n x.ord s)

/-- A LAUNCH starts (R283, R295): its instance is submitted for placement; a kref that the queue does not hold errs. -/
def launchStart (q : BitVec 4) (c : Context) (x : Queue) (p : Rec64) (n : W32) (ord : Nat) (s : State) : State :=
  let s := s.takeHeadPacket c q x p
  match c.kernelFor q (pkKref p) with
  | none => s.errPacket c.tag q ord cPermission
  | some k =>
    let i := Inst.submitted c.tag q k n (pkBudget p) ord ((List.range 7).map fun j => pkWord p (j + 1))
    { s with insts := s.insts ++ [i] }

/-- LAUNCH. -/
def execLaunch (tag : BitVec 8) (q : BitVec 4) (pkt : Rec64) (s : State) : Res :=
  s.onHead tag q 1 (some pkt) (launchStart q)

/-- The asker of what a queue's packet reads: by queue and order. -/
def packetAsker (q : BitVec 4) (ord : Nat) : Nat := q.toNat + 16 * ord

/-- The pieces of the object of a LOADK after their checks (R300 check 1). -/
def State.objectPieces (s : State) (tag : Byte) (va : W64) (n : Nat) : EAcc :=
  let refuse (code : Byte) : EAcc := .bad { code := code, engine := 0, info := 0, page := none }
  if fld va 55 9 = 0 ∧ va.toNat % 16 ≠ 0 then refuse cMisaligned
  else match s.checkRange noInst tag 0 .object false va 1 1 with
    | .ok _ => if n = 0 ∨ 2 ^ 26 < n then refuse cIllegal else s.checkRange noInst tag 0 .object false va n 1
    | r => r

/-- The pieces of an object read so far as they can be: each at once where it is in this package and no block has reserved it; one at a peer once
the peer has answered (log 43); or the code of a failure. -/
def State.readImage (s : State) (tag : Byte) (asker : Nat) :
    List (Loc × Size × Option (List Byte)) → Except Byte (List (Loc × Size × Option (List Byte))) × State
  | [] => (.ok [], s)
  | (l, z, some b) :: ps => match s.readImage tag asker ps with
    | (.ok im, s) => (.ok ((l, z, some b) :: im), s)
    | r => r
  | (l, z, none) :: ps => match s.readPieces noInst asker 160 tag [(l, z)] with
    | (.failed code _, s) => (.error code, s)
    | (.wait, s) => (match s.readImage tag asker ps with
      | (.ok im, s) => (.ok ((l, z, none) :: im), s)
      | r => r)
    | (.bytes b, s) => (match s.readImage tag asker ps with
      | (.ok im, s) => (.ok ((l, z, some b) :: im), s)
      | r => r)

/-- The bytes of an object, once each of its pieces is read. -/
def imageBytes : List (Loc × Size × Option (List Byte)) → Option (List Byte)
  | [] => some []
  | (_, _, some b) :: ps => (imageBytes ps).map fun bs => b ++ bs
  | (_, _, none) :: _ => none

/-- Whether a LOADK under a kref that started before a step has not ended in any queue of a context: its verdict comes first (R316). -/
def Context.loadsBefore (c : Context) (kref since : Nat) : Bool :=
  c.queues.toList.any fun x => x.started.any fun a => pkCode a.pkt == 2 && pkKref a.pkt == kref && decide (a.since < since)

/-- A LOADK whose object has been read ends (R293, R300): it is verified, or the queue's reference added. -/
def State.loadkEnd (s : State) (c : Context) (q : BitVec 4) (a : Started) (bs : List Byte) : State :=
  let k := pkKref a.pkt
  let err (s : State) (code : Byte) : State := s.errPacket c.tag q a.ord code
  let put (s : State) (y : Kernel) : State :=
    (s.modCtx c.tag fun d => { d with krefs := putKey k y d.krefs }).completePacket c.tag q a.ord
  match lookupKey k c.krefs with
  | some y =>
    if y.refs.contains q || y.digest != sha384 bs then err s cIllegal else put s { y with refs := y.refs ++ [q] }
  | none => match verifyObject c bs with
    | .error code => err s code
    | .ok y => put (s.modCtx c.tag fun d => { d with verified := d.verified ++ [(k, y.id)] }) { y with refs := [q] }

/-- The next of a LOADK that has started (R294): of its object what can be read is read; once all of it is, and no LOADK of its kref that started
earlier is in progress, it ends. -/
def State.loadkRead (s : State) (tag : Byte) (q : BitVec 4) (a : Started) : State :=
  let asker := packetAsker q a.ord
  let err (s : State) (code : Byte) : State := (s.modCtx tag fun c => c.dropAskers noInst asker 160 1).errPacket tag q a.ord code
  let image : EAcc ⊕ List (Loc × Size × Option (List Byte)) := match a.image with
    | some im => .inr im
    | none => .inl (s.objectPieces tag (pkWord a.pkt 1) (fld a.pkt 128 32))
  let read (im : List (Loc × Size × Option (List Byte))) : State := match s.readImage tag asker im with
    | (.error code, s) => err s code
    | (.ok im, s) =>
      let s := s.modQueue tag q fun x => { x with started := x.started.map fun b => if b.ord == a.ord then { b with image := some im } else b }
      match s.ctx? tag, imageBytes im with
      | some c, some bs => if c.loadsBefore (pkKref a.pkt) a.since then s else (s.tookAll noInst asker 160 tag).loadkEnd c q a bs
      | _, _ => s
  match image with
  | .inl (.bad f) => err s f.code
  | .inl .wait => s
  | .inl (.ok ps) => read (ps.map fun p => (p.1, p.2, none))
  | .inr im => read im

/-- A LOADK starts, and reads (R285). -/
def loadkStart (q : BitVec 4) (c : Context) (x : Queue) (p : Rec64) (_ : W32) (ord : Nat) (s : State) : State :=
  (s.takeHeadPacket c q x p).loadkRead c.tag q ⟨p, ord, true, s.now, none⟩

/-- The packet of a queue of a running context that has started and has still to read. -/
def State.readingPacket (s : State) (tag : Byte) (q : BitVec 4) (code : Nat) (pkt : Rec64) : Option Started :=
  ((s.ctx? tag).filter Context.active).bind fun c => (c.queue? q).bind fun x =>
    x.started.find? fun a => a.reads && pkCode a.pkt == code && a.pkt == pkt

/-- LOADK: it starts, or goes on reading. -/
def execLoadk (tag : BitVec 8) (q : BitVec 4) (pkt : Rec64) (s : State) : Res :=
  match s.readingPacket tag q 2 pkt with
  | some a => .next (s.loadkRead tag q a)
  | none => s.onHead tag q 2 (some pkt) (loadkStart q)

/-- An UNLOADK starts (R293): the queue's reference is dropped; the last takes the kernel with it. -/
def unloadkStart (q : BitVec 4) (c : Context) (x : Queue) (p : Rec64) (_ : W32) (ord : Nat) (s : State) : State :=
  let s := s.takeHeadPacket c q x p
  match c.kernelFor q (pkKref p) with
  | none => s.errPacket c.tag q ord cPermission
  | some y =>
    let y := { y with refs := y.refs.filter fun r => r != q }
    (s.modCtx c.tag fun d =>
      { d with krefs := if y.refs.isEmpty then dropKey (pkKref p) d.krefs else putKey (pkKref p) y d.krefs }).completePacket c.tag q ord

/-- UNLOADK. -/
def execUnloadk (tag : BitVec 8) (q : BitVec 4) (pkt : Rec64) (s : State) : Res :=
  s.onHead tag q 3 (some pkt) (unloadkStart q)

/-- A WAITMARK starts once its condition holds, and completes (R285). -/
def waitmarkStart (q : BitVec 4) (c : Context) (x : Queue) (p : Rec64) (_ : W32) (ord : Nat) (s : State) : State :=
  (s.takeHeadPacket c q x p).completePacket c.tag q ord

/-- The mark of the WAITMARK at the head of a queue read (R284, R285): where the read fails, the packet errs and never starts; where its
condition holds, it can start, and does if its queue is chosen; else, at a peer, the mark is asked for. -/
def State.waitmark (s : State) (tag : Byte) (q : BitVec 4) (pkt : Option Rec64) : Res :=
  let start (s : State) : Res := s.onHead tag q 4 pkt (waitmarkStart q)
  match (s.ctx? tag).filter Context.active with
  | none => start s
  | some c => match (c.queue? q).bind fun x => (x.buf.head?).map fun p => (x, p.1) with
    | none => start s
    | some (x, p) =>
      if pkCode p != 4 || !pkOk p || x.held || pkt.any (fun a => a != p) then start s
      else match s.readMark c q (fld p 64 16) with
        | .failed code => .next ((s.modCtx tag fun c => c.dropAskers noInst q.toNat whoMark 1).modQueue tag q fun y =>
            { y with buf := y.buf.tail, ready := 0, age := 0 }.erred code)
        | .value v => if (pkWord p 2).toNat ≤ v.toNat then start (s.modQueue tag q fun y => { y with held := true }) else .next (s.askMark c q (fld p 64 16))
        | .wait => .next (s.askMark c q (fld p 64 16))

/-- WAITMARK. -/
def execWaitmark (tag : BitVec 8) (q : BitVec 4) (pkt : Rec64) (s : State) : Res := s.waitmark tag q (some pkt)

/-- WAITMARK_RECHECK: the mark of the WAITMARK that waits at the head is read again, and the packet starts if its condition holds. -/
def execWaitmarkRecheck (tag : BitVec 8) (q : BitVec 4) (s : State) : Res := s.waitmark tag q none

/-- A packet that completes at its start (R283). -/
def nopStart (q : BitVec 4) (c : Context) (x : Queue) (p : Rec64) (_ : W32) (ord : Nat) (s : State) : State :=
  (s.takeHeadPacket c q x p).completePacket c.tag q ord

/-- SETMARK: completes at its start, once every earlier packet of the queue has ended; its add is due. -/
def execSetmark (tag : BitVec 8) (q : BitVec 4) (pkt : Rec64) (s : State) : Res :=
  s.onHead tag q 5 (some pkt) (nopStart q)

/-- The next of a COPY that has started (R283): its copy packet is read, which may take steps, and goes to a copy engine; a read that fails
errs. One whose engine holds 16 packets of the context's queues that have not started waits for room there (R179). -/
def State.queueCopyRead (s : State) (tag : Byte) (q : BitVec 4) (p : Rec64) (ord : Nat) : State :=
  let who := packetAsker q ord
  let va := pkWord p 1
  let err (s : State) (code : Byte) : State := (s.modCtx tag fun c => c.dropAskers noInst who 160 1).errPacket tag q ord code
  if !s.queueCopyRoom tag then s
  else match s.checkRange noInst tag 0 .read false va 64 64 with
  | .wait => s
  | .bad f => err s f.code
  | .ok ps => match s.readPieces noInst who 160 tag ps with
    | (.wait, s) => s
    | (.failed code _, s) => err s code
    | (.bytes bs, s) =>
      ((s.tookAll noInst who 160 tag).packetRead tag q ord).cpEnqueue (s.queueEngine tag) (.queue tag) tag noInst 0
        (BitVec.ofNat 512 (ofBytes bs)) (BitVec.ofNat 3 ((Config.openMode s.now).val + 1)) (some (q, ord))

/-- A COPY starts, and reads (R285). -/
def queueCopyStart (q : BitVec 4) (c : Context) (x : Queue) (p : Rec64) (_ : W32) (ord : Nat) (s : State) : State :=
  (s.takeHeadPacket c q x p).queueCopyRead c.tag q p ord

/-- QUEUE_COPY: it starts, or goes on reading. -/
def execQueueCopy (tag : BitVec 8) (q : BitVec 4) (pkt : Rec64) (s : State) : Res :=
  match s.readingPacket tag q 6 pkt with
  | some a => .next (s.queueCopyRead tag q a.pkt a.ord)
  | none => s.onHead tag q 6 (some pkt) (queueCopyStart q)

/-- QBARRIER: completes at its start, once every earlier packet of the queue has ended. -/
def execQbarrier (tag : BitVec 8) (q : BitVec 4) (pkt : Rec64) (s : State) : Res :=
  s.onHead tag q 7 (some pkt) (nopStart q)

/-- QUEUE_NOP: completes at its start. -/
def execQueueNop (tag : BitVec 8) (q : BitVec 4) (pkt : Rec64) (s : State) : Res :=
  s.onHead tag q 8 (some pkt) (nopStart q)

/-- QUEUE_ARBITRATE: the head of the queue that R287 chooses starts; a packet of an illegal code errs (R284). -/
def execQueueArbitrate (tag : BitVec 8) (s : State) : Res :=
  match s.ctx? tag with
  | none => .next s
  | some c => match s.chooseQueue c with
    | none => .next s
    | some q => match (c.queue? q).bind fun x => x.buf.head? with
      | none => .next s
      | some (p, _) => match pkCode p with
        | 1 => s.onHead tag q 1 none (launchStart q)
        | 2 => s.onHead tag q 2 none (loadkStart q)
        | 3 => s.onHead tag q 3 none (unloadkStart q)
        | 4 => s.onHead tag q 4 none (waitmarkStart q)
        | 6 => s.onHead tag q 6 none (queueCopyStart q)
        | n => s.onHead tag q n none (nopStart q)

/-- QUEUE_LEVEL_AGE: a further whole period of 4 ms in which a queue has been Ready with its head (R287). -/
def execQueueLevelAge (tag : BitVec 8) (q : BitVec 4) (s : State) : Res :=
  match s.ctx? tag with
  | none => .next s
  | some c => match c.queue? q with
    | none => .next s
    | some x =>
      if s.queueState c q x == 2 && decide (agePeriod * (x.age + 1) ≤ x.ready) then .next (s.modQueue tag q fun x => { x with age := x.age + 1 })
      else .next s

/-- The queues of a context r ticks of the reference clock later: those that are Ready have been so for longer (R287). -/
def State.queuesLater (s : State) (r : Nat) (c : Context) : Vector Queue 16 :=
  Vector.ofFn fun k : Fin 16 =>
    let x := c.queues[k]
    if s.queueState c (BitVec.ofNat 4 k.val) x == 2 then { x with ready := x.ready + r } else x

/-! ### Host records (R279, R280) -/

/-- The bytes of a part of a record. -/
def recBytes (r : BitVec 1024) (lo n : Nat) : List Byte := toBytes n (fld r (8 * lo) (8 * n))

/-- The packet that a record carries for a queue with this counter, or none where it fails a check (R280). -/
def openRecord (key : BitVec 256) (q : BitVec 4) (counter : W64) (r : BitVec 1024) : Option Rec64 :=
  let n : W64 := r.extractLsb' 640 64
  if fld r 712 8 ≠ q.toNat ∨ fld r 704 8 ≠ 0 ∨ fld r 720 304 ≠ 0 ∨ n ≠ counter + 1 then none
  else (Config.gcmOpen key (n ++ q.setWidth 32) (recBytes r 80 48) (recBytes r 0 64) (r.extractLsb' 512 128)).map fun bs =>
    BitVec.ofNat 512 (ofBytes bs)

/-- Whether a context accepts records (R278). -/
def Context.decodes (c : Context) : Bool := c.st == .sealed || c.st == .paused || c.st == .running

/-- QUEUE_RECORD_DECODE: the record at head is accepted into the buffer, or rejected and counted; head passes it. -/
def execQueueRecordDecode (tag : BitVec 8) (q : BitVec 4) (s : State) : Res :=
  match s.ctx? tag with
  | none => .next s
  | some c => match c.queue? q, c.keys.queues[q.toNat]? with
    | some x, some key =>
      if !c.decodes || !x.enabled || x.head == x.tail || 64 ≤ x.buf.length + s.enqsHeld tag q then .next s
      else
        let s := s.modQueue tag q fun x => { x with head := x.head + 1 }
        match openRecord key q x.counter (vget x.ring (x.head.toNat % 64) 0) with
        | none => .next (s.modQueue tag q fun x => { x with rejects := Nat.min 255 (x.rejects + 1) })
        | some p => match s.acceptPacket tag q p with
          | none => .next s
          | some s => .next (s.modQueue tag q fun x => { x with counter := x.counter + 1 })
    | _, _ => .next s

/-! ### Preloading (R288) -/

/-- PRELOAD: the instance of a LAUNCH that cannot start yet goes on free tiles under the context's tag, which it does not own; nothing
else is seen of it. A LAUNCH is preloaded once: what a claim takes of it is loaded at its start. -/
def execPreload (tag : BitVec 8) (q : BitVec 4) (s : State) : Res :=
  match s.ctx? tag with
  | none => .next s
  | some c => match (c.queue? q).bind fun x => (x.buf.head?).map fun p => (x, p.1) with
    | none => .next s
    | some (x, p) =>
      if pkCode p != 1 || !pkOk p || s.queueState c q x != 3 || !(s.preloadedFor tag q x.ord).isEmpty then .next s
      else match c.kernelFor q (pkKref p) with
        | none => .next s
        | some k =>
          let free := ((List.range s.tileCount).filter fun a => (s.physAt a).tag == 0 && !(s.physAt a).mappedOut).take k.tilesNeeded
          .next (free.foldl (fun s a => s.modPhys a fun y =>
            { y with tag := tag, banks := Vector.replicate 16 tag, preload := some (q, x.ord) }) s)

/-! ### ENQ and QSTAT (R290, R291) -/

/-- ENQ: its address is checked when it fires, and PERMISSION is raised for a queue that is Disabled or Released; the packet is read and
accepted at release. -/
def execEnq (h : Head) (ls : BitVec 5) (q : BitVec 4) (off : BitVec 24) (s : State) : Res :=
  fireWord (.enq h ls q off) s none fun f =>
    let va := f.addr off
    f.checked (.plain .read 64) va false fun _ =>
      match (s.ctx? f.x.tag).bind fun c => (c.queue? q).map fun x => s.queueState c q x with
      | some n => if n = 0 ∨ n = 4 then f.fault cPermission (accInfo f.slot false va) none
        else f.done { eff := some (.enq q va, va) }
      | none => f.fault cPermission (accInfo f.slot false va) none

/-- The status word of a queue (R291). -/
def State.qstat (s : State) (c : Context) (q : BitVec 4) (x : Queue) : W64 :=
  let st := s.queueState c q x
  let base := c.baseLevel q
  let lvl := if st = 2 then c.effectiveLevel q x else base
  w64 (x.completed * 2 ^ 40 + x.rejects * 2 ^ 32 + x.errors * 2 ^ 24 + x.lasterr.toNat * 2 ^ 16 + x.buf.length * 2 ^ 8 + lvl * 2 ^ 6
    + base * 2 ^ 4 + st)

/-- QSTAT: the queue's status as it stands. -/
def execQstat (h : Head) (q : BitVec 4) (s : State) : Res :=
  fireWord (.qstat h q) s none fun f =>
    f.done { send := some (match (s.ctx? f.x.tag).bind fun c => (c.queue? q).map fun x => s.qstat c q x with
      | some v => v
      | none => 0) }

end Sys2Proof.Machine
end

