-- ==== Sys2Proof/Machine/Waits.lean ====
section
/-! DEFINITION. What the homes of locations do of themselves: serving committed stores, take lists, reservations, the wake-ups and
timeouts of WAITA, and the change of a bank's owner (R139-R142, R151, R155, R158, R159, R352). -/

namespace Sys2Proof.Machine

/-! ### Committed stores at their homes -/

/-- The first committed store of the tile in focus performed, when its location passes a test and no reservation holds it. -/
def State.serveStore (s : State) (here : Loc → Bool) : Res :=
  s.onTile fun x t => match t.sbuf with
    | [] => .next s
    | p :: rest =>
      if here p.loc && !s.reservedElsewhere s.focus.inst s.focus.tile p.loc p.extent then
        .next ((s.performStore s.focus.inst s.focus.tile x.tag p).setSbuf s.focus.inst s.focus.tile rest)
      else .next s

/-- SLICE_BANK_SERVE: a bank performs the tile's first committed store, when it is to a slice. -/
def execSliceBankServe (s : State) : Res :=
  s.serveStore fun l => match l with | .slice _ _ => true | _ => false

/-- HBM_ACCESS_PERFORMED: the tile's first committed store is performed at its HBM controller, when it is to HBM. -/
def execHbmAccessPerformed (s : State) : Res :=
  s.serveStore fun l => match l with | .hbm _ => true | _ => false

/-- PCIE_COMPLETION: the tile's first committed store is performed in host memory, when it is to host memory; a completion that reports
Unsupported Request or Completer Abort is a major fault at stage 2 (R352), which the storing tile takes with engine 0, as it takes
the fault of a store at a peer (R372). -/
def execPcieCompletion (ok : Bool) (s : State) : Res :=
  if ok then s.serveStore fun l => match l with | .host _ => true | _ => false
  else s.onTile fun _ t => match t.sbuf with
    | .plain (.host _) _ _ va ipa :: rest =>
      .next ((s.setSbuf s.focus.inst s.focus.tile rest).pendFault s.focus.inst s.focus.tile none
        (accPFault 0 cTranslation (some (ipa, 0, false, 2)) true va))
    | _ => .next s

/-! ### Reservations and take lists (R140, R155) -/

/-- RESERVATION_RETRY: a check phase that holds some reservations and not all releases them, and repeats later. -/
def execReservationRetry (s : State) : Res :=
  s.onTile fun _ t => match t.seq.block with
    | none => .next s
    | some b =>
      if !b.checking || b.perform.isSome || t.reserved.length == b.reservations.length then .next s
      else .next (s.holdBlock s.focus.inst s.focus.tile [] false)

/-- The first entry of a granule in a take list, and the others of the list. -/
def takeHead (g : Nat) (l : List Take) : Option (Take × List Take) :=
  match l.find? fun k => k.granule == g with
  | none => none
  | some k => some (k, l.erase k)

/-- TAKE_LIST_GRANT: the home grants the take of a full granule to the head of its list. -/
def execTakeListGrant (granule : Nat) (s : State) : Res :=
  s.onTile fun _ t =>
    if !t.isFull granule then .next s
    else match takeHead granule t.takes with
      | none => .next s
      | some (k, _) =>
        if k.granted.isSome then .next s
        else .next (s.modFocus fun t =>
          { t with takes := t.takes.map fun a => if a == k then { a with granted := some 0 } else a })

/-- TAKE_HEAD_TIMEOUT: the head of a granule's list that has not taken within 64 tile cycles of its grant moves to the tail. -/
def execTakeHeadTimeout (granule : Nat) (s : State) : Res :=
  s.onTile fun _ t => match takeHead granule t.takes with
    | some (⟨_, tile, some n⟩, rest) =>
      if n < 64 then .next s
      else .next (s.modFocus fun t => { t with takes := rest ++ [⟨granule, tile, none⟩] })
    | _ => .next s

/-! ### WAITA (R157-R159, R385) -/

/-- Whether a park is a WAITA on a granule of a home that nothing has woken yet. -/
def Park.waitsAt (p : Option Park) (home granule : Nat) : Bool :=
  match p with
  | some (.waita h k _ _ _ none) => h == home && k / 64 == granule
  | _ => false

/-- A park whose WAITA has woken with a reason that its tile does not know yet (R385). -/
def Park.woken (reason : BitVec 3) : Park → Park
  | .waita h k g l n w => .waita h k g l n (some (w.getD reason))
  | p => p

/-- A reason for the WAITA that a tile's handler interrupts, which is recorded (R385), or for the one of the tile's own park, which ends. -/
def Tile.endWait (t : Tile) (outer : Bool) (reason : BitVec 3) : Tile :=
  if outer then { t with seq := { t.seq with outer := t.seq.outer.map (Park.woken reason) } }
  else match t.seq.park with
    | some (.waita _ _ g _ _ _) => { t.setG g (reason.setWidth 64) with seq := { t.seq with park := none } }
    | _ => t

/-- A reason for a WAITA of a tile on a granule of a home (R158): that of the WAITA which a handler interrupts comes first, as it was
registered first. -/
def Tile.wakeUp (t : Tile) (home granule : Nat) (reason : BitVec 3) : Tile :=
  if Park.waitsAt t.seq.outer home granule then t.endWait true reason
  else if Park.waitsAt t.seq.park home granule && t.place == .running then t.endWait false reason
  else t

/-- WAITA_WAKE: the home in focus sends the first wake-up that is due. -/
def execWaitaWake (s : State) : Res :=
  s.onTile fun _ t => match t.wakes with
    | [] => .next s
    | w :: rest =>
      .next ((s.modFocus fun t => { t with wakes := rest }).modTile s.focus.inst w.tile fun y =>
        y.wakeUp s.focus.tile w.granule 2)

/-- One watch of a tile at a granule removed, or one wake-up on its way to it. -/
def Tile.unwatch (y : Tile) (granule ti : Nat) (woken : Bool) : Tile :=
  if woken then { y with wakes := y.wakes.erase ⟨granule, ti⟩ } else { y with watches := y.watches.erase ⟨granule, ti⟩ }

/-- How many wake-ups of a tile at a granule are on their way. -/
def Tile.wakesFor (y : Tile) (granule ti : Nat) : Nat := y.wakes.count ⟨granule, ti⟩

/-- The home and the granule of a WAITA whose limit is not 0 and has run out, unless it has woken. -/
def Park.expired : Park → Option (Nat × Nat)
  | .waita h k _ l n none => if l ≠ 0 ∧ l ≤ n then some (h, k / 64) else none
  | _ => none

/-- The WAITA of a tile that has timed out: the one that its handler interrupts, or its own park; with its home and its granule. -/
def Seq.expired (q : Seq) : Option (Bool × Nat × Nat) :=
  match q.outer.bind Park.expired with
  | some a => some (true, a)
  | none => (q.park.bind Park.expired).map fun a => (false, a)

/-- WAITA_TIMEOUT: a parked WAITA whose limit is not 0 and has run out wakes with reason 3; or with reason 2, which precedes it, where a
wake-up is on its way (R158). -/
def execWaitaTimeout (s : State) : Res :=
  s.onTile fun _ t => match t.seq.expired with
    | none => .next s
    | some (outer, home, granule) =>
      if t.place ≠ .running then .next s
      else
        -- a wake-up on its way is the outer WAITA's first
        let before := if !outer && Park.waitsAt t.seq.outer home granule then 1 else 0
        let due := match s.tile? s.focus.inst home with
          | some y => decide (before < y.wakesFor granule s.focus.tile)
          | none => false
        .next ((s.modTile s.focus.inst home fun y => y.unwatch granule s.focus.tile due).modFocus fun t =>
          t.endWait outer (if due then 2 else 3))

/-! ### The owner of a bank (R141) -/

/-- Whether a location lies in a bank of a logical tile. -/
def inBank (ti : Nat) (coarse : Bool) (bank : Nat) : Loc → Bool
  | .slice t o => t == ti && bankOf coarse o == bank
  | _ => false

/-- The location of an effect that was checked when its instruction fired. -/
def Eff.loc? : Eff → Option Loc
  | .store l _ _ => some l
  | .storeFull l _ _ => some l
  | .empty l => some l
  | .take l _ _ => some l
  | .atomic _ l _ _ _ _ => some l
  | .waita l _ _ => some l
  | _ => none

/-- A bank scrubbed (R141): its watches woken, every byte zero, every granule empty. -/
def Tile.scrubBank (y : Tile) (bank : Nat) : Tile :=
  let here (o : Nat) : Bool := bankOf y.coarse o == bank
  let y := y.wake ((y.watches.filter fun w => here (64 * w.granule)).map (·.granule))
  { y with
    slice := ⟨y.slice.cells.filter fun c => !here c.1⟩
    full := y.full.filter fun g => !here (64 * g)
    bad := y.bad.filter fun w => !here (8 * w)
    takes := y.takes.filter fun k => !here (64 * k.granule) }

/-- The address and the bytes of a command's descriptor, packet, operand or code, which was checked when its instruction fired. -/
def Eff.commandVa : Eff → Option (W64 × Nat)
  | .sdef _ va => some (va, 64)
  | .cpy va => some (va, 64)
  | .halo va => some (va, 64)
  | .enq _ va => some (va, 64)
  | .ofill _ va => some (va, 6144)
  | .run _ va _ _ _ => some (va, 8)
  | _ => none

/-- Whether bytes of the slice window touch a place. -/
def windowTouches (here : Loc → Bool) (va : W64) (n : Nat) : Bool :=
  va.getLsbD 54 && (granulesOf (fld va 0 21) n).any fun g => here (.slice (fld va 21 33) (64 * g))

/-- Whether an effect of a block lies in a place, or was checked against it (R141). -/
def Eff.touches (here : Loc → Bool) (e : Eff) : Bool :=
  (e.loc?).any here || (e.commandVa).any fun p => windowTouches here p.1 p.2

/-- Whether a block holds an access already checked against a place: of a side effect, of a command, or of a load that has fired. -/
def Block.touches (here : Loc → Bool) (b : Block) : Bool :=
  b.effs.any (fun e => e.eff.touches here) || b.loads.any fun p => p.2.any here

/-- Whether a block is past what takes it back for a bank (R141): it performs, or a peer may have performed an atomic of it (R372). -/
def Block.bound (b : Block) : Bool := b.perform.isSome || (b.checking && b.effs.any fun e => e.eff.atPeer)

/-- The uncommitted blocks of an instance that hold an access checked against a place discarded (R141). -/
def State.discardAt (s : State) (i : Nat) (x : Inst) (here : Loc → Bool) : State :=
  (x.tiles.zipIdx).foldl (fun s (t, k) => match t.seq.block with
    | some b => if b.touches here && !b.bound then s.discardBlock i k b.header else s
    | none => s) s

/-- Whether a store to a place that an instance released is not performed, or a commit with an effect there goes on (R141). -/
def Inst.busyAt (x : Inst) (here : Loc → Bool) : Bool :=
  x.tiles.any fun t => (t.sbuf.any fun p => here p.loc) || (match t.seq.block with
    | some b => b.bound && b.effs.any fun e => e.eff.touches here
    | none => false)

/-- Whether a tile has released a command to an engine that is not done (R141, R149); one that is stopped or saved, too. -/
def State.commandsOut (s : State) (i ti : Nat) (t : Tile) : Bool :=
  !t.seq.finished &&
    (t.stream.toList.any (fun x => !x.retired) || !t.halos.isEmpty || !t.mxe.work.isEmpty
      || [t.ast, t.est, t.pst].any (fun e => e.queue.any fun q => q.checked.isNone)
      || s.copy.toList.any fun e => e.holds i ti)

/-- Banks of a tile's slice given up (R141), one step of the procedure: they are closed to their owner; once they are, every block that was
checked against them is discarded, and then the stores and the commands released before are waited for; then the WAITAs there wake, the
banks are scrubbed, and what is to come is written. -/
def State.giveUp (s : State) (i ti phys : Nat) (banks : List Nat) (finish : State → State) : Res :=
  match s.inst? i, s.tile? i ti with
  | some x, some y =>
    let here (l : Loc) : Bool := banks.any fun b => inBank ti y.coarse b l
    if !(banks.all fun b => (s.physAt phys).closed.contains b) then
      .next (s.modPhys phys fun p => { p with closed := banks.foldl (fun l b => insertNat b l) p.closed })
    else
      let s := s.discardAt i x here
      if x.busyAt here || (x.tiles.zipIdx).any fun (t, k) => s.commandsOut i k t then .next s
      else .next (finish ((s.modTile i ti fun y => banks.foldl Tile.scrubBank y).modPhys phys fun p =>
          { p with closed := p.closed.filter fun b => !banks.contains b }))
  | _, _ => .next s

/-- BANK_REASSIGN: a bank is given to another owner: at once where no tile holds state in it, else by the steps of R141. -/
def execBankReassign (phys : Nat) (bank : BitVec 4) (tag : BitVec 8) (s : State) : Res :=
  let retag (s : State) : State := s.modPhys phys fun p =>
    { p with banks := vmod p.banks bank.toNat fun _ => tag, closed := p.closed.filter (· != bank.toNat) }
  match s.insts.zipIdx.findSome? fun (x, i) => (x.tiles.findIdx? fun y => y.phys == phys && y.place != .saved && x.st != .retired).map fun t => (i, t) with
  | none => .next (retag s)
  | some (i, ti) => s.giveUp i ti phys [bank.toNat] retag

/-- The interleave of a tile's slice changed, by the steps of R141 over all its banks. -/
def State.setInterleave (s : State) (i ti : Nat) (coarse : Bool) : Res :=
  match s.tile? i ti with
  | none => .next s
  | some y =>
    if y.coarse == coarse || y.place == .saved then .next s
    else s.giveUp i ti y.phys (List.range 16) fun s => s.modTile i ti fun y => { y with coarse := coarse }

end Sys2Proof.Machine
end

