-- ==== Sys2Proof/Machine/Pages.lean ====
section
/-! DEFINITION. Pages: walks and cached translations, invalidation, migration, moved frames, the service of minor faults; and the
queries of context and link (R276, R343-R360, R366, R377, R388, R389). -/

namespace Sys2Proof.Machine

/-! ### TLBI and PMIG when they fire (R357, R359) -/

/-- The region checks that TLBI and PMIG make on their VA: the code and the page fault content of the first that fails. -/
def pagedVa (va : W64) : Option (Byte × Option (W64 × Nat × Bool × Nat)) :=
  if fld va 55 9 ≠ 0 ∨ fld va 44 10 ≠ 0 then some (cTranslation, some (0, 0, false, 1))
  else if va.getLsbD 54 then some (cPermission, none)
  else none

/-- A fault of the firing instruction for a VA. -/
def Fire.vaFault (f : Fire) (code : Byte) (page : Option (W64 × Nat × Bool × Nat)) (va : W64) : Res :=
  f.fault code (accInfo f.slot false va) (page.map fun p => pageContent p code 1 false va)

/-- TLBI: its VA is checked when it fires, but for kind 2; the invalidation is released at commit. -/
def execTlbi (h : Head) (ls : BitVec 5) (kind : InvKind) (s : State) : Res :=
  fireWord (.tlbi h ls kind) s none fun f =>
    match if kind == .all then none else pagedVa f.left with
    | some (code, page) => f.vaFault code page f.left
    | none => f.done { eff := some (.tlbi kind f.left, f.left) }

/-- The rules of R359 on the destination word of a PMIG. -/
def pmigOk (d : W64) : Bool :=
  fld d 0 2 != 3 && fld d 52 12 == 0 && fld d 2 14 == 0 && (fld d 0 2 == 0 || fld d 16 36 == 0)

/-- PMIG: its checks and its walk when it fires, which waits on a Migrating leaf and faults on a Faulted one (R349, R354); the migration is
released at commit. The page fault record of a destination in a remote package has its IPA, stage 2: the model's choice (log 16). -/
def execPmig (h : Head) (ls : BitVec 5) (s : State) : Res :=
  fireWord (.pmig h ls) s none fun f =>
    let va := f.left
    let d := f.right
    match pagedVa va with
    | some (code, page) => f.vaFault code page va
    | none =>
      if fld va 0 16 != 0 then f.vaFault cMisaligned none va
      else if !pmigOk d then f.vaFault cIllegal none va
      else if fld d 0 2 = 0 ∧ fld d 50 2 = 1 then f.vaFault cPermission (some (w64 (fld d 16 36 * 65536), 0, false, 2)) va
      else match s.ctx? f.x.tag with
        | none => .next s
        | some c => match s.walk c va with
          | .error .minor => .next s
          | .error (.fault code page) => f.vaFault code page va
          | .error (.loc _) => .next s
          | .ok l =>
            if entryState l.e = 3 then .next s
            else if entryState l.e = 5 then f.vaFault cUncorrectable none va
            else if l.level != 3 || fld l.e 5 1 = 1 then f.vaFault cPermission (some (0, l.level, false, 1)) va
            else f.done { eff := some (.pmig va d l.entryIpa, va) }

/-! ### Walks and cached translations (R345, R353) -/

/-- Whether a walk may be kept: a valid leaf that is neither Migrating nor Faulted. -/
def Leaf.cacheable (l : Leaf) : Bool := entryState l.e != 3 && entryState l.e != 5

/-- The cached translation of a VA by a leaf. -/
def Leaf.tlb (l : Leaf) (va : W64) : Tlb :=
  let size := if l.level = 2 then 2 ^ 29 else if fld l.e 5 1 = 1 then 2 ^ 21 else 65536
  { base := va.toNat / size * size, size := size, leaf := l.e, level := l.level }

/-- A translation kept, in place of those it overlaps. -/
def Context.keep (c : Context) (t : Tlb) : Context :=
  { c with tlb := (c.tlb.filter fun e => decide (e.base + e.size ≤ t.base) || decide (t.base + t.size ≤ e.base)) ++ [t] }

/-- The entries of a walk that lie at peers, with their levels, in the order in which the walk meets them: those kept and then the first
that is not. -/
def State.remoteEntries (s : State) (c : Context) (va : Nat) : List (Nat × Nat × Nat) → Nat → List (Nat × Nat × BitVec 5 × W64)
  | [], _ => []
  | (lvl, lo, n) :: ls, t =>
    let ea := t + 8 * (va / 2 ^ lo % 2 ^ n)
    let here : List (Nat × Nat × BitVec 5 × W64) := match s.stage2 c .read ea true lvl with
      | .loc (.remote k v) => [(lvl, ea, k, v)]
      | _ => []
    match s.readEntry c ea lvl with
    | .ok e =>
      if fld e 0 2 = 1 && !entryMalformed e lvl then here ++ s.remoteEntries c va ls (fld e 16 36 * 65536) else here
    | .error _ => here

/-- A table entry that a walk misses at a peer asked for (R353); its answer is filed as it comes (State.walkAnswer). -/
def State.fetchEntry (s : State) (tag : Byte) (lvl ea : Nat) (k : BitVec 5) (v : W64) : State :=
  (s.askPeer tag k (walkAsk lvl ea v) (.read v .b8)).2

/-- The last remote entry that a walk of a VA meets read afresh, where it meets one. -/
def State.readAfresh (s : State) (c : Context) (va : W64) : State :=
  if fld va 44 20 ≠ 0 ∨ c.allotment = 0 then s
  else match (s.remoteEntries c va.toNat walkLevels (c.allotment - 0x10000)).getLast? with
    | none => s
    | some (lvl, ea, k, v) =>
      (s.modCtx c.tag fun c => { c with tables := dropKey ea c.tables, seen := dropKey ea c.seen }).fetchEntry c.tag lvl ea k v

/-- A walker's work on a VA of a context: the walk is kept where it may be; a remote entry that is missing is asked for; one that leads
nowhere, or to a leaf that may not be kept, is read afresh. -/
def State.pageWalk (s : State) (tag : Byte) (va : W64) : State :=
  match s.ctx? tag with
  | none => s
  | some c => match s.walk c va with
    | .ok l => if l.cacheable then s.modCtx tag fun c => c.keep (l.tlb va) else s.readAfresh c va
    | .error _ => s.readAfresh c va

/-- PAGE_WALK: a walk of a VA of the context of the instance in focus. -/
def execPageWalk (va : W64) (s : State) : Res :=
  match s.inst? s.focus.inst with
  | none => .next s
  | some x => .next (s.pageWalk x.tag va)

/-! ### The shadow context (R388, R389) -/

/-- The VAs at which the tile's block, its next fill and the check of its next RUN would access memory. -/
def Tile.accessVas (t : Tile) : List W64 :=
  let blockVas := match t.seq.block with
    | none => [t.seq.next]
    | some b => b.unfired.filterMap fun q =>
      match q.2.2.2.left with
      | some (.value v) => match q.2.2.1 with
        | .ld _ _ _ off => some (v + off.signExtend 64)
        | .lds _ _ _ off => some (v + off.signExtend 64)
        | .pmig _ _ => some v
        | i => (memAccess i).map fun a => v + a.1.signExtend 64
      | _ => none
  let fillVas := t.mxe.work.flatMap fun w => match w.2 with
    | .fill _ va => [va, va + 6080]
    | _ => []
  let runVas := ([t.ast, t.est, t.pst] : List Strip).flatMap fun x => match x.queue.head? with
    | some r => if r.checked.isSome || r.bad.isSome then []
      else (List.range (r.cnt + if r.kload then 4 else 0)).map fun k => r.addr + w64 (8 * k)
    | none => []
  blockVas ++ fillVas ++ runVas

/-- The VAs at which a Running stream would next access memory: its unit, or the unit of a row; the index, the parameter block or the node that it
reads next (R168, R170). -/
def Stream.accessVas (k : Stream) : List W64 :=
  let d := k.desc
  let w := k.walk
  if k.st != .running then []
  else
    let i0 := w.n % sdCount d 0
    let row := sdBase d + w64 (w.n / sdCount d 0 / sdCount d 1) * sdStride d 2 + w64 (w.n / sdCount d 0 % sdCount d 1) * sdStride d 1
    match sdKind d with
    | 0 => [row + w64 i0 * sdStride d 0]
    | 1 => [sdAux d + w64 ((w.n + w.ahead.length) * unitBytes ((sdWord d).extractLsb' 60 4))] ++ (w.ahead.head?).toList.map fun v => row + v * sdStride d 0
    | 2 => [w.node + w64 (w.j * unitBytes (sdFmt d)), w.node + ((sdWord d).extractLsb' 16 16).signExtend 64]
    | _ => match w.gather with
      | none => [sdAux d]
      | some g =>
        let num := w.n / (fld g 128 32 / unitBytes (sdFmt d))
        k.fetchVa.toList ++ [g.extractLsb' 0 64 + w64 (num * unitBytes (g.extractLsb' 220 4))]

/-- The VAs at which the packets in progress that a tile released would next access memory (R177). -/
def State.copyVas (s : State) (i ti : Nat) : List W64 :=
  s.copy.toList.zipIdx.flatMap fun (e, eng) => e.active.flatMap fun a =>
    if a.p.inst == i && a.p.tile == ti then
      let k := s.cpTask eng a.p
      (a.job.unread.filterMap fun n => (k.units[n]?).map (·.src)) ++ a.job.unwritten
    else []

/-- SHADOW_SERVICE: the shadow context of the tile in focus walks for the first of its accesses that waits, of its sequencer, its streams and
gather engines, its fills and RUN checks, or a copy that it released; the access completes, or its fault becomes major, when it is next
tried. -/
def execShadowService (s : State) : Res :=
  s.onTile fun x t =>
    match (t.accessVas ++ t.stream.toList.flatMap Stream.accessVas ++ s.copyVas s.focus.inst s.focus.tile).find? fun va => s.check s.focus.inst (.plain .read 1) va == .minor with
    | none => .next s
    | some va => .next (s.pageWalk x.tag va)

/-! ### Invalidation (R357) -/

/-- Whether a location belongs to the paged region. -/
def Loc.paged : Loc → Bool
  | .slice _ _ => false
  | _ => true

/-- Whether a block holds an access to the paged region that was translated when it fired. -/
def Block.translated (b : Block) : Bool := b.effs.any fun e => (e.eff.loc?).any Loc.paged

/-- Whether an access of a context at a peer, other than a walker's read of a table, is still to be answered. -/
def Context.peerOut (c : Context) : Bool :=
  c.sessions.toList.any fun x => !x.stores.isEmpty || x.asked.any fun a => a.any fun q => !q.isWalk

/-- Whether an access of the context translated earlier is still to be performed and cannot be taken back: a committed store, an access
of a block that performs, or one that was sent to a peer. -/
def State.translatedOut (s : State) (tag : Byte) : Bool :=
  (match s.ctx? tag with | some c => c.peerOut | none => false) || s.insts.any fun x => x.tag == tag && x.tiles.any fun t =>
    (t.sbuf.any fun p => p.loc.paged) || (match t.seq.block with | some b => b.perform.isSome && b.translated | none => false)

/-- The blocks of a context that hold translated accesses and have not begun to perform discarded, to be issued again (R41), and the words
of its block caches dropped. -/
def State.dropTranslated (s : State) (tag : Byte) : State :=
  (s.insts.zipIdx).foldl (fun s (x, i) =>
    if x.tag == tag then (x.tiles.zipIdx).foldl (fun s (t, k) =>
      let s := s.modTile i k fun y => { y with kept := [] }
      match t.seq.block with
      | some b => if b.translated && b.perform.isNone then s.discardBlock i k b.header else s
      | none => s) s
    else s) s

/-- What an invalidation drops (R357); a device may keep less than it is allowed to, so kind 0 drops every leaf kept from a peer, and kinds 1
and 2 every table entry; what a walker awaits is read afresh. -/
def Context.invalidate (c : Context) (kind : InvKind) (va : W64) : Context :=
  let hit (e : Tlb) : Bool := decide (e.base ≤ va.toNat) && decide (va.toNat < e.base + e.size)
  let unasked (x : Session) : Session := { x with asked := x.asked.map fun a => if a.any Ask.isWalk then none else a }
  let c := { c with seen := [], sessions := c.sessions.map unasked }
  match kind with
  | .page => { c with tlb := c.tlb.filter fun e => !hit e, tables := c.tables.filter fun e => fld e.2 0 2 == 1 }
  | .path => { c with tlb := c.tlb.filter fun e => !hit e, tables := [] }
  | .all => { c with tlb := [], tables := [] }

/-- An invalidation that completes: the named entries are dropped, and no access translated with one is left; none while one must
still be performed. -/
def State.invalidate (s : State) (tag : Byte) (kind : InvKind) (va : W64) : Option State :=
  if s.translatedOut tag then none else some ((s.dropTranslated tag).modCtx tag fun c => c.invalidate kind va)

/-- TLBI_COMPLETE: the first invalidation of the context of the instance in focus completes, and its tile goes on. -/
def execTlbiComplete (s : State) : Res :=
  match s.ctxOf s.focus.inst with
  | none => .next s
  | some c => match c.invals with
    | [] => .next s
    | (i, t, kind, va) :: rest => match s.invalidate c.tag kind va with
      | none => .next s
      | some s =>
        let more := rest.any fun r => r.1 == i && r.2.1 == t
        .next ((s.modCtx c.tag fun c => { c with invals := rest }).modTile i t fun y =>
          { y with seq := { y.seq with invWait := more } })

/-! ### Migration (R359) -/

/-- The codes of a migration's accesses to a leaf or a page at a peer. -/
def whoMig (k : Nat) : Nat := 251 + k

/-- What an 8-byte access at an IPA gives: a value, or it must wait, or it fails; a word that is uncorrectable fails its consumer (R395). -/
inductive Home8 where
  | value (v : W64)
  | wait
  | failed

/-- Read8 at an IPA. -/
def State.read8 (s : State) (c : Context) (m : Mig) (k : Nat) (ipa : Nat) : Home8 × State :=
  match s.stage2 c .read ipa false 0 with
  | .loc (.remote i v) => match s.askPeer c.tag i ⟨m.inst, m.tile, whoMig k, v⟩ (.read v .b8) with
    | (none, s) => (.wait, s)
    | (some (.data d), s) => (.value d, s.tookPeer c.tag i ⟨m.inst, m.tile, whoMig k, v⟩)
    | (some (.failed _), s) => (.failed, s.tookPeer c.tag i ⟨m.inst, m.tile, whoMig k, v⟩)
  | .loc l =>
    if s.reservedElsewhere noInst 0 l 8 then (.wait, s)
    else if s.badLoc noInst l 8 then (.failed, s)
    else (.value (wordOf (s.readLoc noInst l 8)), s)
  | _ => (.failed, s)

/-- CAS at an IPA: the old value, and the state. -/
def State.cas8 (s : State) (c : Context) (m : Mig) (k : Nat) (ipa : Nat) (old new : W64) : Home8 × State :=
  match s.stage2 c .atomic ipa false 0 with
  | .loc (.remote i v) => match s.askPeer c.tag i ⟨m.inst, m.tile, whoMig k, v⟩ (.atomic v .cas true new old) with
    | (none, s) => (.wait, s)
    | (some (.data d), s) => (.value d, s.tookPeer c.tag i ⟨m.inst, m.tile, whoMig k, v⟩)
    | (some (.failed _), s) => (.failed, s.tookPeer c.tag i ⟨m.inst, m.tile, whoMig k, v⟩)
  | .loc l =>
    if s.reservedElsewhere noInst 0 l 8 then (.wait, s)
    else if s.badLoc noInst l 8 then (.failed, s)
    else
      let r := s.atomicAt noInst .cas l 8 new old
      (.value r.1, r.2)
  | _ => (.failed, s)

/-- A leaf with another state. -/
def withState (e : W64) (st : Nat) : W64 := (e &&& ~~~(0x1C#64)) ||| w64 (st * 4)

/-- The state of a resident page at an IPA (R349): Device-resident in ranges 00 and 01, Host-resident in 10 and 11. -/
def rangeState (ipa : Nat) : Nat := if ipa / 2 ^ 51 = 0 then 1 else 2

/-- The first context's migration replaced, or ended. -/
def State.setMig (s : State) (tag : Byte) (m : Option Mig) : State :=
  s.modCtx tag fun c => { c with migs := (match m with | some m => [m] | none => []) ++ c.migs.tail }

/-- The pieces of a page at an IPA; none where the second stage refuses one. -/
def State.pagePieces (s : State) (c : Context) (k : AccKind) (ipa : Nat) : Option (List (Loc × Size)) :=
  ((List.range 8192).map fun j => s.stage2 c k (ipa + 8 * j) false 0).foldr (fun a l => match a, l with
    | .loc p, some l => some ((p, .b8) :: l)
    | _, _ => none) (some [])

/-- The copy of a migration (R359): the leaf's last value, with the state in which the page stands at its destination; none while it
must wait. A source that cannot be read tells before a destination that cannot be written. -/
def State.migCopy (s : State) (c : Context) (m : Mig) (old mig : W64) : Option W64 × State :=
  let dst := fld m.d 16 36 * 65536
  match s.pagePieces c .read (fld old 16 36 * 65536) with
  | none => (some old, s)
  | some src => match s.readPieces m.inst m.tile (whoMig 2) c.tag src with
    | (.wait, s) => (none, s)
    | (.failed code _, s) =>
      (some (if code == cUncorrectable then withState mig 5 else old), s.tookAll m.inst m.tile (whoMig 2) c.tag)
    | (.bytes bs, s) => match s.pagePieces c .write dst with
      | none => (some old, s.tookAll m.inst m.tile (whoMig 2) c.tag)
      | some dp =>
        if s.writeHeld m.inst dp then (none, s)
        else
          let s := (s.tookAll m.inst m.tile (whoMig 2) c.tag).writePieces m.inst m.tile (whoMig 2) c.tag dp bs
          (some (withState ((mig &&& ~~~(w64 (2 ^ 52 - 2 ^ 16))) ||| w64 dst) (rangeState dst)), s)

/-- The leaf that a migration swaps in for the one that it reads (R359): a pin Pinned, an unpin the state of its range, a move Migrating; none
where the leaf is not in a state from which it goes. -/
def Mig.swapTo (m : Mig) (old : W64) : Option W64 :=
  let st := entryState old
  if fld old 0 2 != 2 then none
  else match fld m.d 0 2 with
    | 1 => if st == 1 || st == 2 then some (withState old 4) else none
    | 2 => if st == 4 then some (withState old (rangeState (fld old 16 36 * 65536))) else none
    | _ => if st == 1 || st == 2 then some (withState old 3) else none

/-- The first swap of a migration: pin and unpin end with it; a move goes on where the leaf was still the one that it read (R359). -/
def State.migSwap (s : State) (c : Context) (m : Mig) (old new : W64) : State :=
  match s.cas8 c m 1 m.leafIpa old new with
  | (.wait, s) => s.setMig c.tag (some { m with phase := .swapping old new })
  | (.failed, s) => s.setMig c.tag none
  | (.value v, s) => s.setMig c.tag (if v = old ∧ fld m.d 0 2 = 0 then some { m with phase := .migrating old } else none)

/-- A migration's step from its release: its leaf is read, and swapped (R359). -/
def State.migBegin (s : State) (c : Context) (m : Mig) : State :=
  match s.read8 c m 0 m.leafIpa with
  | (.wait, s) => s
  | (.failed, s) => s.setMig c.tag none
  | (.value old, s) => match m.swapTo old with
    | some new => s.migSwap c m old new
    | none => s.setMig c.tag none

/-- MIGRATE: the first migration of the context of the instance in focus goes one step: its first swap, which at a peer takes until its answer
has come; the invalidation and the copy; its last swap. -/
def execMigrate (s : State) : Res :=
  match s.ctxOf s.focus.inst with
  | none => .next s
  | some c => match c.migs with
    | [] => .next s
    | m :: _ => match m.phase with
      | .released => .next (s.migBegin c m)
      | .swapping old new => .next (s.migSwap c m old new)
      | .migrating old => match s.invalidate c.tag .page m.va with
        | none => .next s
        | some s =>
          let mig := withState old 3
          match s.migCopy c m old mig with
          | (none, s) => .next s
          | (some final, s) => .next (s.setMig c.tag (some { m with phase := .copied mig final }))
      | .copied mig final => match s.cas8 c m 1 m.leafIpa mig final with
        | (.wait, s) => .next s
        | (_, s) => .next (s.setMig c.tag none)

/-! ### Frames (R351) -/

/-- The frames that hold the record rings of the queues, 128 KiB for each of 254 contexts, under tag 0xFF (R277): the last of the package
(DESIGN CHOICE, log 57). -/
def ringFrames : Nat := 16

/-- The owner tag of an HBM frame. -/
def State.frameTag (s : State) (f : Nat) : Byte := (lookupKey f s.frames).getD (if s.hbmFrames ≤ f + ringFrames then 0xFF else 0)

/-- Setting the owner tag of an HBM frame. -/
def State.setFrame (s : State) (f : Nat) (tag : Byte) : State :=
  { s with frames := if tag = 0 then dropKey f s.frames else putKey f tag s.frames }

/-- Bytes of HBM moved with their uncorrectable words, and the source cleared. -/
def State.moveHbm (s : State) (src dst n : Nat) : State :=
  let moved := s.hbm.cells.filterMap fun c => if src ≤ c.1 ∧ c.1 < src + n then some (c.1 - src + dst, c.2) else none
  let kept := ((s.hbm.clear src n).clear dst n).cells
  let bad := s.hbmBad.filter fun w => !(decide (dst ≤ 8 * w) && decide (8 * w < dst + n))
  { s with
    hbm := ⟨kept.filter (fun c => decide (c.1 < dst)) ++ moved ++ kept.filter (fun c => decide (dst + n ≤ c.1))⟩
    hbmBad := bad.map fun w => if src ≤ 8 * w ∧ 8 * w < src + n then w - src / 8 + dst / 8 else w }

/-- FRAME_MOVE: the frame behind a unit of a context's allotment is copied to a free frame; every cached result for it is dropped before
the new one is used, so accesses already translated are first performed or discarded. -/
def execFrameMove (tag : BitVec 8) (unit : Nat) (frame : Nat) (s : State) : Res :=
  match s.ctx? tag with
  | none => .next s
  | some c => match c.frames[unit]? with
    | none => .next s
    | some f =>
      if s.hbmFrames ≤ frame || s.frameTag frame != 0 || s.translatedOut tag then .next s
      else
        let s := (s.dropTranslated tag).moveHbm (f * 0x200000) (frame * 0x200000) 0x200000
        .next (((s.setFrame frame tag).setFrame f 0).modCtx tag fun c => { c with frames := c.frames.set unit frame })

/-! ### Queries (R276, R366, R377) -/

/-- Whether a port is Up and reaches a package. -/
def Port.reaches (p : Port) (d : Digest) : Bool := p.st == .up && p.peers.contains d && (!p.switch || p.indices.any fun x => x.1 == d)

/-- CTXQ item 2 (R366): per port, whether it reaches the peer of an open session that may send, or receive. -/
def State.linkPermits (s : State) (c : Context) : W64 :=
  w64 (ofElems 1 (s.ports.toList.flatMap fun p =>
    let on (f : Session → Bool) : Nat := if c.sessions.toList.any fun x => x.opened && f x && p.reaches x.peer then 1 else 0
    [on (·.send), on (·.receive)]))

/-- The value of a CTXQ item (R276). -/
def State.ctxItem (s : State) (t : Tile) (c : Context) : CtxItem → W64
  | .place => t.spot
  | .allotment => w64 c.allotment
  | .permits => s.linkPermits c
  | .epoch => c.epoch.extractLsb' 0 32 ++ BitVec.ofNat 32 t.resumes
  | .policy => match c.policy with | some p => p.digest.extractLsb' 0 64 | none => 0
  | .flags => t.xflags.setWidth 64
  | .audit => w64 (fld c.audit.seq 0 32 + c.audit.dropped % 2 ^ 32 * 2 ^ 32)

/-- CTXQ. -/
def execCtxq (h : Head) (item : CtxItem) (s : State) : Res :=
  fireWord (.ctxq h item) s none fun f =>
    f.done { send := some (match s.ctx? f.x.tag with | some c => s.ctxItem f.t c item | none => 0) }

/-- CTXQ item 6: the transfer flags, of which those shown set are cleared at the end of the perform phase. -/
def execCtxqClearFlags (h : Head) (s : State) : Res :=
  fireWord (.ctxqClearFlags h) s none fun f => f.done { send := some (f.t.xflags.setWidth 64), clear := f.t.xflags }

/-- The code of a port state (R361). -/
def PortState.code : PortState → Nat
  | .down => 0 | .training => 1 | .attested => 2 | .up => 3 | .draining => 4 | .isolated => 5

/-- LNKST (R377): the port's state, its switch bit, the link permits, the groups sent again, and the sessions it reaches. -/
def execLnkst (h : Head) (port : BitVec 5) (s : State) : Res :=
  fireWord (.lnkst h port) s none fun f =>
    let v : W64 := match s.ports[port.toNat]?, s.ctx? f.x.tag with
      | some p, some c =>
        w64 (p.st.code + (if p.switch then 8 else 0) + fld (s.linkPermits c) (2 * port.toNat) 2 * 2 ^ 8
          + Nat.min 65535 p.retries * 2 ^ 16 + (c.sessions.toList.countP fun x => x.opened && p.reaches x.peer) * 2 ^ 32)
      | _, _ => 0
    f.done { send := some v }

end Sys2Proof.Machine
end

