-- ==== Sys2Proof/Machine/StripWords.lean ====
section
/-! DEFINITION. The words of the three strips, one meaning each, as they issue (R199-R210, R212-R229). -/

namespace Sys2Proof.Machine

/-- One output to D with the tag and end bit of R195. -/
def WordIn.toD (i : WordIn) (w : SWord) (data : Beat) : List Out := [⟨w.d, data, i.tag, i.last⟩]

/-- An A-strip word that works element by element. -/
def astWord (op : Nat) (w : SWord) (s : State) : Res :=
  s.issueWord .ast op (aLatency op w.ty) w fun i =>
    let r := aWord op w.ty i.mode i.a.data i.b.data i.c.data
    { outs := i.toD w r.1, flags := r.2 }

/-- A function of the E-strip. -/
def estWord (op : Nat) (w : SWord) (s : State) : Res :=
  s.issueWord .est op (eLatency op false w.ty) w fun i =>
    let r := eWord op w.ty i.mode i.a.data i.b.data
    { outs := i.toD w r.1, flags := r.2.1, hard := r.2.2 }

/-- A function of the approximate family. -/
def estApprox (op : Nat) (w : SWord) (s : State) : Res :=
  s.issueWord .est op (eLatency op true w.ty) w fun i =>
    let r := eApproxWord op w.ty i.mode i.a.data i.b.data
    { outs := i.toD w r.1, flags := r.2 }

/-- A P-strip word with one output. -/
def pstWord (op : Nat) (w : SWord) (s : State) : Res :=
  s.issueWord .pst op (pLatency op w.ty) w fun i =>
    let r := pWord op w.ty i.mode w.imm i.a.data i.b.data i.c.data
    { outs := i.toD w r.1, flags := r.2 }

/-- A word that reads the lane flags of its strip in its due cycle (R204, R227). -/
def flagrWord (e : StripId) (op : Nat) (w : SWord) (s : State) : Res :=
  s.issueWord e op 16 w fun i => { kind := .flagr, outs := i.toD w 0 }

/-- A word that clears lane flags of its strip at the end of its issue cycle (R204, R227). -/
def flagcWord (e : StripId) (op : Nat) (w : SWord) (s : State) : Res :=
  s.issueWord e op 2 w fun _ => { outs := [], clear := some (w.imm.extractLsb' 0 5) }

/-- AST_ADD (R200). A-strip add. -/
def execAstAdd (w : SWord) (s : State) : Res :=
  astWord 0x02 w s

/-- AST_SUB (R200). A-strip subtract. -/
def execAstSub (w : SWord) (s : State) : Res :=
  astWord 0x03 w s

/-- AST_MUL (R200). A-strip multiply. -/
def execAstMul (w : SWord) (s : State) : Res :=
  astWord 0x04 w s

/-- AST_FMA (R200). Fused A times B plus C. -/
def execAstFma (w : SWord) (s : State) : Res :=
  astWord 0x05 w s

/-- AST_FMS (R200). Fused A times B minus C. -/
def execAstFms (w : SWord) (s : State) : Res :=
  astWord 0x06 w s

/-- AST_FNMA (R200). Fused C minus A times B. -/
def execAstFnma (w : SWord) (s : State) : Res :=
  astWord 0x07 w s

/-- AST_MIN (R201). Element minimum. -/
def execAstMin (w : SWord) (s : State) : Res :=
  astWord 0x08 w s

/-- AST_MAX (R201). Element maximum. -/
def execAstMax (w : SWord) (s : State) : Res :=
  astWord 0x09 w s

/-- AST_ABS (R200). Absolute value. -/
def execAstAbs (w : SWord) (s : State) : Res :=
  astWord 0x0A w s

/-- AST_NEG (R200). Negation. -/
def execAstNeg (w : SWord) (s : State) : Res :=
  astWord 0x0B w s

/-- AST_CMPEQ (R202). Equal compare, writing a mask. -/
def execAstCmpeq (w : SWord) (s : State) : Res :=
  astWord 0x0C w s

/-- AST_CMPNE (R202). Not-equal compare, writing a mask. -/
def execAstCmpne (w : SWord) (s : State) : Res :=
  astWord 0x0D w s

/-- AST_CMPLT (R202). Less-than compare, writing a mask. -/
def execAstCmplt (w : SWord) (s : State) : Res :=
  astWord 0x0E w s

/-- AST_CMPLE (R202). Less-or-equal compare, writing a mask. -/
def execAstCmple (w : SWord) (s : State) : Res :=
  astWord 0x0F w s

/-- AST_SEL (R200). Selects A or B by a mask. -/
def execAstSel (w : SWord) (s : State) : Res :=
  astWord 0x10 w s

/-- AST_MOV (R200). Lane move. -/
def execAstMov (w : SWord) (s : State) : Res :=
  astWord 0x11 w s

/-- AST_AND (R200). Lane AND. -/
def execAstAnd (w : SWord) (s : State) : Res :=
  astWord 0x12 w s

/-- AST_OR (R200). Lane OR. -/
def execAstOr (w : SWord) (s : State) : Res :=
  astWord 0x13 w s

/-- AST_XOR (R200). Lane XOR. -/
def execAstXor (w : SWord) (s : State) : Res :=
  astWord 0x14 w s

/-- AST_NOT (R200). Lane NOT. -/
def execAstNot (w : SWord) (s : State) : Res :=
  astWord 0x15 w s

/-- AST_SHL (R200). Element shift left. -/
def execAstShl (w : SWord) (s : State) : Res :=
  astWord 0x16 w s

/-- AST_SHR (R200). Element logical shift right. -/
def execAstShr (w : SWord) (s : State) : Res :=
  astWord 0x17 w s

/-- AST_SRA (R200). Element arithmetic shift right. -/
def execAstSra (w : SWord) (s : State) : Res :=
  astWord 0x18 w s

/-- AST_MULH (R200). High half of an element product. -/
def execAstMulh (w : SWord) (s : State) : Res :=
  astWord 0x19 w s

/-- AST_MADD (R200). Integer multiply-add. -/
def execAstMadd (w : SWord) (s : State) : Res :=
  astWord 0x1A w s

/-- AST_ADDS (R200). Saturating add. -/
def execAstAdds (w : SWord) (s : State) : Res :=
  astWord 0x1B w s

/-- AST_SUBS (R200). Saturating subtract. -/
def execAstSubs (w : SWord) (s : State) : Res :=
  astWord 0x1C w s

/-- AST_CLAMP (R201). Clamps A between B and C. -/
def execAstClamp (w : SWord) (s : State) : Res :=
  astWord 0x1D w s

/-- AST_RINT (R203). Rounds to an integral value in the same format. -/
def execAstRint (w : SWord) (s : State) : Res :=
  astWord 0x1E w s

/-- AST_CLASS (R203). Writes the class bit of each element. -/
def execAstClass (w : SWord) (s : State) : Res :=
  astWord 0x1F w s

/-- AST_COPYSIGN (R200). Replaces the sign of A with that of B. -/
def execAstCopysign (w : SWord) (s : State) : Res :=
  astWord 0x20 w s

/-- AST_SCALE (R200). Multiplies A by 2 to the power B. -/
def execAstScale (w : SWord) (s : State) : Res :=
  astWord 0x21 w s

/-- AST_ABSD (R200). Absolute difference. -/
def execAstAbsd (w : SWord) (s : State) : Res :=
  astWord 0x22 w s

/-- AST_AVG (R200). Rounded-up integer average. -/
def execAstAvg (w : SWord) (s : State) : Res :=
  astWord 0x23 w s

/-- AST_CLZ (R200). Element leading-zero count. -/
def execAstClz (w : SWord) (s : State) : Res :=
  astWord 0x24 w s

/-- AST_POPC (R200). Element one-bit count. -/
def execAstPopc (w : SWord) (s : State) : Res :=
  astWord 0x25 w s

/-- AST_FLAGR (R204). Reads the A-strip lane flags. -/
def execAstFlagr (w : SWord) (s : State) : Res :=
  flagrWord .ast 0x26 w s

/-- AST_FLAGC (R204). Clears the selected A-strip lane flags. -/
def execAstFlagc (w : SWord) (s : State) : Res :=
  flagcWord .ast 0x27 w s

/-- EST_EXP (R214). Correctly rounded e to the power A. -/
def execEstExp (w : SWord) (s : State) : Res :=
  estWord 0x02 w s

/-- EST_EXP2 (R214). Correctly rounded 2 to the power A. -/
def execEstExp2 (w : SWord) (s : State) : Res :=
  estWord 0x03 w s

/-- EST_EXP10 (R214). Correctly rounded 10 to the power A. -/
def execEstExp10 (w : SWord) (s : State) : Res :=
  estWord 0x04 w s

/-- EST_EXPM1 (R214). Correctly rounded e to the power A, minus 1. -/
def execEstExpm1 (w : SWord) (s : State) : Res :=
  estWord 0x05 w s

/-- EST_LOG (R214). Correctly rounded natural logarithm. -/
def execEstLog (w : SWord) (s : State) : Res :=
  estWord 0x06 w s

/-- EST_LOG2 (R214). Correctly rounded base-2 logarithm. -/
def execEstLog2 (w : SWord) (s : State) : Res :=
  estWord 0x07 w s

/-- EST_LOG10 (R214). Correctly rounded base-10 logarithm. -/
def execEstLog10 (w : SWord) (s : State) : Res :=
  estWord 0x08 w s

/-- EST_LOG1P (R214). Correctly rounded ln(1 + A). -/
def execEstLog1p (w : SWord) (s : State) : Res :=
  estWord 0x09 w s

/-- EST_SIN (R214). Correctly rounded sine. -/
def execEstSin (w : SWord) (s : State) : Res :=
  estWord 0x0A w s

/-- EST_COS (R214). Correctly rounded cosine. -/
def execEstCos (w : SWord) (s : State) : Res :=
  estWord 0x0B w s

/-- EST_TAN (R214). Correctly rounded tangent. -/
def execEstTan (w : SWord) (s : State) : Res :=
  estWord 0x0C w s

/-- EST_SINPI (R214). Correctly rounded sin(pi A). -/
def execEstSinpi (w : SWord) (s : State) : Res :=
  estWord 0x0D w s

/-- EST_COSPI (R214). Correctly rounded cos(pi A). -/
def execEstCospi (w : SWord) (s : State) : Res :=
  estWord 0x0E w s

/-- EST_ASIN (R214). Correctly rounded arcsine. -/
def execEstAsin (w : SWord) (s : State) : Res :=
  estWord 0x0F w s

/-- EST_ACOS (R214). Correctly rounded arccosine. -/
def execEstAcos (w : SWord) (s : State) : Res :=
  estWord 0x10 w s

/-- EST_ATAN (R214). Correctly rounded arctangent. -/
def execEstAtan (w : SWord) (s : State) : Res :=
  estWord 0x11 w s

/-- EST_ATAN2 (R214). Correctly rounded angle of the point (B, A). -/
def execEstAtan2 (w : SWord) (s : State) : Res :=
  estWord 0x12 w s

/-- EST_SINH (R214). Correctly rounded hyperbolic sine. -/
def execEstSinh (w : SWord) (s : State) : Res :=
  estWord 0x13 w s

/-- EST_COSH (R214). Correctly rounded hyperbolic cosine. -/
def execEstCosh (w : SWord) (s : State) : Res :=
  estWord 0x14 w s

/-- EST_TANH (R214). Correctly rounded hyperbolic tangent. -/
def execEstTanh (w : SWord) (s : State) : Res :=
  estWord 0x15 w s

/-- EST_ERF (R214). Correctly rounded error function. -/
def execEstErf (w : SWord) (s : State) : Res :=
  estWord 0x16 w s

/-- EST_ERFC (R214). Correctly rounded complementary error function. -/
def execEstErfc (w : SWord) (s : State) : Res :=
  estWord 0x17 w s

/-- EST_SIGMOID (R214). Correctly rounded logistic function. -/
def execEstSigmoid (w : SWord) (s : State) : Res :=
  estWord 0x18 w s

/-- EST_POW (R214). Correctly rounded A to the power B. -/
def execEstPow (w : SWord) (s : State) : Res :=
  estWord 0x19 w s

/-- EST_CBRT (R214). Correctly rounded cube root. -/
def execEstCbrt (w : SWord) (s : State) : Res :=
  estWord 0x1A w s

/-- EST_HYPOT (R214). Correctly rounded hypotenuse. -/
def execEstHypot (w : SWord) (s : State) : Res :=
  estWord 0x1B w s

/-- EST_RSQRT (R214). Correctly rounded reciprocal square root. -/
def execEstRsqrt (w : SWord) (s : State) : Res :=
  estWord 0x1C w s

/-- EST_SQRT (R214). Correctly rounded square root. -/
def execEstSqrt (w : SWord) (s : State) : Res :=
  estWord 0x1D w s

/-- EST_RCP (R214). Correctly rounded reciprocal. -/
def execEstRcp (w : SWord) (s : State) : Res :=
  estWord 0x1E w s

/-- EST_DIV (R214). Correctly rounded quotient. -/
def execEstDiv (w : SWord) (s : State) : Res :=
  estWord 0x1F w s

/-- EST_EXP_A (R229). Approximate EXP by the fixed algorithm. -/
def execEstExpA (w : SWord) (s : State) : Res :=
  estApprox 0x02 w s

/-- EST_EXP2_A (R229). Approximate EXP2. -/
def execEstExp2A (w : SWord) (s : State) : Res :=
  estApprox 0x03 w s

/-- EST_EXP10_A (R229). Approximate EXP10. -/
def execEstExp10A (w : SWord) (s : State) : Res :=
  estApprox 0x04 w s

/-- EST_LOG_A (R229). Approximate LOG. -/
def execEstLogA (w : SWord) (s : State) : Res :=
  estApprox 0x06 w s

/-- EST_LOG2_A (R229). Approximate LOG2. -/
def execEstLog2A (w : SWord) (s : State) : Res :=
  estApprox 0x07 w s

/-- EST_SIGMOID_A (R229). Approximate SIGMOID. -/
def execEstSigmoidA (w : SWord) (s : State) : Res :=
  estApprox 0x18 w s

/-- EST_RSQRT_A (R229). Approximate RSQRT. -/
def execEstRsqrtA (w : SWord) (s : State) : Res :=
  estApprox 0x1C w s

/-- EST_SQRT_A (R229). Approximate SQRT. -/
def execEstSqrtA (w : SWord) (s : State) : Res :=
  estApprox 0x1D w s

/-- EST_RCP_A (R229). Approximate RCP. -/
def execEstRcpA (w : SWord) (s : State) : Res :=
  estApprox 0x1E w s

/-- EST_DIV_A (R229). Approximate DIV. -/
def execEstDivA (w : SWord) (s : State) : Res :=
  estApprox 0x1F w s

/-- EST_HARDR (R226). Reads the four hard counters and their sum, optionally clearing them. -/
def execEstHardr (w : SWord) (s : State) : Res :=
  s.issueWord .est 0x20 16 w fun i => { kind := .hardr (w.imm.getLsbD 0), outs := i.toD w 0 }

/-- EST_FLAGR (R227). Reads the E-strip lane flags. -/
def execEstFlagr (w : SWord) (s : State) : Res :=
  flagrWord .est 0x21 w s

/-- EST_FLAGC (R227). Clears the selected E-strip lane flags. -/
def execEstFlagc (w : SWord) (s : State) : Res :=
  flagcWord .est 0x22 w s

/-- PST_PERMB (R205). Byte permute within 64-byte windows. -/
def execPstPermb (w : SWord) (s : State) : Res :=
  pstWord 0x02 w s

/-- PST_SHUF (R205). Element gather by index. -/
def execPstShuf (w : SWord) (s : State) : Res :=
  pstWord 0x03 w s

/-- PST_ROTL (R205). Rotates a pool of A and B. -/
def execPstRotl (w : SWord) (s : State) : Res :=
  pstWord 0x04 w s

/-- PST_BCAST (R205). Broadcasts one element. -/
def execPstBcast (w : SWord) (s : State) : Res :=
  pstWord 0x05 w s

/-- PST_ZIP (R205). Interleaves halves of A and B. -/
def execPstZip (w : SWord) (s : State) : Res :=
  pstWord 0x06 w s

/-- PST_UNZIP (R205). De-interleaves a pool of A and B. -/
def execPstUnzip (w : SWord) (s : State) : Res :=
  pstWord 0x07 w s

/-- PST_CVT (R206). Converts a window of elements between formats. -/
def execPstCvt (w : SWord) (s : State) : Res :=
  pstWord 0x08 w s

/-- PST_PACKB (R207). Narrows elements to half width. -/
def execPstPackb (w : SWord) (s : State) : Res :=
  pstWord 0x09 w s

/-- PST_UNPACKB (R207). Widens elements to twice their width. -/
def execPstUnpackb (w : SWord) (s : State) : Res :=
  pstWord 0x0A w s

/-- PST_SCAN (R208). Prefix add, minimum or maximum with a seed. -/
def execPstScan (w : SWord) (s : State) : Res :=
  pstWord 0x0B w s

/-- PST_REDUCE (R208). Reduction to element 0 with a seed. -/
def execPstReduce (w : SWord) (s : State) : Res :=
  pstWord 0x0C w s

/-- PST_COMPACT (R205). Packs the selected elements to the front. -/
def execPstCompact (w : SWord) (s : State) : Res :=
  pstWord 0x0D w s

/-- PST_EXPAND (R205). Spreads elements to the selected positions. -/
def execPstExpand (w : SWord) (s : State) : Res :=
  pstWord 0x0E w s

/-- PST_INTERSECT (R205). Membership test of A's elements in B. -/
def execPstIntersect (w : SWord) (s : State) : Res :=
  pstWord 0x0F w s

/-- PST_STEER (R209). Sends a beat to one of two destinations by a control. -/
def execPstSteer (w : SWord) (s : State) : Res :=
  s.issueWord .pst 0x10 2 w fun i =>
    { outs := [⟨if i.b.data.getLsbD 0 then w.d else w.c, i.a.data, i.a.tag, i.a.last⟩] }

/-- PST_MERGE (R209). Takes a beat from one of two inputs by a control. -/
def execPstMerge (w : SWord) (s : State) : Res :=
  -- the selected input stands in a
  s.issueWord .pst 0x11 2 w fun i => { outs := [⟨w.d, i.a.data, i.a.tag, i.a.last⟩] }

/-- PST_SEGSCAN (R208). Segmented prefix operation. -/
def execPstSegscan (w : SWord) (s : State) : Res :=
  pstWord 0x12 w s

/-- PST_IOTA (R205). Writes an arithmetic sequence. -/
def execPstIota (w : SWord) (s : State) : Res :=
  pstWord 0x13 w s

/-- PST_MASKGEN (R205). Writes a prefix mask. -/
def execPstMaskgen (w : SWord) (s : State) : Res :=
  pstWord 0x14 w s

/-- PST_POPCM (R205). Counts the non-zero elements. -/
def execPstPopcm (w : SWord) (s : State) : Res :=
  pstWord 0x15 w s

/-- PST_TRN (R205). Transposes elements within a beat. -/
def execPstTrn (w : SWord) (s : State) : Res :=
  pstWord 0x16 w s

/-- PST_INSL (R205). Inserts one element into B. -/
def execPstInsl (w : SWord) (s : State) : Res :=
  pstWord 0x17 w s

/-- PST_EXTL (R205). Extracts one element. -/
def execPstExtl (w : SWord) (s : State) : Res :=
  pstWord 0x18 w s

/-- PST_SPLIT (R209). Compacts A by a mask into two destinations. Where D and C name one v register, the result of C remains: the spec forbids
only one channel in both and does not say which remains (DESIGN CHOICE, log 53). -/
def execPstSplit (w : SWord) (s : State) : Res :=
  s.issueWord .pst 0x19 (pLatency 0x19 w.ty) w fun i =>
    { outs := [⟨w.d, pMove 0x0D w.ty 0 i.a.data i.b.data 0, i.a.tag, i.a.last⟩,
               ⟨w.c, splitZero w.ty i.a.data i.b.data, i.a.tag, i.a.last⟩] }

/-- PST_TAGS (R205). Sets the tag of the pushed beat. -/
def execPstTags (w : SWord) (s : State) : Res :=
  s.issueWord .pst 0x1A 2 w fun i => { outs := [⟨w.d, i.a.data, w.imm.extractLsb' 0 8, i.last⟩] }

/-- PST_MARKE (R205). Sets the end bit of the pushed beat. -/
def execPstMarke (w : SWord) (s : State) : Res :=
  s.issueWord .pst 0x1B 2 w fun i => { outs := [⟨w.d, i.a.data, i.tag, w.imm.getLsbD 0⟩] }

/-- PST_TAGT (R210). Passes a beat and checks its tag, faulting on a mismatch. -/
def execPstTagt (w : SWord) (s : State) : Res :=
  s.issueWord .pst 0x1C 2 w fun i =>
    let bad := (i.a.tag ^^^ w.imm.extractLsb' 0 8) &&& w.imm.extractLsb' 8 8
    { outs := [⟨w.d, i.a.data, i.a.tag, i.a.last⟩],
      tagt := if bad = 0 then none else some (i.a.tag, w.imm.extractLsb' 0 8) }

end Sys2Proof.Machine
end

