-- ==== Sys2Proof/Machine/Sched.lean ====
section
/-! DEFINITION. The order in which the schedule clock of a tile takes its steps (R48; log 1). -/

namespace Sys2Proof.Machine

/-- The next step of a tile's schedule clock: it is stopped; the second phase rounds; results fall due; the MXE takes a token; a
strip selects a word, or its word issues; the held token issues; or the schedule cycle ends. -/
inductive SchedAct where
  | stop
  | round
  | due (e : StripId)
  | push
  | retire
  | take
  | select (e : StripId)
  | word (e : StripId) (w : W64)
  | token (w : W64)
  | close
deriving DecidableEq, Repr

/-- Whether a strip's next word faults for a binding, or would pop a surplus channel that has an entry to discard. -/
def Tile.selectFirst (t : Tile) (e : StripId) : Bool :=
  match (t.strip e).nextWord t.cyc with
  | none => false
  | some (w, _, _) => t.bindFault e w || (t.drainChan e w).isSome

/-- The strip whose next word comes first for that, where no engine is stopped. -/
def Tile.firstSelect (t : Tile) : Option StripId :=
  if t.anyStopped then none else ([.ast, .est, .pst] : List StripId).find? t.selectFirst

/-- The strips. -/
def strips : List StripId := [.ast, .est, .pst]

/-- The issue steps of a schedule cycle: the token, then the words, then the end of the cycle. -/
def State.issueAct (s : State) (x : Inst) (t : Tile) : SchedAct :=
  if t.anyStopped then .stop
  else
    let tok : Option W64 := match t.mxe.held with
      | some h => if t.mxe.nextAt ≤ t.cyc then some h.q.tok else none
      | none => none
    match tok with
    | some w => if s.mxClear x t then .token w else .stop
    | none =>
      match strips.findSome? fun e => (t.strip e).cur.map fun c => (e, c.1) with
      | some (e, w) => .word e w
      | none =>
        match strips.find? fun e => match (t.strip e).nextWord t.cyc with
            | none => false
            | some (w, _, _) => t.wordReady e w with
        | some e => .select e
        | none => .close

/-- The steps of a schedule cycle that runs, up to its issues. -/
def State.dueAct (s : State) (x : Inst) (t : Tile) : SchedAct :=
  match strips.find? fun e => !(t.dueOf e).isEmpty with
  | some e => .due e
  | none =>
    if t.mxDue.any fun d => d.beat.isSome then .push
    else if !t.mxDue.isEmpty then .retire
    else match t.firstSelect with
      | some e => .select e
      | none => if t.canTake then .take else if s.issueClear x t then s.issueAct x t else .stop

/-- The next step of the schedule clock of the tile in focus. -/
def State.schedAct (s : State) (x : Inst) (t : Tile) : SchedAct :=
  if t.place != .running then .stop
  else match t.phase with
    | .issue => s.issueAct x t
    | .due => s.dueAct x t
    | .start =>
      match t.firstSelect with
      | some e => .select e
      | none =>
        if !s.startClear x t then .stop
        else if !t.hardDue.isEmpty then .round
        else s.dueAct x t

/-- A schedule cycle that has ended. -/
def Tile.closeCycle (t : Tile) : Tile := { t with cyc := t.cyc + 1, phase := .start }

end Sys2Proof.Machine
end

