-- ==== Sys2Proof/Machine/Faults.lean ====
section
/-! DEFINITION. Taking and delivering faults, escalation, and the quiescence detector with its DEADLOCK report (R57, R313-R315,
R381-R386, R390). -/

namespace Sys2Proof.Machine

/-! ### Faults (R379, R381, R383, R390) -/

/-- Whether a code is one that a tile takes: R379 raises no other, and BUDGET_OVERRUN is never delivered to a tile. -/
def takenCode (c : Byte) : Bool := decide (1 ≤ c.toNat) && decide (c.toNat ≤ 0x15) && c != 0x13

/-- Whether the block of a tile is in its perform phase, in which no fault arises and nothing is discarded (R41). -/
def Tile.performing (t : Tile) : Bool := match t.seq.block with | some b => b.perform.isSome | none => false

/-- FAULT_TAKE: the tile in focus takes a fault (R381). -/
def execFaultTake (f : FaultArg) (s : State) : Res :=
  s.onTile fun _ t =>
    if !takenCode f.code || t.performing || t.place != .running || t.seq.finished then .next s
    else .next (s.takeFault s.focus.inst s.focus.tile f)

/-- FAULT_DELIVERY: at a delivery point one pending fault is taken; the engine whose fault it is stays under service until the handler
ends (R383-R386). -/
def execFaultDelivery (s : State) : Res :=
  s.onTile fun _ t =>
    if !t.deliverable || t.place != .running || (match t.seq.block with | some b => b.committing | none => false) then .next s
    else match t.seq.pend.pick with
      | none => .next s
      | some (f, rest) =>
        let s := s.modFocus fun t => { t with seq := { t.seq with pend := rest, service := some (f.engine, f.code) } }
        .next (s.takeFault s.focus.inst s.focus.tile ⟨f.code, .a, f.engine, f.info, t.epcNow, f.page⟩)

/-- The code of an escalation's reason (R391). -/
def reasonCode : EscReason → Nat
  | .noHandler => 1 | .inHandler => 2 | .queueFull => 3

/-- Whether a case of R382 holds on a tile. -/
def Tile.escalates (t : Tile) (f : FaultArg) : EscReason → Bool
  | .noHandler => t.sr.hvec == 0
  | .inHandler => t.handler && f.cls != .a
  | .queueFull => f.cls == .a && (if f.engine = 2 then t.seq.pend.strq.length == 16 else f.engine == 0 && t.seq.pend.eng0.length == 16)

/-- ESCALATE: a fault of the tile in focus that R382 escalates ends the instance (R390). -/
def execEscalate (f : FaultArg) (reason : EscReason) (s : State) : Res :=
  s.onTile fun _ t =>
    if !takenCode f.code || !t.escalates f reason || t.seq.finished || t.performing then .next s
    else .next (s.escalate s.focus.inst s.focus.tile f (reasonCode reason))

/-! ### Outstanding work (R57) -/

/-- Whether a stream of a tile has a command in its queue, or runs and holds input: elements it has not passed on, or beats for it at its
source (R57). One that runs and has nothing to pass on holds none. -/
def Tile.streamHolds (t : Tile) (x : Stream) : Bool :=
  let source := if sdPortEnd x.desc then !(t.vcAt (sdPort x.desc) (sdVc x.desc)).feed.isEmpty else !(t.chanAt (sdChan x.desc)).entries.isEmpty
  !x.queue.isEmpty || (x.st == .running && (!x.walk.beat.isEmpty || !x.walk.row.isEmpty || !x.walk.ahead.isEmpty || (!sdRead x.desc && source)))

/-- Whether a tile has outstanding work: an uncommitted block, a WAITA with no timeout or a BAR, a queue of an engine that is not
empty, a stream that holds input. -/
def Tile.outstanding (t : Tile) : Bool :=
  let parked := match t.seq.park, t.seq.outer with
    | some (.waita _ _ _ l _ _), _ => l == 0
    | some (.bar _ _), _ => true
    | _, some (.waita _ _ _ l _ none) => l == 0
    | _, some (.bar _ _) => true
    | _, _ => false
  !t.seq.finished && (t.seq.block.isSome || parked || !t.ast.retired || !t.est.retired || !t.pst.retired || !t.mxe.retired
    || t.stream.toList.any t.streamHolds || !t.halos.isEmpty)

/-- Whether a copy engine holds a packet that passes a test. -/
def State.copyHolds (s : State) (mine : CpPkt → Bool) : Bool :=
  s.copy.toList.any fun e => e.waiting.any mine || e.active.any fun a => mine a.p

/-- Whether an instance has outstanding work. -/
def State.outstanding (s : State) (i : Nat) (x : Inst) : Bool :=
  x.st != .retired && (x.tiles.any Tile.outstanding || x.nodes.any (fun n => !n.finished && n.holds) || s.copyHolds fun p => p.inst == i)

/-- Whether a context has outstanding work: an instance of it, or a COPY of its queues. -/
def State.workLeft (s : State) (tag : Byte) : Bool :=
  (s.insts.zipIdx.any fun (x, i) => x.tag == tag && s.outstanding i x) || s.copyHolds fun p => p.src == .queue tag

/-! ### What a node waits on (R315) -/

/-- One wait: its code, the object, the detail. -/
abbrev Wait := Nat × Nat × W64

/-- The index of the granule's VA of a slice location in the window. -/
def windowVa (tile off : Nat) : W64 := windowBase tile + w64 off

/-- The waits of a parked sequencer. -/
def Seq.parkWaits (x : Inst) (q : Seq) : List Wait :=
  match (match q.park with | some p => some p | none => q.outer) with
  | some (.bar gid _) => [(10, gid.toNat, w64 (x.bar gid).count)]
  | some (.waita h o _ l _ none) => if l = 0 then [(9, 0, windowVa h o)] else []
  | _ => []

/-- The semaphores that cannot give what some SEMAs take in all (R327). -/
def Tile.semaWaits (t : Tile) (effs : List Fired) : List Wait :=
  (List.range 64).filterMap fun k =>
    let need := (effs.map fun e => match e.eff with | .sema _ sem cnt => if sem.toNat = k then cnt.toNat else 0 | _ => 0).sum
    if need ≤ (vget t.sem k 0).toNat then none else some (8, k, (vget t.sem k 0).setWidth 64)

/-- The semaphores of the SEMAs that hold back loads of a block which have their tokens (R327, R330). -/
def Block.heldLoads (b : Block) (t : Tile) : List Wait :=
  (b.unfired.flatMap fun q => match readiness q.1 q.2.1 q.2.2.2 with
    | .go _ _ => if q.2.1.load then t.semaWaits (b.below q.2.1.ls) else []
    | _ => []).eraseDups

/-- The waits of a block's loads, LDF.TAKEs, channel reads and barrier waits that hold their tokens. -/
def State.fireWaits (s : State) (i : Nat) (x : Inst) (t : Tile) (b : Block) : List Wait :=
  let empty (k : AccKind) (sz : Size) (va : W64) : Option Wait :=
    match s.seqCheck i ⟨k, sz.bytes, true, true⟩ va with
    | .loc l => if s.fullFor i t l then none else some (7, 0, va)
    | _ => none
  b.heldLoads t ++ b.unfired.filterMap fun q => match readiness q.1 q.2.1 q.2.2.2 with
    | .go a _ => match q.2.2.1 with
      | .ldf _ _ sz off => empty .read sz (a + off.signExtend 64)
      | .ldfTake _ _ sz _ off => empty .atomic sz (a + off.signExtend 64)
      | .chr _ _ ch _ =>
        -- the k-th CHR of a block takes the k-th entry
        let k := b.effs.countP fun e => match e.eff with | .chr c => c == ch | _ => false
        if (t.chanAt ch.toNat).entries.length ≤ k then some (1, ch.toNat, 0) else none
      | .tokw _ _ e =>
        let k := b.effs.countP fun f => f.eff == .tokw e
        if t.fifoAt (partnerId e) 1 ≤ k then some (3, fifoIdx (partnerId e) 1, 0) else none
      | .barw _ _ gid => if t.phaseOf gid = a.extractLsb' 0 32 then some (10, gid.toNat, w64 (x.bar gid).count) else none
      | _ => none
    | _ => none

/-- What the wait phase of a block that could commit still lacks. -/
def State.commitWaits (s : State) (i ti : Nat) (x : Inst) (t : Tile) (b : Block) : List Wait :=
  let effs := b.inOrder
  t.semaWaits effs
  ++ (([.str, .ast, .est, .pst, .mxe] : List Partner).filterMap fun p =>
    let n := countEff effs fun e => e == .tokp p
    if n == 0 || decide (t.fifoAt 1 (partnerId p) + n ≤ 15) then none else some ((4, fifoIdx 1 (partnerId p), 0) : Wait))
  ++ ((List.range 16).filterMap fun k =>
    let n := countEff effs fun e => match e with | .chw ch _ _ _ => ch.toNat == k | _ => false
    if n == 0 || decide ((t.chanAt k).entries.length + n ≤ 2) then none else some ((2, k, 0) : Wait))
  ++ (effs.filterMap fun e => match e.eff with
    | .bara gid _ | .bar gid => if x.mayArrive ti [e] then none else some (10, gid.toNat, w64 (x.bar gid).count)
    | .take l _ _ => if s.fullAt i l then none else some (7, 0, e.va)
    | _ => none)
  ++ ((List.range 16).filterMap fun k => if t.streamRoom effs (BitVec.ofNat 4 k) then none else some ((12, k, 0) : Wait))
  ++ (if s.copyRoom t effs && s.enqRoom x.tag effs then [] else [(12, 0, 0)])

/-- The waits of a tile's sequencer. -/
def State.seqWaits (s : State) (i ti : Nat) (x : Inst) (t : Tile) : List Wait :=
  t.seq.parkWaits x ++ (match t.seq.block with
    | none => []
    | some b => if b.settledAll then s.commitWaits i ti x t b else s.fireWaits i x t b)

/-- The waits of a strip: the POP token or the channel of its next word, and the channel or FIFO of a result that is due. -/
def Tile.stripWaits (t : Tile) (e : StripId) : List Wait :=
  let next : List Wait := match (t.strip e).nextWord t.cyc with
    | none => []
    | some (w, _, _) =>
      let x := SWord.ofWord w
      if x.pop != 0 && t.fifoAt x.pop.toNat (stripId e) == 0 then [(3, fifoIdx x.pop.toNat (stripId e), 0)]
      else match (t.plan e (wordOp w) x).short with
        | some k => [(1, k, 0)]
        | none => []
  let due : List Wait := (t.dueOf e).flatMap fun f =>
    ((f.outputs (t.strip e)).filterMap fun o => match codeChan o.dst with
      | some k => if 2 ≤ (t.chanAt k).entries.length then some ((2, k, 0) : Wait) else none
      | none => none)
    ++ (if f.push != 0 && t.fifoAt (stripId e) f.push.toNat == 15 then [(4, fifoIdx (stripId e) f.push.toNat, 0)] else [])
  next ++ due

/-- The waits of the MXE: the POP token of the token it holds, the channel it reads tokens or a frame from, and the channel or FIFO of a
result that is due. -/
def Tile.mxeWaits (t : Tile) : List Wait :=
  let held : List Wait := match t.afterTake.mxe.held with
    | some h =>
      if tokPop h.q.tok != 0 && !h.popped && t.fifoAt (tokPop h.q.tok) 6 == 0 then [(3, fifoIdx (tokPop h.q.tok) 6, 0)]
      else if t.accinHeld h then
        [(4, fifoIdx 6 (tokPush h.q.tok), 0)]
      else if h.popped then [(1, fld h.q.tok 10 4, 0)]
      else []
    | none => match t.mxe.src with
      | some c => if t.mxe.beat.isEmpty && (t.chanAt c.toNat).entries.isEmpty then [(1, c.toNat, 0)] else []
      | none => []
  let due : List Wait := t.mxDue.filterMap fun d => match d.beat with
    | some (c, _) => if 2 ≤ (t.chanAt c.toNat).entries.length then some (2, c.toNat, 0) else none
    | none => if d.retire && tokPush d.q.tok != 0 && t.fifoAt 6 (tokPush d.q.tok) == 15 then
        some (4, fifoIdx 6 (tokPush d.q.tok), 0) else none
  held ++ due

/-- The waits of a stream that runs: its token FIFOs, its channel, or its port VC. -/
def Tile.streamWaits (t : Tile) (st : BitVec 4) : List Wait :=
  let x := t.streamAt st
  let d := x.desc
  let vc := vcIdx (sdPort d) (sdVc d)
  if x.st != .running then []
  else if !x.walk.popped && sdPop d != 0 && t.fifoAt (sdPop d) 2 == 0 then [(3, fifoIdx (sdPop d) 2, 0)]
  else if x.walk.tokenDue && t.fifoAt 2 (sdPush d) == 15 then [(4, fifoIdx 2 (sdPush d), 0)]
  else if sdRead d then
    if sdPortEnd d then (if 2 ≤ (t.vcAt (sdPort d) (sdVc d)).feed.length then [(5, vc, 0)] else [])
    else if 2 ≤ (t.chanAt (sdChan d)).entries.length then [(2, sdChan d, 0)] else []
  else if !x.walk.beat.isEmpty then []
  else if sdPortEnd d then (if (t.vcAt (sdPort d) (sdVc d)).feed.isEmpty then [(6, vc, 0)] else [])
  else if (t.chanAt (sdChan d)).entries.isEmpty then [(1, sdChan d, 0)] else []

/-- The waits of a tile's outbound VCs: units that are ready and have no demand. -/
def Tile.vcWaits (t : Tile) : List Wait :=
  (t.vc.toList.zipIdx).filterMap fun (v, k) => if v.ready.isEmpty then none else some (5, k, 0)

/-- The waits of a tile's copy packets: a permit counter that is zero. -/
def State.copyWaits (s : State) (i ti : Nat) (x : Inst) : List Wait :=
  (s.copy.toList.zipIdx).flatMap fun (e, k) => e.heads.filterMap fun p =>
    if p.inst == i && p.tile == ti && cpPermit p.pkt && x.permitAt k (cpCounter p.pkt) == 0 then some (11, cpCounter p.pkt, 0) else none

/-- The waits of a tile. -/
def State.tileWaits (s : State) (i ti : Nat) (x : Inst) (t : Tile) : List Wait :=
  if t.seq.finished then []
  else s.seqWaits i ti x t ++ t.stripWaits .ast ++ t.stripWaits .est ++ t.stripWaits .pst ++ t.mxeWaits
    ++ ((List.range 16).flatMap fun k => t.streamWaits (BitVec.ofNat 4 k)) ++ t.vcWaits ++ s.copyWaits i ti x

/-- The outputs of a fabric operator at which a unit that leads there has no demand. -/
def State.shutOutputs (s : State) (i : Nat) (x : Inst) (n : FabNode) (outs : List (Nat × FUnit)) : List Nat :=
  (outs.map (·.1)).eraseDups.filter fun p => match outs.find? fun o => o.1 == p with
    | some (_, u) => (s.fabSend i x.kernel n.id (n.plots.headD 0) p u).isNone
    | none => false

/-- The inputs without a unit that a fabric operator needs next: a MERGE reads only the selected one (R311), a STEER or a ROUTE in the middle of a
frame only its data, a ROUTE before it only the scores (R312). -/
def FabNode.lacks (n : FabNode) : List Nat :=
  let empty (l : List Nat) : List Nat := l.filter fun p => (n.head? p).isNone
  let data (c : FUnit) : Nat := if c.2.bits.getLsbD 0 then 1 else 2
  match n.set.library.toNat with
  | 1 => if n.par 0 1 = 1 ∧ n.inFrame then empty [0] else empty [0, 1]
  | 2 => (match n.par 0 1, n.inFrame, n.took with
    | 1, true, j :: _ => empty [j]
    | m, _, _ => match n.head? 0 with
      | none => [0]
      | some c =>
        if m = 1 then empty [data c]
        else if n.skips || c.2.void || (n.head? (data c)).isSome then empty ([1, 2].filter fun j => !n.hasTaken j)
        else [data c])
  | 6 => empty [if n.took.isEmpty then 0 else 1]
  | _ => empty (n.ins.map (·.1))

/-- The packets of a fabric operator's plot set that wait for a permit (R331). -/
def State.permitWaits (s : State) (i : Nat) (x : Inst) (n : FabNode) : List Wait :=
  (s.copy.toList.zipIdx).flatMap fun (e, k) => e.heads.filterMap fun p => match p.src with
    | .node q => if p.inst == i && n.plots.contains q && cpPermit p.pkt && x.permitAt k (cpCounter p.pkt) == 0 then
        some (11, cpCounter p.pkt, 0) else none
    | _ => none

/-- The waits of a fabric operator: a permit for its packets; demand on the outputs of what it has emitted, or of what it would emit; or units
on the inputs that it needs next. -/
def State.nodeWaits (s : State) (i : Nat) (x : Inst) (n : FabNode) : List Wait :=
  let own : List Wait := if n.finished then []
  else if !n.outs.isEmpty then (s.shutOutputs i x n n.outs).map fun p => (13, p, 0)
  else match n.firing s.now x.kernel with
    | some r => (s.shutOutputs i x n r.outs).map fun p => (13, p, 0)
    | none => if n.holds then n.lacks.map fun p => (6, p, 0) else []
  s.permitWaits i x n ++ own

/-! ### The report (R314) -/

/-- A record of the report: node, tile, kind, wait. -/
abbrev WaitRec := Nat × Nat × Nat × Wait

/-- The bits of a record (R315). -/
def recordBits (r : WaitRec) : BitVec 128 :=
  r.2.2.2.2.2 ++ BitVec.ofNat 64 (r.2.2.2.2.1 % 256 * 2 ^ 48 + r.2.2.2.1 * 2 ^ 40 + r.2.2.1 * 2 ^ 32 + r.2.1 * 2 ^ 16 + r.1)

/-- The records of an instance. -/
def State.instRecords (s : State) (i : Nat) (x : Inst) : List WaitRec :=
  ((x.tiles.zipIdx).flatMap fun (t, k) => (s.tileWaits i k x t).map fun w => (t.node.toNat, k, 0, w))
    ++ x.nodes.flatMap fun n => (s.nodeWaits i x n).map fun w => (n.id.toNat, 0, 1, w)

/-- A record put into a list in ascending node id and then ascending tile id, behind its equals. -/
def putRecord (r : WaitRec × W64) : List (WaitRec × W64) → List (WaitRec × W64)
  | [] => [r]
  | q :: l => if r.1.1 < q.1.1 ∨ r.1.1 = q.1.1 ∧ r.1.2.1 < q.1.2.1 then r :: q :: l else q :: putRecord r l

/-- The most records that a report holds. -/
def maxRecords : Nat := 4092

/-- The records of a context, sorted, each with the sr.ctx of its instance. -/
def State.reportRecords (s : State) (tag : Byte) : List (WaitRec × W64) :=
  let all := (s.insts.zipIdx).flatMap fun (x, i) =>
    if x.tag == tag && x.st != .retired then
      let id := match x.tiles with | t :: _ => t.sr.ctx | [] => 0
      (s.instRecords i x).map fun r => (r, id)
    else []
  all.foldl (fun l r => putRecord r l) []

/-- The writes of the report (R314): its records, its header, and then the count. -/
def reportOps (rs : List (WaitRec × W64)) : List PostOp :=
  let body := rs.take maxRecords
  let ctx : W64 := match rs with | r :: _ => r.2 | [] => 0
  [.write 0x80040 (body.flatMap fun r => vecBytes 16 (recordBits r.1)),
   .write 0x80008 (vecBytes 8 ctx ++ vecBytes 8 (w64 body.length) ++ vecBytes 8 (w64 (rs.length - body.length))),
   .read 0x80000]

/-- Whether a tile or a plot set of a context is pre-empted, or saved. -/
def State.preempted (s : State) (tag : Byte) : Bool :=
  s.insts.any fun x => x.tag == tag && x.st != .retired
    && (x.tiles.any (fun t => t.place != .running) || x.nodes.any fun n => n.pre.isSome && !n.finished)

/-- DEADLOCK made pending on the home tiles to which a report that has ended leads, with the count of the records written (R313, R314). -/
def State.deliverReport (s : State) (tag : Byte) : State :=
  match (s.ctx? tag).bind (·.report) with
  | some ⟨is, n, some ok⟩ =>
    is.foldl (fun s i => s.pendFault i 0 none { code := cDeadlock, engine := 0, info := w64 (if ok then n else 0), page := none })
      (s.modCtx tag fun c => { c with report := none })
  | _ => s

/-- DEADLOCK_DECLARE: after 4,096 tile cycles in which nothing of a running context with outstanding work moved, the report is written,
counted, and DEADLOCK becomes pending on the home tile of each of its instances with outstanding work (R57, R313). -/
def execDeadlockDeclare (tag : BitVec 8) (s : State) : Res :=
  match s.ctx? tag with
  | none => .next s
  | some c =>
    let blocked := (s.insts.zipIdx).filter fun (x, i) => x.tag == tag && s.outstanding i x
    if !c.active || c.declared || decide (c.quiet < 4096) || !s.workLeft tag || s.preempted tag then .next s
    else
      let rs := s.reportRecords tag
      let s := (s.count tag 0x17 1).modCtx tag fun c =>
        { c with declared := true, quiet := 0, report := some ⟨blocked.map (·.2), (rs.take maxRecords).length, none⟩ }
      .next ((s.post tag .report (reportOps rs)).deliverReport tag)

end Sys2Proof.Machine
end

