-- ==== Sys2Proof/Machine/Flits.lean ====
section
/-! DEFINITION. Omide ports, messages laid in flits, groups with their control flits, acknowledgement and retry, arbitration among classes, and
what a port that leaves Up hands on (R361-R369, R375, R376, R378). -/

namespace Sys2Proof.Machine

/-! ### Messages and flits (R369) -/

/-- The kind of a message. -/
def MsgBody.kind : MsgBody → Nat
  | .units _ _ _ _ => 1
  | .grant _ _ _ => 2
  | .read _ _ => 3
  | .readResponse _ => 4
  | .write _ _ _ => 5
  | .atomic _ _ _ _ _ => 6
  | .atomicResult _ => 7
  | .completion => 8
  | .fault _ => 9
  | .abort => 10

/-- The remote VA of a message, or 0. -/
def MsgBody.va : MsgBody → W64
  | .read va _ | .write va _ _ | .atomic va _ _ _ _ => va
  | _ => 0

/-- The number of an atomic operation, in the order of R156. -/
def atomicNum : AtomicOp → Nat
  | .add => 0 | .swp => 1 | .cas => 2 | .and => 3 | .or => 4 | .xor => 5 | .min => 6 | .max => 7 | .minu => 8 | .maxu => 9

/-- What a message says beside its kind, its session and its VA, as words. -/
def MsgBody.fields : MsgBody → List W64
  | .units vc tile fmt us => [vc.setWidth 64, tile.setWidth 64, fmt.setWidth 64] ++ us.flatMap fun u =>
      [u.bits.extractLsb' 0 64, u.bits.extractLsb' 64 64, u.bits.extractLsb' 128 16 |>.setWidth 64,
       w64 (u.tag.toNat + (if u.last then 256 else 0) + if u.void then 512 else 0)]
  | .grant vc tile n => [vc.setWidth 64, tile.setWidth 64, w64 n]
  | .read _ sz => [w64 sz.bytes]
  | .write _ sz v => [w64 sz.bytes, v]
  | .atomic _ op wide b c => [w64 (atomicNum op), if wide then 1 else 0, b, c]
  | .readResponse v | .atomicResult v => [v]
  | .fault code => [code.setWidth 64]
  | .completion | .abort => []

/-- The flits of a message of a session: the header of 16 bytes in the first, with the kind, the length in flits, the session and the VA; what
follows it, and the bits of the header that depend on the kind, the spec does not lay out (log 80). -/
def MsgBody.flits (m : MsgBody) (i : BitVec 5) : List (BitVec 1024) :=
  let n := (Config.msgLen m.kind m.fields).val + 1
  let header : BitVec 128 := m.va ++ Config.msgBits m.kind m.fields ++ i ++ BitVec.ofNat 8 n ++ BitVec.ofNat 8 m.kind
  (List.range n).map fun k =>
    let d := Config.msgData m.kind m.fields k
    if k = 0 then d.extractLsb' 128 896 ++ header else d

/-- The kind in a header. -/
def flitKind (f : BitVec 1024) : Nat := fld f 0 8
/-- The length in a header, in flits. -/
def flitLen (f : BitVec 1024) : Nat := Nat.max 1 (fld f 8 8)
/-- The session in a header. -/
def flitSession (f : BitVec 1024) : BitVec 5 := f.extractLsb' 16 5
/-- The remote VA in a header. -/
def flitVa (f : BitVec 1024) : W64 := f.extractLsb' 64 64

/-! ### Ports (R361, R362, R376) -/

/-- Changing a port. -/
def State.modPort (s : State) (p : Nat) (f : Port → Port) : State := { s with ports := vmod s.ports p f }

/-- A meaning on a port; nothing happens where there is none. -/
def State.onPort (s : State) (p : Nat) (k : Port → Res) : Res :=
  match s.ports[p]? with
  | none => .next s
  | some x => k x

/-- A port that has no partner, in a state; what it has sent stays, and the groups sent again since it last entered Up. -/
def Port.unpaired (p : Port) (st : PortState) (switch : Bool) : Port :=
  { Port.down with st := st, switch := switch, retries := p.retries, sent := p.sent, wire := p.wire }

/-- Whether a session uses its VC class on a port: it is open and may send, or has flits left of a message it has begun (R365). -/
def Session.usesClass (x : Session) (p : Nat) : Bool :=
  x.port == p && ((x.opened && x.send) || !x.part.isEmpty)

/-- The class of a context on a port (R365): the one it has there, or the lowest that no context has and whose credits have all returned (log
81); none where there is no such class. -/
def State.classOn (s : State) (tag : Byte) (p : Nat) : Option Byte :=
  let classes (c : Context) : List Byte := (c.sessions.toList.filter fun x => x.usesClass p && x.cls != 0).map (·.cls)
  match ((s.ctx? tag).map classes).getD [] with
  | k :: _ => some k
  | [] =>
    let used := s.ctxs.flatMap classes
    let free := ((List.range 253).map fun k => BitVec.ofNat 8 (k + 1)).filter fun k => !used.contains k
    let idle (k : Byte) : Bool := match s.ports[p]? with
      | some x => (lookupKey k x.credits).getD 0 == 0
      | none => true
    free.find? idle

/-- The port over which a session of a context with a peer goes, and its class there: the first that is Up and reaches the peer, and has a
class for the context where the session may send (R365). -/
def State.portFor (s : State) (tag : Byte) (d : Digest) (send : Bool) : Option (Nat × Byte) :=
  (List.range 24).findSome? fun p => match s.ports[p]? with
    | some q =>
      if !q.reaches d then none
      else if send then (s.classOn tag p).map fun k => (p, k)
      else some (p, 0)
    | none => none

/-- Whether a flit is of a session of a context. -/
def Flit.isOf (f : Flit) (tag : Byte) (i : BitVec 5) : Bool := f.owner == some (tag, i)

/-- The data flits that a port has in hand, sent or not, and no acknowledgement covers, each with its package: those of groups sent, of the group
in hand, and of Hazel's class to be sent. -/
def Port.pending (p : Port) : List (Digest × Flit) :=
  p.unacked.flatMap (fun g => g.flits.map fun f => (g.peer, f)) ++ p.group.map (fun f => (p.dest, f)) ++ p.control

/-- Whether a port that drains still has something of a session in hand: until it is acknowledged, or set aside, no later message of the session
goes out elsewhere (R361, R369). -/
def Port.busyWith (p : Port) (tag : Byte) (i : BitVec 5) (x : Session) : Bool :=
  p.st == .draining && (!x.part.isEmpty || p.pending.any fun f => f.2.isOf tag i)

/-- A session whose port has left Up goes on over another Up port that reaches the peer and has a class for its context, where there is one
(R361, R365). -/
def State.rehomeSession (s : State) (tag : Byte) (i : BitVec 5) : State :=
  match s.session? tag i with
  | none => s
  | some x =>
    let up := match s.ports[x.port]? with | some p => p.reaches x.peer || p.busyWith tag i x | none => false
    if !x.opened || up then s
    else match s.portFor tag x.peer x.send with
      | some (p, k) => s.modCtx tag fun c => c.modSession i fun x => { x with port := p, cls := k }
      | none => s

/-- The same for every session of every context. -/
def State.rehome (s : State) : State :=
  (s.ctxs.map (·.tag)).foldl (fun s tag => (List.range 32).foldl (fun s i => s.rehomeSession tag (BitVec.ofNat 5 i)) s) s

/-- An idle flit. -/
def Flit.idle : Flit := ⟨0xFF, none, 0⟩

/-- Of the messages of a session that a port has begun, the last first, those that hold the last n of their flits, in order. -/
def lastMsgs (i : BitVec 5) : List MsgBody → Nat → List MsgBody
  | [], _ => []
  | m :: l, n => if n = 0 then [] else lastMsgs i l (n - (m.flits i).length) ++ [m]

/-- The messages of a session of which a port holds flits that no acknowledgement covers, or that it has begun and not ended (R361). -/
def State.heldMsgs (s : State) (p : Nat) (x : Port) (tag : Byte) (i : BitVec 5) : List MsgBody :=
  let rest := match s.session? tag i with | some y => if y.port == p then y.part.length else 0 | none => 0
  let n := (x.pending.countP fun f => f.2.isOf tag i) + rest
  lastMsgs i ((x.sent.filter fun e => e.1 == tag && e.2.1 == i).map (·.2.2)).reverse n

/-- The messages of a session that a port which leaves Up had not delivered wait to be sent again before its later ones, each as a whole; an
ABORT waits among the ABORTs (R361, R378; log 81). -/
def State.sendLater (s : State) (p : Nat) (x : Port) (o : (Byte × BitVec 5) × Digest) : State :=
  let ms := s.heldMsgs p x o.1.1 o.1.2
  let s := if ms.contains .abort then { s with aborts := s.aborts ++ [(o.1.1, o.1.2, o.2, p)] } else s
  s.modCtx o.1.1 fun c => c.modSession o.1.2 fun y =>
    let y := if y.opened && y.peer == o.2 then { y with outq := ms.filter (fun m => m != .abort) ++ y.outq } else y
    if y.port == p then { y with part := [] } else y

/-- The sessions with their packages that have something in hand on a port. -/
def State.ownersOn (s : State) (p : Nat) (x : Port) : List ((Byte × BitVec 5) × Digest) :=
  let parts := s.ctxs.flatMap fun c => (c.sessions.toList.zipIdx).filterMap fun (y, i) =>
    if y.port == p && !y.part.isEmpty then some ((c.tag, BitVec.ofNat 5 i), y.peer) else none
  ((x.pending.filterMap fun f => f.2.owner.map fun o => (o, f.1)) ++ parts).eraseDups

/-- What a port that leaves Up hands on: the messages it had not delivered are sent again, on the Up port to which each session goes, so nothing
is lost (R361, R378). Of what it had received, whole messages stay to be taken, and a message that has not come whole is sent again. -/
def State.strand (s : State) (p : Nat) : State :=
  match s.ports[p]? with
  | none => s
  | some x =>
    let s := (s.ownersOn p x).foldl (fun s o => s.sendLater p x o) s
    let s := s.modPort p fun x =>
      { x with unacked := [], group := [], control := [], failed := 0, retrying := false, credits := [], returns := [], acks := [], inbox := [] }
    { s with
      arrivals := s.arrivals.map fun a => if a.port == some p then { a with port := none } else a
      classOf := s.classOf.filter fun e => e.1.1 != p }

/-- A port that leaves Up for a state with no traffic. -/
def State.leaveUp (s : State) (p : Nat) (st : PortState) : State := ((s.modPort p fun x => { x with st := st }).strand p).rehome

/-- PARTNER_DETECT: a Down port finds a partner on all 4 lanes, once the package has come up as far as that (R400). -/
def execPartnerDetect (port : Nat) (switch : Bool) (s : State) : Res :=
  s.onPort port fun p =>
    if p.st != .down || s.boot != .ready || s.locked || decide (s.engineCount ≤ port) then .next s
    else .next (s.modPort port fun p => p.unpaired .training switch)

/-- PORT_ATTEST: an attestation of a package that the port reaches succeeds, and the port is Attested; one that fails isolates it. A
port at a switch attests each package on its own. -/
def execPortAttest (port : Nat) (peer : Option Digest) (s : State) : Res :=
  s.onPort port fun p =>
    let first := p.st == .training
    let more := p.switch && (p.st == .attested || p.st == .up)
    if s.locked || !(first || more) then .next s
    else match peer with
      | some d => .next (s.modPort port fun p =>
          { p with st := if first then .attested else p.st, peers := if p.peers.contains d then p.peers else p.peers ++ [d] })
      | none => .next (s.leaveUp port .isolated)

/-- CREDIT_ADVERTISEMENT: the partner's advertisement brings an Attested port Up. -/
def execCreditAdvertisement (port : Nat) (s : State) : Res :=
  s.onPort port fun p =>
    if p.st != .attested then .next s
    else .next (s.modPort port fun p => { p with st := .up, retries := 0, failed := 0, retrying := false, credits := [] }).rehome

/-- PORT_DRAIN_REQUEST: Idpor takes an Up port out of service. -/
def execPortDrainRequest (port : Nat) (s : State) : Res :=
  s.onPort port fun p => if p.st != .up then .next s else .next (s.modPort port fun p => { p with st := .draining })

/-- PORT_DRAIN_END: a Draining port has completed the groups it had begun, and goes Down. -/
def execPortDrainEnd (port : Nat) (s : State) : Res :=
  s.onPort port fun p =>
    if p.st != .draining || !p.group.isEmpty || !p.unacked.isEmpty then .next s else .next (s.leaveUp port .down)

/-- PORT_REENABLE: Idpor re-enables an Isolated port. -/
def execPortReenable (port : Nat) (s : State) : Res :=
  s.onPort port fun p =>
    if p.st != .isolated || s.locked then .next s else .next (s.modPort port fun p => p.unpaired .down p.switch)

/-- SWITCH_INDEX_ASSIGN: the switch assigns a package an index (R376). -/
def execSwitchIndexAssign (port : Nat) (peer : Digest) (index : BitVec 16) (s : State) : Res :=
  s.onPort port fun p =>
    if !p.switch || p.st == .down || p.st == .isolated then .next s
    else .next (s.modPort port fun p => { p with indices := putKey peer index p.indices }).rehome

/-- The next sequence of the groups that a port sends to a package (R363). -/
def Port.seqTo (p : Port) (d : Digest) : W64 := (lookupKey d p.sendSeq).getD 0
/-- The next sequence of the groups that a port receives from a package. -/
def Port.seqFrom (p : Port) (d : Digest) : W64 := (lookupKey d p.recvSeq).getD 0
/-- The key updates of a pair of packages (R362). -/
def State.linkGen (s : State) (d : Digest) : Nat := (lookupKey d s.linkGens).getD 0

/-- LINK_KEY_UPDATE: the link keys shared with the port's peers are updated, for every port between the two packages (R362). -/
def execLinkKeyUpdate (port : Nat) (s : State) : Res :=
  s.onPort port fun p =>
    if p.peers.isEmpty || !(p.st == .attested || p.st == .up || p.st == .draining) then .next s
    else
      let keyed (q : Port) : List (Digest × W64) :=
        p.peers.foldl (fun l d => if q.peers.contains d then putKey d (q.seqTo d) l else l) q.keyed
      .next { s with
        linkGens := p.peers.foldl (fun l d => putKey d ((lookupKey d l).getD 0 + 1) l) s.linkGens
        ports := s.ports.map fun q => { q with keyed := keyed q } }

/-! ### Groups (R363, R364) -/

/-- One byte into a CRC-32 with the IEEE 802.3 polynomial, reflected. -/
def crcByte (c : Nat) (b : Byte) : Nat :=
  (List.range 8).foldl (fun c _ => if c % 2 = 1 then c / 2 ^^^ 0xEDB88320 else c / 2) (c ^^^ b.toNat)

/-- CRC-32 of bytes. -/
def crc32 (bs : List Byte) : Nat := 0xFFFFFFFF ^^^ bs.foldl crcByte 0xFFFFFFFF

/-- The bytes of the 64 data flits of a group. -/
def groupBytes (g : LinkGroup) : List Byte := g.data.flatMap fun f => vecBytes 128 f

/-- The CRC of a group: over its data flits and every bit of the control flit but the CRC. -/
def groupCrc (g : LinkGroup) : Nat := crc32 (groupBytes g ++ toBytes 88 (fld g.ctl 0 704) ++ toBytes 36 (fld g.ctl 736 288))

/-- Whether a group passes its CRC. -/
def groupCrcOk (g : LinkGroup) : Bool := groupCrc g == fld g.ctl 704 32

/-- The IV of a group: the direction identifier, then the sequence. -/
def groupIv (port : Nat) (d : Digest) (received : Bool) (seq : W64) : BitVec 96 := seq ++ Config.linkDirection port d received

/-- The authenticated bits of a control flit. -/
def groupAad (ctl : BitVec 1024) : List Byte := toBytes 36 (fld ctl 736 288) ++ toBytes 72 (fld ctl 0 576)

/-- The bytes of the data flits of a group of a peer package, decrypted; none where its tag fails. -/
def State.openGroup (s : State) (port : Nat) (d : Digest) (g : LinkGroup) : Option (List Byte) :=
  Config.gcmOpen (Config.linkKey d (s.linkGen d) true) (groupIv port d true (g.ctl.extractLsb' 512 64)) (groupAad g.ctl) (groupBytes g)
    (g.ctl.extractLsb' 576 128)

/-- The control flit of a group without its tag and its CRC: returns, destination, sequence and classes. -/
def Port.controlFlit (p : Port) (g : OutGroup) : BitVec 1024 :=
  let classes := ofElems 8 (g.flits.map fun f => f.cls.toNat)
  let goal := if p.switch then ((lookupKey g.peer p.indices).getD 0).toNat else 0
  BitVec.ofNat 1024 (classes + g.seq.toNat * 2 ^ 512 + goal * 2 ^ 752 + ofElems 32 (g.returns.map BitVec.toNat) * 2 ^ 768)

/-- A group as it goes on the wire: its data flits encrypted under the link key of the two packages, the tag, then the CRC. -/
def State.groupOut (s : State) (port : Nat) (p : Port) (g : OutGroup) : LinkGroup :=
  let c := p.controlFlit g
  let r := Config.gcmSeal (Config.linkKey g.peer (s.linkGen g.peer) false) (groupIv port g.peer false g.seq) (groupAad c)
    (g.flits.flatMap fun f => vecBytes 128 f.bits)
  let data := (List.range 64).map fun k => BitVec.ofNat 1024 (ofBytes ((r.1.drop (128 * k)).take 128))
  let c := c ||| BitVec.ofNat 1024 (r.2.toNat * 2 ^ 576)
  ⟨data, c ||| BitVec.ofNat 1024 (groupCrc ⟨data, c⟩ % 2 ^ 32 * 2 ^ 704)⟩

/-- The flits of a class that are sent and not returned. -/
def Port.inUse (p : Port) (k : Byte) : Nat := (lookupKey k p.credits).getD 0

/-- One entry of the returns of a control flit of a package: credits of a class, or an acknowledgement of groups, at which the retries of the
first one end. -/
def Port.returned (d : Digest) (p : Port) (e : BitVec 32) : Port :=
  let k : Byte := e.extractLsb' 24 8
  let n := fld e 0 24
  if k = 0xFF then
    let rest := p.unacked.filter fun q => q.peer != d || !decide ((n + 2 ^ 24 - fld q.seq 0 24) % 2 ^ 24 < 2 ^ 23)
    if rest.length < p.unacked.length then { p with unacked := rest, failed := 0, retrying := false } else p
  else if k = 0 ∨ k = 0xFE then p
  else { p with credits := putKey k (p.inUse k - n) p.credits }

/-- The credits of flits that leave the buffer of a port, to be returned; Hazel's flits take none (R367). -/
def State.freeFlits (s : State) (port : Option Nat) (d : Digest) (k : Byte) (n : Nat) : State :=
  { s with ports := match port with
    | none => s.ports
    | some p => if k = 0xFE then s.ports else vmod s.ports p fun x => { x with returns := x.returns ++ [(d, k, n)] } }

/-- Of the contexts that have a session open with a package, the one of which Hazel knows a message to be, or the only one (R365, R369; log
81). -/
def State.messageFor (s : State) (d : Digest) (i : BitVec 5) : Option Byte :=
  let l := s.ctxs.filterMap fun c => match c.sessions[i.toNat]? with
    | some x => if x.opened && x.peer == d then some c.tag else none
    | none => none
  l[Config.peerContext s.now s.arrivals.length % l.length]?

/-- A message of a session begins in a class: it is of the context of which those before it were; else that is found now. -/
def State.beginMessage (s : State) (port : Nat) (d : Digest) (k : Byte) (i : BitVec 5) : State :=
  if k = 0xFE || (lookupKey (port, d, k, i) s.classOf).isSome then s
  else match s.messageFor d i with
    | some t => { s with classOf := putKey (port, d, k, i) t s.classOf }
    | none => s

/-- What of a session's messages has come from a package over a port and not whole leaves the buffer, where its sender has aborted (R374). -/
def State.cutPartial (s : State) (port : Nat) (d : Digest) (i : BitVec 5) (tag : Option Byte) : State :=
  let cut (e : (Digest × Byte) × List (BitVec 1024)) : Bool :=
    e.1.1 == d && e.1.2 != 0xFE && flitSession (e.2.headD 0) == i && lookupKey (port, d, e.1.2, i) s.classOf == tag
  match s.ports[port]? with
  | none => s
  | some p => (p.inbox.filter cut).foldl (fun s e => s.freeFlits (some port) d e.1.2 e.2.length)
      (s.modPort port fun p => { p with inbox := p.inbox.filter fun e => !cut e })

/-- A message that has come whole waits to be taken; one of a session that no context has open with the package is discarded (R369, R374). -/
def State.fileMessage (s : State) (port : Nat) (d : Digest) (k : Byte) (l : List (BitVec 1024)) : State :=
  let i := flitSession (l.headD 0)
  let tag := if k = 0xFE then s.messageFor d i else lookupKey (port, d, k, i) s.classOf
  let s := if flitKind (l.headD 0) = 10 then s.cutPartial port d i tag else s
  match tag with
  | none => s.freeFlits (some port) d k l.length
  | some t => { s with arrivals := s.arrivals ++ [⟨t, i, d, some port, k, l⟩] }

/-- A data flit received: one of a class of a context, or of a message in Hazel's, stays in the buffer; idle flits, those of the reserved class,
and what the Hazels say to each other beside messages take no room. A port that is not Up takes Hazel's alone. -/
def State.takeFlit (s : State) (port : Nat) (d : Digest) (k : Byte) (f : BitVec 1024) : State :=
  match s.ports[port]? with
  | none => s
  | some p =>
    let l := (lookupKey (d, k) p.inbox).getD []
    let other := l.isEmpty && !(decide (1 ≤ flitKind f) && decide (flitKind f ≤ 10))
    if k = 0xFF ∨ k = 0 ∨ (k = 0xFE ∧ other = true) ∨ (k ≠ 0xFE ∧ p.st = .attested) then s
    else
      let s := if l.isEmpty then s.beginMessage port d k (flitSession f) else s
      let l := l ++ [f]
      if flitLen (l.headD 0) ≤ l.length then
        (s.modPort port fun p => { p with inbox := dropKey (d, k) p.inbox }).fileMessage port d k l
      else s.modPort port fun p => { p with inbox := putKey (d, k) l p.inbox }

/-- The next group of a package: acknowledged, its flits taken by the classes of its control flit, and its returns effective. -/
def State.acceptGroup (s : State) (port : Nat) (d : Digest) (ctl : BitVec 1024) (bs : List Byte) : State :=
  let s := s.modPort port fun p =>
    { p with recvSeq := putKey d (p.seqFrom d + 1) p.recvSeq, acks := if p.acks.contains d then p.acks else p.acks ++ [d] }
  let s := (List.range 64).foldl (fun s j =>
    s.takeFlit port d (ctl.extractLsb' (8 * j) 8) (BitVec.ofNat 1024 (ofBytes ((bs.drop (128 * j)).take 128)))) s
  s.modPort port fun p => (List.range 8).foldl (fun p i => Port.returned d p (ctl.extractLsb' (768 + 32 * i) 32)) p

/-- LINK_GROUP_RECEIVE: a group that fails its CRC is discarded; one that then fails its tag isolates the port; the next in sequence is
acknowledged and taken; one that was taken before is acknowledged once more, as its acknowledgement did not arrive. The destination and the
reserved bits, which R364 makes no condition of, are not examined (log 81). -/
def execLinkGroupReceive (port : Nat) (g : LinkGroup) (s : State) : Res :=
  s.onPort port fun p =>
    if !(p.st == .up || p.st == .draining || p.st == .attested) || g.data.length != 64 || !groupCrcOk g then .next s
    else match p.peers.findSome? fun d => (s.openGroup port d g).map fun bs => (d, bs) with
      | none => .next (s.leaveUp port .isolated)
      | some (d, bs) =>
        let n := g.ctl.extractLsb' 512 64
        if n == p.seqFrom d then .next (s.acceptGroup port d g.ctl bs)
        else if n.toNat < (p.seqFrom d).toNat then
          .next (s.modPort port fun p => { p with acks := if p.acks.contains d then p.acks else p.acks ++ [d] })
        else .next s

/-- The groups from the first that is not acknowledged on, of its package. -/
def Port.retry (p : Port) : List OutGroup :=
  match p.unacked with
  | [] => []
  | g :: l => g :: l.filter fun h => h.peer == g.peer

/-- The groups not acknowledged sent again. -/
def State.sendAgain (s : State) (port : Nat) : State :=
  s.modPort port fun p =>
    { p with retries := p.retries + p.retry.length, retrying := true, wire := p.wire ++ p.retry.map (s.groupOut port p) }

/-- LINK_RETRY_LIMIT: the first group that is not acknowledged is sent again, with every later one; where it was sent again before, that retry
has failed, and after 16 such failures in a row the port goes Down (R361, R364). An acknowledgement ends the retries (Port.returned). -/
def execLinkRetryLimit (port : Nat) (s : State) : Res :=
  s.onPort port fun p =>
    if !(p.st == .up || p.st == .draining) || p.unacked.isEmpty then .next s
    else if !p.retrying then .next (s.sendAgain port)
    else if p.failed + 1 < 16 then .next ((s.modPort port fun p => { p with failed := p.failed + 1 }).sendAgain port)
    else .next (s.leaveUp port .down)

/-! ### Sending (R367, R369, R375) -/

/-- Whether a message answers an access of the peer. -/
def MsgBody.answers : MsgBody → Bool
  | .readResponse _ | .atomicResult _ | .completion | .fault _ => true
  | _ => false

/-- Whether a message is an access at the peer. -/
def MsgBody.accesses : MsgBody → Bool
  | .read _ _ | .write _ _ _ | .atomic _ _ _ _ _ => true
  | _ => false

/-- Whether a message of a context may be sent (R264, R375): of one that stops, answers and the accesses it has issued, which are performed
before it has stopped; of one that has stopped, or is not Running, answers alone. -/
def Context.sends (c : Context) (m : MsgBody) : Bool := c.active || m.answers || (c.st == .running && m.accesses)

/-- The next message of an open session that may be sent, and those that stay. -/
def Session.nextMsg (x : Session) (c : Context) : Option (MsgBody × List MsgBody) :=
  (x.outq.find? c.sends).map fun m => (m, x.outq.erase m)

/-- A message that a port could go on with, or begin: its context, its session, the package, the class (that of Hazel where the session may
not send, log 81), its flits that are left, and, where it is to begin, itself with the messages after it. -/
structure Sendable where
  tag : Byte
  i : BitVec 5
  peer : Digest
  cls : Byte
  flits : List (BitVec 1024)
  begins : Option (MsgBody × List MsgBody)
deriving DecidableEq, Repr

/-- What a session could send on a port: nothing before an ABORT of its context that waits for the package (R374). -/
def State.sendable (s : State) (port : Nat) (c : Context) (i : BitVec 5) (x : Session) : Option Sendable :=
  if x.port != port then none
  else match x.part with
    | _ :: _ => some ⟨c.tag, i, x.peer, x.cls, x.part, none⟩
    | [] =>
      if !x.opened || s.aborts.any (fun a => a.1 == c.tag && a.2.2.1 == x.peer) then none
      else (x.nextMsg c).map fun m => ⟨c.tag, i, x.peer, if x.send then x.cls else 0xFE, m.1.flits i, some m⟩

/-- What the sessions could send on a port: of a class that has begun a message, that message alone. -/
def State.sendables (s : State) (port : Nat) : List Sendable :=
  let l := s.ctxs.flatMap fun c => (c.sessions.toList.zipIdx).filterMap fun (x, i) => s.sendable port c (BitVec.ofNat 5 i) x
  l.filter fun m => m.begins.isNone || !l.any fun n => n.cls == m.cls && n.begins.isNone

/-- Whether a class has a credit for one flit: of its 16 reserved ones, or of the shared pool of 768, of which it takes a quarter at most (R367);
what other classes hold never keeps it from its own (R368). -/
def Port.hasCredit (p : Port) (k : Byte) : Bool :=
  let others := ((p.credits.filter fun c => c.1 != k).map fun c => c.2 - 16).sum
  decide (p.inUse k < 16) || (decide (p.inUse k < 208) && decide (others + (p.inUse k - 16) < 768))

/-- The session of a context whose message the port began last. -/
def Port.lastSession (p : Port) (tag : Byte) : Nat := match p.sent.reverse.find? fun e => e.1 == tag with
  | some e => e.2.1.toNat
  | none => 31

/-- What goes next of what classes hold: that of the next class in turn that has a credit, of its sessions the next in turn. -/
def Port.choose (p : Port) (l : List Sendable) : Option Sendable :=
  let turn (m : Sendable) : Nat :=
    (m.cls.toNat + 255 - p.lastClass.toNat) % 256 * 32 + (m.i.toNat + 31 - p.lastSession m.tag) % 32
  (l.filter fun m => p.hasCredit m.cls).foldl (fun b m => match b with
    | none => some m
    | some a => if turn m < turn a then some m else some a) none

/-- Whether the next flit of a port may be one for a package: that of the group in hand; else a group for it may begin before its key must be
updated (R362). -/
def Port.takesFor (p : Port) (d : Digest) : Bool :=
  if p.group.isEmpty then decide ((p.seqTo d).toNat < ((lookupKey d p.keyed).getD 0).toNat + 2 ^ 32) else p.dest == d

/-- The returns of the next group for a package, and those that stay: an acknowledgement of the highest group taken, and credits, eight in all. -/
def Port.nextReturns (p : Port) (d : Digest) : List (BitVec 32) × List (Digest × Byte × Nat) :=
  let ack : List (BitVec 32) := if p.acks.contains d then [(0xFF : Byte) ++ (p.seqFrom d - 1).extractLsb' 0 24] else []
  let mine := p.returns.filter fun r => r.1 == d
  (ack ++ (mine.take (8 - ack.length)).map fun r => r.2.1 ++ BitVec.ofNat 24 r.2.2,
    (p.returns.filter fun r => r.1 != d) ++ mine.drop (8 - ack.length))

/-- The group in hand has its 64 data flits: its control flit is formed, and it goes on the wire. -/
def State.endGroup (s : State) (port : Nat) : State :=
  s.modPort port fun p =>
    let r := p.nextReturns p.dest
    let g : OutGroup := ⟨p.dest, p.seqTo p.dest, r.1, p.group⟩
    { p with
      group := []
      sendSeq := putKey p.dest (p.seqTo p.dest + 1) p.sendSeq
      unacked := p.unacked ++ [g]
      returns := r.2
      acks := p.acks.filter fun d => d != p.dest
      wire := p.wire ++ [s.groupOut port p g] }

/-- The credit of a class that a flit takes; idle flits and Hazel's take none. -/
def Port.charge (p : Port) (k : Byte) : Port :=
  if k = 0xFE ∨ k = 0xFF then p else { p with credits := putKey k (p.inUse k + 1) p.credits }

/-- A flit put into the group in hand, and counted for its context (R271). -/
def State.putFlit (s : State) (port : Nat) (d : Digest) (f : Flit) : State :=
  let s := match f.owner with
    | some o => s.count o.1 0x14 128
    | none => s
  let s := s.modPort port fun p => ({ p with dest := d, group := p.group ++ [f] }).charge f.cls
  match s.ports[port]? with
  | some p => if 64 ≤ p.group.length then s.endGroup port else s
  | none => s

/-- The first flit of a message of Hazel's class put into the group in hand; the others follow it. -/
def State.putControl (s : State) (port : Nat) (d : Digest) (owner : BitVec 8 × BitVec 5) (m : MsgBody) : State :=
  let fs : List Flit := (m.flits owner.2).map fun b => ⟨0xFE, some owner, b⟩
  let s := s.modPort port fun p => { p with control := p.control ++ fs.tail.map fun f => (d, f), sent := p.sent ++ [(owner.1, owner.2, m)] }
  s.putFlit port d (fs.headD Flit.idle)

/-- The next flit of a message put into the group in hand, the message begun where it was not. -/
def State.putSendable (s : State) (port : Nat) (m : Sendable) : State :=
  match m.begins with
  | some (b, rest) =>
    let s := s.modCtx m.tag fun c => c.modSession m.i fun x => { x with outq := rest, part := if m.cls = 0xFE then [] else m.flits.tail }
    if m.cls = 0xFE then s.putControl port m.peer (m.tag, m.i) b
    else (s.modPort port fun p => { p with sent := p.sent ++ [(m.tag, m.i, b)], lastClass := m.cls }).putFlit port m.peer
      ⟨m.cls, some (m.tag, m.i), m.flits.headD 0⟩
  | none =>
    let s := s.modCtx m.tag fun c => c.modSession m.i fun x => { x with part := m.flits.tail }
    (s.modPort port fun p => { p with lastClass := m.cls }).putFlit port m.peer ⟨m.cls, some (m.tag, m.i), m.flits.headD 0⟩

/-- The package for which an idle flit is sent: that of the group in hand, one that awaits returns, or the first. -/
def Port.idleFor (p : Port) : Option Digest :=
  if !p.group.isEmpty then some p.dest
  else ((p.acks ++ p.returns.map (·.1) ++ p.peers).find? fun d => p.takesFor d)

/-- The ABORT that a port sends next (R374): on the port of its session, or, where that does not reach the peer, on any that does. -/
def State.nextAbort (s : State) (port : Nat) (p : Port) : Option (Byte × BitVec 5 × Digest × Nat) :=
  s.aborts.find? fun a => p.reaches a.2.2.1 && p.takesFor a.2.2.1
    && (a.2.2.2 == port || !(match s.ports[a.2.2.2]? with | some q => q.reaches a.2.2.1 | none => false))

/-- LINK_FLIT_SEND: a port sends one flit: Hazel's first, an ABORT that waits among them; then that of the next class in turn that holds a flit
and a credit; else an idle flit. A Draining port only ends the group it has begun. -/
def execLinkFlitSend (port : Nat) (s : State) : Res :=
  s.onPort port fun p =>
    if !(p.st == .up || (p.st == .draining && !p.group.isEmpty)) then .next s
    else match p.control.find? fun e => p.takesFor e.1 with
      | some e => .next ((s.modPort port fun p => { p with control := p.control.erase e }).putFlit port e.1 e.2)
      | none => match s.nextAbort port p with
        | some a => .next ({ s with aborts := s.aborts.erase a }.putControl port a.2.2.1 (a.1, a.2.1) .abort)
        | none =>
          let l := (s.sendables port).filter fun m => p.takesFor m.peer
          match l.find? fun m => m.cls = 0xFE with
          | some m => .next (s.putSendable port m)
          | none => match p.choose (l.filter fun m => m.cls ≠ 0xFE) with
            | some m => .next (s.putSendable port m)
            | none => match p.idleFor with
              | some d => .next (s.putFlit port d Flit.idle)
              | none => .next s

end Sys2Proof.Machine
end

