-- ==== Sys2Proof/Machine/Link.lean ====
section
/-! DEFINITION. Link sessions: aborts, opening, the messages that arrive on a session, and remote accesses at the peer that performs them
(R365, R369-R375). -/

namespace Sys2Proof.Machine

/-! ### Aborts (R374) -/

/-- Whether an access to a VA leads to a session (R370). -/
def State.leadsTo (s : State) (i : Nat) (tag : Byte) (k : BitVec 5) (va : W64) : Bool :=
  [AccKind.read, AccKind.write].any fun a => match s.checkTag i tag (.plain a 1) va with
    | .loc (.remote j _) => j == k
    | _ => false

/-- Whether a stream that runs uses a session: its next unit, its base, its index array or its node lies there (R374, log 62). -/
def State.streamUses (s : State) (i : Nat) (x : Inst) (ti : Nat) (t : Tile) (k : BitVec 5) (st : BitVec 4) : Bool :=
  let y := t.streamAt st
  let next : List W64 := match { s with focus := ⟨i, ti, 0⟩ }.unitAddr x st y with
    | .at va => [va]
    | _ => []
  let vas := next ++ [sdBase y.desc] ++ (if sdKind y.desc = 1 ∨ sdKind y.desc = 3 then [sdAux y.desc] else [])
    ++ if sdKind y.desc = 2 then [y.walk.node] else []
  y.st == .running && vas.any fun va => s.leadsTo i x.tag k va

/-- The streams of every tile of a context that use a session, by instance, tile and stream. -/
def State.streamsUsing (s : State) (tag : Byte) (k : BitVec 5) : List (Nat × Nat × Nat) :=
  (s.insts.zipIdx).flatMap fun (x, i) =>
    if x.tag == tag && x.st != .retired then
      (x.tiles.zipIdx).flatMap fun (t, ti) =>
        ((List.range 16).filter fun st => s.streamUses i x ti t k (BitVec.ofNat 4 st)).map fun st => (i, ti, st)
    else []

/-- The copy packets in progress that use a session, with their engines: a row of theirs lies there, or an access of theirs is outstanding. -/
def State.copiesUsing (s : State) (tag : Byte) (k : BitVec 5) (asks : List Ask) : List (Nat × CpActive) :=
  (List.range 24).flatMap fun e =>
    let active : List CpActive := match s.copy[e]? with | some x => x.active | none => []
    (active.filter fun a => s.cpTag a.p == tag
      && ((asks.any fun q => q.inst == a.p.inst && q.tile == a.p.tile && (q.who == whoCopy e a.p.level || q.who == whoCopy e a.p.level + 4))
        || (cpAddrs (s.inst? a.p.inst) a.p.pkt).any fun r => s.leadsTo a.p.inst tag k r.1 || s.leadsTo a.p.inst tag k r.2)).map fun a => (e, a)

/-- A stream that uses the session stops. -/
def State.loseStream (s : State) (i ti : Nat) (k : BitVec 5) (st : BitVec 4) : State :=
  (s.modTile i ti fun t => t.modStream st fun x => { x with st := .faulted, stopping := false, walk := { x.walk with beat := [] } }).pendFault i ti (some st)
    (lostFault k 2)

/-- A fill whose read of a peer was outstanding fails. -/
def State.loseFill (s : State) (i ti : Nat) (k : BitVec 5) (slot : BitVec 4) : State :=
  match (s.tile? i ti).bind fun t => t.mxe.fillReady slot with
  | some (ord, _) => (s.modTile i ti fun t => t.fillEnd slot ord true).pendFault i ti none (lostFault k 2)
  | none => s

/-- The load or the atomic of a block that was outstanding, or the check of an atomic, faults before the block commits. -/
def State.loseBlock (s : State) (i ti : Nat) (k : BitVec 5) : State :=
  match (s.tile? i ti).bind fun t => t.seq.block with
  | some b =>
    if b.perform.isSome then s else s.takeFault i ti ⟨cPeerLost, .x, 1, w64 k.toNat, b.header, none⟩
  | none => s

/-- What a tile loses with a session, given the codes of its askers that waited and its streams that use it. -/
def State.loseTile (s : State) (i ti : Nat) (k : BitVec 5) (who streams : List Nat) : State :=
  let s := if who.any fun w => decide (w < 128) || decide (1024 ≤ w) then s.loseBlock i ti k else s
  let s := (List.range 16).foldl (fun s st =>
    if who.contains (128 + st) || streams.contains st then s.loseStream i ti k (BitVec.ofNat 4 st) else s) s
  let s := (List.range 16).foldl (fun s m =>
    if who.contains (144 + m) then s.loseFill i ti k (BitVec.ofNat 4 m) else s) s
  let s := s.loseStores i ti k
  (List.range 128).foldl (fun s j => s.loseVc i ti k j) s

/-- Copy packets that used the session stop. -/
def State.loseCopies (s : State) (k : BitVec 5) (l : List (Nat × CpActive)) : State :=
  l.foldl (fun s a => (s.endCopy a.1 a.2).copyFault a.2.p (lostFault k 0)) s

/-- What the ports still have in hand of a session that this side aborts is not sent: idle flits stand in the place of its data flits. A credit
that a flit of the group in hand took is free again; those of groups already sent return as the peer takes them (log 81). -/
def Port.eraseSession (p : Port) (tag : Byte) (k : BitVec 5) : Port :=
  let gone (f : Flit) : Bool := f.isOf tag k && f.cls != 0xFE
  let wipe (f : Flit) : Flit := if gone f then Flit.idle else f
  let p := (p.group.filter gone).foldl (fun (p : Port) f => { p with credits := putKey f.cls (p.inUse f.cls - 1) p.credits }) p
  { p with group := p.group.map wipe, unacked := p.unacked.map fun g => { g with flits := g.flits.map wipe } }

/-- The messages of an aborted session that have come and are not taken are discarded, and their credits return. -/
def State.dropArrivals (s : State) (tag : Byte) (k : BitVec 5) : State :=
  let gone (a : Arrival) : Bool := a.tag == tag && a.session == k
  (s.arrivals.filter gone).foldl (fun s a => s.freeFlits a.port a.peer a.cls a.flits.length)
    { s with arrivals := s.arrivals.filter fun a => !gone a, classOf := s.classOf.filter fun e => !(e.2 == tag && e.1.2.2.2 == k) }

/-- Whether an access is of a tile's block that performs, so that its commit goes on with what it has, or with PEER_LOST in the place of an answer:
an atomic, or the read of a descriptor. -/
def State.performs (s : State) (q : Ask) : Bool :=
  match (s.tile? q.inst q.tile).bind fun t => t.seq.block with
  | some b => b.perform.isSome && (decide (q.who < 128) || (decide (160 ≤ q.who) && decide (q.who < 192)))
  | none => false

/-- A session aborted (R374): messages in flight are discarded; where this side aborts, ABORT is sent when a port that reaches the peer allows
it, and nothing else of the session; where the peer has, a message that is begun goes out whole, and the peer discards it (log 81). What was
outstanding on the session, and the streams, VCs and copies that use it, take PEER_LOST. -/
def State.abortSession (s : State) (tag : Byte) (k : BitVec 5) (send : Bool) : State :=
  match s.session? tag k with
  | none => s
  | some x =>
    if !x.opened then s
    else
      let kept := x.got.filter (fun g => s.performs g.1)
        ++ ((x.asked.filterMap id).filter s.performs).map fun q => (q, Answer.failed cPeerLost)
      let asks := (x.asked.filterMap id).filter (fun q => !s.performs q) ++ (x.got.filter fun g => !s.performs g.1).map (·.1) ++ x.stores
      let streams := s.streamsUsing tag k
      let copies := s.copiesUsing tag k asks
      let s := (s.modCtx tag fun c => c.modSession k fun x =>
        { x with opened := false, outq := [], part := if send then [] else x.part, asked := [], got := kept, stores := [], demand := [],
                 told := [] }).dropArrivals tag k
      let s := if send then { s with ports := s.ports.map fun p => p.eraseSession tag k, aborts := s.aborts ++ [(tag, k, x.peer, x.port)] } else s
      let s := (s.insts.zipIdx).foldl (fun s (y, i) =>
        if y.tag == tag && y.st != .retired then
          (List.range y.tiles.length).foldl (fun s ti =>
            s.loseTile i ti k ((asks.filter fun q => q.inst == i && q.tile == ti).map (·.who))
              ((streams.filter fun u => u.1 == i && u.2.1 == ti).map (·.2.2))) s
        else s) s
      s.loseCopies k copies

/-- SESSION_ABORT: this side aborts an open session, because the peer's context is gone or its package locked. -/
def execSessionAbort (tag : BitVec 8) (i : BitVec 5) (s : State) : Res := .next (s.abortSession tag i true)

/-- SESSION_PORT_TIMEOUT: no Up port has reached the peer for 100 ms. -/
def execSessionPortTimeout (tag : BitVec 8) (i : BitVec 5) (s : State) : Res :=
  match s.session? tag i with
  | none => .next s
  | some x => if s.ports.toList.any fun p => p.reaches x.peer then .next s else .next (s.abortSession tag i true)

/-! ### Opening (R365) -/

/-- Whether a context of this package qualifies for a session with a context of a peer (R365). -/
def Context.qualifies (c : Context) (i : BitVec 5) (peer : PeerOffer) : Bool :=
  let entry := (c.policy.bind fun p => p.peers[i.toNat]?).bind id
  let free := match c.sessions[i.toNat]? with
    | some x => !x.opened
    | none => false
  (c.st == .sealed || c.st == .running || c.st == .paused) && free
    && (match entry with
      | some (d, send, recv) => d == peer.package && ((send && peer.receive) || (recv && peer.send))
      | none => false)

/-- SESSION_OPEN: session i of a context opens with a context of the peer that qualifies; of several here, with the one Sealed longest. A
direction that may not send gets no class, and needs none (R365). What is in hand of an earlier session i, its ABORT too, goes out and is
acknowledged first. -/
def execSessionOpen (tag : BitVec 8) (i : BitVec 5) (peer : PeerOffer) (s : State) : Res :=
  match s.ctx? tag, s.session? tag i with
  | some c, some x =>
    let entry := (c.policy.bind fun p => p.peers[i.toNat]?).bind id
    match entry, s.ports[peer.port]? with
    | some (d, send, recv), some p =>
      let sends := send && peer.receive
      let cls : Option Byte := if sends then s.classOn tag peer.port else some 0
      match cls with
      | none => .next s
      | some k =>
        if s.locked || !c.qualifies i peer || !peer.namesUs || !peer.active || peer.busy || !p.reaches d || !x.part.isEmpty
            || s.aborts.any (fun a => a.1 == tag && a.2.1 == i) || s.ports.toList.any (fun q => q.pending.any fun f => f.2.isOf tag i) || s.ctxs.any (fun b => b.qualifies i peer && decide (b.sealedAt < c.sealedAt)) then .next s
        else
          .next (s.modCtx tag fun c => c.modSession i fun _ =>
            { opened := true, send := sends, receive := recv && peer.send, peer := d, port := peer.port, cls := k, outq := [], part := [],
              asked := [], got := [], stores := [], demand := [], told := [] })
    | _, _ => .next s
  | _, _ => .next s

/-! ### Messages that arrive (R369-R373) -/

/-- The first message of a session of a context that has come and is not taken, where it is of this kind, with this VA: the messages of a session
are taken in the order in which they were sent, whichever ports carried them (R369). -/
def State.arrived (s : State) (tag : Byte) (i : BitVec 5) (kind : Nat) (va : W64) : Option Arrival :=
  (s.arrivals.find? fun a => a.tag == tag && a.session == i).filter fun a =>
    flitKind (a.flits.headD 0) == kind && flitVa (a.flits.headD 0) == va

/-- A message is taken: it leaves the buffer, and its credits are to be returned (R367). -/
def State.msgLeaves (s : State) (a : Arrival) : State :=
  { s with arrivals := s.arrivals.erase a }.freeFlits a.port a.peer a.cls a.flits.length

/-- A meaning on a message of a kind, with its VA, that has arrived on a session: its flits leave the buffer and its bytes count when it is
taken (R271); until then it waits there, and the later ones of its session behind it. One of a session that is not open is discarded (R374). What a header does not say, the argument of the event
says (log 80). -/
def State.onSession (s : State) (tag : Byte) (i : BitVec 5) (kind : Nat) (va : W64) (k : Context → Session → State → Option State) : Res :=
  match s.ctx? tag, s.session? tag i, s.arrived tag i kind va with
  | some c, some x, some a =>
    if !x.opened then .next (s.msgLeaves a)
    else .next (((k c x (s.msgLeaves a)).map fun s' => s'.count tag 0x15 (128 * a.flits.length)).getD s)
  | _, _, _ => .next s

/-- LINK_STREAM_UNITS: units enter the inbound entry of port 3 that they name (R373). -/
def execLinkStreamUnits (tag : BitVec 8) (i : BitVec 5) (vc : BitVec 5) (tile : BitVec 16) (fmt : BitVec 4) (units : List LinkUnit)
    (s : State) : Res :=
  s.onSession tag i 1 0 fun c x s =>
    if !c.active then none
    else if !x.receive || vc.toNat < 16 then some s
    else match s.unitTarget tag tile.toNat vc with
      | none => none
      | some j =>
        let key := (tile, vc)
        units.foldl (fun (s : Option State) u => s.bind fun s => s.unitToTile j tile.toNat 3 vc fmt u)
          (some (s.modCtx tag fun c => c.modSession i fun x => { x with told := putKey key ((lookupKey key x.told).getD 0 - units.length) x.told }))

/-- LINK_DEMAND_GRANT: the peer's demand for a tile and a VC. -/
def execLinkDemandGrant (tag : BitVec 8) (i : BitVec 5) (vc : BitVec 5) (tile : BitVec 16) (n : Nat) (s : State) : Res :=
  s.onSession tag i 2 0 fun _ x s =>
    if !x.send then some s
    else some (s.modCtx tag fun c => c.modSession i fun x =>
      { x with demand := putKey (tile, vc) ((lookupKey (tile, vc) x.demand).getD 0 + n) x.demand })

/-- The code in an Ask of an access of a peer that this context's own tables lead on to another peer. -/
def whoChain : Nat := 232

/-- A fault reply to a peer's access, counted (R372). -/
def State.replyFault (s : State) (tag : Byte) (i : BitVec 5) (code : Byte) : State := (s.count tag 0x16 1).sendMsg tag i (.fault code)

/-- A peer's access checked as an access of the context to a VA of its paged region (R370): it goes on at the location, waits, or is
answered with a fault. -/
def State.peerAccess (s : State) (tag : Byte) (i : BitVec 5) (k : AccKind) (n : Nat) (va : W64) (go : Loc → Option State) : Option State :=
  if fld va 44 20 != 0 then some s
  else match s.checkTag noInst tag (.plain k n) va with
    | .minor => none
    | .fault code _ => some (s.replyFault tag i code)
    | .loc l =>
      if s.reservedElsewhere noInst 0 l n then none
      else if k != .write && s.badLoc noInst l n then some (s.replyFault tag i cUncorrectable)
      else go l

/-- LINK_ABORT: the peer's ABORT arrives, and the session ends. -/
def execLinkAbort (tag : BitVec 8) (i : BitVec 5) (s : State) : Res :=
  s.onSession tag i 10 0 fun _ _ s => some (s.abortSession tag i false)

/-- LINK_READ_REQUEST: a peer's read performed here and answered. -/
def execLinkReadRequest (tag : BitVec 8) (i : BitVec 5) (va : W64) (sz : Size) (s : State) : Res :=
  s.onSession tag i 3 va fun _ x s =>
    if !x.receive || !x.send then some s
    else s.peerAccess tag i .read sz.bytes va fun l =>
      match s.readPieces noInst i.toNat whoChain tag [(l, sz)] with
      | (.wait, s') => if l.isRemote then some s' else none
      | (.failed code _, s) => some ((s.tookAll noInst i.toNat whoChain tag).replyFault tag i code)
      | (.bytes bs, s) => some ((s.tookAll noInst i.toNat whoChain tag).sendMsg tag i (.readResponse (wordOf bs)))

/-- The answer of a further peer to what was passed on to it, or the passing on. -/
def State.chain (s : State) (tag : Byte) (i k : BitVec 5) (v : W64) (m : MsgBody) (done : W64 → MsgBody) : Option State :=
  let q : Ask := ⟨noInst, i.toNat, whoChain, v⟩
  match s.askPeer tag k q m with
  | (none, s) => some s
  | (some (.failed code), s) => some ((s.tookPeer tag k q).replyFault tag i code)
  | (some (.data d), s) => some ((s.tookPeer tag k q).sendMsg tag i (done d))

/-- A store passed on to a further peer: its completion comes back as the answer of its Ask. -/
def State.chainStore (s : State) (tag : Byte) (i k : BitVec 5) (v : W64) (sz : Size) (data : W64) : Option State :=
  let q : Ask := ⟨noInst, i.toNat, whoChain, v⟩
  match s.session? tag k with
  | none => none
  | some y => match lookupKey q y.got with
    | some (.failed code) => some ((s.tookPeer tag k q).replyFault tag i code)
    | some (.data _) => some ((s.tookPeer tag k q).sendMsg tag i .completion)
    | none => if y.stores.contains q then none else some (s.storePeer tag k q sz data)

/-- LINK_WRITE: a peer's write performed here and completed. -/
def execLinkWrite (tag : BitVec 8) (i : BitVec 5) (va : W64) (sz : Size) (data : W64) (s : State) : Res :=
  s.onSession tag i 5 va fun _ x s =>
    if !x.receive then some s
    else s.peerAccess tag i .write sz.bytes va fun l => match l with
      | .remote k v => s.chainStore tag i k v sz data
      | _ => some (((s.writeLoc noInst l (bytesOf sz.bytes data)).hbmBytes tag true l sz.bytes).sendMsg tag i .completion)

/-- LINK_ATOMIC: a peer's atomic performed at its home here and answered; host memory takes those of R151. -/
def execLinkAtomic (tag : BitVec 8) (i : BitVec 5) (va : W64) (op : AtomicOp) (wide : Bool) (b : W64) (c : W64) (s : State) : Res :=
  let n := if wide then 8 else 4
  s.onSession tag i 6 va fun _ x s =>
    if !x.receive || !x.send then some s
    else s.peerAccess tag i .atomic n va fun l => match l with
      | .remote k v => s.chain tag i k v (.atomic v op wide b c) .atomicResult
      | .host _ =>
        if op == .add || op == .swp || op == .cas then
          let r := s.atomicAt noInst op l n b c
          some (r.2.sendMsg tag i (.atomicResult r.1))
        else some (s.replyFault tag i cPermission)
      | _ =>
        let r := s.atomicAt noInst op l n b c
        some (((r.2.hbmBytes tag false l n).hbmBytes tag true l n).sendMsg tag i (.atomicResult r.1))

/-- The answer to the oldest read or atomic outstanding on a session reaches its asker, or nobody where that was discarded; that to a walker's
read is an entry of its table (R353). -/
def State.answered (s : State) (tag : Byte) (i : BitVec 5) (x : Session) (a : Answer) : Option State :=
  match x.asked with
  | [] => some s
  | none :: rest => some (s.modCtx tag fun c => c.modSession i fun x => { x with asked := rest })
  | some q :: rest =>
    if q.isWalk then some ((s.modCtx tag fun c => c.modSession i fun x => { x with asked := rest }).walkAnswer tag q a)
    else some (s.modCtx tag fun c => c.modSession i fun x => { x with asked := rest, got := x.got ++ [(q, a)] })

/-- LINK_READ_RESPONSE. -/
def execLinkReadResponse (tag : BitVec 8) (i : BitVec 5) (data : W64) (s : State) : Res :=
  s.onSession tag i 4 0 fun _ x s => s.answered tag i x (.data data)

/-- LINK_ATOMIC_RESULT. -/
def execLinkAtomicResult (tag : BitVec 8) (i : BitVec 5) (data : W64) (s : State) : Res :=
  s.onSession tag i 7 0 fun _ x s => s.answered tag i x (.data data)

/-- The oldest store outstanding on a session has ended: a tile's leaves its committed stores, with its VA; a further peer's is an answer. -/
def State.storeEnded (s : State) (tag : Byte) (i : BitVec 5) (q : Ask) (rest : List Ask) (a : Answer) : State × Option W64 :=
  let s := s.modCtx tag fun c => c.modSession i fun x =>
    { x with stores := rest, got := if q.who == whoChain then x.got ++ [(q, a)] else x.got }
  if q.who == whoStore then
    match (s.tile? q.inst q.tile).map (·.sbuf) with
    | some (p :: l) => (s.setSbuf q.inst q.tile l, some p.va)
    | _ => (s, none)
  else (s, none)

/-- LINK_WRITE_COMPLETION: the oldest store outstanding is complete. -/
def execLinkWriteCompletion (tag : BitVec 8) (i : BitVec 5) (s : State) : Res :=
  s.onSession tag i 8 0 fun _ x s => match x.stores with
    | [] => some s
    | q :: rest => some (s.storeEnded tag i q rest (.data 0)).1

/-- LINK_FAULT_REPLY: the peer refuses the oldest read or atomic, or the oldest store; a store is not performed, and its tile takes the
code with engine 0 and the record of R355 with stage 2, the IPA and walk 0 (R372). -/
def execLinkFaultReply (tag : BitVec 8) (i : BitVec 5) (write : Bool) (code : BitVec 8) (s : State) : Res :=
  s.onSession tag i 9 0 fun _ x s =>
    if !write then s.answered tag i x (.failed code)
    else match x.stores with
      | [] => some s
      | q :: rest =>
        let r := s.storeEnded tag i q rest (.failed code)
        -- the VA of a store that no tile's sequencer made is not kept (log 20)
        let va := r.2.getD (Config.openInfo s.now)
        some (r.1.pendFault q.inst q.tile none (accPFault 0 code (some (replyPage i q.va)) true va))

end Sys2Proof.Machine
end

