-- ==== Sys2Proof/Machine/Preempt.lean ====
section
/-! DEFINITION. Pre-emption, the saving and restoring of tiles and plot sets, their placing, the time slice, a budget that runs out, and the
passing of time (R20, R41, R57, R122, R155, R158, R258, R264, R266, R267, R289, R313, R392). -/

namespace Sys2Proof.Machine

/-! ### Stopping a tile (R41, R264) -/

/-- Whether a context is stopping its tiles (R253, R264, R268). -/
def Context.stopping (c : Context) : Bool :=
  match c.op with
  | some (.pause _) => true
  | some (.evict _) => true
  | _ => false

/-- TILE_PREEMPT: the tile in focus stops at a moment of R41: because its context stops, because its slice has elapsed and another
context waits for tiles, or because it is mapped out. -/
def execTilePreempt (s : State) : Res :=
  s.onTile fun x t => match s.ctx? x.tag with
    | none => .next s
    | some c =>
      if c.stopping then .next ((s.stopTile s.focus.inst s.focus.tile).getD s)
      else if (s.physAt t.phys).mappedOut || (c.sliceOver t.served && (s.tileWaiter c.tag).isSome) then
        .next (s.tryPreempt s.focus.inst s.focus.tile)
      else .next s

/-! ### Claims (R266, R267) -/

/-- The tile of an instance that holds state on a physical tile, by instance and logical id. -/
def State.onPhys (s : State) (p : Nat) : Option (Nat × Nat) :=
  s.insts.zipIdx.findSome? fun (x, i) =>
    if x.st == .retired then none
    else (x.tiles.findIdx? fun t => t.phys == p && t.place != .saved).map fun k => (i, k)

/-- The steps at which the resident tiles of contexts other than one stopped. -/
def State.residentSince (s : State) (tag : Byte) : List Nat :=
  s.insts.flatMap fun x =>
    if x.tag == tag || x.st == .retired then []
    else (x.tiles.filter fun t => t.place == .resident && t.phys != noPhys).map (·.since)

/-- A physical tile under an owner tag, with its banks, and no preload on it. -/
def State.tagPhys (s : State) (p : Nat) (tag : Byte) : State :=
  s.modPhys p fun y => { y with tag := tag, banks := Vector.replicate 16 tag, preload := none }

/-- Whether a location lies in the slice of a logical tile. -/
def inSlice (ti : Nat) : Loc → Bool
  | .slice t _ => t == ti
  | _ => false

/-- Whether something that a stopped tile released, or that works on its slice, still goes on (R264, R392, R404): a copy packet in progress, a
HALO that has begun, the row of an index that its gather engines issued, an access at a peer. -/
def State.workOn (s : State) (i ti : Nat) (x : Inst) (t : Tile) : Bool :=
  let touches (p : W64 × W64) : Bool := [p.1, p.2].any fun va => va.getLsbD 54 && fld va 21 33 == ti
  (s.copy.toList.any fun e => e.active.any fun a => a.p.inst == i && (a.p.tile == ti || (cpAddrs (some x) a.p.pkt).any touches))
    || (x.tiles.any fun y => y.halos.any fun h => h.left.isSome)
    || s.rowDue i x t
    || (match s.ctx? x.tag with
      | none => false
      | some c => c.sessions.toList.any fun k => (k.stores ++ k.asked.filterMap id).any fun q => q.inst == i && q.tile == ti)

/-- The resident state of a tile saved, its slice given up (R141, R266): the blocks checked against it are discarded, and its WAITAs wake; none
while what was released to it goes on. -/
def State.saveTile (s : State) (i ti : Nat) : Option State :=
  match s.inst? i, s.tile? i ti with
  | some x, some t =>
    if x.busyAt (inSlice ti) || s.workOn i ti x t then none
    else some ((s.discardAt i x (inSlice ti)).modTile i ti fun y =>
      { y.wake (y.watches.map (·.granule)) with place := .saved, phys := noPhys, kept := [] })
  | _, _ => none

/-- TILE_CLAIM_SAVE: an incoming context takes a physical tile in the order of R266: a free one, or one preloaded for itself; else the one
whose resident state has lain longest, which is saved; else one preloaded for another context. What others hold is for the waiting context
with the largest deficit (R258). Hazel itself, tag 0xFF, takes a tile that is mapped out (R396). -/
def execTileClaimSave (phys : Nat) (tag : BitVec 8) (s : State) : Res :=
  let y := s.physAt phys
  let held : Option (Nat × Nat × Tile) := (s.onPhys phys).bind fun a => (s.tile? a.1 a.2).map fun t => (a.1, a.2, t)
  let save (a : Nat × Nat × Tile) : Res := match s.saveTile a.1 a.2.1 with
    | some s => .next (s.tagPhys phys tag)
    | none => .next s
  if s.tileCount ≤ phys then .next s
  else if tag = 0xFF then
    match held with
    | some a => if y.mappedOut && a.2.2.place == .resident then save a else .next s
    | none => .next s
  else match s.ctx? tag with
    | none => .next s
    | some c =>
      if y.mappedOut || !s.wantsTile c then .next s
      else if y.tag = 0 || (y.tag == tag && y.preload.isSome) then .next (s.tagPhys phys tag)
      else if s.idleTiles != 0 || !s.comesFirst c then .next s
      else
        let waits := s.residentSince tag
        match held with
        | some a =>
          let longest := waits.all fun n => decide (a.2.2.since ≤ n)
          if y.tag != tag && a.2.2.place == .resident && longest then save a else .next s
        | none => if y.preload.isSome && waits.isEmpty then .next (s.tagPhys phys tag) else .next s

/-! ### Resuming (R40, R158, R267, R324, R392) -/

/-- The homes and the granules of the WAITAs that a tile is parked in, and that its handler interrupts. -/
def Seq.watches (q : Seq) : List (Nat × Nat) :=
  (q.outer.toList ++ q.park.toList).filterMap fun p => match p with
    | Park.waita h o _ _ _ _ => some (h, o / 64)
    | Park.bar _ _ => none

/-- A tile that resumes: each of its WAITAs wakes with reason 4, above every other reason. -/
def Tile.resumePark (t : Tile) : Tile :=
  let resumed : Park → Park
    | .waita h o g l n _ => .waita h o g l n (some 4)
    | p => p
  let t := { t with seq := { t.seq with outer := t.seq.outer.map resumed } }
  match t.seq.park with
  | some (.waita _ _ g _ _ _) => { t.setG g 4 with seq := { t.seq with park := none } }
  | _ => t

/-- Every watch of a tile at a granule removed, and its wake-ups on their way. -/
def Tile.forget (y : Tile) (granule ti : Nat) : Tile :=
  { y with
    watches := y.watches.filter fun w => !(w.granule == granule && w.tile == ti)
    wakes := y.wakes.filter fun w => !(w.granule == granule && w.tile == ti) }

/-- A SCHEDULE that waited takes effect: a slice ends, or one begins (R258). -/
def Context.nextSlice (c : Context) : Context :=
  match c.schedNext with
  | some (share, slice) => { c with share := share, slice := slice, schedNext := none }
  | none => c

/-- The notices on their way to a tile delivered (R333). -/
def State.takeNotices (i ti : Nat) : Nat → State → State
  | 0, s => s
  | n + 1, s => match (s.inst? i).bind fun x => takeNotice ti x.notices with
    | some ((gid, p), l) =>
      State.takeNotices i ti n ((s.modInst i fun x => { x with notices := l }).modTile i ti fun t => t.notice gid p)
    | none => s

/-- A stopped tile that goes on, on a physical tile: the increments held for it and the notices pending for it are applied before its first
block (R324, R333), and it sees where it stands (R276). -/
def State.resumeTile (s : State) (i ti : Nat) (tag : Byte) (phys : Nat) : State :=
  match s.tile? i ti with
  | none => s
  | some t =>
    let s := t.seq.watches.foldl (fun s w => s.modTile i w.1 fun y => y.forget w.2 ti) s
    let s := s.modTile i ti fun t =>
      { t.resumePark with place := .running, phys := phys, resumes := t.resumes + 1, runCycles := 0, served := some 0, heldInc := [] }
    let s := s.modInst i fun x => { x with tiles := x.tiles.modify ti fun t => { t with spot := x.placement phys } }
    let s := t.heldInc.foldl (fun s k => s.semApply i ti k.sem k.add k.source) s
    (State.takeNotices i ti (match s.inst? i with | some x => x.notices.length | none => 0) s).modCtx tag Context.nextSlice

/-- The first saved tile of a context, by instance and logical id. -/
def State.firstSaved (s : State) (tag : Byte) : Option (Nat × Nat) :=
  s.insts.zipIdx.findSome? fun (x, i) =>
    if x.tag == tag && x.st != .retired then (x.tiles.findIdx? fun t => t.place == .saved).map fun k => (i, k) else none

/-- TILE_RESUME: the resident state on a physical tile continues in place, unless the schedule has stopped it and a context waits, or a saved tile is restored to a free one that the context
holds. -/
def execTileResume (phys : Nat) (s : State) : Res :=
  let y := s.physAt phys
  match s.ctx? y.tag with
  | none => .next s
  | some c =>
    if !c.active || y.mappedOut || y.preload.isSome then .next s
    else match s.onPhys phys with
      | some (i, ti) => match s.tile? i ti with
        | some t => if t.place == .resident && !t.seq.invWait && !givesWay t.served (s.tileWaiter c.tag) then .next (s.resumeTile i ti c.tag phys) else .next s
        | none => .next s
      | none => match s.firstSaved c.tag with
        | some (i, ti) => match s.tile? i ti with
          | some t => if t.seq.invWait then .next s else .next (s.resumeTile i ti c.tag phys)
          | none => .next s
        | none => .next s

/-! ### The time slice and the budget (R258, R289) -/

/-- The running tiles of a context, by instance and logical id. -/
def State.runningTiles (s : State) (tag : Byte) : List (Nat × Nat) :=
  (s.insts.zipIdx).flatMap fun (x, i) =>
    if x.tag == tag && x.st != .retired then
      (x.tiles.zipIdx).filterMap fun (t, k) => if t.place == .running && t.phys != noPhys then some (i, k) else none
    else []

/-- The first plot sets of a list, by instance and place, that stand on at least so many plots together. -/
def setsFor : Nat → List (Nat × Nat × FabNode) → List (Nat × Nat)
  | _, [] => []
  | need, (i, k, n) :: l => if need = 0 then [] else (i, k) :: setsFor (need - n.plots.length) l

/-- The plot sets of a context that run, by instance and place. -/
def State.runningSets (s : State) (tag : Byte) : List (Nat × Nat × FabNode) :=
  (s.insts.zipIdx).flatMap fun (x, i) =>
    if x.tag == tag && x.st != .retired then
      (x.nodes.zipIdx).filterMap fun (n, k) => if n.placed && !n.finished && n.pre.isNone then some (i, k, n) else none
    else []

/-- The running tiles of a context whose slice has elapsed, as many as the context that waits for tiles with the largest deficit lacks, beyond
those that are stopped already (log 29). -/
def State.tilesOver (s : State) (c : Context) : List (Nat × Nat) :=
  match s.tileWaiter c.tag with
  | some r => ((s.runningTiles c.tag).filter fun a => (s.tile? a.1 a.2).any fun t => c.sliceOver t.served).take
      (s.tilesShort r - (s.residents c.tag).length)
  | none => []

/-- The running plot sets of a context whose slice has elapsed, as many as the context that waits for plots with the largest deficit needs. -/
def State.setsOver (s : State) (c : Context) : List (Nat × Nat) :=
  match s.plotWaiter c.tag with
  | some r => setsFor (s.plotsShort r) ((s.runningSets c.tag).filter fun a => c.sliceOver a.2.2.served)
  | none => []

/-- SLICE_EXPIRY: the slice of a context has elapsed on tiles or plots that another waits for: its tiles and plot sets that the waiting
contexts need stop. -/
def execSliceExpiry (tag : BitVec 8) (s : State) : Res :=
  match s.ctx? tag with
  | some c =>
    let tiles := s.tilesOver c
    let sets := s.setsOver c
    if !c.active || (tiles.isEmpty && sets.isEmpty) then .next s
    else
      let s := tiles.foldl (fun s a => s.tryPreempt a.1 a.2) s
      .next ((sets.foldl (fun s a => s.modNode a.1 a.2 fun n => { n.halt s.now with served := none }) s).modCtx tag Context.nextSlice)
  | none => .next s

/-- BUDGET_OVERRUN: a tile of the instance in focus has run for its budget since its last resume: the queue records it, and every tile and
plot set of the instance is pre-empted, once no commit is in progress. -/
def execBudgetOverrun (s : State) : Res :=
  match s.inst? s.focus.inst with
  | none => .next s
  | some x =>
    let i := s.focus.inst
    let spent := x.tiles.any fun t => t.place == .running && !t.seq.finished && decide (x.budget * 65536 ≤ t.runCycles)
    let busy := x.tiles.any fun t => t.place == .running && t.seq.block.any Block.committing
    if x.budget = 0 || x.st != .running || !spent || busy then .next s
    else
      let s := s.modQueue x.tag x.queue fun q => { q with lasterr := 0x13 }
      .next (((List.range x.tiles.length).foldl (fun s k => s.tryPreempt i k) s).haltSets i)

/-! ### Placing an instance (R288, R295, R304, R305) -/

/-- A physical tile given up: no owner holds it, and its slice is zero (R141). -/
def State.giveTile (s : State) (p : Nat) : State := s.tagPhys p 0

/-- The LAUNCH of a context starts on a tile that it is preloaded on: the context takes it for one that it lacks, for one that is free, or for
one that holds the state of a pre-empted tile, which is saved (R288, R289, log 36). -/
def State.adoptTile (s : State) (tag : Byte) (p : Nat) : State :=
  match s.ctx? tag with
  | none => s
  | some c =>
    if s.tilesShort c != 0 then s.tagPhys p tag
    else match s.freePhys tag with
      | g :: _ => (s.tagPhys p tag).giveTile g
      | [] => match s.residents tag with
        | (i, ti) :: _ => match s.tile? i ti, s.saveTile i ti with
          | some t, some s => (s.tagPhys p tag).giveTile t.phys
          | _, _ => s
        | [] => s

/-- The preload of an instance used, and what of it cannot be used given up. -/
def State.adopt (s : State) (x : Inst) : State :=
  let s := (s.preloadedFor x.tag x.queue x.ord).foldl (fun s p => s.adoptTile x.tag p) s
  (s.preloadedFor x.tag x.queue x.ord).foldl State.giveTile s

/-- INSTANCE_PLACE: a submitted instance of a Running context is placed on free granted tiles, the preloaded ones first, in its initial
state. -/
def execInstancePlace (s : State) : Res :=
  match s.inst? s.focus.inst with
  | none => .next s
  | some x => match s.ctx? x.tag with
    | none => .next s
    | some c =>
      if x.st != .submitted || !c.active then .next s
      else
        let s' := s.adopt x
        let first := (s.preloadedFor x.tag x.queue x.ord).filter (s'.freePhys x.tag).contains
        match (allocTiles x.kernel.tileNodes first).orElse fun _ => allocTiles x.kernel.tileNodes (s'.freePhys x.tag) with
        | none => .next s
        | some alloc => .next (s'.modInst s.focus.inst fun x => x.place c.feat alloc)

/-! ### Placing a plot set (R20, R265, R266, R306) -/

/-- A plot under an owner tag. -/
def State.tagPlot (s : State) (p : Nat) (tag : Byte) : State := s.modPlot p fun y => { y with tag := tag }

/-- The plot set of another context whose stopped state has lain longest on plots of a die, by instance and place. -/
def State.residentSet (s : State) (tag : Byte) (d : Nat) : Option (Nat × Nat × FabNode) :=
  let all := (s.insts.zipIdx).flatMap fun (x, i) =>
    if x.tag == tag || x.st == .retired then []
    else (x.nodes.zipIdx).filterMap fun (n, k) =>
      if n.placed && !n.finished && n.pre.isSome && s.setStopped i k x n && n.plots.any (fun p => p / 128 == d) then some (i, k, n) else none
  all.foldl (fun best a => match best with
    | none => some a
    | some b => if a.2.2.since < b.2.2.since then some a else some b) none

/-- A plot set saved: it stands on no plots, and what it holds lies in its context's save area (R265). -/
def FabNode.save (n : FabNode) : FabNode := { n with placed := false, plots := [], gen := none }

/-- A plot set on plots of a die: it gets a clock generator, and goes on where it stopped. -/
def State.standSet (s : State) (i node d : Nat) (n : FabNode) (ps : List Nat) : State :=
  let r := s.assignGen d n.set.fmax
  let s := r.2.modNode i node fun n => { n with placed := true, plots := ps, gen := some r.1, pre := none, served := some 0 }
  s.modInst i fun x => if x.st == .placing && x.nodes.all (·.placed) then { x with st := .placed } else x

/-- PLOT_SET_PLACE: a plot set of a Running context that stands on no plots, of an instance that is placed or of one that was saved, goes on
free granted plots of one die, once Acorn has verified its image again; where the context lacks plots of its grant, on free ones, or on
those of a stopped plot set of another context, which is saved. One that was stopped and not saved goes on in place. -/
def execPlotSetPlace (node : Nat) (s : State) : Res :=
  match s.node? node with
  | none => .next s
  | some (x, n) => match s.ctx? x.tag with
    | none => .next s
    | some c =>
      if n.finished || x.st == .submitted || x.st == .retired || !c.active then .next s
      else if n.placed then
        if n.pre.isSome && s.setStopped s.focus.inst node x n && !givesWay n.served (s.plotWaiter c.tag) then
          .next (s.modNode s.focus.inst node fun n => { n with pre := none, served := some 0 })
        else .next s
      else if sha384 n.set.bits != n.set.image then .next s
      else
        let own (d : Nat) : List Nat := (s.freePlots x.tag).filter fun p => p / 128 == d
        let here (d : Nat) : List Nat := (own d ++ (s.idleOn d).take (s.plotsShort c)).take n.set.plots
        match (List.range s.dies).find? fun d => (here d).length == n.set.plots with
        | some d => .next (((here d).foldl (fun s p => s.tagPlot p x.tag) s).standSet s.focus.inst node d n (here d))
        | none =>
          if s.plotsShort c = 0 || !s.comesFirst c then .next s
          else match (List.range s.dies).findSome? fun d => (s.residentSet x.tag d).map fun a => a with
            | some (i, k, m) =>
              .next ((m.plots.take (s.plotsShort c)).foldl (fun s p => s.tagPlot p x.tag) (s.modNode i k FabNode.save))
            | none => .next s

/-! ### The passing of time (log 1, log 4) -/

/-- The time a WAITA has waited, n tile cycles later. -/
def Park.later (n : Nat) : Park → Park
  | .waita h o g l k w => .waita h o g l (k + n) w
  | p => p

/-- The clock of a tile (log 4). -/
def Tile.clock (t : Tile) : Nat := if t.phys < noPhys then islandOf t.phys else 48

/-- The cycles of a clock that pass in a step. -/
def cyclesAt (now clock : Nat) : Nat := (Config.cycles now clock).toNat

/-- A tile after a step: the take grants of its slice age (R155); while it runs, sr.cycle, its budget's count and a parked WAITA's timeout go
on, all in tile cycles of its own island (R19); and its time since it was placed, in ticks of the reference clock (R258). -/
def Tile.later (now r : Nat) (t : Tile) : Tile :=
  let n := cyclesAt now t.clock
  let t := if t.place == .running && t.phys != noPhys then { t with served := t.served.map (· + r) } else t
  let t := { t with takes := t.takes.map fun (k : Take) => { k with granted := k.granted.map (· + n) } }
  if t.place == .running && t.seq.started && !t.seq.finished then
    { t with
      sr := { t.sr with cycle := t.sr.cycle + w64 n }
      runCycles := t.runCycles + n
      seq := { t.seq with park := t.seq.park.map (Park.later n), outer := t.seq.outer.map (Park.later n) } }
  else t

/-- A fabric operator after a step: the cycles of its clock generator since it was to stop (R265), and its time since it was placed (R258). -/
def FabNode.later (now r : Nat) (n : FabNode) : FabNode :=
  let n := if n.placed && n.pre.isNone then { n with served := n.served.map (· + r) } else n
  { n with pre := n.pre.map fun k => k + (match n.gen with | some g => cyclesAt now (16 + g) | none => 0) }

/-- The tile cycles that the running tiles of a context pass in a step (R271). -/
def State.cyclesRun (s : State) (tag : Byte) (now : Nat) : Nat :=
  (s.insts.map fun x => if x.tag == tag then
    ((x.tiles.filter fun t => t.place == .running && t.seq.started && !t.seq.finished).map fun t => cyclesAt now t.clock).sum else 0).sum

/-- The clock in whose cycles the detector of R57 counts: the lowest-numbered island that holds a tile of the context, by its owner tags
(R313). -/
def State.quietClock (s : State) (tag : Byte) : Nat :=
  ((s.phys.filter fun p => p.2.tag == tag).map fun p => islandOf p.1).foldl Nat.min 48

/-- Whether the engines of a tile's schedule clock hold nothing: a schedule cycle of theirs moves nothing (R57; log 36). -/
def Tile.enginesIdle (t : Tile) : Bool := t.ast.retired && t.est.retired && t.pst.retired && t.mxe.retired

/-- A tile without what changes in it while nothing of R57 moves: where it stands, the reservations of a check phase that is to be repeated,
take lists, the slots to be tried, what the block cache holds, pending faults, and the count of empty schedule cycles. -/
def Tile.still (t : Tile) : Tile :=
  { t with
    phys := 0, place := .running, since := 0, resumes := 0, spot := 0, reserved := [], takes := [], kept := [], served := none
    cyc := if t.enginesIdle then 0 else t.cyc
    phase := if t.enginesIdle then .start else t.phase
    seq := { t.seq with pend := .empty, turn := none, block := t.seq.block.map fun b => { b with checking := false } } }

/-- A fabric operator without where it stands. -/
def FabNode.still (n : FabNode) : FabNode := { n with plots := [], gen := none, placed := true, pre := none, since := 0, served := none }

/-- An instance without them. -/
def Inst.still (x : Inst) : Inst := { x with tiles := x.tiles.map Tile.still, nodes := x.nodes.map FabNode.still }

/-- What of a context R57 counts as movement when it changes: its instances, the copy packets that it has released, the packets of its queues,
its messages with peers, and its migrations. -/
structure Moving where
  insts : List Inst
  copies : List CpEngine
  waiting : List (List (Rec64 × W32))
  started : List (List Started)
  marks : List (List (BitVec 16 × W64))
  sessions : List Session
  migs : List Mig
deriving DecidableEq

/-- That part of a state. -/
def State.moving (s : State) (tag : Byte) : Moving :=
  let mine (i : Nat) : Bool := match s.inst? i with | some x => x.tag == tag | none => false
  let still (p : CpPkt) : CpPkt := { p with level := 0, waited := 0 }
  let queues : List Queue := match s.ctx? tag with | some c => c.queues.toList | none => []
  { insts := (s.insts.filter fun x => x.tag == tag).map Inst.still
    copies := s.copy.toList.map fun e =>
      { waiting := (e.waiting.filter fun p => s.cpTag p == tag).map still
        last := []
        active := (e.active.filter fun a => s.cpTag a.p == tag).map fun a => { a with p := still a.p }
        inbox := e.inbox.filter fun u => mine u.inst
        permitIn := e.permitIn.filter fun u => mine u.2.1
        ord := 0 }
    waiting := queues.map (·.buf)
    started := queues.map (·.started)
    marks := queues.map (·.marks)
    sessions := match s.ctx? tag with | some c => c.sessions.toList | none => []
    migs := match s.ctx? tag with | some c => c.migs | none => [] }

/-- Whether a step moved anything of a context (R57). -/
def State.moved (old new : State) (tag : Byte) : Bool := old.moving tag != new.moving tag

/-- Whether a context runs on tiles or plots that another waits for (R258). -/
def State.onContended (s : State) (tag : Byte) : Bool :=
  ((s.tileWaiter tag).isSome && !(s.runningTiles tag).isEmpty) || ((s.plotWaiter tag).isSome && !(s.runningSets tag).isEmpty)

/-- A context after a step in which r ticks of the reference clock passed: counter 0x10, the quiet cycles of R57, its queues' waiting, and its
deficit, which rises while it waits and falls while it runs on what another waits for (R258). -/
def Context.later (old new : State) (r : Nat) (c : Context) : Context :=
  let c := { c with counters := vmod c.counters 0 (fun v => v + w64 (new.cyclesRun c.tag old.now)), queues := new.queuesLater r c }
  let c :=
    if !c.active || new.preempted c.tag then c
    else if old.moved new c.tag || !new.workLeft c.tag then { c with quiet := 0, declared := c.declared && !old.moved new c.tag }
    else { c with quiet := c.quiet + cyclesAt old.now (new.quietClock c.tag) }
  { c with deficit := c.deficit + (if new.contends c then c.share * r else 0) - if new.onContended c.tag then 1000 * r else 0 }

/-- A copy engine r ticks of the reference clock later: its packets that have not started have waited for longer (R179). -/
def CpEngine.later (r : Nat) (e : CpEngine) : CpEngine := { e with waiting := e.waiting.map fun p => { p with waited := p.waited + r } }

/-- Time passes: what a step that led from one state to another leaves for the next. -/
def State.tick (old new : State) : State :=
  let r := (Config.refTicks old.now).toNat
  let s : State := { old.retune new with
    now := old.now + 1
    copy := new.copy.map (CpEngine.later r)
    insts := new.insts.map fun x =>
      { x with tiles := x.tiles.map (Tile.later old.now r), nodes := x.nodes.map (FabNode.later old.now r) }
    ctxs := new.ctxs.map (Context.later old new r) }
  (s.ctxs.map (·.tag)).foldl State.deliverReport s.flush

end Sys2Proof.Machine
end

