-- ==== Sys2Proof/Machine/Contexts.lean ====
section
/-! DEFINITION. Contexts: host commands and their checks, sealing, attestation, pausing, eviction and restoring, destruction, counters,
the audit ring, bounce channels and sealed routes (R250-R274, R281, R350). -/

namespace Sys2Proof.Machine

/-! ### The audit ring (R272) -/

/-- A record for the ring of a context, behind those that wait; one that finds no room, or whose accesses fail, is dropped and counted. -/
def State.ringWrite (s : State) (tag : Byte) (r : BitVec 256) : State :=
  match (s.ctx? tag).bind fun c => if c.st == .destroyed then none else c.audit.va with
  | none => s.modCtx tag fun c => { c with audit := { c.audit with dropped := c.audit.dropped + 1 } }
  | some va => s.post tag (.audit va r) [.read (va + 8200)]

/-- A record appended (R257, R272): its sequence counts whatever becomes of it; before SEAL up to 16 are held. -/
def State.audit (s : State) (tag : Byte) (type : Nat) (command status : Byte) (arg count : W64) : State :=
  match s.ctx? tag with
  | none => s
  | some c =>
    let low : BitVec 64 := BitVec.ofNat 16 0 ++ status ++ command ++ BitVec.ofNat 24 0 ++ BitVec.ofNat 8 type
    let r : BitVec 256 := c.audit.seq ++ count ++ arg ++ low
    let s := s.modCtx tag fun c => { c with audit := { c.audit with seq := c.audit.seq + 1 } }
    match c.audit.va with
    | some _ => s.ringWrite tag r
    | none => s.modCtx tag fun c =>
      if c.audit.held.length < 16 then { c with audit := { c.audit with held := c.audit.held ++ [r] } }
      else { c with audit := { c.audit with dropped := c.audit.dropped + 1 } }

/-! ### Commands (R253-R257) -/

/-- Status codes of R255. -/
def stOk : Byte := 0x00
/-- DENIED. -/
def stDenied : Byte := 0x01
/-- BAD_STATE. -/
def stBadState : Byte := 0x02
/-- BAD_HANDLE. -/
def stBadHandle : Byte := 0x03
/-- NO_RESOURCE. -/
def stNoResource : Byte := 0x04
/-- BAD_SIGNATURE. -/
def stBadSignature : Byte := 0x05
/-- BAD_FORMAT. -/
def stBadFormat : Byte := 0x06
/-- STALE. -/
def stStale : Byte := 0x07
/-- LOCKED. -/
def stLocked : Byte := 0x08
/-- COUNTER_MISMATCH. -/
def stCounterMismatch : Byte := 0x09

/-- The code of a command record (R254). -/
def cmdCode (c : Rec64) : Nat := fld c 0 8
/-- The handle of a command record. -/
def cmdHandle (c : Rec64) : W64 := c.extractLsb' 64 64

/-- The context that a handle names. -/
def State.byHandle (s : State) (h : W64) : Option Context := if h = 0 then none else s.ctxs.find? fun c => c.handle == h

/-- The completion of a command (R255). -/
def State.complete (s : State) (cmd : Rec64) (result : W64) (status : Byte) : State :=
  let low : BitVec 64 := cmd.extractLsb' 32 32 ++ BitVec.ofNat 24 0 ++ status
  { s with complRing := s.complRing ++ [result ++ low] }

/-- A refusal: the completion, and a record of type 2 where the command names a context (R257). -/
def State.refuse (s : State) (cmd : Rec64) (status : Byte) : State :=
  let s := s.complete cmd 0 status
  match s.byHandle (cmdHandle cmd) with
  | none => s
  | some c => s.audit c.tag 2 (BitVec.ofNat 8 (cmdCode cmd)) status (cmd.extractLsb' 128 64) 0

/-- Whether the bits of a command from a position on are zero. -/
def cmdZeroFrom (c : Rec64) (k : Nat) : Bool := fld c k (512 - k) == 0

/-- Whether a number lies in a range. -/
def within (lo hi n : Nat) : Bool := decide (lo ≤ n) && decide (n ≤ hi)

/-- The format check (R254, R256). -/
def cmdFormatOk (c : Rec64) : Bool :=
  fld c 8 24 == 0 && (match cmdCode c with
    | 0x01 => cmdHandle c == 0 && within 1 254 (fld c 128 8) && cmdZeroFrom c 136
    | 0x02 => cmdZeroFrom c 208
    | 0x03 => cmdZeroFrom c 192
    | 0x04 => within 1 1000 (fld c 128 10) && fld c 138 6 == 0 && within 1 1000 (fld c 144 16) && cmdZeroFrom c 160
    | 0x05 => cmdZeroFrom c 128
    | 0x06 => cmdZeroFrom c 128
    | 0x07 => cmdZeroFrom c 131
    | 0x08 => fld c 131 61 == 0 && cmdZeroFrom c 256
    | 0x09 => cmdZeroFrom c 128
    | 0x0A => cmdHandle c == 0 && within 1 254 (fld c 128 8) && cmdZeroFrom c 136
    | 0x0B =>
      let id := fld c 128 8
      cmdZeroFrom c 136 && ((within 1 4 id && cmdHandle c == 0) || within 0x10 0x18 id)
    | 0x0C => fld c 136 56 == 0 && cmdZeroFrom c 192
    | 0x0D => fld c 132 12 == 0 && cmdZeroFrom c 160
    | _ => false)

/-- The sequence number of a command record. -/
def cmdSeq (c : Rec64) : Nat := fld c 32 32

/-- Of some commands, the one with the lowest sequence number, the first of those that share it. -/
def firstCommand : List Rec64 → Option Rec64
  | [] => none
  | c :: l => some (l.foldl (fun best d => if cmdSeq d < cmdSeq best then d else best) c)

/-- The commands of a context that wait: those held back, and those in the command ring. -/
def State.waitingFor (s : State) (c : Context) : List Rec64 := c.heldCmds ++ s.cmdRing.filter fun d => cmdHandle d == c.handle

/-- The command that Hazel performs next: of a context that is no longer busy and has commands held back, or of the context that the head of
the command ring names, the one with the lowest sequence number (R253); or that head, where it names no context. -/
def State.nextCommand (s : State) : Option Rec64 :=
  match s.ctxs.find? fun c => c.op.isNone && !c.heldCmds.isEmpty with
  | some c => firstCommand (s.waitingFor c)
  | none => match s.cmdRing.head? with
    | none => none
    | some d => match s.byHandle (cmdHandle d) with
      | none => some d
      | some c => firstCommand (s.cmdRing.filter fun d => cmdHandle d == c.handle)

/-- The state without its next command. -/
def State.popCommand (s : State) : State :=
  match s.nextCommand with
  | none => s
  | some d => match s.ctxs.find? fun c => c.op.isNone && !c.heldCmds.isEmpty with
    | some c =>
      if c.heldCmds.contains d then s.modCtx c.tag fun c => { c with heldCmds := c.heldCmds.erase d } else { s with cmdRing := s.cmdRing.erase d }
    | none => { s with cmdRing := s.cmdRing.erase d }

/-- A command of a code taken: one behind a command in progress is held back, unless it destroys (R253); a locked package refuses every one
(R275); then the format. -/
def State.command (s : State) (cmd : Rec64) (code : Nat) (go : State → State) : Res :=
  if s.boot != .ready || cmdCode cmd != code || s.nextCommand != some cmd then .next s
  else
    let s := s.popCommand
    if s.locked then .next (s.refuse cmd stLocked)
    else match s.byHandle (cmdHandle cmd) with
      | some c =>
        if c.op.isSome && code != 0x09 && code != 0x0A then
          .next (s.modCtx c.tag fun c => { c with heldCmds := c.heldCmds ++ [cmd] })
        else if cmdFormatOk cmd then .next (go s) else .next (s.refuse cmd stBadFormat)
      | none => if cmdFormatOk cmd then .next (go s) else .next (s.refuse cmd stBadFormat)

/-- A command of a code that names a context, in one of its states: the handle, then the state, then what the command itself checks. -/
def State.commandOn (s : State) (cmd : Rec64) (code : Nat) (ok : Context → Bool) (go : Context → State → State) : Res :=
  s.command cmd code fun s => match s.byHandle (cmdHandle cmd) with
    | none => s.refuse cmd stBadHandle
    | some c => if ok c then go c s else s.refuse cmd stBadState

/-- UNKNOWN command: no row of R256 has its code. -/
def State.unknownCommand (s : State) (cmd : Rec64) : Res := s.command cmd (cmdCode cmd) fun s => s.refuse cmd stBadFormat

/-! ### Creating a context (R251, R256) -/

/-- No keys. -/
def Keys.none : Keys := { hbm := .none, save := .none, husk := .none, queues := [], checkpoint := .none }

/-- A queue of a context before SEAL. -/
def Queue.fresh : Queue :=
  { enabled := false, ring := Vector.replicate 64 0, head := 0, tail := 0, buf := [], counter := 0, completed := 0, rejects := 0, errors := 0,
    lasterr := 0, started := [], marks := [], ready := 0, age := 0, held := false, ord := 0 }

/-- A bounce channel under a key of which nothing has been used. -/
def Bounce.fresh (key : Option (BitVec 256)) : Bounce := { key := key, sent := 0, accepted := 0, status := 0, outbox := [], inbox := [] }

/-- A session that is not open. -/
def Session.closed : Session :=
  { opened := false, send := false, receive := false, peer := 0, port := 0, cls := 0, outq := [], part := [], asked := [], got := [], stores := [],
    demand := [], told := [] }

/-- A Building context with a tag, a VF and a handle. -/
def Context.create (tag vf : Byte) (handle : W64) (keys : Keys) : Context :=
  { tag := tag, vf := vf, handle := handle, st := .building, policy := none, grant := none, frames := [], saveFrames := [], feat := 0, keys := keys, sealedAt := 0, epoch := 0,
    share := 0, slice := 0, schedNext := none, deficit := 0, queues := Vector.replicate 16 Queue.fresh, lastServed := [],
    krefs := [], launches := 0, audit := { va := none, index := 0, seq := 0, dropped := 0, held := [] }, denied := [],
    counters := Vector.replicate 9 0, bounce := Vector.replicate 4 (Bounce.fresh none),
    sessions := Vector.replicate 32 Session.closed, tlb := [], tables := [], seen := [], posts := [], report := none, invals := [], migs := [], op := none,
    heldCmds := [], checkpoint := none, quiet := 0, declared := false, verified := [], huskDead := [], husk := [], huskWire := [] }

/-- The lowest free owner tag. -/
def State.freeTag (s : State) : Option Byte :=
  ((List.range 254).map fun k => BitVec.ofNat 8 (k + 1)).find? fun t => (s.ctx? t).isNone

/-- The next handle drawn that was never issued and is not 0, and how many draws it took (R255, log 11). -/
def State.freshHandle (s : State) : Option (W64 × Nat) :=
  ((List.range (s.handles.length + 2)).map fun k => (Config.handle (s.drawn + k), k + 1)).find? fun h => h.1 != 0 && !s.handles.contains h.1

/-- CREATE_CONTEXT. -/
def execCreateContext (cmd : Rec64) (s : State) : Res :=
  s.command cmd 0x01 fun s =>
    let vf : Byte := cmd.extractLsb' 128 8
    if s.ctxs.any fun c => c.vf == vf then s.refuse cmd stNoResource
    else match s.freeTag, s.freshHandle with
      | some tag, some (h, n) =>
        let keys := { Keys.none with hbm := some (Config.drawnKey s.keysDrawn), save := some (Config.drawnKey (s.keysDrawn + 1)) }
        { s with ctxs := s.ctxs ++ [Context.create tag vf h keys], handles := h :: s.handles, drawn := s.drawn + n,
                 keysDrawn := s.keysDrawn + 2 }.complete cmd h stOk
      | _, _ => s.refuse cmd stNoResource

/-! ### The policy (R259) -/

/-- A policy read from its bytes: none where a field lies outside its range. The ranges of the maxima are what the package holds: those of R259 for
an AE-TY9-P, fewer for a part made of fewer dies (R2). -/
def State.readPolicy (s : State) (bs : List Byte) : Option Policy :=
  let n (k : Nat) : Nat := (Config.policyNumbers bs).getD k 0
  let d (k : Nat) : List Digest := (Config.policyDigests bs).getD k []
  let peers := Config.policyPeers bs
  if within 1 s.tileCount (n 0) && within 0 s.plotCount (n 1) && within 0 s.hbmFrames (n 2) && within 0 255 (n 3) && decide (n 4 < 2 ^ 64) && within 0 3 (n 5)
      && within 1 1000 (n 6) && within 900 1800 (n 7) && decide ((d 0).length ≤ 8) && decide ((d 1).length ≤ 8)
      && decide ((d 2).length ≤ 8) && decide (peers.length ≤ 32) then
    some { digest := sha384 (bs.take (bs.length - 96)), tenant := Config.policyTenant bs, tiles := n 0, plots := n 1, hbm := n 2,
           features := BitVec.ofNat 8 (n 3), allow := w64 (n 4), targets := d 0, peers := peers, plotSigners := d 1,
           kernelSigners := d 2, bound := n 5, share := n 6, floor := n 7 }
  else none

/-- Whether the signature that ends a policy is that of its tenant's key. -/
def policySigned (bs : List Byte) : Bool :=
  Config.signerOf (sha384 (bs.take (bs.length - 96))) (BitVec.ofNat 768 (ofBytes (bs.drop (bs.length - 96)))) == some (Config.policyTenant bs)

/-- Bytes of host memory as a function reaches them through the IOMMU. -/
def State.hostRead (s : State) (fn a n : Nat) : List Byte :=
  (List.range n).map fun k => s.host.get (((s.iommuOf fn ((a + k) / 4096)).getD 0) * 4096 + (a + k) % 4096)

/-- LOAD_POLICY: the policy is read from host memory; its signature, then its ranges. -/
def execLoadPolicy (cmd : Rec64) (s : State) : Res :=
  s.commandOn cmd 0x02 (fun c => c.st == .building && c.policy.isNone) fun c s =>
    let a := fld cmd 128 64
    let n := fld cmd 192 16
    let pages := (List.range ((a + n - 1) / 4096 - a / 4096 + 1)).map fun k => a / 4096 + k
    if n < 96 || pages.any (fun p => (s.iommuOf 256 p).isNone) then s.refuse cmd stBadFormat
    else
      let bs := s.hostRead 256 a n
      if !policySigned bs then s.refuse cmd stBadSignature
      else match s.readPolicy bs with
        | none => s.refuse cmd stBadFormat
        | some p => (s.modCtx c.tag fun c => { c with policy := some p, feat := p.features.setWidth 64 }).complete cmd 0 stOk

/-! ### The grant (R256, R350, R351) -/

/-- The physical resources of an owner freed, its HBM zeroed (R256, R268, R270). -/
def State.freeResources (s : State) (tag : Byte) : State :=
  let fs := (s.frames.filter fun f => f.2 == tag).map (·.1)
  let s := { s with
    phys := s.phys.map fun p => if p.2.tag == tag then
      (p.1, { p.2 with tag := 0, banks := Vector.replicate 16 0, preload := none }) else p
    plots := s.plots.map fun p => if p.2.tag == tag then (p.1, { p.2 with tag := 0 }) else p
    frames := s.frames.filter fun f => f.2 != tag }
  fs.foldl (fun s f =>
    { s with
      hbm := s.hbm.clear (f * 0x200000) 0x200000
      hbmBad := s.hbmBad.filter fun w => !(decide (f * 0x200000 ≤ 8 * w) && decide (8 * w < f * 0x200000 + 0x200000)) }) s

/-- The first n frames that no owner holds, found from a frame on in so many steps. -/
def State.findFrames (s : State) : Nat → Nat → Nat → List Nat
  | 0, _, _ => []
  | _ + 1, _, 0 => []
  | k + 1, f, n + 1 =>
    if s.hbmFrames ≤ f then []
    else if s.frameTag f = 0 then f :: s.findFrames k (f + 1) n else s.findFrames k (f + 1) (n + 1)

/-- The frames of the save area of a grant: 1,600 KiB for each tile and 68 KiB for each plot (R250). -/
def Grant.saveFrames (g : Grant) : Nat := (1600 * 1024 * g.tiles + 68 * 1024 * g.plots + 0x1FFFFF) / 0x200000

/-- What a grant reserves: tiles, plots, and the frames of the allotment and of the save area. -/
structure Resources where
  tiles : List Nat
  plots : List Nat
  frames : List Nat
  save : List Nat
deriving DecidableEq, Repr

/-- Tiles, plots and frames for a grant, all free: none where there are too few. A tile that is only preloaded is taken after every other
(R266). -/
def State.findResources (s : State) (g : Grant) : Option Resources :=
  let all := (List.range s.tileCount).filter fun p => !(s.physAt p).mappedOut
  let ts := ((all.filter fun p => (s.physAt p).tag == 0) ++ all.filter fun p => (s.physAt p).tag != 0 && (s.physAt p).preload.isSome).take g.tiles
  let ps := ((List.range s.plotCount).filter fun p => (s.plotAt p).tag == 0 && !(s.plotAt p).quarantined).take g.plots
  let n := g.hbm + g.saveFrames
  let fs := s.findFrames (n + s.frames.length) 0 n
  if ts.length < g.tiles || ps.length < g.plots || fs.length < n then none else some ⟨ts, ps, fs.take g.hbm, fs.drop g.hbm⟩

/-- Those resources under an owner tag; the context's second stage maps the frames of the allotment in order. -/
def State.takeResources (s : State) (tag : Byte) (r : Resources) : State :=
  let s := r.tiles.foldl (fun s p => s.tagPhys p tag) s
  let s := r.plots.foldl (fun s p => s.tagPlot p tag) s
  { s with frames := (r.frames ++ r.save).foldl (fun l f => l ++ [(f, tag)]) s.frames }.modCtx tag fun c =>
    { c with frames := r.frames, saveFrames := r.save }

/-- A word of the initial first stage: a leaf with rd, wr and ex, Device-resident, to an IPA. -/
def initialLeaf (ipa : Nat) (contiguous : Bool) : W64 := w64 (7 * 2 ^ 57 + ipa + (if contiguous then 32 else 0) + 4 + 2)

/-- The entries of the initial first stage of A bytes, by IPA (R350). -/
def initialTables (a : Nat) : List (Nat × W64) :=
  let big := a / 2 ^ 29
  let rest := a % 2 ^ 29
  [(a - 0x10000, w64 ((a - 0x20000) + 1))]
    ++ ((List.range big).map fun i => (a - 0x20000 + 8 * i, initialLeaf (i * 2 ^ 29) false))
    ++ (if rest = 0 then [] else
      (a - 0x20000 + 8 * big, w64 ((a - 0x30000) + 1))
        :: (List.range (rest / 65536)).map fun j => (a - 0x30000 + 8 * j, initialLeaf (big * 2 ^ 29 + j * 65536) true))

/-- The initial first stage written into an allotment that is otherwise zero. -/
def State.writeTables (s : State) (frames : List Nat) (a : Nat) : State :=
  if a = 0 then s
  else (initialTables a).foldl (fun s e =>
    match frames[e.1 / 0x200000]? with
    | some f => { s with hbm := s.hbm.write (f * 0x200000 + e.1 % 0x200000) (vecBytes 8 e.2) }
    | none => s) s

/-- GRANT: a second grant takes the place of the first. -/
def execGrant (cmd : Rec64) (s : State) : Res :=
  s.commandOn cmd 0x03 (fun c => c.st == .building && c.policy.isSome) fun c s =>
    let g : Grant := ⟨fld cmd 128 16, fld cmd 144 16, fld cmd 160 32⟩
    match c.policy with
    | none => s.refuse cmd stBadState
    | some p =>
      if g.tiles = 0 || p.tiles < g.tiles || p.plots < g.plots || p.hbm < g.hbm then s.refuse cmd stDenied
      else
        let s' := s.freeResources c.tag
        match s'.findResources g with
        | none => s.refuse cmd stNoResource
        | some r =>
          let s := (s'.takeResources c.tag r).modCtx c.tag fun c => { c with grant := some g }
          (s.writeTables r.frames (g.hbm * 0x200000)).complete cmd 0 stOk

/-! ### Scheduling, features, queues (R256, R258, R274, R281) -/

/-- Whether a context is Sealed, Running or Paused. -/
def Context.live (c : Context) : Bool := c.st == .sealed || c.st == .running || c.st == .paused

/-- SCHEDULE: the share and the slice, from the next slice of the context. -/
def execSchedule (cmd : Rec64) (s : State) : Res :=
  s.commandOn cmd 0x04 Context.live fun c s =>
    let share := fld cmd 128 10
    let ceiling := match c.policy with | some p => p.share | none => 0
    if ceiling < share then s.refuse cmd stDenied
    else
      let inSlice := (s.rival c.tag).isSome && !(s.runningTiles c.tag).isEmpty
      let s := s.modCtx c.tag fun c =>
        let c := { c with schedNext := some (share, fld cmd 144 16) }
        if inSlice then c else c.nextSlice
      s.complete cmd 0 stOk

/-- MASK_FEATURE: the mask, and sr.feat on every tile of the context. -/
def execMaskFeature (cmd : Rec64) (s : State) : Res :=
  s.commandOn cmd 0x0C (fun c => c.st == .sealed || c.st == .paused) fun c s =>
    let m : W64 := cmd.extractLsb' 128 64
    let allowed : W64 := match c.policy with | some p => p.features.setWidth 64 | none => 0
    if m &&& ~~~allowed != 0 then s.refuse cmd stDenied
    else
      let s := s.modCtx c.tag fun c => { c with feat := m }
      let put (x : Inst) : Inst := { x with tiles := x.tiles.map fun t => { t with sr := { t.sr with feat := m } } }
      { s with insts := s.insts.map fun (x : Inst) => if x.tag == c.tag then put x else x }.complete cmd 0 stOk

/-- Whether a new tail is valid (R281). -/
def tailOk (head old new : BitVec 16) : Bool :=
  decide ((new - head).toNat ≤ 64) && decide ((new - old).toNat ≤ (new - head).toNat)

/-- SUBMIT: the doorbell of a queue. -/
def execSubmit (cmd : Rec64) (s : State) : Res :=
  s.commandOn cmd 0x0D Context.live fun c s =>
    let q : BitVec 4 := cmd.extractLsb' 128 4
    let tail : BitVec 16 := cmd.extractLsb' 144 16
    match c.queue? q with
    | none => s.refuse cmd stDenied
    | some x =>
      if !x.enabled then s.refuse cmd stDenied
      else if !tailOk x.head x.tail tail then s.refuse cmd stBadFormat
      else (s.modQueue c.tag q fun x => { x with tail := tail }).complete cmd 0 stOk

/-! ### Pause and resume (R253, R264, R265) -/

/-- Whether everything of a context has stopped: its tiles, its plot sets (R265), its copy packets, its HALOs, of which none that has begun is
left (R404), the gather rows of issued indices (R392), and every access that was issued is performed. -/
def State.allStopped (s : State) (c : Context) : Bool :=
  s.insts.zipIdx.all (fun (x, i) => x.tag != c.tag || x.st == .retired ||
    (x.tiles.all (fun t => (t.place != .running || t.phys == noPhys) && t.sbuf.isEmpty && t.halos.all fun h => h.left.isNone)
      && x.tiles.all (fun t => !s.rowDue i x t)
      && x.nodes.zipIdx.all fun (n, k) => s.setStopped i k x n))
    && s.copy.toList.all (fun e => e.active.all fun a => s.cpTag a.p != c.tag)
    && c.sessions.toList.all fun k => k.stores.isEmpty && k.asked.all (·.isNone)

/-- PAUSE: the context's tiles and plot sets are to stop. -/
def execPause (cmd : Rec64) (s : State) : Res :=
  s.commandOn cmd 0x05 (fun c => c.st == .running) fun c s =>
    (s.haltAll c.tag).modCtx c.tag fun c => { c with op := some (.pause cmd) }

/-- PAUSE_COMPLETE: everything has stopped, and the context is Paused. -/
def execPauseComplete (tag : BitVec 8) (s : State) : Res :=
  match s.ctx? tag with
  | none => .next s
  | some c => match c.op with
    | some (.pause cmd) =>
      if s.allStopped c then .next ((s.modCtx tag fun c => { c with st := .paused, op := none }).complete cmd 0 stOk) else .next s
    | _ => .next s

/-- RESUME: the context runs. -/
def execResume (cmd : Rec64) (s : State) : Res :=
  s.commandOn cmd 0x06 (fun c => c.st == .sealed || c.st == .paused) fun c s =>
    -- what lay stopped begins a slice
    let start (x : Inst) : Inst := { x with
      tiles := x.tiles.map fun t => { t with served := some 0 }, nodes := x.nodes.map fun n => { n with served := some 0 } }
    let s := { s with insts := s.insts.map fun (x : Inst) => if x.tag == c.tag then start x else x }
    (s.modCtx c.tag fun c => { c.nextSlice with st := .running, quiet := 0, declared := false }).complete cmd 0 stOk

/-! ### Eviction and restoring (R268, R269) -/

/-- The policy's checkpoint target at the index of a command. -/
def Context.target (c : Context) (cmd : Rec64) : Option Digest := c.policy.bind fun p => p.targets[fld cmd 128 3]?

/-- EVICT: a Running context stops first, its plot sets too. -/
def execEvict (cmd : Rec64) (s : State) : Res :=
  s.commandOn cmd 0x07 (fun c => c.st == .running || c.st == .paused) fun c s =>
    if (c.target cmd).isNone then s.refuse cmd stDenied else (s.haltAll c.tag).modCtx c.tag fun c => { c with op := some (.evict cmd) }

/-- The bytes of an allotment, by IPA. -/
def State.allotmentCells (s : State) (frames : List Nat) : List Host.Cell :=
  frames.zipIdx.flatMap fun (f, u) => s.hbm.cells.filterMap fun c =>
    if f * 0x200000 ≤ c.1 ∧ c.1 < f * 0x200000 + 0x200000 then some (u * 0x200000 + (c.1 - f * 0x200000), c.2) else none

/-- The uncorrectable words of an allotment, by IPA. -/
def State.allotmentBad (s : State) (frames : List Nat) : List Nat :=
  frames.zipIdx.flatMap fun (f, u) => s.hbmBad.filterMap fun w =>
    if f * 0x40000 ≤ w ∧ w < f * 0x40000 + 0x40000 then some (u * 0x40000 + (w - f * 0x40000)) else none

/-- The sessions of a context aborted (R374); of those that its peers aborted, too, nothing more is sent. -/
def State.abortAll (s : State) (tag : Byte) : State :=
  (List.range 32).foldl (fun s k =>
    let s := s.abortSession tag (BitVec.ofNat 5 k) true
    { s with ports := s.ports.map fun (p : Port) => p.eraseSession tag (BitVec.ofNat 5 k) }.modCtx tag fun c =>
      c.modSession (BitVec.ofNat 5 k) fun x => { x with part := [] }) s

/-- The tiles of a context saved, its plot sets off their plots. -/
def State.saveAll (s : State) (tag : Byte) : State :=
  { s with insts := s.insts.map fun x =>
      if x.tag == tag && x.st != .retired then
        { x with
          tiles := x.tiles.map fun t =>
            if t.place == .running then t else { t.wake (t.watches.map (·.granule)) with place := .saved, phys := noPhys, kept := [] }
          nodes := x.nodes.map fun n => { n with placed := n.placed && n.finished, plots := [], gen := none } }
      else x }

/-- The IV of a record of 1 MiB of a checkpoint: its epoch and the index of the record (R268). -/
def Checkpoint.iv (k : Checkpoint) (n : Nat) : BitVec 96 := BitVec.ofNat 32 n ++ k.epoch

/-- The state of the instances of a context that lies in its save area, or that is read in place (R267, R268). -/
def State.savedInsts (s : State) (tag : Byte) : List (Nat × Inst) :=
  s.insts.zipIdx.filterMap fun (x, i) => if x.tag == tag && x.st != .retired then some (i, x) else none

/-- The allotment in records of 1 MiB, two for each of its frames (R268). -/
def State.allotmentRecords (s : State) (frames : List Nat) : List (List Byte) :=
  frames.flatMap fun f => (List.range 2).map fun h => s.hbm.read (f * 0x200000 + h * 0x100000) 0x100000

/-- The records of a checkpoint as they are sent: each sealed under the checkpoint key, with its IV (R268). -/
def Checkpoint.sealAll (k : Checkpoint) (records : List (List Byte)) : Checkpoint :=
  { k with records := records.zipIdx.map fun (r, n) => Config.gcmSeal k.key (k.iv n) [] r }

/-- The checkpoint of a context once every tile and plot set of it is saved, sealed under a new key (R268). -/
def State.checkpoint (s : State) (c : Context) (d : Digest) (g : Grant) (key : BitVec 256) : Checkpoint :=
  Checkpoint.sealAll
    { target := d, epoch := c.epoch + 1, key := key, grant := g, bytes := s.allotmentCells c.frames, badWords := s.allotmentBad c.frames
      insts := s.savedInsts c.tag, queues := c.queues, sessions := c.sessions, records := [] }
    (s.allotmentRecords c.frames ++ Config.savedRecords s.now)

/-- EVICT_COMPLETE: the target is attested, the checkpoint sent, the resources freed, and the context is Evicted; or the attestation
fails, and the context goes on as it was. Mark adds and migrations that are due come first (R286, R359). -/
def execEvictComplete (tag : BitVec 8) (s : State) : Res :=
  match s.ctx? tag with
  | none => .next s
  | some c => match c.op with
    | some (.evict cmd) =>
      if !s.allStopped c || !c.migs.isEmpty || c.queues.toList.any (fun q => !q.marks.isEmpty) then .next s
      else match c.target cmd, c.grant with
        | some d, some g =>
          if !Config.targetAttests d s.now then .next ((s.modCtx tag fun c => { c with op := none }).refuse cmd stBadSignature)
          else
            let key := Config.drawnKey s.keysDrawn
            let s := { (s.abortAll tag).saveAll tag with keysDrawn := s.keysDrawn + 1 }
            let k := (s.ctx? tag).map fun c => s.checkpoint c d g key
            let s := (s.freeResources tag).modCtx tag fun c =>
              { c with st := .evicted, op := none, epoch := c.epoch + 1, checkpoint := k, frames := [], saveFrames := [], tlb := [], tables := [],
                       seen := [], keys := { c.keys with checkpoint := some key } }
            .next (s.complete cmd 0 stOk)
        | _, _ => .next ((s.modCtx tag fun c => { c with op := none }).refuse cmd stBadSignature)
    | _ => .next s

/-- RESTORE: the target is listed and the epoch current. -/
def execRestore (cmd : Rec64) (s : State) : Res :=
  s.commandOn cmd 0x08 (fun c => c.st == .evicted) fun c s =>
    if (c.target cmd).isNone then s.refuse cmd stDenied
    else if cmd.extractLsb' 192 64 != c.epoch then s.refuse cmd stStale
    else s.modCtx c.tag fun c => { c with op := some (.restore cmd) }

/-- The bytes of a checkpoint written into frames. -/
def State.putCells (s : State) (frames : List Nat) (cells : List Host.Cell) (bad : List Nat) : State :=
  frames.zipIdx.foldl (fun s (f, u) =>
    let mine := cells.filterMap fun c =>
      if u * 0x200000 ≤ c.1 ∧ c.1 < u * 0x200000 + 0x200000 then some (c.1 - u * 0x200000 + f * 0x200000, c.2) else none
    let words := bad.filterMap fun w =>
      if u * 0x40000 ≤ w ∧ w < u * 0x40000 + 0x40000 then some (w - u * 0x40000 + f * 0x40000) else none
    { s with
      hbm := ⟨s.hbm.cells.filter (fun c => decide (c.1 < f * 0x200000)) ++ mine
        ++ s.hbm.cells.filter fun c => decide (f * 0x200000 + 0x200000 ≤ c.1)⟩
      hbmBad := words.foldl (fun l w => insertNat w l) s.hbmBad }) s

/-- What a checkpoint holds beside the allotment, read back. -/
def State.restoreInsts (s : State) (tag : Byte) (k : Checkpoint) : State :=
  { s with insts := k.insts.foldl (fun (l : List Inst) (e : Nat × Inst) => l.set e.1 e.2) s.insts }.modCtx tag fun c => { c with queues := k.queues, sessions := k.sessions }

/-- RESTORE_COMPLETE: the checkpoint has been read back, its tags as the argument says; the resources are granted again, and the context
is Paused. -/
def execRestoreComplete (tag : BitVec 8) (ok : Bool) (s : State) : Res :=
  match s.ctx? tag with
  | none => .next s
  | some c => match c.op with
    | some (.restore cmd) =>
      let s := s.modCtx tag fun c => { c with op := none }
      match c.checkpoint with
      | none => .next (s.refuse cmd stBadSignature)
      | some k =>
        if !ok || c.target cmd != some k.target then .next (s.refuse cmd stBadSignature)
        else match s.findResources k.grant with
          | none => .next (s.refuse cmd stNoResource)
          | some r =>
            let s := (s.takeResources tag r).modCtx tag fun c => { c with st := .paused }
            .next (((s.putCells r.frames k.bytes k.badWords).restoreInsts tag k).complete cmd 0 stOk)
    | _ => .next s

/-! ### Destruction (R270, R275) -/

/-- An instance of a destroyed context: nothing of it is left. -/
def Inst.destroyed (x : Inst) : Inst :=
  { x with st := .retired, tiles := [], nodes := [], permits := [], bars := [], barMsgs := [], notices := [] }

/-- A queue released: what it holds is discarded, and no mark is written. -/
def Queue.released (x : Queue) : Queue := { x with buf := [], held := false, started := [], marks := [], head := x.tail }

/-- A copy engine without the packets of a context. -/
def State.dropCopies (s : State) (tag : Byte) : State :=
  let mine (p : CpPkt) : Bool := s.cpTag p == tag
  { s with copy := s.copy.map fun e =>
      { e with
        waiting := e.waiting.filter fun p => !mine p
        active := e.active.filter fun a => !mine a.p
        inbox := e.inbox.filter fun u => match s.inst? u.inst with | some x => x.tag != tag | none => true
        permitIn := e.permitIn.filter fun u => match s.inst? u.2.1 with | some x => x.tag != tag | none => true } }

/-- A context destroyed (R270 steps 1 to 4): a command in progress ends with BAD_STATE, everything stops and is discarded, its sessions send
ABORT, and its keys are erased. -/
def State.destroy (s : State) (tag : Byte) : State :=
  match s.ctx? tag with
  | none => s
  | some c =>
    if c.st == .destroyed then s
    else
      let s := s.modCtx tag fun c => { c with op := none }
      let s := match c.op with
        | some (.pause cmd) | some (.evict cmd) | some (.restore cmd) => s.refuse cmd stBadState
        | none => s
      let s := s.dropCopies tag
      let s := { s with insts := s.insts.map fun (x : Inst) => if x.tag == tag then x.destroyed else x }
      (s.abortAll tag).modCtx tag fun c =>
        { c with
          st := CtxState.destroyed, keys := Keys.none, queues := c.queues.map Queue.released, krefs := [], tlb := [], tables := [], seen := [], posts := [],
          report := none, invals := [], migs := [], checkpoint := none, schedNext := none, bounce := c.bounce.map fun (b : Bounce) => { b with key := none } }

/-- DESTROY: of a Destroyed context nothing is left to do. -/
def execDestroy (cmd : Rec64) (s : State) : Res :=
  s.commandOn cmd 0x09 (fun _ => true) fun c s => (s.destroy c.tag).complete cmd 0 stOk

/-- RESET_VF: destroys the context that is bound to a VF. -/
def execResetVf (cmd : Rec64) (s : State) : Res :=
  s.command cmd 0x0A fun s => match s.ctxs.find? fun c => c.vf == cmd.extractLsb' 128 8 with
    | none => s.refuse cmd stDenied
    | some c => (s.destroy c.tag).complete cmd 0 stOk

/-- FUNCTION_LEVEL_RESET: the same, by PCIe. -/
def execFunctionLevelReset (vf : BitVec 8) (s : State) : Res :=
  match s.ctxs.find? fun c => c.vf == vf with
  | none => .next s
  | some c => .next (s.destroy c.tag)

/-- Whether a context has an ABORT still to send that a port would allow (R270, R374). -/
def State.aborting (s : State) (c : Context) : Bool :=
  s.aborts.any fun a => a.1 == c.tag && s.ports.toList.any fun p => p.reaches a.2.2.1

/-- SCRUB_COMPLETE: what a Destroyed context held is zero and free, its tag and VF with it, and it is Empty; its ABORTs are sent, and commands
held behind the one it ended are answered, first. -/
def execScrubComplete (tag : BitVec 8) (s : State) : Res :=
  match s.ctx? tag with
  | none => .next s
  | some c =>
    if c.st != .destroyed || !c.heldCmds.isEmpty || s.aborting c then .next s
    else
      let s := s.freeResources tag
      .next { s with ctxs := s.ctxs.filter fun c => c.tag != tag }

/-! ### Counters (R12, R271) -/

/-- A package counter. -/
def State.packageCounter (s : State) (id : Nat) : Nat :=
  match id with
  | 1 => s.tileCount - s.phys.countP fun p => decide (p.1 < s.tileCount) && p.2.mappedOut
  | 2 => s.plotCount - s.plots.countP fun p => decide (p.1 < s.plotCount) && p.2.quarantined
  | 3 => 254 - s.ctxs.length
  | _ => s.power

/-- READ_COUNTER. -/
def execReadCounter (cmd : Rec64) (s : State) : Res :=
  s.command cmd 0x0B fun s =>
    let id := fld cmd 128 8
    if id < 0x10 then s.complete cmd (w64 (s.packageCounter id)) stOk
    else match s.byHandle (cmdHandle cmd) with
      | none => s.refuse cmd stBadHandle
      | some c =>
        let allowed := match c.policy with | some p => p.allow.getLsbD (id - 0x10) | none => false
        if allowed then s.complete cmd (vget c.counters (id - 0x10) 0) stOk
        else
          let k : Byte := BitVec.ofNat 8 id
          let n := (lookupKey k c.denied).getD 0 + 1
          let s := (s.complete cmd 0 stDenied).modCtx c.tag fun c => { c with denied := putKey k n c.denied }
          s.audit c.tag 1 0x0B stDenied (w64 id) (w64 n)

/-! ### Attestation and sealing (R260, R261) -/

/-- The measurement of a context with a policy and a grant. -/
def State.measure (s : State) (p : Policy) (g : Grant) : Digest :=
  let peer (k : Nat) : List Byte := match (p.peers[k]?).bind id with
    | some (d, send, recv) => vecBytes 48 d ++ [BitVec.ofNat 8 ((if send then 1 else 0) + (if recv then 2 else 0))]
    | none => List.replicate 49 0
  sha384 (vecBytes 48 s.fwDigest ++ vecBytes 48 p.digest ++ toBytes 8 g.tiles ++ toBytes 8 g.plots ++ toBytes 8 g.hbm
    ++ (List.range 32).flatMap peer)

/-- The number of a state of a context. -/
def CtxState.num : CtxState → Nat
  | .building => 0 | .sealed => 1 | .running => 2 | .paused => 3 | .evicted => 4 | .destroyed => 5

/-- ATTEST: the measurement, the state and the nonce, signed; before a policy and a grant the measurement is not given (log 20). -/
def execAttest (tag : BitVec 8) (nonce : BitVec 256) (s : State) : Res :=
  match s.ctx? tag with
  | none => .next s
  | some c =>
    let m := match c.policy, c.grant with
      | some p, some g => s.measure p g
      | _, _ => Config.openDigest s.now
    .next { s with replies := s.replies ++ [(tag, .attest m c.st nonce (Config.attestSign m c.st.num nonce))] }

/-- The records held before SEAL written in order. -/
def State.writeRecords (s : State) (tag : Byte) (l : List (BitVec 256)) : State := l.foldl (fun s r => s.ringWrite tag r) s

/-- SEAL: accepted, it installs the keys and moves the context to Sealed; refused, it changes nothing and is answered. -/
def execSeal (tag : BitVec 8) (m : SealMsg) (s : State) : Res :=
  match s.ctx? tag with
  | none => .next s
  | some c =>
    let answer (s : State) (st : Byte) : Res := .next { s with replies := s.replies ++ [(tag, .seal st)] }
    match c.policy, c.grant with
    | some p, some g =>
      if c.st != .building then answer s stBadState
      else if m.expected != s.measure p g || Config.signerOf (Config.sealDigest m) m.signature != some p.tenant then answer s stBadSignature
      else
        let held := c.audit.held
        let husk := Config.drawnKey s.keysDrawn
        let s := { s with keysDrawn := s.keysDrawn + 1 }.modCtx tag fun c =>
          { c with
            st := .sealed
            sealedAt := s.now
            share := p.share
            slice := 10
            keys := { c.keys with husk := some husk, queues := (List.range 16).map fun k => m.queueKeys.getD k 0 }
            queues := Vector.ofFn fun k : Fin 16 =>
              { Queue.fresh with enabled := m.queueKeys.getD k.val 0 != 0, ring := c.queues[k].ring }
            bounce := Vector.ofFn fun k : Fin 4 => Bounce.fresh (some (m.bounceKeys.getD k.val 0))
            audit := { c.audit with va := some m.auditVa, held := [] } }
        answer (s.writeRecords tag held) stOk
    | _, _ => answer s stBadState

/-! ### Bounce channels and sealed routes (R261, R263, R273) -/

/-- Changing a bounce channel of a context. -/
def State.modBounce (s : State) (tag : Byte) (chan : BitVec 2) (f : Bounce → Bounce) : State :=
  s.modCtx tag fun c => { c with bounce := vmod c.bounce chan.toNat f }

/-- A key update of a bounce channel: a new key, and both counters at 0. -/
def State.bounceRekey (s : State) (tag : Byte) (chan : BitVec 2) : State :=
  let key := Config.drawnKey s.keysDrawn
  { s with keysDrawn := s.keysDrawn + 1 }.modBounce tag chan fun b => { b with key := some key, sent := 0, accepted := 0 }

/-- The bounce channel of a context that has keys. -/
def State.bounce? (s : State) (tag : Byte) (chan : BitVec 2) : Option Bounce :=
  ((s.ctx? tag).bind fun c => c.bounce[chan.toNat]?).filter fun b => b.key.isSome

/-- KEY_UPDATE. -/
def execKeyUpdate (tag : BitVec 8) (chan : BitVec 2) (s : State) : Res :=
  match s.bounce? tag chan with
  | none => .next s
  | some _ => .next (s.bounceRekey tag chan)

/-- The IV of a record of a bounce channel: the number of the channel and direction, and the counter of that direction. -/
def bounceIv (chan : BitVec 2) (out : Bool) (counter : W64) : BitVec 96 := counter ++ Config.bounceNumber chan out

/-- Whether a header and a payload have the lengths of a bounce record: 64 bytes, and 64 bytes to 64 KiB in multiples of 64. -/
def bounceSizes (header payload : List Byte) : Bool :=
  header.length == 64 && payload.length % 64 == 0 && within 64 65536 payload.length

/-- The next record that a bounce channel seals: its counter rises for every one. -/
def State.bounceSend (s : State) (tag : Byte) (chan : BitVec 2) (key : BitVec 256) (n : W64) (header payload : List Byte) : State :=
  let r := Config.gcmSeal key (bounceIv chan true n) header payload
  s.modBounce tag chan fun b => { b with sent := n, outbox := b.outbox ++ [⟨n, header, r.1, r.2⟩] }

/-- BOUNCE_RECORD: a record that is received is accepted where its counter is the next and its tag verifies; one of another counter is
rejected, recorded, and answered by a key update; one that does not verify, as one sealed under an old key does not, is rejected. A header
and a payload of the tenant are sealed. The argument and the command of the audit record are not given (log 20). -/
def execBounceRecord (tag : BitVec 8) (chan : BitVec 2) (m : BounceArg) (s : State) : Res :=
  match s.bounce? tag chan with
  | none => .next s
  | some b => match b.key, m with
    | none, _ => .next s
    | some key, .send header payload =>
      if bounceSizes header payload then .next (s.bounceSend tag chan key (b.sent + 1) header payload) else .next s
    | some key, .receive r =>
      if r.counter == b.accepted + 1 then
        if !bounceSizes r.header r.body then .next s
        else match Config.gcmOpen key (bounceIv chan false r.counter) r.header r.body r.tag with
          | none => .next s
          | some p => .next (s.modBounce tag chan fun b => { b with accepted := r.counter, inbox := b.inbox ++ [(r.header, p)] })
      else
        let s := s.modBounce tag chan fun b => { b with status := stCounterMismatch }
        let s := s.audit tag 4 ((Config.openUnit s.now).extractLsb' 0 8) stCounterMismatch (Config.openInfo s.now) 0
        .next (s.bounceRekey tag chan)

/-- A beat on a sealed route: its source, a VC of a tile or a fabric operator with a port, and the tile to which a fault of the route goes. -/
inductive HuskBeat where
  | tile (src vc goal : Nat)
  | node (src port goal : Nat)
deriving DecidableEq, Repr

/-- The beat of a tile of an instance that is ready for a sealed route (R263). -/
def State.huskTile (s : State) (x : Inst) (route : BitVec 32) (k : Nat) (t : Tile) : Option HuskBeat :=
  (List.range 128).findSome? fun j =>
    let v := vget t.vc j Vc.empty
    if v.ready.isEmpty then none
    else v.cur.bind fun c =>
      let on (goal : Option Nat) (home : Nat) : Option HuskBeat :=
        if goal.bind (s.sealedRoute x.tag t.phys) == some route then some (.tile k j home) else none
      match vcRoute c.1 with
      | 0 => on (x.tilePlace (vcDest c.1).toNat) (vcDest c.1).toNat
      | 1 => on (x.nodePlace (vcDest c.1)) 0
      | _ => none

/-- The beat of a fabric operator of an instance that is ready for a sealed route. -/
def State.huskNode (s : State) (x : Inst) (route : BitVec 32) (k : Nat) (n : FabNode) : Option HuskBeat :=
  (n.outs.head?).bind fun o => (x.kernel.fabEdge n.id o.1).bind fun (e, d, pos) =>
    let goal := if d.fabric then x.nodePlace e.dst else x.tilePlace (d.first + pos)
    if goal.bind (s.sealedRoute x.tag (4096 + n.plots.headD 0)) == some route then
      some (.node k o.1 (if d.fabric then 0 else d.first + pos))
    else none

/-- The beat that is ready for a sealed route. -/
def State.huskSource (s : State) (x : Inst) (route : BitVec 32) : Option HuskBeat :=
  ((x.tiles.zipIdx).findSome? fun (t, k) => s.huskTile x route k t).orElse fun _ =>
    (x.nodes.zipIdx).findSome? fun (n, k) => s.huskNode x route k n

/-- A beat that is ready for a sealed route crosses it, sealed and opened, which changes nothing of it, against the demand of its consumer. -/
def State.huskPass (s : State) (i : Nat) (x : Inst) : HuskBeat → State
  | .tile k j _ => match x.tiles[k]? with
    | none => s
    | some t => match (vget t.vc j Vc.empty).ready, (vget t.vc j Vc.empty).cur with
      | (fmt, u) :: rest, some c =>
        match s.routeUnit i k x t (BitVec.ofNat 2 (j / 32)) (BitVec.ofNat 5 (j % 32)) c.1 fmt u with
        | none => s
        | some s => s.modTile i k fun t => { t with vc := vmod t.vc j fun v => { v with ready := rest } }
      | _, _ => s
  | .node k _ _ => match x.nodes[k]? with
    | none => s
    | some n => s.fabFlush i k x n

/-- A beat that is ready for a sealed route discarded. -/
def State.huskDrop (s : State) (i : Nat) : HuskBeat → State
  | .tile k j _ => s.modTile i k fun t => { t with vc := vmod t.vc j fun v => { v with ready := v.ready.tail } }
  | .node k _ _ => s.modNode i k fun n => { n with outs := n.outs.tail }

/-- HUSK_BEAT: a beat that is ready for a sealed route of the instance in focus is sealed where it leaves its region and opened where it
re-enters, and reaches its consumer unchanged; one whose tag fails is discarded, the route carries nothing further, the consuming tile, for
a plot set the home tile, takes CHANNEL_PROTOCOL, and the failure is recorded (R263). -/
def execHuskBeat (route : BitVec 32) (ok : Bool) (s : State) : Res :=
  s.onTile fun x _ => match s.huskSource x route with
    | none => .next s
    | some b =>
      let dead := match s.ctx? x.tag with | some c => c.huskDead.contains route | none => true
      if dead then .next s
      else if ok then .next (s.huskPass s.focus.inst x b)
      else
        let goal := match b with | .tile _ _ goal => goal | .node _ _ goal => goal
        let s := s.huskDrop s.focus.inst b
        let s := s.modCtx x.tag fun c => { c with huskDead := c.huskDead ++ [route] }
        let s := s.pendFault s.focus.inst goal none
          { code := cChannel, engine := 0, info := w64 (2 ^ 63 + route.toNat), page := none }
        .next (s.audit x.tag 3 0 stBadSignature (route.setWidth 64) 0)

end Sys2Proof.Machine
end

