-- ==== Sys2Proof/Machine/Env.lean ====
section
/-! DEFINITION. What the package does about its surroundings: bring-up, sensors, power, islands, scrubbing, configuration readback,
mapping out, firmware (R19, R275, R394-R401). -/

namespace Sys2Proof.Machine

/-! ### Bring-up (R400) -/

/-- COLD_RESET: bring-up from a cold reset. What the package held is gone; the host's memory, its rings and Hazel's generator go on. A
firmware image that fails leaves the package locked; a staged Hazel image that was verified is the one that runs (R399). Tiles that were mapped
out, and plots that were quarantined, return where their die passes its self-test (R396). -/
def execColdReset (pass : BootResult) (s : State) : Res :=
  let digest := match s.fwStaged with | some d => if pass.verified then d else pass.digest | none => pass.digest
  .next { State.reset with
    dies := s.dies
    hbmFrames := s.hbmFrames
    phys := s.phys.filterMap fun p => if p.2.mappedOut && !Config.selfTest s.now (p.1 / 384) then some (p.1, { Phys.idle with mappedOut := true }) else none
    plots := s.plots.filterMap fun p => if p.2.quarantined && !Config.selfTest s.now (p.1 / 128) then some (p.1, { Plot.idle with quarantined := true }) else none
    junction := s.junction
    now := s.now
    agenda := s.agenda
    focus := s.focus
    boot := .ready
    locked := !pass.verified
    armed := pass.verified
    fwDigest := digest
    host := s.host
    iommu := s.iommu
    cmdRing := s.cmdRing
    complRing := s.complRing
    replies := s.replies
    drawn := s.drawn
    keysDrawn := s.keysDrawn }

/-! ### Sensors (R275) -/

/-- Whether a reading trips its sensor. -/
def sensorTrips : Sensor → Bool
  | .voltage mv => decide (mv < 600) || decide (1050 < mv)
  | .clock ps => decide (ps < 450)
  | .missingEdge => true
  | .oscillator mhz => decide (mhz < 700) || decide (1300 < mhz)
  | .temperature c => decide (125 < c) || decide (c < -40)

/-- The junction temperature that a reading gives. -/
def State.feel (s : State) : Sensor → State
  | .temperature c => { s with junction := c }
  | _ => s

/-- SENSOR_TRIP: every key is erased, every context enters Destroyed, every port is Isolated, and the package is locked. A temperature that does not
trip its sensor is the junction's, which the power manager reads (R398). -/
def execSensorTrip (x : Sensor) (s : State) : Res :=
  let s := s.feel x
  if !s.armed || s.locked || !sensorTrips x then .next s
  else
    let s := (s.ctxs.map (·.tag)).foldl State.destroy s
    .next { s with locked := true, ports := s.ports.map fun p => p.unpaired .isolated p.switch }

/-! ### Power and islands (R18, R19, R397, R398) -/

/-- Whether an island is one of tiles. -/
def islandOfTiles (k : Nat) : Bool := k % 4 < 2

/-- The floor of a tile island in steps of 50 MHz: the highest that the policies of the contexts whose tiles it carries give, or the
lowest frequency. -/
def State.islandFloor (s : State) (k : Nat) : Nat :=
  (s.phys.filter fun p => islandOf p.1 == k && p.2.tag != 0 && p.2.tag != 0xFF).foldl (fun m p =>
    match (s.ctx? p.2.tag).bind (·.policy) with
    | some y => Nat.max m ((y.floor + 49) / 50)
    | none => m) 18

/-- A tile island changed by a rule. -/
def State.mapIslands (s : State) (f : Nat → Nat → Nat) : State :=
  { s with islands := Vector.ofFn fun k : Fin 16 => if islandOfTiles k.val then f k.val (vget s.islands k.val 36) else vget s.islands k.val 36 }

/-- The clock generators of the package's dies changed by a rule; there are no others (R2, R11). -/
def State.mapGens (s : State) (f : Nat → Nat → Nat) : State :=
  { s with gens := Vector.ofFn fun g : Fin 32 => if g.val < 8 * s.dies then f g.val (vget s.gens g.val 800) else vget s.gens g.val 800 }

/-- One step down (R397): the fabric first; then the tile islands above their floors; then all tile islands below them, a floor breach. -/
def State.powerDown (s : State) : State :=
  let tiles := (List.range (4 * s.dies)).filter islandOfTiles
  let freq (k : Nat) : Nat := vget s.islands k 36
  if (List.range (8 * s.dies)).any fun g => decide (100 < vget s.gens g 800) then s.mapGens fun _ f => Nat.max 100 (f - 50)
  else if tiles.any fun k => decide (s.islandFloor k < freq k) then
    s.mapIslands fun k f => if s.islandFloor k < f then f - 1 else f
  else { s.mapIslands (fun _ f => Nat.max 18 (f - 1)) with floorBreaches := s.floorBreaches + 1 }

/-- One step up, in the reverse order. -/
def State.powerUp (s : State) : State :=
  let tiles := (List.range (4 * s.dies)).filter islandOfTiles
  let freq (k : Nat) : Nat := vget s.islands k 36
  if tiles.any fun k => decide (freq k < s.islandFloor k) then s.mapIslands fun k f => if f < s.islandFloor k then f + 1 else f
  else if tiles.any fun k => decide (freq k < 36) then s.mapIslands fun _ f => Nat.min 36 (f + 1)
  else s.mapGens fun g f => if f < s.genTop g then Nat.min (f + 50) (s.genTop g) else f

/-- The draw in watts above which the power manager steps down, and that below which it steps up: those of the module (R397); of a part made of
another count of dies, to which no package figure applies, its maker's (R2; log 69). -/
def State.drawLimits (s : State) : Nat × Nat := if s.dies = 4 then (3200, 3100) else Config.partDraw s.dies

/-- Whether a draw is in excess: above the limit, or the junction is hotter than 105 °C (R398). -/
def State.excess (s : State) (watts : Nat) : Bool := decide (s.drawLimits.1 < watts) || decide (105 < s.junction)

/-- POWER_SAMPLE: the power manager samples the draw, and steps the islands down while it is in excess, and up while it is below the lower
limit. -/
def execPowerSample (watts : Nat) (s : State) : Res :=
  let s := { s with power := watts }
  .next (if s.excess watts then s.powerDown else if watts < s.drawLimits.2 then s.powerUp else s)

/-- ISLAND_FREQUENCY_CHANGE: an island's frequency in steps of 50 MHz, within its range; the generators of a fabric island. -/
def execIslandFrequencyChange (island : Nat) (steps : Nat) (s : State) : Res :=
  if 4 * s.dies ≤ island then .next s
  else if islandOfTiles island then
    if 18 ≤ steps ∧ steps ≤ 36 then .next { s with islands := vmod s.islands island fun _ => steps } else .next s
  else if island % 4 = 2 then
    if 2 ≤ steps ∧ steps ≤ 16 then
      .next { s with gens := Vector.ofFn fun g : Fin 32 =>
        if g.val / 8 == island / 4 then Nat.min (50 * steps) (s.genTop g.val) else vget s.gens g.val 800 }
    else .next s
  else .next { s with islands := vmod s.islands island fun _ => steps }

/-! ### Errors (R394-R396) -/

/-- PATROL_SCRUB: a word that is right, or wrong by what its code corrects, one bit or one symbol, is as it was; one that is not corrected is
uncorrectable from then on, until a store gives it new check bits. An HBM code word is 32 bytes, a slice's 8. An uncorrectable error in the SRAM of
a tile counts for its being mapped out (R396), in whatever memory of it (log 86). -/
def execPatrolScrub (loc : ScrubLoc) (wrong : Nat) (s : State) : Res :=
  let counted (s : State) (p : Nat) : State := if p = noPhys then s else s.modPhys p fun p => { p with errors := p.errors + 1 }
  if wrong < 2 then .next s
  else match loc with
    | .sram p => .next (if p < s.tileCount then counted s p else s)
    | .hbm w =>
      let ws := (List.range 4).map fun k => w / 4 * 4 + k
      .next { s with hbmBad := ws.foldl (fun l k => insertNat k l) s.hbmBad }
    | .slice i t w => match s.tile? i t with
      | none => .next s
      | some y =>
        if sliceSize ≤ 8 * w then .next s
        else
          .next (counted (s.modTile i t fun y => { y with bad := insertNat w y.bad }) y.phys)

/-- The instance and the place of the fabric operator that stands on a plot. -/
def State.nodeOnPlot (s : State) (plot : Nat) : Option (Nat × Nat) :=
  s.insts.zipIdx.findSome? fun (x, i) =>
    if x.st == .retired then none else (x.nodes.findIdx? fun n => n.placed && n.plots.contains plot).map fun k => (i, k)

/-- CONFIG_READBACK: an uncorrectable error of a plot's configuration stops its plot set, quarantines the plot, and faults the home tile
of the instance (R395). -/
def execConfigReadback (plot : Nat) (r : ReadbackResult) (s : State) : Res :=
  if r != .uncorrectable || s.plotCount ≤ plot then .next s
  else
    let q (s : State) : State := s.modPlot plot fun p => { p with quarantined := true }
    match s.nodeOnPlot plot with
    | none => .next (q s)
    | some (i, k) =>
      let id : Nat := match (s.inst? i).bind fun x => x.nodes[k]? with | some n => n.id.toNat | none => 0
      let s := q (s.modNode i k fun n => { n with stopped := true })
      .next (s.pendFault i 0 none { code := cUncorrectable, engine := 0, info := w64 id, page := none })

/-- TILE_MAP_OUT: a tile after a second uncorrectable error, or at Idpor's request, is mapped out; one that holds no state is Hazel's at
once, one that does is claimed (R266). -/
def execTileMapOut (phys : Nat) (byIdpor : Bool) (s : State) : Res :=
  let y := s.physAt phys
  if s.tileCount ≤ phys || y.mappedOut || !(byIdpor || decide (2 ≤ y.errors)) then .next s
  else
    let s := s.modPhys phys fun p => { p with mappedOut := true }
    match s.onPhys phys with
    | some _ => .next s
    | none => .next (if y.tag = 0 then s else s.tagPhys phys 0xFF)

/-! ### Firmware (R399) -/

/-- FIRMWARE_STAGE: an image of Hazel's firmware that Hazel verifies runs from the next cold reset on; any other firmware that it verifies
takes effect between time slices, and changes nothing that is seen of the package: the native images are discarded (R303). -/
def execFirmwareStage (hazel : Bool) (digest : Digest) (verified : Bool) (s : State) : Res :=
  if verified && hazel && s.boot == .ready then .next { s with fwStaged := some digest } else .next s

end Sys2Proof.Machine
end

