-- ==== Sys2Proof/Machine/Memory.lean ====
section
/-! DEFINITION. Loads, stores, full/empty instructions, atomics, WAITA, FENCE and SBAR when they fire (R152-R161). -/

namespace Sys2Proof.Machine

/-! ### Loads (R34, R144, R152, R153) -/

/-- The code of a reply that a load or an atomic received from a peer, raised as its fault (R372, R374). -/
def Fire.replyFault (f : Fire) (code : Byte) (i : BitVec 5) (write : Bool) (va v : W64) : Res :=
  f.fault code (if code == cPeerLost then w64 i.toNat else accInfo f.slot write va)
    (if code == cPeerLost then none else some (pageContent (replyPage i v) code 1 write va))

/-- Whether a store that the tile has committed and not yet sent to a peer holds bytes that a load there takes: the load is sent behind it,
so that it reads that store or a later one (R144, R145, R371). -/
def Fire.behindStore (f : Fire) (i : BitVec 5) (l : Loc) (n : Nat) : Bool :=
  let sent := match f.s.session? f.x.tag i with
    | some x => x.stores.any fun q => q.inst == f.s.focus.inst && q.tile == f.s.focus.tile && q.who == whoStore
    | none => false
  sbufOverlaps (if sent then f.t.sbuf.tail else f.t.sbuf) l n

/-- A load whose access is checked and held by nothing: the value from a peer, or from the home with the tile's own stores; the block's
lower-LSID stores over it (R34, R144). -/
def Fire.loadFrom (f : Fire) (ls : BitVec 5) (sz : Size) (ext : W64 → W64) (va : W64) (l : Loc) : Res :=
  match l with
  | .remote i v =>
    let q : Ask := ⟨f.s.focus.inst, f.s.focus.tile, f.slot, v⟩
    if f.behindStore i l sz.bytes then .next f.s
    else match f.s.askPeer f.x.tag i q (.read v sz) with
    | (none, s) => .next s
    | (some (.failed code), s) => { f with s := s.tookPeer f.x.tag i q }.replyFault code i false va v
    | (some (.data d), s) =>
      { f with s := s.tookPeer f.x.tag i q }.done
        { send := some (ext (wordOf (forwardBytes f.b.effs ls.toNat l sz.bytes (bytesOf sz.bytes d)))), loc := some l }
  | _ =>
    if f.s.badLoc f.s.focus.inst l sz.bytes && !ownBytes f.t.sbuf f.b.effs ls.toNat l sz.bytes then f.fault cUncorrectable (accInfo f.slot false va) none
    else
      let bs := f.s.readOwn f.s.focus.inst f.t l sz.bytes
      { f with s := f.s.hbmBytes f.x.tag false l sz.bytes }.done
        { send := some (ext (wordOf (forwardBytes f.b.effs ls.toNat l sz.bytes bs))), loc := some l }

/-- The firing of a load: it keeps the order of the block's loads (R144), is checked (R136), and waits for the addresses of the
lower LSIDs (R34), for a FENCE, for a reservation, for a copy in the middle of its granule (R150) and, for LDF, for a full granule. -/
def fireLoad (i : Instr) (s : State) (ls : BitVec 5) (sz : Size) (off : BitVec 24) (full : Bool) (ext : W64 → W64) : Res :=
  fireWord i s none fun f =>
    if f.behindLoad then .next s
    else
      let va := f.addr off
      f.checked ⟨.read, sz.bytes, full, true⟩ va false fun l =>
        if !f.lowerKnown l sz.bytes || f.held l sz.bytes || s.midCopy s.focus.inst l || (full && !s.fullFor s.focus.inst f.t l) then .next s
        else f.loadFrom ls sz ext va l

/-- The low 8 n bits of a word, sign-extended. -/
def signExt (n : Nat) (v : W64) : W64 := (v.extractLsb' 0 (8 * n)).signExtend 64

/-- LD: loads, zero-extended. -/
def execLd (h : Head) (ls : BitVec 5) (sz : Size) (off : BitVec 24) (s : State) : Res :=
  fireLoad (.ld h ls sz off) s ls sz off false id

/-- LDS: loads, sign-extended. -/
def execLds (h : Head) (ls : BitVec 5) (sz : Size) (off : BitVec 24) (s : State) : Res :=
  fireLoad (.lds h ls sz off) s ls sz off false (signExt sz.bytes)

/-- LDF: waits until the granule is full, then loads as LD. -/
def execLdf (h : Head) (ls : BitVec 5) (sz : Size) (off : BitVec 24) (s : State) : Res :=
  fireLoad (.ldf h ls sz off) s ls sz off true id

/-! ### Stores and commit-time operations when they fire (R136, R152-R157) -/

/-- A side-effecting access when it fires: its address is checked, and its effect waits for commit. -/
def fireAccess (i : Instr) (s : State) (r : AccReq) (off : BitVec 24) (write : Bool) (e : Fire → Loc → Eff) : Res :=
  fireWord i s none fun f =>
    let va := f.addr off
    f.checked r va write fun l => f.done { eff := some (e f l, va) }

/-- ST: the store is released at commit. -/
def execSt (h : Head) (ls : BitVec 5) (sz : Size) (off : BitVec 24) (s : State) : Res :=
  fireAccess (.st h ls sz off) s (.plain .write sz.bytes) off true fun f l => .store l sz.bytes f.right

/-- STF: as ST, and the granule becomes full. -/
def execStf (h : Head) (ls : BitVec 5) (sz : Size) (off : BitVec 24) (s : State) : Res :=
  fireAccess (.stf h ls sz off) s ⟨.write, sz.bytes, true, true⟩ off true fun f l => .storeFull l sz.bytes f.right

/-- EMPTY: the granule becomes empty at commit. -/
def execEmpty (h : Head) (ls : BitVec 5) (off : BitVec 24) (s : State) : Res :=
  fireAccess (.empty h ls off) s ⟨.write, 64, true, true⟩ off true fun _ l => .empty l

/-- LDF.TAKE: waits for a full granule when it fires, to which an STF of its own block adds nothing; takes it at commit (R154). -/
def execLdfTake (h : Head) (ls : BitVec 5) (sz : Size) (g : BitVec 5) (off : BitVec 24) (s : State) : Res :=
  fireWord (.ldfTake h ls sz g off) s none fun f =>
    let va := f.addr off
    f.checked ⟨.atomic, sz.bytes, true, true⟩ va true fun l =>
      if s.fullFor s.focus.inst f.t l then f.done { eff := some (.take l sz.bytes g, va) }
      else .next s

/-- WAITA: checked when it fires; compares and parks at commit (R157). -/
def execWaita (h : Head) (ls : BitVec 5) (g : BitVec 5) (off : BitVec 24) (s : State) : Res :=
  fireAccess (.waita h ls g off) s ⟨.read, 8, true, true⟩ off false fun f l => .waita l f.right g

/-- An atomic when it fires (R156): its access check, and for ACAS the comparand from the g register. -/
def fireAtomic (i : Instr) (s : State) (op : AtomicOp) (wide : Bool) (g : BitVec 5) (off : BitVec 24) : Res :=
  let n := if wide then 8 else 4
  fireAccess i s ⟨.atomic, n, false, op == .add || op == .swp || op == .cas⟩ off true
    fun f l => .atomic op l n f.right (f.t.greg g) g

/-- AADD. -/
def execAadd (h : Head) (ls : BitVec 5) (wide : Bool) (g : BitVec 5) (off : BitVec 24) (s : State) : Res :=
  fireAtomic (.aadd h ls wide g off) s .add wide g off

/-- ASWP. -/
def execAswp (h : Head) (ls : BitVec 5) (wide : Bool) (g : BitVec 5) (off : BitVec 24) (s : State) : Res :=
  fireAtomic (.aswp h ls wide g off) s .swp wide g off

/-- ACAS. -/
def execAcas (h : Head) (ls : BitVec 5) (wide : Bool) (g : BitVec 5) (off : BitVec 24) (s : State) : Res :=
  fireAtomic (.acas h ls wide g off) s .cas wide g off

/-- AAND. -/
def execAand (h : Head) (ls : BitVec 5) (wide : Bool) (g : BitVec 5) (off : BitVec 24) (s : State) : Res :=
  fireAtomic (.aand h ls wide g off) s .and wide g off

/-- AOR. -/
def execAor (h : Head) (ls : BitVec 5) (wide : Bool) (g : BitVec 5) (off : BitVec 24) (s : State) : Res :=
  fireAtomic (.aor h ls wide g off) s .or wide g off

/-- AXOR. -/
def execAxor (h : Head) (ls : BitVec 5) (wide : Bool) (g : BitVec 5) (off : BitVec 24) (s : State) : Res :=
  fireAtomic (.axor h ls wide g off) s .xor wide g off

/-- AMIN. -/
def execAmin (h : Head) (ls : BitVec 5) (wide : Bool) (g : BitVec 5) (off : BitVec 24) (s : State) : Res :=
  fireAtomic (.amin h ls wide g off) s .min wide g off

/-- AMAX. -/
def execAmax (h : Head) (ls : BitVec 5) (wide : Bool) (g : BitVec 5) (off : BitVec 24) (s : State) : Res :=
  fireAtomic (.amax h ls wide g off) s .max wide g off

/-- AMINU. -/
def execAminu (h : Head) (ls : BitVec 5) (wide : Bool) (g : BitVec 5) (off : BitVec 24) (s : State) : Res :=
  fireAtomic (.aminu h ls wide g off) s .minu wide g off

/-- AMAXU. -/
def execAmaxu (h : Head) (ls : BitVec 5) (wide : Bool) (g : BitVec 5) (off : BitVec 24) (s : State) : Res :=
  fireAtomic (.amaxu h ls wide g off) s .maxu wide g off

/-! ### FENCE and SBAR (R160, R161) -/

/-- FENCE: the accesses of the block that issue from here on, and those of later blocks, wait as its scope says. -/
def execFence (h : Head) (scope : Scope) (s : State) : Res :=
  fireWord (.fence h scope) s none fun f => f.done { fence := some scope }

/-- SBAR: the streams of its mask issue no access until the block commits. -/
def execSbar (h : Head) (mask : BitVec 16) (s : State) : Res :=
  fireWord (.sbar h mask) s none fun f => f.done { sbar := mask }

end Sys2Proof.Machine
end

