-- ==== Sys2Proof/Machine/Values.lean ====
section
/-! DEFINITION. Moving values, branches, scalar arithmetic, tests, special registers, TRAP and HRET (R113-R132). -/

namespace Sys2Proof.Machine

/-! ### Moving values (R114) -/

/-- READ: sends the value the register held after the previous commit (R33). -/
def execRead (h : Head) (g : BitVec 5) (s : State) : Res :=
  fireWord (.read h g) s none fun f => f.done { send := some (f.t.greg g) }

/-- WRITE: at commit the register takes the left operand. -/
def execWrite (h : Head) (g : BitVec 5) (s : State) : Res :=
  fireWord (.write h g) s (some g) fun f => f.done { write := some (g, f.left) }

/-- NULL: sends a null token and settles void every LSID of its mask (R31). -/
def execNull (h : Head) (settle : BitVec 32) (s : State) : Res :=
  fireWord (.null h settle) s none fun f => f.done { null := some settle }

/-- MOV: sends its operand. -/
def execMov (h : Head) (s : State) : Res := fireValue (.mov h) s fun a _ => a

/-- MOVI: sends its immediate, sign-extended. -/
def execMovi (h : Head) (imm : BitVec 36) (s : State) : Res := fireValue (.movi h imm) s fun _ _ => imm.signExtend 64

/-- MOVHI: sends its immediate above bits 31:0 of its operand. -/
def execMovhi (h : Head) (imm : BitVec 32) (s : State) : Res :=
  fireValue (.movhi h imm) s fun a _ => imm ++ a.extractLsb' 0 32

/-- ADRB: sends the header address plus 16 times its offset. -/
def execAdrb (h : Head) (exit : BitVec 3) (off : BitVec 33) (s : State) : Res :=
  fireWord (.adrb h exit off) s none fun f => f.done { send := some (placeOf f.b.header off) }

/-! ### Branches (R115-R118) -/

/-- BR: next is the header plus 16 times the offset. -/
def execBr (h : Head) (exit : BitVec 3) (off : BitVec 33) (s : State) : Res :=
  fireWord (.br h exit off) s none fun f => f.done { branch := some (.to (placeOf f.b.header off)) }

/-- BRR: next is the operand. -/
def execBrr (h : Head) (s : State) : Res :=
  fireWord (.brr h) s none fun f => f.done { branch := some (.to f.left) }

/-- The return address of a call: the first byte after the block (R115). -/
def Block.returnAddress (b : Block) : W64 := b.header + w64 b.size

/-- CALL: branches as BR does and sends the return address. -/
def execCall (h : Head) (exit : BitVec 3) (off : BitVec 33) (s : State) : Res :=
  fireWord (.call h exit off) s none fun f =>
    f.done { branch := some (.to (placeOf f.b.header off)), send := some f.b.returnAddress }

/-- CALLR: branches as BRR does and sends the return address. -/
def execCallr (h : Head) (s : State) : Res :=
  fireWord (.callr h) s none fun f => f.done { branch := some (.to f.left), send := some f.b.returnAddress }

/-- HALT: no next; at commit the tile's part ends (R117). -/
def execHalt (h : Head) (s : State) : Res := fireWord (.halt h) s none fun f => f.done { branch := some .halt }

/-- YIELD: next as BR; the offer to the schedule is taken up, or not, by a TILE_PREEMPT at the boundary (R118). -/
def execYield (h : Head) (exit : BitVec 3) (off : BitVec 33) (s : State) : Res :=
  fireWord (.yield h exit off) s none fun f => f.done { branch := some (.yield (placeOf f.b.header off)) }

/-! ### Integer and address arithmetic (R119, R120) -/

/-- ADD: a + b. -/
def execAdd (h : Head) (s : State) : Res := fireValue (.add h) s fun a b => a + b

/-- ADDI: a plus the sign-extended immediate. -/
def execAddi (h : Head) (imm : BitVec 32) (s : State) : Res := fireValue (.addi h imm) s fun a _ => a + imm.signExtend 64

/-- SUB: a − b. -/
def execSub (h : Head) (s : State) : Res := fireValue (.sub h) s fun a b => a - b

/-- SUBI: a minus the sign-extended immediate. -/
def execSubi (h : Head) (imm : BitVec 32) (s : State) : Res := fireValue (.subi h imm) s fun a _ => a - imm.signExtend 64

/-- MUL: the low 64 bits of a × b. -/
def execMul (h : Head) (s : State) : Res := fireValue (.mul h) s fun a b => a * b

/-- MULI: the low 64 bits of a times the sign-extended immediate. -/
def execMuli (h : Head) (imm : BitVec 32) (s : State) : Res := fireValue (.muli h imm) s fun a _ => a * imm.signExtend 64

/-- Bits 127:64 of a signed product. -/
def mulHigh (a b : W64) : W64 := ((a.signExtend 128) * (b.signExtend 128)).extractLsb' 64 64

/-- Bits 127:64 of an unsigned product. -/
def mulHighU (a b : W64) : W64 := ((a.setWidth 128) * (b.setWidth 128)).extractLsb' 64 64

/-- MULH: the high half of the signed product. -/
def execMulh (h : Head) (s : State) : Res := fireValue (.mulh h) s mulHigh

/-- MULHU: the high half of the unsigned product. -/
def execMulhu (h : Head) (s : State) : Res := fireValue (.mulhu h) s mulHighU

/-- A division (R120): INTEGER_DIVIDE_BY_ZERO for a zero divisor, else a function of the operands. -/
def fireDivide (i : Instr) (s : State) (v : W64 → W64 → W64) : Res :=
  fireWord i s none fun f =>
    if f.right = 0 then f.fault cDivZero (w64 f.slot) none else f.done { send := some (v f.left f.right) }

/-- DIV: the signed quotient, rounded toward zero and wrapped. -/
def execDiv (h : Head) (s : State) : Res := fireDivide (.div h) s fun a b => BitVec.ofInt 64 (a.toInt.tdiv b.toInt)

/-- DIVU: the unsigned quotient. -/
def execDivu (h : Head) (s : State) : Res := fireDivide (.divu h) s fun a b => a / b

/-- REM: the signed remainder, with the sign of a or zero. -/
def execRem (h : Head) (s : State) : Res := fireDivide (.rem h) s fun a b => BitVec.ofInt 64 (a.toInt.tmod b.toInt)

/-- REMU: the unsigned remainder. -/
def execRemu (h : Head) (s : State) : Res := fireDivide (.remu h) s fun a b => a % b

/-- AND. -/
def execAndW (h : Head) (s : State) : Res := fireValue (.andW h) s fun a b => a &&& b

/-- ANDI. -/
def execAndi (h : Head) (imm : BitVec 32) (s : State) : Res := fireValue (.andi h imm) s fun a _ => a &&& imm.signExtend 64

/-- OR. -/
def execOrW (h : Head) (s : State) : Res := fireValue (.orW h) s fun a b => a ||| b

/-- ORI. -/
def execOri (h : Head) (imm : BitVec 32) (s : State) : Res := fireValue (.ori h imm) s fun a _ => a ||| imm.signExtend 64

/-- XOR. -/
def execXorW (h : Head) (s : State) : Res := fireValue (.xorW h) s fun a b => a ^^^ b

/-- XORI. -/
def execXori (h : Head) (imm : BitVec 32) (s : State) : Res := fireValue (.xori h imm) s fun a _ => a ^^^ imm.signExtend 64

/-- SHL: by bits 5:0 of b. -/
def execShl (h : Head) (s : State) : Res := fireValue (.shl h) s fun a b => a <<< (b.extractLsb' 0 6).toNat

/-- SHLI. -/
def execShli (h : Head) (n : BitVec 6) (s : State) : Res := fireValue (.shli h n) s fun a _ => a <<< n.toNat

/-- SHR: logical, by bits 5:0 of b. -/
def execShr (h : Head) (s : State) : Res := fireValue (.shr h) s fun a b => a >>> (b.extractLsb' 0 6).toNat

/-- SRA: arithmetic, by bits 5:0 of b. -/
def execSra (h : Head) (s : State) : Res := fireValue (.sra h) s fun a b => a.sshiftRight (b.extractLsb' 0 6).toNat

/-- SHRI. -/
def execShri (h : Head) (n : BitVec 6) (s : State) : Res := fireValue (.shri h n) s fun a _ => a >>> n.toNat

/-- SRAI. -/
def execSrai (h : Head) (n : BitVec 6) (s : State) : Res := fireValue (.srai h n) s fun a _ => a.sshiftRight n.toNat

/-- The field of a of wm + 1 bits from bit lb. -/
def bitField (a : W64) (lb wm : BitVec 6) : BitVec (wm.toNat + 1) := a.extractLsb' lb.toNat (wm.toNat + 1)

/-- EXT: a bit field, zero-extended. -/
def execExt (h : Head) (lb : BitVec 6) (wm : BitVec 6) (s : State) : Res :=
  fireValue (.ext h lb wm) s fun a _ => (bitField a lb wm).setWidth 64

/-- EXTS: a bit field, sign-extended from its top bit. -/
def execExts (h : Head) (lb : BitVec 6) (wm : BitVec 6) (s : State) : Res :=
  fireValue (.exts h lb wm) s fun a _ => (bitField a lb wm).signExtend 64

/-- The number of zero bits above the highest 1; 64 for 0. -/
def leadingZeros (a : W64) : Nat := if a = 0 then 64 else 63 - Nat.log2 a.toNat

/-- The number of 1 bits. -/
def onesOf (a : W64) : Nat := (List.range 64).countP fun k => a.getLsbD k

/-- CLZ: the count of leading zeros. -/
def execClz (h : Head) (s : State) : Res := fireValue (.clz h) s fun a _ => w64 (leadingZeros a)

/-- POPC: the count of ones. -/
def execPopc (h : Head) (s : State) : Res := fireValue (.popc h) s fun a _ => w64 (onesOf a)

/-- MIN: the signed smaller. -/
def execMin (h : Head) (s : State) : Res := fireValue (.min h) s fun a b => if a.slt b then a else b

/-- MINU: the unsigned smaller. -/
def execMinu (h : Head) (s : State) : Res := fireValue (.minu h) s fun a b => if a.ult b then a else b

/-- MAX: the signed larger. -/
def execMax (h : Head) (s : State) : Res := fireValue (.max h) s fun a b => if a.slt b then b else a

/-- MAXU: the unsigned larger. -/
def execMaxu (h : Head) (s : State) : Res := fireValue (.maxu h) s fun a b => if a.ult b then b else a

/-- SEXTB. -/
def execSextb (h : Head) (s : State) : Res := fireValue (.sextb h) s fun a _ => (a.extractLsb' 0 8).signExtend 64

/-- SEXTH. -/
def execSexth (h : Head) (s : State) : Res := fireValue (.sexth h) s fun a _ => (a.extractLsb' 0 16).signExtend 64

/-- SEXTW. -/
def execSextw (h : Head) (s : State) : Res := fireValue (.sextw h) s fun a _ => (a.extractLsb' 0 32).signExtend 64

/-- LEA: a plus b shifted left by the scale. -/
def execLea (h : Head) (sc : BitVec 2) (s : State) : Res := fireValue (.lea h sc) s fun a b => a + b <<< sc.toNat

/-! ### Tests (R121) -/

/-- TEQ: equal. -/
def execTeq (h : Head) (s : State) : Res := fireValue (.teq h) s fun a b => boolW (a == b)

/-- TEQI: equal to the immediate. -/
def execTeqi (h : Head) (imm : BitVec 32) (s : State) : Res :=
  fireValue (.teqi h imm) s fun a _ => boolW (a == imm.signExtend 64)

/-- TNE: not equal. -/
def execTne (h : Head) (s : State) : Res := fireValue (.tne h) s fun a b => boolW (a != b)

/-- TNEI: not equal to the immediate. -/
def execTnei (h : Head) (imm : BitVec 32) (s : State) : Res :=
  fireValue (.tnei h imm) s fun a _ => boolW (a != imm.signExtend 64)

/-- TLT: signed less than. -/
def execTlt (h : Head) (s : State) : Res := fireValue (.tlt h) s fun a b => boolW (a.slt b)

/-- TLTU: unsigned less than. -/
def execTltu (h : Head) (s : State) : Res := fireValue (.tltu h) s fun a b => boolW (a.ult b)

/-- TLTI: signed less than the immediate. -/
def execTlti (h : Head) (imm : BitVec 32) (s : State) : Res :=
  fireValue (.tlti h imm) s fun a _ => boolW (a.slt (imm.signExtend 64))

/-- TLTIU: unsigned less than the sign-extended immediate. -/
def execTltiu (h : Head) (imm : BitVec 32) (s : State) : Res :=
  fireValue (.tltiu h imm) s fun a _ => boolW (a.ult (imm.signExtend 64))

/-- TLE: signed at most. -/
def execTle (h : Head) (s : State) : Res := fireValue (.tle h) s fun a b => boolW (a.sle b)

/-- TLEU: unsigned at most. -/
def execTleu (h : Head) (s : State) : Res := fireValue (.tleu h) s fun a b => boolW (a.ule b)

/-- TLEI: signed at most the immediate. -/
def execTlei (h : Head) (imm : BitVec 32) (s : State) : Res :=
  fireValue (.tlei h imm) s fun a _ => boolW (a.sle (imm.signExtend 64))

/-- TLEIU: unsigned at most the sign-extended immediate. -/
def execTleiu (h : Head) (imm : BitVec 32) (s : State) : Res :=
  fireValue (.tleiu h imm) s fun a _ => boolW (a.ule (imm.signExtend 64))

/-- TGT: signed greater than. -/
def execTgt (h : Head) (s : State) : Res := fireValue (.tgt h) s fun a b => boolW (b.slt a)

/-- TGTU: unsigned greater than. -/
def execTgtu (h : Head) (s : State) : Res := fireValue (.tgtu h) s fun a b => boolW (b.ult a)

/-- TGTI: signed greater than the immediate. -/
def execTgti (h : Head) (imm : BitVec 32) (s : State) : Res :=
  fireValue (.tgti h imm) s fun a _ => boolW ((imm.signExtend 64).slt a)

/-- TGTIU: unsigned greater than the sign-extended immediate. -/
def execTgtiu (h : Head) (imm : BitVec 32) (s : State) : Res :=
  fireValue (.tgtiu h imm) s fun a _ => boolW ((imm.signExtend 64).ult a)

/-- TGE: signed at least. -/
def execTge (h : Head) (s : State) : Res := fireValue (.tge h) s fun a b => boolW (b.sle a)

/-- TGEU: unsigned at least. -/
def execTgeu (h : Head) (s : State) : Res := fireValue (.tgeu h) s fun a b => boolW (b.ule a)

/-- TGEI: signed at least the immediate. -/
def execTgei (h : Head) (imm : BitVec 32) (s : State) : Res :=
  fireValue (.tgei h imm) s fun a _ => boolW ((imm.signExtend 64).sle a)

/-- TGEIU: unsigned at least the sign-extended immediate. -/
def execTgeiu (h : Head) (imm : BitVec 32) (s : State) : Res :=
  fireValue (.tgeiu h imm) s fun a _ => boolW ((imm.signExtend 64).ule a)

/-- TBIT: bit n. -/
def execTbit (h : Head) (n : BitVec 6) (s : State) : Res := fireValue (.tbit h n) s fun a _ => boolW (a.getLsbD n.toNat)

/-! ### Special registers, TRAP and HRET (R129-R132) -/

/-- MFS: sends a special register as it stands when it fires. -/
def execMfs (h : Head) (r : SReg) (s : State) : Res :=
  fireWord (.mfs h r) s none fun f => f.done { send := some (f.t.sreg f.x s.focus.tile r) }

/-- The checks of R130 on a value for sr.hvec or sr.wto: the fault code, or none. -/
def plainFault (r : PlainSReg) (v : W64) : Option Byte :=
  match r with
  | .hvec => if fld v 0 4 != 0 then some cMisaligned else none
  | .wto => if fld v 48 16 != 0 then some cIllegal else none

/-- MTS to sr.hvec or sr.wto: its checks at firing, the register at commit. -/
def execMts (h : Head) (ls : BitVec 5) (r : PlainSReg) (s : State) : Res :=
  fireWord (.mts h ls r) s none fun f =>
    match plainFault r f.left with
    | some c => f.fault c (w64 f.slot) none
    | none => f.done { eff := some (.mts r f.left, 0) }

/-- MTS to sr.fmode (R123, R130). -/
def execMtsFmode (h : Head) (ls : BitVec 5) (s : State) : Res :=
  fireWord (.mtsFmode h ls) s none fun f =>
    if fmodeOk f.left then f.done { eff := some (.mtsFmode f.left, 0) } else f.fault cIllegal (w64 f.slot) none

/-- MTS to sr.fflags (R124, R130). -/
def execMtsFflags (h : Head) (ls : BitVec 5) (s : State) : Res :=
  fireWord (.mtsFflags h ls) s none fun f =>
    if fld f.left 22 42 != 0 then f.fault cIllegal (w64 f.slot) none
    else f.done { eff := some (.mtsFflags f.left, 0) }

/-- MTS to sr.epc: PERMISSION outside handler mode, MISALIGNED for a value that is no multiple of 16 (R130). -/
def execMtsEpc (h : Head) (ls : BitVec 5) (s : State) : Res :=
  fireWord (.mtsEpc h ls) s none fun f =>
    if !f.t.handler then f.fault cPermission (w64 f.slot) none
    else if fld f.left 0 4 != 0 then f.fault cMisaligned (w64 f.slot) none
    else f.done { eff := some (.mtsEpc f.left, 0) }

/-- TRAP: marks the block; the trap is taken after its commit (R131). -/
def execTrap (h : Head) (code : BitVec 16) (s : State) : Res :=
  fireWord (.trap h code) s none fun f => f.done { trap := some code }

/-- HRET: a branch to sr.epc that ends handler mode at commit; PERMISSION outside it (R132). -/
def execHret (h : Head) (s : State) : Res :=
  fireWord (.hret h) s none fun f =>
    if f.t.handler then f.done { branch := some .hret } else f.fault cPermission (w64 f.slot) none

end Sys2Proof.Machine
end

