-- ==== Sys2Proof/Machine/Dispatch.lean ====
section
/-! DEFINITION. The dispatch: one arm per constructor of Instr, each one direct call of its meaning. -/

namespace Sys2Proof.Machine

/-- The meaning of an instruction or step at a state. -/
def exec (i : Instr) (s : State) : Host.Outcome State Fault Refusal :=
  match i with
  | .read h g => Sys2Proof.Machine.execRead h g s
  | .write h g => Sys2Proof.Machine.execWrite h g s
  | .null h settle => Sys2Proof.Machine.execNull h settle s
  | .mov h => Sys2Proof.Machine.execMov h s
  | .movi h imm => Sys2Proof.Machine.execMovi h imm s
  | .movhi h imm => Sys2Proof.Machine.execMovhi h imm s
  | .adrb h exit off => Sys2Proof.Machine.execAdrb h exit off s
  | .br h exit off => Sys2Proof.Machine.execBr h exit off s
  | .brr h => Sys2Proof.Machine.execBrr h s
  | .call h exit off => Sys2Proof.Machine.execCall h exit off s
  | .callr h => Sys2Proof.Machine.execCallr h s
  | .halt h => Sys2Proof.Machine.execHalt h s
  | .yield h exit off => Sys2Proof.Machine.execYield h exit off s
  | .add h => Sys2Proof.Machine.execAdd h s
  | .addi h imm => Sys2Proof.Machine.execAddi h imm s
  | .sub h => Sys2Proof.Machine.execSub h s
  | .subi h imm => Sys2Proof.Machine.execSubi h imm s
  | .mul h => Sys2Proof.Machine.execMul h s
  | .muli h imm => Sys2Proof.Machine.execMuli h imm s
  | .mulh h => Sys2Proof.Machine.execMulh h s
  | .mulhu h => Sys2Proof.Machine.execMulhu h s
  | .div h => Sys2Proof.Machine.execDiv h s
  | .divu h => Sys2Proof.Machine.execDivu h s
  | .rem h => Sys2Proof.Machine.execRem h s
  | .remu h => Sys2Proof.Machine.execRemu h s
  | .andW h => Sys2Proof.Machine.execAndW h s
  | .andi h imm => Sys2Proof.Machine.execAndi h imm s
  | .orW h => Sys2Proof.Machine.execOrW h s
  | .ori h imm => Sys2Proof.Machine.execOri h imm s
  | .xorW h => Sys2Proof.Machine.execXorW h s
  | .xori h imm => Sys2Proof.Machine.execXori h imm s
  | .shl h => Sys2Proof.Machine.execShl h s
  | .shli h n => Sys2Proof.Machine.execShli h n s
  | .shr h => Sys2Proof.Machine.execShr h s
  | .sra h => Sys2Proof.Machine.execSra h s
  | .shri h n => Sys2Proof.Machine.execShri h n s
  | .srai h n => Sys2Proof.Machine.execSrai h n s
  | .ext h lb wm => Sys2Proof.Machine.execExt h lb wm s
  | .exts h lb wm => Sys2Proof.Machine.execExts h lb wm s
  | .clz h => Sys2Proof.Machine.execClz h s
  | .popc h => Sys2Proof.Machine.execPopc h s
  | .min h => Sys2Proof.Machine.execMin h s
  | .minu h => Sys2Proof.Machine.execMinu h s
  | .max h => Sys2Proof.Machine.execMax h s
  | .maxu h => Sys2Proof.Machine.execMaxu h s
  | .sextb h => Sys2Proof.Machine.execSextb h s
  | .sexth h => Sys2Proof.Machine.execSexth h s
  | .sextw h => Sys2Proof.Machine.execSextw h s
  | .lea h sc => Sys2Proof.Machine.execLea h sc s
  | .teq h => Sys2Proof.Machine.execTeq h s
  | .teqi h imm => Sys2Proof.Machine.execTeqi h imm s
  | .tne h => Sys2Proof.Machine.execTne h s
  | .tnei h imm => Sys2Proof.Machine.execTnei h imm s
  | .tlt h => Sys2Proof.Machine.execTlt h s
  | .tltu h => Sys2Proof.Machine.execTltu h s
  | .tlti h imm => Sys2Proof.Machine.execTlti h imm s
  | .tltiu h imm => Sys2Proof.Machine.execTltiu h imm s
  | .tle h => Sys2Proof.Machine.execTle h s
  | .tleu h => Sys2Proof.Machine.execTleu h s
  | .tlei h imm => Sys2Proof.Machine.execTlei h imm s
  | .tleiu h imm => Sys2Proof.Machine.execTleiu h imm s
  | .tgt h => Sys2Proof.Machine.execTgt h s
  | .tgtu h => Sys2Proof.Machine.execTgtu h s
  | .tgti h imm => Sys2Proof.Machine.execTgti h imm s
  | .tgtiu h imm => Sys2Proof.Machine.execTgtiu h imm s
  | .tge h => Sys2Proof.Machine.execTge h s
  | .tgeu h => Sys2Proof.Machine.execTgeu h s
  | .tgei h imm => Sys2Proof.Machine.execTgei h imm s
  | .tgeiu h imm => Sys2Proof.Machine.execTgeiu h imm s
  | .tbit h n => Sys2Proof.Machine.execTbit h n s
  | .mfs h r => Sys2Proof.Machine.execMfs h r s
  | .mts h ls r => Sys2Proof.Machine.execMts h ls r s
  | .mtsFmode h ls => Sys2Proof.Machine.execMtsFmode h ls s
  | .mtsFflags h ls => Sys2Proof.Machine.execMtsFflags h ls s
  | .mtsEpc h ls => Sys2Proof.Machine.execMtsEpc h ls s
  | .trap h code => Sys2Proof.Machine.execTrap h code s
  | .hret h => Sys2Proof.Machine.execHret h s
  | .ld h ls sz off => Sys2Proof.Machine.execLd h ls sz off s
  | .lds h ls sz off => Sys2Proof.Machine.execLds h ls sz off s
  | .st h ls sz off => Sys2Proof.Machine.execSt h ls sz off s
  | .ldf h ls sz off => Sys2Proof.Machine.execLdf h ls sz off s
  | .stf h ls sz off => Sys2Proof.Machine.execStf h ls sz off s
  | .empty h ls off => Sys2Proof.Machine.execEmpty h ls off s
  | .ldfTake h ls sz g off => Sys2Proof.Machine.execLdfTake h ls sz g off s
  | .waita h ls g off => Sys2Proof.Machine.execWaita h ls g off s
  | .aadd h ls wide g off => Sys2Proof.Machine.execAadd h ls wide g off s
  | .aswp h ls wide g off => Sys2Proof.Machine.execAswp h ls wide g off s
  | .acas h ls wide g off => Sys2Proof.Machine.execAcas h ls wide g off s
  | .aand h ls wide g off => Sys2Proof.Machine.execAand h ls wide g off s
  | .aor h ls wide g off => Sys2Proof.Machine.execAor h ls wide g off s
  | .axor h ls wide g off => Sys2Proof.Machine.execAxor h ls wide g off s
  | .amin h ls wide g off => Sys2Proof.Machine.execAmin h ls wide g off s
  | .amax h ls wide g off => Sys2Proof.Machine.execAmax h ls wide g off s
  | .aminu h ls wide g off => Sys2Proof.Machine.execAminu h ls wide g off s
  | .amaxu h ls wide g off => Sys2Proof.Machine.execAmaxu h ls wide g off s
  | .fence h scope => Sys2Proof.Machine.execFence h scope s
  | .sbar h mask => Sys2Proof.Machine.execSbar h mask s
  | .sdef h ls st off => Sys2Proof.Machine.execSdef h ls st off s
  | .sgo h ls st => Sys2Proof.Machine.execSgo h ls st s
  | .sstop h ls st => Sys2Proof.Machine.execSstop h ls st s
  | .cpy h ls off => Sys2Proof.Machine.execCpy h ls off s
  | .halo h ls off => Sys2Proof.Machine.execHalo h ls off s
  | .vcfmt h ls port vc => Sys2Proof.Machine.execVcfmt h ls port vc s
  | .vcscl h ls port reg => Sys2Proof.Machine.execVcscl h ls port reg s
  | .run h ls e cnt rep => Sys2Proof.Machine.execRun h ls e cnt rep s
  | .chr h ls ch word => Sys2Proof.Machine.execChr h ls ch word s
  | .chw h ls ch tag last => Sys2Proof.Machine.execChw h ls ch tag last s
  | .tokp h ls e => Sys2Proof.Machine.execTokp h ls e s
  | .tokw h ls e => Sys2Proof.Machine.execTokw h ls e s
  | .oclaim h ls slot => Sys2Proof.Machine.execOclaim h ls slot s
  | .orelease h ls slot => Sys2Proof.Machine.execOrelease h ls slot s
  | .ofill h ls slot off => Sys2Proof.Machine.execOfill h ls slot off s
  | .mxq h ls => Sys2Proof.Machine.execMxq h ls s
  | .sema h ls g sem cnt => Sys2Proof.Machine.execSema h ls g sem cnt s
  | .semp h ls sem cnt => Sys2Proof.Machine.execSemp h ls sem cnt s
  | .semt h sem => Sys2Proof.Machine.execSemt h sem s
  | .bara h ls g gid => Sys2Proof.Machine.execBara h ls g gid s
  | .barw h ls gid => Sys2Proof.Machine.execBarw h ls gid s
  | .bar h ls gid => Sys2Proof.Machine.execBar h ls gid s
  | .barc h ls gid => Sys2Proof.Machine.execBarc h ls gid s
  | .gsid h n => Sys2Proof.Machine.execGsid h n s
  | .gsize h gid => Sys2Proof.Machine.execGsize h gid s
  | .grank h gid => Sys2Proof.Machine.execGrank h gid s
  | .gmemb h gid => Sys2Proof.Machine.execGmemb h gid s
  | .enq h ls q off => Sys2Proof.Machine.execEnq h ls q off s
  | .qstat h q => Sys2Proof.Machine.execQstat h q s
  | .tlbi h ls kind => Sys2Proof.Machine.execTlbi h ls kind s
  | .pmig h ls => Sys2Proof.Machine.execPmig h ls s
  | .lnkst h port => Sys2Proof.Machine.execLnkst h port s
  | .ctxq h item => Sys2Proof.Machine.execCtxq h item s
  | .ctxqClearFlags h => Sys2Proof.Machine.execCtxqClearFlags h s
  | .idle e w => Sys2Proof.Machine.execIdle e w s
  | .astAdd w => Sys2Proof.Machine.execAstAdd w s
  | .astSub w => Sys2Proof.Machine.execAstSub w s
  | .astMul w => Sys2Proof.Machine.execAstMul w s
  | .astFma w => Sys2Proof.Machine.execAstFma w s
  | .astFms w => Sys2Proof.Machine.execAstFms w s
  | .astFnma w => Sys2Proof.Machine.execAstFnma w s
  | .astMin w => Sys2Proof.Machine.execAstMin w s
  | .astMax w => Sys2Proof.Machine.execAstMax w s
  | .astAbs w => Sys2Proof.Machine.execAstAbs w s
  | .astNeg w => Sys2Proof.Machine.execAstNeg w s
  | .astCmpeq w => Sys2Proof.Machine.execAstCmpeq w s
  | .astCmpne w => Sys2Proof.Machine.execAstCmpne w s
  | .astCmplt w => Sys2Proof.Machine.execAstCmplt w s
  | .astCmple w => Sys2Proof.Machine.execAstCmple w s
  | .astSel w => Sys2Proof.Machine.execAstSel w s
  | .astMov w => Sys2Proof.Machine.execAstMov w s
  | .astAnd w => Sys2Proof.Machine.execAstAnd w s
  | .astOr w => Sys2Proof.Machine.execAstOr w s
  | .astXor w => Sys2Proof.Machine.execAstXor w s
  | .astNot w => Sys2Proof.Machine.execAstNot w s
  | .astShl w => Sys2Proof.Machine.execAstShl w s
  | .astShr w => Sys2Proof.Machine.execAstShr w s
  | .astSra w => Sys2Proof.Machine.execAstSra w s
  | .astMulh w => Sys2Proof.Machine.execAstMulh w s
  | .astMadd w => Sys2Proof.Machine.execAstMadd w s
  | .astAdds w => Sys2Proof.Machine.execAstAdds w s
  | .astSubs w => Sys2Proof.Machine.execAstSubs w s
  | .astClamp w => Sys2Proof.Machine.execAstClamp w s
  | .astRint w => Sys2Proof.Machine.execAstRint w s
  | .astClass w => Sys2Proof.Machine.execAstClass w s
  | .astCopysign w => Sys2Proof.Machine.execAstCopysign w s
  | .astScale w => Sys2Proof.Machine.execAstScale w s
  | .astAbsd w => Sys2Proof.Machine.execAstAbsd w s
  | .astAvg w => Sys2Proof.Machine.execAstAvg w s
  | .astClz w => Sys2Proof.Machine.execAstClz w s
  | .astPopc w => Sys2Proof.Machine.execAstPopc w s
  | .astFlagr w => Sys2Proof.Machine.execAstFlagr w s
  | .astFlagc w => Sys2Proof.Machine.execAstFlagc w s
  | .estExp w => Sys2Proof.Machine.execEstExp w s
  | .estExp2 w => Sys2Proof.Machine.execEstExp2 w s
  | .estExp10 w => Sys2Proof.Machine.execEstExp10 w s
  | .estExpm1 w => Sys2Proof.Machine.execEstExpm1 w s
  | .estLog w => Sys2Proof.Machine.execEstLog w s
  | .estLog2 w => Sys2Proof.Machine.execEstLog2 w s
  | .estLog10 w => Sys2Proof.Machine.execEstLog10 w s
  | .estLog1p w => Sys2Proof.Machine.execEstLog1p w s
  | .estSin w => Sys2Proof.Machine.execEstSin w s
  | .estCos w => Sys2Proof.Machine.execEstCos w s
  | .estTan w => Sys2Proof.Machine.execEstTan w s
  | .estSinpi w => Sys2Proof.Machine.execEstSinpi w s
  | .estCospi w => Sys2Proof.Machine.execEstCospi w s
  | .estAsin w => Sys2Proof.Machine.execEstAsin w s
  | .estAcos w => Sys2Proof.Machine.execEstAcos w s
  | .estAtan w => Sys2Proof.Machine.execEstAtan w s
  | .estAtan2 w => Sys2Proof.Machine.execEstAtan2 w s
  | .estSinh w => Sys2Proof.Machine.execEstSinh w s
  | .estCosh w => Sys2Proof.Machine.execEstCosh w s
  | .estTanh w => Sys2Proof.Machine.execEstTanh w s
  | .estErf w => Sys2Proof.Machine.execEstErf w s
  | .estErfc w => Sys2Proof.Machine.execEstErfc w s
  | .estSigmoid w => Sys2Proof.Machine.execEstSigmoid w s
  | .estPow w => Sys2Proof.Machine.execEstPow w s
  | .estCbrt w => Sys2Proof.Machine.execEstCbrt w s
  | .estHypot w => Sys2Proof.Machine.execEstHypot w s
  | .estRsqrt w => Sys2Proof.Machine.execEstRsqrt w s
  | .estSqrt w => Sys2Proof.Machine.execEstSqrt w s
  | .estRcp w => Sys2Proof.Machine.execEstRcp w s
  | .estDiv w => Sys2Proof.Machine.execEstDiv w s
  | .estExpA w => Sys2Proof.Machine.execEstExpA w s
  | .estExp2A w => Sys2Proof.Machine.execEstExp2A w s
  | .estExp10A w => Sys2Proof.Machine.execEstExp10A w s
  | .estLogA w => Sys2Proof.Machine.execEstLogA w s
  | .estLog2A w => Sys2Proof.Machine.execEstLog2A w s
  | .estSigmoidA w => Sys2Proof.Machine.execEstSigmoidA w s
  | .estRsqrtA w => Sys2Proof.Machine.execEstRsqrtA w s
  | .estSqrtA w => Sys2Proof.Machine.execEstSqrtA w s
  | .estRcpA w => Sys2Proof.Machine.execEstRcpA w s
  | .estDivA w => Sys2Proof.Machine.execEstDivA w s
  | .estHardr w => Sys2Proof.Machine.execEstHardr w s
  | .estFlagr w => Sys2Proof.Machine.execEstFlagr w s
  | .estFlagc w => Sys2Proof.Machine.execEstFlagc w s
  | .pstPermb w => Sys2Proof.Machine.execPstPermb w s
  | .pstShuf w => Sys2Proof.Machine.execPstShuf w s
  | .pstRotl w => Sys2Proof.Machine.execPstRotl w s
  | .pstBcast w => Sys2Proof.Machine.execPstBcast w s
  | .pstZip w => Sys2Proof.Machine.execPstZip w s
  | .pstUnzip w => Sys2Proof.Machine.execPstUnzip w s
  | .pstCvt w => Sys2Proof.Machine.execPstCvt w s
  | .pstPackb w => Sys2Proof.Machine.execPstPackb w s
  | .pstUnpackb w => Sys2Proof.Machine.execPstUnpackb w s
  | .pstScan w => Sys2Proof.Machine.execPstScan w s
  | .pstReduce w => Sys2Proof.Machine.execPstReduce w s
  | .pstCompact w => Sys2Proof.Machine.execPstCompact w s
  | .pstExpand w => Sys2Proof.Machine.execPstExpand w s
  | .pstIntersect w => Sys2Proof.Machine.execPstIntersect w s
  | .pstSteer w => Sys2Proof.Machine.execPstSteer w s
  | .pstMerge w => Sys2Proof.Machine.execPstMerge w s
  | .pstSegscan w => Sys2Proof.Machine.execPstSegscan w s
  | .pstIota w => Sys2Proof.Machine.execPstIota w s
  | .pstMaskgen w => Sys2Proof.Machine.execPstMaskgen w s
  | .pstPopcm w => Sys2Proof.Machine.execPstPopcm w s
  | .pstTrn w => Sys2Proof.Machine.execPstTrn w s
  | .pstInsl w => Sys2Proof.Machine.execPstInsl w s
  | .pstExtl w => Sys2Proof.Machine.execPstExtl w s
  | .pstSplit w => Sys2Proof.Machine.execPstSplit w s
  | .pstTags w => Sys2Proof.Machine.execPstTags w s
  | .pstMarke w => Sys2Proof.Machine.execPstMarke w s
  | .pstTagt w => Sys2Proof.Machine.execPstTagt w s
  | .coldReset pass => Sys2Proof.Machine.execColdReset pass s
  | .blockFetch => Sys2Proof.Machine.execBlockFetch s
  | .blockIssue => Sys2Proof.Machine.execBlockIssue s
  | .blockCommit => Sys2Proof.Machine.execBlockCommit s
  | .blockMalformedDetect => Sys2Proof.Machine.execBlockMalformedDetect s
  | .serialiseIssue => Sys2Proof.Machine.execSerialiseIssue s
  | .runCheck e => Sys2Proof.Machine.execRunCheck e s
  | .stripResultDue e => Sys2Proof.Machine.execStripResultDue e s
  | .stripWordIssue e => Sys2Proof.Machine.execStripWordIssue e s
  | .secondPhaseRound => Sys2Proof.Machine.execSecondPhaseRound s
  | .mxeTokenTake => Sys2Proof.Machine.execMxeTokenTake s
  | .mma k => Sys2Proof.Machine.execMma k s
  | .mmaz k => Sys2Proof.Machine.execMmaz k s
  | .mman k => Sys2Proof.Machine.execMman k s
  | .accz k => Sys2Proof.Machine.execAccz k s
  | .accout k => Sys2Proof.Machine.execAccout k s
  | .accin k => Sys2Proof.Machine.execAccin k s
  | .mxeOperationRetire => Sys2Proof.Machine.execMxeOperationRetire s
  | .accoutBeatPush => Sys2Proof.Machine.execAccoutBeatPush s
  | .fillComplete slot => Sys2Proof.Machine.execFillComplete slot s
  | .streamCommandTake st => Sys2Proof.Machine.execStreamCommandTake st s
  | .streamUnit st => Sys2Proof.Machine.execStreamUnit st s
  | .streamFrameEnd st => Sys2Proof.Machine.execStreamFrameEnd st s
  | .streamCompletion st => Sys2Proof.Machine.execStreamCompletion st s
  | .streamStopDone st => Sys2Proof.Machine.execStreamStopDone st s
  | .gatherRow st => Sys2Proof.Machine.execGatherRow st s
  | .vcDemandGrant port vc => Sys2Proof.Machine.execVcDemandGrant port vc s
  | .vcUnitSend port vc => Sys2Proof.Machine.execVcUnitSend port vc s
  | .vcUnitReceive port vc => Sys2Proof.Machine.execVcUnitReceive port vc s
  | .routerFilterFrame port vc => Sys2Proof.Machine.execRouterFilterFrame port vc s
  | .copyPacketStart eng => Sys2Proof.Machine.execCopyPacketStart eng s
  | .cpyCopy eng => Sys2Proof.Machine.execCpyCopy eng s
  | .cpyConv eng => Sys2Proof.Machine.execCpyConv eng s
  | .cpyFill eng => Sys2Proof.Machine.execCpyFill eng s
  | .cpyMcast eng => Sys2Proof.Machine.execCpyMcast eng s
  | .copyCompletion eng => Sys2Proof.Machine.execCopyCompletion eng s
  | .copyPriorityAge eng => Sys2Proof.Machine.execCopyPriorityAge eng s
  | .copyPacketFrame eng => Sys2Proof.Machine.execCopyPacketFrame eng s
  | .permitUnit eng => Sys2Proof.Machine.execPermitUnit eng s
  | .haloDirectionComplete dir => Sys2Proof.Machine.execHaloDirectionComplete dir s
  | .haloSenderComplete => Sys2Proof.Machine.execHaloSenderComplete s
  | .barrierArrival => Sys2Proof.Machine.execBarrierArrival s
  | .barrierCountUpdate => Sys2Proof.Machine.execBarrierCountUpdate s
  | .barrierAdvanceNotice => Sys2Proof.Machine.execBarrierAdvanceNotice s
  | .sliceBankServe => Sys2Proof.Machine.execSliceBankServe s
  | .reservationRetry => Sys2Proof.Machine.execReservationRetry s
  | .takeHeadTimeout granule => Sys2Proof.Machine.execTakeHeadTimeout granule s
  | .takeListGrant granule => Sys2Proof.Machine.execTakeListGrant granule s
  | .waitaWake => Sys2Proof.Machine.execWaitaWake s
  | .waitaTimeout => Sys2Proof.Machine.execWaitaTimeout s
  | .bankReassign phys bank tag => Sys2Proof.Machine.execBankReassign phys bank tag s
  | .pageWalk va => Sys2Proof.Machine.execPageWalk va s
  | .shadowService => Sys2Proof.Machine.execShadowService s
  | .tlbiComplete => Sys2Proof.Machine.execTlbiComplete s
  | .migrate => Sys2Proof.Machine.execMigrate s
  | .frameMove tag unit frame => Sys2Proof.Machine.execFrameMove tag unit frame s
  | .faultTake f => Sys2Proof.Machine.execFaultTake f s
  | .faultDelivery => Sys2Proof.Machine.execFaultDelivery s
  | .escalate f reason => Sys2Proof.Machine.execEscalate f reason s
  | .deadlockDeclare tag => Sys2Proof.Machine.execDeadlockDeclare tag s
  | .tilePreempt => Sys2Proof.Machine.execTilePreempt s
  | .tileClaimSave phys tag => Sys2Proof.Machine.execTileClaimSave phys tag s
  | .tileResume phys => Sys2Proof.Machine.execTileResume phys s
  | .sliceExpiry tag => Sys2Proof.Machine.execSliceExpiry tag s
  | .createContext cmd => Sys2Proof.Machine.execCreateContext cmd s
  | .loadPolicy cmd => Sys2Proof.Machine.execLoadPolicy cmd s
  | .grant cmd => Sys2Proof.Machine.execGrant cmd s
  | .schedule cmd => Sys2Proof.Machine.execSchedule cmd s
  | .pause cmd => Sys2Proof.Machine.execPause cmd s
  | .pauseComplete tag => Sys2Proof.Machine.execPauseComplete tag s
  | .resume cmd => Sys2Proof.Machine.execResume cmd s
  | .evict cmd => Sys2Proof.Machine.execEvict cmd s
  | .evictComplete tag => Sys2Proof.Machine.execEvictComplete tag s
  | .restore cmd => Sys2Proof.Machine.execRestore cmd s
  | .restoreComplete tag ok => Sys2Proof.Machine.execRestoreComplete tag ok s
  | .destroy cmd => Sys2Proof.Machine.execDestroy cmd s
  | .resetVf cmd => Sys2Proof.Machine.execResetVf cmd s
  | .functionLevelReset vf => Sys2Proof.Machine.execFunctionLevelReset vf s
  | .scrubComplete tag => Sys2Proof.Machine.execScrubComplete tag s
  | .readCounter cmd => Sys2Proof.Machine.execReadCounter cmd s
  | .maskFeature cmd => Sys2Proof.Machine.execMaskFeature cmd s
  | .submit cmd => Sys2Proof.Machine.execSubmit cmd s
  | .attest tag nonce => Sys2Proof.Machine.execAttest tag nonce s
  | .seal tag m => Sys2Proof.Machine.execSeal tag m s
  | .keyUpdate tag chan => Sys2Proof.Machine.execKeyUpdate tag chan s
  | .bounceRecord tag chan m => Sys2Proof.Machine.execBounceRecord tag chan m s
  | .huskBeat route ok => Sys2Proof.Machine.execHuskBeat route ok s
  | .queueRecordDecode tag q => Sys2Proof.Machine.execQueueRecordDecode tag q s
  | .queueArbitrate tag => Sys2Proof.Machine.execQueueArbitrate tag s
  | .launch tag q pkt => Sys2Proof.Machine.execLaunch tag q pkt s
  | .loadk tag q pkt => Sys2Proof.Machine.execLoadk tag q pkt s
  | .unloadk tag q pkt => Sys2Proof.Machine.execUnloadk tag q pkt s
  | .waitmark tag q pkt => Sys2Proof.Machine.execWaitmark tag q pkt s
  | .waitmarkRecheck tag q => Sys2Proof.Machine.execWaitmarkRecheck tag q s
  | .setmark tag q pkt => Sys2Proof.Machine.execSetmark tag q pkt s
  | .queueCopy tag q pkt => Sys2Proof.Machine.execQueueCopy tag q pkt s
  | .qbarrier tag q pkt => Sys2Proof.Machine.execQbarrier tag q pkt s
  | .queueNop tag q pkt => Sys2Proof.Machine.execQueueNop tag q pkt s
  | .markAdd tag q => Sys2Proof.Machine.execMarkAdd tag q s
  | .queueLevelAge tag q => Sys2Proof.Machine.execQueueLevelAge tag q s
  | .preload tag q => Sys2Proof.Machine.execPreload tag q s
  | .budgetOverrun => Sys2Proof.Machine.execBudgetOverrun s
  | .instancePlace => Sys2Proof.Machine.execInstancePlace s
  | .instanceStart => Sys2Proof.Machine.execInstanceStart s
  | .tileFinish => Sys2Proof.Machine.execTileFinish s
  | .instanceRetire => Sys2Proof.Machine.execInstanceRetire s
  | .fabricNodeFinish node => Sys2Proof.Machine.execFabricNodeFinish node s
  | .wavefrontReconfigure => Sys2Proof.Machine.execWavefrontReconfigure s
  | .plotSetPlace node => Sys2Proof.Machine.execPlotSetPlace node s
  | .hotSwap node plot => Sys2Proof.Machine.execHotSwap node plot s
  | .libSteer node => Sys2Proof.Machine.execLibSteer node s
  | .libMerge node => Sys2Proof.Machine.execLibMerge node s
  | .packz node => Sys2Proof.Machine.execPackz node s
  | .unpackz node => Sys2Proof.Machine.execUnpackz node s
  | .sortk node => Sys2Proof.Machine.execSortk node s
  | .route node => Sys2Proof.Machine.execRoute node s
  | .sample node => Sys2Proof.Machine.execSample node s
  | .codec node => Sys2Proof.Machine.execCodec node s
  | .seqgen node => Sys2Proof.Machine.execSeqgen node s
  | .join node => Sys2Proof.Machine.execJoin node s
  | .partnerDetect port switch => Sys2Proof.Machine.execPartnerDetect port switch s
  | .portAttest port peer => Sys2Proof.Machine.execPortAttest port peer s
  | .creditAdvertisement port => Sys2Proof.Machine.execCreditAdvertisement port s
  | .portDrainRequest port => Sys2Proof.Machine.execPortDrainRequest port s
  | .portDrainEnd port => Sys2Proof.Machine.execPortDrainEnd port s
  | .portReenable port => Sys2Proof.Machine.execPortReenable port s
  | .linkGroupReceive port g => Sys2Proof.Machine.execLinkGroupReceive port g s
  | .linkRetryLimit port => Sys2Proof.Machine.execLinkRetryLimit port s
  | .linkKeyUpdate port => Sys2Proof.Machine.execLinkKeyUpdate port s
  | .linkFlitSend port => Sys2Proof.Machine.execLinkFlitSend port s
  | .switchIndexAssign port peer index => Sys2Proof.Machine.execSwitchIndexAssign port peer index s
  | .sessionOpen tag idx peer => Sys2Proof.Machine.execSessionOpen tag idx peer s
  | .sessionAbort tag idx => Sys2Proof.Machine.execSessionAbort tag idx s
  | .sessionPortTimeout tag idx => Sys2Proof.Machine.execSessionPortTimeout tag idx s
  | .linkStreamUnits tag idx vc tile fmt units => Sys2Proof.Machine.execLinkStreamUnits tag idx vc tile fmt units s
  | .linkDemandGrant tag idx vc tile n => Sys2Proof.Machine.execLinkDemandGrant tag idx vc tile n s
  | .linkReadRequest tag idx va sz => Sys2Proof.Machine.execLinkReadRequest tag idx va sz s
  | .linkReadResponse tag idx data => Sys2Proof.Machine.execLinkReadResponse tag idx data s
  | .linkWrite tag idx va sz data => Sys2Proof.Machine.execLinkWrite tag idx va sz data s
  | .linkAtomic tag idx va op wide b c => Sys2Proof.Machine.execLinkAtomic tag idx va op wide b c s
  | .linkAtomicResult tag idx data => Sys2Proof.Machine.execLinkAtomicResult tag idx data s
  | .linkWriteCompletion tag idx => Sys2Proof.Machine.execLinkWriteCompletion tag idx s
  | .linkFaultReply tag idx write code => Sys2Proof.Machine.execLinkFaultReply tag idx write code s
  | .linkAbort tag idx => Sys2Proof.Machine.execLinkAbort tag idx s
  | .sensorTrip x => Sys2Proof.Machine.execSensorTrip x s
  | .powerSample watts => Sys2Proof.Machine.execPowerSample watts s
  | .islandFrequencyChange island steps => Sys2Proof.Machine.execIslandFrequencyChange island steps s
  | .patrolScrub loc bits => Sys2Proof.Machine.execPatrolScrub loc bits s
  | .configReadback plot r => Sys2Proof.Machine.execConfigReadback plot r s
  | .tileMapOut phys byIdpor => Sys2Proof.Machine.execTileMapOut phys byIdpor s
  | .firmwareStage hazel digest verified => Sys2Proof.Machine.execFirmwareStage hazel digest verified s
  | .hbmAccessPerformed => Sys2Proof.Machine.execHbmAccessPerformed s
  | .pcieCompletion ok => Sys2Proof.Machine.execPcieCompletion ok s
  | .tenantPlotSetFiring node => Sys2Proof.Machine.execTenantPlotSetFiring node s

end Sys2Proof.Machine
end

