-- ==== Sys2Proof/Machine/Run.lean ====
section
/-! DEFINITION. What a move of the agenda does: the order in which a sequencer and a schedule clock take their steps, the command ring, and
the passing of time (R27-R48, R253; log 1); and a state whose next step runs a given word (log 3). -/

namespace Sys2Proof.Machine

/-! ### The sequencer of a tile -/

/-- The slots still to be tried in the tile cycle in hand, and how many of them may still issue: a tile cycle begins with the slots that
are ready, of which the two lowest that can fire issue (R44). -/
def Block.untried (b : Block) (turn : Option (List Nat × Nat)) : List Nat × Nat := turn.getD (b.readySlots, 2)

/-- What the sequencer of a tile does next with its block: the instruction slot and the instruction; none when nothing but a new tile
cycle begins. -/
def Block.choose (s : State) (inst : Nat) (b : Block) (turn : Option (List Nat × Nat)) : Option (Nat × Instr) :=
  if b.committing then some (0, .blockCommit)
  else if !b.issued then some (0, if b.serialise then .serialiseIssue else .blockIssue)
  else match (b.untried turn).1 with
    | k :: _ => match decodeSeq (b.words.getD k 0) with
      | .ok i => some (k, i)
      | .error _ => none
    | [] =>
      if b.settledAll then some (0, .blockCommit)
      else if s.nothingFires inst b then some (0, .blockMalformedDetect)
      else none

/-- What the sequencer of a tile of an instance does next: the delivery of a fault, its block, the end of the tile, or a fetch. -/
def Tile.choose (s : State) (inst : Nat) (t : Tile) : Option (Nat × Instr) :=
  if t.deliverable && !t.seq.block.any Block.committing then some (0, .faultDelivery)
  else match t.seq.block with
    | some b => b.choose s inst t.seq.turn
    | none =>
      if t.seq.finished || t.seq.park.isSome then none
      else if t.seq.halted && !t.handler then some (0, .tileFinish)
      else some (0, .blockFetch)

/-- The slots left of a tile cycle once its first slot k has been tried: none, so that a new tile cycle begins, when two have issued, or
one has and no more are left; a cycle that tried every slot in vain ends with the commit or the end of the block. -/
def Tile.advance (k : Nat) (tried : Option (List Nat × Nat)) (t : Tile) : Tile :=
  let turn := match tried, t.seq.block with
    | some (_ :: rest, n), some b =>
      let left := if (b.slots[k]?).all (·.fired) then n - 1 else n
      if left = 0 || (rest.isEmpty && left == 1) then none else some (rest, left)
    | _, _ => none
  { t with seq := { t.seq with turn := turn } }

/-- The next state of a move, with the time that has passed. -/
def State.passed (s : State) (r : Res) (f : State → State) : Res :=
  match r with
  | .next s' => .next (f (s.tick s'))
  | .fault e => .fault e
  | .refused e => .refused e

/-- A step of the sequencer of the tile in focus. -/
def State.seqMove (s : State) : Res :=
  match s.tile? s.focus.inst s.focus.tile with
  | none => .fault .noTile
  | some t => match t.choose s s.focus.inst with
    | none => s.passed (.next s) fun s => s.modFocus fun t => t.advance 0 none
    | some (k, i) =>
      let tried := match i.shape, t.seq.block with
        | .seq _ _, some b => some (b.untried t.seq.turn)
        | _, _ => none
      let s := { s with focus := { s.focus with slot := k } }
      s.passed (exec i s) fun s => s.modFocus fun t => t.advance k tried

/-! ### The schedule clock of a tile -/

/-- A control token issues: by its operation. -/
def State.tokenIssue (s : State) (w : W64) : Res :=
  match decodeToken w with
  | .error _ => .next s
  | .ok (op, k) => match op.toNat with
    | 1 => execMma k s
    | 2 => execMmaz k s
    | 3 => execMman k s
    | 4 => execAccz k s
    | 5 => execAccout k s
    | _ => execAccin k s

/-- A step of the schedule clock of the tile in focus. -/
def State.schedStep (s : State) : Res :=
  s.onTile fun x t => match s.schedAct x t with
    | .stop => .next s
    | .round => execSecondPhaseRound s
    | .due e => execStripResultDue e s
    | .push => execAccoutBeatPush s
    | .retire => execMxeOperationRetire s
    | .take => execMxeTokenTake s
    | .select e => execStripWordIssue e s
    | .word e w => match decodeStrip e w with
      | .ok i => exec i s
      | .error _ => .next s
    | .token w => s.tokenIssue w
    | .close => .next (s.modFocus Tile.closeCycle)

/-! ### The command ring -/

/-- The next host command (R253-R256). -/
def State.hostStep (s : State) : Res :=
  match s.nextCommand with
  | none => .next s
  | some cmd => match cmdCode cmd with
    | 0x01 => execCreateContext cmd s
    | 0x02 => execLoadPolicy cmd s
    | 0x03 => execGrant cmd s
    | 0x04 => execSchedule cmd s
    | 0x05 => execPause cmd s
    | 0x06 => execResume cmd s
    | 0x07 => execEvict cmd s
    | 0x08 => execRestore cmd s
    | 0x09 => execDestroy cmd s
    | 0x0A => execResetVf cmd s
    | 0x0B => execReadCounter cmd s
    | 0x0C => execMaskFeature cmd s
    | 0x0D => execSubmit cmd s
    | _ => s.unknownCommand cmd

/-- The IOMMU's entry of a page changed for a function (R352, R358): once no access of a context on that function which was translated before
is outstanding, and with those that can be taken back discarded; the change waits for another time where one is. -/
def State.setIommu (s : State) (fn page : Nat) (goal : Option Nat) : State :=
  let mine := s.ctxs.filter fun c => c.vf.toNat == fn
  if mine.any fun c => s.translatedOut c.tag then s
  else
    let s := mine.foldl (fun s c => s.dropTranslated c.tag) s
    { s with iommu := if goal == some page then dropKey (fn, page) s.iommu else putKey (fn, page) goal s.iommu }

/-- A write of the host (R254, R277, R352). -/
def State.hostWrite (s : State) : HostWrite → State
  | .memory a bs => { s with host := s.host.write a bs }
  | .iommu fn k goal => s.setIommu fn k goal
  | .command cmd => { s with cmdRing := s.cmdRing ++ [cmd] }
  | .record tag q k r => s.modQueue tag q fun x => { x with ring := x.ring.set k r }

/-! ### Moves -/

/-- A tile in focus. -/
def State.focusOn (s : State) (i t : Nat) : State := { s with focus := ⟨i, t, 0⟩ }

/-- A move of the agenda. -/
def State.move (s : State) : Move → Res
  | .seq i t => (s.focusOn i t).seqMove
  | .sched i t => (s.focusOn i t).passed (s.focusOn i t).schedStep id
  | .host => s.passed s.hostStep id
  | .write w => s.passed (.next (s.hostWrite w)) id
  | .interleave i t c => s.passed (s.setInterleave i t c) id
  | .ev i t e => (s.focusOn i t).passed (exec e (s.focusOn i t)) id

/-- The move that is due while the agenda is empty: bring-up after a cold reset, else the sequencer of the tile in focus. -/
def State.idleMove (s : State) : Res :=
  if s.boot == .cold then s.passed (execColdReset ⟨true, s.fwDigest⟩ s) id else s.seqMove

/-! ### A state whose next step runs a word (log 3) -/

/-- A slot that holds every token an instruction can require. -/
def SlotSt.full (p : W64) : SlotSt := { left := some (.value 0), right := some (.value 0), pred := some (.value p), fired := false }

/-- A block in execution whose first word is given and may fire. -/
def Block.ofWord (w : W64) : Block :=
  let p : W64 := if fld w 54 2 = 2 then 0 else 1
  { Block.fetched 0 0xA (w :: List.replicate 7 0) with slots := SlotSt.full p :: List.replicate 7 SlotSt.empty, issued := true }

/-- A Running context with one tile, and nothing else. -/
def Context.single : Context := { Context.create 1 1 1 Keys.none with st := .running, feat := 0xFF, grant := some ⟨1, 0, 0⟩ }

/-- An instance of one tile that executes a block. -/
def Inst.single (b : Block) : Inst :=
  let k : Kernel := { digest := 0, id := 0, refs := [], nodes := [], edges := [], sets := [], groups := [], run := [], base := 0, const := [] }
  let t := Tile.blank 0 0 0 1 0xFF
  { Inst.submitted 1 0 k 1 0 0 [] with
    st := .running
    tiles := [{ t with seq := { t.seq with started := true, block := some b } }] }

/-- A state of the package in which the sequencer of the one tile of a Running context executes a block whose first word is given. -/
def State.withWord (s : State) (w : W64) : State :=
  { s with
    agenda := [], focus := ⟨0, 0, 0⟩, boot := .ready, ctxs := [Context.single], insts := [Inst.single (Block.ofWord w)]
    phys := [(0, { Phys.idle with tag := 1, banks := Vector.replicate 16 1 })] }

end Sys2Proof.Machine
end

