-- ==== Sys2Proof/WellFormed.lean ====
section
/-! DEFINITION. Which terms of Instr are instructions of the part. -/

namespace Sys2Proof

/-- A well-formed instruction: its fields keep the rules of R61-R82 and R238-R240, so that it has an encoding and no fetch,
RUN check or token accept finds it illegal by itself. Every step that is no word is well formed. -/
def Instr.WellFormed (i : Instr) : Bool := fieldsOk i

end Sys2Proof
end

