-- ==== Sys2Proof/Safety.lean ====
section
/-! DEFINITION. What claims speak of: the form that every memory keeps, runs that do not stop, when a word may fire, and what the words
of each shape give, said from the rules of spec/ in numbers. -/

namespace Sys2Proof.Machine

/-! ### Invariants and runs -/

/-- Every memory of an instance is in canonical form: the slices of its tiles, and the block RAM of its plot sets. -/
def Inst.canonical (x : Inst) : Bool := x.tiles.all (fun t => t.slice.wf) && x.nodes.all fun n => n.ram.all Mem.wf

/-- Every memory of a checkpoint is in canonical form: the bytes of the allotment, and the memories of the instances. -/
def Checkpoint.canonical (k : Checkpoint) : Bool := cellsWf none k.bytes && k.insts.all fun e => e.2.canonical

/-- Every memory of the package is in canonical form: HBM, host memory, those of every instance, and what every checkpoint holds. -/
def State.canonical (s : State) : Bool :=
  s.hbm.wf && s.host.wf && s.insts.all Inst.canonical
    && s.ctxs.all fun c => match c.checkpoint with | some k => k.canonical | none => true

/-- The contexts of the package are told apart (R251, R255): no two share an owner tag, a virtual function or a handle, and every handle
is one that was issued. -/
def State.ctxsApart (s : State) : Bool :=
  pairwise (fun a b => a.tag != b.tag && a.vf != b.vf && a.handle != b.handle) s.ctxs
    && s.ctxs.all fun c => s.handles.contains c.handle && c.tag != 0 && c.tag != 0xFF

/-- A run of n steps that does not stop. -/
def State.runs (s : State) (n : Nat) : Prop := ∃ t, Sys2Proof.core.run n s = .next t

/-- The byte that a location's home holds (R134): in a slice of the instance at an index, in HBM, in host memory; a peer's is not here. -/
def State.byteAt (s : State) (i : Nat) : Loc → Byte
  | .slice t o => match s.tile? i t with | some y => y.slice.get o | none => 0
  | .hbm p => s.hbm.get p
  | .host h => s.host.get h
  | .remote _ _ => 0

/-! ### The firing of a word -/

/-- The tile in focus, its instance, and the issued block it executes. -/
structure AtBlock (s : State) (x : Inst) (t : Tile) (b : Block) : Prop where
  inst : s.insts[s.focus.inst]? = some x
  tile : x.tiles[s.focus.tile]? = some t
  block : t.seq.block = some b
  issued : b.issued = true

/-- An operand that is required holds a value; one that is not is taken as 0 (R29). -/
def holdsValue (required : Bool) (tok : Option Tok) (v : W64) : Prop :=
  if required then tok = some (.value v) else v = 0

/-- The predicate of a word lets it fire (R29): its mode needs none, or bit 0 of its predicate is the one it names. -/
def predicateMet (p : Pred) (tok : Option Tok) : Prop :=
  match p with
  | .always => True
  | .onTrue => ∃ v, tok = some (.value v) ∧ v.getLsbD 0 = true
  | .onFalse => ∃ v, tok = some (.value v) ∧ v.getLsbD 0 = false

/-- The word i stands in the slot in focus, has not fired, and its tokens let it fire normally with left operand a and right operand c
(R29). -/
structure MayFire (i : Instr) (s : State) (x : Inst) (t : Tile) (b : Block) (h : Head) (a c : W64) : Prop where
  at_block : AtBlock s x t b
  word : ∃ m st, i.shape = .seq h m ∧ b.slots[s.focus.slot]? = some st ∧ st.fired = false ∧ predicateMet h.pred st.pred
    ∧ holdsValue m.left st.left a ∧ holdsValue m.right st.right c

/-- Slots with a token put into the operand slot that a target names. -/
def putToken (tok : Tok) (l : List SlotSt) : Option Target → List SlotSt
  | none => l
  | some g => l.modify g.slot.toNat fun st => st.put tok g.kind

/-- A block in which the word of a slot has fired. -/
def Block.marked (b : Block) (k : Nat) : Block := { b with slots := b.slots.modify k fun st => { st with fired := true } }

/-- A block with a token at both targets of a word (R30). -/
def Block.withTokens (b : Block) (h : Head) (tok : Tok) : Block :=
  { b with slots := putToken tok (putToken tok b.slots h.t0) h.t1 }

/-- The targets of a word are two operand slots, or fewer, and hold nothing: no second token arrives anywhere (R32). -/
def Block.targetsOpen (b : Block) (h : Head) : Prop :=
  (h.t0 = h.t1 → h.t0 = none) ∧
    ∀ g, (h.t0 = some g ∨ h.t1 = some g) → ∀ st, b.slots[g.slot.toNat]? = some st → st.at g.kind = none

/-- A state with the block of the tile in focus replaced, and nothing else changed. -/
def State.setBlock (s : State) (b : Block) : State := s.modFocus fun t => { t with seq := { t.seq with block := some b } }

/-- A block in which the word of a slot has fired and has noted an effect under an LSID, with its VA, its IPA where it stores to host memory, and
the register that its result goes to. -/
def Block.noting (b : Block) (k : Nat) (ls : BitVec 5) (e : Eff) (va ipa : W64) (g : Option (BitVec 5)) : Block :=
  { b.marked k with
    effs := b.effs ++ [{ ls := ls, slot := k, eff := e, va := va, ipa := ipa }]
    settled := b.settled ++ [(ls, false)]
    writes := match g with | some g => b.writes ++ [(g, none)] | none => b.writes }

/-- The LSID and the register of a word are not settled yet (R32). -/
def Block.unsettled (b : Block) (ls : BitVec 5) (g : Option (BitVec 5)) : Prop :=
  (∀ p ∈ b.settled, p.1 ≠ ls) ∧ ∀ r, g = some r → ∀ p ∈ b.writes, p.1 ≠ r

/-- The register that receives a null when a word fires null (R31): that of a WRITE, or of a commit-time operation. -/
def nullRegister (i : Instr) : Option (BitVec 5) :=
  match i with
  | .write _ g => some g
  | _ => match i.shape with | .seq _ m => m.g | _ => none

/-! ### What value words give (R113-R121) -/

/-- A truth value as R121 sends it. -/
def truth (p : Prop) [Decidable p] : W64 := if p then 1 else 0

/-- The number of zeros above the highest 1 of a word. -/
def zerosAbove (a : W64) : Nat := (List.range 64).countP fun k => decide (a.toNat < 2 ^ (63 - k))

/-- What a move or an integer word sends, from its operands (R114, R119). -/
def arithOf : Instr → W64 → W64 → Option W64
  | .mov _, a, _ => some a
  | .movi _ imm, _, _ => some (BitVec.ofInt 64 imm.toInt)
  | .movhi _ imm, a, _ => some (BitVec.ofNat 64 (imm.toNat * 2 ^ 32 + a.toNat % 2 ^ 32))
  | .add _, a, b => some (BitVec.ofNat 64 (a.toNat + b.toNat))
  | .addi _ imm, a, _ => some (BitVec.ofInt 64 (a.toInt + imm.toInt))
  | .sub _, a, b => some (BitVec.ofInt 64 (a.toInt - b.toInt))
  | .subi _ imm, a, _ => some (BitVec.ofInt 64 (a.toInt - imm.toInt))
  | .mul _, a, b => some (BitVec.ofInt 64 (a.toInt * b.toInt))
  | .muli _ imm, a, _ => some (BitVec.ofInt 64 (a.toInt * imm.toInt))
  | .mulh _, a, b => some (BitVec.ofInt 64 (a.toInt * b.toInt / 2 ^ 64))
  | .mulhu _, a, b => some (BitVec.ofNat 64 (a.toNat * b.toNat / 2 ^ 64))
  | .min _, a, b => some (BitVec.ofInt 64 (min a.toInt b.toInt))
  | .minu _, a, b => some (BitVec.ofNat 64 (min a.toNat b.toNat))
  | .max _, a, b => some (BitVec.ofInt 64 (max a.toInt b.toInt))
  | .maxu _, a, b => some (BitVec.ofNat 64 (max a.toNat b.toNat))
  | .lea _ sc, a, b => some (BitVec.ofNat 64 (a.toNat + b.toNat * 2 ^ sc.toNat))
  | _, _, _ => none

/-- What a bit-wise word, a shift, a field word or a count sends, from its operands (R119). -/
def bitsOf : Instr → W64 → W64 → Option W64
  | .andW _, a, b => some (a &&& b)
  | .andi _ imm, a, _ => some (a &&& BitVec.ofInt 64 imm.toInt)
  | .orW _, a, b => some (a ||| b)
  | .ori _ imm, a, _ => some (a ||| BitVec.ofInt 64 imm.toInt)
  | .xorW _, a, b => some (a ^^^ b)
  | .xori _ imm, a, _ => some (a ^^^ BitVec.ofInt 64 imm.toInt)
  | .shl _, a, b => some (BitVec.ofNat 64 (a.toNat * 2 ^ (b.toNat % 64)))
  | .shli _ n, a, _ => some (BitVec.ofNat 64 (a.toNat * 2 ^ n.toNat))
  | .shr _, a, b => some (BitVec.ofNat 64 (a.toNat / 2 ^ (b.toNat % 64)))
  | .shri _ n, a, _ => some (BitVec.ofNat 64 (a.toNat / 2 ^ n.toNat))
  | .sra _, a, b => some (BitVec.ofInt 64 (a.toInt / 2 ^ (b.toNat % 64)))
  | .srai _ n, a, _ => some (BitVec.ofInt 64 (a.toInt / 2 ^ n.toNat))
  | .ext _ lb wm, a, _ => some (BitVec.ofNat 64 (a.toNat / 2 ^ lb.toNat % 2 ^ (wm.toNat + 1)))
  | .exts _ lb wm, a, _ => some (BitVec.ofInt 64 (Int.bmod (a.toNat / 2 ^ lb.toNat) (2 ^ (wm.toNat + 1))))
  | .clz _, a, _ => some (BitVec.ofNat 64 (zerosAbove a))
  | .popc _, a, _ => some (BitVec.ofNat 64 ((List.range 64).countP fun k => a.getLsbD k))
  | .sextb _, a, _ => some (BitVec.ofInt 64 (Int.bmod a.toNat (2 ^ 8)))
  | .sexth _, a, _ => some (BitVec.ofInt 64 (Int.bmod a.toNat (2 ^ 16)))
  | .sextw _, a, _ => some (BitVec.ofInt 64 (Int.bmod a.toNat (2 ^ 32)))
  | _, _, _ => none

/-- What a test sends, from its operands (R121): an immediate is sign-extended, and compared unsigned by the forms with U. -/
def testOf : Instr → W64 → W64 → Option W64
  | .teq _, a, b => some (truth (a = b))
  | .teqi _ imm, a, _ => some (truth (a.toInt = imm.toInt))
  | .tne _, a, b => some (truth (a ≠ b))
  | .tnei _ imm, a, _ => some (truth (a.toInt ≠ imm.toInt))
  | .tlt _, a, b => some (truth (a.toInt < b.toInt))
  | .tltu _, a, b => some (truth (a.toNat < b.toNat))
  | .tlti _ imm, a, _ => some (truth (a.toInt < imm.toInt))
  | .tltiu _ imm, a, _ => some (truth (a.toNat < (BitVec.ofInt 64 imm.toInt).toNat))
  | .tle _, a, b => some (truth (a.toInt ≤ b.toInt))
  | .tleu _, a, b => some (truth (a.toNat ≤ b.toNat))
  | .tlei _ imm, a, _ => some (truth (a.toInt ≤ imm.toInt))
  | .tleiu _ imm, a, _ => some (truth (a.toNat ≤ (BitVec.ofInt 64 imm.toInt).toNat))
  | .tgt _, a, b => some (truth (b.toInt < a.toInt))
  | .tgtu _, a, b => some (truth (b.toNat < a.toNat))
  | .tgti _ imm, a, _ => some (truth (imm.toInt < a.toInt))
  | .tgtiu _ imm, a, _ => some (truth ((BitVec.ofInt 64 imm.toInt).toNat < a.toNat))
  | .tge _, a, b => some (truth (b.toInt ≤ a.toInt))
  | .tgeu _, a, b => some (truth (b.toNat ≤ a.toNat))
  | .tgei _ imm, a, _ => some (truth (imm.toInt ≤ a.toInt))
  | .tgeiu _ imm, a, _ => some (truth ((BitVec.ofInt 64 imm.toInt).toNat ≤ a.toNat))
  | .tbit _ n, a, _ => some (truth (a.toNat / 2 ^ n.toNat % 2 = 1))
  | _, _, _ => none

/-- What a division sends, for a divisor that is not 0 (R120): the quotient is rounded toward zero and wraps, the remainder has the sign
of the dividend. -/
def quotientOf : Instr → W64 → W64 → Option W64
  | .div _, a, b => some (BitVec.ofInt 64 (Int.tdiv a.toInt b.toInt))
  | .divu _, a, b => some (BitVec.ofNat 64 (a.toNat / b.toNat))
  | .rem _, a, b => some (BitVec.ofInt 64 (Int.tmod a.toInt b.toInt))
  | .remu _, a, b => some (BitVec.ofNat 64 (a.toNat % b.toNat))
  | _, _, _ => none

/-! ### What words that read the state give -/

/-- The context of an instance, and one of its queues. -/
def State.queueOf (s : State) (x : Inst) (q : BitVec 4) : Option (Context × Queue) :=
  (s.ctx? x.tag).map fun c => (c, c.queues[q.toNat]'q.isLt)

/-- What a word that reads registers, groups, semaphores, queues or links sends, for the tile in focus (R114, R129, R276, R291, R323, R329,
R377). -/
def readOf (i : Instr) (s : State) (x : Inst) (t : Tile) (b : Block) (a : W64) : Option W64 :=
  match i with
  | .read _ g => some (t.g[g.toNat]'g.isLt)
  | .adrb _ _ off => some (BitVec.ofInt 64 (b.header.toNat + 16 * off.toInt))
  | .mfs _ .ltid => some (BitVec.ofNat 64 s.focus.tile)
  | .mfs _ .ninst => some (BitVec.ofNat 64 x.tiles.length)
  | .mfs _ .ctx => some t.sr.ctx
  | .mfs _ .fmode => some t.sr.fmode
  | .mfs _ .fflags => some t.fflags
  | .mfs _ .hvec => some t.sr.hvec
  | .mfs _ .cause => some t.sr.cause
  | .mfs _ .info => some t.sr.info
  | .mfs _ .epc => some t.sr.epc
  | .mfs _ .cycle => some t.sr.cycle
  | .mfs _ .feat => some t.sr.feat
  | .mfs _ .wto => some t.sr.wto
  | .semt _ sem => some (BitVec.ofNat 64 (t.sem[sem.toNat]'sem.isLt).toNat)
  | .gsid _ n => some (t.gslot[n.toNat]'n.isLt)
  | .gsize _ gid => some (BitVec.ofNat 64 (x.members gid).length)
  | .grank _ gid =>
    some (if s.focus.tile ∈ x.members gid then BitVec.ofNat 64 ((x.members gid).idxOf s.focus.tile) else allOnes)
  | .gmemb _ gid => some (((x.members gid)[a.toNat]?.map fun m => BitVec.ofNat 64 m).getD allOnes)
  | .qstat _ q => (s.queueOf x q).map fun y => s.qstat y.1 q y.2
  | .lnkst _ p =>
    match s.ports[p.toNat]?, s.ctx? x.tag with
    | some y, some c => some (BitVec.ofNat 64 (y.st.code + (if y.switch then 8 else 0)
        + (if (s.linkPermits c).getLsbD (2 * p.toNat) then 2 ^ 8 else 0)
        + (if (s.linkPermits c).getLsbD (2 * p.toNat + 1) then 2 ^ 9 else 0)
        + min 65535 y.retries * 2 ^ 16 + (c.sessions.toList.countP fun k => k.opened && y.reaches k.peer) * 2 ^ 32))
    | _, _ => none
  | .ctxq _ .place => some (t.spot)
  | .ctxq _ .allotment => (s.ctx? x.tag).map fun c => BitVec.ofNat 64 c.allotment
  | .ctxq _ .permits => (s.ctx? x.tag).map s.linkPermits
  | .ctxq _ .epoch => (s.ctx? x.tag).map fun c => BitVec.ofNat 64 (c.epoch.toNat * 2 ^ 32 + t.resumes % 2 ^ 32)
  | .ctxq _ .policy => ((s.ctx? x.tag).bind (·.policy)).map fun p => BitVec.ofNat 64 p.digest.toNat
  | .ctxq _ .flags => some (BitVec.ofNat 64 t.xflags.toNat)
  | .ctxq _ .audit => (s.ctx? x.tag).map fun c => BitVec.ofNat 64 (c.audit.seq.toNat % 2 ^ 32 + c.audit.dropped * 2 ^ 32)
  | _ => none

/-! ### What branches and the words that mark their block give -/

/-- Where a branch sends the sequencer, and what it sends (R115, R117, R118, R132). -/
def branchOf (i : Instr) (t : Tile) (b : Block) (a : W64) : Option (Branch × Option W64) :=
  let place (off : BitVec 33) : W64 := BitVec.ofInt 64 (b.header.toNat + 16 * off.toInt)
  let link : W64 := BitVec.ofNat 64 (b.header.toNat + 16 + 8 * b.words.length)
  match i with
  | .br _ _ off => some (.to (place off), none)
  | .brr _ => some (.to a, none)
  | .call _ _ off => some (.to (place off), some link)
  | .callr _ => some (.to a, some link)
  | .halt _ => some (.halt, none)
  | .yield _ _ off => some (.yield (place off), none)
  | .hret _ => if t.sr.cause.getLsbD 31 then some (.hret, none) else none
  | _ => none

/-- A block in which a branch has fired. -/
def Block.branching (b : Block) (k : Nat) (h : Head) (r : Branch × Option W64) : Block :=
  let b := { b.marked k with branch := some r.1 }
  match r.2 with
  | some v => b.withTokens h (.value v)
  | none => b

/-! ### What the words that act at commit note when they fire (R37) -/

/-- The word i, at a tile with operands a and c, notes under its LSID the effect of a word that names no memory, with the g register of
its result. -/
inductive Notes (s : State) (x : Inst) (t : Tile) (b : Block) (a c : W64) :
    Instr → BitVec 5 → Eff → W64 → Option (BitVec 5) → Prop where
  | hvec (h ls) : a.toNat % 16 = 0 → Notes s x t b a c (.mts h ls .hvec) ls (.mts .hvec a) 0 none
  | wto (h ls) : a.toNat < 2 ^ 48 → Notes s x t b a c (.mts h ls .wto) ls (.mts .wto a) 0 none
  | fmode (h ls) : a.toNat % 8 ∈ [1, 2, 3, 4, 5] → a.toNat / 8 % 32 = 0 → a.toNat / 2 ^ 13 % 8 = 0 → a.toNat < 2 ^ 17 →
      Notes s x t b a c (.mtsFmode h ls) ls (.mtsFmode a) 0 none
  | fflags (h ls) : a.toNat < 2 ^ 22 → Notes s x t b a c (.mtsFflags h ls) ls (.mtsFflags a) 0 none
  | epc (h ls) : t.sr.cause.getLsbD 31 = true → a.toNat % 16 = 0 → Notes s x t b a c (.mtsEpc h ls) ls (.mtsEpc a) 0 none
  | sgo (h ls st) : Notes s x t b a c (.sgo h ls st) ls (.sgo st) 0 none
  | sstop (h ls st) : Notes s x t b a c (.sstop h ls st) ls (.sstop st) 0 none
  | vcfmt (h ls port vc) : s.vcfmtFault x t port vc a = none → Notes s x t b a c (.vcfmt h ls port vc) ls (.vcfmt port vc a) 0 none
  | vcscl (h ls port reg) : a.toNat < 2 ^ 32 → a.toNat / 2 ^ 23 % 256 ≠ 255 → a.toNat % 2 ^ 31 ≠ 0 →
      Notes s x t b a c (.vcscl h ls port reg) ls (.vcscl port reg a) 0 none
  | chw (h ls ch tag last) : (t.chan[ch.toNat]'ch.isLt).producer = 1 →
      Notes s x t b a c (.chw h ls ch tag last) ls (.chw ch a tag last) 0 none
  | tokp (h ls e) : Notes s x t b a c (.tokp h ls e) ls (.tokp e) 0 none
  | tokw (h ls e) : (b.effs.countP fun k => k.eff == .tokw e) < t.fifoAt (partnerId e) 1 →
      Notes s x t b a c (.tokw h ls e) ls (.tokw e) 0 none
  | oclaim (h ls k) : Notes s x t b a c (.oclaim h ls k) ls (.oclaim k) 0 none
  | orelease (h ls k) : Notes s x t b a c (.orelease h ls k) ls (.orelease k) 0 none
  | mxq (h ls) : Notes s x t b a c (.mxq h ls) ls (.mxq a) 0 none
  | sema (h ls g sem cnt) : Notes s x t b a c (.sema h ls g sem cnt) ls (.sema g sem cnt) 0 (some g)
  | semp (h ls sem cnt) : a.toNat < x.tiles.length → Notes s x t b a c (.semp h ls sem cnt) ls (.semp a.toNat sem cnt) 0 none
  | bara (h ls g gid) : s.focus.tile ∈ x.members gid → (∀ k ∈ b.effs, k.eff.arrival ≠ some gid) →
      Notes s x t b a c (.bara h ls g gid) ls (.bara gid g) 0 (some g)
  | barw (h ls gid) : s.focus.tile ∈ x.members gid → t.phaseOf gid ≠ a.setWidth 32 →
      Notes s x t b a c (.barw h ls gid) ls (.barw gid (a.setWidth 32)) 0 none
  | bar (h ls gid) : s.focus.tile ∈ x.members gid → (∀ k ∈ b.effs, k.eff.arrival ≠ some gid) → b.hasBar = false →
      b.hasWaita = false → b.branch ≠ some .halt → b.trap = none → Notes s x t b a c (.bar h ls gid) ls (.bar gid) 0 none
  | barc (h ls gid) : s.focus.tile ∈ x.members gid → a.toNat ≤ (x.members gid).length →
      Notes s x t b a c (.barc h ls gid) ls (.barc gid a.toNat) 0 none
  | tlbi (h ls kind) : (kind = .all ∨ a.toNat < 2 ^ 44) → Notes s x t b a c (.tlbi h ls kind) ls (.tlbi kind a) a none
  | pmig (h ls ctx leaf) : a.toNat < 2 ^ 44 → a.toNat % 2 ^ 16 = 0 → pmigOk c = true → ¬(fld c 0 2 = 0 ∧ fld c 50 2 = 1) →
      s.ctx? x.tag = some ctx → s.walk ctx a = .ok leaf → leaf.level = 3 → fld leaf.e 5 1 = 0 →
      Notes s x t b a c (.pmig h ls) ls (.pmig a c leaf.entryIpa) a none

/-- The address that an access with an offset forms (R136). -/
def accessVa (a : W64) (off : BitVec 24) : W64 := BitVec.ofInt 64 (a.toNat + off.toInt)

/-- The location that the check of R136 gives an access of the tile in focus. -/
def State.reaches (s : State) (k : AccKind) (n : Nat) (sliceOnly hostOk : Bool) (va : W64) (l : Loc) : Prop :=
  s.seqCheck s.focus.inst ⟨k, n, sliceOnly, hostOk⟩ va = .loc l

/-- An atomic, its operation, whether it is of 8 bytes, its register and its offset. -/
def atomicOf : Instr → Option (BitVec 5 × AtomicOp × Bool × BitVec 5 × BitVec 24)
  | .aadd _ ls w g off => some (ls, .add, w, g, off)
  | .aswp _ ls w g off => some (ls, .swp, w, g, off)
  | .acas _ ls w g off => some (ls, .cas, w, g, off)
  | .aand _ ls w g off => some (ls, .and, w, g, off)
  | .aor _ ls w g off => some (ls, .or, w, g, off)
  | .axor _ ls w g off => some (ls, .xor, w, g, off)
  | .amin _ ls w g off => some (ls, .min, w, g, off)
  | .amax _ ls w g off => some (ls, .max, w, g, off)
  | .aminu _ ls w g off => some (ls, .minu, w, g, off)
  | .amaxu _ ls w g off => some (ls, .maxu, w, g, off)
  | _ => none

/-- The operations that host memory takes (R151). -/
def hostAtomic (op : AtomicOp) : Bool := op == .add || op == .swp || op == .cas

/-- The word i notes under its LSID the effect of a word that names memory, at the address that its left operand and offset give and the
location that R136 finds for it. -/
inductive NotesAccess (s : State) (x : Inst) (t : Tile) (b : Block) (a c : W64) :
    Instr → BitVec 5 → Eff → W64 → Option (BitVec 5) → Prop where
  | st (h ls sz off l) : s.reaches .write sz.bytes false true (accessVa a off) l →
      NotesAccess s x t b a c (.st h ls sz off) ls (.store l sz.bytes c) (accessVa a off) none
  | stf (h ls sz off l) : s.reaches .write sz.bytes true true (accessVa a off) l →
      NotesAccess s x t b a c (.stf h ls sz off) ls (.storeFull l sz.bytes c) (accessVa a off) none
  | empty (h ls off l) : s.reaches .write 64 true true (accessVa a off) l →
      NotesAccess s x t b a c (.empty h ls off) ls (.empty l) (accessVa a off) none
  | take (h ls sz g off l) : s.reaches .atomic sz.bytes true true (accessVa a off) l → s.fullFor s.focus.inst t l = true →
      NotesAccess s x t b a c (.ldfTake h ls sz g off) ls (.take l sz.bytes g) (accessVa a off) (some g)
  | waita (h ls g off l) : s.reaches .read 8 true true (accessVa a off) l → b.hasWaita = false → b.trap = none → b.hasBar = false →
      NotesAccess s x t b a c (.waita h ls g off) ls (.waita l c g) (accessVa a off) (some g)
  | atomic (i ls op w g off l) : atomicOf i = some (ls, op, w, g, off) →
      s.reaches .atomic (if w then 8 else 4) false (hostAtomic op) (accessVa a off) l →
      NotesAccess s x t b a c i ls (.atomic op l (if w then 8 else 4) c (t.g[g.toNat]'g.isLt) g) (accessVa a off) (some g)
  | sdef (h ls st off l) : s.reaches .read 64 false true (accessVa a off) l →
      NotesAccess s x t b a c (.sdef h ls st off) ls (.sdef st (accessVa a off)) (accessVa a off) none
  | cpy (h ls off l) : s.reaches .read 64 false true (accessVa a off) l →
      NotesAccess s x t b a c (.cpy h ls off) ls (.cpy (accessVa a off)) (accessVa a off) none
  | halo (h ls off l) : s.reaches .read 64 false true (accessVa a off) l →
      NotesAccess s x t b a c (.halo h ls off) ls (.halo (accessVa a off)) (accessVa a off) none
  | ofill (h ls k off) : (∀ n < 96, ∃ l, s.reaches .read 64 false true (accessVa a off + BitVec.ofNat 64 (64 * n)) l) →
      NotesAccess s x t b a c (.ofill h ls k off) ls (.ofill k (accessVa a off)) (accessVa a off) none
  | enq (h ls q off l y) : s.reaches .read 64 false true (accessVa a off) l → s.queueOf x q = some y → y.2.enabled = true →
      y.1.st ≠ .destroyed → NotesAccess s x t b a c (.enq h ls q off) ls (.enq q (accessVa a off)) (accessVa a off) none
  | run (h ls e cnt rep l) : a.toNat / 2 % 4 = 0 → s.reaches .fetch 8 false true (BitVec.ofNat 64 (a.toNat / 8 * 8)) l →
      NotesAccess s x t b a c (.run h ls e cnt rep) ls
        (.run e (BitVec.ofNat 64 (a.toNat / 8 * 8)) (a.getLsbD 0) (cnt.toNat + 1) (rep.toNat + 1))
        (BitVec.ofNat 64 (a.toNat / 8 * 8)) none

/-! ### Loads -/

/-- A load: its LSID, size, whether it sign-extends, whether it waits for a full granule, its offset (R152, R153). -/
def loadOf : Instr → Option (BitVec 5 × Size × Bool × Bool × BitVec 24)
  | .ld _ ls sz off => some (ls, sz, false, false, off)
  | .lds _ ls sz off => some (ls, sz, true, false, off)
  | .ldf _ ls sz off => some (ls, sz, false, true, off)
  | _ => none

/-! ### Faults of firing words (R379, R380) -/

/-- sr.info of a fault of an access (R137): the instruction slot, whether it writes, whether the VA has a bit above 54, and bits 54:0 of the VA. -/
def accessInfo (slot : Nat) (write : Bool) (va : W64) : W64 :=
  BitVec.ofNat 64 (slot * 2 ^ 57 + (if write then 2 ^ 56 else 0) + (if 2 ^ 55 ≤ va.toNat then 2 ^ 55 else 0) + va.toNat % 2 ^ 55)

/-- The page fault record of a sequencer's access below its sequence (R355), where translation raised its fault. -/
def accessPage (code : Byte) (write : Bool) (va : W64) (p : Option (W64 × Nat × Bool × Nat)) : Option (BitVec 192) :=
  p.map fun p => pageContent p code 1 write va

/-- The access that a word makes when it fires with left operand a: its request, its VA, and whether sr.info calls it a write (R136, R137). -/
def accessOf (i : Instr) (a : W64) : Option (AccReq × W64 × Bool) :=
  match i, loadOf i, atomicOf i with
  | _, some (_, sz, _, full, off), _ => some (⟨.read, sz.bytes, full, true⟩, accessVa a off, false)
  | _, _, some (_, op, w, _, off) => some (⟨.atomic, if w then 8 else 4, false, hostAtomic op⟩, accessVa a off, true)
  | .st _ _ sz off, _, _ => some (⟨.write, sz.bytes, false, true⟩, accessVa a off, true)
  | .stf _ _ sz off, _, _ => some (⟨.write, sz.bytes, true, true⟩, accessVa a off, true)
  | .empty _ _ off, _, _ => some (⟨.write, 64, true, true⟩, accessVa a off, true)
  | .ldfTake _ _ sz _ off, _, _ => some (⟨.atomic, sz.bytes, true, true⟩, accessVa a off, true)
  | .waita _ _ _ off, _, _ => some (⟨.read, 8, true, true⟩, accessVa a off, false)
  | .sdef _ _ _ off, _, _ => some (⟨.read, 64, false, true⟩, accessVa a off, false)
  | .cpy _ _ off, _, _ => some (⟨.read, 64, false, true⟩, accessVa a off, false)
  | .halo _ _ off, _, _ => some (⟨.read, 64, false, true⟩, accessVa a off, false)
  | .enq _ _ _ off, _, _ => some (⟨.read, 64, false, true⟩, accessVa a off, false)
  | .run _ _ _ _ _, _, _ =>
    if a.toNat / 2 % 4 = 0 then some (⟨.fetch, 8, false, true⟩, BitVec.ofNat 64 (a.toNat / 8 * 8), false) else none
  | _, _, _ => none

/-- A field of an entry or a destination: bits of its word. -/
def bitsAt {w : Nat} (e : BitVec w) (lo n : Nat) : Nat := e.toNat / 2 ^ lo % 2 ^ n

/-- A field of a VC entry is out of the range that R171, R180 and R184 give it. -/
def entryWrong (e : W64) : Prop :=
  (bitsAt e 0 1 = 1 ∧ bitsAt e 1 16 = 0) ∨
  (if bitsAt e 59 1 = 1 then
    bitsAt e 17 6 ≠ 0 ∨ ((bitsAt e 46 2 = 1 ∨ bitsAt e 46 2 = 3) ∧ bitsAt e 23 2 ≠ 0) ∨
      (bitsAt e 46 2 = 2 ∧ (2 ≤ bitsAt e 23 2 ∨ (bitsAt e 23 2 = 0 ∧ bitsAt e 25 5 ≠ 0) ∨ 6 ≤ bitsAt e 30 16)) ∨
      (bitsAt e 46 2 = 3 ∧ bitsAt e 25 5 < 16)
  else bitsAt e 48 7 ≠ 0 ∨ bitsAt e 46 2 ≠ 0 ∨ bitsAt e 30 16 ≠ 0 ∨ bitsAt e 25 5 ≠ 0 ∨ bitsAt e 23 2 ≠ 0)

/-- The filter field of an outbound entry is 0, or names a filter that the placed image installed for its port and VC (R184). -/
def filterThere (t : Tile) (port : BitVec 2) (vc : BitVec 5) (e : W64) : Prop :=
  bitsAt e 48 7 = 0 ∨ ∃ f ∈ t.filters, f.port = port ∧ f.vc = vc ∧ f.entry.toNat = bitsAt e 48 7

/-- The word i faults when it fires with operands a and c, with a code, sr.info and, where translation raised it, a page fault record. -/
inductive Raises (s : State) (x : Inst) (t : Tile) (b : Block) (a c : W64) : Instr → Byte → W64 → Option (BitVec 192) → Prop where
  | divide (i v) : quotientOf i a c = some v → c = 0 → Raises s x t b a c i 0x15 (BitVec.ofNat 64 s.focus.slot) none
  | hvec (h ls) : a.toNat % 16 ≠ 0 → Raises s x t b a c (.mts h ls .hvec) 0x05 (BitVec.ofNat 64 s.focus.slot) none
  | wto (h ls) : 2 ^ 48 ≤ a.toNat → Raises s x t b a c (.mts h ls .wto) 0x01 (BitVec.ofNat 64 s.focus.slot) none
  | fmode (h ls) : a.toNat % 8 ∉ [1, 2, 3, 4, 5] → Raises s x t b a c (.mtsFmode h ls) 0x01 (BitVec.ofNat 64 s.focus.slot) none
  | fmodeReserved (h ls) : a.toNat / 8 % 32 ≠ 0 ∨ a.toNat / 2 ^ 13 % 8 ≠ 0 ∨ 2 ^ 17 ≤ a.toNat →
      Raises s x t b a c (.mtsFmode h ls) 0x01 (BitVec.ofNat 64 s.focus.slot) none
  | fflags (h ls) : 2 ^ 22 ≤ a.toNat → Raises s x t b a c (.mtsFflags h ls) 0x01 (BitVec.ofNat 64 s.focus.slot) none
  | epc (h ls) : t.sr.cause.getLsbD 31 = false → Raises s x t b a c (.mtsEpc h ls) 0x09 (BitVec.ofNat 64 s.focus.slot) none
  | epcMisaligned (h ls) : t.sr.cause.getLsbD 31 = true → a.toNat % 16 ≠ 0 →
      Raises s x t b a c (.mtsEpc h ls) 0x05 (BitVec.ofNat 64 s.focus.slot) none
  | hret (h) : t.sr.cause.getLsbD 31 = false → Raises s x t b a c (.hret h) 0x09 (BitVec.ofNat 64 s.focus.slot) none
  | semp (h ls sem cnt) : x.tiles.length ≤ a.toNat →
      Raises s x t b a c (.semp h ls sem cnt) 0x09 (BitVec.ofNat 64 (s.focus.slot * 2 ^ 57 + a.toNat % 2 ^ 32)) none
  | bara (h ls g gid) : s.focus.tile ∉ x.members gid →
      Raises s x t b a c (.bara h ls g gid) 0x09 (BitVec.ofNat 64 (s.focus.slot * 2 ^ 57 + gid.toNat)) none
  | barw (h ls gid) : s.focus.tile ∉ x.members gid →
      Raises s x t b a c (.barw h ls gid) 0x09 (BitVec.ofNat 64 (s.focus.slot * 2 ^ 57 + gid.toNat)) none
  | bar (h ls gid) : s.focus.tile ∉ x.members gid →
      Raises s x t b a c (.bar h ls gid) 0x09 (BitVec.ofNat 64 (s.focus.slot * 2 ^ 57 + gid.toNat)) none
  | barc (h ls gid) : s.focus.tile ∉ x.members gid →
      Raises s x t b a c (.barc h ls gid) 0x09 (BitVec.ofNat 64 (s.focus.slot * 2 ^ 57 + gid.toNat)) none
  | barcCount (h ls gid) : s.focus.tile ∈ x.members gid → (x.members gid).length < a.toNat →
      Raises s x t b a c (.barc h ls gid) 0x01 (BitVec.ofNat 64 (s.focus.slot * 2 ^ 57 + gid.toNat)) none
  | chr (h ls ch word) : (t.chan[ch.toNat]'ch.isLt).consumer ≠ 1 →
      Raises s x t b a c (.chr h ls ch word) 0x0D (BitVec.ofNat 64 (s.focus.slot * 2 ^ 57 + ch.toNat)) none
  | chw (h ls ch tag last) : (t.chan[ch.toNat]'ch.isLt).producer ≠ 1 →
      Raises s x t b a c (.chw h ls ch tag last) 0x0D (BitVec.ofNat 64 (s.focus.slot * 2 ^ 57 + ch.toNat)) none
  | access (i r va write code pg) : accessOf i a = some (r, va, write) →
      ((loadOf i).isSome = true → ∀ h m, i.shape = .seq h m → (⟨s, x, t, b, s.focus.slot, h, m, a, c⟩ : Fire).behindLoad = false) →
      s.seqCheck s.focus.inst r va = .fault code pg →
      Raises s x t b a c i code (accessInfo s.focus.slot write va) (accessPage code write va pg)
  | ofill (h ls k off n code pg) : n < 96 →
      (∀ m < n, ∃ l, s.reaches .read 64 false true (accessVa a off + BitVec.ofNat 64 (64 * m)) l) →
      s.seqCheck s.focus.inst ⟨.read, 64, false, true⟩ (accessVa a off + BitVec.ofNat 64 (64 * n)) = .fault code pg →
      Raises s x t b a c (.ofill h ls k off) code (accessInfo s.focus.slot false (accessVa a off + BitVec.ofNat 64 (64 * n)))
        (accessPage code false (accessVa a off + BitVec.ofNat 64 (64 * n)) pg)
  | enq (h ls q off l y) : s.reaches .read 64 false true (accessVa a off) l → s.queueOf x q = some y →
      y.2.enabled = false ∨ y.1.st = .destroyed →
      Raises s x t b a c (.enq h ls q off) 0x09 (accessInfo s.focus.slot false (accessVa a off)) none
  | run (h ls e cnt rep) : a.toNat / 2 % 4 ≠ 0 →
      Raises s x t b a c (.run h ls e cnt rep) 0x05 (accessInfo s.focus.slot false a) none
  | vcfmt (h ls port vc) : entryWrong a → Raises s x t b a c (.vcfmt h ls port vc) 0x01 (accessInfo s.focus.slot false s.openVa) none
  | vcfmtFilter (h ls port vc) : ¬entryWrong a → bitsAt a 59 1 = 1 → ¬filterThere t port vc a →
      Raises s x t b a c (.vcfmt h ls port vc) 0x01 (accessInfo s.focus.slot false s.openVa) none
  | vcfmtTile (h ls port vc) : ¬entryWrong a → bitsAt a 59 1 = 1 → filterThere t port vc a → bitsAt a 46 2 = 0 →
      x.tiles.length ≤ bitsAt a 30 16 →
      Raises s x t b a c (.vcfmt h ls port vc) 0x09 (accessInfo s.focus.slot false s.openVa) none
  | vcfmtNode (h ls port vc) : ¬entryWrong a → bitsAt a 59 1 = 1 → filterThere t port vc a → bitsAt a 46 2 = 1 →
      (∀ n ∈ x.nodes, n.id.toNat ≠ bitsAt a 30 16) →
      Raises s x t b a c (.vcfmt h ls port vc) 0x09 (accessInfo s.focus.slot false s.openVa) none
  | vcfmtSession (h ls port vc k) : ¬entryWrong a → bitsAt a 59 1 = 1 → filterThere t port vc a → bitsAt a 46 2 = 3 →
      s.session? x.tag (BitVec.ofNat 5 (bitsAt a 30 5)) = some k → k.opened = false ∨ k.send = false →
      Raises s x t b a c (.vcfmt h ls port vc) 0x10 (accessInfo s.focus.slot false s.openVa) none
  | vcfmtTaken (h ls port vc k i' y t' z port' vc') : ¬entryWrong a → bitsAt a 59 1 = 1 → bitsAt a 0 1 = 1 → filterThere t port vc a →
      bitsAt a 46 2 = 3 → s.session? x.tag (BitVec.ofNat 5 (bitsAt a 30 5)) = some k → k.opened = true → k.send = true →
      s.insts[i']? = some y → y.tag = x.tag → y.st ≠ .retired → y.tiles[t']? = some z →
      (i' ≠ s.focus.inst ∨ t' ≠ s.focus.tile ∨ port' ≠ port ∨ vc' ≠ vc) →
      (let e := (z.vcAt port' vc').entry
       bitsAt e 0 1 = 1 ∧ bitsAt e 59 1 = 1 ∧ bitsAt e 46 2 = 3 ∧ bitsAt e 30 16 = bitsAt a 30 16 ∧ bitsAt e 25 5 = bitsAt a 25 5) →
      Raises s x t b a c (.vcfmt h ls port vc) 0x0D (accessInfo s.focus.slot false s.openVa) none
  | vcscl (h ls port reg) : 2 ^ 32 ≤ a.toNat ∨ a.toNat / 2 ^ 23 % 256 = 255 ∨ a.toNat % 2 ^ 31 = 0 →
      Raises s x t b a c (.vcscl h ls port reg) 0x01 (accessInfo s.focus.slot false s.openVa) none
  | tlbi (h ls kind) : kind ≠ .all → 2 ^ 55 ≤ a.toNat ∨ 2 ^ 44 ≤ a.toNat % 2 ^ 54 →
      Raises s x t b a c (.tlbi h ls kind) 0x08 (accessInfo s.focus.slot false a) (accessPage 0x08 false a (some (0, 0, false, 1)))
  | tlbiSlice (h ls kind) : kind ≠ .all → 2 ^ 54 ≤ a.toNat → a.toNat < 2 ^ 54 + 2 ^ 44 →
      Raises s x t b a c (.tlbi h ls kind) 0x09 (accessInfo s.focus.slot false a) none
  | pmig (h ls) : 2 ^ 55 ≤ a.toNat ∨ 2 ^ 44 ≤ a.toNat % 2 ^ 54 →
      Raises s x t b a c (.pmig h ls) 0x08 (accessInfo s.focus.slot false a) (accessPage 0x08 false a (some (0, 0, false, 1)))
  | pmigSlice (h ls) : 2 ^ 54 ≤ a.toNat → a.toNat < 2 ^ 54 + 2 ^ 44 →
      Raises s x t b a c (.pmig h ls) 0x09 (accessInfo s.focus.slot false a) none
  | pmigMisaligned (h ls) : a.toNat < 2 ^ 44 → a.toNat % 2 ^ 16 ≠ 0 →
      Raises s x t b a c (.pmig h ls) 0x05 (accessInfo s.focus.slot false a) none
  | pmigIllegal (h ls) : a.toNat < 2 ^ 44 → a.toNat % 2 ^ 16 = 0 →
      bitsAt c 0 2 = 3 ∨ bitsAt c 2 14 ≠ 0 ∨ bitsAt c 52 12 ≠ 0 ∨ (bitsAt c 0 2 ≠ 0 ∧ bitsAt c 16 36 ≠ 0) →
      Raises s x t b a c (.pmig h ls) 0x01 (accessInfo s.focus.slot false a) none
  | pmigRemote (h ls) : a.toNat < 2 ^ 44 → a.toNat % 2 ^ 16 = 0 → pmigOk c = true → bitsAt c 0 2 = 0 → bitsAt c 50 2 = 1 →
      Raises s x t b a c (.pmig h ls) 0x09 (accessInfo s.focus.slot false a)
        (accessPage 0x09 false a (some (BitVec.ofNat 64 (bitsAt c 16 36 * 2 ^ 16), 0, false, 2)))
  | pmigWalk (h ls ctx code pg) : a.toNat < 2 ^ 44 → a.toNat % 2 ^ 16 = 0 → pmigOk c = true → ¬(bitsAt c 0 2 = 0 ∧ bitsAt c 50 2 = 1) →
      s.ctx? x.tag = some ctx → s.walk ctx a = .error (.fault code pg) →
      Raises s x t b a c (.pmig h ls) code (accessInfo s.focus.slot false a) (accessPage code false a pg)
  | pmigFaulted (h ls ctx leaf) : a.toNat < 2 ^ 44 → a.toNat % 2 ^ 16 = 0 → pmigOk c = true → ¬(bitsAt c 0 2 = 0 ∧ bitsAt c 50 2 = 1) →
      s.ctx? x.tag = some ctx → s.walk ctx a = .ok leaf → entryState leaf.e = 5 →
      Raises s x t b a c (.pmig h ls) 0x0A (accessInfo s.focus.slot false a) none
  | pmigLarge (h ls ctx leaf) : a.toNat < 2 ^ 44 → a.toNat % 2 ^ 16 = 0 → pmigOk c = true → ¬(bitsAt c 0 2 = 0 ∧ bitsAt c 50 2 = 1) →
      s.ctx? x.tag = some ctx → s.walk ctx a = .ok leaf → entryState leaf.e ≠ 3 → entryState leaf.e ≠ 5 →
      leaf.level ≠ 3 ∨ bitsAt leaf.e 5 1 = 1 →
      Raises s x t b a c (.pmig h ls) 0x09 (accessInfo s.focus.slot false a)
        (accessPage 0x09 false a (some (0, leaf.level, false, 1)))

/-! ### Values of loads -/

/-- The value of bytes, little-endian, extended by zero or by sign (R3, R152). -/
def loadedValue (signed : Bool) (bs : List Byte) : W64 :=
  if signed then BitVec.ofInt 64 (Int.bmod (ofBytes bs) (2 ^ (8 * bs.length))) else BitVec.ofNat 64 (ofBytes bs)

/-- The byte that a store of a block puts at byte k of a range (R34), where it covers it. -/
def Eff.byteFor (l : Loc) (k : Nat) : Eff → Option Byte
  | .store m n d => if l.place.1 = m.place.1 ∧ l.place.2.1 = m.place.2.1 ∧ m.place.2.2 ≤ l.place.2.2 + k ∧ l.place.2.2 + k < m.place.2.2 + n
      then some (BitVec.ofNat 8 (d.toNat / 2 ^ (8 * (l.place.2.2 + k - m.place.2.2)))) else none
  | .storeFull m n d => if l.place.1 = m.place.1 ∧ l.place.2.1 = m.place.2.1 ∧ m.place.2.2 ≤ l.place.2.2 + k
        ∧ l.place.2.2 + k < m.place.2.2 + n
      then some (BitVec.ofNat 8 (d.toNat / 2 ^ (8 * (l.place.2.2 + k - m.place.2.2)))) else none
  | _ => none

/-! ### Commit -/

/-- A block of the tile in focus that may commit, has begun no check phase, and whose tile runs with no fault to deliver (R36, R37). -/
structure MayCommit (s : State) (x : Inst) (t : Tile) (b : Block) : Prop where
  at_block : AtBlock s x t b
  settled : b.settledAll = true
  place : t.place = .running
  quiet : t.seq.pend.any = false
  going : t.seq.finished = false
  fresh : b.checking = false ∧ b.perform = none
  waited : s.waitPhase x t b = true

/-- What the release of an effect does to its tile (R37, R124, R130, R164, R174, R184, R185, R187, R236, R327). -/
inductive Released (t : Tile) : Eff → Tile → Prop where
  | sema (g sem cnt) : Released t (.sema g sem cnt)
      { t with
        sem := t.sem.set sem.toNat (t.sem[sem.toNat]'sem.isLt - cnt) sem.isLt
        g := t.g.set g.toNat ((t.sem[sem.toNat]'sem.isLt).setWidth 64) g.isLt }
  | hvec (v) : Released t (.mts .hvec v) { t with sr := { t.sr with hvec := v } }
  | wto (v) : Released t (.mts .wto v) { t with sr := { t.sr with wto := v } }
  | fmode (v) : Released t (.mtsFmode v) { t with sr := { t.sr with fmode := v } }
  | fflags (v u) : u.fflags = t.fflags &&& v → u.g = t.g → u.sr = t.sr → u.slice = t.slice → u.sem = t.sem → u.chan = t.chan →
      Released t (.mtsFflags v) u
  | epc (v) : Released t (.mtsEpc v) { t with sr := { t.sr with epc := v } }
  | sgo (st) : Released t (.sgo st) (t.modStream st fun y => { y with queue := y.queue ++ [.sgo] })
  | sstop (st) : Released t (.sstop st)
      (t.modStream st fun y => { y with queue := [], stopping := y.stopping || y.st == .running })
  | vcfmt (port : BitVec 2) (vc : BitVec 5) (v) : Released t (.vcfmt port vc v) (t.modVc port vc fun y => { y with entry := v })
  | vcscl (port : BitVec 2) (reg : BitVec 3) (v : W64) : Released t (.vcscl port reg v)
      { t with scale := t.scale.set (port.toNat * 8 + reg.toNat) (v.setWidth 32) (by have := port.isLt; have := reg.isLt; omega) }
  | run (e : StripId) (addr kload cnt rep) : Released t (.run e addr kload cnt rep)
      (t.modStrip e fun y => { y with queue := y.queue ++ [⟨addr, kload, cnt, rep, t.sr.fmode, [], none, none⟩] })
  | chr (ch) : Released t (.chr ch) (t.modChan ch.toNat fun y => { y with entries := y.entries.tail })
  | chw (ch) (v : W64) (tag last) : Released t (.chw ch v tag last)
      (t.modChan ch.toNat fun y => { y with entries := y.entries ++ [⟨v.setWidth 6144, tag, last⟩] })
  | tokp (e) : Released t (.tokp e) { t with fifo := vmod t.fifo (fifoIdx 1 (partnerId e)) (· + 1) }
  | tokw (e) : Released t (.tokw e) { t with fifo := vmod t.fifo (fifoIdx (partnerId e) 1) (· - 1) }
  | mxq (tok : W64) : Released t (.mxq tok)
      { t with mxe := { t.mxe with queue := t.mxe.queue ++ [⟨tok, t.mxe.ord, t.mxe.loadedMap⟩], ord := t.mxe.ord + 1 } }
  | oclaim (k) : t.mxe.logicAt k = .free → Released t (.oclaim k) { t with mxe := t.mxe.release (.claim k) }
  | orelease (k) : t.mxe.logicAt k = .claimed ∨ t.mxe.logicAt k = .loaded →
      Released t (.orelease k) { t with mxe := t.mxe.release (.release k) }
  | ofill (k va) : t.mxe.logicAt k = .claimed ∨ t.mxe.logicAt k = .loaded →
      Released t (.ofill k va) { t with mxe := t.mxe.release (.fill k va) }

/-- What the releases of effects in their order do to their tile. -/
inductive ReleasedAll : Tile → List Fired → Tile → Prop where
  | nil (t) : ReleasedAll t [] t
  | cons (t u w f l) : Released t f.eff u → ReleasedAll u l w → ReleasedAll t (f :: l) w

/-- The effects of a block in ascending LSID (R37). -/
def Block.ordered (b : Block) (l : List Fired) : Prop := l.Perm b.effs ∧ l.Pairwise fun e f => e.ls.toNat < f.ls.toNat

/-- The store that an effect leaves with its tile: at this package or its host (R37, R144, R153). -/
def storesAs (f : Fired) (p : PStore) : Prop :=
  (∃ l n d, f.eff = .store l n d ∧ l.isRemote = false ∧ p = .plain l n d f.va f.ipa) ∨
  (∃ l n d, f.eff = .storeFull l n d ∧ l.isRemote = false ∧ p = .full l n d) ∨ (∃ l, f.eff = .empty l ∧ l.isRemote = false ∧ p = .empty l)

/-- The state after the end of a commit of a block in the tile in focus: the tile as it stands with the block gone, its reservations
ended, its FENCE kept for later blocks, the transfer flags that it read cleared, and the count of blocks (R37, R160, R271, R276). -/
def State.committed (s : State) (tag : Byte) (b : Block) (u : Tile) : State :=
  (s.modFocus fun _ => { u with
    xflags := u.xflags &&& ~~~b.clearFlags
    reserved := []
    seq := { u.seq with block := none, fence := s.fenceAfter s.focus.inst s.focus.tile b, turn := none } }).count tag 0x11 1

/-- The block has written its registers in a tile, and nothing else of the tile has changed (R37). -/
def WritesRegisters (b : Block) (t u : Tile) : Prop :=
  u = { t with g := u.g } ∧
    ∀ r : BitVec 5, u.g[r.toNat]'r.isLt =
      match b.writes.find? fun w => w.1 == r with
      | some (_, some v) => if b.writeMask.getLsbD r.toNat then v else t.g[r.toNat]'r.isLt
      | _ => t.g[r.toNat]'r.isLt

/-- No register is written twice by a block (R32). -/
def Block.writesOnce (b : Block) : Prop := (b.writes.map (·.1)).Nodup

/-- A block that may commit with one effect, goes on at va, and whose tile has no store left to perform. -/
structure CommitsOne (s : State) (x : Inst) (t : Tile) (b : Block) (f : Fired) (va : W64) : Prop where
  may : MayCommit s x t b
  one : b.effs = [f]
  plain : b.sbar = 0 ∧ b.trap = none ∧ b.branch = some (.to va)
  once : b.writesOnce
  stores : t.sbuf = []

/-- The commit of the block in the tile in focus has ended: its registers are written, but for g, which an effect may write, and the tile goes on
at va (R37). -/
structure Ended (s s' : State) (t t' : Tile) (b : Block) (va : W64) (g : Option (BitVec 5)) : Prop where
  exec : exec .blockCommit s = .next s'
  tile : s'.tile? s.focus.inst s.focus.tile = some t'
  seq : t'.seq.next = va ∧ t'.seq.block = none ∧ t'.reserved = [] ∧ t'.sr = t.sr
  regs : ∀ r : BitVec 5, g ≠ some r → t'.g[r.toNat]'r.isLt =
    match b.writes.find? fun w => w.1 == r with
    | some (_, some v) => if b.writeMask.getLsbD r.toNat then v else t.g[r.toNat]'r.isLt
    | _ => t.g[r.toNat]'r.isLt

/-- What an atomic of n bytes writes over an old value, from its operand and its comparand, all as numbers below 2^(8n); none when it
writes nothing (R156). -/
def atomicResult (op : AtomicOp) (n old b c : Nat) : Option Nat :=
  let signed (v : Nat) : Int := Int.bmod v (2 ^ (8 * n))
  match op with
  | .add => some ((old + b) % 2 ^ (8 * n))
  | .swp => some b
  | .cas => if old = c then some b else none
  | .and => some (old &&& b)
  | .or => some (old ||| b)
  | .xor => some (old ^^^ b)
  | .min => some (if signed old ≤ signed b then old else b)
  | .max => some (if signed old ≤ signed b then b else old)
  | .minu => some (min old b)
  | .maxu => some (max old b)

/-- The n bytes at a location's home, as a number (R3). -/
def State.numberAt (s : State) (i : Nat) (l : Loc) (n : Nat) : Nat :=
  ofBytes ((List.range n).map fun k => s.byteAt i (l.plus k))

/-- Whether a location is in this package or its host, and its tile is there. -/
def State.homeHere (s : State) (i : Nat) : Loc → Prop
  | .slice t _ => (s.tile? i t).isSome = true
  | .hbm _ => True
  | .host _ => True
  | .remote _ _ => False

/-! ### Strip words (R192-R210, R224-R229) -/

/-- The word w of opcode op, with its address and captured mode, is selected on a strip of the tile in focus and nothing holds it back: its POP
token and every beat that it pops are there (R192). -/
structure MayIssue (s : State) (x : Inst) (t : Tile) (e : StripId) (op : Nat) (w : SWord) (addr md : W64) : Prop where
  inst : s.insts[s.focus.inst]? = some x
  tile : x.tiles[s.focus.tile]? = some t
  place : t.place = .running
  selected : ∃ bits, (t.strip e).cur = some (bits, addr, md)
  runs : (t.strip e).stopped = false
  beats : op ≠ 1 → (t.plan e op w).short = none
  token : w.pop ≠ 0 → t.fifoAt w.pop.toNat (stripId e) ≠ 0

/-- The beats at the heads of the channels that a word pops. -/
def Tile.poppedBeats (t : Tile) (e : StripId) (op : Nat) (w : SWord) : List ChanEntry :=
  (t.plan e op w).chans.filterMap fun k => (t.chanAt k).head

/-- The rounding of a word: its own, or that of sr.fmode as its RUN captured it (R123, R189). -/
def wordMode (w : SWord) (md : W64) : BitVec 3 := if w.rm = 0 then md.setWidth 3 else w.rm

/-- The word has issued: its operands are popped, its result f is in flight until its latency is over, its length mismatch is noted, and
nothing else of its tile has changed than the issue slot and, where the word clears lane flags, those. -/
structure Issued (s s' : State) (t t' : Tile) (e : StripId) (op : Nat) (w : SWord) (addr md : W64) (latency : Nat) (f : Flight) : Prop where
  tile : s'.tile? s.focus.inst s.focus.tile = some t'
  flight : (t'.strip e).flight = (t.strip e).flight ++ [f]
  due : f.due = t.cyc + latency
  about : f.push = w.push ∧ f.addr = addr ∧ f.mode = md ∧ f.rounded = false ∧ f.wide = (w.ty == 10)
  mismatch : f.lenmis = ((t.poppedBeats e op w).any (·.last) && (t.poppedBeats e op w).any (fun b => !b.last) && md.getLsbD 16)
  sticky : t'.lenmis = (t.lenmis || ((t.poppedBeats e op w).any (·.last) && (t.poppedBeats e op w).any fun b => !b.last))
  slot : (t'.strip e).cur = none ∧ (t'.strip e).free = t.cyc + (if w.ty = 10 then 2 else 1)
  registers : (t'.strip e).v = (t.strip e).v ∧ (t'.strip e).k = (t.strip e).k ∧ (t'.strip e).hard = (t.strip e).hard
    ∧ (t'.strip e).run = (t.strip e).run ∧ (t'.strip e).queue = (t.strip e).queue
  channels : ∀ k < 16, (t'.chanAt k).entries = if k ∈ (t.plan e op w).chans then (t.chanAt k).entries.tail else (t.chanAt k).entries
  rest : t'.g = t.g ∧ t'.sr = t.sr ∧ t'.sem = t.sem ∧ t'.slice = t.slice ∧ t'.seq = t.seq ∧ t'.mxe = t.mxe ∧ t'.stream = t.stream
  tokens : w.pop = 0 → t'.fifo = t.fifo
  others : ∀ d, d ≠ e → t'.strip d = t.strip d

/-- The data, the tag and the end bit of the result of a word with one destination D (R195). -/
def Flight.sends (f : Flight) (t : Tile) (e : StripId) (op : Nat) (w : SWord) (data : Beat) : Prop :=
  f.outs = [⟨w.d, data, t.resultTag (srcCodes e op w), (t.poppedBeats e op w).any (·.last)⟩]

/-- The beats of the operands A, B and C of a word (R193). -/
def Tile.opA (t : Tile) (e : StripId) (w : SWord) : ChanEntry := t.operandOf (t.strip e) w.ty w.a
/-- Operand B. -/
def Tile.opB (t : Tile) (e : StripId) (w : SWord) : ChanEntry := t.operandOf (t.strip e) w.ty w.b
/-- Operand C. -/
def Tile.opC (t : Tile) (e : StripId) (w : SWord) : ChanEntry := t.operandOf (t.strip e) w.ty w.c

/-! ### Lanes (R97-R106, R198-R202) -/

/-- Element j of a beat of a type that is no block format (R99). -/
def laneOf (t : BitVec 4) (b : Beat) (j : Nat) : Nat := b.toNat / 2 ^ (fmtWidth t * j) % 2 ^ fmtWidth t

/-- The value of an element of an integer type (R98): i32, i16, i8 and i4 are signed. -/
def laneInt (t : BitVec 4) (x : Nat) : Int := if t = 0xB ∨ t = 0xC ∨ t = 0x8 ∨ t = 0x9 then Int.bmod x (2 ^ fmtWidth t) else x

/-- The least and the greatest value of an integer type (R98). -/
def laneLeast (t : BitVec 4) : Int := if t = 0xB ∨ t = 0xC ∨ t = 0x8 ∨ t = 0x9 then -(2 ^ (fmtWidth t - 1)) else 0
/-- The greatest. -/
def laneMost (t : BitVec 4) : Int := if t = 0xB ∨ t = 0xC ∨ t = 0x8 ∨ t = 0x9 then 2 ^ (fmtWidth t - 1) - 1 else 2 ^ fmtWidth t - 1

/-- The result element, before it wraps to the width, of an A-strip word of an integer type, from the bits of its operands (R200-R202). -/
def integerLane (op : Nat) (t : BitVec 4) (x y z : Nat) : Option Int :=
  let w := fmtWidth t
  let a := laneInt t x
  let b := laneInt t y
  let c := laneInt t z
  let mask (p : Prop) [Decidable p] : Option Int := some (if p then -1 else 0)
  match op with
  | 0x02 => some (a + b)
  | 0x03 => some (a - b)
  | 0x04 => some (a * b)
  | 0x08 => some (min a b)
  | 0x09 => some (max a b)
  | 0x0A => some |a|
  | 0x0B => some (-a)
  | 0x0C => mask (a = b)
  | 0x0D => mask (a ≠ b)
  | 0x0E => mask (a < b)
  | 0x0F => mask (a ≤ b)
  | 0x10 => some (if z = 0 then y else x)
  | 0x11 => some x
  | 0x12 => some ((x &&& y : Nat) : Int)
  | 0x13 => some ((x ||| y : Nat) : Int)
  | 0x14 => some ((x ^^^ y : Nat) : Int)
  | 0x15 => some (-1 - x)
  | 0x16 => some (if w ≤ y then 0 else x * 2 ^ y)
  | 0x17 => some (if w ≤ y then 0 else x / 2 ^ y)
  | 0x18 => some (Int.bmod x (2 ^ w) / 2 ^ (min y w))
  | 0x19 => some (a * b / 2 ^ w)
  | 0x1A => some (a * b + c)
  | 0x1B => some (max (laneLeast t) (min (laneMost t) (a + b)))
  | 0x1C => some (max (laneLeast t) (min (laneMost t) (a - b)))
  | 0x1D => some (min (max a b) c)
  | 0x22 => some |a - b|
  | 0x23 => some ((a + b + 1) / 2)
  | 0x24 => some ((List.range w).countP fun k => decide (x < 2 ^ (w - 1 - k)))
  | 0x25 => some ((List.range w).countP fun k => x.testBit k)
  | _ => none

/-- The rational value of a finite number (R96). -/
def FVal.rat : FVal → Option ℚ
  | .fin s m e => some ((if s then -1 else 1) * (m : ℚ) * (2 : ℚ) ^ e)
  | _ => none

/-- The value of an encoding of a binary float, where it is finite. -/
def ratOf (t : BitVec 4) (x : Nat) : Option ℚ := (floatVal t x).rat

/-- The exact value of the floating-point arithmetic words, from the values of their operands (R200). -/
def exactOf (op : Nat) (a b c : ℚ) : Option ℚ :=
  match op with
  | 0x02 => some (a + b)
  | 0x03 => some (a - b)
  | 0x04 => some (a * b)
  | 0x05 => some (a * b + c)
  | 0x06 => some (a * b - c)
  | 0x07 => some (c - a * b)
  | _ => none

/-! ### The functions of the E-strip (R212-R218) -/

/-- The number u is the exact value of a function at operands a and b, where it is rational and not 0 (R212): 2^n, 10^n, log₂ 2^n, log₁₀ 10^n, a
cube root, a hypotenuse, the inverse of a square root, a square root, an inverse, a quotient. -/
def isValueOf (op : Nat) (a b u : ℚ) : Prop :=
  match op with
  | 0x03 => ∃ n : ℤ, a = n ∧ u = (2 : ℚ) ^ n
  | 0x04 => ∃ n : ℕ, a = n ∧ u = (10 : ℚ) ^ n
  | 0x07 => ∃ n : ℤ, a = (2 : ℚ) ^ n ∧ u = n
  | 0x08 => ∃ n : ℕ, a = (10 : ℚ) ^ n ∧ u = n
  | 0x1A => u * u * u = a
  | 0x1B => 0 < u ∧ u * u = a * a + b * b
  | 0x1C => 0 < u ∧ u * u * a = 1
  | 0x1D => 0 < u ∧ u * u = a
  | 0x1E => u * a = 1
  | 0x1F => b ≠ 0 ∧ u * b = a
  | _ => False

/-- A result that R216 and R217 write out exactly: a NaN with invalid; a zero; an infinity, with divide-by-zero or without; a number. -/
inductive Special where
  | nan
  | zero (neg : Bool)
  | inf (neg divide : Bool)
  | num (q : ℚ)

/-- The results of R216 at an infinity, where it writes them without π. -/
def atInf (neg : Bool) (op : Nat) : Option Special :=
  match op with
  | 0x02 | 0x03 | 0x04 => some (if neg then .zero false else .inf false false)
  | 0x05 => some (if neg then .num (-1) else .inf false false)
  | 0x06 | 0x07 | 0x08 | 0x09 => some (if neg then .nan else .inf false false)
  | 0x0A | 0x0B | 0x0C | 0x0D | 0x0E | 0x0F | 0x10 => some .nan
  | 0x13 => some (.inf neg false)
  | 0x14 => some (.inf false false)
  | 0x15 | 0x16 => some (.num (if neg then -1 else 1))
  | 0x17 => some (if neg then .num 2 else .zero false)
  | 0x18 => some (if neg then .zero false else .num 1)
  | 0x1A => some (.inf neg false)
  | 0x1C => some (if neg then .nan else .zero false)
  | 0x1D => some (if neg then .nan else .inf false false)
  | 0x1E => some (.zero neg)
  | _ => none

/-- The results of R216 at a zero, where it writes them without π. -/
def atZero (neg : Bool) (op : Nat) : Option Special :=
  match op with
  | 0x02 | 0x03 | 0x04 | 0x0B | 0x0E | 0x14 | 0x17 => some (.num 1)
  | 0x05 | 0x09 | 0x0A | 0x0C | 0x0D | 0x0F | 0x11 | 0x13 | 0x15 | 0x16 | 0x1A | 0x1D => some (.zero neg)
  | 0x06 | 0x07 | 0x08 => some (.inf true true)
  | 0x18 => some (.num (1 / 2))
  | 0x1C | 0x1E => some (.inf neg true)
  | _ => none

/-- The results of R216 at a finite number that is not 0: where the function is not defined, where it has a pole, and its written zeros. -/
def atNumber (q : ℚ) (op : Nat) : Option Special :=
  match op with
  | 0x06 | 0x07 | 0x08 => if q < 0 then some .nan else if q = 1 then some (.zero false) else none
  | 0x09 => if q < -1 then some .nan else if q = -1 then some (.inf true true) else none
  | 0x0D => if q.den = 1 then some (.zero (decide (q < 0))) else none
  | 0x0E => if q.den = 2 then some (.zero false) else none
  | 0x0F => if 1 < |q| then some .nan else none
  | 0x10 => if 1 < |q| then some .nan else if q = 1 then some (.zero false) else none
  | 0x1C | 0x1D => if q < 0 then some .nan else none
  | _ => none

/-- The results of R217 for DIV at operands that are no NaN. -/
def divSpecial : FVal → FVal → Option Special
  | .inf _, .inf _ => some .nan
  | .inf s, .fin s' _ _ => some (.inf (s != s') false)
  | .fin s _ _, .inf s' => some (.zero (s != s'))
  | .fin s m _, .fin s' m' _ =>
    if m = 0 ∧ m' = 0 then some .nan else if m' = 0 then some (.inf (s != s') true) else if m = 0 then some (.zero (s != s')) else none
  | _, _ => none

/-- An element r with the flags f delivers such a result (R215, R218): an infinity of e4m3 is 0x7F, with invalid. -/
def Special.delivered (t : BitVec 4) (r : Nat) (f : BitVec 5) : Special → Prop
  | .nan => r = defaultNaN t ∧ f = 1
  | .zero neg => r = (if neg then 2 ^ (fmtWidth t - 1) else 0) ∧ f = 0
  | .inf neg divide =>
    if t = 3 then r = 0x7F ∧ f = (if divide then 3 else 1)
    else r < 2 ^ fmtWidth t ∧ floatVal t r = .inf neg ∧ f = (if divide then 2 else 0)
  | .num q => r < 2 ^ fmtWidth t ∧ ratOf t r = some q ∧ f = 0

/-- The functions of one operand, and those that the approximate family has (R212). -/
def unaryFns : List Nat :=
  [0x02, 0x03, 0x04, 0x05, 0x06, 0x07, 0x08, 0x09, 0x0A, 0x0B, 0x0C, 0x0D, 0x0E, 0x0F, 0x10, 0x11] ++
  [0x13, 0x14, 0x15, 0x16, 0x17, 0x18, 0x1A, 0x1C, 0x1D, 0x1E]

/-- Those of one operand in the approximate family. -/
def approxFns : List Nat := [0x02, 0x03, 0x04, 0x06, 0x07, 0x18, 0x1C, 0x1D, 0x1E]

/-! ### The matrix engine (R233-R247) -/

/-- The MXE of the tile in focus holds a token that nothing holds back (R242, R48). -/
structure TokenReady (s : State) (x : Inst) (t : Tile) (h : Held) : Prop where
  inst : s.insts[s.focus.inst]? = some x
  tile : x.tiles[s.focus.tile]? = some t
  held : t.mxe.held = some h
  runs : t.mxe.stopped = false
  free : t.mxe.nextAt ≤ t.cyc
  cycle : s.cycleRuns x t = true
  nothingDue : t.duesLeft = false
  clear : s.issueClear x t = true

/-- The POP of a token that has issued (R242): its FIFO has one token less, unless it popped before or names none. -/
def tokenPops (t t' : Tile) (h : Held) : Prop :=
  t'.fifo = if tokPop h.q.tok = 0 ∨ h.popped = true then t.fifo else (t.fifoPop (tokPop h.q.tok) 6).fifo

/-- Element (i, j) of an accumulator (R233). -/
def accAt (a : AccImage) (i j : Nat) : Nat := a.toNat / 2 ^ (32 * (32 * i + j)) % 2 ^ 32

/-- The value of element n of a row of a slot, in an integer format (R233). -/
def slotInt (f : BitVec 4) (a : SlotImage) (r n : Nat) : Int := intVal f (a.toNat / 2 ^ (1536 * r + fmtWidth f * n) % 2 ^ fmtWidth f)

/-- The accumulation of R111 in integers: group by group, clamped to i32. -/
def accumulate (sgn : Int) : Int → List Int → Int
  | c, [] => c
  | c, p :: ps => accumulate sgn (max (-2 ^ 31) (min (2 ^ 31 - 1) (c + sgn * p))) ps

/-- The sum of the products of group g of row i of A and row j of B. -/
def groupProduct (fa fb : BitVec 4) (a b : SlotImage) (i j g : Nat) : Int :=
  ((List.range 16).map fun m => slotInt fa a i (16 * g + m) * slotInt fb b j (16 * g + m)).sum

/-! ### Commands and contexts (R250-R274) -/

/-- The completion that R255 gives a command. -/
def State.withCompletion (s : State) (cmd : Rec64) (result : W64) (status : Byte) : State :=
  { s with complRing := s.complRing ++
      [BitVec.ofNat 128 (status.toNat + cmd.toNat / 2 ^ 32 % 2 ^ 32 * 2 ^ 32 + result.toNat * 2 ^ 64)] }

/-- The command that an event performs, with its code (R256). -/
def commandOf : Instr → Option (Rec64 × Nat)
  | .createContext cmd => some (cmd, 0x01)
  | .loadPolicy cmd => some (cmd, 0x02)
  | .grant cmd => some (cmd, 0x03)
  | .schedule cmd => some (cmd, 0x04)
  | .pause cmd => some (cmd, 0x05)
  | .resume cmd => some (cmd, 0x06)
  | .evict cmd => some (cmd, 0x07)
  | .restore cmd => some (cmd, 0x08)
  | .destroy cmd => some (cmd, 0x09)
  | .resetVf cmd => some (cmd, 0x0A)
  | .readCounter cmd => some (cmd, 0x0B)
  | .maskFeature cmd => some (cmd, 0x0C)
  | .submit cmd => some (cmd, 0x0D)
  | _ => none

/-- The states in which a command that names a context is valid (R256). -/
def validStates : Nat → List CtxState
  | 0x02 | 0x03 => [.building]
  | 0x04 | 0x0D => [.sealed, .running, .paused]
  | 0x05 => [.running]
  | 0x06 | 0x0C => [.sealed, .paused]
  | 0x07 => [.running, .paused]
  | 0x08 => [.evicted]
  | _ => [.building, .sealed, .running, .paused, .evicted, .destroyed]

/-- The command is the next that Hazel performs, on a package that is up and not locked, and it has the code and the format of a row of
R256. -/
structure MayPerform (s : State) (cmd : Rec64) (code : Nat) : Prop where
  ready : s.boot = .ready
  unlocked : s.locked = false
  next : s.nextCommand = some cmd
  code : cmdCode cmd = code
  format : cmdFormatOk cmd = true

/-- The handle of a command names the context c, for which no command is in progress that holds this one back (R253). -/
structure Names (s : State) (cmd : Rec64) (code : Nat) (c : Context) : Prop where
  handle : s.popCommand.byHandle (cmdHandle cmd) = some c
  tag : s.popCommand.ctx? c.tag = some c
  free : c.op = none ∨ code = 0x09 ∨ code = 0x0A

/-- An argument of a command: bits of its record. -/
def arg (cmd : Rec64) (lo n : Nat) : Nat := cmd.toNat / 2 ^ lo % 2 ^ n

/-- The record of type 2 of a refusal (R257, R272). -/
def refusalRecord (c : Context) (cmd : Rec64) (code : Nat) (status : Byte) : BitVec 256 :=
  BitVec.ofNat 256 (2 + code * 2 ^ 32 + status.toNat * 2 ^ 40 + arg cmd 128 64 * 2 ^ 64 + c.audit.seq.toNat * 2 ^ 192)

/-- The context c of the first state is Destroyed in the second: it has no key, no command in progress, nothing in its queues; its sessions
are closed, and an ABORT goes to the peer of each that was open; its instances hold nothing (R270). -/
structure Gone (s s' : State) (c : Context) : Prop where
  ctx : ∃ c', s'.ctx? c.tag = some c' ∧ c'.st = .destroyed ∧ c'.keys = Keys.none ∧ c'.op = none ∧
    (∀ k : Fin 16, (c'.queues[k]).buf = [] ∧ (c'.queues[k]).started = [] ∧ (c'.queues[k]).marks = [] ∧
      (c'.queues[k]).head = (c'.queues[k]).tail) ∧
    ∀ k : Fin 32, (c'.sessions[k]).opened = false ∧ (c'.sessions[k]).part = [] ∧ ((c.sessions[k]).opened = true →
      (c'.sessions[k]).outq = [] ∧ (c.tag, BitVec.ofNat 5 k.val, (c.sessions[k]).peer, (c.sessions[k]).port) ∈ s'.aborts)
  insts : ∀ (i : Nat) (x : Inst), s.insts[i]? = some x → x.tag = c.tag →
    ∃ x', s'.insts[i]? = some x' ∧ x'.st = .retired ∧ x'.tiles = [] ∧ x'.nodes = []
  flits : ∀ p ∈ s'.ports.toList, ∀ f ∈ p.group ++ p.unacked.flatMap (·.flits), ∀ i, f.owner = some (c.tag, i) → f.cls = 0xFE

/-! ### Messages of sessions (R369) -/

/-- The context, the session, the kind and the VA of the message that an event takes. -/
def linkMessage : Instr → Option (Byte × BitVec 5 × Nat × W64)
  | .linkStreamUnits tag i _ _ _ _ => some (tag, i, 1, 0)
  | .linkDemandGrant tag i _ _ _ => some (tag, i, 2, 0)
  | .linkReadRequest tag i va _ => some (tag, i, 3, va)
  | .linkReadResponse tag i _ => some (tag, i, 4, 0)
  | .linkWrite tag i va _ _ => some (tag, i, 5, va)
  | .linkAtomic tag i va _ _ _ _ => some (tag, i, 6, va)
  | .linkAtomicResult tag i _ => some (tag, i, 7, 0)
  | .linkWriteCompletion tag i => some (tag, i, 8, 0)
  | .linkFaultReply tag i _ _ => some (tag, i, 9, 0)
  | .linkAbort tag i => some (tag, i, 10, 0)
  | _ => none

/-! ### Queues (R283-R287) -/

/-- A queue whose head packet has started and completed at once (R283-R287). -/
def Queue.ended (x : Queue) (p : Rec64) : Queue :=
  { x with
    buf := x.buf.tail
    ord := x.ord + 1
    ready := 0
    age := 0
    held := false
    completed := (x.completed + 1) % 2 ^ 24
    marks := if p.getLsbD 8 then x.marks ++ [(p.extractLsb' 16 16, if p.toNat % 256 = 5 then p.extractLsb' 64 64 else 1)] else x.marks }

/-! ### Fabric operators (R310-R312) -/

/-- The node that a firing event names, the library id of its operator, and what it does with the units that the node holds. -/
def firingOf (s : State) (k : Kernel) : Instr → Option (Nat × Nat × (FabNode → Option Firing))
  | .libSteer node => some (node, 1, steerFire)
  | .libMerge node => some (node, 2, mergeFire)
  | .packz node => some (node, 3, packzFire)
  | .unpackz node => some (node, 4, unpackzFire (Config.openUnit s.now))
  | .sortk node => some (node, 5, sortkFire)
  | .route node => some (node, 6, routeFire)
  | .sample node => some (node, 7, sampleFire)
  | .codec node => some (node, 8, codecFire)
  | .seqgen node => some (node, 9, seqgenFire)
  | .join node => some (node, 10, joinFire ((Config.openUnit s.now).setWidth 8))
  | .tenantPlotSetFiring node => some (node, 0, tenantFireOf k)
  | _ => none

end Sys2Proof.Machine
end

