-- ==== Sys2Proof/Certificates/Slice0/Obligations.lean ====
section
/-! DEFINITION. The statements for the provers. -/

open Sys2Proof Sys2Proof.Machine

/-! ### Sequencer words -/

/-- R29: a sequencer word that has fired, or that lacks a token it requires, does nothing. R31: a word with a null among the tokens that it requires fires null: its LSID is settled void, its register receives a null, and a
null token goes to its targets. -/
def Obligations.FiringRule : Prop :=
  (∀ (i : Instr) (s : State) (x : Inst) (t : Tile) (b : Block) (h : Head) (m : SeqMeta) (st : SlotSt),
    AtBlock s x t b → i.shape = .seq h m → b.slots[s.focus.slot]? = some st →
    (st.fired = true ∨ (h.pred ≠ .always ∧ st.pred = none) ∨ (m.left = true ∧ st.left = none) ∨ (m.right = true ∧ st.right = none)
      ∨ (h.pred = .onTrue ∧ ∃ v, st.pred = some (.value v) ∧ v.getLsbD 0 = false)
      ∨ (h.pred = .onFalse ∧ ∃ v, st.pred = some (.value v) ∧ v.getLsbD 0 = true)) →
    exec i s = .next s) ∧
  (∀ (i : Instr) (s : State) (x : Inst) (t : Tile) (b : Block) (h : Head) (m : SeqMeta) (st : SlotSt),
    AtBlock s x t b → i.shape = .seq h m → b.slots[s.focus.slot]? = some st → st.fired = false →
    (h.pred ≠ .always → st.pred = some .null ∨ predicateMet h.pred st.pred) → (m.left = true → st.left ≠ none) →
    (m.right = true → st.right ≠ none) →
    ((h.pred ≠ .always ∧ st.pred = some .null) ∨ (m.left = true ∧ st.left = some .null) ∨ (m.right = true ∧ st.right = some .null)) →
    (m.send = true → b.targetsOpen h) → (∀ ls, m.ls = some ls → m.load = false → ∀ p ∈ b.settled, p.1 ≠ ls) →
    (∀ ls, m.ls = some ls → m.load = true → ∀ p ∈ b.loads, p.1 ≠ ls) →
    (∀ g, nullRegister i = some g → ∀ p ∈ b.writes, p.1 ≠ g) →
    exec i s = .next (s.setBlock
      (let c := { b.marked s.focus.slot with
          settled := b.settled ++ (match m.ls with | some ls => if m.load then [] else [(ls, true)] | none => [])
          loads := b.loads ++ (match m.ls with | some ls => if m.load then [(ls, none)] else [] | none => [])
          writes := b.writes ++ (match nullRegister i with | some g => [(g, none)] | none => []) }
       if m.send then c.withTokens h .null else c)))

/-- R114, R119-R121, R129, R276, R291, R323, R329, R377: a word that only computes or reads sends its value: the moves, the arithmetic, bit-wise and shift words, the
counts and extensions, the divisions with a divisor other than 0, the tests, READ, ADRB, MFS, SEMT, the group words, QSTAT, LNKST and CTXQ. -/
def Obligations.ValueWords : Prop :=
  ∀ (i : Instr) (s : State) (x : Inst) (t : Tile) (b : Block) (h : Head) (a c v : W64),
    (arithOf i a c = some v ∨ bitsOf i a c = some v ∨ testOf i a c = some v ∨ (quotientOf i a c = some v ∧ c ≠ 0) ∨
      readOf i s x t b a = some v) →
    MayFire i s x t b h a c → b.targetsOpen h →
    exec i s = .next (s.setBlock ((b.marked s.focus.slot).withTokens h (.value v)))

/-- R115, R117, R118, R132: a branch fires once in a block, names where the sequencer goes, and CALL and CALLR send the return address. R31, R32, R114, R131, R160, R161, R276: WRITE, NULL, TRAP, FENCE, SBAR and CTXQ item 6 mark their block. -/
def Obligations.BlockWords : Prop :=
  (∀ (i : Instr) (s : State) (x : Inst) (t : Tile) (b : Block) (h : Head) (a c : W64) (r : Branch × Option W64),
    branchOf i t b a = some r → MayFire i s x t b h a c → b.targetsOpen h → b.branch = none →
    (r.1 = .halt → b.trap = none ∧ b.hasBar = false) →
    exec i s = .next (s.setBlock (b.branching s.focus.slot h r))) ∧
  (∀ (s : State) (x : Inst) (t : Tile) (b : Block) (h : Head) (a c : W64),
    (∀ g, MayFire (.write h g) s x t b h a c → (∀ p ∈ b.writes, p.1 ≠ g) →
      exec (.write h g) s = .next (s.setBlock { b.marked s.focus.slot with writes := b.writes ++ [(g, some a)] })) ∧
    (∀ mask : BitVec 32, MayFire (.null h mask) s x t b h a c → b.targetsOpen h →
      (∀ p ∈ b.settled, mask.getLsbD p.1.toNat = false) →
      exec (.null h mask) s = .next (s.setBlock ({ b.marked s.focus.slot with
        settled := b.settled ++ ((List.range 32).filter fun k => mask.getLsbD k).map fun k => (BitVec.ofNat 5 k, true) }.withTokens h .null))) ∧
    (∀ code, MayFire (.trap h code) s x t b h a c → b.trap = none → b.branch ≠ some .halt → b.hasWaita = false → b.hasBar = false →
      exec (.trap h code) s = .next (s.setBlock { b.marked s.focus.slot with trap := some code })) ∧
    (∀ sc, MayFire (.fence h sc) s x t b h a c →
      ∃ sc', exec (.fence h sc) s = .next (s.setBlock { b.marked s.focus.slot with fence := some sc' }) ∧ sc.code.toNat ≤ sc'.code.toNat ∧
        (sc' = sc ∨ b.fence = some sc')) ∧
    (∀ mask, MayFire (.sbar h mask) s x t b h a c →
      exec (.sbar h mask) s = .next (s.setBlock { b.marked s.focus.slot with sbar := b.sbar ||| mask })) ∧
    (MayFire (.ctxqClearFlags h) s x t b h a c → b.targetsOpen h →
      exec (.ctxqClearFlags h) s = .next (s.setBlock
        ({ b.marked s.focus.slot with clearFlags := b.clearFlags ||| t.xflags }.withTokens h (.value (t.xflags.setWidth 64))))))

/-- R37, R67, R130, R136, R152-R157, R184, R187, R290, R322, R327, R328, R334, R357, R359: a word that acts at commit notes its effect under its LSID when it fires, at
the location that the check of R136 gives where it names memory, and changes nothing else. R35, R185: CHR sends a word of the entry that its block
has not read yet, and notes the pop. -/
def Obligations.CommitWords : Prop :=
  (∀ (i : Instr) (s : State) (x : Inst) (t : Tile) (b : Block) (h : Head) (a c : W64) (ls : BitVec 5) (e : Eff) (va : W64)
    (g : Option (BitVec 5)),
    Notes s x t b a c i ls e va g ∨ NotesAccess s x t b a c i ls e va g → MayFire i s x t b h a c → b.unsettled ls g →
    exec i s = .next (s.setBlock (b.noting s.focus.slot ls e va (s.storeIpa x.tag e va) g))) ∧
  (∀ (s : State) (x : Inst) (t : Tile) (b : Block) (h : Head) (a c : W64) (ls : BitVec 5) (ch : BitVec 4) (word : BitVec 7) (e : ChanEntry),
    MayFire (.chr h ls ch word) s x t b h a c → b.targetsOpen h → b.unsettled ls none → (t.chan[ch.toNat]'ch.isLt).consumer = 1 →
    (t.chan[ch.toNat]'ch.isLt).entries[b.effs.countP fun k => k.eff == .chr ch]? = some e →
    exec (.chr h ls ch word) s = .next (s.setBlock ((b.noting s.focus.slot ls (.chr ch) 0 0 none).withTokens h
      (.value (BitVec.ofNat 64 (e.data.toNat / 2 ^ (64 * word.toNat)))))))

/-- R120, R130, R132, R136, R137, R184, R290, R322, R328, R334, R338, R357, R359, R373: where the operands of a word that fires raise a fault,
its tile takes that fault, of class X, with the header of its block as the address to resume: the operands that a word rejects, the
check of each access, a VC entry, a scale, a TLBI or a PMIG that is wrong. The VA in the sr.info of a VC entry and of a scale is a free value (log 20), and so
is the page fault record of a PMIG to a remote package the model's choice (log 16). -/
def Obligations.WordsRaiseFaults : Prop :=
  ∀ (i : Instr) (s : State) (x : Inst) (t : Tile) (b : Block) (h : Head) (a c : W64) (code : Byte) (info : W64)
    (page : Option (BitVec 192)),
    Raises s x t b a c i code info page → MayFire i s x t b h a c →
    exec i s = .next (s.takeFault s.focus.inst s.focus.tile ⟨code, .x, 1, info, b.header, page⟩)

/-- R34, R136, R144, R152, R153: a load from this package or its host that nothing holds back sends the bytes of its location, with the
stores of its tile and of its block before it over them, extended by zero or by sign; it reads no word with an uncorrectable error but where
those stores give every byte. R34, R144: of the bytes that a load sees, each is that of the store of its block with the highest lower LSID that covers it, and else
that of its tile as its stores before the block left it. -/
def Obligations.Loads : Prop :=
  (∀ (i : Instr) (s : State) (x : Inst) (t : Tile) (b : Block) (h : Head) (a c : W64) (ls : BitVec 5) (sz : Size) (signed full : Bool)
    (off : BitVec 24) (l : Loc) (m : SeqMeta),
    loadOf i = some (ls, sz, signed, full, off) → i.shape = .seq h m → MayFire i s x t b h a c → b.targetsOpen h →
    (∀ p ∈ b.loads, p.1 ≠ ls) → s.reaches .read sz.bytes full true (accessVa a off) l → l.isRemote = false →
    (s.badLoc s.focus.inst l sz.bytes = false ∨ ownBytes t.sbuf b.effs ls.toNat l sz.bytes = true) →
    (let f : Fire := ⟨s, x, t, b, s.focus.slot, h, m, a, 0⟩
     f.behindLoad = false ∧ f.lowerKnown l sz.bytes = true ∧ f.held l sz.bytes = false) → s.midCopy s.focus.inst l = false →
    (full = true → s.fullFor s.focus.inst t l = true) →
    exec i s = .next ((s.hbmBytes x.tag false l sz.bytes).setBlock ({ b.marked s.focus.slot with loads := b.loads ++ [(ls, some l)] }.withTokens h
      (.value (loadedValue signed (forwardBytes b.effs ls.toNat l sz.bytes (s.readOwn s.focus.inst t l sz.bytes))))))) ∧
  (∀ (effs : List Fired) (ls : Nat) (l : Loc) (bs : List Byte) (k : Nat),
    k < bs.length → (effs.map (·.ls)).Nodup →
    (∀ (e : Fired) (v : Byte), e ∈ effs → e.ls.toNat < ls → e.eff.byteFor l k = some v →
      (∀ f ∈ effs, f.ls.toNat < ls → e.ls.toNat < f.ls.toNat → f.eff.byteFor l k = none) →
      (forwardBytes effs ls l bs.length bs)[k]? = some v) ∧
    ((∀ f ∈ effs, f.ls.toNat < ls → f.eff.byteFor l k = none) → (forwardBytes effs ls l bs.length bs)[k]? = bs[k]?))

/-- R136: the checks of an access, in their order. -/
def Obligations.AddressChecks : Prop :=
  ∀ (s : State) (i : Nat) (x : Inst) (k : AccKind) (n : Nat) (sliceOnly hostOk : Bool) (va : W64),
    s.insts[i]? = some x → 0 < n →
    let r : AccReq := ⟨k, n, sliceOnly, hostOk⟩
    (2 ^ 55 ≤ va.toNat → ∃ p, s.check i r va = .fault 0x08 p) ∧
    (va.toNat < 2 ^ 55 → va.toNat % n ≠ 0 → s.check i r va = .fault 0x05 none) ∧
    (va.toNat < 2 ^ 54 → va.toNat % n = 0 → sliceOnly = true → s.check i r va = .fault 0x09 none) ∧
    (va.toNat < 2 ^ 54 → va.toNat % n = 0 → sliceOnly = false → ∀ c, s.ctx? x.tag = some c →
      (∀ h, s.translate c k va = .loc (.host h) → k = .atomic → hostOk = false → ∃ p, s.check i r va = .fault 0x09 p) ∧
      ((∀ h, s.translate c k va ≠ .loc (.host h)) ∨ k ≠ .atomic ∨ hostOk = true → s.check i r va = s.translate c k va)) ∧
    (∀ t o, va.toNat = 2 ^ 54 + t * 2 ^ 21 + o → o < 2 ^ 21 → t < 2 ^ 33 → va.toNat % n = 0 →
      (x.tiles.length ≤ t ∨ 0x128000 ≤ o → s.check i r va = .fault 0x06 none) ∧
      (∀ y, x.tiles[t]? = some y → o < 0x128000 →
        (((s.physAt y.phys).banks[bankOf y.coarse o]?).getD 0 ≠ x.tag → s.check i r va = .fault 0x07 none) ∧
        (((s.physAt y.phys).banks[bankOf y.coarse o]?).getD 0 = x.tag → s.check i r va = .loc (.slice t o))))

/-! ### Faults -/

/-- R381, R383: a tile with a handler, not in handler mode, that takes a fault which translation did not raise, sets sr.cause, sr.info and
sr.epc, discards its block, and fetches sr.hvec next; g registers, semaphores, memory and the other special registers stay. FAULT_TAKE
takes the fault that it names. R382, R390: a fault of a tile that has no handler, or that is in handler mode, ends every tile of the instance, which drains; ESCALATE
does so for the fault and the reason that it names, and FAULT_TAKE for a fault that it takes there. R383, R386: at a delivery point one pending fault is taken in the order streams, STR queue, engines 3 to 6, engine 0, with the address
that R383 gives, and the others stay pending. R355: a fault that translation raised counts a page fault record of its tile, and the record
stands at VA 0x90000 + 32 × the tile, where that memory is in this package and nothing holds the write. -/
def Obligations.FaultEntry : Prop :=
  (∀ (s : State) (x : Inst) (t : Tile) (f : FaultArg),
    s.insts[s.focus.inst]? = some x → x.tiles[s.focus.tile]? = some t → takenCode f.code = true → t.performing = false →
    t.place = .running → t.seq.finished = false → t.sr.hvec ≠ 0 → t.sr.cause.getLsbD 31 = false →
    ∃ s' t', exec (.faultTake f) s = .next s' ∧ s'.tile? s.focus.inst s.focus.tile = some t' ∧
      t' = { t with
        sr := { t.sr with cause := BitVec.ofNat 64 (2 ^ 31 + f.engine.toNat * 2 ^ 16 + f.code.toNat), info := f.info, epc := f.epc }
        seq := { t.seq with next := t.sr.hvec, block := none, park := none, outer := t.seq.park }
        reserved := []
        pageSeq := if f.page.isSome then t.pageSeq + 1 else t.pageSeq } ∧
      (f.page = none → s'.hbm = s.hbm ∧ s'.host = s.host) ∧ ∀ j k, (j ≠ s.focus.inst ∨ k ≠ s.focus.tile) → s'.tile? j k = s.tile? j k) ∧
  (∀ (s : State) (x : Inst) (t : Tile) (f : FaultArg),
    s.insts[s.focus.inst]? = some x → x.tiles[s.focus.tile]? = some t → takenCode f.code = true → t.performing = false →
    t.seq.finished = false → x.st ≠ .retired →
    (∀ r, t.escalates f r = true → ∃ s' x', exec (.escalate f r) s = .next s' ∧ s'.insts[s.focus.inst]? = some x' ∧
      x'.st = .draining ∧ x'.tiles.length = x.tiles.length ∧ ∀ y ∈ x'.tiles, y.seq.finished = true ∧ y.seq.halted = true) ∧
    (t.place = .running → (t.sr.hvec = 0 ∨ t.sr.cause.getLsbD 31 = true) →
      ∃ s' x', exec (.faultTake f) s = .next s' ∧ s'.insts[s.focus.inst]? = some x' ∧
        x'.st = .draining ∧ x'.tiles.length = x.tiles.length ∧ ∀ y ∈ x'.tiles, y.seq.finished = true ∧ y.seq.halted = true)) ∧
  (∀ (s : State) (x : Inst) (t : Tile) (f : PFault) (rest : Pend),
    s.insts[s.focus.inst]? = some x → x.tiles[s.focus.tile]? = some t → t.place = .running → t.seq.finished = false →
    t.sr.cause.getLsbD 31 = false → t.sr.hvec ≠ 0 → (∀ b, t.seq.block = some b → b.committing = false) →
    t.seq.pend.pick = some (f, rest) →
    ∃ s' t', exec .faultDelivery s = .next s' ∧ s'.tile? s.focus.inst s.focus.tile = some t' ∧
      t'.seq.pend = rest ∧ t'.seq.service = some (f.engine, f.code) ∧ t'.seq.next = t.sr.hvec ∧ t'.seq.block = none ∧
      t'.sr.cause = BitVec.ofNat 64 (2 ^ 31 + f.engine.toNat * 2 ^ 16 + f.code.toNat) ∧ t'.sr.info = f.info ∧
      t'.sr.epc = (if t.seq.halted then 0 else match t.seq.block with | some b => b.header | none => t.seq.next) ∧
      t'.pageSeq = (if f.page.isSome then t.pageSeq + 1 else t.pageSeq) ∧
      t'.g = t.g ∧ t'.sem = t.sem ∧ t'.slice = t.slice ∧ t'.sr.fmode = t.sr.fmode ∧ t'.sr.hvec = t.sr.hvec) ∧
  (∀ p : Pend, (p.pick = none ↔ p.any = false) ∧
    ∀ f rest, p.pick = some (f, rest) →
      (∃ k, (k, f) ∈ p.streams ∧ (∀ q ∈ p.streams, k.toNat ≤ q.1.toNat) ∧ rest = { p with streams := p.streams.filter fun q => q.1 != k }) ∨
      (p.streams = [] ∧ ((∃ l, p.strq = f :: l ∧ rest = { p with strq := l }) ∨
        (p.strq = [] ∧ ((p.ast = some f ∧ rest = { p with ast := none }) ∨
          (p.ast = none ∧ ((p.est = some f ∧ rest = { p with est := none }) ∨
            (p.est = none ∧ ((p.pst = some f ∧ rest = { p with pst := none }) ∨
              (p.pst = none ∧ ((p.mxe = some f ∧ rest = { p with mxe := none }) ∨
                (p.mxe = none ∧ ∃ l, p.eng0 = f :: l ∧ rest = { p with eng0 := l })))))))))))) ∧
  (∀ (s : State) (x : Inst) (t : Tile) (f : FaultArg) (p : BitVec 192) (c : Context) (h : Nat),
    s.insts[s.focus.inst]? = some x → x.tiles[s.focus.tile]? = some t → takenCode f.code = true → t.performing = false →
    t.place = .running → t.seq.finished = false → t.sr.hvec ≠ 0 → t.sr.cause.getLsbD 31 = false → f.page = some p →
    s.focus.tile < 65536 → s.ctx? x.tag = some c → c.posts = [] → c.st ≠ .evicted →
    (∀ k : Fin 32, (∀ q ∈ (c.sessions[k]).stores, q.inst ≠ noInst) ∧ ∀ a ∈ (c.sessions[k]).got, a.1.inst ≠ noInst) →
    (∀ k < 4, s.translate c .write (BitVec.ofNat 64 (0x90000 + 32 * s.focus.tile + 8 * k)) = .loc (.hbm (h + 8 * k)) ∧
      s.reservedElsewhere noInst 0 (.hbm (h + 8 * k)) 8 = false) → s.canonical = true →
    ∃ s', exec (.faultTake f) s = .next s' ∧ s'.numberAt noInst (.hbm h) 32 =
      p.toNat % 2 ^ 64 + 2 ^ 64 * (t.pageSeq + 1).toNat + 2 ^ 128 * (p.toNat / 2 ^ 64 % 2 ^ 64) + 2 ^ 192 * (p.toNat / 2 ^ 128))

/-! ### Blocks -/

/-- R27, R28, R43, R45: a block is fetched at next with its header and words, issues, and a block whose serialise bit is set issues once the
earlier work of its tile has retired; after a FENCE at package scope no kept word is fetched, and no kept word lies in the tile's own slice. -/
def Obligations.BlocksFetchAndIssue : Prop :=
  ∀ (s : State) (x : Inst) (t : Tile), s.insts[s.focus.inst]? = some x → x.tiles[s.focus.tile]? = some t →
    (∀ (lo hi : W64) (ws : List W64) (is : List Instr), t.mayFetch = true → s.recordDue x.tag s.focus.inst s.focus.tile = false →
      t.seq.next.toNat < 2 ^ 55 → t.seq.next.toNat % 16 = 0 →
      s.fetchWords s.focus.inst s.focus.tile t 2 t.seq.next = .words [lo, hi] →
      lo.toNat % 16 = 0xA → lo.toNat / 2 ^ 9 % 2 ^ 7 = 0 → hi.toNat / 2 ^ 48 = 0 →
      (let s1 := s.countFetch s.focus.inst s.focus.tile t x.tag 2 t.seq.next
       let n := 8 * (lo.toNat / 16 % 16 + 1)
       s1.fetchWords s.focus.inst s.focus.tile t n (t.seq.next + 16) = .words ws →
      ws.map (fun w => (decodeSeq w).toOption) = is.map some → firstBadWord t.sr.feat (is.map some) = none → masksFit (hi ++ lo) is = true →
       exec .blockFetch s = .next ((s1.countFetch s.focus.inst s.focus.tile t x.tag n (t.seq.next + 16)).modFocus fun u => { u with
         kept := s1.keepBlock s.focus.inst s.focus.tile t t.seq.next (lo :: hi :: ws)
         seq := { u.seq with block := some (Block.fetched t.seq.next (hi ++ lo) ws), turn := none } }))) ∧
    (∀ (k : Nat) (va : W64), t.seq.fence = some .package ∨ t.seq.fence = some .system →
      s.fetchWords s.focus.inst s.focus.tile t k va = s.fetchWords s.focus.inst s.focus.tile { t with kept := [] } k va) ∧
    (∀ (va : W64) (ws : List W64), (∀ p ∈ t.kept, p.1.ownSlice s.focus.tile = false) →
      ∀ p ∈ s.keepBlock s.focus.inst s.focus.tile t va ws, p.1.ownSlice s.focus.tile = false) ∧
    (∀ b, t.seq.block = some b → b.issued = false → t.place = .running → t.deliverable = false →
      (b.serialise = false → exec .blockIssue s = .next (s.modFocus fun t => { t with
        seq := { t.seq with block := some { b with issued := true }, turn := none } })) ∧
      (b.serialise = true → s.workRetired s.focus.inst s.focus.tile t = true →
        exec .serialiseIssue s = .next (s.modFocus fun t => { t with
          seq := { t.seq with block := some { b with issued := true }, turn := none } }))) ∧
    (∀ b, t.seq.block = some b → b.issued = true → t.place = .running → b.settledAll = false → s.nothingFires s.focus.inst b = true →
      exec .blockMalformedDetect s =
        .next (s.takeFault s.focus.inst s.focus.tile ⟨0x03, .x, 1, 128, b.header, none⟩))

/-- R37, R115, R117, R118, R131, R132: a block with no effect under an LSID that commits writes its registers, and its branch or its trap
decides what comes next; nothing else of its tile changes. A YIELD gives its tile to a context that waits for a tile, where the model's
State.tileWaiter finds one (log 29). R37, R40, R124, R130, R164, R174, R184, R185, R187, R234, R236, R237, R327: a block whose effects are all local to its tile releases
them at commit in ascending LSID. R37, R144, R153: a block whose effects are stores to this package or its host, or set or clear full/empty bits,
leaves them with the stores of its tile, in ascending LSID, to be performed. -/
def Obligations.BlockCommits : Prop :=
  (∀ (s : State) (x : Inst) (t : Tile) (b : Block), MayCommit s x t b → b.effs = [] → b.sbar = 0 → b.writesOnce →
    ∃ u, WritesRegisters b t u ∧
    (∀ va, b.branch = some (.to va) → b.trap = none →
      exec .blockCommit s = .next (s.committed x.tag b { u with seq := { u.seq with next := va } })) ∧
    (∀ va, b.branch = some (.yield va) → b.trap = none →
      exec .blockCommit s = .next (let r := s.committed x.tag b { u with seq := { u.seq with next := va } }
        if (r.tileWaiter x.tag).isSome then r.tryPreempt s.focus.inst s.focus.tile else r)) ∧
    (b.branch = some .halt → b.trap = none → t.sr.cause.getLsbD 31 = false →
      exec .blockCommit s = .next (s.committed x.tag b { u with seq := { u.seq with halted := true } })) ∧
    (b.branch = some .hret → b.trap = none → t.seq.service = none → t.seq.outer = none →
      exec .blockCommit s = .next (s.committed x.tag b { u with
        sr := { u.sr with cause := u.sr.cause &&& ~~~(0x80000000#64) }, seq := { u.seq with next := u.sr.epc, park := none } })) ∧
    (∀ va code, b.branch = some (.to va) → b.trap = some code →
      exec .blockCommit s = .next ((s.committed x.tag b { u with seq := { u.seq with next := va } }).takeFault s.focus.inst s.focus.tile
        ⟨0x14, .t, 1, code.setWidth 64, va, none⟩))) ∧
  (∀ (s : State) (x : Inst) (t : Tile) (b : Block) (es : List Fired) (va : W64), MayCommit s x t b → b.ordered es → b.sbar = 0 →
    b.writesOnce → b.branch = some (.to va) → b.trap = none → t.sbuf = [] → (∃ u, ReleasedAll t es u) →
    ∃ u w, ReleasedAll t es u ∧ WritesRegisters b u w ∧
      exec .blockCommit s = .next (s.committed x.tag b { w with seq := { w.seq with next := va } })) ∧
  (∀ (s : State) (x : Inst) (t : Tile) (b : Block) (es : List Fired) (va : W64) (ps : List PStore), MayCommit s x t b → b.ordered es →
    b.sbar = 0 → b.writesOnce → b.branch = some (.to va) → b.trap = none → (∀ q ∈ t.sbuf, q.loc.isRemote = false) →
    List.Forall₂ storesAs es ps →
    ∃ w, WritesRegisters b { t with sbuf := t.sbuf ++ ps } w ∧
      exec .blockCommit s = .next (s.committed x.tag b { w with seq := { w.seq with next := va } }))

/-- R37, R39, R149, R154, R155, R157, R163, R179, R183, R184, R234, R236, R290, R328, R330, R333, R335-R338, R357, R359: what the commit of one effect does
beyond its tile's own registers: an LDF.TAKE takes its granule, or replays and joins the granule's list; a WAITA compares and parks as one step; an increment
reaches its semaphore, a saved tile's state, or overflows; arrivals and counts go to the table; an invalidation and a migration are
released; SDEF, CPY, HALO and ENQ read their 64 bytes and pass them on, or fault; a slot in the wrong state faults. That a tile not on a
full list may take is log 73; that an SDEF whose read fails is queued with its fault is log 78. -/
def Obligations.CommitEffects : Prop :=
  ∀ (s : State) (x : Inst) (t : Tile) (b : Block) (f : Fired) (va : W64), CommitsOne s x t b f va → s.canonical = true →
    (∀ ht o n g y, f.eff = .take (.slice ht o) n g → n ≤ 8 → x.tiles[ht]? = some y → s.badLoc s.focus.inst (.slice ht o) n = false →
      s.reservedElsewhere s.focus.inst s.focus.tile (.slice ht (o / 64 * 64)) 64 = false →
      (y.isFull (o / 64) = true → (∀ w ∈ b.writes, w.1 = g → w.2 = none) →
        (match y.takes.filter fun k => k.granule == o / 64 with
          | [] => True
          | k :: l => k.tile = s.focus.tile ∨ ((∀ a ∈ l, a.tile ≠ s.focus.tile) ∧
              64 ≤ (y.takes.filter fun a => bankOf y.coarse (64 * a.granule) == bankOf y.coarse (64 * (o / 64))).length)) →
        ∃ s' t' y', Ended s s' t t' b va (some g) ∧ s'.tile? s.focus.inst ht = some y' ∧
          t'.g[g.toNat]'g.isLt = BitVec.ofNat 64 (s.numberAt s.focus.inst (.slice ht o) n) ∧
          (∀ k, y'.isFull k = (y.isFull k && k != o / 64)) ∧
          y'.takes = (y.takes.filter fun a => !(a.granule == o / 64 && a.tile == s.focus.tile)).map (fun a =>
            if a.granule == o / 64 then { a with granted := none } else a) ∧
          ∀ k : Loc, s'.byteAt s.focus.inst k = s.byteAt s.focus.inst k) ∧
      (y.isFull (o / 64) = false → (∀ a ∈ y.takes, a.granule = o / 64 → a.tile ≠ s.focus.tile) →
        (y.takes.filter fun a => bankOf y.coarse (64 * a.granule) == bankOf y.coarse (64 * (o / 64))).length < 64 →
        ∃ s' t' y', exec .blockCommit s = .next s' ∧ s'.tile? s.focus.inst s.focus.tile = some t' ∧ s'.tile? s.focus.inst ht = some y' ∧
          t'.seq.next = b.header ∧ t'.seq.block = none ∧ t'.g = t.g ∧ y'.takes = y.takes ++ [⟨o / 64, s.focus.tile, none⟩] ∧ y'.full = y.full)) ∧
    (∀ ht o cmp g y, f.eff = .waita (.slice ht o) cmp g → x.tiles[ht]? = some y → s.badLoc s.focus.inst (.slice ht o) 8 = false →
      (∀ w ∈ b.writes, w.1 = g → w.2 = none) → s.reservedElsewhere s.focus.inst s.focus.tile (.slice ht (o / 8 * 8)) 8 = false →
      ∃ s' t' y', Ended s s' t t' b va (some g) ∧ s'.tile? s.focus.inst ht = some y' ∧ y'.slice = y.slice ∧
        (let watching := (y.watches.filter fun w => bankOf y.coarse (64 * w.granule) == bankOf y.coarse o).length
         (s.numberAt s.focus.inst (.slice ht o) 8 ≠ cmp.toNat → t'.g[g.toNat]'g.isLt = 1 ∧ t'.seq.park = t.seq.park ∧ y'.watches = y.watches) ∧
         (s.numberAt s.focus.inst (.slice ht o) 8 = cmp.toNat → 64 ≤ watching →
           t'.g[g.toNat]'g.isLt = 0 ∧ t'.seq.park = t.seq.park ∧ y'.watches = y.watches) ∧
         (s.numberAt s.focus.inst (.slice ht o) 8 = cmp.toNat → watching < 64 →
           t'.seq.park = some (.waita ht o g (t.sr.wto.toNat % 2 ^ 48) 0 none) ∧ y'.watches = y.watches ++ [⟨o / 64, s.focus.tile⟩]))) ∧
    (∀ k sem cnt y, f.eff = .semp k sem cnt → x.tiles[k]? = some y →
      ∃ s' t' y', Ended s s' t t' b va none ∧ s'.tile? s.focus.inst k = some y' ∧
        (y.place = .saved → y'.sem = y.sem ∧ y'.heldInc = y.heldInc ++ [⟨sem, cnt, BitVec.ofNat 16 s.focus.tile⟩]) ∧
        (y.place ≠ .saved → (y.sem[sem.toNat]'sem.isLt).toNat + cnt.toNat < 65536 →
          y'.sem = y.sem.set sem.toNat (y.sem[sem.toNat]'sem.isLt + cnt) sem.isLt ∧ y'.seq.pend = y.seq.pend) ∧
        (y.place ≠ .saved → 65536 ≤ (y.sem[sem.toNat]'sem.isLt).toNat + cnt.toNat → y.seq.finished = false → y.seq.pend.eng0.length < 16 →
          y'.sem = y.sem ∧ y'.seq.pend = { y.seq.pend with eng0 := y.seq.pend.eng0 ++
            [⟨0x0C, 0, BitVec.ofNat 64 (cnt.toNat * 2 ^ 32 + (BitVec.ofNat 16 s.focus.tile).toNat * 2 ^ 16 + sem.toNat), none⟩] })) ∧
    (∀ gid, f.eff = .bar gid ∨ (∃ g, f.eff = .bara gid g) →
      ∃ s' x' t', exec .blockCommit s = .next s' ∧ s'.insts[s.focus.inst]? = some x' ∧ x'.tiles[s.focus.tile]? = some t' ∧
        x'.barMsgs = x.barMsgs ++ [.arrive gid s.focus.tile] ∧ x'.bars = x.bars ∧
        t' = { t with reserved := [], seq := { t.seq with block := some { b with perform := some [f] } } }) ∧
    (∀ gid n, f.eff = .barc gid n →
      ∃ s' t' x', Ended s s' t t' b va none ∧ s'.insts[s.focus.inst]? = some x' ∧ x'.barMsgs = x.barMsgs ++ [.count gid s.focus.tile n] ∧
        x'.bars = x.bars) ∧
    (∀ kind v c, f.eff = .tlbi kind v → s.ctx? x.tag = some c →
      ∃ s' t' c', Ended s s' t t' b va none ∧ t'.seq.invWait = true ∧ s'.ctx? x.tag = some c' ∧
        c'.invals = c.invals ++ [(s.focus.inst, s.focus.tile, kind, v)] ∧ c'.migs = c.migs) ∧
    (∀ v d p c, f.eff = .pmig v d p → s.ctx? x.tag = some c →
      ∃ s' t' c', Ended s s' t t' b va none ∧ s'.ctx? x.tag = some c' ∧ c'.invals = c.invals ∧
        c'.migs = c.migs ++ [{ inst := s.focus.inst, tile := s.focus.tile, va := v, d := d, leafIpa := p, phase := .released }]) ∧
    (∀ k, (f.eff = .oclaim k ∧ t.mxe.logicAt k ≠ .free) ∨ (f.eff = .orelease k ∧ t.mxe.logicAt k = .free) ∨
        ((∃ v, f.eff = .ofill k v) ∧ t.mxe.logicAt k = .free) →
      exec .blockCommit s = .next ((s.modFocus fun t => { t with reserved := [] }).takeFault s.focus.inst s.focus.tile
        ⟨0x0F, .c, 1, BitVec.ofNat 64 (f.slot * 2 ^ 57 + k.toNat), b.header, none⟩)) ∧
    (let s0 := s.modFocus fun t => { t with reserved := [] }
     (∀ ps bs s1 d, s0.checkRange s.focus.inst x.tag (match f.eff with | .sdef _ _ => 2 | _ => 0) .read false f.va 64 64 = .ok ps →
       s0.readPieces s.focus.inst s.focus.tile (whoDesc f.ls) x.tag ps = (.bytes bs, s1) → (∀ p ∈ ps, p.1.isRemote = false) →
       d = BitVec.ofNat 512 (ofBytes bs) →
       (∀ st v, f.eff = .sdef st v → ∃ s' t', Ended s s' t t' b va none ∧
         (t'.stream[st.toNat]'st.isLt).queue = (t.stream[st.toNat]'st.isLt).queue ++ [.sdef d] ∧
         ∀ k : BitVec 4, k ≠ st → t'.stream[k.toNat]'k.isLt = t.stream[k.toNat]'k.isLt) ∧
       (∀ v e, f.eff = .cpy v → s.copy[t.phys / 64]? = some e → x.escalated = false → ∃ s' t' e', Ended s s' t t' b va none ∧
         s'.copy[t.phys / 64]? = some e' ∧ e'.ord = e.ord + 1 ∧ e'.active = e.active ∧
         ∃ bound, e'.waiting = e.waiting ++ [⟨.tile t.phys, s.focus.inst, s.focus.tile, d, t.sr.fmode.setWidth 3,
           max (d.toNat / 2 ^ 510) bound, bound, e.ord, 0, none⟩] ∧
           ∀ c, s.ctx? x.tag = some c → bound = (match c.policy with | some p => p.bound | none => 0)) ∧
       (∀ v, f.eff = .halo v → ∃ s' t', Ended s s' t t' b va none ∧
         t'.halos = t.halos ++ [{ desc := d, va := v, left := none, sent := false }]) ∧
       (∀ q v c, f.eff = .enq q v → s.ctx? x.tag = some c → ∃ s' t' c', Ended s s' t t' b va none ∧ s'.ctx? x.tag = some c' ∧
         c'.launches = (if d.toNat % 256 = 1 then c.launches + 1 else c.launches) ∧
         c'.queues[q.toNat]'q.isLt = { c.queues[q.toNat]'q.isLt with buf := (c.queues[q.toNat]'q.isLt).buf ++ [(d, c'.launches)] })) ∧
     (∀ pf, s0.checkRange s.focus.inst x.tag (match f.eff with | .sdef _ _ => 2 | _ => 0) .read false f.va 64 64 = .bad pf →
       (∀ st v, f.eff = .sdef st v → ∃ s' t', Ended s s' t t' b va none ∧ (t'.stream[st.toNat]'st.isLt).queue =
         (t.stream[st.toNat]'st.isLt).queue ++ [.bad { pf with info := accessInfo f.slot false f.va }]) ∧
       ((∃ v, f.eff = .cpy v) ∨ (∃ v, f.eff = .halo v) ∨ (∃ q v, f.eff = .enq q v) → t.seq.pend.eng0.length < 16 →
         pf.engine = 0 → ∃ s' t', Ended s s' t t' b va none ∧ t'.halos = t.halos ∧ s'.copy = s.copy ∧
         t'.seq.pend = { t.seq.pend with eng0 := t.seq.pend.eng0 ++ [{ pf with info := accessInfo f.slot false f.va }] })))

/-- R37, R38, R144, R151, R156: a block whose one effect is an atomic at this package or its host performs it at commit: its register
receives the old value, and its bytes the new one; no other byte of memory changes. -/
def Obligations.CommitAtomics : Prop :=
  ∀ (s : State) (x : Inst) (t : Tile) (b : Block) (f : Fired) (va : W64) (op : AtomicOp) (l : Loc) (n : Nat) (v c : W64) (g : BitVec 5),
    MayCommit s x t b → b.effs = [f] → f.eff = .atomic op l n v c g → (n = 4 ∨ n = 8) → b.sbar = 0 → b.writesOnce →
    (∀ w ∈ b.writes, w.1 = g → w.2 = none) → b.branch = some (.to va) → b.trap = none → t.sbuf = [] → s.homeHere s.focus.inst l →
    s.badLoc s.focus.inst l n = false → s.reservedElsewhere s.focus.inst s.focus.tile (l.align 8) 8 = false → s.canonical = true →
    ∃ s' t', exec .blockCommit s = .next s' ∧ s'.tile? s.focus.inst s.focus.tile = some t' ∧
      t'.g[g.toNat]'g.isLt = BitVec.ofNat 64 (s.numberAt s.focus.inst l n) ∧ t'.seq.next = va ∧ t'.seq.block = none ∧
      s'.numberAt s.focus.inst l n =
        (atomicResult op n (s.numberAt s.focus.inst l n) (v.toNat % 2 ^ (8 * n)) (c.toNat % 2 ^ (8 * n))).getD (s.numberAt s.focus.inst l n) ∧
      ∀ k : Loc, (∀ j < n, k ≠ l.plus j) → s'.byteAt s.focus.inst k = s.byteAt s.focus.inst k

/-- R142, R144, R153: a home performs the first store that a tile has committed: its bytes, and its granule's full/empty bit, change, and no
other byte of any memory that its instance reads. R352, R355: a host that refuses a store leaves memory as it is, and its tile has TRANSLATION
pending with engine 0 and a page fault record with the IPA of the access, stage 2. -/
def Obligations.StoresPerformed : Prop :=
  (∀ (s : State) (x : Inst) (t : Tile) (p : PStore) (rest : List PStore) (e : Instr),
    s.insts[s.focus.inst]? = some x → x.tiles[s.focus.tile]? = some t → t.sbuf = p :: rest → (∀ q ∈ rest, q.loc.isRemote = false) →
    s.homeHere s.focus.inst p.loc → s.reservedElsewhere s.focus.inst s.focus.tile p.loc p.extent = false → s.canonical = true →
    ((∃ k o, p.loc = .slice k o ∧ e = .sliceBankServe) ∨ (∃ o, p.loc = .hbm o ∧ e = .hbmAccessPerformed)
      ∨ (∃ o, p.loc = .host o ∧ e = .pcieCompletion true)) →
    ∃ s' t', exec e s = .next s' ∧ s'.tile? s.focus.inst s.focus.tile = some t' ∧ t'.sbuf = rest ∧
      (∀ l n d, p.bytes = some (l, bytesOf n d) → n ≤ 8 → s'.numberAt s.focus.inst l n = d.toNat % 2 ^ (8 * n) ∧
        ∀ k : Loc, (∀ j < n, k ≠ l.plus j) → s'.byteAt s.focus.inst k = s.byteAt s.focus.inst k) ∧
      (p.bytes = none → ∀ k : Loc, s'.byteAt s.focus.inst k = s.byteAt s.focus.inst k) ∧
      (∀ k o y, p.loc = .slice k o → s'.tile? s.focus.inst k = some y →
        ((∃ l n d, p = .full l n d) → y.isFull (o / 64) = true) ∧ (p = .empty p.loc → y.isFull (o / 64) = false))) ∧
  (∀ (s : State) (x : Inst) (t : Tile) (o n : Nat) (d va ipa : W64) (rest : List PStore),
    s.insts[s.focus.inst]? = some x → x.tiles[s.focus.tile]? = some t → t.sbuf = .plain (.host o) n d va ipa :: rest →
    (∀ q ∈ rest, q.loc.isRemote = false) → t.seq.finished = false → t.seq.pend.eng0.length < 16 →
    ∃ s' t', exec (.pcieCompletion false) s = .next s' ∧ s'.tile? s.focus.inst s.focus.tile = some t' ∧
      t' = { t with
        sbuf := rest
        seq := { t.seq with pend := { t.seq.pend with eng0 := t.seq.pend.eng0 ++
          [⟨0x08, 0, accessInfo 0 true va, some (pageContent (ipa, 0, false, 2) 0x08 0 true va)⟩] } } } ∧
      s'.hbm = s.hbm ∧ s'.host = s.host)

/-! ### Homes and barriers -/

/-- R140, R155: a check phase that holds only some of its reservations gives them up, at any moment (log 35); a full granule is granted to the head of its take
list; a head that has not taken within 64 tile cycles moves to the tail. R158: a wake-up ends the park of a tile whose WAITA watches its granule, with reason 2; a limit that has run out ends it with reason 3, or with 2 where a wake-up is on its way (log 71), and its
watch, or that wake-up, with it. R141: a bank that changes owner takes the new tag; where a tile of an instance stands on it, it is closed to its owner first; once it is
closed, with no store to it left to perform, no command at work and no commit there, every byte of the bank reads 0, every granule of it is empty, and it is open. -/
def Obligations.Homes : Prop :=
  (∀ (s : State) (x : Inst) (t : Tile), s.insts[s.focus.inst]? = some x → x.tiles[s.focus.tile]? = some t →
    (∀ b, t.seq.block = some b → b.checking = true → b.perform = none → t.reserved.length ≠ b.reservations.length →
      exec .reservationRetry s = .next (s.modFocus fun t => { t with
        reserved := [], seq := { t.seq with block := some { b with checking := false } } })) ∧
    (∀ g k rest, t.isFull g = true → takeHead g t.takes = some (k, rest) → k.granted = none →
      ∃ s' t', exec (.takeListGrant g) s = .next s' ∧ s'.tile? s.focus.inst s.focus.tile = some t' ∧
        (takeHead g t'.takes).map (·.1) = some { k with granted := some 0 } ∧ t' = { t with takes := t'.takes } ∧
        t'.takes.map (fun a => (a.granule, a.tile)) = t.takes.map (fun a => (a.granule, a.tile))) ∧
    (∀ g k rest n, takeHead g t.takes = some (k, rest) → k.granted = some n → 64 ≤ n →
      exec (.takeHeadTimeout g) s = .next (s.modFocus fun t => { t with takes := rest ++ [⟨g, k.tile, none⟩] }))) ∧
  (∀ (s : State) (x : Inst) (t : Tile), s.insts[s.focus.inst]? = some x → x.tiles[s.focus.tile]? = some t →
    (∀ w rest y o g lim n, t.wakes = w :: rest → x.tiles[w.tile]? = some y → y.place = .running →
      y.seq.park = some (.waita s.focus.tile o g lim n none) → y.seq.outer = none → o / 64 = w.granule →
      ∃ s' y' t', exec .waitaWake s = .next s' ∧ s'.tile? s.focus.inst w.tile = some y' ∧ s'.tile? s.focus.inst s.focus.tile = some t' ∧
        t'.wakes = rest ∧ y'.g = y.g.set g.toNat 2 g.isLt ∧ y'.seq = { y.seq with park := none } ∧ y'.sem = y.sem ∧ y'.slice = y.slice) ∧
    (∀ home o g lim n y, t.seq.park = some (.waita home o g lim n none) → t.seq.outer = none → lim ≠ 0 → lim ≤ n → t.place = .running →
      x.tiles[home]? = some y →
      ∃ s' t' y', exec .waitaTimeout s = .next s' ∧ s'.tile? s.focus.inst s.focus.tile = some t' ∧ s'.tile? s.focus.inst home = some y' ∧
        t'.g = t.g.set g.toNat (if (⟨o / 64, s.focus.tile⟩ : Watch) ∈ y.wakes then 2 else 3) g.isLt ∧ t'.seq = { t.seq with park := none } ∧ t'.sem = t.sem ∧ t'.slice = t.slice ∧
        ((⟨o / 64, s.focus.tile⟩ : Watch) ∈ y.wakes → y'.wakes = y.wakes.erase ⟨o / 64, s.focus.tile⟩ ∧ y'.watches = y.watches) ∧
        ((⟨o / 64, s.focus.tile⟩ : Watch) ∉ y.wakes → y'.watches = y.watches.erase ⟨o / 64, s.focus.tile⟩ ∧ y'.wakes = y.wakes))) ∧
  (∀ (s : State) (p : Nat) (k : BitVec 4) (tag : Byte),
    ((∀ x ∈ s.insts, x.st ≠ .retired → ∀ y ∈ x.tiles, y.phys = p → y.place = .saved) →
      ∃ s', exec (.bankReassign p k tag) s = .next s' ∧ (s'.physAt p).banks[k.toNat]'k.isLt = tag ∧ s'.insts = s.insts ∧
        ∀ q, q ≠ p → s'.physAt q = s.physAt q) ∧
    (∀ i j x y, s.insts[i]? = some x → x.tiles[j]? = some y → x.st ≠ .retired → y.phys = p → y.place ≠ .saved →
      (∀ a < i, ∀ z, s.insts[a]? = some z → z.st ≠ .retired → ∀ u ∈ z.tiles, u.phys = p → u.place = .saved) →
      (∀ a < j, ∀ u, x.tiles[a]? = some u → u.phys = p → u.place = .saved) →
      (k.toNat ∉ (s.physAt p).closed →
        exec (.bankReassign p k tag) s = .next (s.modPhys p fun a => { a with closed := insertNat k.toNat a.closed })) ∧
      (k.toNat ∈ (s.physAt p).closed →
       (∀ h u, x.tiles[h]? = some u → s.commandsOut i h u = false ∧ (∀ q ∈ u.sbuf, inBank j y.coarse k.toNat q.loc = false) ∧
         ∀ b, u.seq.block = some b → b.perform = none ∧ b.checking = false) →
      ∃ s' y', exec (.bankReassign p k tag) s = .next s' ∧ (s'.physAt p).banks[k.toNat]'k.isLt = tag ∧ s'.tile? i j = some y' ∧
        k.toNat ∉ (s'.physAt p).closed ∧
        (∀ o, bankOf y.coarse o = k.toNat → s.canonical = true → y'.slice.get o = 0) ∧
        (∀ g, bankOf y.coarse (64 * g) = k.toNat → y'.isFull g = false) ∧ y'.g = y.g ∧ y'.sem = y.sem)))

/-- R333, R335, R337: the table performs an arrival: it counts, and at the target the phase moves on, nobody has arrived, and every member is
told; a BARA receives the phase joined, which overtakes the notices on their way to its tile (log 82). Other groups are not touched. R333, R336-R338: the table performs a BARC, which may complete the phase; a notice makes a phase known at its tile and ends the park of a BAR
that waited for it. -/
def Obligations.Barriers : Prop :=
  (∀ (s : State) (x : Inst) (gid : BitVec 8) (k : Nat) (rest : List BarMsg), s.insts[s.focus.inst]? = some x →
    takeBarMsg s.focus.tile x.barMsgs = some (.arrive gid k, rest) →
    (let on := x.notices.filter fun n => !(n.1 == gid && n.2.1 == s.focus.tile)
    ∃ s' x', exec .barrierArrival s = .next s' ∧ s'.insts[s.focus.inst]? = some x' ∧ x'.barMsgs = rest ∧
      (∀ o, o ≠ gid → x'.bar o = x.bar o) ∧ (x'.bar gid).expected = (x.bar gid).expected ∧
      (let target := if (x.bar gid).expected = 0 then (x.members gid).length else (x.bar gid).expected
       if target ≤ (x.bar gid).count + 1 then
         (x'.bar gid).phase = (x.bar gid).phase + 1 ∧ (x'.bar gid).count = 0 ∧ (x'.bar gid).arrived = [] ∧
         x'.notices = on ++ (x.members gid).map fun m => (gid, m, (x.bar gid).phase + 1)
       else (x'.bar gid).phase = (x.bar gid).phase ∧ (x'.bar gid).count = (x.bar gid).count + 1 ∧ k ∈ (x'.bar gid).arrived ∧
         x'.notices = on) ∧
      (∀ t b e l g0 r, x.tiles[s.focus.tile]? = some t → t.seq.block = some b → b.perform = some (e :: l) → e.eff = .bara g0 r →
        ∃ t', x'.tiles[s.focus.tile]? = some t' ∧ t'.g = t.g.set r.toNat ((x.bar gid).phase.setWidth 64) r.isLt ∧
          t'.seq.block = some { b with perform := some l } ∧ t'.phaseOf gid = (x.bar gid).phase))) ∧
  (∀ (s : State) (x : Inst), s.insts[s.focus.inst]? = some x →
    (∀ gid k n rest, takeBarMsg s.focus.tile x.barMsgs = some (.count gid k n, rest) →
      ∃ s' x', exec .barrierCountUpdate s = .next s' ∧ s'.insts[s.focus.inst]? = some x' ∧ x'.barMsgs = rest ∧
        (∀ o, o ≠ gid → x'.bar o = x.bar o) ∧ (x'.bar gid).expected = n ∧
        (let target := if n = 0 then (x.members gid).length else n
         if 1 ≤ (x.bar gid).count ∧ target ≤ (x.bar gid).count then
           (x'.bar gid).phase = (x.bar gid).phase + 1 ∧ (x'.bar gid).count = 0 ∧
           x'.notices = x.notices ++ (x.members gid).map fun m => (gid, m, (x.bar gid).phase + 1)
         else (x'.bar gid).phase = (x.bar gid).phase ∧ (x'.bar gid).count = (x.bar gid).count ∧ x'.notices = x.notices)) ∧
    (∀ t gid p rest, x.tiles[s.focus.tile]? = some t → takeNotice s.focus.tile x.notices = some ((gid, p), rest) →
      ∃ s' x' t', exec .barrierAdvanceNotice s = .next s' ∧ s'.insts[s.focus.inst]? = some x' ∧ x'.notices = rest ∧
        x'.tiles[s.focus.tile]? = some t' ∧ t'.phaseOf gid = p ∧ (∀ o, o ≠ gid → t'.phaseOf o = t.phaseOf o) ∧ t'.g = t.g ∧
        (∀ q, t.seq.park = some (.bar gid q) → q ≠ p → t'.seq.park = none) ∧
        (∀ o q, t.seq.park = some (.bar o q) → o ≠ gid ∨ q = p → t'.seq.park = t.seq.park)))

/-! ### Strips -/

/-- R197: an IDLE takes its POP token, occupies the strip for as many schedule cycles as it names, and pushes its token in the last. R187, R188, R190, R211: RUN_CHECK reads the words of the RUN at the
head of a strip's queue, one read in each step, in no order; where all pass, the RUN may start with them; where a read fails or a word
does not pass, the RUN is marked with that fault, a failed read before any word (log 76), and once the work before it has retired its tile has that fault pending. R48, R189, R192: a strip selects its next word when nothing stops the schedule cycle: the word of the RUN in progress, or the first of the RUN at the
head of its queue, whose constants it takes. -/
def Obligations.StripRuns : Prop :=
  (∀ (s : State) (x : Inst) (t : Tile) (e : StripId) (w : SWord) (addr md : W64), MayIssue s x t e 1 w addr md →
    ∃ s' t', exec (.idle e w) s = .next s' ∧ s'.tile? s.focus.inst s.focus.tile = some t' ∧
      (t'.strip e).cur = none ∧ (t'.strip e).free = t.cyc + w.imm.toNat ∧ (t'.strip e).v = (t.strip e).v ∧ (t'.strip e).k = (t.strip e).k ∧
      (t'.strip e).flags = (t.strip e).flags ∧ t'.g = t.g ∧ t'.sr = t.sr ∧ t'.slice = t.slice ∧ t'.chan = t.chan ∧ t'.seq = t.seq ∧
      (2 ≤ w.imm.toNat → ∃ f, (t'.strip e).flight = (t.strip e).flight ++ [f] ∧ f.due = t.cyc + w.imm.toNat - 1 ∧ f.push = w.push ∧
        f.outs = [] ∧ f.flags = 0) ∧
      (w.imm.toNat = 1 → (t'.strip e).flight = (t.strip e).flight ∧
        ((Instr.idle e w).WellFormed = true → w.push ≠ 0 →
          t'.fifoAt (stripId e) w.push.toNat = (t.fifoAt (stripId e) w.push.toNat + 1) % 16))) ∧
  (∀ (s : State) (x : Inst) (t : Tile) (e : StripId) (q : RunReq) (l : List RunReq),
    s.insts[s.focus.inst]? = some x → x.tiles[s.focus.tile]? = some t → t.place = .running → (t.strip e).queue = q :: l →
    (t.strip e).checkFault = false → q.checked = none →
    (let n := if q.kload then 4 else 0
     let change (s : State) (f : RunReq → RunReq) : State := s.modFocus fun t => t.modStrip e fun y => { y with
       queue := match y.queue with | a :: r => f a :: r | [] => [] }
     (q.reads = (List.range (n + q.cnt)).map fun k => q.addr + BitVec.ofNat 64 (8 * k)) ∧
     (q.bad = none → (∃ va ∈ q.unread, s.checkRead e t va ≠ .wait) →
       ∃ va ∈ q.unread, (∃ w l, s.checkRead e t va = .word w l ∧
           exec (.runCheck e) s = .next (change (s.hbmBytes x.tag false l 8) fun q => { q with part := q.part ++ [(va, w)] })) ∨
         (∃ f, s.checkRead e t va = .bad f ∧
           exec (.runCheck e) s = .next (change s fun q => { q with part := [], bad := some f }))) ∧
     (q.bad = none → q.unread = [] → (∀ w ∈ q.words.drop n, wordFault t.sr.feat e w = none) →
       exec (.runCheck e) s = .next (change s fun q => { q with
         part := [], checked := some (q.words.drop n, BitVec.ofNat 256 (ofElems 64 ((q.words.take n).map (·.toNat)))) })) ∧
     (∀ c k w, q.bad = none → q.unread = [] → (q.words.drop n)[k]? = some w → wordFault t.sr.feat e w = some c →
       (∀ j < k, ∀ u, (q.words.drop n)[j]? = some u → wordFault t.sr.feat e u = none) →
       exec (.runCheck e) s = .next (change s fun q => { q with
         part := [], bad := some ⟨c, BitVec.ofNat 3 (stripId e), q.addr + BitVec.ofNat 64 (8 * (n + k)), none⟩ })) ∧
     (∀ f, q.bad = some f → (t.strip e).run = none → (t.strip e).cur = none → (t.strip e).flight = [] → (t.strip e).stopped = false →
       exec (.runCheck e) s = .next ((s.modFocus fun t => t.modStrip e fun y => { y with checkFault := true }).pendFault
         s.focus.inst s.focus.tile none f)))) ∧
  (∀ (s : State) (x : Inst) (t : Tile) (e : StripId) (w : W64 × W64 × W64),
    s.insts[s.focus.inst]? = some x → x.tiles[s.focus.tile]? = some t → t.place = .running → (t.strip e).nextWord t.cyc = some w →
    t.bindFault e w.1 = false → t.drainChan e w.1 = none → s.cycleRuns x t = true → t.duesLeft = false →
    s.issueClear x t = true →
    ∃ s' t', exec (.stripWordIssue e) s = .next s' ∧ s'.tile? s.focus.inst s.focus.tile = some t' ∧ t'.phase = .issue ∧
      (t'.strip e).cur = some w ∧ (t'.strip e).v = (t.strip e).v ∧ (t'.strip e).flight = (t.strip e).flight ∧ t'.g = t.g ∧ t'.chan = t.chan ∧
      t'.fifo = t.fifo ∧
      (∀ r, (t.strip e).run = some r → (t'.strip e).k = (t.strip e).k ∧ (t'.strip e).queue = (t.strip e).queue ∧
        (r.pos + 1 < r.words.length → (t'.strip e).run = some { r with pos := r.pos + 1 }) ∧
        (r.words.length ≤ r.pos + 1 → 1 < r.left → (t'.strip e).run = some { r with pos := 0, left := r.left - 1 }) ∧
        (r.words.length ≤ r.pos + 1 → r.left ≤ 1 → (t'.strip e).run = none)) ∧
      (∀ q l ws k, (t.strip e).run = none → (t.strip e).queue = q :: l → q.checked = some (ws, k) → (t'.strip e).queue = l ∧
        (q.kload = false → (t'.strip e).k = (t.strip e).k) ∧
        (q.kload = true → ∀ j : Fin 8, (t'.strip e).k[j] = BitVec.ofNat 32 (k.toNat / 2 ^ (32 * j.val)))))

/-- R192-R195, R200-R204: a word of the A-strip issues with the result that its opcode gives for its operands, and FLAGR and FLAGC read and
clear lane flags. -/
def Obligations.AstWords : Prop :=
  ∀ (i : Instr) (s : State) (x : Inst) (t : Tile) (op : BitVec 8) (w : SWord) (addr md : W64),
    i.shape = .strip .ast op w → i.WellFormed = true → op ≠ 1 → MayIssue s x t .ast op.toNat w addr md →
    ∃ s' t' f, exec i s = .next s' ∧ Issued s s' t t' .ast op.toNat w addr md (aLatency op.toNat w.ty) f ∧
      (op.toNat < 0x26 →
        let r := aWord op.toNat w.ty (wordMode w md) (t.opA .ast w).data (t.opB .ast w).data (t.opC .ast w).data
        f.kind = .value ∧ f.sends t .ast op.toNat w r.1 ∧ f.flags = r.2 ∧ (t'.strip .ast).flags = (t.strip .ast).flags) ∧
      (op = 0x26 → f.kind = .flagr ∧ (t'.strip .ast).flags = (t.strip .ast).flags) ∧
      (op = 0x27 → f.outs = [] ∧ ∀ lane < 192, ∀ k < 5, (t'.strip .ast).flags.getLsbD (5 * lane + k) =
        ((t.strip .ast).flags.getLsbD (5 * lane + k) && !w.imm.getLsbD k))

/-- R192-R195, R212-R229: a word of the E-strip issues with the result, the flags and the hard elements that its function gives; a word of the
approximate family with that of R229; HARDR, FLAGR and FLAGC read and clear the counters and the lane flags. -/
def Obligations.EstWords : Prop :=
  ∀ (i : Instr) (s : State) (x : Inst) (t : Tile) (op : BitVec 8) (w : SWord) (addr md : W64),
    i.shape = .strip .est op w → i.WellFormed = true → op ≠ 1 → MayIssue s x t .est op.toNat w addr md →
    ∃ s' t' f, exec i s = .next s' ∧
      Issued s s' t t' .est op.toNat w addr md (eLatency op.toNat (op.toNat < 0x20 && w.imm.getLsbD 0) w.ty) f ∧
      (op.toNat < 0x20 → w.imm.getLsbD 0 = false →
        let r := eWord op.toNat w.ty (wordMode w md) (t.opA .est w).data (t.opB .est w).data
        f.kind = .value ∧ f.sends t .est op.toNat w r.1 ∧ f.flags = r.2.1 ∧ f.hard = r.2.2 ∧ (t'.strip .est).flags = (t.strip .est).flags) ∧
      (op.toNat < 0x20 → w.imm.getLsbD 0 = true →
        let r := eApproxWord op.toNat w.ty (wordMode w md) (t.opA .est w).data (t.opB .est w).data
        f.kind = .value ∧ f.sends t .est op.toNat w r.1 ∧ f.flags = r.2 ∧ f.hard = [] ∧ (t'.strip .est).flags = (t.strip .est).flags) ∧
      (op = 0x20 → f.kind = .hardr (w.imm.getLsbD 0)) ∧ (op = 0x21 → f.kind = .flagr) ∧
      (op = 0x22 → f.outs = [] ∧ ∀ lane < 192, ∀ k < 5, (t'.strip .est).flags.getLsbD (5 * lane + k) =
        ((t.strip .est).flags.getLsbD (5 * lane + k) && !w.imm.getLsbD k))

/-- R192-R195, R205-R210: a word of the P-strip issues with its result; STEER and MERGE move a beat as their control says, SPLIT sends two, TAGS and
MARKE set the tag and the end bit, TAGT checks the tag. -/
def Obligations.PstWords : Prop :=
  ∀ (i : Instr) (s : State) (x : Inst) (t : Tile) (op : BitVec 8) (w : SWord) (addr md : W64),
    i.shape = .strip .pst op w → i.WellFormed = true → op ≠ 1 → MayIssue s x t .pst op.toNat w addr md →
    ∃ s' t' f, exec i s = .next s' ∧ Issued s s' t t' .pst op.toNat w addr md (pLatency op.toNat w.ty) f ∧ f.kind = .value ∧
      (let a := t.opA .pst w
       let b := t.opB .pst w
       let c := t.opC .pst w
       let ctl := b.data.getLsbD 0
       (op.toNat ∉ [0x10, 0x11, 0x19, 0x1A, 0x1B, 0x1C] →
         let r := pWord op.toNat w.ty (wordMode w md) w.imm a.data b.data c.data
         f.sends t .pst op.toNat w r.1 ∧ f.flags = r.2) ∧
       (op = 0x10 → f.outs = [⟨if ctl then w.d else w.c, a.data, a.tag, a.last⟩]) ∧
       (op = 0x11 → f.outs = [if ctl then ⟨w.d, a.data, a.tag, a.last⟩ else ⟨w.d, c.data, c.tag, c.last⟩]) ∧
       (op = 0x19 → ∃ d z : Beat, f.outs = [⟨w.d, d, a.tag, a.last⟩, ⟨w.c, z, a.tag, a.last⟩] ∧
         d = ofBeatElems w.ty (((beatElems w.ty a.data).zip (beatElems w.ty b.data)).filterMap fun p => if p.2 = 0 then none else some p.1) ∧
         z = ofBeatElems w.ty (((beatElems w.ty a.data).zip (beatElems w.ty b.data)).filterMap fun p => if p.2 = 0 then some p.1 else none)) ∧
       (op = 0x1A → f.outs = [⟨w.d, a.data, w.imm.setWidth 8, (t.poppedBeats .pst op.toNat w).any (·.last)⟩]) ∧
       (op = 0x1B → f.outs = [⟨w.d, a.data, t.resultTag (srcCodes .pst op.toNat w), w.imm.getLsbD 0⟩]) ∧
       (op = 0x1C → f.outs = [⟨w.d, a.data, a.tag, a.last⟩] ∧
         (f.tagt = none ↔ (a.tag ^^^ w.imm.setWidth 8) &&& w.imm.extractLsb' 8 8 = 0)))

/-- R200-R202: element by element, an A-strip word of an integer type gives the integer that its row names, wrapped to the width, and raises no
flag. R205: ROTL, BCAST, SHUF, TRN, INSL, MASKGEN and IOTA give each element as their row names it, from the elements of their operands. R104, R105, R200: where the exact
result of ADD, SUB, MUL, FMA, FMS or FNMA of finite numbers is a number of the format and not zero, the element is that number in every
rounding mode, and no flag is raised. -/
def Obligations.ElementLanes : Prop :=
  (∀ (op : Nat) (t : BitVec 4) (mode : BitVec 3) (a b c : Beat) (j : Nat) (v : Int),
    t ∈ [(0x8 : BitVec 4), 0xB, 0xC, 0xD, 0xE, 0xF] → j < 6144 / fmtWidth t →
    integerLane op t (laneOf t a j) (laneOf t b j) (laneOf t c j) = some v →
    (laneOf t (aWord op t mode a b c).1 j : Int) = v % 2 ^ fmtWidth t ∧ (aWord op t mode a b c).2 = 0) ∧
  (∀ (t : BitVec 4) (mode : BitVec 3) (imm : BitVec 19) (a b c : Beat) (j : Nat),
    t ∉ [(0x5 : BitVec 4), 0x6, 0x7] →
    (let n := 6144 / fmtWidth t
     let w := fmtWidth t
     let k := imm.toNat
     let lane (op : Nat) : Nat := laneOf t (pWord op t mode imm a b c).1 j
     j < n →
     (k ≤ n → lane 0x04 = if j + k < n then laneOf t a (j + k) else laneOf t b (j + k - n)) ∧
     (k < n → lane 0x05 = laneOf t a k) ∧
     (lane 0x03 = if laneOf t b j < n then laneOf t a (laneOf t b j) else 0) ∧
     (0 < k → k ≤ n → n % k = 0 → lane 0x16 = laneOf t a (j % (n / k) * k + j / (n / k))) ∧
     (k < n → lane 0x17 = if j = k then laneOf t a 0 else laneOf t b j) ∧
     (lane 0x14 = if j < laneOf t a 0 then 2 ^ w - 1 else 0) ∧
     (t ∈ [(0x8 : BitVec 4), 0xB, 0xC, 0xD, 0xE, 0xF] →
       (lane 0x13 : Int) = (laneInt t (laneOf t a 0) + j * laneInt t (laneOf t b 0)) % 2 ^ w))) ∧
  (∀ (op : Nat) (t : BitVec 4) (mode : BitVec 3) (x y z r : Nat) (a b c v : ℚ),
    t ∈ [(0x0 : BitVec 4), 0x1, 0x2, 0xA] → x < 2 ^ fmtWidth t → y < 2 ^ fmtWidth t → z < 2 ^ fmtWidth t → r < 2 ^ fmtWidth t →
    ratOf t x = some a → ratOf t y = some b → ratOf t z = some c → exactOf op a b c = some v → v ≠ 0 → ratOf t r = some v →
    aElem op t mode x y z = (r, 0))

/-- R207: PACKB narrows each element to the type of half its width, and saturates or wraps it; UNPACKB widens each element to the type of twice its width; neither raises
a flag. -/
def Obligations.PackedLanes : Prop :=
  ∀ (t u : BitVec 4) (mode : BitVec 3) (imm : BitVec 19) (a b c : Beat) (j : Nat),
    (t, u) ∈ [((0x8 : BitVec 4), (0x9 : BitVec 4)), (0xC, 0x8), (0xF, 0xD), (0xB, 0xC), (0xE, 0xF)] →
    (let n := 6144 / fmtWidth t
     let v := laneInt t (if j < n then laneOf t a j else laneOf t b (j - n))
     (j < 2 * n → (laneOf u (pWord 0x09 t mode imm a b c).1 j : Int) =
       (if imm.getLsbD 0 then max (laneLeast u) (min (laneMost u) v) else v) % 2 ^ fmtWidth u) ∧
     (pWord 0x09 t mode imm a b c).2 = 0 ∧
     (imm.toNat ≤ 1 → j < n → (laneOf t (pWord 0x0A u mode imm a b c).1 j : Int) = laneInt u (laneOf u a (imm.toNat * n + j)) % 2 ^ fmtWidth t) ∧
     (pWord 0x0A u mode imm a b c).2 = 0)

/-- R104: under RNE no finite number of the format lies nearer to the exact value than the one that RoundTo delivers, and of two that lie equally
near it delivers one whose last bit is 0. -/
def Obligations.RoundsToNearest : Prop :=
  ∀ (t : BitVec 4) (s : Bool) (num den : Nat) (e : Int) (u : ℚ),
    t ∈ [(0x0 : BitVec 4), 0x1, 0x2, 0x3, 0x4, 0xA] → 0 < num → 0 < den →
    (let v : ℚ := (if s then -1 else 1) * ((num : ℚ) / den) * (2 : ℚ) ^ e
     ratOf t (roundTo t 1 s num den e).1 = some u →
     ∀ r w, r < 2 ^ fmtWidth t → ratOf t r = some w → |u - v| ≤ |w - v| ∧ (|u - v| = |w - v| → u ≠ w → (roundTo t 1 s num den e).1 % 2 = 0))

/-- R212, R214: element by element, a word of the E-strip gives the value of its function: the exact one, with no flag and no hard element, where that is a number of the
format; for RCP and DIV under RNE the nearest. R215-R218: NaNs, infinities, zeros and the arguments that the tables name give what they
write. R228, R229: an approximate word gives the same special values; at whole arguments, powers of two and their inverses its cores give the exact value, and the tables T, R,
Q0 and Q1 hold the nearest integers. -/
def Obligations.ElementaryLanes : Prop :=
  (∀ (op : Nat) (t : BitVec 4) (mode : BitVec 3) (a b : Beat) (j : Nat), t ∈ [(0x0 : BitVec 4), 0x1, 0x2, 0x3, 0x4, 0xA] → j < 6144 / fmtWidth t →
    laneOf t (eWord op t mode a b).1 j = (fnElem op t mode (laneOf t a j) (laneOf t b j)).1 ∧
    laneOf t (eApproxWord op t mode a b).1 j = (approxElem op t mode (laneOf t a j) (laneOf t b j)).1 ∧
    (t = 0x0 → (eWord op t mode a b).2.1.extractLsb' (5 * j) 5 = (fnElem op t mode (laneOf t a j) (laneOf t b j)).2.1 ∧
      (eApproxWord op t mode a b).2.extractLsb' (5 * j) 5 = (approxElem op t mode (laneOf t a j) (laneOf t b j)).2)) ∧
  (∀ (op : Nat) (t : BitVec 4) (mode : BitVec 3) (x y r : Nat) (a b u : ℚ), t ∈ [(0x0 : BitVec 4), 0x1, 0x2, 0x3, 0x4, 0xA] →
    x < 2 ^ fmtWidth t → y < 2 ^ fmtWidth t → r < 2 ^ fmtWidth t → ratOf t x = some a → ratOf t y = some b → isValueOf op a b u → u ≠ 0 →
    ratOf t r = some u → fnElem op t mode x y = (r, 0, false)) ∧
  (∀ (t : BitVec 4) (x y : Nat) (a b u : ℚ), t ∈ [(0x0 : BitVec 4), 0x1, 0x2, 0x3, 0x4, 0xA] → ratOf t x = some a → ratOf t y = some b →
    a ≠ 0 → b ≠ 0 →
    (ratOf t (fnElem 0x1F t 1 x y).1 = some u → ∀ r w, r < 2 ^ fmtWidth t → ratOf t r = some w → |u - a / b| ≤ |w - a / b|) ∧
    (ratOf t (fnElem 0x1E t 1 x y).1 = some u → ∀ r w, r < 2 ^ fmtWidth t → ratOf t r = some w → |u - 1 / a| ≤ |w - 1 / a|)) ∧
  (∀ (op : Nat) (t : BitVec 4) (mode : BitVec 3) (x y : Nat), t ∈ [(0x0 : BitVec 4), 0x1, 0x2, 0x3, 0x4, 0xA] → op ∈ unaryFns →
    (∀ sg, floatVal t x = .nan sg → fnElem op t mode x y = (defaultNaN t, if sg then 1 else 0, false) ∧
      (op ∈ approxFns → approxElem op t mode x y = (defaultNaN t, if sg then 1 else 0))) ∧
    (∀ q, (∃ neg, floatVal t x = .inf neg ∧ atInf neg op = some q) ∨ (∃ neg e, floatVal t x = .fin neg 0 e ∧ atZero neg op = some q) ∨
        (∃ v, ratOf t x = some v ∧ v ≠ 0 ∧ atNumber v op = some q) →
      (let r := fnElem op t mode x y
       q.delivered t r.1 r.2.1 ∧ r.2.2 = false) ∧
      (op ∈ approxFns → (let r := approxElem op t mode x y
        q.delivered t r.1 r.2)))) ∧
  (∀ (t : BitVec 4) (mode : BitVec 3) (x y : Nat), t ∈ [(0x0 : BitVec 4), 0x1, 0x2, 0x3, 0x4, 0xA] →
    (∀ op ∈ [0x12, 0x19, 0x1B, 0x1F], floatVal t x = .nan true ∨ floatVal t y = .nan true → fnElem op t mode x y = (defaultNaN t, 1, false)) ∧
    (∀ q, divSpecial (floatVal t x) (floatVal t y) = some q →
      (let r := fnElem 0x1F t mode x y
       q.delivered t r.1 r.2.1 ∧ r.2.2 = false) ∧
      (let r := approxElem 0x1F t mode x y
       q.delivered t r.1 r.2)) ∧
    (∀ neg, floatVal t x ≠ .nan true → floatVal t y ≠ .nan true → floatVal t x = .inf neg ∨ floatVal t y = .inf neg →
      (let r := fnElem 0x1B t mode x y
       (Special.inf false false).delivered t r.1 r.2.1 ∧ r.2.2 = false)) ∧
    (floatVal t x ≠ .nan true → floatVal t y ≠ .nan true → (ratOf t y = some 0 ∨ ratOf t x = some 1) →
      (let r := fnElem 0x19 t mode x y
       (Special.num 1).delivered t r.1 r.2.1 ∧ r.2.2 = false)) ∧
    (∀ a b : ℚ, ratOf t x = some a → ratOf t y = some b → a < 0 → b.den ≠ 1 → fnElem 0x19 t mode x y = (defaultNaN t, 1, false))) ∧
  (∀ (t : BitVec 4) (mode : BitVec 3) (x y r : Nat) (n : ℤ), t ∈ [(0x0 : BitVec 4), 0x1, 0x2, 0x3, 0x4, 0xA] → r < 2 ^ fmtWidth t →
    (ratOf t x = some (n : ℚ) → -152 ≤ n → n < 128 → ratOf t r = some ((2 : ℚ) ^ n) → approxElem 0x03 t mode x y = (r, 0)) ∧
    (ratOf t x = some ((2 : ℚ) ^ n) → n ≠ 0 → ratOf t r = some (n : ℚ) → approxElem 0x07 t mode x y = (r, 0)) ∧
    (∀ neg : Bool, ratOf t x = some ((if neg then -1 else 1) * (2 : ℚ) ^ n) → ratOf t r = some ((if neg then -1 else 1) * (2 : ℚ) ^ (-n)) →
      approxElem 0x1E t mode x y = (r, 0))) ∧
  (∀ j < 64,
    ((2 * tabT.getD j 0 - 1) ^ 64 < 2 ^ (64 * 31 + j) ∧ 2 ^ (64 * 31 + j) < (2 * tabT.getD j 0 + 1) ^ 64) ∧
    (2 * tabR.getD j 0 * (64 + j) ≤ 2 ^ 37 + (64 + j) ∧ 2 ^ 37 ≤ 2 * tabR.getD j 0 * (64 + j) + (64 + j)) ∧
    ((2 * tabQ0.getD j 0 - 1) ^ 2 * (64 + j) < 64 * 2 ^ 62 ∧ 64 * 2 ^ 62 < (2 * tabQ0.getD j 0 + 1) ^ 2 * (64 + j)) ∧
    ((2 * tabQ1.getD j 0 - 1) ^ 2 * (64 + j) < 32 * 2 ^ 62 ∧ 32 * 2 ^ 62 < (2 * tabQ1.getD j 0 + 1) ^ 2 * (64 + j)))

/-! ### The schedule clock -/

/-- R194, R204, R226: a result that falls due alone on its strip is written, pushed or discarded, its flags are raised, its hard elements counted, and its
token pushed. R109, R196, R198, R210, R386: a result whose flags its mode traps, whose word met a length mismatch that faults, or whose tag differs, is delivered; its
strip stops, and its tile has the fault pending. R127, R223, R224: before the schedule cycle in which hard elements fall due, the second phase rounds them and the tile's clock runs on for 48 cycles for each
of the most in any quarter, 96 for f64. That a length mismatch with lenfault is raised as the result of its word is delivered is log 53, which R196
leaves open. -/
def Obligations.StripResults : Prop :=
  (∀ (s : State) (x : Inst) (t : Tile) (e : StripId) (f : Flight) (o : Out),
    s.insts[s.focus.inst]? = some x → x.tiles[s.focus.tile]? = some t → s.cycleRuns x t = true → t.dueOf e = [f] → f.kind = .value →
    f.outs = [o] → f.lenmis = false → f.tagt = none → (flagSummary f.flags &&& f.mode.extractLsb' 8 5) = 0 →
    ∃ s' t', exec (.stripResultDue e) s = .next s' ∧ s'.tile? s.focus.inst s.focus.tile = some t' ∧ t'.phase = .due ∧
      t'.dueOf e = [] ∧ (t'.strip e).flags = (t.strip e).flags ||| f.flags ∧ (t'.strip e).k = (t.strip e).k ∧ t'.g = t.g ∧ t'.sr = t.sr ∧
      t'.slice = t.slice ∧ t'.seq = t.seq ∧
      (∀ k : Fin 8, (t'.strip e).v[k] = if o.dst.toNat = k.val then o.data else (t.strip e).v[k]) ∧
      (∀ k : Fin 16, (t'.chanAt k.val).entries =
        if o.dst.toNat = 16 + k.val then (t.chanAt k.val).entries ++ [⟨o.data, o.tag, o.last⟩] else (t.chanAt k.val).entries) ∧
      (∀ q : Fin 4, f.hard = [] → (t'.strip e).hard[q] = (t.strip e).hard[q]) ∧
      (∀ q : Fin 4, f.hard.length = 4 →
        (t'.strip e).hard[q].toNat = min (2 ^ 32 - 1) ((t.strip e).hard[q].toNat + f.hard.getD q.val 0)) ∧
      (f.push = 0 → t'.fifo = t.fifo)) ∧
  (∀ (s : State) (x : Inst) (t : Tile) (e : StripId) (f : Flight),
    s.insts[s.focus.inst]? = some x → x.tiles[s.focus.tile]? = some t → t.seq.finished = false → s.cycleRuns x t = true → t.dueOf e = [f] →
    (f.lenmis = true ∨ f.tagt.isSome ∨ (flagSummary f.flags &&& f.mode.extractLsb' 8 5) ≠ 0) →
    ∃ s' t' p, exec (.stripResultDue e) s = .next s' ∧ s'.tile? s.focus.inst s.focus.tile = some t' ∧ (t'.strip e).stopped = true ∧
      t'.dueOf e = [] ∧ t'.seq.block = t.seq.block ∧
      (match e with | .ast => t'.seq.pend.ast | .est => t'.seq.pend.est | .pst => t'.seq.pend.pst) = some p ∧
      p.engine = BitVec.ofNat 3 (stripId e) ∧ p.page = none ∧
      (f.lenmis = true → p.code = 0x0E ∧ p.info = f.addr) ∧
      (∀ a b, f.lenmis = false → f.tagt = some (a, b) → p.code = 0x0D ∧ p.info = BitVec.ofNat 64 (a.toNat * 256 + b.toNat)) ∧
      (f.lenmis = false → f.tagt = none → p.code = 0x0B ∧ p.info = f.addr)) ∧
  (∀ (s : State) (x : Inst) (t : Tile) (f : Flight) (h0 h1 h2 h3 : Nat),
    s.insts[s.focus.inst]? = some x → x.tiles[s.focus.tile]? = some t → t.place = .running → t.phase = .start → s.startClear x t = true →
    t.hardDue = [f] → f.hard = [h0, h1, h2, h3] →
    (let n := max (max h0 h1) (max h2 h3) * (if f.wide then 96 else 48)
     ∃ s' t', exec .secondPhaseRound s = .next s' ∧ s'.tile? s.focus.inst s.focus.tile = some t' ∧ t'.hardDue = [] ∧
       t'.sr = { t.sr with cycle := t.sr.cycle + BitVec.ofNat 64 n } ∧ t'.cyc = t.cyc ∧ t'.g = t.g ∧ t'.chan = t.chan ∧ t'.fifo = t.fifo ∧
       t'.est.flight.map (·.outs) = t.est.flight.map (·.outs) ∧ t'.ast = t.ast ∧ t'.pst = t.pst))

/-! ### The matrix engine -/

/-- R235, R236, R243, R247: MMA, MMAZ and MMAN read their slots and their accumulator as they issue, and the new accumulator and the retirement are due
after the occupancy; with a slot that was not Loaded at the order point, or whose fill failed, the token faults. R111, R243: an element beyond the token's rows keeps its value; of integer formats, every other element is the old one, or zero for MMAZ, with the
products of each group added, or for MMAN subtracted, and clamped in turn. -/
def Obligations.MatrixMultiplies : Prop :=
  (∀ (i : Instr) (op : BitVec 4) (k : MTok) (s : State) (x : Inst) (t : Tile) (h : Held),
    (i = .mma k ∧ op = 1) ∨ (i = .mmaz k ∧ op = 2) ∨ (i = .mman k ∧ op = 3) → TokenReady s x t h →
    (let ready (n : BitVec 4) : Prop := h.q.loaded.getLsbD n.toNat = true ∧ (t.mxe.slots[n.toNat]'n.isLt).failed = false
     (ready k.sa ∧ ready k.sb →
       ∃ s' t' d, exec i s = .next s' ∧ s'.tile? s.focus.inst s.focus.tile = some t' ∧ t'.mxe.pipe = t.mxe.pipe ++ [d] ∧
         (let r := mmaOp op k (t.mxe.slots[k.sa.toNat]'k.sa.isLt).image (t.mxe.slots[k.sb.toNat]'k.sb.isLt).image (t.mxe.accs[k.acc.toNat]'k.acc.isLt)
          d = ⟨t.cyc + mmaCycles k, h.q, some (k.acc, r.1), none, r.2.1, r.2.2, true⟩) ∧
         t'.mxe.nextAt = t.cyc + mmaCycles k ∧ t'.mxe.held = none ∧ t'.mxe.accs = t.mxe.accs ∧ t'.mxe.slots = t.mxe.slots ∧
         t'.phase = .issue ∧ t'.g = t.g ∧ t'.chan = t.chan ∧ t'.slice = t.slice ∧ t'.seq = t.seq ∧ tokenPops t t' h) ∧
     (¬(ready k.sa ∧ ready k.sb) → t.seq.finished = false →
       ∃ s' t', exec i s = .next s' ∧ s'.tile? s.focus.inst s.focus.tile = some t' ∧ t'.mxe.stopped = true ∧
         t'.seq.pend.mxe = some ⟨0x0F, 6, h.q.tok, none⟩ ∧ t'.mxe.accs = t.mxe.accs ∧ t'.mxe.pipe = t.mxe.pipe))) ∧
  (∀ (op : BitVec 4) (k : MTok) (a b : SlotImage) (acc : AccImage) (i j : Nat), i < 32 → j < 32 →
    (¬(i ≤ k.ra.toNat ∧ j ≤ k.rb.toNat) → accAt (mmaOp op k a b acc).1 i j = accAt acc i j) ∧
    (i ≤ k.ra.toNat → j ≤ k.rb.toNat → k.fa ∈ [(0x8 : BitVec 4), 0x9, 0xD] → k.fb ∈ [(0x8 : BitVec 4), 0x9, 0xD] → k.kcnt.toNat * 16 * fmtWidth k.fa ≤ 1536 →
      k.kcnt.toNat * 16 * fmtWidth k.fb ≤ 1536 →
      Int.bmod (accAt (mmaOp op k a b acc).1 i j) (2 ^ 32) =
        accumulate (if op = 3 then -1 else 1) (if op = 2 then 0 else Int.bmod (accAt acc i j) (2 ^ 32))
          ((List.range k.kcnt.toNat).map (groupProduct k.fa k.fb a b i j))))

/-- R244, R245: ACCZ clears its accumulator one schedule cycle after it issues; ACCOUT sends the rows of its accumulator, a beat a cycle from the fourth on,
with the end bit on the last; ACCIN takes one beat of its frame, and with the last, or with one that ends the frame early, it retires. The half of
a beat that ACCOUT's last row leaves over is free (log 20). -/
def Obligations.AccumulatorMoves : Prop :=
  ∀ (k : MTok) (s : State) (x : Inst) (t : Tile) (h : Held), TokenReady s x t h →
    (∃ s' t', exec (.accz k) s = .next s' ∧ s'.tile? s.focus.inst s.focus.tile = some t' ∧
      t'.mxe = { t.mxe with held := none, pipe := t.mxe.pipe ++ [⟨t.cyc + 1, h.q, some (k.acc, 0), none, 0, false, true⟩], nextAt := t.cyc + 1 } ∧
      t'.g = t.g ∧ t'.chan = t.chan ∧ tokenPops t t' h) ∧
    ((t.chanAt k.dch.toNat).producer = 6 →
      (let r := accoutBeats k (t.mxe.accs[k.acc.toNat]'k.acc.isLt) (Config.openHalves s.now)
       let n := r.1.length
       ∃ s' t', exec (.accout k) s = .next s' ∧ s'.tile? s.focus.inst s.focus.tile = some t' ∧
         t'.mxe = { t.mxe with
           held := none
           nextAt := t.cyc + n
           pipe := t.mxe.pipe ++ ((r.1.zipIdx.map fun d => (⟨t.cyc + 4 + d.2, h.q, none,
               some (k.dch, ⟨d.1, k.tag.setWidth 8, decide (d.2 + 1 = n)⟩), 0, false, false⟩ : MxDue))
             ++ [⟨t.cyc + 4 + (n - 1), h.q, none, none, r.2, false, true⟩]) } ∧
         t'.g = t.g ∧ t'.chan = t.chan ∧ tokenPops t t' h)) ∧
    (∀ b rest, (t.chanAt k.dch.toNat).consumer = 6 → (t.chanAt k.dch.toNat).surplus = false → (t.chanAt k.dch.toNat).entries = b :: rest →
      t.accinStops k h = false →
      (let limit := 32 * (k.ra.toNat + 1)
       let final := h.taken + 1 = (limit + 191) / 192
       let u := if tokPop h.q.tok = 0 ∨ h.popped = true then t else t.fifoPop (tokPop h.q.tok) 6
       ∃ s' t', exec (.accin k) s = .next s' ∧ s'.tile? s.focus.inst s.focus.tile = some t' ∧ (t'.chanAt k.dch.toNat).entries = rest ∧
         t'.g = t.g ∧ t'.mxe.nextAt = t.cyc + 1 ∧ t'.mxe.pipe = t.mxe.pipe ∧
         t'.fifo = (if (final ∨ b.last = true) ∧ tokPush h.q.tok ≠ 0 then u.fifoPush 6 (tokPush h.q.tok) else u).fifo ∧
         (∀ i < 32, ∀ j < 32, accAt (t'.mxe.accs[k.acc.toNat]'k.acc.isLt) i j =
           if 192 * h.taken ≤ 32 * i + j ∧ 32 * i + j < limit ∧ 32 * i + j < 192 * h.taken + 192
           then b.data.toNat / 2 ^ (32 * (32 * i + j - 192 * h.taken)) % 2 ^ 32
           else accAt (t.mxe.accs[k.acc.toNat]'k.acc.isLt) i j) ∧
         (¬final → b.last = false → t'.mxe.held = some { h with popped := true, taken := h.taken + 1 } ∧ t'.lenmis = t.lenmis) ∧
         (final → b.last = true → t'.mxe.held = none ∧ t'.lenmis = t.lenmis ∧ (t'.chanAt k.dch.toNat).surplus = false) ∧
         ((final ↔ b.last = false) → t'.mxe.held = none ∧ t'.lenmis = true ∧
           (t'.chanAt k.dch.toNat).surplus = decide final ∧ (k.lenfault = 1 → t'.mxe.stopped = true))))

/-- R235, R237, R241-R243: the MXE takes the token at the head of its queue, retires what is due, pushes the beats that are due, and completes the fill
of a slot with the bytes at its source. -/
def Obligations.MatrixSteps : Prop :=
  ∀ (s : State) (x : Inst) (t : Tile), s.insts[s.focus.inst]? = some x → x.tiles[s.focus.tile]? = some t →
    (∀ q l, t.mxe.beat = [] → t.mxe.src = none → t.mxe.queue = q :: l → t.mxe.held = none → t.mxe.nextAt ≤ t.cyc → t.mxe.stopped = false →
      (q.tok.toNat / 2 ^ 60 = 6 → t.mxe.pipe = []) → t.duesLeft = false → t.phase ≠ .issue → s.cycleRuns x t = true →
      tokenFault t.sr.feat q.tok = none →
      exec .mxeTokenTake s = .next (s.modFocus fun t => { t with
        phase := .due
        mxe := { t.mxe with
          queue := l
          src := if q.tok.getLsbD 18 then some (q.tok.extractLsb' 14 4) else none
          held := some ⟨q, none, false, 0⟩ } })) ∧
    (∀ d, t.mxDue = [d] → s.cycleRuns x t = true → d.beat = none → t.mxe.work = [] →
      ∃ s' t', exec .mxeOperationRetire s = .next s' ∧ s'.tile? s.focus.inst s.focus.tile = some t' ∧ t'.mxDue = [] ∧
        t'.mxe.flags = t.mxe.flags ||| d.flags ∧ t'.mxe.sat = (t.mxe.sat || d.sat) ∧ t'.chan = t.chan ∧ t'.g = t.g ∧
        (∀ n : Fin 8, t'.mxe.accs[n] = match d.acc with
          | some (c, a) => if c.toNat = n.val then a else t.mxe.accs[n]
          | none => t.mxe.accs[n]) ∧
        t'.fifo = if d.retire = true ∧ tokPush d.q.tok ≠ 0 then (t.fifoPush 6 (tokPush d.q.tok)).fifo else t.fifo) ∧
    (∀ d c e, t.mxDue = [d] → s.cycleRuns x t = true → d.beat = some (c, e) → d.acc = none → d.retire = false → t.mxe.work = [] →
      ∃ s' t', exec .accoutBeatPush s = .next s' ∧ s'.tile? s.focus.inst s.focus.tile = some t' ∧ t'.mxDue = [] ∧ t'.mxe.accs = t.mxe.accs ∧
        t'.g = t.g ∧ t'.fifo = t.fifo ∧
        ∀ n : Fin 16, (t'.chanAt n.val).entries = if c.toNat = n.val then (t.chanAt n.val).entries ++ [e] else (t.chanAt n.val).entries) ∧
    (∀ (slot : BitVec 4) ord va, t.place = .running → t.mxe.work = [(ord, .fill slot va)] → t.mxe.earlier slot.toNat ord = false →
      (let y := t.mxe.slots[slot.toNat]'slot.isLt
       (y.unread = [] → ∃ s' t', exec (.fillComplete slot) s = .next s' ∧ s'.tile? s.focus.inst s.focus.tile = some t' ∧ t'.mxe.work = [] ∧
         (∀ k : Fin 16, t'.mxe.slots[k] = if slot.toNat = k.val then { t.mxe.slots[k] with failed := false, filled := [] } else t.mxe.slots[k]) ∧
         t'.mxe.accs = t.mxe.accs ∧ t'.g = t.g ∧ t'.chan = t.chan) ∧
       (∀ (ps : Nat → List (Loc × Size)) (bs : Nat → List Byte) (s1 : Nat → State),
         (∃ k ∈ y.unread, s.fillFree x slot (va + BitVec.ofNat 64 (8 * k)) = true) →
         (∀ k ∈ y.unread, s.fillFree x slot (va + BitVec.ofNat 64 (8 * k)) = true →
           s.checkRange s.focus.inst x.tag 2 .read false (va + BitVec.ofNat 64 (8 * k)) 8 8 = .ok (ps k) ∧
           s.readPieces s.focus.inst s.focus.tile (whoFill slot) x.tag (ps k) = (.bytes (bs k), s1 k)) →
         ∃ k ∈ y.unread, ∃ s' t', exec (.fillComplete slot) s = .next s' ∧ s'.tile? s.focus.inst s.focus.tile = some t' ∧
           t'.mxe.work = t.mxe.work ∧ t'.mxe.accs = t.mxe.accs ∧ t'.g = t.g ∧ t'.chan = t.chan ∧
           (∀ n : Fin 16, slot.toNat ≠ n.val → t'.mxe.slots[n] = t.mxe.slots[n]) ∧
           (let z := t'.mxe.slots[slot.toNat]'slot.isLt
            z.filled = y.filled ++ [k] ∧ z.failed = y.failed ∧ z.logic = y.logic ∧
            ∀ j < 768, z.image.toNat / 2 ^ (64 * j) % 2 ^ 64 =
              if j = k then ofBytes (bs k) % 2 ^ 64 else y.image.toNat / 2 ^ (64 * j) % 2 ^ 64))))

/-! ### Streams and virtual channels -/

/-- R163-R165, R169: a stream that does not run takes its next command: SDEF defines it, SGO starts it where its descriptor passes and makes it
Faulted where not; a stopped stream goes back to Defined; a stream that has ended its walk adds to its semaphore, and is Defined. R169: at the end of a frame a read stream sends its last beat with the end bit; a write stream whose stores are performed marks its granules
where fe is set; then the frame's token is pushed. -/
def Obligations.StreamControl : Prop :=
  (∀ (s : State) (x : Inst) (t : Tile) (st : BitVec 4), s.insts[s.focus.inst]? = some x → x.tiles[s.focus.tile]? = some t → t.place = .running →
    (let y := t.streamAt st
     (∀ c rest, y.queue = c :: rest → y.st ≠ .running → y.walk.skip = false → (y.st = .faulted → ∀ p ∈ t.seq.pend.streams, p.1 ≠ st) →
       (∀ d, c = .sdef d → exec (.streamCommandTake st) s =
         .next (s.modFocusStream st fun _ => { y with queue := rest, st := .defined, desc := d })) ∧
       (c = .sgo → y.st = .defined → t.sdFault y.desc = none →
         ∃ s', exec (.streamCommandTake st) s = .next s' ∧ s'.hbm = s.hbm ∧ s'.host = s.host ∧
           s'.insts = (s.modFocusStream st fun _ => { y with queue := rest, st := .running, walk := Walk.start y.desc }).insts) ∧
       (∀ code, c = .sgo → (y.st ≠ .defined ∧ code = 0x01) ∨ (y.st = .defined ∧ t.sdFault y.desc = some code) → t.seq.finished = false →
         ∃ s' t' f, exec (.streamCommandTake st) s = .next s' ∧ s'.tile? s.focus.inst s.focus.tile = some t' ∧
           (t'.streamAt st).st = .faulted ∧ (t'.streamAt st).queue = rest ∧ (st, f) ∈ t'.seq.pend.streams ∧ f.code = code ∧ f.engine = 2 ∧
           t'.g = t.g ∧ t'.sr = t.sr ∧ t'.chan = t.chan ∧ t'.seq.block = t.seq.block)) ∧
     (y.stopping = true → s.accessesOut x.tag s.focus.inst s.focus.tile (whoStream st) = false →
       (s.askFailed x.tag s.focus.inst s.focus.tile (whoStream st) = none →
         ∃ s', exec (.streamStopDone st) s = .next s' ∧ s'.hbm = s.hbm ∧ s'.host = s.host ∧
           s'.insts = (s.modFocusStream st fun _ => { y with st := .defined, stopping := false, walk := Walk.start y.desc }).insts) ∧
       (∀ code k va, s.askFailed x.tag s.focus.inst s.focus.tile (whoStream st) = some (code, k, va) → t.seq.finished = false →
         ∃ s' t' f, exec (.streamStopDone st) s = .next s' ∧ s'.tile? s.focus.inst s.focus.tile = some t' ∧
           (t'.streamAt st).st = .faulted ∧ (t'.streamAt st).stopping = false ∧ (st, f) ∈ t'.seq.pend.streams ∧ f.code = code ∧ f.engine = 2 ∧
           t'.g = t.g ∧ t'.sr = t.sr ∧ t'.chan = t.chan)) ∧
     (y.st = .running → y.stopping = false → y.walk.walkDone = true → y.walk.frameDone = false → y.walk.tokenDue = false →
       (y.desc.getLsbD 17 = false → exec (.streamCompletion st) s = .next (s.modFocusStream st fun _ => { y with st := .defined })) ∧
       (∀ k : BitVec 6, y.desc.getLsbD 17 = true → k = y.desc.extractLsb' 10 6 → (t.sem[k.toNat]'k.isLt).toNat < 65535 →
         exec (.streamCompletion st) s = .next ((s.modFocus fun t =>
           { t with sem := t.sem.set k.toNat (t.sem[k.toNat]'k.isLt + 1) k.isLt }).modFocusStream st fun _ => { y with st := .defined }))))) ∧
  (∀ (s : State) (x : Inst) (t : Tile) (st : BitVec 4), s.insts[s.focus.inst]? = some x → x.tiles[s.focus.tile]? = some t → t.place = .running →
    (let y := t.streamAt st
     let d := y.desc
     let ended : Stream := { y with walk := { y.walk with
       beat := [], beats := 0, sawEnd := false, wrote := if sdRead d then y.walk.wrote else [], frameDone := false,
       tokenDue := decide (sdPush d ≠ 0), popped := false } }
     y.st = .running → y.stopping = false →
     (y.walk.frameDone = true → s.storesOut x.tag s.focus.inst s.focus.tile (whoStream st) = false →
       (sdRead d = true → sdPortEnd d = false → (t.chanAt (sdChan d)).producer = 2 → (t.chanAt (sdChan d)).entries.length < 2 →
         exec (.streamFrameEnd st) s = .next ((s.modFocus fun t => t.modChan (sdChan d) fun c =>
           { c with entries := c.entries ++ [⟨beatOfUnits (sdFmt d) y.walk.beat, sdTag d, true⟩] }).modFocusStream st fun _ => ended)) ∧
       (sdRead d = false → sdFe d = false → exec (.streamFrameEnd st) s = .next (s.modFocusStream st fun _ => ended)) ∧
       (sdRead d = false → sdFe d = true → (∀ g ∈ y.walk.wrote, s.markFree s.focus.inst g = true) → ∃ s', exec (.streamFrameEnd st) s = .next s' ∧
         (∀ g ∈ y.walk.wrote, ∀ u, s'.tile? s.focus.inst g.1 = some u → u.isFull g.2 = true) ∧
         ∀ k : Loc, s'.byteAt s.focus.inst k = s.byteAt s.focus.inst k)) ∧
     (y.walk.frameDone = false → y.walk.tokenDue = true → t.fifoAt 2 (sdPush d) ≠ 15 →
       exec (.streamFrameEnd st) s = .next ((s.modFocus fun t => t.fifoPush 2 (sdPush d)).modFocusStream st fun _ =>
         { y with walk := { y.walk with tokenDue := false } }))))

/-- R168-R170: a Running stream pops before a frame, reads a unit at the address that its walk gives, sends a full beat, takes a beat of its
endpoint, or writes a unit at that address: an affine one at its counters, an indirect one at the index that it has read, a linked one at
its node, whose pointer it follows after the node's last unit. A gather reads an index once, fetches the row that it names unit by unit,
and passes the units on. -/
def Obligations.StreamWalks : Prop :=
  ∀ (s : State) (x : Inst) (t : Tile) (st : BitVec 4), s.insts[s.focus.inst]? = some x → x.tiles[s.focus.tile]? = some t →
    t.streamReady st = true → (t.streamAt st).walk.skip = false →
    (let y := t.streamAt st
     let d := y.desc
     let n := y.walk.n
     let size := unitBytes (sdFmt d)
     let per := 768 / size
     let span := (sdWord d).toNat % 2 ^ 16
     let plain := sdKind d < 2 ∨ (sdKind d = 2 ∧ y.walk.j ≠ span)
     let place (i : W64) : W64 := sdBase d + BitVec.ofNat 64 (n / sdCount d 0 / sdCount d 1) * sdStride d 2
       + BitVec.ofNat 64 (n / sdCount d 0 % sdCount d 1) * sdStride d 1 + i * sdStride d 0
     let unitAt (va : W64) : Prop := (sdKind d = 0 ∧ va = place (BitVec.ofNat 64 (n % sdCount d 0))) ∨
       (sdKind d = 1 ∧ s.indexAhead x st y = none ∧ ∃ v l, y.walk.ahead = v :: l ∧ va = place v) ∨
       (sdKind d = 2 ∧ y.walk.j ≠ span ∧ va = y.walk.node + BitVec.ofNat 64 (y.walk.j * size))
     let index (f : BitVec 4) (bs : List Byte) : W64 :=
       if f = 0xB then (BitVec.ofNat 32 (ofBytes bs)).signExtend 64 else if f = 0xC then (BitVec.ofNat 16 (ofBytes bs)).signExtend 64
       else BitVec.ofNat 64 (ofBytes bs)
     (y.walk.popped = false → plain → sdPop d ≠ 0 → t.fifoAt (sdPop d) 2 ≠ 0 →
       exec (.streamUnit st) s = .next ((s.modFocus fun t => t.fifoPop (sdPop d) 2).modFocusStream st fun _ =>
         { y with walk := { y.walk with popped := true } })) ∧
     (∀ va ps bs s1, y.walk.popped = true → sdRead d = true → sdFe d = false → y.walk.beat.length ≠ per → unitAt va →
       s.checkRange s.focus.inst x.tag 2 .read false va size (unitAlign (sdFmt d)) = .ok ps →
       s.readPieces s.focus.inst s.focus.tile (whoStream st) x.tag ps = (.bytes bs, s1) →
       ∃ s', exec (.streamUnit st) s = .next s' ∧ s'.hbm = s.hbm ∧ s'.host = s.host ∧
         s'.insts = (s.modFocusStream st fun _ => { y with walk := { y.counted with
           beat := y.walk.beat ++ [BitVec.ofNat 144 (ofBytes bs)] } }).insts) ∧
     (∀ ps bs s1, y.walk.popped = true → sdKind d = 1 → sdFe d = false → y.walk.ahead = [] → n < sdCount d 0 * sdCount d 1 * sdCount d 2 →
       (if sdRead d = true then y.walk.beat.length ≠ per else y.walk.beat ≠ []) →
       (let f : BitVec 4 := (sdWord d).extractLsb' 60 4
        s.checkRange s.focus.inst x.tag 2 .read false (sdAux d + BitVec.ofNat 64 (n * unitBytes f)) (unitBytes f) (unitBytes f) = .ok ps →
        s.readPieces s.focus.inst s.focus.tile (whoStream st) x.tag ps = (.bytes bs, s1) →
        ∃ s', exec (.streamUnit st) s = .next s' ∧ s'.hbm = s.hbm ∧ s'.host = s.host ∧
          s'.insts = (s.modFocusStream st fun _ => { y with walk := { y.walk with ahead := [index f bs] } }).insts)) ∧
     (∀ ps bs s1, sdKind d = 2 → y.walk.j = span → sdFe d = false →
       (let va := y.walk.node + ((sdWord d).extractLsb' 16 16).signExtend 64
        let next : W64 := BitVec.ofNat 64 (ofBytes bs)
        let ends := next = 0 ∨ y.walk.num + 1 = sdCount d 0 * sdCount d 1 * sdCount d 2
        s.checkRange s.focus.inst x.tag 2 .read false va 8 8 = .ok ps →
        s.overtakes x.tag s.focus.inst s.focus.tile (whoStream st) ps = false →
        s.readPieces s.focus.inst s.focus.tile (whoStream st) x.tag ps = (.bytes bs, s1) →
        ∃ s' u, exec (.streamUnit st) s = .next s' ∧ s'.hbm = s.hbm ∧ s'.host = s.host ∧
          s'.insts = (s.modFocusStream st fun _ => u).insts ∧
          (¬ends → u = { y with walk := { y.walk with
            node := next + ((sdWord d).extractLsb' 32 32).signExtend 64, num := y.walk.num + 1, j := 0 } }) ∧
          (ends → sdRead d = true ∨ y.walk.sawEnd = true ∨ n % sdFrame d = 0 →
            u = { y with walk := { y.walk with walkDone := true, frameDone := decide (n % sdFrame d ≠ 0) } }))) ∧
     (y.walk.popped = true → plain → sdRead d = true → y.walk.beat.length = per → sdPortEnd d = false → (t.chanAt (sdChan d)).producer = 2 →
       (t.chanAt (sdChan d)).entries.length < 2 →
       exec (.streamUnit st) s = .next ((s.modFocus fun t => t.modChan (sdChan d) fun c =>
         { c with entries := c.entries ++ [⟨beatOfUnits (sdFmt d) y.walk.beat, sdTag d, false⟩] }).modFocusStream st fun _ =>
         { y with walk := { y.walk with beat := [] } })) ∧
     (∀ b rest, y.walk.popped = true → plain → (sdKind d = 2 → y.walk.sawEnd = false ∨ n % sdFrame d = 0) → sdRead d = false → y.walk.beat = [] →
       sdPortEnd d = false → (t.chanAt (sdChan d)).consumer = 2 → (t.chanAt (sdChan d)).entries = b :: rest →
       (let k := (if n % sdFrame d = 0 then 0 else y.walk.beats) + 1
        b.last = decide (k = (y.frameSize + per - 1) / per) →
        exec (.streamUnit st) s = .next ((s.modFocus fun t => t.modChan (sdChan d) fun c => { c with entries := rest }).modFocusStream st fun _ =>
          { y with walk := { y.walk with
              beats := k
              sawEnd := b.last
              beat := beatUnitBits (sdFmt d) (min per (y.frameSize - n % sdFrame d)) b.data } }))) ∧
     (∀ va u rest l z, y.walk.popped = true → sdRead d = false → y.walk.beat = u :: rest → s.canonical = true → unitAt va →
       s.checkRange s.focus.inst x.tag 2 .write (sdFe d) va size (unitAlign (sdFmt d)) = .ok [(l, z)] →
       z.bytes = size → s.writeHeld s.focus.inst [(l, z)] = false → s.homeHere s.focus.inst l →
       s.overtakes x.tag s.focus.inst s.focus.tile (whoStream st) [(l, z)] = false →
       ∃ s' t', exec (.streamUnit st) s = .next s' ∧ s'.tile? s.focus.inst s.focus.tile = some t' ∧ (t'.streamAt st).walk.beat = rest ∧
         (t'.streamAt st).walk.n = n + 1 ∧ (t'.streamAt st).st = .running ∧ t'.g = t.g ∧ t'.chan = t.chan ∧
         s'.numberAt s.focus.inst l z.bytes = u.toNat % 2 ^ (8 * z.bytes) ∧
         ∀ k : Loc, (∀ j < z.bytes, k ≠ l.plus j) → s'.byteAt s.focus.inst k = s.byteAt s.focus.inst k) ∧
     (∀ g, sdKind d = 3 → sdRead d = true → sdFe d = false → y.walk.gather = some g →
       (let w := bitsAt g 128 32 / size
        let row := n / w
        let here := n % w + y.walk.row.length
        (∀ ps bs s1, y.walk.popped = true → y.walk.beat.length ≠ per → y.walk.ahead = [] → y.walk.row = [] →
          (let f : BitVec 4 := g.extractLsb' 220 4
           let va : W64 := g.extractLsb' 0 64 + BitVec.ofNat 64 (row * unitBytes f)
           va.getLsbD 54 = false → s.checkRange s.focus.inst x.tag 2 .gather false va (unitBytes f) (unitBytes f) = .ok ps →
           s.readPieces s.focus.inst s.focus.tile (whoStream st) x.tag ps = (.bytes bs, s1) →
           ∃ s', exec (.gatherRow st) s = .next s' ∧ s'.hbm = s.hbm ∧ s'.host = s.host ∧
             s'.insts = (s.modFocusStream st fun _ => { y with walk := { y.walk with num := row, ahead := [index f bs] } }).insts)) ∧
        (∀ v ps bs s1, y.walk.ahead = [v] → here < w → sdPop d = 0 ∨ n % sdFrame d + y.walk.row.length < y.frameSize →
          s.checkRange s.focus.inst x.tag 2 .gather false (g.extractLsb' 64 64 + v * (g.extractLsb' 160 32).setWidth 64
            + BitVec.ofNat 64 (here * size)) size (unitAlign (sdFmt d)) = .ok ps →
          (∀ p ∈ ps, (∃ o, p.1 = .hbm o) ∨ ∃ o, p.1 = .host o) →
          s.readPieces s.focus.inst s.focus.tile (whoStream st) x.tag ps = (.bytes bs, s1) →
          ∃ s', exec (.gatherRow st) s = .next s' ∧ s'.hbm = s.hbm ∧ s'.host = s.host ∧
            s'.insts = (s.modFocusStream st fun _ => { y with walk := { y.walk with
              row := y.walk.row ++ [BitVec.ofNat 144 (ofBytes bs)] } }).insts) ∧
        (∀ v u us, y.walk.popped = true → y.walk.beat.length ≠ per → y.walk.ahead = [v] → y.walk.row = u :: us → w ≤ here →
          exec (.gatherRow st) s = .next (s.modFocusStream st fun _ => { y with walk := { y.walk with
            n := n + 1
            j := y.walk.j + 1
            ahead := if (n + 1) % w = 0 then [] else [v]
            frameDone := decide ((n + 1) % sdFrame d = 0) || decide (n + 1 = bitsAt g 224 32 * w)
            walkDone := decide (n + 1 = bitsAt g 224 32 * w)
            beat := y.walk.beat ++ [u]
            row := us } })))))

/-- R52, R171-R175, R373: an inbound VC grants demand up to its window for the units that there is room for, which, where an arriving unit gives
one of its own, is the lesser of the window and that room; an outbound one takes a beat, passes its units to its filter or on, and sends
them against demand; a filter acts on a whole frame; an inbound one converts the units that have arrived and packs them into beats. That a unit
from inside the package for a VC 16 to 31 of port 3 stays undelivered is the model's reading (log 79); so is that a unit that gives several counts
for several in the room (log 22), and that a frame takes its entry when its first unit is converted (log 84). -/
def Obligations.VirtualChannels : Prop :=
  ∀ (s : State) (x : Inst) (t : Tile) (port : BitVec 2) (vc : BitVec 5), s.insts[s.focus.inst]? = some x → x.tiles[s.focus.tile]? = some t →
    (let v := t.vcAt port vc
     (∀ n, vcValid v.entry = true → vcOut v.entry = false →
       n = x.vcDemand s.focus.tile t port vc - (v.granted + v.arrived.length) → n ≠ 0 → (port ≠ 3 ∨ vc.toNat < 16) →
       exec (.vcDemandGrant port vc) s = .next (s.modFocus fun t => t.modVc port vc fun v => { v with granted := v.granted + n })) ∧
     (∀ fmt u rest c y, t.place = .running → v.ready = (fmt, u) :: rest → v.cur = some c → vcRoute c.1 = 0 →
       s.routeDead x.tag t.phys (some y.phys) = false → localVc (vcDport c.1) (vcDvc c.1) = true →
       x.tiles[(vcDest c.1).toNat]? = some y → y.seq.finished = false →
       (y.vcAt (vcDport c.1) (vcDvc c.1)).granted ≠ 0 →
       exec (.vcUnitSend port vc) s = .next (((s.modTile s.focus.inst (vcDest c.1).toNat fun y => y.modVc (vcDport c.1) (vcDvc c.1) fun w =>
         { w with granted := w.granted - 1, arrived := w.arrived ++ [(fmt, u)] }).huskCross x.tag t.phys (some y.phys) u).modFocus fun t =>
           t.modVc port vc fun v => { v with ready := rest })) ∧
     ((∀ f ∈ x.feedFmts s.focus.tile t port vc, unitSpread f (vcFmt v.entry) = 1) → t.seq.finished = false → 0 < t.vcRoom port vc →
       x.vcDemand s.focus.tile t port vc = min (vcWindow v.entry) (t.vcRoom port vc)) ∧
     (∀ fmt u rest c, t.place = .running → v.ready = (fmt, u) :: rest → v.cur = some c → vcRoute c.1 = 0 →
       vcDport c.1 = 3 → 16 ≤ (vcDvc c.1).toNat → exec (.vcUnitSend port vc) s = .next s) ∧
     (∀ c, t.place = .running → v.ready = [] → v.cur = some c → v.pend ≠ [] →
       exec (.vcUnitSend port vc) s = .next (s.modFocus fun t => t.modVc port vc fun v =>
         if vcFilter c.1 = 0 then { v with ready := v.pend.map fun u => (vcFmt c.1, u), pend := [] } else { v with filt := v.filt ++ v.pend, pend := [] })) ∧
     (∀ k b rest, t.place = .running → v.ready = [] → v.pend = [] → v.filt = [] → v.sent = 0 → vcValid v.entry = true → vcOut v.entry = true →
       t.linkedChan port vc true = some k → (t.chanAt k).entries = b :: rest →
       (let us := beatToUnits v.entry 0 b
        exec (.vcUnitSend port vc) s = .next (s.modFocus fun t => (t.modChan k fun c => { c with entries := rest }).modVc port vc fun v =>
          { v with
            cur := some (v.entry, t.scaleAt port v.entry)
            pend := us
            packTag := b.tag
            sent := if us.any (·.last) then 0 else us.length }))) ∧
     (∀ e k f, v.cur = some (e, k) → t.filterOf port vc e = some f → v.filt.any (·.last) = true →
       (let us := (v.filt.filter fun u => !u.void).map (·.bits)
        let sends (out : List (BitVec 4 × LinkUnit)) (flags : BitVec 5) : Prop :=
          exec (.routerFilterFrame port vc) s = .next (s.modFocus fun t => ({ t with xflags := t.xflags ||| flags }).modVc port vc fun v =>
            { v with ready := v.ready ++ out, filt := [] })
        (f.kind = 1 → let r := convElems (vcFmt e) f.fmt 1 f.sat k (unitElems (vcFmt e) us)
          sends (frameUnits f.fmt v.packTag (elemUnits f.fmt r.1)) r.2) ∧
        (f.kind = 2 → sends (zeroRemoval (vcFmt e) v.packTag us) 0) ∧
        (f.kind = 3 → us.length % 256 = 0 → sends (frameUnits (vcFmt e) v.packTag (transposeRuns (us.length + 1) us)) 0))) ∧
     (∀ src u rest, t.seq.finished = false → t.place = .running → v.made = [] → v.arrived = (src, u) :: rest → v.pos = 0 → v.conv = [] →
       vcFmt v.entry = src →
       exec (.vcUnitReceive port vc) s = .next (s.modFocus fun t => t.modVc port vc fun v =>
         { v with arrived := rest, made := [u], inCur := some (v.entry, t.scaleAt port v.entry) })) ∧
     (∀ e c u us k, t.seq.finished = false → t.place = .running → v.made = u :: us → u.void = false → v.inCur = some (e, c) →
       t.linkedChan port vc false = some k →
       (let n := v.pos + 1
        let tag := if v.pack = [] then u.tag else v.packTag
        let units := v.pack ++ [u.bits]
        (u.last = false → n < vcFrame e → units.length ≠ unitsPerBeat (vcFmt e) →
          exec (.vcUnitReceive port vc) s = .next (s.modFocus fun t => t.modVc port vc fun v =>
            { v with made := us, pos := n, pack := units, packTag := tag })) ∧
        (∀ ends, ends = decide (vcFrame e = n) → (u.last = true → ends = true) → n ≤ vcFrame e → ends = true ∨ units.length = unitsPerBeat (vcFmt e) →
          (t.chanAt k).entries.length < 2 →
          exec (.vcUnitReceive port vc) s = .next (s.modFocus fun t => (t.modVc port vc fun v =>
            { v with made := us, pos := if ends then 0 else n, pack := [], packTag := tag }).modChan k fun c =>
              { c with entries := c.entries ++ [⟨beatOfUnits (vcFmt e) units, tag, ends⟩] })))))

/-! ### Copies -/

/-- R179, R180: an engine starts the packet that its order names beside those in progress, and takes its permit; a packet that has waited for
4 ms, the earliest of those that have, rises one priority; a frame of 8 units is one packet; a unit at port 1 adds to its permit counter. That a
unit of the packet input gives its value modulo 2^64 is the model's choice (log 15). R178: of the completions that are due,
whichever comes next: a granule with no write left to it becomes full; a destination tile whose writes are performed and whose granules are
marked receives its add; a packet with neither left is over. -/
def Obligations.CopyControl : Prop :=
  (∀ (s : State) (eng : Nat) (e : CpEngine), s.copy[eng]? = some e →
    (∀ p, e.pick (e.heads.filter (s.cpStartable eng)) = some p → cpBad (s.inst? p.inst) p.pkt = false →
      exec (.copyPacketStart eng) s = .next
        ((if cpPermit p.pkt then s.modInst p.inst fun x => x.setPermit eng (cpCounter p.pkt) (x.permitAt eng (cpCounter p.pkt) - 1) else s).modCopy eng
          fun e => { e with
            waiting := e.waiting.filter fun q => q.ord != p.ord, last := putKey p.level p.src e.last, active := e.active ++ [s.cpBegin eng p] })) ∧
    (∀ p ∈ e.waiting, max 1 p.bound < p.level → agePeriod ≤ p.waited →
      (∀ q ∈ e.waiting, q ≠ p → max 1 q.bound < q.level → agePeriod ≤ q.waited → p.ord < q.ord) →
      exec (.copyPriorityAge eng) s = .next (s.modCopy eng fun e =>
        { e with waiting := e.waiting.map fun q => if q.ord = p.ord then { q with level := q.level - 1, waited := q.waited - agePeriod } else q })) ∧
    (∀ (src : CpSrc) (i vc : Nat) (us : List LinkUnit) rest, s.cut i = false → us.length = 8 → (∀ k < 8, ∀ u, us[k]? = some u → u.void = false ∧ u.last = decide (k = 7)) →
      (e.waiting.filter fun p => p.src == src).length < 16 → e.inbox = (us.map fun u => ⟨src, i, vc, u⟩) ++ rest →
      ∃ s' e' q, exec (.copyPacketFrame eng) s = .next s' ∧ s'.copy[eng]? = some e' ∧ e'.inbox = rest ∧ e'.waiting = e.waiting ++ [q] ∧
        e'.active = e.active ∧ s'.insts = s.insts ∧ s'.ctxs = s.ctxs ∧ s'.hbm = s.hbm ∧
        q.src = src ∧ q.inst = i ∧ q.pkt = BitVec.ofNat 512 (ofElems 64 (us.map fun u => u.bits.toNat % 2 ^ 64))) ∧
    (∀ src i v rest x, e.permitIn = (src, i, v) :: rest → s.insts[i]? = some x → x.escalated = false → x.permitAt eng v.toNat < 65535 →
      exec (.permitUnit eng) s = .next ((s.modCopy eng fun e => { e with permitIn := rest }).modInst i fun x =>
        x.setPermit eng v.toNat (x.permitAt eng v.toNat + 1)))) ∧
  (∀ (s : State) (eng : Nat) (e : CpEngine) (a : CpActive) (q : CopyEnd), s.copy[eng]? = some e →
    pickOf (Config.copyPick s.now) (s.cpDues eng e) = some (a, q) →
    (∀ g, q = .mark g → ∃ s', exec (.copyCompletion eng) s = .next s' ∧
      s'.copy = (s.putCopy eng { a with job := { a.job with marked := a.job.marked ++ [g] } }).copy ∧
      (∀ y, s'.tile? a.p.inst g.1 = some y → y.isFull g.2 = true) ∧ ∀ k : Loc, s'.byteAt a.p.inst k = s.byteAt a.p.inst k) ∧
    (∀ d, q = .dest d →
      (cpSem a.p.pkt = false → exec (.copyCompletion eng) s = .next (s.putCopy eng { a with dests := a.dests.filter fun k => k != d })) ∧
      (∀ y (k : BitVec 6), cpSem a.p.pkt = true → k = a.p.pkt.extractLsb' 362 6 → s.tile? a.p.inst d = some y →
        y.place ≠ .saved → (y.sem[k.toNat]'k.isLt).toNat + (cpAdd a.p.pkt).toNat ≤ 65535 →
        exec (.copyCompletion eng) s = .next ((s.modTile a.p.inst d fun y =>
          { y with sem := y.sem.set k.toNat (y.sem[k.toNat]'k.isLt + cpAdd a.p.pkt) k.isLt }).putCopy eng
            { a with dests := a.dests.filter fun k => k != d }))) ∧
    (∀ p, q = .over → a.p.src = .tile p → ∃ s', exec (.copyCompletion eng) s = .next s' ∧ s'.insts = s.insts ∧ s'.hbm = s.hbm ∧ s'.host = s.host ∧
      s'.copy = (s.modCopy eng fun e => { e with active := e.active.filter fun b => b.p.ord != a.p.ord }).copy)) ∧
  (∀ (s : State) (eng : Nat) (a : CpActive),
    (∀ g, CopyEnd.mark g ∈ s.cpEnds eng a ↔ g ∈ a.job.wrote ∧ g ∉ a.job.marked ∧ (∀ w ∈ a.job.unwritten, vaGranule w ≠ g) ∧ s.markFree a.p.inst g = true) ∧
    (∀ d, CopyEnd.dest d ∈ s.cpEnds eng a ↔ d ∈ a.dests ∧ s.storesOut (s.cpTag a.p) a.p.inst a.p.tile (whoCopy eng a.p.level) = false ∧
      (∀ w ∈ a.job.unwritten, cpOp a.p.pkt = 4 ∧ (vaGranule w).1 ≠ d) ∧
      ∀ g ∈ a.job.wrote, g ∈ a.job.marked ∨ (cpOp a.p.pkt = 4 ∧ g.1 ≠ d)) ∧
    (CopyEnd.over ∈ s.cpEnds eng a ↔ a.dests = [] ∧ a.job.unwritten = []))

/-- R150, R176, R177: COPY, CONV, FILL and MCAST read the units of the packets in progress, and write a word once every unit that writes to it is read: its
bytes are those that the units give, and no other byte of memory changes. The rows of a packet stand at its addresses and strides, an MCAST's in the slice of
each member of its group. -/
def Obligations.CopyPackets : Prop :=
  (∀ (s : State) (eng op : Nat) (i : Instr) (e : CpEngine) (a : CpActive),
    (i = .cpyCopy eng ∧ op = 1) ∨ (i = .cpyConv eng ∧ op = 2) ∨ (i = .cpyFill eng ∧ op = 3) ∨ (i = .cpyMcast eng ∧ op = 4) →
    s.copy[eng]? = some e →
    (let k := s.cpTask eng a.p
     let home := match a.p.src with | .tile _ => a.p.tile | _ => 0
     (∀ n u ps bs s1, pickOf (Config.copyPick s.now) (s.cpActs eng op e) = some (a, .inl n) → k.units[n]? = some u →
       s.checkUnit k .read k.srcAlign u.srcRow u.src u.srcN = .ok ps → s.readPieces k.inst k.tile k.who k.tag ps = (.bytes bs, s1) →
       ∃ s', exec i s = .next s' ∧ s'.hbm = s.hbm ∧ s'.host = s.host ∧
         s'.copy = (s.putCopy eng { a with job := { a.job with
           unread := a.job.unread.filter fun m => m != n, got := a.job.got ++ [(n, (k.data u.len bs).1)] } }).copy ∧
         s'.insts = (s.modTile a.p.inst home fun t => { t with xflags := t.xflags ||| (k.data u.len bs).2 }).insts) ∧
     (∀ w b ms l z, pickOf (Config.copyPick s.now) (s.cpActs eng op e) = some (a, .inr w) →
       (let us := (k.over a.job w).filterMap fun u => u.2.map fun b => (u.1, b)
        let row := match us with | u :: _ => u.1.dstRow | [] => w
        wordRuns us w = [(b, ms)] → s.checkRuns k row [(b, ms)] = .ok [(l, z)] → ms.length = z.bytes → s.writeHeld k.inst [(l, z)] = false →
        s.homeHere k.inst l → s.canonical = true →
        ∃ s', exec i s = .next s' ∧
          s'.copy = (s.putCopy eng { a with job := { a.job with
            part := k.partAfter a.job w (s.copyHome k us w)
            unwritten := a.job.unwritten.filter fun v => v != w
            wrote := if k.fe = true ∧ vaGranule w ∉ a.job.wrote then a.job.wrote ++ [vaGranule w] else a.job.wrote } }).copy ∧
          (∀ j m, ms[j]? = some m → s'.byteAt k.inst (l.plus j) = (s.byteAt k.inst (l.plus j) &&& ~~~m.1) ||| (m.2 &&& m.1)) ∧
          ∀ q : Loc, (∀ j < z.bytes, q ≠ l.plus j) → s'.byteAt k.inst q = s.byteAt k.inst q)))) ∧
  (∀ (s : State) (eng : Nat) (p : CpPkt) (row n : Nat),
    (let x := p.pkt
     let sa : W64 := x.extractLsb' 64 64 + BitVec.ofNat 64 row * (x.extractLsb' 288 32).signExtend 64
     let step : W64 := BitVec.ofNat 64 row * (x.extractLsb' 256 32).signExtend 64
     let made (da : W64) : Prop := ∃ u ∈ (s.cpTask eng p).units, u.srcRow = sa ∧ u.dstRow = da ∧
       u.src = sa + BitVec.ofNat 64 (rowBytes (cpSrcFmt x) (n * cpGroup x)) ∧ u.dst = da + BitVec.ofNat 64 (rowBytes (cpDstFmt x) (n * cpGroup x)) ∧
       u.len = min (cpGroup x) (cpLen x - n * cpGroup x)
     row < cpRows x → n * cpGroup x < cpLen x →
     (cpOp x ≠ 4 → made (x.extractLsb' 128 64 + step)) ∧
     (cpOp x = 4 → ∀ m ∈ cpMembers (s.inst? p.inst) x,
       made (BitVec.ofNat 64 (2 ^ 54 + m * 2 ^ 21) + BitVec.ofNat 64 (fld x 128 21) + step)))) ∧
  (∀ (x : Rec64) (mode : BitVec 3) (len : Nat) (bs : List Byte),
    (cpOp x = 1 ∨ cpOp x = 4 → cpUnitData x mode len bs = (bs, 0)) ∧
    (cpOp x = 3 → (cpUnitData x mode len bs).2 = 0 ∧ ∀ k < rowBytes (cpDstFmt x) len,
      (cpUnitData x mode len bs).1[k]? = some (BitVec.ofNat 8 (x.toNat / 2 ^ (64 + 8 * (k % 8))))))

/-- R181-R183: a direction of a HALO reads the 8-byte units of its rows in the slice of its tile, writes them to that of the neighbour, word by word, marks its
granules where it must, and once all is done adds to the neighbour's semaphore; the sender's semaphore receives 1 once every read is performed. -/
def Obligations.HaloCopies : Prop :=
  (∀ (s : State) (x : Inst) (t : Tile) (h : Halo) (at' : Nat) (dir : Dir) (nb : Nat) (jobs : List (Dir × CopyJob)) (j : CopyJob),
    s.insts[s.focus.inst]? = some x → x.tiles[s.focus.tile]? = some t →
    pickOf (Config.copyPick s.now) (s.halosFor x t dir) = some (h, at') → (h.left.isSome = true ∨ haloOk h.desc = true) →
    h.jobs x t s.focus.inst s.focus.tile = jobs → lookupKey dir jobs = some j → x.neighbour t s.focus.tile dir = some nb →
    haloRange h.desc dir s.focus.tile nb = none →
    (let k := haloTask s.focus.inst x.tag s.focus.tile nb h.desc dir
     let after (j : CopyJob) : List Halo := t.halos.take at' ++ [{ h with left := some (putDir dir (some j) jobs) }] ++ t.halos.drop (at' + 1)
     (∀ n u ps bs s1, pickOf (Config.copyPick (s.now + 1)) (haloActs s k j) = some (.inl (.inl n)) → k.units[n]? = some u →
       s.checkUnit k .read 8 u.srcRow u.src 8 = .ok ps → s.readPieces k.inst k.tile k.who k.tag ps = (.bytes bs, s1) →
       ∃ s', exec (.haloDirectionComplete dir) s = .next s' ∧ s'.hbm = s.hbm ∧ s'.host = s.host ∧
         s'.insts = (s.modFocus fun t => { t with halos := after { j with
           unread := j.unread.filter fun m => m != n, got := j.got ++ [(n, bs)] } }).insts) ∧
     (∀ w b ms l z, pickOf (Config.copyPick (s.now + 1)) (haloActs s k j) = some (.inl (.inr w)) →
       (let us := (k.over j w).filterMap fun u => u.2.map fun b => (u.1, b)
        let row := match us with | u :: _ => u.1.dstRow | [] => w
        wordRuns us w = [(b, ms)] → s.checkRuns k row [(b, ms)] = .ok [(l, z)] → ms.length = z.bytes → s.writeHeld k.inst [(l, z)] = false →
        s.homeHere k.inst l → s.canonical = true →
        ∃ s' t', exec (.haloDirectionComplete dir) s = .next s' ∧ s'.tile? s.focus.inst s.focus.tile = some t' ∧
          t'.halos = after { j with
            part := k.partAfter j w (s.copyHome k us w)
            unwritten := j.unwritten.filter fun v => v != w
            wrote := if k.fe = true ∧ vaGranule w ∉ j.wrote then j.wrote ++ [vaGranule w] else j.wrote } ∧ t'.g = t.g ∧ t'.sem = t.sem ∧
          (∀ j m, ms[j]? = some m → s'.byteAt k.inst (l.plus j) = (s.byteAt k.inst (l.plus j) &&& ~~~m.1) ||| (m.2 &&& m.1)) ∧
          ∀ q : Loc, (∀ j < z.bytes, q ≠ l.plus j) → s'.byteAt k.inst q = s.byteAt k.inst q)) ∧
     (∀ g, pickOf (Config.copyPick (s.now + 1)) (haloActs s k j) = some (.inr (.mark g)) →
       ∃ s' t', exec (.haloDirectionComplete dir) s = .next s' ∧ s'.tile? s.focus.inst s.focus.tile = some t' ∧
         t'.halos = after { j with marked := j.marked ++ [g] } ∧ (∀ y, s'.tile? s.focus.inst g.1 = some y → y.isFull g.2 = true) ∧
         ∀ k : Loc, s'.byteAt s.focus.inst k = s.byteAt s.focus.inst k) ∧
     (∀ (r : BitVec 6) y, pickOf (Config.copyPick (s.now + 1)) (haloActs s k j) = some (.inr .over) → r = h.desc.extractLsb' 53 6 →
       x.tiles[nb]? = some y → nb ≠ s.focus.tile → y.place ≠ .saved → (y.sem[r.toNat]'r.isLt).toNat + fld h.desc 37 16 ≤ 65535 →
       ∃ s' t' y', exec (.haloDirectionComplete dir) s = .next s' ∧ s'.tile? s.focus.inst s.focus.tile = some t' ∧ s'.tile? s.focus.inst nb = some y' ∧
         (let left := putDir dir none jobs
          t'.halos = t.halos.take at' ++ (if left = [] ∧ h.sent = true then [] else [{ h with left := some left }]) ++ t.halos.drop (at' + 1)) ∧
         t'.g = t.g ∧ t'.slice = t.slice ∧ y'.g = y.g ∧ y'.slice = y.slice ∧
         ∀ q : Fin 64, y'.sem[q] = if h.desc.getLsbD 59 ∧ q.val = r.toNat then y.sem[q] + BitVec.ofNat 16 (fld h.desc 37 16) else y.sem[q]))) ∧
  (∀ (s : State) (x : Inst) (t : Tile) (h : Halo) (at' : Nat) (k : BitVec 6), s.insts[s.focus.inst]? = some x → x.tiles[s.focus.tile]? = some t →
    pickOf (Config.copyPick s.now) (s.halosRead x t) = some (h, at') → (h.left.isSome = true ∨ haloOk h.desc = true) → k = h.desc.extractLsb' 29 6 →
    (let left := h.jobs x t s.focus.inst s.focus.tile
     t.place ≠ .saved → (t.sem[k.toNat]'k.isLt).toNat < 65535 →
     exec .haloSenderComplete s = .next (s.modFocus fun t => { t with
       halos := t.halos.take at' ++ (if left = [] then [] else [{ h with left := some left, sent := true }]) ++ t.halos.drop (at' + 1)
       sem := if h.desc.getLsbD 35 then t.sem.set k.toNat (t.sem[k.toNat]'k.isLt + 1) k.isLt else t.sem }))) ∧
  (∀ (i ltid nb : Nat) (tag : Byte) (d : Rec64) (dir : Dir) (row n : Nat), row < fld d 116 12 + 1 → n < fld d 104 12 + 1 →
    ∃ u ∈ (haloTask i tag ltid nb d dir).units,
      u.src = BitVec.ofNat 64 (2 ^ 54 + ltid * 2 ^ 21) + BitVec.ofNat 64 (fld (haloWord d dir) 0 21 + row * (8 * fld d 84 20)) + BitVec.ofNat 64 (8 * n) ∧
      u.dst = BitVec.ofNat 64 (2 ^ 54 + nb * 2 ^ 21) + BitVec.ofNat 64 (fld (haloWord d dir) 32 21 + row * (8 * fld d 64 20)) + BitVec.ofNat 64 (8 * n) ∧
      u.srcN = 8 ∧ u.dstN = 8)

/-! ### Pages -/

/-- R345, R351, R353, R357, R388: a walk that finds a leaf that may be kept is kept, and then serves its VA; any other reads the last remote entry that it met
afresh, and leaves all as it was where it met none. The shadow context walks for the first access that waits, of the tile's sequencer, engines, streams or copies.
An invalidation drops what it names and its tile goes on. A moved frame holds what stood in the old one, which is free. That a walk keeps the leaf that it
finds is the model's choice (log 33), and so is that an invalidation of kind 1 or 2 drops every kept remote entry (log 6): R353 lets a device keep less. -/
def Obligations.Pages : Prop :=
  (∀ (s : State) (x : Inst) (c : Context) (va : W64), s.insts[s.focus.inst]? = some x → s.ctx? x.tag = some c →
    (let remote := s.remoteEntries c va.toNat walkLevels (c.allotment - 0x10000)
     (∀ l, s.walk c va = .ok l → l.cacheable = true →
       ∃ s' c', exec (.pageWalk va) s = .next s' ∧ s' = s.modCtx x.tag (fun c => c.keep (l.tlb va)) ∧
         s'.ctx? x.tag = some c' ∧ c'.cached va = some ⟨l.e, l.level, 0⟩ ∧ s'.translate c' .read va = s'.useLeaf c' .read va ⟨l.e, l.level, 0⟩) ∧
     ((∀ l, s.walk c va = .ok l → l.cacheable = false) →
       (fld va 44 20 ≠ 0 ∨ c.allotment = 0 ∨ remote = [] → exec (.pageWalk va) s = .next s) ∧
       (∀ lvl ea k v, fld va 44 20 = 0 → c.allotment ≠ 0 → remote.getLast? = some (lvl, ea, k, v) →
         (let s1 := s.modCtx x.tag fun c => { c with tables := dropKey ea c.tables, seen := dropKey ea c.seen }
          exec (.pageWalk va) s = .next (s1.askPeer x.tag k (walkAsk lvl ea v) (.read v .b8)).2))))) ∧
  (∀ (s : State) (x : Inst) (t : Tile) (va : W64), s.insts[s.focus.inst]? = some x → x.tiles[s.focus.tile]? = some t →
    ((t.accessVas ++ t.stream.toList.flatMap Stream.accessVas ++ s.copyVas s.focus.inst s.focus.tile).find? fun v =>
      s.check s.focus.inst (.plain .read 1) v == .minor) = some va →
    ∃ r, exec .shadowService s = .next r ∧ exec (.pageWalk va) s = .next r) ∧
  (∀ (s : State) (x : Inst) (c : Context) (i t : Nat) (kind : InvKind) (va : W64) (rest : List (Nat × Nat × InvKind × W64)),
    s.insts[s.focus.inst]? = some x → s.ctx? x.tag = some c → c.invals = (i, t, kind, va) :: rest → s.translatedOut x.tag = false →
    ∃ s' c', exec .tlbiComplete s = .next s' ∧ s'.ctx? x.tag = some c' ∧ c'.invals = rest ∧
      (∀ e, e ∈ c'.tlb ↔ e ∈ c.tlb ∧ kind ≠ .all ∧ ¬(e.base ≤ va.toNat ∧ va.toNat < e.base + e.size)) ∧
      (∀ e, e ∈ c'.tables ↔ e ∈ c.tables ∧ kind = .page ∧ e.2.toNat % 4 = 1) ∧ c'.seen = [] ∧
      (∀ y', s'.tile? i t = some y' → y'.seq.invWait = rest.any fun r => r.1 == i && r.2.1 == t) ∧
      ∀ k : Loc, s'.byteAt s.focus.inst k = s.byteAt s.focus.inst k) ∧
  (∀ (s : State) (c : Context) (tag : Byte) (unit f frame : Nat), s.ctx? tag = some c → c.frames[unit]? = some f → frame < s.hbmFrames → tag ≠ 0 →
    s.frameTag frame = 0 → f ≠ frame → f + 16 < s.hbmFrames → s.translatedOut tag = false → s.canonical = true →
    ∃ s' c', exec (.frameMove tag unit frame) s = .next s' ∧ s'.ctx? tag = some c' ∧ c'.frames = c.frames.set unit frame ∧
      s'.frameTag frame = tag ∧ s'.frameTag f = 0 ∧ (∀ g, g ≠ f → g ≠ frame → s'.frameTag g = s.frameTag g) ∧
      (∀ o < 2 ^ 21, s'.hbm.get (frame * 2 ^ 21 + o) = s.hbm.get (f * 2 ^ 21 + o)) ∧
      (∀ p, p / 2 ^ 21 ≠ frame → p / 2 ^ 21 ≠ f → s'.hbm.get p = s.hbm.get p) ∧ s'.host = s.host)

/-- R359: a PMIG that pins or unpins swaps its leaf's state; one that moves a page swaps the leaf to Migrating, also where it read the leaf before; once nothing
that was translated is outstanding it copies the page, here from a place in this package's HBM to another; then it swaps in the leaf with the new place. A leaf that has changed meanwhile
stays as it is, and the migration ends. -/
def Obligations.PageMigration : Prop :=
  ∀ (s : State) (x : Inst) (c : Context) (m : Mig) (rest : List Mig),
    s.insts[s.focus.inst]? = some x → s.ctx? x.tag = some c → c.migs = m :: rest → s.canonical = true →
    (∀ l : Loc, l.isRemote = false → s.stage2 c .read m.leafIpa false 0 = .loc l → s.stage2 c .atomic m.leafIpa false 0 = .loc l →
      s.reservedElsewhere noInst 0 l 8 = false → s.badLoc noInst l 8 = false →
      (let old : W64 := BitVec.ofNat 64 (s.numberAt noInst l 8)
       let swaps (new : W64) (after : List Mig) : Prop := ∃ s' c', exec .migrate s = .next s' ∧ s'.ctx? x.tag = some c' ∧ c'.migs = after ∧
         BitVec.ofNat 64 (s'.numberAt noInst l 8) = new ∧ ∀ k : Loc, (∀ j < 8, k ≠ l.plus j) → s'.byteAt noInst k = s.byteAt noInst k
       let plain := old.toNat % 4 = 2 ∧ entryState old ∈ [1, 2]
       (m.phase = .released → plain → fld m.d 0 2 = 1 → swaps (withState old 4) rest) ∧
       (m.phase = .released → old.toNat % 4 = 2 → entryState old = 4 → fld m.d 0 2 = 2 →
         swaps (withState old (if old.toNat / 2 ^ 51 % 2 = 0 then 1 else 2)) rest) ∧
       (m.phase = .released → plain → fld m.d 0 2 = 0 → swaps (withState old 3) ({ m with phase := .migrating old } :: rest)) ∧
       (m.phase = .released → ¬plain → fld m.d 0 2 ≠ 2 → swaps old rest) ∧
       (m.phase = .released → ¬(old.toNat % 4 = 2 ∧ entryState old = 4) → fld m.d 0 2 = 2 → swaps old rest) ∧
       (∀ was new, m.phase = .swapping was new → swaps (if old = was then new else old)
         (if old = was ∧ fld m.d 0 2 = 0 then { m with phase := .migrating was } :: rest else rest)) ∧
       (∀ mig final, m.phase = .copied mig final → swaps (if old = mig then final else old) rest))) ∧
    (∀ old1 f g, m.phase = .migrating old1 → s.translatedOut x.tag = false → (∀ i t y, s.tile? i t = some y → y.reserved = []) →
      (let a := fld old1 16 36 * 65536
       let b := fld m.d 16 36 * 65536
       let mig := withState old1 3
       a < 2 ^ 50 → b < 2 ^ 50 → a < c.allotment → b < c.allotment → c.frames[a / 2 ^ 21]? = some f → c.frames[b / 2 ^ 21]? = some g →
       (let src := f * 2 ^ 21 + a % 2 ^ 21
        let dst := g * 2 ^ 21 + b % 2 ^ 21
        (∀ w ∈ s.hbmBad, w / 8192 ≠ src / 65536) →
        ∃ s' c', exec .migrate s = .next s' ∧ s'.ctx? x.tag = some c' ∧
          c'.migs = { m with phase := .copied mig (withState ((mig &&& ~~~(BitVec.ofNat 64 (2 ^ 52 - 2 ^ 16))) ||| BitVec.ofNat 64 b) 1) } :: rest ∧
          (∀ o < 65536, s'.hbm.get (dst + o) = s.hbm.get (src + o)) ∧
          (∀ p, p < dst ∨ dst + 65536 ≤ p → s'.hbm.get p = s.hbm.get p) ∧ s'.host = s.host)))

/-! ### Stopping and resuming tiles -/

/-- R41, R258, R264, R266, R267, R276, R324, R392: a tile that is stopped gives up its block and keeps the rest of its state; a context claims a free tile, or one
whose state is saved, or else one preloaded for another; a tile that resumes goes on with that state, with the increment held for it, sees where it stands, and a WAITA it
was parked in wakes with reason 4, above any wake-up already on its way, which is the model's reading of R158 (log 71). A tile is stopped for its slice where another
context waits for a tile (log 29). -/
def Obligations.TilesStopAndResume : Prop :=
  (∀ (s : State) (x : Inst) (t : Tile) (c : Context), s.insts[s.focus.inst]? = some x → x.tiles[s.focus.tile]? = some t →
    s.ctx? x.tag = some c → t.place = .running → (∀ b, t.seq.block = some b → b.committing = false) →
    (let stops (served : Option Nat) (n : Nat) : Prop := ∃ s' c', exec .tilePreempt s = .next s' ∧ s'.hbm = s.hbm ∧ s'.host = s.host ∧
       s'.ctx? x.tag = some c' ∧ c'.counters[8] = c.counters[8] + BitVec.ofNat 64 n ∧
       s'.tile? s.focus.inst s.focus.tile = some { t with
         place := .resident
         since := s.now
         served := served
         reserved := if t.seq.block.isSome then [] else t.reserved
         seq := match t.seq.block with
           | some b => { t.seq with block := none, next := b.header }
           | none => t.seq }
     (c.stopping = true → stops t.served 0) ∧
     (c.stopping = false → (s.physAt t.phys).mappedOut = true ∨ (c.sliceOver t.served = true ∧ (s.tileWaiter c.tag).isSome = true) → stops none 1))) ∧
  (∀ (s : State) (phys : Nat) (tag : Byte) (c : Context), phys < s.tileCount → tag ≠ 0xFF → s.ctx? tag = some c → (s.physAt phys).mappedOut = false →
    s.wantsTile c = true →
    ((s.physAt phys).tag = 0 ∨ ((s.physAt phys).tag = tag ∧ (s.physAt phys).preload.isSome = true) →
      exec (.tileClaimSave phys tag) s = .next (s.tagPhys phys tag)) ∧
    ((s.physAt phys).tag ≠ 0 → (s.physAt phys).tag ≠ tag → (s.physAt phys).preload.isSome = true → s.idleTiles = 0 → s.comesFirst c = true →
      s.onPhys phys = none → s.residentSince tag = [] → exec (.tileClaimSave phys tag) s = .next (s.tagPhys phys tag)) ∧
    (∀ i k x t, (s.physAt phys).tag ≠ 0 → (s.physAt phys).tag ≠ tag → s.idleTiles = 0 → s.comesFirst c = true → s.onPhys phys = some (i, k) → s.insts[i]? = some x →
      x.tiles[k]? = some t → t.place = .resident → (∀ n ∈ s.residentSince tag, t.since ≤ n) → x.busyAt (inSlice k) = false → s.workOn i k x t = false →
      ∃ s' t', exec (.tileClaimSave phys tag) s = .next s' ∧ (s'.physAt phys).tag = tag ∧
        (s'.physAt phys).banks = Vector.replicate 16 tag ∧ s'.tile? i k = some t' ∧ t'.place = .saved ∧ t'.phys = noPhys ∧ t'.g = t.g ∧ t'.sem = t.sem ∧
        t'.slice = t.slice ∧ t'.full = t.full ∧ t'.sr = t.sr ∧ t'.watches = [])) ∧
  (∀ (s : State) (phys i k : Nat) (c : Context) (x : Inst) (t : Tile), s.ctx? (s.physAt phys).tag = some c → c.active = true →
    (s.physAt phys).mappedOut = false → (s.physAt phys).preload = none → s.insts[i]? = some x → x.tiles[k]? = some t →
    t.seq.invWait = false → takeNotice k x.notices = none →
    (s.onPhys phys = some (i, k) ∧ t.place = .resident ∧ givesWay t.served (s.tileWaiter c.tag) = false) ∨ (s.onPhys phys = none ∧ s.firstSaved c.tag = some (i, k)) →
    (∀ e, t.heldInc = [e] → (t.sem[e.sem.toNat]'e.sem.isLt).toNat + e.add.toNat ≤ 65535 →
      ∃ s' t', exec (.tileResume phys) s = .next s' ∧ s'.tile? i k = some t' ∧ t'.place = .running ∧ t'.heldInc = [] ∧
        t'.sem = t.sem.set e.sem.toNat (t.sem[e.sem.toNat]'e.sem.isLt + e.add) e.sem.isLt ∧ t'.slice = t.slice) ∧
    (t.heldInc = [] → ∃ s' t', exec (.tileResume phys) s = .next s' ∧ s'.tile? i k = some t' ∧ t'.place = .running ∧ t'.phys = phys ∧ t'.resumes = t.resumes + 1 ∧
      t'.spot = ({ x with tiles := x.tiles.modify k fun t => { t with phys := phys } } : Inst).placement phys ∧
      t'.sem = t.sem ∧ t'.slice = t.slice ∧ t'.sr = t.sr ∧ t'.chan = t.chan ∧ t'.mxe = t.mxe ∧ t'.seq.next = t.seq.next ∧
      (∀ h o g l n w, t.seq.park = some (.waita h o g l n w) → t'.g = t.g.set g.toNat 4 g.isLt ∧ t'.seq.park = none) ∧
      (∀ gid p, t.seq.park = some (.bar gid p) → t.seq.outer = none → t'.g = t.g ∧ t'.seq = t.seq) ∧
      (t.seq.park = none → t.seq.outer = none → t'.g = t.g ∧ t'.seq = t.seq)))

/-- R57, R258, R289, R313: an elapsed slice stops as many tiles, and as many plot sets, as the context that waits for them lacks, the first in order, which is the
model's reading of "every tile and plot set that a waiting context needs" (log 29); what counts as quiescent is as log 18 says; a spent budget stops every tile and plot set of its instance
and marks its queue; quiescence of a context counts, and makes DEADLOCK pending on the home tiles of its blocked instances, at once or when its report, which still waits, has ended. -/
def Obligations.ContextsStopped : Prop :=
  (∀ (s : State) (tag : Byte) (c : Context) (tiles : List (Nat × Nat)) (sets : List (Nat × Nat)), s.ctx? tag = some c → c.active = true →
    tiles = (match s.tileWaiter tag with
      | some r => ((s.runningTiles tag).filter fun a => (s.tile? a.1 a.2).any fun t => c.sliceOver t.served).take (s.tilesShort r - (s.residents tag).length)
      | none => []) →
    sets = (match s.plotWaiter tag with
      | some r => setsFor (s.plotsShort r) ((s.runningSets tag).filter fun a => c.sliceOver a.2.2.served)
      | none => []) →
    (tiles ≠ [] ∨ sets ≠ []) →
    ∃ s', exec (.sliceExpiry tag) s = .next s' ∧ s'.hbm = s.hbm ∧
      (∀ a ∈ tiles, ∀ t, s.tile? a.1 a.2 = some t → (∀ b, t.seq.block = some b → b.committing = false) →
        ∃ t', s'.tile? a.1 a.2 = some t' ∧ t'.place = .resident ∧ t'.g = t.g ∧ t'.sem = t.sem ∧ t'.slice = t.slice ∧ t'.sr = t.sr) ∧
      (∀ a ∈ sets, ∀ x' n', s'.insts[a.1]? = some x' → x'.nodes[a.2]? = some n' → n'.pre.isSome = true)) ∧
  (∀ (s : State) (x : Inst) (c : Context) (y : Tile), s.insts[s.focus.inst]? = some x → s.ctx? x.tag = some c → x.budget ≠ 0 → x.st = .running →
    y ∈ x.tiles → y.place = .running → y.seq.finished = false → x.budget * 65536 ≤ y.runCycles →
    (∀ t ∈ x.tiles, t.place = .running → ∀ b, t.seq.block = some b → b.committing = false) →
    ∃ s' c', exec .budgetOverrun s = .next s' ∧ s'.ctx? x.tag = some c' ∧ (c'.queues[x.queue.toNat]'x.queue.isLt).lasterr = 0x13 ∧
      (∀ k t, x.tiles[k]? = some t → t.place = .running →
        ∃ t', s'.tile? s.focus.inst k = some t' ∧ t'.place = .resident ∧ t'.g = t.g ∧ t'.sem = t.sem ∧ t'.slice = t.slice ∧ t'.sr = t.sr) ∧
      ∀ x' n, s'.insts[s.focus.inst]? = some x' → n ∈ x'.nodes → n.placed = true → n.finished = false → n.pre.isSome = true) ∧
  (∀ (s : State) (tag : Byte) (c : Context), s.ctx? tag = some c → c.active = true → c.declared = false → 4096 ≤ c.quiet → s.preempted tag = false →
    s.workLeft tag = true →
    ∃ s' c', exec (.deadlockDeclare tag) s = .next s' ∧ s'.ctx? tag = some c' ∧ c'.declared = true ∧ c'.quiet = 0 ∧
      c'.counters[7] = c.counters[7] + 1 ∧
      ((∃ r, c'.report = some r ∧ r.ended = none) ∨
       (c'.report = none ∧ ∀ (i : Nat) (x : Inst) (t : Tile), s.insts[i]? = some x → x.tag = tag → s.outstanding i x = true → x.tiles[0]? = some t →
         t.seq.finished = false → t.seq.pend.eng0.length < 16 →
         ∃ t' f, s'.tile? i 0 = some t' ∧ f ∈ t'.seq.pend.eng0 ∧ f.code = 0x12 ∧ f.engine = 0 ∧ t'.g = t.g)) ∧
      (∀ (i : Nat) (x : Inst), s.insts[i]? = some x → x.tag ≠ tag → s'.insts[i]? = some x))

/-! ### Queues -/

/-- R280, R284-R288, R292, R348: a record that passes its checks is accepted, any other counts as rejected; arbitration makes the head of the queue that it chooses err where
its fields are bad; a WAITMARK whose mark cannot be read errs and never starts, and one whose mark is seen to hold can start from then on; a Ready queue rises a level for each 4 ms; a due mark receives its add, here or at a peer,
or the queue its error; PRELOAD puts free tiles, as many as the LAUNCH needs, under the context's tag; a LOADK or a COPY that has started goes on once its
bytes are there. The code of a mark that a session or a peer refuses is the model's choice (log 36), the pieces of an object that are read after the start are its reading
(log 43), and the engine of a COPY is its choice (log 15). -/
def Obligations.QueueEvents : Prop :=
  ∀ (s : State) (tag : Byte) (q : BitVec 4) (c : Context) (x : Queue), s.ctx? tag = some c → c.queues[q.toNat]? = some x →
    (∀ key, c.decodes = true → x.enabled = true → x.head ≠ x.tail → x.buf.length + s.enqsHeld tag q < 64 → c.keys.queues[q.toNat]? = some key →
      ∃ s' c', exec (.queueRecordDecode tag q) s = .next s' ∧ s'.ctx? tag = some c' ∧ s'.insts = s.insts ∧
        match openRecord key q x.counter (x.ring[x.head.toNat % 64]'(Nat.mod_lt _ (by decide))) with
        | none => c'.queues[q.toNat]? = some { x with head := x.head + 1, rejects := min 255 (x.rejects + 1) }
        | some p =>
          let n := if p.toNat % 256 = 1 then c.launches + 1 else c.launches
          c'.launches = n ∧
          c'.queues[q.toNat]? = some { x with head := x.head + 1, counter := x.counter + 1, buf := x.buf ++ [(p, n)] }) ∧
    (∀ p n rest, x.buf = (p, n) :: rest → s.chooseQueue c = some q → pkOk p = false → (∀ a ∈ x.started, a.ord ≠ x.ord) →
      ∃ s' c', exec (.queueArbitrate tag) s = .next s' ∧ s'.ctx? tag = some c' ∧ s'.insts = s.insts ∧ s'.hbm = s.hbm ∧
        c'.queues[q.toNat]? = some { x with
          buf := rest, ord := x.ord + 1, ready := 0, age := 0, held := false, errors := min 255 (x.errors + 1), lasterr := 0x01 }) ∧
    (∀ p n rest i, x.buf = (p, n) :: rest → p.toNat % 256 = 4 → pkOk p = true → c.active = true → x.held = false →
      i = .waitmarkRecheck tag q ∨ i = .waitmark tag q p →
      (∀ code, s.readMark c q (fld p 64 16) = .failed code →
        ∃ s' c', exec i s = .next s' ∧ s'.ctx? tag = some c' ∧ s'.insts = s.insts ∧
          c'.queues[q.toNat]? = some { x with buf := rest, ready := 0, age := 0, errors := min 255 (x.errors + 1), lasterr := code }) ∧
      (∀ v, s.readMark c q (fld p 64 16) = .value v →
        ((p.extractLsb' 128 64).toNat ≤ v.toNat →
          (let s1 := s.modQueue tag q fun x => { x with held := true }
           (∀ c1, s1.ctx? tag = some c1 → s1.chooseQueue c1 ≠ some q) → exec i s = .next s1)) ∧
        (∀ l, v.toNat < (p.extractLsb' 128 64).toNat → s.markAcc c .read (fld p 64 16) = .ok l → l.isRemote = false → exec i s = .next s))) ∧
    (s.queueState c q x = 2 → agePeriod * (x.age + 1) ≤ x.ready →
      exec (.queueLevelAge tag q) s = .next (s.modQueue tag q fun x => { x with age := x.age + 1 })) ∧
    (∀ m a rest, x.marks = (m, a) :: rest → c.st ≠ .evicted → c.st ≠ .destroyed →
      (∀ l, s.markAcc c .write m.toNat = .ok l → l.isRemote = false → s.canonical = true →
        ∃ s' c', exec (.markAdd tag q) s = .next s' ∧ s'.ctx? tag = some c' ∧ c'.queues[q.toNat]? = some { x with marks := rest } ∧
          s'.numberAt noInst l 8 = (s.numberAt noInst l 8 + a.toNat) % 2 ^ 64 ∧
          ∀ k : Loc, (∀ j < 8, k ≠ l.plus j) → s'.byteAt noInst k = s.byteAt noInst k) ∧
      (∀ k v, s.markAcc c .write m.toNat = .ok (.remote k v) → c.receives k = false →
        ∃ s' c', exec (.markAdd tag q) s = .next s' ∧ s'.ctx? tag = some c' ∧ s'.insts = s.insts ∧ s'.hbm = s.hbm ∧
          c'.queues[q.toNat]? = some { x with marks := rest, errors := min 255 (x.errors + 1), lasterr := 0x09 }) ∧
      (∀ k v r s1, s.markAcc c .write m.toNat = .ok (.remote k v) → c.receives k = true →
        s.askPeer tag k (markAsk q whoMarkAdd v) (.atomic v .add true a 0) = (some r, s1) →
        ∃ s' c', exec (.markAdd tag q) s = .next s' ∧ s'.ctx? tag = some c' ∧ s'.insts = s.insts ∧ s'.hbm = s.hbm ∧
          c'.queues[q.toNat]? = some (match r with
            | .data _ => { x with marks := rest }
            | .failed code => { x with marks := rest, errors := min 255 (x.errors + 1), lasterr := markCode code })) ∧
      (∀ code, s.markAcc c .write m.toNat = .error (.failed code) →
        ∃ s' c', exec (.markAdd tag q) s = .next s' ∧ s'.ctx? tag = some c' ∧ s'.insts = s.insts ∧ s'.hbm = s.hbm ∧
          c'.queues[q.toNat]? = some { x with marks := rest, errors := min 255 (x.errors + 1), lasterr := markCode code })) ∧
    (∀ p n rest k, x.buf = (p, n) :: rest → p.toNat % 256 = 1 → pkOk p = true → s.queueState c q x = 3 → c.kernelFor q (fld p 32 16) = some k →
      s.preloadedFor tag q x.ord = [] →
      ∃ (s' : State) (ps : List Nat), exec (.preload tag q) s = .next s' ∧ s'.insts = s.insts ∧ s'.ctxs = s.ctxs ∧ s'.hbm = s.hbm ∧ ps.Nodup ∧
        ps.length = min k.tilesNeeded ((List.range s.tileCount).countP fun a => (s.physAt a).tag == 0 && !(s.physAt a).mappedOut) ∧
        (∀ a ∈ ps, a < s.tileCount ∧ (s.physAt a).tag = 0 ∧ (s.physAt a).mappedOut = false ∧
          s'.physAt a = { s.physAt a with tag := tag, banks := Vector.replicate 16 tag, preload := some (q, x.ord) }) ∧
        ∀ a, a ∉ ps → s'.physAt a = s.physAt a) ∧
    (∀ p a im ps s1, s.readingPacket tag q 2 p = some a → a.image = some im → s.readImage tag (packetAsker q a.ord) im = (.ok ps, s1) →
      ∃ s' c' y, exec (.loadk tag q p) s = .next s' ∧ s'.ctx? tag = some c' ∧ s'.insts = s.insts ∧ s'.hbm = s.hbm ∧ c'.queues[q.toNat]? = some y ∧
        y.buf = x.buf ∧
        (imageBytes ps = none ∨ c.loadsBefore (fld p 32 16) a.since = true →
          c'.krefs = c.krefs ∧ y = { x with started := x.started.map fun b => if b.ord = a.ord then { b with image := some ps } else b }) ∧
        ∀ bs, imageBytes ps = some bs → c.loadsBefore (fld p 32 16) a.since = false → lookupKey (fld p 32 16) c.krefs = none →
          y.started = x.started.filter (fun b => b.ord != a.ord) ∧
          match verifyObject c bs with
          | .ok k => c'.krefs = putKey (fld p 32 16) { k with refs := [q] } c.krefs ∧ c'.verified = c.verified ++ [(fld p 32 16, k.id)] ∧
            y.completed = (x.completed + 1) % 2 ^ 24 ∧ y.errors = x.errors
          | .error code => c'.krefs = c.krefs ∧ c'.verified = c.verified ∧ y.completed = x.completed ∧ y.errors = min 255 (x.errors + 1) ∧
            y.lasterr = code) ∧
    (∀ p a ps bs s1 e, s.readingPacket tag q 6 p = some a → s.checkRange noInst tag 0 .read false (p.extractLsb' 64 64) 64 64 = .ok ps →
      s.readPieces noInst (packetAsker q a.ord) 160 tag ps = (.bytes bs, s1) → s.copy[s.queueEngine tag]? = some e →
      (e.waiting.countP fun k => k.src == .queue tag) < 16 → s.insts.length ≤ noInst →
      ∃ s' c' y e' k, exec (.queueCopy tag q p) s = .next s' ∧ s'.ctx? tag = some c' ∧ s'.insts = s.insts ∧ c'.queues[q.toNat]? = some y ∧
        y = { x with started := x.started.map fun b => if b.ord = a.ord then { b with reads := false } else b } ∧
        s'.copy[s.queueEngine tag]? = some e' ∧ e'.waiting = e.waiting ++ [k] ∧ k.src = .queue tag ∧ k.pkt = BitVec.ofNat 512 (ofBytes bs) ∧
        k.queue = some (q, a.ord))

/-- R283-R285, R287, R293, R295, R300: the head packet of the queue that arbitration chooses starts, as its own event or as arbitration's: NOP, QBARRIER, SETMARK and WAITMARK
complete; LAUNCH submits an instance; UNLOADK and LOADK drop and add the queue's reference, or LOADK errs with the code of its check; COPY hands its packet to a copy
engine, which the model chooses (log 15); a LOADK reads all of its object that it can at its start (log 43). -/
def Obligations.QueuePackets : Prop :=
  ∀ (s : State) (tag : Byte) (q : BitVec 4) (c : Context) (x : Queue) (p : Rec64) (n : W32) (rest : List (Rec64 × W32)),
    s.ctx? tag = some c → c.queues[q.toNat]? = some x → x.buf = (p, n) :: rest → s.chooseQueue c = some q → pkOk p = true →
    (∀ a ∈ x.started, a.ord ≠ x.ord ∧ (a.reads = true → a.pkt ≠ p)) →
    (let ends (i : Instr) (krefs : List (Nat × Kernel)) : Prop := ∃ s' c', exec i s = .next s' ∧ s'.ctx? tag = some c' ∧ c'.krefs = krefs ∧
       (∀ k : Fin 16, c'.queues[k] = if k.val = q.toNat then x.ended p else c.queues[k]) ∧
       c'.lastServed = putKey (c.effectiveLevel q x) q.toNat c.lastServed ∧ s'.insts = s.insts ∧ s'.hbm = s.hbm ∧ s'.host = s.host
     let errs (i : Instr) (code : Byte) : Prop := ∃ s' c', exec i s = .next s' ∧ s'.ctx? tag = some c' ∧ c'.krefs = c.krefs ∧ s'.insts = s.insts ∧
       s'.hbm = s.hbm ∧ c'.queues[q.toNat]? = some { x with
         buf := rest, ord := x.ord + 1, ready := 0, age := 0, held := false, errors := min 255 (x.errors + 1), lasterr := code }
     let starts (c' : Context) (reads : Bool) (image : Option (List (Loc × Size × Option (List Byte)))) : Prop := ∀ k : Fin 16, c'.queues[k] =
       if k.val = q.toNat then { x with buf := rest, started := x.started ++ [⟨p, x.ord, reads, s.now, image⟩], ord := x.ord + 1, ready := 0, age := 0, held := false }
       else c.queues[k]
     let taken := s.takeHeadPacket c q x p
     (∀ i, p.toNat % 256 = 8 → i = .queueNop tag q p ∨ i = .queueArbitrate tag → ends i c.krefs) ∧
     (∀ i, p.toNat % 256 = 7 → i = .qbarrier tag q p ∨ i = .queueArbitrate tag → ends i c.krefs) ∧
     (∀ i, p.toNat % 256 = 5 → i = .setmark tag q p ∨ i = .queueArbitrate tag → ends i c.krefs) ∧
     (∀ i, p.toNat % 256 = 4 → i = .waitmark tag q p ∨ i = .waitmarkRecheck tag q ∨ i = .queueArbitrate tag → ends i c.krefs) ∧
     (∀ i k, p.toNat % 256 = 3 → i = .unloadk tag q p ∨ i = .queueArbitrate tag → c.kernelFor q (fld p 32 16) = some k →
       (let refs := k.refs.filter fun r => r != q
        ends i (if refs = [] then dropKey (fld p 32 16) c.krefs else putKey (fld p 32 16) { k with refs := refs } c.krefs))) ∧
     (∀ i, p.toNat % 256 = 2 → i = .loadk tag q p ∨ i = .queueArbitrate tag →
       (let pieces := taken.objectPieces tag (p.extractLsb' 64 64) (fld p 128 32)
        (∀ f, pieces = .bad f → errs i f.code) ∧
        (∀ ps r s1, pieces = .ok ps → taken.readImage tag (packetAsker q x.ord) (ps.map fun a => (a.1, a.2, none)) = (r, s1) →
          (∀ code, r = .error code → errs i code) ∧
          (∀ im, r = .ok im → imageBytes im = none → ∃ s' c', exec i s = .next s' ∧ s'.ctx? tag = some c' ∧ c'.krefs = c.krefs ∧ s'.insts = s.insts ∧
            starts c' true (some im)) ∧
          (∀ im bs, r = .ok im → imageBytes im = some bs → c.loadsBefore (fld p 32 16) s.now = false →
            (lookupKey (fld p 32 16) c.krefs = none →
              (∀ k, verifyObject c bs = .ok k → ends i (putKey (fld p 32 16) { k with refs := [q] } c.krefs)) ∧
              (∀ code, verifyObject c bs = .error code → errs i code)) ∧
            (∀ k, lookupKey (fld p 32 16) c.krefs = some k →
              (q ∉ k.refs → k.digest = sha384 bs → ends i (putKey (fld p 32 16) { k with refs := k.refs ++ [q] } c.krefs)) ∧
              (q ∈ k.refs ∨ k.digest ≠ sha384 bs → errs i 0x01)))))) ∧
     (∀ i k, p.toNat % 256 = 1 → i = .launch tag q p ∨ i = .queueArbitrate tag → c.kernelFor q (fld p 32 16) = some k →
       ∃ s' c' y, exec i s = .next s' ∧ s'.ctx? tag = some c' ∧ starts c' false none ∧ s'.insts = s.insts ++ [y] ∧ y.tag = tag ∧ y.queue = q ∧
         y.kernel = k ∧ y.st = .submitted ∧ y.launch = n ∧ y.budget = fld p 48 16 ∧ y.ord = x.ord ∧
         y.args = (List.range 7).map fun j => p.extractLsb' (64 * (j + 1)) 64) ∧
     (∀ i ps bs s1 e, p.toNat % 256 = 6 → i = .queueCopy tag q p ∨ i = .queueArbitrate tag →
       taken.checkRange noInst tag 0 .read false (p.extractLsb' 64 64) 64 64 = .ok ps →
       taken.readPieces noInst (packetAsker q x.ord) 160 tag ps = (.bytes bs, s1) → s.copy[s.queueEngine tag]? = some e →
       (e.waiting.countP fun k => k.src == .queue tag) < 16 → s.insts.length ≤ noInst →
       ∃ s' c' e' k, exec i s = .next s' ∧ s'.ctx? tag = some c' ∧ starts c' false none ∧ s'.copy[s.queueEngine tag]? = some e' ∧
         e'.waiting = e.waiting ++ [k] ∧ k.src = .queue tag ∧ k.pkt = BitVec.ofNat 512 (ofBytes bs) ∧ k.queue = some (q, x.ord) ∧ s'.insts = s.insts))

/-- R288, R295, R304, R305, R308: an instance is placed, on the tiles that it is preloaded on where they are enough, else on those that the model's allocator
chooses (logs 36 and 39; R305 leaves the choice), with the initial state of its tiles, starts once its plot sets stand, drains once every tile has finished, and
retires, which completes its LAUNCH. -/
def Obligations.InstanceLives : Prop :=
  ∀ (s : State) (x : Inst) (c : Context), s.insts[s.focus.inst]? = some x → s.ctx? x.tag = some c →
    (∀ alloc, x.st = .submitted → c.active = true → x.args.length = 7 →
      (let s1 := s.adopt x
       let preloaded := (s.preloadedFor x.tag x.queue x.ord).filter (s1.freePhys x.tag).contains
       (allocTiles x.kernel.tileNodes preloaded).orElse (fun _ => allocTiles x.kernel.tileNodes (s1.freePhys x.tag)) = some alloc) →
      ∃ s' x', exec .instancePlace s = .next s' ∧ s'.insts[s.focus.inst]? = some x' ∧ x'.tag = x.tag ∧
        x'.st = (if ∃ n ∈ x.kernel.nodes, n.fabric = true then .placing else .placed) ∧ (∀ n ∈ x'.nodes, n.placed = false ∧ n.finished = false) ∧
        ∀ n ps j p, (n, ps) ∈ alloc → ps[j]? = some p → ∃ y ∈ x'.tiles, y.phys = p ∧ y.place = .running ∧ y.node = n.id ∧ y.spot = x'.placement p ∧
          y.g[0] = 0 ∧ (∀ k : Fin 7, x.args[k.val]? = some (y.g[k.val + 1])) ∧
          (∀ k : Fin 32, 8 ≤ k.val → k.val ≠ 30 → y.g[k] = 0) ∧
          y.g[30] = BitVec.ofNat 64 (2 ^ 54 + (n.first + j) * 2 ^ 21) + 0x128000 ∧
          y.sr = { ctx := x.srCtx, fmode := 1, hvec := 0, cause := 0, info := 0, epc := 0, cycle := 0, feat := c.feat, wto := 0 } ∧
          (∀ k : Fin 64, y.sem[k] = 0) ∧ (∀ k : Fin 32, y.scale[k] = 0x3F800000) ∧ (∀ k : Fin 16, (y.chan[k]).entries = []) ∧
          (∀ k : Fin 16, (y.stream[k]).st = .empty) ∧ (∀ k : Fin 16, (y.mxe.slots[k]).logic = .free) ∧ (∀ k : Fin 8, y.mxe.accs[k] = 0) ∧
          y.seq.started = false ∧ y.seq.block = none ∧ y.seq.halted = false ∧ y.sbuf = [] ∧
          (∀ o, y.slice.get o = if 0x1000 ≤ o then x.kernel.run.getD (o - 0x1000) 0 else 0)) ∧
    (x.st = .placed → c.active = true → (∀ n ∈ x.nodes, n.placed = true) →
      exec .instanceStart s = .next (s.modInst s.focus.inst fun x =>
        { x with st := .running, tiles := x.tiles.map fun t => { t with seq := { t.seq with started := true } } })) ∧
    (∀ t, x.tiles[s.focus.tile]? = some t → t.seq.halted = true → t.seq.finished = false → t.sr.cause.getLsbD 31 = false → t.seq.block = none →
      t.seq.pend.any = false → t.seq.invWait = false → t.sbuf = [] → t.place = .running → s.workRetired s.focus.inst s.focus.tile t = true →
      ∃ s' x' t', exec .tileFinish s = .next s' ∧ s'.insts[s.focus.inst]? = some x' ∧ x'.tiles[s.focus.tile]? = some t' ∧
        t' = { t with seq := { t.seq with finished := true } } ∧ (∀ k, k ≠ s.focus.tile → x'.tiles[k]? = x.tiles[k]?) ∧
        (x'.st = .draining ↔ x.st = .draining ∨ ∀ k y, k ≠ s.focus.tile → x.tiles[k]? = some y → y.seq.finished = true)) ∧
    (∀ y p, x.st = .draining → c.active = true → (∀ t ∈ x.tiles, t.seq.finished = true ∧ t.seq.block = none ∧ t.sbuf = []) → (∀ n ∈ x.nodes, n.finished = true) →
      c.queues[x.queue.toNat]? = some y → (y.started.find? fun p => p.ord == x.ord) = some p →
      ∃ s' x' c' y', exec .instanceRetire s = .next s' ∧ s'.insts[s.focus.inst]? = some x' ∧ x'.st = .retired ∧ x'.tiles = [] ∧ x'.nodes = [] ∧
        s'.ctx? x.tag = some c' ∧ c'.queues[x.queue.toNat]? = some y' ∧ y'.started = y.started.filter (fun p => p.ord != x.ord) ∧
        y'.completed = (y.completed + 1) % 2 ^ 24 ∧ y'.buf = y.buf ∧ y'.errors = y.errors ∧
        y'.marks = (if p.pkt.getLsbD 8 then y.marks ++ [(p.pkt.extractLsb' 16 16, if p.pkt.toNat % 256 = 5 then p.pkt.extractLsb' 64 64 else 1)]
          else y.marks) ∧
        ∀ i, i ≠ s.focus.inst → s'.insts[i]? = s.insts[i]?)

/-! ### The fabric -/

/-- R310: a fabric operator whose units allow a firing takes them, and the unit that it emits arrives at the tile that its edge leads to, against demand; one whose
units allow none changes nothing. R310-R312: STEER holds a unit until the next for its output or the end of the frame; MERGE forwards the unit that its control names; JOIN takes one of
every input; PACKZ removes zeros, which UNPACKZ puts back; SORTK and ROUTE rank; SEQGEN makes a token. R20, R295, R306-R309: a plot set whose image is verified goes on free plots of one die with a generator that runs no faster than it may, or, stopped and not saved, goes on in
place; at a frame boundary it moves and keeps what it holds, or loses it where an error of its configuration has stopped it; a strongly connected set finishes together, with a length mismatch where an operand is half matched; a draining instance gives
up its finished tiles for the next. That a unit for VC 16 to 31 of port 3 is never delivered is the model's reading (log 79), and so is which plots a set takes that
another context holds (log 29). -/
def Obligations.FabricNodes : Prop :=
  (∀ (i : Instr) (s : State) (x : Inst) (n : FabNode) (node lib : Nat) (fire : FabNode → Option Firing),
    s.insts[s.focus.inst]? = some x → firingOf s x.kernel i = some (node, lib, fire) → x.nodes[node]? = some n → n.set.library.toNat = lib →
    s.nodeRuns x n = true → n.outs = [] →
    (fire n = none → exec i s = .next s) ∧
    (∀ r, fire n = some r → r.mis = false →
      (let fired := s.modNode s.focus.inst node fun _ => { r.node with outs := [] }
       let flagged (s : State) := s.modTile s.focus.inst 0 fun t => { t with xflags := t.xflags ||| r.flags }
       (r.outs = [] → exec i s = .next (flagged fired)) ∧
       (∀ p fmt u e d pos y, r.outs = [(p, (fmt, u))] → x.kernel.fabEdge r.node.id p = some (e, d, pos) → d.fabric = false →
         x.tiles[d.first + pos]? = some y → y.seq.finished = false →
         (let plot := 4096 + r.node.plots.headD 0
          let port := e.dstPort.extractLsb' 5 2
          let vc := e.dstPort.extractLsb' 0 5
          let shut := s.routeDead x.tag plot (some y.phys) = true ∨ localVc port vc = false ∨ (y.vcAt port vc).granted = 0
          (shut → exec i s = .next s) ∧
          (¬shut → exec i s = .next (flagged ((fired.modTile s.focus.inst (d.first + pos) fun y =>
            y.modVc port vc fun v => { v with granted := v.granted - 1, arrived := v.arrived ++ [(fmt, u)] }).huskCross
              x.tag plot (some y.phys) u)))))) ) ∧
    (∃ t, exec i s = .next t)) ∧
  ((∀ (n : FabNode) (f g : BitVec 4) (d c : LinkUnit) (u : BitVec 4 × LinkUnit), n.par 0 1 = 0 → n.head? 0 = some (f, d) → n.head? 1 = some (g, c) →
    d.void = false → c.void = false → d.last = false → c.last = false →
    (let sel := if c.bits.getLsbD 0 then 0 else 1
     lookupKey sel n.heldUnits = some u →
     ∃ r, steerFire n = some r ∧ r.outs = [(sel, u)] ∧ r.mis = false ∧ lookupKey sel r.node.heldUnits = some (f, d))) ∧
  (∀ (n : FabNode) (f g : BitVec 4) (u c : LinkUnit), n.par 0 1 = 0 → n.took = [] → n.head? 0 = some (g, c) → c.void = false → c.last = false →
    n.head? (if c.bits.getLsbD 0 then 1 else 2) = some (f, u) → u.void = false →
    ∃ r, mergeFire n = some r ∧ r.outs = [(0, (f, { u with last := false }))] ∧ r.mis = false) ∧
  (∀ (tag : Byte) (n : FabNode), (∀ p ≤ n.par 0 4, ∃ f u, n.head? p = some (f, u) ∧ u.void = false) →
    ∃ r, joinFire tag n = some r ∧ r.outs = [(0, (0xE, ⟨1, tag, true, false⟩))]) ∧
  (∀ (fmt : BitVec 4) (tag : Byte) (missing : BitVec 144) (us : List (BitVec 144)),
    (let keep := us.map fun u => !unitZero fmt u
     zeroRemoval fmt tag us = frameUnits 0xE tag (maskWords (us.length + 1) keep) ++ frameUnits fmt tag (us.filter fun u => !unitZero fmt u) ∧
     unpackUnits missing keep (us.filter fun u => !unitZero fmt u) = us.map fun u => if unitZero fmt u then 0 else u)) ∧
  (∀ (fmt : BitVec 4) (us : List (BitVec 144)),
    (rankUnits fmt us).Perm us.zipIdx ∧
    (rankUnits fmt us).Pairwise fun a b => ranksBefore fmt b.1 a.1 = false ∧ (ranksBefore fmt a.1 b.1 = false → a.2 < b.2)) ∧
  (∀ (n : FabNode) (f : BitVec 4) (u : LinkUnit), n.head? 0 = some (f, u) → u.void = false →
    ∃ r v, seqgenFire n = some r ∧ r.outs = [(0, (10, v))] ∧ v.tag = u.tag ∧ v.last = u.last ∧
      v.bits = ((n.set.params.extractLsb' 0 64 |||
        BitVec.ofNat 64 (u.bits.toNat % 2 ^ 32 % 2 ^ (n.par 70 6 + 1) * 2 ^ n.par 64 6)).setWidth 144))) ∧
  (∀ (s : State) (x : Inst) (n : FabNode) (node : Nat) (c : Context), s.insts[s.focus.inst]? = some x → x.nodes[node]? = some n →
    s.ctx? x.tag = some c → s.dies ≤ 4 →
    (∀ d < s.dies, n.placed = false → n.finished = false → x.st ∉ [.submitted, .retired] → c.active = true → sha384 n.set.bits = n.set.image →
      n.set.plots ≤ ((s.freePlots x.tag).filter fun p => p / 128 == d).length →
      ∃ s' x' n' d' g, exec (.plotSetPlace node) s = .next s' ∧ s'.insts[s.focus.inst]? = some x' ∧ x'.nodes[node]? = some n' ∧
        n'.plots.length = n.set.plots ∧ (∀ p ∈ n'.plots, p / 128 = d' ∧ (s'.plotAt p).tag = x.tag ∧
          (p ∈ s.freePlots x.tag ∨ (s.plotAt p).tag = 0 ∧ (s.plotAt p).quarantined = false)) ∧ g / 8 = d' ∧ s'.genAt g ≤ n.set.fmax ∧
        n' = { n with placed := true, plots := n'.plots, gen := some g, pre := none, served := some 0 } ∧ x'.tiles = x.tiles ∧
        x'.st = (if x.st = .placing ∧ ∀ m ∈ x'.nodes, m.placed = true then .placed else x.st)) ∧
    (n.placed = true → n.finished = false → x.st ∉ [.submitted, .retired] → c.active = true → n.pre.isSome = true →
      s.setStopped s.focus.inst node x n = true → givesWay n.served (s.plotWaiter c.tag) = false →
      exec (.plotSetPlace node) s = .next (s.modNode s.focus.inst node fun n => { n with pre := none, served := some 0 })) ∧
    (∀ plot, n.placed = true → n.inFrame = false ∨ n.stopped = true → n.finished = false → sha384 n.set.bits = n.set.image → plot ∈ s.freePlots x.tag →
      n.set.plots ≤ ((s.freePlots x.tag).filter fun p => p / 128 == plot / 128).length →
      ∃ s' x' n' g, exec (.hotSwap node plot) s = .next s' ∧ s'.insts[s.focus.inst]? = some x' ∧ x'.nodes[node]? = some n' ∧
        (0 < n.set.plots → plot ∈ n'.plots) ∧ n'.plots.length = n.set.plots ∧ (∀ p ∈ n'.plots, p ∈ s.freePlots x.tag ∧ p / 128 = plot / 128) ∧
        n' = { (if n.stopped then n.lose else n) with plots := n'.plots, gen := some g } ∧ s'.genAt g ≤ n.set.fmax ∧ x'.tiles = x.tiles) ∧
    (let set := x.fabSet n.id
     n.finished = false → x.st = .draining → c.active = true →
     (∀ e ∈ x.kernel.edges, e.dst ∈ set → e.src ∉ set → x.producerDone e = true ∧ ∀ m ∈ x.nodes, m.id = e.src → s.outsLeave s.focus.inst x m = false) →
     (∀ m ∈ x.nodes, m.id ∈ set → s.outsLeave s.focus.inst x m = false ∧ m.fires x.kernel = false) →
     (∀ t, x.tiles[0]? = some t → t.sr.fmode.getLsbD 16 = false) →
     ∃ s' x', exec (.fabricNodeFinish node) s = .next s' ∧ s'.insts[s.focus.inst]? = some x' ∧
       (x'.nodes = x.nodes.map fun m => if m.id ∈ set then m.finish else m) ∧
       x'.tiles[0]? = (x.tiles[0]?).map fun t =>
         if x.nodes.any fun m => set.contains m.id && m.halfMatched then { t with lenmis := true } else t) ∧
    (∀ y ∈ s.insts, x.st = .draining → c.active = true → y.tag = x.tag → y.queue = x.queue → y.st ∈ [.submitted, .placing, .placed] →
      exec .wavefrontReconfigure s = .next (s.modInst s.focus.inst fun x => { x with
        tiles := x.tiles.modify s.focus.tile fun t => if t.seq.finished && t.sentAll then { t with phys := noPhys } else t
        nodes := x.nodes.map fun n => if n.finished && n.outs.isEmpty then { n with plots := [], gen := none } else n })))

/-! ### Ports, sessions and messages -/

/-- R361, R362, R376, R377: the states of a port: a partner, an attestation, the advertisement of credits, a request to drain and its end, a re-enabling; the messages of
which a port that leaves Up holds something that was not acknowledged are to be sent before their session's later ones; an update of the link keys counts for the pair of
packages; the index that a switch assigns. R361, R363, R364, R367, R369: the next group that passes its checks is taken and acknowledged, and a message that it ends waits to be
taken; one with a bad tag isolates its port, one with a bad CRC changes nothing; a retry that fails sends every group again, and the 16th takes the port Down; a port sends an ABORT,
the next flit of a message, or an idle flit, and a group of 64 goes on the wire. That a group of a later sequence is ignored and one already taken acknowledged once more is the
model's reading (log 61), and so are the whole messages that are sent again, the 16 retries in a row, and the class and the port of ABORT (log 81). -/
def Obligations.LinkTransport : Prop :=
  (∀ (s : State) (port : Nat) (p : Port), s.ports[port]? = some p →
    (let leaves (i : Instr) (st : PortState) : Prop := ∃ s' p', exec i s = .next s' ∧ s'.ports[port]? = some p' ∧ p'.st = st ∧ p'.unacked = [] ∧
       p'.group = [] ∧ p'.control = [] ∧ p'.inbox = [] ∧ s'.insts = s.insts ∧ s'.hbm = s.hbm ∧
       ((s.ctxs.map (·.tag)).Nodup → ∀ tag j y, s.session? tag j = some y → y.opened = true →
         (∀ f ∈ p.pending, f.2.owner = some (tag, j) → f.1 = y.peer) →
         ∃ y', s'.session? tag j = some y' ∧ y'.outq = (s.heldMsgs port p tag j).filter (fun m => m != .abort) ++ y.outq)
     let acked (p : Port) (d : Digest) : List Digest := if p.acks.contains d then p.acks else p.acks ++ [d]
     (∀ sw, p.st = .down → s.boot = .ready → s.locked = false → port < 6 * s.dies →
       exec (.partnerDetect port sw) s = .next (s.modPort port fun p =>
         { Port.down with st := .training, switch := sw, retries := p.retries, sent := p.sent, wire := p.wire })) ∧
     (∀ d, p.st = .training ∨ p.switch = true ∧ (p.st = .attested ∨ p.st = .up) → s.locked = false →
       exec (.portAttest port (some d)) s = .next (s.modPort port fun p =>
         { p with st := if p.st = .training then .attested else p.st, peers := if p.peers.contains d then p.peers else p.peers ++ [d] }) ∧
       leaves (.portAttest port none) .isolated) ∧
     (p.st = .attested → ∃ s', exec (.creditAdvertisement port) s = .next s' ∧
       s'.ports[port]? = some { p with st := .up, retries := 0, failed := 0, retrying := false, credits := [] } ∧ s'.insts = s.insts ∧ s'.hbm = s.hbm) ∧
     (p.st = .up → exec (.portDrainRequest port) s = .next (s.modPort port fun p => { p with st := .draining })) ∧
     (p.st = .draining → p.group = [] → p.unacked = [] → leaves (.portDrainEnd port) .down) ∧
     (p.st = .isolated → s.locked = false →
       exec (.portReenable port) s = .next (s.modPort port fun p =>
         { Port.down with st := .down, switch := p.switch, retries := p.retries, sent := p.sent, wire := p.wire })) ∧
     (p.peers ≠ [] → p.st ∈ [.attested, .up, .draining] →
       ∃ s', exec (.linkKeyUpdate port) s = .next s' ∧ s'.insts = s.insts ∧ s'.ctxs = s.ctxs ∧
         (∀ d, s'.linkGen d = s.linkGen d + p.peers.count d) ∧
         ∀ (k : Nat) (q : Port), s.ports[k]? = some q → ∃ q', s'.ports[k]? = some q' ∧ q' = { q with keyed := q'.keyed } ∧
           ∀ d, lookupKey d q'.keyed = if d ∈ p.peers ∧ d ∈ q.peers then some (q.seqTo d) else lookupKey d q.keyed) ∧
     (∀ d idx, p.switch = true → p.st ≠ .down → p.st ≠ .isolated →
       ∃ s', exec (.switchIndexAssign port d idx) s = .next s' ∧ s'.ports[port]? = some { p with indices := putKey d idx p.indices } ∧
         s'.insts = s.insts) ∧
     (∀ g, p.st ∈ [.attested, .up, .draining] → g.data.length = 64 →
       (groupCrcOk g = false → exec (.linkGroupReceive port g) s = .next s) ∧
       (groupCrcOk g = true →
         match p.peers.findSome? fun d => (s.openGroup port d g).map fun bs => (d, bs) with
         | none => leaves (.linkGroupReceive port g) .isolated
         | some (d, bs) =>
           let n := g.ctl.extractLsb' 512 64
           (n = p.seqFrom d → ∃ s' p', exec (.linkGroupReceive port g) s = .next s' ∧ s'.ports[port]? = some p' ∧ p'.seqFrom d = n + 1 ∧
             (∀ e, e ≠ d → p'.seqFrom e = p.seqFrom e) ∧ p'.acks = acked p d ∧ p'.st = p.st ∧ p'.sendSeq = p.sendSeq ∧ p'.group = p.group ∧
             (∀ q ∈ p'.unacked, q ∈ p.unacked) ∧ s'.ctxs = s.ctxs ∧ s'.insts = s.insts ∧
             ∀ k : Byte, k ∉ [0, 0xFE, 0xFF] → p.st ≠ .attested → (∀ j < 64, g.ctl.extractLsb' (8 * j) 8 ∈ [k, 0xFF]) →
               (let l0 := (lookupKey (d, k) p.inbox).getD []
                let l := l0 ++ ((List.range 64).filter fun j => g.ctl.extractLsb' (8 * j) 8 == k).map fun j =>
                  BitVec.ofNat 1024 (ofBytes ((bs.drop (128 * j)).take 128))
                (l.length < flitLen (l.headD 0) → (lookupKey (d, k) p'.inbox).getD [] = l ∧ s'.arrivals = s.arrivals) ∧
                (∀ i t, l0.length < l.length → l.length = flitLen (l.headD 0) → i = flitSession (l.headD 0) → flitKind (l.headD 0) ≠ 10 →
                  lookupKey (port, d, k, i) s.classOf = some t →
                  lookupKey (d, k) p'.inbox = none ∧ s'.arrivals = s.arrivals ++ [⟨t, i, d, some port, k, l⟩]))) ∧
           (n.toNat < (p.seqFrom d).toNat → exec (.linkGroupReceive port g) s = .next (s.modPort port fun p => { p with acks := acked p d })) ∧
           ((p.seqFrom d).toNat < n.toNat → exec (.linkGroupReceive port g) s = .next s))) ∧
     (p.st ∈ [.up, .draining] → p.unacked ≠ [] →
       (let again (failed : Nat) : Prop := exec (.linkRetryLimit port) s = .next (s.modPort port fun p =>
          { p with retries := p.retries + p.retry.length, retrying := true, failed := failed, wire := p.wire ++ p.retry.map (s.groupOut port p) })
        (p.retrying = false → again p.failed) ∧ (p.retrying = true → p.failed < 15 → again (p.failed + 1)) ∧
        (p.retrying = true → 15 ≤ p.failed → leaves (.linkRetryLimit port) .down))))) ∧
  (∀ (s : State) (port : Nat) (p : Port), s.ports[port]? = some p → p.st = .up →
    (let puts (d : Digest) (f : Flit) (more : State → Port → Prop) : Prop := ∃ s' p', exec (.linkFlitSend port) s = .next s' ∧
       s'.ports[port]? = some p' ∧ p'.dest = d ∧ p'.group = p.group ++ [f] ∧ p'.unacked = p.unacked ∧ s'.insts = s.insts ∧ s'.hbm = s.hbm ∧
       (∀ tag i c, f.owner = some (tag, i) → s.ctx? tag = some c →
         ∃ c', s'.ctx? tag = some c' ∧ c'.counters[4] = c.counters[4] + 128) ∧ more s' p'
     let rest (d : Digest) (tag : Byte) (i : BitVec 5) (m : MsgBody) : List (Digest × Flit) :=
       ((m.flits i).tail).map fun b => (d, ⟨0xFE, some (tag, i), b⟩)
     (p.control = [] → p.group.length < 63 →
       (∀ tag i d q, s.nextAbort port p = some (tag, i, d, q) →
         puts d ⟨0xFE, some (tag, i), (MsgBody.abort.flits i).headD 0⟩ fun s' p' =>
           s'.aborts = s.aborts.erase (tag, i, d, q) ∧ p'.sent = p.sent ++ [(tag, i, .abort)] ∧ p'.control = rest d tag i .abort) ∧
       (s.nextAbort port p = none →
         (∀ m, s.sendables port = [m] → m.cls ∉ [0xFE, 0xFF] → p.hasCredit m.cls = true → p.takesFor m.peer = true →
           puts m.peer ⟨m.cls, some (m.tag, m.i), m.flits.headD 0⟩ fun s' p' => p'.lastClass = m.cls ∧ p'.inUse m.cls = p.inUse m.cls + 1 ∧
             ∀ x, s.session? m.tag m.i = some x → s'.session? m.tag m.i = some { x with
               part := m.flits.tail, outq := match m.begins with | some (_, rest) => rest | none => x.outq }) ∧
         (∀ m b l, s.sendables port = [m] → m.cls = 0xFE → m.begins = some (b, l) → p.takesFor m.peer = true →
           puts m.peer ⟨0xFE, some (m.tag, m.i), (b.flits m.i).headD 0⟩ fun s' p' => p'.control = rest m.peer m.tag m.i b ∧ p'.credits = p.credits ∧
             ∀ x, s.session? m.tag m.i = some x → s'.session? m.tag m.i = some { x with part := [], outq := l }) ∧
         (∀ d, s.sendables port = [] → p.idleFor = some d → puts d ⟨0xFF, none, 0⟩ fun s' p' => s'.ctxs = s.ctxs ∧ p'.credits = p.credits))) ∧
     (∀ d, p.control = [] → s.nextAbort port p = none → s.sendables port = [] → p.group.length = 63 → p.idleFor = some d →
       (let g : OutGroup := ⟨d, p.seqTo d, (p.nextReturns d).1, p.group ++ [⟨0xFF, none, 0⟩]⟩
        ∃ s' p', exec (.linkFlitSend port) s = .next s' ∧ s'.ports[port]? = some p' ∧ p'.group = [] ∧ p'.unacked = p.unacked ++ [g] ∧
          p'.seqTo d = p.seqTo d + 1 ∧ p'.wire = p.wire ++ [s.groupOut port p g] ∧ s'.insts = s.insts ∧ s'.ctxs = s.ctxs))))

/-- R276, R366: CTXQ item 2 sends a word whose bits 2p and 2p + 1 say whether port p is Up and reaches the peer of an open session of the context that may send, or
receive. -/
def Obligations.LinkPermitBits : Prop :=
  (∀ (s : State) (x : Inst) (t : Tile) (b : Block) (h : Head) (a d : W64) (c : Context), MayFire (.ctxq h .permits) s x t b h a d → b.targetsOpen h →
    s.ctx? x.tag = some c →
    exec (.ctxq h .permits) s = .next (s.setBlock ((b.marked s.focus.slot).withTokens h (.value (s.linkPermits c))))) ∧
  (∀ (s : State) (c : Context) (p : Fin 24),
    ((s.linkPermits c).getLsbD (2 * p.val) = true ↔ (s.ports[p]).st = .up ∧
      ∃ k : Fin 32, (c.sessions[k]).opened = true ∧ (c.sessions[k]).send = true ∧ (s.ports[p]).reaches (c.sessions[k]).peer = true) ∧
    ((s.linkPermits c).getLsbD (2 * p.val + 1) = true ↔ (s.ports[p]).st = .up ∧
      ∃ k : Fin 32, (c.sessions[k]).opened = true ∧ (c.sessions[k]).receive = true ∧ (s.ports[p]).reaches (c.sessions[k]).peer = true))

/-- R365, R374: a session opens in the directions that both policies permit, over an Up port that reaches the peer and has a class for the context where it may send, and of
the contexts that qualify with the one Sealed longest; an abort closes it, discards what was in flight, of what ports have in hand too, and its tiles' stores to the peer, and
sends ABORT where this side aborts. That what is in hand of an earlier session goes out first, and that a message begun goes out whole where the peer aborts, is the model's reading
(logs 60, 62 and 81). -/
def Obligations.LinkSessions : Prop :=
  ∀ (s : State) (tag : Byte) (i : BitVec 5) (c : Context) (x : Session), s.ctx? tag = some c → c.sessions[i.toNat]? = some x →
    (∀ (peer : PeerOffer) d send recv k p, (c.policy.bind fun y => y.peers[i.toNat]?) = some (some (d, send, recv)) →
      (if (send && peer.receive) = true then s.classOn tag peer.port = some k else k = 0) → s.ports[peer.port]? = some p → s.locked = false →
      x.opened = false → x.part = [] → (∀ a ∈ s.aborts, ¬(a.1 = tag ∧ a.2.1 = i)) →
      (∀ q ∈ s.ports.toList, ∀ f ∈ q.pending, f.2.owner ≠ some (tag, i)) → c.st ∈ [.sealed, .running, .paused] → d = peer.package → peer.namesUs = true →
      peer.active = true → peer.busy = false → p.reaches d = true → ((send && peer.receive) || (recv && peer.send)) = true →
      ((∀ b ∈ s.ctxs, b.qualifies i peer = true → c.sealedAt ≤ b.sealedAt) →
        ∃ s', exec (.sessionOpen tag i peer) s = .next s' ∧ s'.session? tag i = some { Session.closed with
          opened := true, send := send && peer.receive, receive := recv && peer.send, peer := d, port := peer.port, cls := k } ∧ s'.insts = s.insts) ∧
      ((∃ b ∈ s.ctxs, b.qualifies i peer = true ∧ b.sealedAt < c.sealedAt) → exec (.sessionOpen tag i peer) s = .next s)) ∧
    (x.opened = true →
      ∀ e sends, (e = .sessionAbort tag i ∧ sends = true) ∨ (e = .linkAbort tag i ∧ sends = false ∧ (s.arrived tag i 10 0).isSome = true) ∨
        (e = .sessionPortTimeout tag i ∧ sends = true ∧ ∀ p ∈ s.ports.toList, p.reaches x.peer = false) →
      ∃ s' x', exec e s = .next s' ∧ s'.session? tag i = some x' ∧ x'.opened = false ∧ x'.outq = [] ∧ x'.asked = [] ∧
        s'.aborts = s.aborts ++ (if sends then [(tag, i, x.peer, x.port)] else []) ∧ x'.stores = [] ∧ x'.demand = [] ∧ x'.told = [] ∧
        x'.part = (if sends then [] else x.part) ∧ (∀ a ∈ s'.arrivals, ¬(a.tag = tag ∧ a.session = i)) ∧
        (sends = true → ∀ p ∈ s'.ports.toList, ∀ f ∈ p.group ++ p.unacked.flatMap (·.flits), f.owner = some (tag, i) → f.cls = 0xFE) ∧
        ∀ (j k : Nat) (y : Inst) (t : Tile), s.insts[j]? = some y → y.tag = tag → y.st ≠ .retired → y.tiles[k]? = some t →
          ∃ t', s'.tile? j k = some t' ∧ t'.g = t.g ∧ t'.sem = t.sem ∧ t'.slice = t.slice ∧ ∀ q ∈ t'.sbuf, ∀ v, q.loc ≠ .remote i v)

/-- R52, R353, R367, R369-R374: what each message of a session does here once it is the first of its session that has come: of a session that is not open it is discarded; units enter
the inbound VC that they name, demand is kept, a read, a write or an atomic is performed at its home and answered, or refused with its fault code, an answer reaches the oldest
access outstanding, a completion ends the oldest store, a fault reply to it makes its code pending on its tile, the answer to a walk is an entry of its table; and its credits are to be returned. What a
header does not say, the argument of the event says (log 35, log 80); the order of what has come and the return of credits are logs 62 and 81. -/
def Obligations.LinkMessages : Prop :=
  ∀ (s : State) (tag : Byte) (i : BitVec 5) (c : Context) (x : Session), s.ctx? tag = some c → c.sessions[i.toNat]? = some x →
    (∀ e kind va, linkMessage e = some (tag, i, kind, va) → (s.arrived tag i kind va = none → exec e s = .next s) ∧
      ∀ a, s.arrived tag i kind va = some a → x.opened = false → exec e s = .next (s.msgLeaves a)) ∧
    (∀ a, (s.msgLeaves a).arrivals = s.arrivals.erase a ∧ ∀ n p, a.port = some n → a.cls ≠ 0xFE → s.ports[n]? = some p →
      (s.msgLeaves a).ports[n]? = some { p with returns := p.returns ++ [(a.peer, a.cls, a.flits.length)] }) ∧
    (∀ a, x.opened = true → s.canonical = true → s.insts.length ≤ noInst →
      (let here (kind : Nat) (va : W64) : Prop := s.arrived tag i kind va = some a
       let s1 := s.msgLeaves a
       let performs (e : Instr) (f : Session → Session) : Prop :=
         ∃ s' c', exec e s = .next s' ∧ s'.insts = s.insts ∧ s'.hbm = s.hbm ∧ s'.host = s.host ∧ s'.ports = s1.ports ∧
           s'.session? tag i = some (f x) ∧ s'.ctx? tag = some c' ∧ c'.counters[5] = c.counters[5] + BitVec.ofNat 64 (128 * a.flits.length)
       let at? (k : AccKind) (n : Nat) (va : W64) (l : Loc) : Prop := va.toNat < 2 ^ 44 ∧ s1.checkTag noInst tag (.plain k n) va = .loc l ∧
         l.isRemote = false ∧ s1.reservedElsewhere noInst 0 l n = false ∧ s1.badLoc noInst l n = false
       let changes (e : Instr) (m : MsgBody) (l : Loc) (n v : Nat) : Prop :=
         ∃ s' x', exec e s = .next s' ∧ s'.insts = s.insts ∧ s'.ports = s1.ports ∧ s'.session? tag i = some x' ∧ x'.outq = x.outq ++ [m] ∧
           s'.numberAt noInst l n = v ∧ ∀ k : Loc, (∀ j < n, k ≠ l.plus j) → s'.byteAt noInst k = s.byteAt noInst k
       (∀ vc tile fmt u j y, here 1 0 → x.receive = true → c.active = true → 16 ≤ vc.toNat → s.unitTarget tag tile.toNat vc = some j →
         s.tile? j tile.toNat = some y → y.seq.finished = false → (y.vcAt 3 vc).granted ≠ 0 →
         ∃ s', exec (.linkStreamUnits tag i vc tile fmt [u]) s = .next s' ∧ s'.tile? j tile.toNat =
           some (y.modVc 3 vc fun v => { v with granted := v.granted - 1, arrived := v.arrived ++ [(fmt, u)] }) ∧ s'.hbm = s.hbm ∧
           s'.ports = s1.ports ∧ s'.session? tag i = some { x with told := putKey (tile, vc) ((lookupKey (tile, vc) x.told).getD 0 - 1) x.told }) ∧
       (∀ vc tile n, here 2 0 → x.send = true → performs (.linkDemandGrant tag i vc tile n) fun x =>
         { x with demand := putKey (tile, vc) ((lookupKey (tile, vc) x.demand).getD 0 + n) x.demand }) ∧
       (∀ va (sz : Size) l, here 3 va → x.receive = true → x.send = true → at? .read sz.bytes va l →
         ∃ s' x', exec (.linkReadRequest tag i va sz) s = .next s' ∧ s'.insts = s.insts ∧ s'.hbm = s.hbm ∧ s'.host = s.host ∧
           s'.session? tag i = some x' ∧ x'.outq = x.outq ++ [.readResponse (BitVec.ofNat 64 (s1.numberAt noInst l sz.bytes))]) ∧
       (∀ va (sz : Size) l (data : W64), here 5 va → x.receive = true → at? .write sz.bytes va l →
         changes (.linkWrite tag i va sz data) .completion l sz.bytes (data.toNat % 2 ^ (8 * sz.bytes))) ∧
       (∀ va op wide b d l, here 6 va → x.receive = true → x.send = true → at? .atomic (if wide then 8 else 4) va l →
         ((∃ p, l = .hbm p) ∨ hostAtomic op = true) →
         (let n := if wide then 8 else 4
          let old := s1.numberAt noInst l n
          changes (.linkAtomic tag i va op wide b d) (.atomicResult (BitVec.ofNat 64 old)) l n
            ((atomicResult op n old (b.toNat % 2 ^ (8 * n)) (d.toNat % 2 ^ (8 * n))).getD old))) ∧
       (∀ e kind va k n code p, x.receive = true → x.send = true →
         (∃ sz, e = .linkReadRequest tag i va sz ∧ kind = 3 ∧ k = .read ∧ n = sz.bytes) ∨
         (∃ sz v, e = .linkWrite tag i va sz v ∧ kind = 5 ∧ k = .write ∧ n = sz.bytes) ∨
         (∃ op wide b d, e = .linkAtomic tag i va op wide b d ∧ kind = 6 ∧ k = .atomic ∧ n = if wide then 8 else 4) →
         here kind va → va.toNat < 2 ^ 44 → s1.checkTag noInst tag (.plain k n) va = .fault code p →
         performs e (fun x => { x with outq := x.outq ++ [.fault code] }) ∧
         ∃ s' c', exec e s = .next s' ∧ s'.ctx? tag = some c' ∧ c'.counters[6] = c.counters[6] + 1) ∧
       (∀ lvl ea v rest, x.asked = some (walkAsk lvl ea v) :: rest → lvl < 4 →
         (∀ d, here 4 0 → ∃ s' c', exec (.linkReadResponse tag i d) s = .next s' ∧ s'.ctx? tag = some c' ∧ s'.session? tag i = some { x with asked := rest } ∧
           s'.insts = s.insts ∧ (entryKeeps d lvl = true → lookupKey ea c'.tables = some d) ∧
           (entryKeeps d lvl = false → c'.tables = c.tables ∧ lookupKey ea c'.seen = some (.entry d, s.now))) ∧
         ∀ code, here 9 0 → ∃ s' c', exec (.linkFaultReply tag i false code) s = .next s' ∧ s'.ctx? tag = some c' ∧
           s'.session? tag i = some { x with asked := rest } ∧ c'.tables = c.tables ∧ lookupKey ea c'.seen = some (.refused code, s.now)) ∧
       (∀ q rest v, x.asked = some q :: rest → q.isWalk = false →
         (here 4 0 → performs (.linkReadResponse tag i v) fun x => { x with asked := rest, got := x.got ++ [(q, .data v)] }) ∧
         (here 7 0 → performs (.linkAtomicResult tag i v) fun x => { x with asked := rest, got := x.got ++ [(q, .data v)] }) ∧
         ∀ code, here 9 0 → performs (.linkFaultReply tag i false code) fun x => { x with asked := rest, got := x.got ++ [(q, .failed code)] }) ∧
       (∀ q rest t p l, x.stores = q :: rest → q.who = whoStore → s.tile? q.inst q.tile = some t → t.sbuf = p :: l →
         (∀ r ∈ l, r.loc.isRemote = false) →
         (here 8 0 → ∃ s', exec (.linkWriteCompletion tag i) s = .next s' ∧ s'.tile? q.inst q.tile = some { t with sbuf := l } ∧
           s'.session? tag i = some { x with stores := rest }) ∧
         (∀ code, here 9 0 → t.seq.finished = false → t.seq.pend.eng0.length < 16 →
           ∃ s' t' f, exec (.linkFaultReply tag i true code) s = .next s' ∧ s'.tile? q.inst q.tile = some t' ∧ t'.sbuf = l ∧ f ∈ t'.seq.pend.eng0 ∧
             f.code = code ∧ f.engine = 0 ∧ t'.g = t.g ∧ s'.session? tag i = some { x with stores := rest }))))

/-! ### Contexts -/

/-- R251, R255, R256, R259-R262: CREATE_CONTEXT makes a Building context with the lowest free tag and a handle that was never issued; LOAD_POLICY binds
a policy that its tenant signed; GRANT puts free tiles, plots and frames under the tag; SEAL installs the keys; ATTEST answers with the
measurement. Which handle is drawn is log 11; how many frames the save areas take is log 57; signatures and digests are free (log 9). -/
def Obligations.ContextsCreated : Prop :=
  (∀ (s : State) (cmd : Rec64) (tag : Byte), MayPerform s cmd 0x01 →
    (∀ c ∈ s.popCommand.ctxs, c.vf.toNat ≠ arg cmd 128 8) → 1 ≤ tag.toNat → tag.toNat ≤ 254 → s.popCommand.ctx? tag = none →
    (∀ k : Byte, 1 ≤ k.toNat → k.toNat < tag.toNat → s.popCommand.ctx? k ≠ none) →
    match s.popCommand.freshHandle with
    | none => ∃ s', exec (.createContext cmd) s = .next s' ∧ s'.complRing = (s.withCompletion cmd 0 0x04).complRing ∧ s'.insts = s.insts ∧
        s'.ctxs.map (·.tag) = s.ctxs.map (·.tag)
    | some (h, _) =>
    h ≠ 0 ∧ h ∉ s.handles ∧
    ∃ s' c', exec (.createContext cmd) s = .next s' ∧ s'.ctxs = s.popCommand.ctxs ++ [c'] ∧ c'.tag = tag ∧ c'.vf.toNat = arg cmd 128 8 ∧ c'.handle = h ∧
      c'.st = .building ∧ c'.policy = none ∧ c'.grant = none ∧ c'.epoch = 0 ∧ c'.frames = [] ∧ c'.keys.hbm.isSome ∧ c'.keys.save.isSome ∧
      c'.keys.husk = none ∧ h ∈ s'.handles ∧ s'.complRing = (s.withCompletion cmd h 0x00).complRing ∧ s'.insts = s.insts ∧ s'.hbm = s.hbm ∧
      s'.phys = s.phys) ∧
  (∀ (s : State) (cmd : Rec64) (c : Context), MayPerform s cmd 0x02 → Names s cmd 0x02 c → c.st = .building → c.policy = none →
    (let bs := s.host.read (arg cmd 128 64) (arg cmd 192 16)
     let refused (status : Nat) : Prop := ∃ s' c', exec (.loadPolicy cmd) s = .next s' ∧ s'.ctx? c.tag = some c' ∧ c'.policy = none ∧ c'.st = .building ∧
       s'.complRing = (s.withCompletion cmd 0 (BitVec.ofNat 8 status)).complRing
     96 ≤ arg cmd 192 16 → s.iommu = [] →
     if policySigned bs = true then
       match s.readPolicy bs with
       | some y => y.digest = sha384 (bs.take (bs.length - 96)) ∧
           exec (.loadPolicy cmd) s = .next ((s.popCommand.modCtx c.tag fun c =>
             { c with policy := some y, feat := y.features.setWidth 64 }).withCompletion cmd 0 0x00)
       | none => refused 0x06
     else refused 0x05)) ∧
  (∀ (s : State) (cmd : Rec64) (c : Context) (y : Policy) (r : Resources), MayPerform s cmd 0x03 → Names s cmd 0x03 c → c.st = .building →
    c.policy = some y → c.tag ≠ 0 → s.canonical = true →
    (let g : Grant := ⟨arg cmd 128 16, arg cmd 144 16, arg cmd 160 32⟩
     1 ≤ g.tiles → g.tiles ≤ y.tiles → g.plots ≤ y.plots → g.hbm ≤ y.hbm → (s.freeResources c.tag).findResources g = some r →
     r.tiles.length = g.tiles ∧ r.plots.length = g.plots ∧ r.frames.length = g.hbm ∧
     r.save.length = (1600 * 1024 * g.tiles + 68 * 1024 * g.plots + (2 ^ 21 - 1)) / 2 ^ 21 ∧ r.tiles.Nodup ∧ r.plots.Nodup ∧
     (r.frames ++ r.save).Nodup ∧
     ((∀ p ∈ r.tiles, ((s.freeResources c.tag).physAt p).tag = 0) ∨ ∀ p < s.tileCount, ((s.freeResources c.tag).physAt p).tag = 0 →
       ((s.freeResources c.tag).physAt p).mappedOut = false → p ∈ r.tiles) ∧
     ∃ s' c', exec (.grant cmd) s = .next s' ∧ s'.ctx? c.tag = some c' ∧ c' = { c with grant := some g, frames := r.frames, saveFrames := r.save } ∧
       (∀ p ∈ r.tiles, (s'.physAt p).tag = c.tag ∧ (s'.physAt p).banks = Vector.replicate 16 c.tag ∧ (s'.physAt p).preload = none) ∧
       (∀ p ∈ r.plots, (s'.plotAt p).tag = c.tag) ∧ (∀ f ∈ r.frames ++ r.save, (f, c.tag) ∈ s'.frames) ∧
       s'.complRing = (s.withCompletion cmd 0 0x00).complRing ∧ s'.insts = s.insts ∧ s'.host = s.host ∧
       ∀ a, a / 2 ^ 21 ∉ r.frames → (a / 2 ^ 21, c.tag) ∉ s.frames → s'.hbm.get a = s.hbm.get a)) ∧
  (∀ (s : State) (tag : Byte) (c : Context) (m : SealMsg) (y : Policy) (g : Grant), s.ctx? tag = some c → c.policy = some y → c.grant = some g →
    (c.st = .building → c.audit.held = [] →
      if m.expected = s.measure y g ∧ Config.signerOf (Config.sealDigest m) m.signature = some y.tenant then
        ∃ s' c', exec (.seal tag m) s = .next s' ∧ s'.ctx? tag = some c' ∧ c'.st = .sealed ∧ c'.share = y.share ∧ c'.slice = 10 ∧
          c'.audit.va = some m.auditVa ∧ c'.keys.husk.isSome ∧ c'.keys.hbm = c.keys.hbm ∧ c'.keys.save = c.keys.save ∧
          c'.sealedAt = s.now ∧ (∀ k : Fin 16, c'.keys.queues[k.val]? = some (m.queueKeys.getD k.val 0) ∧ (c'.queues[k]).ring = (c.queues[k]).ring ∧
            (c'.queues[k]).head = 0 ∧ (c'.queues[k]).tail = 0 ∧ (c'.queues[k]).counter = 0 ∧
            (c'.queues[k]).enabled = (m.queueKeys.getD k.val 0 != 0)) ∧
          (∀ k : Fin 4, (c'.bounce[k]).key = some (m.bounceKeys.getD k.val 0)) ∧
          s'.replies = s.replies ++ [(tag, .seal 0x00)] ∧ s'.insts = s.insts ∧ s'.hbm = s.hbm
      else exec (.seal tag m) s = .next { s with replies := s.replies ++ [(tag, .seal 0x05)] }) ∧
    (c.st ≠ .building → exec (.seal tag m) s = .next { s with replies := s.replies ++ [(tag, .seal 0x02)] }) ∧
    (∀ nonce, exec (.attest tag nonce) s = .next { s with
      replies := s.replies ++ [(tag, .attest (s.measure y g) c.st nonce (Config.attestSign (s.measure y g) c.st.num nonce))] }))

/-- R256, R258, R271, R274, R281: SCHEDULE sets the share and the slice, MASK_FEATURE the mask and sr.feat, SUBMIT the tail of a queue, and
READ_COUNTER gives a counter that the allow-list lets it give. That SCHEDULE waits where the model's State.rival finds a waiting context is log 29. -/
def Obligations.ContextsConfigured : Prop :=
  ∀ (s : State) (cmd : Rec64) (c : Context) (y : Policy), c.policy = some y →
    (MayPerform s cmd 0x04 → Names s cmd 0x04 c → c.st ∈ validStates 0x04 → arg cmd 128 10 ≤ y.share →
      ∃ s' c', exec (.schedule cmd) s = .next s' ∧ s'.ctx? c.tag = some c' ∧ s'.complRing = (s.withCompletion cmd 0 0x00).complRing ∧ s'.insts = s.insts ∧
        (s.popCommand.rival c.tag = none → c' = { c with share := arg cmd 128 10, slice := arg cmd 144 16, schedNext := none }) ∧
        (s.popCommand.rival c.tag ≠ none → s.runningTiles c.tag ≠ [] → c' = { c with schedNext := some (arg cmd 128 10, arg cmd 144 16) })) ∧
    (∀ mask : W64, MayPerform s cmd 0x0C → Names s cmd 0x0C c → c.st ∈ validStates 0x0C → mask = BitVec.ofNat 64 (arg cmd 128 64) →
      mask &&& ~~~(y.features.setWidth 64) = 0 →
      ∃ s' c', exec (.maskFeature cmd) s = .next s' ∧ s'.ctx? c.tag = some c' ∧ c' = { c with feat := mask } ∧
        s'.complRing = (s.withCompletion cmd 0 0x00).complRing ∧
        (∀ (i k : Nat) (x : Inst) (t : Tile), s.insts[i]? = some x → x.tag = c.tag → x.tiles[k]? = some t →
          s'.tile? i k = some { t with sr := { t.sr with feat := mask } }) ∧
        ∀ (i : Nat) (x : Inst), s.insts[i]? = some x → x.tag ≠ c.tag → s'.insts[i]? = some x) ∧
    (∀ (q : Fin 16) (tail : BitVec 16), MayPerform s cmd 0x0D → Names s cmd 0x0D c → c.st ∈ validStates 0x0D → arg cmd 128 4 = q.val →
      tail = BitVec.ofNat 16 (arg cmd 144 16) → (c.queues[q]).enabled = true →
      (let d := (tail - (c.queues[q]).head).toNat
       (d ≤ 64 → (tail - (c.queues[q]).tail).toNat ≤ d →
         ∃ s' c', exec (.submit cmd) s = .next s' ∧ s'.ctx? c.tag = some c' ∧ s'.complRing = (s.withCompletion cmd 0 0x00).complRing ∧ s'.insts = s.insts ∧
           ∀ k : Fin 16, c'.queues[k] = if k = q then { c.queues[k] with tail := tail } else c.queues[k]) ∧
       (64 < d ∨ d < (tail - (c.queues[q]).tail).toNat →
         ∃ s' c', exec (.submit cmd) s = .next s' ∧ s'.ctx? c.tag = some c' ∧ s'.complRing = (s.withCompletion cmd 0 0x06).complRing ∧
           c'.queues = c.queues))) ∧
    (∀ k : Fin 9, MayPerform s cmd 0x0B → Names s cmd 0x0B c → arg cmd 128 8 = 16 + k.val →
      (y.allow.getLsbD k.val = true → exec (.readCounter cmd) s = .next (s.popCommand.withCompletion cmd c.counters[k] 0x00)) ∧
      (y.allow.getLsbD k.val = false → c.audit.va = none →
        ∃ s' c', exec (.readCounter cmd) s = .next s' ∧ s'.ctx? c.tag = some c' ∧ s'.complRing = (s.withCompletion cmd 0 0x01).complRing ∧
          c'.counters = c.counters ∧ c'.audit.seq = c.audit.seq + 1 ∧
          lookupKey (BitVec.ofNat 8 (16 + k.val)) c'.denied = some ((lookupKey (BitVec.ofNat 8 (16 + k.val)) c.denied).getD 0 + 1))) ∧
    (MayPerform s cmd 0x0B → cmdHandle cmd = 0 →
      (arg cmd 128 8 = 3 → exec (.readCounter cmd) s = .next (s.popCommand.withCompletion cmd (BitVec.ofNat 64 (254 - s.ctxs.length)) 0x00)) ∧
      (arg cmd 128 8 = 4 → exec (.readCounter cmd) s = .next (s.popCommand.withCompletion cmd (BitVec.ofNat 64 s.power) 0x00)))

/-- R253-R257, R275: a command with a wrong format, a handle that names no context, or a state in which it is not valid is refused with the status
of R255, and changes no context but its audit ring; a locked package refuses every command; the commands of a context come in the order of their sequence numbers. -/
def Obligations.CommandsRefused : Prop :=
  ∀ (s : State) (i : Instr) (cmd : Rec64) (code : Nat), commandOf i = some (cmd, code) → s.boot = .ready → s.nextCommand = some cmd →
    cmdCode cmd = code →
    ((∀ c ∈ s.ctxs, ∀ d ∈ c.heldCmds, cmdHandle d = c.handle) → (s.byHandle (cmdHandle cmd)).isSome = true →
      ∀ d ∈ s.cmdRing, cmdHandle d = cmdHandle cmd → cmd.toNat / 2 ^ 32 % 2 ^ 32 ≤ d.toNat / 2 ^ 32 % 2 ^ 32) ∧
    (s.locked = true → s.popCommand.byHandle (cmdHandle cmd) = none → exec i s = .next (s.popCommand.withCompletion cmd 0 0x08)) ∧
    (s.locked = false → s.popCommand.byHandle (cmdHandle cmd) = none → cmdFormatOk cmd = false →
      exec i s = .next (s.popCommand.withCompletion cmd 0 0x06)) ∧
    (s.locked = false → s.popCommand.byHandle (cmdHandle cmd) = none → cmdFormatOk cmd = true → code ≠ 0x01 → code ≠ 0x0A →
      (code = 0x0B → 16 ≤ arg cmd 128 8) → exec i s = .next (s.popCommand.withCompletion cmd 0 0x03)) ∧
    (∀ c status, Names s cmd code c → c.audit.va = none → c.audit.held.length < 16 →
      (s.locked = true ∧ status = 0x08) ∨ (s.locked = false ∧ cmdFormatOk cmd = false ∧ status = 0x06) ∨
        (s.locked = false ∧ cmdFormatOk cmd = true ∧ status = 0x02 ∧
        (c.st ∉ validStates code ∨ (code = 0x02 ∧ c.policy ≠ none) ∨ (code = 0x03 ∧ c.policy = none))) →
      ∃ s', exec i s = .next s' ∧ s'.complRing = (s.withCompletion cmd 0 status).complRing ∧ s'.insts = s.insts ∧ s'.hbm = s.hbm ∧
        s'.ctx? c.tag = some { c with audit := { c.audit with seq := c.audit.seq + 1, held := c.audit.held ++ [refusalRecord c cmd code status] } }) ∧
    (∀ c, s.locked = false → s.popCommand.byHandle (cmdHandle cmd) = some c → c.op ≠ none → code ≠ 0x09 → code ≠ 0x0A →
      exec i s = .next (s.popCommand.modCtx c.tag fun c => { c with heldCmds := c.heldCmds ++ [cmd] }))

/-- R252, R253, R264, R268, R269: PAUSE, EVICT and RESTORE hold back what comes behind them until everything has stopped or the checkpoint has been read; a Paused
context resumes; an evicted one gives its resources up, and gets its memory back from its checkpoint. That a resumed context's tiles count as just
served is log 29, the form of what a checkpoint keeps log 57, its records and what comes back log 65, the sealing itself free (log 9). -/
def Obligations.ContextsMove : Prop :=
  (∀ (s : State) (cmd : Rec64) (c : Context),
    (MayPerform s cmd 0x05 → Names s cmd 0x05 c → c.st = .running →
      exec (.pause cmd) s = .next ((s.popCommand.haltAll c.tag).modCtx c.tag fun c => { c with op := some (.pause cmd) })) ∧
    (MayPerform s cmd 0x06 → Names s cmd 0x06 c → c.st = .sealed ∨ c.st = .paused → c.schedNext = none →
      ∃ s' c', exec (.resume cmd) s = .next s' ∧ s'.ctx? c.tag = some c' ∧ c' = { c with st := .running, quiet := 0, declared := false } ∧
        s'.complRing = (s.withCompletion cmd 0 0x00).complRing ∧ s'.insts = s.insts.map fun x => if x.tag = c.tag then { x with
          tiles := x.tiles.map fun t => { t with served := some 0 }, nodes := x.nodes.map fun n => { n with served := some 0 } } else x) ∧
    (MayPerform s cmd 0x07 → Names s cmd 0x07 c → c.st = .running ∨ c.st = .paused → (c.target cmd).isSome →
      exec (.evict cmd) s = .next ((s.popCommand.haltAll c.tag).modCtx c.tag fun c => { c with op := some (.evict cmd) })) ∧
    (MayPerform s cmd 0x08 → Names s cmd 0x08 c → c.st = .evicted → (c.target cmd).isSome → arg cmd 192 64 = c.epoch.toNat →
      exec (.restore cmd) s = .next (s.popCommand.modCtx c.tag fun c => { c with op := some (.restore cmd) })) ∧
    (MayPerform s cmd 0x08 → Names s cmd 0x08 c → c.st = .evicted → (c.target cmd).isSome → arg cmd 192 64 ≠ c.epoch.toNat →
      ∃ s' c', exec (.restore cmd) s = .next s' ∧ s'.ctx? c.tag = some c' ∧ c'.st = .evicted ∧ c'.op = none ∧
        s'.complRing = (s.withCompletion cmd 0 0x07).complRing)) ∧
  (∀ (s : State) (tag : Byte) (cmd : Rec64) (c : Context), s.ctx? tag = some c →
    (c.op = some (.pause cmd) → s.allStopped c = true →
      exec (.pauseComplete tag) s = .next ((s.modCtx tag fun c => { c with st := .paused, op := none }).withCompletion cmd 0 0x00)) ∧
    (∀ d g, c.op = some (.evict cmd) → s.allStopped c = true → c.migs = [] → (∀ k : Fin 16, (c.queues[k]).marks = []) → c.target cmd = some d →
      c.grant = some g → tag ≠ 0 →
      (∀ k : Fin 32, (c.sessions[k]).opened = false) →
      if Config.targetAttests d s.now = true then
      ∃ s' c' k, exec (.evictComplete tag) s = .next s' ∧ s'.ctx? tag = some c' ∧ c'.st = .evicted ∧ c'.op = none ∧ c'.epoch = c.epoch + 1 ∧
        c'.frames = [] ∧ c'.saveFrames = [] ∧ c'.vf = c.vf ∧ c'.handle = c.handle ∧ c'.policy = c.policy ∧ c'.queues = c.queues ∧ c'.keys.checkpoint.isSome ∧
        c'.checkpoint = some k ∧ k.target = d ∧ k.epoch = c.epoch + 1 ∧ k.grant = g ∧ k.queues = c.queues ∧ c'.keys.checkpoint = some k.key ∧
        k.sessions = (c.sessions.map fun x => { x with part := [] }) ∧
        (∀ (u f h : Nat), c.frames[u]? = some f → h < 2 → k.records[2 * u + h]? =
          some (Config.gcmSeal k.key (BitVec.ofNat 32 (2 * u + h) ++ k.epoch) [] (s.hbm.read (f * 2 ^ 21 + h * 2 ^ 20) (2 ^ 20)))) ∧
        (∀ (i : Nat) (x : Inst), s.insts[i]? = some x → x.tag = tag → x.st ≠ .retired → ∃ x', s'.insts[i]? = some x' ∧ (i, x') ∈ k.insts ∧
          x'.nodes = x.nodes.map fun n => { n with placed := n.placed && n.finished, plots := [], gen := none }) ∧
        (s.canonical = true → c.frames.Nodup → ∀ (u f o : Nat), c.frames[u]? = some f → o < 2 ^ 21 →
          (lookupKey (u * 2 ^ 21 + o) k.bytes).getD 0 = s.hbm.get (f * 2 ^ 21 + o)) ∧
        (∀ p, (s'.physAt p).tag ≠ tag) ∧ (∀ f, (f, tag) ∉ s'.frames) ∧
        (∀ f, (f, tag) ∈ s.frames → ∀ o < 2 ^ 21, s.canonical = true → s'.hbm.get (f * 2 ^ 21 + o) = 0) ∧
        (∀ (i : Nat) (x : Inst), s.insts[i]? = some x → x.tag ≠ tag → s'.insts[i]? = some x) ∧
        (∀ (i j : Nat) (x : Inst) (t : Tile), s.insts[i]? = some x → x.tag = tag → x.st ≠ .retired → x.tiles[j]? = some t → t.place ≠ .running →
          ∃ t', s'.tile? i j = some t' ∧ t'.place = .saved ∧ t'.g = t.g ∧ t'.sem = t.sem ∧ t'.slice = t.slice ∧ t'.full = t.full ∧ t'.sr = t.sr) ∧
        s'.complRing = (s.withCompletion cmd 0 0x00).complRing
      else ∃ s' c', exec (.evictComplete tag) s = .next s' ∧ s'.ctx? tag = some c' ∧ c'.st = c.st ∧ c'.op = none ∧ c'.epoch = c.epoch ∧
        s'.complRing = (s.withCompletion cmd 0 0x05).complRing) ∧
    (∀ k d r, c.op = some (.restore cmd) → c.checkpoint = some k → c.target cmd = some d → d = k.target → s.findResources k.grant = some r →
      ∃ s' c', exec (.restoreComplete tag true) s = .next s' ∧ s'.ctx? tag = some c' ∧
        c' = { c with st := .paused, op := none, frames := r.frames, saveFrames := r.save, queues := k.queues, sessions := k.sessions } ∧
        r.tiles.length = k.grant.tiles ∧ r.frames.length = k.grant.hbm ∧ (∀ p ∈ r.tiles, (s'.physAt p).tag = tag) ∧
        (∀ f ∈ r.frames ++ r.save, (f, tag) ∈ s'.frames) ∧ (∀ i, i ∉ k.insts.map (·.1) → s'.insts[i]? = s.insts[i]?) ∧
        ((k.insts.map (·.1)).Nodup → ∀ (i : Nat) (x : Inst), (i, x) ∈ k.insts → i < s.insts.length → s'.insts[i]? = some x) ∧
        (s.canonical = true → cellsWf none k.bytes = true → ∀ (u f o : Nat), r.frames[u]? = some f → o < 2 ^ 21 →
          s'.hbm.get (f * 2 ^ 21 + o) = (lookupKey (u * 2 ^ 21 + o) k.bytes).getD 0) ∧
        s'.complRing = (s.withCompletion cmd 0 0x00).complRing) ∧
    (∀ ok k, c.op = some (.restore cmd) → c.checkpoint = some k → (ok = false ∨ c.target cmd ≠ some k.target) →
      ∃ s' c', exec (.restoreComplete tag ok) s = .next s' ∧ s'.ctx? tag = some c' ∧ c'.st = c.st ∧ c'.op = none ∧ c'.checkpoint = some k ∧
        s'.complRing = (s.withCompletion cmd 0 0x05).complRing))

/-- R253, R262, R270, R275: DESTROY, RESET_VF, a function-level reset and a sensor that trips leave a context Destroyed, and a command in progress ends with
BAD_STATE; once it is scrubbed its tag is free and what it held is zero. -/
def Obligations.ContextsDestroyed : Prop :=
  (∀ (s : State) (cmd : Rec64) (c : Context), c.st ≠ .destroyed →
    (∀ i, (i = .destroy cmd ∧ MayPerform s cmd 0x09 ∧ Names s cmd 0x09 c) ∨
        (i = .resetVf cmd ∧ MayPerform s cmd 0x0A ∧ s.popCommand.ctx? c.tag = some c ∧
          (s.popCommand.ctxs.find? fun c => c.vf.toNat == arg cmd 128 8) = some c) →
      (c.op = none → ∃ s', exec i s = .next s' ∧ Gone s s' c ∧ s'.complRing = (s.withCompletion cmd 0 0x00).complRing ∧
        ∀ (j : Nat) (x : Inst), s.insts[j]? = some x → x.tag ≠ c.tag → s'.insts[j]? = some x) ∧
      (∀ cmd', c.op = some (.pause cmd') ∨ c.op = some (.evict cmd') ∨ c.op = some (.restore cmd') →
        ∃ s' c', exec i s = .next s' ∧ s'.ctx? c.tag = some c' ∧ c'.st = .destroyed ∧ c'.op = none ∧
          s'.complRing = ((s.withCompletion cmd' 0 0x02).withCompletion cmd 0 0x00).complRing))) ∧
  (∀ (s : State) (vf : Byte) (c : Context), c.st ≠ .destroyed → c.op = none → s.ctx? c.tag = some c → (s.ctxs.find? fun c => c.vf == vf) = some c →
    ∃ s', exec (.functionLevelReset vf) s = .next s' ∧ Gone s s' c ∧ s'.complRing = s.complRing ∧
      ∀ (j : Nat) (x : Inst), s.insts[j]? = some x → x.tag ≠ c.tag → s'.insts[j]? = some x) ∧
  (∀ (s : State) (x : Sensor), s.armed = true → s.locked = false → s.ctxsApart = true → (∀ c ∈ s.ctxs, c.op = none ∧ c.st ≠ .destroyed) →
    ((∃ mv, x = .voltage mv ∧ (mv < 600 ∨ 1050 < mv)) ∨ (∃ ps, x = .clock ps ∧ ps < 450) ∨ x = .missingEdge ∨
      (∃ f, x = .oscillator f ∧ (f < 700 ∨ 1300 < f)) ∨ ∃ t, x = .temperature t ∧ (125 < t ∨ t < -40)) →
    ∃ s', exec (.sensorTrip x) s = .next s' ∧ s'.locked = true ∧ (∀ c ∈ s.ctxs, Gone s s' c) ∧ ∀ k : Fin 24, (s'.ports[k]).st = .isolated) ∧
  (∀ (s : State) (tag : Byte) (c : Context), s.ctx? tag = some c → c.st = .destroyed → c.heldCmds = [] → s.aborting c = false → tag ≠ 0 → s.canonical = true →
    ∃ s', exec (.scrubComplete tag) s = .next s' ∧ s'.ctx? tag = none ∧ (∀ f, (f, tag) ∉ s'.frames) ∧
      (∀ p, (s'.physAt p).tag ≠ tag ∧ ((s.physAt p).tag ≠ tag → s'.physAt p = s.physAt p)) ∧ (∀ p, (s'.plotAt p).tag ≠ tag) ∧
      (∀ f, (f, tag) ∈ s.frames → ∀ o < 2 ^ 21, s'.hbm.get (f * 2 ^ 21 + o) = 0) ∧
      (∀ a, (a / 2 ^ 21, tag) ∉ s.frames → s'.hbm.get a = s.hbm.get a) ∧ s'.insts = s.insts ∧ s'.host = s.host)

/-- R261, R263, R273: KEY_UPDATE gives a bounce channel a new key and restarts its counters; a record whose counter is the next and whose tag verifies is accepted, one of
another counter is answered by a key update; the device seals a header and a payload under the next counter; a beat that a Husk engine opens reaches its consumer as it was, and is counted, and one whose tag
fails is discarded, ends its route and faults the consuming tile. The sealing itself is free (log 9), and so is which routes a Husk engine seals (log 17). -/
def Obligations.SealedTraffic : Prop :=
  (∀ (s : State) (tag : Byte) (chan : BitVec 2) (b : Bounce) (key : BitVec 256), s.bounce? tag chan = some b → b.key = some key →
    (∃ s' b', exec (.keyUpdate tag chan) s = .next s' ∧ s'.bounce? tag chan = some b' ∧ b'.sent = 0 ∧ b'.accepted = 0 ∧ b'.key.isSome ∧
      b'.outbox = b.outbox ∧ b'.inbox = b.inbox ∧ s'.keysDrawn = s.keysDrawn + 1 ∧ s'.insts = s.insts ∧ s'.hbm = s.hbm) ∧
    (let sized (h p : List Byte) : Prop := h.length = 64 ∧ p.length % 64 = 0 ∧ 64 ≤ p.length ∧ p.length ≤ 65536
     let keeps (i : Instr) (f : Bounce) : Prop := ∃ s', exec i s = .next s' ∧ s'.bounce? tag chan = some f ∧ s'.insts = s.insts ∧ s'.hbm = s.hbm ∧
       s'.keysDrawn = s.keysDrawn
     (∀ r : BounceRec, r.counter = b.accepted + 1 → sized r.header r.body →
       keeps (.bounceRecord tag chan (.receive r)) (match Config.gcmOpen key (r.counter ++ Config.bounceNumber chan false) r.header r.body r.tag with
         | some p => { b with accepted := r.counter, inbox := b.inbox ++ [(r.header, p)] }
         | none => b)) ∧
     (∀ r : BounceRec, r.counter = b.accepted + 1 → ¬sized r.header r.body → exec (.bounceRecord tag chan (.receive r)) s = .next s) ∧
     (∀ r c, r.counter ≠ b.accepted + 1 → s.ctx? tag = some c →
       ∃ s' b' c', exec (.bounceRecord tag chan (.receive r)) s = .next s' ∧ s'.bounce? tag chan = some b' ∧ b'.status = 0x09 ∧ b'.sent = 0 ∧
         b'.accepted = 0 ∧ b'.inbox = b.inbox ∧ s'.keysDrawn = s.keysDrawn + 1 ∧ s'.ctx? tag = some c' ∧ c'.audit.seq = c.audit.seq + 1) ∧
     (∀ h p, sized h p →
       (let sealed := Config.gcmSeal key ((b.sent + 1) ++ Config.bounceNumber chan true) h p
        keeps (.bounceRecord tag chan (.send h p)) { b with sent := b.sent + 1, outbox := b.outbox ++ [⟨b.sent + 1, h, sealed.1, sealed.2⟩] })) ∧
     (∀ h p, ¬sized h p → exec (.bounceRecord tag chan (.send h p)) s = .next s))) ∧
  (∀ (s : State) (x : Inst) (t : Tile) (c : Context) (route : BitVec 32), s.insts[s.focus.inst]? = some x → x.tiles[s.focus.tile]? = some t →
    s.ctx? x.tag = some c → route ∉ c.huskDead → c.audit.va = none →
    match s.huskSource x route with
    | none => ∀ ok, exec (.huskBeat route ok) s = .next s
    | some b =>
      (∀ dst z, (∃ k j, b = .tile k j dst ∨ b = .node k j dst) → x.tiles[dst]? = some z → z.seq.finished = false → z.seq.pend.eng0.length < 16 →
        ∃ s' z' c' f, exec (.huskBeat route false) s = .next s' ∧ s'.tile? s.focus.inst dst = some z' ∧ f ∈ z'.seq.pend.eng0 ∧ f.code = 0x0D ∧
          f.engine = 0 ∧ f.info = BitVec.ofNat 64 (2 ^ 63 + route.toNat) ∧ z'.g = z.g ∧ s'.ctx? x.tag = some c' ∧ route ∈ c'.huskDead ∧
          c'.audit.seq = c.audit.seq + 1) ∧
      (∀ k j dst y z fmt u rest e w, b = .tile k j dst → x.tiles[k]? = some y → x.tiles[dst]? = some z → k ≠ dst →
        (vget y.vc j Vc.empty).ready = (fmt, u) :: rest → (vget y.vc j Vc.empty).cur = some (e, w) → vcRoute e = 0 →
        localVc (vcDport e) (vcDvc e) = true → z.seq.finished = false → (z.vcAt (vcDport e) (vcDvc e)).granted ≠ 0 →
        ∃ s' y' z' c', exec (.huskBeat route true) s = .next s' ∧ s'.tile? s.focus.inst k = some y' ∧ (vget y'.vc j Vc.empty).ready = rest ∧
          s'.tile? s.focus.inst dst = some z' ∧ (z'.vcAt (vcDport e) (vcDvc e)).arrived = (z.vcAt (vcDport e) (vcDvc e)).arrived ++ [(fmt, u)] ∧
          s'.ctx? x.tag = some c' ∧
          (let up := decide (y.phys < z.phys)
           let n := (lookupKey (route, up) c.husk).getD 0
           lookupKey (route, up) c'.husk = some (n + 1) ∧ ∀ key, c.keys.husk = some key →
             lookupKey (route, up) c'.huskWire = some (Config.gcmSeal key (n ++ route) [u.tag, if u.last then 1 else 0] (vecBytes 18 u.bits)))))

/-! ### The package -/

/-- R18, R19, R394-R400: bring-up leaves a package without contexts; the power manager lowers the fabric first; a change of frequency, a patrol scrub, a
configuration readback, a tile that is mapped out and staged firmware change what their rules name, and nothing that a program computes. The limits of draw of
a part and the result of its self-test are free (logs 69 and 17), the first junction temperature is log 8, how far an uncorrectable error
reaches logs 63 and 86, the order in which the power manager lowers and raises log 64. -/
def Obligations.PackageEvents : Prop :=
  (∀ (s : State) (r : BootResult), ∃ s', exec (.coldReset r) s = .next s' ∧ s'.boot = .ready ∧ s'.locked = (!r.verified) ∧ s'.armed = r.verified ∧
    s'.dies = s.dies ∧ s'.hbmFrames = s.hbmFrames ∧ s'.ctxs = [] ∧ s'.insts = [] ∧ (∀ a, s'.hbm.get a = 0) ∧ s'.hbmBad = [] ∧
    (∀ f, s'.frameTag f = if s.hbmFrames ≤ f + 16 then 0xFF else 0) ∧
    ((s.phys.map (·.1)).Nodup → ∀ p, s'.physAt p =
      { Phys.idle with mappedOut := (s.physAt p).mappedOut && !Config.selfTest s.now (p / 384) }) ∧
    ((s.plots.map (·.1)).Nodup → ∀ p, s'.plotAt p =
      { Plot.idle with quarantined := (s.plotAt p).quarantined && !Config.selfTest s.now (p / 128) }) ∧ (∀ k : Fin 24, (s'.ports[k]).st = .down) ∧ s'.host = s.host ∧ s'.cmdRing = s.cmdRing ∧
    s'.fwDigest = (match s.fwStaged with | some d => if r.verified then d else r.digest | none => r.digest)) ∧
  (∀ (s : State) (watts : Nat), s.dies ≤ 4 → (s.dies = 4 → s.drawLimits = (3200, 3100)) ∧
    (let there (k : Fin 16) : Prop := k.val < 4 * s.dies ∧ k.val % 4 < 2
     let made (g : Fin 32) : Prop := g.val < 8 * s.dies
     let excess : Prop := s.drawLimits.1 < watts ∨ 105 < s.junction
    (¬excess → s.drawLimits.2 ≤ watts → exec (.powerSample watts) s = .next { s with power := watts }) ∧
    (excess → (∃ g, made g ∧ 100 < s.gens[g]) → ∃ s', exec (.powerSample watts) s = .next s' ∧ s' = { s with power := watts, gens := s'.gens } ∧
      ∀ g : Fin 32, (made g → s'.gens[g] = max 100 (s.gens[g] - 50)) ∧ (¬made g → s'.gens[g] = s.gens[g])) ∧
    (excess → (∀ g, made g → s.gens[g] ≤ 100) → ∃ s', exec (.powerSample watts) s = .next s' ∧ s'.power = watts ∧ s'.gens = s.gens ∧
      s'.insts = s.insts ∧
      ((∃ k, there k ∧ s.islandFloor k.val < s.islands[k]) → s'.floorBreaches = s.floorBreaches ∧
        ∀ k : Fin 16, s'.islands[k] = if k.val % 4 < 2 ∧ s.islandFloor k.val < s.islands[k] then s.islands[k] - 1 else s.islands[k]) ∧
      ((∀ k, there k → s.islands[k] ≤ s.islandFloor k.val) → s'.floorBreaches = s.floorBreaches + 1 ∧
        ∀ k : Fin 16, s'.islands[k] = if k.val % 4 < 2 then max 18 (s.islands[k] - 1) else s.islands[k])) ∧
    (¬excess → watts < s.drawLimits.2 → ∃ s', exec (.powerSample watts) s = .next s' ∧ s' = { s with power := watts, islands := s'.islands, gens := s'.gens } ∧
      ((∃ k, there k ∧ s.islands[k] < s.islandFloor k.val) → s'.gens = s.gens ∧
        ∀ k : Fin 16, s'.islands[k] = if k.val % 4 < 2 ∧ s.islands[k] < s.islandFloor k.val then s.islands[k] + 1 else s.islands[k]) ∧
      ((∀ k, there k → s.islandFloor k.val ≤ s.islands[k]) → (∃ k, there k ∧ s.islands[k] < 36) → s'.gens = s.gens ∧
        ∀ k : Fin 16, s'.islands[k] = if k.val % 4 < 2 then min 36 (s.islands[k] + 1) else s.islands[k]) ∧
      ((∀ k, there k → s.islandFloor k.val ≤ s.islands[k] ∧ 36 ≤ s.islands[k]) → s'.islands = s.islands ∧
        ∀ g : Fin 32, (made g → s'.gens[g] = if s.gens[g] < s.genTop g.val then min (s.gens[g] + 50) (s.genTop g.val) else s.gens[g]) ∧
          (¬made g → s'.gens[g] = s.gens[g]))))) ∧
  (∀ (s : State) (t : Int), -40 ≤ t → t ≤ 125 → exec (.sensorTrip (.temperature t)) s = .next { s with junction := t }) ∧
  (∀ (s : State) (island steps : Nat), island < 4 * s.dies → island < 16 → island % 4 < 2 → 18 ≤ steps → steps ≤ 36 →
    ∃ s', exec (.islandFrequencyChange island steps) s = .next s' ∧ s' = { s with islands := s'.islands } ∧
      ∀ k : Fin 16, s'.islands[k] = if k.val = island then steps else s.islands[k]) ∧
  (∀ (s : State) (w : Nat), (∀ bits < 2, ∀ loc, exec (.patrolScrub loc bits) s = .next s) ∧
    (∀ bits, 2 ≤ bits → ∃ s', exec (.patrolScrub (.hbm w) bits) s = .next s' ∧ s' = { s with hbmBad := s'.hbmBad } ∧
      ∀ k, k ∈ s'.hbmBad ↔ k ∈ s.hbmBad ∨ k / 4 = w / 4) ∧
    (∀ bits i t y, 2 ≤ bits → s.tile? i t = some y → 8 * w < 0x128000 → y.phys ≠ noPhys →
      ∃ s' y', exec (.patrolScrub (.slice i t w) bits) s = .next s' ∧ s'.tile? i t = some y' ∧ y' = { y with bad := y'.bad } ∧
        (∀ k, k ∈ y'.bad ↔ k ∈ y.bad ∨ k = w) ∧ (s'.physAt y.phys).errors = (s.physAt y.phys).errors + 1 ∧ s'.hbm = s.hbm) ∧
    (∀ bits p, 2 ≤ bits → p < 384 * s.dies → p ≠ noPhys →
      exec (.patrolScrub (.sram p) bits) s = .next (s.modPhys p fun y => { y with errors := y.errors + 1 }))) ∧
  (∀ (s : State) (plot : Nat), plot < 128 * s.dies →
    (∀ r, r ≠ .uncorrectable → exec (.configReadback plot r) s = .next s) ∧
    (s.nodeOnPlot plot = none →
      exec (.configReadback plot .uncorrectable) s = .next (s.modPlot plot fun p => { p with quarantined := true })) ∧
    (∀ i k x n y, s.nodeOnPlot plot = some (i, k) → s.insts[i]? = some x → x.nodes[k]? = some n → x.tiles[0]? = some y → y.seq.finished = false →
      y.seq.pend.eng0.length < 16 →
      ∃ s' x' y' f, exec (.configReadback plot .uncorrectable) s = .next s' ∧ (s'.plotAt plot).quarantined = true ∧ s'.insts[i]? = some x' ∧
        x'.nodes[k]? = some { n with stopped := true } ∧ x'.tiles[0]? = some y' ∧ f ∈ y'.seq.pend.eng0 ∧ f.code = 0x0A ∧ f.engine = 0 ∧
        f.info = BitVec.ofNat 64 n.id.toNat ∧ y'.g = y.g)) ∧
  (∀ (s : State) (phys : Nat) (idpor : Bool), phys < 384 * s.dies → (s.physAt phys).mappedOut = false → idpor = true ∨ 2 ≤ (s.physAt phys).errors →
    (s.onPhys phys = none → ∃ s', exec (.tileMapOut phys idpor) s = .next s' ∧ (s'.physAt phys).mappedOut = true ∧
      (s'.physAt phys).tag = (if (s.physAt phys).tag = 0 then 0 else 0xFF) ∧ s'.insts = s.insts ∧ ∀ p, p ≠ phys → s'.physAt p = s.physAt p) ∧
    (∀ o, s.onPhys phys = some o → exec (.tileMapOut phys idpor) s = .next (s.modPhys phys fun p => { p with mappedOut := true }))) ∧
  (∀ (s : State) (hazel verified : Bool) (d : Digest), s.boot = .ready → exec (.firmwareStage hazel d verified) s =
    .next { s with fwStaged := if hazel = true ∧ verified = true then some d else s.fwStaged })

/-- R400, R11: the package after a cold reset, before bring-up: no context, no instance, memory of zeros, every tag 0x00 but Hazel's own of the
frames of the record rings, which the model puts last (log 57), every port Down. The clocks of its islands and
generators and the values of what the spec does not name are the model's (log 8), and nothing is said of them. -/
def Obligations.ResetState : Prop :=
  State.reset.dies = 4 ∧ State.reset.hbmFrames * 2 ^ 21 = 512 * 2 ^ 30 ∧ State.reset.boot = .cold ∧ State.reset.ctxs = [] ∧ State.reset.insts = [] ∧ (∀ a, State.reset.hbm.get a = 0) ∧
  (∀ p, (State.reset.physAt p).tag = 0 ∧ (State.reset.physAt p).mappedOut = false ∧ ∀ k : Fin 16, (State.reset.physAt p).banks[k] = 0) ∧
  (∀ p, (State.reset.plotAt p).tag = 0 ∧ (State.reset.plotAt p).quarantined = false) ∧ (∀ f < 262144, State.reset.frameTag f = if 262128 ≤ f then 0xFF else 0) ∧
  (∀ k : Fin 24, (State.reset.ports[k]).st = .down) ∧ (∀ k : Fin 24, State.reset.copy[k] = CpEngine.idle)

/-- Every memory of State.reset is in canonical form. -/
def Obligations.ResetCanonical : Prop :=
 State.reset.canonical = true

/-- Every step keeps every memory in canonical form: HBM, host memory, slices, block RAM and checkpoints. -/
def Obligations.StepKeepsCanonical : Prop :=
  ∀ s s' : State, s.canonical = true → step s = .next s' → s'.canonical = true

/-! ### Steps, encodings -/

/-- R28, R29, R44: while the agenda is empty, a step of a package that is up runs the word that its sequencer has chosen: that of the lowest slot left of the tile cycle in hand;
then the time that passes and the slots still to be tried are as the model's order of steps has them (log 1). A step whose agenda names an event runs it. -/
def Obligations.StepRunsDecoded : Prop :=
  (∀ (s : State) (t : Tile) (b : Block) (k : Nat) (ks : List Nat) (i : Instr), s.agenda = [] → s.boot = .ready → s.tile? s.focus.inst s.focus.tile = some t →
    t.deliverable = false → t.seq.block = some b → b.committing = false → b.issued = true → (b.untried t.seq.turn).1 = k :: ks →
    decodeSeq (b.words.getD k 0) = .ok i →
    (let s0 := { s with focus := { s.focus with slot := k } }
     ∀ s1, exec i s0 = .next s1 → step s = .next ((s0.tick s1).modFocus fun y => y.advance k (some (b.untried t.seq.turn))))) ∧
  (∀ (s s1 : State) (i t : Nat) (e : Instr) (rest : List Move), s.agenda = .ev i t e :: rest →
    (let s0 := { s with agenda := rest, focus := ⟨i, t, 0⟩ }
     exec e s0 = .next s1 → step s = .next (s0.tick s1))) ∧
  (∀ (s s1 : State) (x : Inst) (t : Tile) (e : StripId) (w : W64) (i : Instr) (j k : Nat) (rest : List Move), s.agenda = .sched j k :: rest →
    (let s0 := { s with agenda := rest, focus := ⟨j, k, 0⟩ }
     s0.insts[j]? = some x → x.tiles[k]? = some t → s0.schedAct x t = .word e w → decodeStrip e w = .ok i → exec i s0 = .next s1 →
     step s = .next (s0.tick s1)))

/-- R60-R82: words written out from their encodings decode to the instruction that they stand for. -/
def Obligations.DecodedWords : Prop :=
  decodeTableWord 64 0x9B10200000000006 = some (.ctxqClearFlags ⟨.always, some ⟨.left, 1⟩, none⟩) ∧
  decodeTableWord 64 0x9A10200000000005 = some (.lnkst ⟨.always, some ⟨.left, 1⟩, none⟩ 5) ∧
  decodeTableWord 64 0x0510483080000000 = some (.movi ⟨.always, some ⟨.left, 2⟩, some ⟨.left, 3⟩⟩ 0x080000000) ∧
  decodeTableWord 64 0x42000000E0000008 = some (.st ⟨.always, none, none⟩ 1 .b8 8) ∧
  decodeTableWord 64 0x1710600000000000 = some (.div ⟨.always, some ⟨.left, 3⟩, none⟩) ∧
  decodeTableWord 64 0x3130B86000000015 = some (.teqi ⟨.always, some ⟨.pred, 5⟩, some ⟨.pred, 6⟩⟩ 0x15) ∧
  decodeTableWord 64 0x1150E00000000050 = some (.addi ⟨.onTrue, some ⟨.left, 7⟩, none⟩ 0x50) ∧
  decodeTableWord 64 0x0490E00000000000 = some (.mov ⟨.onFalse, some ⟨.left, 7⟩, none⟩) ∧
  decodeTableWord 64 0xA100000000000008 = some (.mtsEpc ⟨.always, none, none⟩ 0) ∧
  decodeTableWord 64 0xA300000000000000 = some (.hret ⟨.always, none, none⟩) ∧
  decodeTableWord 64 0x9110200000000001 = some (.qstat ⟨.always, some ⟨.left, 1⟩, none⟩ 1)

/-- R60-R82, R238: every well-formed sequencer word, strip word and control token has an encoding, and decoding it gives it back. -/
def Obligations.DecodeEncode : Prop :=
  ∀ i : Instr, i.WellFormed = true →
    match i.shape with
    | .seq _ _ => decodeSeq (encode i) = .ok i
    | .strip e _ _ => decodeStrip e (encode i) = .ok i
    | .token op k => decodeToken (encode i) = .ok (op, k)
    | .step => True

/-- R61: the common fields of a sequencer word: the opcode in bits 63:56, the predicate mode in bits 55:54, of which 11 is illegal, and the kind and the slot of T0 in
bits 53:45 and of T1 in bits 44:36. -/
def Obligations.CommonFields : Prop :=
  ∀ (w : W64),
    (w.toNat / 2 ^ 54 % 4 = 3 → ∃ e, decodeSeq w = .error e) ∧
    ∀ (i : Instr) (h : Head) (m : SeqMeta), decodeSeq w = .ok i → i.shape = .seq h m →
      (let kind : Option Target → Nat := fun | none => 0 | some ⟨.left, _⟩ => 1 | some ⟨.right, _⟩ => 2 | some ⟨.pred, _⟩ => 3
       w.toNat / 2 ^ 56 = m.op.toNat ∧ w.toNat / 2 ^ 54 % 4 = (match h.pred with | .always => 0 | .onTrue => 1 | .onFalse => 2) ∧
       w.toNat / 2 ^ 52 % 4 = kind h.t0 ∧ (∀ g, h.t0 = some g → w.toNat / 2 ^ 45 % 128 = g.slot.toNat) ∧
       w.toNat / 2 ^ 43 % 4 = kind h.t1 ∧ (∀ g, h.t1 = some g → w.toNat / 2 ^ 36 % 128 = g.slot.toNat))

/-- R65: the branches are BR, BRR, CALL, CALLR, HALT, YIELD and HRET, and no other instruction is one. -/
def Obligations.BranchesAre : Prop :=
  ∀ (i : Instr) (h : Head) (m : SeqMeta), i.shape = .seq h m →
    (m.branch = true ↔ (∃ e o, i = .br h e o) ∨ i = .brr h ∨ (∃ e o, i = .call h e o) ∨ i = .callr h ∨ i = .halt h ∨ (∃ e o, i = .yield h e o) ∨ i = .hret h)
end

