-- ==== Sys2Proof/Laws/Mem.lean ====
section
/-! SUPPORT. The laws of a byte memory: every operation keeps its canonical form, a read after a write, and bytes elsewhere unchanged. -/

namespace Sys2Proof.Machine

/-- Cells from a bound on, below another: the shape that a join of canonical parts needs. -/
def cellsIn (lo hi : Nat) (l : List Host.Cell) : Prop := ∀ c ∈ l, lo ≤ c.1 ∧ c.1 < hi

/-- Canonical form said of the list itself. -/
theorem cellsWf_iff (lo : Option Nat) (l : List Host.Cell) :
    cellsWf lo l = true ↔
      (∀ b, lo = some b → ∀ c ∈ l, b < c.1) ∧ l.Pairwise (fun c d => c.1 < d.1) ∧ ∀ c ∈ l, c.2 ≠ 0 := by
  induction l generalizing lo with
  | nil => simp [cellsWf]
  | cons c l ih =>
    obtain ⟨a, v⟩ := c
    simp only [cellsWf, Bool.and_eq_true, ih, List.pairwise_cons, List.mem_cons, forall_eq_or_imp, bne_iff_ne,
      Option.some.injEq]
    constructor
    · rintro ⟨⟨h1, hv⟩, h2, h3, h4⟩
      refine ⟨?_, ⟨fun d hd => h2 a rfl d hd, h3⟩, hv, h4⟩
      rintro b rfl
      have hb : b < a := by simpa using h1
      exact ⟨hb, fun d hd => Nat.lt_trans hb (h2 a rfl d hd)⟩
    · rintro ⟨h1, ⟨h2, h3⟩, hv, h4⟩
      refine ⟨⟨?_, hv⟩, ?_, h3, h4⟩
      · cases lo with
        | none => rfl
        | some b => simpa using (h1 b rfl).1
      · rintro b rfl d hd
        exact h2 d hd

/-- Canonical form of a memory said of its list. -/
theorem wf_iff (m : Mem) : m.wf = true ↔ m.cells.Pairwise (fun c d => c.1 < d.1) ∧ ∀ c ∈ m.cells, c.2 ≠ 0 := by
  simp [Mem.wf, cellsWf_iff]

/-- An empty memory is canonical. -/
@[simp] theorem wf_nil : Mem.wf ⟨[]⟩ = true := rfl

/-- The cells of a run of bytes lie in its range. -/
theorem mkCells_in (a : Nat) (bs : List Byte) : cellsIn a (a + bs.length) (mkCells a bs) := by
  induction bs generalizing a with
  | nil => simp [mkCells, cellsIn]
  | cons v l ih =>
    intro c hc
    have step : c ∈ mkCells (a + 1) l → a ≤ c.1 ∧ c.1 < a + (l.length + 1) := fun h => by
      have := ih (a + 1) c h; omega
    simp only [mkCells, List.length_cons] at hc ⊢
    split at hc
    · exact step hc
    · rcases List.mem_cons.1 hc with rfl | h
      · exact ⟨Nat.le_refl _, by omega⟩
      · exact step h

/-- The cells of a run of bytes are canonical. -/
theorem mkCells_wf (a : Nat) (bs : List Byte) : Mem.wf ⟨mkCells a bs⟩ = true := by
  rw [wf_iff]
  induction bs generalizing a with
  | nil => simp [mkCells]
  | cons v l ih =>
    simp only [mkCells]
    split
    · exact ih (a + 1)
    · refine ⟨List.pairwise_cons.2 ⟨fun d hd => ?_, (ih (a + 1)).1⟩, ?_⟩
      · have := mkCells_in (a + 1) l d hd; show a < d.1; omega
      · simpa using ⟨‹v ≠ 0›, fun b c h => (ih (a + 1)).2 (b, c) h⟩

/-- A part of a canonical memory is canonical. -/
theorem wf_filter (m : Mem) (p : Host.Cell → Bool) (h : m.wf = true) : Mem.wf ⟨m.cells.filter p⟩ = true := by
  rw [wf_iff] at h ⊢
  exact ⟨h.1.filter p, fun c hc => h.2 c (List.mem_filter.1 hc).1⟩

/-- Canonical parts in rising order join to a canonical whole. -/
theorem wf_join (x y z : List Host.Cell) (a b : Nat) (hab : a ≤ b) (hx : Mem.wf ⟨x⟩ = true) (hy : Mem.wf ⟨y⟩ = true)
    (hz : Mem.wf ⟨z⟩ = true) (ix : ∀ c ∈ x, c.1 < a) (iy : cellsIn a b y) (iz : ∀ c ∈ z, b ≤ c.1) :
    Mem.wf ⟨x ++ y ++ z⟩ = true := by
  rw [wf_iff] at hx hy hz ⊢
  refine ⟨?_, ?_⟩
  · simp only [List.pairwise_append]
    refine ⟨⟨hx.1, hy.1, fun c hc d hd => Nat.lt_of_lt_of_le (ix c hc) (iy d hd).1⟩, hz.1, fun c hc d hd => ?_⟩
    have hd' := iz d hd
    rcases List.mem_append.1 hc with h | h
    · have := ix c h; omega
    · have := (iy c h).2; omega
  · intro c hc
    rcases List.mem_append.1 hc with h | h
    · rcases List.mem_append.1 h with h | h
      · exact hx.2 c h
      · exact hy.2 c h
    · exact hz.2 c h

/-- Replacing a range of a canonical memory by canonical cells of that range. -/
theorem wf_replace (m : Mem) (y : List Host.Cell) (a b : Nat) (hab : a ≤ b) (h : m.wf = true) (hy : Mem.wf ⟨y⟩ = true)
    (iy : cellsIn a b y) :
    Mem.wf ⟨m.cells.filter (fun c => decide (c.1 < a)) ++ y ++ m.cells.filter (fun c => decide (b ≤ c.1))⟩ = true := by
  refine wf_join _ _ _ a b hab (wf_filter m _ h) hy (wf_filter m _ h) ?_ iy ?_
  · intro c hc; simpa using (List.mem_filter.1 hc).2
  · intro c hc; simpa using (List.mem_filter.1 hc).2

/-- A write keeps the canonical form. -/
@[simp] theorem write_wf (m : Mem) (a : Nat) (bs : List Byte) (h : m.wf = true) : (m.write a bs).wf = true :=
  wf_replace m _ a (a + bs.length) (by omega) h (mkCells_wf a bs) (mkCells_in a bs)

/-- Clearing keeps the canonical form. -/
@[simp] theorem clear_wf (m : Mem) (a n : Nat) (h : m.wf = true) : (m.clear a n).wf = true := by
  simpa [Mem.clear] using wf_replace m [] a (a + n) (by omega) h rfl (by simp [cellsIn])

/-- Cells of a canonical memory moved from one range to another of the same size are canonical and lie in that range. -/
theorem moved_wf (m : Mem) (src dst n : Nat) (h : m.wf = true) :
    let y := m.cells.filterMap fun c => if src ≤ c.1 ∧ c.1 < src + n then some (c.1 - src + dst, c.2) else none
    Mem.wf ⟨y⟩ = true ∧ cellsIn dst (dst + n) y := by
  rw [wf_iff] at h
  refine ⟨?_, ?_⟩
  · rw [wf_iff]
    refine ⟨?_, ?_⟩
    · refine List.Pairwise.filterMap _ ?_ h.1
      intro c d hcd x hx y hy
      simp only [Option.ite_none_right_eq_some, Option.some.injEq] at hx hy
      obtain ⟨hx, rfl⟩ := hx
      obtain ⟨hy, rfl⟩ := hy
      show c.1 - src + dst < d.1 - src + dst
      omega
    · intro x hx
      simp only [List.mem_filterMap, Option.ite_none_right_eq_some, Option.some.injEq] at hx
      obtain ⟨c, hc, -, rfl⟩ := hx
      exact h.2 c hc
  · intro x hx
    simp only [List.mem_filterMap, Option.ite_none_right_eq_some, Option.some.injEq] at hx
    obtain ⟨c, -, hc, rfl⟩ := hx
    show dst ≤ c.1 - src + dst ∧ c.1 - src + dst < dst + n
    omega

/-- The byte of cells at an address, found by search. -/
theorem cellGet_eq (l : List Host.Cell) (h : l.Pairwise (fun c d => c.1 < d.1)) (a : Nat) :
    cellGet l a = ((l.find? fun c => c.1 == a).map (·.2)).getD 0 := by
  induction l with
  | nil => rfl
  | cons c l ih =>
    obtain ⟨b, v⟩ := c
    have hp := List.pairwise_cons.1 h
    simp only [cellGet, List.find?_cons]
    by_cases hab : a = b
    · simp [hab]
    · have hba : (b == a) = false := by simpa using fun e : b = a => hab e.symm
      simp only [hab, if_false, hba]
      by_cases hlt : a < b
      · have : l.find? (fun c => c.1 == a) = none := by
          rw [List.find?_eq_none]
          intro d hd
          have hd' : b < d.1 := hp.1 d hd
          simp; omega
        simp [hlt, this]
      · simpa [hlt] using ih hp.2

/-- A byte outside the bytes that a write names reads as before. -/
theorem get_write_of_ne (m : Mem) (a : Nat) (bs : List Byte) (b : Nat) (h : m.wf = true) (hb : b < a ∨ a + bs.length ≤ b) :
    (m.write a bs).get b = m.get b := by
  have hw := ((wf_iff _).1 (write_wf m a bs h)).1
  simp only [Mem.get]
  rw [cellGet_eq _ hw, cellGet_eq _ ((wf_iff m).1 h).1]
  congr 2
  simp only [Mem.write, cellWrite, List.find?_append, List.find?_filter, Bool.decide_and, Bool.decide_eq_true]
  have hmk : (mkCells a bs).find? (fun c => c.1 == b) = none := by
    rw [List.find?_eq_none]
    intro c hc
    have := mkCells_in a bs c hc
    simp; omega
  rw [hmk]
  rcases hb with hb | hb
  · have e1 : (m.cells.find? fun c => decide (c.1 < a) && (c.1 == b)) = m.cells.find? fun c => c.1 == b := by
      congr 1; funext c; by_cases hc : c.1 = b <;> simp [hc, hb]
    have e2 : (m.cells.find? fun c => decide (a + bs.length ≤ c.1) && (c.1 == b)) = none := by
      rw [List.find?_eq_none]; intro c _; simp; omega
    simp only [e1, e2, Option.or_none, Option.none_or, Option.or_some]
  · have e1 : (m.cells.find? fun c => decide (c.1 < a) && (c.1 == b)) = none := by
      rw [List.find?_eq_none]; intro c _; simp; omega
    have e2 : (m.cells.find? fun c => decide (a + bs.length ≤ c.1) && (c.1 == b)) = m.cells.find? fun c => c.1 == b := by
      congr 1; funext c; by_cases hc : c.1 = b <;> simp [hc, hb]
    simp only [e1, e2, Option.or_none, Option.none_or, Option.or_some]

end Sys2Proof.Machine
end

