-- ==== Sys2Proof/Laws/State.lean ====
section
/-! SUPPORT. What the updates of a state leave as it was, one lemma for each field, and what they change. -/

namespace Sys2Proof.Machine

/-! ### modInst -/

@[simp] theorem State.modInst_now (s : State) (i : Nat) (f : Inst → Inst) : (s.modInst i f).now = s.now := rfl
@[simp] theorem State.modInst_dies (s : State) (i : Nat) (f : Inst → Inst) : (s.modInst i f).dies = s.dies := rfl
@[simp] theorem State.modInst_hbmFrames (s : State) (i : Nat) (f : Inst → Inst) : (s.modInst i f).hbmFrames = s.hbmFrames := rfl
@[simp] theorem State.modInst_linkGens (s : State) (i : Nat) (f : Inst → Inst) : (s.modInst i f).linkGens = s.linkGens := rfl
@[simp] theorem State.modInst_junction (s : State) (i : Nat) (f : Inst → Inst) : (s.modInst i f).junction = s.junction := rfl
@[simp] theorem State.modInst_arrivals (s : State) (i : Nat) (f : Inst → Inst) : (s.modInst i f).arrivals = s.arrivals := rfl
@[simp] theorem State.modInst_classOf (s : State) (i : Nat) (f : Inst → Inst) : (s.modInst i f).classOf = s.classOf := rfl
@[simp] theorem State.modInst_aborts (s : State) (i : Nat) (f : Inst → Inst) : (s.modInst i f).aborts = s.aborts := rfl
@[simp] theorem State.modInst_agenda (s : State) (i : Nat) (f : Inst → Inst) : (s.modInst i f).agenda = s.agenda := rfl
@[simp] theorem State.modInst_focus (s : State) (i : Nat) (f : Inst → Inst) : (s.modInst i f).focus = s.focus := rfl
@[simp] theorem State.modInst_boot (s : State) (i : Nat) (f : Inst → Inst) : (s.modInst i f).boot = s.boot := rfl
@[simp] theorem State.modInst_locked (s : State) (i : Nat) (f : Inst → Inst) : (s.modInst i f).locked = s.locked := rfl
@[simp] theorem State.modInst_armed (s : State) (i : Nat) (f : Inst → Inst) : (s.modInst i f).armed = s.armed := rfl
@[simp] theorem State.modInst_fwDigest (s : State) (i : Nat) (f : Inst → Inst) : (s.modInst i f).fwDigest = s.fwDigest := rfl
@[simp] theorem State.modInst_fwStaged (s : State) (i : Nat) (f : Inst → Inst) : (s.modInst i f).fwStaged = s.fwStaged := rfl
@[simp] theorem State.modInst_hbm (s : State) (i : Nat) (f : Inst → Inst) : (s.modInst i f).hbm = s.hbm := rfl
@[simp] theorem State.modInst_hbmBad (s : State) (i : Nat) (f : Inst → Inst) : (s.modInst i f).hbmBad = s.hbmBad := rfl
@[simp] theorem State.modInst_frames (s : State) (i : Nat) (f : Inst → Inst) : (s.modInst i f).frames = s.frames := rfl
@[simp] theorem State.modInst_host (s : State) (i : Nat) (f : Inst → Inst) : (s.modInst i f).host = s.host := rfl
@[simp] theorem State.modInst_iommu (s : State) (i : Nat) (f : Inst → Inst) : (s.modInst i f).iommu = s.iommu := rfl
@[simp] theorem State.modInst_phys (s : State) (i : Nat) (f : Inst → Inst) : (s.modInst i f).phys = s.phys := rfl
@[simp] theorem State.modInst_plots (s : State) (i : Nat) (f : Inst → Inst) : (s.modInst i f).plots = s.plots := rfl
@[simp] theorem State.modInst_gens (s : State) (i : Nat) (f : Inst → Inst) : (s.modInst i f).gens = s.gens := rfl
@[simp] theorem State.modInst_islands (s : State) (i : Nat) (f : Inst → Inst) : (s.modInst i f).islands = s.islands := rfl
@[simp] theorem State.modInst_power (s : State) (i : Nat) (f : Inst → Inst) : (s.modInst i f).power = s.power := rfl
@[simp] theorem State.modInst_floorBreaches (s : State) (i : Nat) (f : Inst → Inst) : (s.modInst i f).floorBreaches = s.floorBreaches := rfl
@[simp] theorem State.modInst_cmdRing (s : State) (i : Nat) (f : Inst → Inst) : (s.modInst i f).cmdRing = s.cmdRing := rfl
@[simp] theorem State.modInst_complRing (s : State) (i : Nat) (f : Inst → Inst) : (s.modInst i f).complRing = s.complRing := rfl
@[simp] theorem State.modInst_drawn (s : State) (i : Nat) (f : Inst → Inst) : (s.modInst i f).drawn = s.drawn := rfl
@[simp] theorem State.modInst_handles (s : State) (i : Nat) (f : Inst → Inst) : (s.modInst i f).handles = s.handles := rfl
@[simp] theorem State.modInst_keysDrawn (s : State) (i : Nat) (f : Inst → Inst) : (s.modInst i f).keysDrawn = s.keysDrawn := rfl
@[simp] theorem State.modInst_ctxs (s : State) (i : Nat) (f : Inst → Inst) : (s.modInst i f).ctxs = s.ctxs := rfl
@[simp] theorem State.modInst_copy (s : State) (i : Nat) (f : Inst → Inst) : (s.modInst i f).copy = s.copy := rfl
@[simp] theorem State.modInst_ports (s : State) (i : Nat) (f : Inst → Inst) : (s.modInst i f).ports = s.ports := rfl
@[simp] theorem State.modInst_replies (s : State) (i : Nat) (f : Inst → Inst) : (s.modInst i f).replies = s.replies := rfl

/-! ### modTile -/

@[simp] theorem State.modTile_now (s : State) (i t : Nat) (f : Tile → Tile) : (s.modTile i t f).now = s.now := rfl
@[simp] theorem State.modTile_dies (s : State) (i t : Nat) (f : Tile → Tile) : (s.modTile i t f).dies = s.dies := rfl
@[simp] theorem State.modTile_hbmFrames (s : State) (i t : Nat) (f : Tile → Tile) : (s.modTile i t f).hbmFrames = s.hbmFrames := rfl
@[simp] theorem State.modTile_linkGens (s : State) (i t : Nat) (f : Tile → Tile) : (s.modTile i t f).linkGens = s.linkGens := rfl
@[simp] theorem State.modTile_junction (s : State) (i t : Nat) (f : Tile → Tile) : (s.modTile i t f).junction = s.junction := rfl
@[simp] theorem State.modTile_arrivals (s : State) (i t : Nat) (f : Tile → Tile) : (s.modTile i t f).arrivals = s.arrivals := rfl
@[simp] theorem State.modTile_classOf (s : State) (i t : Nat) (f : Tile → Tile) : (s.modTile i t f).classOf = s.classOf := rfl
@[simp] theorem State.modTile_aborts (s : State) (i t : Nat) (f : Tile → Tile) : (s.modTile i t f).aborts = s.aborts := rfl
@[simp] theorem State.modTile_agenda (s : State) (i t : Nat) (f : Tile → Tile) : (s.modTile i t f).agenda = s.agenda := rfl
@[simp] theorem State.modTile_focus (s : State) (i t : Nat) (f : Tile → Tile) : (s.modTile i t f).focus = s.focus := rfl
@[simp] theorem State.modTile_boot (s : State) (i t : Nat) (f : Tile → Tile) : (s.modTile i t f).boot = s.boot := rfl
@[simp] theorem State.modTile_locked (s : State) (i t : Nat) (f : Tile → Tile) : (s.modTile i t f).locked = s.locked := rfl
@[simp] theorem State.modTile_armed (s : State) (i t : Nat) (f : Tile → Tile) : (s.modTile i t f).armed = s.armed := rfl
@[simp] theorem State.modTile_fwDigest (s : State) (i t : Nat) (f : Tile → Tile) : (s.modTile i t f).fwDigest = s.fwDigest := rfl
@[simp] theorem State.modTile_fwStaged (s : State) (i t : Nat) (f : Tile → Tile) : (s.modTile i t f).fwStaged = s.fwStaged := rfl
@[simp] theorem State.modTile_hbm (s : State) (i t : Nat) (f : Tile → Tile) : (s.modTile i t f).hbm = s.hbm := rfl
@[simp] theorem State.modTile_hbmBad (s : State) (i t : Nat) (f : Tile → Tile) : (s.modTile i t f).hbmBad = s.hbmBad := rfl
@[simp] theorem State.modTile_frames (s : State) (i t : Nat) (f : Tile → Tile) : (s.modTile i t f).frames = s.frames := rfl
@[simp] theorem State.modTile_host (s : State) (i t : Nat) (f : Tile → Tile) : (s.modTile i t f).host = s.host := rfl
@[simp] theorem State.modTile_iommu (s : State) (i t : Nat) (f : Tile → Tile) : (s.modTile i t f).iommu = s.iommu := rfl
@[simp] theorem State.modTile_phys (s : State) (i t : Nat) (f : Tile → Tile) : (s.modTile i t f).phys = s.phys := rfl
@[simp] theorem State.modTile_plots (s : State) (i t : Nat) (f : Tile → Tile) : (s.modTile i t f).plots = s.plots := rfl
@[simp] theorem State.modTile_gens (s : State) (i t : Nat) (f : Tile → Tile) : (s.modTile i t f).gens = s.gens := rfl
@[simp] theorem State.modTile_islands (s : State) (i t : Nat) (f : Tile → Tile) : (s.modTile i t f).islands = s.islands := rfl
@[simp] theorem State.modTile_power (s : State) (i t : Nat) (f : Tile → Tile) : (s.modTile i t f).power = s.power := rfl
@[simp] theorem State.modTile_floorBreaches (s : State) (i t : Nat) (f : Tile → Tile) : (s.modTile i t f).floorBreaches = s.floorBreaches := rfl
@[simp] theorem State.modTile_cmdRing (s : State) (i t : Nat) (f : Tile → Tile) : (s.modTile i t f).cmdRing = s.cmdRing := rfl
@[simp] theorem State.modTile_complRing (s : State) (i t : Nat) (f : Tile → Tile) : (s.modTile i t f).complRing = s.complRing := rfl
@[simp] theorem State.modTile_drawn (s : State) (i t : Nat) (f : Tile → Tile) : (s.modTile i t f).drawn = s.drawn := rfl
@[simp] theorem State.modTile_handles (s : State) (i t : Nat) (f : Tile → Tile) : (s.modTile i t f).handles = s.handles := rfl
@[simp] theorem State.modTile_keysDrawn (s : State) (i t : Nat) (f : Tile → Tile) : (s.modTile i t f).keysDrawn = s.keysDrawn := rfl
@[simp] theorem State.modTile_ctxs (s : State) (i t : Nat) (f : Tile → Tile) : (s.modTile i t f).ctxs = s.ctxs := rfl
@[simp] theorem State.modTile_copy (s : State) (i t : Nat) (f : Tile → Tile) : (s.modTile i t f).copy = s.copy := rfl
@[simp] theorem State.modTile_ports (s : State) (i t : Nat) (f : Tile → Tile) : (s.modTile i t f).ports = s.ports := rfl
@[simp] theorem State.modTile_replies (s : State) (i t : Nat) (f : Tile → Tile) : (s.modTile i t f).replies = s.replies := rfl

/-! ### modFocus -/

@[simp] theorem State.modFocus_now (s : State) (f : Tile → Tile) : (s.modFocus f).now = s.now := rfl
@[simp] theorem State.modFocus_dies (s : State) (f : Tile → Tile) : (s.modFocus f).dies = s.dies := rfl
@[simp] theorem State.modFocus_hbmFrames (s : State) (f : Tile → Tile) : (s.modFocus f).hbmFrames = s.hbmFrames := rfl
@[simp] theorem State.modFocus_linkGens (s : State) (f : Tile → Tile) : (s.modFocus f).linkGens = s.linkGens := rfl
@[simp] theorem State.modFocus_junction (s : State) (f : Tile → Tile) : (s.modFocus f).junction = s.junction := rfl
@[simp] theorem State.modFocus_arrivals (s : State) (f : Tile → Tile) : (s.modFocus f).arrivals = s.arrivals := rfl
@[simp] theorem State.modFocus_classOf (s : State) (f : Tile → Tile) : (s.modFocus f).classOf = s.classOf := rfl
@[simp] theorem State.modFocus_aborts (s : State) (f : Tile → Tile) : (s.modFocus f).aborts = s.aborts := rfl
@[simp] theorem State.modFocus_agenda (s : State) (f : Tile → Tile) : (s.modFocus f).agenda = s.agenda := rfl
@[simp] theorem State.modFocus_focus (s : State) (f : Tile → Tile) : (s.modFocus f).focus = s.focus := rfl
@[simp] theorem State.modFocus_boot (s : State) (f : Tile → Tile) : (s.modFocus f).boot = s.boot := rfl
@[simp] theorem State.modFocus_locked (s : State) (f : Tile → Tile) : (s.modFocus f).locked = s.locked := rfl
@[simp] theorem State.modFocus_armed (s : State) (f : Tile → Tile) : (s.modFocus f).armed = s.armed := rfl
@[simp] theorem State.modFocus_fwDigest (s : State) (f : Tile → Tile) : (s.modFocus f).fwDigest = s.fwDigest := rfl
@[simp] theorem State.modFocus_fwStaged (s : State) (f : Tile → Tile) : (s.modFocus f).fwStaged = s.fwStaged := rfl
@[simp] theorem State.modFocus_hbm (s : State) (f : Tile → Tile) : (s.modFocus f).hbm = s.hbm := rfl
@[simp] theorem State.modFocus_hbmBad (s : State) (f : Tile → Tile) : (s.modFocus f).hbmBad = s.hbmBad := rfl
@[simp] theorem State.modFocus_frames (s : State) (f : Tile → Tile) : (s.modFocus f).frames = s.frames := rfl
@[simp] theorem State.modFocus_host (s : State) (f : Tile → Tile) : (s.modFocus f).host = s.host := rfl
@[simp] theorem State.modFocus_iommu (s : State) (f : Tile → Tile) : (s.modFocus f).iommu = s.iommu := rfl
@[simp] theorem State.modFocus_phys (s : State) (f : Tile → Tile) : (s.modFocus f).phys = s.phys := rfl
@[simp] theorem State.modFocus_plots (s : State) (f : Tile → Tile) : (s.modFocus f).plots = s.plots := rfl
@[simp] theorem State.modFocus_gens (s : State) (f : Tile → Tile) : (s.modFocus f).gens = s.gens := rfl
@[simp] theorem State.modFocus_islands (s : State) (f : Tile → Tile) : (s.modFocus f).islands = s.islands := rfl
@[simp] theorem State.modFocus_power (s : State) (f : Tile → Tile) : (s.modFocus f).power = s.power := rfl
@[simp] theorem State.modFocus_floorBreaches (s : State) (f : Tile → Tile) : (s.modFocus f).floorBreaches = s.floorBreaches := rfl
@[simp] theorem State.modFocus_cmdRing (s : State) (f : Tile → Tile) : (s.modFocus f).cmdRing = s.cmdRing := rfl
@[simp] theorem State.modFocus_complRing (s : State) (f : Tile → Tile) : (s.modFocus f).complRing = s.complRing := rfl
@[simp] theorem State.modFocus_drawn (s : State) (f : Tile → Tile) : (s.modFocus f).drawn = s.drawn := rfl
@[simp] theorem State.modFocus_handles (s : State) (f : Tile → Tile) : (s.modFocus f).handles = s.handles := rfl
@[simp] theorem State.modFocus_keysDrawn (s : State) (f : Tile → Tile) : (s.modFocus f).keysDrawn = s.keysDrawn := rfl
@[simp] theorem State.modFocus_ctxs (s : State) (f : Tile → Tile) : (s.modFocus f).ctxs = s.ctxs := rfl
@[simp] theorem State.modFocus_copy (s : State) (f : Tile → Tile) : (s.modFocus f).copy = s.copy := rfl
@[simp] theorem State.modFocus_ports (s : State) (f : Tile → Tile) : (s.modFocus f).ports = s.ports := rfl
@[simp] theorem State.modFocus_replies (s : State) (f : Tile → Tile) : (s.modFocus f).replies = s.replies := rfl

/-! ### setBlock -/

@[simp] theorem State.setBlock_now (s : State) (b : Block) : (s.setBlock b).now = s.now := rfl
@[simp] theorem State.setBlock_dies (s : State) (b : Block) : (s.setBlock b).dies = s.dies := rfl
@[simp] theorem State.setBlock_hbmFrames (s : State) (b : Block) : (s.setBlock b).hbmFrames = s.hbmFrames := rfl
@[simp] theorem State.setBlock_linkGens (s : State) (b : Block) : (s.setBlock b).linkGens = s.linkGens := rfl
@[simp] theorem State.setBlock_junction (s : State) (b : Block) : (s.setBlock b).junction = s.junction := rfl
@[simp] theorem State.setBlock_arrivals (s : State) (b : Block) : (s.setBlock b).arrivals = s.arrivals := rfl
@[simp] theorem State.setBlock_classOf (s : State) (b : Block) : (s.setBlock b).classOf = s.classOf := rfl
@[simp] theorem State.setBlock_aborts (s : State) (b : Block) : (s.setBlock b).aborts = s.aborts := rfl
@[simp] theorem State.setBlock_agenda (s : State) (b : Block) : (s.setBlock b).agenda = s.agenda := rfl
@[simp] theorem State.setBlock_focus (s : State) (b : Block) : (s.setBlock b).focus = s.focus := rfl
@[simp] theorem State.setBlock_boot (s : State) (b : Block) : (s.setBlock b).boot = s.boot := rfl
@[simp] theorem State.setBlock_locked (s : State) (b : Block) : (s.setBlock b).locked = s.locked := rfl
@[simp] theorem State.setBlock_armed (s : State) (b : Block) : (s.setBlock b).armed = s.armed := rfl
@[simp] theorem State.setBlock_fwDigest (s : State) (b : Block) : (s.setBlock b).fwDigest = s.fwDigest := rfl
@[simp] theorem State.setBlock_fwStaged (s : State) (b : Block) : (s.setBlock b).fwStaged = s.fwStaged := rfl
@[simp] theorem State.setBlock_hbm (s : State) (b : Block) : (s.setBlock b).hbm = s.hbm := rfl
@[simp] theorem State.setBlock_hbmBad (s : State) (b : Block) : (s.setBlock b).hbmBad = s.hbmBad := rfl
@[simp] theorem State.setBlock_frames (s : State) (b : Block) : (s.setBlock b).frames = s.frames := rfl
@[simp] theorem State.setBlock_host (s : State) (b : Block) : (s.setBlock b).host = s.host := rfl
@[simp] theorem State.setBlock_iommu (s : State) (b : Block) : (s.setBlock b).iommu = s.iommu := rfl
@[simp] theorem State.setBlock_phys (s : State) (b : Block) : (s.setBlock b).phys = s.phys := rfl
@[simp] theorem State.setBlock_plots (s : State) (b : Block) : (s.setBlock b).plots = s.plots := rfl
@[simp] theorem State.setBlock_gens (s : State) (b : Block) : (s.setBlock b).gens = s.gens := rfl
@[simp] theorem State.setBlock_islands (s : State) (b : Block) : (s.setBlock b).islands = s.islands := rfl
@[simp] theorem State.setBlock_power (s : State) (b : Block) : (s.setBlock b).power = s.power := rfl
@[simp] theorem State.setBlock_floorBreaches (s : State) (b : Block) : (s.setBlock b).floorBreaches = s.floorBreaches := rfl
@[simp] theorem State.setBlock_cmdRing (s : State) (b : Block) : (s.setBlock b).cmdRing = s.cmdRing := rfl
@[simp] theorem State.setBlock_complRing (s : State) (b : Block) : (s.setBlock b).complRing = s.complRing := rfl
@[simp] theorem State.setBlock_drawn (s : State) (b : Block) : (s.setBlock b).drawn = s.drawn := rfl
@[simp] theorem State.setBlock_handles (s : State) (b : Block) : (s.setBlock b).handles = s.handles := rfl
@[simp] theorem State.setBlock_keysDrawn (s : State) (b : Block) : (s.setBlock b).keysDrawn = s.keysDrawn := rfl
@[simp] theorem State.setBlock_ctxs (s : State) (b : Block) : (s.setBlock b).ctxs = s.ctxs := rfl
@[simp] theorem State.setBlock_copy (s : State) (b : Block) : (s.setBlock b).copy = s.copy := rfl
@[simp] theorem State.setBlock_ports (s : State) (b : Block) : (s.setBlock b).ports = s.ports := rfl
@[simp] theorem State.setBlock_replies (s : State) (b : Block) : (s.setBlock b).replies = s.replies := rfl

/-! ### modCtx -/

@[simp] theorem State.modCtx_now (s : State) (tag : Byte) (f : Context → Context) : (s.modCtx tag f).now = s.now := rfl
@[simp] theorem State.modCtx_dies (s : State) (tag : Byte) (f : Context → Context) : (s.modCtx tag f).dies = s.dies := rfl
@[simp] theorem State.modCtx_hbmFrames (s : State) (tag : Byte) (f : Context → Context) : (s.modCtx tag f).hbmFrames = s.hbmFrames := rfl
@[simp] theorem State.modCtx_linkGens (s : State) (tag : Byte) (f : Context → Context) : (s.modCtx tag f).linkGens = s.linkGens := rfl
@[simp] theorem State.modCtx_junction (s : State) (tag : Byte) (f : Context → Context) : (s.modCtx tag f).junction = s.junction := rfl
@[simp] theorem State.modCtx_arrivals (s : State) (tag : Byte) (f : Context → Context) : (s.modCtx tag f).arrivals = s.arrivals := rfl
@[simp] theorem State.modCtx_classOf (s : State) (tag : Byte) (f : Context → Context) : (s.modCtx tag f).classOf = s.classOf := rfl
@[simp] theorem State.modCtx_aborts (s : State) (tag : Byte) (f : Context → Context) : (s.modCtx tag f).aborts = s.aborts := rfl
@[simp] theorem State.modCtx_agenda (s : State) (tag : Byte) (f : Context → Context) : (s.modCtx tag f).agenda = s.agenda := rfl
@[simp] theorem State.modCtx_focus (s : State) (tag : Byte) (f : Context → Context) : (s.modCtx tag f).focus = s.focus := rfl
@[simp] theorem State.modCtx_boot (s : State) (tag : Byte) (f : Context → Context) : (s.modCtx tag f).boot = s.boot := rfl
@[simp] theorem State.modCtx_locked (s : State) (tag : Byte) (f : Context → Context) : (s.modCtx tag f).locked = s.locked := rfl
@[simp] theorem State.modCtx_armed (s : State) (tag : Byte) (f : Context → Context) : (s.modCtx tag f).armed = s.armed := rfl
@[simp] theorem State.modCtx_fwDigest (s : State) (tag : Byte) (f : Context → Context) : (s.modCtx tag f).fwDigest = s.fwDigest := rfl
@[simp] theorem State.modCtx_fwStaged (s : State) (tag : Byte) (f : Context → Context) : (s.modCtx tag f).fwStaged = s.fwStaged := rfl
@[simp] theorem State.modCtx_hbm (s : State) (tag : Byte) (f : Context → Context) : (s.modCtx tag f).hbm = s.hbm := rfl
@[simp] theorem State.modCtx_hbmBad (s : State) (tag : Byte) (f : Context → Context) : (s.modCtx tag f).hbmBad = s.hbmBad := rfl
@[simp] theorem State.modCtx_frames (s : State) (tag : Byte) (f : Context → Context) : (s.modCtx tag f).frames = s.frames := rfl
@[simp] theorem State.modCtx_host (s : State) (tag : Byte) (f : Context → Context) : (s.modCtx tag f).host = s.host := rfl
@[simp] theorem State.modCtx_iommu (s : State) (tag : Byte) (f : Context → Context) : (s.modCtx tag f).iommu = s.iommu := rfl
@[simp] theorem State.modCtx_phys (s : State) (tag : Byte) (f : Context → Context) : (s.modCtx tag f).phys = s.phys := rfl
@[simp] theorem State.modCtx_plots (s : State) (tag : Byte) (f : Context → Context) : (s.modCtx tag f).plots = s.plots := rfl
@[simp] theorem State.modCtx_gens (s : State) (tag : Byte) (f : Context → Context) : (s.modCtx tag f).gens = s.gens := rfl
@[simp] theorem State.modCtx_islands (s : State) (tag : Byte) (f : Context → Context) : (s.modCtx tag f).islands = s.islands := rfl
@[simp] theorem State.modCtx_power (s : State) (tag : Byte) (f : Context → Context) : (s.modCtx tag f).power = s.power := rfl
@[simp] theorem State.modCtx_floorBreaches (s : State) (tag : Byte) (f : Context → Context) : (s.modCtx tag f).floorBreaches = s.floorBreaches := rfl
@[simp] theorem State.modCtx_cmdRing (s : State) (tag : Byte) (f : Context → Context) : (s.modCtx tag f).cmdRing = s.cmdRing := rfl
@[simp] theorem State.modCtx_complRing (s : State) (tag : Byte) (f : Context → Context) : (s.modCtx tag f).complRing = s.complRing := rfl
@[simp] theorem State.modCtx_drawn (s : State) (tag : Byte) (f : Context → Context) : (s.modCtx tag f).drawn = s.drawn := rfl
@[simp] theorem State.modCtx_handles (s : State) (tag : Byte) (f : Context → Context) : (s.modCtx tag f).handles = s.handles := rfl
@[simp] theorem State.modCtx_keysDrawn (s : State) (tag : Byte) (f : Context → Context) : (s.modCtx tag f).keysDrawn = s.keysDrawn := rfl
@[simp] theorem State.modCtx_insts (s : State) (tag : Byte) (f : Context → Context) : (s.modCtx tag f).insts = s.insts := rfl
@[simp] theorem State.modCtx_copy (s : State) (tag : Byte) (f : Context → Context) : (s.modCtx tag f).copy = s.copy := rfl
@[simp] theorem State.modCtx_ports (s : State) (tag : Byte) (f : Context → Context) : (s.modCtx tag f).ports = s.ports := rfl
@[simp] theorem State.modCtx_replies (s : State) (tag : Byte) (f : Context → Context) : (s.modCtx tag f).replies = s.replies := rfl

/-! ### count -/

@[simp] theorem State.count_now (s : State) (tag : Byte) (id n : Nat) : (s.count tag id n).now = s.now := rfl
@[simp] theorem State.count_dies (s : State) (tag : Byte) (id n : Nat) : (s.count tag id n).dies = s.dies := rfl
@[simp] theorem State.count_hbmFrames (s : State) (tag : Byte) (id n : Nat) : (s.count tag id n).hbmFrames = s.hbmFrames := rfl
@[simp] theorem State.count_linkGens (s : State) (tag : Byte) (id n : Nat) : (s.count tag id n).linkGens = s.linkGens := rfl
@[simp] theorem State.count_junction (s : State) (tag : Byte) (id n : Nat) : (s.count tag id n).junction = s.junction := rfl
@[simp] theorem State.count_arrivals (s : State) (tag : Byte) (id n : Nat) : (s.count tag id n).arrivals = s.arrivals := rfl
@[simp] theorem State.count_classOf (s : State) (tag : Byte) (id n : Nat) : (s.count tag id n).classOf = s.classOf := rfl
@[simp] theorem State.count_aborts (s : State) (tag : Byte) (id n : Nat) : (s.count tag id n).aborts = s.aborts := rfl
@[simp] theorem State.count_agenda (s : State) (tag : Byte) (id n : Nat) : (s.count tag id n).agenda = s.agenda := rfl
@[simp] theorem State.count_focus (s : State) (tag : Byte) (id n : Nat) : (s.count tag id n).focus = s.focus := rfl
@[simp] theorem State.count_boot (s : State) (tag : Byte) (id n : Nat) : (s.count tag id n).boot = s.boot := rfl
@[simp] theorem State.count_locked (s : State) (tag : Byte) (id n : Nat) : (s.count tag id n).locked = s.locked := rfl
@[simp] theorem State.count_armed (s : State) (tag : Byte) (id n : Nat) : (s.count tag id n).armed = s.armed := rfl
@[simp] theorem State.count_fwDigest (s : State) (tag : Byte) (id n : Nat) : (s.count tag id n).fwDigest = s.fwDigest := rfl
@[simp] theorem State.count_fwStaged (s : State) (tag : Byte) (id n : Nat) : (s.count tag id n).fwStaged = s.fwStaged := rfl
@[simp] theorem State.count_hbm (s : State) (tag : Byte) (id n : Nat) : (s.count tag id n).hbm = s.hbm := rfl
@[simp] theorem State.count_hbmBad (s : State) (tag : Byte) (id n : Nat) : (s.count tag id n).hbmBad = s.hbmBad := rfl
@[simp] theorem State.count_frames (s : State) (tag : Byte) (id n : Nat) : (s.count tag id n).frames = s.frames := rfl
@[simp] theorem State.count_host (s : State) (tag : Byte) (id n : Nat) : (s.count tag id n).host = s.host := rfl
@[simp] theorem State.count_iommu (s : State) (tag : Byte) (id n : Nat) : (s.count tag id n).iommu = s.iommu := rfl
@[simp] theorem State.count_phys (s : State) (tag : Byte) (id n : Nat) : (s.count tag id n).phys = s.phys := rfl
@[simp] theorem State.count_plots (s : State) (tag : Byte) (id n : Nat) : (s.count tag id n).plots = s.plots := rfl
@[simp] theorem State.count_gens (s : State) (tag : Byte) (id n : Nat) : (s.count tag id n).gens = s.gens := rfl
@[simp] theorem State.count_islands (s : State) (tag : Byte) (id n : Nat) : (s.count tag id n).islands = s.islands := rfl
@[simp] theorem State.count_power (s : State) (tag : Byte) (id n : Nat) : (s.count tag id n).power = s.power := rfl
@[simp] theorem State.count_floorBreaches (s : State) (tag : Byte) (id n : Nat) : (s.count tag id n).floorBreaches = s.floorBreaches := rfl
@[simp] theorem State.count_cmdRing (s : State) (tag : Byte) (id n : Nat) : (s.count tag id n).cmdRing = s.cmdRing := rfl
@[simp] theorem State.count_complRing (s : State) (tag : Byte) (id n : Nat) : (s.count tag id n).complRing = s.complRing := rfl
@[simp] theorem State.count_drawn (s : State) (tag : Byte) (id n : Nat) : (s.count tag id n).drawn = s.drawn := rfl
@[simp] theorem State.count_handles (s : State) (tag : Byte) (id n : Nat) : (s.count tag id n).handles = s.handles := rfl
@[simp] theorem State.count_keysDrawn (s : State) (tag : Byte) (id n : Nat) : (s.count tag id n).keysDrawn = s.keysDrawn := rfl
@[simp] theorem State.count_insts (s : State) (tag : Byte) (id n : Nat) : (s.count tag id n).insts = s.insts := rfl
@[simp] theorem State.count_copy (s : State) (tag : Byte) (id n : Nat) : (s.count tag id n).copy = s.copy := rfl
@[simp] theorem State.count_ports (s : State) (tag : Byte) (id n : Nat) : (s.count tag id n).ports = s.ports := rfl
@[simp] theorem State.count_replies (s : State) (tag : Byte) (id n : Nat) : (s.count tag id n).replies = s.replies := rfl

/-! ### modPhys -/

@[simp] theorem State.modPhys_now (s : State) (p : Nat) (f : Phys → Phys) : (s.modPhys p f).now = s.now := rfl
@[simp] theorem State.modPhys_dies (s : State) (p : Nat) (f : Phys → Phys) : (s.modPhys p f).dies = s.dies := rfl
@[simp] theorem State.modPhys_hbmFrames (s : State) (p : Nat) (f : Phys → Phys) : (s.modPhys p f).hbmFrames = s.hbmFrames := rfl
@[simp] theorem State.modPhys_linkGens (s : State) (p : Nat) (f : Phys → Phys) : (s.modPhys p f).linkGens = s.linkGens := rfl
@[simp] theorem State.modPhys_junction (s : State) (p : Nat) (f : Phys → Phys) : (s.modPhys p f).junction = s.junction := rfl
@[simp] theorem State.modPhys_arrivals (s : State) (p : Nat) (f : Phys → Phys) : (s.modPhys p f).arrivals = s.arrivals := rfl
@[simp] theorem State.modPhys_classOf (s : State) (p : Nat) (f : Phys → Phys) : (s.modPhys p f).classOf = s.classOf := rfl
@[simp] theorem State.modPhys_aborts (s : State) (p : Nat) (f : Phys → Phys) : (s.modPhys p f).aborts = s.aborts := rfl
@[simp] theorem State.modPhys_agenda (s : State) (p : Nat) (f : Phys → Phys) : (s.modPhys p f).agenda = s.agenda := rfl
@[simp] theorem State.modPhys_focus (s : State) (p : Nat) (f : Phys → Phys) : (s.modPhys p f).focus = s.focus := rfl
@[simp] theorem State.modPhys_boot (s : State) (p : Nat) (f : Phys → Phys) : (s.modPhys p f).boot = s.boot := rfl
@[simp] theorem State.modPhys_locked (s : State) (p : Nat) (f : Phys → Phys) : (s.modPhys p f).locked = s.locked := rfl
@[simp] theorem State.modPhys_armed (s : State) (p : Nat) (f : Phys → Phys) : (s.modPhys p f).armed = s.armed := rfl
@[simp] theorem State.modPhys_fwDigest (s : State) (p : Nat) (f : Phys → Phys) : (s.modPhys p f).fwDigest = s.fwDigest := rfl
@[simp] theorem State.modPhys_fwStaged (s : State) (p : Nat) (f : Phys → Phys) : (s.modPhys p f).fwStaged = s.fwStaged := rfl
@[simp] theorem State.modPhys_hbm (s : State) (p : Nat) (f : Phys → Phys) : (s.modPhys p f).hbm = s.hbm := rfl
@[simp] theorem State.modPhys_hbmBad (s : State) (p : Nat) (f : Phys → Phys) : (s.modPhys p f).hbmBad = s.hbmBad := rfl
@[simp] theorem State.modPhys_frames (s : State) (p : Nat) (f : Phys → Phys) : (s.modPhys p f).frames = s.frames := rfl
@[simp] theorem State.modPhys_host (s : State) (p : Nat) (f : Phys → Phys) : (s.modPhys p f).host = s.host := rfl
@[simp] theorem State.modPhys_iommu (s : State) (p : Nat) (f : Phys → Phys) : (s.modPhys p f).iommu = s.iommu := rfl
@[simp] theorem State.modPhys_plots (s : State) (p : Nat) (f : Phys → Phys) : (s.modPhys p f).plots = s.plots := rfl
@[simp] theorem State.modPhys_gens (s : State) (p : Nat) (f : Phys → Phys) : (s.modPhys p f).gens = s.gens := rfl
@[simp] theorem State.modPhys_islands (s : State) (p : Nat) (f : Phys → Phys) : (s.modPhys p f).islands = s.islands := rfl
@[simp] theorem State.modPhys_power (s : State) (p : Nat) (f : Phys → Phys) : (s.modPhys p f).power = s.power := rfl
@[simp] theorem State.modPhys_floorBreaches (s : State) (p : Nat) (f : Phys → Phys) : (s.modPhys p f).floorBreaches = s.floorBreaches := rfl
@[simp] theorem State.modPhys_cmdRing (s : State) (p : Nat) (f : Phys → Phys) : (s.modPhys p f).cmdRing = s.cmdRing := rfl
@[simp] theorem State.modPhys_complRing (s : State) (p : Nat) (f : Phys → Phys) : (s.modPhys p f).complRing = s.complRing := rfl
@[simp] theorem State.modPhys_drawn (s : State) (p : Nat) (f : Phys → Phys) : (s.modPhys p f).drawn = s.drawn := rfl
@[simp] theorem State.modPhys_handles (s : State) (p : Nat) (f : Phys → Phys) : (s.modPhys p f).handles = s.handles := rfl
@[simp] theorem State.modPhys_keysDrawn (s : State) (p : Nat) (f : Phys → Phys) : (s.modPhys p f).keysDrawn = s.keysDrawn := rfl
@[simp] theorem State.modPhys_ctxs (s : State) (p : Nat) (f : Phys → Phys) : (s.modPhys p f).ctxs = s.ctxs := rfl
@[simp] theorem State.modPhys_insts (s : State) (p : Nat) (f : Phys → Phys) : (s.modPhys p f).insts = s.insts := rfl
@[simp] theorem State.modPhys_copy (s : State) (p : Nat) (f : Phys → Phys) : (s.modPhys p f).copy = s.copy := rfl
@[simp] theorem State.modPhys_ports (s : State) (p : Nat) (f : Phys → Phys) : (s.modPhys p f).ports = s.ports := rfl
@[simp] theorem State.modPhys_replies (s : State) (p : Nat) (f : Phys → Phys) : (s.modPhys p f).replies = s.replies := rfl

/-! ### tagPhys -/

@[simp] theorem State.tagPhys_now (s : State) (p : Nat) (tag : Byte) : (s.tagPhys p tag).now = s.now := rfl
@[simp] theorem State.tagPhys_dies (s : State) (p : Nat) (tag : Byte) : (s.tagPhys p tag).dies = s.dies := rfl
@[simp] theorem State.tagPhys_hbmFrames (s : State) (p : Nat) (tag : Byte) : (s.tagPhys p tag).hbmFrames = s.hbmFrames := rfl
@[simp] theorem State.tagPhys_linkGens (s : State) (p : Nat) (tag : Byte) : (s.tagPhys p tag).linkGens = s.linkGens := rfl
@[simp] theorem State.tagPhys_junction (s : State) (p : Nat) (tag : Byte) : (s.tagPhys p tag).junction = s.junction := rfl
@[simp] theorem State.tagPhys_arrivals (s : State) (p : Nat) (tag : Byte) : (s.tagPhys p tag).arrivals = s.arrivals := rfl
@[simp] theorem State.tagPhys_classOf (s : State) (p : Nat) (tag : Byte) : (s.tagPhys p tag).classOf = s.classOf := rfl
@[simp] theorem State.tagPhys_aborts (s : State) (p : Nat) (tag : Byte) : (s.tagPhys p tag).aborts = s.aborts := rfl
@[simp] theorem State.tagPhys_agenda (s : State) (p : Nat) (tag : Byte) : (s.tagPhys p tag).agenda = s.agenda := rfl
@[simp] theorem State.tagPhys_focus (s : State) (p : Nat) (tag : Byte) : (s.tagPhys p tag).focus = s.focus := rfl
@[simp] theorem State.tagPhys_boot (s : State) (p : Nat) (tag : Byte) : (s.tagPhys p tag).boot = s.boot := rfl
@[simp] theorem State.tagPhys_locked (s : State) (p : Nat) (tag : Byte) : (s.tagPhys p tag).locked = s.locked := rfl
@[simp] theorem State.tagPhys_armed (s : State) (p : Nat) (tag : Byte) : (s.tagPhys p tag).armed = s.armed := rfl
@[simp] theorem State.tagPhys_fwDigest (s : State) (p : Nat) (tag : Byte) : (s.tagPhys p tag).fwDigest = s.fwDigest := rfl
@[simp] theorem State.tagPhys_fwStaged (s : State) (p : Nat) (tag : Byte) : (s.tagPhys p tag).fwStaged = s.fwStaged := rfl
@[simp] theorem State.tagPhys_hbm (s : State) (p : Nat) (tag : Byte) : (s.tagPhys p tag).hbm = s.hbm := rfl
@[simp] theorem State.tagPhys_hbmBad (s : State) (p : Nat) (tag : Byte) : (s.tagPhys p tag).hbmBad = s.hbmBad := rfl
@[simp] theorem State.tagPhys_frames (s : State) (p : Nat) (tag : Byte) : (s.tagPhys p tag).frames = s.frames := rfl
@[simp] theorem State.tagPhys_host (s : State) (p : Nat) (tag : Byte) : (s.tagPhys p tag).host = s.host := rfl
@[simp] theorem State.tagPhys_iommu (s : State) (p : Nat) (tag : Byte) : (s.tagPhys p tag).iommu = s.iommu := rfl
@[simp] theorem State.tagPhys_plots (s : State) (p : Nat) (tag : Byte) : (s.tagPhys p tag).plots = s.plots := rfl
@[simp] theorem State.tagPhys_gens (s : State) (p : Nat) (tag : Byte) : (s.tagPhys p tag).gens = s.gens := rfl
@[simp] theorem State.tagPhys_islands (s : State) (p : Nat) (tag : Byte) : (s.tagPhys p tag).islands = s.islands := rfl
@[simp] theorem State.tagPhys_power (s : State) (p : Nat) (tag : Byte) : (s.tagPhys p tag).power = s.power := rfl
@[simp] theorem State.tagPhys_floorBreaches (s : State) (p : Nat) (tag : Byte) : (s.tagPhys p tag).floorBreaches = s.floorBreaches := rfl
@[simp] theorem State.tagPhys_cmdRing (s : State) (p : Nat) (tag : Byte) : (s.tagPhys p tag).cmdRing = s.cmdRing := rfl
@[simp] theorem State.tagPhys_complRing (s : State) (p : Nat) (tag : Byte) : (s.tagPhys p tag).complRing = s.complRing := rfl
@[simp] theorem State.tagPhys_drawn (s : State) (p : Nat) (tag : Byte) : (s.tagPhys p tag).drawn = s.drawn := rfl
@[simp] theorem State.tagPhys_handles (s : State) (p : Nat) (tag : Byte) : (s.tagPhys p tag).handles = s.handles := rfl
@[simp] theorem State.tagPhys_keysDrawn (s : State) (p : Nat) (tag : Byte) : (s.tagPhys p tag).keysDrawn = s.keysDrawn := rfl
@[simp] theorem State.tagPhys_ctxs (s : State) (p : Nat) (tag : Byte) : (s.tagPhys p tag).ctxs = s.ctxs := rfl
@[simp] theorem State.tagPhys_insts (s : State) (p : Nat) (tag : Byte) : (s.tagPhys p tag).insts = s.insts := rfl
@[simp] theorem State.tagPhys_copy (s : State) (p : Nat) (tag : Byte) : (s.tagPhys p tag).copy = s.copy := rfl
@[simp] theorem State.tagPhys_ports (s : State) (p : Nat) (tag : Byte) : (s.tagPhys p tag).ports = s.ports := rfl
@[simp] theorem State.tagPhys_replies (s : State) (p : Nat) (tag : Byte) : (s.tagPhys p tag).replies = s.replies := rfl

/-! ### modPlot -/

@[simp] theorem State.modPlot_now (s : State) (p : Nat) (f : Plot → Plot) : (s.modPlot p f).now = s.now := rfl
@[simp] theorem State.modPlot_dies (s : State) (p : Nat) (f : Plot → Plot) : (s.modPlot p f).dies = s.dies := rfl
@[simp] theorem State.modPlot_hbmFrames (s : State) (p : Nat) (f : Plot → Plot) : (s.modPlot p f).hbmFrames = s.hbmFrames := rfl
@[simp] theorem State.modPlot_linkGens (s : State) (p : Nat) (f : Plot → Plot) : (s.modPlot p f).linkGens = s.linkGens := rfl
@[simp] theorem State.modPlot_junction (s : State) (p : Nat) (f : Plot → Plot) : (s.modPlot p f).junction = s.junction := rfl
@[simp] theorem State.modPlot_arrivals (s : State) (p : Nat) (f : Plot → Plot) : (s.modPlot p f).arrivals = s.arrivals := rfl
@[simp] theorem State.modPlot_classOf (s : State) (p : Nat) (f : Plot → Plot) : (s.modPlot p f).classOf = s.classOf := rfl
@[simp] theorem State.modPlot_aborts (s : State) (p : Nat) (f : Plot → Plot) : (s.modPlot p f).aborts = s.aborts := rfl
@[simp] theorem State.modPlot_agenda (s : State) (p : Nat) (f : Plot → Plot) : (s.modPlot p f).agenda = s.agenda := rfl
@[simp] theorem State.modPlot_focus (s : State) (p : Nat) (f : Plot → Plot) : (s.modPlot p f).focus = s.focus := rfl
@[simp] theorem State.modPlot_boot (s : State) (p : Nat) (f : Plot → Plot) : (s.modPlot p f).boot = s.boot := rfl
@[simp] theorem State.modPlot_locked (s : State) (p : Nat) (f : Plot → Plot) : (s.modPlot p f).locked = s.locked := rfl
@[simp] theorem State.modPlot_armed (s : State) (p : Nat) (f : Plot → Plot) : (s.modPlot p f).armed = s.armed := rfl
@[simp] theorem State.modPlot_fwDigest (s : State) (p : Nat) (f : Plot → Plot) : (s.modPlot p f).fwDigest = s.fwDigest := rfl
@[simp] theorem State.modPlot_fwStaged (s : State) (p : Nat) (f : Plot → Plot) : (s.modPlot p f).fwStaged = s.fwStaged := rfl
@[simp] theorem State.modPlot_hbm (s : State) (p : Nat) (f : Plot → Plot) : (s.modPlot p f).hbm = s.hbm := rfl
@[simp] theorem State.modPlot_hbmBad (s : State) (p : Nat) (f : Plot → Plot) : (s.modPlot p f).hbmBad = s.hbmBad := rfl
@[simp] theorem State.modPlot_frames (s : State) (p : Nat) (f : Plot → Plot) : (s.modPlot p f).frames = s.frames := rfl
@[simp] theorem State.modPlot_host (s : State) (p : Nat) (f : Plot → Plot) : (s.modPlot p f).host = s.host := rfl
@[simp] theorem State.modPlot_iommu (s : State) (p : Nat) (f : Plot → Plot) : (s.modPlot p f).iommu = s.iommu := rfl
@[simp] theorem State.modPlot_phys (s : State) (p : Nat) (f : Plot → Plot) : (s.modPlot p f).phys = s.phys := rfl
@[simp] theorem State.modPlot_gens (s : State) (p : Nat) (f : Plot → Plot) : (s.modPlot p f).gens = s.gens := rfl
@[simp] theorem State.modPlot_islands (s : State) (p : Nat) (f : Plot → Plot) : (s.modPlot p f).islands = s.islands := rfl
@[simp] theorem State.modPlot_power (s : State) (p : Nat) (f : Plot → Plot) : (s.modPlot p f).power = s.power := rfl
@[simp] theorem State.modPlot_floorBreaches (s : State) (p : Nat) (f : Plot → Plot) : (s.modPlot p f).floorBreaches = s.floorBreaches := rfl
@[simp] theorem State.modPlot_cmdRing (s : State) (p : Nat) (f : Plot → Plot) : (s.modPlot p f).cmdRing = s.cmdRing := rfl
@[simp] theorem State.modPlot_complRing (s : State) (p : Nat) (f : Plot → Plot) : (s.modPlot p f).complRing = s.complRing := rfl
@[simp] theorem State.modPlot_drawn (s : State) (p : Nat) (f : Plot → Plot) : (s.modPlot p f).drawn = s.drawn := rfl
@[simp] theorem State.modPlot_handles (s : State) (p : Nat) (f : Plot → Plot) : (s.modPlot p f).handles = s.handles := rfl
@[simp] theorem State.modPlot_keysDrawn (s : State) (p : Nat) (f : Plot → Plot) : (s.modPlot p f).keysDrawn = s.keysDrawn := rfl
@[simp] theorem State.modPlot_ctxs (s : State) (p : Nat) (f : Plot → Plot) : (s.modPlot p f).ctxs = s.ctxs := rfl
@[simp] theorem State.modPlot_insts (s : State) (p : Nat) (f : Plot → Plot) : (s.modPlot p f).insts = s.insts := rfl
@[simp] theorem State.modPlot_copy (s : State) (p : Nat) (f : Plot → Plot) : (s.modPlot p f).copy = s.copy := rfl
@[simp] theorem State.modPlot_ports (s : State) (p : Nat) (f : Plot → Plot) : (s.modPlot p f).ports = s.ports := rfl
@[simp] theorem State.modPlot_replies (s : State) (p : Nat) (f : Plot → Plot) : (s.modPlot p f).replies = s.replies := rfl

/-! ### modCopy -/

@[simp] theorem State.modCopy_now (s : State) (e : Nat) (f : CpEngine → CpEngine) : (s.modCopy e f).now = s.now := rfl
@[simp] theorem State.modCopy_dies (s : State) (e : Nat) (f : CpEngine → CpEngine) : (s.modCopy e f).dies = s.dies := rfl
@[simp] theorem State.modCopy_hbmFrames (s : State) (e : Nat) (f : CpEngine → CpEngine) : (s.modCopy e f).hbmFrames = s.hbmFrames := rfl
@[simp] theorem State.modCopy_linkGens (s : State) (e : Nat) (f : CpEngine → CpEngine) : (s.modCopy e f).linkGens = s.linkGens := rfl
@[simp] theorem State.modCopy_junction (s : State) (e : Nat) (f : CpEngine → CpEngine) : (s.modCopy e f).junction = s.junction := rfl
@[simp] theorem State.modCopy_arrivals (s : State) (e : Nat) (f : CpEngine → CpEngine) : (s.modCopy e f).arrivals = s.arrivals := rfl
@[simp] theorem State.modCopy_classOf (s : State) (e : Nat) (f : CpEngine → CpEngine) : (s.modCopy e f).classOf = s.classOf := rfl
@[simp] theorem State.modCopy_aborts (s : State) (e : Nat) (f : CpEngine → CpEngine) : (s.modCopy e f).aborts = s.aborts := rfl
@[simp] theorem State.modCopy_agenda (s : State) (e : Nat) (f : CpEngine → CpEngine) : (s.modCopy e f).agenda = s.agenda := rfl
@[simp] theorem State.modCopy_focus (s : State) (e : Nat) (f : CpEngine → CpEngine) : (s.modCopy e f).focus = s.focus := rfl
@[simp] theorem State.modCopy_boot (s : State) (e : Nat) (f : CpEngine → CpEngine) : (s.modCopy e f).boot = s.boot := rfl
@[simp] theorem State.modCopy_locked (s : State) (e : Nat) (f : CpEngine → CpEngine) : (s.modCopy e f).locked = s.locked := rfl
@[simp] theorem State.modCopy_armed (s : State) (e : Nat) (f : CpEngine → CpEngine) : (s.modCopy e f).armed = s.armed := rfl
@[simp] theorem State.modCopy_fwDigest (s : State) (e : Nat) (f : CpEngine → CpEngine) : (s.modCopy e f).fwDigest = s.fwDigest := rfl
@[simp] theorem State.modCopy_fwStaged (s : State) (e : Nat) (f : CpEngine → CpEngine) : (s.modCopy e f).fwStaged = s.fwStaged := rfl
@[simp] theorem State.modCopy_hbm (s : State) (e : Nat) (f : CpEngine → CpEngine) : (s.modCopy e f).hbm = s.hbm := rfl
@[simp] theorem State.modCopy_hbmBad (s : State) (e : Nat) (f : CpEngine → CpEngine) : (s.modCopy e f).hbmBad = s.hbmBad := rfl
@[simp] theorem State.modCopy_frames (s : State) (e : Nat) (f : CpEngine → CpEngine) : (s.modCopy e f).frames = s.frames := rfl
@[simp] theorem State.modCopy_host (s : State) (e : Nat) (f : CpEngine → CpEngine) : (s.modCopy e f).host = s.host := rfl
@[simp] theorem State.modCopy_iommu (s : State) (e : Nat) (f : CpEngine → CpEngine) : (s.modCopy e f).iommu = s.iommu := rfl
@[simp] theorem State.modCopy_phys (s : State) (e : Nat) (f : CpEngine → CpEngine) : (s.modCopy e f).phys = s.phys := rfl
@[simp] theorem State.modCopy_plots (s : State) (e : Nat) (f : CpEngine → CpEngine) : (s.modCopy e f).plots = s.plots := rfl
@[simp] theorem State.modCopy_gens (s : State) (e : Nat) (f : CpEngine → CpEngine) : (s.modCopy e f).gens = s.gens := rfl
@[simp] theorem State.modCopy_islands (s : State) (e : Nat) (f : CpEngine → CpEngine) : (s.modCopy e f).islands = s.islands := rfl
@[simp] theorem State.modCopy_power (s : State) (e : Nat) (f : CpEngine → CpEngine) : (s.modCopy e f).power = s.power := rfl
@[simp] theorem State.modCopy_floorBreaches (s : State) (e : Nat) (f : CpEngine → CpEngine) : (s.modCopy e f).floorBreaches = s.floorBreaches := rfl
@[simp] theorem State.modCopy_cmdRing (s : State) (e : Nat) (f : CpEngine → CpEngine) : (s.modCopy e f).cmdRing = s.cmdRing := rfl
@[simp] theorem State.modCopy_complRing (s : State) (e : Nat) (f : CpEngine → CpEngine) : (s.modCopy e f).complRing = s.complRing := rfl
@[simp] theorem State.modCopy_drawn (s : State) (e : Nat) (f : CpEngine → CpEngine) : (s.modCopy e f).drawn = s.drawn := rfl
@[simp] theorem State.modCopy_handles (s : State) (e : Nat) (f : CpEngine → CpEngine) : (s.modCopy e f).handles = s.handles := rfl
@[simp] theorem State.modCopy_keysDrawn (s : State) (e : Nat) (f : CpEngine → CpEngine) : (s.modCopy e f).keysDrawn = s.keysDrawn := rfl
@[simp] theorem State.modCopy_ctxs (s : State) (e : Nat) (f : CpEngine → CpEngine) : (s.modCopy e f).ctxs = s.ctxs := rfl
@[simp] theorem State.modCopy_insts (s : State) (e : Nat) (f : CpEngine → CpEngine) : (s.modCopy e f).insts = s.insts := rfl
@[simp] theorem State.modCopy_ports (s : State) (e : Nat) (f : CpEngine → CpEngine) : (s.modCopy e f).ports = s.ports := rfl
@[simp] theorem State.modCopy_replies (s : State) (e : Nat) (f : CpEngine → CpEngine) : (s.modCopy e f).replies = s.replies := rfl

/-! ### modPort -/

@[simp] theorem State.modPort_now (s : State) (p : Nat) (f : Port → Port) : (s.modPort p f).now = s.now := rfl
@[simp] theorem State.modPort_dies (s : State) (p : Nat) (f : Port → Port) : (s.modPort p f).dies = s.dies := rfl
@[simp] theorem State.modPort_hbmFrames (s : State) (p : Nat) (f : Port → Port) : (s.modPort p f).hbmFrames = s.hbmFrames := rfl
@[simp] theorem State.modPort_linkGens (s : State) (p : Nat) (f : Port → Port) : (s.modPort p f).linkGens = s.linkGens := rfl
@[simp] theorem State.modPort_junction (s : State) (p : Nat) (f : Port → Port) : (s.modPort p f).junction = s.junction := rfl
@[simp] theorem State.modPort_arrivals (s : State) (p : Nat) (f : Port → Port) : (s.modPort p f).arrivals = s.arrivals := rfl
@[simp] theorem State.modPort_classOf (s : State) (p : Nat) (f : Port → Port) : (s.modPort p f).classOf = s.classOf := rfl
@[simp] theorem State.modPort_aborts (s : State) (p : Nat) (f : Port → Port) : (s.modPort p f).aborts = s.aborts := rfl
@[simp] theorem State.modPort_agenda (s : State) (p : Nat) (f : Port → Port) : (s.modPort p f).agenda = s.agenda := rfl
@[simp] theorem State.modPort_focus (s : State) (p : Nat) (f : Port → Port) : (s.modPort p f).focus = s.focus := rfl
@[simp] theorem State.modPort_boot (s : State) (p : Nat) (f : Port → Port) : (s.modPort p f).boot = s.boot := rfl
@[simp] theorem State.modPort_locked (s : State) (p : Nat) (f : Port → Port) : (s.modPort p f).locked = s.locked := rfl
@[simp] theorem State.modPort_armed (s : State) (p : Nat) (f : Port → Port) : (s.modPort p f).armed = s.armed := rfl
@[simp] theorem State.modPort_fwDigest (s : State) (p : Nat) (f : Port → Port) : (s.modPort p f).fwDigest = s.fwDigest := rfl
@[simp] theorem State.modPort_fwStaged (s : State) (p : Nat) (f : Port → Port) : (s.modPort p f).fwStaged = s.fwStaged := rfl
@[simp] theorem State.modPort_hbm (s : State) (p : Nat) (f : Port → Port) : (s.modPort p f).hbm = s.hbm := rfl
@[simp] theorem State.modPort_hbmBad (s : State) (p : Nat) (f : Port → Port) : (s.modPort p f).hbmBad = s.hbmBad := rfl
@[simp] theorem State.modPort_frames (s : State) (p : Nat) (f : Port → Port) : (s.modPort p f).frames = s.frames := rfl
@[simp] theorem State.modPort_host (s : State) (p : Nat) (f : Port → Port) : (s.modPort p f).host = s.host := rfl
@[simp] theorem State.modPort_iommu (s : State) (p : Nat) (f : Port → Port) : (s.modPort p f).iommu = s.iommu := rfl
@[simp] theorem State.modPort_phys (s : State) (p : Nat) (f : Port → Port) : (s.modPort p f).phys = s.phys := rfl
@[simp] theorem State.modPort_plots (s : State) (p : Nat) (f : Port → Port) : (s.modPort p f).plots = s.plots := rfl
@[simp] theorem State.modPort_gens (s : State) (p : Nat) (f : Port → Port) : (s.modPort p f).gens = s.gens := rfl
@[simp] theorem State.modPort_islands (s : State) (p : Nat) (f : Port → Port) : (s.modPort p f).islands = s.islands := rfl
@[simp] theorem State.modPort_power (s : State) (p : Nat) (f : Port → Port) : (s.modPort p f).power = s.power := rfl
@[simp] theorem State.modPort_floorBreaches (s : State) (p : Nat) (f : Port → Port) : (s.modPort p f).floorBreaches = s.floorBreaches := rfl
@[simp] theorem State.modPort_cmdRing (s : State) (p : Nat) (f : Port → Port) : (s.modPort p f).cmdRing = s.cmdRing := rfl
@[simp] theorem State.modPort_complRing (s : State) (p : Nat) (f : Port → Port) : (s.modPort p f).complRing = s.complRing := rfl
@[simp] theorem State.modPort_drawn (s : State) (p : Nat) (f : Port → Port) : (s.modPort p f).drawn = s.drawn := rfl
@[simp] theorem State.modPort_handles (s : State) (p : Nat) (f : Port → Port) : (s.modPort p f).handles = s.handles := rfl
@[simp] theorem State.modPort_keysDrawn (s : State) (p : Nat) (f : Port → Port) : (s.modPort p f).keysDrawn = s.keysDrawn := rfl
@[simp] theorem State.modPort_ctxs (s : State) (p : Nat) (f : Port → Port) : (s.modPort p f).ctxs = s.ctxs := rfl
@[simp] theorem State.modPort_insts (s : State) (p : Nat) (f : Port → Port) : (s.modPort p f).insts = s.insts := rfl
@[simp] theorem State.modPort_copy (s : State) (p : Nat) (f : Port → Port) : (s.modPort p f).copy = s.copy := rfl
@[simp] theorem State.modPort_replies (s : State) (p : Nat) (f : Port → Port) : (s.modPort p f).replies = s.replies := rfl

/-! ### setFrame -/

@[simp] theorem State.setFrame_now (s : State) (p : Nat) (tag : Byte) : (s.setFrame p tag).now = s.now := rfl
@[simp] theorem State.setFrame_dies (s : State) (p : Nat) (tag : Byte) : (s.setFrame p tag).dies = s.dies := rfl
@[simp] theorem State.setFrame_hbmFrames (s : State) (p : Nat) (tag : Byte) : (s.setFrame p tag).hbmFrames = s.hbmFrames := rfl
@[simp] theorem State.setFrame_linkGens (s : State) (p : Nat) (tag : Byte) : (s.setFrame p tag).linkGens = s.linkGens := rfl
@[simp] theorem State.setFrame_junction (s : State) (p : Nat) (tag : Byte) : (s.setFrame p tag).junction = s.junction := rfl
@[simp] theorem State.setFrame_arrivals (s : State) (p : Nat) (tag : Byte) : (s.setFrame p tag).arrivals = s.arrivals := rfl
@[simp] theorem State.setFrame_classOf (s : State) (p : Nat) (tag : Byte) : (s.setFrame p tag).classOf = s.classOf := rfl
@[simp] theorem State.setFrame_aborts (s : State) (p : Nat) (tag : Byte) : (s.setFrame p tag).aborts = s.aborts := rfl
@[simp] theorem State.setFrame_agenda (s : State) (p : Nat) (tag : Byte) : (s.setFrame p tag).agenda = s.agenda := rfl
@[simp] theorem State.setFrame_focus (s : State) (p : Nat) (tag : Byte) : (s.setFrame p tag).focus = s.focus := rfl
@[simp] theorem State.setFrame_boot (s : State) (p : Nat) (tag : Byte) : (s.setFrame p tag).boot = s.boot := rfl
@[simp] theorem State.setFrame_locked (s : State) (p : Nat) (tag : Byte) : (s.setFrame p tag).locked = s.locked := rfl
@[simp] theorem State.setFrame_armed (s : State) (p : Nat) (tag : Byte) : (s.setFrame p tag).armed = s.armed := rfl
@[simp] theorem State.setFrame_fwDigest (s : State) (p : Nat) (tag : Byte) : (s.setFrame p tag).fwDigest = s.fwDigest := rfl
@[simp] theorem State.setFrame_fwStaged (s : State) (p : Nat) (tag : Byte) : (s.setFrame p tag).fwStaged = s.fwStaged := rfl
@[simp] theorem State.setFrame_hbm (s : State) (p : Nat) (tag : Byte) : (s.setFrame p tag).hbm = s.hbm := rfl
@[simp] theorem State.setFrame_hbmBad (s : State) (p : Nat) (tag : Byte) : (s.setFrame p tag).hbmBad = s.hbmBad := rfl
@[simp] theorem State.setFrame_host (s : State) (p : Nat) (tag : Byte) : (s.setFrame p tag).host = s.host := rfl
@[simp] theorem State.setFrame_iommu (s : State) (p : Nat) (tag : Byte) : (s.setFrame p tag).iommu = s.iommu := rfl
@[simp] theorem State.setFrame_phys (s : State) (p : Nat) (tag : Byte) : (s.setFrame p tag).phys = s.phys := rfl
@[simp] theorem State.setFrame_plots (s : State) (p : Nat) (tag : Byte) : (s.setFrame p tag).plots = s.plots := rfl
@[simp] theorem State.setFrame_gens (s : State) (p : Nat) (tag : Byte) : (s.setFrame p tag).gens = s.gens := rfl
@[simp] theorem State.setFrame_islands (s : State) (p : Nat) (tag : Byte) : (s.setFrame p tag).islands = s.islands := rfl
@[simp] theorem State.setFrame_power (s : State) (p : Nat) (tag : Byte) : (s.setFrame p tag).power = s.power := rfl
@[simp] theorem State.setFrame_floorBreaches (s : State) (p : Nat) (tag : Byte) : (s.setFrame p tag).floorBreaches = s.floorBreaches := rfl
@[simp] theorem State.setFrame_cmdRing (s : State) (p : Nat) (tag : Byte) : (s.setFrame p tag).cmdRing = s.cmdRing := rfl
@[simp] theorem State.setFrame_complRing (s : State) (p : Nat) (tag : Byte) : (s.setFrame p tag).complRing = s.complRing := rfl
@[simp] theorem State.setFrame_drawn (s : State) (p : Nat) (tag : Byte) : (s.setFrame p tag).drawn = s.drawn := rfl
@[simp] theorem State.setFrame_handles (s : State) (p : Nat) (tag : Byte) : (s.setFrame p tag).handles = s.handles := rfl
@[simp] theorem State.setFrame_keysDrawn (s : State) (p : Nat) (tag : Byte) : (s.setFrame p tag).keysDrawn = s.keysDrawn := rfl
@[simp] theorem State.setFrame_ctxs (s : State) (p : Nat) (tag : Byte) : (s.setFrame p tag).ctxs = s.ctxs := rfl
@[simp] theorem State.setFrame_insts (s : State) (p : Nat) (tag : Byte) : (s.setFrame p tag).insts = s.insts := rfl
@[simp] theorem State.setFrame_copy (s : State) (p : Nat) (tag : Byte) : (s.setFrame p tag).copy = s.copy := rfl
@[simp] theorem State.setFrame_ports (s : State) (p : Nat) (tag : Byte) : (s.setFrame p tag).ports = s.ports := rfl
@[simp] theorem State.setFrame_replies (s : State) (p : Nat) (tag : Byte) : (s.setFrame p tag).replies = s.replies := rfl

/-! ### complete -/

@[simp] theorem State.complete_now (s : State) (cmd : Rec64) (r : W64) (st : Byte) : (s.complete cmd r st).now = s.now := rfl
@[simp] theorem State.complete_dies (s : State) (cmd : Rec64) (r : W64) (st : Byte) : (s.complete cmd r st).dies = s.dies := rfl
@[simp] theorem State.complete_hbmFrames (s : State) (cmd : Rec64) (r : W64) (st : Byte) : (s.complete cmd r st).hbmFrames = s.hbmFrames := rfl
@[simp] theorem State.complete_linkGens (s : State) (cmd : Rec64) (r : W64) (st : Byte) : (s.complete cmd r st).linkGens = s.linkGens := rfl
@[simp] theorem State.complete_junction (s : State) (cmd : Rec64) (r : W64) (st : Byte) : (s.complete cmd r st).junction = s.junction := rfl
@[simp] theorem State.complete_arrivals (s : State) (cmd : Rec64) (r : W64) (st : Byte) : (s.complete cmd r st).arrivals = s.arrivals := rfl
@[simp] theorem State.complete_classOf (s : State) (cmd : Rec64) (r : W64) (st : Byte) : (s.complete cmd r st).classOf = s.classOf := rfl
@[simp] theorem State.complete_aborts (s : State) (cmd : Rec64) (r : W64) (st : Byte) : (s.complete cmd r st).aborts = s.aborts := rfl
@[simp] theorem State.complete_agenda (s : State) (cmd : Rec64) (r : W64) (st : Byte) : (s.complete cmd r st).agenda = s.agenda := rfl
@[simp] theorem State.complete_focus (s : State) (cmd : Rec64) (r : W64) (st : Byte) : (s.complete cmd r st).focus = s.focus := rfl
@[simp] theorem State.complete_boot (s : State) (cmd : Rec64) (r : W64) (st : Byte) : (s.complete cmd r st).boot = s.boot := rfl
@[simp] theorem State.complete_locked (s : State) (cmd : Rec64) (r : W64) (st : Byte) : (s.complete cmd r st).locked = s.locked := rfl
@[simp] theorem State.complete_armed (s : State) (cmd : Rec64) (r : W64) (st : Byte) : (s.complete cmd r st).armed = s.armed := rfl
@[simp] theorem State.complete_fwDigest (s : State) (cmd : Rec64) (r : W64) (st : Byte) : (s.complete cmd r st).fwDigest = s.fwDigest := rfl
@[simp] theorem State.complete_fwStaged (s : State) (cmd : Rec64) (r : W64) (st : Byte) : (s.complete cmd r st).fwStaged = s.fwStaged := rfl
@[simp] theorem State.complete_hbm (s : State) (cmd : Rec64) (r : W64) (st : Byte) : (s.complete cmd r st).hbm = s.hbm := rfl
@[simp] theorem State.complete_hbmBad (s : State) (cmd : Rec64) (r : W64) (st : Byte) : (s.complete cmd r st).hbmBad = s.hbmBad := rfl
@[simp] theorem State.complete_frames (s : State) (cmd : Rec64) (r : W64) (st : Byte) : (s.complete cmd r st).frames = s.frames := rfl
@[simp] theorem State.complete_host (s : State) (cmd : Rec64) (r : W64) (st : Byte) : (s.complete cmd r st).host = s.host := rfl
@[simp] theorem State.complete_iommu (s : State) (cmd : Rec64) (r : W64) (st : Byte) : (s.complete cmd r st).iommu = s.iommu := rfl
@[simp] theorem State.complete_phys (s : State) (cmd : Rec64) (r : W64) (st : Byte) : (s.complete cmd r st).phys = s.phys := rfl
@[simp] theorem State.complete_plots (s : State) (cmd : Rec64) (r : W64) (st : Byte) : (s.complete cmd r st).plots = s.plots := rfl
@[simp] theorem State.complete_gens (s : State) (cmd : Rec64) (r : W64) (st : Byte) : (s.complete cmd r st).gens = s.gens := rfl
@[simp] theorem State.complete_islands (s : State) (cmd : Rec64) (r : W64) (st : Byte) : (s.complete cmd r st).islands = s.islands := rfl
@[simp] theorem State.complete_power (s : State) (cmd : Rec64) (r : W64) (st : Byte) : (s.complete cmd r st).power = s.power := rfl
@[simp] theorem State.complete_floorBreaches (s : State) (cmd : Rec64) (r : W64) (st : Byte) : (s.complete cmd r st).floorBreaches = s.floorBreaches := rfl
@[simp] theorem State.complete_cmdRing (s : State) (cmd : Rec64) (r : W64) (st : Byte) : (s.complete cmd r st).cmdRing = s.cmdRing := rfl
@[simp] theorem State.complete_drawn (s : State) (cmd : Rec64) (r : W64) (st : Byte) : (s.complete cmd r st).drawn = s.drawn := rfl
@[simp] theorem State.complete_handles (s : State) (cmd : Rec64) (r : W64) (st : Byte) : (s.complete cmd r st).handles = s.handles := rfl
@[simp] theorem State.complete_keysDrawn (s : State) (cmd : Rec64) (r : W64) (st : Byte) : (s.complete cmd r st).keysDrawn = s.keysDrawn := rfl
@[simp] theorem State.complete_ctxs (s : State) (cmd : Rec64) (r : W64) (st : Byte) : (s.complete cmd r st).ctxs = s.ctxs := rfl
@[simp] theorem State.complete_insts (s : State) (cmd : Rec64) (r : W64) (st : Byte) : (s.complete cmd r st).insts = s.insts := rfl
@[simp] theorem State.complete_copy (s : State) (cmd : Rec64) (r : W64) (st : Byte) : (s.complete cmd r st).copy = s.copy := rfl
@[simp] theorem State.complete_ports (s : State) (cmd : Rec64) (r : W64) (st : Byte) : (s.complete cmd r st).ports = s.ports := rfl
@[simp] theorem State.complete_replies (s : State) (cmd : Rec64) (r : W64) (st : Byte) : (s.complete cmd r st).replies = s.replies := rfl

/-! ### focusOn -/

@[simp] theorem State.focusOn_now (s : State) (i t : Nat) : (s.focusOn i t).now = s.now := rfl
@[simp] theorem State.focusOn_dies (s : State) (i t : Nat) : (s.focusOn i t).dies = s.dies := rfl
@[simp] theorem State.focusOn_hbmFrames (s : State) (i t : Nat) : (s.focusOn i t).hbmFrames = s.hbmFrames := rfl
@[simp] theorem State.focusOn_linkGens (s : State) (i t : Nat) : (s.focusOn i t).linkGens = s.linkGens := rfl
@[simp] theorem State.focusOn_junction (s : State) (i t : Nat) : (s.focusOn i t).junction = s.junction := rfl
@[simp] theorem State.focusOn_arrivals (s : State) (i t : Nat) : (s.focusOn i t).arrivals = s.arrivals := rfl
@[simp] theorem State.focusOn_classOf (s : State) (i t : Nat) : (s.focusOn i t).classOf = s.classOf := rfl
@[simp] theorem State.focusOn_aborts (s : State) (i t : Nat) : (s.focusOn i t).aborts = s.aborts := rfl
@[simp] theorem State.focusOn_agenda (s : State) (i t : Nat) : (s.focusOn i t).agenda = s.agenda := rfl
@[simp] theorem State.focusOn_boot (s : State) (i t : Nat) : (s.focusOn i t).boot = s.boot := rfl
@[simp] theorem State.focusOn_locked (s : State) (i t : Nat) : (s.focusOn i t).locked = s.locked := rfl
@[simp] theorem State.focusOn_armed (s : State) (i t : Nat) : (s.focusOn i t).armed = s.armed := rfl
@[simp] theorem State.focusOn_fwDigest (s : State) (i t : Nat) : (s.focusOn i t).fwDigest = s.fwDigest := rfl
@[simp] theorem State.focusOn_fwStaged (s : State) (i t : Nat) : (s.focusOn i t).fwStaged = s.fwStaged := rfl
@[simp] theorem State.focusOn_hbm (s : State) (i t : Nat) : (s.focusOn i t).hbm = s.hbm := rfl
@[simp] theorem State.focusOn_hbmBad (s : State) (i t : Nat) : (s.focusOn i t).hbmBad = s.hbmBad := rfl
@[simp] theorem State.focusOn_frames (s : State) (i t : Nat) : (s.focusOn i t).frames = s.frames := rfl
@[simp] theorem State.focusOn_host (s : State) (i t : Nat) : (s.focusOn i t).host = s.host := rfl
@[simp] theorem State.focusOn_iommu (s : State) (i t : Nat) : (s.focusOn i t).iommu = s.iommu := rfl
@[simp] theorem State.focusOn_phys (s : State) (i t : Nat) : (s.focusOn i t).phys = s.phys := rfl
@[simp] theorem State.focusOn_plots (s : State) (i t : Nat) : (s.focusOn i t).plots = s.plots := rfl
@[simp] theorem State.focusOn_gens (s : State) (i t : Nat) : (s.focusOn i t).gens = s.gens := rfl
@[simp] theorem State.focusOn_islands (s : State) (i t : Nat) : (s.focusOn i t).islands = s.islands := rfl
@[simp] theorem State.focusOn_power (s : State) (i t : Nat) : (s.focusOn i t).power = s.power := rfl
@[simp] theorem State.focusOn_floorBreaches (s : State) (i t : Nat) : (s.focusOn i t).floorBreaches = s.floorBreaches := rfl
@[simp] theorem State.focusOn_cmdRing (s : State) (i t : Nat) : (s.focusOn i t).cmdRing = s.cmdRing := rfl
@[simp] theorem State.focusOn_complRing (s : State) (i t : Nat) : (s.focusOn i t).complRing = s.complRing := rfl
@[simp] theorem State.focusOn_drawn (s : State) (i t : Nat) : (s.focusOn i t).drawn = s.drawn := rfl
@[simp] theorem State.focusOn_handles (s : State) (i t : Nat) : (s.focusOn i t).handles = s.handles := rfl
@[simp] theorem State.focusOn_keysDrawn (s : State) (i t : Nat) : (s.focusOn i t).keysDrawn = s.keysDrawn := rfl
@[simp] theorem State.focusOn_ctxs (s : State) (i t : Nat) : (s.focusOn i t).ctxs = s.ctxs := rfl
@[simp] theorem State.focusOn_insts (s : State) (i t : Nat) : (s.focusOn i t).insts = s.insts := rfl
@[simp] theorem State.focusOn_copy (s : State) (i t : Nat) : (s.focusOn i t).copy = s.copy := rfl
@[simp] theorem State.focusOn_ports (s : State) (i t : Nat) : (s.focusOn i t).ports = s.ports := rfl
@[simp] theorem State.focusOn_replies (s : State) (i t : Nat) : (s.focusOn i t).replies = s.replies := rfl

/-! ### modNode -/

@[simp] theorem State.modNode_dies (s : State) (i k : Nat) (f : FabNode → FabNode) : (s.modNode i k f).dies = s.dies := rfl
@[simp] theorem State.modNode_hbmFrames (s : State) (i k : Nat) (f : FabNode → FabNode) : (s.modNode i k f).hbmFrames = s.hbmFrames := rfl
@[simp] theorem State.modNode_now (s : State) (i k : Nat) (f : FabNode → FabNode) : (s.modNode i k f).now = s.now := rfl
@[simp] theorem State.modNode_agenda (s : State) (i k : Nat) (f : FabNode → FabNode) : (s.modNode i k f).agenda = s.agenda := rfl
@[simp] theorem State.modNode_focus (s : State) (i k : Nat) (f : FabNode → FabNode) : (s.modNode i k f).focus = s.focus := rfl
@[simp] theorem State.modNode_boot (s : State) (i k : Nat) (f : FabNode → FabNode) : (s.modNode i k f).boot = s.boot := rfl
@[simp] theorem State.modNode_locked (s : State) (i k : Nat) (f : FabNode → FabNode) : (s.modNode i k f).locked = s.locked := rfl
@[simp] theorem State.modNode_armed (s : State) (i k : Nat) (f : FabNode → FabNode) : (s.modNode i k f).armed = s.armed := rfl
@[simp] theorem State.modNode_fwDigest (s : State) (i k : Nat) (f : FabNode → FabNode) : (s.modNode i k f).fwDigest = s.fwDigest := rfl
@[simp] theorem State.modNode_fwStaged (s : State) (i k : Nat) (f : FabNode → FabNode) : (s.modNode i k f).fwStaged = s.fwStaged := rfl
@[simp] theorem State.modNode_hbm (s : State) (i k : Nat) (f : FabNode → FabNode) : (s.modNode i k f).hbm = s.hbm := rfl
@[simp] theorem State.modNode_hbmBad (s : State) (i k : Nat) (f : FabNode → FabNode) : (s.modNode i k f).hbmBad = s.hbmBad := rfl
@[simp] theorem State.modNode_frames (s : State) (i k : Nat) (f : FabNode → FabNode) : (s.modNode i k f).frames = s.frames := rfl
@[simp] theorem State.modNode_host (s : State) (i k : Nat) (f : FabNode → FabNode) : (s.modNode i k f).host = s.host := rfl
@[simp] theorem State.modNode_iommu (s : State) (i k : Nat) (f : FabNode → FabNode) : (s.modNode i k f).iommu = s.iommu := rfl
@[simp] theorem State.modNode_phys (s : State) (i k : Nat) (f : FabNode → FabNode) : (s.modNode i k f).phys = s.phys := rfl
@[simp] theorem State.modNode_plots (s : State) (i k : Nat) (f : FabNode → FabNode) : (s.modNode i k f).plots = s.plots := rfl
@[simp] theorem State.modNode_gens (s : State) (i k : Nat) (f : FabNode → FabNode) : (s.modNode i k f).gens = s.gens := rfl
@[simp] theorem State.modNode_islands (s : State) (i k : Nat) (f : FabNode → FabNode) : (s.modNode i k f).islands = s.islands := rfl
@[simp] theorem State.modNode_power (s : State) (i k : Nat) (f : FabNode → FabNode) : (s.modNode i k f).power = s.power := rfl
@[simp] theorem State.modNode_floorBreaches (s : State) (i k : Nat) (f : FabNode → FabNode) : (s.modNode i k f).floorBreaches = s.floorBreaches := rfl
@[simp] theorem State.modNode_cmdRing (s : State) (i k : Nat) (f : FabNode → FabNode) : (s.modNode i k f).cmdRing = s.cmdRing := rfl
@[simp] theorem State.modNode_complRing (s : State) (i k : Nat) (f : FabNode → FabNode) : (s.modNode i k f).complRing = s.complRing := rfl
@[simp] theorem State.modNode_drawn (s : State) (i k : Nat) (f : FabNode → FabNode) : (s.modNode i k f).drawn = s.drawn := rfl
@[simp] theorem State.modNode_handles (s : State) (i k : Nat) (f : FabNode → FabNode) : (s.modNode i k f).handles = s.handles := rfl
@[simp] theorem State.modNode_keysDrawn (s : State) (i k : Nat) (f : FabNode → FabNode) : (s.modNode i k f).keysDrawn = s.keysDrawn := rfl
@[simp] theorem State.modNode_ctxs (s : State) (i k : Nat) (f : FabNode → FabNode) : (s.modNode i k f).ctxs = s.ctxs := rfl
@[simp] theorem State.modNode_copy (s : State) (i k : Nat) (f : FabNode → FabNode) : (s.modNode i k f).copy = s.copy := rfl
@[simp] theorem State.modNode_ports (s : State) (i k : Nat) (f : FabNode → FabNode) : (s.modNode i k f).ports = s.ports := rfl
@[simp] theorem State.modNode_linkGens (s : State) (i k : Nat) (f : FabNode → FabNode) : (s.modNode i k f).linkGens = s.linkGens := rfl
@[simp] theorem State.modNode_junction (s : State) (i k : Nat) (f : FabNode → FabNode) : (s.modNode i k f).junction = s.junction := rfl
@[simp] theorem State.modNode_arrivals (s : State) (i k : Nat) (f : FabNode → FabNode) : (s.modNode i k f).arrivals = s.arrivals := rfl
@[simp] theorem State.modNode_classOf (s : State) (i k : Nat) (f : FabNode → FabNode) : (s.modNode i k f).classOf = s.classOf := rfl
@[simp] theorem State.modNode_aborts (s : State) (i k : Nat) (f : FabNode → FabNode) : (s.modNode i k f).aborts = s.aborts := rfl
@[simp] theorem State.modNode_replies (s : State) (i k : Nat) (f : FabNode → FabNode) : (s.modNode i k f).replies = s.replies := rfl

/-! ### haltAll -/

@[simp] theorem State.haltAll_dies (s : State) (tag : Byte) : (s.haltAll tag).dies = s.dies := rfl
@[simp] theorem State.haltAll_hbmFrames (s : State) (tag : Byte) : (s.haltAll tag).hbmFrames = s.hbmFrames := rfl
@[simp] theorem State.haltAll_now (s : State) (tag : Byte) : (s.haltAll tag).now = s.now := rfl
@[simp] theorem State.haltAll_agenda (s : State) (tag : Byte) : (s.haltAll tag).agenda = s.agenda := rfl
@[simp] theorem State.haltAll_focus (s : State) (tag : Byte) : (s.haltAll tag).focus = s.focus := rfl
@[simp] theorem State.haltAll_boot (s : State) (tag : Byte) : (s.haltAll tag).boot = s.boot := rfl
@[simp] theorem State.haltAll_locked (s : State) (tag : Byte) : (s.haltAll tag).locked = s.locked := rfl
@[simp] theorem State.haltAll_armed (s : State) (tag : Byte) : (s.haltAll tag).armed = s.armed := rfl
@[simp] theorem State.haltAll_fwDigest (s : State) (tag : Byte) : (s.haltAll tag).fwDigest = s.fwDigest := rfl
@[simp] theorem State.haltAll_fwStaged (s : State) (tag : Byte) : (s.haltAll tag).fwStaged = s.fwStaged := rfl
@[simp] theorem State.haltAll_hbm (s : State) (tag : Byte) : (s.haltAll tag).hbm = s.hbm := rfl
@[simp] theorem State.haltAll_hbmBad (s : State) (tag : Byte) : (s.haltAll tag).hbmBad = s.hbmBad := rfl
@[simp] theorem State.haltAll_frames (s : State) (tag : Byte) : (s.haltAll tag).frames = s.frames := rfl
@[simp] theorem State.haltAll_host (s : State) (tag : Byte) : (s.haltAll tag).host = s.host := rfl
@[simp] theorem State.haltAll_iommu (s : State) (tag : Byte) : (s.haltAll tag).iommu = s.iommu := rfl
@[simp] theorem State.haltAll_phys (s : State) (tag : Byte) : (s.haltAll tag).phys = s.phys := rfl
@[simp] theorem State.haltAll_plots (s : State) (tag : Byte) : (s.haltAll tag).plots = s.plots := rfl
@[simp] theorem State.haltAll_gens (s : State) (tag : Byte) : (s.haltAll tag).gens = s.gens := rfl
@[simp] theorem State.haltAll_islands (s : State) (tag : Byte) : (s.haltAll tag).islands = s.islands := rfl
@[simp] theorem State.haltAll_power (s : State) (tag : Byte) : (s.haltAll tag).power = s.power := rfl
@[simp] theorem State.haltAll_floorBreaches (s : State) (tag : Byte) : (s.haltAll tag).floorBreaches = s.floorBreaches := rfl
@[simp] theorem State.haltAll_cmdRing (s : State) (tag : Byte) : (s.haltAll tag).cmdRing = s.cmdRing := rfl
@[simp] theorem State.haltAll_complRing (s : State) (tag : Byte) : (s.haltAll tag).complRing = s.complRing := rfl
@[simp] theorem State.haltAll_drawn (s : State) (tag : Byte) : (s.haltAll tag).drawn = s.drawn := rfl
@[simp] theorem State.haltAll_handles (s : State) (tag : Byte) : (s.haltAll tag).handles = s.handles := rfl
@[simp] theorem State.haltAll_keysDrawn (s : State) (tag : Byte) : (s.haltAll tag).keysDrawn = s.keysDrawn := rfl
@[simp] theorem State.haltAll_ctxs (s : State) (tag : Byte) : (s.haltAll tag).ctxs = s.ctxs := rfl
@[simp] theorem State.haltAll_copy (s : State) (tag : Byte) : (s.haltAll tag).copy = s.copy := rfl
@[simp] theorem State.haltAll_ports (s : State) (tag : Byte) : (s.haltAll tag).ports = s.ports := rfl
@[simp] theorem State.haltAll_linkGens (s : State) (tag : Byte) : (s.haltAll tag).linkGens = s.linkGens := rfl
@[simp] theorem State.haltAll_junction (s : State) (tag : Byte) : (s.haltAll tag).junction = s.junction := rfl
@[simp] theorem State.haltAll_arrivals (s : State) (tag : Byte) : (s.haltAll tag).arrivals = s.arrivals := rfl
@[simp] theorem State.haltAll_classOf (s : State) (tag : Byte) : (s.haltAll tag).classOf = s.classOf := rfl
@[simp] theorem State.haltAll_aborts (s : State) (tag : Byte) : (s.haltAll tag).aborts = s.aborts := rfl
@[simp] theorem State.haltAll_replies (s : State) (tag : Byte) : (s.haltAll tag).replies = s.replies := rfl

/-! ### msgLeaves -/

@[simp] theorem State.msgLeaves_dies (s : State) (a : Arrival) : (s.msgLeaves a).dies = s.dies := rfl
@[simp] theorem State.msgLeaves_hbmFrames (s : State) (a : Arrival) : (s.msgLeaves a).hbmFrames = s.hbmFrames := rfl
@[simp] theorem State.msgLeaves_now (s : State) (a : Arrival) : (s.msgLeaves a).now = s.now := rfl
@[simp] theorem State.msgLeaves_agenda (s : State) (a : Arrival) : (s.msgLeaves a).agenda = s.agenda := rfl
@[simp] theorem State.msgLeaves_focus (s : State) (a : Arrival) : (s.msgLeaves a).focus = s.focus := rfl
@[simp] theorem State.msgLeaves_boot (s : State) (a : Arrival) : (s.msgLeaves a).boot = s.boot := rfl
@[simp] theorem State.msgLeaves_locked (s : State) (a : Arrival) : (s.msgLeaves a).locked = s.locked := rfl
@[simp] theorem State.msgLeaves_armed (s : State) (a : Arrival) : (s.msgLeaves a).armed = s.armed := rfl
@[simp] theorem State.msgLeaves_fwDigest (s : State) (a : Arrival) : (s.msgLeaves a).fwDigest = s.fwDigest := rfl
@[simp] theorem State.msgLeaves_fwStaged (s : State) (a : Arrival) : (s.msgLeaves a).fwStaged = s.fwStaged := rfl
@[simp] theorem State.msgLeaves_hbm (s : State) (a : Arrival) : (s.msgLeaves a).hbm = s.hbm := rfl
@[simp] theorem State.msgLeaves_hbmBad (s : State) (a : Arrival) : (s.msgLeaves a).hbmBad = s.hbmBad := rfl
@[simp] theorem State.msgLeaves_frames (s : State) (a : Arrival) : (s.msgLeaves a).frames = s.frames := rfl
@[simp] theorem State.msgLeaves_host (s : State) (a : Arrival) : (s.msgLeaves a).host = s.host := rfl
@[simp] theorem State.msgLeaves_iommu (s : State) (a : Arrival) : (s.msgLeaves a).iommu = s.iommu := rfl
@[simp] theorem State.msgLeaves_phys (s : State) (a : Arrival) : (s.msgLeaves a).phys = s.phys := rfl
@[simp] theorem State.msgLeaves_plots (s : State) (a : Arrival) : (s.msgLeaves a).plots = s.plots := rfl
@[simp] theorem State.msgLeaves_gens (s : State) (a : Arrival) : (s.msgLeaves a).gens = s.gens := rfl
@[simp] theorem State.msgLeaves_islands (s : State) (a : Arrival) : (s.msgLeaves a).islands = s.islands := rfl
@[simp] theorem State.msgLeaves_power (s : State) (a : Arrival) : (s.msgLeaves a).power = s.power := rfl
@[simp] theorem State.msgLeaves_floorBreaches (s : State) (a : Arrival) : (s.msgLeaves a).floorBreaches = s.floorBreaches := rfl
@[simp] theorem State.msgLeaves_cmdRing (s : State) (a : Arrival) : (s.msgLeaves a).cmdRing = s.cmdRing := rfl
@[simp] theorem State.msgLeaves_complRing (s : State) (a : Arrival) : (s.msgLeaves a).complRing = s.complRing := rfl
@[simp] theorem State.msgLeaves_drawn (s : State) (a : Arrival) : (s.msgLeaves a).drawn = s.drawn := rfl
@[simp] theorem State.msgLeaves_handles (s : State) (a : Arrival) : (s.msgLeaves a).handles = s.handles := rfl
@[simp] theorem State.msgLeaves_keysDrawn (s : State) (a : Arrival) : (s.msgLeaves a).keysDrawn = s.keysDrawn := rfl
@[simp] theorem State.msgLeaves_ctxs (s : State) (a : Arrival) : (s.msgLeaves a).ctxs = s.ctxs := rfl
@[simp] theorem State.msgLeaves_insts (s : State) (a : Arrival) : (s.msgLeaves a).insts = s.insts := rfl
@[simp] theorem State.msgLeaves_copy (s : State) (a : Arrival) : (s.msgLeaves a).copy = s.copy := rfl
@[simp] theorem State.msgLeaves_linkGens (s : State) (a : Arrival) : (s.msgLeaves a).linkGens = s.linkGens := rfl
@[simp] theorem State.msgLeaves_junction (s : State) (a : Arrival) : (s.msgLeaves a).junction = s.junction := rfl
@[simp] theorem State.msgLeaves_classOf (s : State) (a : Arrival) : (s.msgLeaves a).classOf = s.classOf := rfl
@[simp] theorem State.msgLeaves_aborts (s : State) (a : Arrival) : (s.msgLeaves a).aborts = s.aborts := rfl
@[simp] theorem State.msgLeaves_replies (s : State) (a : Arrival) : (s.msgLeaves a).replies = s.replies := rfl

/-! ### sendMsg -/

@[simp] theorem State.sendMsg_dies (s : State) (tag : Byte) (i : BitVec 5) (m : MsgBody) : (s.sendMsg tag i m).dies = s.dies := rfl
@[simp] theorem State.sendMsg_hbmFrames (s : State) (tag : Byte) (i : BitVec 5) (m : MsgBody) : (s.sendMsg tag i m).hbmFrames = s.hbmFrames := rfl
@[simp] theorem State.sendMsg_now (s : State) (tag : Byte) (i : BitVec 5) (m : MsgBody) : (s.sendMsg tag i m).now = s.now := rfl
@[simp] theorem State.sendMsg_agenda (s : State) (tag : Byte) (i : BitVec 5) (m : MsgBody) : (s.sendMsg tag i m).agenda = s.agenda := rfl
@[simp] theorem State.sendMsg_focus (s : State) (tag : Byte) (i : BitVec 5) (m : MsgBody) : (s.sendMsg tag i m).focus = s.focus := rfl
@[simp] theorem State.sendMsg_boot (s : State) (tag : Byte) (i : BitVec 5) (m : MsgBody) : (s.sendMsg tag i m).boot = s.boot := rfl
@[simp] theorem State.sendMsg_locked (s : State) (tag : Byte) (i : BitVec 5) (m : MsgBody) : (s.sendMsg tag i m).locked = s.locked := rfl
@[simp] theorem State.sendMsg_armed (s : State) (tag : Byte) (i : BitVec 5) (m : MsgBody) : (s.sendMsg tag i m).armed = s.armed := rfl
@[simp] theorem State.sendMsg_fwDigest (s : State) (tag : Byte) (i : BitVec 5) (m : MsgBody) : (s.sendMsg tag i m).fwDigest = s.fwDigest := rfl
@[simp] theorem State.sendMsg_fwStaged (s : State) (tag : Byte) (i : BitVec 5) (m : MsgBody) : (s.sendMsg tag i m).fwStaged = s.fwStaged := rfl
@[simp] theorem State.sendMsg_hbm (s : State) (tag : Byte) (i : BitVec 5) (m : MsgBody) : (s.sendMsg tag i m).hbm = s.hbm := rfl
@[simp] theorem State.sendMsg_hbmBad (s : State) (tag : Byte) (i : BitVec 5) (m : MsgBody) : (s.sendMsg tag i m).hbmBad = s.hbmBad := rfl
@[simp] theorem State.sendMsg_frames (s : State) (tag : Byte) (i : BitVec 5) (m : MsgBody) : (s.sendMsg tag i m).frames = s.frames := rfl
@[simp] theorem State.sendMsg_host (s : State) (tag : Byte) (i : BitVec 5) (m : MsgBody) : (s.sendMsg tag i m).host = s.host := rfl
@[simp] theorem State.sendMsg_iommu (s : State) (tag : Byte) (i : BitVec 5) (m : MsgBody) : (s.sendMsg tag i m).iommu = s.iommu := rfl
@[simp] theorem State.sendMsg_phys (s : State) (tag : Byte) (i : BitVec 5) (m : MsgBody) : (s.sendMsg tag i m).phys = s.phys := rfl
@[simp] theorem State.sendMsg_plots (s : State) (tag : Byte) (i : BitVec 5) (m : MsgBody) : (s.sendMsg tag i m).plots = s.plots := rfl
@[simp] theorem State.sendMsg_gens (s : State) (tag : Byte) (i : BitVec 5) (m : MsgBody) : (s.sendMsg tag i m).gens = s.gens := rfl
@[simp] theorem State.sendMsg_islands (s : State) (tag : Byte) (i : BitVec 5) (m : MsgBody) : (s.sendMsg tag i m).islands = s.islands := rfl
@[simp] theorem State.sendMsg_power (s : State) (tag : Byte) (i : BitVec 5) (m : MsgBody) : (s.sendMsg tag i m).power = s.power := rfl
@[simp] theorem State.sendMsg_floorBreaches (s : State) (tag : Byte) (i : BitVec 5) (m : MsgBody) : (s.sendMsg tag i m).floorBreaches = s.floorBreaches := rfl
@[simp] theorem State.sendMsg_cmdRing (s : State) (tag : Byte) (i : BitVec 5) (m : MsgBody) : (s.sendMsg tag i m).cmdRing = s.cmdRing := rfl
@[simp] theorem State.sendMsg_complRing (s : State) (tag : Byte) (i : BitVec 5) (m : MsgBody) : (s.sendMsg tag i m).complRing = s.complRing := rfl
@[simp] theorem State.sendMsg_drawn (s : State) (tag : Byte) (i : BitVec 5) (m : MsgBody) : (s.sendMsg tag i m).drawn = s.drawn := rfl
@[simp] theorem State.sendMsg_handles (s : State) (tag : Byte) (i : BitVec 5) (m : MsgBody) : (s.sendMsg tag i m).handles = s.handles := rfl
@[simp] theorem State.sendMsg_keysDrawn (s : State) (tag : Byte) (i : BitVec 5) (m : MsgBody) : (s.sendMsg tag i m).keysDrawn = s.keysDrawn := rfl
@[simp] theorem State.sendMsg_insts (s : State) (tag : Byte) (i : BitVec 5) (m : MsgBody) : (s.sendMsg tag i m).insts = s.insts := rfl
@[simp] theorem State.sendMsg_copy (s : State) (tag : Byte) (i : BitVec 5) (m : MsgBody) : (s.sendMsg tag i m).copy = s.copy := rfl
@[simp] theorem State.sendMsg_ports (s : State) (tag : Byte) (i : BitVec 5) (m : MsgBody) : (s.sendMsg tag i m).ports = s.ports := rfl
@[simp] theorem State.sendMsg_linkGens (s : State) (tag : Byte) (i : BitVec 5) (m : MsgBody) : (s.sendMsg tag i m).linkGens = s.linkGens := rfl
@[simp] theorem State.sendMsg_junction (s : State) (tag : Byte) (i : BitVec 5) (m : MsgBody) : (s.sendMsg tag i m).junction = s.junction := rfl
@[simp] theorem State.sendMsg_arrivals (s : State) (tag : Byte) (i : BitVec 5) (m : MsgBody) : (s.sendMsg tag i m).arrivals = s.arrivals := rfl
@[simp] theorem State.sendMsg_classOf (s : State) (tag : Byte) (i : BitVec 5) (m : MsgBody) : (s.sendMsg tag i m).classOf = s.classOf := rfl
@[simp] theorem State.sendMsg_aborts (s : State) (tag : Byte) (i : BitVec 5) (m : MsgBody) : (s.sendMsg tag i m).aborts = s.aborts := rfl
@[simp] theorem State.sendMsg_replies (s : State) (tag : Byte) (i : BitVec 5) (m : MsgBody) : (s.sendMsg tag i m).replies = s.replies := rfl

/-! ### What they change -/

@[simp] theorem State.modInst_insts (s : State) (i : Nat) (f : Inst → Inst) : (s.modInst i f).insts = s.insts.modify i f := rfl
@[simp] theorem State.modCtx_ctxs (s : State) (tag : Byte) (f : Context → Context) :
    (s.modCtx tag f).ctxs = s.ctxs.map fun c => if c.tag == tag then f c else c := rfl
@[simp] theorem State.focusOn_focus (s : State) (i t : Nat) : (s.focusOn i t).focus = ⟨i, t, 0⟩ := rfl
@[simp] theorem State.complete_complRing (s : State) (cmd : Rec64) (r : W64) (st : Byte) :
    (s.complete cmd r st).complRing = s.complRing ++ [r ++ (cmd.extractLsb' 32 32 ++ BitVec.ofNat 24 0 ++ st)] := rfl

/-- An instance after a change of another. -/
theorem State.inst?_modInst_of_ne (s : State) (i j : Nat) (f : Inst → Inst) (h : i ≠ j) : (s.modInst i f).inst? j = s.inst? j := by
  simp [State.inst?, State.modInst, h]

/-- An instance after its own change. -/
theorem State.inst?_modInst (s : State) (i : Nat) (f : Inst → Inst) : (s.modInst i f).inst? i = (s.inst? i).map f := by
  simp [State.inst?, State.modInst]

/-- A tile after its own change. -/
theorem State.tile?_modTile (s : State) (i t : Nat) (f : Tile → Tile) : (s.modTile i t f).tile? i t = (s.tile? i t).map f := by
  simp only [State.tile?, State.modTile, State.inst?_modInst]
  cases s.inst? i <;> simp

/-- A tile after the change of another. -/
theorem State.tile?_modTile_of_ne (s : State) (i t j k : Nat) (f : Tile → Tile) (h : i ≠ j ∨ t ≠ k) :
    (s.modTile i t f).tile? j k = s.tile? j k := by
  by_cases hi : i = j
  · subst hi
    have ht : t ≠ k := by simpa using h
    simp only [State.tile?, State.modTile, State.inst?_modInst]
    cases s.inst? i <;> simp [ht]
  · simp only [State.tile?, State.modTile, State.inst?_modInst_of_ne _ _ _ _ hi]

/-- The tile in focus after its change. -/
theorem State.tile?_modFocus (s : State) (f : Tile → Tile) :
    (s.modFocus f).tile? s.focus.inst s.focus.tile = (s.tile? s.focus.inst s.focus.tile).map f := State.tile?_modTile ..

/-- A context after a change of the context of a tag that keeps its tag. -/
theorem State.ctx?_modCtx (s : State) (tag : Byte) (f : Context → Context) (h : ∀ c, (f c).tag = c.tag) :
    (s.modCtx tag f).ctx? tag = (s.ctx? tag).map f := by
  simp only [State.ctx?, State.modCtx]
  induction s.ctxs with
  | nil => rfl
  | cons c l ih =>
    by_cases hc : c.tag = tag
    · simp [hc, h]
    · have : (c.tag == tag) = false := by simpa using hc
      simp only [List.map_cons, List.find?_cons, this, Bool.false_eq_true, if_false]
      exact ih

/-- A fabric operator after its own change. -/
theorem State.nodes_modNode (s : State) (i k : Nat) (f : FabNode → FabNode) (x : Inst) (n : FabNode) (hx : s.insts[i]? = some x)
    (hn : x.nodes[k]? = some n) : ((s.modNode i k f).insts[i]?).map (fun x => x.nodes[k]?) = some (some (f n)) := by
  simp [State.modNode, State.modInst, hx, hn]

/-- A session after a message is put on it. -/
theorem State.session?_sendMsg (s : State) (tag : Byte) (i : BitVec 5) (m : MsgBody) (x : Session) (h : s.session? tag i = some x) :
    (s.sendMsg tag i m).session? tag i = some { x with outq := x.outq ++ [m] } := by
  simp only [State.session?, State.sendMsg] at h ⊢
  rw [s.ctx?_modCtx tag (fun c => c.modSession i fun x => { x with outq := x.outq ++ [m] }) fun _ => rfl]
  cases hc : s.ctx? tag with
  | none => simp [hc] at h
  | some c =>
    simp only [hc, Option.bind_some] at h
    obtain ⟨hi, hx⟩ := Vector.getElem?_eq_some_iff.1 h
    simp [Context.modSession, vmod, hi, hx]

end Sys2Proof.Machine
end

