-- ==== Sys2Proof/Laws/Ops.lean ====
section
/-! SUPPORT. What the shared operations do: canonical memories are kept, a word that may fire runs its meaning, a command that may be performed
runs its effect. -/

namespace Sys2Proof.Machine

/-! ### Canonical memories -/

/-- The canonical form of the memories of an instance. -/
theorem Inst.canonical_iff (x : Inst) : x.canonical = true ↔
    (∀ t ∈ x.tiles, t.slice.wf = true) ∧ ∀ n ∈ x.nodes, ∀ m ∈ n.ram, m.wf = true := by
  simp [Inst.canonical]

/-- The canonical form of the memories of the package. -/
theorem State.canonical_iff (s : State) : s.canonical = true ↔ s.hbm.wf = true ∧ s.host.wf = true ∧
    (∀ x ∈ s.insts, x.canonical = true) ∧ ∀ c ∈ s.ctxs, ∀ k, c.checkpoint = some k → k.canonical = true := by
  simp only [State.canonical, Bool.and_eq_true, List.all_eq_true, and_assoc]
  refine and_congr_right fun _ => and_congr_right fun _ => and_congr_right fun _ => forall₂_congr fun c _ => ?_
  cases c.checkpoint <;> simp

/-- A byte written reads as it was written. -/
theorem get_write (m : Mem) (a : Nat) (bs : List Byte) (h : m.wf = true) (k : Nat) (hk : k < bs.length) :
    (m.write a bs).get (a + k) = bs[k] := by
  have hw := ((wf_iff _).1 (write_wf m a bs h)).1
  simp only [Mem.get]
  rw [cellGet_eq _ hw]
  simp only [Mem.write, cellWrite, List.find?_append, List.find?_filter]
  have e1 : (m.cells.find? fun c => decide (c.1 < a) && (c.1 == a + k)) = none := by
    rw [List.find?_eq_none]; intro c _; simp; omega
  have e2 : (m.cells.find? fun c => decide (a + bs.length ≤ c.1) && (c.1 == a + k)) = none := by
    rw [List.find?_eq_none]; intro c _; simp; omega
  have e3 : ∀ (l : List Byte) (b j : Nat) (hj : j < l.length),
      (((mkCells b l).find? fun c => c.1 == b + j).map (·.2)).getD 0 = l[j] := by
    intro l
    induction l with
    | nil => intro b j hj; simp at hj
    | cons v l ih =>
      intro b j hj
      cases j with
      | zero =>
        by_cases hv : v = 0
        · simp only [mkCells, hv, if_true, Nat.add_zero, List.getElem_cons_zero]
          have : (mkCells (b + 1) l).find? (fun c => c.1 == b) = none := by
            rw [List.find?_eq_none]
            intro c hc
            have := mkCells_in (b + 1) l c hc
            simp; omega
          simp [this]
        · simp only [mkCells, if_neg hv]; simp
      | succ j =>
        have hj' : j < l.length := by simpa using hj
        have e : b + (j + 1) = b + 1 + j := by omega
        by_cases hv : v = 0
        · simpa [mkCells, hv, e] using ih (b + 1) j hj'
        · have : (b == b + 1 + j) = false := by simp; omega
          simp only [mkCells, if_neg hv, e, List.find?_cons, this]
          simpa using ih (b + 1) j hj'
  simp only [Bool.decide_and, Bool.decide_eq_true, e1, e2, Option.none_or, Option.or_none]
  exact e3 bs a k hk

/-- A change of an instance that keeps its memories canonical keeps the memories canonical. -/
theorem State.canonical_modInst (s : State) (i : Nat) (f : Inst → Inst) (h : s.canonical = true)
    (hf : ∀ x : Inst, x.canonical = true → (f x).canonical = true) : (s.modInst i f).canonical = true := by
  rw [State.canonical_iff] at h ⊢
  refine ⟨h.1, h.2.1, ?_, h.2.2.2⟩
  intro x hx
  rw [State.modInst_insts, List.mem_iff_getElem?] at hx
  obtain ⟨j, hj⟩ := hx
  rw [List.getElem?_modify] at hj
  cases hs : s.insts[j]? with
  | none => simp [hs] at hj
  | some y =>
    have hy : y ∈ s.insts := List.mem_of_getElem? hs
    simp only [hs, Option.map_eq_map, Option.map_some, Option.some.injEq] at hj
    by_cases he : i = j
    · rw [if_pos he] at hj; subst hj; exact hf y (h.2.2.1 y hy)
    · rw [if_neg he] at hj; subst hj; exact h.2.2.1 _ hy

/-- A change of a tile that keeps its slice canonical keeps the memories canonical. -/
theorem State.canonical_modTile (s : State) (i t : Nat) (f : Tile → Tile) (h : s.canonical = true)
    (hf : ∀ y, y.slice.wf = true → (f y).slice.wf = true) : (s.modTile i t f).canonical = true := by
  refine s.canonical_modInst i _ h ?_
  intro x hx
  rw [Inst.canonical_iff] at hx ⊢
  refine ⟨?_, hx.2⟩
  intro u hu
  obtain ⟨j, hj⟩ := List.mem_iff_getElem?.1 hu
  rw [List.getElem?_modify] at hj
  cases hs : x.tiles[j]? with
  | none => simp [hs] at hj
  | some y =>
    simp only [hs, Option.map_eq_map, Option.map_some, Option.some.injEq] at hj
    have hy := hx.1 y (List.mem_of_getElem? hs)
    by_cases he : t = j
    · rw [if_pos he] at hj; subst hj; exact hf y hy
    · rw [if_neg he] at hj; subst hj; exact hy

/-- A change of the tile in focus that keeps its slice canonical keeps the memories canonical. -/
theorem State.canonical_modFocus (s : State) (f : Tile → Tile) (h : s.canonical = true)
    (hf : ∀ y, y.slice.wf = true → (f y).slice.wf = true) : (s.modFocus f).canonical = true := s.canonical_modTile _ _ f h hf

/-- A change of a fabric operator that keeps its block RAM canonical keeps the memories canonical. -/
theorem State.canonical_modNode (s : State) (i k : Nat) (f : FabNode → FabNode) (h : s.canonical = true)
    (hf : ∀ n, (∀ m ∈ n.ram, m.wf = true) → ∀ m ∈ (f n).ram, m.wf = true) : (s.modNode i k f).canonical = true := by
  refine s.canonical_modInst i _ h ?_
  intro x hx
  rw [Inst.canonical_iff] at hx ⊢
  refine ⟨hx.1, ?_⟩
  intro n hn
  obtain ⟨j, hj⟩ := List.mem_iff_getElem?.1 hn
  rw [List.getElem?_modify] at hj
  cases hs : x.nodes[j]? with
  | none => simp [hs] at hj
  | some y =>
    simp only [hs, Option.map_eq_map, Option.map_some, Option.some.injEq] at hj
    have hy := hx.2 y (List.mem_of_getElem? hs)
    by_cases he : k = j
    · rw [if_pos he] at hj; subst hj; exact hf y hy
    · rw [if_neg he] at hj; subst hj; exact hy

/-- A change of a context that keeps its checkpoint canonical keeps the memories canonical. -/
theorem State.canonical_modCtx (s : State) (tag : Byte) (f : Context → Context) (h : s.canonical = true)
    (hf : ∀ c k, (f c).checkpoint = some k → c.checkpoint = some k ∨ k.canonical = true) : (s.modCtx tag f).canonical = true := by
  rw [State.canonical_iff] at h ⊢
  refine ⟨h.1, h.2.1, h.2.2.1, ?_⟩
  intro c hc k hk
  simp only [State.modCtx_ctxs, List.mem_map] at hc
  obtain ⟨d, hd, rfl⟩ := hc
  by_cases ht : d.tag == tag
  · rw [if_pos ht] at hk
    rcases hf d k hk with e | e
    · exact h.2.2.2 d hd k e
    · exact e
  · rw [if_neg ht] at hk; exact h.2.2.2 d hd k hk

/-- Bytes written to a slice, and a full/empty bit set, keep the slice canonical. -/
@[simp] theorem Tile.writeSlice_wf (t : Tile) (o : Nat) (bs : List Byte) (h : t.slice.wf = true) : (t.writeSlice o bs).slice.wf = true :=
  write_wf _ _ _ h
@[simp] theorem Tile.setFull_slice (t : Tile) (g : Nat) (full : Bool) : (t.setFull g full).slice = t.slice := rfl

/-- A write at any location keeps the memories canonical. -/
theorem State.canonical_writeLoc (s : State) (i : Nat) (l : Loc) (bs : List Byte) (h : s.canonical = true) :
    (s.writeLoc i l bs).canonical = true := by
  cases l with
  | slice t o => exact s.canonical_modTile i t _ h fun y hy => y.writeSlice_wf o bs hy
  | hbm p =>
    rw [State.canonical_iff] at h ⊢
    exact ⟨write_wf _ _ _ h.1, h.2⟩
  | host p =>
    rw [State.canonical_iff] at h ⊢
    exact ⟨h.1, write_wf _ _ _ h.2.1, h.2.2⟩
  | remote i v => exact h

/-- Giving up the resources of an owner keeps the memories canonical. -/
theorem State.canonical_freeResources (s : State) (tag : Byte) (h : s.canonical = true) : (s.freeResources tag).canonical = true := by
  simp only [State.freeResources]
  generalize ((s.frames.filter fun f => f.2 == tag).map (·.1)) = fs
  have h' : ∀ (l : List Nat) (r : State), r.canonical = true →
      (l.foldl (fun (s : State) f =>
        { s with
          hbm := s.hbm.clear (f * 0x200000) 0x200000
          hbmBad := s.hbmBad.filter fun w => !(decide (f * 0x200000 ≤ 8 * w) && decide (8 * w < f * 0x200000 + 0x200000)) }) r).canonical = true := by
    intro l
    induction l with
    | nil => exact fun r hr => hr
    | cons f l ih =>
      intro r hr
      refine ih _ ?_
      rw [State.canonical_iff] at hr ⊢
      exact ⟨clear_wf _ _ _ hr.1, hr.2⟩
  exact h' fs _ h

/-! ### Meanings on a tile, and firings -/

/-- A meaning on the tile in focus, where there is one. -/
theorem State.onTile_of (s : State) (x : Inst) (t : Tile) (k : Inst → Tile → Res) (hx : s.insts[s.focus.inst]? = some x)
    (ht : x.tiles[s.focus.tile]? = some t) : s.onTile k = k x t := by
  simp [State.onTile, State.inst?, hx, ht]

/-- An operand that holds a value, or is not required. -/
theorem operand_of (r : Bool) (tok : Option Tok) (v : W64) (h : holdsValue r tok v) : operand r tok = some (some v) := by
  cases r <;> simp_all [holdsValue, operand]

/-- A word that may fire is ready, with its operands. -/
theorem readiness_of (h : Head) (m : SeqMeta) (st : SlotSt) (a c : W64) (hf : st.fired = false) (hp : predicateMet h.pred st.pred)
    (hl : holdsValue m.left st.left a) (hr : holdsValue m.right st.right c) : readiness h m st = .go a c := by
  unfold readiness
  simp only [hf, operand_of _ _ _ hl, operand_of _ _ _ hr]
  cases hq : h.pred <;> simp only [hq, predicateMet] at hp
  · simp [operand]
  · obtain ⟨v, hv, hb⟩ := hp
    have e : operand (Pred.onTrue != Pred.always) st.pred = some (some v) := by rw [hv]; rfl
    simp [e, hb, -BitVec.getLsbD_eq_getElem]
  · obtain ⟨v, hv, hb⟩ := hp
    have e : operand (Pred.onFalse != Pred.always) st.pred = some (some v) := by rw [hv]; rfl
    simp [e, hb, -BitVec.getLsbD_eq_getElem]

/-- A word that may fire runs its meaning. -/
theorem fireWord_of (i : Instr) (s : State) (x : Inst) (t : Tile) (b : Block) (h : Head) (a c : W64) (wr : Option (BitVec 5)) (k : Fire → Res)
    (hm : MayFire i s x t b h a c) : ∃ m, i.shape = .seq h m ∧
      fireWord i s wr k = k { s := s, x := x, t := t, b := b, slot := s.focus.slot, h := h, m := m, left := a, right := c } := by
  obtain ⟨hb, m, st, hs, hst, hf, hp, hl, hr⟩ := hm
  refine ⟨m, hs, ?_⟩
  simp only [fireWord, hs, State.onTile_of s x t _ hb.inst hb.tile, hb.block, hb.issued, hst, readiness_of h m st a c hf hp hl hr,
    Bool.not_true, Bool.false_eq_true, if_false]

/-! ### Steps and commands -/

/-- A move that goes on, with the time that has passed. -/
theorem State.passed_next (s s' : State) (r : Res) (f : State → State) (h : s.passed r f = .next s') :
    ∃ s1, r = .next s1 ∧ s' = f (s.tick s1) := by
  cases r <;> simp_all [State.passed]

/-- A command that may be performed, for a context that no command in progress keeps busy, runs its effect. -/
theorem State.command_of (s : State) (cmd : Rec64) (code : Nat) (go : State → State) (h : MayPerform s cmd code)
    (hb : ∀ c, s.popCommand.byHandle (cmdHandle cmd) = some c → c.op = none ∨ code = 0x09 ∨ code = 0x0A) :
    s.command cmd code go = .next (go s.popCommand) := by
  have hl : s.popCommand.locked = false := by
    have := h.unlocked
    unfold State.popCommand
    repeat' split
    all_goals simpa using this
  simp only [State.command, h.ready, h.code, h.next, hl, h.format, bne_self_eq_false, Bool.or_false, Bool.false_eq_true, if_false, if_true]
  cases hc : s.popCommand.byHandle (cmdHandle cmd) with
  | none => simp
  | some c =>
    rcases hb c hc with e | e | e <;> simp [e]

/-- A command that names a context runs its effect on it, in a state in which it is valid. -/
theorem State.commandOn_of (s : State) (cmd : Rec64) (code : Nat) (c : Context) (ok : Context → Bool) (go : Context → State → State)
    (h : MayPerform s cmd code) (hn : Names s cmd code c) (hk : ok c = true) :
    s.commandOn cmd code ok go = .next (go c s.popCommand) := by
  unfold State.commandOn
  rw [s.command_of cmd code _ h (by intro d hd; rw [hn.handle] at hd; cases hd; exact hn.free)]
  simp only [hn.handle, hk, if_true]

/-! ### A choice among one -/

/-- Whatever the free choice among the accesses that may be made next, one alone is made. -/
theorem pickOf_single {α : Type} (n : Nat) (a : α) : pickOf n [a] = some a := by
  simp [pickOf, Nat.mod_one]

end Sys2Proof.Machine
end

