-- ==== Sys2Proof/Laws/PerInstr.lean ====
section
/-! SUPPORT. For every instruction: its encoding begins with its opcode. -/

/-- The opcode of a word stands in its highest bits (R61, R73, R238); a step that is no word has no encoding. -/
def Sys2Proof.Laws.Opcode.Statement (i : Sys2Proof.Instr) : Prop :=
  match i.shape with
  | .seq _ m => (Sys2Proof.encode i).extractLsb' 56 8 = m.op
  | .strip _ op _ => (Sys2Proof.encode i).extractLsb' 56 8 = op
  | .token op _ => (Sys2Proof.encode i).extractLsb' 60 4 = op
  | .step => Sys2Proof.encode i = 0

namespace Sys2Proof.Laws.Opcode

/-- The opcode of the fields of a sequencer word. -/
theorem seq_opcode (x : SeqFields) : x.toWord.extractLsb' 56 8 = x.op := by
  apply BitVec.eq_of_getLsbD_eq
  intro i hi
  rw [BitVec.getLsbD_extractLsb']
  change (decide (i < 8) && BitVec.getLsbD (w := 8 + 2 + 9 + 9 + 36)
    (x.op ++ x.pm ++ x.t0 ++ x.t1 ++ x.f) (56 + i)) = _
  simp only [BitVec.getLsbD_append, hi, if_false, decide_true, Bool.true_and,
    show ¬ (56 + i < 36) by omega,
    show ¬ (56 + i - 36 < 9) by omega,
    show ¬ (56 + i - 36 - 9 < 9) by omega,
    show ¬ (56 + i - 36 - 9 - 9 < 2) by omega,
    show 56 + i - 36 - 9 - 9 - 2 = i by omega]

/-- The opcode of a strip word. -/
theorem strip_opcode (op : BitVec 8) (w : SWord) : (w.toWord op).extractLsb' 56 8 = op := by
  apply BitVec.eq_of_getLsbD_eq
  intro i hi
  rw [BitVec.getLsbD_extractLsb']
  change (decide (i < 8) && BitVec.getLsbD (w := 8 + 3 + 3 + 3 + 4 + 6 + 6 + 6 + 6 + 19)
    (op ++ w.pop ++ w.push ++ w.rm ++ w.ty ++ w.d ++ w.a ++ w.b ++ w.c ++ w.imm) (56 + i)) = _
  simp only [BitVec.getLsbD_append, hi, if_false, decide_true, Bool.true_and,
    show ¬ (56 + i < 19) by omega,
    show ¬ (56 + i - 19 < 6) by omega,
    show ¬ (56 + i - 19 - 6 < 6) by omega,
    show ¬ (56 + i - 19 - 6 - 6 < 6) by omega,
    show ¬ (56 + i - 19 - 6 - 6 - 6 < 6) by omega,
    show ¬ (56 + i - 19 - 6 - 6 - 6 - 6 < 4) by omega,
    show ¬ (56 + i - 19 - 6 - 6 - 6 - 6 - 4 < 3) by omega,
    show ¬ (56 + i - 19 - 6 - 6 - 6 - 6 - 4 - 3 < 3) by omega,
    show ¬ (56 + i - 19 - 6 - 6 - 6 - 6 - 4 - 3 - 3 < 3) by omega,
    show 56 + i - 19 - 6 - 6 - 6 - 6 - 4 - 3 - 3 - 3 = i by omega]

/-- The operation of a control token. -/
theorem token_opcode (op : BitVec 4) (k : MTok) : (k.toWord op).extractLsb' 60 4 = op := by
  apply BitVec.eq_of_getLsbD_eq
  intro i hi
  rw [BitVec.getLsbD_extractLsb']
  change (decide (i < 4) && BitVec.getLsbD (w := 4 + 4 + 4 + 4 + 4 + 3 + 5 + 5 + 1 + 5 + 3 + 3 + 1 + 4 + 4 + 4 + 1 + 1 + 4)
    (op ++ k.fa ++ k.fb ++ k.sa ++ k.sb ++ k.acc ++ k.ra ++ k.rb ++ k.rnd ++ k.kcnt ++ k.pop ++ k.push ++ k.nsrc ++ k.nch ++ k.dch ++ k.ofmt ++ k.sat ++ k.lenfault ++ k.tag) (60 + i)) = _
  simp only [BitVec.getLsbD_append, hi, if_false, decide_true, Bool.true_and,
    show ¬ (60 + i < 4) by omega,
    show ¬ (60 + i - 4 < 1) by omega,
    show ¬ (60 + i - 4 - 1 < 1) by omega,
    show ¬ (60 + i - 4 - 1 - 1 < 4) by omega,
    show ¬ (60 + i - 4 - 1 - 1 - 4 < 4) by omega,
    show ¬ (60 + i - 4 - 1 - 1 - 4 - 4 < 4) by omega,
    show ¬ (60 + i - 4 - 1 - 1 - 4 - 4 - 4 < 1) by omega,
    show ¬ (60 + i - 4 - 1 - 1 - 4 - 4 - 4 - 1 < 3) by omega,
    show ¬ (60 + i - 4 - 1 - 1 - 4 - 4 - 4 - 1 - 3 < 3) by omega,
    show ¬ (60 + i - 4 - 1 - 1 - 4 - 4 - 4 - 1 - 3 - 3 < 5) by omega,
    show ¬ (60 + i - 4 - 1 - 1 - 4 - 4 - 4 - 1 - 3 - 3 - 5 < 1) by omega,
    show ¬ (60 + i - 4 - 1 - 1 - 4 - 4 - 4 - 1 - 3 - 3 - 5 - 1 < 5) by omega,
    show ¬ (60 + i - 4 - 1 - 1 - 4 - 4 - 4 - 1 - 3 - 3 - 5 - 1 - 5 < 5) by omega,
    show ¬ (60 + i - 4 - 1 - 1 - 4 - 4 - 4 - 1 - 3 - 3 - 5 - 1 - 5 - 5 < 3) by omega,
    show ¬ (60 + i - 4 - 1 - 1 - 4 - 4 - 4 - 1 - 3 - 3 - 5 - 1 - 5 - 5 - 3 < 4) by omega,
    show ¬ (60 + i - 4 - 1 - 1 - 4 - 4 - 4 - 1 - 3 - 3 - 5 - 1 - 5 - 5 - 3 - 4 < 4) by omega,
    show ¬ (60 + i - 4 - 1 - 1 - 4 - 4 - 4 - 1 - 3 - 3 - 5 - 1 - 5 - 5 - 3 - 4 - 4 < 4) by omega,
    show ¬ (60 + i - 4 - 1 - 1 - 4 - 4 - 4 - 1 - 3 - 3 - 5 - 1 - 5 - 5 - 3 - 4 - 4 - 4 < 4) by omega,
    show 60 + i - 4 - 1 - 1 - 4 - 4 - 4 - 1 - 3 - 3 - 5 - 1 - 5 - 5 - 3 - 4 - 4 - 4 - 4 = i by omega]

/-- Of every instruction. -/
theorem opcode_of (i : Instr) : Statement i := by
  unfold Statement encode
  cases h : i.shape with
  | seq hd m => exact seq_opcode _
  | strip e op w => exact strip_opcode op w
  | token op k => exact token_opcode op k
  | step => rfl

end Sys2Proof.Laws.Opcode

open Sys2Proof in
theorem Sys2Proof.Laws.Opcode.read (h : Head) (g : BitVec 5) : Statement (.read h g) := opcode_of _
open Sys2Proof in
theorem Sys2Proof.Laws.Opcode.write (h : Head) (g : BitVec 5) : Statement (.write h g) := opcode_of _
open Sys2Proof in
theorem Sys2Proof.Laws.Opcode.null (h : Head) (settle : BitVec 32) : Statement (.null h settle) := opcode_of _
open Sys2Proof in
theorem Sys2Proof.Laws.Opcode.mov (h : Head) : Statement (.mov h) := opcode_of _
open Sys2Proof in
theorem Sys2Proof.Laws.Opcode.movi (h : Head) (imm : BitVec 36) : Statement (.movi h imm) := opcode_of _
open Sys2Proof in
theorem Sys2Proof.Laws.Opcode.movhi (h : Head) (imm : BitVec 32) : Statement (.movhi h imm) := opcode_of _
open Sys2Proof in
theorem Sys2Proof.Laws.Opcode.adrb (h : Head) (exit : BitVec 3) (off : BitVec 33) : Statement (.adrb h exit off) := opcode_of _
open Sys2Proof in
theorem Sys2Proof.Laws.Opcode.br (h : Head) (exit : BitVec 3) (off : BitVec 33) : Statement (.br h exit off) := opcode_of _
open Sys2Proof in
theorem Sys2Proof.Laws.Opcode.brr (h : Head) : Statement (.brr h) := opcode_of _
open Sys2Proof in
theorem Sys2Proof.Laws.Opcode.call (h : Head) (exit : BitVec 3) (off : BitVec 33) : Statement (.call h exit off) := opcode_of _
open Sys2Proof in
theorem Sys2Proof.Laws.Opcode.callr (h : Head) : Statement (.callr h) := opcode_of _
open Sys2Proof in
theorem Sys2Proof.Laws.Opcode.halt (h : Head) : Statement (.halt h) := opcode_of _
open Sys2Proof in
theorem Sys2Proof.Laws.Opcode.yield (h : Head) (exit : BitVec 3) (off : BitVec 33) : Statement (.yield h exit off) := opcode_of _
open Sys2Proof in
theorem Sys2Proof.Laws.Opcode.add (h : Head) : Statement (.add h) := opcode_of _
open Sys2Proof in
theorem Sys2Proof.Laws.Opcode.addi (h : Head) (imm : BitVec 32) : Statement (.addi h imm) := opcode_of _
open Sys2Proof in
theorem Sys2Proof.Laws.Opcode.sub (h : Head) : Statement (.sub h) := opcode_of _
open Sys2Proof in
theorem Sys2Proof.Laws.Opcode.subi (h : Head) (imm : BitVec 32) : Statement (.subi h imm) := opcode_of _
open Sys2Proof in
theorem Sys2Proof.Laws.Opcode.mul (h : Head) : Statement (.mul h) := opcode_of _
open Sys2Proof in
theorem Sys2Proof.Laws.Opcode.muli (h : Head) (imm : BitVec 32) : Statement (.muli h imm) := opcode_of _
open Sys2Proof in
theorem Sys2Proof.Laws.Opcode.mulh (h : Head) : Statement (.mulh h) := opcode_of _
open Sys2Proof in
theorem Sys2Proof.Laws.Opcode.mulhu (h : Head) : Statement (.mulhu h) := opcode_of _
open Sys2Proof in
theorem Sys2Proof.Laws.Opcode.div (h : Head) : Statement (.div h) := opcode_of _
open Sys2Proof in
theorem Sys2Proof.Laws.Opcode.divu (h : Head) : Statement (.divu h) := opcode_of _
open Sys2Proof in
theorem Sys2Proof.Laws.Opcode.rem (h : Head) : Statement (.rem h) := opcode_of _
open Sys2Proof in
theorem Sys2Proof.Laws.Opcode.remu (h : Head) : Statement (.remu h) := opcode_of _
open Sys2Proof in
theorem Sys2Proof.Laws.Opcode.andW (h : Head) : Statement (.andW h) := opcode_of _
open Sys2Proof in
theorem Sys2Proof.Laws.Opcode.andi (h : Head) (imm : BitVec 32) : Statement (.andi h imm) := opcode_of _
open Sys2Proof in
theorem Sys2Proof.Laws.Opcode.orW (h : Head) : Statement (.orW h) := opcode_of _
open Sys2Proof in
theorem Sys2Proof.Laws.Opcode.ori (h : Head) (imm : BitVec 32) : Statement (.ori h imm) := opcode_of _
open Sys2Proof in
theorem Sys2Proof.Laws.Opcode.xorW (h : Head) : Statement (.xorW h) := opcode_of _
open Sys2Proof in
theorem Sys2Proof.Laws.Opcode.xori (h : Head) (imm : BitVec 32) : Statement (.xori h imm) := opcode_of _
open Sys2Proof in
theorem Sys2Proof.Laws.Opcode.shl (h : Head) : Statement (.shl h) := opcode_of _
open Sys2Proof in
theorem Sys2Proof.Laws.Opcode.shli (h : Head) (n : BitVec 6) : Statement (.shli h n) := opcode_of _
open Sys2Proof in
theorem Sys2Proof.Laws.Opcode.shr (h : Head) : Statement (.shr h) := opcode_of _
open Sys2Proof in
theorem Sys2Proof.Laws.Opcode.sra (h : Head) : Statement (.sra h) := opcode_of _
open Sys2Proof in
theorem Sys2Proof.Laws.Opcode.shri (h : Head) (n : BitVec 6) : Statement (.shri h n) := opcode_of _
open Sys2Proof in
theorem Sys2Proof.Laws.Opcode.srai (h : Head) (n : BitVec 6) : Statement (.srai h n) := opcode_of _
open Sys2Proof in
theorem Sys2Proof.Laws.Opcode.ext (h : Head) (lb : BitVec 6) (wm : BitVec 6) : Statement (.ext h lb wm) := opcode_of _
open Sys2Proof in
theorem Sys2Proof.Laws.Opcode.exts (h : Head) (lb : BitVec 6) (wm : BitVec 6) : Statement (.exts h lb wm) := opcode_of _
open Sys2Proof in
theorem Sys2Proof.Laws.Opcode.clz (h : Head) : Statement (.clz h) := opcode_of _
open Sys2Proof in
theorem Sys2Proof.Laws.Opcode.popc (h : Head) : Statement (.popc h) := opcode_of _
open Sys2Proof in
theorem Sys2Proof.Laws.Opcode.min (h : Head) : Statement (.min h) := opcode_of _
open Sys2Proof in
theorem Sys2Proof.Laws.Opcode.minu (h : Head) : Statement (.minu h) := opcode_of _
open Sys2Proof in
theorem Sys2Proof.Laws.Opcode.max (h : Head) : Statement (.max h) := opcode_of _
open Sys2Proof in
theorem Sys2Proof.Laws.Opcode.maxu (h : Head) : Statement (.maxu h) := opcode_of _
open Sys2Proof in
theorem Sys2Proof.Laws.Opcode.sextb (h : Head) : Statement (.sextb h) := opcode_of _
open Sys2Proof in
theorem Sys2Proof.Laws.Opcode.sexth (h : Head) : Statement (.sexth h) := opcode_of _
open Sys2Proof in
theorem Sys2Proof.Laws.Opcode.sextw (h : Head) : Statement (.sextw h) := opcode_of _
open Sys2Proof in
theorem Sys2Proof.Laws.Opcode.lea (h : Head) (sc : BitVec 2) : Statement (.lea h sc) := opcode_of _
open Sys2Proof in
theorem Sys2Proof.Laws.Opcode.teq (h : Head) : Statement (.teq h) := opcode_of _
open Sys2Proof in
theorem Sys2Proof.Laws.Opcode.teqi (h : Head) (imm : BitVec 32) : Statement (.teqi h imm) := opcode_of _
open Sys2Proof in
theorem Sys2Proof.Laws.Opcode.tne (h : Head) : Statement (.tne h) := opcode_of _
open Sys2Proof in
theorem Sys2Proof.Laws.Opcode.tnei (h : Head) (imm : BitVec 32) : Statement (.tnei h imm) := opcode_of _
open Sys2Proof in
theorem Sys2Proof.Laws.Opcode.tlt (h : Head) : Statement (.tlt h) := opcode_of _
open Sys2Proof in
theorem Sys2Proof.Laws.Opcode.tltu (h : Head) : Statement (.tltu h) := opcode_of _
open Sys2Proof in
theorem Sys2Proof.Laws.Opcode.tlti (h : Head) (imm : BitVec 32) : Statement (.tlti h imm) := opcode_of _
open Sys2Proof in
theorem Sys2Proof.Laws.Opcode.tltiu (h : Head) (imm : BitVec 32) : Statement (.tltiu h imm) := opcode_of _
open Sys2Proof in
theorem Sys2Proof.Laws.Opcode.tle (h : Head) : Statement (.tle h) := opcode_of _
open Sys2Proof in
theorem Sys2Proof.Laws.Opcode.tleu (h : Head) : Statement (.tleu h) := opcode_of _
open Sys2Proof in
theorem Sys2Proof.Laws.Opcode.tlei (h : Head) (imm : BitVec 32) : Statement (.tlei h imm) := opcode_of _
open Sys2Proof in
theorem Sys2Proof.Laws.Opcode.tleiu (h : Head) (imm : BitVec 32) : Statement (.tleiu h imm) := opcode_of _
open Sys2Proof in
theorem Sys2Proof.Laws.Opcode.tgt (h : Head) : Statement (.tgt h) := opcode_of _
open Sys2Proof in
theorem Sys2Proof.Laws.Opcode.tgtu (h : Head) : Statement (.tgtu h) := opcode_of _
open Sys2Proof in
theorem Sys2Proof.Laws.Opcode.tgti (h : Head) (imm : BitVec 32) : Statement (.tgti h imm) := opcode_of _
open Sys2Proof in
theorem Sys2Proof.Laws.Opcode.tgtiu (h : Head) (imm : BitVec 32) : Statement (.tgtiu h imm) := opcode_of _
open Sys2Proof in
theorem Sys2Proof.Laws.Opcode.tge (h : Head) : Statement (.tge h) := opcode_of _
open Sys2Proof in
theorem Sys2Proof.Laws.Opcode.tgeu (h : Head) : Statement (.tgeu h) := opcode_of _
open Sys2Proof in
theorem Sys2Proof.Laws.Opcode.tgei (h : Head) (imm : BitVec 32) : Statement (.tgei h imm) := opcode_of _
open Sys2Proof in
theorem Sys2Proof.Laws.Opcode.tgeiu (h : Head) (imm : BitVec 32) : Statement (.tgeiu h imm) := opcode_of _
open Sys2Proof in
theorem Sys2Proof.Laws.Opcode.tbit (h : Head) (n : BitVec 6) : Statement (.tbit h n) := opcode_of _
open Sys2Proof in
theorem Sys2Proof.Laws.Opcode.mfs (h : Head) (r : SReg) : Statement (.mfs h r) := opcode_of _
open Sys2Proof in
theorem Sys2Proof.Laws.Opcode.mts (h : Head) (ls : BitVec 5) (r : PlainSReg) : Statement (.mts h ls r) := opcode_of _
open Sys2Proof in
theorem Sys2Proof.Laws.Opcode.mtsFmode (h : Head) (ls : BitVec 5) : Statement (.mtsFmode h ls) := opcode_of _
open Sys2Proof in
theorem Sys2Proof.Laws.Opcode.mtsFflags (h : Head) (ls : BitVec 5) : Statement (.mtsFflags h ls) := opcode_of _
open Sys2Proof in
theorem Sys2Proof.Laws.Opcode.mtsEpc (h : Head) (ls : BitVec 5) : Statement (.mtsEpc h ls) := opcode_of _
open Sys2Proof in
theorem Sys2Proof.Laws.Opcode.trap (h : Head) (code : BitVec 16) : Statement (.trap h code) := opcode_of _
open Sys2Proof in
theorem Sys2Proof.Laws.Opcode.hret (h : Head) : Statement (.hret h) := opcode_of _
open Sys2Proof in
theorem Sys2Proof.Laws.Opcode.ld (h : Head) (ls : BitVec 5) (sz : Size) (off : BitVec 24) : Statement (.ld h ls sz off) := opcode_of _
open Sys2Proof in
theorem Sys2Proof.Laws.Opcode.lds (h : Head) (ls : BitVec 5) (sz : Size) (off : BitVec 24) : Statement (.lds h ls sz off) := opcode_of _
open Sys2Proof in
theorem Sys2Proof.Laws.Opcode.st (h : Head) (ls : BitVec 5) (sz : Size) (off : BitVec 24) : Statement (.st h ls sz off) := opcode_of _
open Sys2Proof in
theorem Sys2Proof.Laws.Opcode.ldf (h : Head) (ls : BitVec 5) (sz : Size) (off : BitVec 24) : Statement (.ldf h ls sz off) := opcode_of _
open Sys2Proof in
theorem Sys2Proof.Laws.Opcode.stf (h : Head) (ls : BitVec 5) (sz : Size) (off : BitVec 24) : Statement (.stf h ls sz off) := opcode_of _
open Sys2Proof in
theorem Sys2Proof.Laws.Opcode.empty (h : Head) (ls : BitVec 5) (off : BitVec 24) : Statement (.empty h ls off) := opcode_of _
open Sys2Proof in
theorem Sys2Proof.Laws.Opcode.ldfTake (h : Head) (ls : BitVec 5) (sz : Size) (g : BitVec 5) (off : BitVec 24) : Statement (.ldfTake h ls sz g off) := opcode_of _
open Sys2Proof in
theorem Sys2Proof.Laws.Opcode.waita (h : Head) (ls : BitVec 5) (g : BitVec 5) (off : BitVec 24) : Statement (.waita h ls g off) := opcode_of _
open Sys2Proof in
theorem Sys2Proof.Laws.Opcode.aadd (h : Head) (ls : BitVec 5) (wide : Bool) (g : BitVec 5) (off : BitVec 24) : Statement (.aadd h ls wide g off) := opcode_of _
open Sys2Proof in
theorem Sys2Proof.Laws.Opcode.aswp (h : Head) (ls : BitVec 5) (wide : Bool) (g : BitVec 5) (off : BitVec 24) : Statement (.aswp h ls wide g off) := opcode_of _
open Sys2Proof in
theorem Sys2Proof.Laws.Opcode.acas (h : Head) (ls : BitVec 5) (wide : Bool) (g : BitVec 5) (off : BitVec 24) : Statement (.acas h ls wide g off) := opcode_of _
open Sys2Proof in
theorem Sys2Proof.Laws.Opcode.aand (h : Head) (ls : BitVec 5) (wide : Bool) (g : BitVec 5) (off : BitVec 24) : Statement (.aand h ls wide g off) := opcode_of _
open Sys2Proof in
theorem Sys2Proof.Laws.Opcode.aor (h : Head) (ls : BitVec 5) (wide : Bool) (g : BitVec 5) (off : BitVec 24) : Statement (.aor h ls wide g off) := opcode_of _
open Sys2Proof in
theorem Sys2Proof.Laws.Opcode.axor (h : Head) (ls : BitVec 5) (wide : Bool) (g : BitVec 5) (off : BitVec 24) : Statement (.axor h ls wide g off) := opcode_of _
open Sys2Proof in
theorem Sys2Proof.Laws.Opcode.amin (h : Head) (ls : BitVec 5) (wide : Bool) (g : BitVec 5) (off : BitVec 24) : Statement (.amin h ls wide g off) := opcode_of _
open Sys2Proof in
theorem Sys2Proof.Laws.Opcode.amax (h : Head) (ls : BitVec 5) (wide : Bool) (g : BitVec 5) (off : BitVec 24) : Statement (.amax h ls wide g off) := opcode_of _
open Sys2Proof in
theorem Sys2Proof.Laws.Opcode.aminu (h : Head) (ls : BitVec 5) (wide : Bool) (g : BitVec 5) (off : BitVec 24) : Statement (.aminu h ls wide g off) := opcode_of _
open Sys2Proof in
theorem Sys2Proof.Laws.Opcode.amaxu (h : Head) (ls : BitVec 5) (wide : Bool) (g : BitVec 5) (off : BitVec 24) : Statement (.amaxu h ls wide g off) := opcode_of _
open Sys2Proof in
theorem Sys2Proof.Laws.Opcode.fence (h : Head) (scope : Scope) : Statement (.fence h scope) := opcode_of _
open Sys2Proof in
theorem Sys2Proof.Laws.Opcode.sbar (h : Head) (mask : BitVec 16) : Statement (.sbar h mask) := opcode_of _
open Sys2Proof in
theorem Sys2Proof.Laws.Opcode.sdef (h : Head) (ls : BitVec 5) (st : BitVec 4) (off : BitVec 24) : Statement (.sdef h ls st off) := opcode_of _
open Sys2Proof in
theorem Sys2Proof.Laws.Opcode.sgo (h : Head) (ls : BitVec 5) (st : BitVec 4) : Statement (.sgo h ls st) := opcode_of _
open Sys2Proof in
theorem Sys2Proof.Laws.Opcode.sstop (h : Head) (ls : BitVec 5) (st : BitVec 4) : Statement (.sstop h ls st) := opcode_of _
open Sys2Proof in
theorem Sys2Proof.Laws.Opcode.cpy (h : Head) (ls : BitVec 5) (off : BitVec 24) : Statement (.cpy h ls off) := opcode_of _
open Sys2Proof in
theorem Sys2Proof.Laws.Opcode.halo (h : Head) (ls : BitVec 5) (off : BitVec 24) : Statement (.halo h ls off) := opcode_of _
open Sys2Proof in
theorem Sys2Proof.Laws.Opcode.vcfmt (h : Head) (ls : BitVec 5) (port : BitVec 2) (vc : BitVec 5) : Statement (.vcfmt h ls port vc) := opcode_of _
open Sys2Proof in
theorem Sys2Proof.Laws.Opcode.vcscl (h : Head) (ls : BitVec 5) (port : BitVec 2) (reg : BitVec 3) : Statement (.vcscl h ls port reg) := opcode_of _
open Sys2Proof in
theorem Sys2Proof.Laws.Opcode.run (h : Head) (ls : BitVec 5) (e : StripId) (cnt : BitVec 12) (rep : BitVec 12) : Statement (.run h ls e cnt rep) := opcode_of _
open Sys2Proof in
theorem Sys2Proof.Laws.Opcode.chr (h : Head) (ls : BitVec 5) (ch : BitVec 4) (word : BitVec 7) : Statement (.chr h ls ch word) := opcode_of _
open Sys2Proof in
theorem Sys2Proof.Laws.Opcode.chw (h : Head) (ls : BitVec 5) (ch : BitVec 4) (tag : BitVec 8) (last : Bool) : Statement (.chw h ls ch tag last) := opcode_of _
open Sys2Proof in
theorem Sys2Proof.Laws.Opcode.tokp (h : Head) (ls : BitVec 5) (e : Partner) : Statement (.tokp h ls e) := opcode_of _
open Sys2Proof in
theorem Sys2Proof.Laws.Opcode.tokw (h : Head) (ls : BitVec 5) (e : Partner) : Statement (.tokw h ls e) := opcode_of _
open Sys2Proof in
theorem Sys2Proof.Laws.Opcode.oclaim (h : Head) (ls : BitVec 5) (slot : BitVec 4) : Statement (.oclaim h ls slot) := opcode_of _
open Sys2Proof in
theorem Sys2Proof.Laws.Opcode.orelease (h : Head) (ls : BitVec 5) (slot : BitVec 4) : Statement (.orelease h ls slot) := opcode_of _
open Sys2Proof in
theorem Sys2Proof.Laws.Opcode.ofill (h : Head) (ls : BitVec 5) (slot : BitVec 4) (off : BitVec 24) : Statement (.ofill h ls slot off) := opcode_of _
open Sys2Proof in
theorem Sys2Proof.Laws.Opcode.mxq (h : Head) (ls : BitVec 5) : Statement (.mxq h ls) := opcode_of _
open Sys2Proof in
theorem Sys2Proof.Laws.Opcode.sema (h : Head) (ls : BitVec 5) (g : BitVec 5) (sem : BitVec 6) (cnt : BitVec 16) : Statement (.sema h ls g sem cnt) := opcode_of _
open Sys2Proof in
theorem Sys2Proof.Laws.Opcode.semp (h : Head) (ls : BitVec 5) (sem : BitVec 6) (cnt : BitVec 16) : Statement (.semp h ls sem cnt) := opcode_of _
open Sys2Proof in
theorem Sys2Proof.Laws.Opcode.semt (h : Head) (sem : BitVec 6) : Statement (.semt h sem) := opcode_of _
open Sys2Proof in
theorem Sys2Proof.Laws.Opcode.bara (h : Head) (ls : BitVec 5) (g : BitVec 5) (gid : BitVec 8) : Statement (.bara h ls g gid) := opcode_of _
open Sys2Proof in
theorem Sys2Proof.Laws.Opcode.barw (h : Head) (ls : BitVec 5) (gid : BitVec 8) : Statement (.barw h ls gid) := opcode_of _
open Sys2Proof in
theorem Sys2Proof.Laws.Opcode.bar (h : Head) (ls : BitVec 5) (gid : BitVec 8) : Statement (.bar h ls gid) := opcode_of _
open Sys2Proof in
theorem Sys2Proof.Laws.Opcode.barc (h : Head) (ls : BitVec 5) (gid : BitVec 8) : Statement (.barc h ls gid) := opcode_of _
open Sys2Proof in
theorem Sys2Proof.Laws.Opcode.gsid (h : Head) (n : BitVec 2) : Statement (.gsid h n) := opcode_of _
open Sys2Proof in
theorem Sys2Proof.Laws.Opcode.gsize (h : Head) (gid : BitVec 8) : Statement (.gsize h gid) := opcode_of _
open Sys2Proof in
theorem Sys2Proof.Laws.Opcode.grank (h : Head) (gid : BitVec 8) : Statement (.grank h gid) := opcode_of _
open Sys2Proof in
theorem Sys2Proof.Laws.Opcode.gmemb (h : Head) (gid : BitVec 8) : Statement (.gmemb h gid) := opcode_of _
open Sys2Proof in
theorem Sys2Proof.Laws.Opcode.enq (h : Head) (ls : BitVec 5) (q : BitVec 4) (off : BitVec 24) : Statement (.enq h ls q off) := opcode_of _
open Sys2Proof in
theorem Sys2Proof.Laws.Opcode.qstat (h : Head) (q : BitVec 4) : Statement (.qstat h q) := opcode_of _
open Sys2Proof in
theorem Sys2Proof.Laws.Opcode.tlbi (h : Head) (ls : BitVec 5) (kind : InvKind) : Statement (.tlbi h ls kind) := opcode_of _
open Sys2Proof in
theorem Sys2Proof.Laws.Opcode.pmig (h : Head) (ls : BitVec 5) : Statement (.pmig h ls) := opcode_of _
open Sys2Proof in
theorem Sys2Proof.Laws.Opcode.lnkst (h : Head) (port : BitVec 5) : Statement (.lnkst h port) := opcode_of _
open Sys2Proof in
theorem Sys2Proof.Laws.Opcode.ctxq (h : Head) (item : CtxItem) : Statement (.ctxq h item) := opcode_of _
open Sys2Proof in
theorem Sys2Proof.Laws.Opcode.ctxqClearFlags (h : Head) : Statement (.ctxqClearFlags h) := opcode_of _
open Sys2Proof in
theorem Sys2Proof.Laws.Opcode.idle (e : StripId) (w : SWord) : Statement (.idle e w) := opcode_of _
open Sys2Proof in
theorem Sys2Proof.Laws.Opcode.astAdd (w : SWord) : Statement (.astAdd w) := opcode_of _
open Sys2Proof in
theorem Sys2Proof.Laws.Opcode.astSub (w : SWord) : Statement (.astSub w) := opcode_of _
open Sys2Proof in
theorem Sys2Proof.Laws.Opcode.astMul (w : SWord) : Statement (.astMul w) := opcode_of _
open Sys2Proof in
theorem Sys2Proof.Laws.Opcode.astFma (w : SWord) : Statement (.astFma w) := opcode_of _
open Sys2Proof in
theorem Sys2Proof.Laws.Opcode.astFms (w : SWord) : Statement (.astFms w) := opcode_of _
open Sys2Proof in
theorem Sys2Proof.Laws.Opcode.astFnma (w : SWord) : Statement (.astFnma w) := opcode_of _
open Sys2Proof in
theorem Sys2Proof.Laws.Opcode.astMin (w : SWord) : Statement (.astMin w) := opcode_of _
open Sys2Proof in
theorem Sys2Proof.Laws.Opcode.astMax (w : SWord) : Statement (.astMax w) := opcode_of _
open Sys2Proof in
theorem Sys2Proof.Laws.Opcode.astAbs (w : SWord) : Statement (.astAbs w) := opcode_of _
open Sys2Proof in
theorem Sys2Proof.Laws.Opcode.astNeg (w : SWord) : Statement (.astNeg w) := opcode_of _
open Sys2Proof in
theorem Sys2Proof.Laws.Opcode.astCmpeq (w : SWord) : Statement (.astCmpeq w) := opcode_of _
open Sys2Proof in
theorem Sys2Proof.Laws.Opcode.astCmpne (w : SWord) : Statement (.astCmpne w) := opcode_of _
open Sys2Proof in
theorem Sys2Proof.Laws.Opcode.astCmplt (w : SWord) : Statement (.astCmplt w) := opcode_of _
open Sys2Proof in
theorem Sys2Proof.Laws.Opcode.astCmple (w : SWord) : Statement (.astCmple w) := opcode_of _
open Sys2Proof in
theorem Sys2Proof.Laws.Opcode.astSel (w : SWord) : Statement (.astSel w) := opcode_of _
open Sys2Proof in
theorem Sys2Proof.Laws.Opcode.astMov (w : SWord) : Statement (.astMov w) := opcode_of _
open Sys2Proof in
theorem Sys2Proof.Laws.Opcode.astAnd (w : SWord) : Statement (.astAnd w) := opcode_of _
open Sys2Proof in
theorem Sys2Proof.Laws.Opcode.astOr (w : SWord) : Statement (.astOr w) := opcode_of _
open Sys2Proof in
theorem Sys2Proof.Laws.Opcode.astXor (w : SWord) : Statement (.astXor w) := opcode_of _
open Sys2Proof in
theorem Sys2Proof.Laws.Opcode.astNot (w : SWord) : Statement (.astNot w) := opcode_of _
open Sys2Proof in
theorem Sys2Proof.Laws.Opcode.astShl (w : SWord) : Statement (.astShl w) := opcode_of _
open Sys2Proof in
theorem Sys2Proof.Laws.Opcode.astShr (w : SWord) : Statement (.astShr w) := opcode_of _
open Sys2Proof in
theorem Sys2Proof.Laws.Opcode.astSra (w : SWord) : Statement (.astSra w) := opcode_of _
open Sys2Proof in
theorem Sys2Proof.Laws.Opcode.astMulh (w : SWord) : Statement (.astMulh w) := opcode_of _
open Sys2Proof in
theorem Sys2Proof.Laws.Opcode.astMadd (w : SWord) : Statement (.astMadd w) := opcode_of _
open Sys2Proof in
theorem Sys2Proof.Laws.Opcode.astAdds (w : SWord) : Statement (.astAdds w) := opcode_of _
open Sys2Proof in
theorem Sys2Proof.Laws.Opcode.astSubs (w : SWord) : Statement (.astSubs w) := opcode_of _
open Sys2Proof in
theorem Sys2Proof.Laws.Opcode.astClamp (w : SWord) : Statement (.astClamp w) := opcode_of _
open Sys2Proof in
theorem Sys2Proof.Laws.Opcode.astRint (w : SWord) : Statement (.astRint w) := opcode_of _
open Sys2Proof in
theorem Sys2Proof.Laws.Opcode.astClass (w : SWord) : Statement (.astClass w) := opcode_of _
open Sys2Proof in
theorem Sys2Proof.Laws.Opcode.astCopysign (w : SWord) : Statement (.astCopysign w) := opcode_of _
open Sys2Proof in
theorem Sys2Proof.Laws.Opcode.astScale (w : SWord) : Statement (.astScale w) := opcode_of _
open Sys2Proof in
theorem Sys2Proof.Laws.Opcode.astAbsd (w : SWord) : Statement (.astAbsd w) := opcode_of _
open Sys2Proof in
theorem Sys2Proof.Laws.Opcode.astAvg (w : SWord) : Statement (.astAvg w) := opcode_of _
open Sys2Proof in
theorem Sys2Proof.Laws.Opcode.astClz (w : SWord) : Statement (.astClz w) := opcode_of _
open Sys2Proof in
theorem Sys2Proof.Laws.Opcode.astPopc (w : SWord) : Statement (.astPopc w) := opcode_of _
open Sys2Proof in
theorem Sys2Proof.Laws.Opcode.astFlagr (w : SWord) : Statement (.astFlagr w) := opcode_of _
open Sys2Proof in
theorem Sys2Proof.Laws.Opcode.astFlagc (w : SWord) : Statement (.astFlagc w) := opcode_of _
open Sys2Proof in
theorem Sys2Proof.Laws.Opcode.estExp (w : SWord) : Statement (.estExp w) := opcode_of _
open Sys2Proof in
theorem Sys2Proof.Laws.Opcode.estExp2 (w : SWord) : Statement (.estExp2 w) := opcode_of _
open Sys2Proof in
theorem Sys2Proof.Laws.Opcode.estExp10 (w : SWord) : Statement (.estExp10 w) := opcode_of _
open Sys2Proof in
theorem Sys2Proof.Laws.Opcode.estExpm1 (w : SWord) : Statement (.estExpm1 w) := opcode_of _
open Sys2Proof in
theorem Sys2Proof.Laws.Opcode.estLog (w : SWord) : Statement (.estLog w) := opcode_of _
open Sys2Proof in
theorem Sys2Proof.Laws.Opcode.estLog2 (w : SWord) : Statement (.estLog2 w) := opcode_of _
open Sys2Proof in
theorem Sys2Proof.Laws.Opcode.estLog10 (w : SWord) : Statement (.estLog10 w) := opcode_of _
open Sys2Proof in
theorem Sys2Proof.Laws.Opcode.estLog1p (w : SWord) : Statement (.estLog1p w) := opcode_of _
open Sys2Proof in
theorem Sys2Proof.Laws.Opcode.estSin (w : SWord) : Statement (.estSin w) := opcode_of _
open Sys2Proof in
theorem Sys2Proof.Laws.Opcode.estCos (w : SWord) : Statement (.estCos w) := opcode_of _
open Sys2Proof in
theorem Sys2Proof.Laws.Opcode.estTan (w : SWord) : Statement (.estTan w) := opcode_of _
open Sys2Proof in
theorem Sys2Proof.Laws.Opcode.estSinpi (w : SWord) : Statement (.estSinpi w) := opcode_of _
open Sys2Proof in
theorem Sys2Proof.Laws.Opcode.estCospi (w : SWord) : Statement (.estCospi w) := opcode_of _
open Sys2Proof in
theorem Sys2Proof.Laws.Opcode.estAsin (w : SWord) : Statement (.estAsin w) := opcode_of _
open Sys2Proof in
theorem Sys2Proof.Laws.Opcode.estAcos (w : SWord) : Statement (.estAcos w) := opcode_of _
open Sys2Proof in
theorem Sys2Proof.Laws.Opcode.estAtan (w : SWord) : Statement (.estAtan w) := opcode_of _
open Sys2Proof in
theorem Sys2Proof.Laws.Opcode.estAtan2 (w : SWord) : Statement (.estAtan2 w) := opcode_of _
open Sys2Proof in
theorem Sys2Proof.Laws.Opcode.estSinh (w : SWord) : Statement (.estSinh w) := opcode_of _
open Sys2Proof in
theorem Sys2Proof.Laws.Opcode.estCosh (w : SWord) : Statement (.estCosh w) := opcode_of _
open Sys2Proof in
theorem Sys2Proof.Laws.Opcode.estTanh (w : SWord) : Statement (.estTanh w) := opcode_of _
open Sys2Proof in
theorem Sys2Proof.Laws.Opcode.estErf (w : SWord) : Statement (.estErf w) := opcode_of _
open Sys2Proof in
theorem Sys2Proof.Laws.Opcode.estErfc (w : SWord) : Statement (.estErfc w) := opcode_of _
open Sys2Proof in
theorem Sys2Proof.Laws.Opcode.estSigmoid (w : SWord) : Statement (.estSigmoid w) := opcode_of _
open Sys2Proof in
theorem Sys2Proof.Laws.Opcode.estPow (w : SWord) : Statement (.estPow w) := opcode_of _
open Sys2Proof in
theorem Sys2Proof.Laws.Opcode.estCbrt (w : SWord) : Statement (.estCbrt w) := opcode_of _
open Sys2Proof in
theorem Sys2Proof.Laws.Opcode.estHypot (w : SWord) : Statement (.estHypot w) := opcode_of _
open Sys2Proof in
theorem Sys2Proof.Laws.Opcode.estRsqrt (w : SWord) : Statement (.estRsqrt w) := opcode_of _
open Sys2Proof in
theorem Sys2Proof.Laws.Opcode.estSqrt (w : SWord) : Statement (.estSqrt w) := opcode_of _
open Sys2Proof in
theorem Sys2Proof.Laws.Opcode.estRcp (w : SWord) : Statement (.estRcp w) := opcode_of _
open Sys2Proof in
theorem Sys2Proof.Laws.Opcode.estDiv (w : SWord) : Statement (.estDiv w) := opcode_of _
open Sys2Proof in
theorem Sys2Proof.Laws.Opcode.estExpA (w : SWord) : Statement (.estExpA w) := opcode_of _
open Sys2Proof in
theorem Sys2Proof.Laws.Opcode.estExp2A (w : SWord) : Statement (.estExp2A w) := opcode_of _
open Sys2Proof in
theorem Sys2Proof.Laws.Opcode.estExp10A (w : SWord) : Statement (.estExp10A w) := opcode_of _
open Sys2Proof in
theorem Sys2Proof.Laws.Opcode.estLogA (w : SWord) : Statement (.estLogA w) := opcode_of _
open Sys2Proof in
theorem Sys2Proof.Laws.Opcode.estLog2A (w : SWord) : Statement (.estLog2A w) := opcode_of _
open Sys2Proof in
theorem Sys2Proof.Laws.Opcode.estSigmoidA (w : SWord) : Statement (.estSigmoidA w) := opcode_of _
open Sys2Proof in
theorem Sys2Proof.Laws.Opcode.estRsqrtA (w : SWord) : Statement (.estRsqrtA w) := opcode_of _
open Sys2Proof in
theorem Sys2Proof.Laws.Opcode.estSqrtA (w : SWord) : Statement (.estSqrtA w) := opcode_of _
open Sys2Proof in
theorem Sys2Proof.Laws.Opcode.estRcpA (w : SWord) : Statement (.estRcpA w) := opcode_of _
open Sys2Proof in
theorem Sys2Proof.Laws.Opcode.estDivA (w : SWord) : Statement (.estDivA w) := opcode_of _
open Sys2Proof in
theorem Sys2Proof.Laws.Opcode.estHardr (w : SWord) : Statement (.estHardr w) := opcode_of _
open Sys2Proof in
theorem Sys2Proof.Laws.Opcode.estFlagr (w : SWord) : Statement (.estFlagr w) := opcode_of _
open Sys2Proof in
theorem Sys2Proof.Laws.Opcode.estFlagc (w : SWord) : Statement (.estFlagc w) := opcode_of _
open Sys2Proof in
theorem Sys2Proof.Laws.Opcode.pstPermb (w : SWord) : Statement (.pstPermb w) := opcode_of _
open Sys2Proof in
theorem Sys2Proof.Laws.Opcode.pstShuf (w : SWord) : Statement (.pstShuf w) := opcode_of _
open Sys2Proof in
theorem Sys2Proof.Laws.Opcode.pstRotl (w : SWord) : Statement (.pstRotl w) := opcode_of _
open Sys2Proof in
theorem Sys2Proof.Laws.Opcode.pstBcast (w : SWord) : Statement (.pstBcast w) := opcode_of _
open Sys2Proof in
theorem Sys2Proof.Laws.Opcode.pstZip (w : SWord) : Statement (.pstZip w) := opcode_of _
open Sys2Proof in
theorem Sys2Proof.Laws.Opcode.pstUnzip (w : SWord) : Statement (.pstUnzip w) := opcode_of _
open Sys2Proof in
theorem Sys2Proof.Laws.Opcode.pstCvt (w : SWord) : Statement (.pstCvt w) := opcode_of _
open Sys2Proof in
theorem Sys2Proof.Laws.Opcode.pstPackb (w : SWord) : Statement (.pstPackb w) := opcode_of _
open Sys2Proof in
theorem Sys2Proof.Laws.Opcode.pstUnpackb (w : SWord) : Statement (.pstUnpackb w) := opcode_of _
open Sys2Proof in
theorem Sys2Proof.Laws.Opcode.pstScan (w : SWord) : Statement (.pstScan w) := opcode_of _
open Sys2Proof in
theorem Sys2Proof.Laws.Opcode.pstReduce (w : SWord) : Statement (.pstReduce w) := opcode_of _
open Sys2Proof in
theorem Sys2Proof.Laws.Opcode.pstCompact (w : SWord) : Statement (.pstCompact w) := opcode_of _
open Sys2Proof in
theorem Sys2Proof.Laws.Opcode.pstExpand (w : SWord) : Statement (.pstExpand w) := opcode_of _
open Sys2Proof in
theorem Sys2Proof.Laws.Opcode.pstIntersect (w : SWord) : Statement (.pstIntersect w) := opcode_of _
open Sys2Proof in
theorem Sys2Proof.Laws.Opcode.pstSteer (w : SWord) : Statement (.pstSteer w) := opcode_of _
open Sys2Proof in
theorem Sys2Proof.Laws.Opcode.pstMerge (w : SWord) : Statement (.pstMerge w) := opcode_of _
open Sys2Proof in
theorem Sys2Proof.Laws.Opcode.pstSegscan (w : SWord) : Statement (.pstSegscan w) := opcode_of _
open Sys2Proof in
theorem Sys2Proof.Laws.Opcode.pstIota (w : SWord) : Statement (.pstIota w) := opcode_of _
open Sys2Proof in
theorem Sys2Proof.Laws.Opcode.pstMaskgen (w : SWord) : Statement (.pstMaskgen w) := opcode_of _
open Sys2Proof in
theorem Sys2Proof.Laws.Opcode.pstPopcm (w : SWord) : Statement (.pstPopcm w) := opcode_of _
open Sys2Proof in
theorem Sys2Proof.Laws.Opcode.pstTrn (w : SWord) : Statement (.pstTrn w) := opcode_of _
open Sys2Proof in
theorem Sys2Proof.Laws.Opcode.pstInsl (w : SWord) : Statement (.pstInsl w) := opcode_of _
open Sys2Proof in
theorem Sys2Proof.Laws.Opcode.pstExtl (w : SWord) : Statement (.pstExtl w) := opcode_of _
open Sys2Proof in
theorem Sys2Proof.Laws.Opcode.pstSplit (w : SWord) : Statement (.pstSplit w) := opcode_of _
open Sys2Proof in
theorem Sys2Proof.Laws.Opcode.pstTags (w : SWord) : Statement (.pstTags w) := opcode_of _
open Sys2Proof in
theorem Sys2Proof.Laws.Opcode.pstMarke (w : SWord) : Statement (.pstMarke w) := opcode_of _
open Sys2Proof in
theorem Sys2Proof.Laws.Opcode.pstTagt (w : SWord) : Statement (.pstTagt w) := opcode_of _
open Sys2Proof in
theorem Sys2Proof.Laws.Opcode.coldReset (pass : BootResult) : Statement (.coldReset pass) := opcode_of _
open Sys2Proof in
theorem Sys2Proof.Laws.Opcode.blockFetch : Statement (.blockFetch) := opcode_of _
open Sys2Proof in
theorem Sys2Proof.Laws.Opcode.blockIssue : Statement (.blockIssue) := opcode_of _
open Sys2Proof in
theorem Sys2Proof.Laws.Opcode.blockCommit : Statement (.blockCommit) := opcode_of _
open Sys2Proof in
theorem Sys2Proof.Laws.Opcode.blockMalformedDetect : Statement (.blockMalformedDetect) := opcode_of _
open Sys2Proof in
theorem Sys2Proof.Laws.Opcode.serialiseIssue : Statement (.serialiseIssue) := opcode_of _
open Sys2Proof in
theorem Sys2Proof.Laws.Opcode.runCheck (e : StripId) : Statement (.runCheck e) := opcode_of _
open Sys2Proof in
theorem Sys2Proof.Laws.Opcode.stripResultDue (e : StripId) : Statement (.stripResultDue e) := opcode_of _
open Sys2Proof in
theorem Sys2Proof.Laws.Opcode.stripWordIssue (e : StripId) : Statement (.stripWordIssue e) := opcode_of _
open Sys2Proof in
theorem Sys2Proof.Laws.Opcode.secondPhaseRound : Statement (.secondPhaseRound) := opcode_of _
open Sys2Proof in
theorem Sys2Proof.Laws.Opcode.mxeTokenTake : Statement (.mxeTokenTake) := opcode_of _
open Sys2Proof in
theorem Sys2Proof.Laws.Opcode.mma (k : MTok) : Statement (.mma k) := opcode_of _
open Sys2Proof in
theorem Sys2Proof.Laws.Opcode.mmaz (k : MTok) : Statement (.mmaz k) := opcode_of _
open Sys2Proof in
theorem Sys2Proof.Laws.Opcode.mman (k : MTok) : Statement (.mman k) := opcode_of _
open Sys2Proof in
theorem Sys2Proof.Laws.Opcode.accz (k : MTok) : Statement (.accz k) := opcode_of _
open Sys2Proof in
theorem Sys2Proof.Laws.Opcode.accout (k : MTok) : Statement (.accout k) := opcode_of _
open Sys2Proof in
theorem Sys2Proof.Laws.Opcode.accin (k : MTok) : Statement (.accin k) := opcode_of _
open Sys2Proof in
theorem Sys2Proof.Laws.Opcode.mxeOperationRetire : Statement (.mxeOperationRetire) := opcode_of _
open Sys2Proof in
theorem Sys2Proof.Laws.Opcode.accoutBeatPush : Statement (.accoutBeatPush) := opcode_of _
open Sys2Proof in
theorem Sys2Proof.Laws.Opcode.fillComplete (slot : BitVec 4) : Statement (.fillComplete slot) := opcode_of _
open Sys2Proof in
theorem Sys2Proof.Laws.Opcode.streamCommandTake (st : BitVec 4) : Statement (.streamCommandTake st) := opcode_of _
open Sys2Proof in
theorem Sys2Proof.Laws.Opcode.streamUnit (st : BitVec 4) : Statement (.streamUnit st) := opcode_of _
open Sys2Proof in
theorem Sys2Proof.Laws.Opcode.streamFrameEnd (st : BitVec 4) : Statement (.streamFrameEnd st) := opcode_of _
open Sys2Proof in
theorem Sys2Proof.Laws.Opcode.streamCompletion (st : BitVec 4) : Statement (.streamCompletion st) := opcode_of _
open Sys2Proof in
theorem Sys2Proof.Laws.Opcode.streamStopDone (st : BitVec 4) : Statement (.streamStopDone st) := opcode_of _
open Sys2Proof in
theorem Sys2Proof.Laws.Opcode.gatherRow (st : BitVec 4) : Statement (.gatherRow st) := opcode_of _
open Sys2Proof in
theorem Sys2Proof.Laws.Opcode.vcDemandGrant (port : BitVec 2) (vc : BitVec 5) : Statement (.vcDemandGrant port vc) := opcode_of _
open Sys2Proof in
theorem Sys2Proof.Laws.Opcode.vcUnitSend (port : BitVec 2) (vc : BitVec 5) : Statement (.vcUnitSend port vc) := opcode_of _
open Sys2Proof in
theorem Sys2Proof.Laws.Opcode.vcUnitReceive (port : BitVec 2) (vc : BitVec 5) : Statement (.vcUnitReceive port vc) := opcode_of _
open Sys2Proof in
theorem Sys2Proof.Laws.Opcode.routerFilterFrame (port : BitVec 2) (vc : BitVec 5) : Statement (.routerFilterFrame port vc) := opcode_of _
open Sys2Proof in
theorem Sys2Proof.Laws.Opcode.copyPacketStart (eng : Nat) : Statement (.copyPacketStart eng) := opcode_of _
open Sys2Proof in
theorem Sys2Proof.Laws.Opcode.cpyCopy (eng : Nat) : Statement (.cpyCopy eng) := opcode_of _
open Sys2Proof in
theorem Sys2Proof.Laws.Opcode.cpyConv (eng : Nat) : Statement (.cpyConv eng) := opcode_of _
open Sys2Proof in
theorem Sys2Proof.Laws.Opcode.cpyFill (eng : Nat) : Statement (.cpyFill eng) := opcode_of _
open Sys2Proof in
theorem Sys2Proof.Laws.Opcode.cpyMcast (eng : Nat) : Statement (.cpyMcast eng) := opcode_of _
open Sys2Proof in
theorem Sys2Proof.Laws.Opcode.copyCompletion (eng : Nat) : Statement (.copyCompletion eng) := opcode_of _
open Sys2Proof in
theorem Sys2Proof.Laws.Opcode.copyPriorityAge (eng : Nat) : Statement (.copyPriorityAge eng) := opcode_of _
open Sys2Proof in
theorem Sys2Proof.Laws.Opcode.copyPacketFrame (eng : Nat) : Statement (.copyPacketFrame eng) := opcode_of _
open Sys2Proof in
theorem Sys2Proof.Laws.Opcode.permitUnit (eng : Nat) : Statement (.permitUnit eng) := opcode_of _
open Sys2Proof in
theorem Sys2Proof.Laws.Opcode.haloDirectionComplete (dir : Dir) : Statement (.haloDirectionComplete dir) := opcode_of _
open Sys2Proof in
theorem Sys2Proof.Laws.Opcode.haloSenderComplete : Statement (.haloSenderComplete) := opcode_of _
open Sys2Proof in
theorem Sys2Proof.Laws.Opcode.barrierArrival : Statement (.barrierArrival) := opcode_of _
open Sys2Proof in
theorem Sys2Proof.Laws.Opcode.barrierCountUpdate : Statement (.barrierCountUpdate) := opcode_of _
open Sys2Proof in
theorem Sys2Proof.Laws.Opcode.barrierAdvanceNotice : Statement (.barrierAdvanceNotice) := opcode_of _
open Sys2Proof in
theorem Sys2Proof.Laws.Opcode.sliceBankServe : Statement (.sliceBankServe) := opcode_of _
open Sys2Proof in
theorem Sys2Proof.Laws.Opcode.reservationRetry : Statement (.reservationRetry) := opcode_of _
open Sys2Proof in
theorem Sys2Proof.Laws.Opcode.takeHeadTimeout (granule : Nat) : Statement (.takeHeadTimeout granule) := opcode_of _
open Sys2Proof in
theorem Sys2Proof.Laws.Opcode.takeListGrant (granule : Nat) : Statement (.takeListGrant granule) := opcode_of _
open Sys2Proof in
theorem Sys2Proof.Laws.Opcode.waitaWake : Statement (.waitaWake) := opcode_of _
open Sys2Proof in
theorem Sys2Proof.Laws.Opcode.waitaTimeout : Statement (.waitaTimeout) := opcode_of _
open Sys2Proof in
theorem Sys2Proof.Laws.Opcode.bankReassign (phys : Nat) (bank : BitVec 4) (tag : BitVec 8) : Statement (.bankReassign phys bank tag) := opcode_of _
open Sys2Proof in
theorem Sys2Proof.Laws.Opcode.pageWalk (va : W64) : Statement (.pageWalk va) := opcode_of _
open Sys2Proof in
theorem Sys2Proof.Laws.Opcode.shadowService : Statement (.shadowService) := opcode_of _
open Sys2Proof in
theorem Sys2Proof.Laws.Opcode.tlbiComplete : Statement (.tlbiComplete) := opcode_of _
open Sys2Proof in
theorem Sys2Proof.Laws.Opcode.migrate : Statement (.migrate) := opcode_of _
open Sys2Proof in
theorem Sys2Proof.Laws.Opcode.frameMove (tag : BitVec 8) (unit : Nat) (frame : Nat) : Statement (.frameMove tag unit frame) := opcode_of _
open Sys2Proof in
theorem Sys2Proof.Laws.Opcode.faultTake (f : FaultArg) : Statement (.faultTake f) := opcode_of _
open Sys2Proof in
theorem Sys2Proof.Laws.Opcode.faultDelivery : Statement (.faultDelivery) := opcode_of _
open Sys2Proof in
theorem Sys2Proof.Laws.Opcode.escalate (f : FaultArg) (reason : EscReason) : Statement (.escalate f reason) := opcode_of _
open Sys2Proof in
theorem Sys2Proof.Laws.Opcode.deadlockDeclare (tag : BitVec 8) : Statement (.deadlockDeclare tag) := opcode_of _
open Sys2Proof in
theorem Sys2Proof.Laws.Opcode.tilePreempt : Statement (.tilePreempt) := opcode_of _
open Sys2Proof in
theorem Sys2Proof.Laws.Opcode.tileClaimSave (phys : Nat) (tag : BitVec 8) : Statement (.tileClaimSave phys tag) := opcode_of _
open Sys2Proof in
theorem Sys2Proof.Laws.Opcode.tileResume (phys : Nat) : Statement (.tileResume phys) := opcode_of _
open Sys2Proof in
theorem Sys2Proof.Laws.Opcode.sliceExpiry (tag : BitVec 8) : Statement (.sliceExpiry tag) := opcode_of _
open Sys2Proof in
theorem Sys2Proof.Laws.Opcode.createContext (cmd : Rec64) : Statement (.createContext cmd) := opcode_of _
open Sys2Proof in
theorem Sys2Proof.Laws.Opcode.loadPolicy (cmd : Rec64) : Statement (.loadPolicy cmd) := opcode_of _
open Sys2Proof in
theorem Sys2Proof.Laws.Opcode.grant (cmd : Rec64) : Statement (.grant cmd) := opcode_of _
open Sys2Proof in
theorem Sys2Proof.Laws.Opcode.schedule (cmd : Rec64) : Statement (.schedule cmd) := opcode_of _
open Sys2Proof in
theorem Sys2Proof.Laws.Opcode.pause (cmd : Rec64) : Statement (.pause cmd) := opcode_of _
open Sys2Proof in
theorem Sys2Proof.Laws.Opcode.pauseComplete (tag : BitVec 8) : Statement (.pauseComplete tag) := opcode_of _
open Sys2Proof in
theorem Sys2Proof.Laws.Opcode.resume (cmd : Rec64) : Statement (.resume cmd) := opcode_of _
open Sys2Proof in
theorem Sys2Proof.Laws.Opcode.evict (cmd : Rec64) : Statement (.evict cmd) := opcode_of _
open Sys2Proof in
theorem Sys2Proof.Laws.Opcode.evictComplete (tag : BitVec 8) : Statement (.evictComplete tag) := opcode_of _
open Sys2Proof in
theorem Sys2Proof.Laws.Opcode.restore (cmd : Rec64) : Statement (.restore cmd) := opcode_of _
open Sys2Proof in
theorem Sys2Proof.Laws.Opcode.restoreComplete (tag : BitVec 8) (ok : Bool) : Statement (.restoreComplete tag ok) := opcode_of _
open Sys2Proof in
theorem Sys2Proof.Laws.Opcode.destroy (cmd : Rec64) : Statement (.destroy cmd) := opcode_of _
open Sys2Proof in
theorem Sys2Proof.Laws.Opcode.resetVf (cmd : Rec64) : Statement (.resetVf cmd) := opcode_of _
open Sys2Proof in
theorem Sys2Proof.Laws.Opcode.functionLevelReset (vf : BitVec 8) : Statement (.functionLevelReset vf) := opcode_of _
open Sys2Proof in
theorem Sys2Proof.Laws.Opcode.scrubComplete (tag : BitVec 8) : Statement (.scrubComplete tag) := opcode_of _
open Sys2Proof in
theorem Sys2Proof.Laws.Opcode.readCounter (cmd : Rec64) : Statement (.readCounter cmd) := opcode_of _
open Sys2Proof in
theorem Sys2Proof.Laws.Opcode.maskFeature (cmd : Rec64) : Statement (.maskFeature cmd) := opcode_of _
open Sys2Proof in
theorem Sys2Proof.Laws.Opcode.submit (cmd : Rec64) : Statement (.submit cmd) := opcode_of _
open Sys2Proof in
theorem Sys2Proof.Laws.Opcode.attest (tag : BitVec 8) (nonce : BitVec 256) : Statement (.attest tag nonce) := opcode_of _
open Sys2Proof in
theorem Sys2Proof.Laws.Opcode.seal (tag : BitVec 8) (m : SealMsg) : Statement (.seal tag m) := opcode_of _
open Sys2Proof in
theorem Sys2Proof.Laws.Opcode.keyUpdate (tag : BitVec 8) (chan : BitVec 2) : Statement (.keyUpdate tag chan) := opcode_of _
open Sys2Proof in
theorem Sys2Proof.Laws.Opcode.bounceRecord (tag : BitVec 8) (chan : BitVec 2) (m : BounceArg) : Statement (.bounceRecord tag chan m) := opcode_of _
open Sys2Proof in
theorem Sys2Proof.Laws.Opcode.huskBeat (route : BitVec 32) (ok : Bool) : Statement (.huskBeat route ok) := opcode_of _
open Sys2Proof in
theorem Sys2Proof.Laws.Opcode.queueRecordDecode (tag : BitVec 8) (q : BitVec 4) : Statement (.queueRecordDecode tag q) := opcode_of _
open Sys2Proof in
theorem Sys2Proof.Laws.Opcode.queueArbitrate (tag : BitVec 8) : Statement (.queueArbitrate tag) := opcode_of _
open Sys2Proof in
theorem Sys2Proof.Laws.Opcode.launch (tag : BitVec 8) (q : BitVec 4) (pkt : Rec64) : Statement (.launch tag q pkt) := opcode_of _
open Sys2Proof in
theorem Sys2Proof.Laws.Opcode.loadk (tag : BitVec 8) (q : BitVec 4) (pkt : Rec64) : Statement (.loadk tag q pkt) := opcode_of _
open Sys2Proof in
theorem Sys2Proof.Laws.Opcode.unloadk (tag : BitVec 8) (q : BitVec 4) (pkt : Rec64) : Statement (.unloadk tag q pkt) := opcode_of _
open Sys2Proof in
theorem Sys2Proof.Laws.Opcode.waitmark (tag : BitVec 8) (q : BitVec 4) (pkt : Rec64) : Statement (.waitmark tag q pkt) := opcode_of _
open Sys2Proof in
theorem Sys2Proof.Laws.Opcode.waitmarkRecheck (tag : BitVec 8) (q : BitVec 4) : Statement (.waitmarkRecheck tag q) := opcode_of _
open Sys2Proof in
theorem Sys2Proof.Laws.Opcode.setmark (tag : BitVec 8) (q : BitVec 4) (pkt : Rec64) : Statement (.setmark tag q pkt) := opcode_of _
open Sys2Proof in
theorem Sys2Proof.Laws.Opcode.queueCopy (tag : BitVec 8) (q : BitVec 4) (pkt : Rec64) : Statement (.queueCopy tag q pkt) := opcode_of _
open Sys2Proof in
theorem Sys2Proof.Laws.Opcode.qbarrier (tag : BitVec 8) (q : BitVec 4) (pkt : Rec64) : Statement (.qbarrier tag q pkt) := opcode_of _
open Sys2Proof in
theorem Sys2Proof.Laws.Opcode.queueNop (tag : BitVec 8) (q : BitVec 4) (pkt : Rec64) : Statement (.queueNop tag q pkt) := opcode_of _
open Sys2Proof in
theorem Sys2Proof.Laws.Opcode.markAdd (tag : BitVec 8) (q : BitVec 4) : Statement (.markAdd tag q) := opcode_of _
open Sys2Proof in
theorem Sys2Proof.Laws.Opcode.queueLevelAge (tag : BitVec 8) (q : BitVec 4) : Statement (.queueLevelAge tag q) := opcode_of _
open Sys2Proof in
theorem Sys2Proof.Laws.Opcode.preload (tag : BitVec 8) (q : BitVec 4) : Statement (.preload tag q) := opcode_of _
open Sys2Proof in
theorem Sys2Proof.Laws.Opcode.budgetOverrun : Statement (.budgetOverrun) := opcode_of _
open Sys2Proof in
theorem Sys2Proof.Laws.Opcode.instancePlace : Statement (.instancePlace) := opcode_of _
open Sys2Proof in
theorem Sys2Proof.Laws.Opcode.instanceStart : Statement (.instanceStart) := opcode_of _
open Sys2Proof in
theorem Sys2Proof.Laws.Opcode.tileFinish : Statement (.tileFinish) := opcode_of _
open Sys2Proof in
theorem Sys2Proof.Laws.Opcode.instanceRetire : Statement (.instanceRetire) := opcode_of _
open Sys2Proof in
theorem Sys2Proof.Laws.Opcode.fabricNodeFinish (node : Nat) : Statement (.fabricNodeFinish node) := opcode_of _
open Sys2Proof in
theorem Sys2Proof.Laws.Opcode.wavefrontReconfigure : Statement (.wavefrontReconfigure) := opcode_of _
open Sys2Proof in
theorem Sys2Proof.Laws.Opcode.plotSetPlace (node : Nat) : Statement (.plotSetPlace node) := opcode_of _
open Sys2Proof in
theorem Sys2Proof.Laws.Opcode.hotSwap (node : Nat) (plot : Nat) : Statement (.hotSwap node plot) := opcode_of _
open Sys2Proof in
theorem Sys2Proof.Laws.Opcode.libSteer (node : Nat) : Statement (.libSteer node) := opcode_of _
open Sys2Proof in
theorem Sys2Proof.Laws.Opcode.libMerge (node : Nat) : Statement (.libMerge node) := opcode_of _
open Sys2Proof in
theorem Sys2Proof.Laws.Opcode.packz (node : Nat) : Statement (.packz node) := opcode_of _
open Sys2Proof in
theorem Sys2Proof.Laws.Opcode.unpackz (node : Nat) : Statement (.unpackz node) := opcode_of _
open Sys2Proof in
theorem Sys2Proof.Laws.Opcode.sortk (node : Nat) : Statement (.sortk node) := opcode_of _
open Sys2Proof in
theorem Sys2Proof.Laws.Opcode.route (node : Nat) : Statement (.route node) := opcode_of _
open Sys2Proof in
theorem Sys2Proof.Laws.Opcode.sample (node : Nat) : Statement (.sample node) := opcode_of _
open Sys2Proof in
theorem Sys2Proof.Laws.Opcode.codec (node : Nat) : Statement (.codec node) := opcode_of _
open Sys2Proof in
theorem Sys2Proof.Laws.Opcode.seqgen (node : Nat) : Statement (.seqgen node) := opcode_of _
open Sys2Proof in
theorem Sys2Proof.Laws.Opcode.join (node : Nat) : Statement (.join node) := opcode_of _
open Sys2Proof in
theorem Sys2Proof.Laws.Opcode.partnerDetect (port : Nat) (switch : Bool) : Statement (.partnerDetect port switch) := opcode_of _
open Sys2Proof in
theorem Sys2Proof.Laws.Opcode.portAttest (port : Nat) (peer : Option Digest) : Statement (.portAttest port peer) := opcode_of _
open Sys2Proof in
theorem Sys2Proof.Laws.Opcode.creditAdvertisement (port : Nat) : Statement (.creditAdvertisement port) := opcode_of _
open Sys2Proof in
theorem Sys2Proof.Laws.Opcode.portDrainRequest (port : Nat) : Statement (.portDrainRequest port) := opcode_of _
open Sys2Proof in
theorem Sys2Proof.Laws.Opcode.portDrainEnd (port : Nat) : Statement (.portDrainEnd port) := opcode_of _
open Sys2Proof in
theorem Sys2Proof.Laws.Opcode.portReenable (port : Nat) : Statement (.portReenable port) := opcode_of _
open Sys2Proof in
theorem Sys2Proof.Laws.Opcode.linkGroupReceive (port : Nat) (g : LinkGroup) : Statement (.linkGroupReceive port g) := opcode_of _
open Sys2Proof in
theorem Sys2Proof.Laws.Opcode.linkRetryLimit (port : Nat) : Statement (.linkRetryLimit port) := opcode_of _
open Sys2Proof in
theorem Sys2Proof.Laws.Opcode.linkKeyUpdate (port : Nat) : Statement (.linkKeyUpdate port) := opcode_of _
open Sys2Proof in
theorem Sys2Proof.Laws.Opcode.linkFlitSend (port : Nat) : Statement (.linkFlitSend port) := opcode_of _
open Sys2Proof in
theorem Sys2Proof.Laws.Opcode.switchIndexAssign (port : Nat) (peer : Digest) (index : BitVec 16) : Statement (.switchIndexAssign port peer index) := opcode_of _
open Sys2Proof in
theorem Sys2Proof.Laws.Opcode.sessionOpen (tag : BitVec 8) (i : BitVec 5) (peer : PeerOffer) : Statement (.sessionOpen tag i peer) := opcode_of _
open Sys2Proof in
theorem Sys2Proof.Laws.Opcode.sessionAbort (tag : BitVec 8) (i : BitVec 5) : Statement (.sessionAbort tag i) := opcode_of _
open Sys2Proof in
theorem Sys2Proof.Laws.Opcode.sessionPortTimeout (tag : BitVec 8) (i : BitVec 5) : Statement (.sessionPortTimeout tag i) := opcode_of _
open Sys2Proof in
theorem Sys2Proof.Laws.Opcode.linkStreamUnits (tag : BitVec 8) (i : BitVec 5) (vc : BitVec 5) (tile : BitVec 16) (fmt : BitVec 4) (units : List LinkUnit) : Statement (.linkStreamUnits tag i vc tile fmt units) := opcode_of _
open Sys2Proof in
theorem Sys2Proof.Laws.Opcode.linkDemandGrant (tag : BitVec 8) (i : BitVec 5) (vc : BitVec 5) (tile : BitVec 16) (n : Nat) : Statement (.linkDemandGrant tag i vc tile n) := opcode_of _
open Sys2Proof in
theorem Sys2Proof.Laws.Opcode.linkReadRequest (tag : BitVec 8) (i : BitVec 5) (va : W64) (sz : Size) : Statement (.linkReadRequest tag i va sz) := opcode_of _
open Sys2Proof in
theorem Sys2Proof.Laws.Opcode.linkReadResponse (tag : BitVec 8) (i : BitVec 5) (data : W64) : Statement (.linkReadResponse tag i data) := opcode_of _
open Sys2Proof in
theorem Sys2Proof.Laws.Opcode.linkWrite (tag : BitVec 8) (i : BitVec 5) (va : W64) (sz : Size) (data : W64) : Statement (.linkWrite tag i va sz data) := opcode_of _
open Sys2Proof in
theorem Sys2Proof.Laws.Opcode.linkAtomic (tag : BitVec 8) (i : BitVec 5) (va : W64) (op : AtomicOp) (wide : Bool) (b : W64) (c : W64) : Statement (.linkAtomic tag i va op wide b c) := opcode_of _
open Sys2Proof in
theorem Sys2Proof.Laws.Opcode.linkAtomicResult (tag : BitVec 8) (i : BitVec 5) (data : W64) : Statement (.linkAtomicResult tag i data) := opcode_of _
open Sys2Proof in
theorem Sys2Proof.Laws.Opcode.linkWriteCompletion (tag : BitVec 8) (i : BitVec 5) : Statement (.linkWriteCompletion tag i) := opcode_of _
open Sys2Proof in
theorem Sys2Proof.Laws.Opcode.linkFaultReply (tag : BitVec 8) (i : BitVec 5) (write : Bool) (code : BitVec 8) : Statement (.linkFaultReply tag i write code) := opcode_of _
open Sys2Proof in
theorem Sys2Proof.Laws.Opcode.linkAbort (tag : BitVec 8) (i : BitVec 5) : Statement (.linkAbort tag i) := opcode_of _
open Sys2Proof in
theorem Sys2Proof.Laws.Opcode.sensorTrip (x : Sensor) : Statement (.sensorTrip x) := opcode_of _
open Sys2Proof in
theorem Sys2Proof.Laws.Opcode.powerSample (watts : Nat) : Statement (.powerSample watts) := opcode_of _
open Sys2Proof in
theorem Sys2Proof.Laws.Opcode.islandFrequencyChange (island : Nat) (steps : Nat) : Statement (.islandFrequencyChange island steps) := opcode_of _
open Sys2Proof in
theorem Sys2Proof.Laws.Opcode.patrolScrub (loc : ScrubLoc) (bits : Nat) : Statement (.patrolScrub loc bits) := opcode_of _
open Sys2Proof in
theorem Sys2Proof.Laws.Opcode.configReadback (plot : Nat) (r : ReadbackResult) : Statement (.configReadback plot r) := opcode_of _
open Sys2Proof in
theorem Sys2Proof.Laws.Opcode.tileMapOut (phys : Nat) (byIdpor : Bool) : Statement (.tileMapOut phys byIdpor) := opcode_of _
open Sys2Proof in
theorem Sys2Proof.Laws.Opcode.firmwareStage (hazel : Bool) (digest : Digest) (verified : Bool) : Statement (.firmwareStage hazel digest verified) := opcode_of _
open Sys2Proof in
theorem Sys2Proof.Laws.Opcode.hbmAccessPerformed : Statement (.hbmAccessPerformed) := opcode_of _
open Sys2Proof in
theorem Sys2Proof.Laws.Opcode.pcieCompletion (ok : Bool) : Statement (.pcieCompletion ok) := opcode_of _
open Sys2Proof in
theorem Sys2Proof.Laws.Opcode.tenantPlotSetFiring (node : Nat) : Statement (.tenantPlotSetFiring node) := opcode_of _
end

