-- ==== Sys2Proof/Tests/Slice0.lean ====
section
/-! SUPPORT. Tests: for every statement with hypotheses states that meet them all, one for each clause; terms that are ill formed; the words
that the spec writes out; and results that it writes out. -/

open Sys2Proof Sys2Proof.Machine

namespace Sys2Proof.Tests

set_option maxRecDepth 100000
set_option Elab.async false
set_option linter.unusedVariables false
set_option linter.unusedSimpArgs false

/-! ### States -/

/-- A block of eight words, issued, whose first word has the given operand slots. -/
def block (st : SlotSt) : Block :=
  { Block.fetched (0x40000000001000) 0xA (List.replicate 8 0) with slots := st :: List.replicate 7 SlotSt.empty, issued := true }

/-- A tile as placement leaves it, by its logical id, that has started. -/
def tile (k : Nat) : Tile :=
  let t := Tile.blank k k (0x40000000001000) 1 0xFF
  { t with seq := { t.seq with started := true } }

/-- The tile with a block in execution. -/
def tileOf (k : Nat) (b : Block) : Tile := { tile k with seq := { (tile k).seq with block := some b } }

/-- A kernel without operators. -/
def kernel : Kernel := { digest := 0, id := 0, refs := [], nodes := [], edges := [], sets := [], groups := [], run := [], base := 0, const := [] }

/-- A running instance of the context with tag 1, whose group 0 is all its tiles. -/
def inst (ts : List Tile) : Inst := { Inst.submitted 1 0 kernel 1 0 0 [] with st := .running, tiles := ts, groups := [(0, List.range ts.length)] }

/-- A Running context with one frame of HBM, whose device has kept the leaf of a page of HBM at VA 0x10000 and that of a page of the host's
memory at VA 0x20000. -/
def ctx : Context :=
  { Context.single with
    grant := some ⟨2, 0, 1⟩, frames := [5]
    tlb := [⟨0x10000, 0x10000, 0x0E00000000000006, 3⟩, ⟨0x20000, 0x10000, 0x0E0800000000000A, 3⟩] }

/-- A package that is up, with a context, an instance, and two tiles and a frame under its tag. -/
def pkgOf (c : Context) (x : Inst) : State :=
  { State.reset with
    boot := .ready, ctxs := [c], insts := [x], frames := [(5, 1)]
    phys := [(0, { Phys.idle with tag := 1, banks := Vector.replicate 16 1 }), (1, { Phys.idle with tag := 1, banks := Vector.replicate 16 1 })] }

/-- Such a package with the context above. -/
def pkg (x : Inst) : State := pkgOf ctx x

/-- The package whose first tile executes a block. -/
def at0 (b : Block) : State := pkg (inst [tileOf 0 b])

/-- Operand slots that hold values. -/
def vals (a b : W64) : SlotSt := ⟨some (.value a), some (.value b), some (.value 1), false⟩

/-- The fields of a word that always fires and sends to the left operand of slot 1. -/
def h0 : Head := ⟨.always, some ⟨.left, 1⟩, none⟩

/-- The fields of a word that always fires and sends nothing. -/
def h1 : Head := ⟨.always, none, none⟩

/-- The tile, and the state, of a word that fires with the operands a and b. -/
abbrev fire (a b : W64) : State := at0 (block (vals a b))

/-- The package whose first tile, changed as given, executes a word with the operands a and b. -/
abbrev fireIn (a b : W64) (f : Tile → Tile) : State := pkg (inst [f (tileOf 0 (block (vals a b))), tile 1])

/-- Channels 0 to 15 of a tile with one entry, bound to a producer and a consumer. -/
def chans (p c : BitVec 3) (t : Tile) : Tile :=
  { t with chan := Vector.replicate 16 { producer := p, consumer := c, link := none, entries := [⟨0x55, 0, true⟩], surplus := false } }

/-- The package whose first tile is changed as given. -/
abbrev one (f : Tile → Tile) : State := pkg (inst [f (tile 0), tile 1])

/-- A slice that holds, at 0x1000, a block of eight words MOV with no target. -/
def code : Mem := (⟨[(0x1000, 0x0A)]⟩ : Mem).write 0x1010 ((List.range 64).map fun k => if k % 8 = 7 then 0x04 else 0)

/-- The first tile executes a block of eight words, settled but for what is given. -/
abbrev com (f : Block → Block) (g : Tile → Tile) : State := pkg (inst [g (tileOf 0 (f (block ⟨none, none, none, true⟩))), tile 1])

/-- The write mask of a header that names one register. -/
def hdrW : BitVec 128 := 0x20000000000000A

/-- A settled block that writes g9, and the tile that executes it. -/
def bW : Block := { block ⟨none, none, none, true⟩ with branch := some (.to 0x40000000001050), hdr := hdrW, writes := [(9, some 7)] }

/-- The tile that executes that block. -/
def tW : Tile := tileOf 0 bW

/-- The package of two tiles, changed as given. -/
abbrev two (f g : Tile → Tile) : State := pkg (inst [f (tile 0), g (tile 1)])

/-- A package whose instance is changed as given. -/
abbrev within (f : Inst → Inst) : State := pkg (f (inst [tile 0, tile 1]))

/-- The tile has selected a word on a strip. -/
def sel (e : StripId) (t : Tile) : Tile := t.modStrip e fun y => { y with cur := some (0, 0x40000000001000, 1) }

/-- A word of the A-strip: ADD of i32 from v1 and v2 to v0. -/
def add32 : W64 := 0x0200580085000000

/-- A slice that holds that word at 0x1000. -/
def code3 : Mem := ⟨[(0x1003, 0x85), (0x1005, 0x58), (0x1007, 2)]⟩

/-- A RUN of one word. -/
def req : RunReq := ⟨0x40000000001000, false, 1, 1, 1, [], none, none⟩

/-- All channels of the tile bound to a producer and a consumer, with n entries each. -/
def bindAll (p c : BitVec 3) (n : Nat) (t : Tile) : Tile :=
  { t with chan := Vector.replicate 16 { producer := p, consumer := c, link := none, entries := List.replicate n ⟨0x55, 9, true⟩, surplus := false } }

theorem rat1 : ratOf 0x0 0x3F800000 = some 1 := by
  have h : floatVal 0x0 0x3F800000 = .fin false 0x800000 (-23) := by decide
  rw [ratOf, h]; norm_num [FVal.rat]

theorem rat2 : ratOf 0x0 0x40000000 = some 2 := by
  have h : floatVal 0x0 0x40000000 = .fin false 0x800000 (-22) := by decide
  rw [ratOf, h]; norm_num [FVal.rat]

theorem rat0 : ratOf 0x0 0 = some 0 := by
  have h : floatVal 0x0 0 = .fin false 0 (-149) := by decide
  rw [ratOf, h]; norm_num [FVal.rat]

theorem rat3 : ratOf 0x0 0x40400000 = some 3 := by
  have h : floatVal 0x0 0x40400000 = .fin false 0xC00000 (-22) := by decide
  rw [ratOf, h]; norm_num [FVal.rat]

theorem ratTie : ratOf 0x0 0x4B800000 = some 16777216 := by
  have h : floatVal 0x0 0x4B800000 = .fin false 0x800000 1 := by decide
  rw [ratOf, h]; norm_num [FVal.rat]

theorem ratTie2 : ratOf 0x0 0x4B800001 = some 16777218 := by
  have h : floatVal 0x0 0x4B800001 = .fin false 0x800001 1 := by decide
  rw [ratOf, h]; norm_num [FVal.rat]

theorem ratTied : ratOf 0 (roundTo 0 1 false 16777217 1 0).1 = some 16777216 := by
  rw [show (roundTo 0 1 false 16777217 1 0).1 = 0x4B800000 from by decide]; exact ratTie

/-- A word in flight that is due, with one output. -/
def due : Flight := ⟨0, .value, [⟨16, 7, 9, true⟩], 1, 0, 0x40000000001000, [], false, 1, false, none, false⟩

/-- The first tile has a result in flight on its E-strip. -/
abbrev flying (f : Flight) (g : Tile → Tile) : State := one fun t => g { t with est := { t.est with flight := [f] } }

/-- Channel k of a tile, bound, with some entries. -/
def bindCh (k : Nat) (p c : BitVec 3) (n : Nat) (t : Tile) : Tile :=
  t.modChan k fun _ => { producer := p, consumer := c, link := none, entries := List.replicate n ⟨0x55, 9, true⟩, surplus := false }

/-- A token of i8 with two rows and groups, and the MXE that holds it. -/
def mt : MTok := ⟨8, 8, 0, 1, 1, 1, 1, 0, 2, 0, 0, 0, 0, 15, 11, 0, 1, 5⟩

/-- A control token that the MXE holds, with n steps done. -/
def held (n : Nat) : Held := ⟨⟨0, 0, 3⟩, none, false, n⟩

/-- The first tile's MXE holds a token. -/
abbrev holding (h : Held) (g : Tile → Tile) : State := one fun t => g { t with mxe := { t.mxe with held := some h } }

/-- Slot 15 is being filled, and has taken some of its words. -/
def filling (n : Nat) (t : Tile) : Tile :=
  { t with mxe := { t.mxe with
      work := [(0, .fill 15 0x40000000000000)]
      slots := t.mxe.slots.set 15 { (t.mxe.slots[15]) with filled := List.range n } } }

theorem filledAll : ((filling 768 (tile 0)).mxe.slots[(15 : BitVec 4).toNat]).unread = [] := by decide +kernel

theorem filledLast : ((filling 767 (tile 0)).mxe.slots[(15 : BitVec 4).toNat]).unread = [767] := by decide +kernel

/-- Stream 15 of the tile, changed as given. -/
abbrev str (f : Stream → Stream) (g : Tile → Tile) : State := one fun t => g (t.modStream 15 f)

/-- An affine stream that reads one i32 of the slice, and one that writes it. -/
def dRead : Rec64 := 0x1000010000100400000000000000b00000000040000

/-- An affine stream that writes one i32 of the slice. -/
def dWrite : Rec64 := 0x1000010000100400000000000002b00000000040000

/-- An indirect stream that reads one i32 at an index of its array, and a linked one of two nodes of two i32. -/
def dIndirect : Rec64 := 0xb000000000000000004000000000010000000000000000000000000000000004000001000010000100400000000000004b00000000040000

/-- A stream descriptor of the linked kind. -/
def dLinked : Rec64 := 0x80002000000000000000000000000000000000000000000000000000001000010000200400000000000008b00000000040000

/-- A gather of one row of one i32, and its descriptor. -/
def dGather : Rec64 := 0x10000cb00000000040000

/-- A gather descriptor. -/
def gDesc : Rec64 := 0x1b0000000000000040000000400000000000200000000000000010000

/-- A stream that runs, its frame popped. -/
def runs (d : Rec64) (f : Walk → Walk) (y : Stream) : Stream :=
  { y with st := .running, desc := d, walk := f { Walk.start d with popped := true } }

/-- A session whose peer answered a stream's read by a fault. -/
def refusedRead : Session := { Session.closed with opened := true, got := [(⟨0, 0, whoStream 15, 0x10⟩, .failed 0x12)] }

/-- The context whose session 31 got that answer. -/
def ctxRefused : Context := { ctx with sessions := ctx.sessions.set 31 refusedRead }

/-- A packet COPY of 8 bytes of the slice to offset 64, at copy engine 0. -/
def pk : CpPkt := ⟨.tile 0, 0, 0, 0x100008004000000000004000400000000000001880000000000000, 1, 0, 0, 0, 0, none⟩

/-- A copy that has its last unit to read; one that has its word to write; and one that has neither. -/
def jobR (n : Nat) (w : W64) : CopyJob := ⟨[n], [], [w], [], [], []⟩

/-- A copy that has its one word to write. -/
def jobW : CopyJob := ⟨[], (List.range 8).map fun k => (k, [BitVec.ofNat 8 (k + 1)]), [0x40000000000040], [], [], []⟩

/-- A copy that has nothing but these marks left. -/
def jobM (gs : List (Nat × Nat)) : CopyJob := ⟨[], [], [], [], gs, []⟩

/-- Copy engine 23, changed as given. -/
abbrev eng (f : CpEngine → CpEngine) (s : State) : State := { s with copy := s.copy.set 23 (f CpEngine.idle) }

/-- Copy engine 23 executes a packet; the slice holds two bytes. -/
abbrev doing (p : CpPkt) (j : CopyJob) (ds : List Nat) : State := eng (fun e => { e with active := [⟨p, j, ds⟩] }) (one fun t => { t with slice := ⟨[(0, 0x81), (7, 2)]⟩ })

/-- A tile operator of one row of two tiles. -/
def node2 : Node := ⟨0, false, 1, 2, 0, 0⟩

/-- The package of two tiles of one operator, the first with a HALO. -/
abbrev haloed (h : Halo) (f : Tile → Tile) : State :=
  pkg { inst [f { tile 0 with halos := [h] }, tile 1] with kernel := { kernel with nodes := [node2] } }

/-- A HALO descriptor. -/
def haloDesc : Rec64 := 0x4000000000000000400000000000000040000000000000004000000000000000000000000028a0012000000000

/-- A tile whose HALO has this copy left, to the east. -/
abbrev eastward (j : CopyJob) : State := haloed ⟨haloDesc, 0, some [(.e, j)], false⟩ fun t => { t with slice := ⟨[(3, 7)]⟩ }

/-- Tables in the context's frame: VA 0x30000 has the leaf with the given lowest byte. -/
def tables (b : Byte) : Mem := ⟨[(0xBD0018, b), (0xBD001F, 0x0E), (0xBE0000, 1), (0xBE0002, 0x1D), (0xBF0000, 1), (0xBF0002, 0x1E)]⟩

/-- The package of one tile with those tables, whose device has kept nothing. -/
abbrev tabled (b : Byte) (f : Context → Context) : State := { pkgOf (f { ctx with tlb := [] }) (inst [tile 0]) with hbm := tables b }

/-- A migration of the page at VA 0x30000 that was released. -/
def mig (d : W64) (p : MigPhase) : Mig := ⟨0, 0, 0x30000, d, 0x1D0018, p⟩

/-- The package with those tables and a migration. -/
abbrev moving (b : Byte) (m : Mig) : State := tabled b fun c => { c with migs := [m] }

/-- A context with an open session, whose third level of tables lies at the peer, and its package. -/
def ctxR (got : List (Ask × Answer)) : Context :=
  { ctx with tlb := [], sessions := ctx.sessions.set 31 { Session.closed with opened := true, send := true, receive := true, got := got } }

/-- A package whose context has its table at peer 3, with these answers. -/
def remotely (got : List (Ask × Answer)) : State :=
  { pkgOf (ctxR got) (inst [tile 0]) with hbm := ⟨[(0xBE0000, 1), (0xBE0005, 0xF0), (0xBE0006, 5), (0xBF0000, 1), (0xBF0002, 0x1E)]⟩ }

theorem remote_walk : (remotely []).walk (ctxR []) 0x30000 = .error .minor := by decide +kernel

theorem migrating_walk : (tabled 0x0E id).walk { ctx with tlb := [] } 0x30000 = .ok ⟨0x0E0000000000000E, 3, 0x1D0018⟩ := by decide +kernel

/-- The package with those tables whose tile executes a word with the operands a and b. -/
abbrev fireTabled (l : Byte) (a b : W64) : State :=
  { pkgOf { ctx with tlb := [] } (inst [tileOf 0 (block (vals a b))]) with hbm := tables l }

/-- A second Running context, with the tag 2. -/
def ctx2 : Context := { ctx with tag := 2, handle := 2, vf := 2, frames := [], tlb := [], grant := some ⟨1536, 0, 0⟩ }

/-- A package of both contexts; all its tiles are under a tag, the first under tag 1. -/
abbrev full (c : Context) (xs : List Inst) : State :=
  { pkgOf c (inst []) with
    ctxs := [c, ctx2], insts := xs
    phys := (List.range 1536).map fun p => (p, { Phys.idle with tag := if p = 0 then 1 else 2, banks := Vector.replicate 16 (if p = 0 then 1 else 2) }) }

/-- That package, the first tile free but preloaded for a LAUNCH of the first context. -/
abbrev preloaded (xs : List Inst) : State :=
  { full ctx xs with phys := (full ctx []).phys.map fun a => if a.1 = 0 then (0, { a.2 with preload := some (15, 0) }) else a }

/-- A tile that keeps its physical tile and does not run. -/
abbrev resident (k : Nat) : Tile := { tile k with place := .resident }

/-- A submitted instance of the second context waits for tiles. -/
def waits2 : Inst := { Inst.submitted 2 0 kernel 1 0 0 [] with st := .submitted }

/-- That package with the first context's slice at 0. -/
abbrev sliced : State := full { ctx with slice := 0 } [inst [tile 0], waits2]

theorem sliced_waiter : sliced.tileWaiter 1 = some ctx2 := by decide +kernel

theorem sliced_short : sliced.tilesShort ctx2 - (sliced.residents 1).length = 1 := by decide +kernel

theorem sliced_running : sliced.runningTiles 1 = [(0, 0)] := by decide +kernel

theorem sliced_tile : sliced.tile? 0 0 = some (tile 0) := by decide +kernel

theorem sliced_tiles : [(0, 0)] = (match sliced.tileWaiter 1 with
    | some r => ((sliced.runningTiles 1).filter fun a => (sliced.tile? a.1 a.2).any fun t => ({ ctx with slice := 0 } : Context).sliceOver t.served).take
        (sliced.tilesShort r - (sliced.residents 1).length)
    | none => []) := by
  rw [sliced_waiter]; simp only [sliced_short, sliced_running]; simp [sliced_tile, Context.sliceOver, tile, Tile.blank]

theorem sliced_sets : ([] : List (Nat × Nat)) = (match sliced.plotWaiter 1 with
    | some r => setsFor (sliced.plotsShort r) ((sliced.runningSets 1).filter fun a => ({ ctx with slice := 0 } : Context).sliceOver a.2.2.served)
    | none => []) := by
  rw [show sliced.plotWaiter 1 = none by decide +kernel]

/-- An enabled queue with a packet at its head. -/
def headed (p : Rec64) : Queue := { Queue.fresh with enabled := true, buf := [(p, 7), (8, 9)] }

/-- The context above, with the device holding also the leaf of the page of the marks. -/
def ctxM : Context := { ctx with tlb := ⟨0, 0x10000, 0x0E00000000000006, 3⟩ :: ctx.tlb }

/-- The context whose queue 15 is as given. -/
def ctxQ (q : Queue) : Context := { ctxM with queues := ctxM.queues.set 15 q }

/-- A package of one tile, the context's queue 15 with a packet at its head. -/
abbrev atHead (p : Rec64) : State := pkgOf (ctxQ (headed p)) (inst [tile 0])

/-- A package with a packet at the head of queue 15 and loaded kernels. -/
abbrev withRefs (p : Rec64) (ks : List (Nat × Kernel)) : State := pkgOf { ctxQ (headed p) with krefs := ks } (inst [tile 0])

/-- A context whose marks lie at a peer, in the page of an open session, and its package. -/
def ctxF (q : Queue) (got : List (Ask × Answer)) : Context :=
  { ctxQ q with tlb := [⟨0, 0x10000, 0x0E05F00000000006, 3⟩], sessions := ctx.sessions.set 31 { Session.closed with opened := true, send := true, receive := true, got := got } }

/-- A packet that has started and reads. -/
def reads (p : Rec64) (im : Option (List (Loc × Size × Option (List Byte)))) : Queue := { headed 8 with started := [⟨p, 3, true, 0, im⟩], ord := 4 }

/-- A kernel of one tile, which queue 15 has loaded. -/
def kernel1 : Kernel := { kernel with nodes := [⟨0, false, 1, 1, 0x1000, 0⟩], refs := [15], base := 0x1008, run := [1, 2] }

/-- Units of the given lowest bits, the last of them the end of a frame. -/
def units (l : List Nat) : List (BitVec 4 × LinkUnit) := l.zipIdx.map fun (b, k) => (10, ⟨BitVec.ofNat 144 b, 3, k + 1 == l.length, false⟩)

/-- A library set of one plot, whose image is that of its bytes. -/
def set (lib : Byte) : PlotSet := ⟨lib, sha384 [lib], [lib], 0, 0, 1, 900, false⟩

/-- An operator of a library on the fabric, with what stands at its inputs. -/
def fab (lib : Byte) (ins : List (List Nat)) : FabNode :=
  { id := 5, set := set lib, ins := ins.zipIdx.map fun (l, k) => (k, ⟨10, units l, 0, 0, false⟩), outs := [], heldUnits := [], took := [],
    inFrame := false, frames := 0, ram := [], plots := [0], gen := some 0, placed := true, stopped := false, pre := none, since := 0, served := none, finished := false }

/-- A kernel of a tile operator and a fabric operator that sends to VC 15 of its port 3. -/
def kernelF : Kernel :=
  { kernel with nodes := [⟨0, false, 1, 1, 0, 0⟩, ⟨5, true, 1, 1, 0, 0⟩], sets := [set 9], edges := [⟨5, 0, 0, 0x6F, 10, 4, 4, 0, 0⟩] }

/-- An instance of that kernel, whose tile demands some units at VC 15. -/
abbrev fabInstOf (g : Nat) (n : FabNode) : Inst :=
  { inst [{ tile 0 with vc := (tile 0).vc.set 111 { Vc.empty with granted := g } }] with kernel := kernelF, nodes := [n] }

/-- An instance of one tile and this fabric node, on generator 2. -/
abbrev fabInst (n : FabNode) : Inst := fabInstOf 2 n

/-- The package of that instance. -/
abbrev fabPkg (n : FabNode) : State := pkg (fabInst n)

theorem fab_open (n : FabNode) : ¬((fabPkg n).routeDead 1 4096 (some 0) = true ∨ localVc 3 15 = false ∨ (2 : Nat) = 0) := by
  have key : ∀ o : Option (BitVec 32), (match some ctx, o with | some c, some r => c.huskDead.contains r | _, _ => false) = false := by
    intro o; cases o <;> rfl
  rintro (h | h | h)
  · exact absurd ((key ((some 0).bind ((fabPkg n).sealedRoute 1 4096))).symm.trans h) (by decide)
  · exact absurd h (by decide)
  · exact absurd h (by decide)

/-- The package whose port 23 is as given. -/
abbrev portP (p : Port) : State := { pkg (inst [tile 0]) with ports := State.reset.ports.set 23 p }

/-- A port that is up and reaches a package. -/
def up : Port := { Port.down with st := .up, peers := [0xABC] }

/-- A session over port 23, in both directions. -/
def open23 : Session := { Session.closed with opened := true, send := true, receive := true, peer := 0xABC, port := 23, cls := 7 }

/-- The context above with that session, changed as given, as its session 31. -/
def ctxS (f : Session → Session) : Context := { ctx with sessions := ctx.sessions.set 31 (f open23) }

/-- The package of that context, whose port 23 is up. -/
abbrev sess (f : Session → Session) (ts : List Tile) : State := { pkgOf (ctxS f) (inst ts) with ports := State.reset.ports.set 23 up }

/-- A group of zeros with a control flit. -/
def group (ctl : BitVec 1024) : LinkGroup := ⟨List.replicate 64 0, ctl⟩

/-- A group for that package, set aside. -/
def stray : OutGroup := ⟨0xABC, 7, [], [⟨7, some (1, 31), 5⟩]⟩

/-- That package with the first flit of a message left to send. -/
abbrev sends (f : Session → Session) : State := sess f [tile 0]

theorem sends_message : (sends fun x => { x with part := [5] }).sendables 23 = [⟨1, 31, 0xABC, 7, [5], none⟩] := by decide +kernel

theorem sends_begins : (sends fun x => { x with outq := [.completion] }).sendables 23 =
    [⟨1, 31, 0xABC, 7, MsgBody.completion.flits 31, some (.completion, [])⟩] := by rfl

theorem sends_hazel : (sends fun x => { x with send := false, outq := [.completion] }).sendables 23 =
    [⟨1, 31, 0xABC, 0xFE, MsgBody.completion.flits 31, some (.completion, [])⟩] := by rfl

/-- A policy that lists that package as peer 31, and one target. -/
def policy : Policy :=
  { digest := 9, tenant := 8, tiles := 1536, plots := 512, hbm := 262144, features := 0xFF, allow := 0x1FE, targets := [0x7A],
    peers := List.replicate 31 none ++ [some (0xABC, true, false)], plotSigners := [], kernelSigners := [], bound := 0, share := 1000, floor := 900 }

/-- An access of the first tile that waits at a peer. -/
def ask : Ask := ⟨0, 0, whoStore, 0x10000⟩

/-- The first flit of a message of that session, of one flit. -/
def header (kind : Nat) (va : W64) : BitVec 1024 := BitVec.ofNat 1024 (kind + 2 ^ 8 + 31 * 2 ^ 16 + va.toNat * 2 ^ 64)

/-- Such a message, which has come over that port. -/
def coming (kind : Nat) (va : W64) : Arrival := ⟨1, 31, 0xABC, some 23, 9, [header kind va]⟩

/-- The package of that session, with such a message. -/
abbrev gets (kind : Nat) (va : W64) (f : Session → Session) (ts : List Tile) : State :=
  { sess f ts with arrivals := [coming kind va] }

/-- The context above with that policy, as it was sealed the n-th. -/
def sealedAs (n : Nat) : Context := { ctx with policy := some policy, sealedAt := n }

/-- Two contexts with that policy, of which the second has been Sealed for longer. -/
def twoSealed : State :=
  { pkgOf (sealedAs 2) (inst [tile 0]) with ctxs := [sealedAs 2, { sealedAs 1 with tag := 2 }], ports := State.reset.ports.set 23 up }

/-- A command: its code, its handle, its arguments. -/
def cmd (code handle args : Nat) : Rec64 := BitVec.ofNat 512 (code + 0xAB * 2 ^ 32 + handle * 2 ^ 64 + args * 2 ^ 128)

/-- The context above in a state, with its policy. -/
def ctxIn (st : CtxState) : Context := { ctx with st := st, policy := some policy }

/-- A package of one tile with a context and a command in its ring. -/
abbrev told (c : Context) (k : Rec64) : State := { pkgOf c (inst [tile 0]) with cmdRing := [k] }

/-- That with a second context. -/
abbrev told2 (c d : Context) (k : Rec64) : State := { told c k with ctxs := [c, d] }

/-- A SEAL message with two queue keys and one bounce key. -/
def sealMsg : SealMsg := ⟨0, [1, 2], [3], 0x10000, 0⟩

/-- A checkpoint of one frame for the target. -/
def ckpt : Checkpoint := ⟨0x7A, 4, 9, ⟨1, 0, 1⟩, [(0, 0x55), (0x1FFFFF, 1)], [], [(0, inst [])], ctx.queues, ctx.sessions, []⟩

/-- A fabric operator on plot 511. -/
def fab511 : FabNode :=
  { id := 5, set := ⟨9, 0, [], 0, 0, 1, 900, false⟩, ins := [], outs := [], heldUnits := [], took := [], inFrame := false, frames := 0, ram := [], plots := [511],
    gen := some 0, placed := true, stopped := false, pre := none, since := 0, served := none, finished := false }

/-- A block whose first word is ADD to the left operand of slot 1, both its operands there. -/
def bAdd : Block := { block (vals 5 6) with words := 0x1010200000000000 :: List.replicate 7 0x0400000000000000 }

theorem rat4 : ratOf 0x0 0x40800000 = some 4 := by
  have h : floatVal 0x0 0x40800000 = .fin false 0x800000 (-21) := by decide
  rw [ratOf, h]; norm_num [FVal.rat]

theorem ratHalf : ratOf 0x0 0x3F000000 = some (1 / 2) := by
  have h : floatVal 0x0 0x3F000000 = .fin false 0x800000 (-24) := by decide
  rw [ratOf, h]; norm_num [FVal.rat]

theorem ratMinus : ratOf 0x0 0xBF800000 = some (-1) := by
  have h : floatVal 0x0 0xBF800000 = .fin true 0x800000 (-23) := by decide
  rw [ratOf, h]; norm_num [FVal.rat]

/-! ### Ill-formed terms, one for each check (R62, R66, R67, R73-R76, R193, R209, R239, R240) -/

/-- R66: lowest bit and width go beyond bit 63. -/
theorem test_wf_ext : (Instr.ext h1 60 4).WellFormed = false := by decide
/-- R66: the same for the sign-extending form. -/
theorem test_wf_exts : (Instr.exts h1 1 63).WellFormed = false := by decide
/-- R66: ports end at 23. -/
theorem test_wf_lnkst : (Instr.lnkst h1 24).WellFormed = false := by decide
/-- R67: the count of SEMA begins at 1. -/
theorem test_wf_sema : (Instr.sema h1 0 7 12 0).WellFormed = false := by decide
/-- R67: the count of SEMP begins at 1. -/
theorem test_wf_semp : (Instr.semp h1 0 12 0).WellFormed = false := by decide
/-- R67: words of a beat end at 95. -/
theorem test_wf_chr : (Instr.chr h0 0 3 96).WellFormed = false := by decide
/-- R62: a store has no target. -/
theorem test_wf_sender : (Instr.st h0 0 .b8 0).WellFormed = false := by decide
/-- R62: two targets of one kind and slot. -/
theorem test_wf_targets : (Instr.add ⟨.always, some ⟨.left, 3⟩, some ⟨.left, 3⟩⟩).WellFormed = false := by decide
/-- A word of the A-strip that is well formed, from which the ones below differ in one field: ADD of f32. -/
def wAdd : SWord := ⟨0, 0, 0, 0, 0, 1, 2, 32, 0⟩
theorem test_wf_word : (Instr.astAdd wAdd).WellFormed = true := by decide
/-- R73: POP of 7. -/
theorem test_wf_pop : (Instr.astAdd { wAdd with pop := 7 }).WellFormed = false := by decide
/-- R82: PUSH to the strip itself. -/
theorem test_wf_push : (Instr.astAdd { wAdd with push := 3 }).WellFormed = false := by decide
/-- R73: rounding 110. -/
theorem test_wf_rounding : (Instr.astAdd { wAdd with rm := 6 }).WellFormed = false := by decide
/-- R75: rounding on a word that does not round. -/
theorem test_wf_unrounded : (Instr.astMov { wAdd with ty := 11, b := 32, rm := 1 }).WellFormed = false := by decide
/-- R75: a type that ADD does not accept, h4. -/
theorem test_wf_type : (Instr.astAdd { wAdd with ty := 7 }).WellFormed = false := by decide
/-- R74: k0 as a destination. -/
theorem test_wf_destination : (Instr.astAdd { wAdd with d := 8 }).WellFormed = false := by decide
/-- R74: operand code 33. -/
theorem test_wf_operand : (Instr.astAdd { wAdd with b := 33 }).WellFormed = false := by decide
/-- R74: an operand field that ADD does not use. -/
theorem test_wf_unused : (Instr.astAdd { wAdd with c := 0 }).WellFormed = false := by decide
/-- R193: an odd k operand of f64. -/
theorem test_wf_pair : (Instr.astAdd { wAdd with ty := 10, a := 9 }).WellFormed = false := by decide
/-- R76: an immediate bit that ADD does not assign. -/
theorem test_wf_immediate : (Instr.astAdd { wAdd with imm := 1 }).WellFormed = false := by decide
/-- R76: IDLE of no schedule cycle. -/
theorem test_wf_idle : (Instr.idle .ast ⟨0, 0, 0, 0, 32, 32, 32, 32, 0⟩).WellFormed = false := by decide
/-- R209: a word that sends to two destinations names a k register as the second. -/
theorem test_wf_second : (Instr.pstSteer ⟨0, 0, 0, 11, 0, 1, 2, 8, 0⟩).WellFormed = false := by decide
/-- R209: a word that sends to two destinations names one channel twice. -/
theorem test_wf_channels : (Instr.pstSteer ⟨0, 0, 0, 11, 16, 1, 2, 16, 0⟩).WellFormed = false := by decide
/-- A control token that is well formed, from which the ones below differ in one field: MMAZ of the worked example of spec/10. -/
def tMmaz : MTok := ⟨8, 8, 0, 1, 0, 0, 0, 0, 12, 0, 0, 0, 0, 0, 0, 0, 0, 0⟩
theorem test_wf_token : (Instr.mmaz tMmaz).WellFormed = true := by decide
/-- R240: formats of two classes. -/
theorem test_wf_classes : (Instr.mmaz { tMmaz with fb := 1 }).WellFormed = false := by decide
/-- R239: KCNT of 0, and one beyond the class maximum. -/
theorem test_wf_kcnt : (Instr.mmaz { tMmaz with kcnt := 0 }).WellFormed = false ∧ (Instr.mmaz { tMmaz with kcnt := 13 }).WellFormed = false := by decide
/-- R239: a field that ACCZ does not use. -/
theorem test_wf_accz : (Instr.accz { tMmaz with fa := 0, fb := 0, sb := 0, kcnt := 0, tag := 1 }).WellFormed = false := by decide
/-- R26: PUSH of the MXE to itself. -/
theorem test_wf_tokenPush : (Instr.mmaz { tMmaz with push := 6 }).WellFormed = false := by decide

/-! ### Decoding words that the spec writes out -/

/-- The worked encoding of spec/03, and the first words of other worked examples: values, branches. -/
theorem test_decode_values :
    decodeTableWord 64 0x0110685080000000 = some (.read ⟨.always, some ⟨.left, 3⟩, some ⟨.left, 5⟩⟩ 1) ∧
    decodeTableWord 64 0x0110504100000000 = some (.read ⟨.always, some ⟨.left, 2⟩, some ⟨.right, 4⟩⟩ 2) ∧
    decodeTableWord 64 0x3930986000000000 = some (.tgti ⟨.always, some ⟨.pred, 4⟩, some ⟨.pred, 6⟩⟩ 0) ∧
    decodeTableWord 64 0x1060A00000000000 = some (.add ⟨.onTrue, some ⟨.right, 5⟩, none⟩) ∧
    decodeTableWord 64 0x03A0A00000000000 = some (.null ⟨.onFalse, some ⟨.right, 5⟩, none⟩ 0) ∧
    decodeTableWord 64 0x0800000000000005 = some (.br h1 0 5) ∧
    decodeTableWord 64 0x0A10A00000000010 = some (.call ⟨.always, some ⟨.left, 5⟩, none⟩ 0 16) ∧
    decodeTableWord 64 0x05208000000003E8 = some (.movi ⟨.always, some ⟨.right, 4⟩, none⟩ 1000) ∧
    decodeTableWord 64 0x2610A00000000000 = some (.min ⟨.always, some ⟨.left, 5⟩, none⟩) ∧
    decodeTableWord 64 0x0900000000000000 = some (.brr h1) ∧
    decodeTableWord 64 0x0611400028801000 = some (.movhi ⟨.always, some ⟨.left, 10⟩, none⟩ 0x28801000) := by decide +kernel

/-- Words of the worked examples of spec/03, spec/06 and spec/20: memory. -/
theorem test_decode_memory :
    decodeTableWord 64 0x4010800060000000 = some (.ld ⟨.always, some ⟨.left, 4⟩, none⟩ 0 .b8 0) ∧
    decodeTableWord 64 0x42000000E0000000 = some (.st h1 1 .b8 0) ∧
    decodeTableWord 64 0x4400000064000000 = some (.ldfTake h1 0 .b8 4 0) ∧
    decodeTableWord 64 0x4800000064000000 = some (.aadd h1 0 true 4 0) ∧
    decodeTableWord 64 0x42000001E0000040 = some (.st h1 3 .b8 0x40) := by decide +kernel

/-- Words of the worked examples of spec/10, spec/20 and spec/21: engines. -/
theorem test_decode_engines :
    decodeTableWord 64 0x7800000081000000 = some (.oclaim h1 1 1) ∧
    decodeTableWord 64 0x7A00000181001800 = some (.ofill h1 3 1 0x1800) ∧
    decodeTableWord 64 0x7B00000200000000 = some (.mxq h1 4) ∧
    decodeTableWord 64 0x6400000080000200 = some (.halo h1 1 512) ∧
    decodeTableWord 64 0x6300000000000080 = some (.cpy h1 0 0x80) ∧
    decodeTableWord 64 0x7000000084001000 = some (.run h1 1 .est 1 0) ∧
    decodeTableWord 64 0x70000002030077FF = some (.run h1 4 .ast 7 2047) ∧
    decodeTableWord 64 0x7400000005000000 = some (.tokw h1 0 .pst) ∧
    decodeTableWord 64 0x7110600088000000 = some (.chr ⟨.always, some ⟨.left, 3⟩, none⟩ 1 8 0) := by decide +kernel

/-- Words of the worked examples and tables of spec/14, spec/15 and spec/18: groups, semaphores, barriers, faults. -/
theorem test_decode_sync :
    decodeTableWord 64 0x8A1028400000000C = some (.grank ⟨.always, some ⟨.left, 1⟩, some ⟨.left, 4⟩⟩ 12) ∧
    decodeTableWord 64 0x891060000000000C = some (.gsize ⟨.always, some ⟨.left, 3⟩, none⟩ 12) ∧
    decodeTableWord 64 0x8B10C0000000000C = some (.gmemb ⟨.always, some ⟨.left, 6⟩, none⟩ 12) ∧
    decodeTableWord 64 0x8810200000000002 = some (.gsid ⟨.always, some ⟨.left, 1⟩, none⟩ 2) ∧
    decodeTableWord 64 0x800000000700004C = some (.sema h1 0 7 12 1) ∧
    decodeTableWord 64 0x810000008000004C = some (.semp h1 1 12 1) ∧
    decodeTableWord 64 0x8210200000000009 = some (.semt ⟨.always, some ⟨.left, 1⟩, none⟩ 9) ∧
    decodeTableWord 64 0x8300000008000003 = some (.bara h1 0 8 3) ∧
    decodeTableWord 64 0x8400000080000003 = some (.barw h1 1 3) ∧
    decodeTableWord 64 0x8500000000000003 = some (.bar h1 0 3) ∧
    decodeTableWord 64 0x8600000000000003 = some (.barc h1 0 3) := by decide +kernel

/-- R70, R61, R82: opcode 0x00, an unassigned opcode, predicate mode 11, a reserved bit of format R, an LSID of format G are no instructions. -/
theorem test_decode_refused :
    decodeTableWord 64 0 = none ∧ decodeTableWord 64 0xB000000000000000 = none ∧ decodeTableWord 64 0x10C0000000000000 = none ∧
    decodeTableWord 64 0x0110200000000001 = none ∧ decodeTableWord 64 0x0400000080000000 = none := by decide +kernel

/-- Words of the worked examples of spec/03, spec/08, spec/09, spec/20, spec/21 and spec/22: the strips. -/
theorem test_decode_strips :
    decodeStrip .ast 0x05D4002810080000 = .ok (.astFma ⟨6, 5, 0, 0, 1, 16, 8, 1, 0⟩) ∧
    decodeStrip .ast 0x0500002410480000 = .ok (.astFma ⟨0, 0, 0, 0, 1, 8, 8, 9, 0⟩) ∧
    decodeStrip .ast 0x0200024095000000 = .ok (.astAdd ⟨0, 0, 0, 0, 18, 1, 10, 32, 0⟩) ∧
    decodeStrip .ast 0x0100041041000006 = .ok (.idle .ast ⟨0, 0, 0, 0, 32, 32, 32, 32, 6⟩) ∧
    decodeStrip .ast 0x1100584841000000 = .ok (.astMov ⟨0, 0, 0, 11, 2, 16, 32, 32, 0⟩) ∧
    decodeStrip .est 0x0300022841000001 = .ok (.estExp2A ⟨0, 0, 0, 0, 17, 16, 32, 32, 1⟩) ∧
    decodeStrip .est 0x21005A3041000000 = .ok (.estFlagr ⟨0, 0, 0, 11, 17, 32, 32, 32, 0⟩) ∧
    decodeStrip .est 0x1F0002EAAD000000 = .ok (.estDiv ⟨0, 0, 0, 0, 23, 21, 22, 32, 0⟩) ∧
    decodeStrip .pst 0x0200680840380000 = .ok (.pstPermb ⟨0, 0, 0, 13, 0, 16, 32, 7, 0⟩) ∧
    decodeStrip .pst 0x0804028041000019 = .ok (.pstCvt ⟨0, 1, 0, 0, 20, 0, 32, 32, 0x19⟩) ∧
    decodeStrip .pst 0x1B045A4241000001 = .ok (.pstMarke ⟨0, 1, 0, 11, 18, 4, 32, 32, 1⟩) ∧
    decodeStrip .pst 0x1C005AAA4100FF07 = .ok (.pstTagt ⟨0, 0, 0, 11, 21, 20, 32, 32, 0xFF07⟩) := by decide +kernel

/-- The control token of the worked example of spec/10; the all-zero token is no operation. -/
theorem test_decode_tokens : decodeToken 0x2880100018000000 = .ok (2, tMmaz) ∧ decodeToken 0 = .error .opcode := by decide +kernel

/-! ### Results that the spec writes out -/

/-- The first target of ADD, or of another word of one left target at slot 1, after a step of the first tile. -/
def sent (r : Res) : Option Tok :=
  match r with
  | .next s => (s.tile? 0 0).bind fun t => t.seq.block.bind fun b => (b.slots[1]?).bind (·.left)
  | _ => none

/-- R119: ADD wraps. -/
theorem test_add : sent (exec (.add h0) (at0 (block (vals 0xFFFFFFFFFFFFFFFF 1)))) = some (.value 0) := by decide +kernel
/-- R119: SHL takes its count modulo 64. -/
theorem test_shl : sent (exec (.shl h0) (at0 (block (vals 3 65)))) = some (.value 6) := by decide +kernel
/-- R120: the most negative number divided by -1 gives itself, with remainder 0. -/
theorem test_div : sent (exec (.div h0) (at0 (block (vals 0x8000000000000000 0xFFFFFFFFFFFFFFFF)))) = some (.value 0x8000000000000000) := by decide +kernel
theorem test_rem : sent (exec (.rem h0) (at0 (block (vals 0x8000000000000000 0xFFFFFFFFFFFFFFFF)))) = some (.value 0) := by decide +kernel
/-- R119: CLZ of 0 is 64. -/
theorem test_clz : sent (exec (.clz h0) (at0 (block ⟨some (.value 0), none, none, false⟩))) = some (.value 64) := by decide +kernel

/-- The worked example of spec/04: sixteen f32 values into an h4 block, with inexact and no other flag. -/
theorem test_block : toBlock 7 (([0x40400000, 0xBF800000, 0x40200000, 0, 0x3EC00000, 0x3E800000, 0xBF200000, 0x3F600000] ++ List.replicate 8 0).map
    (floatVal 0)) = (0x00000078A0ABF880, fInexact) := by decide +kernel

/-- The worked example of spec/04: one rounding per group of the MXE, under RNE and under RTZ. -/
theorem test_group : (∀ mode ∈ [(1 : BitVec 3), 2], floatGroup mode false 0x3F800000 (List.replicate 16 (floatVal 1 0x3900))
    (List.replicate 16 (floatVal 1 0x3980)) = (0x3F800004, fNone)) := by decide +kernel

/-- The worked example of spec/09: approximate EXP2 of 0.5, of 128.0 and of +0, under RNE and, for 0.5, under RUP. -/
theorem test_exp2a : approxElem 3 0 1 0x3F000000 0 = (0x3FB504F3, fInexact) ∧ approxElem 3 0 1 0x43000000 0 = (0x7F800000, fOverflow ||| fInexact) ∧
    approxElem 3 0 1 0 0 = (0x3F800000, fNone) ∧ approxElem 3 0 3 0x3F000000 0 = (0x3FB504F4, fInexact) := by decide +kernel

/-- The square root of 2 rounds to 0x3FB504F3, and that of 4 is exact (R212). -/
theorem test_sqrt : fnElem 0x1D 0 1 0x40000000 0 = (0x3FB504F3, fInexact, false) ∧ fnElem 0x1D 0 1 0x40800000 0 = (0x40000000, fNone, false) := by
  decide +kernel

/-! ### Witnesses: the hypotheses of each clause hold together -/

/-! #### FiringRule -/

theorem witness_FiringRule_waits : ¬
    (∀ (i : Instr) (s : State) (x : Inst) (t : Tile) (b : Block) (h : Head) (m : SeqMeta) (st : SlotSt), AtBlock s x t b → i.shape = Shape.seq h m
    → b.slots[s.focus.slot]? = some st → (st.fired = true ∨ h.pred ≠ Pred.always ∧ st.pred = none ∨ m.left = true ∧ st.left = none ∨ m.right = true
    ∧ st.right = none ∨ (h.pred = Pred.onTrue ∧ ∃ v, st.pred = some (Tok.value v) ∧ BitVec.getLsbD v 0 = false) ∨ h.pred = Pred.onFalse ∧ ∃ v,
    st.pred = some (Tok.value v) ∧ BitVec.getLsbD v 0 = true) → False) :=
  fun h => h (.add h0) (at0 (block ⟨some (.value 3), none, none, false⟩)) _ _ _ h0 _ _ ⟨rfl, rfl, rfl, rfl⟩ rfl rfl (Or.inr (Or.inr (Or.inr (Or.inl
  ⟨rfl, rfl⟩))))

theorem witness_FiringRule_null : ¬
    (∀ (i : Instr) (s : State) (x : Inst) (t : Tile) (b : Block) (h : Head) (m : SeqMeta) (st : SlotSt), AtBlock s x t b → i.shape = Shape.seq h m
    → b.slots[s.focus.slot]? = some st → st.fired = false → (h.pred ≠ Pred.always → st.pred = some Tok.null ∨ predicateMet h.pred st.pred) →
    (m.left = true → st.left ≠ none) → (m.right = true → st.right ≠ none) → h.pred ≠ Pred.always ∧ st.pred = some Tok.null ∨ m.left = true ∧
    st.left = some Tok.null ∨ m.right = true ∧ st.right = some Tok.null → (m.send = true → b.targetsOpen h) → (∀ (ls : BitVec 5), m.ls = some ls →
    m.load = false → ∀ p ∈ b.settled, p.1 ≠ ls) → (∀ (ls : BitVec 5), m.ls = some ls → m.load = true → ∀ p ∈ b.loads, p.1 ≠ ls) → (∀ (g : BitVec
    5), nullRegister i = some g → ∀ p ∈ b.writes, p.1 ≠ g) → False) :=
  fun h => h (.mov h0) (at0 (block ⟨some .null, none, none, false⟩)) _ _ _ h0 _ _ ⟨rfl, rfl, rfl, rfl⟩ rfl rfl (by first | rfl | decide)
  (by simp [h0]) (by first | rfl | decide) (by first | rfl | decide) (by first | rfl | decide) (fun _ => ⟨by decide, by simp [h0, h1]; try decide⟩)
  (by first | rfl | decide) (by first | rfl | decide) (fun _ _ _ h => nomatch h)

/-! #### ValueWords -/

theorem witness_ValueWords_sub : ¬
    (∀ (i : Instr) (s : State) (x : Inst) (t : Tile) (b : Block) (h : Head) (a c v : W64), arithOf i a c = some v ∨ bitsOf i a c = some v ∨ testOf
    i a c = some v ∨ quotientOf i a c = some v ∧ c ≠ 0 ∨ readOf i s x t b a = some v → MayFire i s x t b h a c → b.targetsOpen h → False) :=
  fun h => h (.sub h0) (fire 0 1) _ _ _ h0 0 1 _ (Or.inl rfl) ⟨⟨rfl, rfl, rfl, rfl⟩, ⟨_, _, rfl, rfl, rfl, trivial, rfl, rfl⟩⟩ ⟨by decide,
  by simp [h0, h1]; try decide⟩

theorem witness_ValueWords_mulh : ¬
    (∀ (i : Instr) (s : State) (x : Inst) (t : Tile) (b : Block) (h : Head) (a c v : W64), arithOf i a c = some v ∨ bitsOf i a c = some v ∨ testOf
    i a c = some v ∨ quotientOf i a c = some v ∧ c ≠ 0 ∨ readOf i s x t b a = some v → MayFire i s x t b h a c → b.targetsOpen h → False) :=
  fun h => h (.mulh h0) (fire (-1) 3) _ _ _ h0 (-1) 3 _ (Or.inl rfl) ⟨⟨rfl, rfl, rfl, rfl⟩, ⟨_, _, rfl, rfl, rfl, trivial, rfl, rfl⟩⟩ ⟨by decide,
  by simp [h0, h1]; try decide⟩

theorem witness_ValueWords_shift : ¬
    (∀ (i : Instr) (s : State) (x : Inst) (t : Tile) (b : Block) (h : Head) (a c v : W64), arithOf i a c = some v ∨ bitsOf i a c = some v ∨ testOf
    i a c = some v ∨ quotientOf i a c = some v ∧ c ≠ 0 ∨ readOf i s x t b a = some v → MayFire i s x t b h a c → b.targetsOpen h → False) :=
  fun h => h (.sra h0) (fire (-4) 65) _ _ _ h0 (-4) 65 _ (Or.inr (Or.inl rfl)) ⟨⟨rfl, rfl, rfl, rfl⟩, ⟨_, _, rfl, rfl, rfl, trivial, rfl, rfl⟩⟩
  ⟨by decide, by simp [h0, h1]; try decide⟩

theorem witness_ValueWords_exts : ¬
    (∀ (i : Instr) (s : State) (x : Inst) (t : Tile) (b : Block) (h : Head) (a c v : W64), arithOf i a c = some v ∨ bitsOf i a c = some v ∨ testOf
    i a c = some v ∨ quotientOf i a c = some v ∧ c ≠ 0 ∨ readOf i s x t b a = some v → MayFire i s x t b h a c → b.targetsOpen h → False) :=
  fun h => h (.exts h0 60 3) (fire (-1) 0) _ _ _ h0 (-1) 0 _ (Or.inr (Or.inl rfl)) ⟨⟨rfl, rfl, rfl, rfl⟩, ⟨_, _, rfl, rfl, rfl, trivial, rfl, rfl⟩⟩
  ⟨by decide, by simp [h0, h1]; try decide⟩

theorem witness_ValueWords_test : ¬
    (∀ (i : Instr) (s : State) (x : Inst) (t : Tile) (b : Block) (h : Head) (a c v : W64), arithOf i a c = some v ∨ bitsOf i a c = some v ∨ testOf
    i a c = some v ∨ quotientOf i a c = some v ∧ c ≠ 0 ∨ readOf i s x t b a = some v → MayFire i s x t b h a c → b.targetsOpen h → False) :=
  fun h => h (.tltiu h0 0xFFFFFF) (fire 5 0) _ _ _ h0 5 0 _ (Or.inr (Or.inr (Or.inl rfl))) ⟨⟨rfl, rfl, rfl, rfl⟩, ⟨_, _, rfl, rfl, rfl, trivial,
  rfl, rfl⟩⟩ ⟨by decide, by simp [h0, h1]; try decide⟩

theorem witness_ValueWords_divide : ¬
    (∀ (i : Instr) (s : State) (x : Inst) (t : Tile) (b : Block) (h : Head) (a c v : W64), arithOf i a c = some v ∨ bitsOf i a c = some v ∨ testOf
    i a c = some v ∨ quotientOf i a c = some v ∧ c ≠ 0 ∨ readOf i s x t b a = some v → MayFire i s x t b h a c → b.targetsOpen h → False) :=
  fun h => h (.div h0) (fire (2 ^ 63) (-1)) _ _ _ h0 (2 ^ 63) (-1) _ (Or.inr (Or.inr (Or.inr (Or.inl ⟨rfl, by decide⟩)))) ⟨⟨rfl, rfl, rfl, rfl⟩,
  ⟨_, _, rfl, rfl, rfl, trivial, rfl, rfl⟩⟩ ⟨by decide, by simp [h0, h1]; try decide⟩

theorem witness_ValueWords_read : ¬
    (∀ (i : Instr) (s : State) (x : Inst) (t : Tile) (b : Block) (h : Head) (a c v : W64), arithOf i a c = some v ∨ bitsOf i a c = some v ∨ testOf
    i a c = some v ∨ quotientOf i a c = some v ∧ c ≠ 0 ∨ readOf i s x t b a = some v → MayFire i s x t b h a c → b.targetsOpen h → False) :=
  fun h => h (.read h0 30) (fire 0 0) _ _ _ h0 0 0 _ (Or.inr (Or.inr (Or.inr (Or.inr rfl)))) ⟨⟨rfl, rfl, rfl, rfl⟩, ⟨_, _, rfl, rfl, rfl, trivial,
  rfl, rfl⟩⟩ ⟨by decide, by simp [h0, h1]; try decide⟩

theorem witness_ValueWords_fflags : ¬
    (∀ (i : Instr) (s : State) (x : Inst) (t : Tile) (b : Block) (h : Head) (a c v : W64), arithOf i a c = some v ∨ bitsOf i a c = some v ∨ testOf
    i a c = some v ∨ quotientOf i a c = some v ∧ c ≠ 0 ∨ readOf i s x t b a = some v → MayFire i s x t b h a c → b.targetsOpen h → False) :=
  fun h => h (.mfs h0 .fflags) (fire 0 0) _ _ _ h0 0 0 _ (Or.inr (Or.inr (Or.inr (Or.inr rfl)))) ⟨⟨rfl, rfl, rfl, rfl⟩, ⟨_, _, rfl, rfl, rfl,
  trivial, rfl, rfl⟩⟩ ⟨by decide, by simp [h0, h1]; try decide⟩

theorem witness_ValueWords_gmemb : ¬
    (∀ (i : Instr) (s : State) (x : Inst) (t : Tile) (b : Block) (h : Head) (a c v : W64), arithOf i a c = some v ∨ bitsOf i a c = some v ∨ testOf
    i a c = some v ∨ quotientOf i a c = some v ∧ c ≠ 0 ∨ readOf i s x t b a = some v → MayFire i s x t b h a c → b.targetsOpen h → False) :=
  fun h => h (.gmemb h0 0) (fire 2 0) _ _ _ h0 2 0 _ (Or.inr (Or.inr (Or.inr (Or.inr rfl)))) ⟨⟨rfl, rfl, rfl, rfl⟩, ⟨_, _, rfl, rfl, rfl, trivial,
  rfl, rfl⟩⟩ ⟨by decide, by simp [h0, h1]; try decide⟩

theorem witness_ValueWords_lnkst : ¬
    (∀ (i : Instr) (s : State) (x : Inst) (t : Tile) (b : Block) (h : Head) (a c v : W64), arithOf i a c = some v ∨ bitsOf i a c = some v ∨ testOf
    i a c = some v ∨ quotientOf i a c = some v ∧ c ≠ 0 ∨ readOf i s x t b a = some v → MayFire i s x t b h a c → b.targetsOpen h → False) :=
  fun h => h (.lnkst h0 23) (fire 0 0) _ _ _ h0 0 0 _ (Or.inr (Or.inr (Or.inr (Or.inr rfl)))) ⟨⟨rfl, rfl, rfl, rfl⟩, ⟨_, _, rfl, rfl, rfl, trivial,
  rfl, rfl⟩⟩ ⟨by decide, by simp [h0, h1]; try decide⟩

theorem witness_ValueWords_ctxq : ¬
    (∀ (i : Instr) (s : State) (x : Inst) (t : Tile) (b : Block) (h : Head) (a c v : W64), arithOf i a c = some v ∨ bitsOf i a c = some v ∨ testOf
    i a c = some v ∨ quotientOf i a c = some v ∧ c ≠ 0 ∨ readOf i s x t b a = some v → MayFire i s x t b h a c → b.targetsOpen h → False) :=
  fun h => h (.ctxq h0 .allotment) (fire 0 0) _ _ _ h0 0 0 _ (Or.inr (Or.inr (Or.inr (Or.inr rfl)))) ⟨⟨rfl, rfl, rfl, rfl⟩, ⟨_, _, rfl, rfl, rfl,
  trivial, rfl, rfl⟩⟩ ⟨by decide, by simp [h0, h1]; try decide⟩

theorem witness_ValueWords_qstat : ¬
    (∀ (i : Instr) (s : State) (x : Inst) (t : Tile) (b : Block) (h : Head) (a c v : W64), arithOf i a c = some v ∨ bitsOf i a c = some v ∨ testOf
    i a c = some v ∨ quotientOf i a c = some v ∧ c ≠ 0 ∨ readOf i s x t b a = some v → MayFire i s x t b h a c → b.targetsOpen h → False) :=
  fun h => h (.qstat h0 15) (fire 0 0) _ _ _ h0 0 0 _ (Or.inr (Or.inr (Or.inr (Or.inr rfl)))) ⟨⟨rfl, rfl, rfl, rfl⟩, ⟨_, _, rfl, rfl, rfl, trivial,
  rfl, rfl⟩⟩ ⟨by decide, by simp [h0, h1]; try decide⟩

/-! #### BlockWords -/

theorem witness_BlockWords_call : ¬
    (∀ (i : Instr) (s : State) (x : Inst) (t : Tile) (b : Block) (h : Head) (a c : W64) (r : Branch × Option W64), branchOf i t b a = some r →
    MayFire i s x t b h a c → b.targetsOpen h → b.branch = none → (r.1 = Branch.halt → b.trap = none ∧ b.hasBar = false) → False) :=
  fun h => h (.call h0 0 (-1)) (fire 0 0) _ _ _ h0 0 0 _ rfl ⟨⟨rfl, rfl, rfl, rfl⟩, ⟨_, _, rfl, rfl, rfl, trivial, rfl, rfl⟩⟩ ⟨by decide,
  by simp [h0, h1]; try decide⟩ rfl (by decide)

theorem witness_BlockWords_halt : ¬
    (∀ (i : Instr) (s : State) (x : Inst) (t : Tile) (b : Block) (h : Head) (a c : W64) (r : Branch × Option W64), branchOf i t b a = some r →
    MayFire i s x t b h a c → b.targetsOpen h → b.branch = none → (r.1 = Branch.halt → b.trap = none ∧ b.hasBar = false) → False) :=
  fun h => h (.halt h1) (fire 0 0) _ _ _ h1 0 0 _ rfl ⟨⟨rfl, rfl, rfl, rfl⟩, ⟨_, _, rfl, rfl, rfl, trivial, rfl, rfl⟩⟩ ⟨by decide,
  by simp [h0, h1]; try decide⟩ rfl (fun _ => ⟨rfl, rfl⟩)

theorem witness_BlockWords_write : ¬
    (∀ (s : State) (x : Inst) (t : Tile) (b : Block) (h : Head) (a c : W64) (g : BitVec 5), MayFire (Instr.write h g) s x t b h a c → (∀ p ∈
    b.writes, p.1 ≠ g) → False) :=
  fun h => h (fire 7 0) _ _ _ h1 7 0 31 ⟨⟨rfl, rfl, rfl, rfl⟩, ⟨_, _, rfl, rfl, rfl, trivial, rfl, rfl⟩⟩
  (by intro p hp; simp [block, Block.fetched] at hp)

theorem witness_BlockWords_null : ¬
    (∀ (s : State) (x : Inst) (t : Tile) (b : Block) (h : Head) (a c : W64) (mask : BitVec 32), MayFire (Instr.null h mask) s x t b h a c →
    b.targetsOpen h → (∀ p ∈ b.settled, mask.getLsbD p.1.toNat = false) → False) :=
  fun h => h (fire 7 0) _ _ _ h0 0 0 0x80000001 ⟨⟨rfl, rfl, rfl, rfl⟩, ⟨_, _, rfl, rfl, rfl, trivial, rfl, rfl⟩⟩ ⟨by decide,
  by simp [h0, h1]; try decide⟩ (by simp [at0]; decide)

theorem witness_BlockWords_trap : ¬
    (∀ (s : State) (x : Inst) (t : Tile) (b : Block) (h : Head) (a c : W64) (code : BitVec 16), MayFire (Instr.trap h code) s x t b h a c → b.trap
    = none → b.branch ≠ some Branch.halt → b.hasWaita = false → b.hasBar = false → False) :=
  fun h => h (fire 7 0) _ _ _ h1 0 0 0xFFFF ⟨⟨rfl, rfl, rfl, rfl⟩, ⟨_, _, rfl, rfl, rfl, trivial, rfl, rfl⟩⟩ rfl (by decide) rfl rfl

theorem witness_BlockWords_fence : ¬
    (∀ (s : State) (x : Inst) (t : Tile) (b : Block) (h : Head) (a c : W64) (sc : Scope), MayFire (Instr.fence h sc) s x t b h a c → False) :=
  fun h => h (fire 7 0) _ _ _ h1 0 0 .system ⟨⟨rfl, rfl, rfl, rfl⟩, ⟨_, _, rfl, rfl, rfl, trivial, rfl, rfl⟩⟩

theorem witness_BlockWords_sbar : ¬
    (∀ (s : State) (x : Inst) (t : Tile) (b : Block) (h : Head) (a c : W64) (mask : BitVec 16), MayFire (Instr.sbar h mask) s x t b h a c → False)
    :=
  fun h => h (fire 7 0) _ _ _ h1 0 0 0x8001 ⟨⟨rfl, rfl, rfl, rfl⟩, ⟨_, _, rfl, rfl, rfl, trivial, rfl, rfl⟩⟩

theorem witness_BlockWords_clear : ¬
    (∀ (s : State) (x : Inst) (t : Tile) (b : Block) (h : Head) (a c : W64), MayFire (Instr.ctxqClearFlags h) s x t b h a c → b.targetsOpen h →
    False) :=
  fun h => h (fire 7 0) _ _ _ h0 0 0 ⟨⟨rfl, rfl, rfl, rfl⟩, ⟨_, _, rfl, rfl, rfl, trivial, rfl, rfl⟩⟩ ⟨by decide, by simp [h0, h1]; try decide⟩

/-! #### CommitWords -/

theorem witness_CommitWords_hvec : ¬
    (∀ (i : Instr) (s : State) (x : Inst) (t : Tile) (b : Block) (h : Head) (a c : W64) (ls : BitVec 5) (e : Eff) (va : W64) (g : Option (BitVec
    5)), Notes s x t b a c i ls e va g ∨ NotesAccess s x t b a c i ls e va g → MayFire i s x t b h a c → b.unsettled ls g → False) :=
  fun h => h (.mts h1 31 .hvec) (fire 16 0) _ _ _ h1 16 0 31 _ _ none (Or.inl (.hvec _ _ (by decide))) ⟨⟨rfl, rfl, rfl, rfl⟩, ⟨_, _, rfl, rfl, rfl,
  trivial, rfl, rfl⟩⟩ ⟨by simp [block, Block.fetched], by simp [block, Block.fetched]⟩

theorem witness_CommitWords_wto : ¬
    (∀ (i : Instr) (s : State) (x : Inst) (t : Tile) (b : Block) (h : Head) (a c : W64) (ls : BitVec 5) (e : Eff) (va : W64) (g : Option (BitVec
    5)), Notes s x t b a c i ls e va g ∨ NotesAccess s x t b a c i ls e va g → MayFire i s x t b h a c → b.unsettled ls g → False) :=
  fun h => h (.mts h1 0 .wto) (fire (2 ^ 48 - 1) 0) _ _ _ h1 (2 ^ 48 - 1) 0 0 _ _ none (Or.inl (.wto _ _ (by decide))) ⟨⟨rfl, rfl, rfl, rfl⟩, ⟨_,
  _, rfl, rfl, rfl, trivial, rfl, rfl⟩⟩ ⟨by simp [block, Block.fetched], by simp [block, Block.fetched]⟩

theorem witness_CommitWords_fmode : ¬
    (∀ (i : Instr) (s : State) (x : Inst) (t : Tile) (b : Block) (h : Head) (a c : W64) (ls : BitVec 5) (e : Eff) (va : W64) (g : Option (BitVec
    5)), Notes s x t b a c i ls e va g ∨ NotesAccess s x t b a c i ls e va g → MayFire i s x t b h a c → b.unsettled ls g → False) :=
  fun h => h (.mtsFmode h1 0) (fire 0x11F05 0) _ _ _ h1 0x11F05 0 0 _ _ none (Or.inl (.fmode _ _ (by decide) (by decide) (by decide) (by decide)))
  ⟨⟨rfl, rfl, rfl, rfl⟩, ⟨_, _, rfl, rfl, rfl, trivial, rfl, rfl⟩⟩ ⟨by simp [block, Block.fetched], by simp [block, Block.fetched]⟩

theorem witness_CommitWords_fflags : ¬
    (∀ (i : Instr) (s : State) (x : Inst) (t : Tile) (b : Block) (h : Head) (a c : W64) (ls : BitVec 5) (e : Eff) (va : W64) (g : Option (BitVec
    5)), Notes s x t b a c i ls e va g ∨ NotesAccess s x t b a c i ls e va g → MayFire i s x t b h a c → b.unsettled ls g → False) :=
  fun h => h (.mtsFflags h1 0) (fire (2 ^ 22 - 1) 0) _ _ _ h1 (2 ^ 22 - 1) 0 0 _ _ none (Or.inl (.fflags _ _ (by decide))) ⟨⟨rfl, rfl, rfl, rfl⟩,
  ⟨_, _, rfl, rfl, rfl, trivial, rfl, rfl⟩⟩ ⟨by simp [block, Block.fetched], by simp [block, Block.fetched]⟩

theorem witness_CommitWords_epc : ¬
    (∀ (i : Instr) (s : State) (x : Inst) (t : Tile) (b : Block) (h : Head) (a c : W64) (ls : BitVec 5) (e : Eff) (va : W64) (g : Option (BitVec
    5)), Notes s x t b a c i ls e va g ∨ NotesAccess s x t b a c i ls e va g → MayFire i s x t b h a c → b.unsettled ls g → False) :=
  fun h => h (.mtsEpc h1 0) (fireIn 16 0 fun t => { t with sr := { t.sr with cause := 0x80000000 } }) _ _ _ h1 16 0 0 _ _ none (Or.inl (.epc _ _
  rfl (by decide))) ⟨⟨rfl, rfl, rfl, rfl⟩, ⟨_, _, rfl, rfl, rfl, trivial, rfl, rfl⟩⟩ ⟨by simp [block, Block.fetched],
  by simp [block, Block.fetched]⟩

theorem witness_CommitWords_sgo : ¬
    (∀ (i : Instr) (s : State) (x : Inst) (t : Tile) (b : Block) (h : Head) (a c : W64) (ls : BitVec 5) (e : Eff) (va : W64) (g : Option (BitVec
    5)), Notes s x t b a c i ls e va g ∨ NotesAccess s x t b a c i ls e va g → MayFire i s x t b h a c → b.unsettled ls g → False) :=
  fun h => h (.sgo h1 0 15) (fire 0 0) _ _ _ h1 0 0 0 _ _ none (Or.inl (.sgo _ _ _)) ⟨⟨rfl, rfl, rfl, rfl⟩, ⟨_, _, rfl, rfl, rfl, trivial, rfl,
  rfl⟩⟩ ⟨by simp [block, Block.fetched], by simp [block, Block.fetched]⟩

theorem witness_CommitWords_sstop : ¬
    (∀ (i : Instr) (s : State) (x : Inst) (t : Tile) (b : Block) (h : Head) (a c : W64) (ls : BitVec 5) (e : Eff) (va : W64) (g : Option (BitVec
    5)), Notes s x t b a c i ls e va g ∨ NotesAccess s x t b a c i ls e va g → MayFire i s x t b h a c → b.unsettled ls g → False) :=
  fun h => h (.sstop h1 0 15) (fire 0 0) _ _ _ h1 0 0 0 _ _ none (Or.inl (.sstop _ _ _)) ⟨⟨rfl, rfl, rfl, rfl⟩, ⟨_, _, rfl, rfl, rfl, trivial, rfl,
  rfl⟩⟩ ⟨by simp [block, Block.fetched], by simp [block, Block.fetched]⟩

theorem witness_CommitWords_vcfmt : ¬
    (∀ (i : Instr) (s : State) (x : Inst) (t : Tile) (b : Block) (h : Head) (a c : W64) (ls : BitVec 5) (e : Eff) (va : W64) (g : Option (BitVec
    5)), Notes s x t b a c i ls e va g ∨ NotesAccess s x t b a c i ls e va g → MayFire i s x t b h a c → b.unsettled ls g → False) :=
  fun h => h (.vcfmt h1 0 3 31) (fire 0 0) _ _ _ h1 0 0 0 _ _ none (Or.inl (.vcfmt _ _ _ _ rfl)) ⟨⟨rfl, rfl, rfl, rfl⟩, ⟨_, _, rfl, rfl, rfl,
  trivial, rfl, rfl⟩⟩ ⟨by simp [block, Block.fetched], by simp [block, Block.fetched]⟩

theorem witness_CommitWords_vcscl : ¬
    (∀ (i : Instr) (s : State) (x : Inst) (t : Tile) (b : Block) (h : Head) (a c : W64) (ls : BitVec 5) (e : Eff) (va : W64) (g : Option (BitVec
    5)), Notes s x t b a c i ls e va g ∨ NotesAccess s x t b a c i ls e va g → MayFire i s x t b h a c → b.unsettled ls g → False) :=
  fun h => h (.vcscl h1 0 3 7) (fire 0xFF7FFFFF 0) _ _ _ h1 0xFF7FFFFF 0 0 _ _ none (Or.inl (.vcscl _ _ _ _ (by decide) (by decide) (by decide)))
  ⟨⟨rfl, rfl, rfl, rfl⟩, ⟨_, _, rfl, rfl, rfl, trivial, rfl, rfl⟩⟩ ⟨by simp [block, Block.fetched], by simp [block, Block.fetched]⟩

theorem witness_CommitWords_chw : ¬
    (∀ (i : Instr) (s : State) (x : Inst) (t : Tile) (b : Block) (h : Head) (a c : W64) (ls : BitVec 5) (e : Eff) (va : W64) (g : Option (BitVec
    5)), Notes s x t b a c i ls e va g ∨ NotesAccess s x t b a c i ls e va g → MayFire i s x t b h a c → b.unsettled ls g → False) :=
  fun h => h (.chw h1 0 15 7 true) (fireIn 9 0 (chans 1 2)) _ _ _ h1 9 0 0 _ _ none (Or.inl (.chw _ _ _ _ _ rfl)) ⟨⟨rfl, rfl, rfl, rfl⟩, ⟨_, _,
  rfl, rfl, rfl, trivial, rfl, rfl⟩⟩ ⟨by simp [block, Block.fetched], by simp [block, Block.fetched]⟩

theorem witness_CommitWords_tokp : ¬
    (∀ (i : Instr) (s : State) (x : Inst) (t : Tile) (b : Block) (h : Head) (a c : W64) (ls : BitVec 5) (e : Eff) (va : W64) (g : Option (BitVec
    5)), Notes s x t b a c i ls e va g ∨ NotesAccess s x t b a c i ls e va g → MayFire i s x t b h a c → b.unsettled ls g → False) :=
  fun h => h (.tokp h1 0 .pst) (fire 0 0) _ _ _ h1 0 0 0 _ _ none (Or.inl (.tokp _ _ _)) ⟨⟨rfl, rfl, rfl, rfl⟩, ⟨_, _, rfl, rfl, rfl, trivial, rfl,
  rfl⟩⟩ ⟨by simp [block, Block.fetched], by simp [block, Block.fetched]⟩

theorem witness_CommitWords_tokw : ¬
    (∀ (i : Instr) (s : State) (x : Inst) (t : Tile) (b : Block) (h : Head) (a c : W64) (ls : BitVec 5) (e : Eff) (va : W64) (g : Option (BitVec
    5)), Notes s x t b a c i ls e va g ∨ NotesAccess s x t b a c i ls e va g → MayFire i s x t b h a c → b.unsettled ls g → False) :=
  fun h => h (.tokw h1 0 .mxe) (fireIn 0 0 fun t => { t with fifo := Vector.replicate 30 1 }) _ _ _ h1 0 0 0 _ _ none (Or.inl (.tokw _ _ _
  (by decide))) ⟨⟨rfl, rfl, rfl, rfl⟩, ⟨_, _, rfl, rfl, rfl, trivial, rfl, rfl⟩⟩ ⟨by simp [block, Block.fetched], by simp [block, Block.fetched]⟩

theorem witness_CommitWords_oclaim : ¬
    (∀ (i : Instr) (s : State) (x : Inst) (t : Tile) (b : Block) (h : Head) (a c : W64) (ls : BitVec 5) (e : Eff) (va : W64) (g : Option (BitVec
    5)), Notes s x t b a c i ls e va g ∨ NotesAccess s x t b a c i ls e va g → MayFire i s x t b h a c → b.unsettled ls g → False) :=
  fun h => h (.oclaim h1 0 15) (fire 0 0) _ _ _ h1 0 0 0 _ _ none (Or.inl (.oclaim _ _ _)) ⟨⟨rfl, rfl, rfl, rfl⟩, ⟨_, _, rfl, rfl, rfl, trivial,
  rfl, rfl⟩⟩ ⟨by simp [block, Block.fetched], by simp [block, Block.fetched]⟩

theorem witness_CommitWords_orelease : ¬
    (∀ (i : Instr) (s : State) (x : Inst) (t : Tile) (b : Block) (h : Head) (a c : W64) (ls : BitVec 5) (e : Eff) (va : W64) (g : Option (BitVec
    5)), Notes s x t b a c i ls e va g ∨ NotesAccess s x t b a c i ls e va g → MayFire i s x t b h a c → b.unsettled ls g → False) :=
  fun h => h (.orelease h1 0 15) (fire 0 0) _ _ _ h1 0 0 0 _ _ none (Or.inl (.orelease _ _ _)) ⟨⟨rfl, rfl, rfl, rfl⟩, ⟨_, _, rfl, rfl, rfl,
  trivial, rfl, rfl⟩⟩ ⟨by simp [block, Block.fetched], by simp [block, Block.fetched]⟩

theorem witness_CommitWords_mxq : ¬
    (∀ (i : Instr) (s : State) (x : Inst) (t : Tile) (b : Block) (h : Head) (a c : W64) (ls : BitVec 5) (e : Eff) (va : W64) (g : Option (BitVec
    5)), Notes s x t b a c i ls e va g ∨ NotesAccess s x t b a c i ls e va g → MayFire i s x t b h a c → b.unsettled ls g → False) :=
  fun h => h (.mxq h1 0) (fire 5 0) _ _ _ h1 5 0 0 _ _ none (Or.inl (.mxq _ _)) ⟨⟨rfl, rfl, rfl, rfl⟩, ⟨_, _, rfl, rfl, rfl, trivial, rfl, rfl⟩⟩
  ⟨by simp [block, Block.fetched], by simp [block, Block.fetched]⟩

theorem witness_CommitWords_sema : ¬
    (∀ (i : Instr) (s : State) (x : Inst) (t : Tile) (b : Block) (h : Head) (a c : W64) (ls : BitVec 5) (e : Eff) (va : W64) (g : Option (BitVec
    5)), Notes s x t b a c i ls e va g ∨ NotesAccess s x t b a c i ls e va g → MayFire i s x t b h a c → b.unsettled ls g → False) :=
  fun h => h (.sema h1 0 31 63 0xFFFF) (fire 0 0) _ _ _ h1 0 0 0 _ _ (some 31) (Or.inl (.sema _ _ _ _ _)) ⟨⟨rfl, rfl, rfl, rfl⟩, ⟨_, _, rfl, rfl,
  rfl, trivial, rfl, rfl⟩⟩ ⟨by simp [block, Block.fetched], by simp [block, Block.fetched]⟩

theorem witness_CommitWords_semp : ¬
    (∀ (i : Instr) (s : State) (x : Inst) (t : Tile) (b : Block) (h : Head) (a c : W64) (ls : BitVec 5) (e : Eff) (va : W64) (g : Option (BitVec
    5)), Notes s x t b a c i ls e va g ∨ NotesAccess s x t b a c i ls e va g → MayFire i s x t b h a c → b.unsettled ls g → False) :=
  fun h => h (.semp h1 0 63 0xFFFF) (fireIn 1 0 id) _ _ _ h1 1 0 0 _ _ none (Or.inl (.semp _ _ _ _ (by decide))) ⟨⟨rfl, rfl, rfl, rfl⟩, ⟨_, _, rfl,
  rfl, rfl, trivial, rfl, rfl⟩⟩ ⟨by simp [block, Block.fetched], by simp [block, Block.fetched]⟩

theorem witness_CommitWords_bara : ¬
    (∀ (i : Instr) (s : State) (x : Inst) (t : Tile) (b : Block) (h : Head) (a c : W64) (ls : BitVec 5) (e : Eff) (va : W64) (g : Option (BitVec
    5)), Notes s x t b a c i ls e va g ∨ NotesAccess s x t b a c i ls e va g → MayFire i s x t b h a c → b.unsettled ls g → False) :=
  fun h => h (.bara h1 0 31 0) (fire 0 0) _ _ _ h1 0 0 0 _ _ (some 31) (Or.inl (.bara _ _ _ _ (by decide) (by simp [block, Block.fetched]))) ⟨⟨rfl,
  rfl, rfl, rfl⟩, ⟨_, _, rfl, rfl, rfl, trivial, rfl, rfl⟩⟩ ⟨by simp [block, Block.fetched], by simp [block, Block.fetched]⟩

theorem witness_CommitWords_barw : ¬
    (∀ (i : Instr) (s : State) (x : Inst) (t : Tile) (b : Block) (h : Head) (a c : W64) (ls : BitVec 5) (e : Eff) (va : W64) (g : Option (BitVec
    5)), Notes s x t b a c i ls e va g ∨ NotesAccess s x t b a c i ls e va g → MayFire i s x t b h a c → b.unsettled ls g → False) :=
  fun h => h (.barw h1 0 0) (fire 1 0) _ _ _ h1 1 0 0 _ _ none (Or.inl (.barw _ _ _ (by decide) (by decide))) ⟨⟨rfl, rfl, rfl, rfl⟩, ⟨_, _, rfl,
  rfl, rfl, trivial, rfl, rfl⟩⟩ ⟨by simp [block, Block.fetched], by simp [block, Block.fetched]⟩

theorem witness_CommitWords_bar : ¬
    (∀ (i : Instr) (s : State) (x : Inst) (t : Tile) (b : Block) (h : Head) (a c : W64) (ls : BitVec 5) (e : Eff) (va : W64) (g : Option (BitVec
    5)), Notes s x t b a c i ls e va g ∨ NotesAccess s x t b a c i ls e va g → MayFire i s x t b h a c → b.unsettled ls g → False) :=
  fun h => h (.bar h1 0 0) (fire 0 0) _ _ _ h1 0 0 0 _ _ none (Or.inl (.bar _ _ _ (by decide) (by simp [block, Block.fetched]) rfl rfl (by decide)
  rfl)) ⟨⟨rfl, rfl, rfl, rfl⟩, ⟨_, _, rfl, rfl, rfl, trivial, rfl, rfl⟩⟩ ⟨by simp [block, Block.fetched], by simp [block, Block.fetched]⟩

theorem witness_CommitWords_barc : ¬
    (∀ (i : Instr) (s : State) (x : Inst) (t : Tile) (b : Block) (h : Head) (a c : W64) (ls : BitVec 5) (e : Eff) (va : W64) (g : Option (BitVec
    5)), Notes s x t b a c i ls e va g ∨ NotesAccess s x t b a c i ls e va g → MayFire i s x t b h a c → b.unsettled ls g → False) :=
  fun h => h (.barc h1 0 0) (fireIn 2 0 id) _ _ _ h1 2 0 0 _ _ none (Or.inl (.barc _ _ _ (by decide) (by decide))) ⟨⟨rfl, rfl, rfl, rfl⟩, ⟨_, _,
  rfl, rfl, rfl, trivial, rfl, rfl⟩⟩ ⟨by simp [block, Block.fetched], by simp [block, Block.fetched]⟩

theorem witness_CommitWords_tlbi : ¬
    (∀ (i : Instr) (s : State) (x : Inst) (t : Tile) (b : Block) (h : Head) (a c : W64) (ls : BitVec 5) (e : Eff) (va : W64) (g : Option (BitVec
    5)), Notes s x t b a c i ls e va g ∨ NotesAccess s x t b a c i ls e va g → MayFire i s x t b h a c → b.unsettled ls g → False) :=
  fun h => h (.tlbi h1 0 .page) (fire (2 ^ 44 - 1) 0) _ _ _ h1 (2 ^ 44 - 1) 0 0 _ _ none (Or.inl (.tlbi _ _ _ (Or.inr (by decide)))) ⟨⟨rfl, rfl,
  rfl, rfl⟩, ⟨_, _, rfl, rfl, rfl, trivial, rfl, rfl⟩⟩ ⟨by simp [block, Block.fetched], by simp [block, Block.fetched]⟩

theorem witness_CommitWords_tlbiAll : ¬
    (∀ (i : Instr) (s : State) (x : Inst) (t : Tile) (b : Block) (h : Head) (a c : W64) (ls : BitVec 5) (e : Eff) (va : W64) (g : Option (BitVec
    5)), Notes s x t b a c i ls e va g ∨ NotesAccess s x t b a c i ls e va g → MayFire i s x t b h a c → b.unsettled ls g → False) :=
  fun h => h (.tlbi h1 0 .all) (fire (2 ^ 44) 0) _ _ _ h1 (2 ^ 44) 0 0 _ _ none (Or.inl (.tlbi _ _ _ (Or.inl rfl))) ⟨⟨rfl, rfl, rfl, rfl⟩, ⟨_, _,
  rfl, rfl, rfl, trivial, rfl, rfl⟩⟩ ⟨by simp [block, Block.fetched], by simp [block, Block.fetched]⟩

theorem witness_CommitWords_st : ¬
    (∀ (i : Instr) (s : State) (x : Inst) (t : Tile) (b : Block) (h : Head) (a c : W64) (ls : BitVec 5) (e : Eff) (va : W64) (g : Option (BitVec
    5)), Notes s x t b a c i ls e va g ∨ NotesAccess s x t b a c i ls e va g → MayFire i s x t b h a c → b.unsettled ls g → False) :=
  fun h => h (.st h1 0 .b8 0xFFFFF8) (fire 0x40000000128000 7) _ _ _ h1 0x40000000128000 7 0 _ _ none (Or.inr (.st _ _ _ _ (.slice 0 0x127FF8)
  rfl)) ⟨⟨rfl, rfl, rfl, rfl⟩, ⟨_, _, rfl, rfl, rfl, trivial, rfl, rfl⟩⟩ ⟨by simp [block, Block.fetched], by simp [block, Block.fetched]⟩

theorem witness_CommitWords_stf : ¬
    (∀ (i : Instr) (s : State) (x : Inst) (t : Tile) (b : Block) (h : Head) (a c : W64) (ls : BitVec 5) (e : Eff) (va : W64) (g : Option (BitVec
    5)), Notes s x t b a c i ls e va g ∨ NotesAccess s x t b a c i ls e va g → MayFire i s x t b h a c → b.unsettled ls g → False) :=
  fun h => h (.stf h1 0 .b1 0) (fire 0x40000000127fff 7) _ _ _ h1 0x40000000127fff 7 0 _ _ none (Or.inr (.stf _ _ _ _ (.slice 0 0x127FFF) rfl))
  ⟨⟨rfl, rfl, rfl, rfl⟩, ⟨_, _, rfl, rfl, rfl, trivial, rfl, rfl⟩⟩ ⟨by simp [block, Block.fetched], by simp [block, Block.fetched]⟩

theorem witness_CommitWords_empty : ¬
    (∀ (i : Instr) (s : State) (x : Inst) (t : Tile) (b : Block) (h : Head) (a c : W64) (ls : BitVec 5) (e : Eff) (va : W64) (g : Option (BitVec
    5)), Notes s x t b a c i ls e va g ∨ NotesAccess s x t b a c i ls e va g → MayFire i s x t b h a c → b.unsettled ls g → False) :=
  fun h => h (.empty h1 0 64) (fire 0x40000000000000 7) _ _ _ h1 0x40000000000000 0 0 _ _ none (Or.inr (.empty _ _ _ (.slice 0 64) rfl)) ⟨⟨rfl,
  rfl, rfl, rfl⟩, ⟨_, _, rfl, rfl, rfl, trivial, rfl, rfl⟩⟩ ⟨by simp [block, Block.fetched], by simp [block, Block.fetched]⟩

theorem witness_CommitWords_take : ¬
    (∀ (i : Instr) (s : State) (x : Inst) (t : Tile) (b : Block) (h : Head) (a c : W64) (ls : BitVec 5) (e : Eff) (va : W64) (g : Option (BitVec
    5)), Notes s x t b a c i ls e va g ∨ NotesAccess s x t b a c i ls e va g → MayFire i s x t b h a c → b.unsettled ls g → False) :=
  fun h => h (.ldfTake h1 0 .b8 31 8) (fireIn 0x40000000000000 7 fun t => { t with full := [0] }) _ _ _ h1 0x40000000000000 0 0 _ _ _ (Or.inr
  (.take _ _ _ _ _ (.slice 0 8) rfl rfl)) ⟨⟨rfl, rfl, rfl, rfl⟩, ⟨_, _, rfl, rfl, rfl, trivial, rfl, rfl⟩⟩ ⟨by simp [block, Block.fetched],
  by simp [block, Block.fetched]⟩

theorem witness_CommitWords_waita : ¬
    (∀ (i : Instr) (s : State) (x : Inst) (t : Tile) (b : Block) (h : Head) (a c : W64) (ls : BitVec 5) (e : Eff) (va : W64) (g : Option (BitVec
    5)), Notes s x t b a c i ls e va g ∨ NotesAccess s x t b a c i ls e va g → MayFire i s x t b h a c → b.unsettled ls g → False) :=
  fun h => h (.waita h1 0 31 8) (fire 0x40000000000000 7) _ _ _ h1 0x40000000000000 7 0 _ _ _ (Or.inr (.waita _ _ _ _ (.slice 0 8) rfl rfl rfl
  rfl)) ⟨⟨rfl, rfl, rfl, rfl⟩, ⟨_, _, rfl, rfl, rfl, trivial, rfl, rfl⟩⟩ ⟨by simp [block, Block.fetched], by simp [block, Block.fetched]⟩

theorem witness_CommitWords_atomic : ¬
    (∀ (i : Instr) (s : State) (x : Inst) (t : Tile) (b : Block) (h : Head) (a c : W64) (ls : BitVec 5) (e : Eff) (va : W64) (g : Option (BitVec
    5)), Notes s x t b a c i ls e va g ∨ NotesAccess s x t b a c i ls e va g → MayFire i s x t b h a c → b.unsettled ls g → False) :=
  fun h => h (.amaxu h1 0 false 31 4) (fire 0x40000000000000 7) _ _ _ h1 0x40000000000000 7 0 _ _ _ (Or.inr (.atomic _ _ _ _ _ _ (.slice 0 4) rfl
  rfl)) ⟨⟨rfl, rfl, rfl, rfl⟩, ⟨_, _, rfl, rfl, rfl, trivial, rfl, rfl⟩⟩ ⟨by simp [block, Block.fetched], by simp [block, Block.fetched]⟩

theorem witness_CommitWords_sdef : ¬
    (∀ (i : Instr) (s : State) (x : Inst) (t : Tile) (b : Block) (h : Head) (a c : W64) (ls : BitVec 5) (e : Eff) (va : W64) (g : Option (BitVec
    5)), Notes s x t b a c i ls e va g ∨ NotesAccess s x t b a c i ls e va g → MayFire i s x t b h a c → b.unsettled ls g → False) :=
  fun h => h (.sdef h1 0 15 0) (fire 0x40000000000000 7) _ _ _ h1 0x40000000000000 0 0 _ _ _ (Or.inr (.sdef _ _ _ _ (.slice 0 0) rfl)) ⟨⟨rfl, rfl,
  rfl, rfl⟩, ⟨_, _, rfl, rfl, rfl, trivial, rfl, rfl⟩⟩ ⟨by simp [block, Block.fetched], by simp [block, Block.fetched]⟩

theorem witness_CommitWords_cpy : ¬
    (∀ (i : Instr) (s : State) (x : Inst) (t : Tile) (b : Block) (h : Head) (a c : W64) (ls : BitVec 5) (e : Eff) (va : W64) (g : Option (BitVec
    5)), Notes s x t b a c i ls e va g ∨ NotesAccess s x t b a c i ls e va g → MayFire i s x t b h a c → b.unsettled ls g → False) :=
  fun h => h (.cpy h1 0 0) (fire 0x40000000000000 7) _ _ _ h1 0x40000000000000 0 0 _ _ _ (Or.inr (.cpy _ _ _ (.slice 0 0) rfl)) ⟨⟨rfl, rfl, rfl,
  rfl⟩, ⟨_, _, rfl, rfl, rfl, trivial, rfl, rfl⟩⟩ ⟨by simp [block, Block.fetched], by simp [block, Block.fetched]⟩

theorem witness_CommitWords_halo : ¬
    (∀ (i : Instr) (s : State) (x : Inst) (t : Tile) (b : Block) (h : Head) (a c : W64) (ls : BitVec 5) (e : Eff) (va : W64) (g : Option (BitVec
    5)), Notes s x t b a c i ls e va g ∨ NotesAccess s x t b a c i ls e va g → MayFire i s x t b h a c → b.unsettled ls g → False) :=
  fun h => h (.halo h1 0 0) (fire 0x40000000000000 7) _ _ _ h1 0x40000000000000 0 0 _ _ _ (Or.inr (.halo _ _ _ (.slice 0 0) rfl)) ⟨⟨rfl, rfl, rfl,
  rfl⟩, ⟨_, _, rfl, rfl, rfl, trivial, rfl, rfl⟩⟩ ⟨by simp [block, Block.fetched], by simp [block, Block.fetched]⟩

theorem witness_CommitWords_ofill : ¬
    (∀ (i : Instr) (s : State) (x : Inst) (t : Tile) (b : Block) (h : Head) (a c : W64) (ls : BitVec 5) (e : Eff) (va : W64) (g : Option (BitVec
    5)), Notes s x t b a c i ls e va g ∨ NotesAccess s x t b a c i ls e va g → MayFire i s x t b h a c → b.unsettled ls g → False) :=
  fun h => h (.ofill h1 0 15 0) (fire 0x40000000000000 7) _ _ _ h1 0x40000000000000 0 0 _ _ _ (Or.inr (.ofill _ _ _ _
  (by intro n hn; exact ⟨.slice 0 (64 * n), by interval_cases n <;> rfl⟩))) ⟨⟨rfl, rfl, rfl, rfl⟩, ⟨_, _, rfl, rfl, rfl, trivial, rfl, rfl⟩⟩
  ⟨by simp [block, Block.fetched], by simp [block, Block.fetched]⟩

theorem witness_CommitWords_enq : ¬
    (∀ (i : Instr) (s : State) (x : Inst) (t : Tile) (b : Block) (h : Head) (a c : W64) (ls : BitVec 5) (e : Eff) (va : W64) (g : Option (BitVec
    5)), Notes s x t b a c i ls e va g ∨ NotesAccess s x t b a c i ls e va g → MayFire i s x t b h a c → b.unsettled ls g → False) :=
  fun h => h (.enq h1 0 15 0) (let s := fire 0x40000000000000 7;
  { s with ctxs := s.ctxs.map fun c => { c with queues := Vector.replicate 16 { Queue.fresh with enabled := true } } }) _ _ _ h1 0x40000000000000 0
  0 _ _ _ (Or.inr (.enq _ _ _ _ (.slice 0 0) _ rfl rfl rfl (by decide))) ⟨⟨rfl, rfl, rfl, rfl⟩, ⟨_, _, rfl, rfl, rfl, trivial, rfl, rfl⟩⟩
  ⟨by simp [block, Block.fetched], by simp [block, Block.fetched]⟩

theorem witness_CommitWords_run : ¬
    (∀ (i : Instr) (s : State) (x : Inst) (t : Tile) (b : Block) (h : Head) (a c : W64) (ls : BitVec 5) (e : Eff) (va : W64) (g : Option (BitVec
    5)), Notes s x t b a c i ls e va g ∨ NotesAccess s x t b a c i ls e va g → MayFire i s x t b h a c → b.unsettled ls g → False) :=
  fun h => h (.run h1 0 .est 0 0) (fire 0x40000000000009 7) _ _ _ h1 0x40000000000009 0 0 _ _ _ (Or.inr (.run _ _ _ _ _ (.slice 0 8) (by decide)
  rfl)) ⟨⟨rfl, rfl, rfl, rfl⟩, ⟨_, _, rfl, rfl, rfl, trivial, rfl, rfl⟩⟩ ⟨by simp [block, Block.fetched], by simp [block, Block.fetched]⟩

theorem witness_CommitWords_chr : ¬
    (∀ (s : State) (x : Inst) (t : Tile) (b : Block) (h : Head) (a c : W64) (ls : BitVec 5) (ch : BitVec 4) (word : BitVec 7) (e : ChanEntry),
    MayFire (Instr.chr h ls ch word) s x t b h a c → b.targetsOpen h → b.unsettled ls none → t.chan[ch.toNat].consumer = 1 →
    t.chan[ch.toNat].entries[List.countP (fun k => k.eff == Eff.chr ch) b.effs]? = some e → False) :=
  fun h => h (fireIn 0 0 (chans 2 1)) _ _ _ h0 0 0 31 15 95 _ ⟨⟨rfl, rfl, rfl, rfl⟩, ⟨_, _, rfl, rfl, rfl, trivial, rfl, rfl⟩⟩ ⟨by decide,
  by simp [h0, h1]; try decide⟩ ⟨by simp [block, Block.fetched], by simp [block, Block.fetched]⟩ rfl rfl

/-! #### WordsRaiseFaults -/

theorem witness_Faults_divide : ¬
    (∀ (i : Instr) (s : State) (x : Inst) (t : Tile) (b : Block) (h : Head) (a c : W64) (code : Byte) (info : W64) (page : Option (BitVec 192)),
    Raises s x t b a c i code info page → MayFire i s x t b h a c → False) :=
  fun h => h (.rem h0) (fire 1 0) _ _ _ h0 1 0 _ _ _ (.divide _ _ rfl rfl) ⟨⟨rfl, rfl, rfl, rfl⟩, ⟨_, _, rfl, rfl, rfl, trivial, rfl, rfl⟩⟩

theorem witness_Faults_hvec : ¬
    (∀ (i : Instr) (s : State) (x : Inst) (t : Tile) (b : Block) (h : Head) (a c : W64) (code : Byte) (info : W64) (page : Option (BitVec 192)),
    Raises s x t b a c i code info page → MayFire i s x t b h a c → False) :=
  fun h => h (.mts h1 0 .hvec) (fire 8 0) _ _ _ h1 8 0 _ _ _ (.hvec _ _ (by decide)) ⟨⟨rfl, rfl, rfl, rfl⟩, ⟨_, _, rfl, rfl, rfl, trivial, rfl,
  rfl⟩⟩

theorem witness_Faults_wto : ¬
    (∀ (i : Instr) (s : State) (x : Inst) (t : Tile) (b : Block) (h : Head) (a c : W64) (code : Byte) (info : W64) (page : Option (BitVec 192)),
    Raises s x t b a c i code info page → MayFire i s x t b h a c → False) :=
  fun h => h (.mts h1 0 .wto) (fire (2 ^ 48) 0) _ _ _ h1 (2 ^ 48) 0 _ _ _ (.wto _ _ (by decide)) ⟨⟨rfl, rfl, rfl, rfl⟩, ⟨_, _, rfl, rfl, rfl,
  trivial, rfl, rfl⟩⟩

theorem witness_Faults_fmode : ¬
    (∀ (i : Instr) (s : State) (x : Inst) (t : Tile) (b : Block) (h : Head) (a c : W64) (code : Byte) (info : W64) (page : Option (BitVec 192)),
    Raises s x t b a c i code info page → MayFire i s x t b h a c → False) :=
  fun h => h (.mtsFmode h1 0) (fire 6 0) _ _ _ h1 6 0 _ _ _ (.fmode _ _ (by decide)) ⟨⟨rfl, rfl, rfl, rfl⟩, ⟨_, _, rfl, rfl, rfl, trivial, rfl,
  rfl⟩⟩

theorem witness_Faults_fmodeReserved : ¬
    (∀ (i : Instr) (s : State) (x : Inst) (t : Tile) (b : Block) (h : Head) (a c : W64) (code : Byte) (info : W64) (page : Option (BitVec 192)),
    Raises s x t b a c i code info page → MayFire i s x t b h a c → False) :=
  fun h => h (.mtsFmode h1 0) (fire (2 ^ 17 + 1) 0) _ _ _ h1 (2 ^ 17 + 1) 0 _ _ _ (.fmodeReserved _ _ (by decide)) ⟨⟨rfl, rfl, rfl, rfl⟩, ⟨_, _,
  rfl, rfl, rfl, trivial, rfl, rfl⟩⟩

theorem witness_Faults_fflags : ¬
    (∀ (i : Instr) (s : State) (x : Inst) (t : Tile) (b : Block) (h : Head) (a c : W64) (code : Byte) (info : W64) (page : Option (BitVec 192)),
    Raises s x t b a c i code info page → MayFire i s x t b h a c → False) :=
  fun h => h (.mtsFflags h1 0) (fire (2 ^ 22) 0) _ _ _ h1 (2 ^ 22) 0 _ _ _ (.fflags _ _ (by decide)) ⟨⟨rfl, rfl, rfl, rfl⟩, ⟨_, _, rfl, rfl, rfl,
  trivial, rfl, rfl⟩⟩

theorem witness_Faults_epc : ¬
    (∀ (i : Instr) (s : State) (x : Inst) (t : Tile) (b : Block) (h : Head) (a c : W64) (code : Byte) (info : W64) (page : Option (BitVec 192)),
    Raises s x t b a c i code info page → MayFire i s x t b h a c → False) :=
  fun h => h (.mtsEpc h1 0) (fire 8 0) _ _ _ h1 8 0 _ _ _ (.epc _ _ rfl) ⟨⟨rfl, rfl, rfl, rfl⟩, ⟨_, _, rfl, rfl, rfl, trivial, rfl, rfl⟩⟩

theorem witness_Faults_epcMisaligned : ¬
    (∀ (i : Instr) (s : State) (x : Inst) (t : Tile) (b : Block) (h : Head) (a c : W64) (code : Byte) (info : W64) (page : Option (BitVec 192)),
    Raises s x t b a c i code info page → MayFire i s x t b h a c → False) :=
  fun h => h (.mtsEpc h1 0) (fireIn 8 0 fun t => { t with sr := { t.sr with cause := 0x80000000 } }) _ _ _ h1 8 0 _ _ _ (.epcMisaligned _ _ rfl
  (by decide)) ⟨⟨rfl, rfl, rfl, rfl⟩, ⟨_, _, rfl, rfl, rfl, trivial, rfl, rfl⟩⟩

theorem witness_Faults_hret : ¬
    (∀ (i : Instr) (s : State) (x : Inst) (t : Tile) (b : Block) (h : Head) (a c : W64) (code : Byte) (info : W64) (page : Option (BitVec 192)),
    Raises s x t b a c i code info page → MayFire i s x t b h a c → False) :=
  fun h => h (.hret h1) (fire 0 0) _ _ _ h1 0 0 _ _ _ (.hret _ rfl) ⟨⟨rfl, rfl, rfl, rfl⟩, ⟨_, _, rfl, rfl, rfl, trivial, rfl, rfl⟩⟩

theorem witness_Faults_semp : ¬
    (∀ (i : Instr) (s : State) (x : Inst) (t : Tile) (b : Block) (h : Head) (a c : W64) (code : Byte) (info : W64) (page : Option (BitVec 192)),
    Raises s x t b a c i code info page → MayFire i s x t b h a c → False) :=
  fun h => h (.semp h1 0 0 1) (fire 1 0) _ _ _ h1 1 0 _ _ _ (.semp _ _ _ _ (by decide)) ⟨⟨rfl, rfl, rfl, rfl⟩, ⟨_, _, rfl, rfl, rfl, trivial, rfl,
  rfl⟩⟩

theorem witness_Faults_bara : ¬
    (∀ (i : Instr) (s : State) (x : Inst) (t : Tile) (b : Block) (h : Head) (a c : W64) (code : Byte) (info : W64) (page : Option (BitVec 192)),
    Raises s x t b a c i code info page → MayFire i s x t b h a c → False) :=
  fun h => h (.bara h1 0 0 1) (fire 1 0) _ _ _ h1 0 0 _ _ _ (.bara _ _ _ _ (by decide)) ⟨⟨rfl, rfl, rfl, rfl⟩, ⟨_, _, rfl, rfl, rfl, trivial, rfl,
  rfl⟩⟩

theorem witness_Faults_barw : ¬
    (∀ (i : Instr) (s : State) (x : Inst) (t : Tile) (b : Block) (h : Head) (a c : W64) (code : Byte) (info : W64) (page : Option (BitVec 192)),
    Raises s x t b a c i code info page → MayFire i s x t b h a c → False) :=
  fun h => h (.barw h1 0 1) (fire 1 0) _ _ _ h1 1 0 _ _ _ (.barw _ _ _ (by decide)) ⟨⟨rfl, rfl, rfl, rfl⟩, ⟨_, _, rfl, rfl, rfl, trivial, rfl,
  rfl⟩⟩

theorem witness_Faults_bar : ¬
    (∀ (i : Instr) (s : State) (x : Inst) (t : Tile) (b : Block) (h : Head) (a c : W64) (code : Byte) (info : W64) (page : Option (BitVec 192)),
    Raises s x t b a c i code info page → MayFire i s x t b h a c → False) :=
  fun h => h (.bar h1 0 1) (fire 1 0) _ _ _ h1 0 0 _ _ _ (.bar _ _ _ (by decide)) ⟨⟨rfl, rfl, rfl, rfl⟩, ⟨_, _, rfl, rfl, rfl, trivial, rfl, rfl⟩⟩

theorem witness_Faults_barc : ¬
    (∀ (i : Instr) (s : State) (x : Inst) (t : Tile) (b : Block) (h : Head) (a c : W64) (code : Byte) (info : W64) (page : Option (BitVec 192)),
    Raises s x t b a c i code info page → MayFire i s x t b h a c → False) :=
  fun h => h (.barc h1 0 255) (fire 1 0) _ _ _ h1 1 0 _ _ _ (.barc _ _ _ (by decide)) ⟨⟨rfl, rfl, rfl, rfl⟩, ⟨_, _, rfl, rfl, rfl, trivial, rfl,
  rfl⟩⟩

theorem witness_Faults_barcCount : ¬
    (∀ (i : Instr) (s : State) (x : Inst) (t : Tile) (b : Block) (h : Head) (a c : W64) (code : Byte) (info : W64) (page : Option (BitVec 192)),
    Raises s x t b a c i code info page → MayFire i s x t b h a c → False) :=
  fun h => h (.barc h1 0 0) (fire 2 0) _ _ _ h1 2 0 _ _ _ (.barcCount _ _ _ (by decide) (by decide)) ⟨⟨rfl, rfl, rfl, rfl⟩, ⟨_, _, rfl, rfl, rfl,
  trivial, rfl, rfl⟩⟩

theorem witness_Faults_chr : ¬
    (∀ (i : Instr) (s : State) (x : Inst) (t : Tile) (b : Block) (h : Head) (a c : W64) (code : Byte) (info : W64) (page : Option (BitVec 192)),
    Raises s x t b a c i code info page → MayFire i s x t b h a c → False) :=
  fun h => h (.chr h0 0 15 0) (fire 2 0) _ _ _ h0 0 0 _ _ _ (.chr _ _ _ _ (by decide)) ⟨⟨rfl, rfl, rfl, rfl⟩, ⟨_, _, rfl, rfl, rfl, trivial, rfl,
  rfl⟩⟩

theorem witness_Faults_chw : ¬
    (∀ (i : Instr) (s : State) (x : Inst) (t : Tile) (b : Block) (h : Head) (a c : W64) (code : Byte) (info : W64) (page : Option (BitVec 192)),
    Raises s x t b a c i code info page → MayFire i s x t b h a c → False) :=
  fun h => h (.chw h1 0 15 0 true) (fire 2 0) _ _ _ h1 2 0 _ _ _ (.chw _ _ _ _ _ (by decide)) ⟨⟨rfl, rfl, rfl, rfl⟩, ⟨_, _, rfl, rfl, rfl, trivial,
  rfl, rfl⟩⟩

theorem witness_Faults_access : ¬
    (∀ (i : Instr) (s : State) (x : Inst) (t : Tile) (b : Block) (h : Head) (a c : W64) (code : Byte) (info : W64) (page : Option (BitVec 192)),
    Raises s x t b a c i code info page → MayFire i s x t b h a c → False) :=
  fun h => h (.st h1 0 .b8 0) (fire 0x40000000000004 0) _ _ _ h1 0x40000000000004 0 _ _ _ (.access _ _ _ _ _ _ rfl (fun h => absurd h (by decide))
  rfl) ⟨⟨rfl, rfl, rfl, rfl⟩, ⟨_, _, rfl, rfl, rfl, trivial, rfl, rfl⟩⟩

theorem witness_Faults_load : ¬
    (∀ (i : Instr) (s : State) (x : Inst) (t : Tile) (b : Block) (h : Head) (a c : W64) (code : Byte) (info : W64) (page : Option (BitVec 192)),
    Raises s x t b a c i code info page → MayFire i s x t b h a c → False) :=
  fun h => h (.ld h0 0 .b8 0) (fire 0x40000000128000 0) _ _ _ h0 0x40000000128000 0 _ _ _ (.access _ _ _ _ _ _ rfl
  (by intro _ h m hs; cases hs; rfl) rfl) ⟨⟨rfl, rfl, rfl, rfl⟩, ⟨_, _, rfl, rfl, rfl, trivial, rfl, rfl⟩⟩

theorem witness_Faults_atomic : ¬
    (∀ (i : Instr) (s : State) (x : Inst) (t : Tile) (b : Block) (h : Head) (a c : W64) (code : Byte) (info : W64) (page : Option (BitVec 192)),
    Raises s x t b a c i code info page → MayFire i s x t b h a c → False) :=
  fun h => h (.aadd h1 0 true 31 0) (fire (2 ^ 55) 0) _ _ _ h1 (2 ^ 55) 0 _ _ _ (.access _ _ _ _ _ _ rfl (fun h => absurd h (by decide)) rfl)
  ⟨⟨rfl, rfl, rfl, rfl⟩, ⟨_, _, rfl, rfl, rfl, trivial, rfl, rfl⟩⟩

theorem witness_Faults_fill : ¬
    (∀ (i : Instr) (s : State) (x : Inst) (t : Tile) (b : Block) (h : Head) (a c : W64) (code : Byte) (info : W64) (page : Option (BitVec 192)),
    Raises s x t b a c i code info page → MayFire i s x t b h a c → False) :=
  fun h => h (.ofill h1 0 15 0) (fire 0x40000000127FC0 0) _ _ _ h1 0x40000000127FC0 0 _ _ _ (.ofill _ _ _ _ 1 _ _ (by decide)
  (by intro m hm; interval_cases m; exact ⟨.slice 0 0x127FC0, rfl⟩) rfl) ⟨⟨rfl, rfl, rfl, rfl⟩, ⟨_, _, rfl, rfl, rfl, trivial, rfl, rfl⟩⟩

theorem witness_Faults_enq : ¬
    (∀ (i : Instr) (s : State) (x : Inst) (t : Tile) (b : Block) (h : Head) (a c : W64) (code : Byte) (info : W64) (page : Option (BitVec 192)),
    Raises s x t b a c i code info page → MayFire i s x t b h a c → False) :=
  fun h => h (.enq h1 0 15 0) (fire 0x40000000000000 0) _ _ _ h1 0x40000000000000 0 _ _ _ (.enq _ _ _ _ (.slice 0 0) _ rfl rfl (Or.inl rfl)) ⟨⟨rfl,
  rfl, rfl, rfl⟩, ⟨_, _, rfl, rfl, rfl, trivial, rfl, rfl⟩⟩

theorem witness_Faults_run : ¬
    (∀ (i : Instr) (s : State) (x : Inst) (t : Tile) (b : Block) (h : Head) (a c : W64) (code : Byte) (info : W64) (page : Option (BitVec 192)),
    Raises s x t b a c i code info page → MayFire i s x t b h a c → False) :=
  fun h => h (.run h1 0 .est 0 0) (fire 0x40000000000004 0) _ _ _ h1 0x40000000000004 0 _ _ _ (.run _ _ _ _ _ (by decide)) ⟨⟨rfl, rfl, rfl, rfl⟩,
  ⟨_, _, rfl, rfl, rfl, trivial, rfl, rfl⟩⟩

theorem witness_Faults_vcfmt : ¬
    (∀ (i : Instr) (s : State) (x : Inst) (t : Tile) (b : Block) (h : Head) (a c : W64) (code : Byte) (info : W64) (page : Option (BitVec 192)),
    Raises s x t b a c i code info page → MayFire i s x t b h a c → False) :=
  fun h => h (.vcfmt h1 0 3 31) (fire 1 0) _ _ _ h1 1 0 _ _ _ (.vcfmt _ _ _ _ (by unfold entryWrong; decide)) ⟨⟨rfl, rfl, rfl, rfl⟩, ⟨_, _, rfl,
  rfl, rfl, trivial, rfl, rfl⟩⟩

theorem witness_Faults_vcfmtFilter : ¬
    (∀ (i : Instr) (s : State) (x : Inst) (t : Tile) (b : Block) (h : Head) (a c : W64) (code : Byte) (info : W64) (page : Option (BitVec 192)),
    Raises s x t b a c i code info page → MayFire i s x t b h a c → False) :=
  fun h => h (.vcfmt h1 0 3 31) (fire 0x0805000000000000 0) _ _ _ h1 0x0805000000000000 0 _ _ _ (.vcfmtFilter _ _ _ _
  (by unfold entryWrong; decide) (by decide) (by rintro (h | ⟨f, hf, _⟩); exact absurd h (by decide); exact nomatch hf)) ⟨⟨rfl, rfl, rfl, rfl⟩, ⟨_,
  _, rfl, rfl, rfl, trivial, rfl, rfl⟩⟩

theorem witness_Faults_vcfmtTile : ¬
    (∀ (i : Instr) (s : State) (x : Inst) (t : Tile) (b : Block) (h : Head) (a c : W64) (code : Byte) (info : W64) (page : Option (BitVec 192)),
    Raises s x t b a c i code info page → MayFire i s x t b h a c → False) :=
  fun h => h (.vcfmt h1 0 3 31) (fire 0x0800000140000000 0) _ _ _ h1 0x0800000140000000 0 _ _ _ (.vcfmtTile _ _ _ _ (by unfold entryWrong; decide)
  (by decide) (Or.inl (by decide)) (by decide) (by decide)) ⟨⟨rfl, rfl, rfl, rfl⟩, ⟨_, _, rfl, rfl, rfl, trivial, rfl, rfl⟩⟩

theorem witness_Faults_vcfmtNode : ¬
    (∀ (i : Instr) (s : State) (x : Inst) (t : Tile) (b : Block) (h : Head) (a c : W64) (code : Byte) (info : W64) (page : Option (BitVec 192)),
    Raises s x t b a c i code info page → MayFire i s x t b h a c → False) :=
  fun h => h (.vcfmt h1 0 3 31) (fire 0x0800400140000000 0) _ _ _ h1 0x0800400140000000 0 _ _ _ (.vcfmtNode _ _ _ _ (by unfold entryWrong; decide)
  (by decide) (Or.inl (by decide)) (by decide) (by intro n hn; simp [inst, Inst.submitted, kernel] at hn)) ⟨⟨rfl, rfl, rfl, rfl⟩, ⟨_, _, rfl, rfl,
  rfl, trivial, rfl, rfl⟩⟩

theorem witness_Faults_vcfmtSession : ¬
    (∀ (i : Instr) (s : State) (x : Inst) (t : Tile) (b : Block) (h : Head) (a c : W64) (code : Byte) (info : W64) (page : Option (BitVec 192)),
    Raises s x t b a c i code info page → MayFire i s x t b h a c → False) :=
  fun h => h (.vcfmt h1 0 3 31) (fire 0x0800C00020000000 0) _ _ _ h1 0x0800C00020000000 0 _ _ _ (.vcfmtSession _ _ _ _ _
  (by unfold entryWrong; decide) (by decide) (Or.inl (by decide)) (by decide) rfl (Or.inl rfl)) ⟨⟨rfl, rfl, rfl, rfl⟩, ⟨_, _, rfl, rfl, rfl,
  trivial, rfl, rfl⟩⟩

theorem witness_Faults_vcfmtTaken : ¬
    (∀ (i : Instr) (s : State) (x : Inst) (t : Tile) (b : Block) (h : Head) (a c : W64) (code : Byte) (info : W64) (page : Option (BitVec 192)),
    Raises s x t b a c i code info page → MayFire i s x t b h a c → False) :=
  fun h => h (.vcfmt h1 0 3 31) (let s := pkg (inst [tileOf 0 (block (vals 0x0800C00020000003 0)), (tile 1).modVc 0 0 fun y =>
  { y with entry := 0x0800C00020000003 }]); { s with ctxs := s.ctxs.map fun c =>
  { c with sessions := Vector.replicate 32 { Session.closed with opened := true, send := true } } }) _ _ _ h1 0x0800C00020000003 0 _ _ _
  (.vcfmtTaken _ _ _ _ _ 0 _ 1 _ 0 0 (by unfold entryWrong; decide) (by decide) (by decide) (Or.inl (by decide)) (by decide) rfl rfl rfl rfl rfl
  (by decide) rfl (Or.inr (Or.inl (by decide))) (by decide)) ⟨⟨rfl, rfl, rfl, rfl⟩, ⟨_, _, rfl, rfl, rfl, trivial, rfl, rfl⟩⟩

theorem witness_Faults_vcscl : ¬
    (∀ (i : Instr) (s : State) (x : Inst) (t : Tile) (b : Block) (h : Head) (a c : W64) (code : Byte) (info : W64) (page : Option (BitVec 192)),
    Raises s x t b a c i code info page → MayFire i s x t b h a c → False) :=
  fun h => h (.vcscl h1 0 3 7) (fire 0x80000000 0) _ _ _ h1 0x80000000 0 _ _ _ (.vcscl _ _ _ _ (by decide)) ⟨⟨rfl, rfl, rfl, rfl⟩, ⟨_, _, rfl, rfl,
  rfl, trivial, rfl, rfl⟩⟩

theorem witness_Faults_tlbi : ¬
    (∀ (i : Instr) (s : State) (x : Inst) (t : Tile) (b : Block) (h : Head) (a c : W64) (code : Byte) (info : W64) (page : Option (BitVec 192)),
    Raises s x t b a c i code info page → MayFire i s x t b h a c → False) :=
  fun h => h (.tlbi h1 0 .page) (fire (2 ^ 55) 0) _ _ _ h1 (2 ^ 55) 0 _ _ _ (.tlbi _ _ _ (by decide) (by decide)) ⟨⟨rfl, rfl, rfl, rfl⟩, ⟨_, _,
  rfl, rfl, rfl, trivial, rfl, rfl⟩⟩

theorem witness_Faults_tlbiSlice : ¬
    (∀ (i : Instr) (s : State) (x : Inst) (t : Tile) (b : Block) (h : Head) (a c : W64) (code : Byte) (info : W64) (page : Option (BitVec 192)),
    Raises s x t b a c i code info page → MayFire i s x t b h a c → False) :=
  fun h => h (.tlbi h1 0 .page) (fire (2 ^ 54) 0) _ _ _ h1 (2 ^ 54) 0 _ _ _ (.tlbiSlice _ _ _ (by decide) (by decide) (by decide)) ⟨⟨rfl, rfl, rfl,
  rfl⟩, ⟨_, _, rfl, rfl, rfl, trivial, rfl, rfl⟩⟩

theorem witness_Faults_pmig : ¬
    (∀ (i : Instr) (s : State) (x : Inst) (t : Tile) (b : Block) (h : Head) (a c : W64) (code : Byte) (info : W64) (page : Option (BitVec 192)),
    Raises s x t b a c i code info page → MayFire i s x t b h a c → False) :=
  fun h => h (.pmig h1 0) (fire (2 ^ 44) 0) _ _ _ h1 (2 ^ 44) 0 _ _ _ (.pmig _ _ (by decide)) ⟨⟨rfl, rfl, rfl, rfl⟩, ⟨_, _, rfl, rfl, rfl, trivial,
  rfl, rfl⟩⟩

theorem witness_Faults_pmigSlice : ¬
    (∀ (i : Instr) (s : State) (x : Inst) (t : Tile) (b : Block) (h : Head) (a c : W64) (code : Byte) (info : W64) (page : Option (BitVec 192)),
    Raises s x t b a c i code info page → MayFire i s x t b h a c → False) :=
  fun h => h (.pmig h1 0) (fire (2 ^ 54 + 2 ^ 44 - 1) 0) _ _ _ h1 (2 ^ 54 + 2 ^ 44 - 1) 0 _ _ _ (.pmigSlice _ _ (by decide) (by decide)) ⟨⟨rfl,
  rfl, rfl, rfl⟩, ⟨_, _, rfl, rfl, rfl, trivial, rfl, rfl⟩⟩

theorem witness_Faults_pmigMisaligned : ¬
    (∀ (i : Instr) (s : State) (x : Inst) (t : Tile) (b : Block) (h : Head) (a c : W64) (code : Byte) (info : W64) (page : Option (BitVec 192)),
    Raises s x t b a c i code info page → MayFire i s x t b h a c → False) :=
  fun h => h (.pmig h1 0) (fire 8 0) _ _ _ h1 8 0 _ _ _ (.pmigMisaligned _ _ (by decide) (by decide)) ⟨⟨rfl, rfl, rfl, rfl⟩, ⟨_, _, rfl, rfl, rfl,
  trivial, rfl, rfl⟩⟩

theorem witness_Faults_pmigIllegal : ¬
    (∀ (i : Instr) (s : State) (x : Inst) (t : Tile) (b : Block) (h : Head) (a c : W64) (code : Byte) (info : W64) (page : Option (BitVec 192)),
    Raises s x t b a c i code info page → MayFire i s x t b h a c → False) :=
  fun h => h (.pmig h1 0) (fire 0 3) _ _ _ h1 0 3 _ _ _ (.pmigIllegal _ _ (by decide) (by decide) (by decide)) ⟨⟨rfl, rfl, rfl, rfl⟩, ⟨_, _, rfl,
  rfl, rfl, trivial, rfl, rfl⟩⟩

theorem witness_Faults_pmigRemote : ¬
    (∀ (i : Instr) (s : State) (x : Inst) (t : Tile) (b : Block) (h : Head) (a c : W64) (code : Byte) (info : W64) (page : Option (BitVec 192)),
    Raises s x t b a c i code info page → MayFire i s x t b h a c → False) :=
  fun h => h (.pmig h1 0) (fire 0 0x0004000000000000) _ _ _ h1 0 0x0004000000000000 _ _ _ (.pmigRemote _ _ (by decide) (by decide) (by decide)
  (by decide) (by decide)) ⟨⟨rfl, rfl, rfl, rfl⟩, ⟨_, _, rfl, rfl, rfl, trivial, rfl, rfl⟩⟩

/-! #### Loads -/

theorem witness_Loads_slice : ¬
    (∀ (i : Instr) (s : State) (x : Inst) (t : Tile) (b : Block) (h : Head) (a c : W64) (ls : BitVec 5) (sz : Size) (signed full : Bool) (off :
    BitVec 24) (l : Loc) (m : SeqMeta), loadOf i = some (ls, sz, signed, full, off) → i.shape = Shape.seq h m → MayFire i s x t b h a c →
    b.targetsOpen h → (∀ p ∈ b.loads, p.1 ≠ ls) → s.reaches AccKind.read sz.bytes full true (accessVa a off) l → l.isRemote = false → s.badLoc
    s.focus.inst l sz.bytes = false ∨ ownBytes t.sbuf b.effs ls.toNat l sz.bytes = true → (let f : Fire := ⟨s, x, t, b, s.focus.slot, h, m, a, 0⟩;
    f.behindLoad = false ∧ f.lowerKnown l sz.bytes = true ∧ f.held l sz.bytes = false) → s.midCopy s.focus.inst l = false → (full = true →
    s.fullFor s.focus.inst t l = true) → False) :=
  fun h => h (.lds h0 0 .b1 0xFFFFFF) (fireIn 0x40000000000008 0 fun t => { t with slice := ⟨[(7, 0x80)]⟩ }) _ _ _ h0 0x40000000000008 0 0 .b1 true
  false 0xFFFFFF (.slice 0 7) _ rfl rfl ⟨⟨rfl, rfl, rfl, rfl⟩, ⟨_, _, rfl, rfl, rfl, trivial, rfl, rfl⟩⟩ ⟨by decide, by simp [h0, h1]; try decide⟩
  (by simp [block, Block.fetched]) rfl rfl (Or.inl rfl) ⟨rfl, rfl, rfl⟩ rfl (by decide)

theorem witness_Loads_full : ¬
    (∀ (i : Instr) (s : State) (x : Inst) (t : Tile) (b : Block) (h : Head) (a c : W64) (ls : BitVec 5) (sz : Size) (signed full : Bool) (off :
    BitVec 24) (l : Loc) (m : SeqMeta), loadOf i = some (ls, sz, signed, full, off) → i.shape = Shape.seq h m → MayFire i s x t b h a c →
    b.targetsOpen h → (∀ p ∈ b.loads, p.1 ≠ ls) → s.reaches AccKind.read sz.bytes full true (accessVa a off) l → l.isRemote = false → s.badLoc
    s.focus.inst l sz.bytes = false ∨ ownBytes t.sbuf b.effs ls.toNat l sz.bytes = true → (let f : Fire := ⟨s, x, t, b, s.focus.slot, h, m, a, 0⟩;
    f.behindLoad = false ∧ f.lowerKnown l sz.bytes = true ∧ f.held l sz.bytes = false) → s.midCopy s.focus.inst l = false → (full = true →
    s.fullFor s.focus.inst t l = true) → False) :=
  fun h => h (.ldf h0 0 .b8 0) (fireIn 0x40000000127FF8 0 fun t => { t with full := [18943] }) _ _ _ h0 0x40000000127FF8 0 0 .b8 false true 0
  (.slice 0 0x127FF8) _ rfl rfl ⟨⟨rfl, rfl, rfl, rfl⟩, ⟨_, _, rfl, rfl, rfl, trivial, rfl, rfl⟩⟩ ⟨by decide, by simp [h0, h1]; try decide⟩
  (by simp [block, Block.fetched]) rfl rfl (Or.inl rfl) ⟨rfl, rfl, rfl⟩ rfl (fun _ => rfl)

theorem witness_Loads_hbm : ¬
    (∀ (i : Instr) (s : State) (x : Inst) (t : Tile) (b : Block) (h : Head) (a c : W64) (ls : BitVec 5) (sz : Size) (signed full : Bool) (off :
    BitVec 24) (l : Loc) (m : SeqMeta), loadOf i = some (ls, sz, signed, full, off) → i.shape = Shape.seq h m → MayFire i s x t b h a c →
    b.targetsOpen h → (∀ p ∈ b.loads, p.1 ≠ ls) → s.reaches AccKind.read sz.bytes full true (accessVa a off) l → l.isRemote = false → s.badLoc
    s.focus.inst l sz.bytes = false ∨ ownBytes t.sbuf b.effs ls.toNat l sz.bytes = true → (let f : Fire := ⟨s, x, t, b, s.focus.slot, h, m, a, 0⟩;
    f.behindLoad = false ∧ f.lowerKnown l sz.bytes = true ∧ f.held l sz.bytes = false) → s.midCopy s.focus.inst l = false → (full = true →
    s.fullFor s.focus.inst t l = true) → False) :=
  fun h => h (.ld h0 31 .b4 0) (fire 0x10004 0) _ _ _ h0 0x10004 0 31 .b4 false false 0 (.hbm 0xA00004) _ rfl rfl ⟨⟨rfl, rfl, rfl, rfl⟩, ⟨_, _,
  rfl, rfl, rfl, trivial, rfl, rfl⟩⟩ ⟨by decide, by simp [h0, h1]; try decide⟩ (by simp [block, Block.fetched]) rfl rfl (Or.inl rfl) ⟨rfl, rfl,
  rfl⟩ rfl (by decide)

theorem witness_Loads_forwarded : ¬
    (∀ (effs : List Fired) (ls : ℕ) (l : Loc) (bs : List Byte), ∀ k < bs.length, (List.map (fun x => x.ls) effs).Nodup → ∀ (e : Fired) (v : Byte),
    e ∈ effs → e.ls.toNat < ls → Eff.byteFor l k e.eff = some v → (∀ f ∈ effs, f.ls.toNat < ls → e.ls.toNat < f.ls.toNat → Eff.byteFor l k f.eff =
    none) → False) :=
  fun h => h [⟨0, 0, .store (.slice 0 0) 8 0x1122, 0, 0⟩] 1 (.slice 0 1) [0] 0 (by decide) (by decide) ⟨0, 0, .store (.slice 0 0) 8 0x1122, 0, 0⟩
  0x11 (by simp) (by decide) rfl (by simp)

theorem witness_Loads_beside : ¬
    (∀ (effs : List Fired) (ls : ℕ) (l : Loc) (bs : List Byte), ∀ k < bs.length, (List.map (fun x => x.ls) effs).Nodup → (∀ f ∈ effs, f.ls.toNat <
    ls → Eff.byteFor l k f.eff = none) → False) :=
  fun h => h [⟨0, 0, .store (.slice 0 0) 8 0x1122, 0, 0⟩] 1 (.slice 0 8) [7] 0 (by decide) (by decide) (by simp; decide)

/-! #### AddressChecks -/

theorem witness_AddressChecks_canonical : ¬
    (∀ (s : State) (i : ℕ) (x : Inst) (k : AccKind) (n : ℕ) (sliceOnly hostOk : Bool) (va : W64), s.insts[i]? = some x → 0 < n → 2 ^ 55 ≤
    BitVec.toNat va → False) :=
  fun h => h (fire 0 0) 0 _ .read 8 false true 0x80000000000000 rfl (by decide) (by decide)

theorem witness_AddressChecks_aligned : ¬
    (∀ (s : State) (i : ℕ) (x : Inst) (k : AccKind) (n : ℕ) (sliceOnly hostOk : Bool) (va : W64), s.insts[i]? = some x → 0 < n → BitVec.toNat va <
    2 ^ 55 → BitVec.toNat va % n ≠ 0 → False) :=
  fun h => h (fire 0 0) 0 _ .read 8 false true 0x7FFFFFFFFFFFFF rfl (by decide) (by decide) (by decide)

theorem witness_AddressChecks_sliceOnly : ¬
    (∀ (s : State) (i : ℕ) (x : Inst) (k : AccKind) (n : ℕ) (sliceOnly hostOk : Bool) (va : W64), s.insts[i]? = some x → 0 < n → BitVec.toNat va <
    2 ^ 54 → BitVec.toNat va % n = 0 → sliceOnly = true → False) :=
  fun h => h (fire 0 0) 0 _ .read 8 true true 0x3FFFFFFFFFFFF8 rfl (by decide) (by decide) (by decide) rfl

theorem witness_AddressChecks_host : ¬
    (∀ (s : State) (i : ℕ) (x : Inst) (k : AccKind) (n : ℕ) (sliceOnly hostOk : Bool) (va : W64), s.insts[i]? = some x → 0 < n → BitVec.toNat va <
    2 ^ 54 → BitVec.toNat va % n = 0 → sliceOnly = false → ∀ (c : Context), s.ctx? x.tag = some c → ∀ (h : ℕ), s.translate c k va = Acc.loc
    (Loc.host h) → k = AccKind.atomic → hostOk = false → False) :=
  fun h => h (fire 0 0) 0 _ .atomic 8 false false 0x20000 rfl (by decide) (by decide) (by decide) rfl ctx rfl 0 rfl rfl rfl

theorem witness_AddressChecks_translate : ¬
    (∀ (s : State) (i : ℕ) (x : Inst) (k : AccKind) (n : ℕ) (sliceOnly hostOk : Bool) (va : W64), s.insts[i]? = some x → 0 < n → BitVec.toNat va <
    2 ^ 54 → BitVec.toNat va % n = 0 → sliceOnly = false → ∀ (c : Context), s.ctx? x.tag = some c → (∀ (h : ℕ), s.translate c k va ≠ Acc.loc
    (Loc.host h)) ∨ k ≠ AccKind.atomic ∨ hostOk = true → False) :=
  fun h => h (fire 0 0) 0 _ .atomic 8 false true 0x2FFF8 rfl (by decide) (by decide) (by decide) rfl ctx rfl (Or.inr (Or.inr rfl))

theorem witness_AddressChecks_range : ¬
    (∀ (s : State) (i : ℕ) (x : Inst) (k : AccKind) (n : ℕ) (sliceOnly hostOk : Bool) (va : W64), s.insts[i]? = some x → 0 < n → ∀ (t o : ℕ),
    BitVec.toNat va = 2 ^ 54 + t * 2 ^ 21 + o → o < 2 ^ 21 → t < 2 ^ 33 → BitVec.toNat va % n = 0 → x.tiles.length ≤ t ∨ 1212416 ≤ o → False) :=
  fun h => h (fire 0 0) 0 _ .read 8 false true 0x40000000128000 rfl (by decide) 0 0x128000 (by decide) (by decide) (by decide) (by decide) (Or.inr
  (by decide))

theorem witness_AddressChecks_tile : ¬
    (∀ (s : State) (i : ℕ) (x : Inst) (k : AccKind) (n : ℕ) (sliceOnly hostOk : Bool) (va : W64), s.insts[i]? = some x → 0 < n → ∀ (t o : ℕ),
    BitVec.toNat va = 2 ^ 54 + t * 2 ^ 21 + o → o < 2 ^ 21 → t < 2 ^ 33 → BitVec.toNat va % n = 0 → x.tiles.length ≤ t ∨ 1212416 ≤ o → False) :=
  fun h => h (fire 0 0) 0 _ .read 8 false true 0x40000000200000 rfl (by decide) 1 0 (by decide) (by decide) (by decide) (by decide) (Or.inl
  (by decide))

theorem witness_AddressChecks_owner : ¬
    (∀ (s : State) (i : ℕ) (x : Inst) (k : AccKind) (n : ℕ) (sliceOnly hostOk : Bool) (va : W64), s.insts[i]? = some x → 0 < n → ∀ (t o : ℕ),
    BitVec.toNat va = 2 ^ 54 + t * 2 ^ 21 + o → o < 2 ^ 21 → t < 2 ^ 33 → BitVec.toNat va % n = 0 → ∀ (y : Tile), x.tiles[t]? = some y → o <
    1212416 → (s.physAt y.phys).banks[bankOf y.coarse o]?.getD 0 ≠ x.tag → False) :=
  fun h => h (let s := fire 0 0; { s with phys := [] }) 0 _ .read 8 false true 0x40000000127FF8 rfl (by decide) 0 0x127FF8 (by decide) (by decide)
  (by decide) (by decide) _ rfl (by decide) (by decide)

theorem witness_AddressChecks_slice : ¬
    (∀ (s : State) (i : ℕ) (x : Inst) (k : AccKind) (n : ℕ) (sliceOnly hostOk : Bool) (va : W64), s.insts[i]? = some x → 0 < n → ∀ (t o : ℕ),
    BitVec.toNat va = 2 ^ 54 + t * 2 ^ 21 + o → o < 2 ^ 21 → t < 2 ^ 33 → BitVec.toNat va % n = 0 → ∀ (y : Tile), x.tiles[t]? = some y → o <
    1212416 → (s.physAt y.phys).banks[bankOf y.coarse o]?.getD 0 = x.tag → False) :=
  fun h => h (fire 0 0) 0 _ .read 8 false true 0x40000000127FF8 rfl (by decide) 0 0x127FF8 (by decide) (by decide) (by decide) (by decide) _ rfl
  (by decide) (by decide)

/-! #### FaultEntry -/

theorem witness_FaultEntry_taken : ¬
    (∀ (s : State) (x : Inst) (t : Tile) (f : FaultArg), s.insts[s.focus.inst]? = some x → x.tiles[s.focus.tile]? = some t → takenCode f.code =
    true → t.performing = false → t.place = Place.running → t.seq.finished = false → t.sr.hvec ≠ 0 → BitVec.getLsbD t.sr.cause 31 = false → False)
    :=
  fun h => h (one fun t => { t with sr := { t.sr with hvec := 0x40000000001000 } }) _ _ ⟨0x15, .x, 1, 0, 0x40000000001000, none⟩ rfl rfl rfl rfl
  rfl rfl (by decide) rfl

theorem witness_FaultEntry_takenWithRecord : ¬
    (∀ (s : State) (x : Inst) (t : Tile) (f : FaultArg), s.insts[s.focus.inst]? = some x → x.tiles[s.focus.tile]? = some t → takenCode f.code =
    true → t.performing = false → t.place = Place.running → t.seq.finished = false → t.sr.hvec ≠ 0 → BitVec.getLsbD t.sr.cause 31 = false → False)
    :=
  fun h => h (one fun t => { t with sr := { t.sr with hvec := 0x40000000001000 } }) _ _ ⟨8, .x, 1, 0, 0x40000000001000, some 5⟩ rfl rfl rfl rfl rfl
  rfl (by decide) rfl

theorem witness_FaultEntry_escalate : ¬
    (∀ (s : State) (x : Inst) (t : Tile) (f : FaultArg), s.insts[s.focus.inst]? = some x → x.tiles[s.focus.tile]? = some t → takenCode f.code =
    true → t.performing = false → t.seq.finished = false → x.st ≠ InstState.retired → ∀ (r : EscReason), t.escalates f r = true → False) :=
  fun h => h (one id) _ _ ⟨0x15, .x, 1, 0, 0x40000000001000, none⟩ rfl rfl rfl rfl rfl (by decide) .noHandler rfl

theorem witness_FaultEntry_noHandler : ¬
    (∀ (s : State) (x : Inst) (t : Tile) (f : FaultArg), s.insts[s.focus.inst]? = some x → x.tiles[s.focus.tile]? = some t → takenCode f.code =
    true → t.performing = false → t.seq.finished = false → x.st ≠ InstState.retired → t.place = Place.running → t.sr.hvec = 0 ∨ BitVec.getLsbD
    t.sr.cause 31 = true → False) :=
  fun h => h (one id) _ _ ⟨0x15, .x, 1, 0, 0x40000000001000, none⟩ rfl rfl rfl rfl rfl (by decide) rfl (Or.inl rfl)

theorem witness_FaultEntry_inHandler : ¬
    (∀ (s : State) (x : Inst) (t : Tile) (f : FaultArg), s.insts[s.focus.inst]? = some x → x.tiles[s.focus.tile]? = some t → takenCode f.code =
    true → t.performing = false → t.seq.finished = false → x.st ≠ InstState.retired → t.place = Place.running → t.sr.hvec = 0 ∨ BitVec.getLsbD
    t.sr.cause 31 = true → False) :=
  fun h => h (one fun t => { t with sr := { t.sr with hvec := 16, cause := 0x80000000 } }) _ _ ⟨0x15, .x, 1, 0, 0x40000000001000, none⟩ rfl rfl rfl
  rfl rfl (by decide) rfl (Or.inr rfl)

theorem witness_FaultEntry_delivered : ¬
    (∀ (s : State) (x : Inst) (t : Tile) (f : PFault) (rest : Pend), s.insts[s.focus.inst]? = some x → x.tiles[s.focus.tile]? = some t → t.place =
    Place.running → t.seq.finished = false → BitVec.getLsbD t.sr.cause 31 = false → t.sr.hvec ≠ 0 → (∀ (b : Block), t.seq.block = some b →
    b.committing = false) → t.seq.pend.pick = some (f, rest) → False) :=
  fun h => h (one fun t =>
  { t with sr := { t.sr with hvec := 16 }, seq := { t.seq with pend := { Pend.empty with est := some ⟨0x0B, 4, 8, none⟩ } } }) _ _ ⟨0x0B, 4, 8,
  none⟩ _ rfl rfl rfl rfl rfl (by decide) (by simp [tile, Tile.blank, Seq.start]) rfl

theorem witness_FaultEntry_deliveredWithRecord : ¬
    (∀ (s : State) (x : Inst) (t : Tile) (f : PFault) (rest : Pend), s.insts[s.focus.inst]? = some x → x.tiles[s.focus.tile]? = some t → t.place =
    Place.running → t.seq.finished = false → BitVec.getLsbD t.sr.cause 31 = false → t.sr.hvec ≠ 0 → (∀ (b : Block), t.seq.block = some b →
    b.committing = false) → t.seq.pend.pick = some (f, rest) → False) :=
  fun h => h (one fun t =>
  { t with sr := { t.sr with hvec := 16 }, seq := { t.seq with pend := { Pend.empty with eng0 := [⟨8, 0, 8, some 5⟩] } } }) _ _ ⟨8, 0, 8, some 5⟩ _
  rfl rfl rfl rfl rfl (by decide) (by simp [tile, Tile.blank, Seq.start]) rfl

theorem witness_FaultEntry_order : ¬
    (∀ (p : Pend), False) :=
  fun h => h { Pend.empty with est := some ⟨0x0B, 4, 8, none⟩, streams := [(3, ⟨1, 2, 3, none⟩), (2, ⟨1, 2, 4, none⟩)] }

theorem witness_FaultEntry_record : ¬
    (∀ (s : State) (x : Inst) (t : Tile) (f : FaultArg) (p : BitVec 192) (c : Context) (h : ℕ), s.insts[s.focus.inst]? = some x →
    x.tiles[s.focus.tile]? = some t → takenCode f.code = true → t.performing = false → t.place = Place.running → t.seq.finished = false → t.sr.hvec
    ≠ 0 → BitVec.getLsbD t.sr.cause 31 = false → f.page = some p → s.focus.tile < 65536 → s.ctx? x.tag = some c → c.posts = [] → c.st ≠
    CtxState.evicted → (∀ (k : Fin 32), (∀ q ∈ c.sessions[k].stores, q.inst ≠ noInst) ∧ ∀ a ∈ c.sessions[k].got, a.1.inst ≠ noInst) → (∀ k < 4,
    s.translate c AccKind.write (BitVec.ofNat 64 (589824 + 32 * s.focus.tile + 8 * k)) = Acc.loc (Loc.hbm (h + 8 * k)) ∧ s.reservedElsewhere noInst
    0 (Loc.hbm (h + 8 * k)) 8 = false) → s.canonical = true → False) :=
  fun h => h (pkgOf { ctx with tlb := ⟨0x90000, 0x10000, 0x0E00000000010006, 3⟩ :: ctx.tlb } (inst
  [{ tile 0 with sr := { (tile 0).sr with hvec := 16 } }])) _ _ ⟨8, .x, 1, 0, 0x40000000001000, some 5⟩ 5 _ 0xA10000 rfl rfl rfl rfl rfl rfl
  (by decide) rfl rfl (by decide) rfl rfl (by decide) (by decide +kernel) (by intro k hk; interval_cases k <;> exact ⟨rfl, rfl⟩)
  (by decide +kernel)

/-! #### BlocksFetchAndIssue -/

theorem witness_Blocks_fetch : ¬
    (∀ (s : State) (x : Inst) (t : Tile), s.insts[s.focus.inst]? = some x → x.tiles[s.focus.tile]? = some t → ∀ (lo hi : W64) (ws : List W64) (is :
    List Instr), t.mayFetch = true → s.recordDue x.tag s.focus.inst s.focus.tile = false → BitVec.toNat t.seq.next < 2 ^ 55 → BitVec.toNat
    t.seq.next % 16 = 0 → s.fetchWords s.focus.inst s.focus.tile t 2 t.seq.next = FetchRead.words [lo, hi] → BitVec.toNat lo % 16 = 10 →
    BitVec.toNat lo / 2 ^ 9 % 2 ^ 7 = 0 → BitVec.toNat hi / 2 ^ 48 = 0 →
    let s1 := s.countFetch s.focus.inst s.focus.tile t x.tag 2 t.seq.next;
    let n := 8 * (BitVec.toNat lo / 16 % 16 + 1);
    s1.fetchWords s.focus.inst s.focus.tile t n (t.seq.next + 16) = FetchRead.words ws → List.map (fun w => (decodeSeq w).toOption) ws = List.map
    some is → firstBadWord t.sr.feat (List.map some is) = none → masksFit (hi ++ lo) is = true → False) :=
  fun h => h (one fun t => { t with slice := code }) _ _ rfl rfl 0xA 0 (List.replicate 8 0x0400000000000000) (List.replicate 8 (.mov h1)) rfl rfl
  (by decide) (by decide) rfl (by decide) (by decide) (by decide) rfl rfl rfl rfl

theorem witness_Blocks_fenced : ¬
    (∀ (s : State) (x : Inst) (t : Tile), s.insts[s.focus.inst]? = some x → x.tiles[s.focus.tile]? = some t → ∀ (k : ℕ) (va : W64), t.seq.fence =
    some Scope.package ∨ t.seq.fence = some Scope.system → False) :=
  fun h => h (one fun t => { t with kept := [(.hbm 0, 0)], seq := { t.seq with fence := some .package } }) _ _ rfl rfl 2 0x40000000001000 (Or.inl
  rfl)

theorem witness_Blocks_kept : ¬
    (∀ (s : State) (x : Inst) (t : Tile), s.insts[s.focus.inst]? = some x → x.tiles[s.focus.tile]? = some t → ∀ (va : W64) (ws : List W64), (∀ p ∈
    t.kept, Loc.ownSlice s.focus.tile p.1 = false) → ∀ p ∈ s.keepBlock s.focus.inst s.focus.tile t va ws, False) :=
  fun h => h (one fun t => { t with kept := [(.hbm 0, 0)] }) _ _ rfl rfl 0x40000000001000 [0] (by decide) (.hbm 0, 0) (by decide)

theorem witness_Blocks_issue : ¬
    (∀ (s : State) (x : Inst) (t : Tile), s.insts[s.focus.inst]? = some x → x.tiles[s.focus.tile]? = some t → ∀ (b : Block), t.seq.block = some b →
    b.issued = false → t.place = Place.running → t.deliverable = false → b.serialise = false → False) :=
  fun h => h (com (fun b => { b with issued := false }) id) _ _ rfl rfl _ rfl rfl rfl rfl rfl

theorem witness_Blocks_serialise : ¬
    (∀ (s : State) (x : Inst) (t : Tile), s.insts[s.focus.inst]? = some x → x.tiles[s.focus.tile]? = some t → ∀ (b : Block), t.seq.block = some b →
    b.issued = false → t.place = Place.running → t.deliverable = false → b.serialise = true → s.workRetired s.focus.inst s.focus.tile t = true →
    False) :=
  fun h => h (com (fun b => { b with issued := false, hdr := 0x10A }) id) _ _ rfl rfl _ rfl rfl rfl rfl rfl rfl

theorem witness_Blocks_malformed : ¬
    (∀ (s : State) (x : Inst) (t : Tile), s.insts[s.focus.inst]? = some x → x.tiles[s.focus.tile]? = some t → ∀ (b : Block), t.seq.block = some b →
    b.issued = true → t.place = Place.running → b.settledAll = false → s.nothingFires s.focus.inst b = true → False) :=
  fun h => h (com id id) _ _ rfl rfl _ rfl rfl rfl rfl rfl

/-! #### BlockCommits -/

theorem witness_Commits_writes : ¬
    (∀ (s : State) (x : Inst) (t : Tile) (b : Block), MayCommit s x t b → b.effs = [] → b.sbar = 0 → b.writesOnce → ∀ (u : Tile), WritesRegisters b
    t u → ∀ (va : W64), b.branch = some (Branch.to va) → b.trap = none → False) :=
  fun h => h (pkg (inst [tW])) _ _ _ ⟨⟨rfl, rfl, rfl, rfl⟩, rfl, rfl, rfl, rfl, ⟨rfl, rfl⟩, rfl⟩ rfl rfl (by unfold Block.writesOnce; decide)
  { tW with g := tW.g.set 9 7 } ⟨rfl, by decide⟩ _ rfl rfl

theorem witness_Commits_yield : ¬
    (∀ (s : State) (x : Inst) (t : Tile) (b : Block), MayCommit s x t b → b.effs = [] → b.sbar = 0 → b.writesOnce → ∀ (u : Tile), WritesRegisters b
    t u → ∀ (va : W64), b.branch = some (Branch.yield va) → b.trap = none → False) :=
  fun h => h (com (fun b => { b with branch := some (.yield 16) }) id) _ _ _ ⟨⟨rfl, rfl, rfl, rfl⟩, rfl, rfl, rfl, rfl, ⟨rfl, rfl⟩, rfl⟩ rfl rfl
  (by unfold Block.writesOnce; decide) _ ⟨rfl, fun _ => rfl⟩ _ rfl rfl

theorem witness_Commits_halt : ¬
    (∀ (s : State) (x : Inst) (t : Tile) (b : Block), MayCommit s x t b → b.effs = [] → b.sbar = 0 → b.writesOnce → ∀ (u : Tile), WritesRegisters b
    t u → b.branch = some Branch.halt → b.trap = none → BitVec.getLsbD t.sr.cause 31 = false → False) :=
  fun h => h (com (fun b => { b with branch := some .halt }) id) _ _ _ ⟨⟨rfl, rfl, rfl, rfl⟩, rfl, rfl, rfl, rfl, ⟨rfl, rfl⟩, rfl⟩ rfl rfl
  (by unfold Block.writesOnce; decide) _ ⟨rfl, fun _ => rfl⟩ rfl rfl rfl

theorem witness_Commits_hret : ¬
    (∀ (s : State) (x : Inst) (t : Tile) (b : Block), MayCommit s x t b → b.effs = [] → b.sbar = 0 → b.writesOnce → ∀ (u : Tile), WritesRegisters b
    t u → b.branch = some Branch.hret → b.trap = none → t.seq.service = none → t.seq.outer = none → False) :=
  fun h => h (com (fun b => { b with branch := some .hret }) (fun t =>
  { t with sr := { t.sr with cause := 0x80040015, epc := 0x40000000001100 } })) _ _ _ ⟨⟨rfl, rfl, rfl, rfl⟩, rfl, rfl, rfl, rfl, ⟨rfl, rfl⟩, rfl⟩
  rfl rfl (by unfold Block.writesOnce; decide) _ ⟨rfl, fun _ => rfl⟩ rfl rfl rfl rfl

theorem witness_Commits_trap : ¬
    (∀ (s : State) (x : Inst) (t : Tile) (b : Block), MayCommit s x t b → b.effs = [] → b.sbar = 0 → b.writesOnce → ∀ (u : Tile), WritesRegisters b
    t u → ∀ (va : W64) (code : BitVec 16), b.branch = some (Branch.to va) → b.trap = some code → False) :=
  fun h => h (com (fun b => { b with branch := some (.to 16), trap := some 0xFFFF }) (fun t =>
  { t with sr := { t.sr with hvec := 0x40000000001100 } })) _ _ _ ⟨⟨rfl, rfl, rfl, rfl⟩, rfl, rfl, rfl, rfl, ⟨rfl, rfl⟩, rfl⟩ rfl rfl
  (by unfold Block.writesOnce; decide) _ ⟨rfl, fun _ => rfl⟩ _ _ rfl rfl

theorem witness_Commits_effect : ¬
    (∀ (s : State) (x : Inst) (t : Tile) (b : Block) (es : List Fired) (va : W64), MayCommit s x t b → b.ordered es → b.sbar = 0 → b.writesOnce →
    b.branch = some (Branch.to va) → b.trap = none → t.sbuf = [] → (∃ u, ReleasedAll t es u) → ∀ (u w : Tile), ReleasedAll t es u → WritesRegisters
    b u w → False) :=
  fun h => h (com (fun b => { b with branch := some (.to 16), hdr := 0x10000, settled := [(0, false)], effs := [⟨0, 0, .sema 5 3 1, 0, 0⟩] }) (fun
  t => { t with sem := t.sem.set 3 1 })) _ _ _ [_] 16 ⟨⟨rfl, rfl, rfl, rfl⟩, rfl, rfl, rfl, rfl, ⟨rfl, rfl⟩, rfl⟩ ⟨List.Perm.refl _, by simp⟩ rfl
  (by unfold Block.writesOnce; decide) rfl rfl rfl ⟨_, .cons _ _ _ _ _ (.sema _ _ _) (.nil _)⟩ _ _ (.cons _ _ _ _ _ (.sema _ _ _) (.nil _)) ⟨rfl,
  fun _ => rfl⟩

theorem witness_Commits_chr : ¬
    (∀ (s : State) (x : Inst) (t : Tile) (b : Block) (es : List Fired) (va : W64), MayCommit s x t b → b.ordered es → b.sbar = 0 → b.writesOnce →
    b.branch = some (Branch.to va) → b.trap = none → t.sbuf = [] → (∃ u, ReleasedAll t es u) → ∀ (u w : Tile), ReleasedAll t es u → WritesRegisters
    b u w → False) :=
  fun h => h (com (fun b => { b with branch := some (.to 16), hdr := 0x10000, settled := [(0, false)], effs := [⟨0, 0, .chr 15, 0, 0⟩] }) (fun t =>
  { t with chan := Vector.replicate 16 { producer := 2, consumer := 1, link := none, entries := [⟨1, 0, true⟩], surplus := false } })) _ _ _ [_] 16
  ⟨⟨rfl, rfl, rfl, rfl⟩, rfl, rfl, rfl, rfl, ⟨rfl, rfl⟩, rfl⟩ ⟨List.Perm.refl _, by simp⟩ rfl (by unfold Block.writesOnce; decide) rfl rfl rfl ⟨_,
  .cons _ _ _ _ _ (.chr _) (.nil _)⟩ _ _ (.cons _ _ _ _ _ (.chr _) (.nil _)) ⟨rfl, fun _ => rfl⟩

theorem witness_Commits_mxq : ¬
    (∀ (s : State) (x : Inst) (t : Tile) (b : Block) (es : List Fired) (va : W64), MayCommit s x t b → b.ordered es → b.sbar = 0 → b.writesOnce →
    b.branch = some (Branch.to va) → b.trap = none → t.sbuf = [] → (∃ u, ReleasedAll t es u) → ∀ (u w : Tile), ReleasedAll t es u → WritesRegisters
    b u w → False) :=
  fun h => h (com (fun b =>
  { b with branch := some (.to 16), hdr := 0x10000, settled := [(0, false)], effs := [⟨0, 0, .mxq 0x4000000000000000, 0, 0⟩] }) id) _ _ _ [_] 16
  ⟨⟨rfl, rfl, rfl, rfl⟩, rfl, rfl, rfl, rfl, ⟨rfl, rfl⟩, rfl⟩ ⟨List.Perm.refl _, by simp⟩ rfl (by unfold Block.writesOnce; decide) rfl rfl rfl ⟨_,
  .cons _ _ _ _ _ (.mxq _) (.nil _)⟩ _ _ (.cons _ _ _ _ _ (.mxq _) (.nil _)) ⟨rfl, fun _ => rfl⟩

theorem witness_Commits_order : ¬
    (∀ (s : State) (x : Inst) (t : Tile) (b : Block) (es : List Fired) (va : W64), MayCommit s x t b → b.ordered es → b.sbar = 0 → b.writesOnce →
    b.branch = some (Branch.to va) → b.trap = none → t.sbuf = [] → (∃ u, ReleasedAll t es u) → ∀ (u w : Tile), ReleasedAll t es u → WritesRegisters
    b u w → False) :=
  fun h => h (com (fun b => { b with branch := some (.to 16), hdr := 0x30000, settled := [(0, false), (1, false)], effs := [⟨1, 0, .tokp .pst, 0,
  0⟩, ⟨0, 1, .mxq 0x4000000000000000, 0, 0⟩] }) id) _ _ _ [⟨0, 1, .mxq 0x4000000000000000, 0, 0⟩, ⟨1, 0, .tokp .pst, 0, 0⟩] 16 ⟨⟨rfl, rfl, rfl,
  rfl⟩, rfl, rfl, rfl, rfl, ⟨rfl, rfl⟩, rfl⟩ ⟨List.Perm.swap _ _ _, by simp⟩ rfl (by unfold Block.writesOnce; decide) rfl rfl rfl ⟨_, .cons _ _ _ _
  _ (.mxq _) (.cons _ _ _ _ _ (.tokp _) (.nil _))⟩ _ _ (.cons _ _ _ _ _ (.mxq _) (.cons _ _ _ _ _ (.tokp _) (.nil _))) ⟨rfl, fun _ => rfl⟩

theorem witness_Commits_store : ¬
    (∀ (s : State) (x : Inst) (t : Tile) (b : Block) (es : List Fired) (va : W64) (ps : List PStore), MayCommit s x t b → b.ordered es → b.sbar = 0
    → b.writesOnce → b.branch = some (Branch.to va) → b.trap = none → (∀ q ∈ t.sbuf, q.loc.isRemote = false) → List.Forall₂ storesAs es ps → ∀ (w :
    Tile), WritesRegisters b { t with sbuf := t.sbuf ++ ps } w → False) :=
  fun h => h (com (fun b => { b with branch := some (.to 16), hdr := 0x10000, settled := [(0, false)], effs := [⟨0, 0, .store (.slice 1 8) 8 77,
  0x40000000200008, 0⟩] }) id) _ _ _ [_] 16 [_] ⟨⟨rfl, rfl, rfl, rfl⟩, rfl, rfl, rfl, rfl, ⟨rfl, rfl⟩, rfl⟩ ⟨List.Perm.refl _, by simp⟩ rfl
  (by unfold Block.writesOnce; decide) rfl rfl (by decide) (.cons (Or.inl ⟨_, _, _, rfl, rfl, rfl⟩) .nil) _ ⟨rfl, fun _ => rfl⟩

theorem witness_Commits_storeFull : ¬
    (∀ (s : State) (x : Inst) (t : Tile) (b : Block) (es : List Fired) (va : W64) (ps : List PStore), MayCommit s x t b → b.ordered es → b.sbar = 0
    → b.writesOnce → b.branch = some (Branch.to va) → b.trap = none → (∀ q ∈ t.sbuf, q.loc.isRemote = false) → List.Forall₂ storesAs es ps → ∀ (w :
    Tile), WritesRegisters b { t with sbuf := t.sbuf ++ ps } w → False) :=
  fun h => h (com (fun b => { b with branch := some (.to 16), hdr := 0x10000, settled := [(0, false)], effs := [⟨0, 0, .storeFull (.slice 1 8) 8
  77, 0x40000000200008, 0⟩] }) id) _ _ _ [_] 16 [_] ⟨⟨rfl, rfl, rfl, rfl⟩, rfl, rfl, rfl, rfl, ⟨rfl, rfl⟩, rfl⟩ ⟨List.Perm.refl _, by simp⟩ rfl
  (by unfold Block.writesOnce; decide) rfl rfl (by decide) (.cons (Or.inr (Or.inl ⟨_, _, _, rfl, rfl, rfl⟩)) .nil) _ ⟨rfl, fun _ => rfl⟩

theorem witness_Commits_empty : ¬
    (∀ (s : State) (x : Inst) (t : Tile) (b : Block) (es : List Fired) (va : W64) (ps : List PStore), MayCommit s x t b → b.ordered es → b.sbar = 0
    → b.writesOnce → b.branch = some (Branch.to va) → b.trap = none → (∀ q ∈ t.sbuf, q.loc.isRemote = false) → List.Forall₂ storesAs es ps → ∀ (w :
    Tile), WritesRegisters b { t with sbuf := t.sbuf ++ ps } w → False) :=
  fun h => h (com (fun b => { b with branch := some (.to 16), hdr := 0x10000, settled := [(0, false)], effs := [⟨0, 0, .empty (.slice 1 0),
  0x40000000200000, 0⟩] }) id) _ _ _ [_] 16 [_] ⟨⟨rfl, rfl, rfl, rfl⟩, rfl, rfl, rfl, rfl, ⟨rfl, rfl⟩, rfl⟩ ⟨List.Perm.refl _, by simp⟩ rfl
  (by unfold Block.writesOnce; decide) rfl rfl (by decide) (.cons (Or.inr (Or.inr ⟨_, rfl, rfl, rfl⟩)) .nil) _ ⟨rfl, fun _ => rfl⟩

/-! #### CommitAtomics -/

theorem witness_CommitAtomics : ¬
    (∀ (s : State) (x : Inst) (t : Tile) (b : Block) (f : Fired) (va : W64) (op : AtomicOp) (l : Loc) (n : ℕ) (v c : W64) (g : BitVec 5), MayCommit
    s x t b → b.effs = [f] → f.eff = Eff.atomic op l n v c g → n = 4 ∨ n = 8 → b.sbar = 0 → b.writesOnce → (∀ w ∈ b.writes, w.1 = g → w.2 = none) →
    b.branch = some (Branch.to va) → b.trap = none → t.sbuf = [] → s.homeHere s.focus.inst l → s.badLoc s.focus.inst l n = false →
    s.reservedElsewhere s.focus.inst s.focus.tile (l.align 8) 8 = false → s.canonical = true → False) :=
  fun h => h (com (fun b => { b with branch := some (.to 16), hdr := 0x20000000010000, settled := [(0, false)], writes := [(5, none)], effs := [⟨0,
  0, .atomic .cas (.slice 1 8) 8 77 0 5, 0x40000000200008, 0⟩] }) id) _ _ _ _ 16 .cas (.slice 1 8) 8 77 0 5 ⟨⟨rfl, rfl, rfl, rfl⟩, rfl, rfl, rfl,
  rfl, ⟨rfl, rfl⟩, rfl⟩ rfl rfl (Or.inr rfl) rfl (by unfold Block.writesOnce; decide) (by simp) rfl rfl rfl rfl rfl rfl rfl

theorem witness_CommitAtomics_hbm : ¬
    (∀ (s : State) (x : Inst) (t : Tile) (b : Block) (f : Fired) (va : W64) (op : AtomicOp) (l : Loc) (n : ℕ) (v c : W64) (g : BitVec 5), MayCommit
    s x t b → b.effs = [f] → f.eff = Eff.atomic op l n v c g → n = 4 ∨ n = 8 → b.sbar = 0 → b.writesOnce → (∀ w ∈ b.writes, w.1 = g → w.2 = none) →
    b.branch = some (Branch.to va) → b.trap = none → t.sbuf = [] → s.homeHere s.focus.inst l → s.badLoc s.focus.inst l n = false →
    s.reservedElsewhere s.focus.inst s.focus.tile (l.align 8) 8 = false → s.canonical = true → False) :=
  fun h => h (com (fun b => { b with branch := some (.to 16), hdr := 0x20000000010000, settled := [(0, false)], writes := [(5, none)], effs := [⟨0,
  0, .atomic .min (.hbm 0xA00004) 4 0xFFFFFFFF 0 5, 0x10004, 0⟩] }) id) _ _ _ _ 16 .min (.hbm 0xA00004) 4 0xFFFFFFFF 0 5 ⟨⟨rfl, rfl, rfl, rfl⟩,
  rfl, rfl, rfl, rfl, ⟨rfl, rfl⟩, rfl⟩ rfl rfl (Or.inl rfl) rfl (by unfold Block.writesOnce; decide) (by simp) rfl rfl rfl trivial rfl rfl rfl

/-! #### StoresPerformed -/

theorem witness_Stores_slice : ¬
    (∀ (s : State) (x : Inst) (t : Tile) (p : PStore) (rest : List PStore) (e : Instr), s.insts[s.focus.inst]? = some x → x.tiles[s.focus.tile]? =
    some t → t.sbuf = p :: rest → (∀ q ∈ rest, q.loc.isRemote = false) → s.homeHere s.focus.inst p.loc → s.reservedElsewhere s.focus.inst
    s.focus.tile p.loc p.extent = false → s.canonical = true → ((∃ k o, p.loc = Loc.slice k o ∧ e = Instr.sliceBankServe) ∨ (∃ o, p.loc = Loc.hbm o
    ∧ e = Instr.hbmAccessPerformed) ∨ ∃ o, p.loc = Loc.host o ∧ e = Instr.pcieCompletion true) → False) :=
  fun h => h (one fun t => { t with sbuf := [.full (.slice 0 0x127FF8) 8 0x123456789ABCDEF0] }) _ _ _ [] .sliceBankServe rfl rfl rfl (by decide)
  rfl rfl rfl (Or.inl ⟨_, _, rfl, rfl⟩)

theorem witness_Stores_empty : ¬
    (∀ (s : State) (x : Inst) (t : Tile) (p : PStore) (rest : List PStore) (e : Instr), s.insts[s.focus.inst]? = some x → x.tiles[s.focus.tile]? =
    some t → t.sbuf = p :: rest → (∀ q ∈ rest, q.loc.isRemote = false) → s.homeHere s.focus.inst p.loc → s.reservedElsewhere s.focus.inst
    s.focus.tile p.loc p.extent = false → s.canonical = true → ((∃ k o, p.loc = Loc.slice k o ∧ e = Instr.sliceBankServe) ∨ (∃ o, p.loc = Loc.hbm o
    ∧ e = Instr.hbmAccessPerformed) ∨ ∃ o, p.loc = Loc.host o ∧ e = Instr.pcieCompletion true) → False) :=
  fun h => h (one fun t => { t with full := [2], sbuf := [.empty (.slice 0 128)] }) _ _ _ [] .sliceBankServe rfl rfl rfl (by decide) rfl rfl rfl
  (Or.inl ⟨_, _, rfl, rfl⟩)

theorem witness_Stores_hbm : ¬
    (∀ (s : State) (x : Inst) (t : Tile) (p : PStore) (rest : List PStore) (e : Instr), s.insts[s.focus.inst]? = some x → x.tiles[s.focus.tile]? =
    some t → t.sbuf = p :: rest → (∀ q ∈ rest, q.loc.isRemote = false) → s.homeHere s.focus.inst p.loc → s.reservedElsewhere s.focus.inst
    s.focus.tile p.loc p.extent = false → s.canonical = true → ((∃ k o, p.loc = Loc.slice k o ∧ e = Instr.sliceBankServe) ∨ (∃ o, p.loc = Loc.hbm o
    ∧ e = Instr.hbmAccessPerformed) ∨ ∃ o, p.loc = Loc.host o ∧ e = Instr.pcieCompletion true) → False) :=
  fun h => h (one fun t => { t with sbuf := [.plain (.hbm 0xA00000) 1 0x1FF 0x10000 0] }) _ _ _ [] .hbmAccessPerformed rfl rfl rfl (by decide)
  trivial rfl rfl (Or.inr (Or.inl ⟨_, rfl, rfl⟩))

theorem witness_Stores_host : ¬
    (∀ (s : State) (x : Inst) (t : Tile) (p : PStore) (rest : List PStore) (e : Instr), s.insts[s.focus.inst]? = some x → x.tiles[s.focus.tile]? =
    some t → t.sbuf = p :: rest → (∀ q ∈ rest, q.loc.isRemote = false) → s.homeHere s.focus.inst p.loc → s.reservedElsewhere s.focus.inst
    s.focus.tile p.loc p.extent = false → s.canonical = true → ((∃ k o, p.loc = Loc.slice k o ∧ e = Instr.sliceBankServe) ∨ (∃ o, p.loc = Loc.hbm o
    ∧ e = Instr.hbmAccessPerformed) ∨ ∃ o, p.loc = Loc.host o ∧ e = Instr.pcieCompletion true) → False) :=
  fun h => h (one fun t => { t with sbuf := [.plain (.host 0) 2 0x1FFFF 0x20000 0] }) _ _ _ [] (.pcieCompletion true) rfl rfl rfl (by decide)
  trivial rfl rfl (Or.inr (Or.inr ⟨_, rfl, rfl⟩))

theorem witness_Stores_refused : ¬
    (∀ (s : State) (x : Inst) (t : Tile) (o n : ℕ) (d va ipa : W64) (rest : List PStore), s.insts[s.focus.inst]? = some x → x.tiles[s.focus.tile]?
    = some t → t.sbuf = PStore.plain (Loc.host o) n d va ipa :: rest → (∀ q ∈ rest, q.loc.isRemote = false) → t.seq.finished = false →
    t.seq.pend.eng0.length < 16 → False) :=
  fun h => h (one fun t => { t with sbuf := [.plain (.host 0) 2 0x1FFFF 0x20000 0x8000000010000] }) _ _ 0 2 0x1FFFF 0x20000 0x8000000010000 [] rfl
  rfl rfl (by decide) rfl (by decide)

/-! #### Homes -/

theorem witness_Homes_retry : ¬
    (∀ (s : State) (x : Inst) (t : Tile), s.insts[s.focus.inst]? = some x → x.tiles[s.focus.tile]? = some t → ∀ (b : Block), t.seq.block = some b →
    b.checking = true → b.perform = none → t.reserved.length ≠ b.reservations.length → False) :=
  fun h => h (one fun t => { t with reserved := [(.slice 1 0, 8)], seq :=
  { t.seq with block := some { block ⟨none, none, none, true⟩ with checking := true } } }) _ _ rfl rfl _ rfl rfl rfl (by decide)

theorem witness_Homes_grant : ¬
    (∀ (s : State) (x : Inst) (t : Tile), s.insts[s.focus.inst]? = some x → x.tiles[s.focus.tile]? = some t → ∀ (g : ℕ) (k : Take) (rest : List
    Take), t.isFull g = true → takeHead g t.takes = some (k, rest) → k.granted = none → False) :=
  fun h => h (one fun t => { t with full := [3], takes := [⟨3, 1, none⟩] }) _ _ rfl rfl 3 _ [] rfl rfl rfl

theorem witness_Homes_timeout : ¬
    (∀ (s : State) (x : Inst) (t : Tile), s.insts[s.focus.inst]? = some x → x.tiles[s.focus.tile]? = some t → ∀ (g : ℕ) (k : Take) (rest : List
    Take) (n : ℕ), takeHead g t.takes = some (k, rest) → k.granted = some n → 64 ≤ n → False) :=
  fun h => h (one fun t => { t with takes := [⟨3, 1, some 64⟩, ⟨4, 1, none⟩] }) _ _ rfl rfl 3 _ _ 64 rfl rfl (by decide)

theorem witness_Homes_wake : ¬
    (∀ (s : State) (x : Inst) (t : Tile), s.insts[s.focus.inst]? = some x → x.tiles[s.focus.tile]? = some t → ∀ (w : Watch) (rest : List Watch) (y
    : Tile) (o : ℕ) (g : BitVec 5) (lim n : ℕ), t.wakes = w :: rest → x.tiles[w.tile]? = some y → y.place = Place.running → y.seq.park = some
    (Park.waita s.focus.tile o g lim n none) → y.seq.outer = none → o / 64 = w.granule → False) :=
  fun h => h (two (fun t => { t with wakes := [⟨2, 1⟩] }) (fun t => { t with seq := { t.seq with park := some (.waita 0 184 31 0 0 none) } })) _ _
  rfl rfl _ [] _ 184 31 0 0 rfl rfl rfl rfl rfl rfl

theorem witness_Homes_limit : ¬
    (∀ (s : State) (x : Inst) (t : Tile), s.insts[s.focus.inst]? = some x → x.tiles[s.focus.tile]? = some t → ∀ (home o : ℕ) (g : BitVec 5) (lim n
    : ℕ) (y : Tile), t.seq.park = some (Park.waita home o g lim n none) → t.seq.outer = none → lim ≠ 0 → lim ≤ n → t.place = Place.running →
    x.tiles[home]? = some y → False) :=
  fun h => h (two (fun t => { t with seq := { t.seq with park := some (.waita 1 64 31 5 5 none) } }) (fun t =>
  { t with watches := [⟨1, 0⟩], wakes := [⟨1, 0⟩] })) _ _ rfl rfl 1 64 31 5 5 _ rfl rfl (by decide) (by decide) rfl rfl

theorem witness_Homes_limitSelf : ¬
    (∀ (s : State) (x : Inst) (t : Tile), s.insts[s.focus.inst]? = some x → x.tiles[s.focus.tile]? = some t → ∀ (home o : ℕ) (g : BitVec 5) (lim n
    : ℕ) (y : Tile), t.seq.park = some (Park.waita home o g lim n none) → t.seq.outer = none → lim ≠ 0 → lim ≤ n → t.place = Place.running →
    x.tiles[home]? = some y → False) :=
  fun h => h (one fun t => { t with watches := [⟨1, 0⟩], seq := { t.seq with park := some (.waita 0 64 31 5 6 none) } }) _ _ rfl rfl 0 64 31 5 6 _
  rfl rfl (by decide) (by decide) rfl rfl

theorem witness_Homes_bankFree : ¬
    (∀ (s : State) (p : ℕ) (k : BitVec 4) (tag : Byte), (∀ x ∈ s.insts, x.st ≠ InstState.retired → ∀ y ∈ x.tiles, y.phys = p → y.place =
    Place.saved) → False) :=
  fun h => h (one fun t => { t with place := .saved, phys := noPhys }) 0 15 1 (by simp [inst]; decide)

theorem witness_Homes_bankClose : ¬
    (∀ (s : State) (p : ℕ) (k : BitVec 4) (tag : Byte) (i j : ℕ) (x : Inst) (y : Tile), s.insts[i]? = some x → x.tiles[j]? = some y → x.st ≠
    InstState.retired → y.phys = p → y.place ≠ Place.saved → (∀ a < i, ∀ (z : Inst), s.insts[a]? = some z → z.st ≠ InstState.retired → ∀ u ∈
    z.tiles, u.phys = p → u.place = Place.saved) → (∀ a < j, ∀ (u : Tile), x.tiles[a]? = some u → u.phys = p → u.place = Place.saved) → k.toNat ∉
    (s.physAt p).closed → False) :=
  fun h => h (one fun t => { t with place := .resident }) 0 1 2 0 0 _ _ rfl rfl (by decide) rfl (by decide) (by simp) (by simp) (by decide)

theorem witness_Homes_bankHeld : ¬
    (∀ (s : State) (p : ℕ) (k : BitVec 4) (tag : Byte) (i j : ℕ) (x : Inst) (y : Tile), s.insts[i]? = some x → x.tiles[j]? = some y → x.st ≠
    InstState.retired → y.phys = p → y.place ≠ Place.saved → (∀ a < i, ∀ (z : Inst), s.insts[a]? = some z → z.st ≠ InstState.retired → ∀ u ∈
    z.tiles, u.phys = p → u.place = Place.saved) → (∀ a < j, ∀ (u : Tile), x.tiles[a]? = some u → u.phys = p → u.place = Place.saved) → k.toNat ∈
    (s.physAt p).closed → (∀ (h : ℕ) (u : Tile), x.tiles[h]? = some u → s.commandsOut i h u = false ∧ (∀ q ∈ u.sbuf, inBank j y.coarse k.toNat
    q.loc = false) ∧ ∀ (b : Block), u.seq.block = some b → b.perform = none ∧ b.checking = false) → False) :=
  fun h => h { one fun t => { t with place := .resident, slice := ⟨[(0x40, 1)]⟩, full := [1] } with phys := [(0,
  { Phys.idle with tag := 1, banks := Vector.replicate 16 1, closed := [1] })] } 0 1 2 0 0 _ _ rfl rfl (by decide) rfl (by decide) (by simp)
  (by simp) (by decide)
  (by intro h u hu; match h, hu with | 0, hu => (cases hu; exact ⟨rfl, (fun q hq => nomatch hq), by simp [tile, Tile.blank, Seq.start]⟩) | 1, hu => (cases hu; exact ⟨rfl, (fun q hq => nomatch hq), by simp [tile, Tile.blank, Seq.start]⟩))

/-! #### Barriers -/

theorem witness_Barriers_arrive : ¬
    (∀ (s : State) (x : Inst) (gid : BitVec 8) (k : ℕ) (rest : List BarMsg), s.insts[s.focus.inst]? = some x → takeBarMsg s.focus.tile x.barMsgs =
    some (BarMsg.arrive gid k, rest) → False) :=
  fun h => h (within fun x => { x with barMsgs := [.arrive 0 0], bars := [(0, ⟨6, 1, [1], 0⟩)] }) _ 0 0 [] rfl rfl

theorem witness_Barriers_arriveFirst : ¬
    (∀ (s : State) (x : Inst) (gid : BitVec 8) (k : ℕ) (rest : List BarMsg), s.insts[s.focus.inst]? = some x → takeBarMsg s.focus.tile x.barMsgs =
    some (BarMsg.arrive gid k, rest) → False) :=
  fun h => h (within fun x => { x with barMsgs := [.arrive 0 0] }) _ 0 0 [] rfl rfl

theorem witness_Barriers_count : ¬
    (∀ (s : State) (x : Inst), s.insts[s.focus.inst]? = some x → ∀ (gid : BitVec 8) (k n : ℕ) (rest : List BarMsg), takeBarMsg s.focus.tile
    x.barMsgs = some (BarMsg.count gid k n, rest) → False) :=
  fun h => h (within fun x => { x with barMsgs := [.count 0 0 1], bars := [(0, ⟨0xFFFFFFFF, 1, [1], 0⟩)] }) _ rfl 0 0 1 [] rfl

theorem witness_Barriers_notice : ¬
    (∀ (s : State) (x : Inst), s.insts[s.focus.inst]? = some x → ∀ (t : Tile) (gid : BitVec 8) (p : W32) (rest : List (BitVec 8 × ℕ × W32)),
    x.tiles[s.focus.tile]? = some t → takeNotice s.focus.tile x.notices = some ((gid, p), rest) → False) :=
  fun h => h (pkg { inst [{ tile 0 with seq := { (tile 0).seq with park := some (.bar 0 0) } }, tile 1] with notices := [(0, 0, 1)] }) _ rfl _ 0 1
  [] rfl rfl

/-! #### StripRuns -/

theorem witness_Runs_idle : ¬
    (∀ (s : State) (x : Inst) (t : Tile) (e : StripId) (w : SWord) (addr md : W64), MayIssue s x t e 1 w addr md → False) :=
  fun h => h (one (sel .ast)) _ _ .ast ⟨0, 7, 0, 0, 32, 32, 32, 32, 1⟩ _ _ ⟨rfl, rfl, rfl, ⟨_, rfl⟩, rfl, fun _ => rfl, fun h => absurd rfl h⟩

theorem witness_Runs_idleLong : ¬
    (∀ (s : State) (x : Inst) (t : Tile) (e : StripId) (w : SWord) (addr md : W64), MayIssue s x t e 1 w addr md → False) :=
  fun h => h (one (sel .est)) _ _ .est ⟨0, 2, 0, 0, 32, 32, 32, 32, 0x7FFFF⟩ _ _ ⟨rfl, rfl, rfl, ⟨_, rfl⟩, rfl, fun _ => rfl, fun h => absurd rfl
  h⟩

theorem witness_Runs_reads : ¬
    (∀ (s : State) (x : Inst) (t : Tile) (e : StripId) (q : RunReq) (l : List RunReq), s.insts[s.focus.inst]? = some x → x.tiles[s.focus.tile]? =
    some t → t.place = Place.running → (t.strip e).queue = q :: l → (t.strip e).checkFault = false → q.checked = none → False) :=
  fun h => h (one fun t => { t with slice := code3, ast := { t.ast with queue := [{ req with kload := true }] } }) _ _ .ast _ [] rfl rfl rfl rfl
  rfl rfl

theorem witness_Runs_read : ¬
    (∀ (s : State) (x : Inst) (t : Tile) (e : StripId) (q : RunReq) (l : List RunReq), s.insts[s.focus.inst]? = some x → x.tiles[s.focus.tile]? =
    some t → t.place = Place.running → (t.strip e).queue = q :: l → (t.strip e).checkFault = false → q.checked = none → q.bad = none → (∃ va ∈
    q.unread, s.checkRead e t va ≠ CheckRead.wait) → False) :=
  fun h => h (one fun t => { t with slice := code3, ast := { t.ast with queue := [req] } }) _ _ .ast req [] rfl rfl rfl rfl rfl rfl rfl
  ⟨0x40000000001000, by decide, by decide +kernel⟩

theorem witness_Runs_checked : ¬
    (∀ (s : State) (x : Inst) (t : Tile) (e : StripId) (q : RunReq) (l : List RunReq), s.insts[s.focus.inst]? = some x → x.tiles[s.focus.tile]? =
    some t → t.place = Place.running → (t.strip e).queue = q :: l → (t.strip e).checkFault = false → q.checked = none →
    let n := if q.kload = true then 4 else 0;
    q.bad = none → q.unread = [] → (∀ w ∈ List.drop n q.words, wordFault t.sr.feat e w = none) → False) :=
  fun h => h (one fun t => { t with ast := { t.ast with queue := [{ req with part := [(0x40000000001000, add32)] }] } }) _ _ .ast
  { req with part := [(0x40000000001000, add32)] } [] rfl rfl rfl rfl rfl rfl rfl (by decide +kernel) (List.forall_mem_singleton.2 (by decide))

theorem witness_Runs_checkFails : ¬
    (∀ (s : State) (x : Inst) (t : Tile) (e : StripId) (q : RunReq) (l : List RunReq), s.insts[s.focus.inst]? = some x → x.tiles[s.focus.tile]? =
    some t → t.place = Place.running → (t.strip e).queue = q :: l → (t.strip e).checkFault = false → q.checked = none →
    let n := if q.kload = true then 4 else 0;
    ∀ (c : Byte) (k : ℕ) (w : W64), q.bad = none → q.unread = [] → (List.drop n q.words)[k]? = some w → wordFault t.sr.feat e w = some c → (∀ j <
    k, ∀ (u : W64), (List.drop n q.words)[j]? = some u → wordFault t.sr.feat e u = none) → False) :=
  fun h => h (one fun t => { t with ast := { t.ast with queue := [{ req with part := [(0x40000000001000, 0)] }] } }) _ _ .ast
  { req with part := [(0x40000000001000, 0)] } [] rfl rfl rfl rfl rfl rfl 0x01 0 0 rfl (by decide) rfl (by decide) (by simp)

theorem witness_Runs_checkPends : ¬
    (∀ (s : State) (x : Inst) (t : Tile) (e : StripId) (q : RunReq) (l : List RunReq), s.insts[s.focus.inst]? = some x → x.tiles[s.focus.tile]? =
    some t → t.place = Place.running → (t.strip e).queue = q :: l → (t.strip e).checkFault = false → q.checked = none → ∀ (f : PFault), q.bad =
    some f → (t.strip e).run = none → (t.strip e).cur = none → (t.strip e).flight = [] → (t.strip e).stopped = false → False) :=
  fun h => h (one fun t => { t with ast := { t.ast with queue := [{ req with bad := some ⟨0x01, 3, 0x40000000001000, none⟩ }] } }) _ _ .ast
  { req with bad := some ⟨0x01, 3, 0x40000000001000, none⟩ } [] rfl rfl rfl rfl rfl rfl _ rfl rfl rfl rfl rfl

theorem witness_Runs_first : ¬
    (∀ (s : State) (x : Inst) (t : Tile) (e : StripId) (w : W64 × W64 × W64), s.insts[s.focus.inst]? = some x → x.tiles[s.focus.tile]? = some t →
    t.place = Place.running → (t.strip e).nextWord t.cyc = some w → t.bindFault e w.1 = false → t.drainChan e w.1 = none → s.cycleRuns x t = true →
    t.duesLeft = false → s.issueClear x t = true → False) :=
  fun h => h (one fun t => { t with ast := { t.ast with queue := [{ req with checked := some ([add32], 0) }] } }) _ _ .ast _ rfl rfl rfl rfl rfl
  rfl rfl rfl rfl

theorem witness_Runs_firstTaken : ¬
    (∀ (s : State) (x : Inst) (t : Tile) (e : StripId) (w : W64 × W64 × W64), s.insts[s.focus.inst]? = some x → x.tiles[s.focus.tile]? = some t →
    t.place = Place.running → (t.strip e).nextWord t.cyc = some w → t.bindFault e w.1 = false → t.drainChan e w.1 = none → s.cycleRuns x t = true →
    t.duesLeft = false → s.issueClear x t = true → ∀ (s' : State) (t' : Tile), exec (Instr.stripWordIssue e) s = Host.Outcome.next s' → s'.tile?
    s.focus.inst s.focus.tile = some t' → ∀ (q : RunReq) (l : List RunReq) (ws : List W64) (k : BitVec 256), (t.strip e).run = none → (t.strip
    e).queue = q :: l → q.checked = some (ws, k) → False) :=
  fun h => h (one fun t => { t with ast := { t.ast with queue := [{ req with kload := true, checked := some ([add32], 5) }] } }) _ _ .ast _ rfl rfl
  rfl rfl rfl rfl rfl rfl rfl _ _ rfl rfl _ [] [add32] 5 rfl rfl rfl

theorem witness_Runs_next : ¬
    (∀ (s : State) (x : Inst) (t : Tile) (e : StripId) (w : W64 × W64 × W64), s.insts[s.focus.inst]? = some x → x.tiles[s.focus.tile]? = some t →
    t.place = Place.running → (t.strip e).nextWord t.cyc = some w → t.bindFault e w.1 = false → t.drainChan e w.1 = none → s.cycleRuns x t = true →
    t.duesLeft = false → s.issueClear x t = true → ∀ (s' : State) (t' : Tile), exec (Instr.stripWordIssue e) s = Host.Outcome.next s' → s'.tile?
    s.focus.inst s.focus.tile = some t' → ∀ (r : Run), (t.strip e).run = some r → False) :=
  fun h => h (one fun t => { t with ast := { t.ast with run := some ⟨0x40000000001000, [add32, add32], 1, 1, 1⟩ } }) _ _ .ast _ rfl rfl rfl rfl rfl
  rfl rfl rfl rfl _ _ rfl rfl _ rfl

/-! #### AstWords -/

theorem witness_Ast_add : ¬
    (∀ (i : Instr) (s : State) (x : Inst) (t : Tile) (op : BitVec 8) (w : SWord) (addr md : W64), i.shape = Shape.strip StripId.ast op w →
    i.WellFormed = true → op ≠ 1 → MayIssue s x t StripId.ast op.toNat w addr md → False) :=
  fun h => h (.astAdd ⟨0, 0, 0, 11, 0, 1, 2, 32, 0⟩) (one (sel .ast)) _ _ 2 ⟨0, 0, 0, 11, 0, 1, 2, 32, 0⟩ _ _ rfl (by decide) (by decide) ⟨rfl,
  rfl, rfl, ⟨_, rfl⟩, rfl, fun _ => rfl, fun h => absurd rfl h⟩

theorem witness_Ast_channels : ¬
    (∀ (i : Instr) (s : State) (x : Inst) (t : Tile) (op : BitVec 8) (w : SWord) (addr md : W64), i.shape = Shape.strip StripId.ast op w →
    i.WellFormed = true → op ≠ 1 → MayIssue s x t StripId.ast op.toNat w addr md → False) :=
  fun h => h (.astFma ⟨0, 5, 5, 10, 16, 17, 18, 19, 0⟩) (one fun t => sel .ast (bindAll 5 3 1 t)) _ _ 5 ⟨0, 5, 5, 10, 16, 17, 18, 19, 0⟩ _ _ rfl
  (by decide) (by decide) ⟨rfl, rfl, rfl, ⟨_, rfl⟩, rfl, fun _ => rfl, fun h => absurd rfl h⟩

theorem witness_Ast_flagc : ¬
    (∀ (i : Instr) (s : State) (x : Inst) (t : Tile) (op : BitVec 8) (w : SWord) (addr md : W64), i.shape = Shape.strip StripId.ast op w →
    i.WellFormed = true → op ≠ 1 → MayIssue s x t StripId.ast op.toNat w addr md → False) :=
  fun h => h (.astFlagc ⟨0, 0, 0, 11, 32, 32, 32, 32, 31⟩) (one (sel .ast)) _ _ 0x27 ⟨0, 0, 0, 11, 32, 32, 32, 32, 31⟩ _ _ rfl (by decide)
  (by decide) ⟨rfl, rfl, rfl, ⟨_, rfl⟩, rfl, fun _ => rfl, fun h => absurd rfl h⟩

/-! #### EstWords -/

theorem witness_Est_exp : ¬
    (∀ (i : Instr) (s : State) (x : Inst) (t : Tile) (op : BitVec 8) (w : SWord) (addr md : W64), i.shape = Shape.strip StripId.est op w →
    i.WellFormed = true → op ≠ 1 → MayIssue s x t StripId.est op.toNat w addr md → False) :=
  fun h => h (.estExp ⟨0, 0, 0, 0, 0, 1, 32, 32, 0⟩) (one (sel .est)) _ _ 2 ⟨0, 0, 0, 0, 0, 1, 32, 32, 0⟩ _ _ rfl (by decide) (by decide) ⟨rfl,
  rfl, rfl, ⟨_, rfl⟩, rfl, fun _ => rfl, fun h => absurd rfl h⟩

theorem witness_Est_hardr : ¬
    (∀ (i : Instr) (s : State) (x : Inst) (t : Tile) (op : BitVec 8) (w : SWord) (addr md : W64), i.shape = Shape.strip StripId.est op w →
    i.WellFormed = true → op ≠ 1 → MayIssue s x t StripId.est op.toNat w addr md → False) :=
  fun h => h (.estHardr ⟨0, 0, 0, 11, 0, 32, 32, 32, 1⟩) (one (sel .est)) _ _ 0x20 ⟨0, 0, 0, 11, 0, 32, 32, 32, 1⟩ _ _ rfl (by decide) (by decide)
  ⟨rfl, rfl, rfl, ⟨_, rfl⟩, rfl, fun _ => rfl, fun h => absurd rfl h⟩

/-! #### PstWords -/

theorem witness_Pst_merge : ¬
    (∀ (i : Instr) (s : State) (x : Inst) (t : Tile) (op : BitVec 8) (w : SWord) (addr md : W64), i.shape = Shape.strip StripId.pst op w →
    i.WellFormed = true → op ≠ 1 → MayIssue s x t StripId.pst op.toNat w addr md → False) :=
  fun h => h (.pstMerge ⟨0, 0, 0, 11, 0, 16, 1, 17, 0⟩) (one fun t => sel .pst (bindAll 2 5 1 t)) _ _ 0x11 ⟨0, 0, 0, 11, 0, 16, 1, 17, 0⟩ _ _ rfl
  (by decide) (by decide) ⟨rfl, rfl, rfl, ⟨_, rfl⟩, rfl, fun _ => rfl, fun h => absurd rfl h⟩

theorem witness_Pst_tagt : ¬
    (∀ (i : Instr) (s : State) (x : Inst) (t : Tile) (op : BitVec 8) (w : SWord) (addr md : W64), i.shape = Shape.strip StripId.pst op w →
    i.WellFormed = true → op ≠ 1 → MayIssue s x t StripId.pst op.toNat w addr md → False) :=
  fun h => h (.pstTagt ⟨0, 0, 0, 11, 0, 16, 32, 32, 0xFF09⟩) (one fun t => sel .pst (bindAll 2 5 1 t)) _ _ 0x1C ⟨0, 0, 0, 11, 0, 16, 32, 32,
  0xFF09⟩ _ _ rfl (by decide) (by decide) ⟨rfl, rfl, rfl, ⟨_, rfl⟩, rfl, fun _ => rfl, fun h => absurd rfl h⟩

/-! #### ElementLanes -/

theorem witness_Lanes_ast : ¬
    (∀ (op : ℕ) (t : BitVec 4) (mode : BitVec 3) (a b c : Beat) (j : ℕ) (v : ℤ), t ∈ [8, 11, 12, 13, 14, 15] → j < 6144 / fmtWidth t → integerLane
    op t (laneOf t a j) (laneOf t b j) (laneOf t c j) = some v → False) :=
  fun h => h 0x18 0xC 1 (0x8001) 16 0 0 _ (by decide) (by decide) rfl

theorem witness_Lanes_pst : ¬
    (∀ (t : BitVec 4) (mode : BitVec 3) (imm : BitVec 19) (a b c : Beat) (j : ℕ), t ∉ [5, 6, 7] →
    let n := 6144 / fmtWidth t;
    let k := imm.toNat;
    j < n → k ≤ n → False) :=
  fun h => h 0xC 1 0x180 0 0 0 0 (by decide) (by decide) (by decide)

theorem witness_Lanes_slide0 : ¬
    (∀ (t : BitVec 4) (mode : BitVec 3) (imm : BitVec 19) (a b c : Beat) (j : ℕ), t ∉ [5, 6, 7] →
    let n := 6144 / fmtWidth t;
    let k := imm.toNat;
    j < n → k ≤ n → False) :=
  fun h => h 0xB 1 0 0 0 0 191 (by decide) (by decide) (by decide)

theorem witness_Lanes_bcast : ¬
    (∀ (t : BitVec 4) (mode : BitVec 3) (imm : BitVec 19) (a b c : Beat) (j : ℕ), t ∉ [5, 6, 7] →
    let n := 6144 / fmtWidth t;
    let k := imm.toNat;
    j < n → k < n → False) :=
  fun h => h 0xB 1 191 0 0 0 0 (by decide) (by decide) (by decide)

theorem witness_Lanes_transpose : ¬
    (∀ (t : BitVec 4) (mode : BitVec 3) (imm : BitVec 19) (a b c : Beat) (j : ℕ), t ∉ [5, 6, 7] →
    let n := 6144 / fmtWidth t;
    let k := imm.toNat;
    j < n → 0 < k → k ≤ n → n % k = 0 → False) :=
  fun h => h 0x8 1 768 0 0 0 767 (by decide) (by decide) (by decide) (by decide) (by decide)

theorem witness_Lanes_insert : ¬
    (∀ (t : BitVec 4) (mode : BitVec 3) (imm : BitVec 19) (a b c : Beat) (j : ℕ), t ∉ [5, 6, 7] →
    let n := 6144 / fmtWidth t;
    let k := imm.toNat;
    j < n → k < n → False) :=
  fun h => h 0xA 1 95 0 0 0 95 (by decide) (by decide) (by decide)

theorem witness_Lanes_iota : ¬
    (∀ (t : BitVec 4) (mode : BitVec 3) (imm : BitVec 19) (a b c : Beat) (j : ℕ), t ∉ [5, 6, 7] →
    let n := 6144 / fmtWidth t;
    j < n → t ∈ [8, 11, 12, 13, 14, 15] → False) :=
  fun h => h 0xE 1 0 0xFFFF 1 0 1 (by decide) (by decide) (by decide)

/-! #### PackedLanes -/

theorem witness_Lanes_pack : ¬
    (∀ (t u : BitVec 4) (mode : BitVec 3) (imm : BitVec 19) (a b c : Beat) (j : ℕ), (t, u) ∈ [(8, 9), (12, 8), (15, 13), (11, 12), (14, 15)] →
    let n := 6144 / fmtWidth t;
    j < 2 * n → False) :=
  fun h => h 0xC 0x8 1 1 0x7FFF 0 0 767 (by decide) (by decide)

theorem witness_Lanes_unpack : ¬
    (∀ (t u : BitVec 4) (mode : BitVec 3) (imm : BitVec 19) (a b c : Beat) (j : ℕ), (t, u) ∈ [(8, 9), (12, 8), (15, 13), (11, 12), (14, 15)] →
    let n := 6144 / fmtWidth t;
    imm.toNat ≤ 1 → j < n → False) :=
  fun h => h 0xB 0xC 1 1 0 0 0 191 (by decide) (by decide) (by decide)

/-! #### ElementLanes -/

theorem witness_Float_exact : ¬
    (∀ (op : ℕ) (t : BitVec 4) (mode : BitVec 3) (x y z r : ℕ) (a b c v : ℚ), t ∈ [0, 1, 2, 10] → x < 2 ^ fmtWidth t → y < 2 ^ fmtWidth t → z < 2 ^
    fmtWidth t → r < 2 ^ fmtWidth t → ratOf t x = some a → ratOf t y = some b → ratOf t z = some c → exactOf op a b c = some v → v ≠ 0 → ratOf t r
    = some v → False) :=
  fun h => h 0x02 0x0 1 0x3F800000 0x40000000 0 0x40400000 1 2 0 3 (by decide) (by decide) (by decide) (by decide) (by decide) rat1 rat2 rat0
  (by norm_num [exactOf]) (by norm_num) rat3

/-! #### RoundsToNearest -/

theorem witness_Float_tie : ¬
    (∀ (t : BitVec 4) (s : Bool) (num den : ℕ) (e : ℤ) (u : ℚ), t ∈ [0, 1, 2, 3, 4, 10] → 0 < num → 0 < den → ratOf t (roundTo t 1 s num den e).1 =
    some u → ∀ (r : ℕ) (w : ℚ), r < 2 ^ fmtWidth t → ratOf t r = some w → False) :=
  fun h => h 0x0 false 16777217 1 0 16777216 (by decide) (by decide) (by decide) ratTied 0x4B800001 16777218 (by decide) ratTie2

theorem witness_Float_tieEven : ¬
    (∀ (t : BitVec 4) (s : Bool) (num den : ℕ) (e : ℤ) (u : ℚ), t ∈ [0, 1, 2, 3, 4, 10] → 0 < num → 0 < den →
    let v : ℚ := (if s = true then -1 else 1) * (↑num / ↑den) * 2 ^ e;
    ratOf t (roundTo t 1 s num den e).1 = some u → ∀ (r : ℕ) (w : ℚ), r < 2 ^ fmtWidth t → ratOf t r = some w → |u - v| = |w - v| → u ≠ w → False)
    :=
  fun h => h 0x0 false 16777217 1 0 16777216 (by decide) (by decide) (by decide) ratTied 0x4B800001 16777218 (by decide) ratTie2 (by norm_num)
  (by norm_num)

/-! #### StripResults -/

theorem witness_Results_due : ¬
    (∀ (s : State) (x : Inst) (t : Tile) (e : StripId) (f : Flight) (o : Out), s.insts[s.focus.inst]? = some x → x.tiles[s.focus.tile]? = some t →
    s.cycleRuns x t = true → t.dueOf e = [f] → f.kind = FlightKind.value → f.outs = [o] → f.lenmis = false → f.tagt = none → flagSummary f.flags
    &&& BitVec.extractLsb' 8 5 f.mode = 0 → False) :=
  fun h => h (flying due id) _ _ .est _ _ rfl rfl rfl rfl rfl rfl rfl rfl rfl

theorem witness_Results_dueHard : ¬
    (∀ (s : State) (x : Inst) (t : Tile) (e : StripId) (f : Flight) (o : Out), s.insts[s.focus.inst]? = some x → x.tiles[s.focus.tile]? = some t →
    s.cycleRuns x t = true → t.dueOf e = [f] → f.kind = FlightKind.value → f.outs = [o] → f.lenmis = false → f.tagt = none → flagSummary f.flags
    &&& BitVec.extractLsb' 8 5 f.mode = 0 → False) :=
  fun h => h (flying { due with outs := [⟨32, 0, 0, false⟩], hard := [1, 0, 2, 3], rounded := true } id) _ _ .est _ _ rfl rfl rfl rfl rfl rfl rfl
  rfl rfl

theorem witness_Results_traps : ¬
    (∀ (s : State) (x : Inst) (t : Tile) (e : StripId) (f : Flight), s.insts[s.focus.inst]? = some x → x.tiles[s.focus.tile]? = some t →
    t.seq.finished = false → s.cycleRuns x t = true → t.dueOf e = [f] → f.lenmis = true ∨ f.tagt.isSome = true ∨ flagSummary f.flags &&&
    BitVec.extractLsb' 8 5 f.mode ≠ 0 → False) :=
  fun h => h (flying { due with mode := 0x101 } id) _ _ .est _ rfl rfl rfl rfl rfl (Or.inr (Or.inr (by decide)))

theorem witness_Results_mismatch : ¬
    (∀ (s : State) (x : Inst) (t : Tile) (e : StripId) (f : Flight), s.insts[s.focus.inst]? = some x → x.tiles[s.focus.tile]? = some t →
    t.seq.finished = false → s.cycleRuns x t = true → t.dueOf e = [f] → f.lenmis = true ∨ f.tagt.isSome = true ∨ flagSummary f.flags &&&
    BitVec.extractLsb' 8 5 f.mode ≠ 0 → False) :=
  fun h => h (flying { due with lenmis := true } id) _ _ .est _ rfl rfl rfl rfl rfl (Or.inl rfl)

theorem witness_Results_tag : ¬
    (∀ (s : State) (x : Inst) (t : Tile) (e : StripId) (f : Flight), s.insts[s.focus.inst]? = some x → x.tiles[s.focus.tile]? = some t →
    t.seq.finished = false → s.cycleRuns x t = true → t.dueOf e = [f] → f.lenmis = true ∨ f.tagt.isSome = true ∨ flagSummary f.flags &&&
    BitVec.extractLsb' 8 5 f.mode ≠ 0 → False) :=
  fun h => h (flying { due with tagt := some (1, 3) } id) _ _ .est _ rfl rfl rfl rfl rfl (Or.inr (Or.inl rfl))

theorem witness_Results_secondPhase : ¬
    (∀ (s : State) (x : Inst) (t : Tile) (f : Flight) (h0 h1 h2 h3 : ℕ), s.insts[s.focus.inst]? = some x → x.tiles[s.focus.tile]? = some t →
    t.place = Place.running → t.phase = SchedPhase.start → s.startClear x t = true → t.hardDue = [f] → f.hard = [h0, h1, h2, h3] → False) :=
  fun h => h (flying { due with hard := [0, 48, 1, 2], wide := true } id) _ _ _ 0 48 1 2 rfl rfl rfl rfl rfl rfl rfl

/-! #### MatrixMultiplies -/

theorem witness_Matrix_ready : ¬
    (∀ (i : Instr) (op : BitVec 4) (k : MTok) (s : State) (x : Inst) (t : Tile) (h : Held), i = Instr.mma k ∧ op = 1 ∨ i = Instr.mmaz k ∧ op = 2 ∨
    i = Instr.mman k ∧ op = 3 → TokenReady s x t h →
    let ready := fun n => h.q.loaded.getLsbD n.toNat = true ∧ t.mxe.slots[n.toNat].failed = false;
    ready k.sa ∧ ready k.sb → False) :=
  fun h => h (.mma mt) 1 mt (holding (held 0) id) _ _ (held 0) (Or.inl ⟨rfl, rfl⟩) ⟨rfl, rfl, rfl, rfl, by decide, rfl, rfl, rfl⟩ ⟨⟨by decide,
  rfl⟩, ⟨by decide, rfl⟩⟩

theorem witness_Matrix_faults : ¬
    (∀ (i : Instr) (op : BitVec 4) (k : MTok) (s : State) (x : Inst) (t : Tile) (h : Held), i = Instr.mma k ∧ op = 1 ∨ i = Instr.mmaz k ∧ op = 2 ∨
    i = Instr.mman k ∧ op = 3 → TokenReady s x t h →
    let ready := fun n => h.q.loaded.getLsbD n.toNat = true ∧ t.mxe.slots[n.toNat].failed = false;
    ¬(ready k.sa ∧ ready k.sb) → t.seq.finished = false → False) :=
  fun h => h (.mman mt) 3 mt (holding { held 0 with q := ⟨0, 0, 1⟩ } id) _ _ _ (Or.inr (Or.inr ⟨rfl, rfl⟩)) ⟨rfl, rfl, rfl, rfl, by decide, rfl,
  rfl, rfl⟩ (by decide) rfl

theorem witness_Matrix_beyond : ¬
    (∀ (op : BitVec 4) (k : MTok) (a b : SlotImage) (acc : AccImage) (i j : ℕ), i < 32 → j < 32 → ¬(i ≤ k.ra.toNat ∧ j ≤ k.rb.toNat) → False) :=
  fun h => h 1 mt 0 0 5 2 0 (by decide) (by decide) (by decide)

theorem witness_Matrix_integer : ¬
    (∀ (op : BitVec 4) (k : MTok) (a b : SlotImage) (acc : AccImage) (i j : ℕ), i < 32 → j < 32 → i ≤ k.ra.toNat → j ≤ k.rb.toNat → k.fa ∈ [8, 9,
    13] → k.fb ∈ [8, 9, 13] → k.kcnt.toNat * 16 * fmtWidth k.fa ≤ 1536 → k.kcnt.toNat * 16 * fmtWidth k.fb ≤ 1536 → False) :=
  fun h => h 2 mt 1 1 5 1 1 (by decide) (by decide) (by decide) (by decide) (by decide) (by decide) (by decide) (by decide)

/-! #### AccumulatorMoves -/

theorem witness_Moves_accz : ¬
    (∀ (k : MTok) (s : State) (x : Inst) (t : Tile) (h : Held), TokenReady s x t h → False) :=
  fun h => h mt (holding (held 0) id) _ _ (held 0) ⟨rfl, rfl, rfl, rfl, by decide, rfl, rfl, rfl⟩

theorem witness_Moves_accout : ¬
    (∀ (k : MTok) (s : State) (x : Inst) (t : Tile) (h : Held), TokenReady s x t h → (t.chanAt k.dch.toNat).producer = 6 → False) :=
  fun h => h mt (holding (held 0) (bindCh 15 6 2 0)) _ _ (held 0) ⟨rfl, rfl, rfl, rfl, by decide, rfl, rfl, rfl⟩ rfl

theorem witness_Moves_accin : ¬
    (∀ (k : MTok) (s : State) (x : Inst) (t : Tile) (h : Held), TokenReady s x t h → ∀ (b : ChanEntry) (rest : List ChanEntry), (t.chanAt
    k.dch.toNat).consumer = 6 → (t.chanAt k.dch.toNat).surplus = false → (t.chanAt k.dch.toNat).entries = b :: rest → t.accinStops k h = false →
    False) :=
  fun h => h mt (holding (held 0) (bindCh 15 2 6 1)) _ _ (held 0) ⟨rfl, rfl, rfl, rfl, by decide, rfl, rfl, rfl⟩ _ [] rfl rfl rfl rfl

/-! #### MatrixSteps -/

theorem witness_Steps_take : ¬
    (∀ (s : State) (x : Inst) (t : Tile), s.insts[s.focus.inst]? = some x → x.tiles[s.focus.tile]? = some t → ∀ (q : QTok) (l : List QTok),
    t.mxe.beat = [] → t.mxe.src = none → t.mxe.queue = q :: l → t.mxe.held = none → t.mxe.nextAt ≤ t.cyc → t.mxe.stopped = false → (BitVec.toNat
    q.tok / 2 ^ 60 = 6 → t.mxe.pipe = []) → t.duesLeft = false → t.phase ≠ SchedPhase.issue → s.cycleRuns x t = true → tokenFault t.sr.feat q.tok =
    none → False) :=
  fun h => h (one fun t => { t with mxe := { t.mxe with queue := [⟨0x4000000000040000, 0, 0⟩] } }) _ _ rfl rfl _ [] rfl rfl rfl rfl (by decide) rfl
  (by decide) rfl (by decide) rfl rfl

theorem witness_Steps_retire : ¬
    (∀ (s : State) (x : Inst) (t : Tile), s.insts[s.focus.inst]? = some x → x.tiles[s.focus.tile]? = some t → ∀ (d : MxDue), t.mxDue = [d] →
    s.cycleRuns x t = true → d.beat = none → t.mxe.work = [] → False) :=
  fun h => h (one fun t => { t with mxe := { t.mxe with pipe := [⟨0, ⟨0x4000000000080000, 0, 0⟩, some (7, 1), none, 0, false, true⟩] } }) _ _ rfl
  rfl _ rfl rfl rfl rfl

theorem witness_Steps_push : ¬
    (∀ (s : State) (x : Inst) (t : Tile), s.insts[s.focus.inst]? = some x → x.tiles[s.focus.tile]? = some t → ∀ (d : MxDue) (c : BitVec 4) (e :
    ChanEntry), t.mxDue = [d] → s.cycleRuns x t = true → d.beat = some (c, e) → d.acc = none → d.retire = false → t.mxe.work = [] → False) :=
  fun h => h (one fun t => bindCh 15 6 2 0
  { t with mxe := { t.mxe with pipe := [⟨0, ⟨0x5000000000000000, 0, 0⟩, none, some (15, ⟨3, 5, true⟩), 0, false, false⟩] } }) _ _ rfl rfl _ _ _ rfl
  rfl rfl rfl rfl rfl

theorem witness_Steps_filled : ¬
    (∀ (s : State) (x : Inst) (t : Tile), s.insts[s.focus.inst]? = some x → x.tiles[s.focus.tile]? = some t → ∀ (slot : BitVec 4) (ord : ℕ) (va :
    W64), t.place = Place.running → t.mxe.work = [(ord, MxWork.fill slot va)] → t.mxe.earlier slot.toNat ord = false →
    let y := t.mxe.slots[slot.toNat];
    y.unread = [] → False) :=
  fun h => h (one (filling 768)) _ _ rfl rfl 15 0 0x40000000000000 rfl rfl (by decide) filledAll

theorem witness_Steps_fill : ¬
    (∀ (s : State) (x : Inst) (t : Tile), s.insts[s.focus.inst]? = some x → x.tiles[s.focus.tile]? = some t → ∀ (slot : BitVec 4) (ord : ℕ) (va :
    W64), t.place = Place.running → t.mxe.work = [(ord, MxWork.fill slot va)] → t.mxe.earlier slot.toNat ord = false →
    let y := t.mxe.slots[slot.toNat];
    ∀ (ps : ℕ → List (Loc × Size)) (bs : ℕ → List Byte) (s1 : ℕ → State), (∃ k ∈ y.unread, s.fillFree x slot (va + BitVec.ofNat 64 (8 * k)) = true)
    → (∀ k ∈ y.unread, s.fillFree x slot (va + BitVec.ofNat 64 (8 * k)) = true → s.checkRange s.focus.inst x.tag 2 AccKind.read false (va +
    BitVec.ofNat 64 (8 * k)) 8 8 = EAcc.ok (ps k) ∧ s.readPieces s.focus.inst s.focus.tile (whoFill slot) x.tag (ps k) = (ERead.bytes (bs k), s1
    k)) → False) :=
  fun h => h (one (filling 767)) _ _ rfl rfl 15 0 0x40000000000000 rfl rfl (by decide) (fun _ => [(.slice 0 6136, .b8)]) (fun _ => List.replicate 8
  0) (fun _ => one (filling 767)) ⟨767, filledLast ▸ List.mem_singleton.2 rfl, rfl⟩
  (by intro k hk _; rw [filledLast] at hk; cases List.mem_singleton.1 hk; exact ⟨rfl, rfl⟩)

/-! #### StreamControl -/

theorem witness_Stream_sdef : ¬
    (∀ (s : State) (x : Inst) (t : Tile) (st : BitVec 4), s.insts[s.focus.inst]? = some x → x.tiles[s.focus.tile]? = some t → t.place =
    Place.running →
    let y := t.streamAt st;
    ∀ (c : StrCmd) (rest : List StrCmd), y.queue = c :: rest → y.st ≠ StrState.running → y.walk.skip = false → (y.st = StrState.faulted → ∀ p ∈
    t.seq.pend.streams, p.1 ≠ st) → ∀ (d : Rec64), c = StrCmd.sdef d → False) :=
  fun h => h (str (fun y => { y with queue := [.sdef dRead] }) id) _ _ 15 rfl rfl rfl _ [] rfl (by decide) rfl (by decide) _ rfl

theorem witness_Stream_sgo : ¬
    (∀ (s : State) (x : Inst) (t : Tile) (st : BitVec 4), s.insts[s.focus.inst]? = some x → x.tiles[s.focus.tile]? = some t → t.place =
    Place.running →
    let y := t.streamAt st;
    ∀ (c : StrCmd) (rest : List StrCmd), y.queue = c :: rest → y.st ≠ StrState.running → y.walk.skip = false → (y.st = StrState.faulted → ∀ p ∈
    t.seq.pend.streams, p.1 ≠ st) → c = StrCmd.sgo → y.st = StrState.defined → t.sdFault y.desc = none → False) :=
  fun h => h (str (fun y => { y with st := .defined, desc := dRead, queue := [.sgo] }) id) _ _ 15 rfl rfl rfl _ [] rfl (by decide) rfl (by decide)
  rfl rfl rfl

theorem witness_Stream_sgoBad : ¬
    (∀ (s : State) (x : Inst) (t : Tile) (st : BitVec 4), s.insts[s.focus.inst]? = some x → x.tiles[s.focus.tile]? = some t → t.place =
    Place.running →
    let y := t.streamAt st;
    ∀ (c : StrCmd) (rest : List StrCmd), y.queue = c :: rest → y.st ≠ StrState.running → y.walk.skip = false → (y.st = StrState.faulted → ∀ p ∈
    t.seq.pend.streams, p.1 ≠ st) → ∀ (code : Byte), c = StrCmd.sgo → y.st ≠ StrState.defined ∧ code = 1 ∨ y.st = StrState.defined ∧ t.sdFault
    y.desc = some code → t.seq.finished = false → False) :=
  fun h => h (str (fun y => { y with st := .defined, queue := [.sgo] }) id) _ _ 15 rfl rfl rfl _ [] rfl (by decide) rfl (by decide) 0x01 rfl
  (Or.inr ⟨rfl, rfl⟩) rfl

theorem witness_Stream_sgoEmpty : ¬
    (∀ (s : State) (x : Inst) (t : Tile) (st : BitVec 4), s.insts[s.focus.inst]? = some x → x.tiles[s.focus.tile]? = some t → t.place =
    Place.running →
    let y := t.streamAt st;
    ∀ (c : StrCmd) (rest : List StrCmd), y.queue = c :: rest → y.st ≠ StrState.running → y.walk.skip = false → (y.st = StrState.faulted → ∀ p ∈
    t.seq.pend.streams, p.1 ≠ st) → ∀ (code : Byte), c = StrCmd.sgo → y.st ≠ StrState.defined ∧ code = 1 ∨ y.st = StrState.defined ∧ t.sdFault
    y.desc = some code → t.seq.finished = false → False) :=
  fun h => h (str (fun y => { y with queue := [.sgo] }) id) _ _ 15 rfl rfl rfl _ [] rfl (by decide) rfl (by decide) 0x01 rfl (Or.inl ⟨by decide,
  rfl⟩) rfl

theorem witness_Stream_stop : ¬
    (∀ (s : State) (x : Inst) (t : Tile) (st : BitVec 4), s.insts[s.focus.inst]? = some x → x.tiles[s.focus.tile]? = some t → t.place =
    Place.running →
    let y := t.streamAt st;
    y.stopping = true → s.accessesOut x.tag s.focus.inst s.focus.tile (whoStream st) = false → s.askFailed x.tag s.focus.inst s.focus.tile
    (whoStream st) = none → False) :=
  fun h => h (str (fun y => { y with st := .running, stopping := true }) id) _ _ 15 rfl rfl rfl rfl rfl rfl

theorem witness_Stream_stopFails : ¬
    (∀ (s : State) (x : Inst) (t : Tile) (st : BitVec 4), s.insts[s.focus.inst]? = some x → x.tiles[s.focus.tile]? = some t → t.place =
    Place.running →
    let y := t.streamAt st;
    y.stopping = true → s.accessesOut x.tag s.focus.inst s.focus.tile (whoStream st) = false → ∀ (code : Byte) (k : BitVec 5) (va : W64),
    s.askFailed x.tag s.focus.inst s.focus.tile (whoStream st) = some (code, k, va) → t.seq.finished = false → False) :=
  fun h => h (pkgOf ctxRefused (inst [(tile 0).modStream 15 fun y => { y with st := .running, stopping := true }])) _ _ 15 rfl rfl rfl rfl rfl 0x12
  31 0x10 rfl rfl

theorem witness_Stream_complete : ¬
    (∀ (s : State) (x : Inst) (t : Tile) (st : BitVec 4), s.insts[s.focus.inst]? = some x → x.tiles[s.focus.tile]? = some t → t.place =
    Place.running →
    let y := t.streamAt st;
    y.st = StrState.running → y.stopping = false → y.walk.walkDone = true → y.walk.frameDone = false → y.walk.tokenDue = false → BitVec.getLsbD
    y.desc 17 = false → False) :=
  fun h => h (str (runs dRead fun w => { w with walkDone := true }) id) _ _ 15 rfl rfl rfl rfl rfl rfl rfl rfl rfl

theorem witness_Stream_completeSem : ¬
    (∀ (s : State) (x : Inst) (t : Tile) (st : BitVec 4), s.insts[s.focus.inst]? = some x → x.tiles[s.focus.tile]? = some t → t.place =
    Place.running →
    let y := t.streamAt st;
    y.st = StrState.running → y.stopping = false → y.walk.walkDone = true → y.walk.frameDone = false → y.walk.tokenDue = false → ∀ (k : BitVec 6),
    BitVec.getLsbD y.desc 17 = true → k = BitVec.extractLsb' 10 6 y.desc → t.sem[k.toNat].toNat < 65535 → False) :=
  fun h => h (str (runs 0x1000010000100400000000000000b0000000006fc00 fun w => { w with walkDone := true }) fun t =>
  { t with sem := Vector.replicate 64 0xFFFE }) _ _ 15 rfl rfl rfl rfl rfl rfl rfl rfl 63 rfl rfl (by decide)

theorem witness_Stream_frameRead : ¬
    (∀ (s : State) (x : Inst) (t : Tile) (st : BitVec 4), s.insts[s.focus.inst]? = some x → x.tiles[s.focus.tile]? = some t → t.place =
    Place.running →
    let y := t.streamAt st;
    let d := y.desc;
    y.st = StrState.running → y.stopping = false → y.walk.frameDone = true → s.storesOut x.tag s.focus.inst s.focus.tile (whoStream st) = false →
    sdRead d = true → sdPortEnd d = false → (t.chanAt (sdChan d)).producer = 2 → (t.chanAt (sdChan d)).entries.length < 2 → False) :=
  fun h => h (str (runs dRead fun w => { w with frameDone := true, beat := [7] }) (bindCh 0 2 3 1)) _ _ 15 rfl rfl rfl rfl rfl rfl rfl rfl rfl rfl
  (by decide)

theorem witness_Stream_frameWrite : ¬
    (∀ (s : State) (x : Inst) (t : Tile) (st : BitVec 4), s.insts[s.focus.inst]? = some x → x.tiles[s.focus.tile]? = some t → t.place =
    Place.running →
    let y := t.streamAt st;
    let d := y.desc;
    y.st = StrState.running → y.stopping = false → y.walk.frameDone = true → s.storesOut x.tag s.focus.inst s.focus.tile (whoStream st) = false →
    sdRead d = false → sdFe d = false → False) :=
  fun h => h (str (runs dWrite fun w => { w with frameDone := true }) id) _ _ 15 rfl rfl rfl rfl rfl rfl rfl rfl rfl

theorem witness_Stream_frameFull : ¬
    (∀ (s : State) (x : Inst) (t : Tile) (st : BitVec 4), s.insts[s.focus.inst]? = some x → x.tiles[s.focus.tile]? = some t → t.place =
    Place.running →
    let y := t.streamAt st;
    let d := y.desc;
    y.st = StrState.running → y.stopping = false → y.walk.frameDone = true → s.storesOut x.tag s.focus.inst s.focus.tile (whoStream st) = false →
    sdRead d = false → sdFe d = true → (∀ g ∈ y.walk.wrote, s.markFree s.focus.inst g = true) → False) :=
  fun h => h (str (runs 0x1000010000100400000000000003b00000000040000 fun w => { w with frameDone := true, wrote := [(0, 5)] }) id) _ _ 15 rfl rfl
  rfl rfl rfl rfl rfl rfl rfl (by decide)

theorem witness_Stream_frameToken : ¬
    (∀ (s : State) (x : Inst) (t : Tile) (st : BitVec 4), s.insts[s.focus.inst]? = some x → x.tiles[s.focus.tile]? = some t → t.place =
    Place.running →
    let y := t.streamAt st;
    let d := y.desc;
    y.st = StrState.running → y.stopping = false → y.walk.frameDone = false → y.walk.tokenDue = true → t.fifoAt 2 (sdPush d) ≠ 15 → False) :=
  fun h => h (str (runs 0x1000010000100400000000000000b00c00000040000 fun w => { w with tokenDue := true }) fun t =>
  { t with fifo := Vector.replicate 30 14 }) _ _ 15 rfl rfl rfl rfl rfl rfl rfl (by decide)

/-! #### StreamWalks -/

theorem witness_Walks_pop : ¬
    (∀ (s : State) (x : Inst) (t : Tile) (st : BitVec 4), s.insts[s.focus.inst]? = some x → x.tiles[s.focus.tile]? = some t → t.streamReady st =
    true → (t.streamAt st).walk.skip = false →
    let y := t.streamAt st;
    let d := y.desc;
    let span := BitVec.toNat (sdWord d) % 2 ^ 16;
    let plain := sdKind d < 2 ∨ sdKind d = 2 ∧ y.walk.j ≠ span;
    y.walk.popped = false → plain → sdPop d ≠ 0 → t.fifoAt (sdPop d) 2 ≠ 0 → False) :=
  fun h => h (str (fun y => { y with st := .running, desc := 0x1000010000100400000000000000b00040000040000 }) fun t =>
  { t with fifo := Vector.replicate 30 1 }) _ _ 15 rfl rfl rfl rfl rfl (by decide) (by decide) (by decide)

theorem witness_Walks_read : ¬
    (∀ (s : State) (x : Inst) (t : Tile) (st : BitVec 4), s.insts[s.focus.inst]? = some x → x.tiles[s.focus.tile]? = some t → t.streamReady st =
    true → (t.streamAt st).walk.skip = false →
    let y := t.streamAt st;
    let d := y.desc;
    let n := y.walk.n;
    let size := unitBytes (sdFmt d);
    let per := 768 / size;
    let span := BitVec.toNat (sdWord d) % 2 ^ 16;
    let place := fun i => sdBase d + BitVec.ofNat 64 (n / sdCount d 0 / sdCount d 1) * sdStride d 2 + BitVec.ofNat 64 (n / sdCount d 0 % sdCount d
        1) * sdStride d 1 + i * sdStride d 0;
    let unitAt := fun va => sdKind d = 0 ∧ va = place (BitVec.ofNat 64 (n % sdCount d 0)) ∨ (sdKind d = 1 ∧ s.indexAhead x st y = none ∧ ∃ v l,
        y.walk.ahead = v :: l ∧ va = place v) ∨ sdKind d = 2 ∧ y.walk.j ≠ span ∧ va = y.walk.node + BitVec.ofNat 64 (y.walk.j * size);
    ∀ (va : W64) (ps : List (Loc × Size)) (bs : List Byte) (s1 : State), y.walk.popped = true → sdRead d = true → sdFe d = false →
    y.walk.beat.length ≠ per → unitAt va → s.checkRange s.focus.inst x.tag 2 AccKind.read false va size (unitAlign (sdFmt d)) = EAcc.ok ps →
    s.readPieces s.focus.inst s.focus.tile (whoStream st) x.tag ps = (ERead.bytes bs, s1) → False) :=
  fun h => h (str (runs dRead id) fun t => { t with slice := ⟨[(0, 5), (3, 0x80)]⟩ }) _ _ 15 rfl rfl rfl rfl _ _ _ _ rfl rfl rfl (by decide)
  (Or.inl ⟨rfl, rfl⟩) rfl rfl

theorem witness_Walks_readIndirect : ¬
    (∀ (s : State) (x : Inst) (t : Tile) (st : BitVec 4), s.insts[s.focus.inst]? = some x → x.tiles[s.focus.tile]? = some t → t.streamReady st =
    true → (t.streamAt st).walk.skip = false →
    let y := t.streamAt st;
    let d := y.desc;
    let n := y.walk.n;
    let size := unitBytes (sdFmt d);
    let per := 768 / size;
    let span := BitVec.toNat (sdWord d) % 2 ^ 16;
    let place := fun i => sdBase d + BitVec.ofNat 64 (n / sdCount d 0 / sdCount d 1) * sdStride d 2 + BitVec.ofNat 64 (n / sdCount d 0 % sdCount d
        1) * sdStride d 1 + i * sdStride d 0;
    let unitAt := fun va => sdKind d = 0 ∧ va = place (BitVec.ofNat 64 (n % sdCount d 0)) ∨ (sdKind d = 1 ∧ s.indexAhead x st y = none ∧ ∃ v l,
        y.walk.ahead = v :: l ∧ va = place v) ∨ sdKind d = 2 ∧ y.walk.j ≠ span ∧ va = y.walk.node + BitVec.ofNat 64 (y.walk.j * size);
    ∀ (va : W64) (ps : List (Loc × Size)) (bs : List Byte) (s1 : State), y.walk.popped = true → sdRead d = true → sdFe d = false →
    y.walk.beat.length ≠ per → unitAt va → s.checkRange s.focus.inst x.tag 2 AccKind.read false va size (unitAlign (sdFmt d)) = EAcc.ok ps →
    s.readPieces s.focus.inst s.focus.tile (whoStream st) x.tag ps = (ERead.bytes bs, s1) → False) :=
  fun h => h (str (runs dIndirect fun w => { w with ahead := [4] }) fun t => { t with slice := ⟨[(16, 5), (19, 0x80)]⟩ }) _ _ 15 rfl rfl rfl rfl _
  _ _ _ rfl rfl rfl (by decide) (Or.inr (Or.inl ⟨rfl, rfl, _, _, rfl, rfl⟩)) rfl rfl

theorem witness_Walks_readLinked : ¬
    (∀ (s : State) (x : Inst) (t : Tile) (st : BitVec 4), s.insts[s.focus.inst]? = some x → x.tiles[s.focus.tile]? = some t → t.streamReady st =
    true → (t.streamAt st).walk.skip = false →
    let y := t.streamAt st;
    let d := y.desc;
    let n := y.walk.n;
    let size := unitBytes (sdFmt d);
    let per := 768 / size;
    let span := BitVec.toNat (sdWord d) % 2 ^ 16;
    let place := fun i => sdBase d + BitVec.ofNat 64 (n / sdCount d 0 / sdCount d 1) * sdStride d 2 + BitVec.ofNat 64 (n / sdCount d 0 % sdCount d
        1) * sdStride d 1 + i * sdStride d 0;
    let unitAt := fun va => sdKind d = 0 ∧ va = place (BitVec.ofNat 64 (n % sdCount d 0)) ∨ (sdKind d = 1 ∧ s.indexAhead x st y = none ∧ ∃ v l,
        y.walk.ahead = v :: l ∧ va = place v) ∨ sdKind d = 2 ∧ y.walk.j ≠ span ∧ va = y.walk.node + BitVec.ofNat 64 (y.walk.j * size);
    ∀ (va : W64) (ps : List (Loc × Size)) (bs : List Byte) (s1 : State), y.walk.popped = true → sdRead d = true → sdFe d = false →
    y.walk.beat.length ≠ per → unitAt va → s.checkRange s.focus.inst x.tag 2 AccKind.read false va size (unitAlign (sdFmt d)) = EAcc.ok ps →
    s.readPieces s.focus.inst s.focus.tile (whoStream st) x.tag ps = (ERead.bytes bs, s1) → False) :=
  fun h => h (str (runs dLinked fun w => { w with j := 1 }) fun t => { t with slice := ⟨[(4, 5), (7, 0x80)]⟩ }) _ _ 15 rfl rfl rfl rfl _ _ _ _ rfl
  rfl rfl (by decide) (Or.inr (Or.inr ⟨rfl, by decide, rfl⟩)) rfl rfl

theorem witness_Walks_index : ¬
    (∀ (s : State) (x : Inst) (t : Tile) (st : BitVec 4), s.insts[s.focus.inst]? = some x → x.tiles[s.focus.tile]? = some t → t.streamReady st =
    true → (t.streamAt st).walk.skip = false →
    let y := t.streamAt st;
    let d := y.desc;
    let n := y.walk.n;
    let size := unitBytes (sdFmt d);
    let per := 768 / size;
    ∀ (ps : List (Loc × Size)) (bs : List Byte) (s1 : State), y.walk.popped = true → sdKind d = 1 → sdFe d = false → y.walk.ahead = [] → n <
    sdCount d 0 * sdCount d 1 * sdCount d 2 → (if sdRead d = true then y.walk.beat.length ≠ per else y.walk.beat ≠ []) →
    let f := BitVec.extractLsb' 60 4 (sdWord d);
    s.checkRange s.focus.inst x.tag 2 AccKind.read false (sdAux d + BitVec.ofNat 64 (n * unitBytes f)) (unitBytes f) (unitBytes f) = EAcc.ok ps →
    s.readPieces s.focus.inst s.focus.tile (whoStream st) x.tag ps = (ERead.bytes bs, s1) → False) :=
  fun h => h (str (runs dIndirect id) fun t => { t with slice := ⟨[(256, 0xFC), (257, 0xFF), (258, 0xFF), (259, 0xFF)]⟩ }) _ _ 15 rfl rfl rfl rfl _
  _ _ rfl rfl rfl rfl (by decide) (by decide) rfl rfl

theorem witness_Walks_next : ¬
    (∀ (s : State) (x : Inst) (t : Tile) (st : BitVec 4), s.insts[s.focus.inst]? = some x → x.tiles[s.focus.tile]? = some t → t.streamReady st =
    true → (t.streamAt st).walk.skip = false →
    let y := t.streamAt st;
    let d := y.desc;
    let span := BitVec.toNat (sdWord d) % 2 ^ 16;
    ∀ (ps : List (Loc × Size)) (bs : List Byte) (s1 : State), sdKind d = 2 → y.walk.j = span → sdFe d = false →
    let va := y.walk.node + BitVec.signExtend 64 (BitVec.extractLsb' 16 16 (sdWord d));
    s.checkRange s.focus.inst x.tag 2 AccKind.read false va 8 8 = EAcc.ok ps → s.overtakes x.tag s.focus.inst s.focus.tile (whoStream st) ps =
    false → s.readPieces s.focus.inst s.focus.tile (whoStream st) x.tag ps = (ERead.bytes bs, s1) → False) :=
  fun h => h (str (runs dLinked fun w => { w with j := 2 }) fun t => { t with slice := ⟨[(8, 0x40), (14, 0x40)]⟩ }) _ _ 15 rfl rfl rfl rfl _ _ _
  rfl rfl rfl rfl rfl rfl

theorem witness_Walks_last : ¬
    (∀ (s : State) (x : Inst) (t : Tile) (st : BitVec 4), s.insts[s.focus.inst]? = some x → x.tiles[s.focus.tile]? = some t → t.streamReady st =
    true → (t.streamAt st).walk.skip = false →
    let y := t.streamAt st;
    let d := y.desc;
    let span := BitVec.toNat (sdWord d) % 2 ^ 16;
    ∀ (ps : List (Loc × Size)) (bs : List Byte) (s1 : State), sdKind d = 2 → y.walk.j = span → sdFe d = false →
    let va := y.walk.node + BitVec.signExtend 64 (BitVec.extractLsb' 16 16 (sdWord d));
    s.checkRange s.focus.inst x.tag 2 AccKind.read false va 8 8 = EAcc.ok ps → s.overtakes x.tag s.focus.inst s.focus.tile (whoStream st) ps =
    false → s.readPieces s.focus.inst s.focus.tile (whoStream st) x.tag ps = (ERead.bytes bs, s1) → False) :=
  fun h => h (str (runs dLinked fun w => { w with n := 2, j := 2 }) id) _ _ 15 rfl rfl rfl rfl _ _ _ rfl rfl rfl rfl rfl rfl

theorem witness_Walks_send : ¬
    (∀ (s : State) (x : Inst) (t : Tile) (st : BitVec 4), s.insts[s.focus.inst]? = some x → x.tiles[s.focus.tile]? = some t → t.streamReady st =
    true → (t.streamAt st).walk.skip = false →
    let y := t.streamAt st;
    let d := y.desc;
    let size := unitBytes (sdFmt d);
    let per := 768 / size;
    let span := BitVec.toNat (sdWord d) % 2 ^ 16;
    let plain := sdKind d < 2 ∨ sdKind d = 2 ∧ y.walk.j ≠ span;
    y.walk.popped = true → plain → sdRead d = true → y.walk.beat.length = per → sdPortEnd d = false → (t.chanAt (sdChan d)).producer = 2 →
    (t.chanAt (sdChan d)).entries.length < 2 → False) :=
  fun h => h (str (runs 0x100001000c800400000000000000b00000000080000 fun w => { w with beat := List.replicate 192 7 }) (bindCh 0 2 3 1)) _ _ 15
  rfl rfl rfl rfl rfl (Or.inl (by decide)) rfl rfl rfl rfl (by decide)

theorem witness_Walks_take : ¬
    (∀ (s : State) (x : Inst) (t : Tile) (st : BitVec 4), s.insts[s.focus.inst]? = some x → x.tiles[s.focus.tile]? = some t → t.streamReady st =
    true → (t.streamAt st).walk.skip = false →
    let y := t.streamAt st;
    let d := y.desc;
    let n := y.walk.n;
    let size := unitBytes (sdFmt d);
    let per := 768 / size;
    let span := BitVec.toNat (sdWord d) % 2 ^ 16;
    let plain := sdKind d < 2 ∨ sdKind d = 2 ∧ y.walk.j ≠ span;
    ∀ (b : ChanEntry) (rest : List ChanEntry), y.walk.popped = true → plain → (sdKind d = 2 → y.walk.sawEnd = false ∨ n % sdFrame d = 0) → sdRead d
    = false → y.walk.beat = [] → sdPortEnd d = false → (t.chanAt (sdChan d)).consumer = 2 → (t.chanAt (sdChan d)).entries = b :: rest →
    let k := (if n % sdFrame d = 0 then 0 else y.walk.beats) + 1;
    b.last = decide (k = (y.frameSize + per - 1) / per) → False) :=
  fun h => h (str (runs dWrite id) (bindCh 0 3 2 1)) _ _ 15 rfl rfl rfl rfl _ [] rfl (Or.inl (by decide)) (fun h => absurd h (by decide)) rfl rfl
  rfl rfl rfl rfl

theorem witness_Walks_write : ¬
    (∀ (s : State) (x : Inst) (t : Tile) (st : BitVec 4), s.insts[s.focus.inst]? = some x → x.tiles[s.focus.tile]? = some t → t.streamReady st =
    true → (t.streamAt st).walk.skip = false →
    let y := t.streamAt st;
    let d := y.desc;
    let n := y.walk.n;
    let size := unitBytes (sdFmt d);
    let span := BitVec.toNat (sdWord d) % 2 ^ 16;
    let place := fun i => sdBase d + BitVec.ofNat 64 (n / sdCount d 0 / sdCount d 1) * sdStride d 2 + BitVec.ofNat 64 (n / sdCount d 0 % sdCount d
        1) * sdStride d 1 + i * sdStride d 0;
    let unitAt := fun va => sdKind d = 0 ∧ va = place (BitVec.ofNat 64 (n % sdCount d 0)) ∨ (sdKind d = 1 ∧ s.indexAhead x st y = none ∧ ∃ v l,
        y.walk.ahead = v :: l ∧ va = place v) ∨ sdKind d = 2 ∧ y.walk.j ≠ span ∧ va = y.walk.node + BitVec.ofNat 64 (y.walk.j * size);
    ∀ (va : W64) (u : BitVec 144) (rest : List (BitVec 144)) (l : Loc) (z : Size), y.walk.popped = true → sdRead d = false → y.walk.beat = u ::
    rest → s.canonical = true → unitAt va → s.checkRange s.focus.inst x.tag 2 AccKind.write (sdFe d) va size (unitAlign (sdFmt d)) = EAcc.ok [(l,
    z)] → z.bytes = size → s.writeHeld s.focus.inst [(l, z)] = false → s.homeHere s.focus.inst l → s.overtakes x.tag s.focus.inst s.focus.tile
    (whoStream st) [(l, z)] = false → False) :=
  fun h => h (str (runs dWrite fun w => { w with beat := [0x1FFFFFFFF] }) id) _ _ 15 rfl rfl rfl rfl _ _ [] (.slice 0 0) .b4 rfl rfl rfl rfl
  (Or.inl ⟨rfl, rfl⟩) rfl rfl rfl rfl rfl

theorem witness_Walks_gather : ¬
    (∀ (s : State) (x : Inst) (t : Tile) (st : BitVec 4), s.insts[s.focus.inst]? = some x → x.tiles[s.focus.tile]? = some t → t.streamReady st =
    true → (t.streamAt st).walk.skip = false →
    let y := t.streamAt st;
    let d := y.desc;
    let n := y.walk.n;
    let size := unitBytes (sdFmt d);
    let per := 768 / size;
    ∀ (g : Rec64), sdKind d = 3 → sdRead d = true → sdFe d = false → y.walk.gather = some g →
    let w := bitsAt g 128 32 / size;
    let row := n / w;
    ∀ (ps : List (Loc × Size)) (bs : List Byte) (s1 : State), y.walk.popped = true → y.walk.beat.length ≠ per → y.walk.ahead = [] → y.walk.row = []
    →
    let f := BitVec.extractLsb' 220 4 g;
    let va := BitVec.extractLsb' 0 64 g + BitVec.ofNat 64 (row * unitBytes f);
    BitVec.getLsbD va 54 = false → s.checkRange s.focus.inst x.tag 2 AccKind.gather false va (unitBytes f) (unitBytes f) = EAcc.ok ps →
    s.readPieces s.focus.inst s.focus.tile (whoStream st) x.tag ps = (ERead.bytes bs, s1) → False) :=
  fun h => h (str (runs dGather fun w => { w with gather := some gDesc }) id) _ _ 15 rfl rfl rfl rfl _ rfl rfl rfl rfl [(.hbm 10485760, .b4)] _ _
  rfl (by decide) rfl rfl rfl rfl rfl

theorem witness_Walks_gatherRow : ¬
    (∀ (s : State) (x : Inst) (t : Tile) (st : BitVec 4), s.insts[s.focus.inst]? = some x → x.tiles[s.focus.tile]? = some t → t.streamReady st =
    true → (t.streamAt st).walk.skip = false →
    let y := t.streamAt st;
    let d := y.desc;
    let n := y.walk.n;
    let size := unitBytes (sdFmt d);
    ∀ (g : Rec64), sdKind d = 3 → sdRead d = true → sdFe d = false → y.walk.gather = some g →
    let w := bitsAt g 128 32 / size;
    let here := n % w + y.walk.row.length;
    ∀ (v : W64) (ps : List (Loc × Size)) (bs : List Byte) (s1 : State), y.walk.ahead = [v] → here < w → sdPop d = 0 ∨ n % sdFrame d +
    y.walk.row.length < y.frameSize → s.checkRange s.focus.inst x.tag 2 AccKind.gather false (BitVec.extractLsb' 64 64 g + v * BitVec.setWidth 64
    (BitVec.extractLsb' 160 32 g) + BitVec.ofNat 64 (here * size)) size (unitAlign (sdFmt d)) = EAcc.ok ps → (∀ p ∈ ps, (∃ o, p.1 = Loc.hbm o) ∨ ∃
    o, p.1 = Loc.host o) → s.readPieces s.focus.inst s.focus.tile (whoStream st) x.tag ps = (ERead.bytes bs, s1) → False) :=
  fun h => h (str (runs dGather fun w => { w with ahead := [0], gather := some gDesc }) id) _ _ 15 rfl rfl rfl rfl _ rfl rfl rfl rfl 0 [(.host 0,
  .b4)] _ _ rfl (by decide) (Or.inl rfl) rfl (by simp) rfl

theorem witness_Walks_gathered : ¬
    (∀ (s : State) (x : Inst) (t : Tile) (st : BitVec 4), s.insts[s.focus.inst]? = some x → x.tiles[s.focus.tile]? = some t → t.streamReady st =
    true → (t.streamAt st).walk.skip = false →
    let y := t.streamAt st;
    let d := y.desc;
    let n := y.walk.n;
    let size := unitBytes (sdFmt d);
    let per := 768 / size;
    ∀ (g : Rec64), sdKind d = 3 → sdRead d = true → sdFe d = false → y.walk.gather = some g →
    let w := bitsAt g 128 32 / size;
    let here := n % w + y.walk.row.length;
    ∀ (v : W64) (u : BitVec 144) (us : List (BitVec 144)), y.walk.popped = true → y.walk.beat.length ≠ per → y.walk.ahead = [v] → y.walk.row = u ::
    us → w ≤ here → False) :=
  fun h => h (str (runs dGather fun w => { w with ahead := [0], row := [7], gather := some gDesc }) id) _ _ 15 rfl rfl rfl rfl _ rfl rfl rfl rfl 0
  7 [] rfl (by decide) rfl rfl (by decide)

/-! #### VirtualChannels -/

theorem witness_Vc_grant : ¬
    (∀ (s : State) (x : Inst) (t : Tile) (port : BitVec 2) (vc : BitVec 5), s.insts[s.focus.inst]? = some x → x.tiles[s.focus.tile]? = some t →
    let v := t.vcAt port vc;
    ∀ (n : ℕ), vcValid v.entry = true → vcOut v.entry = false → n = x.vcDemand s.focus.tile t port vc - (v.granted + v.arrived.length) → n ≠ 0 →
    port ≠ 3 ∨ vc.toNat < 16 → False) :=
  fun h => h (one fun t => ((bindCh 4 2 3 0 t).modChan 4 fun c => { c with link := some (3, 15) }).modVc 3 15 fun v =>
  { v with entry := 0xb0000000007e0003, granted := 1 }) _ _ 3 15 rfl rfl _ rfl rfl rfl (by decide) (Or.inr (by decide))

theorem witness_Vc_send : ¬
    (∀ (s : State) (x : Inst) (t : Tile) (port : BitVec 2) (vc : BitVec 5), s.insts[s.focus.inst]? = some x → x.tiles[s.focus.tile]? = some t →
    let v := t.vcAt port vc;
    ∀ (fmt : BitVec 4) (u : LinkUnit) (rest : List (BitVec 4 × LinkUnit)) (c : W64 × W32) (y : Tile), t.place = Place.running → v.ready = (fmt, u)
    :: rest → v.cur = some c → vcRoute c.1 = 0 → s.routeDead x.tag t.phys (some y.phys) = false → localVc (vcDport c.1) (vcDvc c.1) = true →
    x.tiles[(vcDest c.1).toNat]? = some y → y.seq.finished = false → (y.vcAt (vcDport c.1) (vcDvc c.1)).granted ≠ 0 → False) :=
  fun h => h (two (fun t => t.modVc 0 0 fun v => { v with ready := [(0xB, ⟨7, 1, true, false⟩)], cur := some (0xb80000005f800003, 0) }) (fun t =>
  t.modVc 3 15 fun v => { v with granted := 1 })) _ _ 0 0 rfl rfl _ _ [] _ _ rfl rfl rfl rfl
  (by unfold State.routeDead; split <;> first | rfl | (rename_i c r hc hr; cases (show some ctx = some c from hc); rfl)) rfl rfl rfl (by decide)

theorem witness_Vc_demand : ¬
    (∀ (s : State) (x : Inst) (t : Tile) (port : BitVec 2) (vc : BitVec 5), s.insts[s.focus.inst]? = some x → x.tiles[s.focus.tile]? = some t →
    let v := t.vcAt port vc;
    (∀ f ∈ x.feedFmts s.focus.tile t port vc, unitSpread f (vcFmt v.entry) = 1) → t.seq.finished = false → 0 < t.vcRoom port vc → False) :=
  fun h => h (one fun t => ((bindCh 4 2 3 0 t).modChan 4 fun c => { c with link := some (3, 15) }).modVc 3 15 fun v =>
  { v with entry := 0xb0000000007e0003 }) _ _ 3 15 rfl rfl (by decide) rfl (by decide)

theorem witness_Vc_undelivered : ¬
    (∀ (s : State) (x : Inst) (t : Tile) (port : BitVec 2) (vc : BitVec 5), s.insts[s.focus.inst]? = some x → x.tiles[s.focus.tile]? = some t →
    let v := t.vcAt port vc;
    ∀ (fmt : BitVec 4) (u : LinkUnit) (rest : List (BitVec 4 × LinkUnit)) (c : W64 × W32), t.place = Place.running → v.ready = (fmt, u) :: rest →
    v.cur = some c → vcRoute c.1 = 0 → vcDport c.1 = 3 → 16 ≤ (vcDvc c.1).toNat → False) :=
  fun h => h (two (fun t => t.modVc 0 0 fun v => { v with ready := [(0xB, ⟨7, 1, true, false⟩)], cur := some (0xb80000007f800003, 0) }) id) _ _ 0 0
  rfl rfl _ _ [] _ rfl rfl rfl rfl rfl (by decide)

theorem witness_Vc_filterIn : ¬
    (∀ (s : State) (x : Inst) (t : Tile) (port : BitVec 2) (vc : BitVec 5), s.insts[s.focus.inst]? = some x → x.tiles[s.focus.tile]? = some t →
    let v := t.vcAt port vc;
    ∀ (c : W64 × W32), t.place = Place.running → v.ready = [] → v.cur = some c → v.pend ≠ [] → False) :=
  fun h => h (one fun t => t.modVc 0 0 fun v => { v with pend := [⟨7, 1, true, false⟩], cur := some (0xb87f000000000003, 0) }) _ _ 0 0 rfl rfl _
  rfl rfl rfl (by simp [Tile.vcAt, Tile.modVc, tile, Tile.blank]; try decide)

theorem witness_Vc_beat : ¬
    (∀ (s : State) (x : Inst) (t : Tile) (port : BitVec 2) (vc : BitVec 5), s.insts[s.focus.inst]? = some x → x.tiles[s.focus.tile]? = some t →
    let v := t.vcAt port vc;
    ∀ (k : ℕ) (b : ChanEntry) (rest : List ChanEntry), t.place = Place.running → v.ready = [] → v.pend = [] → v.filt = [] → v.sent = 0 → vcValid
    v.entry = true → vcOut v.entry = true → t.linkedChan port vc true = some k → (t.chanAt k).entries = b :: rest → False) :=
  fun h => h (one fun t => ((bindCh 4 3 2 1 t).modChan 4 fun c => { c with link := some (0, 0) }).modVc 0 0 fun v =>
  { v with entry := 0xb800000000000003 }) _ _ 0 0 rfl rfl 4 _ [] rfl rfl rfl rfl rfl rfl rfl rfl rfl

theorem witness_Vc_convert : ¬
    (∀ (s : State) (x : Inst) (t : Tile) (port : BitVec 2) (vc : BitVec 5), s.insts[s.focus.inst]? = some x → x.tiles[s.focus.tile]? = some t →
    let v := t.vcAt port vc;
    ∀ (e : W64) (k : W32) (f : Machine.Filter), v.cur = some (e, k) → t.filterOf port vc e = some f → (v.filt.any fun x => x.last) = true → f.kind
    = 1 → False) :=
  fun h => h (one fun t => { t.modVc 0 0 fun v => { v with filt := [⟨7, 1, true, false⟩], cur := some (0xb801000000000003, 0x3F800000) } with
  filters := [⟨0, 0, 1, 1, 0xC, true⟩] }) _ _ 0 0 rfl rfl _ _ _ rfl rfl rfl rfl

theorem witness_Vc_zeros : ¬
    (∀ (s : State) (x : Inst) (t : Tile) (port : BitVec 2) (vc : BitVec 5), s.insts[s.focus.inst]? = some x → x.tiles[s.focus.tile]? = some t →
    let v := t.vcAt port vc;
    ∀ (e : W64) (k : W32) (f : Machine.Filter), v.cur = some (e, k) → t.filterOf port vc e = some f → (v.filt.any fun x => x.last) = true → f.kind
    = 2 → False) :=
  fun h => h (one fun t => { t.modVc 0 0 fun v =>
  { v with filt := [⟨0, 1, false, false⟩, ⟨7, 1, true, false⟩], cur := some (0xb801000000000003, 0x3F800000) } with filters := [⟨0, 0, 1, 2, 0,
  true⟩] }) _ _ 0 0 rfl rfl _ _ _ rfl rfl rfl rfl

theorem witness_Vc_transpose : ¬
    (∀ (s : State) (x : Inst) (t : Tile) (port : BitVec 2) (vc : BitVec 5), s.insts[s.focus.inst]? = some x → x.tiles[s.focus.tile]? = some t →
    let v := t.vcAt port vc;
    ∀ (e : W64) (k : W32) (f : Machine.Filter), v.cur = some (e, k) → t.filterOf port vc e = some f → (v.filt.any fun x => x.last) = true →
    let us := List.map (fun x => x.bits) (List.filter (fun u => !u.void) v.filt);
    f.kind = 3 → us.length % 256 = 0 → False) :=
  fun h => h (one fun t => { t.modVc 0 0 fun v => { v with filt := [⟨0, 1, true, true⟩], cur := some (0xb801000000000003, 0x3F800000) } with
  filters := [⟨0, 0, 1, 3, 0, true⟩] }) _ _ 0 0 rfl rfl _ _ _ rfl rfl rfl rfl rfl

theorem witness_Vc_arrive : ¬
    (∀ (s : State) (x : Inst) (t : Tile) (port : BitVec 2) (vc : BitVec 5), s.insts[s.focus.inst]? = some x → x.tiles[s.focus.tile]? = some t →
    let v := t.vcAt port vc;
    ∀ (src : BitVec 4) (u : LinkUnit) (rest : List (BitVec 4 × LinkUnit)), t.seq.finished = false → t.place = Place.running → v.made = [] →
    v.arrived = (src, u) :: rest → v.pos = 0 → v.conv = [] → vcFmt v.entry = src → False) :=
  fun h => h (one fun t => t.modVc 0 0 fun v => { v with entry := 0xb000000000000005, arrived := [(0xB, ⟨7, 1, false, false⟩)] }) _ _ 0 0 rfl rfl _
  _ [] rfl rfl rfl rfl rfl rfl rfl

theorem witness_Vc_pack : ¬
    (∀ (s : State) (x : Inst) (t : Tile) (port : BitVec 2) (vc : BitVec 5), s.insts[s.focus.inst]? = some x → x.tiles[s.focus.tile]? = some t →
    let v := t.vcAt port vc;
    ∀ (e : W64) (c : W32) (u : LinkUnit) (us : List LinkUnit) (k : ℕ), t.seq.finished = false → t.place = Place.running → v.made = u :: us → u.void
    = false → v.inCur = some (e, c) → t.linkedChan port vc false = some k →
    let n := v.pos + 1;
    let units := v.pack ++ [u.bits];
    u.last = false → n < vcFrame e → units.length ≠ unitsPerBeat (vcFmt e) → False) :=
  fun h => h (one fun t => ((bindCh 4 2 3 1 t).modChan 4 fun c => { c with link := some (0, 0) }).modVc 0 0 fun v =>
  { v with inCur := some (0xb000000000000005, 0), made := [⟨7, 1, false, false⟩] }) _ _ 0 0 rfl rfl _ 0 _ [] 4 rfl rfl rfl rfl rfl rfl rfl
  (by decide) (by decide)

theorem witness_Vc_packLast : ¬
    (∀ (s : State) (x : Inst) (t : Tile) (port : BitVec 2) (vc : BitVec 5), s.insts[s.focus.inst]? = some x → x.tiles[s.focus.tile]? = some t →
    let v := t.vcAt port vc;
    ∀ (e : W64) (c : W32) (u : LinkUnit) (us : List LinkUnit) (k : ℕ), t.seq.finished = false → t.place = Place.running → v.made = u :: us → u.void
    = false → v.inCur = some (e, c) → t.linkedChan port vc false = some k →
    let n := v.pos + 1;
    let units := v.pack ++ [u.bits];
    ∀ (ends : Bool), ends = decide (vcFrame e = n) → (u.last = true → ends = true) → n ≤ vcFrame e → ends = true ∨ units.length = unitsPerBeat
    (vcFmt e) → (t.chanAt k).entries.length < 2 → False) :=
  fun h => h (one fun t => ((bindCh 4 2 3 1 t).modChan 4 fun c => { c with link := some (0, 0) }).modVc 0 0 fun v =>
  { v with inCur := some (0xb000000000000003, 0), made := [⟨7, 1, true, false⟩] }) _ _ 0 0 rfl rfl _ 0 _ [] 4 rfl rfl rfl rfl rfl rfl _ rfl
  (by decide) (by decide) (Or.inl (by decide)) (by decide)

/-! #### CopyControl -/

theorem witness_Copy_start : ¬
    (∀ (s : State) (eng : ℕ) (e : CpEngine), s.copy[eng]? = some e → ∀ (p : CpPkt), e.pick (List.filter (s.cpStartable eng) e.heads) = some p →
    cpBad (s.inst? p.inst) p.pkt = false → False) :=
  fun h => h (eng (fun e => { e with waiting := [pk] }) (one id)) 23 _ rfl _ rfl rfl

theorem witness_Copy_startPermit : ¬
    (∀ (s : State) (eng : ℕ) (e : CpEngine), s.copy[eng]? = some e → ∀ (p : CpPkt), e.pick (List.filter (s.cpStartable eng) e.heads) = some p →
    cpBad (s.inst? p.inst) p.pkt = false → False) :=
  fun h => h (eng (fun e => { e with waiting := [{ pk with pkt :=
  0x8f80000000000000000000000000000000000000000000000000000000100008004000000000004000400000000000001880000000000000 }] }) (pkg
  { inst [tile 0] with permits := [(23, 31, 1)] })) 23 _ rfl _ rfl rfl

theorem witness_Copy_age : ¬
    (∀ (s : State) (eng : ℕ) (e : CpEngine), s.copy[eng]? = some e → ∀ p ∈ e.waiting, max 1 p.bound < p.level → agePeriod ≤ p.waited → (∀ q ∈
    e.waiting, q ≠ p → max 1 q.bound < q.level → agePeriod ≤ q.waited → p.ord < q.ord) → False) :=
  fun h => h (eng (fun e => { e with waiting := [{ pk with level := 3, waited := agePeriod }] }) (one id)) 23 _ rfl _ (List.mem_cons_self ..)
  (by decide) (Nat.le_refl _) (by intro q hq hne; exact absurd (List.mem_singleton.1 hq) hne)

theorem witness_Copy_frame : ¬
    (∀ (s : State) (eng : ℕ) (e : CpEngine), s.copy[eng]? = some e → ∀ (src : CpSrc) (i vc : ℕ) (us : List LinkUnit) (rest : List CpIn), s.cut i =
    false → us.length = 8 → (∀ k < 8, ∀ (u : LinkUnit), us[k]? = some u → u.void = false ∧ u.last = decide (k = 7)) → (List.filter (fun p => p.src
    == src) e.waiting).length < 16 → e.inbox = List.map (fun u => { src := src, inst := i, vc := vc, unit := u }) us ++ rest → False) :=
  fun h => h (eng (fun e => { e with inbox := (List.range 8).map fun k => ⟨.tile 0, 0, 2, ⟨BitVec.ofNat 144 (k + 1), 0, k == 7, false⟩⟩ }) (one
  id)) 23 _ rfl (.tile 0) 0 2 ((List.range 8).map fun k => ⟨BitVec.ofNat 144 (k + 1), 0, k == 7, false⟩) [] rfl rfl
  (by intro k hk u hu; interval_cases k <;> (cases hu; exact ⟨rfl, rfl⟩)) (by decide) rfl

theorem witness_Copy_permitUnit : ¬
    (∀ (s : State) (eng : ℕ) (e : CpEngine), s.copy[eng]? = some e → ∀ (src : CpSrc) (i : ℕ) (v : BitVec 5) (rest : List (CpSrc × ℕ × BitVec 5)) (x
    : Inst), e.permitIn = (src, i, v) :: rest → s.insts[i]? = some x → x.escalated = false → x.permitAt eng v.toNat < 65535 → False) :=
  fun h => h (eng (fun e => { e with permitIn := [(.tile 0, 0, 31)] }) (pkg { inst [tile 0] with permits := [(23, 31, 65534)] })) 23 _ rfl _ _ _ []
  _ rfl rfl rfl (by decide)

theorem witness_Copy_mark : ¬
    (∀ (s : State) (eng : ℕ) (e : CpEngine) (a : CpActive) (q : CopyEnd), s.copy[eng]? = some e → pickOf (Config.copyPick s.now) (s.cpDues eng e) =
    some (a, q) → ∀ (g : ℕ × ℕ), q = CopyEnd.mark g → False) :=
  fun h => h (doing { pk with pkt := 0x1000000000000000000000000000000000000100008004000000000004000400000000000001880000000000000 } (jobM [(0,
  1)]) [0]) 23 _ _ _ rfl (show pickOf _ [(_, _)] = _ from pickOf_single _ _) _ rfl

theorem witness_Copy_dest : ¬
    (∀ (s : State) (eng : ℕ) (e : CpEngine) (a : CpActive) (q : CopyEnd), s.copy[eng]? = some e → pickOf (Config.copyPick s.now) (s.cpDues eng e) =
    some (a, q) → ∀ (d : ℕ), q = CopyEnd.dest d → cpSem a.p.pkt = false → False) :=
  fun h => h (doing pk (jobM []) [0]) 23 _ _ _ rfl (show pickOf _ [(_, _)] = _ from pickOf_single _ _) _ rfl rfl

theorem witness_Copy_sem : ¬
    (∀ (s : State) (eng : ℕ) (e : CpEngine) (a : CpActive) (q : CopyEnd), s.copy[eng]? = some e → pickOf (Config.copyPick s.now) (s.cpDues eng e) =
    some (a, q) → ∀ (d : ℕ), q = CopyEnd.dest d → ∀ (y : Tile) (k : BitVec 6), cpSem a.p.pkt = true → k = BitVec.extractLsb' 362 6 a.p.pkt →
    s.tile? a.p.inst d = some y → y.place ≠ Place.saved → y.sem[k.toNat].toNat + (cpAdd a.p.pkt).toNat ≤ 65535 → False) :=
  fun h => h (doing { pk with pkt := 0xfeffff00000000000000000000000000000000100008004000000000004000400000000000001880000000000000 } (jobM [])
  [0]) 23 _ _ _ rfl (show pickOf _ [(_, _)] = _ from pickOf_single _ _) _ rfl _ 63 rfl rfl rfl (by decide) (by decide)

theorem witness_Copy_over : ¬
    (∀ (s : State) (eng : ℕ) (e : CpEngine) (a : CpActive) (q : CopyEnd), s.copy[eng]? = some e → pickOf (Config.copyPick s.now) (s.cpDues eng e) =
    some (a, q) → ∀ (p : ℕ), q = CopyEnd.over → a.p.src = CpSrc.tile p → False) :=
  fun h => h (doing pk (jobM []) []) 23 _ _ _ rfl (show pickOf _ [(_, _)] = _ from pickOf_single _ _) _ rfl rfl

/-! #### CopyPackets -/

theorem witness_Packets_copy : ¬
    (∀ (s : State) (eng op : ℕ) (i : Instr) (e : CpEngine) (a : CpActive), i = Instr.cpyCopy eng ∧ op = 1 ∨ i = Instr.cpyConv eng ∧ op = 2 ∨ i =
    Instr.cpyFill eng ∧ op = 3 ∨ i = Instr.cpyMcast eng ∧ op = 4 → s.copy[eng]? = some e →
    let k := s.cpTask eng a.p;
    ∀ (n : ℕ) (u : CopyUnit) (ps : List (Loc × Size)) (bs : List Byte) (s1 : State), pickOf (Config.copyPick s.now) (s.cpActs eng op e) = some (a,
    Sum.inl n) → k.units[n]? = some u → s.checkUnit k AccKind.read k.srcAlign u.srcRow u.src u.srcN = EAcc.ok ps → s.readPieces k.inst k.tile k.who
    k.tag ps = (ERead.bytes bs, s1) → False) :=
  fun h => h (doing pk (jobR 7 0x40000000000040) [0]) 23 1 (.cpyCopy 23) _ _ (Or.inl ⟨rfl, rfl⟩) rfl 7 _ _ _ _ (show pickOf _ [(_, _)] = _ from
  pickOf_single _ _) rfl rfl rfl

theorem witness_Packets_conv : ¬
    (∀ (s : State) (eng op : ℕ) (i : Instr) (e : CpEngine) (a : CpActive), i = Instr.cpyCopy eng ∧ op = 1 ∨ i = Instr.cpyConv eng ∧ op = 2 ∨ i =
    Instr.cpyFill eng ∧ op = 3 ∨ i = Instr.cpyMcast eng ∧ op = 4 → s.copy[eng]? = some e →
    let k := s.cpTask eng a.p;
    ∀ (n : ℕ) (u : CopyUnit) (ps : List (Loc × Size)) (bs : List Byte) (s1 : State), pickOf (Config.copyPick s.now) (s.cpActs eng op e) = some (a,
    Sum.inl n) → k.units[n]? = some u → s.checkUnit k AccKind.read k.srcAlign u.srcRow u.src u.srcN = EAcc.ok ps → s.readPieces k.inst k.tile k.who
    k.tag ps = (ERead.bytes bs, s1) → False) :=
  fun h => h (doing { pk with pkt := 0x1000020040000000000040004000000000000028b000003f800000 } (jobR 1 0x40000000000040) [0]) 23 2 (.cpyConv 23) _
  _ (Or.inr (Or.inl ⟨rfl, rfl⟩)) rfl 1 _ _ _ _ (show pickOf _ [(_, _)] = _ from pickOf_single _ _) rfl rfl rfl

theorem witness_Packets_fill : ¬
    (∀ (s : State) (eng op : ℕ) (i : Instr) (e : CpEngine) (a : CpActive), i = Instr.cpyCopy eng ∧ op = 1 ∨ i = Instr.cpyConv eng ∧ op = 2 ∨ i =
    Instr.cpyFill eng ∧ op = 3 ∨ i = Instr.cpyMcast eng ∧ op = 4 → s.copy[eng]? = some e →
    let k := s.cpTask eng a.p;
    ∀ (n : ℕ) (u : CopyUnit) (ps : List (Loc × Size)) (bs : List Byte) (s1 : State), pickOf (Config.copyPick s.now) (s.cpActs eng op e) = some (a,
    Sum.inl n) → k.units[n]? = some u → s.checkUnit k AccKind.read k.srcAlign u.srcRow u.src u.srcN = EAcc.ok ps → s.readPieces k.inst k.tile k.who
    k.tag ps = (ERead.bytes bs, s1) → False) :=
  fun h => h (doing { pk with pkt := 0x100008004000000000004000000000000000553880000000000000 } (jobR 7 0x40000000000040) [0]) 23 3 (.cpyFill 23) _
  _ (Or.inr (Or.inr (Or.inl ⟨rfl, rfl⟩))) rfl 7 _ _ _ _ (show pickOf _ [(_, _)] = _ from pickOf_single _ _) rfl rfl rfl

theorem witness_Packets_mcast : ¬
    (∀ (s : State) (eng op : ℕ) (i : Instr) (e : CpEngine) (a : CpActive), i = Instr.cpyCopy eng ∧ op = 1 ∨ i = Instr.cpyConv eng ∧ op = 2 ∨ i =
    Instr.cpyFill eng ∧ op = 3 ∨ i = Instr.cpyMcast eng ∧ op = 4 → s.copy[eng]? = some e →
    let k := s.cpTask eng a.p;
    ∀ (n : ℕ) (u : CopyUnit) (ps : List (Loc × Size)) (bs : List Byte) (s1 : State), pickOf (Config.copyPick s.now) (s.cpActs eng op e) = some (a,
    Sum.inl n) → k.units[n]? = some u → s.checkUnit k AccKind.read k.srcAlign u.srcRow u.src u.srcN = EAcc.ok ps → s.readPieces k.inst k.tile k.who
    k.tag ps = (ERead.bytes bs, s1) → False) :=
  fun h => h (doing { pk with pkt := 0x100008000000000000004000400000000000004880000000000000 } (jobR 15 0x40000000200040) [0, 1]) 23 4 (.cpyMcast
  23) _ _ (Or.inr (Or.inr (Or.inr ⟨rfl, rfl⟩))) rfl 15 _ _ _ _ (show pickOf _ [(_, _)] = _ from pickOf_single _ _) rfl rfl rfl

theorem witness_Packets_write : ¬
    (∀ (s : State) (eng op : ℕ) (i : Instr) (e : CpEngine) (a : CpActive), i = Instr.cpyCopy eng ∧ op = 1 ∨ i = Instr.cpyConv eng ∧ op = 2 ∨ i =
    Instr.cpyFill eng ∧ op = 3 ∨ i = Instr.cpyMcast eng ∧ op = 4 → s.copy[eng]? = some e →
    let k := s.cpTask eng a.p;
    ∀ (w b : W64) (ms : List (Byte × Byte)) (l : Loc) (z : Size), pickOf (Config.copyPick s.now) (s.cpActs eng op e) = some (a, Sum.inr w) →
    let us := List.filterMap (fun u => Option.map (fun b => (u.1, b)) u.2) (k.over a.job w);
    let row := match us with | u :: tail => u.1.dstRow | [] => w;
    wordRuns us w = [(b, ms)] → s.checkRuns k row [(b, ms)] = EAcc.ok [(l, z)] → ms.length = z.bytes → s.writeHeld k.inst [(l, z)] = false →
    s.homeHere k.inst l → s.canonical = true → False) :=
  fun h => h (doing pk jobW [0]) 23 1 (.cpyCopy 23) _ _ (Or.inl ⟨rfl, rfl⟩) rfl _ _ _ _ _ (show pickOf _ [(_, _)] = _ from pickOf_single _ _) rfl
  rfl rfl rfl rfl (by decide)

theorem witness_Packets_row : ¬
    (∀ (s : State) (eng : ℕ) (p : CpPkt) (row n : ℕ),
    let x := p.pkt;
    row < cpRows x → n * cpGroup x < cpLen x → cpOp x ≠ 4 → False) :=
  fun h => h (one id) 23 pk 0 7 (by decide) (by decide) (by decide)

theorem witness_Packets_rowMcast : ¬
    (∀ (s : State) (eng : ℕ) (p : CpPkt) (row n : ℕ),
    let x := p.pkt;
    row < cpRows x → n * cpGroup x < cpLen x → cpOp x = 4 → ∀ m ∈ cpMembers (s.inst? p.inst) x, False) :=
  fun h => h (one id) 23 { pk with pkt := 0x100008000000000000004000400000000000004880000000000000 } 0 7 (by decide) (by decide) rfl 1 (by decide)

theorem witness_Packets_same : ¬
    (∀ (x : Rec64) (mode : BitVec 3) (len : ℕ) (bs : List Byte), cpOp x = 1 ∨ cpOp x = 4 → False) :=
  fun h => h pk.pkt 1 8 [] (Or.inl rfl)

theorem witness_Packets_fillData : ¬
    (∀ (x : Rec64) (mode : BitVec 3) (len : ℕ) (bs : List Byte), cpOp x = 3 → False) :=
  fun h => h 0x100008004000000000004000000000000000553880000000000000 1 1 [] rfl

theorem witness_Packets_fillBytes : ¬
    (∀ (x : Rec64) (mode : BitVec 3) (len : ℕ) (bs : List Byte), cpOp x = 3 → ∀ k < rowBytes (cpDstFmt x) len, False) :=
  fun h => h 0x100008004000000000004000000000000000553880000000000000 1 1 [] rfl 0 (by decide)

/-! #### HaloCopies -/

theorem witness_Halo_read : ¬
    (∀ (s : State) (x : Inst) (t : Tile) (h : Halo) (at' : ℕ) (dir : Dir) (nb : ℕ) (jobs : List (Dir × CopyJob)) (j : CopyJob),
    s.insts[s.focus.inst]? = some x → x.tiles[s.focus.tile]? = some t → pickOf (Config.copyPick s.now) (s.halosFor x t dir) = some (h, at') →
    h.left.isSome = true ∨ haloOk h.desc = true → Halo.jobs x t s.focus.inst s.focus.tile h = jobs → lookupKey dir jobs = some j → x.neighbour t
    s.focus.tile dir = some nb → haloRange h.desc dir s.focus.tile nb = none →
    let k := haloTask s.focus.inst x.tag s.focus.tile nb h.desc dir;
    ∀ (n : ℕ) (u : CopyUnit) (ps : List (Loc × Size)) (bs : List Byte) (s1 : State), pickOf (Config.copyPick (s.now + 1)) (haloActs s k j) = some
    (Sum.inl (Sum.inl n)) → k.units[n]? = some u → s.checkUnit k AccKind.read 8 u.srcRow u.src 8 = EAcc.ok ps → s.readPieces k.inst k.tile k.who
    k.tag ps = (ERead.bytes bs, s1) → False) :=
  fun h => h (eastward (jobR 0 0x40000000200040)) _ _ _ _ .e 1 _ _ rfl rfl (show pickOf _ [_] = _ from pickOf_single _ _) (Or.inl rfl) rfl rfl rfl
  rfl 0 _ _ _ _ (show pickOf _ [_] = _ from pickOf_single _ _) rfl rfl rfl

theorem witness_Halo_write : ¬
    (∀ (s : State) (x : Inst) (t : Tile) (h : Halo) (at' : ℕ) (dir : Dir) (nb : ℕ) (jobs : List (Dir × CopyJob)) (j : CopyJob),
    s.insts[s.focus.inst]? = some x → x.tiles[s.focus.tile]? = some t → pickOf (Config.copyPick s.now) (s.halosFor x t dir) = some (h, at') →
    h.left.isSome = true ∨ haloOk h.desc = true → Halo.jobs x t s.focus.inst s.focus.tile h = jobs → lookupKey dir jobs = some j → x.neighbour t
    s.focus.tile dir = some nb → haloRange h.desc dir s.focus.tile nb = none →
    let k := haloTask s.focus.inst x.tag s.focus.tile nb h.desc dir;
    ∀ (w b : W64) (ms : List (Byte × Byte)) (l : Loc) (z : Size), pickOf (Config.copyPick (s.now + 1)) (haloActs s k j) = some (Sum.inl (Sum.inr
    w)) →
    let us := List.filterMap (fun u => Option.map (fun b => (u.1, b)) u.2) (k.over j w);
    let row := match us with | u :: tail => u.1.dstRow | [] => w;
    wordRuns us w = [(b, ms)] → s.checkRuns k row [(b, ms)] = EAcc.ok [(l, z)] → ms.length = z.bytes → s.writeHeld k.inst [(l, z)] = false →
    s.homeHere k.inst l → s.canonical = true → False) :=
  fun h => h (eastward ⟨[], [(0, [1, 2, 3, 4, 5, 6, 7, 8])], [0x40000000200040], [], [], []⟩) _ _ _ _ .e 1 _ _ rfl rfl (show pickOf _ [_] = _ from
  pickOf_single _ _) (Or.inl rfl) rfl rfl rfl rfl _ _ _ _ _ (show pickOf _ [_] = _ from pickOf_single _ _) rfl rfl rfl rfl rfl (by decide)

theorem witness_Halo_mark : ¬
    (∀ (s : State) (x : Inst) (t : Tile) (h : Halo) (at' : ℕ) (dir : Dir) (nb : ℕ) (jobs : List (Dir × CopyJob)) (j : CopyJob),
    s.insts[s.focus.inst]? = some x → x.tiles[s.focus.tile]? = some t → pickOf (Config.copyPick s.now) (s.halosFor x t dir) = some (h, at') →
    h.left.isSome = true ∨ haloOk h.desc = true → Halo.jobs x t s.focus.inst s.focus.tile h = jobs → lookupKey dir jobs = some j → x.neighbour t
    s.focus.tile dir = some nb → haloRange h.desc dir s.focus.tile nb = none →
    let k := haloTask s.focus.inst x.tag s.focus.tile nb h.desc dir;
    ∀ (g : ℕ × ℕ), pickOf (Config.copyPick (s.now + 1)) (haloActs s k j) = some (Sum.inr (CopyEnd.mark g)) → False) :=
  fun h => h (eastward (jobM [(1, 1)])) _ _ _ _ .e 1 _ _ rfl rfl (show pickOf _ [_] = _ from pickOf_single _ _) (Or.inl rfl) rfl rfl rfl rfl _
  (show pickOf _ [_] = _ from pickOf_single _ _)

theorem witness_Halo_over : ¬
    (∀ (s : State) (x : Inst) (t : Tile) (h : Halo) (at' : ℕ) (dir : Dir) (nb : ℕ) (jobs : List (Dir × CopyJob)) (j : CopyJob),
    s.insts[s.focus.inst]? = some x → x.tiles[s.focus.tile]? = some t → pickOf (Config.copyPick s.now) (s.halosFor x t dir) = some (h, at') →
    h.left.isSome = true ∨ haloOk h.desc = true → Halo.jobs x t s.focus.inst s.focus.tile h = jobs → lookupKey dir jobs = some j → x.neighbour t
    s.focus.tile dir = some nb → haloRange h.desc dir s.focus.tile nb = none →
    let k := haloTask s.focus.inst x.tag s.focus.tile nb h.desc dir;
    ∀ (r : BitVec 6) (y : Tile), pickOf (Config.copyPick (s.now + 1)) (haloActs s k j) = some (Sum.inr CopyEnd.over) → r = BitVec.extractLsb' 53 6
    h.desc → x.tiles[nb]? = some y → nb ≠ s.focus.tile → y.place ≠ Place.saved → y.sem[r.toNat].toNat + fld h.desc 37 16 ≤ 65535 → False) :=
  fun h => h (eastward (jobM [])) _ _ _ _ .e 1 _ _ rfl rfl (show pickOf _ [_] = _ from pickOf_single _ _) (Or.inl rfl) rfl rfl rfl rfl _ _ (show
  pickOf _ [_] = _ from pickOf_single _ _) rfl rfl (by decide) (by decide) (by decide)

theorem witness_Halo_sender : ¬
    (∀ (s : State) (x : Inst) (t : Tile) (h : Halo) (at' : ℕ) (k : BitVec 6), s.insts[s.focus.inst]? = some x → x.tiles[s.focus.tile]? = some t →
    pickOf (Config.copyPick s.now) (s.halosRead x t) = some (h, at') → h.left.isSome = true ∨ haloOk h.desc = true → k = BitVec.extractLsb' 29 6
    h.desc → t.place ≠ Place.saved → t.sem[k.toNat].toNat < 65535 → False) :=
  fun h => h (haloed ⟨0x400000000000000040000000000000004000000000000000400000000000000000000000002000000fe0000000, 0, some [], false⟩ fun t =>
  { t with sem := Vector.replicate 64 0xFFFE }) _ _ _ _ 63 rfl rfl (show pickOf _ [_] = _ from pickOf_single _ _) (Or.inl rfl) rfl (by decide)
  (by decide)

theorem witness_Halo_senderFirst : ¬
    (∀ (s : State) (x : Inst) (t : Tile) (h : Halo) (at' : ℕ) (k : BitVec 6), s.insts[s.focus.inst]? = some x → x.tiles[s.focus.tile]? = some t →
    pickOf (Config.copyPick s.now) (s.halosRead x t) = some (h, at') → h.left.isSome = true ∨ haloOk h.desc = true → k = BitVec.extractLsb' 29 6
    h.desc → t.place ≠ Place.saved → t.sem[k.toNat].toNat < 65535 → False) :=
  fun h => h (haloed ⟨haloDesc, 0, some [(.e, jobM [])], false⟩ id) _ _ _ _ 0 rfl rfl (show pickOf _ [_] = _ from pickOf_single _ _) (Or.inl rfl)
  rfl (by decide) (by decide)

theorem witness_Halo_rows : ¬
    (∀ (i ltid nb : ℕ) (tag : Byte) (d : Rec64) (dir : Dir) (row n : ℕ), row < fld d 116 12 + 1 → n < fld d 104 12 + 1 → False) :=
  fun h => h 0 0 1 1 haloDesc .e 0 0 (by decide) (by decide)

/-! #### Pages -/

theorem witness_Pages_cached : ¬
    (∀ (s : State) (x : Inst) (c : Context) (va : W64), s.insts[s.focus.inst]? = some x → s.ctx? x.tag = some c → ∀ (l : Leaf), s.walk c va =
    Except.ok l → l.cacheable = true → False) :=
  fun h => h (tabled 0x06 id) _ _ 0x30000 rfl rfl ⟨0x0E00000000000006, 3, 0x1D0018⟩ (by decide +kernel) rfl

theorem witness_Pages_notCached : ¬
    (∀ (s : State) (x : Inst) (c : Context) (va : W64), s.insts[s.focus.inst]? = some x → s.ctx? x.tag = some c →
    let remote := s.remoteEntries c (BitVec.toNat va) walkLevels (c.allotment - 65536);
    (∀ (l : Leaf), s.walk c va = Except.ok l → l.cacheable = false) → fld va 44 20 ≠ 0 ∨ c.allotment = 0 ∨ remote = [] → False) :=
  fun h => h (tabled 0x0E id) _ _ 0x30000 rfl rfl (fun l h => by cases migrating_walk.symm.trans h; rfl) (Or.inr (Or.inr (by decide +kernel)))

theorem witness_Pages_asks : ¬
    (∀ (s : State) (x : Inst) (c : Context) (va : W64), s.insts[s.focus.inst]? = some x → s.ctx? x.tag = some c →
    let remote := s.remoteEntries c (BitVec.toNat va) walkLevels (c.allotment - 65536);
    (∀ (l : Leaf), s.walk c va = Except.ok l → l.cacheable = false) → ∀ (lvl ea : ℕ) (k : BitVec 5) (v : W64), fld va 44 20 = 0 → c.allotment ≠ 0 →
    remote.getLast? = some (lvl, ea, k, v) → False) :=
  fun h => h (remotely []) _ _ 0x30000 rfl rfl (fun l h => nomatch remote_walk.symm.trans h) 3 0x5F00000000018 31 0x18 rfl (by decide)
  (by decide +kernel)

theorem witness_Pages_shadow : ¬
    (∀ (s : State) (x : Inst) (t : Tile) (va : W64), s.insts[s.focus.inst]? = some x → x.tiles[s.focus.tile]? = some t → List.find? (fun v =>
    s.check s.focus.inst (AccReq.plain AccKind.read 1) v == Acc.minor) (t.accessVas ++ List.flatMap Stream.accessVas t.stream.toList ++ s.copyVas
    s.focus.inst s.focus.tile) = some va → False) :=
  fun h => h { pkgOf { ctx with tlb := [] } (inst [{ tile 0 with seq := { (tile 0).seq with next := 0x30008 } }]) with hbm := tables 0x0E } _ _
  0x30008 rfl rfl rfl

theorem witness_Pages_invalidate : ¬
    (∀ (s : State) (x : Inst) (c : Context) (i t : ℕ) (kind : InvKind) (va : W64) (rest : List (ℕ × ℕ × InvKind × W64)), s.insts[s.focus.inst]? =
    some x → s.ctx? x.tag = some c → c.invals = (i, t, kind, va) :: rest → s.translatedOut x.tag = false → False) :=
  fun h => h (pkgOf { ctx with invals := [(0, 0, .page, 0x1FFFF), (0, 1, .all, 0)], tables := [(0x5F00000000018, 0x0E00000000000006),
  (0x5F00000000008, 0x10001)] } (inst [{ tile 0 with seq := { (tile 0).seq with invWait := true } }, tile 1])) _ _ _ _ _ _ [(0, 1, .all, 0)] rfl
  rfl rfl rfl

theorem witness_Pages_frame : ¬
    (∀ (s : State) (c : Context) (tag : Byte) (unit f frame : ℕ), s.ctx? tag = some c → c.frames[unit]? = some f → frame < s.hbmFrames → tag ≠ 0 →
    s.frameTag frame = 0 → f ≠ frame → f + 16 < s.hbmFrames → s.translatedOut tag = false → s.canonical = true → False) :=
  fun h => h { pkg (inst [tile 0]) with hbm := ⟨[(0xA00000, 7), (0xBFFFFF, 8)]⟩ } _ 1 0 5 262127 rfl rfl (by decide) (by decide) (by decide)
  (by decide) (by decide) rfl (by decide)

/-! #### PageMigration -/

theorem witness_Migration_pin : ¬
    (∀ (s : State) (x : Inst) (c : Context) (m : Mig) (rest : List Mig), s.insts[s.focus.inst]? = some x → s.ctx? x.tag = some c → c.migs = m ::
    rest → s.canonical = true → ∀ (l : Loc), l.isRemote = false → s.stage2 c AccKind.read m.leafIpa false 0 = Acc.loc l → s.stage2 c AccKind.atomic
    m.leafIpa false 0 = Acc.loc l → s.reservedElsewhere noInst 0 l 8 = false → s.badLoc noInst l 8 = false →
    let old := BitVec.ofNat 64 (s.numberAt noInst l 8);
    let plain := BitVec.toNat old % 4 = 2 ∧ entryState old ∈ [1, 2];
    m.phase = MigPhase.released → plain → fld m.d 0 2 = 1 → False) :=
  fun h => h (moving 0x06 (mig 1 .released)) _ _ _ [] rfl rfl rfl (by decide) (.hbm 0xBD0018) rfl rfl rfl rfl rfl rfl ⟨by decide, by decide⟩
  (by decide)

theorem witness_Migration_unpin : ¬
    (∀ (s : State) (x : Inst) (c : Context) (m : Mig) (rest : List Mig), s.insts[s.focus.inst]? = some x → s.ctx? x.tag = some c → c.migs = m ::
    rest → s.canonical = true → ∀ (l : Loc), l.isRemote = false → s.stage2 c AccKind.read m.leafIpa false 0 = Acc.loc l → s.stage2 c AccKind.atomic
    m.leafIpa false 0 = Acc.loc l → s.reservedElsewhere noInst 0 l 8 = false → s.badLoc noInst l 8 = false →
    let old := BitVec.ofNat 64 (s.numberAt noInst l 8);
    m.phase = MigPhase.released → BitVec.toNat old % 4 = 2 → entryState old = 4 → fld m.d 0 2 = 2 → False) :=
  fun h => h (moving 0x12 (mig 2 .released)) _ _ _ [] rfl rfl rfl (by decide) (.hbm 0xBD0018) rfl rfl rfl rfl rfl rfl (by decide) (by decide)
  (by decide)

theorem witness_Migration_begin : ¬
    (∀ (s : State) (x : Inst) (c : Context) (m : Mig) (rest : List Mig), s.insts[s.focus.inst]? = some x → s.ctx? x.tag = some c → c.migs = m ::
    rest → s.canonical = true → ∀ (l : Loc), l.isRemote = false → s.stage2 c AccKind.read m.leafIpa false 0 = Acc.loc l → s.stage2 c AccKind.atomic
    m.leafIpa false 0 = Acc.loc l → s.reservedElsewhere noInst 0 l 8 = false → s.badLoc noInst l 8 = false →
    let old := BitVec.ofNat 64 (s.numberAt noInst l 8);
    let plain := BitVec.toNat old % 4 = 2 ∧ entryState old ∈ [1, 2];
    m.phase = MigPhase.released → plain → fld m.d 0 2 = 0 → False) :=
  fun h => h (moving 0x06 (mig 0x10000 .released)) _ _ _ [] rfl rfl rfl (by decide) (.hbm 0xBD0018) rfl rfl rfl rfl rfl rfl ⟨by decide, by decide⟩
  (by decide)

theorem witness_Migration_changed : ¬
    (∀ (s : State) (x : Inst) (c : Context) (m : Mig) (rest : List Mig), s.insts[s.focus.inst]? = some x → s.ctx? x.tag = some c → c.migs = m ::
    rest → s.canonical = true → ∀ (l : Loc), l.isRemote = false → s.stage2 c AccKind.read m.leafIpa false 0 = Acc.loc l → s.stage2 c AccKind.atomic
    m.leafIpa false 0 = Acc.loc l → s.reservedElsewhere noInst 0 l 8 = false → s.badLoc noInst l 8 = false →
    let old := BitVec.ofNat 64 (s.numberAt noInst l 8);
    let plain := BitVec.toNat old % 4 = 2 ∧ entryState old ∈ [1, 2];
    m.phase = MigPhase.released → ¬plain → fld m.d 0 2 ≠ 2 → False) :=
  fun h => h (moving 0x0E (mig 1 .released)) _ _ _ [] rfl rfl rfl (by decide) (.hbm 0xBD0018) rfl rfl rfl rfl rfl rfl (by decide) (by decide)

theorem witness_Migration_notPinned : ¬
    (∀ (s : State) (x : Inst) (c : Context) (m : Mig) (rest : List Mig), s.insts[s.focus.inst]? = some x → s.ctx? x.tag = some c → c.migs = m ::
    rest → s.canonical = true → ∀ (l : Loc), l.isRemote = false → s.stage2 c AccKind.read m.leafIpa false 0 = Acc.loc l → s.stage2 c AccKind.atomic
    m.leafIpa false 0 = Acc.loc l → s.reservedElsewhere noInst 0 l 8 = false → s.badLoc noInst l 8 = false →
    let old := BitVec.ofNat 64 (s.numberAt noInst l 8);
    m.phase = MigPhase.released → ¬(BitVec.toNat old % 4 = 2 ∧ entryState old = 4) → fld m.d 0 2 = 2 → False) :=
  fun h => h (moving 0x06 (mig 2 .released)) _ _ _ [] rfl rfl rfl (by decide) (.hbm 0xBD0018) rfl rfl rfl rfl rfl rfl (by decide) (by decide)

theorem witness_Migration_swap : ¬
    (∀ (s : State) (x : Inst) (c : Context) (m : Mig) (rest : List Mig), s.insts[s.focus.inst]? = some x → s.ctx? x.tag = some c → c.migs = m ::
    rest → s.canonical = true → ∀ (l : Loc), l.isRemote = false → s.stage2 c AccKind.read m.leafIpa false 0 = Acc.loc l → s.stage2 c AccKind.atomic
    m.leafIpa false 0 = Acc.loc l → s.reservedElsewhere noInst 0 l 8 = false → s.badLoc noInst l 8 = false → ∀ (was new : W64), m.phase =
    MigPhase.swapping was new → False) :=
  fun h => h (moving 0x06 (mig 0x10000 (.swapping 0x0E00000000000006 0x0E0000000000000E))) _ _ _ [] rfl rfl rfl (by decide) (.hbm 0xBD0018) rfl rfl
  rfl rfl rfl _ _ rfl

theorem witness_Migration_end : ¬
    (∀ (s : State) (x : Inst) (c : Context) (m : Mig) (rest : List Mig), s.insts[s.focus.inst]? = some x → s.ctx? x.tag = some c → c.migs = m ::
    rest → s.canonical = true → ∀ (l : Loc), l.isRemote = false → s.stage2 c AccKind.read m.leafIpa false 0 = Acc.loc l → s.stage2 c AccKind.atomic
    m.leafIpa false 0 = Acc.loc l → s.reservedElsewhere noInst 0 l 8 = false → s.badLoc noInst l 8 = false → ∀ (mig final : W64), m.phase =
    MigPhase.copied mig final → False) :=
  fun h => h (moving 0x0E (mig 0x10000 (.copied 0x0E0000000000000E 0x0E00000000010006))) _ _ _ [] rfl rfl rfl (by decide) (.hbm 0xBD0018) rfl rfl
  rfl rfl rfl _ _ rfl

theorem witness_Migration_copy : ¬
    (∀ (s : State) (x : Inst) (c : Context) (m : Mig) (rest : List Mig), s.insts[s.focus.inst]? = some x → s.ctx? x.tag = some c → c.migs = m ::
    rest → s.canonical = true → ∀ (old1 : W64) (f g : ℕ), m.phase = MigPhase.migrating old1 → s.translatedOut x.tag = false → (∀ (i t : ℕ) (y :
    Tile), s.tile? i t = some y → y.reserved = []) →
    let a := fld old1 16 36 * 65536;
    let b := fld m.d 16 36 * 65536;
    a < 2 ^ 50 → b < 2 ^ 50 → a < c.allotment → b < c.allotment → c.frames[a / 2 ^ 21]? = some f → c.frames[b / 2 ^ 21]? = some g →
    let src := f * 2 ^ 21 + a % 2 ^ 21;
    (∀ w ∈ s.hbmBad, w / 8192 ≠ src / 65536) → False) :=
  fun h => h (moving 0x0E (mig 0x10000 (.migrating 0x0E00000000000006))) _ _ _ [] rfl rfl rfl (by decide) _ 5 5 rfl rfl
  (by intro i t y h; match i, t, h with | 0, 0, h => (cases h; rfl) | 0, t + 1, h => exact nomatch (show none = some y from h) | i + 1, t, h => exact nomatch (show none = some y from h))
  (by decide) (by decide) (by decide) (by decide) rfl rfl (by intro w hw; cases hw)

/-! #### WordsRaiseFaults -/

theorem witness_Faults_pmigWalk : ¬
    (∀ (i : Instr) (s : State) (x : Inst) (t : Tile) (b : Block) (h : Head) (a c : W64) (code : Byte) (info : W64) (page : Option (BitVec 192)),
    Raises s x t b a c i code info page → MayFire i s x t b h a c → False) :=
  fun h => h (.pmig h1 0) (fireTabled 0x06 0x40000 1) _ _ _ h1 0x40000 1 _ _ _ (.pmigWalk _ _ { ctx with tlb := [] } 8 (some (0, 3, false, 1))
  (by decide) (by decide) (by decide) (by decide) rfl (by decide +kernel)) ⟨⟨rfl, rfl, rfl, rfl⟩, ⟨_, _, rfl, rfl, rfl, trivial, rfl, rfl⟩⟩

theorem witness_Faults_pmigFaulted : ¬
    (∀ (i : Instr) (s : State) (x : Inst) (t : Tile) (b : Block) (h : Head) (a c : W64) (code : Byte) (info : W64) (page : Option (BitVec 192)),
    Raises s x t b a c i code info page → MayFire i s x t b h a c → False) :=
  fun h => h (.pmig h1 0) (fireTabled 0x16 0x30000 1) _ _ _ h1 0x30000 1 _ _ _ (.pmigFaulted _ _ { ctx with tlb := [] } ⟨0x0E00000000000016, 3,
  0x1D0018⟩ (by decide) (by decide) (by decide) (by decide) rfl (by decide +kernel) (by decide)) ⟨⟨rfl, rfl, rfl, rfl⟩, ⟨_, _, rfl, rfl, rfl,
  trivial, rfl, rfl⟩⟩

theorem witness_Faults_pmigLarge : ¬
    (∀ (i : Instr) (s : State) (x : Inst) (t : Tile) (b : Block) (h : Head) (a c : W64) (code : Byte) (info : W64) (page : Option (BitVec 192)),
    Raises s x t b a c i code info page → MayFire i s x t b h a c → False) :=
  fun h => h (.pmig h1 0) { fireTabled 0x06 0x30000 1 with hbm := ⟨[(0xBE0000, 6), (0xBE0007, 0x0E), (0xBF0000, 1), (0xBF0002, 0x1E)]⟩ } _ _ _ h1
  0x30000 1 _ _ _ (.pmigLarge _ _ { ctx with tlb := [] } ⟨0x0E00000000000006, 2, 0x1E0000⟩ (by decide) (by decide) (by decide) (by decide) rfl
  (by decide +kernel) (by decide) (by decide) (Or.inl (by decide))) ⟨⟨rfl, rfl, rfl, rfl⟩, ⟨_, _, rfl, rfl, rfl, trivial, rfl, rfl⟩⟩

/-! #### TilesStopAndResume -/

theorem witness_Tiles_pause : ¬
    (∀ (s : State) (x : Inst) (t : Tile) (c : Context), s.insts[s.focus.inst]? = some x → x.tiles[s.focus.tile]? = some t → s.ctx? x.tag = some c →
    t.place = Place.running → (∀ (b : Block), t.seq.block = some b → b.committing = false) → c.stopping = true → False) :=
  fun h => h (pkgOf { ctx with op := some (.pause 3) } (inst [tileOf 0 (block ⟨none, none, none, true⟩)])) _ _ _ rfl rfl rfl rfl
  (by intro b h; cases h; rfl) rfl

theorem witness_Tiles_mappedOut : ¬
    (∀ (s : State) (x : Inst) (t : Tile) (c : Context), s.insts[s.focus.inst]? = some x → x.tiles[s.focus.tile]? = some t → s.ctx? x.tag = some c →
    t.place = Place.running → (∀ (b : Block), t.seq.block = some b → b.committing = false) → c.stopping = false → (s.physAt t.phys).mappedOut =
    true ∨ c.sliceOver t.served = true ∧ (s.tileWaiter c.tag).isSome = true → False) :=
  fun h => h { pkg (inst [tile 0]) with phys := [(0, { Phys.idle with tag := 1, mappedOut := true })] } _ _ _ rfl rfl rfl rfl
  (by intro b h; cases h) rfl (Or.inl rfl)

theorem witness_Tiles_slice : ¬
    (∀ (s : State) (x : Inst) (t : Tile) (c : Context), s.insts[s.focus.inst]? = some x → x.tiles[s.focus.tile]? = some t → s.ctx? x.tag = some c →
    t.place = Place.running → (∀ (b : Block), t.seq.block = some b → b.committing = false) → c.stopping = false → (s.physAt t.phys).mappedOut =
    true ∨ c.sliceOver t.served = true ∧ (s.tileWaiter c.tag).isSome = true → False) :=
  fun h => h sliced _ _ _ rfl rfl rfl rfl (by intro b h; cases h) rfl (Or.inr ⟨by simp [Context.sliceOver, tile, Tile.blank], by decide +kernel⟩)

theorem witness_Tiles_claimFree : ¬
    (∀ (s : State) (phys : ℕ) (tag : Byte) (c : Context), phys < s.tileCount → tag ≠ 255 → s.ctx? tag = some c → (s.physAt phys).mappedOut = false
    → s.wantsTile c = true → (s.physAt phys).tag = 0 ∨ (s.physAt phys).tag = tag ∧ (s.physAt phys).preload.isSome = true → False) :=
  fun h => h { pkg (inst [tile 0]) with insts := [{ inst [] with st := .submitted }], phys := [] } 1535 1 _ (by decide) (by decide) rfl rfl
  (by decide) (Or.inl rfl)

theorem witness_Tiles_claimOwn : ¬
    (∀ (s : State) (phys : ℕ) (tag : Byte) (c : Context), phys < s.tileCount → tag ≠ 255 → s.ctx? tag = some c → (s.physAt phys).mappedOut = false
    → s.wantsTile c = true → (s.physAt phys).tag = 0 ∨ (s.physAt phys).tag = tag ∧ (s.physAt phys).preload.isSome = true → False) :=
  fun h => h { pkg (inst [tile 0]) with insts := [{ inst [] with st := .submitted }], phys := [(7,
  { Phys.idle with tag := 1, preload := some (15, 0) })] } 7 1 _ (by decide) (by decide) rfl rfl (by decide) (Or.inr ⟨rfl, rfl⟩)

theorem witness_Tiles_claimPreloaded : ¬
    (∀ (s : State) (phys : ℕ) (tag : Byte) (c : Context), phys < s.tileCount → tag ≠ 255 → s.ctx? tag = some c → (s.physAt phys).mappedOut = false
    → s.wantsTile c = true → (s.physAt phys).tag ≠ 0 → (s.physAt phys).tag ≠ tag → (s.physAt phys).preload.isSome = true → s.idleTiles = 0 →
    s.comesFirst c = true → s.onPhys phys = none → s.residentSince tag = [] → False) :=
  fun h => h (preloaded [waits2]) 0 2 _ (by decide) (by decide) rfl (by decide +kernel) (by decide +kernel) (by decide +kernel) (by decide +kernel)
  (by decide +kernel) (by decide +kernel) (by decide +kernel) rfl rfl

theorem witness_Tiles_claimSave : ¬
    (∀ (s : State) (phys : ℕ) (tag : Byte) (c : Context), phys < s.tileCount → tag ≠ 255 → s.ctx? tag = some c → (s.physAt phys).mappedOut = false
    → s.wantsTile c = true → ∀ (i k : ℕ) (x : Inst) (t : Tile), (s.physAt phys).tag ≠ 0 → (s.physAt phys).tag ≠ tag → s.idleTiles = 0 →
    s.comesFirst c = true → s.onPhys phys = some (i, k) → s.insts[i]? = some x → x.tiles[k]? = some t → t.place = Place.resident → (∀ n ∈
    s.residentSince tag, t.since ≤ n) → x.busyAt (inSlice k) = false → s.workOn i k x t = false → False) :=
  fun h => h (full ctx [inst [resident 0], waits2]) 0 2 _ (by decide) (by decide) rfl (by decide +kernel) (by decide +kernel) 0 0 _ _
  (by decide +kernel) (by decide +kernel) (by decide +kernel) (by decide +kernel) rfl rfl rfl (by decide +kernel) (by decide) rfl
  (by decide +kernel)

theorem witness_Tiles_resumeHeld : ¬
    (∀ (s : State) (phys i k : ℕ) (c : Context) (x : Inst) (t : Tile), s.ctx? (s.physAt phys).tag = some c → c.active = true → (s.physAt
    phys).mappedOut = false → (s.physAt phys).preload = none → s.insts[i]? = some x → x.tiles[k]? = some t → t.seq.invWait = false → takeNotice k
    x.notices = none → s.onPhys phys = some (i, k) ∧ t.place = Place.resident ∧ givesWay t.served (s.tileWaiter c.tag) = false ∨ s.onPhys phys =
    none ∧ s.firstSaved c.tag = some (i, k) → ∀ (e : Inc), t.heldInc = [e] → t.sem[e.sem.toNat].toNat + e.add.toNat ≤ 65535 → False) :=
  fun h => h (pkg (inst [{ resident 0 with heldInc := [⟨63, 65535, 0⟩] }])) 0 0 0 _ _ _ rfl rfl rfl rfl rfl rfl rfl rfl (Or.inl ⟨rfl, rfl,
  by decide⟩) ⟨63, 65535, 0⟩ rfl (by decide)

theorem witness_Tiles_resume : ¬
    (∀ (s : State) (phys i k : ℕ) (c : Context) (x : Inst) (t : Tile), s.ctx? (s.physAt phys).tag = some c → c.active = true → (s.physAt
    phys).mappedOut = false → (s.physAt phys).preload = none → s.insts[i]? = some x → x.tiles[k]? = some t → t.seq.invWait = false → takeNotice k
    x.notices = none → s.onPhys phys = some (i, k) ∧ t.place = Place.resident ∧ givesWay t.served (s.tileWaiter c.tag) = false ∨ s.onPhys phys =
    none ∧ s.firstSaved c.tag = some (i, k) → t.heldInc = [] → False) :=
  fun h => h (pkg (inst [resident 0])) 0 0 0 _ _ _ rfl rfl rfl rfl rfl rfl rfl rfl (Or.inl ⟨rfl, rfl, by decide⟩) rfl

theorem witness_Tiles_resumeSaved : ¬
    (∀ (s : State) (phys i k : ℕ) (c : Context) (x : Inst) (t : Tile), s.ctx? (s.physAt phys).tag = some c → c.active = true → (s.physAt
    phys).mappedOut = false → (s.physAt phys).preload = none → s.insts[i]? = some x → x.tiles[k]? = some t → t.seq.invWait = false → takeNotice k
    x.notices = none → s.onPhys phys = some (i, k) ∧ t.place = Place.resident ∧ givesWay t.served (s.tileWaiter c.tag) = false ∨ s.onPhys phys =
    none ∧ s.firstSaved c.tag = some (i, k) → t.heldInc = [] → False) :=
  fun h => h (pkg (inst [{ tile 0 with place := .saved, seq := { (tile 0).seq with park := some (.waita 0 0 7 0 0 none) } }])) 1 0 0 _ _ _ rfl rfl
  rfl rfl rfl rfl rfl rfl (Or.inr ⟨rfl, rfl⟩) rfl

/-! #### ContextsStopped -/

theorem witness_Contexts_slice : ¬
    (∀ (s : State) (tag : Byte) (c : Context) (tiles sets : List (ℕ × ℕ)), s.ctx? tag = some c → c.active = true → (tiles = match s.tileWaiter tag
    with
    | some r => List.take (s.tilesShort r - (s.residents tag).length) (List.filter (fun a => Option.any (fun t => c.sliceOver t.served) (s.tile?
    a.1 a.2)) (s.runningTiles tag))
    | none => []) → (sets = match s.plotWaiter tag with
    | some r => setsFor (s.plotsShort r) (List.filter (fun a => c.sliceOver a.2.2.served) (s.runningSets tag))
    | none => []) → tiles ≠ [] ∨ sets ≠ [] → False) :=
  fun h => h sliced 1 _ [(0, 0)] [] rfl rfl sliced_tiles sliced_sets (by decide)

theorem witness_Contexts_budget : ¬
    (∀ (s : State) (x : Inst) (c : Context) (y : Tile), s.insts[s.focus.inst]? = some x → s.ctx? x.tag = some c → x.budget ≠ 0 → x.st =
    InstState.running → y ∈ x.tiles → y.place = Place.running → y.seq.finished = false → x.budget * 65536 ≤ y.runCycles → (∀ t ∈ x.tiles, t.place =
    Place.running → ∀ (b : Block), t.seq.block = some b → b.committing = false) → False) :=
  fun h => h (pkg { inst [{ tile 0 with runCycles := 65536 }, tile 1] with budget := 1 }) _ _ _ rfl rfl (by decide) rfl (List.mem_cons_self ..) rfl
  rfl (by decide) (by simp [inst, tile, Tile.blank, Seq.start])

theorem witness_Contexts_deadlock : ¬
    (∀ (s : State) (tag : Byte) (c : Context), s.ctx? tag = some c → c.active = true → c.declared = false → 4096 ≤ c.quiet → s.preempted tag =
    false → s.workLeft tag = true → False) :=
  fun h => h (pkgOf { ctx with quiet := 4096 } (inst [tileOf 0 (block ⟨none, none, none, true⟩)])) 1 _ rfl rfl rfl (by decide) rfl rfl

/-! #### QueueEvents -/

theorem witness_Queue_record : ¬
    (∀ (s : State) (tag : Byte) (q : BitVec 4) (c : Context) (x : Queue), s.ctx? tag = some c → c.queues[q.toNat]? = some x → ∀ (key : BitVec 256),
    c.decodes = true → x.enabled = true → x.head ≠ x.tail → x.buf.length + s.enqsHeld tag q < 64 → c.keys.queues[q.toNat]? = some key → False) :=
  fun h => h (pkgOf { ctxQ { Queue.fresh with enabled := true, tail := 1 } with keys := { Keys.none with queues := List.replicate 16 5 } } (inst
  [tile 0])) 1 15 _ _ rfl rfl _ rfl rfl (by decide) (by decide) rfl

theorem witness_Queue_arbitrate : ¬
    (∀ (s : State) (tag : Byte) (q : BitVec 4) (c : Context) (x : Queue), s.ctx? tag = some c → c.queues[q.toNat]? = some x → ∀ (p : Rec64) (n :
    W32) (rest : List (Rec64 × W32)), x.buf = (p, n) :: rest → s.chooseQueue c = some q → pkOk p = false → (∀ a ∈ x.started, a.ord ≠ x.ord) →
    False) :=
  fun h => h (atHead 0x208) 1 15 _ _ rfl rfl 0x208 7 [(8, 9)] rfl (by decide +kernel) rfl (fun a h => nomatch h)

theorem witness_Queue_markFails : ¬
    (∀ (s : State) (tag : Byte) (q : BitVec 4) (c : Context) (x : Queue), s.ctx? tag = some c → c.queues[q.toNat]? = some x → ∀ (p : Rec64) (n :
    W32) (rest : List (Rec64 × W32)) (i : Instr), x.buf = (p, n) :: rest → BitVec.toNat p % 256 = 4 → pkOk p = true → c.active = true → x.held =
    false → i = Instr.waitmarkRecheck tag q ∨ i = Instr.waitmark tag q p → ∀ (code : Byte), s.readMark c q (fld p 64 16) = MarkRead.failed code →
    False) :=
  fun h => h (pkgOf { ctxQ (headed 4) with tlb := [] } (inst [tile 0])) 1 15 _ _ rfl rfl 4 7 [(8, 9)] _ rfl rfl rfl rfl rfl (Or.inl rfl) 0x08
  (by decide +kernel)

theorem witness_Queue_markFailsStart : ¬
    (∀ (s : State) (tag : Byte) (q : BitVec 4) (c : Context) (x : Queue), s.ctx? tag = some c → c.queues[q.toNat]? = some x → ∀ (p : Rec64) (n :
    W32) (rest : List (Rec64 × W32)) (i : Instr), x.buf = (p, n) :: rest → BitVec.toNat p % 256 = 4 → pkOk p = true → c.active = true → x.held =
    false → i = Instr.waitmarkRecheck tag q ∨ i = Instr.waitmark tag q p → ∀ (code : Byte), s.readMark c q (fld p 64 16) = MarkRead.failed code →
    False) :=
  fun h => h (pkgOf { ctxQ (headed 4) with tlb := [] } (inst [tile 0])) 1 15 _ _ rfl rfl 4 7 [(8, 9)] _ rfl rfl rfl rfl rfl (Or.inr rfl) 0x08
  (by decide +kernel)

theorem witness_Queue_markHolds : ¬
    (∀ (s : State) (tag : Byte) (q : BitVec 4) (c : Context) (x : Queue), s.ctx? tag = some c → c.queues[q.toNat]? = some x → ∀ (p : Rec64) (n :
    W32) (rest : List (Rec64 × W32)) (i : Instr), x.buf = (p, n) :: rest → BitVec.toNat p % 256 = 4 → pkOk p = true → c.active = true → x.held =
    false → i = Instr.waitmarkRecheck tag q ∨ i = Instr.waitmark tag q p → ∀ (v : W64), s.readMark c q (fld p 64 16) = MarkRead.value v →
    (BitVec.extractLsb' 128 64 p).toNat ≤ BitVec.toNat v →
    let s1 := s.modQueue tag q fun x => { x with held := true };
    (∀ (c1 : Context), s1.ctx? tag = some c1 → s1.chooseQueue c1 ≠ some q) → False) :=
  fun h => h (pkgOf { ctxQ (headed 4) with queues := (ctxQ (headed 4)).queues.set 0 (headed 8) } (inst [tile 0])) 1 15 _ _ rfl rfl 4 7 [(8, 9)] _
  rfl rfl rfl rfl rfl (Or.inl rfl) 0 (by decide +kernel) (by decide) (by intro c1 h1; cases (show some _ = some c1 from h1); decide +kernel)

theorem witness_Queue_markLow : ¬
    (∀ (s : State) (tag : Byte) (q : BitVec 4) (c : Context) (x : Queue), s.ctx? tag = some c → c.queues[q.toNat]? = some x → ∀ (p : Rec64) (n :
    W32) (rest : List (Rec64 × W32)) (i : Instr), x.buf = (p, n) :: rest → BitVec.toNat p % 256 = 4 → pkOk p = true → c.active = true → x.held =
    false → i = Instr.waitmarkRecheck tag q ∨ i = Instr.waitmark tag q p → ∀ (v : W64), s.readMark c q (fld p 64 16) = MarkRead.value v → ∀ (l :
    Loc), BitVec.toNat v < (BitVec.extractLsb' 128 64 p).toNat → s.markAcc c AccKind.read (fld p 64 16) = Except.ok l → l.isRemote = false → False)
    :=
  fun h => h (atHead 0x100000000000000000000000000000004) 1 15 _ _ rfl rfl _ 7 [(8, 9)] _ rfl rfl rfl rfl rfl (Or.inr rfl) 0 (by decide +kernel)
  (.hbm 0xA00000) (by decide) (by decide +kernel) rfl

theorem witness_Queue_age : ¬
    (∀ (s : State) (tag : Byte) (q : BitVec 4) (c : Context) (x : Queue), s.ctx? tag = some c → c.queues[q.toNat]? = some x → s.queueState c q x =
    2 → agePeriod * (x.age + 1) ≤ x.ready → False) :=
  fun h => h (pkgOf (ctxQ { headed 8 with ready := agePeriod }) (inst [tile 0])) 1 15 _ _ rfl rfl rfl (Nat.le_of_eq (Nat.mul_one _))

theorem witness_Queue_mark : ¬
    (∀ (s : State) (tag : Byte) (q : BitVec 4) (c : Context) (x : Queue), s.ctx? tag = some c → c.queues[q.toNat]? = some x → ∀ (m : BitVec 16) (a
    : W64) (rest : List (BitVec 16 × W64)), x.marks = (m, a) :: rest → c.st ≠ CtxState.evicted → c.st ≠ CtxState.destroyed → ∀ (l : Loc), s.markAcc
    c AccKind.write m.toNat = Except.ok l → l.isRemote = false → s.canonical = true → False) :=
  fun h => h (pkgOf (ctxQ { headed 8 with marks := [(0xFFF, 3), (1, 1)] }) (inst [tile 0])) 1 15 _ _ rfl rfl 0xFFF 3 [(1, 1)] rfl (by decide)
  (by decide) (.hbm 0xA07FF8) (by decide +kernel) rfl (by decide +kernel)

theorem witness_Queue_markPeer : ¬
    (∀ (s : State) (tag : Byte) (q : BitVec 4) (c : Context) (x : Queue), s.ctx? tag = some c → c.queues[q.toNat]? = some x → ∀ (m : BitVec 16) (a
    : W64) (rest : List (BitVec 16 × W64)), x.marks = (m, a) :: rest → c.st ≠ CtxState.evicted → c.st ≠ CtxState.destroyed → ∀ (k : BitVec 5) (v :
    W64) (r : Answer) (s1 : State), s.markAcc c AccKind.write m.toNat = Except.ok (Loc.remote k v) → c.receives k = true → s.askPeer tag k (markAsk
    q whoMarkAdd v) (MsgBody.atomic v AtomicOp.add true a 0) = (some r, s1) → False) :=
  fun h => h (pkgOf (ctxF { headed 8 with marks := [(0xFFF, 3), (1, 1)] } [(markAsk 15 whoMarkAdd 0x7FF8, .failed 0x12)]) (inst [tile 0])) 1 15 _ _
  rfl rfl 0xFFF 3 [(1, 1)] rfl (by decide) (by decide) 31 0x7FF8 _ _ (by decide +kernel) rfl rfl

theorem witness_Queue_markNoReceive : ¬
    (∀ (s : State) (tag : Byte) (q : BitVec 4) (c : Context) (x : Queue), s.ctx? tag = some c → c.queues[q.toNat]? = some x → ∀ (m : BitVec 16) (a
    : W64) (rest : List (BitVec 16 × W64)), x.marks = (m, a) :: rest → c.st ≠ CtxState.evicted → c.st ≠ CtxState.destroyed → ∀ (k : BitVec 5) (v :
    W64), s.markAcc c AccKind.write m.toNat = Except.ok (Loc.remote k v) → c.receives k = false → False) :=
  fun h => h (pkgOf { ctxF { headed 8 with marks := [(0xFFF, 3), (1, 1)] } [] with sessions := (ctx.sessions.set 31
  { Session.closed with opened := true, send := true }) } (inst [tile 0])) 1 15 _ _ rfl rfl 0xFFF 3 [(1, 1)] rfl (by decide) (by decide) 31 0x7FF8
  (by decide +kernel) rfl

theorem witness_Queue_markBad : ¬
    (∀ (s : State) (tag : Byte) (q : BitVec 4) (c : Context) (x : Queue), s.ctx? tag = some c → c.queues[q.toNat]? = some x → ∀ (m : BitVec 16) (a
    : W64) (rest : List (BitVec 16 × W64)), x.marks = (m, a) :: rest → c.st ≠ CtxState.evicted → c.st ≠ CtxState.destroyed → ∀ (code : Byte),
    s.markAcc c AccKind.write m.toNat = Except.error (MarkRead.failed code) → False) :=
  fun h => h (pkgOf { ctxQ { headed 8 with marks := [(0xFFF, 3), (1, 1)] } with tlb := [] } (inst [tile 0])) 1 15 _ _ rfl rfl 0xFFF 3 [(1, 1)] rfl
  (by decide) (by decide) 0x08 (by decide +kernel)

theorem witness_Queue_preload : ¬
    (∀ (s : State) (tag : Byte) (q : BitVec 4) (c : Context) (x : Queue), s.ctx? tag = some c → c.queues[q.toNat]? = some x → ∀ (p : Rec64) (n :
    W32) (rest : List (Rec64 × W32)) (k : Kernel), x.buf = (p, n) :: rest → BitVec.toNat p % 256 = 1 → pkOk p = true → s.queueState c q x = 3 →
    c.kernelFor q (fld p 32 16) = some k → s.preloadedFor tag q x.ord = [] → False) :=
  fun h => h (pkgOf { ctxQ (headed 0x1) with st := .paused, krefs := [(0, kernel1)] } (inst [tile 0, tile 1])) 1 15 _ _ rfl rfl 1 7 [(8, 9)]
  kernel1 rfl rfl rfl (by decide +kernel) rfl (by decide)

theorem witness_Queue_loadk : ¬
    (∀ (s : State) (tag : Byte) (q : BitVec 4) (c : Context) (x : Queue), s.ctx? tag = some c → c.queues[q.toNat]? = some x → ∀ (p : Rec64) (a :
    Started) (im ps : List (Loc × Size × Option (List Byte))) (s1 : State), s.readingPacket tag q 2 p = some a → a.image = some im → s.readImage
    tag (packetAsker q a.ord) im = (Except.ok ps, s1) → False) :=
  fun h => h (pkgOf (ctxQ (reads 0x100000000000100000000000000000002 (some [(.hbm 0xA00000, .b1, none)]))) (inst [tile 0])) 1 15 _ _ rfl rfl
  0x100000000000100000000000000000002 _ _ _ _ rfl rfl rfl

theorem witness_Queue_loadkEnds : ¬
    (∀ (s : State) (tag : Byte) (q : BitVec 4) (c : Context) (x : Queue), s.ctx? tag = some c → c.queues[q.toNat]? = some x → ∀ (p : Rec64) (a :
    Started) (im ps : List (Loc × Size × Option (List Byte))) (s1 : State), s.readingPacket tag q 2 p = some a → a.image = some im → s.readImage
    tag (packetAsker q a.ord) im = (Except.ok ps, s1) → ∀ (s' : State) (c' : Context) (y : Queue), exec (Instr.loadk tag q p) s = Host.Outcome.next
    s' → s'.ctx? tag = some c' → s'.insts = s.insts → s'.hbm = s.hbm → c'.queues[q.toNat]? = some y → y.buf = x.buf → ∀ (bs : List Byte),
    imageBytes ps = some bs → c.loadsBefore (fld p 32 16) a.since = false → lookupKey (fld p 32 16) c.krefs = none → False) :=
  fun h => h (pkgOf (ctxQ (reads 0x100000000000100000000000000000002 (some [(.hbm 0xA00000, .b1, none)]))) (inst [tile 0])) 1 15 _ _ rfl rfl
  0x100000000000100000000000000000002 _ _ _ _ rfl rfl rfl _ _ _ rfl rfl rfl rfl rfl rfl _ rfl rfl rfl

theorem witness_Queue_copy : ¬
    (∀ (s : State) (tag : Byte) (q : BitVec 4) (c : Context) (x : Queue), s.ctx? tag = some c → c.queues[q.toNat]? = some x → ∀ (p : Rec64) (a :
    Started) (ps : List (Loc × Size)) (bs : List Byte) (s1 : State) (e : CpEngine), s.readingPacket tag q 6 p = some a → s.checkRange noInst tag 0
    AccKind.read false (BitVec.extractLsb' 64 64 p) 64 64 = EAcc.ok ps → s.readPieces noInst (packetAsker q a.ord) 160 tag ps = (ERead.bytes bs,
    s1) → s.copy[s.queueEngine tag]? = some e → List.countP (fun k => k.src == CpSrc.queue tag) e.waiting < 16 → s.insts.length ≤ noInst → False)
    :=
  fun h => h (pkgOf (ctxQ (reads 0x100000000000000000006 none)) (inst [tile 0])) 1 15 _ _ rfl rfl 0x100000000000000000006 _ _ _ _ _ rfl rfl rfl rfl
  (by decide) (by decide)

/-! #### QueuePackets -/

theorem witness_Packet_nop : ¬
    (∀ (s : State) (tag : Byte) (q : BitVec 4) (c : Context) (x : Queue) (p : Rec64) (n : W32) (rest : List (Rec64 × W32)), s.ctx? tag = some c →
    c.queues[q.toNat]? = some x → x.buf = (p, n) :: rest → s.chooseQueue c = some q → pkOk p = true → (∀ a ∈ x.started, a.ord ≠ x.ord ∧ (a.reads =
    true → a.pkt ≠ p)) → ∀ (i : Instr), BitVec.toNat p % 256 = 8 → i = Instr.queueNop tag q p ∨ i = Instr.queueArbitrate tag → False) :=
  fun h => h (atHead 8) 1 15 _ _ 8 7 [(8, 9)] rfl rfl rfl (by decide +kernel) rfl (fun a h => nomatch h) _ rfl (Or.inl rfl)

theorem witness_Packet_qbarrier : ¬
    (∀ (s : State) (tag : Byte) (q : BitVec 4) (c : Context) (x : Queue) (p : Rec64) (n : W32) (rest : List (Rec64 × W32)), s.ctx? tag = some c →
    c.queues[q.toNat]? = some x → x.buf = (p, n) :: rest → s.chooseQueue c = some q → pkOk p = true → (∀ a ∈ x.started, a.ord ≠ x.ord ∧ (a.reads =
    true → a.pkt ≠ p)) → ∀ (i : Instr), BitVec.toNat p % 256 = 7 → i = Instr.qbarrier tag q p ∨ i = Instr.queueArbitrate tag → False) :=
  fun h => h (atHead 0x107) 1 15 _ _ 0x107 7 [(8, 9)] rfl rfl rfl (by decide +kernel) rfl (fun a h => nomatch h) _ rfl (Or.inl rfl)

theorem witness_Packet_setmark : ¬
    (∀ (s : State) (tag : Byte) (q : BitVec 4) (c : Context) (x : Queue) (p : Rec64) (n : W32) (rest : List (Rec64 × W32)), s.ctx? tag = some c →
    c.queues[q.toNat]? = some x → x.buf = (p, n) :: rest → s.chooseQueue c = some q → pkOk p = true → (∀ a ∈ x.started, a.ord ≠ x.ord ∧ (a.reads =
    true → a.pkt ≠ p)) → ∀ (i : Instr), BitVec.toNat p % 256 = 5 → i = Instr.setmark tag q p ∨ i = Instr.queueArbitrate tag → False) :=
  fun h => h (atHead 0x5000000000FFF0105) 1 15 _ _ 0x5000000000FFF0105 7 [(8, 9)] rfl rfl rfl (by decide +kernel) rfl (fun a h => nomatch h) _ rfl
  (Or.inl rfl)

theorem witness_Packet_nopA : ¬
    (∀ (s : State) (tag : Byte) (q : BitVec 4) (c : Context) (x : Queue) (p : Rec64) (n : W32) (rest : List (Rec64 × W32)), s.ctx? tag = some c →
    c.queues[q.toNat]? = some x → x.buf = (p, n) :: rest → s.chooseQueue c = some q → pkOk p = true → (∀ a ∈ x.started, a.ord ≠ x.ord ∧ (a.reads =
    true → a.pkt ≠ p)) → ∀ (i : Instr), BitVec.toNat p % 256 = 8 → i = Instr.queueNop tag q p ∨ i = Instr.queueArbitrate tag → False) :=
  fun h => h (atHead 8) 1 15 _ _ 8 7 [(8, 9)] rfl rfl rfl (by decide +kernel) rfl (fun a h => nomatch h) _ rfl (Or.inr rfl)

theorem witness_Packet_qbarrierA : ¬
    (∀ (s : State) (tag : Byte) (q : BitVec 4) (c : Context) (x : Queue) (p : Rec64) (n : W32) (rest : List (Rec64 × W32)), s.ctx? tag = some c →
    c.queues[q.toNat]? = some x → x.buf = (p, n) :: rest → s.chooseQueue c = some q → pkOk p = true → (∀ a ∈ x.started, a.ord ≠ x.ord ∧ (a.reads =
    true → a.pkt ≠ p)) → ∀ (i : Instr), BitVec.toNat p % 256 = 7 → i = Instr.qbarrier tag q p ∨ i = Instr.queueArbitrate tag → False) :=
  fun h => h (atHead 0x107) 1 15 _ _ 0x107 7 [(8, 9)] rfl rfl rfl (by decide +kernel) rfl (fun a h => nomatch h) _ rfl (Or.inr rfl)

theorem witness_Packet_setmarkA : ¬
    (∀ (s : State) (tag : Byte) (q : BitVec 4) (c : Context) (x : Queue) (p : Rec64) (n : W32) (rest : List (Rec64 × W32)), s.ctx? tag = some c →
    c.queues[q.toNat]? = some x → x.buf = (p, n) :: rest → s.chooseQueue c = some q → pkOk p = true → (∀ a ∈ x.started, a.ord ≠ x.ord ∧ (a.reads =
    true → a.pkt ≠ p)) → ∀ (i : Instr), BitVec.toNat p % 256 = 5 → i = Instr.setmark tag q p ∨ i = Instr.queueArbitrate tag → False) :=
  fun h => h (atHead 0x5000000000FFF0105) 1 15 _ _ 0x5000000000FFF0105 7 [(8, 9)] rfl rfl rfl (by decide +kernel) rfl (fun a h => nomatch h) _ rfl
  (Or.inr rfl)

theorem witness_Packet_waitmark : ¬
    (∀ (s : State) (tag : Byte) (q : BitVec 4) (c : Context) (x : Queue) (p : Rec64) (n : W32) (rest : List (Rec64 × W32)), s.ctx? tag = some c →
    c.queues[q.toNat]? = some x → x.buf = (p, n) :: rest → s.chooseQueue c = some q → pkOk p = true → (∀ a ∈ x.started, a.ord ≠ x.ord ∧ (a.reads =
    true → a.pkt ≠ p)) → ∀ (i : Instr), BitVec.toNat p % 256 = 4 → i = Instr.waitmark tag q p ∨ i = Instr.waitmarkRecheck tag q ∨ i =
    Instr.queueArbitrate tag → False) :=
  fun h => h (pkgOf (ctxQ { headed 4 with held := true }) (inst [tile 0])) 1 15 _ _ 4 7 [(8, 9)] rfl rfl rfl (by decide +kernel) rfl (fun a h =>
  nomatch h) _ rfl (Or.inl rfl)

theorem witness_Packet_waitmarkRecheck : ¬
    (∀ (s : State) (tag : Byte) (q : BitVec 4) (c : Context) (x : Queue) (p : Rec64) (n : W32) (rest : List (Rec64 × W32)), s.ctx? tag = some c →
    c.queues[q.toNat]? = some x → x.buf = (p, n) :: rest → s.chooseQueue c = some q → pkOk p = true → (∀ a ∈ x.started, a.ord ≠ x.ord ∧ (a.reads =
    true → a.pkt ≠ p)) → ∀ (i : Instr), BitVec.toNat p % 256 = 4 → i = Instr.waitmark tag q p ∨ i = Instr.waitmarkRecheck tag q ∨ i =
    Instr.queueArbitrate tag → False) :=
  fun h => h (pkgOf (ctxQ { headed 4 with held := true }) (inst [tile 0])) 1 15 _ _ 4 7 [(8, 9)] rfl rfl rfl (by decide +kernel) rfl (fun a h =>
  nomatch h) _ rfl (Or.inr (Or.inl rfl))

theorem witness_Packet_waitmarkA : ¬
    (∀ (s : State) (tag : Byte) (q : BitVec 4) (c : Context) (x : Queue) (p : Rec64) (n : W32) (rest : List (Rec64 × W32)), s.ctx? tag = some c →
    c.queues[q.toNat]? = some x → x.buf = (p, n) :: rest → s.chooseQueue c = some q → pkOk p = true → (∀ a ∈ x.started, a.ord ≠ x.ord ∧ (a.reads =
    true → a.pkt ≠ p)) → ∀ (i : Instr), BitVec.toNat p % 256 = 4 → i = Instr.waitmark tag q p ∨ i = Instr.waitmarkRecheck tag q ∨ i =
    Instr.queueArbitrate tag → False) :=
  fun h => h (pkgOf (ctxQ { headed 4 with held := true }) (inst [tile 0])) 1 15 _ _ 4 7 [(8, 9)] rfl rfl rfl (by decide +kernel) rfl (fun a h =>
  nomatch h) _ rfl (Or.inr (Or.inr rfl))

theorem witness_Packet_unloadk : ¬
    (∀ (s : State) (tag : Byte) (q : BitVec 4) (c : Context) (x : Queue) (p : Rec64) (n : W32) (rest : List (Rec64 × W32)), s.ctx? tag = some c →
    c.queues[q.toNat]? = some x → x.buf = (p, n) :: rest → s.chooseQueue c = some q → pkOk p = true → (∀ a ∈ x.started, a.ord ≠ x.ord ∧ (a.reads =
    true → a.pkt ≠ p)) → ∀ (i : Instr) (k : Kernel), BitVec.toNat p % 256 = 3 → i = Instr.unloadk tag q p ∨ i = Instr.queueArbitrate tag →
    c.kernelFor q (fld p 32 16) = some k → False) :=
  fun h => h (withRefs 3 [(0, kernel1)]) 1 15 _ _ 3 7 [(8, 9)] rfl rfl rfl (by decide +kernel) rfl (fun a h => nomatch h) _ kernel1 rfl (Or.inl
  rfl) rfl

theorem witness_Packet_loadkBad : ¬
    (∀ (s : State) (tag : Byte) (q : BitVec 4) (c : Context) (x : Queue) (p : Rec64) (n : W32) (rest : List (Rec64 × W32)), s.ctx? tag = some c →
    c.queues[q.toNat]? = some x → x.buf = (p, n) :: rest → s.chooseQueue c = some q → pkOk p = true → (∀ a ∈ x.started, a.ord ≠ x.ord ∧ (a.reads =
    true → a.pkt ≠ p)) →
    let taken := s.takeHeadPacket c q x p;
    ∀ (i : Instr), BitVec.toNat p % 256 = 2 → i = Instr.loadk tag q p ∨ i = Instr.queueArbitrate tag →
    let pieces := taken.objectPieces tag (BitVec.extractLsb' 64 64 p) (fld p 128 32);
    ∀ (f : PFault), pieces = EAcc.bad f → False) :=
  fun h => h (pkgOf { ctxQ (headed 0x100000000000100000000000000000002) with tlb := [] } (inst [tile 0])) 1 15 _ _ _ 7 [(8, 9)] rfl rfl rfl
  (by decide +kernel) rfl (fun a h => nomatch h) _ rfl (Or.inl rfl) _ rfl

theorem witness_Packet_loadkError : ¬
    (∀ (s : State) (tag : Byte) (q : BitVec 4) (c : Context) (x : Queue) (p : Rec64) (n : W32) (rest : List (Rec64 × W32)), s.ctx? tag = some c →
    c.queues[q.toNat]? = some x → x.buf = (p, n) :: rest → s.chooseQueue c = some q → pkOk p = true → (∀ a ∈ x.started, a.ord ≠ x.ord ∧ (a.reads =
    true → a.pkt ≠ p)) →
    let taken := s.takeHeadPacket c q x p;
    ∀ (i : Instr), BitVec.toNat p % 256 = 2 → i = Instr.loadk tag q p ∨ i = Instr.queueArbitrate tag →
    let pieces := taken.objectPieces tag (BitVec.extractLsb' 64 64 p) (fld p 128 32);
    ∀ (ps : List (Loc × Size)) (r : Except Byte (List (Loc × Size × Option (List Byte)))) (s1 : State), pieces = EAcc.ok ps → taken.readImage tag
    (packetAsker q x.ord) (List.map (fun a => (a.1, a.2, none)) ps) = (r, s1) → ∀ (code : Byte), r = Except.error code → False) :=
  fun h => h { withRefs 0x100000000000100000000000000000002 [] with hbmBad := [0x140000] } 1 15 _ _ _ 7 [(8, 9)] rfl rfl rfl (by decide +kernel)
  rfl (fun a h => nomatch h) _ rfl (Or.inr rfl) _ _ _ rfl rfl _ rfl

theorem witness_Packet_loadkReads : ¬
    (∀ (s : State) (tag : Byte) (q : BitVec 4) (c : Context) (x : Queue) (p : Rec64) (n : W32) (rest : List (Rec64 × W32)), s.ctx? tag = some c →
    c.queues[q.toNat]? = some x → x.buf = (p, n) :: rest → s.chooseQueue c = some q → pkOk p = true → (∀ a ∈ x.started, a.ord ≠ x.ord ∧ (a.reads =
    true → a.pkt ≠ p)) →
    let taken := s.takeHeadPacket c q x p;
    ∀ (i : Instr), BitVec.toNat p % 256 = 2 → i = Instr.loadk tag q p ∨ i = Instr.queueArbitrate tag →
    let pieces := taken.objectPieces tag (BitVec.extractLsb' 64 64 p) (fld p 128 32);
    ∀ (ps : List (Loc × Size)) (r : Except Byte (List (Loc × Size × Option (List Byte)))) (s1 : State), pieces = EAcc.ok ps → taken.readImage tag
    (packetAsker q x.ord) (List.map (fun a => (a.1, a.2, none)) ps) = (r, s1) → ∀ (im : List (Loc × Size × Option (List Byte))), r = Except.ok im →
    imageBytes im = none → False) :=
  fun h => h (pkgOf { ctxF (headed 0x100000000000100000000000000000002) [] with tlb := [⟨0x10000, 0x10000, 0x0E05F00000000006, 3⟩] } (inst [tile
  0])) 1 15 _ _ _ 7 [(8, 9)] rfl rfl rfl (by decide +kernel) rfl (fun a h => nomatch h) _ rfl (Or.inl rfl) _ _ _ rfl rfl _ rfl rfl

theorem witness_Packet_loadk : ¬
    (∀ (s : State) (tag : Byte) (q : BitVec 4) (c : Context) (x : Queue) (p : Rec64) (n : W32) (rest : List (Rec64 × W32)), s.ctx? tag = some c →
    c.queues[q.toNat]? = some x → x.buf = (p, n) :: rest → s.chooseQueue c = some q → pkOk p = true → (∀ a ∈ x.started, a.ord ≠ x.ord ∧ (a.reads =
    true → a.pkt ≠ p)) →
    let taken := s.takeHeadPacket c q x p;
    ∀ (i : Instr), BitVec.toNat p % 256 = 2 → i = Instr.loadk tag q p ∨ i = Instr.queueArbitrate tag →
    let pieces := taken.objectPieces tag (BitVec.extractLsb' 64 64 p) (fld p 128 32);
    ∀ (ps : List (Loc × Size)) (r : Except Byte (List (Loc × Size × Option (List Byte)))) (s1 : State), pieces = EAcc.ok ps → taken.readImage tag
    (packetAsker q x.ord) (List.map (fun a => (a.1, a.2, none)) ps) = (r, s1) → ∀ (im : List (Loc × Size × Option (List Byte))) (bs : List Byte), r
    = Except.ok im → imageBytes im = some bs → c.loadsBefore (fld p 32 16) s.now = false → lookupKey (fld p 32 16) c.krefs = none → ∀ (code :
    Byte), verifyObject c bs = Except.error code → False) :=
  fun h => h (withRefs 0x100000000000100000000000000000002 []) 1 15 _ _ _ 7 [(8, 9)] rfl rfl rfl (by decide +kernel) rfl (fun a h => nomatch h) _
  rfl (Or.inl rfl) _ _ _ rfl rfl _ _ rfl rfl rfl rfl _ rfl

theorem witness_Packet_loadkAgain : ¬
    (∀ (s : State) (tag : Byte) (q : BitVec 4) (c : Context) (x : Queue) (p : Rec64) (n : W32) (rest : List (Rec64 × W32)), s.ctx? tag = some c →
    c.queues[q.toNat]? = some x → x.buf = (p, n) :: rest → s.chooseQueue c = some q → pkOk p = true → (∀ a ∈ x.started, a.ord ≠ x.ord ∧ (a.reads =
    true → a.pkt ≠ p)) →
    let taken := s.takeHeadPacket c q x p;
    ∀ (i : Instr), BitVec.toNat p % 256 = 2 → i = Instr.loadk tag q p ∨ i = Instr.queueArbitrate tag →
    let pieces := taken.objectPieces tag (BitVec.extractLsb' 64 64 p) (fld p 128 32);
    ∀ (ps : List (Loc × Size)) (r : Except Byte (List (Loc × Size × Option (List Byte)))) (s1 : State), pieces = EAcc.ok ps → taken.readImage tag
    (packetAsker q x.ord) (List.map (fun a => (a.1, a.2, none)) ps) = (r, s1) → ∀ (im : List (Loc × Size × Option (List Byte))) (bs : List Byte), r
    = Except.ok im → imageBytes im = some bs → c.loadsBefore (fld p 32 16) s.now = false → ∀ (k : Kernel), lookupKey (fld p 32 16) c.krefs = some k
    → q ∉ k.refs → k.digest = sha384 bs → False) :=
  fun h => h (withRefs 0x100000000000100000000000000000002 [(0, { kernel1 with refs := [0], digest := sha384 [0] })]) 1 15 _ _ _ 7 [(8, 9)] rfl rfl
  rfl (by decide +kernel) rfl (fun a h => nomatch h) _ rfl (Or.inl rfl) _ _ _ rfl rfl _ _ rfl rfl rfl
  { kernel1 with refs := [0], digest := sha384 [0] } rfl (by decide) rfl

theorem witness_Packet_loadkHeld : ¬
    (∀ (s : State) (tag : Byte) (q : BitVec 4) (c : Context) (x : Queue) (p : Rec64) (n : W32) (rest : List (Rec64 × W32)), s.ctx? tag = some c →
    c.queues[q.toNat]? = some x → x.buf = (p, n) :: rest → s.chooseQueue c = some q → pkOk p = true → (∀ a ∈ x.started, a.ord ≠ x.ord ∧ (a.reads =
    true → a.pkt ≠ p)) →
    let taken := s.takeHeadPacket c q x p;
    ∀ (i : Instr), BitVec.toNat p % 256 = 2 → i = Instr.loadk tag q p ∨ i = Instr.queueArbitrate tag →
    let pieces := taken.objectPieces tag (BitVec.extractLsb' 64 64 p) (fld p 128 32);
    ∀ (ps : List (Loc × Size)) (r : Except Byte (List (Loc × Size × Option (List Byte)))) (s1 : State), pieces = EAcc.ok ps → taken.readImage tag
    (packetAsker q x.ord) (List.map (fun a => (a.1, a.2, none)) ps) = (r, s1) → ∀ (im : List (Loc × Size × Option (List Byte))) (bs : List Byte), r
    = Except.ok im → imageBytes im = some bs → c.loadsBefore (fld p 32 16) s.now = false → ∀ (k : Kernel), lookupKey (fld p 32 16) c.krefs = some k
    → q ∈ k.refs ∨ k.digest ≠ sha384 bs → False) :=
  fun h => h (withRefs 0x100000000000100000000000000000002 [(0, kernel1)]) 1 15 _ _ _ 7 [(8, 9)] rfl rfl rfl (by decide +kernel) rfl (fun a h =>
  nomatch h) _ rfl (Or.inr rfl) _ _ _ rfl rfl _ _ rfl rfl rfl kernel1 rfl (Or.inl (by decide))

theorem witness_Packet_launch : ¬
    (∀ (s : State) (tag : Byte) (q : BitVec 4) (c : Context) (x : Queue) (p : Rec64) (n : W32) (rest : List (Rec64 × W32)), s.ctx? tag = some c →
    c.queues[q.toNat]? = some x → x.buf = (p, n) :: rest → s.chooseQueue c = some q → pkOk p = true → (∀ a ∈ x.started, a.ord ≠ x.ord ∧ (a.reads =
    true → a.pkt ≠ p)) → ∀ (i : Instr) (k : Kernel), BitVec.toNat p % 256 = 1 → i = Instr.launch tag q p ∨ i = Instr.queueArbitrate tag →
    c.kernelFor q (fld p 32 16) = some k → False) :=
  fun h => h (pkgOf { ctxQ (headed 0x1) with krefs := [(0, kernel1)] } (inst [tile 0])) 1 15 _ _ 1 7 [(8, 9)] rfl rfl rfl (by decide +kernel) rfl
  (fun a h => nomatch h) _ kernel1 rfl (Or.inl rfl) rfl

theorem witness_Packet_copy : ¬
    (∀ (s : State) (tag : Byte) (q : BitVec 4) (c : Context) (x : Queue) (p : Rec64) (n : W32) (rest : List (Rec64 × W32)), s.ctx? tag = some c →
    c.queues[q.toNat]? = some x → x.buf = (p, n) :: rest → s.chooseQueue c = some q → pkOk p = true → (∀ a ∈ x.started, a.ord ≠ x.ord ∧ (a.reads =
    true → a.pkt ≠ p)) →
    let taken := s.takeHeadPacket c q x p;
    ∀ (i : Instr) (ps : List (Loc × Size)) (bs : List Byte) (s1 : State) (e : CpEngine), BitVec.toNat p % 256 = 6 → i = Instr.queueCopy tag q p ∨ i
    = Instr.queueArbitrate tag → taken.checkRange noInst tag 0 AccKind.read false (BitVec.extractLsb' 64 64 p) 64 64 = EAcc.ok ps →
    taken.readPieces noInst (packetAsker q x.ord) 160 tag ps = (ERead.bytes bs, s1) → s.copy[s.queueEngine tag]? = some e → List.countP (fun k =>
    k.src == CpSrc.queue tag) e.waiting < 16 → s.insts.length ≤ noInst → False) :=
  fun h => h (atHead 0x100000000000000000006) 1 15 _ _ _ 7 [(8, 9)] rfl rfl rfl (by decide +kernel) rfl (fun a h => nomatch h) _ _ _ _ _ rfl
  (Or.inl rfl) rfl rfl rfl (by decide) (by decide)

/-! #### InstanceLives -/

theorem witness_Instance_place : ¬
    (∀ (s : State) (x : Inst) (c : Context), s.insts[s.focus.inst]? = some x → s.ctx? x.tag = some c → ∀ (alloc : List (Node × List ℕ)), x.st =
    InstState.submitted → c.active = true → x.args.length = 7 → (let s1 := s.adopt x;
    let preloaded := List.filter (s1.freePhys x.tag).contains (s.preloadedFor x.tag x.queue x.ord);
    ((allocTiles x.kernel.tileNodes preloaded).orElse fun x_1 => allocTiles x.kernel.tileNodes (s1.freePhys x.tag)) = some alloc) → False) :=
  fun h => h (pkg { Inst.submitted 1 15 kernel1 1 0 0 [1, 2, 3, 4, 5, 6, 7] with groups := [] }) _ _ rfl rfl [(⟨0, false, 1, 1, 0x1000, 0⟩, [0])]
  rfl rfl rfl (by decide +kernel)

theorem witness_Instance_start : ¬
    (∀ (s : State) (x : Inst) (c : Context), s.insts[s.focus.inst]? = some x → s.ctx? x.tag = some c → x.st = InstState.placed → c.active = true →
    (∀ n ∈ x.nodes, n.placed = true) → False) :=
  fun h => h (pkg { inst [{ tile 0 with seq := { (tile 0).seq with started := false } }] with st := .placed }) _ _ rfl rfl rfl (by decide)
  (by decide)

theorem witness_Instance_tileFinish : ¬
    (∀ (s : State) (x : Inst) (c : Context), s.insts[s.focus.inst]? = some x → s.ctx? x.tag = some c → ∀ (t : Tile), x.tiles[s.focus.tile]? = some
    t → t.seq.halted = true → t.seq.finished = false → BitVec.getLsbD t.sr.cause 31 = false → t.seq.block = none → t.seq.pend.any = false →
    t.seq.invWait = false → t.sbuf = [] → t.place = Place.running → s.workRetired s.focus.inst s.focus.tile t = true → False) :=
  fun h => h (pkg (inst [{ tile 0 with seq := { (tile 0).seq with halted := true } }])) _ _ rfl rfl _ rfl rfl rfl rfl rfl rfl rfl rfl rfl
  (by decide +kernel)

theorem witness_Instance_retire : ¬
    (∀ (s : State) (x : Inst) (c : Context), s.insts[s.focus.inst]? = some x → s.ctx? x.tag = some c → ∀ (y : Queue) (p : Started), x.st =
    InstState.draining → c.active = true → (∀ t ∈ x.tiles, t.seq.finished = true ∧ t.seq.block = none ∧ t.sbuf = []) → (∀ n ∈ x.nodes, n.finished =
    true) → c.queues[x.queue.toNat]? = some y → List.find? (fun p => p.ord == x.ord) y.started = some p → False) :=
  fun h => h (pkgOf (ctxQ { headed 8 with started := [⟨0x10100000000000000000000000000FFF0001, 4, false, 0, none⟩] })
  { inst [{ tile 0 with seq := { (tile 0).seq with finished := true } }] with st := .draining, queue := 15, ord := 4 }) _ _ rfl rfl _ _ rfl rfl
  (by decide) (by decide) rfl rfl

/-! #### FabricNodes -/

theorem witness_Fabric_none : ¬
    (∀ (i : Instr) (s : State) (x : Inst) (n : FabNode) (node lib : ℕ) (fire : FabNode → Option Firing), s.insts[s.focus.inst]? = some x → firingOf
    s x.kernel i = some (node, lib, fire) → x.nodes[node]? = some n → BitVec.toNat n.set.library = lib → s.nodeRuns x n = true → n.outs = [] → fire
    n = none → False) :=
  fun h => h (.join 0) (fabPkg (fab 10 [[]])) _ _ 0 10 _ rfl rfl rfl rfl rfl rfl rfl

theorem witness_Fabric_takes : ¬
    (∀ (i : Instr) (s : State) (x : Inst) (n : FabNode) (node lib : ℕ) (fire : FabNode → Option Firing), s.insts[s.focus.inst]? = some x → firingOf
    s x.kernel i = some (node, lib, fire) → x.nodes[node]? = some n → BitVec.toNat n.set.library = lib → s.nodeRuns x n = true → n.outs = [] → ∀ (r
    : Firing), fire n = some r → r.mis = false → r.outs = [] → False) :=
  fun h => h (.join 0) (fabPkg { fab 10 [[]] with ins := [(0, ⟨10, [(10, ⟨0, 3, true, true⟩)], 0, 0, false⟩)] }) _ _ 0 10 _ rfl rfl rfl rfl rfl rfl
  _ rfl rfl rfl

theorem witness_Fabric_shut : ¬
    (∀ (i : Instr) (s : State) (x : Inst) (n : FabNode) (node lib : ℕ) (fire : FabNode → Option Firing), s.insts[s.focus.inst]? = some x → firingOf
    s x.kernel i = some (node, lib, fire) → x.nodes[node]? = some n → BitVec.toNat n.set.library = lib → s.nodeRuns x n = true → n.outs = [] → ∀ (r
    : Firing), fire n = some r → r.mis = false → ∀ (p : ℕ) (fmt : BitVec 4) (u : LinkUnit) (e : Edge) (d : Node) (pos : ℕ) (y : Tile), r.outs =
    [(p, fmt, u)] → x.kernel.fabEdge r.node.id p = some (e, d, pos) → d.fabric = false → x.tiles[d.first + pos]? = some y → y.seq.finished = false
    →
    let plot := 4096 + r.node.plots.headD 0;
    let port := BitVec.extractLsb' 5 2 e.dstPort;
    let vc := BitVec.extractLsb' 0 5 e.dstPort;
    let shut := s.routeDead x.tag plot (some y.phys) = true ∨ localVc port vc = false ∨ (y.vcAt port vc).granted = 0;
    shut → False) :=
  fun h => h (.seqgen 0) (pkg (fabInstOf 0 (fab 9 [[0x155, 0xFFFFFFFF]]))) _ _ 0 9 _ rfl rfl rfl rfl rfl rfl _ rfl rfl 0 10 ⟨1, 3, false, false⟩ _
  _ _ _ rfl rfl rfl rfl rfl (Or.inr (Or.inr rfl))

theorem witness_Fabric_sends : ¬
    (∀ (i : Instr) (s : State) (x : Inst) (n : FabNode) (node lib : ℕ) (fire : FabNode → Option Firing), s.insts[s.focus.inst]? = some x → firingOf
    s x.kernel i = some (node, lib, fire) → x.nodes[node]? = some n → BitVec.toNat n.set.library = lib → s.nodeRuns x n = true → n.outs = [] → ∀ (r
    : Firing), fire n = some r → r.mis = false → ∀ (p : ℕ) (fmt : BitVec 4) (u : LinkUnit) (e : Edge) (d : Node) (pos : ℕ) (y : Tile), r.outs =
    [(p, fmt, u)] → x.kernel.fabEdge r.node.id p = some (e, d, pos) → d.fabric = false → x.tiles[d.first + pos]? = some y → y.seq.finished = false
    →
    let plot := 4096 + r.node.plots.headD 0;
    let port := BitVec.extractLsb' 5 2 e.dstPort;
    let vc := BitVec.extractLsb' 0 5 e.dstPort;
    let shut := s.routeDead x.tag plot (some y.phys) = true ∨ localVc port vc = false ∨ (y.vcAt port vc).granted = 0;
    ¬shut → False) :=
  fun h => h (.seqgen 0) (fabPkg (fab 9 [[0x155, 0xFFFFFFFF]])) _ _ 0 9 _ rfl rfl rfl rfl rfl rfl _ rfl rfl 0 10 ⟨1, 3, false, false⟩ _ _ _ _ rfl
  rfl rfl rfl rfl (fab_open _)

theorem witness_Fabric_steer : ¬
    (∀ (n : FabNode) (f g : BitVec 4) (d c : LinkUnit) (u : BitVec 4 × LinkUnit), n.par 0 1 = 0 → n.head? 0 = some (f, d) → n.head? 1 = some (g, c)
    → d.void = false → c.void = false → d.last = false → c.last = false →
    let sel := if c.bits.getLsbD 0 = true then 0 else 1;
    lookupKey sel n.heldUnits = some u → False) :=
  fun h => h { fab 1 [[7, 8], [1, 0]] with heldUnits := [(0, (10, ⟨6, 3, false, false⟩))] } 10 10 _ _ _ rfl rfl rfl rfl rfl rfl rfl rfl

theorem witness_Fabric_merge : ¬
    (∀ (n : FabNode) (f g : BitVec 4) (u c : LinkUnit), n.par 0 1 = 0 → n.took = [] → n.head? 0 = some (g, c) → c.void = false → c.last = false →
    n.head? (if c.bits.getLsbD 0 = true then 1 else 2) = some (f, u) → u.void = false → False) :=
  fun h => h (fab 2 [[0, 1], [7, 8], [9, 10]]) 10 10 _ _ rfl rfl rfl rfl rfl rfl rfl

theorem witness_Fabric_join : ¬
    (∀ (tag : Byte) (n : FabNode), (∀ p ≤ n.par 0 4, ∃ f u, n.head? p = some (f, u) ∧ u.void = false) → False) :=
  fun h => h 0xFF { fab 10 [[1], [2]] with set := { set 10 with params := 1 } }
  (by intro p hp; match p, hp with | 0, _ => exact ⟨_, _, rfl, rfl⟩ | 1, _ => exact ⟨_, _, rfl, rfl⟩ | n + 2, h => exact absurd h (by simp [FabNode.par, set, fld]))

theorem witness_Fabric_seqgen : ¬
    (∀ (n : FabNode) (f : BitVec 4) (u : LinkUnit), n.head? 0 = some (f, u) → u.void = false → False) :=
  fun h => h (fab 9 [[0xFFFFFFFF]]) 10 _ rfl rfl

theorem witness_Plots_place : ¬
    (∀ (s : State) (x : Inst) (n : FabNode) (node : ℕ) (c : Context), s.insts[s.focus.inst]? = some x → x.nodes[node]? = some n → s.ctx? x.tag =
    some c → s.dies ≤ 4 → ∀ d < s.dies, n.placed = false → n.finished = false → x.st ∉ [InstState.submitted, InstState.retired] → c.active = true →
    sha384 n.set.bits = n.set.image → n.set.plots ≤ (List.filter (fun p => p / 128 == d) (s.freePlots x.tag)).length → False) :=
  fun h => h { pkg { fabInst { fab 9 [[]] with placed := false, plots := [], gen := none } with st := .placing } with plots := [(511, ⟨1, false⟩)]
  } _ _ 0 _ rfl rfl rfl (by decide) 3 (by decide) rfl rfl (by decide) rfl rfl (by decide +kernel)

theorem witness_Plots_resume : ¬
    (∀ (s : State) (x : Inst) (n : FabNode) (node : ℕ) (c : Context), s.insts[s.focus.inst]? = some x → x.nodes[node]? = some n → s.ctx? x.tag =
    some c → s.dies ≤ 4 → n.placed = true → n.finished = false → x.st ∉ [InstState.submitted, InstState.retired] → c.active = true → n.pre.isSome =
    true → s.setStopped s.focus.inst node x n = true → givesWay n.served (s.plotWaiter c.tag) = false → False) :=
  fun h => h (fabPkg { fab 9 [[]] with pre := some 7 }) _ _ 0 _ rfl rfl rfl (by decide) rfl rfl (by decide) rfl rfl rfl rfl

theorem witness_Plots_move : ¬
    (∀ (s : State) (x : Inst) (n : FabNode) (node : ℕ) (c : Context), s.insts[s.focus.inst]? = some x → x.nodes[node]? = some n → s.ctx? x.tag =
    some c → s.dies ≤ 4 → ∀ (plot : ℕ), n.placed = true → n.inFrame = false ∨ n.stopped = true → n.finished = false → sha384 n.set.bits =
    n.set.image → plot ∈ s.freePlots x.tag → n.set.plots ≤ (List.filter (fun p => p / 128 == plot / 128) (s.freePlots x.tag)).length → False) :=
  fun h => h { fabPkg (fab 9 [[1]]) with plots := [(0, ⟨1, false⟩), (511, ⟨1, false⟩)] } _ _ 0 _ rfl rfl rfl (by decide) 511 rfl (Or.inl rfl) rfl
  rfl (by decide +kernel) (by decide +kernel)

theorem witness_Plots_finish : ¬
    (∀ (s : State) (x : Inst) (n : FabNode) (node : ℕ) (c : Context), s.insts[s.focus.inst]? = some x → x.nodes[node]? = some n → s.ctx? x.tag =
    some c → s.dies ≤ 4 →
    let set := x.fabSet n.id;
    n.finished = false → x.st = InstState.draining → c.active = true → (∀ e ∈ x.kernel.edges, e.dst ∈ set → e.src ∉ set → x.producerDone e = true ∧
    ∀ m ∈ x.nodes, m.id = e.src → s.outsLeave s.focus.inst x m = false) → (∀ m ∈ x.nodes, m.id ∈ set → s.outsLeave s.focus.inst x m = false ∧
    FabNode.fires x.kernel m = false) → (∀ (t : Tile), x.tiles[0]? = some t → BitVec.getLsbD t.sr.fmode 16 = false) → False) :=
  fun h => h (pkg { fabInst (fab 9 [[]]) with st := .draining }) _ _ 0 _ rfl rfl rfl (by decide) rfl rfl rfl (by decide) (by decide)
  (by intro t h; cases h; rfl)

theorem witness_Plots_moveStopped : ¬
    (∀ (s : State) (x : Inst) (n : FabNode) (node : ℕ) (c : Context), s.insts[s.focus.inst]? = some x → x.nodes[node]? = some n → s.ctx? x.tag =
    some c → s.dies ≤ 4 → ∀ (plot : ℕ), n.placed = true → n.inFrame = false ∨ n.stopped = true → n.finished = false → sha384 n.set.bits =
    n.set.image → plot ∈ s.freePlots x.tag → n.set.plots ≤ (List.filter (fun p => p / 128 == plot / 128) (s.freePlots x.tag)).length → False) :=
  fun h => h { fabPkg { fab 9 [[1]] with stopped := true, inFrame := true, outs := [(0, 10, ⟨1, 3, false, false⟩)] } with plots := [(0, ⟨1,
  false⟩), (511, ⟨1, false⟩)] } _ _ 0 _ rfl rfl rfl (by decide) 511 rfl (Or.inr rfl) rfl rfl (by decide +kernel) (by decide +kernel)

theorem witness_Plots_wavefront : ¬
    (∀ (s : State) (x : Inst) (n : FabNode) (node : ℕ) (c : Context), s.insts[s.focus.inst]? = some x → x.nodes[node]? = some n → s.ctx? x.tag =
    some c → s.dies ≤ 4 → ∀ y ∈ s.insts, x.st = InstState.draining → c.active = true → y.tag = x.tag → y.queue = x.queue → y.st ∈
    [InstState.submitted, InstState.placing, InstState.placed] → False) :=
  fun h => h { fabPkg (fab 9 [[]]) with insts := [{ fabInst (fab 9 [[]]) with st := .draining }, { inst [] with st := .submitted }] } _ _ 0 _ rfl
  rfl rfl (by decide) { inst [] with st := .submitted } (by simp) rfl rfl rfl rfl (by decide)

/-! #### LinkTransport -/

theorem witness_Port_partner : ¬
    (∀ (s : State) (port : ℕ) (p : Port), s.ports[port]? = some p → ∀ (sw : Bool), p.st = PortState.down → s.boot = Boot.ready → s.locked = false →
    port < 6 * s.dies → False) :=
  fun h => h (portP Port.down) 23 _ rfl true rfl rfl rfl (by decide)

theorem witness_Port_attest : ¬
    (∀ (s : State) (port : ℕ) (p : Port), s.ports[port]? = some p → ∀ (d : Digest), p.st = PortState.training ∨ p.switch = true ∧ (p.st =
    PortState.attested ∨ p.st = PortState.up) → s.locked = false → False) :=
  fun h => h (portP { Port.down with st := .training }) 23 _ rfl 0xABC (Or.inl rfl) rfl

theorem witness_Port_attestSwitch : ¬
    (∀ (s : State) (port : ℕ) (p : Port), s.ports[port]? = some p → ∀ (d : Digest), p.st = PortState.training ∨ p.switch = true ∧ (p.st =
    PortState.attested ∨ p.st = PortState.up) → s.locked = false → False) :=
  fun h => h (portP { up with switch := true }) 23 _ rfl 0xABD (Or.inr ⟨rfl, Or.inr rfl⟩) rfl

theorem witness_Port_credits : ¬
    (∀ (s : State) (port : ℕ) (p : Port), s.ports[port]? = some p → p.st = PortState.attested → False) :=
  fun h => h (portP { Port.down with st := .attested }) 23 _ rfl rfl

theorem witness_Port_drain : ¬
    (∀ (s : State) (port : ℕ) (p : Port), s.ports[port]? = some p → p.st = PortState.up → False) :=
  fun h => h (portP up) 23 _ rfl rfl

theorem witness_Port_lost : ¬
    (∀ (s : State) (port : ℕ) (p : Port), s.ports[port]? = some p → p.st = PortState.draining → p.group = [] → p.unacked = [] → False) :=
  fun h => h { sess (fun x => { x with outq := [.completion] }) [tile 0] with ports := (State.reset.ports.set 23
  { up with st := .draining, sent := [(1, 31, .abort)] }) } 23 _ rfl rfl rfl rfl

theorem witness_Port_drained : ¬
    (∀ (s : State) (port : ℕ) (p : Port), s.ports[port]? = some p → p.st = PortState.draining → p.group = [] → p.unacked = [] → False) :=
  fun h => h (portP { up with st := .draining }) 23 _ rfl rfl rfl rfl

theorem witness_Port_reenable : ¬
    (∀ (s : State) (port : ℕ) (p : Port), s.ports[port]? = some p → p.st = PortState.isolated → s.locked = false → False) :=
  fun h => h (portP { up with st := .isolated }) 23 _ rfl rfl rfl

theorem witness_Port_keys : ¬
    (∀ (s : State) (port : ℕ) (p : Port), s.ports[port]? = some p → p.peers ≠ [] → p.st ∈ [PortState.attested, PortState.up, PortState.draining] →
    False) :=
  fun h => h (portP up) 23 _ rfl (by decide) (by decide)

theorem witness_Port_index : ¬
    (∀ (s : State) (port : ℕ) (p : Port), s.ports[port]? = some p → ∀ (d : Digest) (idx : BitVec 16), p.switch = true → p.st ≠ PortState.down →
    p.st ≠ PortState.isolated → False) :=
  fun h => h (portP { up with switch := true }) 23 _ rfl 0xABC 65535 rfl (by decide) (by decide)

theorem witness_Group_badCrc : ¬
    (∀ (s : State) (port : ℕ) (p : Port), s.ports[port]? = some p → ∀ (g : LinkGroup), p.st ∈ [PortState.attested, PortState.up,
    PortState.draining] → g.data.length = 64 → groupCrcOk g = false → False) :=
  fun h => h (portP up) 23 _ rfl (group 0) (by decide) rfl (by decide +kernel)

theorem witness_Group_crc : ¬
    (∀ (s : State) (port : ℕ) (p : Port), s.ports[port]? = some p → ∀ (g : LinkGroup), p.st ∈ [PortState.attested, PortState.up,
    PortState.draining] → g.data.length = 64 → groupCrcOk g = true → False) :=
  fun h => h (portP up) 23 _ rfl (group (0xad66584 <<< 704)) (by decide) rfl (by decide +kernel)

theorem witness_Group_again : ¬
    (∀ (s : State) (port : ℕ) (p : Port), s.ports[port]? = some p → p.st ∈ [PortState.up, PortState.draining] → p.unacked ≠ [] → p.retrying = false
    → False) :=
  fun h => h (portP { up with unacked := [stray], failed := 14 }) 23 _ rfl (by decide) (by decide) (by decide)

theorem witness_Group_retry : ¬
    (∀ (s : State) (port : ℕ) (p : Port), s.ports[port]? = some p → p.st ∈ [PortState.up, PortState.draining] → p.unacked ≠ [] → p.retrying = true
    → p.failed < 15 → False) :=
  fun h => h (portP { up with unacked := [stray], failed := 14, retrying := true }) 23 _ rfl (by decide) (by decide) rfl (by decide)

theorem witness_Group_down : ¬
    (∀ (s : State) (port : ℕ) (p : Port), s.ports[port]? = some p → p.st ∈ [PortState.up, PortState.draining] → p.unacked ≠ [] → p.retrying = true
    → 15 ≤ p.failed → False) :=
  fun h => h (portP { up with unacked := [stray], failed := 15, retrying := true }) 23 _ rfl (by decide) (by decide) rfl (by decide)

theorem witness_Flit_abort : ¬
    (∀ (s : State) (port : ℕ) (p : Port), s.ports[port]? = some p → p.st = PortState.up → p.control = [] → p.group.length < 63 → ∀ (tag : Byte) (i
    : BitVec 5) (d : Digest) (q : ℕ), s.nextAbort port p = some (tag, i, d, q) → False) :=
  fun h => h { portP up with aborts := [(1, 31, 0xABC, 23)] } 23 _ rfl rfl rfl (by decide) 1 31 0xABC 23 rfl

theorem witness_Flit_message : ¬
    (∀ (s : State) (port : ℕ) (p : Port), s.ports[port]? = some p → p.st = PortState.up → p.control = [] → p.group.length < 63 → s.nextAbort port p
    = none → ∀ (m : Sendable), s.sendables port = [m] → m.cls ∉ [254, 255] → p.hasCredit m.cls = true → p.takesFor m.peer = true → False) :=
  fun h => h (sends (fun x => { x with part := [5] })) 23 up rfl rfl rfl (by decide) rfl _ sends_message (by decide) (by decide) (by decide)

theorem witness_Flit_messageBegins : ¬
    (∀ (s : State) (port : ℕ) (p : Port), s.ports[port]? = some p → p.st = PortState.up → p.control = [] → p.group.length < 63 → s.nextAbort port p
    = none → ∀ (m : Sendable), s.sendables port = [m] → m.cls ∉ [254, 255] → p.hasCredit m.cls = true → p.takesFor m.peer = true → False) :=
  fun h => h (sends (fun x => { x with outq := [.completion] })) 23 up rfl rfl rfl (by decide) rfl _ sends_begins (by decide) (by decide)
  (by decide)

theorem witness_Flit_hazel : ¬
    (∀ (s : State) (port : ℕ) (p : Port), s.ports[port]? = some p → p.st = PortState.up → p.control = [] → p.group.length < 63 → s.nextAbort port p
    = none → ∀ (m : Sendable) (b : MsgBody) (l : List MsgBody), s.sendables port = [m] → m.cls = 254 → m.begins = some (b, l) → p.takesFor m.peer =
    true → False) :=
  fun h => h (sends (fun x => { x with send := false, outq := [.completion] })) 23 up rfl rfl rfl (by decide) rfl _ .completion [] sends_hazel rfl
  rfl (by decide)

theorem witness_Flit_idle : ¬
    (∀ (s : State) (port : ℕ) (p : Port), s.ports[port]? = some p → p.st = PortState.up → p.control = [] → p.group.length < 63 → s.nextAbort port p
    = none → ∀ (d : Digest), s.sendables port = [] → p.idleFor = some d → False) :=
  fun h => h (portP up) 23 _ rfl rfl rfl (by decide) rfl _ rfl rfl

theorem witness_Flit_idleEnd : ¬
    (∀ (s : State) (port : ℕ) (p : Port), s.ports[port]? = some p → p.st = PortState.up → ∀ (d : Digest), p.control = [] → s.nextAbort port p =
    none → s.sendables port = [] → p.group.length = 63 → p.idleFor = some d → False) :=
  fun h => h (portP { up with group := List.replicate 63 ⟨0xFF, none, 0⟩, dest := 0xABC }) 23 _ rfl rfl 0xABC rfl rfl rfl rfl rfl

/-! #### LinkSessions -/

theorem witness_Session_open : ¬
    (∀ (s : State) (tag : Byte) (i : BitVec 5) (c : Context) (x : Session), s.ctx? tag = some c → c.sessions[i.toNat]? = some x → ∀ (peer :
    PeerOffer) (d : Digest) (send recv : Bool) (k : Byte) (p : Port), (c.policy.bind fun y => y.peers[i.toNat]?) = some (some (d, send, recv)) →
    (if (send && peer.receive) = true then s.classOn tag peer.port = some k else k = 0) → s.ports[peer.port]? = some p → s.locked = false →
    x.opened = false → x.part = [] → (∀ a ∈ s.aborts, ¬(a.1 = tag ∧ a.2.1 = i)) → (∀ q ∈ s.ports.toList, ∀ f ∈ q.pending, f.2.owner ≠ some (tag,
    i)) → c.st ∈ [CtxState.sealed, CtxState.running, CtxState.paused] → d = peer.package → peer.namesUs = true → peer.active = true → peer.busy =
    false → p.reaches d = true → (send && peer.receive || recv && peer.send) = true → (∀ b ∈ s.ctxs, b.qualifies i peer = true → c.sealedAt ≤
    b.sealedAt) → False) :=
  fun h => h { pkgOf { ctx with policy := some policy } (inst [tile 0]) with ports := State.reset.ports.set 23 up } 1 31 _ Session.closed rfl rfl
  ⟨0xABC, true, true, false, true, true, 23⟩ 0xABC true false 1 up rfl rfl rfl rfl rfl rfl (fun a h => nomatch h) (by decide +kernel) (by decide)
  rfl rfl rfl rfl rfl rfl (by intro b hb _; cases hb with | head => exact Nat.le_refl _ | tail _ h => exact nomatch h)

theorem witness_Session_later : ¬
    (∀ (s : State) (tag : Byte) (i : BitVec 5) (c : Context) (x : Session), s.ctx? tag = some c → c.sessions[i.toNat]? = some x → ∀ (peer :
    PeerOffer) (d : Digest) (send recv : Bool) (k : Byte) (p : Port), (c.policy.bind fun y => y.peers[i.toNat]?) = some (some (d, send, recv)) →
    (if (send && peer.receive) = true then s.classOn tag peer.port = some k else k = 0) → s.ports[peer.port]? = some p → s.locked = false →
    x.opened = false → x.part = [] → (∀ a ∈ s.aborts, ¬(a.1 = tag ∧ a.2.1 = i)) → (∀ q ∈ s.ports.toList, ∀ f ∈ q.pending, f.2.owner ≠ some (tag,
    i)) → c.st ∈ [CtxState.sealed, CtxState.running, CtxState.paused] → d = peer.package → peer.namesUs = true → peer.active = true → peer.busy =
    false → p.reaches d = true → (send && peer.receive || recv && peer.send) = true → (∃ b ∈ s.ctxs, b.qualifies i peer = true ∧ b.sealedAt <
    c.sealedAt) → False) :=
  fun h => h twoSealed 1 31 _ Session.closed rfl rfl ⟨0xABC, true, true, false, true, true, 23⟩ 0xABC true false 1 up rfl rfl rfl rfl rfl rfl (fun
  a h => nomatch h) (by decide +kernel) (by decide) rfl rfl rfl rfl rfl rfl ⟨_, List.mem_cons_of_mem _ (List.mem_cons_self ..), rfl, by decide⟩

theorem witness_Session_abort : ¬
    (∀ (s : State) (tag : Byte) (i : BitVec 5) (c : Context) (x : Session), s.ctx? tag = some c → c.sessions[i.toNat]? = some x → x.opened = true →
    ∀ (e : Instr) (sends : Bool), (e = Instr.sessionAbort tag i ∧ sends = true ∨ e = Instr.linkAbort tag i ∧ sends = false ∧ (s.arrived tag i 10
    0).isSome = true ∨ e = Instr.sessionPortTimeout tag i ∧ sends = true ∧ ∀ p ∈ s.ports.toList, p.reaches x.peer = false) → False) :=
  fun h => h (sess (fun x => { x with stores := [ask], outq := [.completion] }) [{ tile 0 with sbuf := [.plain (.remote 31 0x10) 1 2 0x10010 0] }])
  1 31 _ _ rfl rfl rfl _ _ (Or.inl ⟨rfl, rfl⟩)

theorem witness_Session_linkAbort : ¬
    (∀ (s : State) (tag : Byte) (i : BitVec 5) (c : Context) (x : Session), s.ctx? tag = some c → c.sessions[i.toNat]? = some x → x.opened = true →
    ∀ (e : Instr) (sends : Bool), (e = Instr.sessionAbort tag i ∧ sends = true ∨ e = Instr.linkAbort tag i ∧ sends = false ∧ (s.arrived tag i 10
    0).isSome = true ∨ e = Instr.sessionPortTimeout tag i ∧ sends = true ∧ ∀ p ∈ s.ports.toList, p.reaches x.peer = false) → False) :=
  fun h => h (gets 10 0 id [tile 0]) 1 31 _ _ rfl rfl rfl _ _ (Or.inr (Or.inl ⟨rfl, rfl, by decide +kernel⟩))

theorem witness_Session_timeout : ¬
    (∀ (s : State) (tag : Byte) (i : BitVec 5) (c : Context) (x : Session), s.ctx? tag = some c → c.sessions[i.toNat]? = some x → x.opened = true →
    ∀ (e : Instr) (sends : Bool), (e = Instr.sessionAbort tag i ∧ sends = true ∨ e = Instr.linkAbort tag i ∧ sends = false ∧ (s.arrived tag i 10
    0).isSome = true ∨ e = Instr.sessionPortTimeout tag i ∧ sends = true ∧ ∀ p ∈ s.ports.toList, p.reaches x.peer = false) → False) :=
  fun h => h { sess id [tile 0] with ports := State.reset.ports } 1 31 _ _ rfl rfl rfl _ _ (Or.inr (Or.inr ⟨rfl, rfl, by decide⟩))

/-! #### LinkMessages -/

theorem witness_Message_none : ¬
    (∀ (s : State) (tag : Byte) (i : BitVec 5) (c : Context) (x : Session), s.ctx? tag = some c → c.sessions[i.toNat]? = some x → ∀ (e : Instr)
    (kind : ℕ) (va : W64), linkMessage e = some (tag, i, kind, va) → s.arrived tag i kind va = none → False) :=
  fun h => h (sess id [tile 0]) 1 31 _ _ rfl rfl  (.linkDemandGrant 1 31 31 0 5) 2 0 rfl (by decide +kernel)

theorem witness_Message_closed : ¬
    (∀ (s : State) (tag : Byte) (i : BitVec 5) (c : Context) (x : Session), s.ctx? tag = some c → c.sessions[i.toNat]? = some x → ∀ (e : Instr)
    (kind : ℕ) (va : W64), linkMessage e = some (tag, i, kind, va) → ∀ (a : Arrival), s.arrived tag i kind va = some a → x.opened = false → False)
    :=
  fun h => h (gets 2 0 (fun x => { x with opened := false }) [tile 0]) 1 31 _ _ rfl rfl  (.linkDemandGrant 1 31 31 0 5) 2 0 rfl (coming 2 0)
  (by decide +kernel) rfl

theorem witness_Message_leaves : ¬
    (∀ (s : State) (tag : Byte) (i : BitVec 5) (c : Context) (x : Session), s.ctx? tag = some c → c.sessions[i.toNat]? = some x → ∀ (a : Arrival)
    (n : ℕ) (p : Port), a.port = some n → a.cls ≠ 254 → s.ports[n]? = some p → False) :=
  fun h => h (gets 2 0 id [tile 0]) 1 31 _ _ rfl rfl  (coming 2 0) 23 _ rfl (by decide) rfl

theorem witness_Message_units : ¬
    (∀ (s : State) (tag : Byte) (i : BitVec 5) (c : Context) (x : Session), s.ctx? tag = some c → c.sessions[i.toNat]? = some x → ∀ (a : Arrival),
    x.opened = true → s.canonical = true → s.insts.length ≤ noInst →
    let here := fun kind va => s.arrived tag i kind va = some a;
    ∀ (vc : BitVec 5) (tile : BitVec 16) (fmt : BitVec 4) (u : LinkUnit) (j : ℕ) (y : Tile), here 1 0 → x.receive = true → c.active = true → 16 ≤
    vc.toNat → s.unitTarget tag tile.toNat vc = some j → s.tile? j tile.toNat = some y → y.seq.finished = false → (y.vcAt 3 vc).granted ≠ 0 →
    False) :=
  fun h => h (gets 1 0 id [{ tile 0 with vc := (tile 0).vc.set 127 { Vc.empty with granted := 1, entry := 1 } }]) 1 31 _ _ rfl rfl (coming 1 0) rfl
  (by decide) (by decide) 31 0 10 ⟨7, 3, true, false⟩ 0 _ (by decide +kernel) rfl rfl (by decide) rfl rfl rfl (by decide)

theorem witness_Message_demand : ¬
    (∀ (s : State) (tag : Byte) (i : BitVec 5) (c : Context) (x : Session), s.ctx? tag = some c → c.sessions[i.toNat]? = some x → ∀ (a : Arrival),
    x.opened = true → s.canonical = true → s.insts.length ≤ noInst →
    let here := fun kind va => s.arrived tag i kind va = some a;
    ∀ (vc : BitVec 5) (tile : BitVec 16) (n : ℕ), here 2 0 → x.send = true → False) :=
  fun h => h (gets 2 0 (fun x => { x with demand := [((65535, 31), 4)] }) [tile 0]) 1 31 _ _ rfl rfl (coming 2 0) rfl (by decide) (by decide) 31
  65535 2 (by decide +kernel) rfl

theorem witness_Message_read : ¬
    (∀ (s : State) (tag : Byte) (i : BitVec 5) (c : Context) (x : Session), s.ctx? tag = some c → c.sessions[i.toNat]? = some x → ∀ (a : Arrival),
    x.opened = true → s.canonical = true → s.insts.length ≤ noInst →
    let here := fun kind va => s.arrived tag i kind va = some a;
    let s1 := s.msgLeaves a;
    let at? := fun k n va l => BitVec.toNat va < 2 ^ 44 ∧ s1.checkTag noInst tag (AccReq.plain k n) va = Acc.loc l ∧ l.isRemote = false ∧
        s1.reservedElsewhere noInst 0 l n = false ∧ s1.badLoc noInst l n = false;
    ∀ (va : W64) (sz : Size) (l : Loc), here 3 va → x.receive = true → x.send = true → at? AccKind.read sz.bytes va l → False) :=
  fun h => h (gets 3 0x1FFF8 id [tile 0]) 1 31 _ _ rfl rfl (coming 3 0x1FFF8) rfl (by decide) (by decide) 0x1FFF8 .b8 (.hbm 0xA0FFF8)
  (by decide +kernel) rfl rfl ⟨by decide, rfl, rfl, rfl, rfl⟩

theorem witness_Message_write : ¬
    (∀ (s : State) (tag : Byte) (i : BitVec 5) (c : Context) (x : Session), s.ctx? tag = some c → c.sessions[i.toNat]? = some x → ∀ (a : Arrival),
    x.opened = true → s.canonical = true → s.insts.length ≤ noInst →
    let here := fun kind va => s.arrived tag i kind va = some a;
    let s1 := s.msgLeaves a;
    let at? := fun k n va l => BitVec.toNat va < 2 ^ 44 ∧ s1.checkTag noInst tag (AccReq.plain k n) va = Acc.loc l ∧ l.isRemote = false ∧
        s1.reservedElsewhere noInst 0 l n = false ∧ s1.badLoc noInst l n = false;
    ∀ (va : W64) (sz : Size) (l : Loc) (data : W64), here 5 va → x.receive = true → at? AccKind.write sz.bytes va l → False) :=
  fun h => h (gets 5 0x20001 id [tile 0]) 1 31 _ _ rfl rfl (coming 5 0x20001) rfl (by decide) (by decide) 0x20001 .b1 (.host 1) 0x1FF
  (by decide +kernel) rfl ⟨by decide, rfl, rfl, rfl, rfl⟩

theorem witness_Message_atomic : ¬
    (∀ (s : State) (tag : Byte) (i : BitVec 5) (c : Context) (x : Session), s.ctx? tag = some c → c.sessions[i.toNat]? = some x → ∀ (a : Arrival),
    x.opened = true → s.canonical = true → s.insts.length ≤ noInst →
    let here := fun kind va => s.arrived tag i kind va = some a;
    let s1 := s.msgLeaves a;
    let at? := fun k n va l => BitVec.toNat va < 2 ^ 44 ∧ s1.checkTag noInst tag (AccReq.plain k n) va = Acc.loc l ∧ l.isRemote = false ∧
        s1.reservedElsewhere noInst 0 l n = false ∧ s1.badLoc noInst l n = false;
    ∀ (va : W64) (op : AtomicOp) (wide : Bool) (b d : W64) (l : Loc), here 6 va → x.receive = true → x.send = true → at? AccKind.atomic (if wide =
    true then 8 else 4) va l → (∃ p, l = Loc.hbm p) ∨ hostAtomic op = true → False) :=
  fun h => h (gets 6 0x10004 id [tile 0]) 1 31 _ _ rfl rfl (coming 6 0x10004) rfl (by decide) (by decide) 0x10004 .max false 0xFFFFFFFF 0 (.hbm
  0xA00004) (by decide +kernel) rfl rfl ⟨by decide, rfl, rfl, rfl, rfl⟩ (Or.inl ⟨_, rfl⟩)

theorem witness_Message_refused : ¬
    (∀ (s : State) (tag : Byte) (i : BitVec 5) (c : Context) (x : Session), s.ctx? tag = some c → c.sessions[i.toNat]? = some x → ∀ (a : Arrival),
    x.opened = true → s.canonical = true → s.insts.length ≤ noInst →
    let here := fun kind va => s.arrived tag i kind va = some a;
    let s1 := s.msgLeaves a;
    ∀ (e : Instr) (kind : ℕ) (va : W64) (k : AccKind) (n : ℕ) (code : Byte) (p : Option (W64 × ℕ × Bool × ℕ)), x.receive = true → x.send = true →
    ((∃ sz, e = Instr.linkReadRequest tag i va sz ∧ kind = 3 ∧ k = AccKind.read ∧ n = sz.bytes) ∨ (∃ sz v, e = Instr.linkWrite tag i va sz v ∧ kind
    = 5 ∧ k = AccKind.write ∧ n = sz.bytes) ∨ ∃ op wide b d, e = Instr.linkAtomic tag i va op wide b d ∧ kind = 6 ∧ k = AccKind.atomic ∧ n = if
    wide = true then 8 else 4) → here kind va → BitVec.toNat va < 2 ^ 44 → s1.checkTag noInst tag (AccReq.plain k n) va = Acc.fault code p → False)
    :=
  fun h => h (gets 3 0x400000 id [tile 0]) 1 31 _ _ rfl rfl (coming 3 0x400000) rfl (by decide) (by decide) _ 3 0x400000 .read 8 _ _ rfl rfl
  (Or.inl ⟨.b8, rfl, rfl, rfl, rfl⟩) (by decide +kernel) (by decide) rfl

theorem witness_Message_refusedWrite : ¬
    (∀ (s : State) (tag : Byte) (i : BitVec 5) (c : Context) (x : Session), s.ctx? tag = some c → c.sessions[i.toNat]? = some x → ∀ (a : Arrival),
    x.opened = true → s.canonical = true → s.insts.length ≤ noInst →
    let here := fun kind va => s.arrived tag i kind va = some a;
    let s1 := s.msgLeaves a;
    ∀ (e : Instr) (kind : ℕ) (va : W64) (k : AccKind) (n : ℕ) (code : Byte) (p : Option (W64 × ℕ × Bool × ℕ)), x.receive = true → x.send = true →
    ((∃ sz, e = Instr.linkReadRequest tag i va sz ∧ kind = 3 ∧ k = AccKind.read ∧ n = sz.bytes) ∨ (∃ sz v, e = Instr.linkWrite tag i va sz v ∧ kind
    = 5 ∧ k = AccKind.write ∧ n = sz.bytes) ∨ ∃ op wide b d, e = Instr.linkAtomic tag i va op wide b d ∧ kind = 6 ∧ k = AccKind.atomic ∧ n = if
    wide = true then 8 else 4) → here kind va → BitVec.toNat va < 2 ^ 44 → s1.checkTag noInst tag (AccReq.plain k n) va = Acc.fault code p → False)
    :=
  fun h => h (gets 5 0x400000 id [tile 0]) 1 31 _ _ rfl rfl (coming 5 0x400000) rfl (by decide) (by decide) _ 5 0x400000 .write 8 _ _ rfl rfl
  (Or.inr (Or.inl ⟨.b8, 7, rfl, rfl, rfl, rfl⟩)) (by decide +kernel) (by decide) rfl

theorem witness_Message_refusedAtomic : ¬
    (∀ (s : State) (tag : Byte) (i : BitVec 5) (c : Context) (x : Session), s.ctx? tag = some c → c.sessions[i.toNat]? = some x → ∀ (a : Arrival),
    x.opened = true → s.canonical = true → s.insts.length ≤ noInst →
    let here := fun kind va => s.arrived tag i kind va = some a;
    let s1 := s.msgLeaves a;
    ∀ (e : Instr) (kind : ℕ) (va : W64) (k : AccKind) (n : ℕ) (code : Byte) (p : Option (W64 × ℕ × Bool × ℕ)), x.receive = true → x.send = true →
    ((∃ sz, e = Instr.linkReadRequest tag i va sz ∧ kind = 3 ∧ k = AccKind.read ∧ n = sz.bytes) ∨ (∃ sz v, e = Instr.linkWrite tag i va sz v ∧ kind
    = 5 ∧ k = AccKind.write ∧ n = sz.bytes) ∨ ∃ op wide b d, e = Instr.linkAtomic tag i va op wide b d ∧ kind = 6 ∧ k = AccKind.atomic ∧ n = if
    wide = true then 8 else 4) → here kind va → BitVec.toNat va < 2 ^ 44 → s1.checkTag noInst tag (AccReq.plain k n) va = Acc.fault code p → False)
    :=
  fun h => h (gets 6 0x400000 id [tile 0]) 1 31 _ _ rfl rfl (coming 6 0x400000) rfl (by decide) (by decide) _ 6 0x400000 .atomic 8 _ _ rfl rfl
  (Or.inr (Or.inr ⟨.add, true, 0, 0, rfl, rfl, rfl, rfl⟩)) (by decide +kernel) (by decide) rfl

theorem witness_Message_walk : ¬
    (∀ (s : State) (tag : Byte) (i : BitVec 5) (c : Context) (x : Session), s.ctx? tag = some c → c.sessions[i.toNat]? = some x → ∀ (a : Arrival),
    x.opened = true → s.canonical = true → s.insts.length ≤ noInst →
    let here := fun kind va => s.arrived tag i kind va = some a;
    ∀ (lvl ea : ℕ) (v : W64) (rest : List (Option Ask)), x.asked = some (walkAsk lvl ea v) :: rest → lvl < 4 → ∀ (d : W64), here 4 0 → False) :=
  fun h => h (gets 4 0 (fun x => { x with asked := [some (walkAsk 0 0x7000 0x10000), none] }) [tile 0]) 1 31 _ _ rfl rfl (coming 4 0) rfl
  (by decide) (by decide) 0 0x7000 0x10000 [none] rfl (by decide) 5 (by decide +kernel)

theorem witness_Message_walkRefused : ¬
    (∀ (s : State) (tag : Byte) (i : BitVec 5) (c : Context) (x : Session), s.ctx? tag = some c → c.sessions[i.toNat]? = some x → ∀ (a : Arrival),
    x.opened = true → s.canonical = true → s.insts.length ≤ noInst →
    let here := fun kind va => s.arrived tag i kind va = some a;
    ∀ (lvl ea : ℕ) (v : W64) (rest : List (Option Ask)), x.asked = some (walkAsk lvl ea v) :: rest → lvl < 4 → ∀ (code : BitVec 8), here 9 0 →
    False) :=
  fun h => h (gets 9 0 (fun x => { x with asked := [some (walkAsk 0 0x7000 0x10000), none] }) [tile 0]) 1 31 _ _ rfl rfl (coming 9 0) rfl
  (by decide) (by decide) 0 0x7000 0x10000 [none] rfl (by decide) 0x12 (by decide +kernel)

theorem witness_Message_answer : ¬
    (∀ (s : State) (tag : Byte) (i : BitVec 5) (c : Context) (x : Session), s.ctx? tag = some c → c.sessions[i.toNat]? = some x → ∀ (a : Arrival),
    x.opened = true → s.canonical = true → s.insts.length ≤ noInst →
    let here := fun kind va => s.arrived tag i kind va = some a;
    ∀ (q : Ask) (rest : List (Option Ask)) (v : W64), x.asked = some q :: rest → q.isWalk = false → here 4 0 → False) :=
  fun h => h (gets 4 0 (fun x => { x with asked := [some ask, none] }) [tile 0]) 1 31 _ _ rfl rfl (coming 4 0) rfl (by decide) (by decide) ask
  [none] 5 rfl rfl (by decide +kernel)

theorem witness_Message_atomicAnswer : ¬
    (∀ (s : State) (tag : Byte) (i : BitVec 5) (c : Context) (x : Session), s.ctx? tag = some c → c.sessions[i.toNat]? = some x → ∀ (a : Arrival),
    x.opened = true → s.canonical = true → s.insts.length ≤ noInst →
    let here := fun kind va => s.arrived tag i kind va = some a;
    ∀ (q : Ask) (rest : List (Option Ask)) (v : W64), x.asked = some q :: rest → q.isWalk = false → here 7 0 → False) :=
  fun h => h (gets 7 0 (fun x => { x with asked := [some ask, none] }) [tile 0]) 1 31 _ _ rfl rfl (coming 7 0) rfl (by decide) (by decide) ask
  [none] 5 rfl rfl (by decide +kernel)

theorem witness_Message_faultAnswer : ¬
    (∀ (s : State) (tag : Byte) (i : BitVec 5) (c : Context) (x : Session), s.ctx? tag = some c → c.sessions[i.toNat]? = some x → ∀ (a : Arrival),
    x.opened = true → s.canonical = true → s.insts.length ≤ noInst →
    let here := fun kind va => s.arrived tag i kind va = some a;
    ∀ (q : Ask) (rest : List (Option Ask)) (v : W64), x.asked = some q :: rest → q.isWalk = false → ∀ (code : BitVec 8), here 9 0 → False) :=
  fun h => h (gets 9 0 (fun x => { x with asked := [some ask, none] }) [tile 0]) 1 31 _ _ rfl rfl (coming 9 0) rfl (by decide) (by decide) ask
  [none] 5 rfl rfl 0x12 (by decide +kernel)

theorem witness_Message_completion : ¬
    (∀ (s : State) (tag : Byte) (i : BitVec 5) (c : Context) (x : Session), s.ctx? tag = some c → c.sessions[i.toNat]? = some x → ∀ (a : Arrival),
    x.opened = true → s.canonical = true → s.insts.length ≤ noInst →
    let here := fun kind va => s.arrived tag i kind va = some a;
    ∀ (q : Ask) (rest : List Ask) (t : Tile) (p : PStore) (l : List PStore), x.stores = q :: rest → q.who = whoStore → s.tile? q.inst q.tile = some
    t → t.sbuf = p :: l → (∀ r ∈ l, r.loc.isRemote = false) → here 8 0 → False) :=
  fun h => h (gets 8 0 (fun x => { x with stores := [ask] }) [{ tile 0 with sbuf := [.plain (.remote 31 0x10) 1 2 0x10010 0] }]) 1 31 _ _ rfl rfl
  (coming 8 0) rfl (by decide) (by decide) _ [] _ _ [] rfl rfl rfl rfl (by decide) (by decide +kernel)

theorem witness_Message_fault : ¬
    (∀ (s : State) (tag : Byte) (i : BitVec 5) (c : Context) (x : Session), s.ctx? tag = some c → c.sessions[i.toNat]? = some x → ∀ (a : Arrival),
    x.opened = true → s.canonical = true → s.insts.length ≤ noInst →
    let here := fun kind va => s.arrived tag i kind va = some a;
    ∀ (q : Ask) (rest : List Ask) (t : Tile) (p : PStore) (l : List PStore), x.stores = q :: rest → q.who = whoStore → s.tile? q.inst q.tile = some
    t → t.sbuf = p :: l → (∀ r ∈ l, r.loc.isRemote = false) → ∀ (code : BitVec 8), here 9 0 → t.seq.finished = false → t.seq.pend.eng0.length < 16
    → False) :=
  fun h => h (gets 9 0 (fun x => { x with stores := [ask] }) [{ tile 0 with sbuf := [.plain (.remote 31 0x10) 1 2 0x10010 0] }]) 1 31 _ _ rfl rfl
  (coming 9 0) rfl (by decide) (by decide) _ [] _ _ [] rfl rfl rfl rfl (by decide) 0x12 (by decide +kernel) rfl (by decide)

/-! #### ContextsCreated -/

theorem witness_Create : ¬
    (∀ (s : State) (cmd : Rec64) (tag : Byte), MayPerform s cmd 1 → (∀ c ∈ s.popCommand.ctxs, BitVec.toNat c.vf ≠ arg cmd 128 8) → 1 ≤ BitVec.toNat
    tag → BitVec.toNat tag ≤ 254 → s.popCommand.ctx? tag = none → (∀ (k : Byte), 1 ≤ BitVec.toNat k → BitVec.toNat k < BitVec.toNat tag →
    s.popCommand.ctx? k ≠ none) → False) :=
  fun h => h (told ctx (cmd 1 0 254)) (cmd 1 0 254) 2 ⟨rfl, rfl, rfl, rfl, rfl⟩ (by decide) (by decide) (by decide) (by decide)
  (by intro k h1 h2; have : k = 1 := (by bv_omega); subst this; decide)

theorem witness_Policy_load : ¬
    (∀ (s : State) (cmd : Rec64) (c : Context), MayPerform s cmd 2 → Names s cmd 2 c → c.st = CtxState.building → c.policy = none → 96 ≤ arg cmd
    192 16 → s.iommu = [] → False) :=
  fun h => h (told { ctxIn .building with policy := none } (cmd 2 1 (96 * 2 ^ 64))) (cmd 2 1 (96 * 2 ^ 64)) _ ⟨rfl, rfl, rfl, rfl, rfl⟩ ⟨rfl, rfl,
  Or.inl rfl⟩ rfl rfl (by decide) rfl

theorem witness_Grant : ¬
    (∀ (s : State) (cmd : Rec64) (c : Context) (y : Policy) (r : Resources), MayPerform s cmd 3 → Names s cmd 3 c → c.st = CtxState.building →
    c.policy = some y → c.tag ≠ 0 → s.canonical = true →
    let g := { tiles := arg cmd 128 16, plots := arg cmd 144 16, hbm := arg cmd 160 32 };
    1 ≤ g.tiles → g.tiles ≤ y.tiles → g.plots ≤ y.plots → g.hbm ≤ y.hbm → (s.freeResources c.tag).findResources g = some r → False) :=
  fun h => h (told (ctxIn .building) (cmd 3 1 (1 + 2 ^ 32))) (cmd 3 1 (1 + 2 ^ 32)) _ policy ⟨[0], [], [0], [1]⟩ ⟨rfl, rfl, rfl, rfl, rfl⟩ ⟨rfl,
  rfl, Or.inl rfl⟩ rfl rfl (by decide) (by decide) (by decide) (by decide) (by decide) (by decide) (by decide +kernel)

theorem witness_Seal : ¬
    (∀ (s : State) (tag : Byte) (c : Context) (m : SealMsg) (y : Policy) (g : Grant), s.ctx? tag = some c → c.policy = some y → c.grant = some g →
    c.st = CtxState.building → c.audit.held = [] → False) :=
  fun h => h (pkgOf (ctxIn .building) (inst [])) 1 _ sealMsg _ _ rfl rfl rfl rfl rfl

theorem witness_Seal_again : ¬
    (∀ (s : State) (tag : Byte) (c : Context) (m : SealMsg) (y : Policy) (g : Grant), s.ctx? tag = some c → c.policy = some y → c.grant = some g →
    c.st ≠ CtxState.building → False) :=
  fun h => h (pkgOf (ctxIn .running) (inst [])) 1 _ sealMsg _ _ rfl rfl rfl (by decide)

theorem witness_Attest : ¬
    (∀ (s : State) (tag : Byte) (c : Context) (m : SealMsg) (y : Policy) (g : Grant), s.ctx? tag = some c → c.policy = some y → c.grant = some g →
    False) :=
  fun h => h (pkgOf (ctxIn .running) (inst [])) 1 _ sealMsg _ _ rfl rfl rfl

/-! #### ContextsConfigured -/

theorem witness_Schedule : ¬
    (∀ (s : State) (cmd : Rec64) (c : Context) (y : Policy), c.policy = some y → MayPerform s cmd 4 → Names s cmd 4 c → c.st ∈ validStates 4 → arg
    cmd 128 10 ≤ y.share → False) :=
  fun h => h (told (ctxIn .sealed) (cmd 4 1 (1000 + 1000 * 2 ^ 16))) (cmd 4 1 (1000 + 1000 * 2 ^ 16)) _ policy rfl ⟨rfl, rfl, rfl, rfl, rfl⟩ ⟨rfl,
  rfl, Or.inl rfl⟩ (by decide) (by decide)

theorem witness_Mask : ¬
    (∀ (s : State) (cmd : Rec64) (c : Context) (y : Policy), c.policy = some y → ∀ (mask : W64), MayPerform s cmd 12 → Names s cmd 12 c → c.st ∈
    validStates 12 → mask = BitVec.ofNat 64 (arg cmd 128 64) → mask &&& ~~~BitVec.setWidth 64 y.features = 0 → False) :=
  fun h => h (told (ctxIn .paused) (cmd 12 1 0x7F)) (cmd 12 1 0x7F) _ policy rfl 0x7F ⟨rfl, rfl, rfl, rfl, rfl⟩ ⟨rfl, rfl, Or.inl rfl⟩ (by decide)
  rfl rfl

theorem witness_Submit : ¬
    (∀ (s : State) (cmd : Rec64) (c : Context) (y : Policy), c.policy = some y → ∀ (q : Fin 16) (tail : BitVec 16), MayPerform s cmd 13 → Names s
    cmd 13 c → c.st ∈ validStates 13 → arg cmd 128 4 = ↑q → tail = BitVec.ofNat 16 (arg cmd 144 16) → c.queues[q].enabled = true →
    let d := (tail - c.queues[q].head).toNat;
    d ≤ 64 → (tail - c.queues[q].tail).toNat ≤ d → False) :=
  fun h => h (told { ctxIn .running with queues := ctx.queues.set 15 { Queue.fresh with enabled := true } } (cmd 13 1 (15 + 64 * 2 ^ 16))) (cmd 13
  1 (15 + 64 * 2 ^ 16)) _ policy rfl 15 64 ⟨rfl, rfl, rfl, rfl, rfl⟩ ⟨rfl, rfl, Or.inl rfl⟩ (by decide) rfl rfl rfl (by decide) (by decide)

theorem witness_Submit_far : ¬
    (∀ (s : State) (cmd : Rec64) (c : Context) (y : Policy), c.policy = some y → ∀ (q : Fin 16) (tail : BitVec 16), MayPerform s cmd 13 → Names s
    cmd 13 c → c.st ∈ validStates 13 → arg cmd 128 4 = ↑q → tail = BitVec.ofNat 16 (arg cmd 144 16) → c.queues[q].enabled = true →
    let d := (tail - c.queues[q].head).toNat;
    64 < d ∨ d < (tail - c.queues[q].tail).toNat → False) :=
  fun h => h (told { ctxIn .running with queues := ctx.queues.set 15 { Queue.fresh with enabled := true } } (cmd 13 1 (15 + 65 * 2 ^ 16))) (cmd 13
  1 (15 + 65 * 2 ^ 16)) _ policy rfl 15 65 ⟨rfl, rfl, rfl, rfl, rfl⟩ ⟨rfl, rfl, Or.inl rfl⟩ (by decide) rfl rfl rfl (by decide)

theorem witness_Counter : ¬
    (∀ (s : State) (cmd : Rec64) (c : Context) (y : Policy), c.policy = some y → ∀ (k : Fin 9), MayPerform s cmd 11 → Names s cmd 11 c → arg cmd
    128 8 = 16 + ↑k → BitVec.getLsbD y.allow ↑k = true → False) :=
  fun h => h (told (ctxIn .running) (cmd 11 1 0x18)) (cmd 11 1 0x18) _ policy rfl 8 ⟨rfl, rfl, rfl, rfl, rfl⟩ ⟨rfl, rfl, Or.inl rfl⟩ rfl rfl

theorem witness_Counter_denied : ¬
    (∀ (s : State) (cmd : Rec64) (c : Context) (y : Policy), c.policy = some y → ∀ (k : Fin 9), MayPerform s cmd 11 → Names s cmd 11 c → arg cmd
    128 8 = 16 + ↑k → BitVec.getLsbD y.allow ↑k = false → c.audit.va = none → False) :=
  fun h => h (told (ctxIn .running) (cmd 11 1 0x10)) (cmd 11 1 0x10) _ policy rfl 0 ⟨rfl, rfl, rfl, rfl, rfl⟩ ⟨rfl, rfl, Or.inl rfl⟩ rfl rfl rfl

theorem witness_Counter_package : ¬
    (∀ (s : State) (cmd : Rec64) (c : Context) (y : Policy), c.policy = some y → MayPerform s cmd 11 → cmdHandle cmd = 0 → arg cmd 128 8 = 3 →
    False) :=
  fun h => h (told (ctxIn .running) (cmd 11 0 3)) (cmd 11 0 3) (ctxIn .running) policy rfl ⟨rfl, rfl, rfl, rfl, rfl⟩ rfl rfl

theorem witness_Counter_power : ¬
    (∀ (s : State) (cmd : Rec64) (c : Context) (y : Policy), c.policy = some y → MayPerform s cmd 11 → cmdHandle cmd = 0 → arg cmd 128 8 = 4 →
    False) :=
  fun h => h (told (ctxIn .running) (cmd 11 0 4)) (cmd 11 0 4) (ctxIn .running) policy rfl ⟨rfl, rfl, rfl, rfl, rfl⟩ rfl rfl

/-! #### CommandsRefused -/

theorem witness_Refused_order : ¬
    (∀ (s : State) (i : Instr) (cmd : Rec64) (code : ℕ), commandOf i = some (cmd, code) → s.boot = Boot.ready → s.nextCommand = some cmd → cmdCode
    cmd = code → (∀ c ∈ s.ctxs, ∀ d ∈ c.heldCmds, cmdHandle d = c.handle) → (s.byHandle (cmdHandle cmd)).isSome = true → ∀ d ∈ s.cmdRing, cmdHandle
    d = cmdHandle cmd → False) :=
  fun h => h { told ctx (cmd 9 1 0) with cmdRing := [cmd 9 1 0 + 0x100000000, cmd 9 1 0] } (.destroy (cmd 9 1 0)) (cmd 9 1 0) _ rfl rfl
  (by decide +kernel) rfl
  (by intro c hc d hd; cases hc with | head => exact absurd (show d ∈ [] from hd) (List.not_mem_nil) | tail _ h => exact nomatch h) rfl (cmd 9 1 0
  + 0x100000000) (List.mem_cons_self ..) (by decide)

theorem witness_Refused_locked : ¬
    (∀ (s : State) (i : Instr) (cmd : Rec64) (code : ℕ), commandOf i = some (cmd, code) → s.boot = Boot.ready → s.nextCommand = some cmd → cmdCode
    cmd = code → s.locked = true → s.popCommand.byHandle (cmdHandle cmd) = none → False) :=
  fun h => h { told ctx (cmd 9 3 0) with locked := true } (.destroy (cmd 9 3 0)) (cmd 9 3 0) _ rfl rfl rfl rfl rfl rfl

theorem witness_Refused_format : ¬
    (∀ (s : State) (i : Instr) (cmd : Rec64) (code : ℕ), commandOf i = some (cmd, code) → s.boot = Boot.ready → s.nextCommand = some cmd → cmdCode
    cmd = code → s.locked = false → s.popCommand.byHandle (cmdHandle cmd) = none → cmdFormatOk cmd = false → False) :=
  fun h => h (told ctx (cmd 0x0A 0 255)) (.resetVf (cmd 0x0A 0 255)) (cmd 0x0A 0 255) _ rfl rfl rfl rfl rfl rfl rfl

theorem witness_Refused_handle : ¬
    (∀ (s : State) (i : Instr) (cmd : Rec64) (code : ℕ), commandOf i = some (cmd, code) → s.boot = Boot.ready → s.nextCommand = some cmd → cmdCode
    cmd = code → s.locked = false → s.popCommand.byHandle (cmdHandle cmd) = none → cmdFormatOk cmd = true → code ≠ 1 → code ≠ 10 → (code = 11 → 16
    ≤ arg cmd 128 8) → False) :=
  fun h => h (told ctx (cmd 0x0B 3 0x10)) (.readCounter (cmd 0x0B 3 0x10)) (cmd 0x0B 3 0x10) _ rfl rfl rfl rfl rfl rfl rfl (by decide) (by decide)
  (by decide)

theorem witness_Refused_lockedNamed : ¬
    (∀ (s : State) (i : Instr) (cmd : Rec64) (code : ℕ), commandOf i = some (cmd, code) → s.boot = Boot.ready → s.nextCommand = some cmd → cmdCode
    cmd = code → ∀ (c : Context) (status : Byte), Names s cmd code c → c.audit.va = none → c.audit.held.length < 16 → s.locked = true ∧ status = 8
    ∨ s.locked = false ∧ cmdFormatOk cmd = false ∧ status = 6 ∨ s.locked = false ∧ cmdFormatOk cmd = true ∧ status = 2 ∧ (c.st ∉ validStates code ∨
    code = 2 ∧ c.policy ≠ none ∨ code = 3 ∧ c.policy = none) → False) :=
  fun h => h { told ctx (cmd 9 1 0) with locked := true } (.destroy (cmd 9 1 0)) (cmd 9 1 0) _ rfl rfl rfl rfl _ 0x08 ⟨rfl, rfl, Or.inl rfl⟩ rfl
  (by decide) (Or.inl ⟨rfl, rfl⟩)

theorem witness_Refused_badFormat : ¬
    (∀ (s : State) (i : Instr) (cmd : Rec64) (code : ℕ), commandOf i = some (cmd, code) → s.boot = Boot.ready → s.nextCommand = some cmd → cmdCode
    cmd = code → ∀ (c : Context) (status : Byte), Names s cmd code c → c.audit.va = none → c.audit.held.length < 16 → s.locked = true ∧ status = 8
    ∨ s.locked = false ∧ cmdFormatOk cmd = false ∧ status = 6 ∨ s.locked = false ∧ cmdFormatOk cmd = true ∧ status = 2 ∧ (c.st ∉ validStates code ∨
    code = 2 ∧ c.policy ≠ none ∨ code = 3 ∧ c.policy = none) → False) :=
  fun h => h (told (ctxIn .paused) (cmd 5 1 1)) (.pause (cmd 5 1 1)) (cmd 5 1 1) _ rfl rfl rfl rfl _ 0x06 ⟨rfl, rfl, Or.inl rfl⟩ rfl (by decide)
  (Or.inr (Or.inl ⟨rfl, rfl, rfl⟩))

theorem witness_Refused_state : ¬
    (∀ (s : State) (i : Instr) (cmd : Rec64) (code : ℕ), commandOf i = some (cmd, code) → s.boot = Boot.ready → s.nextCommand = some cmd → cmdCode
    cmd = code → ∀ (c : Context) (status : Byte), Names s cmd code c → c.audit.va = none → c.audit.held.length < 16 → s.locked = true ∧ status = 8
    ∨ s.locked = false ∧ cmdFormatOk cmd = false ∧ status = 6 ∨ s.locked = false ∧ cmdFormatOk cmd = true ∧ status = 2 ∧ (c.st ∉ validStates code ∨
    code = 2 ∧ c.policy ≠ none ∨ code = 3 ∧ c.policy = none) → False) :=
  fun h => h (told (ctxIn .paused) (cmd 5 1 0)) (.pause (cmd 5 1 0)) (cmd 5 1 0) _ rfl rfl rfl rfl _ 0x02 ⟨rfl, rfl, Or.inl rfl⟩ rfl (by decide)
  (Or.inr (Or.inr ⟨rfl, rfl, rfl, Or.inl (by decide)⟩))

theorem witness_Refused_held : ¬
    (∀ (s : State) (i : Instr) (cmd : Rec64) (code : ℕ), commandOf i = some (cmd, code) → s.boot = Boot.ready → s.nextCommand = some cmd → cmdCode
    cmd = code → ∀ (c : Context), s.locked = false → s.popCommand.byHandle (cmdHandle cmd) = some c → c.op ≠ none → code ≠ 9 → code ≠ 10 → False)
    :=
  fun h => h (told { ctxIn .running with op := some (.pause (cmd 5 1 0)) } (cmd 4 1 0)) (.schedule (cmd 4 1 0)) (cmd 4 1 0) _ rfl rfl rfl rfl _ rfl
  rfl (by decide) (by decide) (by decide)

/-! #### ContextsMove -/

theorem witness_Pause : ¬
    (∀ (s : State) (cmd : Rec64) (c : Context), MayPerform s cmd 5 → Names s cmd 5 c → c.st = CtxState.running → False) :=
  fun h => h (told (ctxIn .running) (cmd 5 1 0)) (cmd 5 1 0) _ ⟨rfl, rfl, rfl, rfl, rfl⟩ ⟨rfl, rfl, Or.inl rfl⟩ rfl

theorem witness_Resume : ¬
    (∀ (s : State) (cmd : Rec64) (c : Context), MayPerform s cmd 6 → Names s cmd 6 c → c.st = CtxState.sealed ∨ c.st = CtxState.paused →
    c.schedNext = none → False) :=
  fun h => h (told (ctxIn .sealed) (cmd 6 1 0)) (cmd 6 1 0) _ ⟨rfl, rfl, rfl, rfl, rfl⟩ ⟨rfl, rfl, Or.inl rfl⟩ (Or.inl rfl) rfl

theorem witness_Evict : ¬
    (∀ (s : State) (cmd : Rec64) (c : Context), MayPerform s cmd 7 → Names s cmd 7 c → c.st = CtxState.running ∨ c.st = CtxState.paused → (c.target
    cmd).isSome = true → False) :=
  fun h => h (told (ctxIn .paused) (cmd 7 1 0)) (cmd 7 1 0) _ ⟨rfl, rfl, rfl, rfl, rfl⟩ ⟨rfl, rfl, Or.inl rfl⟩ (Or.inr rfl) rfl

theorem witness_Restore : ¬
    (∀ (s : State) (cmd : Rec64) (c : Context), MayPerform s cmd 8 → Names s cmd 8 c → c.st = CtxState.evicted → (c.target cmd).isSome = true → arg
    cmd 192 64 = BitVec.toNat c.epoch → False) :=
  fun h => h (told { ctxIn .evicted with epoch := 4, checkpoint := some ckpt } (cmd 8 1 (4 * 2 ^ 64))) (cmd 8 1 (4 * 2 ^ 64)) _ ⟨rfl, rfl, rfl,
  rfl, rfl⟩ ⟨rfl, rfl, Or.inl rfl⟩ rfl rfl rfl

theorem witness_Restore_stale : ¬
    (∀ (s : State) (cmd : Rec64) (c : Context), MayPerform s cmd 8 → Names s cmd 8 c → c.st = CtxState.evicted → (c.target cmd).isSome = true → arg
    cmd 192 64 ≠ BitVec.toNat c.epoch → False) :=
  fun h => h (told { ctxIn .evicted with epoch := 4, checkpoint := some ckpt } (cmd 8 1 (3 * 2 ^ 64))) (cmd 8 1 (3 * 2 ^ 64)) _ ⟨rfl, rfl, rfl,
  rfl, rfl⟩ ⟨rfl, rfl, Or.inl rfl⟩ rfl rfl (by decide)

theorem witness_Pause_complete : ¬
    (∀ (s : State) (tag : Byte) (cmd : Rec64) (c : Context), s.ctx? tag = some c → c.op = some (CtxOp.pause cmd) → s.allStopped c = true → False)
    :=
  fun h => h (pkgOf { ctxIn .running with op := some (.pause (cmd 5 1 0)) } (inst [{ tile 0 with place := .resident }])) 1 (cmd 5 1 0) _ rfl rfl
  rfl

theorem witness_Evict_complete : ¬
    (∀ (s : State) (tag : Byte) (cmd : Rec64) (c : Context), s.ctx? tag = some c → ∀ (d : Digest) (g : Grant), c.op = some (CtxOp.evict cmd) →
    s.allStopped c = true → c.migs = [] → (∀ (k : Fin 16), c.queues[k].marks = []) → c.target cmd = some d → c.grant = some g → tag ≠ 0 → (∀ (k :
    Fin 32), c.sessions[k].opened = false) → False) :=
  fun h => h (pkgOf { ctxIn .paused with op := some (.evict (cmd 7 1 0)) } (inst [{ tile 0 with place := .resident }])) 1 (cmd 7 1 0) _ rfl 0x7A _
  rfl rfl rfl (by decide) rfl rfl (by decide) (by decide)

theorem witness_Restore_complete : ¬
    (∀ (s : State) (tag : Byte) (cmd : Rec64) (c : Context), s.ctx? tag = some c → ∀ (k : Checkpoint) (d : Digest) (r : Resources), c.op = some
    (CtxOp.restore cmd) → c.checkpoint = some k → c.target cmd = some d → d = k.target → s.findResources k.grant = some r → False) :=
  fun h => h (pkgOf { ctxIn .evicted with op := some (.restore (cmd 8 1 (4 * 2 ^ 64))), epoch := 4, checkpoint := some ckpt, frames := [] } (inst
  [])) 1 (cmd 8 1 (4 * 2 ^ 64)) _ rfl ckpt 0x7A ⟨[2], [], [0], [1]⟩ rfl rfl rfl rfl (by decide +kernel)

theorem witness_Restore_fails : ¬
    (∀ (s : State) (tag : Byte) (cmd : Rec64) (c : Context), s.ctx? tag = some c → ∀ (ok : Bool) (k : Checkpoint), c.op = some (CtxOp.restore cmd)
    → c.checkpoint = some k → ok = false ∨ c.target cmd ≠ some k.target → False) :=
  fun h => h (pkgOf { ctxIn .evicted with op := some (.restore (cmd 8 1 (4 * 2 ^ 64))), epoch := 4, checkpoint := some ckpt, frames := [] } (inst
  [])) 1 (cmd 8 1 (4 * 2 ^ 64)) _ rfl false ckpt rfl rfl (Or.inl rfl)

/-! #### ContextsDestroyed -/

theorem witness_Destroy : ¬
    (∀ (s : State) (cmd : Rec64) (c : Context), c.st ≠ CtxState.destroyed → ∀ (i : Instr), i = Instr.destroy cmd ∧ MayPerform s cmd 9 ∧ Names s cmd
    9 c ∨ i = Instr.resetVf cmd ∧ MayPerform s cmd 10 ∧ s.popCommand.ctx? c.tag = some c ∧ List.find? (fun c => BitVec.toNat c.vf == arg cmd 128 8)
    s.popCommand.ctxs = some c → c.op = none → False) :=
  fun h => h (told (ctxIn .running) (cmd 9 1 0)) (cmd 9 1 0) _ (by decide) _ (Or.inl ⟨rfl, ⟨rfl, rfl, rfl, rfl, rfl⟩, ⟨rfl, rfl, Or.inl rfl⟩⟩) rfl

theorem witness_Destroy_resetVf : ¬
    (∀ (s : State) (cmd : Rec64) (c : Context), c.st ≠ CtxState.destroyed → ∀ (i : Instr), i = Instr.destroy cmd ∧ MayPerform s cmd 9 ∧ Names s cmd
    9 c ∨ i = Instr.resetVf cmd ∧ MayPerform s cmd 10 ∧ s.popCommand.ctx? c.tag = some c ∧ List.find? (fun c => BitVec.toNat c.vf == arg cmd 128 8)
    s.popCommand.ctxs = some c → c.op = none → False) :=
  fun h => h (told (ctxIn .running) (cmd 10 0 1)) (cmd 10 0 1) _ (by decide) _ (Or.inr ⟨rfl, ⟨rfl, rfl, rfl, rfl, rfl⟩, rfl, rfl⟩) rfl

theorem witness_Destroy_inProgress : ¬
    (∀ (s : State) (cmd : Rec64) (c : Context), c.st ≠ CtxState.destroyed → ∀ (i : Instr), i = Instr.destroy cmd ∧ MayPerform s cmd 9 ∧ Names s cmd
    9 c ∨ i = Instr.resetVf cmd ∧ MayPerform s cmd 10 ∧ s.popCommand.ctx? c.tag = some c ∧ List.find? (fun c => BitVec.toNat c.vf == arg cmd 128 8)
    s.popCommand.ctxs = some c → ∀ (cmd' : Rec64), c.op = some (CtxOp.pause cmd') ∨ c.op = some (CtxOp.evict cmd') ∨ c.op = some (CtxOp.restore
    cmd') → False) :=
  fun h => h (told { ctxIn .running with op := some (.pause (cmd 5 1 0)) } (cmd 9 1 0)) (cmd 9 1 0) _ (by decide) _ (Or.inl ⟨rfl, ⟨rfl, rfl, rfl,
  rfl, rfl⟩, ⟨rfl, rfl, Or.inr (Or.inl rfl)⟩⟩) (cmd 5 1 0) (Or.inl rfl)

theorem witness_Reset_function : ¬
    (∀ (s : State) (vf : Byte) (c : Context), c.st ≠ CtxState.destroyed → c.op = none → s.ctx? c.tag = some c → List.find? (fun c => c.vf == vf)
    s.ctxs = some c → False) :=
  fun h => h (pkg (inst [tile 0])) 1 _ (by decide) rfl rfl rfl

theorem witness_Sensor : ¬
    (∀ (s : State) (x : Sensor), s.armed = true → s.locked = false → s.ctxsApart = true → (∀ c ∈ s.ctxs, c.op = none ∧ c.st ≠ CtxState.destroyed) →
    ((∃ mv, x = Sensor.voltage mv ∧ (mv < 600 ∨ 1050 < mv)) ∨ (∃ ps, x = Sensor.clock ps ∧ ps < 450) ∨ x = Sensor.missingEdge ∨ (∃ f, x =
    Sensor.oscillator f ∧ (f < 700 ∨ 1300 < f)) ∨ ∃ t, x = Sensor.temperature t ∧ (125 < t ∨ t < -40)) → False) :=
  fun h => h { told2 ctx ctx2 0 with armed := true, handles := [2, 1] } (.voltage 1051) rfl rfl (by decide)
  (by intro c hc; simp only [List.mem_cons, List.not_mem_nil, or_false] at hc; rcases hc with h | h <;> subst h <;> exact ⟨rfl, by decide⟩) (Or.inl
  ⟨1051, rfl, by decide⟩)

theorem witness_Scrub : ¬
    (∀ (s : State) (tag : Byte) (c : Context), s.ctx? tag = some c → c.st = CtxState.destroyed → c.heldCmds = [] → s.aborting c = false → tag ≠ 0 →
    s.canonical = true → False) :=
  fun h => h (pkgOf (ctxIn .destroyed) (inst [])) 1 _ rfl rfl rfl (by decide) (by decide) rfl

/-! #### SealedTraffic -/

theorem witness_Key_update : ¬
    (∀ (s : State) (tag : Byte) (chan : BitVec 2) (b : Bounce) (key : BitVec 256), s.bounce? tag chan = some b → b.key = some key → False) :=
  fun h => h (pkgOf { ctx with bounce := Vector.replicate 4 ⟨some 1, 5, 6, 0, [], []⟩ } (inst [])) 1 3 _ 1 rfl rfl

theorem witness_Record_next : ¬
    (∀ (s : State) (tag : Byte) (chan : BitVec 2) (b : Bounce) (key : BitVec 256), s.bounce? tag chan = some b → b.key = some key →
    let sized := fun h p => h.length = 64 ∧ p.length % 64 = 0 ∧ 64 ≤ p.length ∧ p.length ≤ 65536;
    ∀ (r : BounceRec), r.counter = b.accepted + 1 → sized r.header r.body → False) :=
  fun h => h (pkgOf { ctx with bounce := Vector.replicate 4 ⟨some 1, 5, 6, 0, [], []⟩ } (inst [])) 1 3 _ 1 rfl rfl ⟨7, List.replicate 64 0,
  List.replicate 64 1, 0⟩ rfl ⟨by decide, by decide, by decide, by decide⟩

theorem witness_Record_short : ¬
    (∀ (s : State) (tag : Byte) (chan : BitVec 2) (b : Bounce) (key : BitVec 256), s.bounce? tag chan = some b → b.key = some key →
    let sized := fun h p => h.length = 64 ∧ p.length % 64 = 0 ∧ 64 ≤ p.length ∧ p.length ≤ 65536;
    ∀ (r : BounceRec), r.counter = b.accepted + 1 → ¬sized r.header r.body → False) :=
  fun h => h (pkgOf { ctx with bounce := Vector.replicate 4 ⟨some 1, 5, 6, 0, [], []⟩ } (inst [])) 1 3 _ 1 rfl rfl ⟨7, List.replicate 63 0,
  List.replicate 64 1, 0⟩ rfl (fun h => absurd h.1 (by decide))

theorem witness_Record_mismatch : ¬
    (∀ (s : State) (tag : Byte) (chan : BitVec 2) (b : Bounce) (key : BitVec 256), s.bounce? tag chan = some b → b.key = some key → ∀ (r :
    BounceRec) (c : Context), r.counter ≠ b.accepted + 1 → s.ctx? tag = some c → False) :=
  fun h => h (pkgOf { ctx with bounce := Vector.replicate 4 ⟨some 1, 5, 6, 0, [], []⟩ } (inst [])) 1 3 _ 1 rfl rfl ⟨8, [], [], 0⟩ _ (by decide) rfl

theorem witness_Record_send : ¬
    (∀ (s : State) (tag : Byte) (chan : BitVec 2) (b : Bounce) (key : BitVec 256), s.bounce? tag chan = some b → b.key = some key →
    let sized := fun h p => h.length = 64 ∧ p.length % 64 = 0 ∧ 64 ≤ p.length ∧ p.length ≤ 65536;
    ∀ (h p : List Byte), sized h p → False) :=
  fun h => h (pkgOf { ctx with bounce := Vector.replicate 4 ⟨some 1, 5, 6, 0, [], []⟩ } (inst [])) 1 3 _ 1 rfl rfl (List.replicate 64 0)
  (List.replicate 64 1) ⟨by decide, by decide, by decide, by decide⟩

theorem witness_Record_sendShort : ¬
    (∀ (s : State) (tag : Byte) (chan : BitVec 2) (b : Bounce) (key : BitVec 256), s.bounce? tag chan = some b → b.key = some key →
    let sized := fun h p => h.length = 64 ∧ p.length % 64 = 0 ∧ 64 ≤ p.length ∧ p.length ≤ 65536;
    ∀ (h p : List Byte), ¬sized h p → False) :=
  fun h => h (pkgOf { ctx with bounce := Vector.replicate 4 ⟨some 1, 5, 6, 0, [], []⟩ } (inst [])) 1 3 _ 1 rfl rfl (List.replicate 63 0)
  (List.replicate 64 1) (fun h => absurd h.1 (by decide))

theorem witness_Husk : ¬
    (∀ (s : State) (x : Inst) (t : Tile) (c : Context) (route : BitVec 32), s.insts[s.focus.inst]? = some x → x.tiles[s.focus.tile]? = some t →
    s.ctx? x.tag = some c → route ∉ c.huskDead → c.audit.va = none → False) :=
  fun h => h (pkg (inst [tile 0])) _ _ _ 0xFFFFFFFF rfl rfl rfl (by decide) rfl

/-! #### PackageEvents -/

theorem witness_Boot : ¬
    (∀ (s : State) (r : BootResult), False) :=
  fun h => h State.reset ⟨true, 5⟩

theorem witness_Power_limits : ¬
    (∀ (s : State) (watts : ℕ), s.dies ≤ 4 → s.dies = 4 → False) :=
  fun h => h State.reset 3200 (by decide) rfl

theorem witness_Power_steady : ¬
    (∀ (s : State) (watts : ℕ), s.dies ≤ 4 →
    let excess := s.drawLimits.1 < watts ∨ 105 < s.junction;
    ¬excess → s.drawLimits.2 ≤ watts → False) :=
  fun h => h State.reset 3200 (by decide) (by decide) (by decide)

theorem witness_Power_over : ¬
    (∀ (s : State) (watts : ℕ), s.dies ≤ 4 →
    let made := fun (g : Fin 32) => ↑g < 8 * s.dies;
    let excess := s.drawLimits.1 < watts ∨ 105 < s.junction;
    excess → (∃ g, made g ∧ 100 < s.gens[g]) → False) :=
  fun h => h State.reset 3201 (by decide) (by decide) ⟨0, by decide⟩

theorem witness_Power_overFloor : ¬
    (∀ (s : State) (watts : ℕ), s.dies ≤ 4 →
    let made := fun (g : Fin 32) => ↑g < 8 * s.dies;
    let excess := s.drawLimits.1 < watts ∨ 105 < s.junction;
    excess → (∀ (g : Fin 32), made g → s.gens[g] ≤ 100) → False) :=
  fun h => h { State.reset with gens := Vector.replicate 32 100 } 3201 (by decide) (by decide) (by decide)

theorem witness_Power_hot : ¬
    (∀ (s : State) (watts : ℕ), s.dies ≤ 4 →
    let made := fun (g : Fin 32) => ↑g < 8 * s.dies;
    let excess := s.drawLimits.1 < watts ∨ 105 < s.junction;
    excess → (∃ g, made g ∧ 100 < s.gens[g]) → False) :=
  fun h => h { State.reset with junction := 106 } 3100 (by decide) (by decide) ⟨0, by decide⟩

theorem witness_Power_under : ¬
    (∀ (s : State) (watts : ℕ), s.dies ≤ 4 →
    let excess := s.drawLimits.1 < watts ∨ 105 < s.junction;
    ¬excess → watts < s.drawLimits.2 → False) :=
  fun h => h State.reset 3099 (by decide) (by decide) (by decide)

theorem witness_Power_underPart : ¬
    (∀ (s : State) (watts : ℕ), s.dies ≤ 4 →
    let excess := s.drawLimits.1 < watts ∨ 105 < s.junction;
    ¬excess → watts < s.drawLimits.2 → False) :=
  fun h => h { State.reset with dies := 4, islands := Vector.replicate 16 20 } 3099 (by decide) (by decide) (by decide)

theorem witness_Temperature : ¬
    (∀ (s : State) (t : ℤ), -40 ≤ t → t ≤ 125 → False) :=
  fun h => h State.reset 125 (by decide) (by decide)

theorem witness_Island : ¬
    (∀ (s : State) (island steps : ℕ), island < 4 * s.dies → island < 16 → island % 4 < 2 → 18 ≤ steps → steps ≤ 36 → False) :=
  fun h => h State.reset 13 36 (by decide) (by decide) (by decide) (by decide) (by decide)

theorem witness_Scrub_corrected : ¬
    (∀ (s : State) (w bits : ℕ), bits < 2 → ∀ (loc : ScrubLoc), False) :=
  fun h => h State.reset 5 1 (by decide) (.hbm 5)

theorem witness_Scrub_hbm : ¬
    (∀ (s : State) (w bits : ℕ), 2 ≤ bits → False) :=
  fun h => h State.reset 5 2 (by decide)

theorem witness_Scrub_slice : ¬
    (∀ (s : State) (w bits i t : ℕ) (y : Tile), 2 ≤ bits → s.tile? i t = some y → 8 * w < 1212416 → y.phys ≠ noPhys → False) :=
  fun h => h (pkg (inst [tile 0])) 0x24FFF 2 0 0 _ (by decide) rfl (by decide) (by decide)

theorem witness_Scrub_sram : ¬
    (∀ (s : State) (w bits p : ℕ), 2 ≤ bits → p < 384 * s.dies → p ≠ noPhys → False) :=
  fun h => h State.reset 0 2 1535 (by decide) (by decide) (by decide)

theorem witness_Readback_corrected : ¬
    (∀ (s : State), ∀ plot < 128 * s.dies, ∀ (r : ReadbackResult), r ≠ ReadbackResult.uncorrectable → False) :=
  fun h => h State.reset 511 (by decide) .correctable (by decide)

theorem witness_Readback_free : ¬
    (∀ (s : State), ∀ plot < 128 * s.dies, s.nodeOnPlot plot = none → False) :=
  fun h => h State.reset 511 (by decide) rfl

theorem witness_Readback : ¬
    (∀ (s : State), ∀ plot < 128 * s.dies, ∀ (i k : ℕ) (x : Inst) (n : FabNode) (y : Tile), s.nodeOnPlot plot = some (i, k) → s.insts[i]? = some x
    → x.nodes[k]? = some n → x.tiles[0]? = some y → y.seq.finished = false → y.seq.pend.eng0.length < 16 → False) :=
  fun h => h (pkg { inst [tile 0] with nodes := [fab511] }) 511 (by decide) 0 0 _ _ _ rfl rfl rfl rfl rfl (by decide)

theorem witness_MapOut : ¬
    (∀ (s : State) (phys : ℕ) (idpor : Bool), phys < 384 * s.dies → (s.physAt phys).mappedOut = false → idpor = true ∨ 2 ≤ (s.physAt phys).errors →
    s.onPhys phys = none → False) :=
  fun h => h { pkg (inst []) with insts := [] } 1 true (by decide) rfl (Or.inl rfl) rfl

theorem witness_MapOut_held : ¬
    (∀ (s : State) (phys : ℕ) (idpor : Bool), phys < 384 * s.dies → (s.physAt phys).mappedOut = false → idpor = true ∨ 2 ≤ (s.physAt phys).errors →
    ∀ (o : ℕ × ℕ), s.onPhys phys = some o → False) :=
  fun h => h { pkg (inst [tile 0]) with phys := [(0, { Phys.idle with tag := 1, errors := 2 })] } 0 false (by decide) rfl (Or.inr (by decide)) _
  rfl

theorem witness_Firmware : ¬
    (∀ (s : State) (hazel verified : Bool) (d : Digest), s.boot = Boot.ready → False) :=
  fun h => h { State.reset with boot := .ready } true true 7 rfl

/-! #### StepKeepsCanonical -/

theorem witness_Step_canonical : ¬
    (∀ (s s' : State), s.canonical = true → step s = Host.Outcome.next s' → False) :=
  fun h => h { pkg (inst [{ tile 0 with sbuf := [.full (.slice 0 8) 8 7] }]) with agenda := [.ev 0 0 .sliceBankServe] } _ (by decide) rfl

/-! #### StepRunsDecoded -/

theorem witness_Step_word : ¬
    (∀ (s : State) (t : Tile) (b : Block) (k : ℕ) (ks : List ℕ) (i : Instr), s.agenda = [] → s.boot = Boot.ready → s.tile? s.focus.inst
    s.focus.tile = some t → t.deliverable = false → t.seq.block = some b → b.committing = false → b.issued = true → (b.untried t.seq.turn).1 = k ::
    ks → decodeSeq (b.words.getD k 0) = Except.ok i →
    let s0 := { s with focus := { s.focus with slot := k } };
    ∀ (s1 : State), exec i s0 = Host.Outcome.next s1 → False) :=
  fun h => h (at0 bAdd) _ _ 0 _ (.add h0) rfl rfl rfl rfl rfl rfl rfl rfl rfl _ rfl

theorem witness_Step_event : ¬
    (∀ (s s1 : State) (i t : ℕ) (e : Instr) (rest : List Move), s.agenda = Move.ev i t e :: rest →
    let s0 := { s with agenda := rest, focus := { inst := i, tile := t, slot := 0 } };
    exec e s0 = Host.Outcome.next s1 → False) :=
  fun h => h { pkg (inst [tile 0, { tile 1 with sbuf := [.full (.slice 1 8) 8 7] }]) with agenda := [.ev 0 1 .sliceBankServe] } _ 0 1
  .sliceBankServe [] rfl rfl

theorem witness_Step_strip : ¬
    (∀ (s s1 : State) (x : Inst) (t : Tile) (e : StripId) (w : W64) (i : Instr) (j k : ℕ) (rest : List Move), s.agenda = Move.sched j k :: rest →
    let s0 := { s with agenda := rest, focus := { inst := j, tile := k, slot := 0 } };
    s0.insts[j]? = some x → x.tiles[k]? = some t → s0.schedAct x t = SchedAct.word e w → decodeStrip e w = Except.ok i → exec i s0 =
    Host.Outcome.next s1 → False) :=
  fun h => h { pkg (inst [{ tile 0 with phase := .issue, ast := { (tile 0).ast with cur := some (0x0200580085000000, 0x40000000001000, 1) } }])
  with agenda := [.sched 0 0] } _ _ _ .ast 0x0200580085000000 _ 0 0 [] rfl rfl rfl rfl rfl rfl

/-! #### DecodeEncode -/

theorem witness_Decode_seq : ¬
    (∀ (i : Instr), i.WellFormed = true → False) :=
  fun h => h (.movi ⟨.always, some ⟨.left, 127⟩, none⟩ 0xFFFFFFFFF) rfl

/-! #### CommonFields -/

theorem witness_Common_fields : ¬
    (∀ (w : W64) (i : Instr) (h : Head) (m : SeqMeta), decodeSeq w = Except.ok i → i.shape = Shape.seq h m → False) :=
  fun h => h 0x1010200000000000 (.add h0) h0 _ rfl rfl

theorem witness_Common_fieldsIllegal : ¬
    (∀ (w : W64), BitVec.toNat w / 2 ^ 54 % 4 = 3 → False) :=
  fun h => h 0x10C0000000000000 (by decide)

theorem witness_Common_fieldsT0 : ¬
    (∀ (w : W64) (i : Instr) (h : Head) (m : SeqMeta), decodeSeq w = Except.ok i → i.shape = Shape.seq h m → ∀ (g : Target), h.t0 = some g → False)
    :=
  fun h => h 0x1010200000000000 (.add h0) h0 _ rfl rfl _ rfl

theorem witness_Common_fieldsT1 : ¬
    (∀ (w : W64) (i : Instr) (h : Head) (m : SeqMeta), decodeSeq w = Except.ok i → i.shape = Shape.seq h m → ∀ (g : Target), h.t1 = some g → False)
    :=
  fun h => h 0x0510483080000000 (.movi ⟨.always, some ⟨.left, 2⟩, some ⟨.left, 3⟩⟩ 0x080000000) ⟨.always, some ⟨.left, 2⟩, some ⟨.left, 3⟩⟩ _ rfl
  rfl _ rfl

/-! #### BranchesAre -/

theorem witness_Branches : ¬
    (∀ (i : Instr) (h : Head) (m : SeqMeta), i.shape = Shape.seq h m → False) :=
  fun h => h (.halt h1) h1 _ rfl

/-! #### CommitEffects -/

theorem witness_Effect_take : ¬
    (∀ (s : State) (x : Inst) (t : Tile) (b : Block) (f : Fired) (va : W64), CommitsOne s x t b f va → s.canonical = true → ∀ (ht o n : ℕ) (g :
    BitVec 5) (y : Tile), f.eff = Eff.take (Loc.slice ht o) n g → n ≤ 8 → x.tiles[ht]? = some y → s.badLoc s.focus.inst (Loc.slice ht o) n = false
    → s.reservedElsewhere s.focus.inst s.focus.tile (Loc.slice ht (o / 64 * 64)) 64 = false → y.isFull (o / 64) = true → (∀ w ∈ b.writes, w.1 = g →
    w.2 = none) → (match List.filter (fun k => k.granule == o / 64) y.takes with | [] => True | k :: l => k.tile = s.focus.tile ∨ (∀ a ∈ l, a.tile
    ≠ s.focus.tile) ∧ 64 ≤ (List.filter (fun a => bankOf y.coarse (64 * a.granule) == bankOf y.coarse (64 * (o / 64))) y.takes).length) → False) :=
  fun h => h (com (fun b => { b with branch := some (.to 16), hdr := 0x20000000010000, settled := [(0, false)], writes := [(5, none)], effs := [⟨0,
  0, .take (.slice 0 8) 8 5, 0x40000000000008, 0⟩] }) (fun t => { t with full := [0] })) _ _ _ _ 16 ⟨⟨⟨rfl, rfl, rfl, rfl⟩, rfl, rfl, rfl, rfl,
  ⟨rfl, rfl⟩, rfl⟩, rfl, ⟨rfl, rfl, rfl⟩, (by unfold Block.writesOnce; decide), rfl⟩ rfl 0 8 8 5 _ rfl (by decide) rfl rfl rfl rfl (by simp)
  trivial

theorem witness_Effect_takeHead : ¬
    (∀ (s : State) (x : Inst) (t : Tile) (b : Block) (f : Fired) (va : W64), CommitsOne s x t b f va → s.canonical = true → ∀ (ht o n : ℕ) (g :
    BitVec 5) (y : Tile), f.eff = Eff.take (Loc.slice ht o) n g → n ≤ 8 → x.tiles[ht]? = some y → s.badLoc s.focus.inst (Loc.slice ht o) n = false
    → s.reservedElsewhere s.focus.inst s.focus.tile (Loc.slice ht (o / 64 * 64)) 64 = false → y.isFull (o / 64) = true → (∀ w ∈ b.writes, w.1 = g →
    w.2 = none) → (match List.filter (fun k => k.granule == o / 64) y.takes with | [] => True | k :: l => k.tile = s.focus.tile ∨ (∀ a ∈ l, a.tile
    ≠ s.focus.tile) ∧ 64 ≤ (List.filter (fun a => bankOf y.coarse (64 * a.granule) == bankOf y.coarse (64 * (o / 64))) y.takes).length) → False) :=
  fun h => h (com (fun b => { b with branch := some (.to 16), hdr := 0x20000000010000, settled := [(0, false)], writes := [(5, none)], effs := [⟨0,
  0, .take (.slice 0 8) 8 5, 0x40000000000008, 0⟩] }) (fun t => { t with full := [0], takes := [⟨0, 0, some 3⟩, ⟨0, 1, none⟩] })) _ _ _ _ 16
  ⟨⟨⟨rfl, rfl, rfl, rfl⟩, rfl, rfl, rfl, rfl, ⟨rfl, rfl⟩, rfl⟩, rfl, ⟨rfl, rfl, rfl⟩, (by unfold Block.writesOnce; decide), rfl⟩ rfl 0 8 8 5 _ rfl
  (by decide) rfl rfl rfl rfl (by simp) (Or.inl rfl)

theorem witness_Effect_takeWaits : ¬
    (∀ (s : State) (x : Inst) (t : Tile) (b : Block) (f : Fired) (va : W64), CommitsOne s x t b f va → s.canonical = true → ∀ (ht o n : ℕ) (g :
    BitVec 5) (y : Tile), f.eff = Eff.take (Loc.slice ht o) n g → n ≤ 8 → x.tiles[ht]? = some y → s.badLoc s.focus.inst (Loc.slice ht o) n = false
    → s.reservedElsewhere s.focus.inst s.focus.tile (Loc.slice ht (o / 64 * 64)) 64 = false → y.isFull (o / 64) = false → (∀ a ∈ y.takes, a.granule
    = o / 64 → a.tile ≠ s.focus.tile) → (List.filter (fun a => bankOf y.coarse (64 * a.granule) == bankOf y.coarse (64 * (o / 64))) y.takes).length
    < 64 → False) :=
  fun h => h (com (fun b => { b with branch := some (.to 16), hdr := 0x20000000010000, settled := [(0, false)], writes := [(5, none)], effs := [⟨0,
  0, .take (.slice 0 8) 8 5, 0x40000000000008, 0⟩] }) (fun t => { t with takes := [⟨0, 1, none⟩] })) _ _ _ _ 16 ⟨⟨⟨rfl, rfl, rfl, rfl⟩, rfl, rfl,
  rfl, rfl, ⟨rfl, rfl⟩, rfl⟩, rfl, ⟨rfl, rfl, rfl⟩, (by unfold Block.writesOnce; decide), rfl⟩ rfl 0 8 8 5 _ rfl (by decide) rfl rfl rfl rfl
  (by decide) (by decide)

theorem witness_Effect_waita : ¬
    (∀ (s : State) (x : Inst) (t : Tile) (b : Block) (f : Fired) (va : W64), CommitsOne s x t b f va → s.canonical = true → ∀ (ht o : ℕ) (cmp :
    W64) (g : BitVec 5) (y : Tile), f.eff = Eff.waita (Loc.slice ht o) cmp g → x.tiles[ht]? = some y → s.badLoc s.focus.inst (Loc.slice ht o) 8 =
    false → (∀ w ∈ b.writes, w.1 = g → w.2 = none) → s.reservedElsewhere s.focus.inst s.focus.tile (Loc.slice ht (o / 8 * 8)) 8 = false → False) :=
  fun h => h (com (fun b => { b with branch := some (.to 16), hdr := 0x20000000010000, settled := [(0, false)], writes := [(5, none)], effs := [⟨0,
  0, .waita (.slice 0 8) 7 5, 0x40000000000008, 0⟩] }) id) _ _ _ _ 16 ⟨⟨⟨rfl, rfl, rfl, rfl⟩, rfl, rfl, rfl, rfl, ⟨rfl, rfl⟩, rfl⟩, rfl, ⟨rfl, rfl,
  rfl⟩, (by unfold Block.writesOnce; decide), rfl⟩ rfl 0 8 7 5 _ rfl rfl rfl (by simp) rfl

theorem witness_Effect_waitaParks : ¬
    (∀ (s : State) (x : Inst) (t : Tile) (b : Block) (f : Fired) (va : W64), CommitsOne s x t b f va → s.canonical = true → ∀ (ht o : ℕ) (cmp :
    W64) (g : BitVec 5) (y : Tile), f.eff = Eff.waita (Loc.slice ht o) cmp g → x.tiles[ht]? = some y → s.badLoc s.focus.inst (Loc.slice ht o) 8 =
    false → (∀ w ∈ b.writes, w.1 = g → w.2 = none) → s.reservedElsewhere s.focus.inst s.focus.tile (Loc.slice ht (o / 8 * 8)) 8 = false → False) :=
  fun h => h (com (fun b => { b with branch := some (.to 16), hdr := 0x20000000010000, settled := [(0, false)], writes := [(5, none)], effs := [⟨0,
  0, .waita (.slice 0 8) 0 5, 0x40000000000008, 0⟩] }) id) _ _ _ _ 16 ⟨⟨⟨rfl, rfl, rfl, rfl⟩, rfl, rfl, rfl, rfl, ⟨rfl, rfl⟩, rfl⟩, rfl, ⟨rfl, rfl,
  rfl⟩, (by unfold Block.writesOnce; decide), rfl⟩ rfl 0 8 0 5 _ rfl rfl rfl (by simp) rfl

theorem witness_Effect_semp : ¬
    (∀ (s : State) (x : Inst) (t : Tile) (b : Block) (f : Fired) (va : W64), CommitsOne s x t b f va → s.canonical = true → ∀ (k : ℕ) (sem : BitVec
    6) (cnt : BitVec 16) (y : Tile), f.eff = Eff.semp k sem cnt → x.tiles[k]? = some y → False) :=
  fun h => h (com (fun b => { b with branch := some (.to 16), hdr := 0x10000, settled := [(0, false)], effs := [⟨0, 0, .semp 1 63 0xFFFF, 0, 0⟩] })
  id) _ _ _ _ 16 ⟨⟨⟨rfl, rfl, rfl, rfl⟩, rfl, rfl, rfl, rfl, ⟨rfl, rfl⟩, rfl⟩, rfl, ⟨rfl, rfl, rfl⟩, (by unfold Block.writesOnce; decide), rfl⟩ rfl
  1 63 0xFFFF _ rfl rfl

theorem witness_Effect_sempOverflows : ¬
    (∀ (s : State) (x : Inst) (t : Tile) (b : Block) (f : Fired) (va : W64), CommitsOne s x t b f va → s.canonical = true → ∀ (k : ℕ) (sem : BitVec
    6) (cnt : BitVec 16) (y : Tile), f.eff = Eff.semp k sem cnt → x.tiles[k]? = some y → False) :=
  fun h => h (com (fun b => { b with branch := some (.to 16), hdr := 0x10000, settled := [(0, false)], effs := [⟨0, 0, .semp 0 63 0xFFFF, 0, 0⟩] })
  (fun t => { t with sem := t.sem.set 63 1 })) _ _ _ _ 16 ⟨⟨⟨rfl, rfl, rfl, rfl⟩, rfl, rfl, rfl, rfl, ⟨rfl, rfl⟩, rfl⟩, rfl, ⟨rfl, rfl, rfl⟩,
  (by unfold Block.writesOnce; decide), rfl⟩ rfl 0 63 0xFFFF _ rfl rfl

theorem witness_Effect_bar : ¬
    (∀ (s : State) (x : Inst) (t : Tile) (b : Block) (f : Fired) (va : W64), CommitsOne s x t b f va → s.canonical = true → ∀ (gid : BitVec 8),
    (f.eff = Eff.bar gid ∨ ∃ g, f.eff = Eff.bara gid g) → False) :=
  fun h => h (com (fun b => { b with branch := some (.to 16), hdr := 0x10000, settled := [(0, false)], effs := [⟨0, 0, .bar 0, 0, 0⟩] }) id) _ _ _
  _ 16 ⟨⟨⟨rfl, rfl, rfl, rfl⟩, rfl, rfl, rfl, rfl, ⟨rfl, rfl⟩, rfl⟩, rfl, ⟨rfl, rfl, rfl⟩, (by unfold Block.writesOnce; decide), rfl⟩ rfl 0 (Or.inl
  rfl)

theorem witness_Effect_bara : ¬
    (∀ (s : State) (x : Inst) (t : Tile) (b : Block) (f : Fired) (va : W64), CommitsOne s x t b f va → s.canonical = true → ∀ (gid : BitVec 8),
    (f.eff = Eff.bar gid ∨ ∃ g, f.eff = Eff.bara gid g) → False) :=
  fun h => h (com (fun b => { b with branch := some (.to 16), hdr := 0x20000000010000, settled := [(0, false)], writes := [(5, none)], effs := [⟨0,
  0, .bara 0 5, 0, 0⟩] }) id) _ _ _ _ 16 ⟨⟨⟨rfl, rfl, rfl, rfl⟩, rfl, rfl, rfl, rfl, ⟨rfl, rfl⟩, rfl⟩, rfl, ⟨rfl, rfl, rfl⟩,
  (by unfold Block.writesOnce; decide), rfl⟩ rfl 0 (Or.inr ⟨_, rfl⟩)

theorem witness_Effect_barc : ¬
    (∀ (s : State) (x : Inst) (t : Tile) (b : Block) (f : Fired) (va : W64), CommitsOne s x t b f va → s.canonical = true → ∀ (gid : BitVec 8) (n :
    ℕ), f.eff = Eff.barc gid n → False) :=
  fun h => h (com (fun b => { b with branch := some (.to 16), hdr := 0x10000, settled := [(0, false)], effs := [⟨0, 0, .barc 0 1, 0, 0⟩] }) id) _ _
  _ _ 16 ⟨⟨⟨rfl, rfl, rfl, rfl⟩, rfl, rfl, rfl, rfl, ⟨rfl, rfl⟩, rfl⟩, rfl, ⟨rfl, rfl, rfl⟩, (by unfold Block.writesOnce; decide), rfl⟩ rfl 0 1 rfl

theorem witness_Effect_tlbi : ¬
    (∀ (s : State) (x : Inst) (t : Tile) (b : Block) (f : Fired) (va : W64), CommitsOne s x t b f va → s.canonical = true → ∀ (kind : InvKind) (v :
    W64) (c : Context), f.eff = Eff.tlbi kind v → s.ctx? x.tag = some c → False) :=
  fun h => h (com (fun b => { b with branch := some (.to 16), hdr := 0x10000, settled := [(0, false)], effs := [⟨0, 0, .tlbi .page 0x10000,
  0x10000, 0⟩] }) id) _ _ _ _ 16 ⟨⟨⟨rfl, rfl, rfl, rfl⟩, rfl, rfl, rfl, rfl, ⟨rfl, rfl⟩, rfl⟩, rfl, ⟨rfl, rfl, rfl⟩,
  (by unfold Block.writesOnce; decide), rfl⟩ rfl _ _ _ rfl rfl

theorem witness_Effect_pmig : ¬
    (∀ (s : State) (x : Inst) (t : Tile) (b : Block) (f : Fired) (va : W64), CommitsOne s x t b f va → s.canonical = true → ∀ (v d : W64) (p : ℕ)
    (c : Context), f.eff = Eff.pmig v d p → s.ctx? x.tag = some c → False) :=
  fun h => h (com (fun b => { b with branch := some (.to 16), hdr := 0x10000, settled := [(0, false)], effs := [⟨0, 0, .pmig 0x10000 1 0x1D0008,
  0x10000, 0⟩] }) id) _ _ _ _ 16 ⟨⟨⟨rfl, rfl, rfl, rfl⟩, rfl, rfl, rfl, rfl, ⟨rfl, rfl⟩, rfl⟩, rfl, ⟨rfl, rfl, rfl⟩,
  (by unfold Block.writesOnce; decide), rfl⟩ rfl _ _ _ _ rfl rfl

theorem witness_Effect_slot : ¬
    (∀ (s : State) (x : Inst) (t : Tile) (b : Block) (f : Fired) (va : W64), CommitsOne s x t b f va → s.canonical = true → ∀ (k : BitVec 4), f.eff
    = Eff.oclaim k ∧ t.mxe.logicAt k ≠ SlotLogic.free ∨ f.eff = Eff.orelease k ∧ t.mxe.logicAt k = SlotLogic.free ∨ (∃ v, f.eff = Eff.ofill k v) ∧
    t.mxe.logicAt k = SlotLogic.free → False) :=
  fun h => h (com (fun b => { b with branch := some (.to 16), hdr := 0x10000, settled := [(0, false)], effs := [⟨0, 0, .orelease 15, 0, 0⟩] }) id)
  _ _ _ _ 16 ⟨⟨⟨rfl, rfl, rfl, rfl⟩, rfl, rfl, rfl, rfl, ⟨rfl, rfl⟩, rfl⟩, rfl, ⟨rfl, rfl, rfl⟩, (by unfold Block.writesOnce; decide), rfl⟩ rfl 15
  (Or.inr (Or.inl ⟨rfl, by decide⟩))

theorem witness_Effect_sdef : ¬
    (∀ (s : State) (x : Inst) (t : Tile) (b : Block) (f : Fired) (va : W64), CommitsOne s x t b f va → s.canonical = true →
    let s0 := s.modFocus fun t => { t with reserved := [] };
    ∀ (ps : List (Loc × Size)) (bs : List Byte) (s1 : State) (d : BitVec 512), s0.checkRange s.focus.inst x.tag
    (match f.eff with | Eff.sdef st va => 2 | x => 0) AccKind.read false f.va 64 64 = EAcc.ok ps → s0.readPieces s.focus.inst s.focus.tile (whoDesc
    f.ls) x.tag ps = (ERead.bytes bs, s1) → (∀ p ∈ ps, p.1.isRemote = false) → d = BitVec.ofNat 512 (ofBytes bs) → ∀ (st : BitVec 4) (v : W64),
    f.eff = Eff.sdef st v → False) :=
  fun h => h (com (fun b => { b with branch := some (.to 16), hdr := 0x10000, settled := [(0, false)], effs := [⟨0, 0, .sdef 15 0x40000000000000,
  0x40000000000000, 0⟩] }) id) _ _ _ _ 16 ⟨⟨⟨rfl, rfl, rfl, rfl⟩, rfl, rfl, rfl, rfl, ⟨rfl, rfl⟩, rfl⟩, rfl, ⟨rfl, rfl, rfl⟩,
  (by unfold Block.writesOnce; decide), rfl⟩ rfl _ _ _ _ rfl rfl (by decide) rfl 15 0x40000000000000 rfl

theorem witness_Effect_cpy : ¬
    (∀ (s : State) (x : Inst) (t : Tile) (b : Block) (f : Fired) (va : W64), CommitsOne s x t b f va → s.canonical = true →
    let s0 := s.modFocus fun t => { t with reserved := [] };
    ∀ (ps : List (Loc × Size)) (bs : List Byte) (s1 : State) (d : BitVec 512), s0.checkRange s.focus.inst x.tag
    (match f.eff with | Eff.sdef st va => 2 | x => 0) AccKind.read false f.va 64 64 = EAcc.ok ps → s0.readPieces s.focus.inst s.focus.tile (whoDesc
    f.ls) x.tag ps = (ERead.bytes bs, s1) → (∀ p ∈ ps, p.1.isRemote = false) → d = BitVec.ofNat 512 (ofBytes bs) → ∀ (v : W64) (e : CpEngine),
    f.eff = Eff.cpy v → s.copy[t.phys / 64]? = some e → x.escalated = false → False) :=
  fun h => h (com (fun b => { b with branch := some (.to 16), hdr := 0x10000, settled := [(0, false)], effs := [⟨0, 0, .cpy 0x40000000000000,
  0x40000000000000, 0⟩] }) id) _ _ _ _ 16 ⟨⟨⟨rfl, rfl, rfl, rfl⟩, rfl, rfl, rfl, rfl, ⟨rfl, rfl⟩, rfl⟩, rfl, ⟨rfl, rfl, rfl⟩,
  (by unfold Block.writesOnce; decide), rfl⟩ rfl _ _ _ _ rfl rfl (by decide) rfl 0x40000000000000 _ rfl rfl rfl

theorem witness_Effect_halo : ¬
    (∀ (s : State) (x : Inst) (t : Tile) (b : Block) (f : Fired) (va : W64), CommitsOne s x t b f va → s.canonical = true →
    let s0 := s.modFocus fun t => { t with reserved := [] };
    ∀ (ps : List (Loc × Size)) (bs : List Byte) (s1 : State) (d : BitVec 512), s0.checkRange s.focus.inst x.tag
    (match f.eff with | Eff.sdef st va => 2 | x => 0) AccKind.read false f.va 64 64 = EAcc.ok ps → s0.readPieces s.focus.inst s.focus.tile (whoDesc
    f.ls) x.tag ps = (ERead.bytes bs, s1) → (∀ p ∈ ps, p.1.isRemote = false) → d = BitVec.ofNat 512 (ofBytes bs) → ∀ (v : W64), f.eff = Eff.halo v
    → False) :=
  fun h => h (com (fun b => { b with branch := some (.to 16), hdr := 0x10000, settled := [(0, false)], effs := [⟨0, 0, .halo 0x40000000000000,
  0x40000000000000, 0⟩] }) id) _ _ _ _ 16 ⟨⟨⟨rfl, rfl, rfl, rfl⟩, rfl, rfl, rfl, rfl, ⟨rfl, rfl⟩, rfl⟩, rfl, ⟨rfl, rfl, rfl⟩,
  (by unfold Block.writesOnce; decide), rfl⟩ rfl _ _ _ _ rfl rfl (by decide) rfl 0x40000000000000 rfl

theorem witness_Effect_enq : ¬
    (∀ (s : State) (x : Inst) (t : Tile) (b : Block) (f : Fired) (va : W64), CommitsOne s x t b f va → s.canonical = true →
    let s0 := s.modFocus fun t => { t with reserved := [] };
    ∀ (ps : List (Loc × Size)) (bs : List Byte) (s1 : State) (d : BitVec 512), s0.checkRange s.focus.inst x.tag
    (match f.eff with | Eff.sdef st va => 2 | x => 0) AccKind.read false f.va 64 64 = EAcc.ok ps → s0.readPieces s.focus.inst s.focus.tile (whoDesc
    f.ls) x.tag ps = (ERead.bytes bs, s1) → (∀ p ∈ ps, p.1.isRemote = false) → d = BitVec.ofNat 512 (ofBytes bs) → ∀ (q : BitVec 4) (v : W64) (c :
    Context), f.eff = Eff.enq q v → s.ctx? x.tag = some c → False) :=
  fun h => h (com (fun b => { b with branch := some (.to 16), hdr := 0x10000, settled := [(0, false)], effs := [⟨0, 0, .enq 3 0x40000000000000,
  0x40000000000000, 0⟩] }) id) _ _ _ _ 16 ⟨⟨⟨rfl, rfl, rfl, rfl⟩, rfl, rfl, rfl, rfl, ⟨rfl, rfl⟩, rfl⟩, rfl, ⟨rfl, rfl, rfl⟩,
  (by unfold Block.writesOnce; decide), rfl⟩ rfl _ _ _ _ rfl rfl (by decide) rfl 3 0x40000000000000 _ rfl rfl

theorem witness_Effect_sdefBad : ¬
    (∀ (s : State) (x : Inst) (t : Tile) (b : Block) (f : Fired) (va : W64), CommitsOne s x t b f va → s.canonical = true →
    let s0 := s.modFocus fun t => { t with reserved := [] };
    ∀ (pf : PFault), s0.checkRange s.focus.inst x.tag (match f.eff with | Eff.sdef st va => 2 | x => 0) AccKind.read false f.va 64 64 = EAcc.bad pf
    → ∀ (st : BitVec 4) (v : W64), f.eff = Eff.sdef st v → False) :=
  fun h => h (com (fun b => { b with branch := some (.to 16), hdr := 0x10000, settled := [(0, false)], effs := [⟨0, 0, .sdef 15 0x40000000128000,
  0x40000000128000, 0⟩] }) id) _ _ _ _ 16 ⟨⟨⟨rfl, rfl, rfl, rfl⟩, rfl, rfl, rfl, rfl, ⟨rfl, rfl⟩, rfl⟩, rfl, ⟨rfl, rfl, rfl⟩,
  (by unfold Block.writesOnce; decide), rfl⟩ rfl _ rfl 15 0x40000000128000 rfl

theorem witness_Effect_cpyBad : ¬
    (∀ (s : State) (x : Inst) (t : Tile) (b : Block) (f : Fired) (va : W64), CommitsOne s x t b f va → s.canonical = true →
    let s0 := s.modFocus fun t => { t with reserved := [] };
    ∀ (pf : PFault), s0.checkRange s.focus.inst x.tag (match f.eff with | Eff.sdef st va => 2 | x => 0) AccKind.read false f.va 64 64 = EAcc.bad pf
    → ((∃ v, f.eff = Eff.cpy v) ∨ (∃ v, f.eff = Eff.halo v) ∨ ∃ q v, f.eff = Eff.enq q v) → t.seq.pend.eng0.length < 16 → pf.engine = 0 → False) :=
  fun h => h (com (fun b => { b with branch := some (.to 16), hdr := 0x10000, settled := [(0, false)], effs := [⟨0, 0, .cpy 0x40000000128000,
  0x40000000128000, 0⟩] }) id) _ _ _ _ 16 ⟨⟨⟨rfl, rfl, rfl, rfl⟩, rfl, rfl, rfl, rfl, ⟨rfl, rfl⟩, rfl⟩, rfl, ⟨rfl, rfl, rfl⟩,
  (by unfold Block.writesOnce; decide), rfl⟩ rfl _ rfl (Or.inl ⟨_, rfl⟩) (by decide) rfl

/-! #### ElementaryLanes -/

theorem witness_Functions_lanes : ¬
    (∀ (op : ℕ) (t : BitVec 4) (mode : BitVec 3) (a b : Beat) (j : ℕ), t ∈ [0, 1, 2, 3, 4, 10] → j < 6144 / fmtWidth t → t = 0 → False) :=
  fun h => h 0x1E 0 1 0 0 191 (by decide) (by decide) rfl

theorem witness_Functions_exact : ¬
    (∀ (op : ℕ) (t : BitVec 4) (mode : BitVec 3) (x y r : ℕ) (a b u : ℚ), t ∈ [0, 1, 2, 3, 4, 10] → x < 2 ^ fmtWidth t → y < 2 ^ fmtWidth t → r < 2
    ^ fmtWidth t → ratOf t x = some a → ratOf t y = some b → isValueOf op a b u → u ≠ 0 → ratOf t r = some u → False) :=
  fun h => h 0x1F 0 1 0x40400000 0x3F800000 0x40400000 3 1 3 (by decide) (by decide) (by decide) (by decide) rat3 rat1 ⟨by norm_num, by norm_num⟩
  (by norm_num) rat3

theorem witness_Functions_divide : ¬
    (∀ (t : BitVec 4) (x y : ℕ) (a b u : ℚ), t ∈ [0, 1, 2, 3, 4, 10] → ratOf t x = some a → ratOf t y = some b → a ≠ 0 → b ≠ 0 → ratOf t (fnElem 31
    t 1 x y).1 = some u → ∀ (r : ℕ) (w : ℚ), r < 2 ^ fmtWidth t → ratOf t r = some w → False) :=
  fun h => h 0 0x40400000 0x3F800000 3 1 3 (by decide) rat3 rat1 (by norm_num) (by norm_num)
  (by rw [show (fnElem 0x1F 0 1 0x40400000 0x3F800000).1 = 0x40400000 from by decide +kernel]; exact rat3) 0x40000000 2 (by decide) rat2

theorem witness_Functions_invert : ¬
    (∀ (t : BitVec 4) (x y : ℕ) (a b u : ℚ), t ∈ [0, 1, 2, 3, 4, 10] → ratOf t x = some a → ratOf t y = some b → a ≠ 0 → b ≠ 0 → ratOf t (fnElem 30
    t 1 x y).1 = some u → ∀ (r : ℕ) (w : ℚ), r < 2 ^ fmtWidth t → ratOf t r = some w → False) :=
  fun h => h 0 0x40000000 0x3F800000 2 1 (1 / 2) (by decide) rat2 rat1 (by norm_num) (by norm_num)
  (by rw [show (fnElem 0x1E 0 1 0x40000000 0x3F800000).1 = 0x3F000000 from by decide +kernel]; exact ratHalf) 0x40000000 2 (by decide) rat2

theorem witness_Functions_nan : ¬
    (∀ (op : ℕ) (t : BitVec 4) (mode : BitVec 3) (x y : ℕ), t ∈ [0, 1, 2, 3, 4, 10] → op ∈ unaryFns → ∀ (sg : Bool), floatVal t x = FVal.nan sg →
    False) :=
  fun h => h 0x1D 0 1 0x7F800001 0 (by decide) (by decide) true (by decide)

theorem witness_Functions_infinite : ¬
    (∀ (op : ℕ) (t : BitVec 4) (mode : BitVec 3) (x y : ℕ), t ∈ [0, 1, 2, 3, 4, 10] → op ∈ unaryFns → ∀ (q : Special), ((∃ neg, floatVal t x =
    FVal.inf neg ∧ atInf neg op = some q) ∨ (∃ neg e, floatVal t x = FVal.fin neg 0 e ∧ atZero neg op = some q) ∨ ∃ v, ratOf t x = some v ∧ v ≠ 0 ∧
    atNumber v op = some q) → False) :=
  fun h => h 0x18 0 1 0xFF800000 0 (by decide) (by decide) _ (Or.inl ⟨true, by decide, rfl⟩)

theorem witness_Functions_zero : ¬
    (∀ (op : ℕ) (t : BitVec 4) (mode : BitVec 3) (x y : ℕ), t ∈ [0, 1, 2, 3, 4, 10] → op ∈ unaryFns → ∀ (q : Special), ((∃ neg, floatVal t x =
    FVal.inf neg ∧ atInf neg op = some q) ∨ (∃ neg e, floatVal t x = FVal.fin neg 0 e ∧ atZero neg op = some q) ∨ ∃ v, ratOf t x = some v ∧ v ≠ 0 ∧
    atNumber v op = some q) → False) :=
  fun h => h 0x07 0 1 0x80000000 0 (by decide) (by decide) _ (Or.inr (Or.inl ⟨true, -149, by decide, rfl⟩))

theorem witness_Functions_number : ¬
    (∀ (op : ℕ) (t : BitVec 4) (mode : BitVec 3) (x y : ℕ), t ∈ [0, 1, 2, 3, 4, 10] → op ∈ unaryFns → ∀ (q : Special), ((∃ neg, floatVal t x =
    FVal.inf neg ∧ atInf neg op = some q) ∨ (∃ neg e, floatVal t x = FVal.fin neg 0 e ∧ atZero neg op = some q) ∨ ∃ v, ratOf t x = some v ∧ v ≠ 0 ∧
    atNumber v op = some q) → False) :=
  fun h => h 0x1D 0 1 0xBF800000 0 (by decide) (by decide) Special.nan (Or.inr (Or.inr ⟨-1, ratMinus, by norm_num, by norm_num [atNumber]⟩))

theorem witness_Functions_nans : ¬
    (∀ (t : BitVec 4) (mode : BitVec 3) (x y : ℕ), t ∈ [0, 1, 2, 3, 4, 10] → ∀ op ∈ [18, 25, 27, 31], floatVal t x = FVal.nan true ∨ floatVal t y =
    FVal.nan true → False) :=
  fun h => h 0 1 0x7F800001 0 (by decide) 0x1F (by decide) (Or.inl (by decide))

theorem witness_Functions_quotient : ¬
    (∀ (t : BitVec 4) (mode : BitVec 3) (x y : ℕ), t ∈ [0, 1, 2, 3, 4, 10] → ∀ (q : Special), divSpecial (floatVal t x) (floatVal t y) = some q →
    False) :=
  fun h => h 3 1 0x38 0x80 (by decide) (Special.inf true true) rfl

theorem witness_Functions_hypotenuse : ¬
    (∀ (t : BitVec 4) (mode : BitVec 3) (x y : ℕ), t ∈ [0, 1, 2, 3, 4, 10] → ∀ (neg : Bool), floatVal t x ≠ FVal.nan true → floatVal t y ≠ FVal.nan
    true → floatVal t x = FVal.inf neg ∨ floatVal t y = FVal.inf neg → False) :=
  fun h => h 0 1 0xFF800000 0 (by decide) true (by decide) (by decide) (Or.inl (by decide))

theorem witness_Functions_power : ¬
    (∀ (t : BitVec 4) (mode : BitVec 3) (x y : ℕ), t ∈ [0, 1, 2, 3, 4, 10] → floatVal t x ≠ FVal.nan true → floatVal t y ≠ FVal.nan true → ratOf t
    y = some 0 ∨ ratOf t x = some 1 → False) :=
  fun h => h 0 1 0x3F800000 0x7F800000 (by decide) (by decide) (by decide) (Or.inr rat1)

theorem witness_Functions_powerNan : ¬
    (∀ (t : BitVec 4) (mode : BitVec 3) (x y : ℕ), t ∈ [0, 1, 2, 3, 4, 10] → ∀ (a b : ℚ), ratOf t x = some a → ratOf t y = some b → a < 0 → b.den ≠
    1 → False) :=
  fun h => h 0 1 0xBF800000 0x3F000000 (by decide) (-1) (1 / 2) ratMinus ratHalf (by norm_num) (by norm_num)

theorem witness_Functions_exp2 : ¬
    (∀ (t : BitVec 4) (mode : BitVec 3) (x y r : ℕ) (n : ℤ), t ∈ [0, 1, 2, 3, 4, 10] → r < 2 ^ fmtWidth t → ratOf t x = some ↑n → -152 ≤ n → n <
    128 → ratOf t r = some (2 ^ n) → False) :=
  fun h => h 0 1 0x40000000 0 0x40800000 2 (by decide) (by decide) (by rw [rat2]; norm_num) (by decide) (by decide) (by rw [rat4]; norm_num)

theorem witness_Functions_log2 : ¬
    (∀ (t : BitVec 4) (mode : BitVec 3) (x y r : ℕ) (n : ℤ), t ∈ [0, 1, 2, 3, 4, 10] → r < 2 ^ fmtWidth t → ratOf t x = some (2 ^ n) → n ≠ 0 →
    ratOf t r = some ↑n → False) :=
  fun h => h 0 1 0x40800000 0 0x40000000 2 (by decide) (by decide) (by rw [rat4]; norm_num) (by decide) (by rw [rat2]; norm_num)

theorem witness_Functions_inverse : ¬
    (∀ (t : BitVec 4) (mode : BitVec 3) (x y r : ℕ) (n : ℤ), t ∈ [0, 1, 2, 3, 4, 10] → r < 2 ^ fmtWidth t → ∀ (neg : Bool), ratOf t x = some ((if
    neg = true then -1 else 1) * 2 ^ n) → ratOf t r = some ((if neg = true then -1 else 1) * 2 ^ (-n)) → False) :=
  fun h => h 0 1 0x40000000 0 0x3F000000 1 (by decide) (by decide) false (by rw [rat2]; norm_num) (by rw [ratHalf]; norm_num)

theorem witness_Functions_tables : ¬
    (∀ j < 64, False) :=
  fun h => h 63 (by decide)

end Sys2Proof.Tests
end

section
/-! Bits of a word: what a field of joined fields reads, and the value of a field of a number. -/

namespace Sys2Proof.Encoding

/-- The width of the join stands outside the index of the simp set, so that the law also applies where a word's width is written as a number. -/
@[simp] theorem extractLsb'_append_low {v w s l : Nat} (x : BitVec v) (y : BitVec w) (h : s + l ≤ w) :
    BitVec.extractLsb' s l (@HAppend.hAppend (BitVec v) (BitVec w) (no_index (BitVec (v + w))) _ x y) =
      y.extractLsb' s l :=
  BitVec.extractLsb'_append_eq_of_add_le h

@[simp] theorem extractLsb'_append_high {v w s l : Nat} (x : BitVec v) (y : BitVec w) (h : w ≤ s) :
    BitVec.extractLsb' s l (@HAppend.hAppend (BitVec v) (BitVec w) (no_index (BitVec (v + w))) _ x y) =
      x.extractLsb' (s - w) l :=
  BitVec.extractLsb'_append_eq_of_le h

theorem getLsbD_append_ite {v w k : Nat} (x : BitVec v) (y : BitVec w) :
    BitVec.getLsbD (@HAppend.hAppend (BitVec v) (BitVec w) (no_index (BitVec (v + w))) _ x y) k =
      if k < w then y.getLsbD k else x.getLsbD (k - w) :=
  BitVec.getLsbD_append

theorem toNat_extractLsb' {n : Nat} (s l : Nat) (w : BitVec n) :
    (w.extractLsb' s l).toNat = w.toNat / 2 ^ s % 2 ^ l := by
  rw [BitVec.extractLsb'_toNat, Nat.shiftRight_eq_div_pow]

/-! ### Words and their fields (R61, R73, R238) -/

@[simp] theorem seqFields_ofWord_toWord (x : SeqFields) : SeqFields.ofWord x.toWord = x := by
  simp [SeqFields.ofWord, SeqFields.toWord]

@[simp] theorem sword_ofWord_toWord (op : BitVec 8) (w : SWord) : SWord.ofWord (w.toWord op) = w := by
  simp [SWord.ofWord, SWord.toWord]

@[simp] theorem mtok_ofWord_toWord (op : BitVec 4) (k : MTok) : MTok.ofWord (k.toWord op) = k := by
  simp [MTok.ofWord, MTok.toWord]

/-! ### Codes of the enumerated fields -/

@[simp] theorem pred_ofCode_code (p : Pred) : Pred.ofCode p.code = some p := by cases p <;> rfl
@[simp] theorem size_ofCode_code (s : Size) : Size.ofCode s.code = some s := by cases s <;> rfl
@[simp] theorem scope_ofCode_code (s : Scope) : Scope.ofCode s.code = some s := by cases s <;> rfl
@[simp] theorem sreg_ofCode_code (r : SReg) : SReg.ofCode r.code = some r := by cases r <;> rfl
@[simp] theorem plainSReg_ofCode_code (r : PlainSReg) : PlainSReg.ofCode r.code = some r := by cases r <;> rfl
@[simp] theorem stripId_ofCode_code (e : StripId) : StripId.ofCode e.code = some e := by cases e <;> rfl
@[simp] theorem partner_ofCode_code (e : Partner) : Partner.ofCode e.code = some e := by cases e <;> rfl
@[simp] theorem invKind_ofCode_code (k : InvKind) : InvKind.ofCode k.code = some k := by cases k <;> rfl
@[simp] theorem ctxItem_ofCode_code (c : CtxItem) : CtxItem.ofCode c.code = some c := by cases c <;> rfl

@[simp] theorem targetOfCode_targetCode (t : Option Target) : targetOfCode (targetCode t) = some t := by
  match t with
  | none => rfl
  | some ⟨k, n⟩ => cases k <;> simp [targetOfCode, targetCode, TKind.code]

/-- A code that names a predicate mode is that mode's code (R61). -/
theorem pred_code_of_ofCode {c : BitVec 2} {p : Pred} (hc : Pred.ofCode c = some p) : c = p.code := by
  cases p <;> revert c <;> decide

/-- The kind number of a target field (R61): 0 for no target. -/
def targetKind : Option Target → Nat
  | none => 0
  | some t => t.kind.code.toNat

/-- A target field that decodes holds the kind above the slot (R61). -/
theorem kind_slot_of_targetOfCode {c : BitVec 9} {t : Option Target} (hc : targetOfCode c = some t) :
    c.toNat / 128 = targetKind t ∧ ∀ g, t = some g → c.toNat % 128 = g.slot.toNat := by
  have hlt : c.toNat / 128 < 4 := by have := c.isLt; omega
  have hkind : (c.extractLsb' 7 2).toNat = c.toNat / 128 := by
    rw [toNat_extractLsb']
    exact Nat.mod_eq_of_lt hlt
  have hslot : (c.extractLsb' 0 7).toNat = c.toNat % 128 := by simp
  have htarget : ∀ k : TKind, c.toNat / 128 = k.code.toNat → some (some ⟨k, c.extractLsb' 0 7⟩) = some t →
      c.toNat / 128 = targetKind t ∧ ∀ g, t = some g → c.toNat % 128 = g.slot.toNat := by
    rintro k hk ⟨⟩
    refine ⟨hk, ?_⟩
    rintro g ⟨⟩
    exact hslot.symm
  rw [targetOfCode, hkind] at hc
  split at hc
  case h_1 h0 =>
    split at hc
    case isTrue =>
      obtain rfl := Option.some.inj hc
      exact ⟨h0, nofun⟩
    case isFalse => cases hc
  case h_2 h1 => exact htarget .left h1 hc
  case h_3 h2 => exact htarget .right h2 hc
  case h_4 h0 h1 h2 =>
    have hne : ¬ (c.toNat / 128 = 0 ∨ c.toNat / 128 = 1 ∨ c.toNat / 128 = 2) := by tauto
    exact htarget .pred (show c.toNat / 128 = 3 by omega) hc

/-! ### The format-specific bits (R63, R66, R67) -/

/-- A row of the decoder whose fixed bits are right. -/
theorem guard_of {α : Type} {c : Prop} [Decidable c] {o r : Option α} (hc : c) (ho : o = r) :
    (if c then o else none) = r :=
  (if_pos hc).trans ho

/-- A row of the decoder that reads the code of an enumeration. -/
theorem bind_of {α β : Type} {o : Option α} {f : α → Option β} {r : Option β} (a : α) (ho : o = some a) (hf : f a = r) :
    o.bind f = r := by
  rw [ho]
  exact hf

theorem firstSome_head {o : Option Instr} {i : Instr} {l : List (Option Instr)} (ho : o = some i) :
    firstSome (o :: l) = some i := by
  rw [ho, firstSome]

theorem firstSome_next {o : Option Instr} {i : Instr} {l : List (Option Instr)} (ho : o = none)
    (hl : firstSome l = some i) : firstSome (o :: l) = some i := by
  rw [ho, firstSome, hl]

/-- The decoder's row of an instruction reads back the bits that the encoder's row writes; the cases are grouped by the form of the row. -/
theorem decodeFields_encodeFields {i : Instr} {h : Head} {m : SeqMeta} (hs : i.shape = .seq h m) :
    decodeFields m.op h (encodeFields i) = some i := by
  cases i <;> cases hs
  -- Every bit belongs to a field.
  case movi | adrb | br | call | yield =>
    refine congrArg some ?_
    simp [encodeFields.eq_def]
  -- A field holds the code of an enumeration.
  case ldfTake ls sz g off => refine bind_of sz ?_ (congrArg some ?_) <;> simp [encodeFields.eq_def]
  case ld ls sz off | lds ls sz off | st ls sz off | ldf ls sz off | stf ls sz off =>
    refine guard_of ?_ (bind_of sz ?_ ?_) <;> simp [encodeFields.eq_def]
  case fence a | mfs a | run _ a _ _ | tokp _ a | tokw _ a | tlbi _ a =>
    refine guard_of ?_ (bind_of a ?_ ?_) <;> simp [encodeFields.eq_def]
  case ctxq a | mts _ a => refine firstSome_head (guard_of ?_ (bind_of a ?_ ?_)) <;> simp [encodeFields.eq_def]
  -- A field is a flag of one bit.
  case aadd | aswp | acas | aand | aor | axor | amin | amax | aminu | amaxu | chw =>
    refine guard_of ?_ ?_ <;> simp [encodeFields.eq_def, getLsbD_append_ite, -BitVec.getLsbD_eq_getElem]
  -- The first, the second and the third row of an opcode whose rows the sub-op tells apart.
  case mulh | div | rem | shr | min | max | sextb | tlt | tle | tgt | tge | shri | ext | tlti | tlei | tgti | tgei =>
    refine firstSome_head (guard_of ?_ ?_) <;> simp [encodeFields.eq_def]
  case mulhu | divu | remu | sra | minu | maxu | sexth | tltu | tleu | tgtu | tgeu | srai | exts | tltiu | tleiu | tgtiu
      | tgeiu =>
    refine firstSome_next (if_neg ?_) (firstSome_head (guard_of ?_ ?_)) <;> simp [encodeFields.eq_def]
  case sextw =>
    refine firstSome_next (if_neg ?_) (firstSome_next (if_neg ?_) (firstSome_head (guard_of ?_ ?_))) <;>
      simp [encodeFields.eq_def]
  -- The rows of CTXQ and MTS whose code the enumeration of their opcode leaves out.
  case ctxqClearFlags =>
    refine firstSome_next (guard_of ?_ ?_) (firstSome_head (guard_of ?_ ?_)) <;> simp [encodeFields.eq_def, CtxItem.ofCode]
  case mtsFmode =>
    refine firstSome_next (guard_of ?_ ?_) (firstSome_head (guard_of ?_ ?_)) <;> simp [encodeFields.eq_def, PlainSReg.ofCode]
  case mtsFflags =>
    refine firstSome_next (guard_of ?_ ?_) (firstSome_next (if_neg ?_) (firstSome_head (guard_of ?_ ?_))) <;>
      simp [encodeFields.eq_def, PlainSReg.ofCode]
  case mtsEpc =>
    refine firstSome_next (guard_of ?_ ?_) (firstSome_next (if_neg ?_) (firstSome_next (if_neg ?_)
      (firstSome_head (guard_of ?_ ?_)))) <;> simp [encodeFields.eq_def, PlainSReg.ofCode]
  -- One row, whose bits outside its fields are fixed.
  all_goals refine guard_of ?_ ?_ <;> simp [encodeFields.eq_def]

end Sys2Proof.Encoding
end

section
/-! Decoding an encoded word gives it back. -/

namespace Sys2Proof.Encoding

/-! ### Opcodes -/

theorem assignedOp_of_shape {i : Instr} {h : Head} {m : SeqMeta} (hs : i.shape = .seq h m) : assignedOp m.op = true := by
  cases i <;> cases hs <;> rfl

/-- The opcode of a strip word, and for the E-strip functions bit 0 of the immediate (R76), name the instruction. -/
theorem stripInstr_of_shape {i : Instr} {e : StripId} {op : BitVec 8} {w : SWord} (hs : i.shape = .strip e op w)
    (hr : rangeOk i = true) : stripInstr e op.toNat w = some i := by
  cases i <;> cases hs
  case idle => cases e <;> rfl
  case estExp | estExp2 | estExp10 | estLog | estLog2 | estSigmoid | estRsqrt | estSqrt | estRcp | estDiv =>
    exact congrArg some (if_neg (Bool.eq_false_iff.mp ((Bool.not_eq_true' _).mp hr)))
  case estExpA | estExp2A | estExp10A | estLogA | estLog2A | estSigmoidA | estRsqrtA | estSqrtA | estRcpA | estDivA =>
    exact congrArg some (if_pos hr)
  all_goals rfl

/-- Operations 1 to 6 are the control tokens (R81). -/
theorem tokenOp_of_shape {i : Instr} {op : BitVec 4} {k : MTok} (hs : i.shape = .token op k) :
    (op == 0 || decide (6 < op.toNat)) = false := by
  cases i <;> cases hs <;> rfl

/-! ### Words -/

theorem encode_of_seq {i : Instr} {h : Head} {m : SeqMeta} (hs : i.shape = .seq h m) :
    encode i = (seqFields i h m).toWord := by
  rw [encode, hs]

theorem encode_of_strip {i : Instr} {e : StripId} {op : BitVec 8} {w : SWord} (hs : i.shape = .strip e op w) :
    encode i = w.toWord op := by
  rw [encode, hs]

theorem encode_of_token {i : Instr} {op : BitVec 4} {k : MTok} (hs : i.shape = .token op k) :
    encode i = k.toWord op := by
  rw [encode, hs]

theorem decodeSeq_encode {i : Instr} {h : Head} {m : SeqMeta} (hs : i.shape = .seq h m) (hi : fieldsOk i = true) :
    decodeSeq (encode i) = .ok i := by
  have hf : decodeFields m.op ⟨h.pred, h.t0, h.t1⟩ (encodeFields i) = some i := decodeFields_encodeFields hs
  simp [encode_of_seq hs, decodeSeq, decodeSeqFields, seqFields, assignedOp_of_shape hs, hf, hi]

theorem decodeStrip_encode {i : Instr} {e : StripId} {op : BitVec 8} {w : SWord} (hs : i.shape = .strip e op w)
    (hi : fieldsOk i = true) : decodeStrip e (encode i) = .ok i := by
  have hr : rangeOk i = true := (Bool.and_eq_true_iff.mp hi).1
  simp [encode_of_strip hs, decodeStrip, Laws.Opcode.strip_opcode, stripInstr_of_shape hs hr, hi]

theorem decodeToken_encode {i : Instr} {op : BitVec 4} {k : MTok} (hs : i.shape = .token op k) (hi : fieldsOk i = true) :
    decodeToken (encode i) = .ok (op, k) := by
  have hk : tokenOk op k = true := by
    have hshape : i.shape.ok = true := (Bool.and_eq_true_iff.mp hi).2
    rwa [hs] at hshape
  rw [encode_of_token hs, decodeToken]
  simp only [Laws.Opcode.token_opcode, mtok_ofWord_toWord, tokenOp_of_shape hs, hk]
  rfl

/-- Settles O58, by the shape of the instruction: its fields read back from the word, and each names what it encodes. -/
theorem decodeEncode : Obligations.DecodeEncode := by
  intro i hi
  cases hs : i.shape with
  | seq h m => exact decodeSeq_encode hs hi
  | strip e op w => exact decodeStrip_encode hs hi
  | token op k => exact decodeToken_encode hs hi
  | step => trivial

end Sys2Proof.Encoding
end

section
/-! What a word that decodes holds: its opcode and the fields of its head. -/

namespace Sys2Proof.Encoding

/-- Every answer is a sequencer word with this head and this opcode. -/
def SeqWordOf (h : Head) (n : Nat) (o : Option Instr) : Prop :=
  ∀ i, o = some i → ∃ m, i.shape = .seq h m ∧ m.op.toNat = n

theorem seqWordOf_some {h : Head} {n : Nat} {i : Instr} {m : SeqMeta} (hs : i.shape = .seq h m) (hn : m.op.toNat = n) :
    SeqWordOf h n (some i) := by
  intro j hj
  obtain rfl := Option.some.inj hj
  exact ⟨m, hs, hn⟩

theorem seqWordOf_none {h : Head} {n : Nat} : SeqWordOf h n none :=
  fun i hi => absurd hi.symm (Option.some_ne_none i)

theorem seqWordOf_guard {h : Head} {n : Nat} {o : Option Instr} {c : Prop} [Decidable c] (ho : SeqWordOf h n o) :
    SeqWordOf h n (if c then o else none) := by
  split
  · exact ho
  · exact seqWordOf_none

theorem seqWordOf_bind {α : Type} {h : Head} {n : Nat} {f : α → Option Instr} {o : Option α}
    (hf : ∀ a, SeqWordOf h n (f a)) : SeqWordOf h n (o.bind f) := by
  cases o with
  | none => exact seqWordOf_none
  | some a => exact hf a

theorem seqWordOf_firstSome_nil {h : Head} {n : Nat} : SeqWordOf h n (firstSome []) := seqWordOf_none

theorem seqWordOf_firstSome_cons {h : Head} {n : Nat} {o : Option Instr} {l : List (Option Instr)}
    (ho : SeqWordOf h n o) (hl : SeqWordOf h n (firstSome l)) : SeqWordOf h n (firstSome (o :: l)) := by
  cases o with
  | none => exact hl
  | some a => exact ho

/-- Each row of the decoder is of one of the forms above, and its instruction has the row's opcode (R70). -/
theorem seqWordOf_decodeFields (op : BitVec 8) (h : Head) (f : BitVec 36) :
    SeqWordOf h op.toNat (decodeFields op h f) := by
  unfold decodeFields
  generalize op.toNat = n
  split <;> apply_rules [seqWordOf_guard, seqWordOf_bind, seqWordOf_firstSome_nil, seqWordOf_firstSome_cons,
    seqWordOf_none, seqWordOf_some, rfl]
  -- The rows that read the code of an enumeration.
  all_goals exact fun _ => seqWordOf_some rfl rfl

theorem decodeSeqFields_eq_ok {x : SeqFields} {i : Instr} (hd : decodeSeqFields x = .ok i) :
    ∃ h : Head, Pred.ofCode x.pm = some h.pred ∧ targetOfCode x.t0 = some h.t0 ∧ targetOfCode x.t1 = some h.t1 ∧
      decodeFields x.op h x.f = some i := by
  unfold decodeSeqFields at hd
  split at hd
  case isFalse => cases hd
  split at hd
  case h_1 => cases hd
  case h_2 p hp =>
  split at hd
  case h_2 => cases hd
  case h_1 t0 t1 ht0 ht1 =>
  split at hd
  case h_1 => cases hd
  case h_2 j hj =>
  split at hd
  case isFalse => cases hd
  obtain rfl := Except.ok.inj hd
  exact ⟨⟨p, t0, t1⟩, hp, ht0, ht1, hj⟩

/-- The head of a decoded word is what its fields name (R61). -/
theorem decodeSeq_eq_ok {w : W64} {i : Instr} {h : Head} {m : SeqMeta} (hd : decodeSeq w = .ok i)
    (hs : i.shape = .seq h m) :
    (w.extractLsb' 56 8).toNat = m.op.toNat ∧ Pred.ofCode (w.extractLsb' 54 2) = some h.pred ∧
      targetOfCode (w.extractLsb' 45 9) = some h.t0 ∧ targetOfCode (w.extractLsb' 36 9) = some h.t1 := by
  obtain ⟨h', hp, ht0, ht1, hf⟩ := decodeSeqFields_eq_ok hd
  obtain ⟨m', hs', hop⟩ := seqWordOf_decodeFields _ _ _ i hf
  obtain ⟨rfl, rfl⟩ : h = h' ∧ m = m' := by simpa [hs] using hs'
  exact ⟨hop.symm, hp, ht0, ht1⟩

theorem decodeSeqFields_error_of_pred {x : SeqFields} (hx : Pred.ofCode x.pm = none) :
    ∃ e, decodeSeqFields x = .error e := by
  unfold decodeSeqFields
  split
  · exact ⟨.predicate, by rw [hx]⟩
  · exact ⟨.opcode, rfl⟩

/-- Settles O59: the fields of a decoded word are read off as numbers. -/
theorem commonFields : Obligations.CommonFields := by
  intro w
  have hw : w.toNat < 2 ^ 64 := w.isLt
  have hpm : (w.extractLsb' 54 2).toNat = w.toNat / 2 ^ 54 % 4 := toNat_extractLsb' 54 2 w
  constructor
  · intro h11
    have hnone : Pred.ofCode (w.extractLsb' 54 2) = none := by simp only [Pred.ofCode, hpm, h11]
    exact decodeSeqFields_error_of_pred hnone
  · intro i h m hd hs kind
    have hkind : ∀ t, kind t = targetKind t := by rintro (_ | ⟨_ | _ | _, _⟩) <;> rfl
    obtain ⟨hop, hp, ht0, ht1⟩ := decodeSeq_eq_ok hd hs
    obtain ⟨hk0, hs0⟩ := kind_slot_of_targetOfCode ht0
    obtain ⟨hk1, hs1⟩ := kind_slot_of_targetOfCode ht1
    simp only [toNat_extractLsb'] at hop hk0 hs0 hk1 hs1
    refine ⟨by omega, ?_, ?_, ?_, ?_, ?_⟩
    · rw [← hpm, pred_code_of_ofCode hp]
      cases h.pred <;> rfl
    · rw [hkind]
      omega
    · intro g hg
      have := hs0 g hg
      omega
    · rw [hkind]
      omega
    · intro g hg
      have := hs1 g hg
      omega

/-- Settles O57: each word is evaluated. -/
theorem decodedWords : Obligations.DecodedWords :=
  ⟨rfl, rfl, rfl, rfl, rfl, rfl, rfl, rfl, rfl, rfl, rfl⟩

/-- The branch mark of a shape. -/
def branchMark : Shape → Bool
  | .seq _ m => m.branch
  | _ => false

/-- The seven instructions of R65. -/
def isBranch : Instr → Bool
  | .br _ _ _ | .brr _ | .call _ _ _ | .callr _ | .halt _ | .yield _ _ _ | .hret _ => true
  | _ => false

theorem branchMark_shape (i : Instr) : branchMark i.shape = isBranch i := by
  cases i <;> rfl

/-- Settles O60: the branch mark of the shapes is that of the seven instructions, whose head is that of their shape. -/
theorem branchesAre : Obligations.BranchesAre := by
  intro i h m hs
  have hmark : m.branch = isBranch i := by rw [← branchMark_shape, hs, branchMark]
  rw [hmark, isBranch.eq_def]
  split
  case h_8 => simp_all
  all_goals
    obtain ⟨rfl, -⟩ := Shape.seq.inj hs
    simp

end Sys2Proof.Encoding
end

section
/-! The exact numbers under RoundTo (R104): fractions scaled by a power of two, the rounding to an integer, and the binary logarithm. -/

open Sys2Proof.Machine

namespace Sys2Proof.Rounding

theorem scaleRat_den_pos (n : ℕ) {d : ℕ} (hd : 0 < d) (k : ℤ) : 0 < (scaleRat n d k).2 := by
  unfold scaleRat
  split <;> positivity

theorem scaleRat_value (n d : ℕ) (k : ℤ) : ((scaleRat n d k).1 : ℚ) / (scaleRat n d k).2 = n / d * 2 ^ k := by
  unfold scaleRat
  split
  case isTrue hk =>
    lift k to ℕ using hk
    simp [mul_div_right_comm]
  case isFalse hk =>
    obtain ⟨j, rfl⟩ : ∃ j : ℕ, k = -j := ⟨(-k).toNat, by omega⟩
    simp [div_eq_mul_inv, mul_assoc, mul_comm]

/-! ### Nearest integers -/

/-- The natural number r is nearest to x, and even where x lies halfway between two integers. -/
def RoundsEven (r : ℕ) (x : ℚ) : Prop := |(r : ℚ) - x| ≤ 1 / 2 ∧ (|(r : ℚ) - x| = 1 / 2 → r % 2 = 0)

theorem RoundsEven.bounds {r : ℕ} {x : ℚ} (h : RoundsEven r x) : x - 1 / 2 ≤ r ∧ (r : ℚ) ≤ x + 1 / 2 := by
  have := abs_le.mp h.1
  constructor <;> linarith

theorem RoundsEven.le_of_le {r P : ℕ} {x : ℚ} (h : RoundsEven r x) (hP : (P : ℚ) ≤ x) : P ≤ r := by
  have : (P : ℚ) < (r + 1 : ℕ) := by push_cast; linarith [h.bounds]
  exact Nat.lt_succ_iff.mp (Nat.cast_lt.mp this)

theorem RoundsEven.le_of_lt {r P : ℕ} {x : ℚ} (h : RoundsEven r x) (hP : x < P) : r ≤ P := by
  have : (r : ℚ) < (P + 1 : ℕ) := by push_cast; linarith [h.bounds]
  exact Nat.lt_succ_iff.mp (Nat.cast_lt.mp this)

/-- No integer lies nearer to x than r, and of two that lie equally near r is the even one. -/
theorem RoundsEven.nearest_int {r : ℕ} {x : ℚ} (h : RoundsEven r x) (z : ℤ) :
    |(r : ℚ) - x| ≤ |(z : ℚ) - x| ∧ (|(r : ℚ) - x| = |(z : ℚ) - x| → (r : ℚ) ≠ z → r % 2 = 0) := by
  obtain ⟨hnear, heven⟩ := h
  by_cases hz : (r : ℤ) = z
  · subst hz
    simp
  have hone : (1 : ℚ) ≤ |(r : ℚ) - z| := by exact_mod_cast Int.one_le_abs (sub_ne_zero.mpr hz)
  have htri : |(r : ℚ) - z| ≤ |(r : ℚ) - x| + |(z : ℚ) - x| := by
    rw [abs_sub_comm (z : ℚ) x]
    exact abs_sub_le _ _ _
  exact ⟨by linarith, fun heq _ => heven (by linarith)⟩

/-- What lies below an integer that x has reached is farther from x than r is. -/
theorem RoundsEven.lt_of_abs_lt {r P : ℕ} {x z : ℚ} (h : RoundsEven r x) (hP : (P : ℚ) ≤ x) (hz : |z| < P) :
    |(r : ℚ) - x| < |z - x| := by
  have hz' : z < P := (le_abs_self z).trans_lt hz
  calc |(r : ℚ) - x| ≤ |((P : ℤ) : ℚ) - x| := (h.nearest_int P).1
    _ = x - P := by rw [Int.cast_natCast, abs_of_nonpos (sub_nonpos.mpr hP), neg_sub]
    _ < x - z := by linarith
    _ ≤ |z - x| := by rw [abs_sub_comm]; exact le_abs_self _

theorem roundsEven_floor {q : ℕ} {f : ℚ} (h0 : 0 ≤ f) (h : f < 1 / 2 ∨ f = 1 / 2 ∧ q % 2 = 0) : RoundsEven q (q + f) := by
  rw [RoundsEven, sub_add_cancel_left, abs_neg, abs_of_nonneg h0]
  obtain h | ⟨h, hq⟩ := h
  · exact ⟨h.le, fun he => absurd he h.ne⟩
  · exact ⟨h.le, fun _ => hq⟩

theorem roundsEven_ceil {q : ℕ} {f : ℚ} (h1 : f < 1) (h : 1 / 2 < f ∨ f = 1 / 2 ∧ (q + 1) % 2 = 0) :
    RoundsEven (q + 1) (q + f) := by
  rw [RoundsEven, Nat.cast_succ, add_sub_add_left_eq_sub, abs_of_pos (sub_pos.mpr h1)]
  obtain h | ⟨h, hq⟩ := h
  · exact ⟨by linarith, fun he => by linarith⟩
  · exact ⟨by linarith, fun _ => hq⟩

theorem roundInt_rne (s : Bool) (n d : ℕ) :
    roundInt 1 s n d = if 2 * (n % d) < d then n / d else if d < 2 * (n % d) then n / d + 1
      else if n / d % 2 = 0 then n / d else n / d + 1 := rfl

/-- R104: RoundInt under RNE. Twice the remainder against the divisor says on which side of the midpoint the fraction lies. -/
theorem roundsEven_roundInt (s : Bool) (n : ℕ) {d : ℕ} (hd : 0 < d) : RoundsEven (roundInt 1 s n d) (n / d) := by
  have hd' : (0 : ℚ) < d := by exact_mod_cast hd
  have hx : (n : ℚ) / d = (n / d : ℕ) + (n % d : ℕ) / d := by
    rw [eq_comm, add_div' _ _ _ hd'.ne']
    congr 1
    exact_mod_cast Nat.div_add_mod' n d
  have hr0 : 0 ≤ ((n % d : ℕ) : ℚ) / d := by positivity
  have hr1 : ((n % d : ℕ) : ℚ) / d < 1 := (div_lt_one hd').mpr (by exact_mod_cast Nat.mod_lt n hd)
  have hlt : ((n % d : ℕ) : ℚ) / d < 1 / 2 ↔ 2 * (n % d) < d := by
    rw [div_lt_div_iff₀ hd' two_pos, mul_comm, one_mul]
    exact_mod_cast Iff.rfl
  have hgt : 1 / 2 < ((n % d : ℕ) : ℚ) / d ↔ d < 2 * (n % d) := by
    rw [div_lt_div_iff₀ two_pos hd', mul_comm _ 2, one_mul]
    exact_mod_cast Iff.rfl
  rw [hx, roundInt_rne]
  split_ifs with h1 h2 h3
  · exact roundsEven_floor hr0 (.inl (hlt.mpr h1))
  · exact roundsEven_ceil hr1 (.inl (hgt.mpr h2))
  all_goals have hmid := le_antisymm (not_lt.mp (mt hgt.mp h2)) (not_lt.mp (mt hlt.mp h1))
  · exact roundsEven_floor hr0 (.inr ⟨hmid, h3⟩)
  · exact roundsEven_ceil hr1 (.inr ⟨hmid, by omega⟩)

/-! ### Logarithms -/

theorem floorLog2_bounds {n d : ℕ} (hn : 0 < n) (hd : 0 < d) :
    (2 : ℚ) ^ floorLog2 n d ≤ n / d ∧ (n : ℚ) / d < 2 ^ (floorLog2 n d + 1) := by
  have hd' : (0 : ℚ) < d := by exact_mod_cast hd
  have hn1 : (2 : ℚ) ^ n.log2 ≤ n := by exact_mod_cast Nat.log2_self_le hn.ne'
  have hn2 : (n : ℚ) < 2 ^ (n.log2 + 1) := by exact_mod_cast Nat.lt_log2_self
  have hd1 : (2 : ℚ) ^ d.log2 ≤ d := by exact_mod_cast Nat.log2_self_le hd.ne'
  have hd2 : (d : ℚ) < 2 ^ (d.log2 + 1) := by exact_mod_cast Nat.lt_log2_self
  have hlow : (2 : ℚ) ^ ((n.log2 : ℤ) - d.log2 - 1) ≤ n / d := by
    rw [sub_sub, zpow_sub₀ two_ne_zero]
    exact_mod_cast div_le_div₀ (by positivity) hn1 hd' hd2.le
  have hhigh : (n : ℚ) / d < 2 ^ ((n.log2 : ℤ) - d.log2 + 1) := by
    rw [sub_add_eq_add_sub, zpow_sub₀ two_ne_zero]
    exact_mod_cast div_lt_div₀ hn2 hd1 (by positivity) (by positivity)
  have hcmp (k : ℤ) : (scaleRat n d (-k)).1 < (scaleRat n d (-k)).2 ↔ (n : ℚ) / d < 2 ^ k := by
    have hpos : (0 : ℚ) < (scaleRat n d (-k)).2 := by exact_mod_cast scaleRat_den_pos n hd (-k)
    rw [← Nat.cast_lt (α := ℚ), ← div_lt_one hpos, scaleRat_value, zpow_neg, ← div_eq_mul_inv, div_lt_one (by positivity)]
  simp only [floorLog2]
  split
  case isTrue h => exact ⟨hlow, by rw [sub_add_cancel]; exact (hcmp _).mp h⟩
  case isFalse h => exact ⟨not_lt.mp fun hlt => h ((hcmp _).mpr hlt), hhigh⟩

end Sys2Proof.Rounding
end

section
/-! The finite numbers of a binary float (R95, R96), as multiples of the least subnormal. -/

open Sys2Proof.Machine

namespace Sys2Proof.Rounding

/-- What the parameters of a binary float have in common (R94, R95), and what a float delivers beyond its largest number under RNE. -/
structure FloatFormat (t : BitVec 4) : Prop where
  width : fmtWidth t = expBits t + fracBits t + 1
  fracBits_pos : 0 < fracBits t
  emin_le_emax : fmtEmin t ≤ fmtEmax t
  largest_lt : (fmtEmax t - fmtEmin t).toNat * 2 ^ fracBits t + largestSig t < 2 ^ (expBits t + fracBits t)
  le_largestSig : 2 ^ fracBits t ≤ largestSig t
  largestSig_lt : largestSig t < 2 ^ (fracBits t + 1)
  overflow : ∀ s, ratOf t (overflowResult t 1 s) = none

theorem floatFormat_of_mem {t : BitVec 4} (ht : t ∈ [(0x0 : BitVec 4), 0x1, 0x2, 0x3, 0x4, 0xA]) : FloatFormat t := by
  simp only [List.mem_cons, List.not_mem_nil, or_false] at ht
  rcases ht with rfl | rfl | rfl | rfl | rfl | rfl
  all_goals exact ⟨by decide, by decide, by decide, by decide, by decide, by decide, by rintro (_ | _) <;> rfl⟩

/-- The number of exponent field E and fraction F, in units of the least subnormal: the magnitude of the bits E × 2^p + F (R96). -/
def magnitude (t : BitVec 4) (b : ℕ) : ℕ :=
  if b / 2 ^ fracBits t = 0 then b % 2 ^ fracBits t else (2 ^ fracBits t + b % 2 ^ fracBits t) * 2 ^ (b / 2 ^ fracBits t - 1)

/-- The exponent of the least subnormal. -/
def leastExp (t : BitVec 4) : ℤ := fmtEmin t - fracBits t

/-- The number that a significand of k units in the exponent above the least denotes is k units; a significand of 2^(p + 1) carries into the
exponent. -/
theorem magnitude_of_significand {t : BitVec 4} {k r : ℕ} (hr : r ≤ 2 ^ (fracBits t + 1)) (hk : k = 0 ∨ 2 ^ fracBits t ≤ r) :
    magnitude t (k * 2 ^ fracBits t + r) = r * 2 ^ k := by
  rw [magnitude, mul_comm k, Nat.mul_add_div (by positivity), Nat.mul_add_mod]
  rw [pow_succ] at hr
  have hP : 0 < 2 ^ fracBits t := by positivity
  generalize 2 ^ fracBits t = P at *
  obtain hsub | hnorm | rfl : r < P ∨ (P ≤ r ∧ r < P * 2) ∨ r = P * 2 := by omega
  · obtain rfl : k = 0 := by omega
    simp [Nat.div_eq_of_lt hsub, Nat.mod_eq_of_lt hsub]
  · have hdiv : r / P = 1 := Nat.div_eq_of_lt_le (by omega) (by omega)
    have hmod := Nat.div_add_mod r P
    rw [hdiv, mul_one] at hmod
    simp [hdiv, hmod]
  · simp [hP]
    ring

/-- Every number is a multiple of 2^k units, or lies below the first number of exponent field k + 1. -/
theorem magnitude_multiple_or_lt (t : BitVec 4) (b k : ℕ) :
    2 ^ k ∣ magnitude t b ∨ (k ≠ 0 ∧ magnitude t b < 2 ^ fracBits t * 2 ^ k) := by
  have hF : b % 2 ^ fracBits t < 2 ^ fracBits t := Nat.mod_lt _ (by positivity)
  rw [magnitude]
  generalize b / 2 ^ fracBits t = E
  generalize b % 2 ^ fracBits t = F at *
  obtain rfl | hk := Nat.eq_zero_or_pos k
  · simp
  obtain hE | hE := Nat.lt_or_ge k E
  · left
    rw [if_neg (by omega)]
    exact Dvd.dvd.mul_left (pow_dvd_pow 2 (by omega)) _
  · refine .inr ⟨hk.ne', ?_⟩
    split_ifs
    · exact hF.trans_le (Nat.le_mul_of_pos_right _ (by positivity))
    · calc (2 ^ fracBits t + F) * 2 ^ (E - 1) < (2 ^ fracBits t * 2) * 2 ^ (E - 1) := by gcongr; omega
        _ = 2 ^ fracBits t * 2 ^ (E - 1 + 1) := by ring
        _ ≤ 2 ^ fracBits t * 2 ^ k := by gcongr <;> omega

/-- R96: the value of a finite number by its fields. -/
theorem eq_of_ratOf {t : BitVec 4} {x : ℕ} {u : ℚ} (h : ratOf t x = some u) :
    u = (if decide (signBit t ≤ x % (2 * signBit t)) then -1 else 1) *
      if x / 2 ^ fracBits t % 2 ^ expBits t = 0 then ((x % 2 ^ fracBits t : ℕ) : ℚ) * 2 ^ leastExp t
      else ((2 ^ fracBits t + x % 2 ^ fracBits t : ℕ) : ℚ) *
        2 ^ (((x / 2 ^ fracBits t % 2 ^ expBits t : ℕ) : ℤ) - fmtBias t - fracBits t) := by
  by_cases hE : x / 2 ^ fracBits t % 2 ^ expBits t = 0
  · simp only [ratOf, floatVal, if_pos hE] at h ⊢
    split_ifs at h <;> cases h <;> exact mul_assoc _ _ _
  · simp only [ratOf, floatVal, if_neg hE] at h ⊢
    split_ifs at h <;> cases h <;> exact mul_assoc _ _ _

section
variable {t : BitVec 4} (ht : FloatFormat t)
include ht

theorem signBit_eq : signBit t = 2 ^ (expBits t + fracBits t) := by
  rw [signBit, ht.width, Nat.add_sub_cancel]

theorem exists_withSign_of_lt {x : ℕ} (hx : x < 2 ^ fmtWidth t) : ∃ s b, b < signBit t ∧ x = withSign t s b := by
  rw [ht.width, pow_succ, ← signBit_eq ht] at hx
  obtain h | h := Nat.lt_or_ge x (signBit t)
  · exact ⟨false, x, h, rfl⟩
  · exact ⟨true, x - signBit t, by omega, (Nat.sub_add_cancel h).symm⟩

/-- The sign bit is even and lies above the fraction. -/
theorem withSign_mod_two (s : Bool) (b : ℕ) : withSign t s b % 2 = b % 2 := by
  have h2 : 2 ∣ signBit t := by
    rw [signBit_eq ht]
    exact dvd_pow_self 2 (by have := ht.fracBits_pos; omega)
  cases s
  · rfl
  · show (b + signBit t) % 2 = b % 2
    omega

/-- R96: the value of the finite number of sign s and bits b. -/
theorem ratOf_withSign {s : Bool} {b : ℕ} {u : ℚ} (hb : b < signBit t) (hu : ratOf t (withSign t s b) = some u) :
    u = (if s then -1 else 1) * magnitude t b * 2 ^ leastExp t := by
  have hsign : decide (signBit t ≤ withSign t s b % (2 * signBit t)) = s := by
    rw [Nat.mod_eq_of_lt] <;> cases s <;> simp [withSign] <;> omega
  have hE : b / 2 ^ fracBits t < 2 ^ expBits t := by
    rw [Nat.div_lt_iff_lt_mul (by positivity), ← pow_add, ← signBit_eq ht]
    exact hb
  have hexp : withSign t s b / 2 ^ fracBits t % 2 ^ expBits t = b / 2 ^ fracBits t := by
    cases s
    · exact Nat.mod_eq_of_lt hE
    · rw [withSign, if_pos rfl, signBit_eq ht, pow_add, Nat.add_mul_div_right _ _ (by positivity), Nat.add_mod_right,
        Nat.mod_eq_of_lt hE]
  have hfrac : withSign t s b % 2 ^ fracBits t = b % 2 ^ fracBits t := by
    cases s
    · rfl
    · rw [withSign, if_pos rfl, signBit_eq ht, pow_add, Nat.add_mul_mod_self_right]
  rw [eq_of_ratOf hu, hsign, hexp, hfrac, magnitude, mul_assoc]
  congr 1
  split
  case isTrue => rfl
  case isFalse hne =>
    have hscale : ((b / 2 ^ fracBits t : ℕ) : ℤ) - fmtBias t - fracBits t = ((b / 2 ^ fracBits t - 1 : ℕ) : ℤ) + leastExp t := by
      rw [leastExp, fmtEmin]
      omega
    rw [hscale, zpow_add₀ two_ne_zero, zpow_natCast, ← mul_assoc]
    norm_cast

end

end Sys2Proof.Rounding
end

section
/-! RoundTo under RNE (R104): where its result is finite, it is the exact value in units of its last place, rounded to the nearest integer. -/

open Sys2Proof.Machine

namespace Sys2Proof.Rounding

/-- The exponent of the last place of a result for n ÷ d × 2^f. -/
def unitExp (t : BitVec 4) (n d : ℕ) (f : ℤ) : ℤ :=
  (if floorLog2 n d + f < fmtEmin t then fmtEmin t else floorLog2 n d + f) - fracBits t

/-- The significand that RNE gives for n ÷ d × 2^f. -/
def significand (t : BitVec 4) (s : Bool) (n d : ℕ) (f : ℤ) : ℕ :=
  roundInt 1 s (scaleRat n d (f - unitExp t n d f)).1 (scaleRat n d (f - unitExp t n d f)).2

theorem roundTo_fst {t : BitVec 4} {s : Bool} {num den n d : ℕ} {e f : ℤ} (hnum : 0 < num)
    (hc : clampExp t num den e = (n, d, f)) :
    (roundTo t 1 s num den e).1 =
      if largestSig t * (scaleRat (significand t s n d f) 1 (unitExp t n d f - (fmtEmax t - fracBits t))).2 <
        (scaleRat (significand t s n d f) 1 (unitExp t n d f - (fmtEmax t - fracBits t))).1 then overflowResult t 1 s
      else withSign t s ((unitExp t n d f - leastExp t).toNat * 2 ^ fracBits t + significand t s n d f) := by
  rw [roundTo, if_neg hnum.ne', hc]
  exact apply_ite Prod.fst _ _ _

theorem roundsEven_significand (t : BitVec 4) (s : Bool) (n : ℕ) {d : ℕ} (hd : 0 < d) (f : ℤ) :
    RoundsEven (significand t s n d f) ((n : ℚ) / d * 2 ^ (f - unitExp t n d f)) := by
  rw [← scaleRat_value]
  exact roundsEven_roundInt s _ (scaleRat_den_pos n hd _)

theorem leastExp_le_unitExp (t : BitVec 4) (n d : ℕ) (f : ℤ) : leastExp t ≤ unitExp t n d f := by
  rw [leastExp, unitExp]
  split <;> omega

/-- The exact value in units of the last place lies below 2^(p + 1), and from 2^p on where the exponent is above the least. -/
theorem scaled_bounds (t : BitVec 4) {n d : ℕ} (hn : 0 < n) (hd : 0 < d) (f : ℤ) :
    (n : ℚ) / d * 2 ^ (f - unitExp t n d f) < (2 ^ (fracBits t + 1) : ℕ) ∧
    (unitExp t n d f = leastExp t ∨ ((2 ^ fracBits t : ℕ) : ℚ) ≤ n / d * 2 ^ (f - unitExp t n d f)) := by
  obtain ⟨hlow, hhigh⟩ := floorLog2_bounds hn hd
  push_cast
  simp only [← zpow_natCast]
  constructor
  · calc (n : ℚ) / d * 2 ^ (f - unitExp t n d f) < 2 ^ (floorLog2 n d + 1) * 2 ^ (f - unitExp t n d f) := by gcongr
      _ = 2 ^ (floorLog2 n d + 1 + (f - unitExp t n d f)) := (zpow_add₀ two_ne_zero _ _).symm
      _ ≤ 2 ^ ((fracBits t + 1 : ℕ) : ℤ) := by
        refine zpow_le_zpow_right₀ one_le_two ?_
        rw [unitExp]
        split <;> omega
  · by_cases hl : floorLog2 n d + f < fmtEmin t
    · exact .inl (by rw [unitExp, if_pos hl, leastExp])
    · right
      calc (2 : ℚ) ^ (fracBits t : ℤ) = 2 ^ (floorLog2 n d + (f - unitExp t n d f)) := by
            rw [unitExp, if_neg hl]
            congr 1
            omega
        _ = 2 ^ floorLog2 n d * 2 ^ (f - unitExp t n d f) := zpow_add₀ two_ne_zero _ _
        _ ≤ n / d * 2 ^ (f - unitExp t n d f) := by gcongr

/-- x encodes a result of sign s for the magnitude a: r units of the last place, whose exponent is k above the least. -/
structure RoundedAt (t : BitVec 4) (s : Bool) (a : ℚ) (x k r : ℕ) : Prop where
  encoded : x = withSign t s (k * 2 ^ fracBits t + r)
  bits_lt : k * 2 ^ fracBits t + r < signBit t
  even : RoundsEven r (a / 2 ^ (k + leastExp t))
  le_significand : r ≤ 2 ^ (fracBits t + 1)
  normal : k = 0 ∨ ((2 ^ fracBits t : ℕ) : ℚ) ≤ a / 2 ^ (k + leastExp t)

section
variable {t : BitVec 4} (ht : FloatFormat t)
include ht

/-- A significand that does not lie above the largest number has an exponent of the format, and its bits leave the sign bit free. -/
theorem bits_lt_of_le_largest {k r : ℕ} (hr : r ≤ 2 ^ (fracBits t + 1)) (hk : k = 0 ∨ 2 ^ fracBits t ≤ r)
    (hle : (r : ℚ) * 2 ^ ((k : ℤ) - (fmtEmax t - fmtEmin t)) ≤ largestSig t) :
    k ≤ (fmtEmax t - fmtEmin t).toNat ∧ k * 2 ^ fracBits t + r < signBit t := by
  have hlargest := ht.largest_lt
  have hsig := ht.largestSig_lt
  have hge := ht.le_largestSig
  have hK := ht.emin_le_emax
  rw [← Int.toNat_of_nonneg (sub_nonneg.mpr hK)] at hle
  rw [signBit_eq ht]
  rw [pow_succ] at hr hsig
  generalize (fmtEmax t - fmtEmin t).toNat = K at *
  obtain hlt | rfl | hgt := lt_trichotomy k K
  · refine ⟨hlt.le, lt_of_le_of_lt ?_ hlargest⟩
    have := Nat.mul_le_mul_right (2 ^ fracBits t) (Nat.succ_le_of_lt hlt)
    rw [Nat.succ_mul] at this
    omega
  · have hle' : r ≤ largestSig t := by simpa using hle
    exact ⟨le_rfl, by omega⟩
  · have hr2 : 2 ^ fracBits t ≤ r := hk.resolve_left (by omega)
    have htwo : (2 : ℚ) ≤ 2 ^ ((k : ℤ) - K) := by
      simpa using zpow_le_zpow_right₀ (one_le_two (α := ℚ)) (show (1 : ℤ) ≤ k - K by omega)
    have : ((r * 2 : ℕ) : ℚ) ≤ largestSig t := by
      push_cast
      exact (mul_le_mul_of_nonneg_left htwo (by positivity)).trans hle
    have := Nat.cast_le.mp this
    omega

/-- R104: a finite result is not above the largest number. -/
theorem roundTo_of_finite {s : Bool} {num den n d : ℕ} {e f : ℤ} {u : ℚ} (hnum : 0 < num)
    (hc : clampExp t num den e = (n, d, f)) (hu : ratOf t (roundTo t 1 s num den e).1 = some u) :
    (roundTo t 1 s num den e).1 =
      withSign t s ((unitExp t n d f - leastExp t).toNat * 2 ^ fracBits t + significand t s n d f) ∧
    (significand t s n d f : ℚ) * 2 ^ (unitExp t n d f - (fmtEmax t - fracBits t)) ≤ largestSig t := by
  rw [roundTo_fst hnum hc] at hu ⊢
  split at hu
  case isTrue =>
    rw [ht.overflow s] at hu
    cases hu
  case isFalse hle =>
    rw [if_neg hle]
    refine ⟨rfl, ?_⟩
    have hscaled := scaleRat_value (significand t s n d f) 1 (unitExp t n d f - (fmtEmax t - fracBits t))
    rw [Nat.cast_one, div_one] at hscaled
    rw [← hscaled, div_le_iff₀ (by exact_mod_cast scaleRat_den_pos _ one_pos _)]
    exact_mod_cast not_lt.mp hle

/-- The result for the number that RoundTo does round, whose exponent is one of the format. -/
theorem roundedAt_of_clamped {s : Bool} {num den n d : ℕ} {e f : ℤ} {u : ℚ} (hnum : 0 < num) (hn : 0 < n) (hd : 0 < d)
    (hc : clampExp t num den e = (n, d, f)) (hu : ratOf t (roundTo t 1 s num den e).1 = some u) :
    unitExp t n d f - leastExp t ≤ fmtEmax t - fmtEmin t ∧
    ∃ k r, RoundedAt t s (n / d * 2 ^ f) (roundTo t 1 s num den e).1 k r := by
  obtain ⟨heq, hle⟩ := roundTo_of_finite ht hnum hc hu
  have hk : ((unitExp t n d f - leastExp t).toNat : ℤ) + leastExp t = unitExp t n d f := by
    have := leastExp_le_unitExp t n d f
    omega
  have heven := roundsEven_significand t s n hd f
  obtain ⟨hlt, hnormal⟩ := scaled_bounds t hn hd f
  generalize (unitExp t n d f - leastExp t).toNat = k at *
  rw [← hk] at heven hlt hnormal hle ⊢
  rw [zpow_sub₀ two_ne_zero, ← mul_div_assoc] at heven hlt hnormal
  have hnormal' : k = 0 ∨ ((2 ^ fracBits t : ℕ) : ℚ) ≤ n / d * 2 ^ f / 2 ^ (k + leastExp t) := hnormal.imp_left (by omega)
  have hexp : (k : ℤ) + leastExp t - (fmtEmax t - fracBits t) = k - (fmtEmax t - fmtEmin t) := by
    rw [leastExp]
    omega
  rw [hexp] at hle
  obtain ⟨hK, hbits⟩ := bits_lt_of_le_largest ht (heven.le_of_lt hlt) (hnormal'.imp_right heven.le_of_le) hle
  refine ⟨?_, k, _, heq, hbits, heven, heven.le_of_lt hlt, hnormal'⟩
  have := ht.emin_le_emax
  omega

/-- A magnitude below an eighth of the least subnormal gives zero, as the number that stands for it does. -/
theorem roundedAt_zero {s : Bool} {num den : ℕ} {e : ℤ} {u : ℚ} (hnum : 0 < num) (hden : 0 < den)
    (hl : floorLog2 num den + e < fmtEmin t - fracBits t - 4)
    (hc : clampExp t num den e = (1, 1, fmtEmin t - fracBits t - 4))
    (hu : ratOf t (roundTo t 1 s num den e).1 = some u) :
    RoundedAt t s (num / den * 2 ^ e) (roundTo t 1 s num den e).1 0 0 := by
  have hunit : unitExp t 1 1 (fmtEmin t - fracBits t - 4) = leastExp t := by
    rw [unitExp, leastExp, if_pos (by rw [show floorLog2 1 1 = 0 from rfl]; omega)]
  have hsig : significand t s 1 1 (fmtEmin t - fracBits t - 4) = 0 := by
    rw [significand, hunit, leastExp, sub_sub_cancel_left]
    rfl
  have heq := (roundTo_of_finite ht hnum hc hu).1
  rw [hunit, hsig, sub_self] at heq
  refine ⟨heq, ?_, ?_, Nat.zero_le _, .inl rfl⟩
  · rw [zero_mul, signBit_eq ht]
    positivity
  · have hsmall : (num : ℚ) / den * 2 ^ e / 2 ^ ((0 : ℕ) + leastExp t) < 1 / 2 := by
      rw [div_lt_iff₀ (by positivity)]
      calc (num : ℚ) / den * 2 ^ e < 2 ^ (floorLog2 num den + 1) * 2 ^ e := by
            gcongr
            exact (floorLog2_bounds hnum hden).2
        _ = 2 ^ (floorLog2 num den + 1 + e) := (zpow_add₀ two_ne_zero _ _).symm
        _ ≤ 2 ^ (-1 + ((0 : ℕ) + leastExp t)) := by
            refine zpow_le_zpow_right₀ one_le_two ?_
            rw [leastExp]
            omega
        _ = 1 / 2 * 2 ^ ((0 : ℕ) + leastExp t) := by rw [zpow_add₀ two_ne_zero, zpow_neg_one, one_div]
    simpa using roundsEven_floor (q := 0) (f := num / den * 2 ^ e / 2 ^ ((0 : ℕ) + leastExp t)) (by positivity) (.inl hsmall)

/-- R104: a finite result of RoundTo under RNE is the exact value, rounded in its last place. -/
theorem roundedAt_roundTo {s : Bool} {num den : ℕ} {e : ℤ} {u : ℚ} (hnum : 0 < num) (hden : 0 < den)
    (hu : ratOf t (roundTo t 1 s num den e).1 = some u) :
    ∃ k r, RoundedAt t s (num / den * 2 ^ e) (roundTo t 1 s num den e).1 k r := by
  by_cases hlow : floorLog2 num den + e < fmtEmin t - fracBits t - 4
  · exact ⟨0, 0, roundedAt_zero ht hnum hden hlow (by rw [clampExp, if_pos hlow]) hu⟩
  by_cases hhigh : fmtEmax t + 2 < floorLog2 num den + e
  · have hc : clampExp t num den e = (1, 1, fmtEmax t + 2) := by rw [clampExp, if_neg hlow, if_pos hhigh]
    have hK := (roundedAt_of_clamped ht hnum one_pos one_pos hc hu).1
    have := ht.emin_le_emax
    rw [unitExp, leastExp, show floorLog2 1 1 = 0 from rfl] at hK
    split at hK <;> omega
  · have hc : clampExp t num den e = (num, den, e) := by rw [clampExp, if_neg hlow, if_neg hhigh]
    exact (roundedAt_of_clamped ht hnum hnum hden hc hu).2

/-- Every number of the format is an integer in units of the last place, or lies below the first number of that last place. -/
theorem ratOf_in_units (s : Bool) (k : ℕ) {x : ℕ} {w : ℚ} (hx : x < 2 ^ fmtWidth t) (hw : ratOf t x = some w) :
    ∃ z : ℚ, w = (if s then -1 else 1) * (z * 2 ^ (k + leastExp t)) ∧
      ((∃ i : ℤ, z = i) ∨ (k ≠ 0 ∧ |z| < (2 ^ fracBits t : ℕ))) := by
  obtain ⟨s', b, hb, rfl⟩ := exists_withSign_of_lt ht hx
  obtain ⟨σ, hσ, hw'⟩ : ∃ σ : ℤ, |σ| = 1 ∧ w = (if s then -1 else 1) * (σ * magnitude t b * 2 ^ leastExp t) := by
    rw [ratOf_withSign ht hb hw]
    refine ⟨if s = s' then 1 else -1, by split_ifs <;> rfl, ?_⟩
    cases s <;> cases s' <;> simp
  refine ⟨σ * (magnitude t b / 2 ^ k), ?_, ?_⟩
  · rw [hw', zpow_add₀ two_ne_zero, zpow_natCast]
    field_simp
  obtain ⟨c, hc⟩ | ⟨hk, hlt⟩ := magnitude_multiple_or_lt t b k
  · refine .inl ⟨σ * c, ?_⟩
    rw [hc]
    push_cast
    field_simp
  · refine .inr ⟨hk, ?_⟩
    rw [abs_mul, ← Int.cast_abs, hσ, Int.cast_one, one_mul, abs_of_nonneg (by positivity), div_lt_iff₀ (by positivity)]
    exact_mod_cast hlt

/-- The number that a rounded result denotes. -/
theorem RoundedAt.value {s : Bool} {a u : ℚ} {x k r : ℕ} (h : RoundedAt t s a x k r) (hu : ratOf t x = some u) :
    u = (if s then -1 else 1) * (r * 2 ^ (k + leastExp t)) := by
  have hk : k = 0 ∨ 2 ^ fracBits t ≤ r := h.normal.imp_right h.even.le_of_le
  rw [h.encoded] at hu
  rw [ratOf_withSign ht h.bits_lt hu, magnitude_of_significand h.le_significand hk, zpow_add₀ two_ne_zero, zpow_natCast]
  push_cast
  ring

/-- p is at least 1, so the last bit is that of the significand. -/
theorem RoundedAt.mod_two {s : Bool} {a : ℚ} {x k r : ℕ} (h : RoundedAt t s a x k r) : x % 2 = r % 2 := by
  obtain ⟨j, hj⟩ : 2 ∣ k * 2 ^ fracBits t := (dvd_pow_self 2 ht.fracBits_pos.ne').mul_left k
  rw [h.encoded, withSign_mod_two ht, hj]
  omega

theorem RoundedAt.nearest {s : Bool} {a u w : ℚ} {x k r y : ℕ} (h : RoundedAt t s a x k r) (hu : ratOf t x = some u)
    (hy : y < 2 ^ fmtWidth t) (hw : ratOf t y = some w) :
    |u - (if s then -1 else 1) * a| ≤ |w - (if s then -1 else 1) * a| ∧
    (|u - (if s then -1 else 1) * a| = |w - (if s then -1 else 1) * a| → u ≠ w → x % 2 = 0) := by
  obtain ⟨z, hwz, hz⟩ := ratOf_in_units ht s k hy hw
  have hur := h.value ht hu
  rw [h.mod_two ht]
  obtain ⟨-, -, heven, -, hnormal⟩ := h
  have hc : (0 : ℚ) < 2 ^ (k + leastExp t) := by positivity
  have hdist (b : ℚ) : |(if s then -1 else 1) * (b * 2 ^ (k + leastExp t)) - (if s then -1 else 1) * a| =
      |b - a / 2 ^ (k + leastExp t)| * 2 ^ (k + leastExp t) := by
    rw [← mul_sub, abs_mul, show |(if s then -1 else 1 : ℚ)| = 1 by split_ifs <;> simp, one_mul]
    nth_rw 1 [← div_mul_cancel₀ a hc.ne']
    rw [← sub_mul, abs_mul, abs_of_pos hc]
  rw [hur, hwz, hdist, hdist, mul_le_mul_iff_left₀ hc, mul_left_inj' hc.ne']
  obtain ⟨i, rfl⟩ | ⟨hk, hlt⟩ := hz
  · obtain ⟨hle, htie⟩ := heven.nearest_int i
    exact ⟨hle, fun heq hne => htie heq fun hri => hne (by rw [hri])⟩
  · have hfar := heven.lt_of_abs_lt (hnormal.resolve_left hk) hlt
    exact ⟨hfar.le, fun heq => absurd heq hfar.ne⟩

end

/-- Settles O22: a finite result is the exact value rounded in units of its last place, and every number of the format is an integer in these
units or too small to lie nearer. -/
theorem roundsToNearest : Obligations.RoundsToNearest := by
  intro t s num den e u ht hnum hden v hu y w hy hw
  obtain ⟨k, r, h⟩ := roundedAt_roundTo (floatFormat_of_mem ht) hnum hden hu
  have hv : v = (if s then -1 else 1) * ((num : ℚ) / den * 2 ^ e) := mul_assoc _ _ _
  rw [hv]
  exact h.nearest (floatFormat_of_mem ht) hu hy hw

end Sys2Proof.Rounding
end

section
/-! The firing of sequencer words (R29-R32): what a normal firing records in its block. -/

open Sys2Proof.Machine

namespace Sys2Proof.Firing

/-! ### Tokens (R30, R32) -/

theorem at_put_of_ne (st : SlotSt) (tok : Tok) {j k : TKind} (hne : j ≠ k) : (st.put tok j).at k = st.at k := by
  cases j <;> cases k <;> simp_all [SlotSt.put, SlotSt.at]

/-- A token arrives where its target holds nothing. -/
theorem deliver_of_open {b : Block} {tok : Tok} {target : Option Target}
    (hopen : ∀ g, target = some g → ∀ st, b.slots[g.slot.toNat]? = some st → st.at g.kind = none) :
    b.deliver tok target = some { b with slots := putToken tok b.slots target } := by
  cases target with
  | none => rfl
  | some g =>
    simp only [Block.deliver, putToken, List.modify_eq_set_getElem?]
    cases hst : b.slots[g.slot.toNat]? with
    | none => rfl
    | some st => simp [hopen g rfl st hst]

/-- R32: the second of two open targets stays open when the first has received its token. -/
theorem open_putToken {b : Block} {h : Head} (ho : b.targetsOpen h) (tok : Tok) {g : Target} (hg : h.t1 = some g)
    {st : SlotSt} (hst : (putToken tok b.slots h.t0)[g.slot.toNat]? = some st) : st.at g.kind = none := by
  obtain ⟨hdistinct, hopen⟩ := ho
  cases h0 : h.t0 with
  | none =>
    rw [h0] at hst
    exact hopen g (.inr hg) st hst
  | some g0 =>
    rw [h0, putToken, List.getElem?_modify, Option.map_eq_map, Option.map_eq_some_iff] at hst
    obtain ⟨st0, hst0, rfl⟩ := hst
    have hempty := hopen g (.inr hg) st0 hst0
    split
    case isFalse => exact hempty
    case isTrue hslot =>
      have hkind : g0.kind ≠ g.kind := by
        intro hkind
        have hsame : g0 = g := by
          cases g0
          cases g
          simp_all [BitVec.toNat_inj]
        have := hdistinct (by rw [h0, hg, hsame])
        simp [h0] at this
      rw [at_put_of_ne _ _ hkind]
      exact hempty

theorem send_of_targetsOpen {b : Block} {h : Head} (ho : b.targetsOpen h) (tok : Tok) :
    b.send h tok = some (b.withTokens h tok) := by
  have hfirst : b.deliver tok h.t0 = some { b with slots := putToken tok b.slots h.t0 } :=
    deliver_of_open fun g hg => ho.2 g (.inl hg)
  rw [Block.send, hfirst]
  exact deliver_of_open fun g hg st hst => open_putToken ho tok hg hst

/-- Marking a word as fired fills no operand slot. -/
theorem targetsOpen_marked {b : Block} {h : Head} (ho : b.targetsOpen h) (k : Nat) : (b.marked k).targetsOpen h := by
  refine ⟨ho.1, fun g hg st hst => ?_⟩
  rw [Block.marked, List.getElem?_modify, Option.map_eq_map, Option.map_eq_some_iff] at hst
  obtain ⟨st0, hst0, rfl⟩ := hst
  have hempty := ho.2 g hg st0 hst0
  split
  · cases hk : g.kind <;> rw [hk] at hempty <;> exact hempty
  · exact hempty

/-! ### Registers and LSIDs (R32) -/

theorem receive_of_free {b : Block} {g : BitVec 5} {v : Option W64} (hfree : ∀ p ∈ b.writes, p.1 ≠ g) :
    b.receive g v = some { b with writes := b.writes ++ [(g, v)] } := by
  have hany : (b.writes.any fun p => p.1 == g) = false := List.any_eq_false.mpr (by simpa only [beq_iff_eq] using hfree)
  rw [Block.receive, hany]
  rfl

theorem settle_of_free {b : Block} {k : BitVec 5} (void : Bool) (hfree : ∀ p ∈ b.settled, p.1 ≠ k) :
    b.settle void k = some { b with settled := b.settled ++ [(k, void)] } := by
  have hany : (b.settled.any fun p => p.1 == k) = false := List.any_eq_false.mpr (by simpa only [beq_iff_eq] using hfree)
  rw [Block.settle, hany]
  rfl

/-! ### The record of a firing with no effect under an LSID -/

/-- The block after the marks of a normal firing, before what it settles and sends. -/
def acted (b : Block) (k : Nat) (a : Act) : Block :=
  { b.marked k with
    branch := if a.branch.isSome then a.branch else b.branch
    trap := if a.trap.isSome then a.trap else b.trap
    fence := wider b.fence a.fence
    sbar := b.sbar ||| a.sbar
    clearFlags := b.clearFlags ||| a.clear }

/-- A firing of a word with no LSID and no result register, which R32 allows. -/
structure Bare (f : Fire) (a : Act) : Prop where
  ls : f.m.ls = none
  g : f.m.g = none
  eff : a.eff = none
  one : f.b.oneOnly a = true

/-- The Fire of a word that may fire. -/
abbrev fireOf (s : State) (x : Inst) (t : Tile) (b : Block) (h : Head) (m : SeqMeta) (a c : W64) : Fire :=
  ⟨s, x, t, b, s.focus.slot, h, m, a, c⟩

section
variable {f : Fire} {a : Act} (hf : Bare f a)
include hf

theorem record_of_silent (hw : a.write = none) (hn : a.null = none) (hs : a.send = none) :
    f.record a = some (acted f.b f.slot a) := by
  obtain ⟨hls, hg, heff, hone⟩ := hf
  simp [Fire.record, Block.settle?, hls, hg, heff, hone, hw, hn, hs, acted, Block.marked]

theorem record_of_send {v : W64} (hw : a.write = none) (hn : a.null = none) (hs : a.send = some v)
    (ho : f.b.targetsOpen f.h) : f.record a = some ((acted f.b f.slot a).withTokens f.h (.value v)) := by
  obtain ⟨hls, hg, heff, hone⟩ := hf
  rw [← send_of_targetsOpen (b := acted f.b f.slot a) (targetsOpen_marked ho f.slot)]
  simp [Fire.record, Block.settle?, hls, hg, heff, hone, hw, hn, hs, acted, Block.marked]

theorem record_of_write {g : BitVec 5} {v : W64} (hw : a.write = some (g, v)) (hn : a.null = none) (hs : a.send = none)
    (hfree : ∀ p ∈ f.b.writes, p.1 ≠ g) :
    f.record a = some { acted f.b f.slot a with writes := f.b.writes ++ [(g, some v)] } := by
  obtain ⟨hls, -, heff, hone⟩ := hf
  have hreceive : (acted f.b f.slot a).receive g (some v) = some { acted f.b f.slot a with writes := f.b.writes ++ [(g, some v)] } :=
    receive_of_free hfree
  rw [← hreceive]
  simp [Fire.record, Block.settle?, hls, heff, hone, hw, hn, hs, acted, Block.marked]

end

/-- R31: LSIDs that are distinct and not settled yet are settled void in their order. -/
theorem foldl_settle_of_unsettled (ls : List (BitVec 5)) (b : Block) (hd : ls.Nodup) (hfree : ∀ k ∈ ls, ∀ p ∈ b.settled, p.1 ≠ k) :
    ls.foldl (fun b k => match b with | none => none | some b => b.settle true k) (some b) =
      some { b with settled := b.settled ++ ls.map fun k => (k, true) } := by
  induction ls generalizing b with
  | nil => simp
  | cons k ls ih =>
    obtain ⟨hk, hd⟩ := List.nodup_cons.mp hd
    have hsettle : b.settle true k = some { b with settled := b.settled ++ [(k, true)] } :=
      settle_of_free true (hfree k List.mem_cons_self)
    rw [List.foldl_cons]
    simp only [hsettle]
    rw [ih _ hd]
    · simp
    · intro j hj p hp
      rw [List.mem_append, List.mem_singleton] at hp
      obtain hp | rfl := hp
      · exact hfree j (List.mem_cons_of_mem k hj) p hp
      · rintro rfl
        exact hk hj

theorem maskLsids_eq (mask : BitVec 32) :
    maskLsids mask = ((List.range 32).filter fun k => mask.getLsbD k).map (BitVec.ofNat 5) := by
  rw [maskLsids, ← List.filterMap_eq_map, List.filterMap_filter]
  rfl

theorem nodup_maskLsids (mask : BitVec 32) : (maskLsids mask).Nodup := by
  rw [maskLsids_eq]
  refine (List.nodup_range.filter _).map_on ?_
  intro j hj k hk hjk
  have hj' := List.mem_range.mp (List.mem_filter.mp hj).1
  have hk' := List.mem_range.mp (List.mem_filter.mp hk).1
  have := congrArg BitVec.toNat hjk
  simp only [BitVec.toNat_ofNat] at this
  omega

theorem getLsbD_of_mem_maskLsids {mask : BitVec 32} {k : BitVec 5} (hk : k ∈ maskLsids mask) : mask.getLsbD k.toNat = true := by
  rw [maskLsids_eq, List.mem_map] at hk
  obtain ⟨j, hj, rfl⟩ := hk
  obtain ⟨hj, hbit⟩ := List.mem_filter.mp hj
  rwa [BitVec.toNat_ofNat, Nat.mod_eq_of_lt (List.mem_range.mp hj)]

theorem settleMask_of_unsettled {b : Block} {mask : BitVec 32} (hfree : ∀ p ∈ b.settled, mask.getLsbD p.1.toNat = false) :
    b.settleMask mask = some { b with settled := b.settled ++ (maskLsids mask).map fun k => (k, true) } := by
  refine foldl_settle_of_unsettled _ b (nodup_maskLsids mask) fun k hk p hp => ?_
  rintro rfl
  simpa [getLsbD_of_mem_maskLsids hk] using hfree p hp

/-- R31: the LSIDs of the mask of a NULL are settled void, and a null goes to its targets. -/
theorem record_of_null {f : Fire} {a : Act} (hf : Bare f a) {mask : BitVec 32} (hw : a.write = none) (hn : a.null = some mask)
    (ho : f.b.targetsOpen f.h) (hfree : ∀ p ∈ f.b.settled, mask.getLsbD p.1.toNat = false) :
    f.record a = some (({ acted f.b f.slot a with
      settled := f.b.settled ++ (maskLsids mask).map fun k => (k, true) } : Block).withTokens f.h .null) := by
  obtain ⟨hls, hg, heff, hone⟩ := hf
  have hmask : (acted f.b f.slot a).settleMask mask =
      some { acted f.b f.slot a with settled := f.b.settled ++ (maskLsids mask).map fun k => (k, true) } :=
    settleMask_of_unsettled hfree
  have hsend := send_of_targetsOpen (b := { acted f.b f.slot a with settled := f.b.settled ++ (maskLsids mask).map fun k => (k, true) })
    (targetsOpen_marked ho f.slot) .null
  rw [← hsend]
  simp only [acted, Block.marked] at hmask
  simp [Fire.record, Block.settle?, hls, hg, heff, hone, hw, hn, acted, Block.marked, hmask]

theorem done_of_record {f : Fire} {a : Act} {b : Block} (hr : f.record a = some b) : f.done a = .next (f.s.setBlock b) := by
  rw [Fire.done, hr]
  rfl

end Sys2Proof.Firing
end

section
/-! Branches, and the words that mark their block. -/

open Sys2Proof.Machine

namespace Sys2Proof.Firing

/-- The place that a B-format word names (R115). -/
theorem placeOf_eq (header : W64) (off : BitVec 33) : placeOf header off = BitVec.ofInt 64 (header.toNat + 16 * off.toInt) := by
  have hshift : off.signExtend 64 <<< 4 = BitVec.ofInt 64 (16 * off.toInt) := by
    rw [BitVec.shiftLeft_eq_mul_twoPow, mul_comm, BitVec.ofInt_mul]
    rfl
  rw [placeOf, hshift, BitVec.ofInt_add, BitVec.ofInt_natCast, BitVec.ofNat_toNat, BitVec.setWidth_eq]

theorem returnAddress_eq (b : Block) : b.returnAddress = BitVec.ofNat 64 (b.header.toNat + 16 + 8 * b.words.length) := by
  rw [Block.returnAddress, Block.size, w64]
  apply BitVec.eq_of_toNat_eq
  simp
  omega

/-- What a firing does to its block where it branches. -/
def branchAct (r : Branch × Option W64) : Act := { branch := some r.1, send := r.2 }

/-- A word runs its meaning on its Fire. -/
theorem exec_of_fireWord {i : Instr} {s : State} {x : Inst} {t : Tile} {b : Block} {h : Head} {a c : W64}
    {wr : Option (BitVec 5)} {k : Fire → Res} {o : Res} (hm : MayFire i s x t b h a c) (he : exec i s = fireWord i s wr k)
    (hk : ∀ m, i.shape = .seq h m → k (fireOf s x t b h m a c) = o) : exec i s = o := by
  obtain ⟨m, hs, hfire⟩ := fireWord_of i s x t b h a c wr k hm
  rw [he, hfire, hk m hs]

theorem oneOnly_branchAct {b : Block} {r : Branch × Option W64} (hb : b.branch = none)
    (hhalt : r.1 = .halt → b.trap = none ∧ b.hasBar = false) : b.oneOnly (branchAct r) = true := by
  by_cases hr : r.1 = .halt
  · simp [Block.oneOnly, branchAct, isWaita, isBar, hb, hhalt hr]
  · simp [Block.oneOnly, branchAct, isWaita, isBar, hb, hr]

theorem exec_of_branchOf {i : Instr} {s : State} {x : Inst} {t : Tile} {b : Block} {h : Head} {a c : W64}
    {r : Branch × Option W64} (hr : branchOf i t b a = some r) (hm : MayFire i s x t b h a c) :
    ∃ m, m.ls = none ∧ m.g = none ∧ exec i s = (fireOf s x t b h m a c).done (branchAct r) := by
  obtain ⟨-, m, -, hs, -⟩ := id hm
  refine ⟨m, ?_⟩
  unfold branchOf at hr
  simp only [← placeOf_eq, ← returnAddress_eq] at hr
  split at hr
  case h_7 =>
    split at hr
    case isFalse => cases hr
    case isTrue hmode =>
      cases hr
      cases hs
      exact ⟨rfl, rfl, exec_of_fireWord hm (by unfold exec; rfl) fun m hs => by cases hs; exact if_pos hmode⟩
  case h_8 => cases hr
  all_goals
    cases hr
    cases hs
    exact ⟨rfl, rfl, exec_of_fireWord hm (by unfold exec; rfl) fun m hs => by cases hs; rfl⟩

theorem acted_branchAct {b : Block} {k : Nat} {r : Branch × Option W64} :
    acted b k (branchAct r) = { b.marked k with branch := some r.1 } := by
  cases hfence : b.fence <;> simp [acted, branchAct, Block.marked, wider, hfence]

/-- A branch names where the sequencer goes, and sends the return address where it is a call. -/
theorem exec_branch {i : Instr} {s : State} {x : Inst} {t : Tile} {b : Block} {h : Head} {a c : W64} {r : Branch × Option W64}
    (hr : branchOf i t b a = some r) (hm : MayFire i s x t b h a c) (ho : b.targetsOpen h) (hb : b.branch = none)
    (hhalt : r.1 = .halt → b.trap = none ∧ b.hasBar = false) :
    exec i s = .next (s.setBlock (b.branching s.focus.slot h r)) := by
  obtain ⟨m, hls, hg, he⟩ := exec_of_branchOf hr hm
  have hbare : Bare (fireOf s x t b h m a c) (branchAct r) := ⟨hls, hg, rfl, oneOnly_branchAct hb hhalt⟩
  rw [he]
  refine done_of_record (b := b.branching s.focus.slot h r) ?_
  obtain ⟨place, link⟩ := r
  cases link with
  | none => rw [record_of_silent hbare rfl rfl rfl, acted_branchAct]; rfl
  | some v => rw [record_of_send hbare rfl rfl rfl ho, acted_branchAct]; rfl

/-! ### Words that mark their block -/

section
variable {s : State} {x : Inst} {t : Tile} {b : Block} {h : Head} {a c : W64}

@[simp] theorem wider_none (sc : Option Scope) : wider sc none = sc := by cases sc <;> rfl

theorem oneOnly_of_unmarked {act : Act} (heff : act.eff = none) (hbranch : act.branch = none) (htrap : act.trap = none) :
    b.oneOnly act = true := by
  simp [Block.oneOnly, isWaita, isBar, heff, hbranch, htrap]

theorem exec_write {g : BitVec 5} (hm : MayFire (.write h g) s x t b h a c) (hfree : ∀ p ∈ b.writes, p.1 ≠ g) :
    exec (.write h g) s = .next (s.setBlock { b.marked s.focus.slot with writes := b.writes ++ [(g, some a)] }) := by
  refine exec_of_fireWord hm (by unfold exec; rfl) fun m hs => ?_
  cases hs
  refine done_of_record ((record_of_write ⟨rfl, rfl, rfl, oneOnly_of_unmarked rfl rfl rfl⟩ rfl rfl rfl hfree).trans ?_)
  simp [acted, Block.marked]

theorem exec_null {mask : BitVec 32} (hm : MayFire (.null h mask) s x t b h a c) (ho : b.targetsOpen h)
    (hfree : ∀ p ∈ b.settled, mask.getLsbD p.1.toNat = false) :
    exec (.null h mask) s = .next (s.setBlock ({ b.marked s.focus.slot with
      settled := b.settled ++ (maskLsids mask).map fun k => (k, true) }.withTokens h .null)) := by
  refine exec_of_fireWord hm (by unfold exec; rfl) fun m hs => ?_
  cases hs
  refine done_of_record ((record_of_null ⟨rfl, rfl, rfl, oneOnly_of_unmarked rfl rfl rfl⟩ rfl rfl ho hfree).trans ?_)
  simp [acted, Block.marked]

theorem exec_trap {code : BitVec 16} (hm : MayFire (.trap h code) s x t b h a c) (htrap : b.trap = none)
    (hhalt : b.branch ≠ some .halt) (hwaita : b.hasWaita = false) (hbar : b.hasBar = false) :
    exec (.trap h code) s = .next (s.setBlock { b.marked s.focus.slot with trap := some code }) := by
  refine exec_of_fireWord hm (by unfold exec; rfl) fun m hs => ?_
  cases hs
  refine done_of_record ((record_of_silent ⟨rfl, rfl, rfl, ?_⟩ rfl rfl rfl).trans ?_)
  · simp [Block.oneOnly, isWaita, isBar, htrap, hhalt, hwaita, hbar]
  · simp [acted, Block.marked]

theorem exec_fence {sc : Scope} (hm : MayFire (.fence h sc) s x t b h a c) :
    exec (.fence h sc) s = .next (s.setBlock { b.marked s.focus.slot with fence := wider b.fence (some sc) }) := by
  refine exec_of_fireWord hm (by unfold exec; rfl) fun m hs => ?_
  cases hs
  refine done_of_record ((record_of_silent ⟨rfl, rfl, rfl, oneOnly_of_unmarked rfl rfl rfl⟩ rfl rfl rfl).trans ?_)
  simp [acted, Block.marked]

/-- R160: of two scopes the wider stays. -/
theorem wider_some (old : Option Scope) (sc : Scope) :
    ∃ sc', wider old (some sc) = some sc' ∧ sc.code.toNat ≤ sc'.code.toNat ∧ (sc' = sc ∨ old = some sc') := by
  cases old with
  | none => exact ⟨sc, rfl, le_rfl, .inl rfl⟩
  | some sc0 =>
    by_cases hlt : sc0.code.toNat < sc.code.toNat
    · exact ⟨sc, if_pos hlt, le_rfl, .inl rfl⟩
    · exact ⟨sc0, if_neg hlt, not_lt.mp hlt, .inr rfl⟩

theorem exec_sbar {mask : BitVec 16} (hm : MayFire (.sbar h mask) s x t b h a c) :
    exec (.sbar h mask) s = .next (s.setBlock { b.marked s.focus.slot with sbar := b.sbar ||| mask }) := by
  refine exec_of_fireWord hm (by unfold exec; rfl) fun m hs => ?_
  cases hs
  refine done_of_record ((record_of_silent ⟨rfl, rfl, rfl, oneOnly_of_unmarked rfl rfl rfl⟩ rfl rfl rfl).trans ?_)
  simp [acted, Block.marked]

theorem exec_ctxqClearFlags (hm : MayFire (.ctxqClearFlags h) s x t b h a c) (ho : b.targetsOpen h) :
    exec (.ctxqClearFlags h) s = .next (s.setBlock
      ({ b.marked s.focus.slot with clearFlags := b.clearFlags ||| t.xflags }.withTokens h (.value (t.xflags.setWidth 64)))) := by
  refine exec_of_fireWord hm (by unfold exec; rfl) fun m hs => ?_
  cases hs
  refine done_of_record ((record_of_send ⟨rfl, rfl, rfl, oneOnly_of_unmarked rfl rfl rfl⟩ rfl rfl rfl ho).trans ?_)
  simp [acted, Block.marked]

end

/-- Settles O3: each word runs its meaning, whose record is read off. -/
theorem blockWords : Obligations.BlockWords := by
  refine ⟨fun i s x t b h a c r hr hm ho hb hhalt => exec_branch hr hm ho hb hhalt, fun s x t b h a c =>
    ⟨fun g hm hfree => exec_write hm hfree, fun mask hm ho hfree => ?_,
      fun code hm htrap hhalt hwaita hbar => exec_trap hm htrap hhalt hwaita hbar, fun sc hm => ?_,
      fun mask hm => exec_sbar hm, fun hm ho => exec_ctxqClearFlags hm ho⟩⟩
  · rw [exec_null hm ho hfree, maskLsids_eq, List.map_map]
    rfl
  · obtain ⟨sc', hsc', hwide⟩ := wider_some b.fence sc
    exact ⟨sc', by rw [exec_fence hm, hsc'], hwide⟩

end Sys2Proof.Firing
end

section
/-! Fields of words, addresses, and the checks of a firing word's accesses (R136, R137). -/

open Sys2Proof.Machine

namespace Sys2Proof.Firing

/-! ### Fields -/

theorem getLsbD_iff_bitsAt {w : Nat} (e : BitVec w) (k : Nat) : e.getLsbD k = true ↔ bitsAt e k 1 = 1 := by
  rw [← BitVec.testBit_toNat, Nat.testBit_eq_decide_div_mod_eq, decide_eq_true_iff, bitsAt, pow_one]

theorem fld_eq_bitsAt {w : Nat} (e : BitVec w) (lo n : Nat) : fld e lo n = bitsAt e lo n := rfl

theorem extractLsb'_eq_ofNat {w : Nat} (e : BitVec w) (lo n : Nat) : e.extractLsb' lo n = BitVec.ofNat n (bitsAt e lo n) :=
  BitVec.eq_of_toNat_eq (by rw [Encoding.toNat_extractLsb', BitVec.toNat_ofNat, bitsAt, Nat.mod_mod])

/-- The highest bits of a word are 0 where it is small. -/
theorem bitsAt_top_eq_zero {w lo n : Nat} (e : BitVec w) (hw : w = lo + n) : bitsAt e lo n = 0 ↔ e.toNat < 2 ^ lo := by
  have hlt : e.toNat / 2 ^ lo < 2 ^ n := by
    rw [Nat.div_lt_iff_lt_mul (by positivity), ← pow_add, Nat.add_comm, ← hw]
    exact e.isLt
  rw [bitsAt, Nat.mod_eq_of_lt hlt, Nat.div_eq_zero_iff_lt (by positivity)]

/-! ### Addresses -/

theorem addr_eq (f : Fire) (off : BitVec 24) : f.addr off = accessVa f.left off := by
  rw [accessVa, BitVec.ofInt_add, BitVec.ofInt_natCast, BitVec.ofNat_toNat, BitVec.setWidth_eq]
  rfl

theorem accInfo_eq (slot : Nat) (write : Bool) (va : W64) : accInfo slot write va = accessInfo slot write va := by
  have htop : (fld va 55 9 != 0) = true ↔ 2 ^ 55 ≤ va.toNat :=
    bne_iff_ne.trans ((bitsAt_top_eq_zero va rfl).not.trans not_lt)
  simp only [accInfo, accessInfo, htop]
  rw [fld, pow_zero, Nat.div_one, w64]

theorem checked_addr (f : Fire) (r : AccReq) (off : BitVec 24) (write : Bool) (k : Loc → Res) :
    f.checked r (f.addr off) write k = f.checked r (accessVa f.left off) write k := by
  rw [addr_eq]

theorem checked_of_loc {f : Fire} {r : AccReq} {va : W64} {l : Loc} (write : Bool) (k : Loc → Res)
    (hc : f.s.seqCheck f.s.focus.inst r va = .loc l) : f.checked r va write k = k l := by
  rw [Fire.checked, hc]

/-- R137, R355: what a fault of the check puts in sr.info, and in the page fault record where translation raised it. -/
theorem checked_of_fault {f : Fire} {r : AccReq} {va : W64} {code : Byte} {pg : Option (W64 × Nat × Bool × Nat)} (write : Bool)
    (k : Loc → Res) (hc : f.s.seqCheck f.s.focus.inst r va = .fault code pg) :
    f.checked r va write k = f.fault code (accessInfo f.slot write va) (accessPage code write va pg) := by
  rw [Fire.checked, hc, ← accInfo_eq]
  rfl

theorem vaFault_eq (f : Fire) (code : Byte) (pg : Option (W64 × Nat × Bool × Nat)) (va : W64) :
    f.vaFault code pg va = f.fault code (accessInfo f.slot false va) (accessPage code false va pg) := by
  rw [Fire.vaFault, accInfo_eq]
  rfl

/-! ### The access that a word makes -/

section
variable {i : Instr} {s : State} {x : Inst} {t : Tile} {b : Block} {h : Head} {a c : W64}

theorem exec_eq_fireLoad {ls : BitVec 5} {sz : Size} {signed full : Bool} {off : BitVec 24}
    (hi : loadOf i = some (ls, sz, signed, full, off)) :
    exec i s = fireLoad i s ls sz off full (if signed then signExt sz.bytes else id) := by
  unfold loadOf at hi
  split at hi <;> cases hi <;> unfold exec <;> rfl

theorem exec_eq_fireAtomic {ls g : BitVec 5} {op : AtomicOp} {w : Bool} {off : BitVec 24}
    (hi : atomicOf i = some (ls, op, w, g, off)) : exec i s = fireAtomic i s op w g off := by
  unfold atomicOf at hi
  split at hi <;> cases hi <;> unfold exec <;> rfl

/-- R187: the code address of a run value is its multiple of 8. -/
theorem runAddress_eq (v : W64) : v &&& ~~~7#64 = BitVec.ofNat 64 (v.toNat / 8 * 8) := by
  refine BitVec.eq_of_getLsbD_eq fun i hi => ?_
  have hseven : (7#64).getLsbD i = decide (i < 3) := Nat.testBit_two_pow_sub_one 3 i
  have height : (v.toNat / 8 * 8).testBit i = (decide (3 ≤ i) && v.toNat.testBit i) := by
    rw [show 8 = 2 ^ 3 from rfl, ← Nat.shiftRight_eq_div_pow, ← Nat.shiftLeft_eq, Nat.testBit_shiftLeft, Nat.testBit_shiftRight]
    by_cases hi3 : 3 ≤ i <;> simp [hi3]
  rw [BitVec.getLsbD_and, BitVec.getLsbD_not, hseven, BitVec.getLsbD_ofNat, height, BitVec.testBit_toNat]
  have hge : (!decide (i < 3)) = decide (3 ≤ i) := by rw [← decide_not, decide_eq_decide, not_lt]
  rw [hge, decide_eq_true hi, Bool.true_and, Bool.true_and, Bool.and_comm]

theorem exec_eq_checked_of_fireWord {r : AccReq} {va : W64} {write : Bool} {wr : Option (BitVec 5)} {K : Fire → Res}
    (hm : MayFire i s x t b h a c) (he : exec i s = fireWord i s wr K)
    (hK : ∀ m, i.shape = .seq h m → ∃ k, K (fireOf s x t b h m a c) = (fireOf s x t b h m a c).checked r va write k) :
    ∃ m k, exec i s = (fireOf s x t b h m a c).checked r va write k := by
  obtain ⟨m, hs, hfire⟩ := fireWord_of i s x t b h a c wr K hm
  obtain ⟨k, hk⟩ := hK m hs
  exact ⟨m, k, by rw [he, hfire, hk]⟩

theorem exec_eq_checked_of_fireAccess {r : AccReq} {off : BitVec 24} {write : Bool} {e : Fire → Loc → Eff}
    (hm : MayFire i s x t b h a c) (he : exec i s = fireAccess i s r off write e) :
    ∃ m k, exec i s = (fireOf s x t b h m a c).checked r (accessVa a off) write k :=
  exec_eq_checked_of_fireWord hm he fun m _ => ⟨_, checked_addr (fireOf s x t b h m a c) ..⟩

/-- A word that accesses memory when it fires begins with the check of its access. -/
theorem exec_eq_checked {r : AccReq} {va : W64} {write : Bool} (hi : accessOf i a = some (r, va, write))
    (hm : MayFire i s x t b h a c)
    (hload : (loadOf i).isSome = true → ∀ h m, i.shape = .seq h m → (fireOf s x t b h m a c).behindLoad = false) :
    ∃ m k, exec i s = (fireOf s x t b h m a c).checked r va write k := by
  unfold accessOf at hi
  split at hi
  case h_1 hl =>
    cases hi
    refine exec_eq_checked_of_fireWord hm (exec_eq_fireLoad hl) fun m hs =>
      ⟨_, (if_neg (Bool.eq_false_iff.mp ?_)).trans (checked_addr (fireOf s x t b h m a c) ..)⟩
    exact hload (by rw [hl]; rfl) h m hs
  case h_2 ha _ =>
    cases hi
    exact exec_eq_checked_of_fireAccess hm (exec_eq_fireAtomic ha)
  case h_3 | h_4 | h_5 | h_7 =>
    cases hi
    exact exec_eq_checked_of_fireAccess hm (by unfold exec; rfl)
  case h_6 | h_8 | h_9 | h_10 | h_11 =>
    cases hi
    exact exec_eq_checked_of_fireWord hm (by unfold exec; rfl) fun m _ => ⟨_, checked_addr (fireOf s x t b h m a c) ..⟩
  case h_12 =>
    split at hi
    case isFalse => cases hi
    case isTrue hv =>
      cases hi
      have haligned : ¬(fld a 1 2 != 0) = true := by simpa [fld] using hv
      rw [← runAddress_eq]
      exact exec_eq_checked_of_fireWord hm (by unfold exec; rfl) fun m _ => ⟨_, if_neg haligned⟩
  case h_13 => cases hi

end

end Sys2Proof.Firing
end

section
/-! The checks of a VC entry (R171, R180, R184, R373). -/

open Sys2Proof.Machine

namespace Sys2Proof.Firing

/-! ### Fields of an entry -/

theorem vcValid_iff (e : W64) : vcValid e = true ↔ bitsAt e 0 1 = 1 := getLsbD_iff_bitsAt e 0

theorem vcOut_iff (e : W64) : vcOut e = true ↔ bitsAt e 59 1 = 1 := getLsbD_iff_bitsAt e 59

theorem vcFilter_toNat (e : W64) : (vcFilter e).toNat = bitsAt e 48 7 := Encoding.toNat_extractLsb' 48 7 e

theorem vcDest_toNat (e : W64) : (vcDest e).toNat = bitsAt e 30 16 := Encoding.toNat_extractLsb' 30 16 e

theorem vcDvc_toNat (e : W64) : (vcDvc e).toNat = bitsAt e 25 5 := Encoding.toNat_extractLsb' 25 5 e

theorem vcDport_toNat (e : W64) : (vcDport e).toNat = bitsAt e 23 2 := Encoding.toNat_extractLsb' 23 2 e

theorem vcRoute_eq (e : W64) : vcRoute e = bitsAt e 46 2 := rfl

theorem vcAt_eq_getElem (t : Tile) (port : BitVec 2) (vc : BitVec 5) :
    t.vc.toList[vcIdx port vc]? = some (t.vcAt port vc) := by
  have hlt : vcIdx port vc < 128 := by
    have := port.isLt
    have := vc.isLt
    rw [vcIdx]
    omega
  simp [Tile.vcAt, vget, hlt]

theorem vcIdx_inj {port port' : BitVec 2} {vc vc' : BitVec 5} (h : vcIdx port vc = vcIdx port' vc') : port = port' ∧ vc = vc' := by
  have := vc.isLt
  have := vc'.isLt
  rw [vcIdx, vcIdx] at h
  exact ⟨BitVec.eq_of_toNat_eq (by omega), BitVec.eq_of_toNat_eq (by omega)⟩

/-- The session that an entry of route kind 3 names. -/
theorem session_of_vcDest (e : W64) : (vcDest e).extractLsb' 0 5 = BitVec.ofNat 5 (bitsAt e 30 5) := by
  refine BitVec.eq_of_toNat_eq ?_
  rw [Encoding.toNat_extractLsb', vcDest_toNat, BitVec.toNat_ofNat, bitsAt, bitsAt]
  omega

theorem vcEntryOk_iff {e : W64} : vcEntryOk e = true ↔ ¬entryWrong e := by
  simp only [vcEntryOk, entryWrong, vcRoute_eq, vcFrame, fld_eq_bitsAt, Bool.ite_eq_true_distrib, Bool.and_eq_true, Bool.or_eq_true,
    Bool.not_eq_true', ← Bool.not_eq_true, bne_iff_ne, ne_eq, beq_iff_eq, decide_eq_true_iff, vcValid_iff, vcOut_iff,
    BitVec.toNat_eq, BitVec.ofNat_eq_ofNat, BitVec.toNat_ofNat, Nat.zero_mod, vcFilter_toNat, vcDest_toNat, vcDvc_toNat, vcDport_toNat]
  split <;> omega

/-- An entry that names a filter of its port and VC, or none, passes the check of its filter field. -/
theorem filterThere_iff (t : Tile) (port : BitVec 2) (vc : BitVec 5) (e : W64) :
    filterThere t port vc e ↔ vcFilter e = 0 ∨ (t.filterOf port vc e).isSome = true := by
  rw [filterThere, Tile.filterOf, List.find?_isSome, ← vcFilter_toNat]
  simp [BitVec.toNat_eq, and_assoc]

/-! ### The fault of a VCFMT -/

section
variable {s : State} {x : Inst} {t : Tile} {port : BitVec 2} {vc : BitVec 5} {e : W64}

theorem vcfmtFault_of_entryWrong (hw : entryWrong e) : s.vcfmtFault x t port vc e = some cIllegal :=
  if_pos (by simpa [vcEntryOk_iff, ← Bool.not_eq_true] using hw)

theorem filterCheck_iff :
    (vcOut e && vcFilter e != 0 && (t.filterOf port vc e).isNone) = true ↔ bitsAt e 59 1 = 1 ∧ ¬filterThere t port vc e := by
  rw [filterThere_iff, Bool.and_eq_true, Bool.and_eq_true, vcOut_iff, bne_iff_ne, and_assoc, not_or,
    Bool.not_eq_true, Option.isSome_eq_false_iff]

theorem vcfmtFault_of_no_filter (hok : ¬entryWrong e) (hout : bitsAt e 59 1 = 1) (hf : ¬filterThere t port vc e) :
    s.vcfmtFault x t port vc e = some cIllegal := by
  rw [State.vcfmtFault, vcEntryOk_iff.mpr hok]
  exact if_pos (filterCheck_iff.mpr ⟨hout, hf⟩)

/-- R373: an entry of another VC of the context names the session, the tile and the VC. -/
theorem sessionVcTaken_of_entry {tag : Byte} {i j i' j' : Nat} {y : Inst} {z : Tile} {port' : BitVec 2} {vc' : BitVec 5}
    (hy : s.insts[i']? = some y) (htag : y.tag = tag) (hlive : y.st ≠ .retired) (hz : y.tiles[j']? = some z)
    (hother : i' ≠ i ∨ j' ≠ j ∨ port' ≠ port ∨ vc' ≠ vc)
    (hentry : let e' := (z.vcAt port' vc').entry
      bitsAt e' 0 1 = 1 ∧ bitsAt e' 59 1 = 1 ∧ bitsAt e' 46 2 = 3 ∧ bitsAt e' 30 16 = bitsAt e 30 16 ∧ bitsAt e' 25 5 = bitsAt e 25 5) :
    s.sessionVcTaken tag i j port vc e = true := by
  obtain ⟨hvalid, hout, hroute, hdest, hdvc⟩ := hentry
  have hplace : (i == i' && j == j' && vcIdx port' vc' == vcIdx port vc) = false := by
    rw [Bool.eq_false_iff]
    intro hsame
    simp only [Bool.and_eq_true, beq_iff_eq] at hsame
    obtain ⟨⟨rfl, rfl⟩, hidx⟩ := hsame
    obtain ⟨rfl, rfl⟩ := vcIdx_inj hidx
    simp at hother
  refine List.any_eq_true.mpr ⟨(y, i'), List.mem_zipIdx_iff_getElem?.mpr hy, ?_⟩
  refine Bool.and_eq_true_iff.mpr ⟨by simp [htag, hlive], ?_⟩
  refine List.any_eq_true.mpr ⟨(z, j'), List.mem_zipIdx_iff_getElem?.mpr hz, ?_⟩
  refine List.any_eq_true.mpr ⟨(z.vcAt port' vc', vcIdx port' vc'), List.mem_zipIdx_iff_getElem?.mpr (vcAt_eq_getElem z port' vc'), ?_⟩
  simp [hplace, vcValid_iff, vcOut_iff, vcRoute_eq, BitVec.toNat_eq, vcDest_toNat, vcDvc_toNat, hvalid, hout, hroute, hdest, hdvc]

section
variable (hok : ¬entryWrong e) (hout : bitsAt e 59 1 = 1) (hf : filterThere t port vc e)
include hok hout hf

/-- The checks of the fields have passed: what is left is that of the destination, by the route kind. -/
theorem fields_pass : (!vcEntryOk e) = false ∧ (vcOut e && vcFilter e != 0 && (t.filterOf port vc e).isNone) = false ∧
    (!vcOut e) = false := by
  refine ⟨?_, Bool.eq_false_iff.mpr fun h => (filterCheck_iff.mp h).2 hf, ?_⟩
  · rw [vcEntryOk_iff.mpr hok, Bool.not_true]
  · rw [(vcOut_iff e).mpr hout, Bool.not_true]

theorem vcfmtFault_of_tile (hroute : bitsAt e 46 2 = 0) (hd : x.tiles.length ≤ bitsAt e 30 16) :
    s.vcfmtFault x t port vc e = some cPermission := by
  obtain ⟨hok, hfilter, hout⟩ := fields_pass hok hout hf
  rw [State.vcfmtFault, hok, hfilter, hout, vcRoute_eq, hroute, vcDest_toNat]
  exact if_pos hd

theorem vcfmtFault_of_node (hroute : bitsAt e 46 2 = 1) (hd : ∀ n ∈ x.nodes, n.id.toNat ≠ bitsAt e 30 16) :
    s.vcfmtFault x t port vc e = some cPermission := by
  obtain ⟨hok, hfilter, hout⟩ := fields_pass hok hout hf
  have hnone : (x.nodes.any fun n => n.id == vcDest e) = false :=
    List.any_eq_false.mpr (by simpa [BitVec.toNat_eq, vcDest_toNat] using hd)
  rw [State.vcfmtFault, hok, hfilter, hout, vcRoute_eq, hroute, hnone]
  rfl

variable {k : Session} (hroute : bitsAt e 46 2 = 3) (hk : s.session? x.tag (BitVec.ofNat 5 (bitsAt e 30 5)) = some k)
include hroute hk

theorem vcfmtFault_of_session (hclosed : k.opened = false ∨ k.send = false) :
    s.vcfmtFault x t port vc e = some cLinkPermit := by
  obtain ⟨hok, hfilter, hout⟩ := fields_pass hok hout hf
  rw [State.vcfmtFault, hok, hfilter, hout, vcRoute_eq, hroute, session_of_vcDest, hk]
  have hbarred : (!k.opened || !k.send) = true := by simpa using hclosed
  exact if_pos hbarred

theorem vcfmtFault_of_taken (hopen : k.opened = true) (hsend : k.send = true) (hvalid : bitsAt e 0 1 = 1)
    (htaken : s.sessionVcTaken x.tag s.focus.inst s.focus.tile port vc e = true) :
    s.vcfmtFault x t port vc e = some cChannel := by
  obtain ⟨hok, hfilter, hout⟩ := fields_pass hok hout hf
  rw [State.vcfmtFault, hok, hfilter, hout, vcRoute_eq, hroute, session_of_vcDest, hk, (vcValid_iff e).mpr hvalid, htaken]
  simp [hopen, hsend]

end

end

end Sys2Proof.Firing
end

section
/-! The faults of sequencer words (R120, R130, R132, R136, R184, R290, R322, R328, R334, R338, R357, R359). -/

open Sys2Proof.Machine

namespace Sys2Proof.Firing

/-! ### The checks of single words -/

theorem plainFault_hvec {v : W64} (h : v.toNat % 16 ≠ 0) : plainFault .hvec v = some cMisaligned :=
  if_pos (by simpa [fld] using h)

theorem plainFault_wto {v : W64} (h : 2 ^ 48 ≤ v.toNat) : plainFault .wto v = some cIllegal :=
  if_pos (bne_iff_ne.mpr ((bitsAt_top_eq_zero v rfl).not.mpr (not_lt.mpr h)))

theorem fmodeOk_iff (v : W64) : fmodeOk v = true ↔
    v.toNat % 8 ∈ [1, 2, 3, 4, 5] ∧ v.toNat / 8 % 32 = 0 ∧ v.toNat / 2 ^ 13 % 8 = 0 ∧ v.toNat < 2 ^ 17 := by
  have hv := v.isLt
  simp only [fmodeOk, Bool.and_eq_true, beq_iff_eq, bne_iff_ne, decide_eq_true_eq, List.mem_cons, List.not_mem_nil, or_false]
  simp only [fld]
  omega

theorem scaleOk_iff (v : W64) : scaleOk v = true ↔
    v.toNat < 2 ^ 32 ∧ v.toNat / 2 ^ 23 % 256 ≠ 255 ∧ v.toNat % 2 ^ 31 ≠ 0 := by
  have hv := v.isLt
  simp only [scaleOk, fld, Bool.and_eq_true, beq_iff_eq, bne_iff_ne]
  omega

theorem vget_eq_getElem {α : Type} {n : Nat} (y : Vector α n) {k : Nat} (hk : k < n) (d : α) : vget y k d = y[k] := by
  rw [vget, Vector.getElem?_eq_getElem hk, Option.getD_some]

theorem chanAt_eq_getElem (t : Tile) (ch : BitVec 4) : t.chanAt ch.toNat = t.chan[ch.toNat]'ch.isLt :=
  vget_eq_getElem _ ch.isLt _

/-! ### The VA of a TLBI and of a PMIG (R357, R359) -/

theorem pagedVa_of_untranslated {va : W64} (h : 2 ^ 55 ≤ va.toNat ∨ 2 ^ 44 ≤ va.toNat % 2 ^ 54) :
    pagedVa va = some (cTranslation, some (0, 0, false, 1)) := by
  have hva := va.isLt
  exact if_pos (by rw [fld, fld]; omega)

theorem pagedVa_of_slice {va : W64} (hlo : 2 ^ 54 ≤ va.toNat) (hhi : va.toNat < 2 ^ 54 + 2 ^ 44) :
    pagedVa va = some (cPermission, none) := by
  have h54 : va.getLsbD 54 = true := (getLsbD_iff_bitsAt va 54).mpr (by rw [bitsAt]; omega)
  rw [pagedVa, if_neg (by rw [fld, fld]; omega), h54]
  rfl

theorem pagedVa_of_page {va : W64} (h : va.toNat < 2 ^ 44) : pagedVa va = none := by
  have h54 : va.getLsbD 54 = false := Bool.eq_false_iff.mpr ((getLsbD_iff_bitsAt va 54).not.mpr (by rw [bitsAt]; omega))
  rw [pagedVa, if_neg (by rw [fld, fld]; omega), h54]
  rfl

theorem pmigOk_iff (d : W64) : pmigOk d = true ↔
    ¬(bitsAt d 0 2 = 3 ∨ bitsAt d 2 14 ≠ 0 ∨ bitsAt d 52 12 ≠ 0 ∨ (bitsAt d 0 2 ≠ 0 ∧ bitsAt d 16 36 ≠ 0)) := by
  simp only [pmigOk, fld_eq_bitsAt, Bool.and_eq_true, Bool.or_eq_true, beq_iff_eq, bne_iff_ne]
  omega

/-! ### OFILL (R236) -/

/-- The fill faults where the first of its checks does that does not find a location. -/
theorem checkFill_of_fault {f : Fire} {k : Res} {code : Byte} {pg : Option (W64 × Nat × Bool × Nat)} {n left : Nat} {va : W64}
    (hn : n < left) (hbefore : ∀ m < n, ∃ l, f.s.seqCheck f.s.focus.inst ⟨.read, 64, false, true⟩ (va + BitVec.ofNat 64 (64 * m)) = .loc l)
    (hfault : f.s.seqCheck f.s.focus.inst ⟨.read, 64, false, true⟩ (va + BitVec.ofNat 64 (64 * n)) = .fault code pg) :
    f.checkFill k left va = f.fault code (accessInfo f.slot false (va + BitVec.ofNat 64 (64 * n)))
      (accessPage code false (va + BitVec.ofNat 64 (64 * n)) pg) := by
  induction n generalizing left va with
  | zero =>
    obtain ⟨left, rfl⟩ := Nat.exists_eq_succ_of_ne_zero hn.ne'
    rw [Nat.mul_zero, BitVec.add_zero] at hfault ⊢
    exact checked_of_fault false _ hfault
  | succ n ih =>
    obtain ⟨left, rfl⟩ := Nat.exists_eq_succ_of_ne_zero (Nat.ne_zero_of_lt hn)
    have hshift (m : Nat) : va + BitVec.ofNat 64 (64 * (m + 1)) = va + 64 + BitVec.ofNat 64 (64 * m) := by
      rw [Nat.mul_succ, Nat.add_comm, BitVec.ofNat_add, BitVec.add_assoc]
      rfl
    obtain ⟨l, hl⟩ := hbefore 0 n.succ_pos
    rw [Nat.mul_zero, BitVec.add_zero] at hl
    rw [hshift] at hfault ⊢
    rw [← ih (Nat.lt_of_succ_lt_succ hn) (fun m hm => by rw [← hshift]; exact hbefore (m + 1) (Nat.succ_lt_succ hm)) hfault]
    exact checked_of_loc false _ hl

/-! ### ENQ (R290) -/

theorem queueState_of_closed {s : State} {c : Context} {q : BitVec 4} {y : Queue} (h : y.enabled = false ∨ c.st = .destroyed) :
    s.queueState c q y = 0 ∨ s.queueState c q y = 4 := by
  unfold State.queueState
  obtain h | h := h
  · by_cases hd : c.st = .destroyed <;> simp [h, hd]
  · simp [h]

theorem queueOf_eq (s : State) (x : Inst) (q : BitVec 4) :
    s.queueOf x q = (s.ctx? x.tag).bind fun c => (c.queue? q).map fun y => (c, y) := by
  cases hc : s.ctx? x.tag <;> simp [State.queueOf, hc, Context.queue?, Vector.getElem?_eq_getElem q.isLt]

/-! ### The words -/

/-- The fault that a word takes when it fires, of class X, with its block to resume (R380). -/
def faulted (s : State) (b : Block) (code : Byte) (info : W64) (page : Option (BitVec 192)) : Res :=
  .next (s.takeFault s.focus.inst s.focus.tile ⟨code, .x, 1, info, b.header, page⟩)

section
variable {i : Instr} {s : State} {x : Inst} {t : Tile} {b : Block} {h : Head} {a c : W64}

theorem exec_access_fault {r : AccReq} {va : W64} {write : Bool} {code : Byte} {pg : Option (W64 × Nat × Bool × Nat)}
    (hi : accessOf i a = some (r, va, write)) (hm : MayFire i s x t b h a c)
    (hload : (loadOf i).isSome = true → ∀ h m, i.shape = .seq h m → (fireOf s x t b h m a c).behindLoad = false)
    (hc : s.seqCheck s.focus.inst r va = .fault code pg) :
    exec i s = faulted s b code (accessInfo s.focus.slot write va) (accessPage code write va pg) := by
  obtain ⟨m, k, he⟩ := exec_eq_checked hi hm hload
  exact he.trans (checked_of_fault (f := fireOf s x t b h m a c) write k hc)

theorem exec_eq_fireDivide {v : W64} (hi : quotientOf i a c = some v) : ∃ q, exec i s = fireDivide i s q := by
  unfold quotientOf at hi
  split at hi
  case h_5 => cases hi
  all_goals exact ⟨_, by unfold exec; rfl⟩

theorem exec_divide_fault {v : W64} (hi : quotientOf i a c = some v) (hm : MayFire i s x t b h a c) (hc : c = 0) :
    exec i s = faulted s b cDivZero (BitVec.ofNat 64 s.focus.slot) none := by
  obtain ⟨v, hv⟩ := exec_eq_fireDivide hi
  exact exec_of_fireWord hm hv fun m _ => if_pos hc

theorem exec_plain_fault {ls : BitVec 5} {r : PlainSReg} {code : Byte} (hm : MayFire (.mts h ls r) s x t b h a c)
    (hf : plainFault r a = some code) : exec (.mts h ls r) s = faulted s b code (BitVec.ofNat 64 s.focus.slot) none :=
  exec_of_fireWord hm (by unfold exec; rfl) fun m _ => by dsimp only; rw [hf]; rfl

theorem exec_fmode_fault {ls : BitVec 5} (hm : MayFire (.mtsFmode h ls) s x t b h a c) (hf : ¬fmodeOk a = true) :
    exec (.mtsFmode h ls) s = faulted s b cIllegal (BitVec.ofNat 64 s.focus.slot) none :=
  exec_of_fireWord hm (by unfold exec; rfl) fun _ _ => if_neg hf

theorem exec_fflags_fault {ls : BitVec 5} (hm : MayFire (.mtsFflags h ls) s x t b h a c) (hf : 2 ^ 22 ≤ a.toNat) :
    exec (.mtsFflags h ls) s = faulted s b cIllegal (BitVec.ofNat 64 s.focus.slot) none :=
  exec_of_fireWord hm (by unfold exec; rfl) fun _ _ =>
    if_pos (bne_iff_ne.mpr ((bitsAt_top_eq_zero a rfl).not.mpr (not_lt.mpr hf)))

theorem exec_epc_fault {ls : BitVec 5} (hm : MayFire (.mtsEpc h ls) s x t b h a c) (hf : t.handler = false) :
    exec (.mtsEpc h ls) s = faulted s b cPermission (BitVec.ofNat 64 s.focus.slot) none := by
  have houtside : (!t.handler) = true := by rw [hf, Bool.not_false]
  exact exec_of_fireWord hm (by unfold exec; rfl) fun _ _ => if_pos houtside

theorem exec_epc_misaligned {ls : BitVec 5} (hm : MayFire (.mtsEpc h ls) s x t b h a c) (hh : t.handler = true)
    (hf : a.toNat % 16 ≠ 0) : exec (.mtsEpc h ls) s = faulted s b cMisaligned (BitVec.ofNat 64 s.focus.slot) none := by
  have hinside : ¬(!t.handler) = true := by rw [hh]; exact Bool.false_ne_true
  have hlow : (fld a 0 4 != 0) = true := by simpa [fld] using hf
  exact exec_of_fireWord hm (by unfold exec; rfl) fun _ _ => (if_neg hinside).trans (if_pos hlow)

theorem exec_hret_fault (hm : MayFire (.hret h) s x t b h a c) (hf : t.handler = false) :
    exec (.hret h) s = faulted s b cPermission (BitVec.ofNat 64 s.focus.slot) none :=
  exec_of_fireWord hm (by unfold exec; rfl) fun _ _ => if_neg (Bool.eq_false_iff.mp hf)

theorem exec_semp_fault {ls : BitVec 5} {sem : BitVec 6} {cnt : BitVec 16} (hm : MayFire (.semp h ls sem cnt) s x t b h a c)
    (hf : x.tiles.length ≤ a.toNat) : exec (.semp h ls sem cnt) s =
      faulted s b cPermission (BitVec.ofNat 64 (s.focus.slot * 2 ^ 57 + a.toNat % 2 ^ 32)) none := by
  have hfld : fld a 0 32 = a.toNat % 2 ^ 32 := by rw [fld, pow_zero, Nat.div_one]
  rw [← hfld]
  exact exec_of_fireWord hm (by unfold exec; rfl) fun _ _ => if_pos hf

/-- R322, R334: a tile that is no member of the group of a barrier instruction. -/
theorem exec_barrier_fault {gid : BitVec 8} {k : Fire → Res} (hm : MayFire i s x t b h a c) (hi : exec i s = fireBarrier i s gid k)
    (hf : s.focus.tile ∉ x.members gid) :
    exec i s = faulted s b cPermission (BitVec.ofNat 64 (s.focus.slot * 2 ^ 57 + gid.toNat)) none :=
  exec_of_fireWord hm hi fun _ _ => if_neg (by simpa using hf)

theorem exec_barc_fault {ls : BitVec 5} {gid : BitVec 8} (hm : MayFire (.barc h ls gid) s x t b h a c)
    (hmem : s.focus.tile ∈ x.members gid) (hf : (x.members gid).length < a.toNat) :
    exec (.barc h ls gid) s = faulted s b cIllegal (BitVec.ofNat 64 (s.focus.slot * 2 ^ 57 + gid.toNat)) none := by
  have hmember : (x.members gid).contains s.focus.tile = true := by simpa using hmem
  exact exec_of_fireWord hm (by unfold exec execBarc fireBarrier; rfl) fun _ _ => (if_pos hmember).trans (if_pos hf)

theorem exec_chr_fault {ls : BitVec 5} {ch : BitVec 4} {word : BitVec 7} (hm : MayFire (.chr h ls ch word) s x t b h a c)
    (hf : (t.chanAt ch.toNat).consumer ≠ 1) :
    exec (.chr h ls ch word) s = faulted s b cChannel (BitVec.ofNat 64 (s.focus.slot * 2 ^ 57 + ch.toNat)) none :=
  exec_of_fireWord hm (by unfold exec; rfl) fun _ _ => if_pos (bne_iff_ne.mpr hf)

theorem exec_chw_fault {ls : BitVec 5} {ch : BitVec 4} {tag : BitVec 8} {last : Bool} (hm : MayFire (.chw h ls ch tag last) s x t b h a c)
    (hf : (t.chanAt ch.toNat).producer ≠ 1) :
    exec (.chw h ls ch tag last) s = faulted s b cChannel (BitVec.ofNat 64 (s.focus.slot * 2 ^ 57 + ch.toNat)) none :=
  exec_of_fireWord hm (by unfold exec; rfl) fun _ _ => if_pos (bne_iff_ne.mpr hf)

theorem exec_ofill_fault {ls : BitVec 5} {k : BitVec 4} {off : BitVec 24} {n : Nat} {code : Byte}
    {pg : Option (W64 × Nat × Bool × Nat)} (hm : MayFire (.ofill h ls k off) s x t b h a c) (hn : n < 96)
    (hbefore : ∀ m < n, ∃ l, s.reaches .read 64 false true (accessVa a off + BitVec.ofNat 64 (64 * m)) l)
    (hf : s.seqCheck s.focus.inst ⟨.read, 64, false, true⟩ (accessVa a off + BitVec.ofNat 64 (64 * n)) = .fault code pg) :
    exec (.ofill h ls k off) s = faulted s b code (accessInfo s.focus.slot false (accessVa a off + BitVec.ofNat 64 (64 * n)))
      (accessPage code false (accessVa a off + BitVec.ofNat 64 (64 * n)) pg) :=
  exec_of_fireWord hm (by unfold exec; rfl) fun m _ => by
    rw [addr_eq (fireOf s x t b h m a c)]
    exact checkFill_of_fault (f := fireOf s x t b h m a c) hn hbefore hf

theorem exec_enq_fault {ls : BitVec 5} {q : BitVec 4} {off : BitVec 24} {l : Loc} {y : Context × Queue}
    (hm : MayFire (.enq h ls q off) s x t b h a c) (hl : s.reaches .read 64 false true (accessVa a off) l)
    (hq : s.queueOf x q = some y) (hf : y.2.enabled = false ∨ y.1.st = .destroyed) :
    exec (.enq h ls q off) s = faulted s b cPermission (accessInfo s.focus.slot false (accessVa a off)) none := by
  rw [queueOf_eq, Option.bind_eq_some_iff] at hq
  obtain ⟨ctx, hctx, hq⟩ := hq
  obtain ⟨queue, hqueue, rfl⟩ := Option.map_eq_some_iff.mp hq
  refine exec_of_fireWord hm (by unfold exec; rfl) fun m _ => ?_
  rw [addr_eq (fireOf s x t b h m a c), ← accInfo_eq]
  refine (checked_of_loc (f := fireOf s x t b h m a c) false _ hl).trans ?_
  simp only [hctx, hqueue, Option.bind_some, Option.map_some]
  exact if_pos (queueState_of_closed hf)

theorem exec_run_fault {ls : BitVec 5} {e : StripId} {cnt rep : BitVec 12} (hm : MayFire (.run h ls e cnt rep) s x t b h a c)
    (hf : a.toNat / 2 % 4 ≠ 0) : exec (.run h ls e cnt rep) s = faulted s b cMisaligned (accessInfo s.focus.slot false a) none := by
  have hlow : (fld a 1 2 != 0) = true := by simpa [fld] using hf
  rw [← accInfo_eq]
  exact exec_of_fireWord hm (by unfold exec; rfl) fun _ _ => if_pos hlow

theorem exec_vcfmt_fault {ls : BitVec 5} {port : BitVec 2} {vc : BitVec 5} {code : Byte} (hm : MayFire (.vcfmt h ls port vc) s x t b h a c)
    (hf : s.vcfmtFault x t port vc a = some code) :
    exec (.vcfmt h ls port vc) s = faulted s b code (accessInfo s.focus.slot false s.openVa) none := by
  rw [← accInfo_eq]
  exact exec_of_fireWord hm (by unfold exec; rfl) fun _ _ => by dsimp only; rw [hf]; rfl

theorem exec_vcscl_fault {ls : BitVec 5} {port : BitVec 2} {reg : BitVec 3} (hm : MayFire (.vcscl h ls port reg) s x t b h a c)
    (hf : ¬scaleOk a = true) :
    exec (.vcscl h ls port reg) s = faulted s b cIllegal (accessInfo s.focus.slot false s.openVa) none := by
  rw [← accInfo_eq]
  exact exec_of_fireWord hm (by unfold exec; rfl) fun _ _ => if_neg hf

theorem exec_tlbi_fault {ls : BitVec 5} {kind : InvKind} {code : Byte} {pg : Option (W64 × Nat × Bool × Nat)}
    (hm : MayFire (.tlbi h ls kind) s x t b h a c) (hkind : kind ≠ .all) (hf : pagedVa a = some (code, pg)) :
    exec (.tlbi h ls kind) s = faulted s b code (accessInfo s.focus.slot false a) (accessPage code false a pg) :=
  exec_of_fireWord hm (by unfold exec; rfl) fun m _ => by
    simp only [beq_iff_eq, hkind, if_false, hf]
    exact vaFault_eq (fireOf s x t b h m a c) code pg a

/-! ### PMIG (R359) -/

/-- What a PMIG does once its VA and its destination have passed: its walk. It waits on a Migrating leaf, and faults on one that is Faulted
and on one that maps more than a page of 64 KiB. -/
def pmigWalk (f : Fire) (ctx : Context) : Res :=
  match f.s.walk ctx f.left with
  | .error (.fault code page) => f.vaFault code page f.left
  | .error _ => .next f.s
  | .ok l =>
    if entryState l.e = 3 then .next f.s
    else if entryState l.e = 5 then f.vaFault cUncorrectable none f.left
    else if l.level != 3 || fld l.e 5 1 = 1 then f.vaFault cPermission (some (0, l.level, false, 1)) f.left
    else f.done { eff := some (.pmig f.left f.right l.entryIpa, f.left) }

theorem exec_pmig_va {ls : BitVec 5} {code : Byte} {pg : Option (W64 × Nat × Bool × Nat)} (hm : MayFire (.pmig h ls) s x t b h a c)
    (hf : pagedVa a = some (code, pg)) :
    exec (.pmig h ls) s = faulted s b code (accessInfo s.focus.slot false a) (accessPage code false a pg) :=
  exec_of_fireWord hm (by unfold exec; rfl) fun m _ => by
    simp only [hf]
    exact vaFault_eq (fireOf s x t b h m a c) code pg a

section
variable {ls : BitVec 5} (hm : MayFire (.pmig h ls) s x t b h a c) (hva : a.toNat < 2 ^ 44)
include hm hva

theorem exec_pmig_misaligned (hf : a.toNat % 2 ^ 16 ≠ 0) :
    exec (.pmig h ls) s = faulted s b cMisaligned (accessInfo s.focus.slot false a) none := by
  have hlow : (fld a 0 16 != 0) = true := by simpa [fld] using hf
  refine exec_of_fireWord hm (by unfold exec; rfl) fun m _ => ?_
  simp only [pagedVa_of_page hva, hlow, if_true]
  exact vaFault_eq (fireOf s x t b h m a c) _ none a

variable (halign : a.toNat % 2 ^ 16 = 0)
include halign

theorem exec_pmig_illegal (hf : ¬pmigOk c = true) :
    exec (.pmig h ls) s = faulted s b cIllegal (accessInfo s.focus.slot false a) none := by
  have hlow : (fld a 0 16 != 0) = false := by simpa [fld] using halign
  refine exec_of_fireWord hm (by unfold exec; rfl) fun m _ => ?_
  simp only [pagedVa_of_page hva, hlow, hf, Bool.false_eq_true, if_false, Bool.not_false, if_true]
  exact vaFault_eq (fireOf s x t b h m a c) _ none a

variable (hok : pmigOk c = true)
include hok

theorem exec_pmig_remote (hremote : fld c 0 2 = 0 ∧ fld c 50 2 = 1) :
    exec (.pmig h ls) s = faulted s b cPermission (accessInfo s.focus.slot false a)
      (accessPage cPermission false a (some (BitVec.ofNat 64 (fld c 16 36 * 2 ^ 16), 0, false, 2))) := by
  have hlow : (fld a 0 16 != 0) = false := by simpa [fld] using halign
  refine exec_of_fireWord hm (by unfold exec; rfl) fun m _ => ?_
  simp only [pagedVa_of_page hva, hlow, hok, Bool.false_eq_true, if_false, Bool.not_true, if_pos hremote]
  exact vaFault_eq (fireOf s x t b h m a c) _ _ a

variable (hlocal : ¬(fld c 0 2 = 0 ∧ fld c 50 2 = 1)) {ctx : Context} (hctx : s.ctx? x.tag = some ctx)
include hlocal hctx

theorem exec_pmig_eq_pmigWalk : ∃ m, exec (.pmig h ls) s = pmigWalk (fireOf s x t b h m a c) ctx := by
  have hlow : (fld a 0 16 != 0) = false := by simpa [fld] using halign
  refine ⟨⟨0x99#8, true, true, false, false, some ls, false, none⟩, exec_of_fireWord hm (by unfold exec; rfl) fun m hs => ?_⟩
  cases hs
  simp only [pagedVa_of_page hva, hlow, hok, Bool.false_eq_true, if_false, Bool.not_true, if_neg hlocal, hctx, pmigWalk]
  cases s.walk ctx a with
  | error acc => cases acc <;> rfl
  | ok leaf => rfl

theorem exec_pmig_walk_fault {code : Byte} {pg : Option (W64 × Nat × Bool × Nat)} (hwalk : s.walk ctx a = .error (.fault code pg)) :
    exec (.pmig h ls) s = faulted s b code (accessInfo s.focus.slot false a) (accessPage code false a pg) := by
  obtain ⟨m, he⟩ := exec_pmig_eq_pmigWalk hm hva halign hok hlocal hctx
  rw [he, pmigWalk, hwalk]
  exact vaFault_eq (fireOf s x t b h m a c) code pg a

variable {leaf : Leaf} (hwalk : s.walk ctx a = .ok leaf)
include hwalk

theorem exec_pmig_faulted (hf : entryState leaf.e = 5) :
    exec (.pmig h ls) s = faulted s b cUncorrectable (accessInfo s.focus.slot false a) none := by
  obtain ⟨m, he⟩ := exec_pmig_eq_pmigWalk hm hva halign hok hlocal hctx
  rw [he, pmigWalk, hwalk]
  simp only [hf]
  exact vaFault_eq (fireOf s x t b h m a c) _ none a

theorem exec_pmig_large (hmigrating : entryState leaf.e ≠ 3) (hfaulted : entryState leaf.e ≠ 5)
    (hf : leaf.level ≠ 3 ∨ fld leaf.e 5 1 = 1) :
    exec (.pmig h ls) s = faulted s b cPermission (accessInfo s.focus.slot false a)
      (accessPage cPermission false a (some (0, leaf.level, false, 1))) := by
  obtain ⟨m, he⟩ := exec_pmig_eq_pmigWalk hm hva halign hok hlocal hctx
  have hlarge : (leaf.level != 3 || decide (fld leaf.e 5 1 = 1)) = true := by simpa using hf
  rw [he, pmigWalk, hwalk]
  simp only [if_neg hmigrating, if_neg hfaulted, if_pos hlarge]
  exact vaFault_eq (fireOf s x t b h m a c) _ _ a

end

end

/-- Settles O5, by the clause that raises the fault. -/
theorem wordsRaiseFaults : Obligations.WordsRaiseFaults := by
  intro i s x t b h a c code info page hr hm
  -- The head of the word stands in the clause.
  have hhead {h' : Head} {m : SeqMeta} (hs : i.shape = .seq h' m) : h' = h := by
    obtain ⟨-, m', -, hs', -⟩ := hm
    exact (Shape.seq.inj (hs.symm.trans hs')).1
  cases hr
  case divide hc hv => exact exec_divide_fault hv hm hc
  case access hi hload hc => exact exec_access_fault hi hm (fun hl h m hs => hload hl h m hs) hc
  all_goals obtain rfl := hhead rfl
  case hvec hf => exact exec_plain_fault hm (plainFault_hvec hf)
  case wto hf => exact exec_plain_fault hm (plainFault_wto hf)
  case fmode hf => exact exec_fmode_fault hm fun hok => hf ((fmodeOk_iff a).mp hok).1
  case fmodeReserved hf =>
    refine exec_fmode_fault hm fun hok => ?_
    obtain ⟨-, h1, h2, h3⟩ := (fmodeOk_iff a).mp hok
    omega
  case fflags hf => exact exec_fflags_fault hm hf
  case epc hf => exact exec_epc_fault hm hf
  case epcMisaligned hh hf => exact exec_epc_misaligned hm hh hf
  case hret hf => exact exec_hret_fault hm hf
  case semp hf => exact exec_semp_fault hm hf
  case bara hf | barw hf | bar hf | barc hf => exact exec_barrier_fault hm (by unfold exec; rfl) hf
  case barcCount hmem hf => exact exec_barc_fault hm hmem hf
  case chr hf => exact exec_chr_fault hm (by rwa [chanAt_eq_getElem])
  case chw hf => exact exec_chw_fault hm (by rwa [chanAt_eq_getElem])
  case ofill hn hbefore hf => exact exec_ofill_fault hm hn hbefore hf
  case enq hl hq hf => exact exec_enq_fault hm hl hq hf
  case run hf => exact exec_run_fault hm hf
  case vcfmt hw => exact exec_vcfmt_fault hm (vcfmtFault_of_entryWrong hw)
  case vcfmtFilter hok hout hf => exact exec_vcfmt_fault hm (vcfmtFault_of_no_filter hok hout hf)
  case vcfmtTile hok hout hf hroute hd => exact exec_vcfmt_fault hm (vcfmtFault_of_tile hok hout hf hroute hd)
  case vcfmtNode hok hout hf hroute hd => exact exec_vcfmt_fault hm (vcfmtFault_of_node hok hout hf hroute hd)
  case vcfmtSession hok hout hf hroute hk hclosed =>
    exact exec_vcfmt_fault hm (vcfmtFault_of_session hok hout hf hroute hk hclosed)
  case vcfmtTaken hok hout hvalid hf hroute hk hopen hsend hy htag hlive hz hother hentry =>
    exact exec_vcfmt_fault hm (vcfmtFault_of_taken hok hout hf hroute hk hopen hsend hvalid
      (sessionVcTaken_of_entry hy htag hlive hz hother hentry))
  case vcscl hf =>
    refine exec_vcscl_fault hm fun hok => ?_
    obtain ⟨h1, h2, h3⟩ := (scaleOk_iff a).mp hok
    omega
  case tlbi hkind hf => exact exec_tlbi_fault hm hkind (pagedVa_of_untranslated hf)
  case tlbiSlice hkind hlo hhi => exact exec_tlbi_fault hm hkind (pagedVa_of_slice hlo hhi)
  case pmig hf => exact exec_pmig_va hm (pagedVa_of_untranslated hf)
  case pmigSlice hlo hhi => exact exec_pmig_va hm (pagedVa_of_slice hlo hhi)
  case pmigMisaligned hva hf => exact exec_pmig_misaligned hm hva hf
  case pmigIllegal hva halign hf => exact exec_pmig_illegal hm hva halign fun hok => (pmigOk_iff c).mp hok hf
  case pmigRemote hva halign hok hkind hplace => exact exec_pmig_remote hm hva halign hok ⟨hkind, hplace⟩
  case pmigWalk hva halign hok hlocal hctx hwalk => exact exec_pmig_walk_fault hm hva halign hok hlocal hctx hwalk
  case pmigFaulted hva halign hok hlocal hctx hwalk hf => exact exec_pmig_faulted hm hva halign hok hlocal hctx hwalk hf
  case pmigLarge hva halign hok hlocal hctx hwalk h3 h5 hf => exact exec_pmig_large hm hva halign hok hlocal hctx hwalk h3 h5 hf

end Sys2Proof.Firing
end

section
/-! The values of the words that compute (R114, R119-R121), in numbers. -/

open Sys2Proof.Machine

namespace Sys2Proof.Firing

/-! ### Moves and arithmetic -/

theorem append_eq_ofNat (x y : BitVec 32) : (x ++ y : BitVec 64) = BitVec.ofNat 64 (x.toNat * 2 ^ 32 + y.toNat) := by
  refine BitVec.eq_of_toNat_eq ?_
  have hx := x.isLt
  have hy := y.isLt
  rw [BitVec.toNat_append, ← Nat.shiftLeft_add_eq_or_of_lt hy, Nat.shiftLeft_eq, BitVec.toNat_ofNat]
  omega

theorem signExtend_eq_ofInt {n : Nat} (imm : BitVec n) : imm.signExtend 64 = BitVec.ofInt 64 imm.toInt := rfl

theorem add_eq_ofInt (a b : W64) : a + b = BitVec.ofInt 64 (a.toInt + b.toInt) := by
  rw [BitVec.ofInt_add, BitVec.ofInt_toInt, BitVec.ofInt_toInt]

theorem sub_eq_ofInt (a b : W64) : a - b = BitVec.ofInt 64 (a.toInt - b.toInt) := by
  rw [Int.sub_eq_add_neg, BitVec.ofInt_add, BitVec.ofInt_neg, BitVec.ofInt_toInt, BitVec.ofInt_toInt, BitVec.sub_eq_add_neg]

theorem mul_eq_ofInt (a b : W64) : a * b = BitVec.ofInt 64 (a.toInt * b.toInt) := by
  rw [BitVec.ofInt_mul, BitVec.ofInt_toInt, BitVec.ofInt_toInt]

theorem toInt_immediate (imm : BitVec 32) : (imm.signExtend 64).toInt = imm.toInt :=
  BitVec.toInt_signExtend_of_le (by decide)

theorem mulHigh_eq (a b : W64) : mulHigh a b = BitVec.ofInt 64 (a.toInt * b.toInt / 2 ^ 64) := by
  have hprod : a.signExtend 128 * b.signExtend 128 = BitVec.ofInt 128 (a.toInt * b.toInt) := (BitVec.ofInt_mul ..).symm
  rw [mulHigh, hprod]
  refine BitVec.eq_of_toNat_eq ?_
  rw [Encoding.toNat_extractLsb', BitVec.toNat_ofInt, BitVec.toNat_ofInt]
  generalize a.toInt * b.toInt = z
  omega

theorem mulHighU_eq (a b : W64) : mulHighU a b = BitVec.ofNat 64 (a.toNat * b.toNat / 2 ^ 64) := by
  have hprod : a.setWidth 128 * b.setWidth 128 = BitVec.ofNat 128 (a.toNat * b.toNat) := by
    rw [BitVec.ofNat_mul, BitVec.ofNat_toNat, BitVec.ofNat_toNat]
  rw [mulHighU, hprod]
  refine BitVec.eq_of_toNat_eq ?_
  rw [Encoding.toNat_extractLsb', BitVec.toNat_ofNat, BitVec.toNat_ofNat]
  generalize a.toNat * b.toNat = z
  omega

theorem add_shiftLeft_eq (a b : W64) (n : Nat) : a + b <<< n = BitVec.ofNat 64 (a.toNat + b.toNat * 2 ^ n) :=
  BitVec.eq_of_toNat_eq (by simp [Nat.shiftLeft_eq])

theorem ite_slt_eq_min (a b : W64) : (if a.slt b then a else b) = BitVec.ofInt 64 (min a.toInt b.toInt) := by
  simp only [BitVec.slt_iff_toInt_lt]
  split
  case isTrue h => rw [min_eq_left h.le, BitVec.ofInt_toInt]
  case isFalse h => rw [min_eq_right (not_lt.mp h), BitVec.ofInt_toInt]

theorem ite_slt_eq_max (a b : W64) : (if a.slt b then b else a) = BitVec.ofInt 64 (max a.toInt b.toInt) := by
  simp only [BitVec.slt_iff_toInt_lt]
  split
  case isTrue h => rw [max_eq_right h.le, BitVec.ofInt_toInt]
  case isFalse h => rw [max_eq_left (not_lt.mp h), BitVec.ofInt_toInt]

theorem ite_ult_eq_min (a b : W64) : (if a.ult b then a else b) = BitVec.ofNat 64 (min a.toNat b.toNat) := by
  simp only [BitVec.ult_iff_lt, BitVec.lt_def]
  split
  case isTrue h => rw [min_eq_left h.le, BitVec.ofNat_toNat, BitVec.setWidth_eq]
  case isFalse h => rw [min_eq_right (not_lt.mp h), BitVec.ofNat_toNat, BitVec.setWidth_eq]

theorem ite_ult_eq_max (a b : W64) : (if a.ult b then b else a) = BitVec.ofNat 64 (max a.toNat b.toNat) := by
  simp only [BitVec.ult_iff_lt, BitVec.lt_def]
  split
  case isTrue h => rw [max_eq_right h.le, BitVec.ofNat_toNat, BitVec.setWidth_eq]
  case isFalse h => rw [max_eq_left (not_lt.mp h), BitVec.ofNat_toNat, BitVec.setWidth_eq]

/-! ### Shifts, fields and counts -/

theorem shiftAmount (b : W64) : (b.extractLsb' 0 6).toNat = b.toNat % 64 := by
  rw [Encoding.toNat_extractLsb', pow_zero, Nat.div_one]
  rfl

theorem shiftLeft_eq (a : W64) (n : Nat) : a <<< n = BitVec.ofNat 64 (a.toNat * 2 ^ n) :=
  BitVec.eq_of_toNat_eq (by simp [Nat.shiftLeft_eq])

theorem shiftRight_eq (a : W64) (n : Nat) : a >>> n = BitVec.ofNat 64 (a.toNat / 2 ^ n) := by
  rw [← Nat.shiftRight_eq_div_pow, ← BitVec.toNat_ushiftRight, BitVec.ofNat_toNat, BitVec.setWidth_eq]

theorem sshiftRight_eq (a : W64) (n : Nat) : a.sshiftRight n = BitVec.ofInt 64 (a.toInt / 2 ^ n) := by
  rw [BitVec.sshiftRight, Int.shiftRight_eq_div_pow]
  norm_cast

theorem zeroExtend_field (a : W64) (lo n : Nat) :
    (a.extractLsb' lo n).setWidth 64 = BitVec.ofNat 64 (a.toNat / 2 ^ lo % 2 ^ n) :=
  BitVec.eq_of_toNat_eq (by rw [BitVec.toNat_setWidth, Encoding.toNat_extractLsb', BitVec.toNat_ofNat])

theorem signExtend_field (a : W64) (lo n : Nat) :
    (a.extractLsb' lo n).signExtend 64 = BitVec.ofInt 64 (Int.bmod (a.toNat / 2 ^ lo) (2 ^ n)) := by
  rw [signExtend_eq_ofInt, BitVec.toInt_eq_toNat_bmod, Encoding.toNat_extractLsb']
  rw [Int.natCast_emod, Int.emod_bmod, Int.natCast_ediv, Nat.cast_pow]
  rfl

theorem count_lt (m n : Nat) : Nat.count (· < m) n = min m n := by
  induction n with
  | zero => simp
  | succ n ih =>
    rw [Nat.count_succ, ih]
    split <;> omega

theorem lt_two_pow_iff_lt_leadingZeros (a : W64) {k : Nat} (hk : k < 64) : a.toNat < 2 ^ (63 - k) ↔ k < leadingZeros a := by
  rw [leadingZeros]
  split
  case isTrue h =>
    subst h
    simp [hk]
  case isFalse h =>
    have hne : a.toNat ≠ 0 := fun h0 => h (BitVec.eq_of_toNat_eq h0)
    rw [← Nat.log2_lt hne]
    omega

theorem leadingZeros_eq (a : W64) : leadingZeros a = zerosAbove a := by
  have hle : leadingZeros a ≤ 64 := by
    rw [leadingZeros]
    split <;> omega
  calc leadingZeros a = Nat.count (· < leadingZeros a) 64 := by rw [count_lt, min_eq_left hle]
    _ = Nat.count (fun k => a.toNat < 2 ^ (63 - k)) 64 :=
      le_antisymm (Nat.count_mono_left fun k hk => (lt_two_pow_iff_lt_leadingZeros a hk).mpr)
        (Nat.count_mono_left fun k hk => (lt_two_pow_iff_lt_leadingZeros a hk).mp)
    _ = zerosAbove a := rfl

/-! ### Tests -/

theorem boolW_eq_truth {q : Bool} {p : Prop} [Decidable p] (h : q = true ↔ p) : boolW q = truth p := by
  rw [boolW, truth]
  exact if_congr h rfl rfl

end Sys2Proof.Firing
end

section
/-! Words that only compute or read send their value (R114, R119-R121, R129, R276, R291, R323, R329, R377). -/

open Sys2Proof.Machine

namespace Sys2Proof.Firing

/-- A sequencer word with no LSID and no result register. -/
def plainShape : Shape → Bool
  | .seq _ m => m.ls.isNone && m.g.isNone
  | _ => false

/-- All that the word i does at a tile with operands a and c is to send v. -/
def Sends (i : Instr) (s : State) (x : Inst) (t : Tile) (b : Block) (a c v : W64) : Prop :=
  plainShape i.shape = true ∧ ∃ k, exec i s = fireWord i s none k ∧
    ∀ h m, k (fireOf s x t b h m a c) = (fireOf s x t b h m a c).done { send := some v }

section
variable {i : Instr} {s : State} {x : Inst} {t : Tile} {b : Block} {h : Head} {a c v : W64}

theorem exec_of_sends (hv : Sends i s x t b a c v) (hm : MayFire i s x t b h a c) (ho : b.targetsOpen h) :
    exec i s = .next (s.setBlock ((b.marked s.focus.slot).withTokens h (.value v))) := by
  obtain ⟨hplain, k, he, hk⟩ := hv
  refine exec_of_fireWord hm he fun m hs => (hk h m).trans ?_
  rw [hs, plainShape, Bool.and_eq_true, Option.isNone_iff_eq_none, Option.isNone_iff_eq_none] at hplain
  refine done_of_record ((record_of_send ⟨hplain.1, hplain.2, rfl, oneOnly_of_unmarked rfl rfl rfl⟩ rfl rfl rfl ho).trans ?_)
  simp [acted, Block.marked]

theorem sends_of_done {val : Fire → W64} (hplain : plainShape i.shape = true)
    (he : exec i s = fireWord i s none fun f => f.done { send := some (val f) })
    (hval : ∀ h m, val (fireOf s x t b h m a c) = v) : Sends i s x t b a c v :=
  ⟨hplain, _, he, fun h m => by rw [hval]⟩

theorem sends_of_fireValue {op : W64 → W64 → W64} (hplain : plainShape i.shape = true) (he : exec i s = fireValue i s op)
    (hop : op a c = v) : Sends i s x t b a c v :=
  sends_of_done hplain he fun _ _ => hop

theorem sends_of_arithOf (hv : arithOf i a c = some v) : Sends i s x t b a c v := by
  unfold arithOf at hv
  split at hv
  case h_17 => cases hv
  all_goals
    obtain rfl := Option.some.inj hv
    refine sends_of_fireValue rfl (by unfold exec; rfl) ?_
  case h_1 | h_2 => rfl
  case h_3 imm =>
    rw [append_eq_ofNat, Encoding.toNat_extractLsb', pow_zero, Nat.div_one]
  case h_4 => exact BitVec.eq_of_toNat_eq (by simp)
  case h_5 imm => exact (add_eq_ofInt _ _).trans (by rw [toInt_immediate imm])
  case h_6 => exact sub_eq_ofInt _ _
  case h_7 imm => exact (sub_eq_ofInt _ _).trans (by rw [toInt_immediate imm])
  case h_8 => exact mul_eq_ofInt _ _
  case h_9 imm => exact (mul_eq_ofInt _ _).trans (by rw [toInt_immediate imm])
  case h_10 => exact mulHigh_eq _ _
  case h_11 => exact mulHighU_eq _ _
  case h_12 => exact ite_slt_eq_min _ _
  case h_13 => exact ite_ult_eq_min _ _
  case h_14 => exact ite_slt_eq_max _ _
  case h_15 => exact ite_ult_eq_max _ _
  case h_16 => exact add_shiftLeft_eq _ _ _

theorem sends_of_bitsOf (hv : bitsOf i a c = some v) : Sends i s x t b a c v := by
  unfold bitsOf at hv
  split at hv
  case h_20 => cases hv
  all_goals
    obtain rfl := Option.some.inj hv
    refine sends_of_fireValue rfl (by unfold exec; rfl) ?_
  case h_1 | h_2 | h_3 | h_4 | h_5 | h_6 | h_16 => rfl
  -- The shifts, then the fields, the counts and the extensions.
  case h_7 => rw [shiftLeft_eq, shiftAmount]
  case h_8 => exact shiftLeft_eq _ _
  case h_9 => rw [shiftRight_eq, shiftAmount]
  case h_10 => exact shiftRight_eq _ _
  case h_11 => rw [sshiftRight_eq, shiftAmount]
  case h_12 => exact sshiftRight_eq _ _
  case h_13 => exact zeroExtend_field _ _ _
  case h_14 => exact signExtend_field _ _ _
  case h_15 => exact congrArg w64 (leadingZeros_eq a)
  case h_17 | h_18 | h_19 => rw [signExtend_field, pow_zero, Int.ediv_one]

theorem sends_of_testOf (hv : testOf i a c = some v) : Sends i s x t b a c v := by
  unfold testOf at hv
  split at hv
  case h_22 => cases hv
  all_goals
    obtain rfl := Option.some.inj hv
    refine sends_of_fireValue rfl (by unfold exec; rfl) (boolW_eq_truth ?_)
  -- Equality and its negation; the orders, signed and unsigned; TBIT.
  case h_1 => rw [beq_iff_eq]
  case h_2 => rw [beq_iff_eq, ← BitVec.toInt_inj, toInt_immediate]
  case h_3 => rw [bne_iff_ne]
  case h_4 => rw [bne_iff_ne, ne_eq, ← BitVec.toInt_inj, toInt_immediate]
  case h_5 | h_13 => exact BitVec.slt_iff_toInt_lt
  case h_7 | h_15 => rw [BitVec.slt_iff_toInt_lt, toInt_immediate]
  case h_9 | h_17 => exact BitVec.sle_iff_toInt_le
  case h_11 | h_19 => rw [BitVec.sle_iff_toInt_le, toInt_immediate]
  case h_6 | h_8 | h_14 | h_16 => exact BitVec.ult_iff_lt
  case h_10 | h_12 | h_18 | h_20 => exact BitVec.ule_iff_le
  case h_21 => rw [getLsbD_iff_bitsAt, bitsAt, pow_one]

theorem sends_of_fireDivide {op : W64 → W64 → W64} (hplain : plainShape i.shape = true) (he : exec i s = fireDivide i s op)
    (hc : c ≠ 0) (hop : op a c = v) : Sends i s x t b a c v :=
  ⟨hplain, _, he, fun h m => by rw [← hop]; exact if_neg hc⟩

theorem sends_of_quotientOf (hv : quotientOf i a c = some v) (hc : c ≠ 0) : Sends i s x t b a c v := by
  unfold quotientOf at hv
  split at hv
  case h_5 => cases hv
  all_goals
    obtain rfl := Option.some.inj hv
    refine sends_of_fireDivide rfl (by unfold exec; rfl) hc ?_
  case h_1 | h_3 => rfl
  case h_2 => rw [← BitVec.toNat_udiv, BitVec.ofNat_toNat, BitVec.setWidth_eq]
  case h_4 => rw [← BitVec.toNat_umod, BitVec.ofNat_toNat, BitVec.setWidth_eq]

/-! ### Words that read -/

theorem rankOf_eq (ms : List Nat) (k : Nat) : rankOf ms k = if k ∈ ms then BitVec.ofNat 64 (ms.idxOf k) else allOnes := by
  have hidx := List.idxOf_eq_getD_idxOf? k ms
  cases hk : ms.idxOf? k with
  | none =>
    rw [rankOf, hk, if_neg (List.idxOf?_eq_none_iff.mp hk)]
  | some j =>
    have hmem : k ∈ ms := by
      by_contra hn
      rw [List.idxOf?_eq_none_iff.mpr hn] at hk
      cases hk
    rw [rankOf, hk, if_pos hmem, hidx, hk]
    rfl

/-- R377: the two permit bits of a port. -/
theorem fld_two_eq (e : W64) (lo : Nat) :
    fld e lo 2 * 2 ^ 8 = (if e.getLsbD lo then 2 ^ 8 else 0) + (if e.getLsbD (lo + 1) then 2 ^ 9 else 0) := by
  simp only [getLsbD_iff_bitsAt, bitsAt, fld, pow_succ, ← Nat.div_div_eq_div_mul]
  split <;> split <;> omega

theorem sends_of_ctxq {item : CtxItem} {ctx : Context} (hctx : s.ctx? x.tag = some ctx) (hv : s.ctxItem t ctx item = v) :
    Sends (.ctxq h item) s x t b a c v :=
  sends_of_done rfl (by unfold exec; rfl) fun _ _ => by simp only [hctx, hv]

theorem sends_of_readOf {ctx : Context} (hctx : s.ctx? x.tag = some ctx) (hv : readOf i s x t b a = some v) :
    Sends i s x t b a c v := by
  unfold readOf at hv
  simp only [hctx, State.queueOf, Option.map_some, Option.bind_some] at hv
  split at hv
  case h_29 => cases hv
  -- LNKST: the permits of the port are two bits of the word of item 2.
  case h_21 p =>
    cases hport : s.ports[p.toNat]? with
    | none => simp [hport] at hv
    | some y =>
      simp only [hport] at hv
      obtain rfl := Option.some.inj hv
      refine sends_of_done rfl (by unfold exec; rfl) fun _ _ => ?_
      simp only [hport, hctx, fld_two_eq, ← Nat.add_assoc]
      rfl
  -- CTXQ of the policy: the low bits of its digest.
  case h_26 =>
    obtain ⟨p, hp, rfl⟩ := Option.map_eq_some_iff.mp hv
    refine sends_of_ctxq hctx ?_
    simp only [State.ctxItem, hp]
    exact BitVec.eq_of_toNat_eq (by rw [Encoding.toNat_extractLsb', pow_zero, Nat.div_one, BitVec.toNat_ofNat])
  -- QSTAT.
  case h_20 q =>
    obtain rfl := Option.some.inj hv
    refine sends_of_done rfl (by unfold exec; rfl) fun _ _ => ?_
    simp [hctx, Context.queue?, Vector.getElem?_eq_getElem q.isLt]
  all_goals obtain rfl := Option.some.inj hv
  -- The other items of CTXQ.
  case h_22 | h_23 | h_24 => exact sends_of_ctxq hctx rfl
  case h_25 =>
    refine sends_of_ctxq hctx ((append_eq_ofNat _ _).trans (BitVec.eq_of_toNat_eq ?_))
    simp only [Encoding.toNat_extractLsb', BitVec.toNat_ofNat]
    omega
  case h_27 =>
    exact sends_of_ctxq hctx (BitVec.eq_of_toNat_eq (by rw [State.ctxItem, BitVec.toNat_setWidth, BitVec.toNat_ofNat]))
  case h_28 =>
    refine sends_of_ctxq hctx (BitVec.eq_of_toNat_eq ?_)
    rw [State.ctxItem, w64, fld, BitVec.toNat_ofNat, BitVec.toNat_ofNat]
    omega
  -- SEMT, GSID, GMEMB.
  case h_15 sem =>
    refine sends_of_done rfl (by unfold exec; rfl) fun _ _ => BitVec.eq_of_toNat_eq ?_
    rw [vget_eq_getElem _ sem.isLt, BitVec.toNat_setWidth, BitVec.toNat_ofNat]
  case h_16 n => exact sends_of_done rfl (by unfold exec; rfl) fun _ _ => vget_eq_getElem _ n.isLt _
  case h_19 gid =>
    refine sends_of_done rfl (by unfold exec; rfl) fun _ _ => ?_
    cases hmember : (x.members gid)[a.toNat]? <;> rfl
  -- ADRB and GRANK; READ, MFS and GSIZE send what they read as it is.
  all_goals refine sends_of_done rfl (by unfold exec; rfl) fun _ _ => ?_
  case h_2 => exact placeOf_eq _ _
  case h_18 => exact rankOf_eq _ _
  all_goals rfl

/-- What O2 says holds where the owner tag of the tile's kernel is that of a context. -/
theorem valueWords_of_context {ctx : Context} (hctx : s.ctx? x.tag = some ctx)
    (hv : arithOf i a c = some v ∨ bitsOf i a c = some v ∨ testOf i a c = some v ∨ (quotientOf i a c = some v ∧ c ≠ 0) ∨
      readOf i s x t b a = some v)
    (hm : MayFire i s x t b h a c) (ho : b.targetsOpen h) :
    exec i s = .next (s.setBlock ((b.marked s.focus.slot).withTokens h (.value v))) := by
  refine exec_of_sends ?_ hm ho
  obtain hv | hv | hv | ⟨hv, hc⟩ | hv := hv
  · exact sends_of_arithOf hv
  · exact sends_of_bitsOf hv
  · exact sends_of_testOf hv
  · exact sends_of_quotientOf hv hc
  · exact sends_of_readOf hctx hv

end

end Sys2Proof.Firing
end

section
/-! CTXQ at a tile whose owner tag is that of no context (R276). -/

open Sys2Proof.Machine

namespace Sys2Proof.Firing

/-- A block of two words, issued, of which none has fired. -/
def twoWords : Block := { Block.fetched 0 0 [0, 0] with issued := true }

/-- A tile that executes the block, with transfer flag 0 set. -/
def flaggedTile : Tile := { Tile.blank 0 0 0 0 0 with xflags := 1, seq := { Seq.start 0 with block := some twoWords } }

/-- A placed kernel of owner tag 1, on that tile. -/
def strayInst : Inst :=
  { Inst.submitted 1 0 ⟨0, 0, [], [], [], [], [], [], 0, []⟩ 1 0 0 [] with tiles := [flaggedTile] }

/-- That kernel in a package that has no context. -/
def contextless : State := { State.reset with insts := [strayInst] }

/-- The fields of a word that always fires and sends to the left operand of slot 1. -/
def toSlotOne : Head := ⟨.always, some ⟨.left, 1⟩, none⟩

/-- The token that an outcome leaves in the left operand of slot 1. -/
def slotOne : Res → Option Tok
  | .next s => do
    let t ← s.tile? 0 0
    let b ← t.seq.block
    let st ← b.slots[1]?
    st.left
  | _ => none

/-- Refutes O2: nothing says that the owner tag of the tile's kernel is that of a context. Where it is not, CTXQ sends 0 for every item, also
for the place and the transfer flags (items 0 and 5), which are the tile's own: here the flags are 1, and 0 is sent. With a context the
statement holds, by `valueWords_of_context`. -/
theorem not_valueWords : ¬ Obligations.ValueWords := by
  unfold Obligations.ValueWords
  intro h
  have hflags := h (.ctxq toSlotOne .flags) contextless strayInst flaggedTile twoWords toSlotOne 0 0 1
    (.inr (.inr (.inr (.inr rfl)))) ⟨⟨rfl, rfl, rfl, rfl⟩, _, _, rfl, rfl, rfl, trivial, rfl, rfl⟩
    ⟨by decide, by simp [toSlotOne, twoWords, Block.fetched, SlotSt.at, SlotSt.empty]⟩
  have hsent : slotOne (exec (.ctxq toSlotOne .flags) contextless) = some (.value 0) := rfl
  rw [hflags] at hsent
  exact absurd hsent (by decide)

end Sys2Proof.Firing
end

section
/-! The bytes that memories hold (R134, R142): what a read gives, what a write changes, and bytes as numbers. -/

open Sys2Proof.Machine

namespace Sys2Proof.Homes

/-! ### Byte memories -/

theorem cellGet_dropWhile (l : List Host.Cell) {a b : Nat} (hab : a ≤ b) :
    cellGet (l.dropWhile fun c => decide (c.1 < a)) b = cellGet l b := by
  induction l with
  | nil => rfl
  | cons c l ih =>
    rw [List.dropWhile_cons]
    split
    case isFalse => rfl
    case isTrue hc =>
      have hlt : c.1 < a := of_decide_eq_true hc
      rw [ih, cellGet, if_neg (by omega), if_neg (by omega)]

theorem cellRead_eq (n a : Nat) (l : List Host.Cell) : cellRead n a l = (List.range n).map fun k => cellGet l (a + k) := by
  induction n generalizing a l with
  | zero => rfl
  | succ n ih =>
    have htail : cellRead n (a + 1) (l.dropWhile fun c => decide (c.1 < a)) =
        (List.range n).map fun k => cellGet l (a + (k + 1)) := by
      rw [ih]
      refine List.map_congr_left fun k _ => ?_
      rw [cellGet_dropWhile l (by omega), Nat.add_assoc, Nat.add_comm 1 k]
    have hhead := cellGet_dropWhile l (Nat.le_refl a)
    rw [List.range_succ_eq_map, List.map_cons, List.map_map, cellRead]
    simp only [Nat.add_zero, ← hhead, Function.comp_def]
    cases hl : l.dropWhile fun c => decide (c.1 < a) with
    | nil => simpa [hl, cellGet] using htail
    | cons c rest =>
      have hge : ¬c.1 < a := by
        have := List.head_dropWhile_not (fun c : Host.Cell => decide (c.1 < a)) (l := l) (by simp [hl])
        simpa [hl] using this
      have hbyte : (if c.1 = a then c.2 else 0) = cellGet (c :: rest) a := by
        rw [cellGet]
        by_cases heq : c.1 = a
        · rw [if_pos heq, if_pos heq.symm]
        · rw [if_neg heq, if_neg (Ne.symm heq), if_pos (by omega)]
      rw [hl] at htail
      simp only [htail, hbyte, Nat.succ_eq_add_one]

/-- A read gives the byte at each of its addresses. -/
theorem read_eq (m : Mem) (a n : Nat) : m.read a n = (List.range n).map fun k => m.get (a + k) := cellRead_eq n a m.cells

/-- A byte of which no cell is listed reads 0. -/
theorem get_eq_zero {m : Mem} {a : Nat} (h : ∀ c ∈ m.cells, c.1 ≠ a) : m.get a = 0 := by
  suffices hl : ∀ l : List Host.Cell, (∀ c ∈ l, c.1 ≠ a) → cellGet l a = 0 from hl m.cells h
  intro l h
  induction l with
  | nil => rfl
  | cons c l ih =>
    obtain ⟨hc, hl⟩ := List.forall_mem_cons.mp h
    rw [cellGet, if_neg (Ne.symm hc), ih hl, ite_self]

/-! ### Bytes as numbers (R3) -/

@[simp] theorem length_toBytes (n v : Nat) : (toBytes n v).length = n := by
  induction n generalizing v with
  | zero => rfl
  | succ n ih => rw [toBytes, List.length_cons, ih]

theorem ofBytes_toBytes (n v : Nat) : ofBytes (toBytes n v) = v % 2 ^ (8 * n) := by
  induction n generalizing v with
  | zero => rw [Nat.mul_zero, Nat.pow_zero, Nat.mod_one]; rfl
  | succ n ih =>
    have hpow : 2 ^ (8 * (n + 1)) = 256 * 2 ^ (8 * n) := by rw [Nat.mul_succ, Nat.pow_add, Nat.mul_comm]
    rw [toBytes, ofBytes, ih, hpow, Nat.mod_mul, BitVec.toNat_ofNat, Nat.mod_mod_of_dvd _ (by decide)]

theorem getElem?_toBytes {n k : Nat} (v : Nat) (hk : k < n) : (toBytes n v)[k]? = some (BitVec.ofNat 8 (v / 2 ^ (8 * k))) := by
  induction n generalizing v k with
  | zero => omega
  | succ n ih =>
    cases k with
    | zero =>
      rw [toBytes, List.getElem?_cons_zero, Nat.mul_zero, Nat.pow_zero, Nat.div_one]
      exact congrArg some (BitVec.eq_of_toNat_eq (by simp))
    | succ k =>
      have hpow : 2 ^ (8 * (k + 1)) = 256 * 2 ^ (8 * k) := by rw [Nat.mul_succ, Nat.pow_add, Nat.mul_comm]
      rw [toBytes, List.getElem?_cons_succ, ih _ (by omega), Nat.div_div_eq_div_mul, hpow]

end Sys2Proof.Homes
end

section
/-! Locations and their homes (R134, R142): the bytes that a state holds, and a change of some of them. -/

open Sys2Proof.Machine

namespace Sys2Proof.Homes

/-! ### A tile after the change of a tile -/

theorem tile?_modTile_eq (s : State) (i t j k : Nat) (f : Tile → Tile) :
    (s.modTile i t f).tile? j k = if i = j ∧ t = k then (s.tile? j k).map f else s.tile? j k := by
  split
  case isTrue h =>
    obtain ⟨rfl, rfl⟩ := h
    exact s.tile?_modTile i t f
  case isFalse h => exact s.tile?_modTile_of_ne i t j k f (by tauto)

theorem tile?_of_insts {s : State} {i j : Nat} {x : Inst} {t : Tile} (hx : s.insts[i]? = some x) (ht : x.tiles[j]? = some t) :
    s.tile? i j = some t := by
  simp [State.tile?, State.inst?, hx, ht]

/-- Two changes of a tile that agree on it are the same. -/
theorem modTile_congr {s : State} {i j : Nat} {x : Inst} {t : Tile} {f g : Tile → Tile} (hx : s.insts[i]? = some x)
    (ht : x.tiles[j]? = some t) (h : f t = g t) : s.modTile i j f = s.modTile i j g := by
  have htiles : x.tiles.modify j f = x.tiles.modify j g := by
    rw [List.modify_eq_set_getElem?, List.modify_eq_set_getElem?, ht]
    simp [h]
  simp only [State.modTile, State.modInst]
  congr 1
  rw [List.modify_eq_set_getElem?, List.modify_eq_set_getElem?, hx]
  simp [htiles]

/-! ### What leaves every byte as it is -/

/-- A change of a tile that keeps its slice keeps every byte. -/
theorem byteAt_modTile {f : Tile → Tile} (hf : ∀ y, (f y).slice = y.slice) (s : State) (i t j : Nat) (l : Loc) :
    (s.modTile i t f).byteAt j l = s.byteAt j l := by
  cases l with
  | slice k o =>
    by_cases h : i = j ∧ t = k
    · obtain ⟨rfl, rfl⟩ := h
      simp only [State.byteAt, State.tile?_modTile]
      cases s.tile? i t with
      | none => rfl
      | some y => simp only [Option.map_some, hf]
    · simp only [State.byteAt, tile?_modTile_eq, if_neg h]
  | hbm p => rfl
  | host p => rfl
  | remote k v => rfl

/-- The bytes of a state are those of its instances, HBM and host memory. -/
theorem byteAt_congr {s s' : State} (hinsts : s'.insts = s.insts) (hhbm : s'.hbm = s.hbm) (hhost : s'.host = s.host) (j : Nat)
    (l : Loc) : s'.byteAt j l = s.byteAt j l := by
  cases l <;> simp only [State.byteAt, State.tile?, State.inst?, hinsts, hhbm, hhost]

/-- The counters of a context that an access at HBM adds to lie outside the instances and the memories. -/
theorem hbmBytes_eq (s : State) (tag : Byte) (write : Bool) (l : Loc) (n : Nat) :
    ∃ f, s.hbmBytes tag write l n = s.modCtx tag f := by
  have hid : s.modCtx tag id = s := by simp [State.modCtx]
  cases l with
  | hbm p => exact ⟨_, rfl⟩
  | slice t o => exact ⟨id, hid.symm⟩
  | host p => exact ⟨id, hid.symm⟩
  | remote k v => exact ⟨id, hid.symm⟩

@[simp] theorem insts_hbmBytes (s : State) (tag : Byte) (write : Bool) (l : Loc) (n : Nat) :
    (s.hbmBytes tag write l n).insts = s.insts := by
  obtain ⟨f, hf⟩ := hbmBytes_eq s tag write l n
  rw [hf]; rfl

@[simp] theorem copy_hbmBytes (s : State) (tag : Byte) (write : Bool) (l : Loc) (n : Nat) :
    (s.hbmBytes tag write l n).copy = s.copy := by
  obtain ⟨f, hf⟩ := hbmBytes_eq s tag write l n
  rw [hf]; rfl

@[simp] theorem tile?_hbmBytes (s : State) (tag : Byte) (write : Bool) (l : Loc) (n i t : Nat) :
    (s.hbmBytes tag write l n).tile? i t = s.tile? i t := by
  simp only [State.tile?, State.inst?, insts_hbmBytes]

@[simp] theorem byteAt_hbmBytes (s : State) (tag : Byte) (write : Bool) (l : Loc) (n j : Nat) (k : Loc) :
    (s.hbmBytes tag write l n).byteAt j k = s.byteAt j k := by
  obtain ⟨f, hf⟩ := hbmBytes_eq s tag write l n
  rw [hf]
  exact byteAt_congr rfl rfl rfl j k

/-! ### A write at a home -/

/-- In the second state the bytes from a location on are those given, and every other byte that the instance reads is as in the first. -/
def Holds (s s' : State) (i : Nat) (l : Loc) (bs : List Byte) : Prop :=
  (∀ j v, bs[j]? = some v → s'.byteAt i (l.plus j) = v) ∧
    ∀ k : Loc, (∀ j < bs.length, k ≠ l.plus j) → s'.byteAt i k = s.byteAt i k

theorem Holds.congr {s s' s'' : State} {i : Nat} {l : Loc} {bs : List Byte} (h : Holds s s' i l bs)
    (hs : ∀ k, s''.byteAt i k = s'.byteAt i k) : Holds s s'' i l bs :=
  ⟨fun j v hv => (hs _).trans (h.1 j v hv), fun k hk => (hs k).trans (h.2 k hk)⟩

theorem Holds.numberAt {s s' : State} {i : Nat} {l : Loc} {bs : List Byte} (h : Holds s s' i l bs) :
    s'.numberAt i l bs.length = ofBytes bs := by
  have hbytes : (List.range bs.length).map (fun k => s'.byteAt i (l.plus k)) = bs := by
    refine List.ext_getElem? fun k => ?_
    by_cases hk : k < bs.length
    · have := h.1 k bs[k] (List.getElem?_eq_getElem hk)
      simp [hk, this]
    · simp [hk]
  rw [State.numberAt, hbytes]

/-- What a write does to the memory that holds the byte at an address. -/
theorem get_write_eq {m : Mem} (hm : m.wf = true) (a : Nat) (bs : List Byte) :
    (∀ j v, bs[j]? = some v → (m.write a bs).get (a + j) = v) ∧
      ∀ b, (∀ j < bs.length, b ≠ a + j) → (m.write a bs).get b = m.get b := by
  refine ⟨fun j v hv => ?_, fun b hb => ?_⟩
  · obtain ⟨hj, rfl⟩ := List.getElem?_eq_some_iff.mp hv
    exact get_write m a bs hm j hj
  · refine get_write_of_ne m a bs b hm ?_
    by_contra hin
    exact hb (b - a) (by omega) (by omega)

/-- The slice of an instance's tile is in canonical form where every memory is. -/
theorem slice_wf {s : State} (hc : s.canonical = true) {i k : Nat} {y : Tile} (hy : s.tile? i k = some y) : y.slice.wf = true := by
  obtain ⟨x, hx, hk⟩ := Option.bind_eq_some_iff.mp hy
  obtain ⟨-, -, hinsts, -⟩ := s.canonical_iff.mp hc
  exact (x.canonical_iff.mp (hinsts x (List.mem_of_getElem? hx))).1 y (List.mem_of_getElem? hk)

theorem holds_writeLoc {s : State} {i : Nat} {l : Loc} (hc : s.canonical = true) (hl : s.homeHere i l) (bs : List Byte) :
    Holds s (s.writeLoc i l bs) i l bs := by
  obtain ⟨hhbm, hhost, -⟩ := s.canonical_iff.mp hc
  cases l with
  | remote k v => exact hl.elim
  | hbm p =>
    obtain ⟨hin, hout⟩ := get_write_eq hhbm p bs
    refine ⟨hin, fun k hk => ?_⟩
    cases k with
    | hbm q => exact hout q fun j hj hq => hk j hj (congrArg Loc.hbm hq)
    | slice t o => rfl
    | host q => rfl
    | remote k v => rfl
  | host p =>
    obtain ⟨hin, hout⟩ := get_write_eq hhost p bs
    refine ⟨hin, fun k hk => ?_⟩
    cases k with
    | host q => exact hout q fun j hj hq => hk j hj (congrArg Loc.host hq)
    | slice t o => rfl
    | hbm q => rfl
    | remote k v => rfl
  | slice t o =>
    obtain ⟨y, hy⟩ := Option.isSome_iff_exists.mp hl
    obtain ⟨hin, hout⟩ := get_write_eq (slice_wf hc hy) o bs
    have hsame : (s.writeLoc i (.slice t o) bs).tile? i t = some (y.writeSlice o bs) := by
      rw [State.writeLoc, State.tile?_modTile, hy, Option.map_some]
    refine ⟨fun j v hv => ?_, fun k hk => ?_⟩
    · simp only [Loc.plus, State.byteAt, hsame]
      exact hin j v hv
    · cases k with
      | slice u q =>
        by_cases hu : t = u
        · subst hu
          simp only [State.byteAt, hsame, hy]
          exact hout q fun j hj hq => hk j hj (congrArg (Loc.slice t) hq)
        · simp only [State.byteAt, State.writeLoc, s.tile?_modTile_of_ne i t i u _ (.inr hu)]
      | hbm q => rfl
      | host q => rfl
      | remote k v => rfl

/-- A read at a home gives the bytes that stand there. -/
theorem readLoc_eq (s : State) (i : Nat) (l : Loc) (n : Nat) : s.readLoc i l n = (List.range n).map fun k => s.byteAt i (l.plus k) := by
  cases l with
  | slice t o =>
    simp only [State.readLoc, State.byteAt, Loc.plus]
    cases s.tile? i t with
    | none => simp
    | some y => exact read_eq y.slice o n
  | hbm p => exact read_eq s.hbm p n
  | host p => exact read_eq s.host p n
  | remote k v => simp [State.readLoc, State.byteAt, Loc.plus]

end Sys2Proof.Homes
end

section
/-! The checks of an access, in their order (R136). -/

open Sys2Proof.Machine

namespace Sys2Proof.Homes

section
variable {s : State} {i : Nat} {x : Inst} {r : AccReq} {va : W64}

theorem check_of_untranslated (hx : s.insts[i]? = some x) (hva : 2 ^ 55 ≤ va.toNat) :
    s.check i r va = .fault cTranslation (some (0, 0, false, 1)) := by
  have hhigh : fld va 55 9 ≠ 0 := fun h => absurd ((Firing.bitsAt_top_eq_zero va rfl).mp h) (by omega)
  simp [State.check, State.inst?, hx, hhigh]

theorem fld_high_eq_zero (hva : va.toNat < 2 ^ 55) : fld va 55 9 = 0 := (Firing.bitsAt_top_eq_zero va rfl).mpr hva

theorem check_of_misaligned (hx : s.insts[i]? = some x) (hva : va.toNat < 2 ^ 55) (hn : va.toNat % r.size ≠ 0) :
    s.check i r va = .fault cMisaligned none := by
  simp [State.check, State.inst?, hx, fld_high_eq_zero hva, hn]

/-! ### Paged VAs -/

theorem getLsbD_window_of_paged (hva : va.toNat < 2 ^ 54) : va.getLsbD 54 = false := by
  rw [BitVec.getLsbD]
  exact Nat.testBit_lt_two_pow hva

section
variable (hx : s.insts[i]? = some x) (hva : va.toNat < 2 ^ 54) (hn : va.toNat % r.size = 0)
include hx hva hn

theorem check_of_slice_only (hs : r.sliceOnly = true) : s.check i r va = .fault cPermission none := by
  simp [State.check, State.inst?, hx, fld_high_eq_zero (Nat.lt_trans hva (by norm_num)), hn, getLsbD_window_of_paged hva, hs,
    -BitVec.getLsbD_eq_getElem]

variable {c : Context} (hs : r.sliceOnly = false) (hc : s.ctx? x.tag = some c)
include hs hc

theorem check_of_host_atomic {h : Nat} (ht : s.translate c r.kind va = .loc (.host h)) (hk : r.kind = .atomic)
    (hok : r.hostOk = false) : s.check i r va = s.hostRefusal c va := by
  rw [hk] at ht
  simp [State.check, State.inst?, hx, fld_high_eq_zero (Nat.lt_trans hva (by norm_num)), hn, getLsbD_window_of_paged hva, hs, hc,
    hk, ht, hok, -BitVec.getLsbD_eq_getElem]

theorem check_of_translate (h : (∀ h, s.translate c r.kind va ≠ .loc (.host h)) ∨ r.kind ≠ .atomic ∨ r.hostOk = true) :
    s.check i r va = s.translate c r.kind va := by
  have hallowed : ∀ p, s.translate c r.kind va = .loc (.host p) → (r.kind == .atomic && !r.hostOk) = false := fun p hp => by
    obtain hno | hk | hok := h
    · exact absurd hp (hno p)
    · simp [hk]
    · simp [hok]
  simp only [State.check, State.inst?, hx, fld_high_eq_zero (Nat.lt_trans hva (by norm_num)), hn, getLsbD_window_of_paged hva, hs, hc,
    bne_self_eq_false, Bool.false_eq_true, if_false]
  split
  case h_1 p hp => rw [hallowed p hp, hp, if_neg Bool.false_ne_true]
  case h_2 => rfl

end

/-! ### The slice window -/

/-- The fields of a VA of the slice window: bit 54, the tile, and the offset. -/
theorem window_fields {t o : Nat} (hva : va.toNat = 2 ^ 54 + t * 2 ^ 21 + o) (ho : o < 2 ^ 21) (ht : t < 2 ^ 33) :
    va.toNat < 2 ^ 55 ∧ va.getLsbD 54 = true ∧ fld va 21 33 = t ∧ fld va 0 21 = o := by
  have hbit : va.toNat / 2 ^ 54 = 1 := by omega
  refine ⟨by omega, ?_, ?_, ?_⟩
  · rw [BitVec.getLsbD, Nat.testBit_eq_decide_div_mod_eq, hbit]
    rfl
  · rw [fld]; omega
  · rw [fld]; omega

variable {t o : Nat} (hx : s.insts[i]? = some x) (hva : va.toNat = 2 ^ 54 + t * 2 ^ 21 + o) (ho : o < 2 ^ 21) (ht : t < 2 ^ 33)
  (hn : va.toNat % r.size = 0)
include hx hva ho ht hn

theorem check_of_slice_range (h : x.tiles.length ≤ t ∨ 0x128000 ≤ o) : s.check i r va = .fault cSliceRange none := by
  obtain ⟨hlow, hbit, htile, hoff⟩ := window_fields hva ho ht
  simp [State.check, State.inst?, hx, fld_high_eq_zero hlow, hn, hbit, htile, hoff, sliceSize, h]

/-- Of an offset in the slice of a tile of the instance, the owner tag of its bank decides. -/
theorem check_of_slice {y : Tile} (hy : x.tiles[t]? = some y) (hsize : o < 0x128000) :
    s.check i r va = if ((s.physAt y.phys).banks[bankOf y.coarse o]?).getD 0 = x.tag then .loc (.slice t o) else .fault cOwner none := by
  obtain ⟨hlow, hbit, htile, hoff⟩ := window_fields hva ho ht
  have hcount : ¬x.tiles.length ≤ t := not_le.mpr (List.getElem?_eq_some_iff.mp hy).1
  simp [State.check, State.inst?, hx, fld_high_eq_zero hlow, hn, hbit, htile, hoff, sliceSize, hcount, hsize, hy, vget, ite_not]

end

/-- Settles O7: of each access the first check that it fails decides, and an access that fails none has its location. -/
theorem addressChecks : Obligations.AddressChecks := by
  unfold Obligations.AddressChecks
  intro s i x k n sliceOnly hostOk va hx hn r
  refine ⟨fun hva => ⟨_, check_of_untranslated hx hva⟩, fun hva hal => check_of_misaligned hx hva hal, fun hva hal hs => ?_, fun hva hal hs c hc => ?_,
    fun t o hva ho ht hal => ?_⟩
  · exact check_of_slice_only hx hva hal hs
  · exact ⟨fun h ht hk hok => ⟨_, check_of_host_atomic hx hva hal hs hc ht hk hok⟩, fun h => check_of_translate hx hva hal hs hc h⟩
  · refine ⟨check_of_slice_range hx hva ho ht hal, fun y hy hsize => ?_⟩
    rw [check_of_slice hx hva ho ht hal hy hsize]
    exact ⟨fun hother => if_neg hother, fun hown => if_pos hown⟩

end Sys2Proof.Homes
end

section
/-! Committed stores at their homes (R142, R144, R153), and those that the host refuses (R352, R355). -/

open Sys2Proof.Machine

namespace Sys2Proof.Homes

/-! ### Full/empty bits (R142) -/

theorem mem_insertNat (a b : Nat) (l : List Nat) : a ∈ insertNat b l ↔ a = b ∨ a ∈ l := by
  induction l with
  | nil => simp [insertNat]
  | cons c l ih =>
    rw [insertNat]
    split
    · simp
    · split
      · simp_all
      · simp only [List.mem_cons, ih]
        tauto

theorem isFull_setFull_true (t : Tile) (g : Nat) : (t.setFull g true).isFull g = true :=
  List.contains_iff_mem.mpr ((mem_insertNat g g t.full).mpr (.inl rfl))

theorem isFull_setFull_false (t : Tile) (g : Nat) : (t.setFull g false).isFull g = false := by
  simp [Tile.setFull, Tile.wake, Tile.isFull]

/-! ### A store performed -/

@[simp] theorem isSome_tile?_modTile (s : State) (i t j k : Nat) (f : Tile → Tile) :
    ((s.modTile i t f).tile? j k).isSome = (s.tile? j k).isSome := by
  rw [tile?_modTile_eq]
  split <;> simp

@[simp] theorem isSome_tile?_writeLoc (s : State) (i j k : Nat) (l : Loc) (bs : List Byte) :
    ((s.writeLoc i l bs).tile? j k).isSome = (s.tile? j k).isSome := by
  cases l with
  | slice t o => exact isSome_tile?_modTile s i t j k _
  | hbm p => rfl
  | host p => rfl
  | remote k v => rfl

section
variable (s : State) (i ti : Nat) (tag : Byte) (p : PStore)

/-- What changes beside the bytes when a store is performed: the block cache of its tile, and a full/empty bit. -/
theorem performStore_of_bytes {l : Loc} {bs : List Byte} (hb : p.bytes = some (l, bs)) (k : Loc) :
    p.loc = l ∧ (s.performStore i ti tag p).byteAt i k = (s.writeLoc i l bs).byteAt i k := by
  cases p with
  | plain m n d va ipa =>
    obtain ⟨rfl, rfl⟩ := Prod.mk.inj (Option.some.inj hb)
    refine ⟨rfl, ?_⟩
    rw [State.performStore, byteAt_modTile, byteAt_hbmBytes]
    exact fun _ => rfl
  | full m n d =>
    obtain ⟨rfl, rfl⟩ := Prod.mk.inj (Option.some.inj hb)
    refine ⟨rfl, ?_⟩
    have hkept : ((s.writeLoc i m (bytesOf n d)).modTile i ti fun t => t.unkeep m n).byteAt i k = (s.writeLoc i m (bytesOf n d)).byteAt i k := by
      rw [byteAt_modTile]
      exact fun _ => rfl
    cases m with
    | slice t o =>
      rw [State.performStore, byteAt_modTile, hkept]
      exact fun _ => rfl
    | hbm q => exact hkept
    | host q => exact hkept
    | remote q v => exact hkept
  | empty m => cases hb

theorem holds_performStore {l : Loc} {bs : List Byte} (hc : s.canonical = true) (hl : s.homeHere i p.loc)
    (hb : p.bytes = some (l, bs)) : Holds s (s.performStore i ti tag p) i l bs := by
  obtain ⟨rfl, -⟩ := performStore_of_bytes s i ti tag p hb (.hbm 0)
  exact (holds_writeLoc hc hl bs).congr fun k => (performStore_of_bytes s i ti tag p hb k).2

theorem byteAt_performStore_of_empty (hb : p.bytes = none) (k : Loc) :
    (s.performStore i ti tag p).byteAt i k = s.byteAt i k := by
  cases p with
  | plain m n d va ipa => cases hb
  | full m n d => cases hb
  | empty m =>
    cases m with
    | slice t o =>
      rw [State.performStore, byteAt_modTile]
      exact fun _ => rfl
    | hbm q => exact byteAt_modTile (f := id) (fun _ => rfl) s i ti i k
    | host q => exact byteAt_modTile (f := id) (fun _ => rfl) s i ti i k
    | remote q v => exact byteAt_modTile (f := id) (fun _ => rfl) s i ti i k

@[simp] theorem isSome_tile?_performStore (j k : Nat) :
    ((s.performStore i ti tag p).tile? j k).isSome = (s.tile? j k).isSome := by
  cases p with
  | plain m n d va ipa => simp [State.performStore]
  | full m n d => cases m <;> simp [State.performStore]
  | empty m => cases m <;> simp [State.performStore]

/-- The full/empty bit that a store gives to its granule. -/
theorem isFull_performStore {k o : Nat} {y : Tile} (hp : p.loc = .slice k o)
    (hy : (s.performStore i ti tag p).tile? i k = some y) :
    ((∃ l n d, p = .full l n d) → y.isFull (o / 64) = true) ∧ (p = .empty p.loc → y.isFull (o / 64) = false) := by
  cases p with
  | plain m n d va ipa => exact ⟨fun ⟨_, _, _, h⟩ => (nomatch h), nofun⟩
  | full m n d =>
    obtain rfl : m = .slice k o := hp
    refine ⟨fun _ => ?_, nofun⟩
    rw [State.performStore, State.tile?_modTile, Option.map_eq_some_iff] at hy
    obtain ⟨u, -, rfl⟩ := hy
    exact isFull_setFull_true u _
  | empty m =>
    obtain rfl : m = .slice k o := hp
    refine ⟨fun ⟨_, _, _, h⟩ => (nomatch h), fun _ => ?_⟩
    rw [State.performStore, State.tile?_modTile, Option.map_eq_some_iff] at hy
    obtain ⟨u, -, rfl⟩ := hy
    exact isFull_setFull_false u _

end

/-! ### The stores left behind it -/

/-- Nothing is sent to a peer for a tile whose stores are all to this package or its host. -/
theorem sendHead_of_local {s : State} {i ti : Nat} (h : ∀ t, s.tile? i ti = some t → ∀ q ∈ t.sbuf, q.loc.isRemote = false) :
    s.sendHead i ti = s := by
  rw [State.sendHead, State.sendHeads]
  split
  case h_2 => rfl
  case h_1 x t hx ht =>
    split
    case h_2 => rfl
    case h_1 k v n d va ipa rest hq =>
      have := h t ht (.plain (.remote k v) n d va ipa) (by rw [hq]; exact List.mem_cons_self)
      cases this

theorem setSbuf_of_local (s : State) (i ti : Nat) {l : List PStore} (h : ∀ q ∈ l, q.loc.isRemote = false) :
    s.setSbuf i ti l = s.modTile i ti fun t => { t with sbuf := l } := by
  refine sendHead_of_local fun t ht => ?_
  rw [State.tile?_modTile, Option.map_eq_some_iff] at ht
  obtain ⟨u, -, rfl⟩ := ht
  exact h

/-- The stores of a tile that wait are no bytes of a memory. -/
theorem byteAt_setSbuf (s : State) (i ti j : Nat) (l : List PStore) (k : Loc) :
    (s.modTile i ti fun t => { t with sbuf := l }).byteAt j k = s.byteAt j k := by
  rw [byteAt_modTile]
  exact fun _ => rfl

/-! ### The home serves a tile -/

theorem serveStore_of {s : State} {x : Inst} {t : Tile} {p : PStore} {rest : List PStore} {here : Loc → Bool}
    (hx : s.insts[s.focus.inst]? = some x) (ht : x.tiles[s.focus.tile]? = some t) (hsb : t.sbuf = p :: rest)
    (hhere : here p.loc = true) (hres : s.reservedElsewhere s.focus.inst s.focus.tile p.loc p.extent = false) :
    s.serveStore here =
      .next ((s.performStore s.focus.inst s.focus.tile x.tag p).setSbuf s.focus.inst s.focus.tile rest) := by
  rw [State.serveStore, s.onTile_of x t _ hx ht]
  simp [hsb, hhere, hres]

/-- Each home serves the stores of its own memory: a slice, HBM, or the host's. -/
theorem exec_eq_performStore {s : State} {x : Inst} {t : Tile} {p : PStore} {rest : List PStore} {e : Instr}
    (hx : s.insts[s.focus.inst]? = some x) (ht : x.tiles[s.focus.tile]? = some t) (hsb : t.sbuf = p :: rest)
    (hres : s.reservedElsewhere s.focus.inst s.focus.tile p.loc p.extent = false)
    (he : (∃ k o, p.loc = .slice k o ∧ e = .sliceBankServe) ∨ (∃ o, p.loc = .hbm o ∧ e = .hbmAccessPerformed)
      ∨ (∃ o, p.loc = .host o ∧ e = .pcieCompletion true)) :
    exec e s = .next ((s.performStore s.focus.inst s.focus.tile x.tag p).setSbuf s.focus.inst s.focus.tile rest) := by
  obtain ⟨k, o, hp, rfl⟩ | ⟨o, hp, rfl⟩ | ⟨o, hp, rfl⟩ := he
  · show execSliceBankServe s = _
    exact serveStore_of hx ht hsb (by rw [hp]) hres
  · show execHbmAccessPerformed s = _
    exact serveStore_of hx ht hsb (by rw [hp]) hres
  · show execPcieCompletion true s = _
    rw [execPcieCompletion, if_pos rfl]
    exact serveStore_of hx ht hsb (by rw [hp]) hres

/-! ### A refusal of the host -/

/-- A fault with engine 0 becomes pending at a tile that has room for it. -/
theorem pendFault_engine0 {s : State} {i ti : Nat} {t : Tile} {f : PFault} (ht : s.tile? i ti = some t)
    (hfin : t.seq.finished = false) (hroom : t.seq.pend.eng0.length < 16) (hf : f.engine = 0) :
    s.pendFault i ti none f = s.modTile i ti fun t =>
      { t with seq := { t.seq with pend := { t.seq.pend with eng0 := t.seq.pend.eng0 ++ [f] } } } := by
  simp [State.pendFault, ht, hfin, hf, hroom]

theorem exec_pcieCompletion_refused {s : State} {x : Inst} {t : Tile} {o n : Nat} {d va ipa : W64} {rest : List PStore}
    (hx : s.insts[s.focus.inst]? = some x) (ht : x.tiles[s.focus.tile]? = some t)
    (hsb : t.sbuf = .plain (.host o) n d va ipa :: rest) (hlocal : ∀ q ∈ rest, q.loc.isRemote = false)
    (hfin : t.seq.finished = false) (hroom : t.seq.pend.eng0.length < 16) :
    exec (.pcieCompletion false) s =
      .next ((s.modTile s.focus.inst s.focus.tile fun t => { t with sbuf := rest }).modTile s.focus.inst s.focus.tile fun t =>
        { t with seq := { t.seq with pend := { t.seq.pend with eng0 := t.seq.pend.eng0 ++
          [⟨0x08, 0, accessInfo 0 true va, some (pageContent (ipa, 0, false, 2) 0x08 0 true va)⟩] } } }) := by
  have htile : (s.modTile s.focus.inst s.focus.tile fun t => { t with sbuf := rest }).tile? s.focus.inst s.focus.tile =
      some { t with sbuf := rest } := by
    rw [State.tile?_modTile, tile?_of_insts hx ht, Option.map_some]
  show execPcieCompletion false s = _
  rw [execPcieCompletion, if_neg Bool.false_ne_true, s.onTile_of x t _ hx ht]
  simp only [hsb]
  rw [setSbuf_of_local _ _ _ hlocal, pendFault_engine0 htile hfin hroom rfl, accPFault, Firing.accInfo_eq]
  rfl

/-- Settles O13: the store is written at its home and its granule's bit is set, by the lemmas on a store performed; what stays of the tile's
stores goes to no peer. A refused store leaves the tile with the fault. -/
theorem storesPerformed : Obligations.StoresPerformed := by
  unfold Obligations.StoresPerformed
  constructor
  · intro s x t p rest e hx ht hsb hlocal hl hres hc he
    have hdone : ∃ u, (s.performStore s.focus.inst s.focus.tile x.tag p).tile? s.focus.inst s.focus.tile = some u :=
      Option.isSome_iff_exists.mp (by rw [isSome_tile?_performStore, tile?_of_insts hx ht]; rfl)
    obtain ⟨u, hu⟩ := hdone
    refine ⟨_, { u with sbuf := rest }, by rw [exec_eq_performStore hx ht hsb hres he, setSbuf_of_local _ _ _ hlocal], ?_, rfl,
      fun l n d hb _ => ?_, fun hb k => ?_, fun k o y hp hy => ?_⟩
    · rw [State.tile?_modTile, hu, Option.map_some]
    · have hbytes := (holds_performStore s s.focus.inst s.focus.tile x.tag p hc hl hb).congr
        (byteAt_setSbuf _ s.focus.inst s.focus.tile s.focus.inst rest)
      have hnumber := hbytes.numberAt
      obtain ⟨-, hrest⟩ := hbytes
      rw [bytesOf, length_toBytes, ofBytes_toBytes] at hnumber
      exact ⟨hnumber, fun k hk => hrest k (by simpa [bytesOf] using hk)⟩
    · rw [byteAt_setSbuf, byteAt_performStore_of_empty _ _ _ _ _ hb]
    · rw [tile?_modTile_eq] at hy
      split at hy
      · obtain ⟨z, hz, rfl⟩ := Option.map_eq_some_iff.mp hy
        exact isFull_performStore (y := z) s s.focus.inst s.focus.tile x.tag p hp hz
      · exact isFull_performStore s s.focus.inst s.focus.tile x.tag p hp hy
  · intro s x t o n d va ipa rest hx ht hsb hlocal hfin hroom
    refine ⟨_, _, exec_pcieCompletion_refused hx ht hsb hlocal hfin hroom, ?_, rfl, rfl, rfl⟩
    rw [State.tile?_modTile, State.tile?_modTile, tile?_of_insts hx ht]
    rfl

end Sys2Proof.Homes
end

section
/-! Reservations, take lists and the wake-ups of WAITA (R140, R155, R158). -/

open Sys2Proof.Machine

namespace Sys2Proof.Homes

/-! ### Reservations (R140) -/

theorem exec_reservationRetry {s : State} {x : Inst} {t : Tile} {b : Block} (hx : s.insts[s.focus.inst]? = some x)
    (ht : x.tiles[s.focus.tile]? = some t) (hb : t.seq.block = some b) (hchecking : b.checking = true) (hperform : b.perform = none)
    (hsome : t.reserved.length ≠ b.reservations.length) :
    exec .reservationRetry s = .next (s.modFocus fun t =>
      { t with reserved := [], seq := { t.seq with block := some { b with checking := false } } }) := by
  have hretry : exec .reservationRetry s = .next (s.holdBlock s.focus.inst s.focus.tile [] false) := by
    show execReservationRetry s = _
    rw [execReservationRetry, s.onTile_of x t _ hx ht]
    simp [hb, hchecking, hperform, hsome]
  rw [hretry, State.holdBlock, State.modFocus, modTile_congr hx ht]
  simp [hb]

/-! ### Take lists (R155) -/

theorem takeHead_eq_some {g : Nat} {l rest : List Take} {k : Take} (h : takeHead g l = some (k, rest)) :
    l.find? (fun a => a.granule == g) = some k := by
  rw [takeHead] at h
  split at h
  case h_1 => cases h
  case h_2 a ha => rw [ha, (Prod.mk.inj (Option.some.inj h)).1]

/-- An entry of a take list, with the take granted where it is the entry k. -/
def granted (k a : Take) : Take := if a == k then { a with granted := some 0 } else a

theorem granule_granted (k a : Take) : (granted k a).granule = a.granule := by
  rw [granted]; split <;> rfl

theorem tile_granted (k a : Take) : (granted k a).tile = a.tile := by
  rw [granted]; split <;> rfl

/-- The head of a list stays its head when it is granted the take. -/
theorem head_map_granted {g : Nat} {l rest : List Take} {k : Take} (h : takeHead g l = some (k, rest)) :
    (takeHead g (l.map (granted k))).map (·.1) = some { k with granted := some 0 } := by
  have hfind : (l.map (granted k)).find? (fun a => a.granule == g) = some (granted k k) := by
    rw [List.find?_map, show (fun a : Take => a.granule == g) ∘ granted k = fun a => a.granule == g from
      funext fun a => by rw [Function.comp_apply, granule_granted], takeHead_eq_some h]
    rfl
  simp [takeHead, hfind, granted]

section
variable {s : State} {x : Inst} {t : Tile} (hx : s.insts[s.focus.inst]? = some x) (ht : x.tiles[s.focus.tile]? = some t)
include hx ht

theorem exec_takeListGrant {g : Nat} {k : Take} {rest : List Take} (hfull : t.isFull g = true)
    (hhead : takeHead g t.takes = some (k, rest)) (hk : k.granted = none) :
    exec (.takeListGrant g) s = .next (s.modFocus fun t => { t with takes := t.takes.map (granted k) }) := by
  show execTakeListGrant g s = _
  rw [execTakeListGrant, s.onTile_of x t _ hx ht]
  simp only [hfull, hhead, hk, Bool.not_true, Bool.false_eq_true, if_false, Option.isSome_none]
  rfl

theorem exec_takeHeadTimeout {g n : Nat} {k : Take} {rest : List Take} (hhead : takeHead g t.takes = some (k, rest))
    (hk : k.granted = some n) (hn : 64 ≤ n) :
    exec (.takeHeadTimeout g) s = .next (s.modFocus fun t => { t with takes := rest ++ [⟨g, k.tile, none⟩] }) := by
  show execTakeHeadTimeout g s = _
  rw [execTakeHeadTimeout, s.onTile_of x t _ hx ht]
  obtain ⟨gr, tile, gt⟩ := k
  obtain rfl : gt = some n := hk
  simp [hhead, hn]

end

/-! ### WAITA (R158) -/

/-- A tile changed twice. -/
theorem tile?_modTile_modTile_same {s : State} {i j : Nat} {t : Tile} (f g : Tile → Tile) (hj : s.tile? i j = some t) :
    ((s.modTile i j f).modTile i j g).tile? i j = some (g (f t)) := by
  rw [State.tile?_modTile, State.tile?_modTile, hj, Option.map_some, Option.map_some]

/-- Two tiles of an instance, each changed once. -/
theorem tile?_modTile_modTile_of_ne {s : State} {i j k : Nat} {t y : Tile} (f g : Tile → Tile) (hj : s.tile? i j = some t)
    (hk : s.tile? i k = some y) (hne : j ≠ k) :
    ((s.modTile i j f).modTile i k g).tile? i k = some (g y) ∧ ((s.modTile i j f).modTile i k g).tile? i j = some (f t) := by
  constructor
  · rw [State.tile?_modTile, s.tile?_modTile_of_ne i j i k f (.inr hne), hk, Option.map_some]
  · rw [State.tile?_modTile_of_ne _ i k i j g (.inr hne.symm), State.tile?_modTile, hj, Option.map_some]

section
variable (y : Tile) (granule ti : Nat) (woken : Bool)

theorem unwatch_g : (y.unwatch granule ti woken).g = y.g := by cases woken <;> rfl
theorem unwatch_seq : (y.unwatch granule ti woken).seq = y.seq := by cases woken <;> rfl
theorem unwatch_sem : (y.unwatch granule ti woken).sem = y.sem := by cases woken <;> rfl
theorem unwatch_slice : (y.unwatch granule ti woken).slice = y.slice := by cases woken <;> rfl

theorem wakesFor_pos_iff : 0 < y.wakesFor granule ti ↔ (⟨granule, ti⟩ : Watch) ∈ y.wakes := List.count_pos_iff

end

/-- A park has ended with a reason in a g register, and nothing else of the tile has changed. -/
structure ParkEnded (t t' : Tile) (g : BitVec 5) (r : BitVec 3) : Prop where
  register : t'.g = t.g.set g.toNat (r.setWidth 64) g.isLt
  seq : t'.seq = { t.seq with park := none }
  rest : t' = { t with g := t'.g, seq := t'.seq }

theorem endWait_of_park {t : Tile} {home o lim n : Nat} {g : BitVec 5} {w : Option (BitVec 3)}
    (hpark : t.seq.park = some (.waita home o g lim n w)) (r : BitVec 3) : ParkEnded t (t.endWait false r) g r := by
  have hend : t.endWait false r = { t.setG g (r.setWidth 64) with seq := { t.seq with park := none } } := by
    simp [Tile.endWait, hpark]
  rw [hend]
  exact ⟨rfl, rfl, rfl⟩

theorem wakeUp_of_park {y : Tile} {home o lim n : Nat} {g : BitVec 5} (hplace : y.place = .running)
    (hpark : y.seq.park = some (.waita home o g lim n none)) (houter : y.seq.outer = none) (r : BitVec 3) :
    ParkEnded y (y.wakeUp home (o / 64) r) g r := by
  rw [Tile.wakeUp, houter, if_neg (by simp [Park.waitsAt]), if_pos (by simp [Park.waitsAt, hpark, hplace])]
  exact endWait_of_park hpark r

section
variable {s : State} {x : Inst} {t : Tile} (hx : s.insts[s.focus.inst]? = some x) (ht : x.tiles[s.focus.tile]? = some t)
include hx ht

theorem exec_waitaWake {w : Watch} {rest : List Watch} (hw : t.wakes = w :: rest) :
    exec .waitaWake s = .next ((s.modTile s.focus.inst s.focus.tile fun t => { t with wakes := rest }).modTile s.focus.inst w.tile
      fun y => y.wakeUp s.focus.tile w.granule 2) := by
  show execWaitaWake s = _
  rw [execWaitaWake, s.onTile_of x t _ hx ht]
  simp only [hw]
  rfl

/-- A wake-up ends the park of the tile that waits at its granule. -/
theorem waitaWake_ends_park {w : Watch} {rest : List Watch} {y : Tile} {o lim n : Nat} {g : BitVec 5} (hw : t.wakes = w :: rest)
    (hy : x.tiles[w.tile]? = some y) (hplace : y.place = .running)
    (hpark : y.seq.park = some (.waita s.focus.tile o g lim n none)) (houter : y.seq.outer = none) (ho : o / 64 = w.granule) :
    ∃ s' y' t', exec .waitaWake s = .next s' ∧ s'.tile? s.focus.inst w.tile = some y' ∧
      s'.tile? s.focus.inst s.focus.tile = some t' ∧ t'.wakes = rest ∧ y'.g = y.g.set g.toNat 2 g.isLt ∧
      y'.seq = { y.seq with park := none } ∧ y'.sem = y.sem ∧ y'.slice = y.slice := by
  obtain ⟨granule, k⟩ := w
  obtain rfl : o / 64 = granule := ho
  by_cases hsame : k = s.focus.tile
  · subst hsame
    obtain rfl : t = y := Option.some.inj (ht.symm.trans hy)
    have hboth := tile?_modTile_modTile_same (fun t => { t with wakes := rest }) (fun y => y.wakeUp s.focus.tile (o / 64) 2)
      (tile?_of_insts hx ht)
    obtain ⟨hreg, hseq, hrest⟩ := wakeUp_of_park (y := { t with wakes := rest }) hplace hpark houter 2
    exact ⟨_, _, _, exec_waitaWake hx ht hw, hboth, hboth, by rw [hrest], hreg, hseq, by rw [hrest], by rw [hrest]⟩
  · obtain ⟨hwaiting, hhome⟩ := tile?_modTile_modTile_of_ne (fun t => { t with wakes := rest })
      (fun y => y.wakeUp s.focus.tile (o / 64) 2) (tile?_of_insts hx ht) (tile?_of_insts hx hy) (Ne.symm hsame)
    obtain ⟨hreg, hseq, hrest⟩ := wakeUp_of_park hplace hpark houter 2
    exact ⟨_, _, _, exec_waitaWake hx ht hw, hwaiting, hhome, rfl, hreg, hseq, by rw [hrest], by rw [hrest]⟩

theorem exec_waitaTimeout {home o lim n : Nat} {g : BitVec 5} {y : Tile} {due : Bool}
    (hpark : t.seq.park = some (.waita home o g lim n none)) (houter : t.seq.outer = none) (hlim : lim ≠ 0) (hn : lim ≤ n)
    (hplace : t.place = .running) (hy : x.tiles[home]? = some y) (hdue : decide (0 < y.wakesFor (o / 64) s.focus.tile) = due) :
    exec .waitaTimeout s = .next ((s.modTile s.focus.inst home fun y => y.unwatch (o / 64) s.focus.tile due).modTile
      s.focus.inst s.focus.tile fun t => t.endWait false (if due then 2 else 3)) := by
  have hexpired : t.seq.expired = some (false, home, o / 64) := by
    simp [Seq.expired, Park.expired, houter, hpark, hlim, hn]
  have hfirst : (!false && Park.waitsAt none home (o / 64)) = false := rfl
  show execWaitaTimeout s = _
  rw [execWaitaTimeout, s.onTile_of x t _ hx ht]
  simp only [hexpired, hplace, tile?_of_insts hx hy, houter, hfirst, Bool.false_eq_true, if_false, hdue, ne_eq, not_true_eq_false]
  rfl

/-- A limit that has run out ends the park, and with it the watch or the wake-up on its way. -/
theorem waitaTimeout_ends_park {home o lim n : Nat} {g : BitVec 5} {y : Tile} {due : Bool}
    (hpark : t.seq.park = some (.waita home o g lim n none)) (houter : t.seq.outer = none) (hlim : lim ≠ 0) (hn : lim ≤ n)
    (hplace : t.place = .running) (hy : x.tiles[home]? = some y) (hdue : decide (0 < y.wakesFor (o / 64) s.focus.tile) = due) :
    ∃ s' t' y', exec .waitaTimeout s = .next s' ∧ s'.tile? s.focus.inst s.focus.tile = some t' ∧
      s'.tile? s.focus.inst home = some y' ∧
      t'.g = t.g.set g.toNat ((if due then (2 : BitVec 3) else 3).setWidth 64) g.isLt ∧
      t'.seq = { t.seq with park := none } ∧ t'.sem = t.sem ∧ t'.slice = t.slice ∧
      y'.wakes = (y.unwatch (o / 64) s.focus.tile due).wakes ∧ y'.watches = (y.unwatch (o / 64) s.focus.tile due).watches := by
  have hexec := exec_waitaTimeout hx ht hpark houter hlim hn hplace hy hdue
  by_cases hsame : home = s.focus.tile
  · subst hsame
    obtain rfl : t = y := Option.some.inj (ht.symm.trans hy)
    have hboth := tile?_modTile_modTile_same (fun y => y.unwatch (o / 64) s.focus.tile due)
      (fun t => t.endWait false (if due then 2 else 3)) (tile?_of_insts hx ht)
    obtain ⟨hreg, hseq, hrest⟩ := endWait_of_park (t := t.unwatch (o / 64) s.focus.tile due) (by rw [unwatch_seq, hpark])
      (if due then 2 else 3)
    rw [unwatch_g] at hreg
    rw [unwatch_seq] at hseq
    exact ⟨_, _, _, hexec, hboth, hboth, hreg, hseq, by rw [hrest, unwatch_sem], by rw [hrest, unwatch_slice], by rw [hrest],
      by rw [hrest]⟩
  · obtain ⟨hparked, hhome⟩ := tile?_modTile_modTile_of_ne (fun y => y.unwatch (o / 64) s.focus.tile due)
      (fun t => t.endWait false (if due then 2 else 3)) (tile?_of_insts hx hy) (tile?_of_insts hx ht) hsame
    obtain ⟨hreg, hseq, hrest⟩ := endWait_of_park hpark (if due then 2 else 3)
    exact ⟨_, _, _, hexec, hparked, hhome, hreg, hseq, by rw [hrest], by rw [hrest], rfl, rfl⟩

end

end Sys2Proof.Homes
end

section
/-! The owner of a bank (R141): its change, and the bank given up by the tile that stands on it. -/

open Sys2Proof.Machine

namespace Sys2Proof.Homes

/-! ### Values under keys, and physical tiles -/

section
variable {κ α : Type} [BEq κ]

theorem lookupKey_cons (q : κ) (c : κ × α) (l : List (κ × α)) :
    lookupKey q (c :: l) = if c.1 == q then some c.2 else lookupKey q l := by
  rw [lookupKey, List.find?_cons]
  cases c.1 == q <;> rfl

theorem lookupKey_append (q : κ) (l r : List (κ × α)) : lookupKey q (l ++ r) = (lookupKey q l).or (lookupKey q r) := by
  simp only [lookupKey, List.find?_append, Option.map_or]

variable [LawfulBEq κ]

theorem lookupKey_replace (p q : κ) (a : α) (l : List (κ × α)) :
    lookupKey q (l.map fun c => if c.1 == p then (p, a) else c) =
      if p == q && l.any (·.1 == p) then some a else lookupKey q l := by
  induction l with
  | nil => simp [lookupKey]
  | cons c l ih =>
    rw [List.map_cons, lookupKey_cons, lookupKey_cons, ih, List.any_cons]
    cases hc : c.1 == p with
    | true =>
      obtain rfl : c.1 = p := eq_of_beq hc
      cases hq : c.1 == q <;> simp [hq]
    | false =>
      cases hq : p == q with
      | false => simp
      | true =>
        obtain rfl : p = q := eq_of_beq hq
        rw [hc, Bool.false_or, if_neg Bool.false_ne_true, if_neg Bool.false_ne_true, hc, if_neg Bool.false_ne_true]

theorem lookupKey_putKey (p q : κ) (a : α) (l : List (κ × α)) :
    lookupKey q (putKey p a l) = if p == q then some a else lookupKey q l := by
  rw [putKey]
  split
  case isTrue h => rw [lookupKey_replace, h, Bool.and_true]
  case isFalse h =>
    have hnone : p = q → lookupKey q l = none := by
      rintro rfl
      rw [lookupKey, Option.map_eq_none_iff, List.find?_eq_none]
      exact fun c hc hp => h (List.any_eq_true.mpr ⟨c, hc, hp⟩)
    rw [lookupKey_append, lookupKey_cons]
    by_cases hq : p = q
    · simp [hq, hnone hq]
    · simp [hq, lookupKey]

end

theorem physAt_modPhys (s : State) (p q : Nat) (f : Phys → Phys) :
    (s.modPhys p f).physAt q = if p = q then f (s.physAt p) else s.physAt q := by
  simp only [State.physAt, State.modPhys, lookupKey_putKey, beq_iff_eq]
  split <;> rfl

theorem getElem_vmod {α : Type} {n k : Nat} (v : Vector α n) (hk : k < n) (f : α → α) : (vmod v k f)[k] = f v[k] := by
  simp [vmod, hk]

/-- A bank that has its new owner: it is open, and the state is as it was elsewhere. -/
def retag (p : Nat) (k : BitVec 4) (tag : Byte) (s : State) : State :=
  s.modPhys p fun p => { p with banks := vmod p.banks k.toNat fun _ => tag, closed := p.closed.filter (· != k.toNat) }

theorem physAt_retag (p : Nat) (k : BitVec 4) (tag : Byte) (s : State) :
    ((retag p k tag s).physAt p).banks[k.toNat]'k.isLt = tag ∧ k.toNat ∉ ((retag p k tag s).physAt p).closed ∧
      ∀ q, q ≠ p → (retag p k tag s).physAt q = s.physAt q := by
  refine ⟨?_, ?_, fun q hq => ?_⟩
  · simp only [retag, physAt_modPhys, if_true]
    exact getElem_vmod _ k.isLt _
  · simp [retag, physAt_modPhys]
  · rw [retag, physAt_modPhys, if_neg (Ne.symm hq)]

/-! ### The tile that stands on a bank -/

/-- A tile that stands on a physical tile: it is not saved, and its instance is not retired. -/
def stands (p : Nat) (x : Inst) (y : Tile) : Bool := y.phys == p && y.place != .saved && x.st != .retired

/-- The first tile that stands on a physical tile, with its instance. -/
def standing (p : Nat) (s : State) : Option (Nat × Nat) :=
  s.insts.zipIdx.findSome? fun (x, i) => (x.tiles.findIdx? (stands p x)).map fun t => (i, t)

theorem exec_bankReassign_of_free {s : State} {p : Nat} {k : BitVec 4} {tag : Byte} (h : standing p s = none) :
    exec (.bankReassign p k tag) s = .next (retag p k tag s) := by
  show execBankReassign p k tag s = _
  unfold standing stands at h
  simp only [execBankReassign, h]
  rfl

theorem exec_bankReassign_of_standing {s : State} {p i j : Nat} {k : BitVec 4} {tag : Byte} (h : standing p s = some (i, j)) :
    exec (.bankReassign p k tag) s = s.giveUp i j p [k.toNat] (retag p k tag) := by
  show execBankReassign p k tag s = _
  unfold standing stands at h
  simp only [execBankReassign, h]
  rfl

theorem findIdx?_stands_eq_none {p : Nat} {x : Inst}
    (h : x.st ≠ .retired → ∀ y ∈ x.tiles, y.phys = p → y.place = .saved) : x.tiles.findIdx? (stands p x) = none := by
  rw [List.findIdx?_eq_none_iff]
  intro y hy
  by_contra hstands
  simp only [stands, Bool.and_eq_true, beq_iff_eq, bne_iff_ne, Bool.not_eq_false] at hstands
  obtain ⟨⟨hphys, hplace⟩, hst⟩ := hstands
  exact hplace (h hst y hy hphys)

theorem standing_eq_none {p : Nat} {s : State}
    (h : ∀ x ∈ s.insts, x.st ≠ .retired → ∀ y ∈ x.tiles, y.phys = p → y.place = .saved) : standing p s = none := by
  rw [standing, List.findSome?_eq_none_iff]
  rintro ⟨x, i⟩ hx
  obtain ⟨-, -, hmem⟩ := List.mem_zipIdx hx
  simp only [findIdx?_stands_eq_none (h x (hmem ▸ List.getElem_mem _)), Option.map_none]

theorem standing_eq_some {p i j : Nat} {s : State} {x : Inst} {y : Tile} (hx : s.insts[i]? = some x) (hy : x.tiles[j]? = some y)
    (hst : x.st ≠ .retired) (hphys : y.phys = p) (hplace : y.place ≠ .saved)
    (hinsts : ∀ a < i, ∀ z, s.insts[a]? = some z → z.st ≠ .retired → ∀ u ∈ z.tiles, u.phys = p → u.place = .saved)
    (htiles : ∀ a < j, ∀ u, x.tiles[a]? = some u → u.phys = p → u.place = .saved) : standing p s = some (i, j) := by
  obtain ⟨hi, rfl⟩ := List.getElem?_eq_some_iff.mp hx
  obtain ⟨hj, rfl⟩ := List.getElem?_eq_some_iff.mp hy
  have hfirst : s.insts[i].tiles.findIdx? (stands p s.insts[i]) = some j := by
    rw [List.findIdx?_eq_some_iff_getElem]
    refine ⟨hj, by simp [stands, hphys, hplace, hst], fun a ha hstands => ?_⟩
    simp only [stands, Bool.and_eq_true, beq_iff_eq, bne_iff_ne] at hstands
    exact hstands.1.2 (htiles a ha _ (List.getElem?_eq_getElem (by omega)) hstands.1.1)
  have hsplit : s.insts.zipIdx = s.insts.zipIdx.take i ++ (s.insts[i], i) :: s.insts.zipIdx.drop (i + 1) := by
    have hhead : s.insts.zipIdx[i]'(by simpa using hi) = (s.insts[i], i) := by simp
    rw [← hhead, List.getElem_cons_drop, List.take_append_drop]
  rw [standing, List.findSome?_eq_some_iff]
  refine ⟨_, _, _, hsplit, by simp [hfirst], ?_⟩
  rintro ⟨z, a⟩ hz
  obtain ⟨b, hb, hz⟩ := List.mem_take_iff_getElem.mp hz
  simp only [List.getElem_zipIdx, Nat.zero_add, Prod.mk.injEq] at hz
  obtain ⟨rfl, rfl⟩ := hz
  simp only [findIdx?_stands_eq_none (hinsts b (by omega) _ (List.getElem?_eq_getElem _)), Option.map_none]

/-! ### A bank given up -/

/-- The blocks of an instance that are taken back change nothing of a tile but its sequencer and its reservations, and nothing of what
stands outside the instances and the contexts. -/
structure TakesBack (s s' : State) (i j : Nat) (y : Tile) : Prop where
  phys : s'.phys = s.phys
  copy : s'.copy = s.copy
  tile : ∃ y', s'.tile? i j = some y' ∧ y' = { y with seq := y'.seq, reserved := y'.reserved }

theorem takesBack_refl {s : State} {i j : Nat} {y : Tile} (hy : s.tile? i j = some y) : TakesBack s s i j y :=
  ⟨rfl, rfl, y, hy, rfl⟩

theorem TakesBack.discardBlock {s s' : State} {i j : Nat} {y : Tile} (h : TakesBack s s' i j y) (k : Nat) (next : W64) :
    TakesBack s (s'.discardBlock i k next) i j y := by
  obtain ⟨hphys, hcopy, u, hu, hrest⟩ := h
  rw [State.discardBlock]
  split
  case h_1 => exact ⟨hphys, hcopy, u, hu, hrest⟩
  case h_2 x hx =>
    refine ⟨hphys, hcopy, ?_⟩
    rw [tile?_modTile_eq]
    have hu' : (s'.modCtx x.tag fun c => c.dropAsked i k).tile? i j = some u := hu
    split
    · refine ⟨_, by rw [hu', Option.map_some], ?_⟩
      rw [hrest]
    · exact ⟨u, hu', hrest⟩

theorem takesBack_discardAt {s : State} {i j : Nat} {y : Tile} (hy : s.tile? i j = some y) (x : Inst) (here : Loc → Bool) :
    TakesBack s (s.discardAt i x here) i j y := by
  rw [State.discardAt]
  refine List.foldlRecOn (motive := fun r => TakesBack s r i j y) _ _ (takesBack_refl hy) fun r hr c _ => ?_
  obtain ⟨u, k⟩ := c
  dsimp only
  split
  case h_2 => exact hr
  case h_1 b _ =>
    split
    · exact hr.discardBlock k b.header
    · exact hr

/-- An instance with no store to a place left to perform, and no commit at work, is not busy there. -/
theorem busyAt_eq_false {x : Inst} {here : Loc → Bool}
    (h : ∀ u ∈ x.tiles, (∀ q ∈ u.sbuf, here q.loc = false) ∧ ∀ b, u.seq.block = some b → b.perform = none ∧ b.checking = false) :
    x.busyAt here = false := by
  rw [Inst.busyAt, List.any_eq_false]
  intro u hu
  obtain ⟨hstores, hblock⟩ := h u hu
  have hsb : u.sbuf.any (fun q => here q.loc) = false := by simpa using hstores
  rw [hsb, Bool.false_or]
  cases hb : u.seq.block with
  | none => simp
  | some b =>
    obtain ⟨hperform, hchecking⟩ := hblock b hb
    simp [Block.bound, hperform, hchecking]

theorem commandsOut_congr {s s' : State} (h : s'.copy = s.copy) (i k : Nat) (u : Tile) :
    s'.commandsOut i k u = s.commandsOut i k u := by
  simp only [State.commandsOut, h]

/-! ### The scrub -/

/-- Of a bank that is scrubbed every byte reads 0 and every granule is empty; the registers and the semaphores of the tile stay. -/
theorem scrubBank_spec (y : Tile) (k : Nat) :
    (∀ o, bankOf y.coarse o = k → (y.scrubBank k).slice.get o = 0) ∧
      (∀ g, bankOf y.coarse (64 * g) = k → (y.scrubBank k).isFull g = false) ∧
      (y.scrubBank k).g = y.g ∧ (y.scrubBank k).sem = y.sem := by
  refine ⟨fun o ho => ?_, fun g hg => ?_, rfl, rfl⟩
  · refine get_eq_zero fun c hc heq => ?_
    have hout := (List.mem_filter.mp hc).2
    rw [heq] at hout
    simp [ho] at hout
  · have hout : g ∉ (y.scrubBank k).full := fun hmem => by
      have hout := (List.mem_filter.mp hmem).2
      simp [hg] at hout
    simpa [Tile.isFull] using hout

section
variable {s : State} {p i j k : Nat} {x : Inst} {y : Tile} (finish : State → State) (hx : s.insts[i]? = some x)
  (hy : x.tiles[j]? = some y)
include hx hy

/-- A bank that is open is closed to its owner first. -/
theorem giveUp_of_open (hopen : k ∉ (s.physAt p).closed) :
    s.giveUp i j p [k] finish = .next (s.modPhys p fun a => { a with closed := insertNat k a.closed }) := by
  simp [State.giveUp, State.inst?, hx, tile?_of_insts hx hy, hopen]

/-- A closed bank with nothing at work there is scrubbed and opened. -/
theorem giveUp_of_closed (hclosed : k ∈ (s.physAt p).closed)
    (hidle : ∀ h u, x.tiles[h]? = some u → s.commandsOut i h u = false ∧ (∀ q ∈ u.sbuf, inBank j y.coarse k q.loc = false) ∧
      ∀ b, u.seq.block = some b → b.perform = none ∧ b.checking = false) :
    ∃ r, TakesBack s r i j y ∧ s.giveUp i j p [k] finish =
      .next (finish ((r.modTile i j fun y => y.scrubBank k).modPhys p fun a =>
        { a with closed := a.closed.filter fun b => !([k].contains b) })) := by
  have hback := takesBack_discardAt (tile?_of_insts hx hy) x fun l => [k].any fun b => inBank j y.coarse b l
  refine ⟨_, hback, ?_⟩
  have hbusy : x.busyAt (fun l => [k].any fun b => inBank j y.coarse b l) = false := by
    refine busyAt_eq_false fun u hu => ?_
    obtain ⟨h, hh⟩ := List.mem_iff_getElem?.mp hu
    obtain ⟨-, hstores, hblock⟩ := hidle h u hh
    exact ⟨by simpa using hstores, hblock⟩
  have hquiet : (x.tiles.zipIdx.any fun c =>
      (s.discardAt i x fun l => [k].any fun b => inBank j y.coarse b l).commandsOut i c.2 c.1) = false := by
    rw [List.any_eq_false]
    rintro ⟨u, h⟩ hu
    rw [commandsOut_congr hback.copy, (hidle h u (List.mem_zipIdx_iff_getElem?.mp hu)).1]
    exact Bool.false_ne_true
  have hall : ([k].all fun b => (s.physAt p).closed.contains b) = true := by simpa using hclosed
  simp only [State.giveUp, State.inst?, hx, tile?_of_insts hx hy, hall, hbusy, hquiet, Bool.not_true, Bool.or_false,
    Bool.false_eq_true, if_false]
  rfl

end

end Sys2Proof.Homes
end

section
/-! What the homes of locations do of themselves (R140, R141, R155, R158). -/

open Sys2Proof.Machine

namespace Sys2Proof.Homes

/-- A closed bank with nothing at work there is scrubbed, is open, and has its new owner. -/
theorem bankReassign_of_closed {s : State} {p i j : Nat} {k : BitVec 4} {tag : Byte} {x : Inst} {y : Tile}
    (hstanding : standing p s = some (i, j)) (hx : s.insts[i]? = some x) (hy : x.tiles[j]? = some y)
    (hclosed : k.toNat ∈ (s.physAt p).closed)
    (hidle : ∀ h u, x.tiles[h]? = some u → s.commandsOut i h u = false ∧
      (∀ q ∈ u.sbuf, inBank j y.coarse k.toNat q.loc = false) ∧ ∀ b, u.seq.block = some b → b.perform = none ∧ b.checking = false) :
    ∃ s' y', exec (.bankReassign p k tag) s = .next s' ∧ (s'.physAt p).banks[k.toNat]'k.isLt = tag ∧ s'.tile? i j = some y' ∧
      k.toNat ∉ (s'.physAt p).closed ∧ (∀ o, bankOf y.coarse o = k.toNat → y'.slice.get o = 0) ∧
      (∀ g, bankOf y.coarse (64 * g) = k.toNat → y'.isFull g = false) ∧ y'.g = y.g ∧ y'.sem = y.sem := by
  obtain ⟨r, ⟨-, -, u, hu, hrest⟩, hgive⟩ := giveUp_of_closed (retag p k tag) hx hy hclosed hidle
  obtain ⟨hbank, hopen, -⟩ := physAt_retag p k tag ((r.modTile i j fun y => y.scrubBank k.toNat).modPhys p fun a =>
    { a with closed := a.closed.filter fun b => !([k.toNat].contains b) })
  have htile : (r.modTile i j fun y => y.scrubBank k.toNat).tile? i j = some (u.scrubBank k.toNat) := by
    rw [State.tile?_modTile, hu, Option.map_some]
  have hcoarse : u.coarse = y.coarse := by rw [hrest]
  obtain ⟨hbytes, hfull, hg, hsem⟩ := scrubBank_spec u k.toNat
  rw [hcoarse] at hbytes hfull
  exact ⟨_, _, (exec_bankReassign_of_standing hstanding).trans hgive, hbank, htile, hopen, hbytes, hfull,
    hg.trans (by rw [hrest]), hsem.trans (by rw [hrest])⟩

/-- Settles O14: what each event of a home does, by its own lemma; a bank changes hands at once where no tile stands on it, and else is closed,
scrubbed and opened. -/
theorem homes : Obligations.Homes := by
  unfold Obligations.Homes
  refine ⟨fun s x t hx ht => ⟨?_, ?_, ?_⟩, fun s x t hx ht => ⟨?_, ?_⟩, fun s p k tag => ⟨?_, ?_⟩⟩
  · intro b hb hchecking hperform hsome
    exact exec_reservationRetry hx ht hb hchecking hperform hsome
  · intro g k rest hfull hhead hk
    refine ⟨_, { t with takes := t.takes.map (granted k) }, exec_takeListGrant hx ht hfull hhead hk, ?_, head_map_granted hhead, rfl, ?_⟩
    · rw [State.tile?_modFocus, tile?_of_insts hx ht, Option.map_some]
    · simp [granule_granted, tile_granted, Function.comp_def]
  · intro g k rest n hhead hk hn
    exact exec_takeHeadTimeout hx ht hhead hk hn
  · intro w rest y o g lim n hw hy hplace hpark houter ho
    exact waitaWake_ends_park hx ht hw hy hplace hpark houter ho
  · intro home o g lim n y hpark houter hlim hn hplace hy
    by_cases hdue : (⟨o / 64, s.focus.tile⟩ : Watch) ∈ y.wakes
    · obtain ⟨s', t', y', hexec, ht', hy', hg, hseq, hsem, hslice, hwakes, hwatches⟩ :=
        waitaTimeout_ends_park hx ht hpark houter hlim hn hplace hy (decide_eq_true ((wakesFor_pos_iff y _ _).mpr hdue))
      refine ⟨s', t', y', hexec, ht', hy', ?_, hseq, hsem, hslice, fun _ => ⟨hwakes, hwatches⟩, fun hno => absurd hdue hno⟩
      rw [hg, if_pos hdue]
      rfl
    · obtain ⟨s', t', y', hexec, ht', hy', hg, hseq, hsem, hslice, hwakes, hwatches⟩ :=
        waitaTimeout_ends_park hx ht hpark houter hlim hn hplace hy (decide_eq_false ((wakesFor_pos_iff y _ _).not.mpr hdue))
      refine ⟨s', t', y', hexec, ht', hy', ?_, hseq, hsem, hslice, fun hin => absurd hin hdue, fun _ => ⟨hwatches, hwakes⟩⟩
      rw [hg, if_neg hdue]
      rfl
  · intro hsaved
    obtain ⟨hbank, -, hothers⟩ := physAt_retag p k tag s
    exact ⟨_, exec_bankReassign_of_free (standing_eq_none hsaved), hbank, rfl, hothers⟩
  · intro i j x y hx hy hst hphys hplace hinsts htiles
    have hstanding := standing_eq_some hx hy hst hphys hplace hinsts htiles
    refine ⟨fun hopen => ?_, fun hclosed hidle => ?_⟩
    · rw [exec_bankReassign_of_standing hstanding, giveUp_of_open _ hx hy hopen]
    · obtain ⟨s', y', hexec, hbank, htile, hopen, hbytes, hrest⟩ := bankReassign_of_closed (tag := tag) hstanding hx hy hclosed hidle
      exact ⟨s', y', hexec, hbank, htile, hopen, fun o ho _ => hbytes o ho, hrest⟩

end Sys2Proof.Homes
end

section
/-! Copy packets (R150, R176, R177): what their accesses read and write, and the places of their rows. -/

open Sys2Proof.Machine

namespace Sys2Proof.Homes

/-! ### Reads of engines -/

/-- Two states that differ at most in what their contexts hold: counters, and what waits for peers. -/
def OnlyContexts (s s' : State) : Prop := ∃ c, s' = { s with ctxs := c }

theorem OnlyContexts.trans {s s' s'' : State} (h : OnlyContexts s s') (h' : OnlyContexts s' s'') : OnlyContexts s s'' := by
  obtain ⟨c, rfl⟩ := h
  obtain ⟨d, rfl⟩ := h'
  exact ⟨d, rfl⟩

theorem onlyContexts_refl (s : State) : OnlyContexts s s := ⟨s.ctxs, rfl⟩

theorem onlyContexts_askPeer (s : State) (tag : Byte) (k : BitVec 5) (q : Ask) (m : MsgBody) :
    OnlyContexts s (s.askPeer tag k q m).2 := by
  rw [State.askPeer]
  split
  case h_1 => exact onlyContexts_refl s
  case h_2 =>
    split
    case h_1 => exact onlyContexts_refl s
    case h_2 =>
      split
      · exact onlyContexts_refl s
      · split
        · exact onlyContexts_refl s
        · exact ⟨_, rfl⟩

theorem onlyContexts_hbmBytes (s : State) (tag : Byte) (write : Bool) (l : Loc) (n : Nat) :
    OnlyContexts s (s.hbmBytes tag write l n) := by
  obtain ⟨f, hf⟩ := hbmBytes_eq s tag write l n
  exact ⟨_, hf⟩

theorem onlyContexts_readPieces (i t who : Nat) (tag : Byte) (ps : List (Loc × Size)) (s : State) :
    OnlyContexts s (s.readPieces i t who tag ps).2 := by
  induction ps generalizing s with
  | nil => exact onlyContexts_refl s
  | cons p ps ih =>
    obtain ⟨l, z⟩ := p
    rw [State.readPieces.eq_def]
    dsimp -zeta only
    extract_lets here
    have hhere : OnlyContexts s here.2 := by
      dsimp only [here]
      split
      case h_1 k v =>
        have hask := onlyContexts_askPeer s tag k ⟨i, t, who, v⟩ (.read v z)
        split
        case h_1 hr => rwa [hr] at hask
        case h_2 hr => rwa [hr] at hask
        case h_3 hr => rwa [hr] at hask
      case h_2 =>
        split
        · exact onlyContexts_refl s
        · split
          · exact onlyContexts_refl s
          · exact onlyContexts_hbmBytes s tag false l z.bytes
    have hnext : OnlyContexts s (here.2.readPieces i t who tag ps).2 := hhere.trans (ih here.2)
    clear_value here
    obtain ⟨e, r⟩ := here
    cases e with
    | failed c p => exact hhere
    | wait =>
      dsimp only
      split
      case h_1 hl => rwa [hl] at hnext
      case h_2 hl => rwa [hl] at hnext
    | bytes bs =>
      dsimp only
      split
      case h_1 hl => rwa [hl] at hnext
      case h_2 => exact hnext

theorem onlyContexts_tookPieces (i t who : Nat) (tag : Byte) (ps : List (Loc × Size)) (s : State) :
    OnlyContexts s (s.tookPieces i t who tag ps) := by
  refine List.foldlRecOn (motive := OnlyContexts s) _ _ (onlyContexts_refl s) fun r hr p _ => ?_
  split
  · exact hr.trans ⟨_, rfl⟩
  · exact hr

/-! ### Writes of engines -/

@[simp] theorem copy_writeLoc (s : State) (i : Nat) (l : Loc) (bs : List Byte) : (s.writeLoc i l bs).copy = s.copy := by
  cases l <;> rfl

/-- One piece at a home takes the bytes that it is given. -/
theorem writePieces_one {s : State} {i t who : Nat} {tag : Byte} {l : Loc} {z : Size} {bs : List Byte} (hl : s.homeHere i l)
    (hlen : bs.length = z.bytes) :
    s.writePieces i t who tag [(l, z)] bs = (s.writeLoc i l bs).hbmBytes tag true l z.bytes := by
  cases l with
  | remote k v => exact hl.elim
  | slice k o => simp only [State.writePieces, ← hlen, List.take_length]
  | hbm p => simp only [State.writePieces, ← hlen, List.take_length]
  | host p => simp only [State.writePieces, ← hlen, List.take_length]

/-- The bits that a copy writes of a byte, over the byte that stands there. -/
def overlay (m : Byte × Byte) (b : Byte) : Byte := (b &&& ~~~m.1) ||| (m.2 &&& m.1)

/-- The bytes of a run after its write: its bits over what stands at its home. -/
def overlaid (s : State) (i : Nat) (l : Loc) (ms : List (Byte × Byte)) : List Byte :=
  ms.zipWith overlay (s.readLoc i l ms.length)

@[simp] theorem length_overlaid (s : State) (i : Nat) (l : Loc) (ms : List (Byte × Byte)) : (overlaid s i l ms).length = ms.length := by
  simp [overlaid, readLoc_eq]

theorem getElem?_overlaid {s : State} {i : Nat} {l : Loc} {ms : List (Byte × Byte)} {j : Nat} {m : Byte × Byte}
    (hm : ms[j]? = some m) : (overlaid s i l ms)[j]? = some (overlay m (s.byteAt i (l.plus j))) := by
  obtain ⟨hj, rfl⟩ := List.getElem?_eq_some_iff.mp hm
  simp [overlaid, readLoc_eq, hj]

/-! ### The accesses of a copy -/

section
variable {s : State} {k : CopyTask} {j : CopyJob}

theorem copyAct_read {n : Nat} {u : CopyUnit} {ps : List (Loc × Size)} {bs : List Byte} {s1 : State} (hu : k.units[n]? = some u)
    (hcheck : s.checkUnit k .read k.srcAlign u.srcRow u.src u.srcN = .ok ps)
    (hread : s.readPieces k.inst k.tile k.who k.tag ps = (.bytes bs, s1)) :
    s.copyAct k j (.inl n) = (.done (s1.tookPieces k.inst k.tile k.who k.tag ps) (k.data u.len bs).1 (k.data u.len bs).2,
      { j with unread := j.unread.filter fun m => m != n, got := j.got ++ [(n, (k.data u.len bs).1)] }) := by
  simp only [State.copyAct, hu, State.copyRead, hcheck, hread]

/-- The row that the first unit over a word belongs to: the word's alignment is checked at its start. -/
def wordRow (us : List (CopyUnit × List Byte)) (w : W64) : W64 := match us with | u :: _ => u.1.dstRow | [] => w

/-- A word that is one run in one piece at its home is written at once. -/
theorem copyWrite_one {us : List (CopyUnit × List Byte)} {w b : W64} {ms : List (Byte × Byte)} {l : Loc} {z : Size}
    (hcheck : s.checkRuns k (wordRow us w) [(b, ms)] = .ok [(l, z)])
    (hruns : wordRuns us w = [(b, ms)]) (hlen : ms.length = z.bytes) (hheld : s.writeHeld k.inst [(l, z)] = false) (hl : s.homeHere k.inst l) :
    s.copyWrite k us w = .done ((s.writeLoc k.inst l (overlaid s k.inst l ms)).hbmBytes k.tag true l z.bytes) [] 0 := by
  have hwrite := writePieces_one (s := s) (t := k.tile) (who := k.who) (tag := k.tag) (bs := overlaid s k.inst l ms) hl
    ((length_overlaid ..).trans hlen)
  rw [State.copyWrite.eq_def]
  dsimp only
  rw [hruns]
  split
  case h_1 f hbad => cases hcheck.symm.trans hbad
  case h_2 hwait => cases hcheck.symm.trans hwait
  case h_3 ps hok =>
    obtain rfl := EAcc.ok.inj (hcheck.symm.trans hok)
    split
    case h_1 hfar =>
      cases l with
      | remote k v => exact hl.elim
      | slice t o => cases hfar
      | hbm p => cases hfar
      | host p => cases hfar
    case h_2 =>
      rw [hheld, ← hwrite, overlaid, hlen, if_neg Bool.false_ne_true, List.flatMap_singleton, List.flatMap_singleton]
      rfl

/-- What the units read so far write to a word. -/
def readOver (k : CopyTask) (j : CopyJob) (w : W64) : List (CopyUnit × List Byte) :=
  (k.over j w).filterMap fun u => u.2.map fun b => (u.1, b)

/-- The job after the write of a word. -/
def afterWord (s : State) (k : CopyTask) (j : CopyJob) (w : W64) : CopyJob :=
  { j with
    part := k.partAfter j w (s.copyHome k (readOver k j w) w)
    unwritten := j.unwritten.filter fun v => v != w
    wrote := if k.fe = true ∧ vaGranule w ∉ j.wrote then j.wrote ++ [vaGranule w] else j.wrote }

theorem copyAct_write {w b : W64} {ms : List (Byte × Byte)} {l : Loc} {z : Size}
    (hcheck : s.checkRuns k (wordRow (readOver k j w) w) [(b, ms)] = .ok [(l, z)]) (hruns : wordRuns (readOver k j w) w = [(b, ms)])
    (hlen : ms.length = z.bytes) (hheld : s.writeHeld k.inst [(l, z)] = false) (hl : s.homeHere k.inst l) :
    s.copyAct k j (.inr w) =
      (.done ((s.writeLoc k.inst l (overlaid s k.inst l ms)).hbmBytes k.tag true l z.bytes) [] 0, afterWord s k j w) := by
  have hwrite := copyWrite_one hcheck hruns hlen hheld hl
  rw [readOver] at hwrite
  rw [State.copyAct]
  simp only [hwrite]
  simp [afterWord, readOver]

end

section
variable {s : State} {eng op : Nat} {i : Instr} {e : CpEngine} {a : CpActive} {q : Nat ⊕ W64}

theorem exec_eq_cpRun (s : State)
    (hi : (i = .cpyCopy eng ∧ op = 1) ∨ (i = .cpyConv eng ∧ op = 2) ∨ (i = .cpyFill eng ∧ op = 3) ∨ (i = .cpyMcast eng ∧ op = 4)) :
    exec i s = s.cpRun eng op := by
  obtain ⟨rfl, rfl⟩ | ⟨rfl, rfl⟩ | ⟨rfl, rfl⟩ | ⟨rfl, rfl⟩ := hi <;> rfl

theorem cpRun_of_done {s1 : State} {bs : List Byte} {flags : BitVec 5} {j : CopyJob} (he : s.copy[eng]? = some e)
    (hpick : pickOf (Config.copyPick s.now) (s.cpActs eng op e) = some (a, q))
    (hact : s.copyAct (s.cpTask eng a.p) a.job q = (.done s1 bs flags, j)) :
    s.cpRun eng op = .next ((s1.putCopy eng { a with job := j }).modTile a.p.inst
      (match a.p.src with | .tile _ => a.p.tile | _ => 0) fun t => { t with xflags := t.xflags ||| flags }) := by
  simp only [State.cpRun, he, hpick, hact] <;> rfl

end

theorem copy_putCopy_congr {s s' : State} (h : s'.copy = s.copy) (eng : Nat) (a : CpActive) :
    (s'.putCopy eng a).copy = (s.putCopy eng a).copy := by
  simp only [State.putCopy, State.modCopy, h]

/-- What the step of an engine adds to the change that an access makes: the job of its packet, and the flags of a tile. -/
theorem byteAt_flags_putCopy (s : State) (eng i t : Nat) (a : CpActive) (flags : BitVec 5) (j : Nat) (l : Loc) :
    ((s.putCopy eng a).modTile i t fun t => { t with xflags := t.xflags ||| flags }).byteAt j l = s.byteAt j l := by
  rw [byteAt_modTile]
  · exact byteAt_congr rfl rfl rfl j l
  · exact fun _ => rfl

/-! ### The rows of a packet, and what its units become -/

/-- Where the source row of an index starts. -/
def rowSrc (x : Rec64) (row : Nat) : W64 := x.extractLsb' 64 64 + BitVec.ofNat 64 row * (x.extractLsb' 288 32).signExtend 64

/-- How far the destination row of an index lies from the first. -/
def rowStep (x : Rec64) (row : Nat) : W64 := BitVec.ofNat 64 row * (x.extractLsb' 256 32).signExtend 64

theorem mem_cpAddrs {x : Rec64} {row : Nat} (x? : Option Inst) (hrow : row < cpRows x) (hop : cpOp x ≠ 4) :
    (rowSrc x row, x.extractLsb' 128 64 + rowStep x row) ∈ cpAddrs x? x := by
  rw [cpAddrs, if_neg hop]
  exact List.mem_map.mpr ⟨row, List.mem_range.mpr hrow, rfl⟩

/-- An MCAST has its rows in the slice window of each member. -/
theorem mem_cpAddrs_mcast {x : Rec64} {row m : Nat} {x? : Option Inst} (hrow : row < cpRows x) (hop : cpOp x = 4)
    (hm : m ∈ cpMembers x? x) :
    (rowSrc x row, BitVec.ofNat 64 (2 ^ 54 + m * 2 ^ 21) + BitVec.ofNat 64 (fld x 128 21) + rowStep x row) ∈ cpAddrs x? x := by
  rw [cpAddrs, if_pos hop]
  exact List.mem_flatMap.mpr ⟨m, hm, List.mem_map.mpr ⟨row, List.mem_range.mpr hrow, rfl⟩⟩

theorem cpGroup_pos (x : Rec64) : 0 < cpGroup x := by
  rw [cpGroup]
  split
  · decide
  · split <;> decide

/-- The unit of a row at an index: its group of elements in both rows. -/
theorem mem_rowUnits {x : Rec64} {n : Nat} (src dst : W64) (hn : n * cpGroup x < cpLen x) :
    ∃ u ∈ rowUnits x src dst, u.srcRow = src ∧ u.dstRow = dst ∧
      u.src = src + BitVec.ofNat 64 (rowBytes (cpSrcFmt x) (n * cpGroup x)) ∧
      u.dst = dst + BitVec.ofNat 64 (rowBytes (cpDstFmt x) (n * cpGroup x)) ∧ u.len = min (cpGroup x) (cpLen x - n * cpGroup x) := by
  have hindex : n < (cpLen x + cpGroup x - 1) / cpGroup x := by
    rw [Nat.lt_iff_add_one_le, Nat.le_div_iff_mul_le (cpGroup_pos x), Nat.add_mul]
    omega
  exact ⟨_, List.mem_map.mpr ⟨n, List.mem_range.mpr hindex, rfl⟩, rfl, rfl, rfl, rfl, rfl⟩

/-- A row of a packet is cut into units of its task. -/
theorem mem_units_cpTask {s : State} {eng n : Nat} {p : CpPkt} {src dst : W64} (hrow : (src, dst) ∈ cpAddrs (s.inst? p.inst) p.pkt)
    (hn : n * cpGroup p.pkt < cpLen p.pkt) :
    ∃ u ∈ (s.cpTask eng p).units, u.srcRow = src ∧ u.dstRow = dst ∧
      u.src = src + BitVec.ofNat 64 (rowBytes (cpSrcFmt p.pkt) (n * cpGroup p.pkt)) ∧
      u.dst = dst + BitVec.ofNat 64 (rowBytes (cpDstFmt p.pkt) (n * cpGroup p.pkt)) ∧
      u.len = min (cpGroup p.pkt) (cpLen p.pkt - n * cpGroup p.pkt) := by
  obtain ⟨u, hu, hplace⟩ := mem_rowUnits src dst hn
  exact ⟨u, List.mem_flatMap.mpr ⟨_, hrow, hu⟩, hplace⟩

/-- COPY and MCAST move their bytes as they are. -/
theorem cpUnitData_of_moved {x : Rec64} (hop : cpOp x = 1 ∨ cpOp x = 4) (mode : BitVec 3) (len : Nat) (bs : List Byte) :
    cpUnitData x mode len bs = (bs, 0) := by
  obtain hop | hop := hop <;> simp only [cpUnitData, hop]

/-- A byte of a word cut out of a number is a byte of the number. -/
theorem byte_of_word (a : Nat) {k : Nat} (hk : k < 8) :
    BitVec.ofNat 8 (a / 2 ^ 64 % 2 ^ 64 / 2 ^ (8 * k)) = BitVec.ofNat 8 (a / 2 ^ (64 + 8 * k)) := by
  have hsplit : 2 ^ 64 = 2 ^ (8 * k) * 2 ^ (64 - 8 * k) := by rw [← Nat.pow_add]; congr 1; omega
  have hdvd : 2 ^ 8 ∣ 2 ^ (64 - 8 * k) := Nat.pow_dvd_pow 2 (by omega)
  refine BitVec.eq_of_toNat_eq ?_
  rw [BitVec.toNat_ofNat, BitVec.toNat_ofNat, Nat.pow_add, ← Nat.div_div_eq_div_mul]
  generalize a / 2 ^ 64 = b
  rw [hsplit, Nat.mod_mul_right_div_self, Nat.mod_mod_of_dvd _ hdvd]

/-- FILL repeats the 8 bytes of its pattern. -/
theorem getElem?_cpUnitData_fill {x : Rec64} {len k : Nat} (hop : cpOp x = 3) (mode : BitVec 3) (bs : List Byte)
    (hk : k < rowBytes (cpDstFmt x) len) :
    (cpUnitData x mode len bs).1[k]? = some (BitVec.ofNat 8 (x.toNat / 2 ^ (64 + 8 * (k % 8)))) := by
  have hmod : k % 8 < 8 := Nat.mod_lt _ (by decide)
  have hbyte := byte_of_word x.toNat hmod
  simp only [cpUnitData, hop, List.getElem?_map, List.getElem?_range hk, Option.map_some, List.getD_eq_getElem?_getD, vecBytes,
    getElem?_toBytes _ hmod, Encoding.toNat_extractLsb', hbyte, Option.getD_some]

/-- Settles O32: a unit read and a word written, each by its own lemma with the step of the engine; the rows and units of a packet by its
addresses; what a unit becomes by the op. -/
theorem copyPackets : Obligations.CopyPackets := by
  unfold Obligations.CopyPackets
  refine ⟨fun s eng op i e a hi he => ⟨?_, ?_⟩, fun s eng p row n hrow hn => ⟨fun hop => ?_, fun hop m hm => ?_⟩,
    fun x mode len bs => ⟨fun hop => cpUnitData_of_moved hop mode len bs, fun hop => ⟨?_, fun k hk => ?_⟩⟩⟩
  · intro n u ps bs s1 hpick hu hcheck hread
    have hstep := (exec_eq_cpRun s hi).trans (cpRun_of_done he hpick (copyAct_read hu hcheck hread))
    have hctx := onlyContexts_readPieces (s.cpTask eng a.p).inst (s.cpTask eng a.p).tile (s.cpTask eng a.p).who (s.cpTask eng a.p).tag ps s
    rw [hread] at hctx
    obtain ⟨c, hc⟩ := hctx.trans (onlyContexts_tookPieces (s.cpTask eng a.p).inst (s.cpTask eng a.p).tile (s.cpTask eng a.p).who
      (s.cpTask eng a.p).tag ps s1)
    rw [hc] at hstep
    exact ⟨_, hstep, rfl, rfl, rfl, rfl⟩
  · intro w b ms l z hpick us row hruns hcheck hlen hheld hl hc
    refine ⟨_, (exec_eq_cpRun s hi).trans (cpRun_of_done he hpick (copyAct_write hcheck hruns hlen hheld hl)), ?_, ?_⟩
    · exact copy_putCopy_congr ((copy_hbmBytes ..).trans (copy_writeLoc ..)) eng _
    · obtain ⟨hin, hout⟩ := (holds_writeLoc hc hl (overlaid s (s.cpTask eng a.p).inst l ms)).congr fun q =>
        (byteAt_flags_putCopy _ eng _ _ _ _ _ q).trans (byteAt_hbmBytes _ _ _ _ _ _ q)
      rw [length_overlaid, hlen] at hout
      exact ⟨fun j m hm => hin j _ (getElem?_overlaid hm), hout⟩
  · exact mem_units_cpTask (mem_cpAddrs _ hrow hop) hn
  · exact mem_units_cpTask (mem_cpAddrs_mcast hrow hop hm) hn
  · simp only [cpUnitData, hop]
  · exact getElem?_cpUnitData_fill hop mode bs hk

end Sys2Proof.Homes
end

section
/-! The tile in focus and its streams, changed one after another; semaphores and marks of granules (R142, R163, R324). -/

open Sys2Proof.Machine
open Sys2Proof.Homes

namespace Sys2Proof.Streams

/-! ### Vectors -/

theorem vmod_eq_set {α : Type} {n k : Nat} (v : Vector α n) (hk : k < n) (f : α → α) : vmod v k f = v.set k (f v[k]) := by
  ext i hi
  simp [vmod, hk, Vector.getElem_set, Vector.getElem_setIfInBounds]

theorem vmod_vmod {α : Type} {n : Nat} (v : Vector α n) (k : Nat) (f g : α → α) :
    vmod (vmod v k f) k g = vmod v k fun a => g (f a) := by
  by_cases hk : k < n
  · simp [vmod_eq_set _ hk]
  · simp [vmod, hk]

/-! ### A tile and a stream of it -/

section
variable (t : Tile) (st : BitVec 4)

theorem streamAt_eq_getElem : t.streamAt st = t.stream[st.toNat]'st.isLt := Firing.vget_eq_getElem _ st.isLt _

theorem modStream_eq (f : Stream → Stream) :
    t.modStream st f = { t with stream := t.stream.set st.toNat (f (t.streamAt st)) st.isLt } := by
  rw [Tile.modStream, vmod_eq_set _ st.isLt, streamAt_eq_getElem]

@[simp] theorem streamAt_modStream (f : Stream → Stream) : (t.modStream st f).streamAt st = f (t.streamAt st) := by
  rw [modStream_eq, streamAt_eq_getElem]
  simp

@[simp] theorem modStream_modStream (f g : Stream → Stream) :
    (t.modStream st f).modStream st g = t.modStream st fun y => g (f y) := by
  simp only [Tile.modStream, vmod_vmod]

@[simp] theorem modStream_g (f : Stream → Stream) : (t.modStream st f).g = t.g := rfl
@[simp] theorem modStream_sr (f : Stream → Stream) : (t.modStream st f).sr = t.sr := rfl
@[simp] theorem modStream_chan (f : Stream → Stream) : (t.modStream st f).chan = t.chan := rfl
@[simp] theorem modStream_seq (f : Stream → Stream) : (t.modStream st f).seq = t.seq := rfl

theorem modStream_congr {f g : Stream → Stream} (h : f (t.streamAt st) = g (t.streamAt st)) : t.modStream st f = t.modStream st g := by
  rw [modStream_eq, modStream_eq, h]

end

/-! ### The tile in focus -/

theorem modTile_modTile (s : State) (i j : Nat) (f g : Tile → Tile) :
    (s.modTile i j f).modTile i j g = s.modTile i j fun t => g (f t) := by
  simp only [State.modTile, State.modInst, List.modify_modify_eq]
  congr 2
  funext x
  simp only [Function.comp_apply, List.modify_modify_eq]
  rfl

theorem modFocus_modFocus (s : State) (f g : Tile → Tile) : (s.modFocus f).modFocus g = s.modFocus fun t => g (f t) :=
  modTile_modTile s _ _ f g

section
variable {s : State} {x : Inst} {t : Tile} (hx : s.insts[s.focus.inst]? = some x) (ht : x.tiles[s.focus.tile]? = some t)
include hx ht

theorem modFocus_congr {f g : Tile → Tile} (h : f t = g t) : s.modFocus f = s.modFocus g := modTile_congr hx ht h

theorem modFocusStream_congr {st : BitVec 4} {f g : Stream → Stream} (h : f (t.streamAt st) = g (t.streamAt st)) :
    s.modFocusStream st f = s.modFocusStream st g := modFocus_congr hx ht (modStream_congr t st h)

end

theorem modFocusStream_modFocusStream (s : State) (st : BitVec 4) (f g : Stream → Stream) :
    (s.modFocusStream st f).modFocusStream st g = s.modFocusStream st fun y => g (f y) := by
  simp only [State.modFocusStream, modFocus_modFocus, modStream_modStream]

/-! ### Changes of contexts alone -/

theorem onlyContexts_tookAll (s : State) (i t who : Nat) (tag : Byte) : OnlyContexts s (s.tookAll i t who tag) := ⟨_, rfl⟩

/-- A change of the tile in focus makes of the instances and the memories the same, whatever the contexts hold. -/
theorem modFocus_of_onlyContexts {s s' : State} (h : OnlyContexts s s') (f : Tile → Tile) :
    (s'.modFocus f).insts = (s.modFocus f).insts ∧ (s'.modFocus f).hbm = s.hbm ∧ (s'.modFocus f).host = s.host := by
  obtain ⟨c, rfl⟩ := h
  exact ⟨rfl, rfl, rfl⟩

/-! ### Semaphores (R324-R326) -/

/-- A tile whose semaphore has received an increment. -/
def raised (k : BitVec 6) (add : BitVec 16) (t : Tile) : Tile :=
  { t with sem := t.sem.set k.toNat (t.sem[k.toNat]'k.isLt + add) k.isLt }

theorem getElem_sem_raised (k : BitVec 6) (add : BitVec 16) (t : Tile) (q : Fin 64) :
    (raised k add t).sem[q] = if q.val = k.toNat then t.sem[q] + add else t.sem[q] := by
  obtain ⟨q, hq⟩ := q
  by_cases h : q = k.toNat
  · subst h
    simp [raised]
  · simp [raised, h, Ne.symm h]

theorem semAdd_of_room {s : State} {i j : Nat} {y : Tile} {k : BitVec 6} {add : BitVec 16} (hy : s.tile? i j = some y)
    (hplace : y.place ≠ .saved) (hroom : (y.sem[k.toNat]'k.isLt).toNat + add.toNat ≤ 65535) (source : BitVec 16) :
    s.semAdd i j k add source = s.modTile i j (raised k add) := by
  have hroom' : ¬65535 < (vget y.sem k.toNat 0).toNat + add.toNat := by
    rw [Firing.vget_eq_getElem _ k.isLt]
    exact Nat.not_lt.mpr hroom
  have hraised : (fun y : Tile => { y with sem := vmod y.sem k.toNat fun v => v + add }) = raised k add := by
    funext y
    rw [vmod_eq_set _ k.isLt]
    rfl
  have hplace' : (y.place == .saved) = false := beq_eq_false_iff_ne.mpr hplace
  simp only [State.semAdd, State.semApply, hy, hplace', gt_iff_lt, hroom', hraised, Bool.false_eq_true, if_false]

/-! ### Marks of granules (R142, R178) -/

theorem isFull_setFull {t : Tile} {g : Nat} (k : Nat) (h : t.isFull g = true) : (t.setFull k true).isFull g = true :=
  List.contains_iff_mem.mpr ((mem_insertNat g k t.full).mpr (.inr (List.contains_iff_mem.mp h)))

/-- A granule of an instance is full where its tile is there. -/
def Full (s : State) (i : Nat) (g : Nat × Nat) : Prop := ∀ u, s.tile? i g.1 = some u → u.isFull g.2 = true

theorem Full.modTile {s : State} {i : Nat} {g : Nat × Nat} (h : Full s i g) {f : Tile → Tile}
    (hf : ∀ u, u.isFull g.2 = true → (f u).isFull g.2 = true) (j k : Nat) : Full (s.modTile j k f) i g := by
  intro u hu
  rw [tile?_modTile_eq] at hu
  split at hu
  · obtain ⟨y, hy, rfl⟩ := Option.map_eq_some_iff.mp hu
    exact hf y (h y hy)
  · exact h u hu

theorem full_mark (s : State) (i : Nat) (g : Nat × Nat) : Full (s.modTile i g.1 fun y => y.setFull g.2 true) i g := by
  intro u hu
  rw [State.tile?_modTile] at hu
  obtain ⟨y, -, rfl⟩ := Option.map_eq_some_iff.mp hu
  exact isFull_setFull_true y g.2

theorem Full.markFull {s : State} {i : Nat} {g : Nat × Nat} (gs : List (Nat × Nat)) (h : Full s i g) : Full (s.markFull i gs) i g :=
  List.foldlRecOn (motive := fun s => Full s i g) _ _ h fun _ hr c _ => hr.modTile (fun _ hu => isFull_setFull c.2 hu) i c.1

theorem full_markFull {i : Nat} {g : Nat × Nat} {gs : List (Nat × Nat)} (hg : g ∈ gs) (s : State) : Full (s.markFull i gs) i g := by
  induction gs generalizing s with
  | nil => cases hg
  | cons c gs ih =>
    obtain rfl | hg := List.mem_cons.mp hg
    · exact (full_mark s i g).markFull gs
    · exact ih hg _

/-- Marks are no bytes of a memory. -/
theorem byteAt_markFull (s : State) (i : Nat) (gs : List (Nat × Nat)) (j : Nat) (l : Loc) :
    (s.markFull i gs).byteAt j l = s.byteAt j l :=
  List.foldlRecOn (motive := fun r : State => r.byteAt j l = s.byteAt j l) _ _ rfl fun r hr c _ =>
    (byteAt_modTile (f := fun y => y.setFull c.2 true) (fun _ => rfl) r i c.1 j l).trans hr

end Sys2Proof.Streams
end

section
/-! Streams that take commands, stop, end their frames and complete (R163-R165, R169). -/

open Sys2Proof.Machine
open Sys2Proof.Homes

namespace Sys2Proof.Streams

/-! ### The faults of streams (R165, R383) -/

/-- A tile at which a fault of a stream is pending, in the stream's own place. -/
def pendStream (st : BitVec 4) (f : PFault) (t : Tile) : Tile :=
  { t with seq := { t.seq with pend := { t.seq.pend with streams := t.seq.pend.streams.filter (fun q => q.1 != st) ++ [(st, f)] } } }

/-- A stream that has faulted. -/
def halted (y : Stream) : Stream := { y with st := .faulted, walk := { y.walk with beat := [] } }

section
variable (st : BitVec 4) (f : PFault) (t : Tile)

@[simp] theorem pendStream_g : (pendStream st f t).g = t.g := rfl
@[simp] theorem pendStream_sr : (pendStream st f t).sr = t.sr := rfl
@[simp] theorem pendStream_chan : (pendStream st f t).chan = t.chan := rfl
@[simp] theorem pendStream_block : (pendStream st f t).seq.block = t.seq.block := rfl

end

theorem mem_pendStream (st : BitVec 4) (f : PFault) (t : Tile) : (st, f) ∈ (pendStream st f t).seq.pend.streams := by
  simp [pendStream]

theorem streamAt_faulted (st : BitVec 4) (f : PFault) (t : Tile) :
    (pendStream st f (t.modStream st halted)).streamAt st = halted (t.streamAt st) := streamAt_modStream t st halted

/-- A stream that has changed and then faulted. -/
theorem streamAt_faulted_modStream (st : BitVec 4) (f : PFault) (t : Tile) (h : Stream → Stream) :
    (pendStream st f ((t.modStream st h).modStream st halted)).streamAt st = halted (h (t.streamAt st)) :=
  (streamAt_faulted st f _).trans (congrArg halted (streamAt_modStream t st h))

section
variable {s : State} {t : Tile} {st : BitVec 4} (ht : s.tile? s.focus.inst s.focus.tile = some t) (hfin : t.seq.finished = false)
include ht hfin

theorem tile?_streamFault {f : PFault} (hf : f.engine = 2) :
    (s.streamFault st f).tile? s.focus.inst s.focus.tile = some (pendStream st f (t.modStream st halted)) := by
  have hhalted : (s.modFocusStream st halted).tile? s.focus.inst s.focus.tile = some (t.modStream st halted) := by
    rw [State.modFocusStream, State.tile?_modFocus, ht, Option.map_some]
  have hfin' : (t.modStream st halted).seq.finished = false := hfin
  have hpend : s.streamFault st f = (s.modFocusStream st halted).modTile s.focus.inst s.focus.tile (pendStream st f) := by
    show (s.modFocusStream st halted).pendFault s.focus.inst s.focus.tile (some st) f = _
    simp only [State.pendFault, hhalted, hfin', hf, Bool.false_eq_true, if_false]
    rfl
  rw [hpend, State.tile?_modTile, hhalted, Option.map_some]

theorem tile?_streamCode (code : Byte) :
    ∃ f, (s.streamCode st code).tile? s.focus.inst s.focus.tile = some (pendStream st f (t.modStream st halted)) ∧
      f.code = code ∧ f.engine = 2 :=
  ⟨_, tile?_streamFault ht hfin rfl, rfl, rfl⟩

end

section
variable {s : State} {x : Inst} {t : Tile} {st : BitVec 4} (hx : s.insts[s.focus.inst]? = some x)
  (ht : x.tiles[s.focus.tile]? = some t) (hplace : t.place = .running)

/-! ### Commands (R163, R164) -/

section
variable {c : StrCmd} {rest : List StrCmd} (hq : (t.streamAt st).queue = c :: rest) (hst : (t.streamAt st).st ≠ .running)
  (hskip : (t.streamAt st).walk.skip = false)
  (hpend : (t.streamAt st).st = .faulted → ∀ p ∈ t.seq.pend.streams, p.1 ≠ st)

/-- The state after a command has left the stream's queue. -/
def dequeued (s : State) (st : BitVec 4) (rest : List StrCmd) : State := s.modFocusStream st fun y => { y with queue := rest }

include hx ht in
theorem tile?_dequeued : (dequeued s st rest).tile? s.focus.inst s.focus.tile = some (t.modStream st fun y => { y with queue := rest }) := by
  rw [dequeued, State.modFocusStream, State.tile?_modFocus, tile?_of_insts hx ht, Option.map_some]

include hplace hst hskip hpend in
theorem takes_command : (t.place != .running || (t.streamAt st).st == .running || (t.streamAt st).walk.skip
    || ((t.streamAt st).st == .faulted && t.seq.pend.streams.any fun p => p.1 == st)) = false := by
  simp only [hplace, hskip, bne_self_eq_false, beq_eq_false_iff_ne.mpr hst, Bool.false_or, Bool.and_eq_false_imp, beq_iff_eq]
  intro hfaulted
  simpa using hpend hfaulted

include hx ht hplace hst hskip hpend

include hq in
theorem exec_take_sdef {d : Rec64} (hc : c = .sdef d) : exec (.streamCommandTake st) s =
    .next (s.modFocusStream st fun _ => { t.streamAt st with queue := rest, st := .defined, desc := d }) := by
  subst hc
  show execStreamCommandTake st s = _
  rw [execStreamCommandTake, s.onTile_of x t _ hx ht]
  simp only [hq, takes_command hplace hst hskip hpend, Bool.false_eq_true, if_false]
  rw [modFocusStream_modFocusStream]
  exact congrArg _ (modFocusStream_congr hx ht rfl)

include hq in
theorem exec_take_sgo (hc : c = .sgo) (hdefined : (t.streamAt st).st = .defined) (hok : t.sdFault (t.streamAt st).desc = none) :
    exec (.streamCommandTake st) s =
      .next (((dequeued s st rest).tookAll s.focus.inst s.focus.tile (whoStream st) x.tag).modFocusStream st fun y =>
        { y with st := .running, walk := Walk.start y.desc }) := by
  subst hc
  have hwaits := takes_command hplace hst hskip hpend
  show execStreamCommandTake st s = _
  rw [execStreamCommandTake, s.onTile_of x t _ hx ht]
  simp only [hq, hwaits, Bool.false_eq_true, if_false]
  simp only [hdefined, hok, bne_self_eq_false, Bool.false_eq_true, if_false]
  rfl

include hq in
theorem exec_take_sgo_faulted {code : Byte} (hc : c = .sgo)
    (hcode : ((t.streamAt st).st ≠ .defined ∧ code = 0x01) ∨ ((t.streamAt st).st = .defined ∧ t.sdFault (t.streamAt st).desc = some code)) :
    exec (.streamCommandTake st) s = .next ((dequeued s st rest).streamCode st code) := by
  subst hc
  have hwaits := takes_command hplace hst hskip hpend
  show execStreamCommandTake st s = _
  rw [execStreamCommandTake, s.onTile_of x t _ hx ht]
  simp only [hq, hwaits, Bool.false_eq_true, if_false]
  obtain ⟨hundefined, rfl⟩ | ⟨hdefined, hfault⟩ := hcode
  · rw [if_pos (bne_iff_ne.mpr hundefined)]
    rfl
  · simp only [hdefined, hfault, bne_self_eq_false, Bool.false_eq_true, if_false]
    rfl

end
/-! ### Stops (R164) -/

section
variable (hstop : (t.streamAt st).stopping = true)
  (hout : s.accessesOut x.tag s.focus.inst s.focus.tile (whoStream st) = false)

/-- The state after a stream has stopped: it is Defined, and its walk begins again. -/
def stopped (s : State) (tag : Byte) (st : BitVec 4) : State :=
  (s.tookAll s.focus.inst s.focus.tile (whoStream st) tag).modFocusStream st fun y =>
    { y with st := .defined, stopping := false, walk := Walk.start y.desc }

include hx ht in
theorem tile?_stopped (tag : Byte) : (stopped s tag st).tile? s.focus.inst s.focus.tile =
    some (t.modStream st fun y => { y with st := .defined, stopping := false, walk := Walk.start y.desc }) := by
  rw [stopped, State.modFocusStream]
  exact (State.tile?_modFocus _ _).trans (congrArg _ (tile?_of_insts hx ht))

include hx ht hstop hout

theorem exec_stopDone (hfailed : s.askFailed x.tag s.focus.inst s.focus.tile (whoStream st) = none) :
    exec (.streamStopDone st) s = .next (stopped s x.tag st) := by
  show execStreamStopDone st s = _
  rw [execStreamStopDone, s.onTile_of x t _ hx ht]
  simp only [hstop, hout, hfailed, Bool.not_true, Bool.or_false, Bool.false_eq_true, if_false]
  rfl

theorem exec_stopDone_failed {code : Byte} {k : BitVec 5} {va : W64}
    (hfailed : s.askFailed x.tag s.focus.inst s.focus.tile (whoStream st) = some (code, k, va)) :
    exec (.streamStopDone st) s = .next ((stopped s x.tag st).streamFault st (readPFault 2 code (some (k, va)) va)) := by
  show execStreamStopDone st s = _
  rw [execStreamStopDone, s.onTile_of x t _ hx ht]
  simp only [hstop, hout, hfailed, Bool.not_true, Bool.or_false, Bool.false_eq_true, if_false]
  rfl

end

/-! ### The end of a walk (R169) -/

section
variable (hrun : (t.streamAt st).st = .running) (hstop : (t.streamAt st).stopping = false)
  (hdone : (t.streamAt st).walk.walkDone = true) (hframe : (t.streamAt st).walk.frameDone = false)
  (htoken : (t.streamAt st).walk.tokenDue = false)

include hplace hrun hstop hdone hframe htoken in
theorem completes : (t.place != .running || (t.streamAt st).st != .running || (t.streamAt st).stopping ||
    !(t.streamAt st).walk.walkDone || (t.streamAt st).walk.frameDone || (t.streamAt st).walk.tokenDue) = false := by
  simp [hplace, hrun, hstop, hdone, hframe, htoken]

include hx ht hplace hrun hstop hdone hframe htoken

theorem exec_completion (hsem : (t.streamAt st).desc.getLsbD 17 = false) :
    exec (.streamCompletion st) s = .next (s.modFocusStream st fun _ => { t.streamAt st with st := .defined }) := by
  show execStreamCompletion st s = _
  rw [execStreamCompletion, s.onTile_of x t _ hx ht]
  simp only [completes hplace hrun hstop hdone hframe htoken, hsem, Bool.false_eq_true, if_false]
  exact congrArg _ (modFocusStream_congr hx ht rfl)

theorem exec_completion_sem {k : BitVec 6} (hsem : (t.streamAt st).desc.getLsbD 17 = true)
    (hk : k = (t.streamAt st).desc.extractLsb' 10 6) (hroom : (t.sem[k.toNat]'k.isLt).toNat < 65535) :
    exec (.streamCompletion st) s =
      .next ((s.modFocus (raised k 1)).modFocusStream st fun _ => { t.streamAt st with st := .defined }) := by
  subst hk
  have hadd := semAdd_of_room (add := 1) (tile?_of_insts hx ht) (by rw [hplace]; decide) hroom (BitVec.ofNat 16 s.focus.tile)
  show execStreamCompletion st s = _
  rw [execStreamCompletion, s.onTile_of x t _ hx ht]
  simp only [completes hplace hrun hstop hdone hframe htoken, hsem, hadd, Bool.false_eq_true, if_false, if_true]
  simp only [State.modFocusStream, ← State.modFocus.eq_def, modFocus_modFocus]
  exact congrArg _ (modFocus_congr hx ht (modStream_congr _ st rfl))

end

/-! ### The ends of frames (R169) -/

theorem bne_zero_eq_decide (n : Nat) : (n != 0) = decide (n ≠ 0) := by cases n <;> rfl

/-- A walk after the end of a frame. -/
def frameEnded (d : Rec64) (w : Walk) : Walk :=
  { w with
    beat := []
    beats := 0
    sawEnd := false
    wrote := if sdRead d then w.wrote else []
    frameDone := false
    tokenDue := decide (sdPush d ≠ 0)
    popped := false }

section
variable (hrun : (t.streamAt st).st = .running) (hstop : (t.streamAt st).stopping = false)

include hplace hrun hstop in
theorem goes_on : (t.place != .running || (t.streamAt st).st != .running || (t.streamAt st).stopping) = false := by
  simp [hplace, hrun, hstop]

section
variable (hframe : (t.streamAt st).walk.frameDone = true)
  (hout : s.storesOut x.tag s.focus.inst s.focus.tile (whoStream st) = false)
include hx ht hplace hrun hstop hframe hout

theorem exec_frameEnd_read {r : State} (hread : sdRead (t.streamAt st).desc = true)
    (hsent : s.deliverBeat t st (t.streamAt st).desc ((t.streamAt st).beatOut true) = some r) :
    exec (.streamFrameEnd st) s = .next (r.modWalk st (frameEnded (t.streamAt st).desc)) := by
  show execStreamFrameEnd st s = _
  rw [execStreamFrameEnd, s.onTile_of x t _ hx ht]
  simp only [goes_on hplace hrun hstop, hframe, hout, hread, hsent, Bool.not_true, Bool.false_and, Bool.or_false, Bool.false_eq_true,
    if_false, if_true]
  congr 2
  funext w
  simp only [frameEnded, hread, if_true, bne_zero_eq_decide]

theorem exec_frameEnd_write (hwrite : sdRead (t.streamAt st).desc = false)
    (hmarks : sdFe (t.streamAt st).desc = true → ∀ g ∈ (t.streamAt st).walk.wrote, s.markFree s.focus.inst g = true) :
    exec (.streamFrameEnd st) s = .next ((if sdFe (t.streamAt st).desc then s.markFull s.focus.inst (t.streamAt st).walk.wrote else s).modWalk
      st (frameEnded (t.streamAt st).desc)) := by
  have hfree : (sdFe (t.streamAt st).desc && !(t.streamAt st).walk.wrote.all (s.markFree s.focus.inst)) = false := by
    simpa using hmarks
  show execStreamFrameEnd st s = _
  rw [execStreamFrameEnd, s.onTile_of x t _ hx ht]
  simp only [goes_on hplace hrun hstop, hframe, hout, hwrite, hfree, Bool.not_false, Bool.true_and, Bool.or_false, Bool.false_eq_true,
    if_false, if_true]
  congr 2
  funext w
  simp only [frameEnded, hwrite, Bool.false_eq_true, if_false, bne_zero_eq_decide]

end

include hx ht hplace hrun hstop in
theorem exec_frameEnd_token (hframe : (t.streamAt st).walk.frameDone = false) (htoken : (t.streamAt st).walk.tokenDue = true)
    (hroom : t.fifoAt 2 (sdPush (t.streamAt st).desc) ≠ 15) :
    exec (.streamFrameEnd st) s = .next ((s.modFocus fun t' => t'.fifoPush 2 (sdPush (t.streamAt st).desc)).modWalk st fun w =>
      { w with tokenDue := false }) := by
  show execStreamFrameEnd st s = _
  rw [execStreamFrameEnd, s.onTile_of x t _ hx ht]
  simp only [goes_on hplace hrun hstop, hframe, htoken, hroom, Bool.false_eq_true, if_false, if_true]

end

/-- A beat goes to a channel that the streams produce, where there is room. -/
theorem deliverBeat_of_channel {d : Rec64} {b : ChanEntry} (hport : sdPortEnd d = false) (hbound : (t.chanAt (sdChan d)).producer = 2)
    (hroom : (t.chanAt (sdChan d)).entries.length < 2) :
    s.deliverBeat t st d b = some (s.modFocus fun t => t.modChan (sdChan d) fun c => { c with entries := c.entries ++ [b] }) := by
  simp only [State.deliverBeat, hport, hbound, Nat.not_le.mpr hroom, bne_self_eq_false, Bool.false_eq_true, if_false]

/-- Where a stream stands says nothing of marks and bytes. -/
theorem full_modWalk {s : State} {i : Nat} {g : Nat × Nat} (h : Full s i g) (st : BitVec 4) (w : Walk → Walk) :
    Full (s.modWalk st w) i g :=
  h.modTile (f := fun t => t.modStream st fun y => { y with walk := w y.walk }) (fun _ hu => hu) _ _

theorem byteAt_modWalk (s : State) (st : BitVec 4) (w : Walk → Walk) (i : Nat) (l : Loc) :
    (s.modWalk st w).byteAt i l = s.byteAt i l :=
  byteAt_modTile (f := fun t => t.modStream st fun y => { y with walk := w y.walk }) (fun _ => rfl) _ _ _ _ _

include hx ht in
/-- A change of the tile in focus that keeps its streams, then one of a stream's walk: the stream is as it was but for its walk. -/
theorem modWalk_modFocus {f : Tile → Tile} (hf : (f t).stream = t.stream) (w : Walk → Walk) :
    (s.modFocus f).modWalk st w =
      (s.modFocus f).modFocusStream st fun _ => { t.streamAt st with walk := w (t.streamAt st).walk } := by
  have hkept : (f t).streamAt st = t.streamAt st := by rw [Tile.streamAt, hf, Tile.streamAt]
  simp only [State.modWalk, State.modFocusStream]
  rw [modFocus_modFocus, modFocus_modFocus]
  exact modFocus_congr hx ht (modStream_congr _ st (by rw [hkept]))

include hx ht in
theorem modWalk_eq (w : Walk → Walk) :
    s.modWalk st w = s.modFocusStream st fun _ => { t.streamAt st with walk := w (t.streamAt st).walk } :=
  modFocusStream_congr hx ht rfl

end

/-- Settles O28: what each event of a stream does, by its own lemma; the changes that it makes to the tile in focus are one change of it. -/
theorem streamControl : Obligations.StreamControl := by
  unfold Obligations.StreamControl
  refine ⟨fun s x t st hx ht hplace => ⟨fun c rest hq hst hskip hpend => ⟨?_, ?_, ?_⟩, fun hstop hout => ⟨?_, ?_⟩,
    fun hrun hstop hdone hframe htoken => ⟨?_, ?_⟩⟩, fun s x t st hx ht hplace hrun hstop => ⟨fun hframe hout => ⟨?_, ?_, ?_⟩, ?_⟩⟩
  · intro d hc
    exact exec_take_sdef hx ht hplace hq hst hskip hpend hc
  · intro hc hdefined hok
    have hexec := exec_take_sgo hx ht hplace hq hst hskip hpend hc hdefined hok
    obtain ⟨hinsts, hhbm, hhost⟩ := modFocus_of_onlyContexts
      (onlyContexts_tookAll (dequeued s st rest) s.focus.inst s.focus.tile (whoStream st) x.tag)
      fun t => t.modStream st fun y => { y with st := .running, walk := Walk.start y.desc }
    refine ⟨_, hexec, hhbm, hhost, hinsts.trans ?_⟩
    show ((dequeued s st rest).modFocusStream st _).insts = _
    rw [dequeued, modFocusStream_modFocusStream]
    exact congrArg State.insts (modFocusStream_congr hx ht rfl)
  · intro code hc hcode hfin
    have hexec := exec_take_sgo_faulted hx ht hplace hq hst hskip hpend hc hcode
    obtain ⟨f, hfault, hcode, hengine⟩ :=
      tile?_streamCode (s := dequeued s st rest) (st := st) (tile?_dequeued hx ht) hfin code
    have hstream := streamAt_faulted_modStream st f t fun y => { y with queue := rest }
    refine ⟨_, _, f, hexec, hfault, ?_⟩
    exact ⟨congrArg Stream.st hstream, congrArg Stream.queue hstream, mem_pendStream st f _, hcode, hengine, by simp, by simp, by simp,
      by simp⟩
  · intro hfailed
    obtain ⟨hinsts, hhbm, hhost⟩ := modFocus_of_onlyContexts
      (onlyContexts_tookAll s s.focus.inst s.focus.tile (whoStream st) x.tag)
      fun t => t.modStream st fun y => { y with st := .defined, stopping := false, walk := Walk.start y.desc }
    refine ⟨_, exec_stopDone hx ht hstop hout hfailed, hhbm, hhost, hinsts.trans ?_⟩
    exact congrArg State.insts (modFocusStream_congr hx ht rfl)
  · intro code k va hfailed hfin
    have hfault := tile?_streamFault (s := stopped s x.tag st) (st := st) (f := readPFault 2 code (some (k, va)) va)
      (tile?_stopped hx ht x.tag) hfin rfl
    have hstream := streamAt_faulted_modStream st (readPFault 2 code (some (k, va)) va) t fun y =>
      { y with st := .defined, stopping := false, walk := Walk.start y.desc }
    refine ⟨_, _, readPFault 2 code (some (k, va)) va, exec_stopDone_failed hx ht hstop hout hfailed, hfault, ?_⟩
    exact ⟨congrArg Stream.st hstream,
      congrArg Stream.stopping hstream, mem_pendStream st _ _, rfl, rfl, by simp, by simp, by simp⟩
  · intro hsem
    exact exec_completion hx ht hplace hrun hstop hdone hframe htoken hsem
  · intro k hsem hk hroom
    exact exec_completion_sem hx ht hplace hrun hstop hdone hframe htoken hsem hk hroom
  · intro hread hport hbound hroom
    rw [exec_frameEnd_read hx ht hplace hrun hstop hframe hout hread (deliverBeat_of_channel hport hbound hroom),
      modWalk_modFocus hx ht (f := fun t' => t'.modChan _ _) rfl]
    rfl
  · intro hwrite hfe
    rw [exec_frameEnd_write hx ht hplace hrun hstop hframe hout hwrite fun h => absurd h (by simp [hfe]), hfe,
      if_neg Bool.false_ne_true, modWalk_eq hx ht]
    rfl
  · intro hwrite hfe hmarks
    refine ⟨_, exec_frameEnd_write hx ht hplace hrun hstop hframe hout hwrite fun _ => hmarks, fun g hg => ?_, fun k => ?_⟩
    · rw [if_pos hfe]
      exact full_modWalk (full_markFull hg s) st _
    · rw [if_pos hfe, byteAt_modWalk, byteAt_markFull]
  · intro hframe htoken hroom
    rw [exec_frameEnd_token hx ht hplace hrun hstop hframe htoken hroom,
      modWalk_modFocus hx ht (f := fun t' => t'.fifoPush 2 _) rfl]

end Sys2Proof.Streams
end

section
/-! A linked write stream whose list ends in mid-frame (R168, R169). -/

open Sys2Proof.Machine

namespace Sys2Proof.Streams

/-- The descriptor of a linked write stream of i32: frames of 384 units, two beats; at most two nodes, the first at the start of the slice, each
of 192 units with its pointer behind them, at offset 768. -/
def listDesc : Rec64 := 0x30000c000000000000000000000000000000000000000000000000000000200001000010040000000000000ab00000006000000

/-- The stream has written one beat, which bore no end bit, to the first node, and comes to that node's pointer. -/
def atPointer : Stream :=
  { Stream.start with
    st := .running, desc := listDesc, walk := { Walk.start listDesc with popped := true, n := 192, j := 192, beats := 1 } }

/-- The tile of that stream. Its slice holds 0 everywhere, so that the pointer is null. -/
def listTile : Tile := (Tile.blank 0 0 0 1 0xFF).modStream 0 fun _ => atPointer

/-- The kernel of one tile. -/
def listInst : Inst := { Inst.single (Block.ofWord 0) with tiles := [listTile] }

/-- The package whose one kernel that is. -/
def listState : State := { State.reset.withWord 0 with insts := [listInst] }

/-- The faults of streams that are pending at the first tile of a state. -/
def pendingFaults (s : State) : Option (List (BitVec 4 × PFault)) := (s.tile? 0 0).map fun t => t.seq.pend.streams

/-- The same of what an outcome leaves. -/
def faultsLeft : Res → Option (List (Byte × BitVec 4))
  | .next s => (pendingFaults s).map fun l => l.map fun p => (p.2.code, p.1)
  | _ => none

theorem pendingFaults_congr {s s' : State} (h : s'.insts = s.insts) : pendingFaults s' = pendingFaults s := by
  simp only [pendingFaults, State.tile?, State.inst?, h]

/-- The address of the pointer. -/
theorem pointerVa : atPointer.walk.node + ((sdWord listDesc).extractLsb' 16 16).signExtend 64 = 0x40000000000300 := by decide +kernel

theorem checkRange_pointer : listState.checkRange 0 1 2 .read false 0x40000000000300 8 8 = .ok [(.slice 0 768, .b8)] := rfl

/-- Refutes O29: the clause of linked streams lets the step that comes to a node's pointer change nothing but the stream itself. Where the
pointer is null the list ends, and a write stream that is then in mid-frame, with no end bit in its last beat, takes the length mismatch of
R169. In `listState` one beat of 192 units of a frame of 384 is written, and the pointer at offset 768 of the slice is 0: the step makes fault
0x0E pending for stream 0. -/
theorem not_streamWalks : ¬ Obligations.StreamWalks := by
  unfold Obligations.StreamWalks
  intro h
  obtain ⟨-, -, -, hlink, -⟩ := h listState listInst listTile 0 rfl rfl (by decide +kernel) (by decide +kernel)
  obtain ⟨s', u, hexec, -, -, hinsts, -⟩ := hlink [(.slice 0 768, .b8)] (List.replicate 8 0) listState (by decide +kernel)
    (by decide +kernel) (by decide +kernel) (pointerVa ▸ checkRange_pointer) (by decide +kernel) rfl
  have hfault : faultsLeft (exec (.streamUnit 0) listState) = some [(cLength, 0)] := by decide +kernel
  rw [hexec, faultsLeft, pendingFaults_congr hinsts] at hfault
  have hnone : pendingFaults (listState.modFocusStream 0 fun _ => u) = some [] := rfl
  rw [hnone] at hfault
  cases hfault

end Sys2Proof.Streams
end

section
/-! Copy engines (R178-R180): packets and permits that arrive, packets that start, age and complete. -/

open Sys2Proof.Machine
open Sys2Proof.Homes

namespace Sys2Proof.Copies

/-! ### Engines -/

theorem copy_modCopy_of_getElem? {s : State} {eng : Nat} {e : CpEngine} (he : s.copy[eng]? = some e) (f : CpEngine → CpEngine) :
    (s.modCopy eng f).copy[eng]? = some (f e) := by
  obtain ⟨hlt, rfl⟩ := Vector.getElem?_eq_some_iff.mp he
  rw [State.modCopy, Streams.vmod_eq_set _ hlt]
  simp

theorem modCopy_modCopy (s : State) (eng : Nat) (f g : CpEngine → CpEngine) :
    (s.modCopy eng f).modCopy eng g = s.modCopy eng fun e => g (f e) := by
  simp only [State.modCopy, Streams.vmod_vmod]

theorem modInst_congr {s : State} {i : Nat} {x : Inst} {f g : Inst → Inst} (hx : s.inst? i = some x) (h : f x = g x) :
    s.modInst i f = s.modInst i g := by
  have hx' : s.insts[i]? = some x := hx
  simp only [State.modInst]
  congr 1
  rw [List.modify_eq_set_getElem?, List.modify_eq_set_getElem?, hx']
  simp [h]

/-! ### Packets that start (R179, R180) -/

/-- A permit counter of an instance is no part of what its packets are. -/
def Alike (x? y? : Option Inst) : Prop :=
  x?.map (fun x => (x.tag, x.groups, x.tiles.length)) = y?.map fun x => (x.tag, x.groups, x.tiles.length)

theorem cpMembers_congr {x? y? : Option Inst} (h : Alike x? y?) (p : Rec64) : cpMembers x? p = cpMembers y? p := by
  cases x? <;> cases y? <;> simp_all [Alike, cpMembers, Inst.members]

theorem cpBad_congr {x? y? : Option Inst} (h : Alike x? y?) (p : Rec64) : cpBad x? p = cpBad y? p := by
  have hmembers := cpMembers_congr h p
  cases x? <;> cases y? <;> simp_all [Alike, cpBad]

theorem cpTask_congr {s s' : State} {eng : Nat} {p : CpPkt} (h : Alike (s'.inst? p.inst) (s.inst? p.inst)) :
    s'.cpTask eng p = s.cpTask eng p := by
  have haddrs : cpAddrs (s'.inst? p.inst) p.pkt = cpAddrs (s.inst? p.inst) p.pkt := by
    simp only [cpAddrs, cpMembers_congr h]
  have htag : s'.cpTag p = s.cpTag p := by
    cases hs : s.inst? p.inst <;> cases hs' : s'.inst? p.inst <;> simp_all [Alike, State.cpTag]
  simp only [State.cpTask, haddrs, htag]

theorem cpBegin_congr {s s' : State} {eng : Nat} {p : CpPkt} (h : Alike (s'.inst? p.inst) (s.inst? p.inst)) :
    s'.cpBegin eng p = s.cpBegin eng p := by
  simp only [State.cpBegin, cpTask_congr h, cpMembers_congr h]

/-- The state after a packet that starts has taken its permit, where it needs one. -/
def permitTaken (s : State) (eng : Nat) (p : CpPkt) : State :=
  if cpPermit p.pkt then s.modInst p.inst fun x => x.setPermit eng (cpCounter p.pkt) (x.permitAt eng (cpCounter p.pkt) - 1) else s

theorem alike_permitTaken (s : State) (eng : Nat) (p : CpPkt) : Alike ((permitTaken s eng p).inst? p.inst) (s.inst? p.inst) := by
  rw [permitTaken]
  split
  · rw [State.inst?_modInst]
    cases s.inst? p.inst <;> rfl
  · rfl

theorem permitTaken_modCopy (s : State) (eng : Nat) (p : CpPkt) (f : CpEngine → CpEngine) :
    permitTaken (s.modCopy eng f) eng p = (permitTaken s eng p).modCopy eng f := by
  rw [permitTaken, permitTaken]
  split <;> rfl

/-- An engine whose packet has left its FIFO. -/
def picked (p : CpPkt) (e : CpEngine) : CpEngine :=
  { e with waiting := e.waiting.filter fun q => q.ord != p.ord, last := putKey p.level p.src e.last }

/-! ### Age (R179) -/

theorem mem_of_leastPkt {f : CpPkt → Nat} {l : List CpPkt} {p : CpPkt} (h : leastPkt f l = some p) : p ∈ l := by
  induction l generalizing p with
  | nil => cases h
  | cons q l ih =>
    rw [leastPkt] at h
    split at h
    case h_1 => exact Option.some.inj h ▸ List.mem_cons_self
    case h_2 r hr =>
      split at h
      · exact Option.some.inj h ▸ List.mem_cons_of_mem _ (ih hr)
      · exact Option.some.inj h ▸ List.mem_cons_self

/-- A packet below all others in a measure has the least of it. -/
theorem leastPkt_eq_some {f : CpPkt → Nat} {l : List CpPkt} {p : CpPkt} (hp : p ∈ l) (hmin : ∀ q ∈ l, q ≠ p → f p < f q) :
    leastPkt f l = some p := by
  induction l with
  | nil => cases hp
  | cons q l ih =>
    rw [leastPkt]
    by_cases hl : p ∈ l
    · rw [ih hl fun r hr => hmin r (List.mem_cons_of_mem q hr)]
      by_cases hq : q = p
      · subst hq
        simp
      · simp [hmin q List.mem_cons_self hq]
    · obtain rfl : p = q := (List.mem_cons.mp hp).resolve_right hl
      split
      case h_1 => rfl
      case h_2 r hr =>
        have hrl := mem_of_leastPkt hr
        have hlt := hmin r (List.mem_cons_of_mem p hrl) (fun h => hl (h ▸ hrl))
        rw [if_neg (Nat.not_lt.mpr (Nat.le_of_lt hlt))]

/-! ### Frames of packets (R180) -/

/-- The units of a frame as they stand at the packet input. -/
def arrived (src : CpSrc) (i vc : Nat) (us : List LinkUnit) : List CpIn := us.map fun u => ⟨src, i, vc, u⟩

theorem takeFrame_arrived {src : CpSrc} {i vc : Nat} {us : List LinkUnit} {v : LinkUnit} (hopen : ∀ u ∈ us, u.last = false)
    (hend : v.last = true) (w : LinkUnit) (rest : List CpIn) :
    takeFrame ⟨src, i, vc, w⟩ (arrived src i vc (us ++ [v]) ++ rest) = some (us ++ [v], rest) := by
  induction us with
  | nil => simp [arrived, takeFrame, hend]
  | cons u us ih =>
    obtain ⟨hu, hus⟩ := List.forall_mem_cons.mp hopen
    show takeFrame _ (⟨src, i, vc, u⟩ :: (arrived src i vc (us ++ [v]) ++ rest)) = _
    simp [takeFrame, hu, ih hus]

theorem find?_arrived {src : CpSrc} {i vc : Nat} {us : List LinkUnit} {v : LinkUnit} {e : CpEngine} (hopen : ∀ u ∈ us, u.last = false)
    (hend : v.last = true) (hroom : e.room src = true) (rest : List CpIn) :
    (arrived src i vc (us ++ [v]) ++ rest).find? (fun u => u.unit.last && e.room u.src) = some ⟨src, i, vc, v⟩ := by
  have hfirst : (arrived src i vc us).find? (fun u => u.unit.last && e.room u.src) = none := by
    simpa [arrived, List.find?_eq_none] using fun u hu h => absurd h (by simp [hopen u hu])
  rw [arrived, List.map_append, List.append_assoc, List.find?_append, ← arrived, hfirst]
  simp [hend, hroom]

/-- A packet enters the FIFO of its source. -/
theorem copy_cpEnqueue {s : State} {eng : Nat} {e : CpEngine} (he : s.copy[eng]? = some e) {i : Nat} (hgoes : s.cut i = false)
    (src : CpSrc) (tag : Byte) (t : Nat) (pkt : Rec64) (mode : BitVec 3) (queue : Option (BitVec 4 × Nat)) :
    ∃ q e', (s.cpEnqueue eng src tag i t pkt mode queue).copy[eng]? = some e' ∧ e'.waiting = e.waiting ++ [q] ∧ e'.inbox = e.inbox ∧
      e'.active = e.active ∧ q.src = src ∧ q.inst = i ∧ q.pkt = pkt := by
  simp only [State.cpEnqueue, hgoes, Bool.false_eq_true, if_false]
  exact ⟨_, _, copy_modCopy_of_getElem? he _, rfl, rfl, rfl, rfl, rfl, rfl⟩

/-- What stands outside the copy engines stays. -/
theorem cpEnqueue_keeps (s : State) (eng : Nat) (src : CpSrc) (tag : Byte) (i t : Nat) (pkt : Rec64) (mode : BitVec 3)
    (queue : Option (BitVec 4 × Nat)) : ∃ c, s.cpEnqueue eng src tag i t pkt mode queue = { s with copy := c } := by
  simp only [State.cpEnqueue]
  split
  · exact ⟨s.copy, rfl⟩
  · exact ⟨_, rfl⟩

section
variable {s : State} {eng : Nat} {e : CpEngine} (he : s.copy[eng]? = some e)
include he

/-- A whole frame of 8 units is one packet, whatever of its source the model fills in beside it. -/
theorem exec_packetFrame {src : CpSrc} {i vc : Nat} {us : List LinkUnit} {v : LinkUnit} {rest : List CpIn} (hgoes : s.cut i = false)
    (hlen : (us ++ [v]).length = 8) (hvalid : ∀ u ∈ us ++ [v], u.void = false) (hopen : ∀ u ∈ us, u.last = false) (hend : v.last = true)
    (hroom : e.room src = true) (hin : e.inbox = arrived src i vc (us ++ [v]) ++ rest) :
    ∃ tag t mode, exec (.copyPacketFrame eng) s = .next ((s.modCopy eng fun e => { e with inbox := rest }).cpEnqueue eng src tag i t
      (BitVec.ofNat 512 (ofElems 64 ((us ++ [v]).map fun u => u.bits.toNat % 2 ^ 64))) mode none) := by
  have hfind := find?_arrived (i := i) (vc := vc) hopen hend hroom rest
  have htake := takeFrame_arrived (src := src) (i := i) (vc := vc) hopen hend v rest
  have hwhole : (us ++ [v]).filter (fun u => !u.void) = us ++ [v] := List.filter_eq_self.mpr fun u hu => by simp [hvalid u hu]
  have hgoes' : (s.modCopy eng fun e => { e with inbox := rest }).cut i = false := hgoes
  show ∃ tag t mode, execCopyPacketFrame eng s = _
  simp only [execCopyPacketFrame, he, hin, hfind, htake, hwhole, hgoes', hlen, Bool.false_eq_true, if_false, if_true]
  exact ⟨_, _, _, rfl⟩

theorem exec_packetStart {p : CpPkt} (hpick : e.pick (e.heads.filter (s.cpStartable eng)) = some p)
    (hok : cpBad (s.inst? p.inst) p.pkt = false) :
    exec (.copyPacketStart eng) s = .next ((permitTaken s eng p).modCopy eng fun e =>
      { picked p e with active := e.active ++ [s.cpBegin eng p] }) := by
  have halike := alike_permitTaken (s.modCopy eng (picked p)) eng p
  have hok' : cpBad ((permitTaken (s.modCopy eng (picked p)) eng p).inst? p.inst) p.pkt = false := (cpBad_congr halike p.pkt).trans hok
  have hbegin := cpBegin_congr (eng := eng) halike
  have hstart : exec (.copyPacketStart eng) s =
      if cpBad ((permitTaken (s.modCopy eng (picked p)) eng p).inst? p.inst) p.pkt then
        .next ((permitTaken (s.modCopy eng (picked p)) eng p).copyFault p
          { code := cIllegal, engine := 0, info := (permitTaken (s.modCopy eng (picked p)) eng p).openVaInfo, page := none })
      else .next ((permitTaken (s.modCopy eng (picked p)) eng p).modCopy eng fun e =>
        { e with active := e.active ++ [(permitTaken (s.modCopy eng (picked p)) eng p).cpBegin eng p] }) := by
    show execCopyPacketStart eng s = _
    simp only [execCopyPacketStart, he, hpick]
    rfl
  rw [hstart, hok', if_neg Bool.false_ne_true, hbegin, permitTaken_modCopy, modCopy_modCopy]
  rfl

theorem exec_priorityAge {p : CpPkt} (hp : p ∈ e.waiting) (hlevel : max 1 p.bound < p.level) (hage : agePeriod ≤ p.waited)
    (hfirst : ∀ q ∈ e.waiting, q ≠ p → max 1 q.bound < q.level → agePeriod ≤ q.waited → p.ord < q.ord) :
    exec (.copyPriorityAge eng) s = .next (s.modCopy eng fun e =>
      { e with waiting := e.waiting.map fun q => if q.ord = p.ord then { q with level := q.level - 1, waited := q.waited - agePeriod } else q }) := by
  have hleast : leastPkt (·.ord) (e.waiting.filter fun p => decide (Nat.max 1 p.bound < p.level) && decide (agePeriod ≤ p.waited)) = some p := by
    refine leastPkt_eq_some (List.mem_filter.mpr ⟨hp, by simp [hlevel, hage]⟩) fun q hq hne => ?_
    obtain ⟨hmem, haged⟩ := List.mem_filter.mp hq
    obtain ⟨hq1, hq2⟩ := Bool.and_eq_true_iff.mp haged
    exact hfirst q hmem hne (of_decide_eq_true hq1) (of_decide_eq_true hq2)
  show execCopyPriorityAge eng s = _
  simp only [execCopyPriorityAge, he, hleast, beq_iff_eq]

theorem exec_permitUnit {src : CpSrc} {i : Nat} {v : BitVec 5} {rest : List (CpSrc × Nat × BitVec 5)} {x : Inst}
    (hin : e.permitIn = (src, i, v) :: rest) (hx : s.insts[i]? = some x) (hgoes : x.escalated = false)
    (hroom : x.permitAt eng v.toNat < 65535) :
    exec (.permitUnit eng) s = .next ((s.modCopy eng fun e => { e with permitIn := rest }).modInst i fun x =>
      x.setPermit eng v.toNat (x.permitAt eng v.toNat + 1)) := by
  have hx' : (s.modCopy eng fun e => { e with permitIn := rest }).inst? i = some x := hx
  show execPermitUnit eng s = _
  simp only [execPermitUnit, he, hin, hx', hgoes, hroom, Bool.false_eq_true, if_false, if_true]
  exact congrArg _ (modInst_congr hx' rfl)

/-! ### Completions (R178) -/

section
variable {a : CpActive}

theorem exec_completion_mark {g : Nat × Nat} (hpick : pickOf (Config.copyPick s.now) (s.cpDues eng e) = some (a, .mark g)) :
    exec (.copyCompletion eng) s =
      .next ((s.putCopy eng { a with job := { a.job with marked := a.job.marked ++ [g] } }).markFull a.p.inst [g]) := by
  show execCopyCompletion eng s = _
  simp only [execCopyCompletion, he, hpick]

theorem exec_completion_dest {d : Nat} (hpick : pickOf (Config.copyPick s.now) (s.cpDues eng e) = some (a, .dest d)) :
    exec (.copyCompletion eng) s =
      .next ((if cpSem a.p.pkt then s.semAdd a.p.inst d (a.p.pkt.extractLsb' 362 6) (cpAdd a.p.pkt) a.p.source else s).putCopy eng
        { a with dests := a.dests.filter fun k => k != d }) := by
  show execCopyCompletion eng s = _
  simp only [execCopyCompletion, he, hpick]

theorem exec_completion_over {p : Nat} (hpick : pickOf (Config.copyPick s.now) (s.cpDues eng e) = some (a, .over))
    (hsrc : a.p.src = .tile p) : exec (.copyCompletion eng) s = .next (s.endCopy eng a) := by
  show execCopyCompletion eng s = _
  simp only [execCopyCompletion, he, hpick, hsrc]

end

end

/-! ### The completions that are due (R178) -/

section
variable (s : State) (eng : Nat) (a : CpActive)

theorem mem_marks {j : CopyJob} {g : Nat × Nat} :
    g ∈ j.marks ↔ g ∈ j.wrote ∧ g ∉ j.marked ∧ ∀ w ∈ j.unwritten, vaGranule w ≠ g := by
  simp [CopyJob.marks]

theorem doneAt_none {j : CopyJob} : j.doneAt none = true ↔ j.unwritten = [] ∧ ∀ g ∈ j.wrote, g ∈ j.marked := by
  simp [CopyJob.doneAt, List.eq_nil_iff_forall_not_mem]

theorem doneAt_some {j : CopyJob} {d : Nat} :
    j.doneAt (some d) = true ↔ (∀ w ∈ j.unwritten, (vaGranule w).1 ≠ d) ∧ ∀ g ∈ j.wrote, g.1 ≠ d ∨ g ∈ j.marked := by
  simp [CopyJob.doneAt]

theorem mem_cpEnds_mark (g : Nat × Nat) : CopyEnd.mark g ∈ s.cpEnds eng a ↔
    g ∈ a.job.wrote ∧ g ∉ a.job.marked ∧ (∀ w ∈ a.job.unwritten, vaGranule w ≠ g) ∧ s.markFree a.p.inst g = true := by
  have hmem : CopyEnd.mark g ∈ s.cpEnds eng a ↔ g ∈ a.job.marks ∧ s.markFree a.p.inst g = true := by
    simp [State.cpEnds]
  rw [hmem, mem_marks]
  tauto

theorem mem_cpEnds_over : CopyEnd.over ∈ s.cpEnds eng a ↔ a.dests = [] ∧ a.job.unwritten = [] := by
  simp [State.cpEnds]

theorem mem_cpEnds_dest (d : Nat) : CopyEnd.dest d ∈ s.cpEnds eng a ↔
    d ∈ a.dests ∧ s.storesOut (s.cpTag a.p) a.p.inst a.p.tile (whoCopy eng a.p.level) = false ∧
      (∀ w ∈ a.job.unwritten, cpOp a.p.pkt = 4 ∧ (vaGranule w).1 ≠ d) ∧
      ∀ g ∈ a.job.wrote, g ∈ a.job.marked ∨ (cpOp a.p.pkt = 4 ∧ g.1 ≠ d) := by
  have hmem : CopyEnd.dest d ∈ s.cpEnds eng a ↔ d ∈ a.dests ∧
      s.storesOut (s.cpTag a.p) a.p.inst a.p.tile (whoCopy eng a.p.level) = false ∧
      a.job.doneAt (if cpOp a.p.pkt == 4 then some d else none) = true := by
    simp [State.cpEnds]
  rw [hmem]
  by_cases hop : cpOp a.p.pkt = 4
  · simp only [hop, beq_self_eq_true, if_true, doneAt_some, true_and, or_comm]
  · simp only [hop, beq_iff_eq, if_false, doneAt_none, false_and, or_false, List.eq_nil_iff_forall_not_mem, imp_false]

end

/-- Eight units of which the last alone ends the frame. -/
theorem frame_split {us : List LinkUnit} (hlen : us.length = 8) (h : ∀ k < 8, ∀ u, us[k]? = some u → u.void = false ∧ u.last = decide (k = 7)) :
    ∃ init v, us = init ++ [v] ∧ (∀ u ∈ us, u.void = false) ∧ (∀ u ∈ init, u.last = false) ∧ v.last = true := by
  have hsplit : us = us.take 7 ++ [us[7]] := by
    rw [List.take_append_getElem, List.take_of_length_le (by omega)]
  refine ⟨us.take 7, us[7], hsplit, fun u hu => ?_, fun u hu => ?_, ?_⟩
  · obtain ⟨k, hk⟩ := List.mem_iff_getElem?.mp hu
    obtain ⟨hlt, -⟩ := List.getElem?_eq_some_iff.mp hk
    exact (h k (hlen ▸ hlt) u hk).1
  · obtain ⟨k, hk, rfl⟩ := List.mem_take_iff_getElem.mp hu
    have hlast := (h k (by omega) _ (List.getElem?_eq_getElem (by omega))).2
    rw [hlast]
    exact decide_eq_false (by omega)
  · exact (h 7 (by omega) _ (List.getElem?_eq_getElem (by omega))).2

/-- Settles O31: what each event of an engine does, by its own lemma, and the members of the list of completions that are due. -/
theorem copyControl : Obligations.CopyControl := by
  unfold Obligations.CopyControl
  refine ⟨fun s eng e he => ⟨fun p hpick hok => ?_, fun p hp hlevel hage hfirst => ?_, fun src i vc us rest hgoes hlen hunits hroom hin => ?_,
    fun src i v rest x hin hx hgoes hroom => ?_⟩, fun s eng e a q he hpick => ⟨fun g hq => ?_, fun d hq => ⟨fun hsem => ?_, ?_⟩,
    fun p hq hsrc => ?_⟩, fun s eng a => ⟨mem_cpEnds_mark s eng a, mem_cpEnds_dest s eng a, mem_cpEnds_over s eng a⟩⟩
  · exact exec_packetStart he hpick hok
  · exact exec_priorityAge he hp hlevel hage hfirst
  · obtain ⟨init, v, rfl, hvalid, hopen, hend⟩ := frame_split hlen hunits
    obtain ⟨tag, t, mode, hexec⟩ := exec_packetFrame he hgoes hlen hvalid hopen hend (decide_eq_true hroom) hin
    obtain ⟨q, e', he', hwaiting, hinbox, hactive, hq⟩ := copy_cpEnqueue
      (s := s.modCopy eng fun e => { e with inbox := rest }) (copy_modCopy_of_getElem? he _) hgoes src tag t
      (BitVec.ofNat 512 (ofElems 64 ((init ++ [v]).map fun u => u.bits.toNat % 2 ^ 64))) mode none
    obtain ⟨c, hc⟩ := cpEnqueue_keeps (s.modCopy eng fun e => { e with inbox := rest }) eng src tag i t
      (BitVec.ofNat 512 (ofElems 64 ((init ++ [v]).map fun u => u.bits.toNat % 2 ^ 64))) mode none
    refine ⟨_, e', q, hexec, he', hinbox, hwaiting, hactive, ?_⟩
    rw [hc]
    exact ⟨rfl, rfl, rfl, hq⟩
  · exact exec_permitUnit he hin hx hgoes hroom
  · subst hq
    exact ⟨_, exec_completion_mark he hpick, rfl, Streams.full_markFull (List.mem_singleton_self g) _, fun k =>
      (Streams.byteAt_markFull _ _ _ _ k).trans (byteAt_congr rfl rfl rfl _ k)⟩
  · subst hq
    rw [exec_completion_dest he hpick, hsem, if_neg Bool.false_ne_true]
  · intro y k hsem hk hy hplace hroom
    subst hq hk
    rw [exec_completion_dest he hpick, if_pos hsem, Streams.semAdd_of_room hy hplace hroom]
    rfl
  · subst hq
    exact ⟨_, exec_completion_over he hpick hsrc, rfl, rfl, rfl, rfl⟩

end Sys2Proof.Copies
end

section
/-! HALO (R181-R183): the acts of its directions, the word to its sender, and the places of its rows. -/

open Sys2Proof.Machine
open Sys2Proof.Homes

namespace Sys2Proof.Halos

/-! ### The tiles of a state after a write or a mark -/

@[simp] theorem focus_writeLoc (s : State) (i : Nat) (l : Loc) (bs : List Byte) : (s.writeLoc i l bs).focus = s.focus := by
  cases l <;> rfl

@[simp] theorem focus_hbmBytes (s : State) (tag : Byte) (write : Bool) (l : Loc) (n : Nat) :
    (s.hbmBytes tag write l n).focus = s.focus := by
  obtain ⟨f, hf⟩ := hbmBytes_eq s tag write l n
  rw [hf]; rfl

/-- A tile in which nothing has changed but its slice, the marks of its granules, and who waits for them. -/
def OnlySlice (t y : Tile) : Prop :=
  y = { t with slice := y.slice, full := y.full, bad := y.bad, watches := y.watches, wakes := y.wakes, takes := y.takes }

theorem onlySlice_modTile {s : State} {i j k m : Nat} {t : Tile} {f : Tile → Tile} (hf : ∀ y, OnlySlice y (f y))
    (ht : s.tile? k m = some t) : ∃ y, (s.modTile i j f).tile? k m = some y ∧ OnlySlice t y := by
  rw [tile?_modTile_eq, ht]
  split
  · exact ⟨f t, rfl, hf t⟩
  · exact ⟨t, rfl, rfl⟩

theorem onlySlice_writeLoc {s : State} {j k : Nat} {t : Tile} (ht : s.tile? j k = some t) (i : Nat) (l : Loc) (bs : List Byte) :
    ∃ y, (s.writeLoc i l bs).tile? j k = some y ∧ OnlySlice t y := by
  cases l with
  | slice u o => exact onlySlice_modTile (fun _ => rfl) ht
  | hbm p => exact ⟨t, ht, rfl⟩
  | host p => exact ⟨t, ht, rfl⟩
  | remote q v => exact ⟨t, ht, rfl⟩

theorem onlySlice_mark {s : State} {j k : Nat} {t : Tile} (ht : s.tile? j k = some t) (i : Nat) (g : Nat × Nat) :
    ∃ y, (s.markFull i [g]).tile? j k = some y ∧ OnlySlice t y :=
  onlySlice_modTile (f := fun y => y.setFull g.2 true) (fun _ => rfl) ht

/-! ### The HALOs of a tile -/

/-- The HALOs of a tile after one of them is replaced, or gone. -/
def replaced (t : Tile) (k : Nat) (h : Option Halo) : Tile := { t with halos := t.halos.take k ++ h.toList ++ t.halos.drop (k + 1) }

theorem putHalo_eq (s : State) (k : Nat) (h : Option Halo) : s.putHalo k h = s.modFocus fun t => replaced t k h := rfl

theorem tile?_putHalo {s : State} {t : Tile} (ht : s.tile? s.focus.inst s.focus.tile = some t) (k : Nat) (h : Option Halo) :
    (s.putHalo k h).tile? s.focus.inst s.focus.tile = some (replaced t k h) := by
  rw [putHalo_eq, State.tile?_modFocus, ht, Option.map_some]

theorem byteAt_putHalo (s : State) (k : Nat) (h : Option Halo) (i : Nat) (l : Loc) : (s.putHalo k h).byteAt i l = s.byteAt i l :=
  byteAt_modTile (f := fun t => replaced t k h) (fun _ => rfl) _ _ _ _ _

/-- A HALO after a direction has come as far as its job says; it is gone once no direction is left and its sender is told. -/
def advanced (h : Halo) (jobs : List (Dir × CopyJob)) (dir : Dir) (j : Option CopyJob) : Option Halo :=
  if (putDir dir j jobs).isEmpty && h.sent then none else some { h with left := some (putDir dir j jobs) }

theorem putDir_ne_nil {dir : Dir} {jobs : List (Dir × CopyJob)} {j : CopyJob} (hj : lookupKey dir jobs = some j) (j' : CopyJob) :
    putDir dir (some j') jobs ≠ [] := by
  obtain ⟨p, hp, -⟩ := Option.map_eq_some_iff.mp hj
  have hmem : (dir, j') ∈ putDir dir (some j') jobs :=
    List.mem_filterMap.mpr ⟨p, List.mem_of_find?_eq_some hp, if_pos (List.find?_some hp)⟩
  exact List.ne_nil_of_mem hmem

theorem advanced_of_job {dir : Dir} {jobs : List (Dir × CopyJob)} {j : CopyJob} (hj : lookupKey dir jobs = some j) (h : Halo) (j' : CopyJob) :
    advanced h jobs dir (some j') = some { h with left := some (putDir dir (some j') jobs) } := by
  rw [advanced, List.isEmpty_eq_false_iff.mpr (putDir_ne_nil hj j'), Bool.false_and, if_neg Bool.false_ne_true]

theorem toList_advanced_none (h : Halo) (jobs : List (Dir × CopyJob)) (dir : Dir) :
    (advanced h jobs dir none).toList =
      if putDir dir none jobs = [] ∧ h.sent = true then [] else [{ h with left := some (putDir dir none jobs) }] := by
  simp only [advanced, Bool.and_eq_true, List.isEmpty_iff]
  split <;> rfl

/-! ### The acts of a direction (R181, R183) -/

section
variable {s : State} {x : Inst} {t : Tile} {h : Halo} {n : Nat} {dir : Dir} {nb : Nat} {j : CopyJob}

theorem goes_on (hok : h.left.isSome = true ∨ haloOk h.desc = true) : (h.left.isNone && !haloOk h.desc) = false := by
  obtain hleft | hdesc := hok
  · rw [Option.isNone_eq_false_iff.mpr hleft, Bool.false_and]
  · rw [hdesc, Bool.not_true, Bool.and_false]

theorem exec_direction (hx : s.insts[s.focus.inst]? = some x) (ht : x.tiles[s.focus.tile]? = some t)
    (hpick : pickOf (Config.copyPick s.now) (s.halosFor x t dir) = some (h, n)) (hok : h.left.isSome = true ∨ haloOk h.desc = true) :
    exec (.haloDirectionComplete dir) s = s.haloStep x t n h dir := by
  show execHaloDirectionComplete dir s = _
  rw [execHaloDirectionComplete, s.onTile_of x t _ hx ht]
  simp only [hpick, goes_on hok, Bool.false_eq_true, if_false]

variable (hnb : x.neighbour t s.focus.tile dir = some nb) (hj : lookupKey dir (h.jobs x t s.focus.inst s.focus.tile) = some j)
  (hrange : haloRange h.desc dir s.focus.tile nb = none)
include hnb hj hrange

theorem haloStep_of_done {q : Nat ⊕ W64} {s1 : State} {bs : List Byte} {flags : BitVec 5} {j' : CopyJob}
    (hpick : pickOf (Config.copyPick (s.now + 1)) (haloActs s (haloTask s.focus.inst x.tag s.focus.tile nb h.desc dir) j) = some (.inl q))
    (hact : s.copyAct (haloTask s.focus.inst x.tag s.focus.tile nb h.desc dir) j q = (.done s1 bs flags, j')) :
    s.haloStep x t n h dir = .next (s1.putHalo n (advanced h (h.jobs x t s.focus.inst s.focus.tile) dir (some j'))) := by
  rw [State.haloStep]
  simp only [hnb, hj, hrange, hpick, hact]
  rfl

theorem haloStep_of_mark {g : Nat × Nat}
    (hpick : pickOf (Config.copyPick (s.now + 1)) (haloActs s (haloTask s.focus.inst x.tag s.focus.tile nb h.desc dir) j) =
      some (.inr (.mark g))) :
    s.haloStep x t n h dir = .next ((s.putHalo n (advanced h (h.jobs x t s.focus.inst s.focus.tile) dir
      (some { j with marked := j.marked ++ [g] }))).markFull s.focus.inst [g]) := by
  rw [State.haloStep]
  simp only [hnb, hj, hrange, hpick]
  rfl

theorem haloStep_of_over
    (hpick : pickOf (Config.copyPick (s.now + 1)) (haloActs s (haloTask s.focus.inst x.tag s.focus.tile nb h.desc dir) j) =
      some (.inr .over)) :
    s.haloStep x t n h dir =
      .next (let r := s.putHalo n (advanced h (h.jobs x t s.focus.inst s.focus.tile) dir none)
        if h.desc.getLsbD 59 then
          r.semAdd s.focus.inst nb (h.desc.extractLsb' 53 6) (h.desc.extractLsb' 37 16) (BitVec.ofNat 16 s.focus.tile)
        else r) := by
  rw [State.haloStep]
  simp only [hnb, hj, hrange, hpick]
  rfl

end

/-! ### The sender (R183) -/

/-- The HALO and its sender's semaphore are of one tile: one change of it. -/
theorem exec_sender {s : State} {x : Inst} {t : Tile} {h : Halo} {n : Nat} {k : BitVec 6} (hx : s.insts[s.focus.inst]? = some x)
    (ht : x.tiles[s.focus.tile]? = some t) (hpick : pickOf (Config.copyPick s.now) (s.halosRead x t) = some (h, n))
    (hok : h.left.isSome = true ∨ haloOk h.desc = true) (hk : k = h.desc.extractLsb' 29 6) (hplace : t.place ≠ .saved)
    (hroom : (t.sem[k.toNat]'k.isLt).toNat < 65535) :
    exec .haloSenderComplete s = .next (s.modFocus fun t' => { t' with
      halos := t'.halos.take n ++ (if h.jobs x t s.focus.inst s.focus.tile = [] then []
        else [{ h with left := some (h.jobs x t s.focus.inst s.focus.tile), sent := true }]) ++ t'.halos.drop (n + 1)
      sem := if h.desc.getLsbD 35 then t'.sem.set k.toNat (t'.sem[k.toNat]'k.isLt + 1) k.isLt else t'.sem }) := by
  subst hk
  have hleft (l : List (Dir × CopyJob)) : (if l.isEmpty then none else some { h with left := some l, sent := true }).toList =
      if l = [] then [] else [{ h with left := some l, sent := true }] := by
    cases l <;> rfl
  have hadd (r : Option Halo) := Streams.semAdd_of_room (add := 1) (tile?_putHalo (tile?_of_insts hx ht) n r) hplace hroom
    (BitVec.ofNat 16 s.focus.tile)
  show execHaloSenderComplete s = _
  rw [execHaloSenderComplete, s.onTile_of x t _ hx ht]
  simp only [hpick, goes_on hok, Bool.false_eq_true, if_false]
  by_cases hsem : h.desc.getLsbD 35 = true
  · simp only [hsem, if_true]
    refine congrArg _ ((hadd _).trans ((Streams.modFocus_modFocus s _ _).trans ?_))
    simp only [Streams.raised, hleft]
  · simp only [hsem, putHalo_eq, replaced, hleft]
    rfl

/-! ### The rows (R182, R183) -/

theorem mem_units_haloTask {d : Rec64} {row n : Nat} (hrow : row < fld d 116 12 + 1) (hn : n < fld d 104 12 + 1) (i ltid nb : Nat)
    (tag : Byte) (dir : Dir) :
    ∃ u ∈ (haloTask i tag ltid nb d dir).units,
      u.src = windowBase ltid + w64 (fld (haloWord d dir) 0 21 + row * (8 * fld d 84 20)) + w64 (8 * n) ∧
      u.dst = windowBase nb + w64 (fld (haloWord d dir) 32 21 + row * (8 * fld d 64 20)) + w64 (8 * n) ∧ u.srcN = 8 ∧ u.dstN = 8 := by
  have hwords : n < haloSize d / 8 := by rw [haloSize, Nat.mul_div_cancel_left _ (by decide)]; exact hn
  exact ⟨_, List.mem_flatMap.mpr ⟨row, List.mem_range.mpr hrow, List.mem_map.mpr ⟨n, List.mem_range.mpr hwords, rfl⟩⟩, rfl, rfl, rfl, rfl⟩

theorem srcN_of_mem_units_haloTask {i ltid nb : Nat} {tag : Byte} {d : Rec64} {dir : Dir} {u : CopyUnit}
    (hu : u ∈ (haloTask i tag ltid nb d dir).units) : u.srcN = 8 := by
  obtain ⟨row, -, hu⟩ := List.mem_flatMap.mp hu
  obtain ⟨m, -, rfl⟩ := List.mem_map.mp hu
  rfl

/-- Settles O33: each act of a direction by its own lemma, the reads and writes by those of a copy's accesses; what changes beside the bytes is
the list of HALOs of the tile. -/
theorem haloCopies : Obligations.HaloCopies := by
  unfold Obligations.HaloCopies
  refine ⟨fun s x t h n dir nb jobs j hx ht hpick hok hjobs hj hnb hrange => ⟨?_, ?_, ?_, ?_⟩, fun s x t h n k hx ht hpick hok hk => ?_,
    fun i ltid nb tag d dir row n hrow hn => mem_units_haloTask hrow hn i ltid nb tag dir⟩
  · intro m u ps bs s1 hact hu hcheck hread
    subst hjobs
    have hsize := srcN_of_mem_units_haloTask (List.mem_of_getElem? hu)
    have hstep := (exec_direction hx ht hpick hok).trans (haloStep_of_done hnb hj hrange hact (copyAct_read hu (hsize ▸ hcheck) hread))
    have hctx := onlyContexts_readPieces s.focus.inst s.focus.tile whoHalo x.tag ps s
    rw [show s.readPieces s.focus.inst s.focus.tile whoHalo x.tag ps = (.bytes bs, s1) from hread] at hctx
    obtain ⟨hinsts, hhbm, hhost⟩ := Streams.modFocus_of_onlyContexts
      (hctx.trans (onlyContexts_tookPieces s.focus.inst s.focus.tile whoHalo x.tag ps s1)) fun y => replaced y n
        (advanced h (h.jobs x t s.focus.inst s.focus.tile) dir (some { j with
          unread := j.unread.filter fun q => q != m, got := j.got ++ [(m, bs)] }))
    refine ⟨_, hstep, hhbm, hhost, hinsts.trans (congrArg State.insts (Streams.modFocus_congr hx ht ?_))⟩
    rw [advanced_of_job hj]
    rfl
  · intro w b ms l z hact us row hruns hcheck hlen hheld hl hc
    subst hjobs
    have hstep := (exec_direction hx ht hpick hok).trans (haloStep_of_done hnb hj hrange hact (copyAct_write hcheck hruns hlen hheld hl))
    rw [advanced_of_job hj] at hstep
    obtain ⟨y, hy, hrest⟩ := onlySlice_writeLoc (tile?_of_insts hx ht) s.focus.inst l (overlaid s s.focus.inst l ms)
    have htile := tile?_putHalo (s := (s.writeLoc s.focus.inst l (overlaid s s.focus.inst l ms)).hbmBytes x.tag true l z.bytes) (t := y)
      (by simpa using hy) n (some { h with left := some (putDir dir (some (afterWord s
        (haloTask s.focus.inst x.tag s.focus.tile nb h.desc dir) j w)) (h.jobs x t s.focus.inst s.focus.tile)) })
    rw [focus_hbmBytes, focus_writeLoc] at htile
    obtain ⟨hin, hout⟩ := (holds_writeLoc hc hl (overlaid s s.focus.inst l ms)).congr fun q =>
      (byteAt_putHalo _ n (some { h with left := some (putDir dir (some (afterWord s (haloTask s.focus.inst x.tag s.focus.tile nb h.desc dir)
        j w)) (h.jobs x t s.focus.inst s.focus.tile)) }) _ q).trans (byteAt_hbmBytes _ x.tag true l z.bytes _ q)
    rw [length_overlaid, hlen] at hout
    refine ⟨_, _, hstep, htile, ?_, ?_, ?_, fun i m hm => hin i _ (getElem?_overlaid hm), hout⟩
    · rw [hrest]; rfl
    · rw [hrest]; rfl
    · rw [hrest]; rfl
  · intro g hact
    subst hjobs
    obtain ⟨y, hy, hrest⟩ := onlySlice_mark (tile?_putHalo (tile?_of_insts hx ht) n (advanced h (h.jobs x t s.focus.inst s.focus.tile) dir
      (some { j with marked := j.marked ++ [g] }))) s.focus.inst g
    refine ⟨_, y, (exec_direction hx ht hpick hok).trans (haloStep_of_mark hnb hj hrange hact), hy, ?_,
      Streams.full_markFull (List.mem_singleton_self g) _, fun k => (Streams.byteAt_markFull _ _ _ _ k).trans (byteAt_putHalo _ _ _ _ k)⟩
    rw [hrest, advanced_of_job hj]
    rfl
  · intro r y hact hr hy hne hplace hroom
    subst hjobs hr
    have hstep := (exec_direction hx ht hpick hok).trans (haloStep_of_over hnb hj hrange hact)
    have htile := tile?_putHalo (tile?_of_insts hx ht) n (advanced h (h.jobs x t s.focus.inst s.focus.tile) dir none)
    have hother : (s.putHalo n (advanced h (h.jobs x t s.focus.inst s.focus.tile) dir none)).tile? s.focus.inst nb = some y :=
      (State.tile?_modTile_of_ne _ _ _ _ _ _ (.inr hne.symm)).trans (tile?_of_insts hx hy)
    have hhalos : (replaced t n (advanced h (h.jobs x t s.focus.inst s.focus.tile) dir none)).halos =
        t.halos.take n ++ (if putDir dir none (h.jobs x t s.focus.inst s.focus.tile) = [] ∧ h.sent = true then []
          else [{ h with left := some (putDir dir none (h.jobs x t s.focus.inst s.focus.tile)) }]) ++ t.halos.drop (n + 1) := by
      rw [replaced, toList_advanced_none]
    by_cases hsem : h.desc.getLsbD 59 = true
    · have hadd : (h.desc.extractLsb' 37 16).toNat = fld h.desc 37 16 := Encoding.toNat_extractLsb' 37 16 h.desc
      rw [if_pos hsem, Streams.semAdd_of_room hother hplace (by rw [hadd]; exact hroom)] at hstep
      have htile' := ((s.putHalo n (advanced h (h.jobs x t s.focus.inst s.focus.tile) dir none)).tile?_modTile_of_ne s.focus.inst nb
        s.focus.inst s.focus.tile (Streams.raised (h.desc.extractLsb' 53 6) (h.desc.extractLsb' 37 16)) (.inr hne)).trans htile
      have hother' := ((s.putHalo n (advanced h (h.jobs x t s.focus.inst s.focus.tile) dir none)).tile?_modTile s.focus.inst nb
        (Streams.raised (h.desc.extractLsb' 53 6) (h.desc.extractLsb' 37 16))).trans (congrArg _ hother)
      refine ⟨_, _, _, hstep, htile', hother', hhalos, rfl, rfl, rfl, rfl, fun q => ?_⟩
      rw [Streams.getElem_sem_raised, Firing.extractLsb'_eq_ofNat h.desc 37, ← Firing.fld_eq_bitsAt]
      simp only [hsem, true_and]
    · rw [if_neg hsem] at hstep
      exact ⟨_, _, y, hstep, htile, hother, hhalos, rfl, rfl, rfl, rfl, fun q => by rw [if_neg fun hq => hsem hq.1]⟩
  · exact exec_sender hx ht hpick hok hk

end Sys2Proof.Halos
end

section
/-! The strips, the channels and the token FIFOs of a tile (R46, R51, R190): what their changes do and leave as it was. -/

open Sys2Proof.Machine

namespace Sys2Proof.Strips

/-! ### A strip of a tile -/

section
variable (t : Tile) (e : StripId) (f : Strip → Strip)

@[simp] theorem strip_modStrip : (t.modStrip e f).strip e = f (t.strip e) := by cases e <;> rfl

theorem strip_modStrip_of_ne {d : StripId} (h : d ≠ e) : (t.modStrip e f).strip d = t.strip d := by
  revert h
  cases e <;> cases d <;> simp [Tile.modStrip, Tile.strip]

@[simp] theorem modStrip_place : (t.modStrip e f).place = t.place := by cases e <;> rfl
@[simp] theorem modStrip_slice : (t.modStrip e f).slice = t.slice := by cases e <;> rfl
@[simp] theorem modStrip_g : (t.modStrip e f).g = t.g := by cases e <;> rfl
@[simp] theorem modStrip_sr : (t.modStrip e f).sr = t.sr := by cases e <;> rfl
@[simp] theorem modStrip_lenmis : (t.modStrip e f).lenmis = t.lenmis := by cases e <;> rfl
@[simp] theorem modStrip_sem : (t.modStrip e f).sem = t.sem := by cases e <;> rfl
@[simp] theorem modStrip_fifo : (t.modStrip e f).fifo = t.fifo := by cases e <;> rfl
@[simp] theorem modStrip_chan : (t.modStrip e f).chan = t.chan := by cases e <;> rfl
@[simp] theorem modStrip_seq : (t.modStrip e f).seq = t.seq := by cases e <;> rfl
@[simp] theorem modStrip_cyc : (t.modStrip e f).cyc = t.cyc := by cases e <;> rfl
@[simp] theorem modStrip_mxe : (t.modStrip e f).mxe = t.mxe := by cases e <;> rfl
@[simp] theorem modStrip_stream : (t.modStrip e f).stream = t.stream := by cases e <;> rfl

theorem modStrip_congr {f g : Strip → Strip} (h : f (t.strip e) = g (t.strip e)) : t.modStrip e f = t.modStrip e g := by
  cases e
  · exact congrArg (fun y => { t with ast := y }) h
  · exact congrArg (fun y => { t with est := y }) h
  · exact congrArg (fun y => { t with pst := y }) h

end

/-! ### Channels -/

theorem vget_vmod {α : Type} {n : Nat} (v : Vector α n) (k j : Nat) (f : α → α) (d : α) :
    vget (vmod v k f) j d = if j = k ∧ k < n then f (vget v j d) else vget v j d := by
  by_cases hk : k < n
  · rw [Streams.vmod_eq_set v hk]
    by_cases hj : j = k
    · subst hj
      simp [vget, hk]
    · simp [vget, hj, Ne.symm hj]
  · simp [vmod, hk]

theorem chanAt_modChan (t : Tile) (k j : Nat) (f : Channel → Channel) :
    (t.modChan k f).chanAt j = if j = k ∧ k < 16 then f (t.chanAt j) else t.chanAt j :=
  vget_vmod t.chan k j f _

theorem chanAt_congr {t t' : Tile} (h : t'.chan = t.chan) (k : Nat) : t'.chanAt k = t.chanAt k := by
  rw [Tile.chanAt, h, Tile.chanAt]

/-- One change made at each of some channels. -/
theorem chanAt_foldl_modChan {f : Channel → Channel} {ks : List Nat} (hd : ks.Nodup) (hlt : ∀ k ∈ ks, k < 16) (t : Tile) (j : Nat) :
    (ks.foldl (fun t k => t.modChan k f) t).chanAt j = if j ∈ ks then f (t.chanAt j) else t.chanAt j := by
  induction ks generalizing t with
  | nil => simp
  | cons k ks ih =>
    obtain ⟨hk, hd⟩ := List.nodup_cons.mp hd
    rw [List.foldl_cons, ih hd fun k hk => hlt k (List.mem_cons_of_mem _ hk), chanAt_modChan]
    have hk16 : k < 16 := hlt k List.mem_cons_self
    by_cases hj : j = k
    · subst hj
      simp [hk, hk16]
    · simp [hj]

theorem foldl_modChan_eq (f : Channel → Channel) (ks : List Nat) (t : Tile) :
    ∃ c, ks.foldl (fun t k => t.modChan k f) t = { t with chan := c } := by
  induction ks generalizing t with
  | nil => exact ⟨t.chan, rfl⟩
  | cons k ks ih => exact ih (t.modChan k f)

/-! ### Token FIFOs -/

theorem fifoAt_congr {t t' : Tile} (h : t'.fifo = t.fifo) (e x : Nat) : t'.fifoAt e x = t.fifoAt e x := by
  rw [Tile.fifoAt, h, Tile.fifoAt]

theorem fifoAt_fifoPush (t : Tile) {e x : Nat} (h : fifoIdx e x < 30) : (t.fifoPush e x).fifoAt e x = (t.fifoAt e x + 1) % 16 := by
  rw [Tile.fifoAt, Tile.fifoPush, vget_vmod, if_pos ⟨rfl, h⟩, BitVec.toNat_add]
  rfl

theorem fifoAt_fifoPop_of_ne (t : Tile) {e x d y : Nat} (h : fifoIdx e x ≠ fifoIdx d y) : (t.fifoPop d y).fifoAt e x = t.fifoAt e x := by
  rw [Tile.fifoAt, Tile.fifoPop, vget_vmod, if_neg fun hk => h hk.1, Tile.fifoAt]

end Sys2Proof.Strips
end

section
/-! The issue of a strip word (R192-R196): its beats, its result in flight, and what it leaves of its tile. -/

open Sys2Proof.Machine

namespace Sys2Proof.Strips

/-! ### The channels that a word pops -/

theorem lt_of_codeChan {c : BitVec 6} {k : Nat} (h : codeChan c = some k) : k < 16 := by
  rw [codeChan] at h
  split at h
  case isTrue hc =>
    obtain rfl := Option.some.inj h
    omega
  case isFalse => cases h

/-- A word pops each of its channels once (R74). -/
theorem popChans_chans (t : Tile) {cs : List (BitVec 6)} {l : List Nat} (hd : l.Nodup) (hlt : ∀ k ∈ l, k < 16) :
    (t.popChans cs l).chans.Nodup ∧ ∀ k ∈ (t.popChans cs l).chans, k < 16 := by
  induction cs generalizing l with
  | nil => exact ⟨hd, hlt⟩
  | cons c cs ih =>
    rw [Tile.popChans]
    cases hc : codeChan c with
    | none => exact ih hd hlt
    | some k =>
      by_cases hk : k ∈ l
      · simpa [hk] using ih hd hlt
      · cases hh : (t.chanAt k).head with
        | none => simpa [hk, hh] using ⟨hd, hlt⟩
        | some b =>
          have hd' : (l ++ [k]).Nodup := hd.append (List.nodup_singleton k) (by simpa using hk)
          have hlt' : ∀ j ∈ l ++ [k], j < 16 := by simpa [or_imp, forall_and] using ⟨hlt, lt_of_codeChan hc⟩
          simpa [hk, hh] using ih hd' hlt'

theorem plan_chans (t : Tile) (e : StripId) (op : Nat) (w : SWord) :
    (t.plan e op w).chans.Nodup ∧ ∀ k ∈ (t.plan e op w).chans, k < 16 := by
  have hnil (cs : List (BitVec 6)) := popChans_chans t (cs := cs) List.nodup_nil (fun k hk => absurd hk List.not_mem_nil)
  rw [Tile.plan]
  split
  · dsimp only
    split
    · exact hnil _
    · exact popChans_chans t (hnil _).1 (hnil _).2
  · exact hnil _

/-- A channel that a word has popped (R196). -/
def popped (mis : Bool) (c : Channel) : Channel :=
  { c with entries := c.entries.tail, surplus := mis && !(match c.entries.head? with | some b => b.last | none => true) }

/-- A tile whose channels a word has popped, once it has taken its POP token and noted a length mismatch. -/
def afterPops (e : StripId) (w : SWord) (mis : Bool) (t : Tile) : Tile :=
  let t := if w.pop = 0 then t else t.fifoPop w.pop.toNat (stripId e)
  { t with lenmis := t.lenmis || mis }

theorem strip_afterPops (t : Tile) (c : Vector Channel 16) (q : Vector (BitVec 4) 30) (b : Bool) (e : StripId) :
    ({ t with chan := c, fifo := q, lenmis := b } : Tile).strip e = t.strip e := by cases e <;> rfl

/-- The pops of a word change channels, a token FIFO and the length mismatch of the tile, and nothing else of it. -/
theorem popFor_eq (t : Tile) (e : StripId) (w : SWord) {ks : List Nat} (hd : ks.Nodup) (hlt : ∀ k ∈ ks, k < 16) (mis : Bool) :
    ∃ c q, t.popFor e w ks mis = { t with chan := c, fifo := q, lenmis := t.lenmis || mis } ∧ (w.pop = 0 → q = t.fifo) ∧
      ∀ k, (vget c k Channel.empty).entries = if k ∈ ks then (t.chanAt k).entries.tail else (t.chanAt k).entries := by
  obtain ⟨c, hc⟩ := foldl_modChan_eq (popped mis) ks t
  refine ⟨c, if w.pop = 0 then t.fifo else (t.fifoPop w.pop.toNat (stripId e)).fifo, ?_, fun h => if_pos h, fun k => ?_⟩
  · refine (congrArg (afterPops e w mis) hc).trans ?_
    rw [afterPops]
    split <;> rfl
  · have hk := chanAt_foldl_modChan (f := popped mis) hd hlt t k
    rw [hc] at hk
    rw [show vget c k Channel.empty = _ from hk]
    split <;> rfl

/-! ### The operands -/

theorem started_of_selected {x : Strip} {c : W64 × W64 × W64} (h : x.cur = some c) : x.started = x := by
  rw [Strip.started, h]

/-- The code of the first operand: of a MERGE, that of the input that it selects (R209). -/
def firstCode (t : Tile) (e : StripId) (op : Nat) (w : SWord) : BitVec 6 := if isMerge e op then t.mergeSel e w else w.a

/-- What a word sees as it issues. -/
def wordIn (t : Tile) (e : StripId) (op : Nat) (w : SWord) (md : W64) : WordIn :=
  { mode := if w.rm = 0 then md.extractLsb' 0 3 else w.rm
    a := t.operandOf (t.strip e) w.ty (firstCode t e op w)
    b := t.opB e w
    c := t.opC e w
    tag := t.resultTag (if isMerge e op then [firstCode t e op w] else srcCodes e op w)
    last := (t.poppedBeats e op w).any (·.last) }

section
variable {t : Tile} {e : StripId} {op : Nat} (w : SWord) (md : W64)

@[simp] theorem wordIn_mode : (wordIn t e op w md).mode = wordMode w md := by
  rw [wordIn, wordMode]
  congr 1

/-- What a word other than a MERGE sees as it issues. -/
theorem wordIn_eq (h : isMerge e op = false) : wordIn t e op w md =
    ⟨wordMode w md, t.opA e w, t.opB e w, t.opC e w, t.resultTag (srcCodes e op w), (t.poppedBeats e op w).any (·.last)⟩ := by
  rw [← wordIn_mode (t := t) (e := e) (op := op), wordIn, firstCode, h]
  rfl

/-- The input that a MERGE selects (R209). -/
theorem wordIn_a_merge {c : W64 × W64 × W64} (hcur : (t.strip e).cur = some c) (h : isMerge e op = true) :
    (wordIn t e op w md).a = if (t.opB e w).data.getLsbD 0 then t.opA e w else t.opC e w := by
  have hctl : t.control e w = (t.opB e w).data.getLsbD 0 := by
    rw [Tile.control, started_of_selected hcur, Tile.opB]
  rw [wordIn, firstCode, h, Tile.mergeSel, hctl]
  cases (t.opB e w).data.getLsbD 0 <;> rfl

end

/-! ### The result in flight -/

/-- Whether the beats that a word pops end together (R196). -/
def mismatch (t : Tile) (e : StripId) (op : Nat) (w : SWord) : Bool :=
  (t.poppedBeats e op w).any (·.last) && (t.poppedBeats e op w).any fun b => !b.last

/-- The flight of a word that has made r. -/
def flightOf (t : Tile) (e : StripId) (op : Nat) (w : SWord) (addr md : W64) (latency : Nat) (r : WordOut) : Flight :=
  { due := t.cyc + latency, kind := r.kind, outs := r.outs, flags := r.flags, push := w.push, addr := addr, hard := r.hard, rounded := false,
    mode := md, lenmis := mismatch t e op w && md.getLsbD 16, tagt := r.tagt, wide := w.ty == 10 }

/-- The lane flags that a word leaves as it issues (R204, R227). -/
def flagsLeft (clear : Option (BitVec 5)) (f : BitVec 960) : BitVec 960 :=
  match clear with
  | some m => keepLanes (~~~m) f
  | none => f

/-- The strip of a word that has issued. -/
def issued (w : SWord) (cyc : Nat) (r : WordOut) (f : Flight) (x : Strip) : Strip :=
  { x with
    cur := none
    free := cyc + (if w.ty == 10 then 2 else 1)
    flags := flagsLeft r.clear x.flags
    flight := x.flight ++ [f] }

theorem issueWord_eq {s : State} {x : Inst} {t : Tile} {e : StripId} {op : Nat} {w : SWord} {addr md : W64}
    (h : MayIssue s x t e op w addr md) (hop : op ≠ 1) (latency : Nat) (k : WordIn → WordOut) :
    s.issueWord e op latency w k = .next (s.modFocus fun u =>
      (u.popFor e w (t.plan e op w).chans (mismatch t e op w)).modStrip e
        (issued w u.cyc (k (wordIn t e op w md)) (flightOf t e op w addr md latency (k (wordIn t e op w md))))) := by
  obtain ⟨hx, ht, hplace, ⟨bits, hcur⟩, hruns, hbeats, htoken⟩ := h
  have htoken' : (w.pop != 0 && t.fifoAt w.pop.toNat (stripId e) == 0) = false := by
    by_cases hp : w.pop = 0
    · simp [hp]
    · simp [htoken hp]
  simp only [State.issueWord, State.onTile_of s x t _ hx ht, hcur, hruns, hplace, hbeats hop, htoken', bne_self_eq_false,
    Option.isSome_none, Bool.or_self, Bool.false_eq_true, if_false]
  rfl

/-- A word that may issue issues, with the result that it makes of its operands. -/
theorem issued_of_mayIssue {s : State} {x : Inst} {t : Tile} {e : StripId} {op : Nat} {w : SWord} {addr md : W64}
    (h : MayIssue s x t e op w addr md) (hop : op ≠ 1) (latency : Nat) (k : WordIn → WordOut) :
    ∃ s' t', s.issueWord e op latency w k = .next s' ∧
      Issued s s' t t' e op w addr md latency (flightOf t e op w addr md latency (k (wordIn t e op w md))) ∧
      (t'.strip e).flags = flagsLeft (k (wordIn t e op w md)).clear (t.strip e).flags := by
  obtain ⟨hd, hlt⟩ := plan_chans t e op w
  obtain ⟨c, q, heq, hq, hc⟩ := popFor_eq t e w hd hlt (mismatch t e op w)
  have htile := Homes.tile?_of_insts h.inst h.tile
  refine ⟨_, _, issueWord_eq h hop latency k, ⟨(State.tile?_modFocus s _).trans (congrArg _ htile), ?_, rfl, ⟨rfl, rfl, rfl, rfl, rfl⟩, rfl, ?_, ?_, ?_, ?_, ?_, ?_, ?_⟩, ?_⟩
  all_goals simp only [heq, strip_modStrip, strip_afterPops]
  · rfl
  · simp [mismatch]
  · simp [issued]
  · exact ⟨rfl, rfl, rfl, rfl, rfl⟩
  · intro j _
    rw [chanAt_congr (modStrip_chan _ e _) j]
    exact hc j
  · simp
  · intro hp
    rw [modStrip_fifo]
    exact hq hp
  · intro d hd
    rw [strip_modStrip_of_ne _ e _ hd, strip_afterPops]
  · rfl

end Sys2Proof.Strips
end

section
/-! The elements of beats and of other bit strings (R99, R198): reading one back, and lane flags. -/

open Sys2Proof.Machine

namespace Sys2Proof.Strips

/-! ### Bit strings of elements -/

@[simp] theorem length_elems (w n x : Nat) : (elems w n x).length = n := by
  induction n generalizing x with
  | zero => rfl
  | succ n ih => simp [elems, ih]

theorem getElem?_elems {w n j : Nat} (hj : j < n) (x : Nat) : (elems w n x)[j]? = some (x / 2 ^ (w * j) % 2 ^ w) := by
  induction n generalizing x j with
  | zero => omega
  | succ n ih =>
    cases j with
    | zero => simp [elems]
    | succ j =>
      rw [elems, List.getElem?_cons_succ, ih (by omega), Nat.div_div_eq_div_mul, ← pow_add, Nat.mul_succ, Nat.add_comm]

theorem ofElems_field (w j : Nat) (l : List Nat) : ofElems w l / 2 ^ (w * j) % 2 ^ w = l.getD j 0 % 2 ^ w := by
  induction l generalizing j with
  | nil => simp [ofElems]
  | cons x l ih =>
    have hpos : 0 < 2 ^ w := by positivity
    cases j with
    | zero => simp [ofElems]
    | succ j =>
      rw [ofElems, Nat.mul_succ, Nat.add_comm (w * j), pow_add, ← Nat.div_div_eq_div_mul, Nat.add_mul_div_left _ _ hpos,
        Nat.div_eq_of_lt (Nat.mod_lt x hpos), Nat.zero_add, ih, List.getD_cons_succ]

theorem ofElems_eq_zero {w : Nat} {l : List Nat} (h : ∀ x ∈ l, x = 0) : ofElems w l = 0 := by
  induction l with
  | nil => rfl
  | cons x l ih =>
    obtain ⟨hx, hl⟩ := List.forall_mem_cons.mp h
    rw [ofElems, ih hl, hx]
    simp

/-- A field of a number below the bits that a vector keeps. -/
theorem field_mod_two_pow {w a n : Nat} (h : a + w ≤ n) (x : Nat) : x % 2 ^ n / 2 ^ a % 2 ^ w = x / 2 ^ a % 2 ^ w := by
  obtain ⟨m, rfl⟩ := Nat.exists_eq_add_of_le (show a ≤ n by omega)
  rw [pow_add, Nat.mod_mul_right_div_self, Nat.mod_mod_of_dvd _ (pow_dvd_pow 2 (show w ≤ m by omega))]

theorem testBit_field {w k : Nat} (hk : k < w) (x a : Nat) : x.testBit (a + k) = (x / 2 ^ a % 2 ^ w).testBit k := by
  rw [Nat.testBit_mod_two_pow, Nat.testBit_div_two_pow, Nat.add_comm k a]
  simp [hk]

/-! ### Lane flags (R198) -/

/-- A lane flag after some of its kind are cleared (R204). -/
theorem getLsbD_keepLanes (keep : BitVec 5) (f : BitVec 960) {lane k : Nat} (hl : lane < 192) (hk : k < 5) :
    (keepLanes keep f).getLsbD (5 * lane + k) = (f.getLsbD (5 * lane + k) && keep.getLsbD k) := by
  have hmask : (ofElems 5 (List.replicate 192 keep.toNat)).testBit (5 * lane + k) = keep.getLsbD k := by
    rw [testBit_field hk, ofElems_field, List.getD_eq_getElem?_getD, List.getElem?_replicate_of_lt hl, Option.getD_some,
      Nat.mod_eq_of_lt keep.isLt]
    rfl
  rw [keepLanes, BitVec.getLsbD_and, BitVec.getLsbD_ofNat, hmask]
  simp [show 5 * lane + k < 960 by omega]

theorem orFlags_eq_zero {l : List (BitVec 5)} (h : ∀ f ∈ l, f = 0) : orFlags l = 0 := by
  rw [orFlags]
  exact List.foldlRecOn (motive := fun f => f = 0) l _ rfl fun a ha f hf => by simp [ha, h f hf]

theorem groupFlags_eq_zero {k n : Nat} {l : List (BitVec 5)} (h : ∀ f ∈ l, f = 0) : ∀ f ∈ groupFlags k n l, f = 0 := by
  induction n generalizing l with
  | zero => exact fun f hf => absurd hf List.not_mem_nil
  | succ n ih =>
    exact List.forall_mem_cons.mpr ⟨orFlags_eq_zero fun f hf => h f (List.mem_of_mem_take hf), ih fun f hf => h f (List.mem_of_mem_drop hf)⟩

/-- Elements that raise no flag raise none in any lane. -/
theorem laneFlags_eq_zero {w : Nat} {l : List (BitVec 5)} (h : ∀ f ∈ l, f = 0) : laneFlags w l = 0 := by
  have hlanes : ∀ f ∈ (if w = 64 then l.flatMap (fun f => [f, f]) else groupFlags (32 / w) 192 l), f = 0 := by
    split
    · simpa using h
    · exact groupFlags_eq_zero h
  rw [laneFlags, ofElems_eq_zero]
  · rfl
  · intro x hx
    obtain ⟨f, hf, rfl⟩ := List.mem_map.mp hx
    rw [hlanes f hf]
    rfl

end Sys2Proof.Strips
end

section
/-! The words of the A-, the E- and the P-strip (R199-R210, R212-R229): what each makes as it issues. -/

open Sys2Proof.Machine

namespace Sys2Proof.Strips

/-! ### What a well-formed word keeps (R73-R76) -/

theorem stripOk_of_wellFormed {i : Instr} {e : StripId} {op : BitVec 8} {w : SWord} (hs : i.shape = .strip e op w)
    (hw : i.WellFormed = true) : stripOk e op w = true := by
  have hshape : i.shape.ok = true := (Bool.and_eq_true_iff.mp hw).2
  rwa [hs] at hshape

/-- The type and the immediate of a word other than IDLE are among those of its opcode. -/
theorem fields_of_stripOk {e : StripId} {op : BitVec 8} {w : SWord} (h : stripOk e op w = true) (hop : op ≠ 1) :
    ∃ r, stripRule e op.toNat = some r ∧ r.types.getLsbD w.ty.toNat = true ∧ stripImmOk e op.toNat w = true := by
  rw [stripOk, if_neg (by simpa using hop)] at h
  cases hr : stripRule e op.toNat with
  | none => simp [hr] at h
  | some r =>
    refine ⟨r, rfl, ?_⟩
    simp only [hr, Bool.and_eq_true] at h
    tauto

/-- A word of an opcode that accepts one type has that type. -/
theorem ty_eq_of_types {ty : BitVec 4} (h : (0x0800#16).getLsbD ty.toNat = true) : ty = 11 := by
  revert ty
  decide

/-! ### The A-strip -/

theorem exec_ast {i : Instr} {op : BitVec 8} {w : SWord} (hs : i.shape = .strip .ast op w) (hop : op ≠ 1) (s : State) :
    (op.toNat < 0x26 ∧ exec i s = astWord op.toNat w s) ∨ (op = 0x26 ∧ exec i s = flagrWord .ast op.toNat w s) ∨
      (op = 0x27 ∧ exec i s = flagcWord .ast op.toNat w s) := by
  cases i <;> cases hs
  case idle => exact absurd rfl hop
  case astFlagr => exact .inr (.inl ⟨rfl, rfl⟩)
  case astFlagc => exact .inr (.inr ⟨rfl, rfl⟩)
  all_goals exact .inl ⟨by decide, rfl⟩

/-- FLAGC keeps of each lane the flags that it does not name (R204, R227). -/
theorem getLsbD_flagsLeft (imm : BitVec 19) (f : BitVec 960) {lane k : Nat} (hl : lane < 192) (hk : k < 5) :
    (flagsLeft (some (imm.extractLsb' 0 5)) f).getLsbD (5 * lane + k) = (f.getLsbD (5 * lane + k) && !imm.getLsbD k) := by
  rw [flagsLeft, getLsbD_keepLanes _ f hl hk, BitVec.getLsbD_not, BitVec.getLsbD_extractLsb']
  simp [hk]

theorem toNat_ne_one {op : BitVec 8} (h : op ≠ 1) : op.toNat ≠ 1 := fun hn => h (BitVec.eq_of_toNat_eq hn)

/-- Settles O17: the word issues as its opcode's meaning does, on the operands that its fields name. -/
theorem astWords : Obligations.AstWords := by
  intro i s x t op w addr md hs hw hop hm
  obtain ⟨r, hr, hty, -⟩ := fields_of_stripOk (stripOk_of_wellFormed hs hw) hop
  have hin := wordIn_eq (t := t) (e := .ast) (op := op.toNat) w md rfl
  obtain ⟨hlt, he⟩ | ⟨rfl, he⟩ | ⟨rfl, he⟩ := exec_ast hs hop s
  · rw [he, astWord]
    obtain ⟨s', t', hstep, hissued, hflags⟩ := issued_of_mayIssue hm (toNat_ne_one hop) (aLatency op.toNat w.ty) _
    rw [hin] at hissued hflags
    refine ⟨s', t', _, hstep, hissued, fun _ => ⟨rfl, rfl, rfl, hflags⟩, ?_, ?_⟩ <;>
    · rintro rfl
      simp at hlt
  · obtain rfl := Option.some.inj hr
    have hlatency : aLatency (0x26 : BitVec 8).toNat w.ty = 16 := by rw [ty_eq_of_types hty]; rfl
    rw [he, flagrWord, hlatency]
    obtain ⟨s', t', hstep, hissued, hflags⟩ := issued_of_mayIssue hm (by decide) 16 _
    exact ⟨s', t', _, hstep, hissued, by simp, fun _ => ⟨rfl, hflags⟩, by simp⟩
  · obtain rfl := Option.some.inj hr
    have hlatency : aLatency (0x27 : BitVec 8).toNat w.ty = 2 := by rw [ty_eq_of_types hty]; rfl
    rw [he, flagcWord, hlatency]
    obtain ⟨s', t', hstep, hissued, hflags⟩ := issued_of_mayIssue hm (by decide) 2 _
    refine ⟨s', t', _, hstep, hissued, by simp, by simp, fun _ => ⟨rfl, fun lane hl k hk => ?_⟩⟩
    rw [hflags]
    exact getLsbD_flagsLeft w.imm _ hl hk

/-! ### The E-strip -/

/-- A function that has no approximate family has bit 0 of its immediate clear (R76, R212). -/
theorem imm_of_exact {op : Nat} {w : SWord} (h : stripImmOk .est op w = true) (hop : op < 0x20) (ha : approxOps.contains op = false) :
    w.imm.getLsbD 0 = false := by
  have himm : w.imm = 0 := by
    rw [stripImmOk, ha] at h
    · exact BitVec.eq_of_toNat_eq (by simpa using h)
    all_goals omega
  rw [himm]
  rfl

theorem exec_est {i : Instr} {op : BitVec 8} {w : SWord} (hs : i.shape = .strip .est op w) (hr : rangeOk i = true)
    (him : stripImmOk .est op.toNat w = true) (hop : op ≠ 1) (s : State) :
    (op.toNat < 0x20 ∧ w.imm.getLsbD 0 = false ∧ exec i s = estWord op.toNat w s) ∨
    (op.toNat < 0x20 ∧ w.imm.getLsbD 0 = true ∧ exec i s = estApprox op.toNat w s) ∨
    (op = 0x20 ∧ exec i s = execEstHardr w s) ∨ (op = 0x21 ∧ exec i s = flagrWord .est op.toNat w s) ∨
    (op = 0x22 ∧ exec i s = flagcWord .est op.toNat w s) := by
  cases i <;> cases hs
  case idle => exact absurd rfl hop
  case estHardr => exact .inr (.inr (.inl ⟨rfl, rfl⟩))
  case estFlagr => exact .inr (.inr (.inr (.inl ⟨rfl, rfl⟩)))
  case estFlagc => exact .inr (.inr (.inr (.inr ⟨rfl, rfl⟩)))
  case estExp | estExp2 | estExp10 | estLog | estLog2 | estSigmoid | estRsqrt | estSqrt | estRcp | estDiv =>
    exact .inl ⟨by decide, (Bool.not_eq_true' _).mp hr, rfl⟩
  case estExpA | estExp2A | estExp10A | estLogA | estLog2A | estSigmoidA | estRsqrtA | estSqrtA | estRcpA | estDivA =>
    exact .inr (.inl ⟨by decide, hr, rfl⟩)
  all_goals exact .inl ⟨by decide, imm_of_exact him (by decide) rfl, rfl⟩

/-- Settles O18: the word issues as its opcode's meaning does, on the operands that its fields name; bit 0 of the immediate tells the families
apart. -/
theorem estWords : Obligations.EstWords := by
  intro i s x t op w addr md hs hw hop hm
  obtain ⟨r, hr, hty, him⟩ := fields_of_stripOk (stripOk_of_wellFormed hs hw) hop
  have hrange : rangeOk i = true := (Bool.and_eq_true_iff.mp hw).1
  have hin := wordIn_eq (t := t) (e := .est) (op := op.toNat) w md rfl
  obtain ⟨hlt, hexact, he⟩ | ⟨hlt, happrox, he⟩ | ⟨rfl, he⟩ | ⟨rfl, he⟩ | ⟨rfl, he⟩ := exec_est hs hrange him hop s
  · rw [he, estWord, hexact, Bool.and_false]
    obtain ⟨s', t', hstep, hissued, hflags⟩ := issued_of_mayIssue hm (toNat_ne_one hop) (eLatency op.toNat false w.ty) _
    rw [hin] at hissued hflags
    refine ⟨s', t', _, hstep, hissued, fun _ _ => ⟨rfl, rfl, rfl, rfl, hflags⟩, nofun, ?_, ?_, ?_⟩ <;>
    · rintro rfl
      simp at hlt
  · rw [he, estApprox, happrox, Bool.and_true, decide_eq_true hlt]
    obtain ⟨s', t', hstep, hissued, hflags⟩ := issued_of_mayIssue hm (toNat_ne_one hop) (eLatency op.toNat true w.ty) _
    rw [hin] at hissued hflags
    refine ⟨s', t', _, hstep, hissued, nofun, fun _ _ => ⟨rfl, rfl, rfl, rfl, hflags⟩, ?_, ?_, ?_⟩ <;>
    · rintro rfl
      simp at hlt
  · obtain rfl := Option.some.inj hr
    have hlatency (b : Bool) : eLatency (0x20 : BitVec 8).toNat b w.ty = 16 := by rw [ty_eq_of_types hty]; rfl
    rw [he, execEstHardr, hlatency]
    obtain ⟨s', t', hstep, hissued, -⟩ := issued_of_mayIssue hm (by decide) 16 _
    exact ⟨s', t', _, hstep, hissued, by simp, by simp, fun _ => rfl, by simp, by simp⟩
  · obtain rfl := Option.some.inj hr
    have hlatency (b : Bool) : eLatency (0x21 : BitVec 8).toNat b w.ty = 16 := by rw [ty_eq_of_types hty]; rfl
    rw [he, flagrWord, hlatency]
    obtain ⟨s', t', hstep, hissued, -⟩ := issued_of_mayIssue hm (by decide) 16 _
    exact ⟨s', t', _, hstep, hissued, by simp, by simp, by simp, fun _ => rfl, by simp⟩
  · obtain rfl := Option.some.inj hr
    have hlatency (b : Bool) : eLatency (0x22 : BitVec 8).toNat b w.ty = 2 := by rw [ty_eq_of_types hty]; rfl
    rw [he, flagcWord, hlatency]
    obtain ⟨s', t', hstep, hissued, hflags⟩ := issued_of_mayIssue hm (by decide) 2 _
    refine ⟨s', t', _, hstep, hissued, by simp, by simp, by simp, by simp, fun _ => ⟨rfl, fun lane hl k hk => ?_⟩⟩
    rw [hflags]
    exact getLsbD_flagsLeft w.imm _ hl hk

/-! ### The P-strip -/

/-- The words whose result is no beat of pWord: STEER, MERGE, SPLIT, TAGS, MARKE and TAGT. -/
theorem exec_pst {i : Instr} {op : BitVec 8} {w : SWord} (hs : i.shape = .strip .pst op w) (hop : op ≠ 1) (s : State) :
    (op.toNat ∉ [0x10, 0x11, 0x19, 0x1A, 0x1B, 0x1C] ∧ exec i s = pstWord op.toNat w s) ∨
    (op = 0x10 ∧ exec i s = execPstSteer w s) ∨ (op = 0x11 ∧ exec i s = execPstMerge w s) ∨
    (op = 0x19 ∧ exec i s = execPstSplit w s) ∨ (op = 0x1A ∧ exec i s = execPstTags w s) ∨
    (op = 0x1B ∧ exec i s = execPstMarke w s) ∨ (op = 0x1C ∧ exec i s = execPstTagt w s) := by
  cases i <;> cases hs
  case idle => exact absurd rfl hop
  case pstSteer => exact .inr (.inl ⟨rfl, rfl⟩)
  case pstMerge => exact .inr (.inr (.inl ⟨rfl, rfl⟩))
  case pstSplit => exact .inr (.inr (.inr (.inl ⟨rfl, rfl⟩)))
  case pstTags => exact .inr (.inr (.inr (.inr (.inl ⟨rfl, rfl⟩))))
  case pstMarke => exact .inr (.inr (.inr (.inr (.inr (.inl ⟨rfl, rfl⟩)))))
  case pstTagt => exact .inr (.inr (.inr (.inr (.inr (.inr ⟨rfl, rfl⟩)))))
  all_goals exact .inl ⟨by decide, rfl⟩

/-- The latency of a word of the P-strip that accepts one type and is none of the slow ones. -/
theorem pLatency_of_types {op : Nat} {ty : BitVec 4} (hty : (0x0800#16).getLsbD ty.toNat = true) (hop : 0x12 < op ∨ op = 0x10 ∨ op = 0x11) :
    pLatency op ty = 2 := by
  rw [ty_eq_of_types hty, pLatency]
  · rfl
  all_goals omega

/-- Settles O19: the word issues as its opcode's meaning does, on the operands that its fields name. -/
theorem pstWords : Obligations.PstWords := by
  intro i s x t op w addr md hs hw hop hm
  obtain ⟨r, hr, hty, -⟩ := fields_of_stripOk (stripOk_of_wellFormed hs hw) hop
  have hin (h : op ≠ 0x11) := wordIn_eq (t := t) (e := .pst) (op := op.toNat) w md (by simpa [isMerge] using fun hn => h (BitVec.eq_of_toNat_eq hn))
  obtain ⟨bits, hcur⟩ := hm.selected
  obtain ⟨hno, he⟩ | ⟨rfl, he⟩ | ⟨rfl, he⟩ | ⟨rfl, he⟩ | ⟨rfl, he⟩ | ⟨rfl, he⟩ | ⟨rfl, he⟩ := exec_pst hs hop s
  · rw [he, pstWord]
    obtain ⟨s', t', hstep, hissued, -⟩ := issued_of_mayIssue hm (toNat_ne_one hop) (pLatency op.toNat w.ty) _
    rw [hin (by rintro rfl; simp at hno)] at hissued
    refine ⟨s', t', _, hstep, hissued, rfl, fun _ => ⟨rfl, rfl⟩, ?_, ?_, ?_, ?_, ?_, ?_⟩ <;>
    · rintro rfl
      simp at hno
  · obtain rfl := Option.some.inj hr
    rw [he, execPstSteer, pLatency_of_types hty (by decide)]
    obtain ⟨s', t', hstep, hissued, -⟩ := issued_of_mayIssue hm (by decide) 2 _
    rw [hin (by decide)] at hissued
    exact ⟨s', t', _, hstep, hissued, rfl, by simp, fun _ => rfl, by simp, by simp, by simp, by simp, by simp⟩
  · obtain rfl := Option.some.inj hr
    rw [he, execPstMerge, pLatency_of_types hty (by decide)]
    obtain ⟨s', t', hstep, hissued, -⟩ := issued_of_mayIssue hm (by decide) 2 _
    refine ⟨s', t', _, hstep, hissued, rfl, by simp, by simp, fun _ => ?_, by simp, by simp, by simp, by simp⟩
    dsimp only [flightOf]
    rw [wordIn_a_merge (op := (0x11 : BitVec 8).toNat) w md hcur rfl]
    split <;> rfl
  · obtain rfl := Option.some.inj hr
    rw [he, execPstSplit]
    obtain ⟨s', t', hstep, hissued, -⟩ := issued_of_mayIssue hm (by decide) (pLatency 0x19 w.ty) _
    rw [hin (by decide)] at hissued
    exact ⟨s', t', _, hstep, hissued, rfl, by simp, by simp, by simp, fun _ => ⟨_, _, rfl, rfl, rfl⟩, by simp, by simp, by simp⟩
  · obtain rfl := Option.some.inj hr
    rw [he, execPstTags, pLatency_of_types hty (by decide)]
    obtain ⟨s', t', hstep, hissued, -⟩ := issued_of_mayIssue hm (by decide) 2 _
    rw [hin (by decide)] at hissued
    exact ⟨s', t', _, hstep, hissued, rfl, by simp, by simp, by simp, by simp, fun _ => rfl, by simp, by simp⟩
  · obtain rfl := Option.some.inj hr
    rw [he, execPstMarke, pLatency_of_types hty (by decide)]
    obtain ⟨s', t', hstep, hissued, -⟩ := issued_of_mayIssue hm (by decide) 2 _
    rw [hin (by decide)] at hissued
    exact ⟨s', t', _, hstep, hissued, rfl, by simp, by simp, by simp, by simp, by simp, fun _ => rfl, by simp⟩
  · obtain rfl := Option.some.inj hr
    rw [he, execPstTagt, pLatency_of_types hty (by decide)]
    obtain ⟨s', t', hstep, hissued, -⟩ := issued_of_mayIssue hm (by decide) 2 _
    rw [hin (by decide)] at hissued
    refine ⟨s', t', _, hstep, hissued, rfl, by simp, by simp, by simp, by simp, by simp, by simp, fun _ => ⟨rfl, ?_⟩⟩
    dsimp only [flightOf]
    simp only [ite_eq_left_iff, reduceCtorEq, imp_false, not_not]
    rfl

end Sys2Proof.Strips
end

section
/-! IDLE, the check of a RUN, and the selection of a strip's next word (R188-R192, R197, R211). -/

open Sys2Proof.Machine

namespace Sys2Proof.Strips

/-! ### IDLE (R197) -/

theorem strip_withFifo (t : Tile) (q : Vector (BitVec 4) 30) (e : StripId) : ({ t with fifo := q } : Tile).strip e = t.strip e := by
  cases e <;> rfl

/-- The PUSH of an IDLE that occupies more than one schedule cycle, in flight until the last of them. -/
def idleFlight (t : Tile) (w : SWord) (addr md : W64) : Flight :=
  { due := t.cyc + (w.imm.toNat - 1), kind := .value, outs := [], flags := 0, push := w.push, addr := addr, hard := [], rounded := false
    mode := md, lenmis := false, tagt := none, wide := false }

/-- The strip that an IDLE occupies. -/
def idling (w : SWord) (cyc : Nat) (f : Flight) (x : Strip) : Strip :=
  { x with cur := none, free := cyc + w.imm.toNat, flight := if w.imm.toNat ≤ 1 then x.flight else x.flight ++ [f] }

/-- A tile whose strip has taken the POP token of a word. -/
def tokenTaken (e : StripId) (w : SWord) (t : Tile) : Tile := if w.pop = 0 then t else t.fifoPop w.pop.toNat (stripId e)

/-- A tile on which an IDLE has issued. -/
def idled (e : StripId) (w : SWord) (f : Flight) (t : Tile) : Tile :=
  let t := tokenTaken e w t
  let t := t.modStrip e (idling w t.cyc f)
  if w.imm.toNat ≤ 1 && w.push != 0 then t.fifoPush (stripId e) w.push.toNat else t

theorem tokenTaken_eq (e : StripId) (w : SWord) (t : Tile) : tokenTaken e w t = { t with fifo := (tokenTaken e w t).fifo } := by
  rw [tokenTaken]
  split <;> rfl

theorem idled_eq (e : StripId) (w : SWord) (f : Flight) (t : Tile) :
    idled e w f t = { t.modStrip e (idling w t.cyc f) with fifo := (idled e w f t).fifo } := by
  have hpush (u : Tile) (b : Bool) : (if b then u.fifoPush (stripId e) w.push.toNat else u) =
      { u with fifo := (if b then u.fifoPush (stripId e) w.push.toNat else u).fifo } := by cases b <;> rfl
  rw [idled, hpush, tokenTaken_eq]
  cases e <;> rfl

theorem exec_idle {s : State} {x : Inst} {t : Tile} {e : StripId} {w : SWord} {addr md : W64} (h : MayIssue s x t e 1 w addr md) :
    exec (.idle e w) s = .next (s.modFocus (idled e w (idleFlight t w addr md))) := by
  obtain ⟨hx, ht, hplace, ⟨bits, hcur⟩, hruns, -, htoken⟩ := h
  have htoken' : (w.pop != 0 && t.fifoAt w.pop.toNat (stripId e) == 0) = false := by
    by_cases hp : w.pop = 0
    · simp [hp]
    · simp [htoken hp]
  show execIdle e w s = _
  simp only [execIdle, State.onTile_of s x t _ hx ht, hcur, hruns, hplace, htoken', bne_self_eq_false, Bool.or_self, Bool.false_eq_true, if_false]
  rfl

/-- An IDLE of one schedule cycle pushes its token as it issues; the FIFO that it pops is another. -/
theorem fifoAt_idled {e : StripId} {w : SWord} (hw : (Instr.idle e w).WellFormed = true) (h1 : w.imm.toNat = 1) (hpush : w.push ≠ 0)
    (f : Flight) (t : Tile) :
    (idled e w f t).fifoAt (stripId e) w.push.toNat = (t.fifoAt (stripId e) w.push.toNat + 1) % 16 := by
  have hok := stripOk_of_wellFormed (i := .idle e w) rfl hw
  simp only [stripOk, tokenFieldOk, Bool.and_eq_true, bne_iff_ne, ne_eq] at hok
  obtain ⟨⟨⟨-, hpop⟩, hpush7, hpushe⟩, -⟩ := hok
  have he : 3 ≤ stripId e ∧ stripId e ≤ 5 := by cases e <;> decide
  have hne : w.push.toNat ≠ stripId e ∧ w.pop.toNat ≠ stripId e := ⟨hpushe, hpop⟩
  have hpos : w.push.toNat ≠ 0 := fun h => hpush (BitVec.eq_of_toNat_eq h)
  have hlt : w.push.toNat < 7 := by
    have : w.push.toNat ≠ 7 := fun h => hpush7 (BitVec.eq_of_toNat_eq h)
    have := w.push.isLt
    omega
  have hidx : fifoIdx (stripId e) w.push.toNat < 30 := by
    rw [fifoIdx]
    split <;> omega
  have hother : w.pop ≠ 0 → fifoIdx (stripId e) w.push.toNat ≠ fifoIdx w.pop.toNat (stripId e) := by
    intro hp
    have : w.pop.toNat ≠ 0 := fun h => hp (BitVec.eq_of_toNat_eq h)
    rw [fifoIdx, fifoIdx]
    split <;> split <;> omega
  have htaken : (tokenTaken e w t).fifoAt (stripId e) w.push.toNat = t.fifoAt (stripId e) w.push.toNat := by
    rw [tokenTaken]
    split
    case isTrue => rfl
    case isFalse hp => exact fifoAt_fifoPop_of_ne t (hother hp)
  rw [idled, if_pos (by simpa [h1] using hpush), fifoAt_fifoPush _ hidx, fifoAt_congr (modStrip_fifo _ e _), htaken]

/-! ### The check of a RUN (R77, R188, R211) -/

theorem firstBad_eq_none {feat : W64} {e : StripId} {ws : List W64} (h : ∀ w ∈ ws, wordFault feat e w = none) (va : W64) :
    firstBad feat e va ws = none := by
  induction ws generalizing va with
  | nil => rfl
  | cons w ws ih =>
    obtain ⟨hw, hws⟩ := List.forall_mem_cons.mp h
    rw [firstBad, hw]
    exact ih hws (va + 8)

theorem firstBad_eq_some {feat : W64} {e : StripId} {ws : List W64} {k : Nat} {w : W64} {c : Byte} (hk : ws[k]? = some w)
    (hc : wordFault feat e w = some c) (hbefore : ∀ j < k, ∀ u, ws[j]? = some u → wordFault feat e u = none) (va : W64) :
    firstBad feat e va ws = some (c, va + BitVec.ofNat 64 (8 * k)) := by
  induction ws generalizing va k with
  | nil => cases hk
  | cons u ws ih =>
    cases k with
    | zero =>
      obtain rfl := Option.some.inj hk
      rw [firstBad, hc]
      simp
    | succ k =>
      rw [firstBad, hbefore 0 k.succ_pos u rfl]
      refine (ih hk (fun j hj => hbefore (j + 1) (Nat.succ_lt_succ hj)) (va + 8)).trans ?_
      rw [Nat.mul_succ, Nat.add_comm, BitVec.ofNat_add, ← BitVec.add_assoc]
      rfl

/-- The code of a RUN stands behind its constants. -/
theorem code_add (q : RunReq) (k : Nat) :
    q.code + BitVec.ofNat 64 (8 * k) = q.addr + BitVec.ofNat 64 (8 * ((if q.kload then 4 else 0) + k)) := by
  rw [RunReq.code, Nat.mul_add, BitVec.ofNat_add]
  split
  · rw [← BitVec.add_assoc]
    rfl
  · simp

/-- Of some pieces of work one is chosen. -/
theorem exists_pickOf {α : Type} (n : Nat) {l : List α} (h : l ≠ []) : ∃ a ∈ l, pickOf n l = some a := by
  have hlt : n % l.length < l.length := Nat.mod_lt _ (List.length_pos_iff.mpr h)
  exact ⟨l[n % l.length], List.getElem_mem hlt, List.getElem?_eq_getElem hlt⟩

/-- The RUN at the head of the strip's queue, of the tile in focus, changed. -/
def changeHead (e : StripId) (f : RunReq → RunReq) (s : State) : State := s.modFocus fun t => t.modStrip e fun y => y.modHead f

section
variable {s : State} {x : Inst} {t : Tile} {e : StripId} {q : RunReq} {l : List RunReq} (hx : s.insts[s.focus.inst]? = some x)
  (ht : x.tiles[s.focus.tile]? = some t) (hq : (t.strip e).queue = q :: l)
include hx ht hq

theorem changeHead_congr {f g : RunReq → RunReq} (h : f q = g q) : changeHead e f s = changeHead e g s :=
  Streams.modFocus_congr hx ht (modStrip_congr t e (by simp [Strip.modHead, hq, h]))

variable (hplace : t.place = .running) (hfault : (t.strip e).checkFault = false) (hchecked : q.checked = none)
include hplace hfault hchecked

/-- A read of the check, whichever is chosen, is one that does not wait. -/
theorem exec_runCheck_read (hbad : q.bad = none) (hread : ∃ va ∈ q.unread, s.checkRead e t va ≠ .wait) :
    ∃ va ∈ q.unread, (∃ w l, s.checkRead e t va = .word w l ∧
        exec (.runCheck e) s = .next (changeHead e (fun q => { q with part := q.part ++ [(va, w)] }) (s.hbmBytes x.tag false l 8))) ∨
      (∃ f, s.checkRead e t va = .bad f ∧ exec (.runCheck e) s = .next (changeHead e (fun q => { q with part := [], bad := some f }) s)) := by
  obtain ⟨v, hv, hready⟩ := hread
  have hsome : q.unread.isEmpty = false := List.isEmpty_eq_false_iff.mpr (List.ne_nil_of_mem hv)
  obtain ⟨va, hva, hpick⟩ := exists_pickOf (Config.readPick s.now) (l := q.unread.filter fun va => s.checkRead e t va != .wait)
    (List.ne_nil_of_mem (List.mem_filter.mpr ⟨hv, bne_iff_ne.mpr hready⟩))
  obtain ⟨hunread, hgoes⟩ := List.mem_filter.mp hva
  refine ⟨va, hunread, ?_⟩
  have hstep : exec (.runCheck e) s = execRunCheck e s := rfl
  simp only [execRunCheck, State.onTile_of s x t _ hx ht, hq, hplace, hfault, hchecked, hbad, hsome, hpick, bne_self_eq_false, Option.isSome_none,
    Bool.or_self, Bool.false_eq_true, if_false] at hstep
  cases hc : s.checkRead e t va with
  | word w l =>
    rw [hc] at hstep
    exact .inl ⟨w, l, rfl, hstep⟩
  | wait => simp [hc] at hgoes
  | bad f =>
    rw [hc] at hstep
    exact .inr ⟨f, rfl, hstep⟩

theorem exec_runCheck_verdict (hbad : q.bad = none) (hread : q.unread = []) :
    exec (.runCheck e) s = .next (changeHead e (fun q => q.verdict t.sr.feat e) s) := by
  show execRunCheck e s = _
  simp only [execRunCheck, State.onTile_of s x t _ hx ht, hq, hplace, hfault, hchecked, hbad, hread, bne_self_eq_false, Option.isSome_none,
    Bool.or_self, Bool.false_eq_true, if_false, List.isEmpty_nil, if_true]
  rfl

theorem exec_runCheck_bad {f : PFault} (hbad : q.bad = some f) (hrun : (t.strip e).run = none) (hcur : (t.strip e).cur = none)
    (hflight : (t.strip e).flight = []) (hstopped : (t.strip e).stopped = false) :
    exec (.runCheck e) s = .next ((s.modFocus fun t => t.modStrip e fun y => { y with checkFault := true }).pendFault
      s.focus.inst s.focus.tile none f) := by
  show execRunCheck e s = _
  simp only [execRunCheck, State.onTile_of s x t _ hx ht, hq, hplace, hfault, hchecked, hbad, hrun, hcur, hflight, hstopped, bne_self_eq_false,
    Option.isSome_none, List.isEmpty_nil, Bool.not_true, Bool.or_self, Bool.false_eq_true, if_false]

end

/-! ### The selection of a word (R48, R189, R192) -/

theorem wordReady_of_issueClear {s : State} {x : Inst} {t : Tile} {e : StripId} {w : W64 × W64 × W64} (h : s.issueClear x t = true)
    (hnext : (t.strip e).nextWord t.cyc = some w) : t.wordReady e w.1 = true := by
  have hclear : t.stripClear e = true := by
    simp only [State.issueClear, Bool.and_eq_true] at h
    obtain ⟨⟨⟨⟨-, hast⟩, hest⟩, hpst⟩, -⟩ := h
    cases e
    · exact hast
    · exact hest
    · exact hpst
  rwa [Tile.stripClear, hnext] at hclear

theorem exec_stripWordIssue {s : State} {x : Inst} {t : Tile} {e : StripId} {w : W64 × W64 × W64} (hx : s.insts[s.focus.inst]? = some x)
    (ht : x.tiles[s.focus.tile]? = some t) (hplace : t.place = .running) (hnext : (t.strip e).nextWord t.cyc = some w)
    (hbind : t.bindFault e w.1 = false) (hdrain : t.drainChan e w.1 = none) (hcycle : s.cycleRuns x t = true) (hdue : t.duesLeft = false)
    (hclear : s.issueClear x t = true) :
    exec (.stripWordIssue e) s = .next (s.modFocus fun t => { t.modStrip e (fun y => y.takeWord w) with phase := .issue }) := by
  show execStripWordIssue e s = _
  simp only [execStripWordIssue, State.onTile_of s x t _ hx ht, hnext, hplace, hbind, hdrain, hcycle, hdue, hclear,
    wordReady_of_issueClear hclear hnext, bne_self_eq_false, Bool.or_true, Bool.not_false, Bool.and_self, Bool.false_eq_true, if_false, if_true]

section
variable (x : Strip) (w : W64 × W64 × W64)

@[simp] theorem takeWord_cur : (x.takeWord w).cur = some w := rfl

/-- A strip that takes a word keeps its registers and what is in flight. -/
@[simp] theorem takeWord_v : (x.takeWord w).v = x.v := by
  simp only [Strip.takeWord]
  split
  · split <;> rfl
  · rfl

@[simp] theorem takeWord_flight : (x.takeWord w).flight = x.flight := by
  simp only [Strip.takeWord]
  split
  · split <;> rfl
  · rfl

/-- The next word of the RUN in progress (R189). -/
theorem takeWord_of_run {r : Run} (h : x.run = some r) : x.takeWord w = { x with
    cur := some w
    run := if r.pos + 1 < r.words.length then some { r with pos := r.pos + 1 }
      else if 1 < r.left then some { r with pos := 0, left := r.left - 1 } else none } := by
  simp only [Strip.takeWord, h, Option.bind_some]

/-- The first word of the RUN at the head of the queue, whose constants the strip takes (R188). -/
theorem takeWord_of_queue {q : RunReq} {l : List RunReq} {c : List W64 × BitVec 256} (hrun : x.run = none) (hq : x.queue = q :: l)
    (hc : q.checked = some c) : (x.takeWord w).queue = l ∧ (x.takeWord w).k = q.consts x.k := by
  simp only [Strip.takeWord, hrun, hq, hc, and_self]

end

theorem getElem_consts {q : RunReq} {ws : List W64} {k : BitVec 256} (hc : q.checked = some (ws, k)) (hload : q.kload = true) (old : Vector W32 8)
    (j : Fin 8) : (q.consts old)[j] = BitVec.ofNat 32 (k.toNat / 2 ^ (32 * j.val)) := by
  simp only [RunReq.consts, hc, hload, if_true, fld, Fin.getElem_fin, Vector.getElem_ofFn]
  exact BitVec.eq_of_toNat_eq (by simp)

theorem strip_withPhase (t : Tile) (p : SchedPhase) (e : StripId) : ({ t with phase := p } : Tile).strip e = t.strip e := by
  cases e <;> rfl

/-- Settles O16: what IDLE, each step of a RUN check and the selection of a word do, by their own lemmas. -/
theorem stripRuns : Obligations.StripRuns := by
  refine ⟨?_, ?_, ?_⟩
  · intro s x t e w addr md h
    have hstrip : (idled e w (idleFlight t w addr md) t).strip e = idling w t.cyc (idleFlight t w addr md) (t.strip e) := by
      rw [idled_eq, strip_withFifo, strip_modStrip]
    refine ⟨_, _, exec_idle h, (State.tile?_modFocus s _).trans (congrArg _ (Homes.tile?_of_insts h.inst h.tile)), ?_⟩
    rw [hstrip]
    refine ⟨rfl, rfl, rfl, rfl, rfl, ?_, ?_, ?_, ?_, ?_, ?_, ?_⟩
    iterate 5
      · rw [idled_eq]
        simp
    · intro hlong
      refine ⟨idleFlight t w addr md, if_neg (by omega), ?_, rfl, rfl, rfl⟩
      simp only [idleFlight]
      omega
    · intro hone
      exact ⟨if_pos hone.le, fun hw hpush => fifoAt_idled hw hone hpush _ t⟩
  · intro s x t e q l hx ht hplace hq hfault hchecked
    refine ⟨rfl, exec_runCheck_read hx ht hq hplace hfault hchecked, ?_, ?_, ?_⟩
    · intro hbad hread hok
      refine (exec_runCheck_verdict hx ht hq hplace hfault hchecked hbad hread).trans (congrArg _ (changeHead_congr hx ht hq ?_))
      simp only [RunReq.verdict, firstBad_eq_none hok]
    · intro c k w hbad hread hk hc hbefore
      refine (exec_runCheck_verdict hx ht hq hplace hfault hchecked hbad hread).trans (congrArg _ (changeHead_congr hx ht hq ?_))
      simp only [RunReq.verdict, firstBad_eq_some hk hc hbefore, code_add]
    · intro f hbad hrun hcur hflight hstopped
      exact exec_runCheck_bad hx ht hq hplace hfault hchecked hbad hrun hcur hflight hstopped
  · intro s x t e w hx ht hplace hnext hbind hdrain hcycle hdue hclear
    refine ⟨_, _, exec_stripWordIssue hx ht hplace hnext hbind hdrain hcycle hdue hclear,
      (State.tile?_modFocus s _).trans (congrArg _ (Homes.tile?_of_insts hx ht)), rfl, ?_⟩
    rw [strip_withPhase, strip_modStrip]
    refine ⟨rfl, takeWord_v _ w, takeWord_flight _ w, modStrip_g t e _, modStrip_chan t e _, modStrip_fifo t e _, ?_, ?_⟩
    · intro r hr
      rw [takeWord_of_run _ w hr]
      exact ⟨rfl, rfl, fun h => if_pos h, fun h h' => by simp [Nat.not_lt.mpr h, h'], fun h h' => by simp [Nat.not_lt.mpr h, Nat.not_lt.mpr h']⟩
    · intro q l ws k hrun hq hc
      obtain ⟨hqueue, hk⟩ := takeWord_of_queue _ w hrun hq hc
      rw [hk]
      refine ⟨hqueue, fun hload => ?_, fun hload => getElem_consts hc hload _⟩
      simp [RunReq.consts, hc, hload]

end Sys2Proof.Strips
end

section
/-! Results that fall due, the faults that they raise, and the second phase (R109, R194, R196, R198, R210, R223, R224, R226). -/

open Sys2Proof.Machine

namespace Sys2Proof.Strips

/-! ### What a delivery leaves as it was -/

/-- The tile u is the tile t but for channels, token FIFOs, and v registers, lane flags and hard counters of the strip e. -/
structure Delivers (e : StripId) (t u : Tile) : Prop where
  g : u.g = t.g
  sr : u.sr = t.sr
  slice : u.slice = t.slice
  seq : u.seq = t.seq
  cyc : u.cyc = t.cyc
  k : (u.strip e).k = (t.strip e).k
  flight : (u.strip e).flight = (t.strip e).flight

section
variable {e : StripId} {t u y : Tile}

theorem Delivers.refl (e : StripId) (t : Tile) : Delivers e t t := ⟨rfl, rfl, rfl, rfl, rfl, rfl, rfl⟩

theorem Delivers.trans (h : Delivers e t u) (h' : Delivers e u y) : Delivers e t y :=
  ⟨h'.g.trans h.g, h'.sr.trans h.sr, h'.slice.trans h.slice, h'.seq.trans h.seq, h'.cyc.trans h.cyc, h'.k.trans h.k, h'.flight.trans h.flight⟩

theorem delivers_modStrip (t : Tile) {f : Strip → Strip} (hk : ∀ x, (f x).k = x.k) (hf : ∀ x, (f x).flight = x.flight) :
    Delivers e t (t.modStrip e f) := by
  constructor <;> simp [hk, hf]

theorem strip_withChan (t : Tile) (c : Vector Channel 16) (e : StripId) : ({ t with chan := c } : Tile).strip e = t.strip e := by
  cases e <;> rfl

theorem delivers_modChan (e : StripId) (t : Tile) (k : Nat) (f : Channel → Channel) : Delivers e t (t.modChan k f) :=
  ⟨rfl, rfl, rfl, rfl, rfl, congrArg Strip.k (strip_withChan t _ e), congrArg Strip.flight (strip_withChan t _ e)⟩

theorem delivers_fifoPush (e : StripId) (t : Tile) (d k : Nat) : Delivers e t (t.fifoPush d k) :=
  ⟨rfl, rfl, rfl, rfl, rfl, congrArg Strip.k (strip_withFifo t _ e), congrArg Strip.flight (strip_withFifo t _ e)⟩

/-- A channel that an output has been pushed to. -/
def pushedOut (o : Out) (c : Channel) : Channel := { c with entries := c.entries ++ [⟨o.data, o.tag, o.last⟩] }

/-- A strip whose v register an output has been written to. -/
def writtenOut (o : Out) (x : Strip) : Strip := { x with v := vmod x.v o.dst.toNat fun _ => o.data }

/-- An output goes to the channel or to the v register that its code names, or nowhere (R74). -/
theorem putOut_cases (t : Tile) (e : StripId) (o : Out) :
    (∃ k < 16, o.dst.toNat = 16 + k ∧ t.putOut e o = t.modChan k (pushedOut o)) ∨
    (o.dst.toNat < 8 ∧ t.putOut e o = t.modStrip e (writtenOut o)) ∨
    (8 ≤ o.dst.toNat ∧ (o.dst.toNat < 16 ∨ 32 ≤ o.dst.toNat) ∧ t.putOut e o = t) := by
  by_cases hc : 16 ≤ o.dst.toNat ∧ o.dst.toNat < 32
  · have hchan : codeChan o.dst = some (o.dst.toNat - 16) := if_pos hc
    refine .inl ⟨o.dst.toNat - 16, by omega, by omega, ?_⟩
    rw [Tile.putOut, hchan]
    rfl
  · have hchan : codeChan o.dst = none := if_neg hc
    rw [Tile.putOut, hchan]
    by_cases hv : o.dst.toNat < 8
    · exact .inr (.inl ⟨hv, if_pos hv⟩)
    · exact .inr (.inr ⟨by omega, by omega, if_neg hv⟩)

theorem delivers_putOut (e : StripId) (t : Tile) (o : Out) : Delivers e t (t.putOut e o) := by
  obtain ⟨k, -, -, h⟩ | ⟨-, h⟩ | ⟨-, -, h⟩ := putOut_cases t e o <;> rw [h]
  · exact delivers_modChan e t _ _
  · exact delivers_modStrip t (fun _ => rfl) fun _ => rfl
  · exact .refl e t

theorem delivers_deliverFlight (e : StripId) (t : Tile) (f : Flight × List Out) : Delivers e t (t.deliverFlight e f) := by
  have houts : Delivers e t (f.2.foldl (fun t o => t.putOut e o) t) :=
    List.foldlRecOn (motive := Delivers e t) _ _ (.refl e t) fun u hu o _ => hu.trans (delivers_putOut e u o)
  have hflags := houts.trans (delivers_modStrip (e := e) (f := fun x =>
    { x with
      flags := x.flags ||| f.1.flags
      hard := f.1.hard.zipIdx.foldl (fun h n => vmod h n.2 fun c => hardAdd c n.1) x.hard }) _ (fun _ => rfl) fun _ => rfl)
  rw [Tile.deliverFlight]
  split
  · exact hflags
  · exact hflags.trans (delivers_fifoPush e _ _ _)

end

/-! ### One result that is due -/

/-- A strip without its words that are due. -/
def withoutDue (cyc : Nat) (clr : Bool) (x : Strip) : Strip :=
  { x with
    flight := x.flight.filter fun f => !decide (f.due ≤ cyc)
    hard := if clr then Vector.replicate 4 0 else x.hard }

theorem deliverDue_of_one {t : Tile} {e : StripId} {f : Flight} (h : t.dueOf e = [f]) :
    t.deliverDue e = (t.modStrip e (withoutDue t.cyc (f.kind == .hardr true))).deliverFlight e (f, f.outputs (t.strip e)) := by
  rw [Tile.deliverDue, h]
  simp only [List.map_cons, List.map_nil, List.any_cons, List.any_nil, Bool.or_false, List.foldl_cons, List.foldl_nil]
  rfl

/-- The tile after its strip's words that are due are delivered has none left. -/
theorem delivered_of_one {t : Tile} {e : StripId} {f : Flight} (h : t.dueOf e = [f]) :
    Delivers e (t.modStrip e (withoutDue t.cyc (f.kind == .hardr true))) (t.deliverDue e) := by
  rw [deliverDue_of_one h]
  exact delivers_deliverFlight e _ _

/-- The tile after the words of a strip that are due, of which there is one, are delivered, in a schedule cycle that runs. -/
def delivered (e : StripId) (t : Tile) : Tile := { t.deliverDue e with phase := .due }

theorem strip_delivered (e : StripId) (t : Tile) : (delivered e t).strip e = (t.deliverDue e).strip e := strip_withPhase _ _ e

section
variable {t : Tile} {e : StripId} {f : Flight} (h : t.dueOf e = [f])
include h

theorem flight_delivered : ((delivered e t).strip e).flight = (t.strip e).flight.filter fun f => !decide (f.due ≤ t.cyc) := by
  rw [strip_delivered, (delivered_of_one h).flight, strip_modStrip]
  rfl

theorem k_delivered : ((delivered e t).strip e).k = (t.strip e).k := by
  rw [strip_delivered, (delivered_of_one h).k, strip_modStrip]
  rfl

theorem delivered_keeps : (delivered e t).g = t.g ∧ (delivered e t).sr = t.sr ∧ (delivered e t).slice = t.slice ∧ (delivered e t).seq = t.seq ∧
    (delivered e t).cyc = t.cyc := by
  obtain ⟨hg, hsr, hslice, hseq, hcyc, -, -⟩ := delivered_of_one h
  exact ⟨hg.trans (modStrip_g t e _), hsr.trans (modStrip_sr t e _), hslice.trans (modStrip_slice t e _), hseq.trans (modStrip_seq t e _),
    hcyc.trans (modStrip_cyc t e _)⟩

/-- The delivery leaves nothing that is due. -/
theorem dueOf_delivered : (delivered e t).dueOf e = [] := by
  rw [Tile.dueOf, flight_delivered h, (delivered_keeps h).2.2.2.2, List.filter_filter]
  simp

end

/-! ### The parts of a result -/

theorem strip_modChan (t : Tile) (k : Nat) (f : Channel → Channel) (e : StripId) : (t.modChan k f).strip e = t.strip e := strip_withChan t _ e

theorem getElem_v_putOut (t : Tile) (e : StripId) (o : Out) (k : Fin 8) :
    ((t.putOut e o).strip e).v[k] = if o.dst.toNat = k.val then o.data else (t.strip e).v[k] := by
  have hk := k.isLt
  obtain ⟨j, -, hj, h⟩ | ⟨hv, h⟩ | ⟨h8, -, h⟩ := putOut_cases t e o <;> rw [h]
  · rw [strip_modChan, if_neg (by omega)]
  · rw [strip_modStrip, writtenOut, Streams.vmod_eq_set _ hv]
    simp [Vector.getElem_set]
  · rw [if_neg (by omega)]

theorem entries_putOut (t : Tile) (e : StripId) (o : Out) (k : Fin 16) : ((t.putOut e o).chanAt k.val).entries =
    if o.dst.toNat = 16 + k.val then (t.chanAt k.val).entries ++ [⟨o.data, o.tag, o.last⟩] else (t.chanAt k.val).entries := by
  have hk := k.isLt
  obtain ⟨j, hj, hdst, h⟩ | ⟨hv, h⟩ | ⟨h8, hno, h⟩ := putOut_cases t e o <;> rw [h]
  · rw [chanAt_modChan, hdst]
    by_cases hkj : k.val = j
    · rw [if_pos ⟨hkj, hj⟩, if_pos (by omega)]
      rfl
    · rw [if_neg (by omega), if_neg (by omega)]
  · rw [chanAt_congr (modStrip_chan t e _), if_neg (by omega)]
  · rw [if_neg (by omega)]

theorem flags_hard_fifo_putOut (t : Tile) (e : StripId) (o : Out) : ((t.putOut e o).strip e).flags = (t.strip e).flags ∧
    ((t.putOut e o).strip e).hard = (t.strip e).hard ∧ (t.putOut e o).fifo = t.fifo := by
  obtain ⟨k, -, -, h⟩ | ⟨-, h⟩ | ⟨-, -, h⟩ := putOut_cases t e o <;> rw [h]
  · rw [strip_modChan]
    exact ⟨rfl, rfl, rfl⟩
  · simp [writtenOut]
  · exact ⟨rfl, rfl, rfl⟩

/-- The strip of a result, but for its outputs, as it is delivered. -/
def raisedFlags (f : Flight) (x : Strip) : Strip :=
  { x with
    flags := x.flags ||| f.flags
    hard := f.hard.zipIdx.foldl (fun h n => vmod h n.2 fun c => hardAdd c n.1) x.hard }

theorem strip_deliverFlight (t : Tile) (e : StripId) (f : Flight) (o : Out) :
    (t.deliverFlight e (f, [o])).strip e = raisedFlags f ((t.putOut e o).strip e) := by
  simp only [Tile.deliverFlight, List.foldl_cons, List.foldl_nil]
  split
  · exact strip_modStrip _ e _
  · exact (strip_withFifo _ _ e).trans (strip_modStrip _ e _)

theorem chan_deliverFlight (t : Tile) (e : StripId) (f : Flight) (o : Out) : (t.deliverFlight e (f, [o])).chan = (t.putOut e o).chan := by
  simp only [Tile.deliverFlight, List.foldl_cons, List.foldl_nil]
  split
  · exact modStrip_chan _ e _
  · exact modStrip_chan _ e _

theorem fifo_deliverFlight (t : Tile) (e : StripId) {f : Flight} (o : Out) (h : f.push = 0) : (t.deliverFlight e (f, [o])).fifo = t.fifo := by
  simp only [Tile.deliverFlight, List.foldl_cons, List.foldl_nil, h, if_true, modStrip_fifo, flags_hard_fifo_putOut]

/-- The hard counters stop at all ones (R226). -/
theorem hardAdd_toNat (c : W32) (n : Nat) : (hardAdd c n).toNat = min (2 ^ 32 - 1) (c.toNat + n) := by
  have : Nat.min (2 ^ 32 - 1) (c.toNat + n) < 2 ^ 32 := Nat.lt_of_le_of_lt (Nat.min_le_left _ _) (by decide)
  rw [hardAdd, BitVec.toNat_ofNat, Nat.mod_eq_of_lt this]

theorem hard_raisedFlags_of_nil {f : Flight} (h : f.hard = []) (x : Strip) : (raisedFlags f x).hard = x.hard := by simp [raisedFlags, h]

/-- Each quarter's counter takes the quarter's count (R226). -/
theorem hard_raisedFlags {f : Flight} (h : f.hard.length = 4) (x : Strip) (q : Fin 4) :
    ((raisedFlags f x).hard[q]).toNat = min (2 ^ 32 - 1) (x.hard[q].toNat + f.hard.getD q.val 0) := by
  obtain ⟨a, b, c, d, habcd⟩ : ∃ a b c d, f.hard = [a, b, c, d] := List.length_eq_four.mp h
  rw [← hardAdd_toNat, raisedFlags, habcd]
  simp only [List.zipIdx_cons, List.zipIdx_nil, List.foldl_cons, List.foldl_nil, Nat.zero_add, Streams.vmod_eq_set _ (show 0 < 4 by decide),
    Streams.vmod_eq_set _ (show 1 < 4 by decide), Streams.vmod_eq_set _ (show 2 < 4 by decide), Streams.vmod_eq_set _ (show 3 < 4 by decide)]
  fin_cases q <;> simp

/-! ### The steps -/

section
variable {s : State} {x : Inst} {t : Tile} {e : StripId} {f : Flight} (hx : s.insts[s.focus.inst]? = some x)
  (ht : x.tiles[s.focus.tile]? = some t)
include hx ht

section
variable (hcycle : s.cycleRuns x t = true) (hdue : t.dueOf e = [f])
include hcycle hdue

theorem exec_stripResultDue_sound (hf : f.fault? e = none) : exec (.stripResultDue e) s = .next (s.modFocus (delivered e)) := by
  show execStripResultDue e s = _
  rw [execStripResultDue, s.onTile_of x t _ hx ht]
  simp only [hcycle, hdue, List.isEmpty_cons, Bool.not_true, Bool.or_self, Bool.false_eq_true, if_false, List.findSome?_cons, hf,
    List.findSome?_nil]
  rfl

/-- A strip that has stopped. -/
def stopped (x : Strip) : Strip := { x with stopped := true }

theorem exec_stripResultDue_fault {p : PFault} (hf : f.fault? e = some p) : exec (.stripResultDue e) s =
    .next (((s.modFocus (delivered e)).modFocus fun t => t.modStrip e stopped).pendFault s.focus.inst s.focus.tile none p) := by
  show execStripResultDue e s = _
  rw [execStripResultDue, s.onTile_of x t _ hx ht]
  simp only [hcycle, hdue, List.isEmpty_cons, Bool.not_true, Bool.or_self, Bool.false_eq_true, if_false, List.findSome?_cons, hf]
  rfl

end

end

/-- A tile at which a fault of a strip is pending. -/
def pendStrip (e : StripId) (f : PFault) (t : Tile) : Tile :=
  { t with seq := { t.seq with pend := match e with
    | .ast => { t.seq.pend with ast := some f }
    | .est => { t.seq.pend with est := some f }
    | .pst => { t.seq.pend with pst := some f } } }

theorem strip_pendStrip (d e : StripId) (f : PFault) (t : Tile) : (pendStrip e f t).strip d = t.strip d := by cases d <;> rfl

/-- A fault with a strip's engine becomes pending at the strip's place. -/
theorem pendFault_strip {s : State} {i ti : Nat} {t : Tile} {e : StripId} {f : PFault} (ht : s.tile? i ti = some t)
    (hfin : t.seq.finished = false) (hf : f.engine = BitVec.ofNat 3 (stripId e)) :
    s.pendFault i ti none f = s.modTile i ti (pendStrip e f) := by
  cases e <;> simp only [State.pendFault, ht, hfin, hf, Bool.false_eq_true, if_false] <;> rfl

/-! ### The fault of a result -/

section
variable {e : StripId} {f : Flight}

theorem fault?_eq_none (hlen : f.lenmis = false) (htag : f.tagt = none) (htrap : (flagSummary f.flags &&& f.mode.extractLsb' 8 5) = 0) :
    f.fault? e = none := by
  simp [Flight.fault?, hlen, htag, htrap]

/-- A mismatch of lengths comes before one of tags, and that before a trap (log 53). -/
theorem exists_fault? (h : f.lenmis = true ∨ f.tagt.isSome ∨ (flagSummary f.flags &&& f.mode.extractLsb' 8 5) ≠ 0) :
    ∃ p, f.fault? e = some p ∧ p.engine = BitVec.ofNat 3 (stripId e) ∧ p.page = none ∧
      (f.lenmis = true → p.code = 0x0E ∧ p.info = f.addr) ∧
      (∀ a b, f.lenmis = false → f.tagt = some (a, b) → p.code = 0x0D ∧ p.info = BitVec.ofNat 64 (a.toNat * 256 + b.toNat)) ∧
      (f.lenmis = false → f.tagt = none → p.code = 0x0B ∧ p.info = f.addr) := by
  cases hlen : f.lenmis with
  | true => exact ⟨⟨0x0E, BitVec.ofNat 3 (stripId e), f.addr, none⟩, by simp [Flight.fault?, hlen, cLength], by simp⟩
  | false =>
    cases htag : f.tagt with
    | some ab =>
      exact ⟨⟨0x0D, BitVec.ofNat 3 (stripId e), BitVec.ofNat 64 (ab.1.toNat * 256 + ab.2.toNat), none⟩,
        by simp [Flight.fault?, hlen, htag, cChannel, w64], by simp; rintro a b rfl; rfl⟩
    | none =>
      have htrap : (flagSummary f.flags &&& f.mode.extractLsb' 8 5) ≠ 0 := by simpa [hlen, htag] using h
      exact ⟨⟨0x0B, BitVec.ofNat 3 (stripId e), f.addr, none⟩, by simpa [Flight.fault?, hlen, htag, cArith] using htrap, by simp⟩

end

/-! ### The second phase -/

/-- The E-strip whose words that are due the second phase has rounded. -/
def roundedDue (cyc : Nat) (x : Strip) : Strip :=
  { x with flight := x.flight.map fun f => if f.due ≤ cyc then { f with rounded := true } else f }

/-- The tile after the second phase, whose clock has run on for n cycles (R224). -/
def secondPhase (n : Nat) (t : Tile) : Tile :=
  { t with sr := { t.sr with cycle := t.sr.cycle + BitVec.ofNat 64 n }, runCycles := t.runCycles + n, est := roundedDue t.cyc t.est }

theorem hardDue_secondPhase (n : Nat) (t : Tile) : (secondPhase n t).hardDue = [] := by
  simp only [Tile.hardDue, Tile.dueOf, List.filter_filter, List.filter_eq_nil_iff]
  intro f hf
  obtain ⟨g, -, rfl⟩ := List.mem_map.mp (show f ∈ t.est.flight.map _ from hf)
  by_cases hg : g.due ≤ t.cyc
  · simp [hg]
  · have hlater : ¬g.due ≤ (secondPhase n t).cyc := hg
    simp [hg, hlater]

theorem outs_secondPhase (n : Nat) (t : Tile) : (secondPhase n t).est.flight.map (·.outs) = t.est.flight.map (·.outs) := by
  show (t.est.flight.map _).map _ = _
  rw [List.map_map]
  refine List.map_congr_left fun f _ => ?_
  show Flight.outs (if f.due ≤ t.cyc then _ else f) = f.outs
  split <;> rfl

/-- The most hard elements of any quarter of one word, each of c cycles. -/
theorem cycles_of_one (h0 h1 h2 h3 c : Nat) :
    (List.range 4).foldl (fun m q => Nat.max m (([h0, h1, h2, h3].getD q 0) * c)) 0 = max (max h0 h1) (max h2 h3) * c := by
  have : (List.range 4).foldl (fun m q => Nat.max m (([h0, h1, h2, h3].getD q 0) * c)) 0 =
      max (max (max (max 0 (h0 * c)) (h1 * c)) (h2 * c)) (h3 * c) := rfl
  rw [this]
  simp only [Nat.zero_max, Nat.mul_max_mul_right, Nat.max_assoc]

theorem exec_secondPhaseRound {s : State} {x : Inst} {t : Tile} {f : Flight} {h0 h1 h2 h3 : Nat} (hx : s.insts[s.focus.inst]? = some x)
    (ht : x.tiles[s.focus.tile]? = some t) (hplace : t.place = .running) (hphase : t.phase = .start) (hclear : s.startClear x t = true)
    (hdue : t.hardDue = [f]) (hhard : f.hard = [h0, h1, h2, h3]) :
    (let n := max (max h0 h1) (max h2 h3) * (if f.wide then 96 else 48)
     exec .secondPhaseRound s = .next ((s.count x.tag 0x10 n).modFocus (secondPhase n))) := by
  show execSecondPhaseRound s = _
  rw [execSecondPhaseRound, s.onTile_of x t _ hx ht]
  simp only [hplace, hphase, hclear, hdue, hhard, List.isEmpty_cons, bne_self_eq_false, Bool.not_true, Bool.or_self, Bool.false_eq_true,
    if_false, List.map_cons, List.map_nil, List.foldl_cons, List.foldl_nil, Nat.zero_add, cycles_of_one]
  rfl

/-! ### The obligation -/

/-- Settles O24, by the rules on the parts of one result: its output goes to one place, its flags and hard elements are raised, and a result
with a fault leaves that fault at its strip's place. -/
theorem stripResults : Obligations.StripResults := by
  unfold Obligations.StripResults
  refine ⟨?_, ?_, ?_⟩
  · intro s x t e f o hx ht hcycle hdue hkind houts hlen htag htrap
    have hkeep := k_delivered hdue
    obtain ⟨hg, hsr, hslice, hseq, -⟩ := delivered_keeps hdue
    have hone : t.deliverDue e = (t.modStrip e (withoutDue t.cyc false)).deliverFlight e (f, [o]) := by
      rw [deliverDue_of_one hdue, Flight.outputs, hkind, houts]
      rfl
    have hstrip : (delivered e t).strip e =
        raisedFlags f (((t.modStrip e (withoutDue t.cyc false)).putOut e o).strip e) := by
      rw [strip_delivered, hone, strip_deliverFlight]
    have hchan : (delivered e t).chan = ((t.modStrip e (withoutDue t.cyc false)).putOut e o).chan := by
      show (t.deliverDue e).chan = _
      rw [hone, chan_deliverFlight]
    obtain ⟨hflags, hhard, -⟩ := flags_hard_fifo_putOut (t.modStrip e (withoutDue t.cyc false)) e o
    rw [strip_modStrip] at hflags hhard
    refine ⟨_, delivered e t, exec_stripResultDue_sound hx ht hcycle hdue (fault?_eq_none hlen htag htrap), ?_, rfl, dueOf_delivered hdue, ?_,
      hkeep, hg, hsr, hslice, hseq, ?_, ?_, ?_, ?_, ?_⟩
    · rw [State.tile?_modFocus, Homes.tile?_of_insts hx ht, Option.map_some]
    · rw [hstrip]
      exact congrArg (· ||| f.flags) hflags
    · intro k
      rw [hstrip]
      show ((Tile.putOut _ e o).strip e).v[k] = _
      rw [getElem_v_putOut, strip_modStrip]
      rfl
    · intro k
      rw [chanAt_congr hchan, entries_putOut, chanAt_congr (modStrip_chan t e _)]
    · intro q hnil
      rw [hstrip, hard_raisedFlags_of_nil hnil, hhard]
      rfl
    · intro q hfour
      rw [hstrip, hard_raisedFlags hfour, hhard]
      rfl
    · intro hpush
      show (t.deliverDue e).fifo = _
      rw [hone, fifo_deliverFlight _ e o hpush, modStrip_fifo]
  · intro s x t e f hx ht hfin hcycle hdue hfault
    obtain ⟨p, hp, hengine, hpage, hcodes⟩ := exists_fault? (e := e) hfault
    obtain ⟨-, -, -, hseq, hcyc⟩ := delivered_keeps hdue
    have hdelivered : (s.modFocus (delivered e)).tile? s.focus.inst s.focus.tile = some (delivered e t) := by
      rw [State.tile?_modFocus, Homes.tile?_of_insts hx ht, Option.map_some]
    have htile : ((s.modFocus (delivered e)).modFocus fun t => t.modStrip e stopped).tile? s.focus.inst s.focus.tile =
        some ((delivered e t).modStrip e stopped) :=
      (State.tile?_modFocus _ _).trans (congrArg _ hdelivered)
    have hstop : ((delivered e t).modStrip e stopped).seq = t.seq := (modStrip_seq _ e _).trans hseq
    have hpend := pendFault_strip htile (by rwa [hstop]) hengine
    refine ⟨_, pendStrip e p ((delivered e t).modStrip e stopped), p, exec_stripResultDue_fault hx ht hcycle hdue hp, ?_, ?_, ?_, ?_,
      by cases e <;> rfl, hengine, hpage, hcodes⟩
    · rw [hpend, State.tile?_modTile, htile, Option.map_some]
    · rw [strip_pendStrip, strip_modStrip]
      rfl
    · show (((pendStrip e p _).strip e).flight.filter _) = _
      rw [strip_pendStrip, strip_modStrip]
      show ((delivered e t).strip e).flight.filter (fun f => decide (f.due ≤ ((delivered e t).modStrip e stopped).cyc)) = []
      rw [modStrip_cyc]
      exact dueOf_delivered hdue
    · show ((delivered e t).modStrip e stopped).seq.block = _
      rw [hstop]
  · intro s x t f h0 h1 h2 h3 hx ht hplace hphase hclear hdue hhard
    refine ⟨_, secondPhase _ t, exec_secondPhaseRound hx ht hplace hphase hclear hdue hhard, ?_, hardDue_secondPhase _ t, rfl, rfl, rfl, rfl,
      rfl, outs_secondPhase _ t, rfl, rfl⟩
    exact (State.tile?_modFocus _ _).trans (congrArg _ (Homes.tile?_of_insts hx ht))

end Sys2Proof.Strips
end

section
/-! The elements of beats of a type, integer values of elements, and PACKB and UNPACKB (R93, R98, R99, R207). -/

open Sys2Proof.Machine

namespace Sys2Proof.Strips

/-! ### The elements of a beat (R99) -/

section
variable {t : BitVec 4} (ht : t ∉ [(0x5 : BitVec 4), 0x6, 0x7])
include ht

theorem isBlock_of_not_mem : isBlock t = false := by
  revert t
  decide

theorem perBeat_eq : perBeat t = 6144 / fmtWidth t := by
  revert t
  decide

theorem fmtWidth_mul_perBeat : fmtWidth t * perBeat t = 6144 := by
  revert t
  decide

theorem length_beatElems (b : Beat) : (beatElems t b).length = perBeat t := by
  rw [beatElems, isBlock_of_not_mem ht]
  exact length_elems ..

theorem getElem?_beatElems {j : Nat} (hj : j < perBeat t) (b : Beat) : (beatElems t b)[j]? = some (laneOf t b j) := by
  rw [beatElems, isBlock_of_not_mem ht]
  exact getElem?_elems hj _

theorem getD_beatElems {j : Nat} (hj : j < perBeat t) (b : Beat) : (beatElems t b).getD j 0 = laneOf t b j := by
  rw [List.getD_eq_getElem?_getD, getElem?_beatElems ht hj, Option.getD_some]

theorem getElem?_beatElems_append {j : Nat} (hj : j < 2 * perBeat t) (a b : Beat) :
    (beatElems t a ++ beatElems t b)[j]? = some (if j < perBeat t then laneOf t a j else laneOf t b (j - perBeat t)) := by
  rw [List.getElem?_append, length_beatElems ht]
  split
  case isTrue h => exact getElem?_beatElems ht h a
  case isFalse h => exact getElem?_beatElems ht (by omega) b

/-- An element of a beat that is made of elements. -/
theorem laneOf_ofBeatElems {j : Nat} (hj : j < perBeat t) (l : List Nat) : laneOf t (ofBeatElems t l) j = l.getD j 0 % 2 ^ fmtWidth t := by
  have hfits : fmtWidth t * j + fmtWidth t ≤ 6144 := by
    rw [← Nat.mul_succ, ← fmtWidth_mul_perBeat ht]
    exact Nat.mul_le_mul_left _ hj
  rw [laneOf, ofBeatElems, BitVec.toNat_ofNat, field_mod_two_pow hfits, ofElems_field]

end

theorem laneOf_lt (t : BitVec 4) (b : Beat) (j : Nat) : laneOf t b j < 2 ^ fmtWidth t := Nat.mod_lt _ (by positivity)

/-! ### The integer value of an element (R93, R98) -/

theorem cast_wrapTo (w : Nat) (v : Int) : (wrapTo w v : Int) = v % 2 ^ w := by
  rw [wrapTo, Int.toNat_of_nonneg (Int.emod_nonneg _ (by positivity))]
  push_cast
  rfl

theorem wrapTo_mod (w : Nat) (v : Int) : wrapTo w v % 2 ^ w = wrapTo w v := by
  refine Nat.mod_eq_of_lt ?_
  zify
  rw [cast_wrapTo]
  exact Int.emod_lt_of_pos _ (by positivity)

/-- The balanced value of a number of w bits is its two's complement. -/
theorem bmod_two_pow {w x : Nat} (hw : 0 < w) (hx : x < 2 ^ w) :
    Int.bmod x (2 ^ w) = if 2 ^ (w - 1) ≤ x then (x : Int) - (2 ^ w : Nat) else x := by
  have hhalf : 2 ^ w = 2 * 2 ^ (w - 1) := by rw [← pow_succ', Nat.sub_add_cancel hw]
  rw [Int.bmod_def, Int.emod_eq_of_lt (by positivity) (by exact_mod_cast hx), hhalf]
  split <;> split <;> omega

/-- The integer formats (R94). -/
def integerFormats : List (BitVec 4) := [0x8, 0x9, 0xB, 0xC, 0xD, 0xE, 0xF]

section
variable {t : BitVec 4} (ht : t ∈ integerFormats)
include ht

theorem isSigned_iff_of_integer : isSigned t = true ↔ (t = 0xB ∨ t = 0xC ∨ t = 0x8 ∨ t = 0x9) := by
  revert t
  decide

theorem not_block_of_integer : t ∉ [(0x5 : BitVec 4), 0x6, 0x7] := by
  revert t
  decide

theorem fmtWidth_pos_of_integer : 0 < fmtWidth t := by
  revert t
  decide

theorem intMin_eq_laneLeast : intMin t = laneLeast t := by
  revert t
  decide

theorem intMax_eq_laneMost : intMax t = laneMost t := by
  revert t
  decide

theorem laneLeast_le_laneMost : laneLeast t ≤ laneMost t := by
  revert t
  decide

theorem intVal_eq_laneInt {x : Nat} (hx : x < 2 ^ fmtWidth t) : intVal t x = laneInt t x := by
  by_cases hs : t = 0xB ∨ t = 0xC ∨ t = 0x8 ∨ t = 0x9
  · rw [laneInt, if_pos hs, bmod_two_pow (fmtWidth_pos_of_integer ht) hx]
    simp only [intVal, (isSigned_iff_of_integer ht).mpr hs, Nat.mod_eq_of_lt hx, Bool.true_and, decide_eq_true_eq]
  · have hu : isSigned t = false := Bool.eq_false_iff.mpr fun h => hs ((isSigned_iff_of_integer ht).mp h)
    rw [laneInt, if_neg hs, intVal, hu, Nat.mod_eq_of_lt hx]
    rfl

theorem intVal_laneOf (b : Beat) (j : Nat) : intVal t (laneOf t b j) = laneInt t (laneOf t b j) := intVal_eq_laneInt ht (laneOf_lt t b j)

theorem saturate_eq (v : Int) : saturate t v = max (laneLeast t) (min (laneMost t) v) := by
  have := laneLeast_le_laneMost ht
  rw [saturate, intMin_eq_laneLeast ht, intMax_eq_laneMost ht]
  split
  · omega
  · split <;> omega

end

/-! ### PACKB and UNPACKB (R207) -/

/-- A type and the type of half its width (R207). -/
def halvings : List (BitVec 4 × BitVec 4) := [(0x8, 0x9), (0xC, 0x8), (0xF, 0xD), (0xB, 0xC), (0xE, 0xF)]

section
variable {t u : BitVec 4} (h : (t, u) ∈ halvings)
include h

theorem narrowFmt_of_halving : narrowFmt t = u := by
  revert t u
  decide

theorem widenFmt_of_halving : widenFmt u = t := by
  revert t u
  decide

theorem perBeat_of_halving : perBeat u = 2 * perBeat t := by
  revert t u
  decide

theorem integer_of_halving : t ∈ integerFormats ∧ u ∈ integerFormats := by
  revert t u
  decide

/-- PACKB, element by element: those of A and then those of B, narrowed. -/
theorem laneOf_packb (sat : Bool) (a b : Beat) {j : Nat} (hj : j < 2 * perBeat t) :
    (let v := laneInt t (if j < perBeat t then laneOf t a j else laneOf t b (j - perBeat t))
     (laneOf u (packb t sat a b) j : Int) = (if sat then max (laneLeast u) (min (laneMost u) v) else v) % 2 ^ fmtWidth u) := by
  intro v
  obtain ⟨ht, hu⟩ := integer_of_halving h
  have hv : intVal t (if j < perBeat t then laneOf t a j else laneOf t b (j - perBeat t)) = v := by
    refine intVal_eq_laneInt ht ?_
    split <;> exact laneOf_lt ..
  rw [packb, narrowFmt_of_halving h, laneOf_ofBeatElems (not_block_of_integer hu) (by rwa [perBeat_of_halving h]),
    List.getD_eq_getElem?_getD, List.getElem?_map, getElem?_beatElems_append (not_block_of_integer ht) hj, Option.map_some, Option.getD_some,
    wrapTo_mod, cast_wrapTo, saturate_eq hu, hv]

/-- UNPACKB, element by element: those of the half of A that k names, widened. -/
theorem laneOf_unpackb {k : Nat} (hk : k ≤ 1) (a : Beat) {j : Nat} (hj : j < perBeat t) :
    (laneOf t (unpackb u k a) j : Int) = laneInt u (laneOf u a (k * perBeat t + j)) % 2 ^ fmtWidth t := by
  obtain ⟨ht, hu⟩ := integer_of_halving h
  have hhalf : perBeat u / 2 = perBeat t := by rw [perBeat_of_halving h]; omega
  have hfirst : k * perBeat u / 2 = k * perBeat t := by
    rw [perBeat_of_halving h, Nat.mul_left_comm, Nat.mul_div_cancel_left _ (by decide)]
  have hlt : k * perBeat t + j < perBeat u := by
    have : k * perBeat t ≤ 1 * perBeat t := Nat.mul_le_mul_right _ hk
    rw [perBeat_of_halving h]
    omega
  rw [unpackb, widenFmt_of_halving h, laneOf_ofBeatElems (not_block_of_integer ht) hj, hhalf, hfirst, List.getD_eq_getElem?_getD,
    List.getElem?_map, List.getElem?_take_of_lt hj, List.getElem?_drop, getElem?_beatElems (not_block_of_integer hu) hlt, Option.map_some,
    Option.getD_some, wrapTo_mod, cast_wrapTo, intVal_laneOf hu]

end

/-- Settles O21, by the lemmas on an element of a beat that is made of elements. -/
theorem packedLanes : Obligations.PackedLanes := by
  unfold Obligations.PackedLanes
  intro t u mode imm a b c j h
  obtain ⟨ht, -⟩ := integer_of_halving h
  rw [← perBeat_eq (not_block_of_integer ht)]
  exact ⟨laneOf_packb h _ a b, rfl, fun hk hj => laneOf_unpackb h hk a hj, rfl⟩

end Sys2Proof.Strips
end

section
/-! Integer and permuting words, element by element (R200-R202, R205). -/

open Sys2Proof.Machine

namespace Sys2Proof.Strips

/-! ### Element by element (R200) -/

theorem getElem?_zip3 (f : Nat → Nat → Nat → Elem) (l m n : List Nat) (j : Nat) {x y z : Nat} (hx : l[j]? = some x) (hy : m[j]? = some y)
    (hz : n[j]? = some z) : (zip3 f l m n)[j]? = some (f x y z) := by
  induction l generalizing m n j with
  | nil => simp at hx
  | cons a l ih =>
    cases m with
    | nil => simp at hy
    | cons b m =>
      cases n with
      | nil => simp at hz
      | cons c n =>
        cases j with
        | zero =>
          simp only [List.getElem?_cons_zero, Option.some.injEq] at hx hy hz
          simp [zip3, hx, hy, hz]
        | succ j =>
          simp only [List.getElem?_cons_succ] at hx hy hz
          exact ih m n j hx hy hz

theorem exists_of_mem_zip3 {f : Nat → Nat → Nat → Elem} {l m n : List Nat} {e : Elem} (h : e ∈ zip3 f l m n) :
    ∃ x ∈ l, ∃ y ∈ m, ∃ z ∈ n, e = f x y z := by
  induction l generalizing m n with
  | nil => simp [zip3] at h
  | cons a l ih =>
    cases m with
    | nil => simp [zip3] at h
    | cons b m =>
      cases n with
      | nil => simp [zip3] at h
      | cons c n =>
        obtain rfl | h := List.mem_cons.mp (show e ∈ f a b c :: zip3 f l m n from h)
        · exact ⟨a, by simp, b, by simp, c, by simp, rfl⟩
        · obtain ⟨x, hx, y, hy, z, hz, rfl⟩ := ih h
          exact ⟨x, by simp [hx], y, by simp [hy], z, by simp [hz], rfl⟩

theorem laneOf_aWord {t : BitVec 4} (ht : t ∉ [(0x5 : BitVec 4), 0x6, 0x7]) {j : Nat} (hj : j < perBeat t) (op : Nat) (mode : BitVec 3)
    (a b c : Beat) :
    laneOf t (aWord op t mode a b c).1 j = (aElem op t mode (laneOf t a j) (laneOf t b j) (laneOf t c j)).1 % 2 ^ fmtWidth t := by
  have hz := getElem?_zip3 (aElem op t mode) _ _ _ j (getElem?_beatElems ht hj a) (getElem?_beatElems ht hj b) (getElem?_beatElems ht hj c)
  rw [aWord, laneOf_ofBeatElems ht hj, List.getD_eq_getElem?_getD, List.getElem?_map, hz, Option.map_some, Option.getD_some]

theorem lt_of_mem_elems {w n x y : Nat} (h : y ∈ elems w n x) : y < 2 ^ w := by
  induction n generalizing x with
  | zero => simp [elems] at h
  | succ n ih =>
    obtain rfl | h := List.mem_cons.mp (show y ∈ _ :: elems w n _ from h)
    · exact Nat.mod_lt _ (by positivity)
    · exact ih h

theorem flags_aWord {op : Nat} {t : BitVec 4} {mode : BitVec 3}
    (h : ∀ x y z, x < 2 ^ fmtWidth t → y < 2 ^ fmtWidth t → z < 2 ^ fmtWidth t → (aElem op t mode x y z).2 = 0) (a b c : Beat) :
    (aWord op t mode a b c).2 = 0 := by
  refine laneFlags_eq_zero fun f hf => ?_
  obtain ⟨e, he, rfl⟩ := List.mem_map.mp hf
  obtain ⟨x, hx, y, hy, z, hz, rfl⟩ := exists_of_mem_zip3 he
  exact h x y z (lt_of_mem_elems hx) (lt_of_mem_elems hy) (lt_of_mem_elems hz)

/-! ### Integer results (R200-R202) -/

/-- The element e is the integer v wrapped to the width w, with no flag. -/
def IsLane (w : Nat) (e : Elem) (v : Int) : Prop := (e.1 : Int) % 2 ^ w = v % 2 ^ w ∧ e.2 = 0

theorem isLane_quiet {w x : Nat} {v : Int} (h : (x : Int) = v) : IsLane w (quiet x) v := ⟨by rw [quiet, h], rfl⟩

theorem isLane_wrapTo (w : Nat) (v : Int) : IsLane w (quiet (wrapTo w v)) v := ⟨by rw [quiet, cast_wrapTo, Int.emod_emod], rfl⟩

theorem isLane_mod (w x : Nat) : IsLane w (quiet (x % 2 ^ w)) x := ⟨by simp [quiet], rfl⟩

/-- All ones of the width is -1. -/
theorem ones_emod (w : Nat) : ((2 ^ w - 1 : Nat) : Int) % 2 ^ w = -1 % 2 ^ w := by
  have hcast : ((2 ^ w - 1 : Nat) : Int) = -1 + 2 ^ w := by
    have hpos : 1 ≤ 2 ^ w := Nat.one_le_two_pow
    push_cast [hpos]
    ring
  rw [hcast, Int.add_emod_right]

/-- A mask of all ones or none is -1 or 0 (R202). -/
theorem isLane_mask (w : Nat) (p : Prop) [Decidable p] : IsLane w (quiet (if decide p then 2 ^ w - 1 else 0)) (if p then -1 else 0) := by
  by_cases hp : p
  · simp only [hp, decide_true, if_true]
    exact ⟨ones_emod w, rfl⟩
  · simp only [hp, decide_false, if_false, Bool.false_eq_true]
    exact isLane_quiet rfl

theorem isLane_notElem {w x : Nat} (hx : x < 2 ^ w) : IsLane w (quiet (notElem w x)) (-1 - x) := by
  have hcast : ((notElem w x : Nat) : Int) = ((2 ^ w - 1 : Nat) : Int) - x := by
    rw [notElem]
    omega
  refine ⟨?_, rfl⟩
  rw [quiet, hcast, Int.sub_emod, ones_emod, ← Int.sub_emod]

theorem countP_lt_range (w m : Nat) : ((List.range w).countP fun k => decide (k < m)) = min w m := by
  induction w with
  | zero => simp
  | succ w ih =>
    rw [List.range_succ, List.countP_append, ih, List.countP_singleton]
    by_cases h : w < m <;> simp [h] <;> omega

/-- The zeros above the highest 1 are the places whose powers of two lie above the number. -/
theorem clzNat_eq {w x : Nat} (hx : x < 2 ^ w) : clzNat w x = (List.range w).countP fun k => decide (x < 2 ^ (w - 1 - k)) := by
  by_cases h0 : x = 0
  · simp [clzNat, h0]
  · have hlog : x.log2 < w := (Nat.log2_lt h0).mpr hx
    have hiff : ∀ k ∈ List.range w, decide (x < 2 ^ (w - 1 - k)) = true ↔ decide (k < w - 1 - x.log2) = true := fun k _ => by
      rw [decide_eq_true_eq, decide_eq_true_eq, ← Nat.log2_lt h0]
      omega
    rw [List.countP_congr hiff, countP_lt_range, clzNat, if_neg h0]
    omega

theorem popcNat_eq (w x : Nat) : popcNat w x = (List.range w).countP fun k => x.testBit k := by
  induction w generalizing x with
  | zero => rfl
  | succ w ih =>
    have hlow : x % 2 = if x.testBit 0 then 1 else 0 := by
      rw [Nat.testBit_zero]
      rcases Nat.mod_two_eq_zero_or_one x with h | h <;> simp [h]
    have hhigh : ((fun k => x.testBit k) ∘ Nat.succ) = fun k => (x / 2).testBit k := funext fun k => Nat.testBit_succ x k
    rw [popcNat, ih, List.range_succ_eq_map, List.countP_cons, List.countP_map, hhigh, hlow, Nat.add_comm]

section
variable {t : BitVec 4} (ht : t ∈ integerFormats)
include ht

theorem isF_of_integer : isF t = false := by
  revert t
  decide

theorem laneInt_emod {x : Nat} (hx : x < 2 ^ fmtWidth t) : laneInt t x % 2 ^ fmtWidth t = x := by
  rw [← intVal_eq_laneInt ht hx, intVal, Nat.mod_eq_of_lt hx]
  have hself : (x : Int) % 2 ^ fmtWidth t = x := Int.emod_eq_of_lt (by positivity) (by exact_mod_cast hx)
  split
  · push_cast
    rw [Int.sub_emod_right, hself]
  · exact hself

theorem minMax_of_integer (big : Bool) (x y : Nat) : minMax t big x y = quiet (iMinMax t big x y) := by
  rw [minMax, isF_of_integer ht]
  rfl

/-- The arithmetic shift of a signed element (R202). -/
theorem sra_eq {x : Nat} (hx : x < 2 ^ fmtWidth t) (y : Nat) :
    (if 2 ^ (fmtWidth t - 1) ≤ x then (x : Int) - (2 ^ fmtWidth t : Nat) else x) / (2 ^ (if fmtWidth t ≤ y then fmtWidth t else y) : Nat) =
      Int.bmod x (2 ^ fmtWidth t) / 2 ^ min y (fmtWidth t) := by
  have hmin : (if fmtWidth t ≤ y then fmtWidth t else y) = min y (fmtWidth t) := by split <;> omega
  rw [hmin, bmod_two_pow (fmtWidth_pos_of_integer ht) hx]
  push_cast
  rfl

section
variable {x y : Nat} (hx : x < 2 ^ fmtWidth t) (hy : y < 2 ^ fmtWidth t)
include hx hy

/-- MIN and MAX of class I select the lesser or the greater operand (R201). -/
theorem laneInt_iMinMax (big : Bool) : iMinMax t big x y < 2 ^ fmtWidth t ∧
    laneInt t (iMinMax t big x y) = if big then max (laneInt t x) (laneInt t y) else min (laneInt t x) (laneInt t y) := by
  rw [iMinMax, intVal_eq_laneInt ht hx, intVal_eq_laneInt ht hy]
  by_cases h : laneInt t x < laneInt t y <;> cases big <;> simp [h, hx, hy] <;> omega

theorem isLane_minMax (big : Bool) :
    IsLane (fmtWidth t) (minMax t big x y) (if big then max (laneInt t x) (laneInt t y) else min (laneInt t x) (laneInt t y)) := by
  obtain ⟨hlt, hval⟩ := laneInt_iMinMax ht hx hy big
  rw [minMax_of_integer ht, ← hval]
  exact ⟨by rw [laneInt_emod ht hlt]; exact Int.emod_eq_of_lt (by positivity) (by exact_mod_cast hlt), rfl⟩

theorem isLane_cmpElem :
    IsLane (fmtWidth t) (cmpElem t 0 x y) (if laneInt t x = laneInt t y then -1 else 0) ∧
    IsLane (fmtWidth t) (cmpElem t 1 x y) (if laneInt t x ≠ laneInt t y then -1 else 0) ∧
    IsLane (fmtWidth t) (cmpElem t 2 x y) (if laneInt t x < laneInt t y then -1 else 0) ∧
    IsLane (fmtWidth t) (cmpElem t 3 x y) (if laneInt t x ≤ laneInt t y then -1 else 0) := by
  simp only [cmpElem, isF_of_integer ht, Bool.false_eq_true, if_false, intVal_eq_laneInt ht hx, intVal_eq_laneInt ht hy]
  exact ⟨isLane_mask _ _, isLane_mask _ _, isLane_mask _ _, isLane_mask _ _⟩

variable {z : Nat} (hz : z < 2 ^ fmtWidth t)
include hz

/-- An A-strip word of an integer type gives the integer that its row names, with no flag. -/
theorem isLane_aElem (mode : BitVec 3) {op : Nat} {v : Int} (h : integerLane op t x y z = some v) :
    IsLane (fmtWidth t) (aElem op t mode x y z) v := by
  have hF := isF_of_integer ht
  have ha := intVal_eq_laneInt ht hx
  have hb := intVal_eq_laneInt ht hy
  have hc := intVal_eq_laneInt ht hz
  obtain ⟨heq, hne, hlt, hle⟩ := isLane_cmpElem ht hx hy
  unfold integerLane at h
  split at h <;> simp only [Option.some.injEq, reduceCtorEq] at h <;> subst h <;> simp only [aElem, hF, ha, hb, hc, Bool.false_eq_true, if_false]
  -- ADD, SUB, MUL, MIN, MAX, ABS and NEG
  · exact isLane_wrapTo _ _
  · exact isLane_wrapTo _ _
  · exact isLane_wrapTo _ _
  · exact isLane_minMax ht hx hy false
  · exact isLane_minMax ht hx hy true
  · rw [← Int.natCast_natAbs]
    exact isLane_wrapTo _ _
  · exact isLane_wrapTo _ _
  -- CMPEQ, CMPNE, CMPLT and CMPLE
  · exact heq
  · exact hne
  · exact hlt
  · exact hle
  -- SEL, MOV, AND, OR, XOR and NOT
  · exact isLane_quiet (by split <;> rfl)
  · exact isLane_quiet rfl
  · exact isLane_quiet rfl
  · exact isLane_quiet rfl
  · exact isLane_quiet rfl
  · exact isLane_notElem hx
  -- SHL, SHR and SRA
  · split
    · exact isLane_quiet rfl
    · exact_mod_cast isLane_mod (fmtWidth t) (x * 2 ^ y)
  · exact isLane_quiet (by split <;> simp)
  · rw [sra_eq ht hx]
    exact isLane_wrapTo _ _
  -- MULH, MADD, ADDS, SUBS and CLAMP
  · exact_mod_cast isLane_wrapTo (fmtWidth t) (laneInt t x * laneInt t y / (2 ^ fmtWidth t : Nat))
  · exact isLane_wrapTo _ _
  · rw [saturate_eq ht]
    exact isLane_wrapTo _ _
  · rw [saturate_eq ht]
    exact isLane_wrapTo _ _
  · obtain ⟨hm, hval⟩ := laneInt_iMinMax ht hx hy true
    have hclamp := isLane_minMax ht hm hz false
    rw [hval] at hclamp
    rw [minMax_of_integer ht] at hclamp ⊢
    rw [minMax_of_integer ht]
    exact ⟨hclamp.1, show fNone ||| fNone = 0 by decide⟩
  -- ABSD, AVG, CLZ and POPC
  · rw [absdElem, hF, ha, hb, ← Int.natCast_natAbs]
    exact isLane_quiet rfl
  · exact isLane_wrapTo _ _
  · rw [clzNat_eq hx]
    exact isLane_quiet rfl
  · rw [popcNat_eq]
    exact isLane_quiet rfl

end

end

/-- A word whose row names an integer names one for every operand. -/
theorem exists_integerLane {op : Nat} {t : BitVec 4} {x y z : Nat} {v : Int} (h : integerLane op t x y z = some v) (x' y' z' : Nat) :
    ∃ v', integerLane op t x' y' z' = some v' := by
  unfold integerLane at h
  split at h
  case h_30 => cases h
  all_goals exact ⟨_, rfl⟩

/-- An A-strip word of an integer type, element by element. -/
theorem integer_aWord {op : Nat} {t : BitVec 4} (mode : BitVec 3) {a b c : Beat} {j : Nat} {v : Int} (ht : t ∈ integerFormats)
    (hj : j < perBeat t) (h : integerLane op t (laneOf t a j) (laneOf t b j) (laneOf t c j) = some v) :
    (laneOf t (aWord op t mode a b c).1 j : Int) = v % 2 ^ fmtWidth t ∧ (aWord op t mode a b c).2 = 0 := by
  constructor
  · rw [laneOf_aWord (not_block_of_integer ht) hj]
    push_cast
    exact (isLane_aElem ht (laneOf_lt t a j) (laneOf_lt t b j) (laneOf_lt t c j) mode h).1
  · refine flags_aWord (fun x y z hx hy hz => ?_) a b c
    obtain ⟨v', h'⟩ := exists_integerLane h x y z
    exact (isLane_aElem ht hx hy hz mode h').2

/-! ### Permuting words (R205) -/

section
variable {t : BitVec 4} (ht : t ∉ [(0x5 : BitVec 4), 0x6, 0x7]) {j : Nat} (hj : j < perBeat t)
include ht hj

/-- An element of a beat that a P-strip word generates. -/
theorem laneOf_generated {f : Nat → Nat} {x : Nat} (hf : f j = x) (hx : x < 2 ^ fmtWidth t) :
    laneOf t (ofBeatElems t ((List.range (perBeat t)).map f)) j = x := by
  rw [laneOf_ofBeatElems ht hj, List.getD_eq_getElem?_getD, List.getElem?_map, List.getElem?_range hj, Option.map_some, Option.getD_some, hf,
    Nat.mod_eq_of_lt hx]

theorem laneOf_rotl {k : Nat} (hk : k ≤ perBeat t) (a b c : Beat) : laneOf t (pMove 0x04 t k a b c) j =
    if j + k < perBeat t then laneOf t a (j + k) else laneOf t b (j + k - perBeat t) := by
  have hel : (beatElems t a ++ beatElems t b).getD (j + k) 0 =
      if j + k < perBeat t then laneOf t a (j + k) else laneOf t b (j + k - perBeat t) := by
    rw [List.getD_eq_getElem?_getD, getElem?_beatElems_append ht (by omega), Option.getD_some]
  refine laneOf_generated ht hj hel ?_
  split <;> exact laneOf_lt ..

theorem laneOf_bcast {k : Nat} (hk : k < perBeat t) (a b c : Beat) : laneOf t (pMove 0x05 t k a b c) j = laneOf t a k :=
  laneOf_generated ht hj (getD_beatElems ht hk a) (laneOf_lt ..)

theorem laneOf_shuf (k : Nat) (a b c : Beat) : laneOf t (pMove 0x03 t k a b c) j =
    if laneOf t b j < perBeat t then laneOf t a (laneOf t b j) else 0 := by
  have hel : (if perBeat t ≤ (beatElems t b).getD j 0 then 0 else (beatElems t a).getD ((beatElems t b).getD j 0) 0) =
      if laneOf t b j < perBeat t then laneOf t a (laneOf t b j) else 0 := by
    rw [getD_beatElems ht hj]
    by_cases h : laneOf t b j < perBeat t
    · rw [if_neg (by omega), if_pos h, getD_beatElems ht h]
    · rw [if_pos (by omega), if_neg h]
  refine laneOf_generated ht hj hel ?_
  split
  · exact laneOf_lt ..
  · positivity

theorem laneOf_trn {k : Nat} (hk : 0 < k) (hkn : k ≤ perBeat t) (hdvd : perBeat t % k = 0) (a b c : Beat) :
    laneOf t (pMove 0x16 t k a b c) j = laneOf t a (j % (perBeat t / k) * k + j / (perBeat t / k)) := by
  have hrows : perBeat t / k * k = perBeat t := Nat.div_mul_cancel (Nat.dvd_of_mod_eq_zero hdvd)
  have hpos : 0 < perBeat t / k := Nat.div_pos hkn hk
  have hcol : j / (perBeat t / k) < k := Nat.div_lt_of_lt_mul (by rwa [hrows])
  have hrow : j % (perBeat t / k) + 1 ≤ perBeat t / k := Nat.mod_lt _ hpos
  have hlt : j % (perBeat t / k) * k + j / (perBeat t / k) < perBeat t := by
    have := Nat.mul_le_mul_right k hrow
    rw [hrows, Nat.succ_mul] at this
    omega
  exact laneOf_generated ht hj (getD_beatElems ht hlt a) (laneOf_lt ..)

theorem laneOf_insl (k : Nat) (a b c : Beat) : laneOf t (pMove 0x17 t k a b c) j = if j = k then laneOf t a 0 else laneOf t b j := by
  have hel : (if j = k then (beatElems t a).getD 0 0 else (beatElems t b).getD j 0) = if j = k then laneOf t a 0 else laneOf t b j := by
    rw [getD_beatElems ht hj, getD_beatElems ht (by omega)]
  refine laneOf_generated ht hj hel ?_
  split <;> exact laneOf_lt ..

theorem laneOf_maskgen (k : Nat) (a b c : Beat) :
    laneOf t (pMove 0x14 t k a b c) j = if j < laneOf t a 0 then 2 ^ fmtWidth t - 1 else 0 := by
  have hel : (if j < (beatElems t a).getD 0 0 then 2 ^ fmtWidth t - 1 else 0) = if j < laneOf t a 0 then 2 ^ fmtWidth t - 1 else 0 := by
    rw [getD_beatElems ht (by omega)]
  have hpos : 0 < 2 ^ fmtWidth t := by positivity
  refine laneOf_generated ht hj hel ?_
  split <;> omega

end

theorem laneOf_iota {t : BitVec 4} (ht : t ∈ integerFormats) {j : Nat} (hj : j < perBeat t) (k : Nat) (a b c : Beat) :
    (laneOf t (pMove 0x13 t k a b c) j : Int) = (laneInt t (laneOf t a 0) + j * laneInt t (laneOf t b 0)) % 2 ^ fmtWidth t := by
  have hblock := not_block_of_integer ht
  have hel : wrapTo (fmtWidth t) (intVal t ((beatElems t a).getD 0 0) + j * intVal t ((beatElems t b).getD 0 0)) =
      wrapTo (fmtWidth t) (laneInt t (laneOf t a 0) + j * laneInt t (laneOf t b 0)) := by
    rw [getD_beatElems hblock (by omega), getD_beatElems hblock (by omega), intVal_laneOf ht, intVal_laneOf ht]
  rw [← cast_wrapTo, Nat.cast_inj]
  refine laneOf_generated hblock hj hel ?_
  rw [← wrapTo_mod]
  exact Nat.mod_lt _ (by positivity)

end Sys2Proof.Strips
end

section
/-! Exact floating-point results (R104, R105, R200): a value that is a number of the format is delivered as it is in every rounding mode, with no
flag. -/

open Sys2Proof.Machine

namespace Sys2Proof.Strips

open Sys2Proof.Rounding

/-! ### RoundTo at a number of the format (R104) -/

/-- RoundInt of an integer is that integer in every mode. -/
theorem roundInt_mul (mode : BitVec 3) (s : Bool) (r : Nat) {d : Nat} (hd : 0 < d) : roundInt mode s (r * d) d = r := by
  simp only [roundInt, Nat.mul_div_cancel r hd, Nat.mul_mod_left, Nat.mul_zero, if_pos hd, true_or, if_true]
  split <;> rfl

/-- The significand that a mode gives for num ÷ den × 2^e. -/
def significandIn (t : BitVec 4) (mode : BitVec 3) (s : Bool) (num den : Nat) (e : Int) : Nat :=
  roundInt mode s (scaleRat num den (e - unitExp t num den e)).1 (scaleRat num den (e - unitExp t num den e)).2

/-- RoundTo by its significand: an overflow, or the number with inexact where the significand is not exact. -/
theorem roundTo_eq {t : BitVec 4} (mode : BitVec 3) (s : Bool) {num den : Nat} {e : Int} (hnum : 0 < num)
    (hc : clampExp t num den e = (num, den, e)) : ∃ tiny : Bool, roundTo t mode s num den e =
      if largestSig t * (scaleRat (significandIn t mode s num den e) 1 (unitExp t num den e - (fmtEmax t - fracBits t))).2 <
        (scaleRat (significandIn t mode s num den e) 1 (unitExp t num den e - (fmtEmax t - fracBits t))).1
      then (overflowResult t mode s, fOverflow ||| fInexact)
      else (withSign t s ((unitExp t num den e - leastExp t).toNat * 2 ^ fracBits t + significandIn t mode s num den e),
        if significandIn t mode s num den e * (scaleRat num den (e - unitExp t num den e)).2 != (scaleRat num den (e - unitExp t num den e)).1
        then if tiny then fInexact ||| fUnderflow else fInexact else fNone) := by
  apply Exists.intro
  rw [roundTo, if_neg hnum.ne', hc]
  rfl

/-- Where the value is r units of the last place and not above the largest number, RoundTo delivers r units with no flag. -/
theorem roundTo_of_integral {t : BitVec 4} (mode : BitVec 3) (s : Bool) {num den r : Nat} {e : Int} (hnum : 0 < num) (hden : 0 < den)
    (hc : clampExp t num den e = (num, den, e)) (hr : (num : ℚ) / den * 2 ^ (e - unitExp t num den e) = r)
    (hle : (r : ℚ) * 2 ^ (unitExp t num den e - (fmtEmax t - fracBits t)) ≤ largestSig t) :
    roundTo t mode s num den e = (withSign t s ((unitExp t num den e - leastExp t).toNat * 2 ^ fracBits t + r), 0) := by
  have hdpos := scaleRat_den_pos num hden (e - unitExp t num den e)
  have hn : (scaleRat num den (e - unitExp t num den e)).1 = r * (scaleRat num den (e - unitExp t num den e)).2 := by
    rw [← scaleRat_value, div_eq_iff (by exact_mod_cast hdpos.ne')] at hr
    exact_mod_cast hr
  have hsig : significandIn t mode s num den e = r := by rw [significandIn, hn, roundInt_mul mode s r hdpos]
  have hover : ¬largestSig t * (scaleRat r 1 (unitExp t num den e - (fmtEmax t - fracBits t))).2 <
      (scaleRat r 1 (unitExp t num den e - (fmtEmax t - fracBits t))).1 := by
    have hlargest := scaleRat_value r 1 (unitExp t num den e - (fmtEmax t - fracBits t))
    rw [Nat.cast_one, div_one] at hlargest
    rw [← hlargest, div_le_iff₀ (by exact_mod_cast scaleRat_den_pos _ one_pos _)] at hle
    exact not_lt.mpr (by exact_mod_cast hle)
  obtain ⟨tiny, heq⟩ := roundTo_eq mode s hnum hc
  rw [heq, hsig, if_neg hover, ← hn, bne_self_eq_false]
  rfl

/-! ### The numbers of a format by their significand and exponent (R96) -/

/-- The bits of a number are its significand, of r units, in the exponent k above the least. -/
structure InUnits (t : BitVec 4) (b k r : Nat) : Prop where
  bits : b = k * 2 ^ fracBits t + r
  magnitude : magnitude t b = r * 2 ^ k
  lt : r < 2 ^ (fracBits t + 1)
  normal : k = 0 ∧ r < 2 ^ fracBits t ∨ 2 ^ fracBits t ≤ r

theorem exists_inUnits (t : BitVec 4) (b : Nat) : ∃ k r, InUnits t b k r := by
  have hF : b % 2 ^ fracBits t < 2 ^ fracBits t := Nat.mod_lt _ (by positivity)
  have hb := Nat.div_add_mod' b (2 ^ fracBits t)
  by_cases hE : b / 2 ^ fracBits t = 0
  · refine ⟨0, b % 2 ^ fracBits t, ?_, ?_, ?_, .inl ⟨rfl, hF⟩⟩
    · rw [hE, Nat.zero_mul] at hb
      rw [Nat.zero_mul]
      exact hb.symm
    · rw [Rounding.magnitude, if_pos hE, pow_zero, mul_one]
    · rw [pow_succ]
      omega
  · refine ⟨b / 2 ^ fracBits t - 1, 2 ^ fracBits t + b % 2 ^ fracBits t, ?_, ?_, ?_, .inr (Nat.le_add_right _ _)⟩
    · obtain ⟨E, hE'⟩ : ∃ E, b / 2 ^ fracBits t = E + 1 := Nat.exists_eq_succ_of_ne_zero hE
      rw [hE', Nat.succ_mul] at hb
      rw [hE', Nat.add_sub_cancel]
      omega
    · rw [Rounding.magnitude, if_neg hE]
    · rw [pow_succ]
      omega

/-- The binary formats of the A-strip (R199). -/
def stripFloats : List (BitVec 4) := [0x0, 0x1, 0x2, 0xA]

theorem floatFormat_of_stripFloat {t : BitVec 4} (ht : t ∈ stripFloats) : FloatFormat t := by
  refine floatFormat_of_mem ?_
  revert t
  decide

/-- A finite number's exponent field is not all ones (R96). -/
theorem exponent_of_ratOf {t : BitVec 4} (ht : t ∈ stripFloats) {x : Nat} {v : ℚ} (hv : ratOf t x = some v) :
    x / 2 ^ fracBits t % 2 ^ expBits t ≠ 2 ^ expBits t - 1 := by
  have h3 : (t == 3) = false := by
    clear hv
    revert t
    decide
  intro hE
  simp only [ratOf, floatVal, h3, Bool.false_eq_true, if_false, if_pos hE] at hv
  split at hv <;> cases hv

/-- The exponent field of a number with a sign is that of its magnitude. -/
theorem exponent_withSign {t : BitVec 4} (ht : FloatFormat t) {b : Nat} (hb : b < signBit t) (s : Bool) :
    withSign t s b / 2 ^ fracBits t % 2 ^ expBits t = b / 2 ^ fracBits t := by
  rw [signBit_eq ht, pow_add] at hb
  have hlt : b / 2 ^ fracBits t < 2 ^ expBits t := (Nat.div_lt_iff_lt_mul (by positivity)).mpr hb
  cases s
  · exact Nat.mod_eq_of_lt hlt
  · rw [withSign, if_pos rfl, signBit_eq ht, pow_add, Nat.add_mul_div_right _ _ (by positivity), Nat.add_mod_right, Nat.mod_eq_of_lt hlt]

/-- The exponents of the numbers of a format, and its largest significand (R95). -/
theorem largest_of_stripFloat {t : BitVec 4} (ht : t ∈ stripFloats) :
    fmtEmax t - fmtEmin t = (2 ^ expBits t - 3 : Nat) ∧ largestSig t = 2 ^ (fracBits t + 1) - 1 := by
  revert t
  decide

/-- A finite number lies not above the largest (R95). -/
theorem le_largest_of_ratOf {t : BitVec 4} (ht : t ∈ stripFloats) {s : Bool} {b k r : Nat} {v : ℚ} (hb : b < signBit t)
    (h : InUnits t b k r) (hv : ratOf t (withSign t s b) = some v) : (k : ℤ) ≤ fmtEmax t - fmtEmin t ∧ r ≤ largestSig t := by
  have hformat := floatFormat_of_stripFloat ht
  obtain ⟨hexp, hsig⟩ := largest_of_stripFloat ht
  have hE := exponent_of_ratOf ht hv
  rw [exponent_withSign hformat hb] at hE
  have hElt : b / 2 ^ fracBits t < 2 ^ expBits t := by
    rw [Nat.div_lt_iff_lt_mul (by positivity), ← pow_add, ← signBit_eq hformat]
    exact hb
  refine ⟨?_, by rw [hsig]; exact Nat.le_pred_of_lt h.lt⟩
  obtain ⟨rfl, -⟩ | hnorm := h.normal
  · exact sub_nonneg.mpr hformat.emin_le_emax
  · have hfield : b / 2 ^ fracBits t = k + 1 := by
      have hlt := h.lt
      rw [pow_succ] at hlt
      have hdiv : r / 2 ^ fracBits t = 1 := Nat.div_eq_of_lt_le (by omega) (by omega)
      rw [h.bits, Nat.mul_comm, Nat.mul_add_div (by positivity), hdiv]
    rw [hexp]
    omega

section
variable {t : BitVec 4} {num den k r : Nat} {e : Int} (hnum : 0 < num) (hden : 0 < den)
  (hval : (num : ℚ) / den * 2 ^ e = r * 2 ^ (k + leastExp t))
include hnum hden hval

/-- The logarithm of a number, from its significand and exponent. -/
theorem log_bounds {m : Nat} (hlow : 2 ^ m ≤ r) : m + (k + leastExp t) ≤ floorLog2 num den + e := by
  obtain ⟨-, hhigh⟩ := floorLog2_bounds hnum hden
  have hlt : (2 : ℚ) ^ ((m : ℤ) + (k + leastExp t)) < 2 ^ (floorLog2 num den + 1 + e) := by
    rw [zpow_add₀ two_ne_zero, zpow_add₀ two_ne_zero (floorLog2 num den + 1), zpow_natCast]
    calc (2 : ℚ) ^ m * 2 ^ (k + leastExp t) ≤ r * 2 ^ (k + leastExp t) := by gcongr; exact_mod_cast hlow
      _ = num / den * 2 ^ e := hval.symm
      _ < 2 ^ (floorLog2 num den + 1) * 2 ^ e := by gcongr
  have := (zpow_lt_zpow_iff_right₀ one_lt_two).mp hlt
  omega

theorem log_lt {m : Nat} (hhigh : r < 2 ^ m) : floorLog2 num den + e < m + (k + leastExp t) := by
  obtain ⟨hlow, -⟩ := floorLog2_bounds hnum hden
  have hlt : (2 : ℚ) ^ (floorLog2 num den + e) < 2 ^ ((m : ℤ) + (k + leastExp t)) := by
    rw [zpow_add₀ two_ne_zero, zpow_add₀ two_ne_zero (m : ℤ), zpow_natCast]
    calc (2 : ℚ) ^ floorLog2 num den * 2 ^ e ≤ num / den * 2 ^ e := by gcongr
      _ = r * 2 ^ (k + leastExp t) := hval
      _ < 2 ^ m * 2 ^ (k + leastExp t) := by gcongr; exact_mod_cast hhigh
  exact (zpow_lt_zpow_iff_right₀ one_lt_two).mp hlt

variable {b : Nat} (h : InUnits t b k r)
include h

theorem unitExp_of_inUnits : unitExp t num den e = k + leastExp t := by
  have hlt := log_lt hnum hden hval h.lt
  rw [unitExp]
  obtain ⟨rfl, hsub⟩ | hnorm := h.normal
  · have := log_lt hnum hden hval hsub
    rw [leastExp] at *
    rw [if_pos (by push_cast at *; omega)]
    simp
  · have := log_bounds hnum hden hval hnorm
    rw [leastExp] at *
    push_cast at *
    split <;> omega

theorem clampExp_of_inUnits (hpos : 0 < r) (hk : (k : ℤ) ≤ fmtEmax t - fmtEmin t) : clampExp t num den e = (num, den, e) := by
  have hlow := log_bounds hnum hden hval (m := 0) hpos
  have hhigh := log_lt hnum hden hval h.lt
  rw [leastExp] at *
  push_cast at *
  rw [clampExp, if_neg (by omega), if_neg (by omega)]

end

/-- Signed magnitudes that are the same number, other than zero, have one sign and one magnitude. -/
theorem eq_of_signed {s s' : Bool} {a b : ℚ} (ha : 0 ≤ a) (hb : 0 ≤ b) (hne : (if s then -1 else 1) * a ≠ 0)
    (h : (if s then -1 else 1) * a = (if s' then -1 else 1) * b) : s = s' ∧ a = b := by
  have hane : a ≠ 0 := right_ne_zero_of_mul hne
  have hapos : 0 < a := lt_of_le_of_ne ha hane.symm
  cases s <;> cases s' <;> simp only [Bool.false_eq_true, if_false, if_true, one_mul, neg_one_mul] at h
  · exact ⟨rfl, h⟩
  · linarith
  · linarith
  · exact ⟨rfl, neg_injective h⟩

/-- R104: RoundTo of a number of the format, other than zero, is that number in every mode, with no flag. -/
theorem roundTo_of_ratOf {t : BitVec 4} (ht : t ∈ stripFloats) (mode : BitVec 3) {s : Bool} {num den x : Nat} {e : Int} {v : ℚ}
    (hden : 0 < den) (hx : x < 2 ^ fmtWidth t) (hv : ratOf t x = some v) (hne : v ≠ 0)
    (hval : v = (if s then -1 else 1) * ((num : ℚ) / den * 2 ^ e)) : roundTo t mode s num den e = (x, 0) := by
  have hformat := floatFormat_of_stripFloat ht
  obtain ⟨s', b, hb, rfl⟩ := exists_withSign_of_lt hformat hx
  obtain ⟨k, r, h⟩ := exists_inUnits t b
  obtain ⟨hk, hr⟩ := le_largest_of_ratOf ht hb h hv
  have hv' : v = (if s' then -1 else 1) * ((r : ℚ) * 2 ^ (k + leastExp t)) := by
    rw [ratOf_withSign hformat hb hv, h.magnitude, zpow_add₀ two_ne_zero, zpow_natCast]
    push_cast
    ring
  obtain ⟨rfl, hval⟩ := eq_of_signed (by positivity) (by positivity) (hval ▸ hne) (hval.symm.trans hv')
  have hrpos : 0 < r := Nat.pos_of_ne_zero fun h0 => hne (by rw [hv', h0]; simp)
  have hnum : 0 < num := Nat.pos_of_ne_zero fun h0 => hne (by rw [hv', ← hval, h0]; simp)
  have hunit := unitExp_of_inUnits hnum hden hval h
  have hclamp := clampExp_of_inUnits hnum hden hval h hrpos hk
  rw [roundTo_of_integral mode s hnum hden hclamp (r := r), hunit, add_sub_cancel_right, Int.toNat_natCast, ← h.bits]
  · rw [hunit, zpow_sub₀ two_ne_zero, ← mul_div_assoc, hval, mul_div_cancel_right₀ _ (by positivity)]
  · have hexp : (k : ℤ) + leastExp t - (fmtEmax t - fracBits t) ≤ 0 := by
      rw [leastExp]
      omega
    rw [hunit]
    calc (r : ℚ) * 2 ^ (k + leastExp t - (fmtEmax t - fracBits t)) ≤ r * 2 ^ (0 : ℤ) := by
          gcongr
          exact one_le_two
      _ = r := by rw [zpow_zero, mul_one]
      _ ≤ largestSig t := by exact_mod_cast hr

/-! ### Arithmetic on finite values (R200) -/

theorem rat_eq_some {f : FVal} {v : ℚ} (h : f.rat = some v) :
    ∃ s m e, f = .fin s m e ∧ v = (if s then -1 else 1) * (m : ℚ) * 2 ^ e := by
  cases f with
  | nan sg => cases h
  | inf s => cases h
  | fin s m e => exact ⟨s, m, e, rfl, (Option.some.inj h).symm⟩

theorem rat_fNeg {f : FVal} {v : ℚ} (h : f.rat = some v) : (fNeg f).rat = some (-v) := by
  obtain ⟨s, m, e, rfl, rfl⟩ := rat_eq_some h
  cases s <;> simp [fNeg, FVal.rat]

/-- The number that a significand and an exponent denote. -/
def dyRat (p : Int × Int) : ℚ := p.1 * 2 ^ p.2

theorem dyRat_dyOf (s : Bool) (m : Nat) (e : Int) : dyRat (dyOf s m e) = (if s then -1 else 1) * (m : ℚ) * 2 ^ e := by
  cases s <;> simp [dyRat, dyOf]

theorem dyRat_dyAdd (p q : Int × Int) : dyRat (dyAdd p q) = dyRat p + dyRat q := by
  have hshift {a b : Int} (h : a ≤ b) : (2 : ℚ) ^ b = 2 ^ (b - a).toNat * 2 ^ a := by
    rw [← zpow_natCast, Int.toNat_of_nonneg (sub_nonneg.mpr h), ← zpow_add₀ two_ne_zero, sub_add_cancel]
  rw [dyAdd]
  split
  case isTrue h =>
    simp only [dyRat, hshift h]
    push_cast
    ring
  case isFalse h =>
    simp only [dyRat, hshift (le_of_not_ge h)]
    push_cast
    ring

section
variable {t : BitVec 4} (ht : t ∈ stripFloats) (mode : BitVec 3) {r : Nat} {v : ℚ} (hr : r < 2 ^ fmtWidth t) (hv : ratOf t r = some v)
  (hne : v ≠ 0)
include ht hr hv hne

theorem roundDy_exact (z : Bool) {p : Int × Int} (hp : dyRat p = v) : roundDy t mode z p.1 p.2 = (r, 0) := by
  have hm : p.1 ≠ 0 := fun h0 => hne (by rw [← hp, dyRat, h0]; simp)
  rw [roundDy, if_neg hm]
  have hsigned : (p.1 : ℚ) = (if decide (p.1 < 0) then -1 else 1) * (p.1.natAbs : ℚ) := by
    rw [Nat.cast_natAbs]
    by_cases h : p.1 < 0
    · simp [h, abs_of_neg h]
    · simp [h, abs_of_nonneg (not_lt.mp h)]
  refine roundTo_of_ratOf ht mode one_pos hr hv hne ?_
  rw [← hp, dyRat, Nat.cast_one, div_one, ← mul_assoc, ← hsigned]

variable {f g : FVal} {a b : ℚ} (hf : f.rat = some a) (hg : g.rat = some b)
include hf hg

theorem fAdd_exact (hsum : a + b = v) : fAdd t mode f g = (r, 0) := by
  obtain ⟨s, m, e, rfl, rfl⟩ := rat_eq_some hf
  obtain ⟨s', m', e', rfl, rfl⟩ := rat_eq_some hg
  have hval : dyRat (dyAdd (dyOf s m e) (dyOf s' m' e')) = v := by rw [dyRat_dyAdd, dyRat_dyOf, dyRat_dyOf, hsum]
  exact roundDy_exact ht mode hr hv hne (zeroSign mode s s') hval

end

/-- The product of finite values is finite, and exact. -/
theorem rat_fProd {f g : FVal} {a b : ℚ} (hf : f.rat = some a) (hg : g.rat = some b) : ∃ p, fProd f g = some p ∧ p.rat = some (a * b) := by
  obtain ⟨s, m, e, rfl, rfl⟩ := rat_eq_some hf
  obtain ⟨s', m', e', rfl, rfl⟩ := rat_eq_some hg
  refine ⟨_, rfl, ?_⟩
  rw [FVal.rat, zpow_add₀ two_ne_zero]
  cases s <;> cases s' <;> push_cast <;> simp <;> ring

theorem nanKind_of_rat {f : FVal} {a : ℚ} (hf : f.rat = some a) : nanKind f = none := by
  obtain ⟨s, m, e, rfl, -⟩ := rat_eq_some hf
  rfl

section
variable {t : BitVec 4} (ht : t ∈ stripFloats) (mode : BitVec 3) {r : Nat} {v : ℚ} (hr : r < 2 ^ fmtWidth t) (hv : ratOf t r = some v)
  (hne : v ≠ 0) {f g k : FVal} {a b c : ℚ} (hf : f.rat = some a) (hg : g.rat = some b)
include ht hr hv hne hf hg

theorem fMul_exact (hprod : a * b = v) : fMul t mode f g = (r, 0) := by
  obtain ⟨p, hp, hrat⟩ := rat_fProd hf hg
  obtain ⟨s, m, e, rfl, hval⟩ := rat_eq_some hrat
  rw [fMul, nanKind_of_rat hf, nanKind_of_rat hg, if_neg (by decide), hp]
  exact roundTo_of_ratOf ht mode one_pos hr hv hne (by rw [← hprod, hval, Nat.cast_one, div_one, mul_assoc])

theorem fFma_exact (hk : k.rat = some c) (hsum : a * b + c = v) : fFma t mode f g k = (r, 0) := by
  obtain ⟨p, hp, hrat⟩ := rat_fProd hf hg
  rw [fFma, nanKind_of_rat hf, nanKind_of_rat hg, if_neg (by decide), hp]
  exact fAdd_exact ht mode hr hv hne hrat hk hsum

end

/-- ADD, SUB, MUL, FMA, FMS and FNMA of finite numbers deliver the exact value where it is a number of the format, and not zero. -/
theorem aElem_exact {op : Nat} {t : BitVec 4} (ht : t ∈ stripFloats) (mode : BitVec 3) {x y z r : Nat} {a b c v : ℚ}
    (hr : r < 2 ^ fmtWidth t) (ha : ratOf t x = some a) (hb : ratOf t y = some b) (hc : ratOf t z = some c) (hop : exactOf op a b c = some v)
    (hne : v ≠ 0) (hv : ratOf t r = some v) : aElem op t mode x y z = (r, 0) := by
  have hF : isF t = true := by
    clear ha hb hc hv hr
    revert t
    decide
  unfold exactOf at hop
  split at hop <;> simp only [Option.some.injEq, reduceCtorEq] at hop <;> simp only [aElem, hF, if_true]
  -- ADD, SUB and MUL
  · exact fAdd_exact ht mode hr hv hne ha hb hop
  · exact fAdd_exact ht mode hr hv hne ha (rat_fNeg hb) (by rw [← hop, sub_eq_add_neg])
  · exact fMul_exact ht mode hr hv hne ha hb hop
  -- FMA, FMS and FNMA
  · exact fFma_exact ht mode hr hv hne ha hb hc hop
  · exact fFma_exact ht mode hr hv hne ha hb (rat_fNeg hc) (by rw [← hop, sub_eq_add_neg])
  · exact fFma_exact ht mode hr hv hne (rat_fNeg ha) hb hc (by rw [← hop]; ring)

/-! ### The obligation -/

/-- The integer types of the A-strip (R199). -/
theorem integer_of_strip {t : BitVec 4} (ht : t ∈ [(0x8 : BitVec 4), 0xB, 0xC, 0xD, 0xE, 0xF]) : t ∈ integerFormats := by
  revert t
  decide

/-- Settles O20, element by element: by the integers of the A-strip's rows, by the element that each permuting word places, and by RoundTo
of a number of the format. -/
theorem elementLanes : Obligations.ElementLanes := by
  unfold Obligations.ElementLanes
  refine ⟨?_, ?_, ?_⟩
  · intro op t mode a b c j v ht hj h
    rw [← perBeat_eq (not_block_of_integer (integer_of_strip ht))] at hj
    exact integer_aWord mode (integer_of_strip ht) hj h
  · intro t mode imm a b c j ht
    rw [← perBeat_eq ht]
    intro n w k lane hj
    exact ⟨fun hk => laneOf_rotl ht hj hk a b c, fun hk => laneOf_bcast ht hj hk a b c, laneOf_shuf ht hj k a b c,
      fun hk hkn hdvd => laneOf_trn ht hj hk hkn hdvd a b c, fun _ => laneOf_insl ht hj k a b c, laneOf_maskgen ht hj k a b c,
      fun hint => laneOf_iota (integer_of_strip hint) hj k a b c⟩
  · intro op t mode x y z r a b c v ht _ _ _ hr ha hb hc hop hne hv
    exact aElem_exact ht mode hr ha hb hc hop hne hv

end Sys2Proof.Strips
end
